-- ==== Sys2Proof/Word.lean ====
section
/-! DEFINITION. The word and byte types of the register space (R29: registers are 32 bits wide). -/

namespace Sys2Proof

/-- A 32-bit register or table word (R29). -/
abbrev Word := BitVec 32

/-- One byte of a buffer or of the boot flash. -/
abbrev Byte := BitVec 8

end Sys2Proof
end

