-- ==== Sys2Proof/Config.lean ====
section
/-! DEFINITION. What the spec leaves to the single unit or gives only by reference: constants without a body, of which
no value can be proved (log entries 3, 4, 5). -/

namespace Sys2Proof

/-- The fused factory record: byte at an offset 0x400 to 0xFFF of copy 0 or 1 (R153). Each unit has its own.
DESIGN CHOICE (log 3). -/
opaque Config.fused : Nat → Nat → Byte

/-- The halfband taps SPE_HBCOEF(0) to SPE_HBCOEF(13), fixed in silicon and given by reference only (R180). The
fifteenth follows from the stated sum 2^22. DESIGN CHOICE (log 4). -/
opaque Config.hbCoef : Nat → Int

/-- SHA-384 (named by the spec as a published standard; R297, R298). DESIGN CHOICE (log 5). -/
opaque Config.sha384 : List Byte → BitVec 384

/-- The ECDSA P-384 signature r then s by the unit key over a digest (R296). DESIGN CHOICE (log 5). -/
opaque Config.unitSign : BitVec 384 → BitVec 768

/-- The public half of the unit key, without its leading byte (R296). DESIGN CHOICE (log 5). -/
opaque Config.unitKey : BitVec 768

/-- The DER bytes of the device certificate, by subject serial number and public key (R297). DESIGN CHOICE (log 5). -/
opaque Config.deviceCert : List Byte → List Byte → List Byte

/-- The DER bytes of the Dravpa intermediate and root certificates (R297, R315: items 1 and 2). DESIGN CHOICE (log 5). -/
opaque Config.dravpaCert : Nat → List Byte

/-- A certificate is signed by the key of another (issuer first), both of P-384 (R297, R299, R300). DESIGN CHOICE (log 5). -/
opaque Config.certSigned : List Byte → List Byte → Bool
/-- A certificate is of P-384 (R300). DESIGN CHOICE (log 5). -/
opaque Config.certP384 : List Byte → Bool
/-- A signature over a digest verifies with the key of a certificate (R300). DESIGN CHOICE (log 5). -/
opaque Config.signedBy : List Byte → BitVec 384 → List Byte → Bool

/-- The device's ephemeral ECDH P-384 public key of a handshake, by its serial number, and the transcript that its signature
covers (R254, R302). DESIGN CHOICE (log 5). -/
opaque Config.ephemeralKey : Nat → BitVec 768
/-- The digest of the transcript of a handshake. DESIGN CHOICE (log 5). -/
opaque Config.transcript : Nat → BitVec 384

/-- The key of a direction of a link (true: outbound), derived from the shared secret and the transcript of an exchange, by the
exchange's serial number (R253). DESIGN CHOICE (log 5). -/
opaque Config.linkKey : Nat → Bool → BitVec 256
/-- The salt of a direction of a link (R253). DESIGN CHOICE (log 5). -/
opaque Config.linkSalt : Nat → Bool → BitVec 32

/-- The secret of a session's handshake, by its serial number (R304). DESIGN CHOICE (log 5). -/
opaque Config.handshakeSecret : Nat → BitVec 384

/-- HKDF with SHA-384 of a secret: the 16-byte resumption token (R304). DESIGN CHOICE (log 5). -/
opaque Config.hkdfToken : BitVec 384 → BitVec 128

/-- The fields of an image header that the spec names: format, body length, version, security version, the lowest silicon
revision, and the SHA-384 digest of the body (R375). -/
structure ImageHeader where
  format : Word
  bodyLen : Nat
  version : Nat
  svn : Nat
  revision : Nat
  digest : BitVec 384
  deriving DecidableEq, Repr, Inhabited

/-- The header that the 4,096 bytes before a body hold: R375 names its fields and gives no place of them.
DESIGN CHOICE (log 152). -/
opaque Config.imageHeader : List Byte → ImageHeader

/-- The bytes of image slot A at delivery (R372). DESIGN CHOICE (log 9). -/
opaque Config.delivered : Nat → Byte

/-- The calibration epoch byte of a record that has no source bank (an alarm event, a waymark): R187 gives none. By
stream number and sequence number. DESIGN CHOICE (log 12). -/
opaque Config.noBankEpoch : Nat → Nat → Nat

/-- The rate of a servo correction in 2^-24: R234 gives only its limit of 1 ppm, which the use keeps. By the offset
corrected. DESIGN CHOICE (log 13). -/
opaque Config.servoRate : Int → Nat

/-- PWR_RSTAT.CAUSE after the cold reset of an activation or of a recovery (R374, R378): no encoding is given for it.
By the sequence number of the boot record. DESIGN CHOICE (log 14). -/
opaque Config.updateCause : Nat → Nat

/-- Whether a quotient to which the spec gives no rounding is taken up or down, by numerator and denominator: a heater
temperature (chapter 04), the mains frequency (R184), a temperature average (R366), an estimate or deviation shown in a
register (R161, R167, R170). DESIGN CHOICE (log 16). -/
opaque Config.roundUp : Int → Int → Bool

/-- The heater temperature where ALPHA is 0, and what HTR_EMEAS.TEMP, CAL_SLOPE.SLOPE and IMP_HRES show of a value that
their bits cannot hold and for which no saturation is stated. DESIGN CHOICE (log 17). -/
opaque Config.tempFree : Nat → Nat → Int
/-- What HTR_EMEAS.TEMP shows of a value its bits cannot hold. DESIGN CHOICE (log 17). -/
opaque Config.tempField : Int → BitVec 12
/-- What CAL_SLOPE.SLOPE and IMP_HRES show of a value their bits cannot hold. DESIGN CHOICE (log 17). -/
opaque Config.slopeField : Int → BitVec 16

/-- An estimate or deviation that is a quotient of 0 by 0 (R158 with a signal that does not change, R167 with references
that do not differ from the shorted input), in 10^-6 of its unit. DESIGN CHOICE (log 18). -/
opaque Config.estOpen : Nat → Int

/-- A fresh value for each use of a counter: what the spec leaves open when the machine goes on.
DESIGN CHOICE (log 19). -/
opaque Config.freeValue : Nat → Word

end Sys2Proof
end

