-- ==== Sys2Proof/Machine/Bits.lean ====
section
/-! DEFINITION. Bit fields, masks, signed reading, saturation and rounding: the arithmetic helpers the spec's
register tables and pipelines use (R23, R174, R179, R185, R190). -/

namespace Sys2Proof.Machine

/-- The mask of `width` bits at `lsb`, as a number. -/
def fieldMask (lsb width : Nat) : Nat := (2 ^ width - 1) * 2 ^ lsb

/-- Bits `[lsb + width - 1 : lsb]` of a word, as a number. -/
def bits (w : Word) (lsb width : Nat) : Nat := w.toNat / 2 ^ lsb % 2 ^ width

/-- Bit `n` of a word. -/
def bit (w : Word) (n : Nat) : Bool := w.getLsbD n

/-- A word with its field at `lsb` replaced by `v` (taken modulo the field's width). -/
def setBits (w : Word) (lsb width v : Nat) : Word :=
  (w &&& ~~~ (BitVec.ofNat 32 (fieldMask lsb width))) ||| BitVec.ofNat 32 (v % 2 ^ width * 2 ^ lsb)

/-- A word whose bits under `mask` come from `v` and whose other bits stay. -/
def mergeMask (old mask v : Word) : Word := (old &&& ~~~ mask) ||| (v &&& mask)

/-- The one-bit word `2 ^ n`. -/
def bitW (n : Nat) : Word := BitVec.ofNat 32 (2 ^ n)

/-- A natural number read as a two's-complement number of `width` bits. -/
def sext (width v : Nat) : Int :=
  if v % 2 ^ width < 2 ^ (width - 1) then (v % 2 ^ width : Int) else (v % 2 ^ width : Int) - 2 ^ width

/-- The two's-complement encoding of an integer in `width` bits. -/
def encInt (width : Nat) (v : Int) : Nat := (v % (2 ^ width : Int)).toNat

/-- An integer limited to a signed range of `width` bits (sat16, sat32, saturating sums). -/
def satS (width : Nat) (v : Int) : Int :=
  if v < -(2 ^ (width - 1) : Int) then -(2 ^ (width - 1) : Int)
  else if v > (2 ^ (width - 1) : Int) - 1 then (2 ^ (width - 1) : Int) - 1 else v

/-- A natural number limited to `width` bits (a saturating counter or ratio). -/
def satU (width v : Nat) : Nat := if v < 2 ^ width then v else 2 ^ width - 1

/-- The arithmetic right shift `>>` of the spec: division rounding towards −∞. -/
def shr (v : Int) (n : Nat) : Int := v / (2 ^ n : Int)

/-- Division rounded to nearest, ties away from zero (R80, R95, R185). -/
def divNearestAway (n d : Int) : Int :=
  if d = 0 then 0
  else
    let q := (2 * n.natAbs + d.natAbs) / (2 * d.natAbs)
    if (0 ≤ n) = (0 ≤ d) then (q : Int) else -(q : Int)

/-- Division by a power of two rounded to nearest, ties towards +∞ (R85, R174). -/
def shrNearestUp (v : Int) (n : Nat) : Int := if n = 0 then v else (v + 2 ^ (n - 1)) / (2 ^ n : Int)

/-- ⌈a / b⌉. -/
def ceilDiv (a b : Nat) : Nat := (a + b - 1) / b

/-- The square root of a natural number, rounded down, by bisection on the result's bits. -/
def isqrtFrom (n : Nat) : Nat → Nat → Nat
  | 0, acc => acc
  | k + 1, acc =>
    let t := acc + 2 ^ k
    isqrtFrom n k (if t * t ≤ n then t else acc)

/-- ⌊√n⌋. -/
def isqrt (n : Nat) : Nat := isqrtFrom n (Nat.log2 n / 2 + 1) 0

/-- The little-endian bytes of a number, `n` of them. -/
def leBytes (v : Nat) : Nat → List Byte
  | 0 => []
  | n + 1 => BitVec.ofNat 8 v :: leBytes (v / 256) n

/-- The big-endian bytes of a number, `n` of them: how a digest, a signature or a key lies in bytes. -/
def beBytes (v n : Nat) : List Byte := (leBytes v n).reverse

/-- The number a little-endian byte list stands for. -/
def ofLeBytes : List Byte → Nat
  | [] => 0
  | b :: bs => b.toNat + 256 * ofLeBytes bs

/-- One byte fed into a CRC of `width` bits, most significant bit first (R153, R394). -/
def crcBits (width poly : Nat) : Nat → Nat → Nat
  | 0, c => c
  | k + 1, c =>
    let c2 := c * 2 % 2 ^ width
    crcBits width poly k (if c / 2 ^ (width - 1) % 2 = 1 then Nat.xor c2 poly else c2)

/-- A CRC without reflection over bytes in order. -/
def crcOver (width poly init : Nat) (bs : List Byte) : Nat :=
  bs.foldl (fun c b => crcBits width poly 8 (Nat.xor c (b.toNat * 2 ^ (width - 8)))) init

/-- The one CRC-64 of the manual (R153): ECMA-182 polynomial, initial value 0, no reflection, no final XOR. -/
def crc64 (bs : List Byte) : Nat := crcOver 64 0x42F0E1EBA9EA3693 0 bs

/-- The tag buses' CRC-16 (R394): polynomial 0x1021, initial value 0xFFFF. -/
def crc16 (bs : List Byte) : Nat := crcOver 16 0x1021 0xFFFF bs

/-- `a` is newer than `b` in serial comparison of `width` bits (R215, R220, R324). -/
def serialNewer (width a b : Nat) : Bool :=
  let d := (a + 2 ^ width - b % 2 ^ width) % 2 ^ width
  1 ≤ d && d < 2 ^ (width - 1)

/-- The first `n` numbers that satisfy `p`, in ascending order. -/
def rangeFilter (n : Nat) (p : Nat → Bool) : List Nat := (List.range n).filter p

end Sys2Proof.Machine
end

