-- ==== Sys2Proof/Syntax.lean ====
section
/-! DEFINITION. The commands of the block: `Instr`, one constructor per row of spec/opcode_table.json, with the row's
operands. What the outside world decides (a requester, a converter's codes, a measured temperature, a peer's frame and
whether its signature verifies) is an operand; what the device decides is state. -/

namespace Sys2Proof

/-- Who makes a register access and when: the owner identifier of the requester (table of chapter 02, "Locks") and the
CKR cycles that pass between the command before it and its acceptance. DESIGN CHOICE (log 6). -/
structure Acc where
  req : BitVec 16
  dt : Nat
  deriving DecidableEq, Repr

/-- What a read addresses: an offset, and the bytes of the access, 1, 2, 4 or 8 (R29 to R32). -/
structure ReadAt where
  addr : BitVec 24
  width : BitVec 4
  deriving DecidableEq, Repr

/-- A condition at one of `n` ports that begins to hold, or (`on` false) no longer holds (R74). -/
structure PortCond (n : Nat) where
  port : Fin n
  on : Bool
  deriving DecidableEq, Repr

/-- The tables that have an INVALIDATE register. -/
inductive TableId where
  | stream | tenant | routing | slice | switch | rule
  deriving DecidableEq, Repr

/-- Causes of a cold reset (R18, PWR_RSTAT.CAUSE of R361). -/
inductive ColdCause where
  | resetN | thermal | powerFail | escalation | wakeOff | retLoss
  deriving DecidableEq, Repr

/-- Causes of a host-link reset (R388). -/
inductive LinkCause where
  | perst | linkDown | hotReset
  deriving DecidableEq, Repr

namespace Machine

/-- A record as it leaves a pipeline (R187), and as a copy of a segment or a capture brings it (R276, R291). -/
structure Record where
  stream : Nat
  kind : Nat
  flags : Nat
  seqNo : Nat
  sec : Nat
  frac : Nat
  glaze : Nat
  refEpoch : Nat
  calEpoch : Nat
  exp : Nat
  unit : Nat
  values : List Int
  deriving DecidableEq, Repr

end Machine

/-- The window that closes at a hold instant: its value as a signed fraction of full scale in units of 2^-20, whether
the integrator saturated in it, and (for an MS port) nothing more: the mark byte is the device's own. -/
structure WindowIn where
  value : Int
  overload : Bool
  deriving DecidableEq, Repr

/-- Codes on the fast path: source port, first sample number, the grid 2^ri, codes in order, marker and MODE. -/
structure FastCodes where
  port : Fin 64
  m : Nat
  codes : List (BitVec 14)
  marker : BitVec 2
  deriving DecidableEq, Repr

/-- Measured heater voltage (drive code) and current (20 µA) of one engine over a control tick (R85, R86). -/
structure HeaterMeas where
  engine : Fin 128
  volt : Nat
  cur : Nat
  deriving DecidableEq, Repr

/-- Sums over one milestone period of the codes of one slice (R120, R158): codes, codes not VALID, and over the VALID
codes alone Σ code, Σ code²,
whether all codes are equal, unresolved final bits; and for a fast group Σ x(m)·x(m+1), Σ x(m−1)·x(m), Σ x(m+1)
and Σ x(m−1) over the samples m of the slice and Σ (x(m) − x(m−1))². -/
structure SliceStat where
  bank : Fin 24
  slice : Fin 17
  n : Nat
  invalid : Nat
  s1 : Int
  s2 : Nat
  allEqual : Bool
  sNext : Int
  sPrev : Int
  xNext : Int
  xPrev : Int
  sDiff : Nat
  deriving DecidableEq, Repr

/-- Sums over one milestone period of a pair's two sub-streams (R110); `bad` is set when a code of either carried a
marker other than VALID. -/
structure PairStat where
  leader : Fin 24
  n : Nat
  s1A : Int
  s2A : Nat
  s1B : Int
  s2B : Nat
  bad : Bool
  deriving DecidableEq, Repr

/-- Codes of a shadowing spare against its slice over one milestone period (R122, R164): the instants that both converted,
those of them at which a code was not VALID, and over the others Σ x_SX, Σ x_Sk, Σ x_SX·x_Sk and Σ x_Sk². -/
structure ShadowStat where
  bank : Fin 24
  n : Nat
  invalid : Nat
  sX : Int
  sK : Int
  sXK : Int
  sKK : Nat
  deriving DecidableEq, Repr

/-- What self-calibration has found for a slice (R156, R157): its solved trims, and the residuals of the verification, the
offset in 1/1024 LSB, the gain in ppm, the skew in fs. -/
structure Solved where
  ofs : Int
  gain : Int
  dly : Int
  rOfs : Int
  rGain : Int
  rSkew : Int
  deriving DecidableEq, Repr

/-- Gap-visit sums of the reference monitor (R167): Σ codes of the 16 visits × 32 codes to IN0, IN1, IN2 and IN17. -/
structure RefStat where
  a : Int
  b : Int
  c : Int
  short : Int
  deriving DecidableEq, Repr

/-- The four time stamps of a two-way delay exchange on one port (R233), in 2^-16 ns. -/
structure LinkStamps where
  port : Fin 8
  t1 : Int
  t2 : Int
  t3 : Int
  t4 : Int
  deriving DecidableEq, Repr

/-- What the outside world shows the device over the milestone period that a milestone closes. -/
structure MsIn where
  /-- The supervisor checked in (R21). -/
  checkIn : Bool := true
  /-- Supervisor work is waiting that no command of the queue stands for (R348). -/
  supWork : Bool := false
  /-- EC: CE voltage in mV; AX: excitation current in 10 µA (AFE_PSTAT.MON). -/
  mon : List (Fin 480 × Int) := []
  /-- Ports whose compliance, open or clamp condition no longer holds (R74). -/
  faultEnd : List (Fin 480) := []
  /-- EC ports whose CE stayed at a compliance limit through the whole period (R74). -/
  openHeld : List (Fin 480) := []
  /-- Sensor readings of the period, one row of 24 per 2^-16 s, in 0.125 °C (R363). -/
  sensors : List (List Int) := []
  /-- The thermal model's estimate per region, in 0.125 °C (R363, R414). -/
  model : List Int := []
  slices : List SliceStat := []
  pairs : List PairStat := []
  shadows : List ShadowStat := []
  /-- The codes of the period per fast port: each value with how often it came (R143). -/
  activity : List (Fin 64 × List (Int × Nat)) := []
  refs : Option RefStat := none
  /-- Codes on the fast path of the closing period that CODE_ARRIVAL has not brought: they meet the state from before the
  milestone (R15). -/
  fast : List FastCodes := []
  links : List LinkStamps := []
  /-- MR4 asks for a refresh rate above the nominal one (R398). -/
  derate : Bool := false
  /-- Largest pipeline delays of the period in CKP cycles (SPE_LAT). -/
  latency : List (Fin 24 × Nat) := []
  deriving DecidableEq, Repr

/-- A peer's link-state advertisement (R255), with the verdict on its signature. -/
structure Lsa where
  uid : BitVec 64
  addr : Option (BitVec 14)
  claimMs : Nat
  gnss : Bool
  hq : BitVec 3
  root : Option (BitVec 14)
  seq : Nat
  /-- For each up port: peer address, width code, cost, TC2 slots still free. -/
  ports : List (BitVec 14 × Nat × Nat × Nat)
  /-- FAB_DCFG.PREF of a device without an address, while PVALID is 1 (R268). -/
  pref : Option (BitVec 14)
  /-- The originator's signature, which goes on with the advertisement, and the verdict on it. -/
  sig : BitVec 768 := 0
  sigOk : Bool
  deriving DecidableEq, Repr

/-- What a completed handshake shows of a peer: the digest of its leaf key, and that its chain verifies to the owner root (R302). -/
structure PeerAuth where
  leaf : BitVec 384
  chain : List (List Byte)
  deriving DecidableEq, Repr

/-- A received time frame (payload table of chapter 10). Times are in 2^-64 s, the correction in 2^-16 ns. -/
structure TimeFrame where
  origin : Nat
  correction : Int
  root : BitVec 14
  rankGnss : Bool
  rankHq : BitVec 3
  islandRoot : Bool
  hops : BitVec 8
  seq : BitVec 16
  inc : BitVec 64
  adjMode : BitVec 2
  adjRate : BitVec 16
  adjTarget : BitVec 32
  adjOffset : BitVec 64
  deriving DecidableEq, Repr

/-- A received alarm frame (payload table of R214). -/
structure AlarmFrame where
  origin : BitVec 14
  rule : BitVec 8
  state : Bool
  fault : Bool
  latched : Bool
  island : Bool
  repeated : Bool
  seq : BitVec 16
  glaze : BitVec 16
  sec : BitVec 32
  frac : BitVec 32
  deriving DecidableEq, Repr

/-- A received mode-change frame (payload table of chapter 14). -/
structure ModeFrame where
  id : BitVec 16
  isRecall : Bool
  isQuery : Bool
  num : BitVec 32
  target : BitVec 32
  origin : BitVec 14
  deriving DecidableEq, Repr

/-- The role a session's open frame names (R302). -/
inductive Role where
  | owner
  | tenant (t : Fin 128)
  deriving DecidableEq, Repr

/-- A fragment as it arrives (R248): link sequence, class, FIRST, LAST, data length, key phase, the verdict of the tag
check; and, with its header, what the router needs of its frame: destination, LINK, kind, hop limit, session and
whether the sender is a tenant's session. -/
structure Fragment where
  seq : BitVec 16
  cls : BitVec 3
  first : Bool
  last : Bool
  len : BitVec 9
  phase : Bool
  tagOk : Bool
  dest : BitVec 14
  linkLocal : Bool
  src : BitVec 14
  kind : BitVec 5
  hops : BitVec 8
  session : BitVec 16
  deriving DecidableEq, Repr

/-- Where a reservation request comes in and goes (R261): its ingress port, the originating device, and the sink. -/
structure RsvHop where
  ingress : Fin 8
  origin : BitVec 14
  dest : BitVec 14
  deriving DecidableEq, Repr

/-- A slot of the host's TX ring (R389): descriptor length, payload length of the header, and what the router needs of
the frame. -/
structure TxFrame where
  len : Nat
  payload : Nat
  cls : BitVec 3
  kind : BitVec 5
  dest : BitVec 14
  linkLocal : Bool
  session : BitVec 16
  deriving DecidableEq, Repr

/-- A copy of a lake segment as it arrives (R276, R285, R288): originator, number, issue, digest of its body, whether
its CRC and signature verify, tenant byte and records. Issue 0, which no segment has (R285), is the answer of a holder
that it holds no intact copy (R287). -/
structure SegCopy where
  uid : BitVec 64
  num : Nat
  issue : Nat
  digest : Nat
  intact : Bool
  tenant : Nat
  records : List Machine.Record
  /-- What its header says besides: the originator's address and the milestone number at creation, and whether it is sealed;
  and its signature. -/
  origin : BitVec 14
  madeMs : BitVec 32
  closed : Bool
  sig : BitVec 768
  deriving DecidableEq, Repr

/-- Verdicts on an owner-chain record (R300). -/
structure ChainCheck where
  flashOk : Bool
  deriving DecidableEq, Repr

/-- What the check of an image in flash meets (R375): its chain and signature verify, its body reads back as it was
programmed, the flash works. -/
structure ImageCheck where
  sigOk : Bool := true
  digestOk : Bool := true
  flashOk : Bool := true
  deriving DecidableEq, Repr

/-- What the flash, the fuses and the memory show at a start (R154, R329, R373, R397, R398, R390). -/
structure BootIn where
  sfdpOk : Bool := true
  flashMode : BitVec 2 := 2
  flashDiv : BitVec 2 := 0
  density : BitVec 5 := 26
  /-- Boot-record copies 0 and 1 read with a good CRC and, where signed, with a signature that verifies. -/
  brecSig0 : Bool := true
  brecSig1 : Bool := true
  /-- The image the winning record names verifies. -/
  image : ImageCheck := {}
  /-- Signatures of base-image copies 0 and 1 verify. -/
  baseSig0 : Bool := true
  baseSig1 : Bool := true
  lpMib : BitVec 16 := 0
  lpRanks : BitVec 2 := 0
  lpOk : Bool := false
  straps : BitVec 3 := 0
  secSelfTest : Bool := true
  /-- External slots of the saved index whose CRC or signature does not pass (R287). -/
  badSlots : List Nat := []
  deriving DecidableEq, Repr

/-- The commands: one constructor per row of the opcode table. -/
inductive Instr where
  -- milestones, resets, the supervisor and the die-to-die link
  | milestone (m : MsIn)
  | d2dRetry
  | d2dFail (banks : BitVec 24)
  | d2dRecovery
  | supervisorWatchdog
  | supervisorResume
  | aonPowerOnReset
  | coldReset (c : ColdCause)
  | sysReset (a : Acc) (key : BitVec 8) (warm : Bool)
  | blockReset (a : Acc) (page : BitVec 12)
  | blockResetEnd (page : BitVec 12)
  | hostLinkReset (c : LinkCause)
  | sysD2dRetryRead (a : Acc)
  -- register access
  | blockEnable (a : Acc) (page : BitVec 12) (en : Bool)
  | registerWrite (a : Acc) (addr : BitVec 24) (val : BitVec 64) (width : BitVec 4)
  | commit (a : Acc) (page : BitVec 12)
  | discard (a : Acc) (page : BitVec 12)
  | lockAcquire (a : Acc) (page : BitVec 12) (lease : BitVec 12)
  | lockUnlockCommit (a : Acc) (page : BitVec 12)
  | lockUnlockDiscard (a : Acc) (page : BitVec 12)
  | lockLeaseExpiry (page : BitVec 12)
  | pairLowRead (a : Acc) (r : ReadAt)
  | pairHighRead (a : Acc) (r : ReadAt)
  | pairLowWrite (a : Acc) (addr : BitVec 24) (val : Word)
  | pairHighWrite (a : Acc) (addr : BitVec 24) (val : Word)
  | tableEntryWrite (a : Acc) (addr : BitVec 24) (val : Word)
  | invalidate (a : Acc) (t : TableId) (idx : BitVec 14)
  | invalidateAll (a : Acc) (t : TableId)
  | automaticSwap (t : TableId) (idx : BitVec 14)
  -- cell ports
  | holdInstant (ch : Fin 512) (dt : Nat) (win : WindowIn)
  | deadTimeEnd (ch : Fin 480)
  | biasRampEnd (ch : Fin 256)
  | ecShortOpen (ch : Fin 256)
  | visit (scan : Fin 24) (ch : Fin 512) (dt : Nat) (codes : List (BitVec 14))
  | portCompliance (x : PortCond 256)
  | portOpen (ch : Fin 480)
  | portShort (ch : Fin 480)
  | portClamp (x : PortCond 64)
  | holderLimit (ch : Fin 256)
  | ecShortClose
  -- heater engines
  | heaterTick
  | segmentEnd (e : Fin 128)
  | stop (e : Fin 128)
  | vset (e : Fin 128)
  | vramp (e : Fin 128)
  | tset (e : Fin 128)
  | tramp (e : Fin 128)
  | mark (e : Fin 128)
  | flag (e : Fin 128)
  | wait (e : Fin 128)
  | jump (e : Fin 128)
  | loop (e : Fin 128)
  | sync (e : Fin 128)
  | waitSatisfied (e : Fin 128)
  | waitTimeout (e : Fin 128)
  | syncReached (e : Fin 128)
  -- `total`: the heater supply current that the drives ask for, in µA (R90)
  | controlTick (total : Nat) (meas : List HeaterMeas)
  | heaterProgFault (e : Fin 128)
  | heaterShortGnd (e : Fin 128)
  | heaterShortVhtr (e : Fin 128)
  | heaterOpen (e : Fin 128)
  | heaterOvertemp (e : Fin 128)
  | limitationEnd
  | seqFset (a : Acc) (hi : Bool) (val : Word)
  | seqFclr (a : Acc) (hi : Bool) (val : Word)
  | stallRelease (g : Fin 16)
  -- impedance engines
  | impPeriodEnd (n : Fin 24)
  | impVisitEnd (n : Fin 24)
  | impBase (a : Acc) (n : Fin 24) (slot : BitVec 5)
  | impBaseAll (a : Acc) (n : Fin 24)
  -- pairs, checkers, spots, spares
  | pairFault (b : Fin 24)
  | pairFaultEnd (b : Fin 24)
  | checkFault (ch : Fin 512)
  | checkFaultEnd (ch : Fin 512)
  | spotRequest (a : Acc) (b : Fin 24) (ch : BitVec 9) (slice : BitVec 4) (any urgent : Bool)
  | spotStart (b : Fin 24) (slice : Fin 16)
  | spotNoGap (b : Fin 24)
  | spotCancel (a : Acc) (b : Fin 24)
  | spotDone (b : Fin 24) (codes : List (BitVec 14))
  | spotDropRead (a : Acc) (b : Fin 24)
  | chkCntRead (a : Acc) (b : Fin 24)
  | metastable (b : Fin 24) (slice : Fin 17) (unresolved : Nat)
  | trimEnd (b : Fin 24) (slice : Fin 17)
  | spareStart (a : Acc) (b : Fin 24) (slice : BitVec 4)
  | spareAbort (a : Acc) (b : Fin 24)
  | spareConverged (b : Fin 24)
  | shadowTimeout (b : Fin 24)
  -- sweeps and placement
  | sweepStart (s : Fin 24) (q : Int)
  | gateTimeout (s : Fin 24)
  | sweepEnd (s : Fin 24)
  | allocatorEvaluation
  -- calibration
  | selfCalibrate (a : Acc) (banks : BitVec 24)
  | calSave (a : Acc) (banks : BitVec 24)
  | calRestore (a : Acc) (banks : BitVec 24)
  | factoryReload (a : Acc) (banks : BitVec 24)
  | resetEstimators (a : Acc) (banks : BitVec 24)
  | selfCalibrationPhase (b : Fin 24)
  | selfCalibrationEnd (b : Fin 24) (solved : List Solved)
  -- the visit starts now; `full`: IN18, the full-scale source; else IN17, the shorted input
  | gapVisit (b : Fin 24) (slice : Fin 17) (full : Bool) (codes : List (BitVec 14))
  | estimatorConverged (b : Fin 24) (slice : Fin 17)
  | estimatorFail (b : Fin 24) (slice : Fin 17)
  | slopeComparison (ppm : Int)
  -- streams
  | codeArrival (fast : Option FastCodes)
  | intervalEnd (stream : BitVec 12)
  | trackLost
  | speSubstRead (a : Acc) (p : Fin 24)
  | speSatRead (a : Acc) (p : Fin 24)
  -- alarms
  | observation
  | switchSilent (i : BitVec 11)
  | almAck (a : Acc) (rule : BitVec 8)
  | almAckAll (a : Acc)
  | foldBack (n : Fin 16)
  | foldRetry (n : Fin 16)
  | foldTestEnd (n : Fin 16) (limited : Bool)
  | extLow (n : Fin 16)
  | drvFail (n : Fin 16)
  | alarmFrameRepeat
  | alarmFrameOnAddress
  | alarmFrameReceive (f : AlarmFrame)
  -- time
  | timFracLoRead (a : Acc)
  | timSnap (a : Acc)
  | timIncWrite (a : Acc) (hi : Word)
  | adjStep (a : Acc) (next : Bool)
  | adjSlew (a : Acc) (next : Bool) (rate : BitVec 16)
  | adjSet (a : Acc) (next : Bool)
  | adjCancel (a : Acc)
  | slewEnd
  | tinEdge (dt : Nat)
  | tinLost
  | timeFrameReceive (port : Fin 8) (ingress : Nat) (f : TimeFrame)
  | holdover
  | healingDelta (delta : Int) (winner : BitVec 14)
  | msiLatch (dt : Nat)
  | timWmark (a : Acc) (code : Word)
  | pllLock
  -- the fabric
  | laneLoss (port : Fin 8) (lane : Fin 4)
  | laneRejoin (port : Fin 8) (lane : Fin 4)
  | fragmentReceive (port : Fin 8) (f : Fragment)
  | negativeAcknowledge (port : Fin 8) (seq : BitVec 16)
  | linkAcknowledge (port : Fin 8) (seq : BitVec 16)
  | ackTimeout (port : Fin 8)
  | retryLimit (port : Fin 8)
  | rekey (port : Fin 8)
  | laneTrainingDone (port : Fin 8) (lanes : BitVec 4)
  | authenticationDone (port : Fin 8) (chain : List (List Byte)) (sigOk : Bool) (ownerRoot : BitVec 384) (uid : BitVec 64)
      (peer : Option (BitVec 14))
  | handshakeTimeout (port : Fin 8)
  | quarantineRetry (port : Fin 8)
  | lsaFlood
  | lsaReceive (port : Fin 8) (l : Lsa)
  | lsaWithdraw (uid : BitVec 64)
  | addressRequest (port : Fin 8) (uid : BitVec 64) (lost : Option (BitVec 14))
  | addressAssign (addr : BitVec 14)
  | routeComputation
  | timeParentChoice
  | reservationRequest (session : BitVec 11) (hop : RsvHop) (slots : Nat) (tenant : BitVec 8)
  | reservationGrant (session : BitVec 11) (slots : Nat)
  | reservationRefuse (session : BitVec 11) (reason : BitVec 2)
  | sessionOpen (peer : BitVec 14) (host : Bool) (role : Role)
  | sessionSubscribe (session : BitVec 11) (stream : BitVec 12) (fromSeq : Option (BitVec 32))
  | sessionAcknowledge (session : BitVec 11) (stream : BitVec 12) (seq : BitVec 32)
  | ackTmoResend (session : BitVec 11) (stream : BitVec 12)
  | sessionClose (session : BitVec 11)
  | sessionKeepAlive (session : BitVec 11)
  | sessionDrop (session : BitVec 11)
  | sessionHoldEnd (session : BitVec 11)
  | sessionResume (session : BitVec 11) (token : BitVec 128) (leaf : Option PeerAuth)
  | sessionRegisterAccess (session : BitVec 11) (write : Bool) (addr : BitVec 24) (val : Word)
  | rootLost
  -- the lake and replay
  | maxageGiveUp (seg : Nat)
  | replicaChoice (cands : List (BitVec 14 × Fin 8 × Nat))
  | replicaOffer (peer : BitVec 14) (uid : BitVec 64)
  | pushReceive (peer : BitVec 14) (c : SegCopy)
  | segmentRequest (peer : BitVec 14) (seg : Nat)
  | holderLost (i : Fin 2)
  | segmentReleaseReceive (peer : BitVec 14) (uid : BitVec 64) (num : Nat)
  | copyReceive (peer : BitVec 14) (c : SegCopy) (originatorReachable : Bool)
  | lakeResolve (a : Acc) (slot : BitVec 16)
  | lakeDiscard (a : Acc) (slot : BitVec 16)
  | captureTrigger (a : Acc)
  | capturePostTriggerEnd
  | captureCopyDone
  | captureRelease (a : Acc) (idx : BitVec 3)
  | captureReceive (first last : BitVec 32) (parts : List (List Byte)) (intact : Bool)
  | replayGo (a : Acc)
  | replayAbort (a : Acc)
  | replayDone
  -- security, sessions
  | secRead (a : Acc) (item : BitVec 4)
  | secSign (a : Acc)
  | secInstall (a : Acc)
  | secClear (a : Acc)
  | secCommandDone (c : ChainCheck)
  | openLockoutEnd (peer : BitVec 14)
  -- glazes
  | glazeLoad (a : Acc) (dir : BitVec 6)
  | glazeUnload (a : Acc) (dir : BitVec 6)
  | glazeStore (a : Acc) (dir : BitVec 6)
  | glazeStoreDone (ok : Bool)
  | modeChangeGo (a : Acc) (id : BitVec 16) (isLocal : Bool)
  | modeChangeRecall (a : Acc) (isLocal : Bool)
  | modeChangeReceive (port : Fin 8) (f : ModeFrame)
  | queryReceive (port : Fin 8)
  | baseConfiguration (boot : BootIn)
  -- interrupts
  | sourceEvent (src : BitVec 10) (level : Bool)
  | moderationTimeout (t : Fin 16)
  | intEoi (a : Acc) (t : Fin 16) (src : BitVec 10)
  | intFeoi (a : Acc) (t : Fin 16) (src : BitVec 10)
  | intClaim (a : Acc) (t : Fin 16)
  | intFclaim (a : Acc) (t : Fin 16)
  | interruptFrameReceive (port : Fin 8) (vector : BitVec 8) (privileged onTc1 : Bool)
  | tamper (selfTest : Bool)
  -- power
  | reqRun (a : Acc)
  | reqIdle (a : Acc)
  | reqSleep (a : Acc)
  | reqDeepSleep (a : Acc)
  | reqOff (a : Acc)
  | wakeEvent (sources : BitVec 7)
  | wakeComplete
  | retentionLoss
  | railWarning (rail : Fin 5)
  | powerFail (returned : Bool)
  | offExit
  | coldStart (boot : BootIn)
  -- thermal
  | sensorBroken (sensor : Fin 24)
  | thmSexclWrite (a : Acc) (excl : BitVec 24)
  | enforcement
  | enforceNow (a : Acc)
  | enforcementStep
  | enforcementEnd
  | thermalShutdown (sensor : Option (Fin 24)) (region : Fin 12) (temp : Int)
  | brokenSensorShutdown (sensor : Fin 24)
  | thermalRestart
  -- update
  | updBegin (a : Acc)
  | updWrite (a : Acc)
  | updVerify (a : Acc)
  | updActivate (a : Acc) (cold : Bool)
  | updConfirm (a : Acc)
  | updRollback (a : Acc)
  | updAbort (a : Acc)
  | updResolve (a : Acc) (copy : Bool)
  | updCommandDone (c : ImageCheck)
  | activationReverify (c : ImageCheck)
  | trialExpiry
  -- host ports
  | txqTailWrite (a : Acc) (tail : BitVec 12) (slots : List TxFrame)
  | rxqHeadWrite (a : Acc) (head : BitVec 12)
  | rxRingWrite (len : Nat) (isRecord : Bool)
  | i2cWriteWord (dt : Nat) (val : Word)
  | i2cReadWord (dt : Nat)
  | i2cBusTimeout
  | tagSearch (a : Acc) (bus : BitVec 4)
  | tagReadMemory (a : Acc) (bus : BitVec 4) (entry : BitVec 5) (addr : BitVec 8) (len : BitVec 8)
  | tagAnnounce (bus : Fin 16)
  | tagPeriodicSearch
  | tagBusShort (bus : Fin 16)
  | tagSearchDone (bus : Fin 16) (rounds : List (List (BitVec 64 × BitVec 16)))
  | tagReadDone (ack : Bool) (bytes : List Byte) (crc : BitVec 16)
  | fabPretryRead (a : Acc) (port : Fin 8)
  | fabPtagfRead (a : Acc) (port : Fin 8)
  | fabPqpeakRead (a : Acc) (port : Fin 8)
  | fabPdropRead (a : Acc) (port : Fin 8)
  | hstPciQdropRead (a : Acc)
  | toutEdge (dt : Nat)
  | dacTick (n : Fin 24)
  | wakeFromOff
  | railWithinWindow (rail : Fin 5)
  | almPinLevelChange (n : Fin 16) (high : Bool)
  | configurationRequest (msixEnable : Bool) (funcMask : Bool) (d3hot : Bool) (vecMask : BitVec 64)
  | hostLinkUp (speed : BitVec 3) (width : BitVec 3)
  | i2cOffset (dt : Nat) (offset : BitVec 24) (write : Bool)
  | i2cTransactionEnd (left : BitVec 2)
  | recoveryRequest (peer : BitVec 14) (uid : BitVec 64) (num : Nat)
  | sessionHandshakeDone (session : BitVec 11) (sigOk : Bool) (chain : List (List Byte)) (leaf : BitVec 384)
  deriving DecidableEq, Repr

end Sys2Proof
end

