-- ==== Sys2Proof/Machine/Regs.lean ====
section
/-! DEFINITION. The privileged space: the page map (R49), the common page head (R25) and, page by page, the fields of
every register with their access codes, reset values and reserved encodings (R23, R24 and the register tables of
chapters 02 to 19). -/

namespace Sys2Proof.Machine

/-- The access codes of R23. -/
inductive Code where
  | ro | rw | w1c | wo | rs | st | lp
  deriving DecidableEq, Repr

/-- One field of a register: its place, access code, reset value and reserved encodings (inclusive ranges; R24). -/
structure Field where
  lsb : Nat
  width : Nat
  code : Code
  reset : Nat := 0
  bad : List (Nat × Nat) := []
  deriving DecidableEq, Repr

/-- The block pages of the page map (R49). -/
inductive PageKind where
  | sys | pwr | thm | tim | intN | intF | seq
  | cal0 | calTrim | cal7
  | afeEc | afeMs | afeFp | afeAx | afeIn
  | htr | imp | bank | alloc | scan | pipe | stb | alm
  | fabPort | fabRouter | fabDisc | lak | sec | ten | glz | upd
  | pci | i2c | tag | flash | lpddr | gpio | tenStat
  deriving DecidableEq, Repr

/-- The page kind and instance of a page number (address / 0x1000), under the page map of R49. -/
def pageOf (n : Nat) : Option (PageKind × Nat) :=
  if n = 0x000 then some (.sys, 0) else if n = 0x001 then some (.pwr, 0)
  else if n = 0x002 then some (.thm, 0) else if n = 0x003 then some (.tim, 0)
  else if n = 0x004 then some (.intN, 0) else if n = 0x005 then some (.intF, 0)
  else if n = 0x006 then some (.seq, 0)
  else if n = 0x008 then some (.cal0, 0)
  else if 0x009 ≤ n ∧ n ≤ 0x00E then some (.calTrim, n - 0x008)
  else if n = 0x00F then some (.cal7, 7)
  else if 0x010 ≤ n ∧ n ≤ 0x01F then some (.afeEc, n - 0x010)
  else if 0x020 ≤ n ∧ n ≤ 0x027 then some (.afeMs, n - 0x020)
  else if 0x028 ≤ n ∧ n ≤ 0x02B then some (.afeFp, n - 0x028)
  else if 0x02C ≤ n ∧ n ≤ 0x02D then some (.afeAx, n - 0x02C)
  else if n = 0x02E then some (.afeIn, 0)
  else if 0x030 ≤ n ∧ n ≤ 0x037 then some (.htr, n - 0x030)
  else if 0x040 ≤ n ∧ n ≤ 0x057 then some (.bank, n - 0x040)
  else if n = 0x058 then some (.alloc, 0)
  else if 0x059 ≤ n ∧ n ≤ 0x070 then some (.scan, n - 0x059)
  else if 0x080 ≤ n ∧ n ≤ 0x097 then some (.pipe, n - 0x080)
  else if n = 0x098 then some (.stb, 0)
  else if 0x0A0 ≤ n ∧ n ≤ 0x0B7 then some (.imp, n - 0x0A0)
  else if n = 0x0C0 then some (.alm, 0)
  else if 0x100 ≤ n ∧ n ≤ 0x107 then some (.fabPort, n - 0x100)
  else if n = 0x108 then some (.fabRouter, 0) else if n = 0x109 then some (.fabDisc, 0)
  else if n = 0x140 then some (.lak, 0)
  else if n = 0x180 then some (.sec, 0) else if n = 0x188 then some (.ten, 0)
  else if n = 0x1C0 then some (.glz, 0) else if n = 0x1E0 then some (.upd, 0)
  else if n = 0x1F0 then some (.pci, 0) else if n = 0x1F1 then some (.i2c, 0)
  else if n = 0x1F2 then some (.tag, 0) else if n = 0x1F3 then some (.flash, 0)
  else if n = 0x1F4 then some (.lpddr, 0) else if n = 0x1F5 then some (.gpio, 0)
  else if 0x200 ≤ n ∧ n ≤ 0x27F then some (.tenStat, n - 0x200)
  else none

/-- BLK_ID.TYPE of a page kind (R49). -/
def pageType : PageKind → Nat
  | .sys => 0x0001 | .pwr => 0x0002 | .thm => 0x0003 | .tim => 0x0004 | .intN => 0x0005 | .intF => 0x0006
  | .seq => 0x0007 | .cal0 => 0x0008 | .calTrim => 0x0008 | .cal7 => 0x0008
  | .afeEc => 0x0010 | .afeMs => 0x0011 | .afeFp => 0x0012 | .afeAx => 0x0013 | .afeIn => 0x0014
  | .htr => 0x0020 | .imp => 0x0028 | .bank => 0x0030 | .alloc => 0x0031 | .scan => 0x0032
  | .pipe => 0x0040 | .stb => 0x0041 | .alm => 0x0050
  | .fabPort => 0x0060 | .fabRouter => 0x0061 | .fabDisc => 0x0062 | .lak => 0x0070
  | .sec => 0x0080 | .ten => 0x0081 | .tenStat => 0x0082 | .glz => 0x0090 | .upd => 0x00A0
  | .pci => 0x00B0 | .i2c => 0x00B1 | .tag => 0x00B2 | .flash => 0x00B3 | .lpddr => 0x00B4 | .gpio => 0x00B5

/-- BLK_CTRL.EN acts only in the pages that the table of R26 lists. -/
def enActs : PageKind → Bool
  | .afeEc | .afeMs | .afeFp | .afeAx | .afeIn | .htr | .imp | .bank | .scan | .pipe | .alm | .fabPort => true
  | _ => false

/-- The block-specific BLK_STICKY bits of a page, as a mask (bits 8 upward). -/
def stickyHi (k : PageKind) (inst : Nat) : Nat :=
  match k with
  | .sys | .pwr | .thm => fieldMask 8 6
  | .tim | .cal0 => fieldMask 8 7
  | .intN => fieldMask 8 3
  | .intF | .i2c => fieldMask 8 1
  | .seq | .pipe | .ten | .flash | .lpddr => fieldMask 8 2
  | .calTrim | .upd => fieldMask 8 8
  | .cal7 | .scan | .imp | .fabRouter => fieldMask 8 4
  | .afeEc | .afeMs | .afeFp | .afeAx => fieldMask 8 7
  | .htr => if inst = 0 then fieldMask 8 7 else fieldMask 8 7 - 2 ^ 13
  | .bank => fieldMask 8 9
  | .alloc | .fabDisc | .sec | .tag | .tenStat => fieldMask 8 5
  | .stb | .pci => fieldMask 8 3
  | .alm => fieldMask 8 19
  | .fabPort => fieldMask 8 7
  | .lak => fieldMask 8 11
  | .glz => fieldMask 8 10
  | .afeIn | .gpio => 0

/-- All writable BLK_STICKY bits of a page. -/
def stickyMask (k : PageKind) (inst : Nat) : Nat := 0xF + stickyHi k inst

/-- Field shorthands. -/
def fRO (l w r : Nat) : Field := ⟨l, w, .ro, r, []⟩
def fRW (l w r : Nat) (bad : List (Nat × Nat) := []) : Field := ⟨l, w, .rw, r, bad⟩
def fST (l w r : Nat) (bad : List (Nat × Nat) := []) : Field := ⟨l, w, .st, r, bad⟩
def fW1 (l w : Nat) : Field := ⟨l, w, .w1c, 0, []⟩
def fWO (l w : Nat) : Field := ⟨l, w, .wo, 0, []⟩
def fRS (l w : Nat) : Field := ⟨l, w, .rs, 0, []⟩
def fLP (l w r : Nat) : Field := ⟨l, w, .lp, r, []⟩

/-- The common page head (R25). -/
def headFields (k : PageKind) (inst off : Nat) : List Field :=
  match off with
  | 0x000 => [fRO 0 32 (pageType k * 0x10000
      + (match k with | .cal0 => 0 | .calTrim => inst | .cal7 => 7 | _ => inst) * 0x100 + 1)]
  | 0x008 => [fRW 0 1 1, fWO 1 1]
  | 0x00C => [fRO 0 1 1, fRO 1 3 0]
  | 0x010 => [⟨0, 32, .w1c, 0, []⟩]
  | 0x014 => ((List.range 32).filter fun b => (stickyMask k inst).testBit b).map fun b => fRW b 1 0
  | 0x018 => [fWO 30 2, fRO 29 1 0, fRW 16 12 0, fRO 0 16 0]
  | 0x01C => [fWO 0 1, fWO 1 1]
  | _ => []

/-- SYS page (R28). -/
def sysFields : Nat → List Field
  | 0x040 => [fWO 0 8, fWO 8 1]
  | 0x044 => [fRO 0 8 0xB0, fRO 8 8 2]
  | 0x048 => [fRO 0 16 0]
  | 0x04C => [fRS 0 32]
  | _ => []

/-- PWR page (R361). -/
def pwrFields : Nat → List Field
  | 0x040 => [fRW 0 3 0 [(5, 7)]]
  | 0x044 => [fRW 0 5 31 [(24, 30)], fRW 5 1 0]
  | 0x048 => [fRW 0 6 0x37]
  | 0x04C => [fRO 0 7 0, fRO 8 3 0, fRO 11 3 0]
  | 0x050 => [fRW 0 32 0]
  | 0x054 => [fRO 0 3 0, fRO 3 2 0, fRO 8 10 0, fRO 18 1 0]
  | 0x058 => [fRO 0 6 0]
  | 0x05C => [fRO 0 5 0]
  | 0x060 => [fLP 0 32 0]
  | 0x064 => [fLP 0 32 0]
  | _ => []

/-- THM page (R371 and its table). -/
def thmFields (off : Nat) : List Field :=
  if off = 0x040 then [fST 0 1 0, fST 16 16 2048]
  else if off = 0x044 then
    [fST 0 8 135 [(0, 59), (151, 255)], fST 8 8 145 [(0, 59), (151, 255)]]
  else if off = 0x048 then [fRO 0 2 0, fWO 2 1, fRO 16 16 0]
  else if off = 0x04C then [fRW 0 24 0]
  else if off = 0x050 then [fRO 0 24 0]
  else if off = 0x054 then [fRO 0 23 0]
  else if off = 0x058 ∨ off = 0x05C then [fLP 0 32 0]
  else if 0x080 ≤ off ∧ off < 0x0B0 then [fST 0 2 0 [(3, 3)]]
  else if 0x0C0 ≤ off ∧ off < 0x0F0 then [fRO 0 17 0]
  else if 0x100 ≤ off ∧ off < 0x160 then [fRO 0 14 0]
  else []

/-- TIM page (R242). -/
def timFields (off : Nat) : List Field :=
  match off with
  | 0x040 => [fRS 0 32] | 0x044 => [fRO 0 32 0] | 0x048 => [fRO 0 32 0] | 0x04C => [fRO 0 16 0]
  | 0x050 => [fWO 0 1] | 0x054 => [fRO 0 32 0]
  | 0x058 => [fRO 0 5 0, fRO 16 14 0]
  | 0x05C => [fST 0 1 0, fST 1 3 7]
  | 0x060 => [fLP 0 32 0] | 0x064 => [fLP 0 32 2]
  | 0x068 => [fLP 0 32 0] | 0x06C => [fLP 0 32 0]
  | 0x070 => [fRW 0 32 0]
  | 0x074 => [fWO 0 2, fWO 2 1, fWO 3 1, fWO 4 1, fWO 16 16]
  | 0x078 => [fRO 0 32 0]
  | 0x07C => [fLP 0 16 0, fLP 16 16 0] | 0x080 => [fLP 0 32 0] | 0x084 => [fLP 0 31 0, fLP 31 1 0]
  | 0x088 => [fST 0 1 0, fST 1 5 0 [(21, 31)], fST 8 20 0]
  | 0x08C => [fST 0 28 0]
  | 0x090 => [fST 0 1 0, fST 1 4 0 [(11, 15)]]
  | 0x094 => [fLP 0 32 0] | 0x098 => [fLP 0 32 0] | 0x09C => [fLP 0 31 0, fLP 31 1 0]
  | 0x0A0 => [fWO 0 32]
  | 0x0A4 => [fRW 0 16 0]
  | _ =>
    if 0x0C0 ≤ off ∧ off < 0x0E0 then [fST 0 32 0]
    else if 0x0E0 ≤ off ∧ off < 0x100 then [fRO 0 32 0]
    else []

/-- Normal INT page (R344). -/
def intNFields (off : Nat) : List Field :=
  if off = 0x040 then [fRW 0 8 0]
  else if off = 0x044 then [fRW 0 10 0]
  else if off = 0x048 then
    [fRW 0 1 0, fRW 1 2 0, fRW 3 1 0, fRO 4 1 0, fRW 5 3 0, fRW 8 8 0xFF [(128, 254)], fRW 16 16 0]
  else if off = 0x04C then [fRO 0 7 6]
  else if 0x080 ≤ off ∧ off < 0x180 then
    let t := (off - 0x080) / 16
    match off % 16 with
    | 0 => if t < 8 then [fRW 0 1 0, fRW 1 8 0xFF [(128, 254)]]
           else [fRW 0 1 0, fRW 1 8 0xFF [(128, 254)], fRW 16 1 1]
    | 4 => [fRW 0 8 1 [(0, 0)], fRW 16 16 1 [(0, 0)]]
    | 8 => if t < 8 then [fRW 16 8 0] else [fRW 0 14 0, fRW 16 8 0]
    | 12 => [fRO 0 11 0, fRO 11 11 0]
    | _ => []
  else if 0x180 ≤ off ∧ off < 0x1C0 then [fRS 0 10, fRS 31 1]
  else if 0x1C0 ≤ off ∧ off < 0x200 then [fWO 0 10]
  else if 0x200 ≤ off ∧ off < 0x380 then [fRO 0 32 0]
  else []

/-- Fast-class INT bank (R344, second table). -/
def intFFields (off : Nat) : List Field :=
  if 0x040 ≤ off ∧ off < 0x080 then [fRS 0 10, fRS 31 1]
  else if 0x080 ≤ off ∧ off < 0x0C0 then [fWO 0 10]
  else if 0x100 ≤ off ∧ off < 0x200 then [fRO 0 32 0]
  else []

/-- SEQ page (chapter 04). -/
def seqFields : Nat → List Field
  | 0x040 | 0x044 => [fRO 0 32 0]
  | 0x048 | 0x04C | 0x050 | 0x054 => [fWO 0 32]
  | 0x058 | 0x05C => [fST 0 32 0]
  | 0x060 => [fRO 0 8 0, fRO 8 4 0, fRO 31 1 0]
  | _ => []

/-- CAL0 page (chapter 07); offsets 0x400 to 0xFFF show the factory record (R153). -/
def cal0Fields (off : Nat) : List Field :=
  match off with
  | 0x040 => [fRO 0 2 0, fRO 8 8 0, fRO 16 2 0]
  | 0x044 => [fST 0 5 0 [(24, 31)]]
  | 0x048 | 0x04C | 0x050 | 0x054 => [fRO 0 17 0]
  | 0x058 => [fRO 0 2 0]
  | _ => if 0x400 ≤ off then [fRO 0 32 0] else []

/-- Trim pages CAL1 to CAL6. -/
def calTrimFields (off : Nat) : List Field :=
  if 0x040 ≤ off ∧ off < 0x050 then [fRO 0 22 0]
  else if 0x100 ≤ off ∧ off < 0x500 ∧ off % 0x100 < 0x88 then
    (if off % 8 = 0 then [fRO 0 30 0] else [fRO 0 8 0, fRO 16 8 0, fRO 24 8 0])
  else if 0x500 ≤ off ∧ off < 0x900 ∧ off % 0x100 < 0x44 then [fRW 0 30 0]
  else []

/-- CAL7: background calibrator and mordant. -/
def cal7Fields : Nat → List Field
  | 0x040 => [fWO 0 24, fWO 24 4]
  | 0x044 => [fST 0 24 0xFFFFFF]
  | 0x048 => [fST 0 4 8 [(0, 3), (13, 15)], fST 4 1 1, fST 8 8 16]
  | 0x04C => [fST 0 8 0 [(241, 255)], fST 8 8 0, fST 16 1 0]
  | 0x050 => [fRO 0 24 0]
  | _ => []

/-- AFE port pages (chapter 03): register `+0x0` to `+0xC` of port p at 0x040 + p × 0x010 (R50). -/
def afeFields (k : PageKind) (off : Nat) : List Field :=
  if 0x040 ≤ off ∧ off < 0x140 then
    match off % 16, k with
    | 0, .afeEc => [fST 0 1 0, fST 1 4 8 [(9, 15)], fST 5 2 0 [(3, 3)], fST 7 2 0 [(2, 3)], fST 9 4 0,
        fST 13 1 0, fST 14 1 0, fST 15 3 3 [(5, 7)]]
    | 0, .afeMs => [fST 0 1 0, fST 1 3 2 [(5, 7)], fST 4 2 0 [(3, 3)], fST 7 2 0 [(2, 3)], fST 9 4 0]
    | 0, .afeFp => [fST 0 1 0, fST 1 3 4 [(6, 7)], fST 4 2 0, fST 6 1 1, fST 7 2 0 [(2, 3)], fST 9 4 0]
    | 0, .afeAx => [fST 0 1 0, fST 1 3 0 [(5, 7)], fST 6 1 0, fST 7 2 0 [(2, 3)], fST 9 4 0]
    | 4, .afeEc => [fST 0 16 0]
    | 4, .afeMs => [fST 0 2 2]
    | 4, .afeFp => [fST 0 8 0 [(241, 255)]]
    | 4, .afeAx => [fST 0 8 0 [(201, 255)]]
    | 8, _ => [fRO 0 8 0, fRO 16 12 0]
    | 12, .afeEc => [fW1 0 4, fW1 5 2]
    | 12, .afeMs => [fW1 0 1, fW1 2 2, fW1 5 1]
    | 12, .afeFp => [fW1 0 1, fW1 4 2]
    | 12, .afeAx => [fW1 0 1, fW1 3 1, fW1 5 1]
    | _, _ => []
  else []

/-- AFE IN page: AFE_IN_MON. -/
def afeInFields : Nat → List Field
  | 0x040 => [fST 0 8 0, fST 16 5 0 [(24, 31)]]
  | _ => []

/-- HTR pages (chapter 04). -/
def htrFields (inst off : Nat) : List Field :=
  if 0x040 ≤ off ∧ off < 0x240 then
    match off % 32 with
    | 0x00 => [fST 0 1 0, fST 1 10 0 [(768, 1023)], fST 11 10 1 [(0, 0), (769, 1023)], fST 21 1 0, fST 22 4 0]
    | 0x04 => [fST 0 12 0, fST 16 12 0xFFF]
    | 0x08 => [fST 0 16 0, fST 16 16 0]
    | 0x0C => [fST 0 16 0, fST 16 16 0]
    | 0x10 => [fRO 0 15 0, fRO 16 6 0]
    | 0x14 => [fRO 0 12 0, fRO 16 12 0]
    | 0x18 => [fW1 0 5]
    | _ => []
  else if off = 0x240 ∧ inst = 0 then [fST 0 12 2500 [(0, 0), (2501, 4095)]]
  else if 0x400 ≤ off ∧ off < 0x1000 then [fST 0 32 0]
  else []

/-- IMP pages (chapter 04). -/
def impFields (off : Nat) : List Field :=
  if off = 0x040 then
    [fST 0 1 0, fST 1 5 0 [(11, 21)], fST 6 3 0, fST 9 4 1, fST 13 8 4 [(0, 0)], fST 21 4 0]
  else if off = 0x044 then [fWO 0 5, fWO 8 1, fWO 9 1]
  else if off = 0x048 then [fRO 0 14 0]
  else if 0x050 ≤ off ∧ off < 0x090 then
    (if off % 8 = 0 then [fST 0 32 0] else [fST 0 8 0, fST 8 12 0, fST 20 12 0])
  else if 0x0C0 ≤ off ∧ off < 0x140 then [fST 0 9 0, fST 15 1 0]
  else if 0x140 ≤ off ∧ off < 0x1C0 then [fRO 0 23 0]
  else if off = 0x1C0 then [fST 0 8 0x18, fST 8 8 0x30, fST 16 8 0x0A, fST 24 8 0x05]
  else if 0x200 ≤ off ∧ off < 0x300 then [fRW 0 32 0]
  else []

/-- Bank pages (R127). -/
def bankFields (inst off : Nat) : List Field :=
  if off = 0x040 then
    [fST 0 2 (if inst < 8 then 0 else 1) [(3, 3)], fST 2 1 1, fST 3 1 1, fST 4 5 31 [(24, 30)], fST 16 8 24,
     fST 24 4 3 [(0, 0)]]
  else if off = 0x044 then [fRO 0 15 0, fRO 16 16 0]
  else if off = 0x048 then [fWO 0 4, fWO 4 2]
  else if off = 0x04C then [fST 0 8 32, fST 8 8 1, fST 16 4 2 [(0, 0)], fST 20 1 1]
  else if off = 0x060 then [fWO 0 15, fWO 30 1, fWO 31 1]
  else if off = 0x064 then [fLP 0 29 0]
  else if off = 0x068 then [fLP 0 32 0]
  else if off = 0x06C then [fLP 0 31 0, fLP 31 1 0]
  else if off = 0x070 ∨ off = 0x074 then [fRS 0 32]
  else if off = 0x078 then [fRO 0 9 0, fRO 15 1 0, fRO 16 9 0]
  else if off = 0x07C then [fRO 0 25 0]
  else if 0x080 ≤ off ∧ off < 0x0C4 then [fW1 0 3, fRO 3 1 0]
  else []

/-- Allocator page (R148). -/
def allocFields (off : Nat) : List Field :=
  if off = 0x040 then [fWO 0 14, fWO 31 1]
  else if off = 0x044 then [fST 0 3 4 [(7, 7)], fST 3 1 0]
  else if off = 0x048 then [fRO 0 9 256, fRO 16 9 256, fRO 31 1 0]
  else if 0x100 ≤ off ∧ off < 0x140 then [fST 0 1 0, fST 1 5 14 [(0, 5), (23, 31)], fST 8 22 0]
  else if 0x200 ≤ off ∧ off < 0x300 then [fRO 0 20 0, fRO 24 8 0]
  else if 0x300 ≤ off ∧ off < 0x360 then [fRO 0 11 0]
  else []

/-- Scan pages (R147). -/
def scanFields (off : Nat) : List Field :=
  if 0x040 ≤ off ∧ off < 0x080 then [fST 0 32 0]
  else if off = 0x080 then [fST 0 3 1, fST 4 4 4, fST 8 8 28]
  else if off = 0x084 then [fST 0 5 14 [(0, 5), (23, 31)], fST 8 22 0]
  else if off = 0x088 then
    [fST 0 6 0, fST 6 1 0, fST 7 1 0, fST 8 4 0, fST 12 6 0, fST 18 1 0, fST 20 12 1 [(0, 0)]]
  else if off = 0x08C then [fRO 0 30 0, fRO 30 1 0]
  else []

/-- Pipeline pages (chapter 08). -/
def pipeFields (off : Nat) : List Field :=
  if off = 0x040 then [fRO 0 32 4]
  else if off = 0x044 ∨ off = 0x048 then [fRS 0 32]
  else if off = 0x04C then [fRO 0 16 0]
  else if 0x800 ≤ off ∧ off < 0x1000 then [fST 0 16 0, fST 16 16 0x8000]
  else []

/-- Stream-table control page (chapter 08). -/
def stbFields (off : Nat) : List Field :=
  if off = 0x040 then [fWO 0 14, fWO 31 1]
  else if off = 0x044 then [fRO 0 16 0, fRO 31 1 0]
  else if off = 0x048 then [fST 0 1 0, fST 1 1 0, fST 2 5 0, fST 8 2 1]
  else if off = 0x04C then [fRO 0 23 (50 * 65536), fRO 24 2 0]
  else if off = 0x050 then [fRO 0 13 0]
  else if off = 0x054 then [fRW 0 12 0]
  else if off = 0x058 then [fRO 0 32 0]
  else if 0x100 ≤ off ∧ off < 0x410 then [fRO 0 32 0]
  else if 0x600 ≤ off ∧ off < 0xA00 then [fST 0 16 0, fST 16 16 0]
  else if 0xA00 ≤ off ∧ off < 0xA3C then [fRO 0 24 0]
  else []

/-- ALM control page (chapter 09). -/
def almFields (off : Nat) : List Field :=
  if off = 0x040 then [fST 0 4 4 [(11, 15)]]
  else if off = 0x044 then [fRO 0 16 0, fRO 31 1 0]
  else if off = 0x048 ∨ off = 0x04C then [fRO 0 32 0]
  else if off = 0x050 ∨ off = 0x054 then [fWO 0 14, fWO 31 1]
  else if off = 0x058 then [fWO 0 8, fWO 31 1]
  else if off = 0x05C then [fRO 0 16 0, fRO 31 1 0]
  else if off = 0x060 then [fRW 0 11 0]
  else if off = 0x064 then [fRO 0 4 0]
  else if off = 0x068 then [fRO 0 32 0]
  else if 0x080 ≤ off ∧ off < 0x0C0 then [fST 0 8 0, fST 8 2 0 [(3, 3)], fST 10 1 1, fST 11 1 0]
  else if 0x100 ≤ off ∧ off < 0x120 then [fW1 0 32]
  else if 0x140 ≤ off ∧ off < 0x180 then [fRO 0 32 0]
  else []

/-- Quevex port pages (R270). -/
def fabPortFields : Nat → List Field
  | 0x040 => [fST 0 1 1, fST 1 2 2 [(3, 3)], fST 3 1 0, fST 16 16 0]
  | 0x044 => [fRO 0 10 0, fRO 16 15 0]
  | 0x048 | 0x04C | 0x058 => [fRS 0 32]
  | 0x050 => [fRS 0 8, fRS 8 16]
  | 0x054 => [fRO 0 32 0]
  | 0x060 | 0x064 => [fLP 0 32 0]
  | _ => []

/-- Router page (R271). -/
def fabRouterFields (off : Nat) : List Field :=
  if off = 0x040 then [fWO 0 14, fWO 31 1]
  else if off = 0x044 then [fST 0 8 64 [(0, 0)], fST 8 12 0]
  else if off = 0x048 then [fRO 0 25 0]
  else if off = 0x04C then [fRO 0 15 0, fRO 31 1 0]
  else if 0x080 ≤ off ∧ off < 0x0A0 then [fST 0 14 0, fST 15 1 0]
  else []

/-- Discovery page (R272). -/
def fabDiscFields : Nat → List Field
  | 0x040 => [fST 0 14 0, fST 14 1 0]
  | 0x044 => [fRO 0 15 0, fRO 16 11 0]
  | 0x048 => [fRO 0 15 0]
  | _ => []

/-- LAK page (R294). -/
def lakFields (off : Nat) : List Field :=
  if off = 0x040 then [fST 0 5 0 [(17, 31)], fST 8 4 10, fST 16 16 0]
  else if off = 0x044 ∨ off = 0x048 then [fST 0 16 0]
  else if off = 0x04C then [fRO 0 32 0]
  else if off = 0x050 then [fRO 0 21 0]
  else if off = 0x054 ∨ off = 0x058 then [fRO 0 15 0]
  else if 0x060 ≤ off ∧ off < 0x080 then [fST 0 14 0, fST 15 1 0]
  else if 0x080 ≤ off ∧ off < 0x090 then [fST 0 2 0 [(3, 3)], fST 2 6 0]
  else if off = 0x090 then [fST 0 8 0, fST 8 2 1, fST 10 4 8, fST 14 1 0]
  else if off = 0x094 then [fWO 0 5]
  else if off = 0x098 then [fRO 0 2 0, fRO 8 24 0]
  else if off = 0x09C then [fRW 0 16 0, fRW 16 3 0, fRW 19 1 0, fRW 20 5 0]
  else if off = 0x0A0 then [fRW 0 3 0, fRW 3 5 31, fRW 8 11 0]
  else if off = 0x0A4 ∨ off = 0x0A8 then [fRW 0 32 0]
  else if off = 0x0AC then [fWO 0 2]
  else if off = 0x0B0 then [fRO 0 8 0]
  else if off = 0x0B4 then [fRO 0 16 0]
  else if off = 0x0B8 then [fWO 0 18]
  else []

/-- SEC page (R315). -/
def secFields (off : Nat) : List Field :=
  if off = 0x040 ∨ off = 0x044 then [fLP 0 32 0]
  else if off = 0x048 then [fWO 0 8]
  else if off = 0x04C then [fRO 0 5 0, fRO 8 2 0, fRO 16 12 0]
  else if off = 0x050 then [fRO 0 24 0]
  else if 0x800 ≤ off then [fRW 0 32 0]
  else []

/-- TEN page (R316). -/
def tenFields (off : Nat) : List Field :=
  if off = 0x040 then [fWO 0 14, fWO 31 1]
  else if off = 0x044 then [fST 0 8 64 [(0, 0)], fST 8 12 256 [(0, 0)]]
  else if off = 0x048 then [fRO 0 12 0, fRO 31 1 0]
  else if off = 0x04C then [fRO 0 32 0]
  else if 0x050 ≤ off ∧ off < 0x060 then [fRO 0 32 0]
  else []

/-- TEN_STAT pages (R317). -/
def tenStatFields (off : Nat) : List Field :=
  if 0x040 ≤ off ∧ off < 0x060 then [fRO 0 32 0] else []

/-- GLZ page (R331). -/
def glzFields : Nat → List Field
  | 0x040 => [fWO 0 10]
  | 0x044 | 0x048 | 0x04C | 0x050 | 0x054 | 0x058 | 0x05C | 0x060 => [fRO 0 32 0]
  | 0x064 => [fRO 0 1 0]
  | 0x070 => [fWO 0 32]
  | 0x074 | 0x078 => [fRW 0 32 0]
  | _ => []

/-- UPD page (R384). -/
def updFields (off : Nat) : List Field :=
  if off = 0x040 then [fWO 0 6]
  else if off = 0x044 then [fRW 0 25 0]
  else if off = 0x048 then [fRW 0 12 0]
  else if off = 0x04C then [fRO 0 10 0]
  else if off = 0x050 then [fRO 0 20 0]
  else if 0x054 ≤ off ∧ off ≤ 0x064 then [fRO 0 32 0]
  else if 0x800 ≤ off then [fRW 0 32 0]
  else []

/-- HST PCI Express page (R389). -/
def pciFields : Nat → List Field
  | 0x040 => [fRO 0 6 0]
  | 0x044 => [fRW 0 16 0, fRW 16 16 0]
  | 0x048 | 0x04C | 0x060 | 0x064 => [fLP 0 32 0]
  | 0x050 | 0x068 => [fRW 0 4 4 [(0, 3), (13, 15)], fRW 4 1 0]
  | 0x054 | 0x06C => [fRW 0 12 0]
  | 0x058 | 0x070 => [fRO 0 12 0]
  | 0x074 => [fRS 0 32]
  | _ => []

/-- HST I²C page (R393). -/
def i2cFields : Nat → List Field
  | 0x040 => [fRO 0 8 0]
  | _ => []

/-- HST tag-bus page (R396). -/
def tagFields (off : Nat) : List Field :=
  if off = 0x040 then [fRW 0 16 0xFFFF, fRW 16 4 0 [(13, 15)]]
  else if off = 0x044 then [fWO 0 11, fWO 16 16]
  else if off = 0x048 then [fRW 0 4 0, fRW 4 5 0]
  else if off = 0x04C then [fLP 0 2 0]
  else if off = 0x050 ∨ off = 0x054 then [fLP 0 32 0]
  else if off = 0x058 then [fRO 0 4 0]
  else if 0x080 ≤ off ∧ off < 0x0C0 then [fRO 0 19 0]
  else if 0x800 ≤ off ∧ off < 0x900 then [fRO 0 32 0]
  else []

/-- HST flash page (R397). -/
def flashFields : Nat → List Field
  | 0x040 => [fRO 0 2 0, fRO 2 2 3, fRO 4 5 0, fRO 9 1 0]
  | _ => []

/-- HST LPDDR page (R399). -/
def lpddrFields : Nat → List Field
  | 0x040 => [fRW 0 2 3]
  | 0x044 => [fRO 0 19 0]
  | _ => []

/-- HST GPIO page (R400). -/
def gpioFields (off : Nat) : List Field :=
  if off = 0x040 then [fRW 0 16 0]
  else if off = 0x044 then [fRO 0 18 0, fRO 18 1 1]
  else if 0x080 ≤ off ∧ off < 0x0C0 then [fST 0 2 0 [(3, 3)]]
  else []

/-- The fields of the register at offset `off` of a page. Offsets that no table lists are reserved (R32). -/
def pageFields (k : PageKind) (inst off : Nat) : List Field :=
  if off % 4 ≠ 0 then []
  else if off < 0x040 then headFields k inst off
  else
    match k with
    | .sys => sysFields off | .pwr => pwrFields off | .thm => thmFields off | .tim => timFields off
    | .intN => intNFields off | .intF => intFFields off | .seq => seqFields off
    | .cal0 => cal0Fields off | .calTrim => calTrimFields off | .cal7 => cal7Fields off
    | .afeEc | .afeMs | .afeFp | .afeAx => afeFields k off
    | .afeIn => afeInFields off
    | .htr => htrFields inst off | .imp => impFields off | .bank => bankFields inst off
    | .alloc => allocFields off | .scan => scanFields off | .pipe => pipeFields off | .stb => stbFields off
    | .alm => almFields off | .fabPort => fabPortFields off | .fabRouter => fabRouterFields off
    | .fabDisc => fabDiscFields off | .lak => lakFields off | .sec => secFields off | .ten => tenFields off
    | .tenStat => tenStatFields off | .glz => glzFields off | .upd => updFields off
    | .pci => pciFields off | .i2c => i2cFields off | .tag => tagFields off | .flash => flashFields off
    | .lpddr => lpddrFields off | .gpio => gpioFields off

/-- The word that fields read at reset. -/
def resetOf (fs : List Field) : Nat := fs.foldl (fun a f => a + f.reset % 2 ^ f.width * 2 ^ f.lsb) 0

/-! ### Table regions (R44 to R46, R199) -/

end Sys2Proof.Machine

namespace Sys2Proof

/-- Base address of a table. -/
def TableId.base : TableId → Nat
  | .stream => 0x400000 | .tenant => 0x440000 | .routing => 0x480000 | .slice => 0x500000
  | .switch => 0x0C1000 | .rule => 0x0C9000

/-- Entries of a table. -/
def TableId.count : TableId → Nat
  | .stream => 4096 | .tenant => 128 | .routing => 16384 | .slice => 64 | .switch => 2048 | .rule => 256

/-- Words of an entry. -/
def TableId.words : TableId → Nat
  | .stream => 16 | .tenant => 256 | .routing => 8 | .slice => 16 | .switch => 4 | .rule => 4

/-- The page whose INVALIDATE register serves a table. -/
def TableId.page : TableId → Nat
  | .stream => 0x098 | .tenant => 0x188 | .routing => 0x108 | .slice => 0x058 | .switch => 0x0C0 | .rule => 0x0C0

/-- The offset of a table's INVALIDATE register on its page. -/
def TableId.invOff : TableId → Nat
  | .rule => 0x054 | .switch => 0x050 | _ => 0x040

/-- All tables. -/
def TableId.all : List TableId := [.stream, .tenant, .routing, .slice, .switch, .rule]

/-- The address of word `w` of entry `i`. -/
def TableId.addr (t : TableId) (i w : Nat) : Nat := t.base + (i * t.words + w) * 4

/-- The reset value of a table word: the fields whose reset is not 0 in the entry tables of chapters 06, 08, 09 and
13 (TENANT 0xFF, SIL 31, REFU 1, WEIGHT 16, QUOTA 1). DESIGN CHOICE (log 7). -/
def TableId.reset (t : TableId) (w : Nat) : Nat :=
  match t, w with
  | .stream, 0 => 0xFF0000
  | .slice, 0 => 0xFF000000
  | .switch, 0 => 0x3F000000
  | .tenant, 0 => 0x1000
  | .tenant, 2 => 1
  | _, _ => 0

end Sys2Proof

namespace Sys2Proof.Machine

open Sys2Proof

/-- The table, entry and word of an address. -/
def tableAt (a : Nat) : Option (TableId × Nat × Nat) :=
  TableId.all.findSome? fun t =>
    if t.base ≤ a ∧ a < t.base + t.count * t.words * 4 then
      some (t, (a - t.base) / 4 / t.words, (a - t.base) / 4 % t.words)
    else none

/-- Glaze memory (R319). -/
def isGlazeMem (a : Nat) : Bool :=
  (0x800000 ≤ a && a < 0x800400) || (0x801000 ≤ a && a < 0xC00000)

/-- The fields at an address of the privileged space, block pages only. -/
def addrFields (a : Nat) : List Field :=
  match pageOf (a / 0x1000) with
  | some (k, i) => pageFields k i (a % 0x1000)
  | none => []

/-- What an address of the register space that nothing has written reads as: the reset value of its register or table
word, and 0 in glaze memory and at reserved offsets (R32). DESIGN CHOICE (log 7). -/
def regReset (a : Nat) : Word :=
  match pageOf (a / 0x1000) with
  | some (k, i) => BitVec.ofNat 32 (resetOf (pageFields k i (a % 0x1000)))
  | none =>
    match tableAt a with
    | some (t, _, w) => BitVec.ofNat 32 (t.reset w)
    | none => 0

/-- The number of the page at which a page kind's instance lies (R49). -/
def pageNum (k : PageKind) (inst : Nat) : Nat :=
  match k with
  | .sys => 0x000 | .pwr => 0x001 | .thm => 0x002 | .tim => 0x003 | .intN => 0x004 | .intF => 0x005
  | .seq => 0x006 | .cal0 => 0x008 | .calTrim => 0x008 + inst | .cal7 => 0x00F
  | .afeEc => 0x010 + inst | .afeMs => 0x020 + inst | .afeFp => 0x028 + inst | .afeAx => 0x02C + inst
  | .afeIn => 0x02E | .htr => 0x030 + inst | .bank => 0x040 + inst | .alloc => 0x058 | .scan => 0x059 + inst
  | .pipe => 0x080 + inst | .stb => 0x098 | .imp => 0x0A0 + inst | .alm => 0x0C0
  | .fabPort => 0x100 + inst | .fabRouter => 0x108 | .fabDisc => 0x109 | .lak => 0x140
  | .sec => 0x180 | .ten => 0x188 | .glz => 0x1C0 | .upd => 0x1E0
  | .pci => 0x1F0 | .i2c => 0x1F1 | .tag => 0x1F2 | .flash => 0x1F3 | .lpddr => 0x1F4 | .gpio => 0x1F5
  | .tenStat => 0x200 + inst

/-- The address of a register: page kind, instance and offset. -/
def ra (k : PageKind) (inst off : Nat) : Nat := pageNum k inst * 0x1000 + off

end Sys2Proof.Machine
end

