-- ==== Sys2Proof/Machine/Float.lean ====
section
/-! DEFINITION. IEEE 754 binary64 arithmetic on finite values: each operation exact, then rounded to nearest with ties to
even (R98, R175, R183). A value is m × 2^e in one canonical form. -/

namespace Sys2Proof.Machine

open Sys2Proof

/-- A finite binary64 value m × 2^e. -/
structure Flt where
  m : Int
  e : Int
  deriving DecidableEq, Repr

/-- Bits of a natural number. -/
def bitLen (a : Nat) : Nat := if a = 0 then 0 else Nat.log2 a + 1

/-- a / 2^s rounded to nearest with ties to even; `sticky` says that something below `a` was cut off already. -/
def roundEven (a s : Nat) (sticky : Bool) : Nat :=
  if s = 0 then a
  else
    let q := a / 2 ^ s
    let r := a % 2 ^ s
    let half := 2 ^ (s - 1)
    if r > half || (r = half && (sticky || q % 2 = 1)) then q + 1 else q

/-- A value of 53 bits, or fewer at the smallest exponent. -/
def canon (neg : Bool) (q : Nat) (e : Int) : Flt :=
  if q = 0 then ⟨0, 0⟩
  else
    let up := (53 - (bitLen q : Int))
    let k := (min up (e + 1074)).toNat
    let v : Int := (q * 2 ^ k : Nat)
    ⟨if neg then -v else v, e - k⟩

/-- Rounds ±a × 2^e to binary64. -/
def fround (neg : Bool) (a : Nat) (e : Int) (sticky : Bool) : Flt :=
  let s := (max ((bitLen a : Int) - 53) (-1074 - e)).toNat
  canon neg (roundEven a s sticky) (e + s)

/-- An integer as binary64. -/
def fint (v : Int) : Flt := fround (v < 0) v.natAbs 0 false

/-- The product. -/
def fmul (x y : Flt) : Flt := fround ((x.m < 0) != (y.m < 0)) (x.m.natAbs * y.m.natAbs) (x.e + y.e) false

/-- The sum. -/
def fadd (x y : Flt) : Flt :=
  if x.m = 0 then y
  else if y.m = 0 then x
  else
    let e := min x.e y.e
    let v := x.m * 2 ^ (x.e - e).toNat + y.m * 2 ^ (y.e - e).toNat
    fround (v < 0) v.natAbs e false

/-- The negative. -/
def fneg (x : Flt) : Flt := ⟨-x.m, x.e⟩

/-- The difference. -/
def fsub (x y : Flt) : Flt := fadd x (fneg y)

/-- The quotient by a divisor other than 0. -/
def fdiv (x y : Flt) : Flt :=
  if y.m = 0 then ⟨0, 0⟩
  else
    let n := x.m.natAbs * 2 ^ 128
    let d := y.m.natAbs
    fround ((x.m < 0) != (y.m < 0)) (n / d) (x.e - y.e - 128) (n % d ≠ 0)

/-- The square root of a value that is not negative. -/
def fsqrt (x : Flt) : Flt :=
  if x.m ≤ 0 then ⟨0, 0⟩
  else
    let odd : Int := x.e % 2
    let n := x.m.natAbs * 2 ^ (odd.toNat + 128)
    let r := Nat.sqrt n
    fround false r ((x.e - odd - 128) / 2) (r * r ≠ n)

/-- x × 2^n, exact in the range used here. -/
def fscale (x : Flt) (n : Int) : Flt := if x.m = 0 then x else ⟨x.m, x.e + n⟩

/-- The nearest integer, ties to even. -/
def ftoInt (x : Flt) : Int :=
  let a := x.m.natAbs
  let q := if 0 ≤ x.e then a * 2 ^ x.e.toNat else roundEven a (-x.e).toNat false
  if x.m < 0 then -(q : Int) else (q : Int)

/-- The comparison x < y. -/
def flt (x y : Flt) : Bool := (fsub x y).m < 0

/-- A finite binary32 number by its bits, exact in binary64. -/
def f32 (w : Nat) : Flt :=
  let ex : Nat := w / 2 ^ 23 % 256
  let fr : Nat := w % 2 ^ 23
  let neg := w / 2 ^ 31 % 2 = 1
  if ex = 0 then fround neg fr (-149) false else fround neg (fr + 2 ^ 23) ((ex : Int) - 150) false

/-- A decimal fraction n / d, rounded to binary64. -/
def frat (n d : Int) : Flt := fdiv (fint n) (fint d)

end Sys2Proof.Machine
end

