-- ==== Sys2Proof/Machine/KMap.lean ====
section
/-! DEFINITION. Sparse data by number: a list of (key, value) pairs in ONE canonical form (keys strictly rising, no
entry equal to what an unlisted key reads as). The register space, the tables and every group of like units use it. -/

namespace Sys2Proof.Machine

/-- Sparse data by key. -/
abbrev KMap (α : Type) := List (Nat × α)

/-- The value at a key, where an unlisted key reads as `d`. -/
def kget {α : Type} (m : KMap α) (k : Nat) (d : α) : α :=
  match m with
  | [] => d
  | (k', v) :: t => if k = k' then v else kget t k d

/-- Removes a key. -/
def kdel {α : Type} (m : KMap α) (k : Nat) : KMap α :=
  match m with
  | [] => []
  | (k', v) :: t => if k' = k then kdel t k else (k', v) :: kdel t k

/-- Inserts a pair at its place in a rising list. -/
def kins {α : Type} (m : KMap α) (k : Nat) (v : α) : KMap α :=
  match m with
  | [] => [(k, v)]
  | (k', v') :: t =>
    if k < k' then (k, v) :: (k', v') :: t
    else if k = k' then (k, v) :: t
    else (k', v') :: kins t k v

/-- Writes a key; writing what an unlisted key reads as removes the entry. -/
def kset {α : Type} [DecidableEq α] (m : KMap α) (k : Nat) (v d : α) : KMap α :=
  if v = d then kdel m k else kins m k v

/-- The keys rise strictly. -/
def kSorted {α : Type} : KMap α → Bool
  | [] => true
  | [_] => true
  | (a, _) :: (b, w) :: t => decide (a < b) && kSorted ((b, w) :: t)

/-- No entry equals what its key reads as when unlisted. -/
def kClean {α : Type} [DecidableEq α] (d : Nat → α) (m : KMap α) : Bool :=
  m.all fun p => decide (p.2 ≠ d p.1)

/-- The canonical form. -/
def kWf {α : Type} [DecidableEq α] (d : Nat → α) (m : KMap α) : Bool := kSorted m && kClean d m

end Sys2Proof.Machine
end

