-- ==== Sys2Proof/Machine/State.lean ====
section
/-! DEFINITION. The state of the block, as plain data, and the machine right after reset. Register values stand in
`regs` by their address (an unlisted address reads as its reset value, `regReset`); what an engine keeps beside its
registers stands in a structure of its own. -/

namespace Sys2Proof.Machine

open Sys2Proof

/-- A host interface's answer to an access. -/
inductive Answer where
  | none
  | data (w : Word)
  | pair (lo hi : Word)
  | done
  | unsupported
  | nack
  | retry
  deriving DecidableEq, Repr

/-! ### Register access (chapter 02) -/

/-- One write held in a staging image: the ST bits it sets (R33). -/
structure StagedWrite where
  page : Nat
  req : Nat
  addr : Nat
  mask : Word
  val : Word
  deriving DecidableEq, Repr

/-- A write held in a lock image (R38): the bits that may be written, the value, and for the high word of a writable
latched pair the low word with which it was combined. -/
structure HeldWrite where
  addr : Nat
  mask : Word
  val : Word
  low : Option Word := none
  deriving DecidableEq, Repr

/-- A committed snapshot on its way to a milestone (R33, R34) or a released lock image (R38). -/
structure Snapshot where
  page : Nat
  req : Nat
  due : Nat
  items : List StagedWrite
  /-- Writes of a released lock image, in order (R38). -/
  held : List HeldWrite
  deriving DecidableEq, Repr

/-- A held BLK_LOCK (R37, R38). -/
structure Lock where
  page : Nat
  holder : Nat
  lease : Nat
  /-- The writes held, in order. -/
  image : List HeldWrite
  deriving DecidableEq, Repr

/-- A latched pair of one requester: values by address, and whether the live value was renewed (R41, R42). -/
structure Latch where
  req : Nat
  addr : Nat
  vals : List (Nat × Word)
  newer : Bool
  deriving DecidableEq, Repr

/-- A low word held for its writer (R43). DEDUCED (log 41). -/
structure HeldLow where
  req : Nat
  addr : Nat
  val : Word
  deriving DecidableEq, Repr

/-- A table entry whose image holds writes not yet swapped in, with the milestones since the last write (R45). -/
structure DirtyEntry where
  table : TableId
  idx : Nat
  age : Nat
  deriving DecidableEq, Repr

/-- A requester's time shadow (R222, R223). -/
structure TimeShadow where
  req : Nat
  time : Nat
  ms : Word
  fresh : Bool
  deriving DecidableEq, Repr

/-- Staging, locks, latches and table images. DEDUCED (log 74). -/
structure Access where
  stage : List StagedWrite := []
  snaps : List Snapshot := []
  locks : List Lock := []
  latches : List Latch := []
  lows : List HeldLow := []
  /-- Staging images of table entries by word address (R44): words that differ from the entry in force. -/
  images : KMap Word := []
  dirty : List DirtyEntry := []
  /-- The highest entry of each table that has been swapped automatically at the milestone emitted last (R45). -/
  autoSwaps : List (TableId × Nat) := []
  /-- INVALIDATE writes that wait for the supervisor (R424): `none` for ALL. -/
  waiting : List (TableId × Option Nat) := []
  /-- Entries swapped in and not yet in effect, in the order of their swaps (R14, R424). -/
  swapped : List (TableId × Nat) := []
  /-- Table words in effect where the words in force of a swapped entry are not yet (R192, R199, R306). -/
  effective : KMap Word := []
  /-- Fast ports whose slice-allocation entry has been swapped in: the others stand in the default placement (R149). -/
  placed : List Nat := []
  /-- Changes of BLK_CTRL.EN with the milestone at which they act (R26). -/
  enables : List (Nat × Bool × Nat) := []
  /-- Pages in a block reset (R423). -/
  inReset : List Nat := []
  /-- Pages whose service is out (BLK_STAT.ENABLED = 0). -/
  disabled : List Nat := []
  sidx : KMap Nat := []
  shadows : List TimeShadow := []
  /-- A warm reset has been accepted for this milestone (R28). -/
  warmDue : Option Nat := none
  /-- Bits that commits and the glaze switch of the milestone being emitted have written (R56). -/
  touched : List (Nat × Word) := []
  answer : Answer := .none
  deriving DecidableEq, Repr

/-! ### Supervisor, die-to-die link -/

/-- Supervisor and die-to-die link (R11, R12, R21, R378). DEDUCED (logs 38, 80). -/
structure Sup where
  running : Bool := true
  missed : Nat := 0
  /-- Emitted-milestone counts of the last watchdog restarts. -/
  restarts : List Nat := []
  /-- The supervisor halts for a reboot at this milestone (R378). -/
  haltDue : Option Nat := none
  /-- The supervisor may start: after a watchdog restart, or the boot loader has verified its image again. -/
  startDue : Bool := false
  /-- It starts at a milestone (R378). -/
  atMs : Bool := false
  /-- Banks whose records carry the plausibility-fault flag on a die-link fault. -/
  linkBad : BitVec 24 := 0
  deriving DecidableEq, Repr

/-! ### Cell ports (chapter 03) -/

/-- The window an element holds for conversion (R61, R65). -/
structure HeldWin where
  start : Nat
  stop : Nat
  value : Int
  marker : Nat
  index : Nat
  markByte : Nat
  neg : Bool
  excited : Bool
  /-- By pipeline, the offset and gain of the correction in force at the hold instant (R15, R174, R175). -/
  corr : KMap (Int × Int) := []
  /-- f0 and width of the notch coefficients in force at the hold instant (R183). -/
  coef : Nat × Nat := (0, 0)
  /-- The sample number of a group-held window, by the grid of its group at the hold instant (R136). -/
  m : Nat := 0
  deriving DecidableEq, Repr

/-- What a port or an internal channel keeps beside its registers. -/
structure Port where
  /-- Enabled (in force and the page in service). -/
  on : Bool := false
  fdis : Bool := false
  /-- EN = 0 has been committed since the fault-disable (R75). -/
  fdisCleared : Bool := false
  /-- Range, mode or gain in force (AFE_PSTAT.RANGE_NOW); `none` while it equals the configured one. -/
  range : Option Nat := none
  /-- A range or gain change that waits for the port's hold instant (R54). -/
  change : Option Nat := none
  /-- Element B integrates (R61). -/
  elemB : Bool := false
  winStart : Nat := 0
  held : Option HeldWin := none
  /-- Visits that have converted the held window (R61, R113). -/
  visits : Nat := 0
  blanking : Bool := false
  /-- End of the dead time, in fabric time. -/
  blankEnd : Nat := 0
  pol : Bool := false
  /-- The bias in 2^-16 of a BIAS code, as it was at `rampAt` while it ramps (R52). -/
  bias : Int := 0
  rampAt : Nat := 0
  ramping : Bool := false
  /-- The ramp is the one that the enable of the port began (R73). -/
  startRamp : Bool := false
  /-- The instant at which the short opens after an enable (R73). -/
  shortOpen : Nat := 0
  shortClosed : Bool := true
  /-- The enable sequence of R73 is running (short closed, bias 0). -/
  engaging : Bool := false
  mon : Int := 0
  peak : Nat := 0
  sawWindow : Bool := false
  sawOverload : Bool := false
  quiet : Nat := 0
  openCount : Nat := 0
  /-- A window of the period has ended, and one whose value is not that of an open port has (R74). -/
  openSeen : Bool := false
  openBad : Bool := false
  compliance : Bool := false
  isOpen : Bool := false
  clamp : Bool := false
  pbCut : Bool := false
  holderLimited : Bool := false
  excited : Bool := false
  markStart : Nat := 0
  markBits : Nat := 0
  /-- The window that integrates started before the ramp of an enable ended, or in a dead time (R54, R73). -/
  winBlank : Bool := false
  deriving DecidableEq, Repr

/-- Flags and epochs gathered over the contributing inputs of an open record or interval (R188): `undet` says that the
reference state was undetermined at one of them (R201), `newest` is the instant of the newest. -/
structure Gather where
  any : Bool := false
  flags : Nat := 0
  refEpoch : Nat := 0
  calEpoch : Nat := 0
  glaze : Nat := 0
  undet : Bool := false
  newest : Nat := 0
  oldest : Nat := 0
  deriving DecidableEq, Repr

/-- What the device was in from an instant on: the glaze, the reference, the calibration epochs of the banks and the time
unit, as records and frames of that instant name them (R15, R187, R188, R214). -/
structure Epoch where
  since : Nat
  glaze : Nat
  late : Bool
  refEpoch : Nat
  refUndet : Bool
  island : Bool
  calEpochs : List Nat
  deriving DecidableEq, Repr

/-! ### Heater engines, flags, impedance engines (chapter 04) -/

/-- The states of HTR_ESTAT.STATE. -/
inductive HtrState where
  | stopped | timed | waiting | fault
  deriving DecidableEq, Repr

/-- What the heater output does. -/
inductive HtrOut where
  | drive | ground1k | highZ
  deriving DecidableEq, Repr

/-- A heater profile engine. -/
structure Engine where
  st : HtrState := .stopped
  pc : Nat := 0
  timeout : Bool := false
  mark : Nat := 0
  loop0 : Nat := 0
  loop1 : Nat := 0
  untimed : Nat := 0
  drive : Nat := 0
  /-- The drive before the limitation of R90. -/
  rawDrive : Nat := 0
  out : HtrOut := .drive
  closed : Bool := false
  setpoint : Int := 0
  /-- Running segment: operation, start value, target, first tick, number of ticks. -/
  segOp : Nat := 0
  segStart : Int := 0
  segTarget : Int := 0
  segTick : Nat := 0
  segLen : Nat := 0
  uPrev : Int := 0
  ePrev : Int := 0
  firstCtl : Bool := true
  temp : Int := 0
  cur : Nat := 0
  hot : Nat := 0
  waitFlag : Nat := 0
  waitVal : Bool := false
  waitLeft : Nat := 0
  isSync : Bool := false
  runCleared : Bool := false
  /-- Flag changes requested in this tick (FLAG operations; R91). -/
  flagReq : List (Nat × Bool) := []
  deriving DecidableEq, Repr

/-- Event flags, wait groups, the supply limit. -/
structure Seq where
  /-- The flags as they stood at the start of the tick in progress: a WAIT tests these (R91). -/
  flags : BitVec 64 := 0
  /-- Software requests of SEQ_FSET and SEQ_FCLR for the next tick, in order (R91). -/
  requests : List (BitVec 64 × Bool) := []
  /-- Flags that scan sequencers set at the next tick (R135). -/
  sweepFlags : List Nat := []
  /-- The requests and sweep flags of the tick in progress. -/
  dueRequests : List (BitVec 64 × Bool) := []
  dueSweeps : List Nat := []
  stall : KMap Nat := []
  /-- The heater tick that acted last: its fabric time in 2^-20 s. -/
  tick : Nat := 0
  /-- The flags at the starts of ticks: from a tick on, newest first (R135). -/
  past : List (Nat × BitVec 64) := []
  limitedNow : Bool := false
  quietTicks : Nat := 0
  /-- The unlimited demand of the last control tick, in µA (R90). -/
  total : Nat := 0
  /-- The control tick that acted last, as its heater tick plus 1 (R85). -/
  ctl : Nat := 0
  deriving DecidableEq, Repr

/-- The lock-in sums of one period (R98): a, b, c, d per tone, whether one saturated, whether a window is not VALID or the
range changed, the index of its windows, and what its windows contribute to the record. -/
structure LockSums where
  tones : List (Int × Int × Int × Int) := []
  sat : Bool := false
  bad : Bool := false
  index : Option Nat := none
  gather : Gather := {}
  /-- The lowest window rate that the port had in the period (R99). -/
  rate : Option Nat := none
  deriving DecidableEq, Repr

/-- An impedance engine. -/
structure ImpEngine where
  active : Bool := false
  slot : Nat := 0
  /-- The channel in visit. -/
  ch : Nat := 0
  /-- The instant at which the visit started. -/
  start : Nat := 0
  per : Nat := 0
  /-- Sums by period of the visit. -/
  sums : KMap LockSums := []
  /-- (ReZ, ImZ) per tone of the kept periods, in order. -/
  kept : List (List (Flt × Flt)) := []
  dac : Int := 0
  /-- Slots whose baseline is to be taken at the end of their next complete visit (R102). -/
  baseReq : List Nat := []
  /-- What the last visit gave by slot, DRY and POI, 3 for no result: a state falls when two visits in a row give the same
  lower one (R101). -/
  fall : KMap (Nat × Nat) := []
  deriving DecidableEq, Repr

/-! ### Banks, slices, scans, placement (chapters 05 and 06) -/

/-- The states of CNV_BSTAT.SPARE. -/
inductive SpareSt where
  | free | shadowing | inUse | failed
  deriving DecidableEq, Repr

/-- A channel that two banks convert (R114). -/
structure Check where
  bad : Nat := 0
  good : Nat := 0
  fault : Bool := false
  /-- The first partner's visit value of the window that waits for the other's: (bank, hold instant, value, valid). -/
  first : Option (Nat × Nat × Int × Bool) := none
  deriving DecidableEq, Repr

/-- A spot request (R115 to R119). -/
structure Spot where
  ch : Nat := 0
  slice : Nat := 0
  any : Bool := false
  pending : Bool := false
  started : Bool := false
  /-- Fabric time of the start of its visit. -/
  startAt : Nat := 0
  /-- Fabric time of the end of its visit, by the visit timing that it started with (R115). -/
  stop : Nat := 0
  waited : Nat := 0
  deriving DecidableEq, Repr

/-- A converter bank. -/
structure Bank where
  /-- CNV_BSTAT.MODE_NOW: 0 SCAN, 1 SPLIT, 2 WHOLE, 3 PAIRED; `none` until the pool has set it. -/
  mode : Option Nat := none
  role : Nat := 0
  /-- Parked by thermal enforcement. -/
  parkedTherm : Bool := false
  spare : SpareSt := .free
  target : Nat := 0
  shadowMs : Nat := 0
  shadowOk : Nat := 0
  converged : Bool := false
  /-- Starts of shadowing that wait for their milestone: slice and emitted-milestone count, in order. -/
  shadowReqs : List (Nat × Nat) := []
  swapDue : Bool := false
  /-- The emitted-milestone count from which a due substitution may take place (R124). -/
  swapMs : Nat := 0
  retired : Option Nat := none
  hard : List Nat := []
  /-- Consecutive milestones at an end stop, by slice × 3 + trim (R120). -/
  endStop : KMap Nat := []
  degraded : Bool := false
  pairFault : Bool := false
  /-- The pair fault has stood at a milestone: records carry its flag (R111). -/
  pairMark : Bool := false
  pairFails : Nat := 0
  pairPasses : Nat := 0
  spot : Spot := {}
  /-- Self-calibration: 0 none, 1 pending, 2 running, 3 over at the milestone emitted last, its results still to be applied
  (R156, R157); emitted milestones since S; phase. -/
  sc : Nat := 0
  scMs : Nat := 0
  scPhase : Nat := 0
  scDue : Nat := 0
  /-- A block reset of the trim page ends the running self-calibration at the next milestone (R157). -/
  scStop : Bool := false
  epoch : Nat := 0
  /-- The emitted-milestone count of the epoch's last increment: it increments once at a milestone (R152). -/
  epochMs : Nat := 0
  saved : Bool := false
  deriving DecidableEq, Repr

/-- An estimator's state but for idle, which holds for single periods (R158, R161). -/
inductive EstSt where
  | tracking | converged | failed
  deriving DecidableEq, Repr

/-- One trim of a slice: value in force, base, reference temperature (0.125 °C), its estimator (R150, R160, R161). -/
structure Trim where
  now : Int := 0
  base : Int := 0
  tref : Int := 0
  est : EstSt := .tracking
  /-- The last period was not usable (CAL_EST reads idle). -/
  idle : Bool := true
  good : Nat := 0
  bad : Nat := 0
  last : Int := 0
  deriving DecidableEq, Repr

/-- The three trims of a slice and its flags. -/
structure SliceCal where
  ofs : Trim := {}
  gain : Trim := {}
  dly : Trim := {}
  scFail : Bool := false
  deriving DecidableEq, Repr

/-- A trim jump or calibrator operation waiting for its milestone (R151, R165). -/
structure CalOp where
  op : Nat
  banks : BitVec 24
  due : Nat
  deriving DecidableEq, Repr

/-- Gap visits of a slice in the period (R158, R159): VALID visits and code sums, to IN17 and to IN18, and visits whose codes
are not VALID. -/
structure GapSums where
  short : Nat := 0
  shortSum : Int := 0
  full : Nat := 0
  fullSum : Int := 0
  bad : Nat := 0
  deriving DecidableEq, Repr

/-- A gap visit in progress: its end, its source, the sum of its codes, and whether they are VALID. -/
structure GapVisit where
  stop : Nat
  full : Bool
  sum : Int
  ok : Bool
  deriving DecidableEq, Repr

/-- References and calibrator (chapter 07). -/
structure Cal where
  slices : KMap SliceCal := []
  ops : List CalOp := []
  /-- A replacement of the selected reference due at the next milestone (R168). -/
  replace : Option Nat := none
  slopes : List Int := []
  /-- The emitted-milestone count of the last comparison with the drift monitor (R170). -/
  slopeMs : Nat := 0
  /-- Gap visits of the period by slice (bank × 17 + slice), those that are over and the one in progress (R159). -/
  gaps : KMap GapSums := []
  gapOn : KMap (Option GapVisit) := []
  /-- CAL7's staged fields return to reset at the next milestone (R425). -/
  resetDue : Bool := false
  deriving DecidableEq, Repr

/-- A scan sequencer (chapter 06). -/
structure Scan where
  running : Bool := false
  sweepStart : Nat := 0
  sweepEnd : Nat := 0
  channels : List Nat := []
  visitLen : Nat := 65
  q : Int := 0
  /-- The index of the last sweep that ran or was gated away: each period holds one (R131). -/
  lastQ : Option Int := none
  /-- Grid instants before this one do not occur: a commit or a step has put another grid into force there (R134, R140). -/
  from_ : Nat := 0
  /-- Places of the sweep that have been visited. -/
  visited : List Nat := []
  /-- CNV_SGATE as the sweep started with it (R134). -/
  gate : Word := 0
  gated : Bool := false
  /-- Sweeps gated away in this milestone period (R167). -/
  skips : Nat := 0
  waited : Nat := 0
  force : Bool := false
  deriving DecidableEq, Repr

/-- Where a fast port stands (CNV_APSTAT) and its activity (R143). -/
structure Place where
  bank : Nat := 0
  first : Nat := 0
  size : Nat := 0
  acts : List Bool := []
  lows : Nat := 0
  moves : Nat := 0
  throttled : Bool := false
  short : Bool := false
  preSize : Nat := 0
  want : Nat := 0
  /-- The port has been placed since the last cold or warm reset (R149). -/
  served : Bool := false
  /-- Bank, first slice and size before the last entry into Sleep (R161, R166). -/
  slept : Nat × Nat × Nat := (0, 0, 0)
  deriving DecidableEq, Repr

/-! ### Streams (chapter 08) -/

/-- One halfband stage: its last 59 inputs, newest first, whether a new input since its last decimation point was
substituted or off the mark, and by interval the band sums Σ h² with their count (R180, R185). -/
structure HalfSt where
  taps : List Int := []
  invalid : Bool := false
  offMark : Bool := false
  bands : KMap (Nat × Nat) := []
  deriving DecidableEq, Repr

/-- One notch biquad's two past inputs and outputs (R182). -/
structure NotchSt where
  x1 : Int := 0
  x2 : Int := 0
  y1 : Int := 0
  y2 : Int := 0
  deriving DecidableEq, Repr

/-- Sums of an open reporting interval (R185). -/
structure Feat where
  n : Nat := 0
  s1 : Int := 0
  s2 : Nat := 0
  mn : Int := 0
  mx : Int := 0
  nA : Nat := 0
  s1A : Int := 0
  nB : Nat := 0
  s1B : Int := 0
  lockC : Int := 0
  lockS : Int := 0
  deriving DecidableEq, Repr

/-- Pulse analysis of a histogram stream (R186). -/
structure Pulse where
  base : Option Int := none
  inside : Bool := false
  top : Int := 0
  width : Nat := 0
  spoiled : Bool := false
  /-- Pulses of the open interval. -/
  binned : Nat := 0
  overlong : Nat := 0
  discarded : Nat := 0
  widths : Nat := 0
  bins : KMap Nat := []
  deriving DecidableEq, Repr

/-- What a stream keeps between its inputs. DEDUCED (log 26). -/
structure Stream where
  active : Bool := false
  suspended : Bool := false
  seqNo : Nat := 0
  ri : Nat := 0
  lastAccepted : Int := 0
  integ : List Int := [0, 0, 0, 0]
  comb : List Int := [0, 0, 0, 0]
  /-- Halfband stages by the exponent of their input rate above ORATE, 1 to 6. -/
  halves : KMap HalfSt := []
  /-- Notch biquads by harmonic. -/
  notch : KMap NotchSt := []
  /-- Chain inputs still inside a settling length (R194, R195). -/
  settle : Nat := 0
  notchBypass : Bool := false
  newInvalid : Bool := false
  newMarkOk : Bool := true
  newGather : Gather := {}
  prev : Option (Nat × Nat) := none
  /-- The instant of the milestone at which the chain started (R192). -/
  since : Nat := 0
  /-- The number of the next output, and the input rate has changed since the last one (R194). -/
  nextOut : Option Nat := none
  moved : Bool := false
  /-- A change of the input rate that waits for the first sample after its milestone, because a window held before it is still
  to be converted: the milestone and the rate (R15, R194). -/
  turn : Option (Nat × Nat) := none
  open_ : List Int := []
  openStamp : Nat := 0
  /-- Number of the first output of the open record. -/
  openN : Nat := 0
  isOpen : Bool := false
  gather : Gather := {}
  interval : Int := 0
  feat : Feat := {}
  pulse : Pulse := {}
  deriving DecidableEq, Repr

/-- A chain that has ended at a milestone while a window that its channel held before it is still to be converted (R15): its
stream, bank and channel, the words of its entry, its state, and the milestone. -/
structure LateChain where
  stream : Nat
  bank : Nat
  ch : Nat
  words : List Word
  chain : Stream
  upto : Nat
  /-- The stream has been enabled ever since: a value that the chain accepts is the last accepted one (R177). -/
  kept : Bool := true
  deriving DecidableEq, Repr

/-- A code group on its way over the die-to-die link (R173). -/
structure Flight where
  bank : Nat
  ch : Nat
  inst : Nat
  /-- The start of its window. -/
  start : Nat
  m : Nat
  codes : List Int
  marker : Nat
  markByte : Nat
  index : Nat
  excited : Bool
  neg : Bool
  /-- Offset and gain of the correction at the sample instant (R15). -/
  ofs : Int := 0
  gain : Int := 0
  /-- f0 and width of the notch coefficients at the sample instant (R183). -/
  coef : Nat × Nat := (0, 0)
  /-- The channel was in check fault when its visit began (R114). -/
  chk : Bool := false
  deriving DecidableEq, Repr

/-- What mains tracking has seen of the tracking port (R184): its last sample, the rising zero crossings and the
substituted inputs of the last 1,024 milestones by instant. DEDUCED (log 107). -/
structure Mains where
  last : Option (Int × Int) := none
  crossings : List Int := []
  substituted : List Int := []
  deriving DecidableEq, Repr

/-- A record that a milestone has completed: the instant of its newest contributing input, whether the reference state was
undetermined at one, and the tenant and replication of its stream's entry as it was complete (R189). -/
structure OutRec where
  newest : Nat
  oldest : Nat
  record : Record
  undet : Bool
  cls : Nat × Bool
  deriving DecidableEq, Repr

/-- The stream processor. DESIGN CHOICE (log 10). -/
structure Spe where
  flight : List Flight := []
  mains : Mains := {}
  /-- The milestone is at work: records that it completes wait here for one another (R189). -/
  holding : Bool := false
  outbox : List OutRec := []
  streams : KMap Stream := []
  lates : List LateChain := []
  f0 : Nat := 3276800
  badEst : Nat := 0
  tracking : Bool := false
  lost : Bool := false
  /-- The f0 and width code of the notch coefficients that the pipelines use (R183). -/
  coefF0 : Nat := 3276800
  coefW : Nat := 1
  /-- Pipelines whose streams restart at the next milestone after a block reset (R383). -/
  restart : List Nat := []
  /-- The instant up to which the substituted inputs of the period in progress have entered their chains (R189). -/
  substDone : Nat := 0
  /-- Words of SPE_PEDGE that commits have replaced, with the milestone of the change: windows held before it are still to be
  converted (R15, R196). -/
  oldEdges : List (Nat × KMap Word) := []
  emitted : List Record := []
  /-- This is the state of a replay, which never reaches lake, sessions or pins: what it makes stands in `made` (R293). -/
  replaying : Bool := false
  made : List OutRec := []
  deriving DecidableEq, Repr

/-! ### The alarm engine (chapter 09) -/

/-- The states of a switch. -/
inductive SwSt where
  | off | pendOn | on | pendOff
  deriving DecidableEq, Repr

/-- A threshold switch. -/
structure Switch where
  st : SwSt := .off
  fault : Bool := false
  silent : Bool := false
  val : Int := 0
  t0 : Nat := 0
  /-- Milestones in Run or Idle without an observation. -/
  quiet : Nat := 0
  /-- An observation has come in the period in progress, or the silence count has restarted in it (R204). -/
  obs : Bool := true
  /-- The stamp at which the switch last started OFF: observations stamped before belonged to another (R199). -/
  since : Nat := 0
  /-- Words of the entry that were in effect before a swap, each with the stamp at which the swap took effect, newest
  first (R199). -/
  olds : List (Nat × List Word) := []
  /-- Last accepted sequence number of a remote rule (R215). -/
  remoteSeq : Option Nat := none
  flags : Nat := 0
  deriving DecidableEq, Repr

/-- A voting rule. -/
structure Rule where
  state : Bool := false
  fault : Bool := false
  acked : Bool := false
  vote : Bool := false
  frameSeq : Nat := 0
  stamp : Nat := 0
  glaze : Nat := 0
  /-- The words of earlier entries with the stamps at which the next ones took effect, latest first (R199). -/
  olds : List (Nat × List Word) := []
  deriving DecidableEq, Repr

/-- An alarm output. -/
structure AlmOut where
  driven : Bool := false
  fold : Bool := false
  testing : Bool := false
  drvFail : Bool := false
  extLow : Bool := false
  level : Bool := false
  deriving DecidableEq, Repr

/-- An observation on its way to the alarm engine (R201): its source, value, stamp, fault state and record flags. -/
inductive ObsSource where
  | stream (i : Nat) (samples : Bool)
  | health (engine slot ind : Nat)
  | remote (switch : Nat)
  deriving DecidableEq, Repr

structure Obs where
  src : ObsSource
  vals : List Int
  stamp : Nat
  fault : Bool
  refUndet : Bool
  flags : Nat
  deriving DecidableEq, Repr

/-- The alarm engine. -/
structure Alm where
  switches : KMap Switch := []
  rules : KMap Rule := []
  outs : KMap AlmOut := []
  obs : List Obs := []
  /-- Frames are due for repetition at the milestone emitted last (R214). -/
  repeatDue : Bool := false
  /-- The device has obtained an address and has not yet sent its alarm frames (R214). -/
  onAddr : Bool := false
  /-- A switch has become ON in Sleep in a rule with WAKE = 1 (R211). -/
  wakeSeen : Bool := false
  deriving DecidableEq, Repr

/-! ### Time (chapter 10) -/

/-- A pending adjustment (R225). -/
structure Adj where
  mode : Nat
  offset : Int
  setTime : Nat
  rate : Nat
  target : Option Nat
  due : Nat
  late : Bool
  heal : Bool
  deriving DecidableEq, Repr

/-- The states of TIM_STAT.STATE. -/
inductive TimSt where
  | free | root | locked | holdover
  deriving DecidableEq, Repr

/-- The time unit. DEDUCED (log 25). -/
structure Tim where
  /-- Fabric time in 2^-64 s (R219). -/
  time : Nat := 0
  locked : Bool := false
  /-- CKR cycles since the lock of the PLL: the phase of the clock tree (R139). -/
  ckr : Nat := 0
  /-- Number of the last milestone emitted (R220). -/
  msNum : Nat := 0
  /-- Milestones emitted since the start; durations count these (R421). -/
  msCount : Nat := 0
  /-- CKR cycles at the milestone emitted last: while the count is the same, no time has passed since. -/
  msCkr : Nat := 0
  inc : Nat := 8589934592
  /-- Values of TIM_INC accepted, with the milestone at which each acts, in order (R224). -/
  incNext : List (Nat × Nat) := []
  adj : Option Adj := none
  /-- Remaining slew, signed, in 2^-64 s, and its rate (R228). -/
  slew : Int := 0
  slewRate : Nat := 0
  slewOn : Bool := false
  /-- Remaining servo correction, signed, in 2^-64 s, and its rate: it acts beside a slew (R234). -/
  fix : Int := 0
  fixRate : Nat := 0
  st : TimSt := .free
  /-- This device sets the island-root bit in its frames (R237). -/
  islandRoot : Bool := false
  rootIsland : Bool := false
  rootAddr : Nat := 0
  rootRank : Nat := 0
  lastFrame : Nat := 0
  sinceFrame : Nat := 0
  frameSeq : Nat := 0
  /-- An edge of TIN has been accepted, and the instant of the last one; without one, the instant from which its loss
  counts (R231). -/
  tinAny : Bool := false
  tinAt : Nat := 0
  tinLost : Bool := false
  edges : Nat := 0
  glitches : Nat := 0
  msiInst : Nat := 0
  msiMs : Word := 0
  tinTime : Nat := 0
  touts : Bool := false
  /-- Edges of TOUT before this instant do not occur (R421). -/
  toutFrom : Nat := 0
  /-- A servo step by that offset (2^-32 s) acts at the next milestone (R234). -/
  stepDue : Option Int := none
  /-- Target and offset of the adjustment applied last (R230). -/
  adjDone : Option (Nat × Int) := none
  /-- Healing: the better root is known (R237), and its adjustment has been applied. -/
  healing : Bool := false
  healApplied : Bool := false
  winner : Nat := 0
  deriving DecidableEq, Repr

/-! ### The fabric (chapter 11) -/

/-- The states of FAB_PSTAT.STATE. -/
inductive PortSt where
  | down | training | authenticating | up | quarantined | upSleep
  deriving DecidableEq, Repr

/-- A fragment that waits on an egress port (R248, R249): its class, the party that it counts for (a tenant number, or 255
for the owner), the port that its frame came in on (8: a frame of the device's own), its data length, FIRST and LAST. -/
structure TxFrag where
  cls : Nat
  party : Nat
  flow : Nat
  len : Nat
  first : Bool
  last : Bool
  deriving DecidableEq, Repr

/-- A fragment in the replay buffer (R251): what its link header says (R248), when it was sent last and how often. -/
structure SentFrag where
  seq : Nat
  cls : Nat
  len : Nat
  first : Bool
  last : Bool
  phase : Bool
  at_ : Nat
  sends : Nat
  deriving DecidableEq, Repr

/-- The keys and salts of a link, own per direction (R253). -/
structure LinkKeys where
  txKey : BitVec 256
  txSalt : BitVec 32
  rxKey : BitVec 256
  rxSalt : BitVec 32
  deriving DecidableEq, Repr

/-- A Quevex port. -/
structure FabPort where
  st : PortSt := .down
  lanes : BitVec 4 := 0
  width : Nat := 0
  peer : Option Nat := none
  peerUid : Nat := 0
  waited : Nat := 0
  linkUpDue : Bool := false
  hadKeys : Bool := false
  /-- The keys in use (R253). -/
  keys : Option LinkKeys := none
  /-- The digest of the owner root that the device has sent in step 2 of the bring-up (R301). -/
  hello : List Byte := []
  txSeq : Nat := 0
  rxSeq : Nat := 0
  nakOpen : Bool := false
  /-- The acknowledgement and the negative acknowledgement sent last (R251). -/
  lastAck : Option Nat := none
  lastNak : Option Nat := none
  /-- Unacknowledged fragments in the replay buffer. -/
  replay : List SentFrag := []
  keyPhase : Bool := false
  /-- The key phase of the peer, and the arrival of the first fragment of its present phase (R253). -/
  rxPhase : Bool := false
  rxOld : Option Nat := none
  sent : Nat := 0
  keyAge : Nat := 0
  /-- Fragments that wait, oldest first; link time still owed for those sent, in 1/11 byte; frames begun: class, party and
  flow (R248, R249). -/
  queue : List TxFrag := []
  busy : Nat := 0
  begun : List (Nat × Nat × Nat) := []
  /-- The party served last on TC4 and TC3, and what each party has left of its turn (R249, R310). -/
  turn : Nat := 0
  deficit : KMap Int := []
  /-- Partly received frame per class. -/
  partialRx : KMap Nat := []
  deriving DecidableEq, Repr

/-- A link-state advertisement held in the map (R255). -/
structure MapEntry where
  lsa : Lsa
  age : Nat
  deriving DecidableEq, Repr

/-- A session's state (R263, R265). -/
inductive SessSt where
  | handshake | open_ | dropped
  deriving DecidableEq, Repr

/-- A subscription: stream, next sequence number to send, first sequence number not acknowledged. -/
structure Sub where
  stream : Nat
  next : Nat
  acked : Nat
  deriving DecidableEq, Repr

/-- A session. -/
structure Session where
  num : Nat
  peer : Nat
  host : Bool
  role : Role
  st : SessSt := .handshake
  waited : Nat := 0
  silence : Nat := 0
  hold : Nat := 0
  subs : List Sub := []
  /-- The serial number of the last handshake, whose secret the token derives from (R304). -/
  secret : Nat := 0
  leaf : BitVec 384 := 0
  /-- Reservation: slots granted, pending request, token bucket (R261, R262). -/
  granted : Nat := 0
  asked : Bool := false
  /-- A reservation was refused or withdrawn, so it is asked for again (R245, R269); the request waits for the supervisor
  (R261). -/
  wants : Bool := false
  askDue : Bool := false
  bucket : Nat := 0
  closeDue : Bool := false
  deriving DecidableEq, Repr

/-- A TC2 reservation admitted on an egress port: for the device's own session, or for one of the device `origin`. -/
structure Admit where
  port : Nat
  session : Nat
  tenant : Nat
  slots : Nat
  origin : Option Nat := none
  dest : Nat := 0
  deriving DecidableEq, Repr

/-- The router and the discovery plane. -/
structure Fab where
  ports : KMap FabPort := []
  map : List MapEntry := []
  lsaSeq : Nat := 0
  sinceFlood : Nat := 0
  addr : Option Nat := none
  claimMs : Nat := 0
  asking : Bool := false
  conflictDue : Bool := false
  parent : Option Nat := none
  hops : Nat := 0
  parted : Bool := false
  /-- A root has been lost, so the next election sets the island-root bit (R237, R268). -/
  hadRoot : Bool := false
  /-- An advertisement waits for the supervisor to run (R21). -/
  floodDue : Bool := false
  /-- What the advertisement flooded last reported (R255). -/
  told : List Int := []
  electDue : Bool := false
  routesDue : Bool := false
  sessions : List Session := []
  admits : List Admit := []
  /-- Requests of other devices that wait for the supervisor (R261): session, hop, slots, tenant. -/
  rsvWait : List (Nat × RsvHop × Nat × Nat) := []
  /-- The address that the device has given up, until it has another (R257). -/
  oldAddr : Option Nat := none
  /-- Refusals of opens per peer: consecutive count and milestones of lockout left (R302). -/
  refusals : KMap (Nat × Nat) := []
  forbiddenAddrs : List (Nat × Nat) := []
  deriving DecidableEq, Repr

/-- A frame that left (R247): its egress port (8: the frame queue of the host port), class, kind, destination,
session, its payload as numbers, and what else its header says: source address (0 without one), payload length, hop limit. -/
structure Frame where
  egress : Nat
  cls : Nat
  kind : Nat
  dest : Nat
  session : Nat
  payload : List Int
  src : Nat := 0
  len : Nat := 0
  hops : Nat := 64
  deriving DecidableEq, Repr

/-! ### The lake and captures (chapter 12) -/

/-- A record kept in a segment with the sessions that still claim it (R264, R279), and when it was sent to each.
DEDUCED (log 39). -/
structure Kept where
  record : Record
  claims : List Nat
  /-- Emitted-milestone count of the last sending to a session, plus 1 (R264). -/
  sent : KMap Nat := []
  deriving DecidableEq, Repr

/-- A lake segment in a slot (R276). -/
structure Segment where
  num : Nat
  slot : Nat
  tenant : Nat
  replicated : Bool
  issue : Nat := 0
  /-- What has been pushed to the holders: records, and 1 more for the sealing (R285). -/
  pushed : Nat := 0
  sealed : Bool := false
  sealMs : Nat := 0
  bytes : Nat := 0
  conflicting : Bool := false
  kept : List Kept := []
  /-- The originator's address and the milestone number at creation. -/
  origin : Nat := 0
  madeMs : Nat := 0
  /-- The digest of a segment recovered from a holder; the originator's own copy has none (R287, R288). -/
  digest : Option Nat := none
  deriving DecidableEq, Repr

/-- A copy held for another device, or a conflicting copy of an own segment. -/
structure Replica where
  slot : Nat
  uid : Nat
  num : Nat
  issue : Nat
  digest : Nat
  conflicting : Bool
  /-- What the copy holds: its header, all its records and its signature. -/
  copy : SegCopy
  deriving DecidableEq, Repr

/-! ### Security, glazes (chapters 13 and 14) -/

/-- The security block. -/
structure Sec where
  busy : Nat := 0
  result : Nat := 0
  len : Nat := 0
  deriving DecidableEq, Repr

/-- A pending mode change or the last accepted one (R324). -/
structure Change where
  id : Nat
  num : Nat
  target : Nat
  due : Nat
  late : Bool
  origin : Nat
  deriving DecidableEq, Repr

/-- Glazes. -/
structure Glz where
  /-- Underlying values of the words that the glaze in force holds: address, mask, underlying bits (R321). -/
  under : List (Nat × Word × Word) := []
  loaded : BitVec 64 := 0
  nowId : Nat := 0
  nowLate : Bool := false
  nowMs : Nat := 0
  nowChg : Nat := 0
  pend : Option Change := none
  last : Option Change := none
  recalls : List Nat := []
  /-- The numbers of the changes that have been applied (R326). -/
  applied : List Nat := []
  busy : Bool := false
  storeDir : Nat := 0
  /-- A GLZ_CMD write that waits for the supervisor to run. -/
  waitCmd : Option Word := none
  /-- The last refused load: entry, reason, item (R320). -/
  refused : Option (Nat × Nat × Nat) := none
  reapply : List Nat := []
  deriving DecidableEq, Repr

/-! ### Interrupts (chapter 15) -/

/-- The four states of a source (R334). -/
inductive SrcSt where
  | inactive | pending | active | activePending
  deriving DecidableEq, Repr

/-- A source of the interrupt controller. -/
structure Source where
  cfg : Word := 0x0000FF00
  st : SrcSt := .inactive
  cond : Bool := false
  pulse : Bool := false
  held : Bool := false
  claimed : Bool := false
  target : Nat := 0
  last : Nat := 15
  deriving DecidableEq, Repr

/-- A message handed to the endpoint or to the router: target, vector, the sources delivered. -/
structure Msg where
  target : Nat
  vector : Nat
  sources : List Nat
  tenant : Nat
  deriving DecidableEq, Repr

/-- The interrupt controller. DESIGN CHOICE (log 10). -/
structure Int_ where
  sources : KMap Source := []
  /-- Moderation timers that run: targets with the instant at which MODTIME has passed (R337). -/
  timers : KMap Nat := []
  sent : KMap Nat := []
  deferred : List Msg := []
  /-- Messages that the endpoint holds while a vector or the function is masked or the link is not up (R338). -/
  waiting : List Msg := []
  /-- MSI-X messages that have left. -/
  out : List Msg := []
  msixEnable : Bool := false
  funcMask : Bool := false
  vecMask : BitVec 64 := 0
  d3hot : Bool := false
  deriving DecidableEq, Repr

/-! ### Power, heat, update, host ports (chapters 16 to 19) -/

/-- The power states (R346). -/
inductive PwrSt where
  | run | idle | sleep | deepSleep | off
  deriving DecidableEq, Repr

/-- The power control and the AON record store. DEDUCED (log 77). -/
structure Pwr where
  st : PwrSt := .run
  /-- The cold start has booted (R360). -/
  booted : Bool := false
  /-- The base configuration has been chosen and waits for its first milestone M0 (R329). -/
  basePending : Bool := false
  /-- The base configuration has been applied: accesses reach the registers (R28, R387). -/
  live : Bool := false
  /-- The instant of the first milestone after the last cold or warm reset (R134). -/
  liveAt : Nat := 0
  /-- No base image is intact, so the alarm outputs stay released (R329). -/
  noBase : Bool := false
  /-- The recovery loader runs: the UPD page alone answers (R374). -/
  recovery : Bool := false
  /-- The emitted-milestone count at which the request in PWR_CTRL acts (R347). -/
  reqDue : Nat := 0
  refuse : Nat := 0
  temp : Int := 0
  lowPower : Bool := false
  /-- A wake from Sleep or Deep Sleep is in progress (R354). -/
  waking : Bool := false
  /-- Fabric time of the entry into Sleep or Deep Sleep (R353, R354). -/
  entry : Nat := 0
  /-- The sources recorded for the wake in progress. -/
  wakeMask : Nat := 0
  /-- The device has woken and marks its return to Run at the next milestone: the state left (R355). -/
  woke : Option Nat := none
  /-- The milestone in progress is the first in Run after a wake (R166). -/
  resumed : Bool := false
  /-- Idle has been left since the last milestone, and waymark 0x28 is due at the next (R355). -/
  idleLeft : Bool := false
  /-- The state that a cold reset has ended, other than Run: its waymark 0x28 is due at the first milestone (R355). -/
  cameFrom : Option Nat := none
  /-- Why the device is Off: 0 power failure, 1 request, 2 thermal shutdown (R358, R359, R370). -/
  offBy : Nat := 0
  /-- AON record store: cause of the next start, the supply returned during the sequence, retention lost (R360). -/
  recCause : Nat := 1
  recPf : Bool := false
  recRet : Bool := false
  penHigh : Bool := true
  deriving DecidableEq, Repr

/-- The thermal unit (R363 to R368). -/
structure Thm where
  /-- Averages a(n) per region in 1/64 °C, newest first. -/
  hist : KMap (List Int) := []
  warnNow : BitVec 12 := 0
  thrNow : BitVec 12 := 0
  fastRise : BitVec 12 := 0
  slowRise : BitVec 12 := 0
  hard : BitVec 12 := 0
  /-- Consecutive milestones per region at which the rise has stayed low. -/
  fastLow : KMap Nat := []
  slowLow : KMap Nat := []
  warning : Bool := false
  pending : Bool := false
  enforced : Bool := false
  grace : Nat := 0
  /-- ENFORCE_NOW has been written. -/
  now : Bool := false
  falseRun : Nat := 0
  /-- The condition had been false at 16 consecutive milestones before the last one. -/
  endDue : Bool := false
  enfMs : Nat := 0
  /-- A further halving is due at this milestone (R368). -/
  stepDue : Bool := false
  /-- Enforcement begins at this milestone. -/
  begin_ : Bool := false
  /-- Broken sensors: emitted-milestone count at the break, plus 1. -/
  brokenMs : KMap Nat := []
  /-- The number in its period of the reading at which a sensor broke (R364). -/
  brokenRow : KMap Nat := []
  /-- The warning has risen in Sleep: the thermal wake source (R353, R367). -/
  wakeSeen : Bool := false
  regions : KMap Int := []
  /-- Sensor readings in 0.125 °C (THM_SREAD). -/
  sread : KMap Int := []
  resetDue : Bool := false
  deriving DecidableEq, Repr

/-- The fields of a boot record (R373); `signed` says that its signature is the unit key's, else the signature field is zero. What
a delivered copy holds: DESIGN CHOICE (log 9). -/
structure BootRec where
  seqNo : Nat
  slot : Bool
  trial : Bool
  starts : Nat
  prev : Bool
  signed : Bool
  digest : BitVec 384
  deriving DecidableEq, Repr

/-- The marker sector of an image slot (R372). -/
inductive Marker where
  | erased | incomplete | verified
  deriving DecidableEq, Repr

/-- One image slot of the flash (chapter 18). DESIGN CHOICE (log 9). -/
structure Slot where
  marker : Marker := .erased
  /-- The slot still holds the image of delivery. -/
  delivered : Bool := false
  /-- The blocks of 2,048 bytes programmed since the slot was erased, with what was programmed (R376). -/
  blocks : List (Nat × List Byte) := []
  /-- A verify of the slot has begun and not ended (R380). -/
  verifying : Bool := false
  deriving DecidableEq, Repr

/-- An item of a base image or glaze (R318). -/
structure Item where
  offset : Nat
  kind : Nat
  value : Word
  mask : Word
  deriving DecidableEq, Repr

/-- A base image (R328). -/
structure BaseImage where
  issue : Nat
  items : List Item
  bootGlaze : Nat
  /-- Directory entry, identifier, first item and items of each glaze. -/
  glazes : List (Nat × Nat × Nat × List Item)
  deriving DecidableEq, Repr

/-- The boot flash (R372). DESIGN CHOICE (log 9). -/
structure Flash where
  brec0 : Option BootRec := some ⟨0, false, false, 0, false, false, 0⟩
  brec1 : Option BootRec := some ⟨0, false, false, 0, false, false, 0⟩
  base0 : Option BaseImage := none
  base1 : Option BaseImage := none
  slotA : Slot := { marker := .verified, delivered := true }
  slotB : Slot := {}
  owners : List Byte := []
  nOwners : Nat := 0
  deriving DecidableEq, Repr

/-- The states of UPD_STAT.STATE. -/
inductive UpdSt where
  | idle | downloading | verifying | verified | activating | trial | recovery
  deriving DecidableEq, Repr

/-- The update unit. -/
structure Upd where
  st : UpdSt := .idle
  /-- The running operation: 0 none, else its OP code. -/
  busy : Nat := 0
  result : Nat := 0
  msLeft : Nat := 0
  holder : Option Nat := none
  /-- The winning boot-record copy (R373). -/
  win : Bool := false
  /-- The activation asks for a cold reset (R378). -/
  cold : Bool := false
  /-- The restart in progress is a rollback (R379). -/
  rollback : Bool := false
  /-- The next start is that of an activation, which the new record counts already (R378, R379). -/
  firstDue : Bool := false
  /-- Waymark 0x38 with this event leaves at the first milestone after the start (R385). -/
  markDue : Option Nat := none
  versionLeft : Nat := 0
  /-- The base-image copy chosen at the last start (R329, R330). -/
  baseCopy : Bool := false
  deriving DecidableEq, Repr

/-- A tag bus: the result of its last search, its identities with PARTIAL, and its request (R395). -/
structure TagBus where
  result : Nat := 0
  ids : List (Nat × Bool) := []
  searches : Nat := 0
  restarts : Nat := 0
  overflow : Bool := false
  queued : Bool := false
  shortHold : Bool := false
  deriving DecidableEq, Repr

/-- A read of a cartridge's memory (R396). -/
structure TagRead where
  bus : Nat
  entry : Nat
  addr : Nat
  len : Nat
  deriving DecidableEq, Repr

/-- The host ports. DESIGN CHOICE (log 8). -/
structure Hst where
  linkUp : Bool := false
  speed : Nat := 0
  width : Nat := 0
  /-- Subsystem IDs latched at the last host-link reset (R386). -/
  subsys : Word := 0
  txHead : Nat := 0
  rxTail : Nat := 0
  /-- Lengths of the frames in the holding buffer of the RX ring, oldest first (R389). -/
  held : List Nat := []
  i2cBusy : Bool := false
  /-- The offset that the transaction in progress has set. -/
  i2cOff : Option Nat := none
  i2cWrite : Bool := false
  /-- The address in force, by the straps sampled at the cold start (R390). -/
  i2cAddr : Nat := 0x28
  tags : KMap TagBus := []
  tagActive : Option Nat := none
  tagRead : Option TagRead := none
  tagReads : List TagRead := []
  /-- Milestones since the last periodic search. -/
  tagAge : Nat := 0
  mresult : Nat := 0
  deriving DecidableEq, Repr

/-- The state in force at an instant, as a snapshot block, and the changes of a milestone block after it, give it (R291). -/
structure Snap where
  regs : KMap Word := []
  acc : Access := {}
  sup : Sup := {}
  ports : KMap Port := []
  engines : KMap Engine := []
  seq : Seq := {}
  imps : KMap ImpEngine := []
  banks : KMap Bank := []
  checks : KMap Check := []
  cal : Cal := {}
  scans : KMap Scan := []
  places : KMap Place := []
  evalDue : Bool := false
  caps : List Nat := []
  spe : Spe := {}
  alm : Alm := {}
  tim : Tim := {}
  glz : Glz := {}
  pwr : Pwr := {}
  thm : Thm := {}
  hist : List Epoch := []
  deriving DecidableEq, Repr

/-- What the ring records while it runs, in order (R290, R291): every code of its sources with what it takes from the state at its
instant, the milestones with the state and the inputs that they find, and what reaches chains and alarm engine otherwise. -/
inductive RingItem where
  /-- A milestone, reached with this state and these inputs. -/
  | milestone (num : Nat) (m : MsIn) (p : Snap)
  /-- The codes of a window, or one fast-path code, of source `src` of LAK_RING_SRC. -/
  | codes (src : Nat) (f : Flight) (fast : Bool)
  /-- A window is held on a channel, at fabric time `t`. -/
  | hold (ch : Nat) (h : Option HeldWin) (t : Nat)
  /-- Substituted inputs enter their chains up to an instant. -/
  | upto (t : Nat)
  /-- The period ends at an instant. -/
  | closing (t : Nat)
  /-- The interval of a reduced stream ends. -/
  | interval (stream : Nat)
  /-- The kept sums of an impedance period that ends, and its stamp (R98). -/
  | sums (n stamp : Nat) (e : ImpEngine)
  /-- The epochs from now on. -/
  | epochs (h : List Epoch)
  /-- The banks whose die-to-die link is bad from now on. -/
  | links (bad : BitVec 24)
  /-- Ports have been moved, from this state. -/
  | moved (p : Snap)
  /-- An observation, in the order of R207. -/
  | event (o : Obs)
  /-- A write of ALM_ACK, at fabric time `t`. -/
  | ack (w : Word) (t : Nat)
  /-- A switch has gone silent. -/
  | silent (i : Nat)
  /-- The alarm engine restarts. -/
  | restart
  deriving DecidableEq, Repr

/-- A held capture. -/
structure Capture where
  idx : Nat
  first : Nat
  last : Nat
  cause : Nat
  slots : List Nat
  verified : Bool
  /-- What the ring held from its first milestone on. -/
  items : List RingItem
  /-- The segment number of its first part; the others follow (R276, R277). -/
  firstSeg : Nat
  /-- The bytes of its blocks, part by part. -/
  parts : List (List Byte) := []
  /-- The address of the device and the milestone when it was built. -/
  origin : Nat := 0
  madeMs : Nat := 0
  deriving DecidableEq, Repr

/-- The capture engine's state (LAK_CAP_STAT.STATE). -/
inductive CapSt where
  | idle | armed | post | copying
  deriving DecidableEq, Repr

/-- A running replay. DESIGN CHOICE (log 15). -/
structure Replay where
  pipe : Nat
  capture : Nat
  session : Nat
  start : Nat
  stop : Nat
  /-- Milestones of the capture replayed so far. -/
  upto : Nat := 0
  deriving DecidableEq, Repr

/-- The lake index saved in the AON domain (R287): next segment number, the own segments and the copies with the slots
they occupy, the sessions with their acknowledgement positions, and the holders that step 2 of R287 asks. -/
structure LakeIndex where
  next : Nat
  segs : List Segment
  replicas : List Replica
  captures : List Capture
  sessions : List Session
  holders : List (Nat × Nat × Nat)
  deriving DecidableEq, Repr

/-- The lake. DESIGN CHOICE (log 15). -/
structure Lake where
  segs : List Segment := []
  nextSeg : Nat := 0
  replicas : List Replica := []
  holders : List (Nat × Nat × Nat) := []
  holderAge : KMap Nat := []
  ext : Nat := 0
  ringNow : Nat := 0
  capSt : CapSt := .idle
  capCause : Nat := 0
  capInst : Nat := 0
  ringFirst : Nat := 0
  /-- What has been written to the ring since it was armed. -/
  ring : List RingItem := []
  /-- How many items it held at the trigger. -/
  trigAt : Nat := 0
  missed : Nat := 0
  captures : List Capture := []
  replay : Option Replay := none
  replayStatus : Nat := 0
  replayPipe : Nat := 0
  /-- Own segments that both holders have been asked for, with the claims on them (R287). -/
  recovering : List Segment := []
  /-- The own space is below the sum of quotas plus 2 (R312). -/
  short : Bool := false
  /-- Holders that have answered "no intact copy", by segment number. -/
  noCopy : KMap (List Nat) := []
  /-- The capture being copied (R291). -/
  building : Option Capture := none
  /-- Holders declared lost that may still hold copies, and releases owed to them (R286). -/
  lost : List Nat := []
  owed : List (Nat × Nat) := []
  /-- Recovery requests not yet sent: holder and own segment (R287). -/
  asks : List (Nat × Nat) := []
  /-- No index was found at the cold start: every reachable device is asked for the highest number it holds; those asked (R287). -/
  indexLost : Bool := false
  topAsked : List Nat := []
  /-- Those of them that have answered. -/
  topSaid : List Nat := []
  /-- Conflicts for which the reachable originator has been asked: its unit identifier and the segment (R289). -/
  confAsked : List (Nat × Nat) := []
  /-- Milestones until the choice of holders is repeated; 0: it is due (R284). -/
  choiceIn : Nat := 0
  index : Option LakeIndex := none
  deriving DecidableEq, Repr

/-- The whole machine. -/
structure State where
  /-- Commands that wait, first in, first out. -/
  pending : List Instr := []
  /-- The privileged register space: registers, table words in force, glaze memory, buffers. -/
  regs : KMap Word := []
  acc : Access := {}
  sup : Sup := {}
  ports : KMap Port := []
  engines : KMap Engine := []
  seq : Seq := {}
  imps : KMap ImpEngine := []
  banks : KMap Bank := []
  checks : KMap Check := []
  cal : Cal := {}
  scans : KMap Scan := []
  places : KMap Place := []
  evalDue : Bool := false
  /-- The banks of the capacity at the last packing (R142, R146). -/
  caps : List Nat := []
  spe : Spe := {}
  alm : Alm := {}
  tim : Tim := {}
  fab : Fab := {}
  frames : List Frame := []
  lake : Lake := {}
  sec : Sec := {}
  glz : Glz := {}
  int : Int_ := {}
  pwr : Pwr := {}
  thm : Thm := {}
  /-- The history of epochs, newest first. -/
  hist : List Epoch := []
  flash : Flash := {}
  upd : Upd := {}
  hst : Hst := {}
  deriving DecidableEq, Repr

/-- Why the machine stops. No command of this block stops it: every row has an effect in the spec, and an event whose
condition the state does not meet changes nothing; the constructor keeps the type inhabited. -/
inductive Fault where
  /-- Raised by nobody; safe. -/
  | stopped
  deriving DecidableEq, Repr

/-- Why a command has no meaning. -/
inductive Refusal where
  /-- An arm of `exec` that has no meaning yet, by the mnemonic of the opcode table; safe. -/
  | notModelled (mnemonic : String)
  deriving DecidableEq, Repr

/-- The machine right after a cold reset (the rise of RESET_N): every register at its reset value, fabric time 0, no
base configuration applied yet, the flash as manufactured (R18, R219, R221, R329, R373), the queue empty. -/
def State.reset : State := {}

end Sys2Proof.Machine
end

