-- ==== Sys2Proof/Machine/Ops.lean ====
section
/-! DEFINITION. The named operations over the register space and over time that every meaning uses: reading and
writing a register or field, setting a sticky bit, counting, fabric time, milestones and the verge, requesters. -/

namespace Sys2Proof.Machine

open Sys2Proof

/-- What a step answers. -/
abbrev Out := Host.Outcome State Fault Refusal

/-! ### Registers -/

/-- The word stored at an address of the privileged space (R29). -/
def State.reg (s : State) (a : Nat) : Word := kget s.regs a (regReset a)

/-- Stores a word. -/
def State.setReg (s : State) (a : Nat) (v : Word) : State := { s with regs := kset s.regs a v (regReset a) }

/-- A field of a stored word. -/
def State.fld (s : State) (a lsb width : Nat) : Nat := bits (s.reg a) lsb width

/-- One bit of a stored word. -/
def State.flag (s : State) (a n : Nat) : Bool := bit (s.reg a) n

/-- Stores a field. -/
def State.setFld (s : State) (a lsb width v : Nat) : State := s.setReg a (setBits (s.reg a) lsb width v)

/-- Sets bits of a stored word. -/
def State.orReg (s : State) (a : Nat) (m : Word) : State := s.setReg a (s.reg a ||| m)

/-- Clears bits of a stored word (W1C). -/
def State.clearReg (s : State) (a : Nat) (m : Word) : State := s.setReg a (s.reg a &&& ~~~ m)

/-- Sets a bit of a page's BLK_STICKY (R25). -/
def State.stick (s : State) (k : PageKind) (inst n : Nat) : State := s.orReg (ra k inst 0x010) (bitW n)

/-- Sets a bit of BLK_STICKY of the page with that number. -/
def State.stickPage (s : State) (page n : Nat) : State := s.orReg (page * 0x1000 + 0x010) (bitW n)

/-- Adds to a saturating 32-bit counter. -/
def State.countSat (s : State) (a n : Nat) : State :=
  s.setReg a (BitVec.ofNat 32 (satU 32 ((s.reg a).toNat + n)))

/-- Adds to a saturating counter field. -/
def State.countSatFld (s : State) (a lsb width n : Nat) : State :=
  s.setFld a lsb width (satU width (s.fld a lsb width + n))

/-- Adds to a wrapping counter field. -/
def State.countWrap (s : State) (a lsb width n : Nat) : State := s.setFld a lsb width (s.fld a lsb width + n)

/-- A word of a table entry in effect: an entry that was swapped in and waits for its milestone still acts with its
old words (R192, R199, R306). -/
def State.eff (s : State) (a : Nat) : Word := kget s.acc.effective a (s.reg a)

/-- A field of a table entry in effect. -/
def State.effFld (s : State) (t : TableId) (i w lsb width : Nat) : Nat := bits (s.eff (t.addr i w)) lsb width

/-- A field of a table entry in force. -/
def State.tabFld (s : State) (t : TableId) (i w lsb width : Nat) : Nat := s.fld (t.addr i w) lsb width

/-- Applies a function to the state for 0, 1, …, n − 1 in turn. -/
def State.upTo (s : State) (n : Nat) (f : State → Nat → State) : State := (List.range n).foldl f s

/-- Applies a function to the state for each element of a list in turn. -/
def State.each {α : Type} (s : State) (l : List α) (f : State → α → State) : State := l.foldl f s

/-! ### Access to the grouped structures -/

def State.port (s : State) (c : Nat) : Port := kget s.ports c {}
def State.setPort (s : State) (c : Nat) (p : Port) : State := { s with ports := kset s.ports c p {} }
def State.engine (s : State) (e : Nat) : Engine := kget s.engines e {}
def State.setEngine (s : State) (e : Nat) (v : Engine) : State := { s with engines := kset s.engines e v {} }
def State.imp (s : State) (n : Nat) : ImpEngine := kget s.imps n {}
def State.setImp (s : State) (n : Nat) (v : ImpEngine) : State := { s with imps := kset s.imps n v {} }
def State.bank (s : State) (b : Nat) : Bank := kget s.banks b {}
def State.setBank (s : State) (b : Nat) (v : Bank) : State := { s with banks := kset s.banks b v {} }
def State.check (s : State) (c : Nat) : Check := kget s.checks c {}
def State.setCheck (s : State) (c : Nat) (v : Check) : State := { s with checks := kset s.checks c v {} }
def State.scan (s : State) (n : Nat) : Scan := kget s.scans n {}
def State.setScan (s : State) (n : Nat) (v : Scan) : State := { s with scans := kset s.scans n v {} }
def State.place (s : State) (p : Nat) : Place := kget s.places p {}
def State.setPlace (s : State) (p : Nat) (v : Place) : State := { s with places := kset s.places p v {} }
def State.stream (s : State) (i : Nat) : Stream := kget s.spe.streams i {}
def State.setStream (s : State) (i : Nat) (v : Stream) : State :=
  { s with spe := { s.spe with streams := kset s.spe.streams i v {} } }
def State.switch (s : State) (i : Nat) : Switch := kget s.alm.switches i {}
def State.setSwitch (s : State) (i : Nat) (v : Switch) : State :=
  { s with alm := { s.alm with switches := kset s.alm.switches i v {} } }
def State.rule (s : State) (r : Nat) : Rule := kget s.alm.rules r {}
def State.setRule (s : State) (r : Nat) (v : Rule) : State :=
  { s with alm := { s.alm with rules := kset s.alm.rules r v {} } }
def State.almOut (s : State) (n : Nat) : AlmOut := kget s.alm.outs n {}
def State.setAlmOut (s : State) (n : Nat) (v : AlmOut) : State :=
  { s with alm := { s.alm with outs := kset s.alm.outs n v {} } }
def State.fport (s : State) (p : Nat) : FabPort := kget s.fab.ports p {}
def State.setFport (s : State) (p : Nat) (v : FabPort) : State :=
  { s with fab := { s.fab with ports := kset s.fab.ports p v {} } }

/-! ### Time (R10, R219 to R221, R34) -/

/-- The length of a milestone period, 2^-10 s, in units of 2^-64 s. -/
def msSpan : Nat := 2 ^ 54

/-- The instant of the next milestone boundary. DESIGN CHOICE (log 6). -/
def Tim.next (t : Tim) : Nat := (t.time / msSpan + 1) * msSpan

/-- The offset that the slew in force has left (R228). -/
def Tim.slewLeft (t : Tim) : Int := if t.slewOn then t.slew else 0

/-- What a remaining offset adds in a CKR cycle at a rate (R228). -/
def rateStep (rem : Int) (rate : Nat) : Int := Int.sign rem * (rate * 512 : Nat)

/-- The part of a remaining offset that `n` cycles work off (R228: the last cycle adds the exact remainder). -/
def workedIn (rem : Int) (rate n : Nat) : Int := if rem.natAbs ≤ n * rate * 512 then rem else n * rateStep rem rate

/-- What the next CKR cycle adds to fabric time: TIM_INC, a slew and a servo correction (R221, R228, R234). -/
def Tim.perCycle (t : Tim) : Nat := (t.inc + workedIn t.slewLeft t.slewRate 1 + workedIn t.fix t.fixRate 1).toNat

/-- What `n` CKR cycles add to fabric time. -/
def Tim.passed (t : Tim) (n : Nat) : Int :=
  n * t.inc + workedIn t.slewLeft t.slewRate n + workedIn t.fix t.fixRate n

/-- The least number of CKR cycles, at least `lo`, in which a constant and a number a cycle reach `span`. -/
def cyclesAt (lo : Nat) (span : Nat) (base perCycle : Int) : Nat := max lo (ceilDiv (span - base).toNat perCycle.toNat)

/-- The least number of CKR cycles in which fabric time passes `span`: first with the slew and the servo correction, then
with the one that lasts longer, then with neither (R228). -/
def Tim.cyclesIn (t : Tim) (span : Nat) : Nat :=
  let slewEnds := ceilDiv t.slewLeft.natAbs (t.slewRate * 512)
  let fixEnds := ceilDiv t.fix.natAbs (t.fixRate * 512)
  let slew := rateStep t.slewLeft t.slewRate
  let fix := rateStep t.fix t.fixRate
  let n := cyclesAt 0 span 0 (t.inc + slew + fix)
  if n < min slewEnds fixEnds then n
  else
    let n := if slewEnds ≤ fixEnds then cyclesAt slewEnds span t.slewLeft (t.inc + fix)
             else cyclesAt fixEnds span t.fix (t.inc + slew)
    if n < max slewEnds fixEnds then n else cyclesAt (max slewEnds fixEnds) span (t.slewLeft + t.fix) t.inc

/-- CKR cycles from now to the next milestone boundary. -/
def Tim.cyclesLeft (t : Tim) : Nat := t.cyclesIn (t.next - t.time)

/-- `n` CKR cycles work off what they do of the slew and of the servo correction. -/
def Tim.worked (t : Tim) (n : Nat) : Tim :=
  { t with slew := t.slew - workedIn t.slewLeft t.slewRate n, fix := t.fix - workedIn t.fix t.fixRate n, ckr := t.ckr + n }

/-- `n` CKR cycles pass, but never past the next milestone boundary: the milestone itself is a command (R14). -/
def Tim.advance (t : Tim) (n : Nat) : Tim :=
  let n := min n (t.cyclesLeft - 1)
  { t.worked n with time := min (t.time + t.passed n).toNat (t.next - 1) }

/-- The verge: the last 16,384 CKR cycles before a milestone (R10). -/
def Tim.verge (t : Tim) : Bool := t.locked && t.cyclesLeft ≤ 16384

/-- The emitted-milestone count at which a change accepted now acts: the next milestone, or in the verge the one after
it (R34). -/
def Tim.due (t : Tim) : Nat := if t.verge then t.msCount + 2 else t.msCount + 1

/-- An instant in 2^-32 s, the unit of record stamps (R219). -/
def Tim.stamp (t : Tim) : Nat := t.time / 2 ^ 32

/-- Seconds of a stamp, low 32 bits. -/
def stampSec (t : Nat) : Nat := t / 2 ^ 32 % 2 ^ 32

/-- Fraction of a stamp in 2^-32 s. -/
def stampFrac (t : Nat) : Nat := t % 2 ^ 32

/-- The instant of the milestone that was emitted last, in 2^-32 s. -/
def Tim.msStamp (t : Tim) : Nat := t.msNum * 2 ^ 22

/-- The time unit is in island time (R237). -/
def State.islandTime (s : State) : Bool :=
  s.tim.st = .holdover || (s.tim.st = .locked && s.tim.rootIsland) || (s.tim.st = .root && s.tim.islandRoot)

/-! ### Epochs (R15, R187) -/

/-- The reference state is undetermined (R169). -/
def State.refUndet (s : State) : Bool := s.fld (ra .cal0 0 0x040) 16 2 = 2

/-- No CKR cycle has passed since the milestone emitted last: what a milestone decides beside its steps acts here. -/
def State.atMilestone (s : State) : Bool := s.tim.ckr = s.tim.msCkr

/-- The epoch of this moment; one that begins beside a milestone begins at its boundary (R15). -/
def State.epochNow (s : State) : Epoch :=
  { since := if s.atMilestone then min s.tim.time (s.tim.msNum * msSpan) else s.tim.time, glaze := s.glz.nowId, late := s.glz.nowLate, refEpoch := s.fld (ra .cal0 0 0x040) 8 8,
    refUndet := s.refUndet, island := s.islandTime, calEpochs := (List.range 24).map fun b => (s.bank b).epoch }

/-- The epoch in force at an instant in 2^-64 s: the newest that had begun by then. -/
def State.epochAt (s : State) (t : Nat) : Epoch := (s.hist.find? fun e => decide (e.since ≤ t)).getD s.epochNow

/-- The ring records while it is armed or after a trigger (R290, R291). -/
def State.ringAdd (s : State) (x : RingItem) : State :=
  if s.lake.ringNow ≠ 0 ∧ (s.lake.capSt = .armed ∨ s.lake.capSt = .post) then
    { s with lake := { s.lake with ring := s.lake.ring ++ [x] } }
  else s

/-! #### The bytes of a segment (R276) -/

/-- Notes the epoch of this moment where it is another than the newest noted. -/
def State.noteEpoch (s : State) : State :=
  let now := s.epochNow
  let to_ := fun (h : List Epoch) => { s with hist := h }.ringAdd (.epochs h)
  match s.hist with
  | [] => to_ [now]
  | e :: t =>
    if { e with since := now.since } = now then s
    else if e.since = now.since then to_ (now :: t) else to_ (now :: e :: t)

/-- `n` is ahead of the milestone emitted last, in the sense of R220. -/
def Tim.ahead (t : Tim) (n : Nat) : Bool := serialNewer 32 n t.msNum

/-- The device is up enough for fabric time to run in CKR (R221). -/
def Pwr.clocked (p : Pwr) : Bool :=
  match p.st with
  | .run | .idle | .sleep => true
  | .deepSleep | .off => false

/-- Fabric time counts in CKR: the device is clocked, or a wake from Deep Sleep is in progress, once the PLL has locked
(R221). -/
def Pwr.counts (p : Pwr) : Bool := p.clocked || (p.st = .deepSleep && p.waking)

/-- The device is in Run or Idle: a TC4 frame addressed to it is taken, and supervisor work is done (R346, R350). -/
def State.awake (s : State) : Bool := s.pwr.st = .run || s.pwr.st = .idle

/-- The supervisor works: it runs, in Run and Idle (R21, R346). -/
def State.supWorks (s : State) : Bool := s.sup.running && s.awake

/-! ### Egress ports (R248 to R251) -/

/-- Fragments of a class that wait on a port. -/
def FabPort.queued (p : FabPort) (cls : Nat) : Nat := (p.queue.filter fun f => f.cls = cls).length

/-- The place of a class in the order of service: TC1, TC0, TC2, TC4, TC3 (R249). -/
def classRank : Nat → Nat
  | 1 => 0
  | 0 => 1
  | 2 => 2
  | 4 => 3
  | _ => 4

/-- A fragment may go out next: within a frame that has begun come its own fragments and those of higher classes (R248); in
Sleep a port carries TC0, TC1 and TC4 only (R246). -/
def FabPort.may (p : FabPort) (f : TxFrag) : Bool :=
  !(p.st = .upSleep && (f.cls = 2 || f.cls = 3)) &&
    p.begun.all fun m => (p.st = .upSleep && (m.1 = 2 || m.1 = 3)) || classRank f.cls < classRank m.1 || m = (f.cls, f.party, f.flow)

/-- The next party in ascending order, from the lowest again after the highest. -/
def nextParty (ps : List Nat) (t : Nat) : Nat :=
  let least := fun (l : List Nat) => l.foldl (fun (m : Option Nat) x => match m with
    | none => some x
    | some y => some (min x y)) none
  match least (ps.filter fun x => t < x) with
  | some x => x
  | none => (least ps).getD t

/-- Deficit round robin among parties with a backlog (R249, R310): a party is served while it has something left of its
turn; each turn gives it 256 bytes for each unit of its weight. DEDUCED (log 92). -/
def FabPort.roundRobin (p : FabPort) (ws : Nat → Nat) (ps : List Nat) : Nat → FabPort
  | 0 => p
  | n + 1 =>
    if ps.contains p.turn && decide (0 < kget p.deficit p.turn 0) then p
    else
      let t := nextParty ps p.turn
      FabPort.roundRobin { p with turn := t, deficit := kset p.deficit t (kget p.deficit t 0 + 256 * max 1 (ws t)) 0 } ws ps n

/-- The fragment that goes out next, if one may (R249). -/
def FabPort.pick (p : FabPort) (ws : Nat → Nat) : FabPort × Option TxFrag :=
  let head := fun (c : Nat) => p.queue.find? fun f => f.cls = c && p.may f
  match ((head 1).or (head 0)).or (head 2) with
  | some f => (p, some f)
  | none =>
    let back := p.queue.filter fun f => (f.cls = 3 || f.cls = 4) && p.may f
    let ps := (back.map fun (f : TxFrag) => f.party).eraseDups
    if ps.isEmpty then ({ p with deficit := p.deficit.filter fun d => d.2 < 0 }, none)
    else
      let p := { p with deficit := p.deficit.filter fun d => ps.contains d.1 || d.2 < 0 }
      let p := p.roundRobin ws ps (10 * ps.length)
      let mine := back.filter fun f => f.party = p.turn
      (p, (mine.find? fun f => f.cls = 4).or (mine.find? fun f => f.cls = 3))

/-- Bytes of a fragment on the link: header, data, tag (R248). -/
def fragBytes (len : Nat) : Nat := len + 24

/-- Bytes in the replay buffer. -/
def FabPort.held (p : FabPort) : Nat := (p.replay.map fun (x : SentFrag) => fragBytes x.len).sum

/-- A fragment goes out: numbered, kept in the replay buffer (R251), and the link is taken for its bytes. -/
def FabPort.start (p : FabPort) (f : TxFrag) (now : Nat) : FabPort :=
  { p with
    queue := p.queue.erase f
    busy := fragBytes f.len * 11
    begun := (p.begun.filter fun m => m.1 ≠ f.cls) ++ (if f.last then [] else [(f.cls, f.party, f.flow)])
    deficit := if f.cls = 3 ∨ f.cls = 4 then kset p.deficit f.party (kget p.deficit f.party 0 - fragBytes f.len) 0 else p.deficit
    txSeq := (p.txSeq + 1) % 65536
    sent := p.sent + 1
    replay := p.replay ++ [⟨p.txSeq, f.cls, f.len, f.first, f.last, p.keyPhase, now, 1⟩] }

/-- A port sends for `room` elevenths of a byte: one fragment after the other, as long as the replay buffer of 2 MiB has room
(R249, R251). -/
def FabPort.sendFor (p : FabPort) (ws : Nat → Nat) (now : Nat) : Nat → Nat → FabPort
  | 0, room => { p with busy := p.busy - room }
  | n + 1, room =>
    if room < p.busy then { p with busy := p.busy - room }
    else match p.pick ws with
      | (q, none) => { q with busy := 0 }
      | (q, some f) =>
        if 2 ^ 21 < q.held + fragBytes f.len then { q with busy := 0 }
        else FabPort.sendFor (q.start f now) ws now n (room - p.busy)

/-- A Quevex port sends while `n` CKR cycles pass: a lane carries 12 bits a cycle, coded 64b/66b (R244). DEDUCED (log 92). -/
def FabPort.drain (p : FabPort) (ws : Nat → Nat) (now n : Nat) : FabPort :=
  if p.queue.isEmpty && p.busy = 0 then p else p.sendFor ws now (p.queue.length + 1) (n * p.width * 16)

/-- The weight of a party: TEN_CFG.OWN_WEIGHT, or WEIGHT of a tenant's entry (R310). -/
def State.weightOf (s : State) (party : Nat) : Nat :=
  if party < 128 then s.effFld .tenant party 0 8 8 else s.fld (ra .ten 0 0x044) 0 8

/-- CKR cycles pass before a command is accepted. DESIGN CHOICE (log 6). -/
def State.elapse (s : State) (n : Nat) : State :=
  if s.tim.locked && s.pwr.counts then
    let before := s.tim.cyclesLeft
    let t := s.tim.advance n
    let gone := before - t.cyclesLeft
    { s with tim := t,
             fab := { s.fab with ports := s.fab.ports.map fun p => (p.1, p.2.drain s.weightOf t.time gone) } }
  else s

/-! ### Requesters (chapter 02, "Locks"; R303) -/

/-- A fabric session by number. -/
def State.session (s : State) (n : Nat) : Option Session := s.fab.sessions.find? fun x => x.num = n

/-- Replaces a session. -/
def State.setSession (s : State) (v : Session) : State :=
  { s with fab := { s.fab with sessions := s.fab.sessions.map fun x => if x.num = v.num then v else x } }

/-- The open session behind a requester identifier. -/
def State.reqSession (s : State) (req : Nat) : Option Session :=
  if 0x8000 ≤ req ∧ req ≤ 0x87FF then
    match s.session (req - 0x8000) with
    | some x => if x.st = .open_ then some x else none
    | none => none
  else none

/-- The tenant whose window a requester uses, if it uses one. -/
def State.tenantOf (s : State) (req : Nat) : Option Nat :=
  if 0x0100 ≤ req ∧ req ≤ 0x017F then some (req - 0x0100)
  else match s.reqSession req with
    | some x => match x.role with
      | .owner => none
      | .tenant t => some t.val
    | none => none

/-- An owner requester: BAR0, the management port, or an owner session (R28). -/
def State.ownerReq (s : State) (req : Nat) : Bool :=
  req = 0 || req = 1 ||
    (match s.reqSession req with
     | some x => x.role = .owner
     | none => false)

/-- The requester exists: one of the identifiers of chapter 02, a session only while it is open. -/
def State.validReq (s : State) (req : Nat) : Bool := s.ownerReq req || (s.tenantOf req).isSome

/-! ### Interrupt pulses -/

def State.source (s : State) (n : Nat) : Source :=
  kget s.int.sources n (if n < 6 then { cfg := 0x0001FF09 } else {})
def State.setSource (s : State) (n : Nat) (v : Source) : State :=
  { s with int := { s.int with sources := kset s.int.sources n v (if n < 6 then { cfg := 0x0001FF09 } else {}) } }

/-- A single-cycle pulse of a source (sources 16 and 768 to 1,023; R332). -/
def State.pulse (s : State) (n : Nat) : State := s.setSource n { s.source n with pulse := true }

/-! ### Pages -/

/-- The page accepts accesses: the base configuration is applied and registers are reachable, or the recovery loader
runs and the page is UPD (R28, R374, R387). In Sleep the register bus stands still: an access that arrives there is carried
out in Run (R346, R353). DEDUCED (log 150). -/
def State.answers (s : State) (page : Nat) : Bool :=
  s.pwr.clocked && !s.pwr.waking && decide (s.pwr.st ≠ .sleep) && (s.pwr.live || (s.pwr.recovery && page = 0x1E0))

/-- A block reset is in progress on the page (R423). -/
def State.inReset (s : State) (page : Nat) : Bool := s.acc.inReset.contains page

/-- The page's block is in service (BLK_STAT.ENABLED; R26). -/
def State.inService (s : State) (page : Nat) : Bool := !s.acc.disabled.contains page

/-- The lock held on a page. -/
def State.lockOf (s : State) (page : Nat) : Option Lock := s.acc.locks.find? fun l => l.page = page

/-- The 64-bit unit identifier of the factory record copy in use (R153, R296). DESIGN CHOICE (log 3). -/
def State.uid (s : State) : Nat :=
  ofLeBytes ((List.range 8).map fun i => Config.fused (if s.fld (ra .cal0 0 0x058) 0 2 = 1 then 1 else 0) (0x400 + i))

/-- A quotient whose rounding the spec leaves open. DESIGN CHOICE (log 16). -/
def divOpen (n d : Int) : Int := n / d + (if n % d ≠ 0 && Config.roundUp n d then 1 else 0)

/-- A signed 32-bit record value. -/
def i32 (v : Int) : Int := sext 32 (encInt 32 v)

/-- A signed register field. -/
def State.sfld (s : State) (a lsb width : Nat) : Int := sext width (s.fld a lsb width)

/-- Byte `i` of a buffer of words at an address. -/
def State.bufByte (s : State) (base i : Nat) : Byte := BitVec.ofNat 8 ((s.reg (base + i / 4 * 4)).toNat / 256 ^ (i % 4))

/-- Bytes of a buffer. -/
def State.bufBytes (s : State) (base start n : Nat) : List Byte :=
  (List.range n).map fun i => s.bufByte base (start + i)

/-- The state in force, for the ring. -/
def State.snap (s : State) : Snap :=
  { regs := s.regs, acc := s.acc, sup := s.sup, ports := s.ports, engines := s.engines, seq := s.seq, imps := s.imps,
    banks := s.banks, checks := s.checks, cal := s.cal, scans := s.scans, places := s.places, evalDue := s.evalDue,
    caps := s.caps, spe := s.spe, alm := s.alm, tim := s.tim, glz := s.glz, pwr := s.pwr, thm := s.thm, hist := s.hist }

end Sys2Proof.Machine
end

