-- ==== Sys2Proof/Machine/Emit.lean ====
section
/-! DEFINITION. Where a record goes when it leaves a pipeline: the lake, the router and the alarm engine (R13), with
frames (R247 to R249), retention (R275 to R280), delivery (R262 to R264) and waymarks (R240, R241, R267). -/

namespace Sys2Proof.Machine

open Sys2Proof

/-! ### Frames and the router -/

/-- A port that carries frames (R254, R246). -/
def FabPort.carries (p : FabPort) : Bool := p.st = .up || p.st = .upSleep

/-- The TC1 queue limit at a width (R250): 32 fragments a lane. -/
def tc1Limit (width : Nat) : Nat := 32 * width

/-- The TC2 admission limit at a width (R244): 8,192 slots a lane. -/
def tc2Limit (width : Nat) : Nat := 8192 * width

/-- The egress port of a destination: the entry's port, or its alternate while the port is down (R258, R259). -/
def State.routeTo (s : State) (dest : Nat) : Option Nat :=
  let w := s.reg (TableId.routing.addr dest 0)
  if bit w 0 && !bit w 5 then
    if (s.fport (bits w 2 3)).carries then some (bits w 2 3)
    else if bit w 9 && (s.fport (bits w 6 3)).carries then some (bits w 6 3) else none
  else none

/-- The fragments of a frame with `len` payload bytes (R247, R248). -/
def fragsOf (len : Nat) : Nat := ceilDiv (16 + len) 256

/-- Data lengths of the fragments of a frame of `n` bytes. -/
def fragLens : Nat → Nat → List Nat
  | 0, _ => []
  | k + 1, n => if n = 0 then [] else min n 256 :: fragLens k (n - 256)

/-- The fragments of a frame with `len` payload bytes as they join a queue. -/
def txFrags (cls party len : Nat) : List TxFrag :=
  let ls := fragLens 10 (16 + len)
  (List.range ls.length).map fun i => ⟨cls, party, 8, ls.getD i 0, i = 0, i + 1 = ls.length⟩

/-- Fragments join the queue of an egress port; FAB_PQPEAK keeps the largest queues, and TC1_OVER says that the one of TC1 is
above its limit (R250). -/
def State.queueOn (s : State) (q : Nat) (fs : List TxFrag) : State :=
  let p := { s.fport q with queue := (s.fport q).queue ++ fs }
  let s := s.setFport q p
  let pk := ra .fabPort q 0x050
  let s := s.setFld pk 0 8 (max (s.fld pk 0 8) (min (p.queued 1) 0xFF))
  let s := s.setFld pk 8 16 (max (s.fld pk 8 16) (min (p.queued 2) 0xFFFF))
  if tc1Limit p.width < p.queued 1 then s.stick .fabPort q 13 else s

/-- The party that a frame of the device counts for on TC3 and TC4: the tenant of its session, else the owner (R310). -/
def State.partyOf (s : State) (session : Nat) : Nat :=
  match s.session session with
  | some x => match x.role with
    | .tenant t => t.val
    | .owner => 255
  | none => 255

/-- Sends a frame on a port; 8 is the host port's frame queue, from which RX_RING_WRITE takes frames. -/
def State.sendOn (s : State) (egress cls kind dest session : Nat) (payload : List Int) (len : Nat) : State :=
  let f : Frame := { egress := egress, cls := cls, kind := kind, dest := dest, session := session, payload := payload,
                     src := s.fab.addr.getD 0, len := len }
  let s := { s with frames := s.frames ++ [f] }
  if egress = 8 then s else s.queueOn egress (txFrags cls (s.partyOf session) len)

/-- A port counts a frame that is discarded (R247, R258). -/
def State.countDrop (s : State) (p : Nat) : State := s.countSat (ra .fabPort p 0x058) 1

/-- A frame of the device or of its host is discarded: it has come in on no port, and the one that the routing entry of its
destination names counts it (R258, R303). DESIGN CHOICE (log 131). -/
def State.routeDrop (s : State) (dest : Nat) : State := s.countDrop (bits (s.reg (TableId.routing.addr dest 0)) 2 3)

/-- Sends a frame to an address along the route in force; without an address of its own the device sends none (R256),
and without a route the frame is discarded and NO_ROUTE is set (R258). -/
def State.sendTo (s : State) (cls kind dest session : Nat) (payload : List Int) (len : Nat) : State :=
  match s.fab.addr with
  | none => s
  | some own =>
    if own = dest then s
    else match s.routeTo dest with
      | some p => s.sendOn p cls kind dest session payload len
      | none => (s.routeDrop dest).stick .fabRouter 0 9

/-- Sends data too long for one frame as frames of at most 2,080 bytes of it, each with the same numbers in front and its place
(R247). DESIGN CHOICE (log 12). -/
def State.sendParts (s : State) (cls kind dest session : Nat) (head : List Int) (data : List Byte) : State :=
  s.upTo (max 1 (ceilDiv data.length 2080)) fun s i =>
    let part := (data.drop (2080 * i)).take 2080
    s.sendTo cls kind dest session (head ++ [(i : Int)] ++ part.map fun b => (b.toNat : Int)) (16 + part.length)

/-- Sends a link-local frame to the neighbour on a port that is up (R247). -/
def State.sendLink (s : State) (p cls kind : Nat) (payload : List Int) (len : Nat) : State :=
  if (s.fport p).carries then s.sendOn p cls kind 0x4000 0xFFFF payload len else s

/-- Sends a frame to a session's peer. -/
def State.sendSession (s : State) (x : Session) (cls kind : Nat) (payload : List Int) (len : Nat) : State :=
  if x.host then s.sendOn 8 cls kind x.peer x.num payload len
  else s.sendTo cls kind x.peer x.num payload len

/-- A record as the bytes of R187: the 24-byte little-endian header and the signed 32-bit values, with the recovered flag as
given (R283). DESIGN CHOICE (log 12). -/
def Record.image (r : Record) (recovered : Bool) : List Byte :=
  leBytes r.stream 2 ++ leBytes r.kind 1 ++ leBytes (Nat.lor r.flags (if recovered then 0x40 else 0)) 1 ++
    leBytes r.seqNo 4 ++ leBytes r.sec 4 ++ leBytes r.frac 4 ++ leBytes r.glaze 2 ++ leBytes r.refEpoch 1 ++
    leBytes r.calEpoch 1 ++ leBytes r.values.length 2 ++ leBytes r.exp 1 ++ leBytes r.unit 1 ++
    r.values.flatMap fun v => leBytes (encInt 32 v) 4

/-- Bytes of a record (R187). -/
def Record.bytes (r : Record) : Nat := 24 + 4 * r.values.length

/-- Sends a record to a session's peer. -/
def State.sendRecord (s : State) (x : Session) (cls : Nat) (r : Record) (recovered : Bool) : State :=
  s.sendSession x cls 0x00 ((r.image recovered).map fun b => (b.toNat : Int)) r.bytes

/-! ### The lake (R275 to R280) -/

/-- Replica space in force: LAK_SPLIT.RSPACE. -/
def State.rspace (s : State) : Nat := s.fld (ra .lak 0 0x048) 0 16

/-- The own space in slots (R275). -/
def State.ownSpace (s : State) : Nat := 64 + s.lake.ext - s.lake.ringNow - s.rspace

/-- Tenants enabled by the entries in effect. -/
def State.tenantsOn (s : State) : List Nat := rangeFilter 128 fun t => bit (s.eff (TableId.tenant.addr t 0)) 0

/-- A tenant's quota in force (R312), as TEN_LAKE reports it. -/
def State.quotaNow (s : State) (t : Nat) : Nat := s.fld (ra .tenStat t 0x048) 16 16

/-- The slots of a class's space: a tenant's quota, or the owner's share (R275, R282). -/
def State.shareOf (s : State) (tenant : Nat) : Nat :=
  if tenant < 128 then s.quotaNow tenant
  else s.ownSpace - (s.tenantsOn.map s.quotaNow).sum

/-- Slots that a tenant's, or the owner's, segments and captures use. -/
def State.slotsUsed (s : State) (tenant : Nat) : Nat :=
  (s.lake.segs.filter fun g => g.tenant = tenant).length +
    (if tenant = 255 then ((s.lake.captures ++ s.lake.building.toList).map (·.slots.length)).sum else 0)

/-- The number of the n-th slot outside the ring: on-chip slots first, then external ones (R275). -/
def State.slotNo (s : State) (n : Nat) : Nat := if n < 64 - s.lake.ringNow then n else n + s.lake.ringNow

/-- A segment, a copy or a capture fills a slot. -/
def State.slotFull (s : State) (k : Nat) : Bool :=
  (s.lake.segs.any fun g => g.slot = k) || (s.lake.replicas.any fun g => g.slot = k) ||
    (s.lake.captures ++ s.lake.building.toList).any fun c => c.slots.contains k

/-- A slot of the own space that nothing fills. -/
def State.freeSlot (s : State) : Option Nat := ((List.range s.ownSpace).map s.slotNo).find? fun k => !s.slotFull k

/-- Claims given up: (stream, session, sequence number). -/
abbrev GiveUps := List (Nat × Nat × Nat)

/-- The claims of a segment. -/
def Segment.claims (g : Segment) : GiveUps :=
  g.kept.flatMap fun k => k.claims.map fun n => (k.record.stream, n, k.record.seqNo)

/-- Runs of consecutive sequence numbers of one stream and session: (stream, session, first, last). -/
def runsOf : GiveUps → List (Nat × Nat × Nat × Nat)
  | [] => []
  | (i, n, q) :: t =>
    match runsOf t with
    | (i', n', a, b) :: rest =>
      if i = i' ∧ n = n' ∧ (q + 1) % 2 ^ 32 = a then (i, n, q, b) :: rest
      else (i, n, q, q) :: (i', n', a, b) :: rest
    | [] => [(i, n, q, q)]

/-- Insertion into give-ups sorted by session, stream and sequence number. -/
def giveUpIns (x : Nat × Nat × Nat) : GiveUps → GiveUps
  | [] => [x]
  | y :: t =>
    if x.2.1 < y.2.1 ∨ (x.2.1 = y.2.1 ∧ (x.1 < y.1 ∨ (x.1 = y.1 ∧ x.2.2 ≤ y.2.2))) then x :: y :: t
    else y :: giveUpIns x t

/-- Give-ups in order of session, stream and sequence number. -/
def giveUpSort (g : GiveUps) : GiveUps := g.foldr giveUpIns []

/-- What a segment has to push: its records, and 1 more once it is sealed (R285). -/
def Segment.toPush (g : Segment) : Nat := g.kept.length + (if g.sealed then 1 else 0)

/-- What the header of a segment says besides its constant bytes. -/
structure SegHead where
  uid : Nat
  origin : Nat
  replicated : Bool
  tenant : Nat
  num : Nat
  issue : Nat
  sealed : Bool
  conflicting : Bool
  bytes : Nat
  sec : Nat
  frac : Nat
  madeMs : Nat
  /-- Index and part of a capture segment. -/
  part : Option (Nat × Nat)

/-- Bytes 0 to 63 of a segment. -/
def SegHead.image (h : SegHead) : List Byte :=
  leBytes h.uid 8 ++ leBytes (h.origin % 2 ^ 14) 2 ++ leBytes (if h.replicated then 1 else 0) 1 ++ leBytes h.tenant 1 ++
    leBytes h.num 8 ++ leBytes h.issue 4 ++
    leBytes ((if h.sealed then 1 else 0) + (if h.part.isSome then 2 else 0) + (if h.conflicting then 4 else 0)) 4 ++
    leBytes h.bytes 4 ++ leBytes h.sec 4 ++ leBytes h.frac 4 ++ leBytes h.madeMs 4 ++
    leBytes (match h.part with
      | some (i, _) => i
      | none => 0) 1 ++
    leBytes (match h.part with
      | some (_, p) => p
      | none => 0) 3 ++ List.replicate 16 0

/-- Bytes 0 to 1,048,455: header, body and CRC-64. -/
def segSigned (h : SegHead) (body : List Byte) : List Byte :=
  let l := h.image ++ body ++ List.replicate (1048384 - body.length) 0
  l ++ leBytes (crc64 l) 8

/-- The unit-key signature over the digest of bytes, r then s. -/
def unitSig (bs : List Byte) : List Byte := (leBytes (Config.unitSign (Config.sha384 bs)).toNat 96).reverse

/-- The bytes of a segment whose signature is given. -/
def segImage (h : SegHead) (body sig : List Byte) : List Byte := segSigned h body ++ sig ++ List.replicate 24 0

/-- The body of some records. -/
def recBody (rs : List Record) : List Byte := rs.flatMap fun r => r.image false

/-- The header of an own segment. -/
def State.segHead (s : State) (g : Segment) : SegHead :=
  let first := (g.kept.head?).map (·.record)
  { uid := s.uid, origin := g.origin, replicated := g.replicated, tenant := g.tenant, num := g.num, issue := g.issue
    sealed := g.sealed, conflicting := g.conflicting, bytes := g.bytes, sec := (first.map (·.sec)).getD 0
    frac := (first.map (·.frac)).getD 0, madeMs := g.madeMs, part := none }

/-- The body of an own segment. -/
def Segment.body (g : Segment) : List Byte := recBody (g.kept.map (·.record))

/-- The bytes of an own segment, signed with the unit key. -/
def State.segBytes (s : State) (g : Segment) : List Byte :=
  let h := s.segHead g
  segImage h g.body (unitSig (segSigned h g.body))

/-- What a push carries (R285): the header, the records that are new, the trailer. -/
def State.pushBytes (s : State) (g : Segment) (pushed : Nat) : List Byte :=
  (s.segHead g).image ++ recBody ((g.kept.drop pushed).map (·.record)) ++ (s.segBytes g).drop 1048448

/-- With the index lost, a reachable device has still to say which highest number it holds, so the numbers of new segments are not
final (R287). DEDUCED (log 42). -/
def State.numbersOpen (s : State) : Bool :=
  s.lake.indexLost && s.lake.topAsked.any fun a => (s.routeTo a).isSome && !s.lake.topSaid.contains a

/-- Holders get the new bytes of a segment with its next issue number on TC3 (R285); in Sleep a push waits (R283). Replication
frames carry an operation: 0 offer, 1 accept, 2 refuse, 3 push, 4 request for the whole, 5 whole segment, 6 release, 7 recovery
request, 8 no intact copy, 9 request for the highest number. DESIGN CHOICE (log 12). -/
def State.pushSeg (s : State) (g : Segment) : State × Segment :=
  if g.replicated && !g.conflicting && s.pwr.st ≠ .sleep && !s.numbersOpen then
    let g' := { g with issue := g.issue + 1, pushed := g.toPush }
    (s.each s.lake.holders fun s h =>
       s.sendParts 3 0x05 h.2.1 0xFFFF [3, g'.num, g'.issue] (s.pushBytes g' g.pushed), g')
  else (s, g)

/-- Seals a segment (R277) and pushes it (R285). -/
def State.sealSeg (s : State) (g : Segment) : State × Segment :=
  s.pushSeg { g with sealed := true, sealMs := s.tim.msCount }

/-- Replaces a segment: the copy in its slot. -/
def State.setSeg (s : State) (g : Segment) : State :=
  { s with lake := { s.lake with segs := s.lake.segs.map fun x => if x.slot = g.slot then g else x } }

/-- Removes a segment. Its holders get a release when it was replicated (R279): at once those that a route leads to, the others,
and holders declared lost, when they can be reached (R286). -/
def State.dropSeg (s : State) (g : Segment) : State :=
  let s := { s with lake := { s.lake with segs := s.lake.segs.filter fun x => x.slot ≠ g.slot } }
  if g.replicated then
    let hs := s.lake.holders.map fun h => h.2.1
    let near := fun (a : Nat) => s.fab.addr.isSome && (s.routeTo a).isSome
    let s := { s with lake := { s.lake with
      owed := s.lake.owed ++ ((hs.filter fun a => !near a) ++ s.lake.lost).map fun a => (a, g.num) } }
    s.each (hs.filter near) fun s a => s.sendTo 3 0x05 a 0xFFFF [6, g.num] 16
  else s

/-- The segment R280 frees for a class: the lowest number among sealed segments without claims, else among all. -/
def State.oldestSealed (s : State) (tenant : Nat) (repl : Bool) : Option Segment :=
  let c := s.lake.segs.filter fun g => g.tenant = tenant && g.replicated = repl && g.sealed && !g.conflicting
  let least := fun (l : List Segment) =>
    l.foldl (fun (m : Option Segment) g => match m with
      | none => some g
      | some x => if g.num < x.num then some g else some x) none
  match least (c.filter fun g => g.claims.isEmpty) with
  | some g => some g
  | none => least c

/-- Makes room for a segment of a class: a free slot of its space, else R280. -/
def State.makeRoom (s : State) (tenant : Nat) (repl : Bool) : State × Option Nat × GiveUps :=
  match (if s.slotsUsed tenant < s.shareOf tenant then s.freeSlot else none) with
  | some k => (s, some k, [])
  | none =>
    match s.oldestSealed tenant repl with
    | some g =>
      let s := s.dropSeg g
      let s := if g.claims.isEmpty then s else s.stick .lak 0 8
      (s, some g.slot, g.claims)
    | none => (s, none, [])

/-- Sessions subscribed to a stream. -/
def State.subscribers (s : State) (i : Nat) : List Session :=
  s.fab.sessions.filter fun x => x.st ≠ .handshake && x.subs.any fun u => u.stream = i

/-- The tenant of a stream's entry in effect, and whether its segments are replicated: the class of R277. -/
def State.classOf (s : State) (i : Nat) : Nat × Bool :=
  (s.effFld .stream i 0 16 8, !bit (s.eff (TableId.stream.addr i 14)) 0)

/-- A record joins the open segment of its stream's class (R277), which is sealed when the record does not fit. A
record for which the class has no slot at all is given up for its claims (R266). DESIGN CHOICE (log 35). -/
def State.lakeAppend (s : State) (r : Record) (cls : Nat × Bool) : State × GiveUps :=
  let tenant := cls.1
  let repl := cls.2
  let k : Kept := { record := { r with flags := r.flags &&& 0xBF }, claims := (s.subscribers r.stream).map (·.num) }
  let add := fun (g : Segment) => { g with kept := g.kept ++ [k], bytes := g.bytes + r.bytes }
  let fresh := fun (s : State) =>
    match s.makeRoom tenant repl with
    | (s, some slot, gu) =>
      let g := add { num := s.lake.nextSeg, slot := slot, tenant := tenant, replicated := repl
                     origin := s.fab.addr.getD 0, madeMs := s.tim.msNum }
      ({ s with lake := { s.lake with segs := s.lake.segs ++ [g], nextSeg := s.lake.nextSeg + 1 } }, gu)
    | (s, none, gu) =>
      (if k.claims.isEmpty then s else s.stick .lak 0 8, gu ++ k.claims.map fun n => (r.stream, n, r.seqNo))
  match s.lake.segs.find? fun g => g.tenant = tenant && g.replicated = repl && !g.sealed with
  | some g =>
    if g.bytes + r.bytes ≤ 1048384 then (s.setSeg (add g), [])
    else
      let (s, g') := s.sealSeg g
      fresh (s.setSeg g')
  | none => fresh s

/-! ### Delivery to subscribers (R262, R264) -/

/-- The stream asks for reserved delivery (R273). -/
def State.isTc2 (s : State) (i : Nat) : Bool := bit (s.eff (TableId.stream.addr i 12)) 0

/-- A record was sent to a session now (R264). -/
def State.markSent (s : State) (session : Nat) (r : Record) : State :=
  { s with lake := { s.lake with segs := s.lake.segs.map fun (g : Segment) =>
    { g with kept := g.kept.map fun (k : Kept) =>
      if k.record.stream = r.stream ∧ k.record.seqNo = r.seqNo then
        { k with sent := kset k.sent session (s.tim.msCount + 1) 0 }
      else k } } }

/-- Offers a record to a session whose next record it is: on TC2 while the bucket holds its fragments, on TC3 without a
granted reservation; in Sleep it waits in the lake (R246, R262). DEDUCED (log 43). -/
def State.offer (s : State) (x : Session) (r : Record) (recovered : Bool) : State :=
  match x.subs.find? fun u => u.stream = r.stream with
  | none => s
  | some u =>
    if x.st = .open_ ∧ u.next = r.seqNo ∧ s.pwr.st ≠ .sleep then
      let frags := fragsOf r.bytes
      let sub := { u with next := (u.next + 1) % 2 ^ 32 }
      let subs := x.subs.map fun v => if v.stream = r.stream then sub else v
      if s.isTc2 r.stream ∧ x.granted ≠ 0 ∧ !recovered then
        if frags ≤ x.bucket then
          ((s.markSent x.num r).setSession { x with subs := subs, bucket := x.bucket - frags }).sendRecord x 2 r false
        else s
      else ((s.markSent x.num r).setSession { x with subs := subs }).sendRecord x 3 r recovered
    else s

/-! ### Delivery from the lake (R262, R264, R265, R283) -/

/-- The distance of a sequence number from another, upwards. -/
def seqAhead (a b : Nat) : Nat := (a + 2 ^ 32 - b % 2 ^ 32) % 2 ^ 32

/-- Insertion of a record by its distance from `base`. -/
def recIns (base : Nat) (r : Record) : List Record → List Record
  | [] => [r]
  | x :: t => if seqAhead r.seqNo base ≤ seqAhead x.seqNo base then r :: x :: t else x :: recIns base r t

/-- The kept records of a stream from a sequence number on, ascending; a conflicting segment delivers none (R288). -/
def State.keptFrom (s : State) (i seq : Nat) : List Record :=
  let all := (s.lake.segs.filter fun g => !g.conflicting).flatMap fun g => g.kept.map (·.record)
  (all.filter fun r => r.stream = i && decide (seqAhead r.seqNo seq < 2 ^ 31)).foldr (recIns seq) []

/-- A session's subscription to a stream. -/
def Session.sub (x : Session) (i : Nat) : Option Sub := x.subs.find? fun u => u.stream = i

/-- Replaces a session's subscription. -/
def Session.setSub (x : Session) (u : Sub) : Session :=
  { x with subs := x.subs.map fun v => if v.stream = u.stream then u else v }

/-- Offers kept records of one stream to a session in order, until one has to wait. -/
def State.offerKept (s : State) (n : Nat) (recovered : Bool) : List Record → State
  | [] => s
  | r :: t =>
    match s.session n with
    | none => s
    | some x =>
      match x.sub r.stream with
      | none => s
      | some u =>
        let s' := (s.setSession (x.setSub { u with next := r.seqNo }))
        let s' := match s'.session n with
          | some y => s'.offer y r recovered
          | none => s'
        match (s'.session n).bind fun y => y.sub r.stream with
        | some v => if v.next = r.seqNo then s' else State.offerKept s' n recovered t
        | none => s'

/-- A session gets what the lake has kept from the next record on. DEDUCED (log 43). -/
def State.catchUp (s : State) (n : Nat) (recovered : Bool) : State :=
  match s.session n with
  | none => s
  | some x => s.each x.subs fun s u => s.offerKept n recovered (s.keptFrom u.stream u.next)

/-- Every open session gets what the lake has kept. -/
def State.catchUpAll (s : State) (recovered : Bool) : State :=
  s.each (s.fab.sessions.filter fun x => x.st = SessSt.open_) fun s x => s.catchUp x.num recovered

/-! ### Emission (R13, R187, R189) -/

/-- The observation that the alarm engine takes from a record of any kind but samples (R201). DEDUCED (log 21). -/
def State.observe (s : State) (o : Obs) : State := { s with alm := { s.alm with obs := s.alm.obs ++ [o] } }

/-- The waymark streams: KIND 6 with SRC 0 for the classes of the time unit, with SRC 1,023 for all (R241). -/
def State.waymarkStreams (s : State) (cls : Nat) : List Nat :=
  (s.spe.streams.filter fun p => p.2.active && !p.2.suspended && s.effFld .stream p.1 0 1 3 = 6 &&
    (s.effFld .stream p.1 0 4 10 = 1023 || (s.effFld .stream p.1 0 4 10 = 0 && decide (cls < 0x10)))).map (·.1)

/-- A record without contributing input, with the values in force at its stamp in bytes 16 to 19 (R187).
DESIGN CHOICE (log 12). -/
def State.eventRecord (s : State) (i kind flags stamp : Nat) (values : List Int) : Record :=
  let e := s.epochAt (stamp * 2 ^ 32 + (2 ^ 32 - 1))
  { stream := i, kind := kind, flags := flags, seqNo := 0, sec := stampSec stamp, frac := stampFrac stamp,
    glaze := e.glaze, refEpoch := e.refEpoch,
    calEpoch := Config.noBankEpoch i (s.stream i).seqNo % 256, exp := 0, unit := 0x0C, values := values.map i32 }

/-- The stamp of a record in full: the instant nearest to now whose seconds end in the 32 bits that the record holds (R187, R201). -/
def State.fullStamp (s : State) (r : Record) : Nat :=
  let now := s.tim.stamp
  let ago := (now % 2 ^ 64 + 2 ^ 64 - (r.sec * 2 ^ 32 + r.frac) % 2 ^ 64) % 2 ^ 64
  if ago < 2 ^ 63 then now - ago else now + (2 ^ 64 - ago)

/-- A complete record takes its stream's next sequence number and goes to the lake, the router and the alarm engine; what
its storage gives up. A waymark whose reference epoch differs from that of its stream's previous record says so, as records of
kinds 1 to 4 do (R188). DEDUCED (log 85). -/
def State.emitOne (s : State) (r : Record) (refUndet : Bool) (cls : Nat × Bool) : State × GiveUps :=
  let st := s.stream r.stream
  let mark : Bool := r.kind = 6
  let moved : Bool := mark && st.prev.any fun p => p.1 ≠ r.refEpoch
  let r : Record := { r with seqNo := st.seqNo, flags := if moved then Nat.lor r.flags 8 else r.flags }
  let s := s.setStream r.stream { st with seqNo := (st.seqNo + 1) % 2 ^ 32
                                          prev := if mark then some (r.refEpoch, r.calEpoch) else st.prev }
  let s := { s with spe := { s.spe with emitted := s.spe.emitted ++ [r] } }
  let p := s.lakeAppend r cls
  let s := p.1.each (p.1.subscribers r.stream) fun s x => s.offer x r false
  (if r.kind = 1 then s
    else s.observe ⟨.stream r.stream false, r.values, s.fullStamp r, r.flags / 4 % 2 = 1, refUndet, r.flags⟩,
    p.2)

/-- The waymark of a run of records given up (R267) as a record of a stream. -/
def State.giveUpRecord (s : State) (i : Nat) (g : Nat × Nat × Nat × Nat) : Record :=
  let flags := (if s.islandTime then 2 else 0) + (if s.refUndet then 8 else 0)
  s.eventRecord i 6 flags s.tim.stamp [0x12, s.tim.msNum, g.1, g.2.1, g.2.2.1, g.2.2.2]

/-- GIVE_UP is set, and the session gets the waymark while it is open (R267); its header names the stream given up.
DESIGN CHOICE (log 12). -/
def State.tellGiveUp (s : State) (g : Nat × Nat × Nat × Nat) : State :=
  let s := s.stick .fabRouter 0 10
  match s.session g.2.1 with
  | some x => if x.st = SessSt.open_ then s.sendRecord x 3 (s.giveUpRecord g.1 g) false else s
  | none => s

/-- A record of a replay, with the number that its stream has reached (R197, R293). -/
def State.replayOut (s : State) (x : OutRec) : State :=
  let st := s.stream x.record.stream
  let x := { x with record := { x.record with seqNo := st.seqNo } }
  ({ s with spe := { s.spe with made := s.spe.made ++ [x] } }).setStream x.record.stream { st with seqNo := (st.seqNo + 1) % 2 ^ 32 }

/-- A complete record goes out; records that its storage gives up make waymarks, which may give up others in turn, to a
depth of `fuel`. -/
def State.emitWith (s : State) (fuel : Nat) (r : Record) (refUndet : Bool) (cls : Nat × Bool) : State :=
  let p := s.emitOne r refUndet cls
  match fuel with
  | 0 => p.1.each (runsOf (giveUpSort p.2)) fun s g => s.tellGiveUp g
  | fuel + 1 =>
    p.1.each (runsOf (giveUpSort p.2)) fun s g =>
      let s := s.tellGiveUp g
      s.each (s.waymarkStreams 0x12) fun s i => s.emitWith fuel (s.giveUpRecord i g) false (s.classOf i)

/-- Emits a complete record. Each waymark of a give-up frees a segment, so no chain of them is longer than the segments. -/
def State.emit (s : State) (r : Record) (refUndet : Bool) : State :=
  s.emitWith (8 + s.lake.segs.length) r refUndet (s.classOf r.stream)

/-- Emits a waymark to every stream that takes its class (R240, R241): value [0] the class, value [1] the low 32 bits of
the milestone number in force. While the reference state is undetermined it is marked like every record (R169). -/
def State.waymarkAt (s : State) (stamp cls : Nat) (vals : List Int) : State :=
  s.each (s.waymarkStreams cls) fun s i =>
    let e := s.epochAt (stamp * 2 ^ 32 + (2 ^ 32 - 1))
    let flags := (if e.island then 2 else 0) + (if e.refUndet then 8 else 0)
    s.emit (s.eventRecord i 6 flags stamp ([(cls : Int), s.tim.msNum] ++ vals)) false

/-- A waymark stamped now. -/
def State.waymark (s : State) (cls : Nat) (vals : List Int) : State := s.waymarkAt s.tim.stamp cls vals

/-- Records are given up for sessions: a waymark of class 0x12 for each run, delivered to the session while it is
open, and GIVE_UP (R267). -/
def State.giveUp (s : State) (gu : GiveUps) : State :=
  s.each (runsOf (giveUpSort gu)) fun s g => (s.tellGiveUp g).waymark 0x12 [g.1, g.2.1, g.2.2.1, g.2.2.2]

/-- The claims of a session, on one stream or on all, are given up (R266). -/
def State.endClaims (s : State) (session : Nat) (only : Option Nat) : State :=
  let mine := fun (k : Kept) => k.claims.contains session && (match only with
    | some i => k.record.stream = i
    | none => true)
  let gu := s.lake.segs.flatMap fun g =>
    (g.kept.filter mine).map fun k => (k.record.stream, session, k.record.seqNo)
  let s := { s with lake := { s.lake with segs := s.lake.segs.map fun (g : Segment) =>
    { g with kept := g.kept.map fun (k : Kept) => if mine k then { k with claims := k.claims.filter (· ≠ session) } else k } } }
  s.giveUp gu

end Sys2Proof.Machine
end

