-- ==== Sys2Proof/Machine/Image.lean ====
section
/-! DEFINITION. The boot flash in bytes (R328, R372, R373, R375): its areas, boot records, base images, image slots. -/

namespace Sys2Proof.Machine

open Sys2Proof

/-! ### Boot records (R373) -/

/-- Bytes 0 to 63: what the signature covers. -/
def BootRec.head (r : BootRec) : List Byte :=
  let flag := fun (b : Bool) => if b then (1 : Byte) else 0
  leBytes 1 4 ++ leBytes r.seqNo 4 ++ [flag r.slot, flag r.trial, BitVec.ofNat 8 r.starts, flag r.prev] ++ leBytes 0 4 ++
    beBytes r.digest.toNat 48

/-- The signature field. -/
def BootRec.sig (r : BootRec) : BitVec 768 := if r.signed then Config.unitSign (Config.sha384 r.head) else 0

/-- The 168 bytes of a copy: head, signature, CRC-64. -/
def BootRec.bytes (r : BootRec) : List Byte :=
  let bs := r.head ++ beBytes r.sig.toNat 96
  bs ++ leBytes (crc64 bs) 8

/-- A boot-record copy. -/
def Flash.brec (f : Flash) (copy : Bool) : Option BootRec := if copy then f.brec1 else f.brec0

/-- A copy that the flash holds is intact when it reads well, and is signed or the record of manufacture (R373). -/
def recIntact (r : Option BootRec) (readsOk : Bool) : Bool :=
  match r with
  | some r => readsOk && (r.signed || r.seqNo = 0)
  | none => false

/-- The flash with its boot records as they read: a copy that is not intact is as good as none. -/
def Flash.readRecs (f : Flash) (ok0 ok1 : Bool) : Flash :=
  { f with brec0 := if recIntact f.brec0 ok0 then f.brec0 else none
           brec1 := if recIntact f.brec1 ok1 then f.brec1 else none }

/-- The winning copy of those that are intact; `none` where neither is, or where both could win (R373, R374). -/
def Flash.choice (f : Flash) : Option Bool :=
  match f.brec0, f.brec1 with
  | none, none => none
  | some _, none => some false
  | none, some _ => some true
  | some x, some y =>
    if x.seqNo ≠ y.seqNo then some (decide (x.seqNo < y.seqNo))
    else if x = y then some false
    else if x.signed = y.signed then none
    else some y.signed

/-- One copy alone is intact. -/
def Flash.onlyOne (f : Flash) : Bool := f.brec0.isSome != f.brec1.isSome

/-! ### Image slots (R372, R375) -/

/-- An image slot. -/
def Flash.slot (f : Flash) (b : Bool) : Slot := if b then f.slotB else f.slotA

/-- The word of a marker sector. -/
def Marker.code : Marker → Nat
  | .erased => 0xFFFFFFFF | .incomplete => 0 | .verified => 0x5A5A0001

/-- Byte `i` of a slot; the last 4 KiB are its marker sector, and what is not programmed reads erased. -/
def Slot.byte (v : Slot) (i : Nat) : Byte :=
  if 0x17FF000 ≤ i then (leBytes v.marker.code 4).getD (i - 0x17FF000) 0xFF
  else if v.delivered then Config.delivered i
  else match v.blocks.find? fun p => p.1 = i / 2048 with
    | some p => p.2.getD (i % 2048) 0xFF
    | none => 0xFF

/-- Bytes of a slot. -/
def Slot.read (v : Slot) (start n : Nat) : List Byte := (List.range n).map fun i => v.byte (start + i)

/-- The header of the image in a slot. -/
def Slot.header (v : Slot) : ImageHeader := Config.imageHeader (v.read 0 4096)

/-- The body of the image in a slot. -/
def Slot.body (v : Slot) : List Byte := v.read 4096 v.header.bodyLen

/-- The SHA-384 digest of the image in a slot, header and body (R298, R373). -/
def Slot.digest (v : Slot) : BitVec 384 := Config.sha384 (v.read 0 (4096 + v.header.bodyLen))

/-- The winning boot record. -/
def State.bootRec (s : State) : Option BootRec := s.flash.brec s.upd.win

/-- The active slot: A (false) or B; without a record none is active, and slot A is the one to fill (R374). -/
def State.activeSlot (s : State) : Bool := match s.bootRec with
  | some r => r.slot
  | none => true

/-- The version of the image in a slot. -/
def State.slotVersion (s : State) (b : Bool) : Nat := (s.flash.slot b).header.version

/-! ### Base images (R328) -/

/-- The 16 bytes of an item. -/
def Item.bytes (x : Item) : List Byte :=
  leBytes (x.offset + x.kind * 2 ^ 24) 4 ++ leBytes x.value.toNat 4 ++ leBytes x.mask.toNat 4 ++ leBytes 0 4

/-- A base image before its CRC: header, base items, directory, glaze items. DEDUCED (log 154). -/
def BaseImage.head (x : BaseImage) : List Byte :=
  leBytes 1 4 ++ leBytes x.issue 4 ++ leBytes x.items.length 4 ++ leBytes x.bootGlaze 2 ++ leBytes x.glazes.length 2 ++
    leBytes 0 16 ++ x.items.flatMap Item.bytes ++
    (x.glazes.flatMap fun g => leBytes g.2.1 4 ++ leBytes g.2.2.1 4 ++ leBytes g.2.2.2.length 4 ++ leBytes 0 4) ++
    (x.glazes.flatMap fun g => g.2.2.2.flatMap Item.bytes)

/-- A base image with its CRC-64 and the signature of the unit key. DEDUCED (log 154). -/
def BaseImage.bytes (x : BaseImage) : List Byte :=
  let bs := x.head ++ leBytes (crc64 x.head) 8
  bs ++ beBytes (Config.unitSign (Config.sha384 bs)).toNat 96

/-- The bytes that an image takes: 32 of header, 16 for each item and directory entry, 104 of CRC and signature. -/
def BaseImage.size (x : BaseImage) : Nat :=
  136 + 16 * (x.items.length + (x.glazes.map fun g => 1 + g.2.2.2.length).sum)

/-- The area of a base image holds it. -/
def BaseImage.fits (x : BaseImage) : Bool := x.size ≤ 0x400000

/-! ### The areas (R372) -/

/-- Byte `i` of an area that holds these bytes and is erased beyond. -/
def areaByte (bs : List Byte) (i : Nat) : Byte := bs.getD i 0xFF

/-- The security area: the owner chain, as the record of R300 gives it. DEDUCED (log 154). -/
def Flash.security (f : Flash) : List Byte :=
  if f.nOwners = 0 then [] else leBytes f.owners.length 2 ++ leBytes f.nOwners 2 ++ f.owners

/-- The boot flash at an address: its areas as the table lays them out; reserved ranges and space beyond read erased. -/
def Flash.byteAt (f : Flash) (a : Nat) : Byte :=
  if a < 0x1000 then areaByte ((f.brec0.map BootRec.bytes).getD []) a
  else if a < 0x2000 then areaByte ((f.brec1.map BootRec.bytes).getD []) (a - 0x1000)
  else if 0x10000 ≤ a ∧ a < 0x20000 then areaByte f.security (a - 0x10000)
  else if 0x200000 ≤ a ∧ a < 0x600000 then areaByte ((f.base0.map BaseImage.bytes).getD []) (a - 0x200000)
  else if 0x600000 ≤ a ∧ a < 0xA00000 then areaByte ((f.base1.map BaseImage.bytes).getD []) (a - 0x600000)
  else if 0x1000000 ≤ a ∧ a < 0x2800000 then f.slotA.byte (a - 0x1000000)
  else if 0x2800000 ≤ a ∧ a < 0x4000000 then f.slotB.byte (a - 0x2800000)
  else 0xFF

end Sys2Proof.Machine
end

