-- ==== Sys2Proof/Machine/Blocks.lean ====
section
/-! DEFINITION. The blocks of a Plovi capture in bytes (R290, R291), what the ring still holds of what was written to it, and the
capture that a trigger builds. -/

namespace Sys2Proof

/-- The content of a snapshot block: R291 names what it holds and gives no layout. DESIGN CHOICE (log 15). -/
opaque Config.snapshotBytes : Machine.Snap → List Byte

/-- The changes of a milestone block, by the state and the inputs that the milestone finds. DESIGN CHOICE (log 15). -/
opaque Config.changeBytes : Machine.Snap → MsIn → List Byte

/-- The content of an event block. DESIGN CHOICE (log 15). -/
opaque Config.eventBytes : Machine.RingItem → List Byte

/-- What the blocks of a received capture say. DESIGN CHOICE (log 15). -/
opaque Config.captureItems : List (List Byte) → List Machine.RingItem

namespace Machine

/-! ### Blocks (R291) -/

/-- A block: its 8-byte head, and its content. -/
def block (type source : Nat) (bs : List Byte) : List Byte :=
  [BitVec.ofNat 8 type, BitVec.ofNat 8 source] ++ leBytes bs.length 4 ++ [0, 0] ++ bs

/-- The word of a code: the code in bits [13:0], the marker in [15:14]. -/
def codeWord (f : Flight) (x : Int) : Nat := encInt 14 x + f.marker % 4 * 2 ^ 14

/-- A code block: first sample instant in 2^-64 s, count, words, and the side list with the mark byte, the range index, excitation and
polarity from its first code on. The widths are not given. DESIGN CHOICE (log 15). -/
def codeBlock (src : Nat) (f : Flight) : List Byte :=
  let side := leBytes 0 4 ++ leBytes f.markByte 1 ++ leBytes f.index 1 ++
    leBytes ((if f.excited then 1 else 0) + (if f.neg then 2 else 0)) 1
  block 4 src (leBytes f.start 16 ++ leBytes f.codes.length 4 ++ (f.codes.flatMap fun x => leBytes (codeWord f x) 2) ++ side)

/-- The bytes that an item writes to the ring. -/
def RingItem.bytes (x : RingItem) : List Byte :=
  match x with
  | .milestone n m p => block 3 0 (leBytes n 4 ++ Config.changeBytes p m)
  | .codes k f _ => codeBlock k f
  | _ => block 5 0 (Config.eventBytes x)

/-- An item is a milestone block. -/
def RingItem.isMilestone : RingItem → Bool
  | .milestone _ _ _ => true
  | _ => false

/-- The number of the milestone that a list of items begins with. -/
def firstMilestone (xs : List RingItem) : Option (Nat × Snap) :=
  match xs with
  | .milestone n _ p :: _ => some (n, p)
  | _ => none

/-! ### The ring (R290, R291) -/

/-- The bytes of the ring. -/
def State.ringRoom (s : State) : Nat := s.lake.ringNow * 1048576

/-- What is left of items, newest first, in some bytes: the oldest are overwritten. -/
def keepNewest : Nat → List RingItem → List RingItem
  | _, [] => []
  | room, x :: t => if x.bytes.length ≤ room then x :: keepNewest (room - x.bytes.length) t else []

/-- The content of the ring from its oldest complete milestone on. -/
def State.ringHeld (s : State) : List RingItem :=
  (keepNewest s.ringRoom s.lake.ring.reverse).reverse.dropWhile fun x => !x.isMilestone

/-- (16 − PRE)/16 of the ring has been written since the trigger. -/
def State.postDone (s : State) : Bool :=
  (16 - s.fld (ra .lak 0 0x090) 10 4) * s.ringRoom ≤ 16 * ((s.lake.ring.drop s.lake.trigAt).map fun x => x.bytes.length).sum

/-! ### Captures -/

/-- The header block: unit identifier, revision, Mioxus version, trigger cause and instant, first and last milestone, sources. -/
def State.capHeader (s : State) (first last : Nat) : List Byte :=
  block 1 0 (leBytes s.uid 8 ++ leBytes 0xB0 1 ++ leBytes (s.slotVersion s.activeSlot) 4 ++ leBytes s.lake.capCause 1 ++
    leBytes s.lake.capInst 8 ++ leBytes first 4 ++ leBytes last 4 ++
    (List.range 4).flatMap fun k => leBytes (s.reg (ra .lak 0 (0x080 + 4 * k))).toNat 4)

/-- The blocks of a capture: header, snapshot, what the ring held, and the end with CRC-64 and signature. -/
def State.capBytes (s : State) (first last : Nat) (p : Snap) (xs : List RingItem) : List Byte :=
  let bs := s.capHeader first last ++ block 2 0 (Config.snapshotBytes p) ++ xs.flatMap RingItem.bytes
  let crc := leBytes (crc64 bs) 8
  bs ++ block 6 0 (crc ++ unitSig (bs ++ crc))

/-- Bytes cut into the bodies of segments; the number bounds how many. -/
def cutParts : Nat → List Byte → List (List Byte)
  | 0, _ => []
  | n + 1, bs => if bs.isEmpty then [] else bs.take 1048384 :: cutParts n (bs.drop 1048384)

/-- The capture that the ring gives, without its index and slots: none where it holds no complete milestone. -/
def State.newCapture (s : State) : Option Capture :=
  let xs := s.ringHeld
  (firstMilestone xs).map fun x =>
    let bs := s.capBytes x.1 s.tim.msNum x.2 xs
    { idx := 0, first := x.1, last := s.tim.msNum, cause := s.lake.capCause, slots := [], verified := true, items := xs,
      firstSeg := s.lake.nextSeg, parts := cutParts bs.length bs, origin := s.fab.addr.getD 0, madeMs := s.tim.msNum }

/-- A part of a capture as a capture segment (R276). -/
def State.capSegment (s : State) (c : Capture) (part : Nat) : List Byte :=
  let body := c.parts.getD part []
  let t := c.first * 2 ^ 22
  let h : SegHead := { uid := s.uid, origin := c.origin, replicated := false, tenant := 255, num := c.firstSeg + part, issue := 0
                       sealed := true, conflicting := false, bytes := body.length, sec := stampSec t, frac := stampFrac t
                       madeMs := c.madeMs, part := some (c.idx, part) }
  segImage h body (unitSig (segSigned h body))

end Machine

end Sys2Proof
end

