-- ==== Sys2Proof/Machine/Map.lean ====
section
/-! DEFINITION. The link-state map as a graph: distances for routing (R258), hops for the time tree (R260). -/

namespace Sys2Proof.Machine

open Sys2Proof

/-- The address a port's peer holds while the port is up. -/
def State.peerOf (s : State) (p : Nat) : Option Nat := if (s.fport p).carries then (s.fport p).peer else none

/-- The cost of a port: FAB_PCFG.COST, or 4, 8 or 16 at width 4, 2 or 1 (R258). -/
def State.portCost (s : State) (p : Nat) : Nat :=
  let c := s.fld (ra .fabPort p 0x040) 16 16
  if c ≠ 0 then c else match (s.fport p).width with
    | 4 => 4
    | 2 => 8
    | _ => 16

/-- Directed links of the device's own ports: (own address, peer, cost). -/
def State.ownLinks (s : State) : List (Nat × Nat × Nat) :=
  match s.fab.addr with
  | none => []
  | some a => (List.range 8).filterMap fun p => (s.peerOf p).map fun q => (a, q, s.portCost p)

/-- Directed links of an advertisement: (its address, peer, cost). -/
def MapEntry.links (e : MapEntry) : List (Nat × Nat × Nat) :=
  match e.lsa.addr with
  | none => []
  | some a => e.lsa.ports.map fun q => (a.toNat, q.1.toNat, q.2.2.1)

/-- All directed links of the map, the device's own included. -/
def State.links (s : State) : List (Nat × Nat × Nat) := s.ownLinks ++ s.fab.map.flatMap MapEntry.links

/-- Distances: address to (total cost, hops). -/
abbrev Dist := KMap (Nat × Nat)

/-- The distance at an address, if it has one. -/
def Dist.at (t : Dist) (a : Nat) : Option (Nat × Nat) := (t.find? fun p => p.1 = a).map (·.2)

/-- One round of relaxation over every link. -/
def relax (ls : List (Nat × Nat × Nat)) (t : Dist) : Dist :=
  ls.foldl (fun t l =>
    match Dist.at t l.2.1 with
    | none => t
    | some (d, h) =>
      match Dist.at t l.1 with
      | none => kins t l.1 (l.2.2 + d, h + 1)
      | some (d', h') =>
        if l.2.2 + d < d' ∨ (l.2.2 + d = d' ∧ h + 1 < h') then kins t l.1 (l.2.2 + d, h + 1) else t) t

/-- `n` rounds of relaxation. -/
def relaxN (ls : List (Nat × Nat × Nat)) : Nat → Dist → Dist
  | 0, t => t
  | n + 1, t => relaxN ls n (relax ls t)

/-- Distances of all addresses to a target. -/
def State.distTo (s : State) (target : Nat) : Dist :=
  relaxN s.links (s.fab.map.length + 1) [(target, (0, 0))]

/-- Hop counts of all addresses to a target: every link costs 1. -/
def State.hopsTo (s : State) (target : Nat) : Dist :=
  relaxN (s.links.map fun l => (l.1, l.2.1, 1)) (s.fab.map.length + 1) [(target, (0, 0))]

/-- The neighbour with the fewest hops to a root among given neighbours, a tie to the lower address (R260). -/
def fewestHops (t : Dist) (ns : List Nat) : Option (Nat × Nat) :=
  ns.foldl (fun best n =>
    match Dist.at t n with
    | none => best
    | some (_, h) =>
      match best with
      | none => some (n, h)
      | some (m, k) => if h < k ∨ (h = k ∧ n < m) then some (n, h) else best) none

/-- The device's own time parent by its map: address, port and hops of the device (R260). -/
def State.parentChoice (s : State) (root : Nat) : Option (Nat × Nat × Nat) :=
  let ps := (List.range 8).filterMap fun p => (s.peerOf p).map fun q => (p, q)
  match fewestHops (s.hopsTo root) (ps.map (·.2)) with
  | none => none
  | some (q, h) => (ps.find? fun x => x.2 = q).map fun x => (q, x.1, h + 1)

/-- The ports whose peer has chosen the device as time parent: by the map, which every device of the island holds alike,
the device is that neighbour's best neighbour (R260). A neighbour need hold no address for that. -/
def State.childPorts (s : State) : List Nat :=
  match s.fab.addr with
  | none => []
  | some own =>
    let t := s.hopsTo s.tim.rootAddr
    (List.range 8).filter fun p =>
      (s.fport p).carries &&
        (match s.fab.map.find? fun e => e.lsa.uid.toNat = (s.fport p).peerUid with
         | none => false
         | some e =>
           e.lsa.addr.map (·.toNat) ≠ some s.tim.rootAddr &&
             (match fewestHops t (e.lsa.ports.map fun x => x.1.toNat) with
              | some (n, _) => n = own
              | none => false))

end Sys2Proof.Machine
end

