-- ==== Sys2Proof/Machine/Window.lean ====
section
/-! DEFINITION. Who may write what: the tenant windows (R47, R48, R307, R308, R345), locks (R37 to R39), block reset and
the start of a command (R348), as one gate through which every register write passes; staging images (R33). -/

namespace Sys2Proof.Machine

open Sys2Proof

/-! ### Tenant windows -/

/-- A word of a tenant's entry in force. -/
def State.ten (s : State) (t w : Nat) : Word := s.reg (TableId.tenant.addr t w)

/-- Window page `i` of a tenant: the privileged page it shows and its WR bit (R47). -/
def State.winPage (s : State) (t i : Nat) : Option (Nat × Bool) :=
  if i = 0 then some (0x200 + t, false)
  else
    let h := bits (s.ten t (24 + (i - 1) / 2)) ((i - 1) % 2 * 16) 16
    if bit (s.ten t 0) 0 && i ≤ 15 && h / 8192 % 2 = 1 then some (h % 4096, h / 4096 % 2 = 1) else none

/-- The WR bit under which a tenant's window shows a privileged page. -/
def State.winWr (s : State) (t page : Nat) : Option Bool :=
  (List.range 16).findSome? fun i => match s.winPage t i with
    | some (p, w) => if p = page then some w else none
    | none => none

/-- A channel is permitted to a tenant by its CHAN field. -/
def State.permits (s : State) (t c : Nat) : Bool := bit (s.ten t (8 + c / 32)) (c % 32)

/-- The channel number of port 0 of an AFE page (R50 and the channel map). -/
def afeBase (k : PageKind) (inst : Nat) : Nat :=
  match k with
  | .afeEc => inst * 16
  | .afeMs => 256 + inst * 16
  | .afeFp => 384 + inst * 16
  | .afeAx => 448 + inst * 16
  | _ => 480

/-- All ones. -/
def allOnes : Word := BitVec.ofNat 32 (2 ^ 32 - 1)

/-- A full mask where a condition holds. -/
def maskIf (b : Bool) : Word := if b then allOnes else 0

/-- The tenant of an interrupt source. -/
def Source.tenant (x : Source) : Nat := bits x.cfg 8 8

/-- The OWNER of an interrupt target. -/
def State.targetOwner (s : State) (t : Nat) : Nat := s.fld (ra .intN 0 (0x080 + 16 * t)) 1 8

/-- Bits of a 32-bit group whose sources belong to a tenant. -/
def State.sourceMask (s : State) (t base : Nat) : Word :=
  BitVec.ofNat 32 (((List.range 32).map fun b => if (s.source (base + b)).tenant = t then 2 ^ b else 0).sum)

/-- The targets a tenant owns, as a TMASK. -/
def State.targetMask (s : State) (t : Nat) : Nat :=
  ((List.range 16).map fun i => if s.targetOwner i = t then 2 ^ i else 0).sum

/-- The bits a tenant sees of a block register outside the page head (tables of R307 and R345). -/
def State.bodyMask (s : State) (t req : Nat) (k : PageKind) (inst off : Nat) : Word :=
  match k with
  | .tenStat => maskIf (inst = t)
  | .afeEc | .afeMs | .afeFp | .afeAx =>
    maskIf (off < 0x140 && s.permits t (afeBase k inst + (off - 0x040) / 16))
  | .htr =>
    if off < 0x240 then maskIf (s.permits t (256 + inst * 16 + (off - 0x040) / 32))
    else maskIf (0x400 ≤ off && (List.range 16).all fun e => s.permits t (256 + inst * 16 + e))
  | .pipe => maskIf (off = 0x040 || (0x800 ≤ off && s.permits t ((off - 0x800) / 4)))
  | .seq =>
    if off = 0x040 ∨ off = 0x044 then allOnes
    else if off = 0x048 ∨ off = 0x050 then s.ten t 4
    else if off = 0x04C ∨ off = 0x054 then s.ten t 5
    else 0
  | .tim => maskIf (off ≤ 0x058)
  | .intN =>
    if off = 0x040 then (s.sourceMask t 24) &&& 0xFF
    else if off = 0x044 then allOnes
    else if off = 0x048 then
      let x := s.source (kget s.acc.sidx req 0)
      if x.tenant = t then allOnes else 0
    else if 0x080 ≤ off ∧ off < 0x180 then maskIf (s.targetOwner ((off - 0x080) / 16) = t)
    else if 0x180 ≤ off ∧ off < 0x200 then maskIf (s.targetOwner ((off - 0x180) / 4 % 16) = t)
    else if 0x200 ≤ off ∧ off < 0x380 then s.sourceMask t ((off - 0x200) / 4 % 32 * 32)
    else 0
  | .intF =>
    if 0x040 ≤ off ∧ off < 0x0C0 then maskIf (s.targetOwner ((off - 0x040) / 4 % 16) = t)
    else if 0x100 ≤ off ∧ off < 0x200 then s.sourceMask t ((off - 0x100) / 4 % 32 * 32)
    else 0
  | _ => 0

/-- Every port or engine of a page is permitted to a tenant (R308). -/
def State.wholePage (s : State) (t : Nat) (k : PageKind) (inst : Nat) : Bool :=
  match k with
  | .afeEc | .afeMs | .afeFp | .afeAx => (List.range 16).all fun p => s.permits t (afeBase k inst + p)
  | .htr => (List.range 16).all fun p => s.permits t (256 + inst * 16 + p)
  | .seq | .tim | .intN | .intF | .pipe => true
  | _ => false

/-- The bits a tenant reads at an address of a page that its window maps (R307, R308). -/
def State.seeMask (s : State) (t req a : Nat) : Word :=
  match pageOf (a / 0x1000) with
  | none => 0
  | some (k, inst) =>
    let off := a % 0x1000
    if off < 0x040 then
      if off = 0x008 ∨ off = 0x014 then 0
      else if off = 0x018 then maskIf (bit (s.ten t 0) 1 && s.wholePage t k inst)
      else allOnes
    else s.bodyMask t req k inst off

/-- The bits a tenant writes at an address of a page that its window maps with WR = 1 (R307, R308, R345). -/
def State.writeMask (s : State) (t req a : Nat) : Word :=
  match pageOf (a / 0x1000) with
  | none => 0
  | some (k, inst) =>
    let off := a % 0x1000
    if off < 0x040 then
      if off = 0x018 then s.seeMask t req a else if off = 0x01C then allOnes else 0
    else
      match k with
      | .afeEc | .afeMs | .afeFp | .afeAx => if off % 16 = 8 then 0 else s.bodyMask t req k inst off
      | .htr => s.bodyMask t req k inst off
      | .pipe => if 0x800 ≤ off then s.bodyMask t req k inst off else 0
      | .seq => if 0x048 ≤ off then s.bodyMask t req k inst off else 0
      | .tim => maskIf (off = 0x050)
      | .intN =>
        if off = 0x040 ∨ off = 0x044 then s.bodyMask t req k inst off
        else if off = 0x048 then s.bodyMask t req k inst off &&& BitVec.ofNat 32 (0xEF + s.targetMask t * 0x10000)
        else if 0x080 ≤ off ∧ off < 0x180 ∧ off % 16 = 4 then s.bodyMask t req k inst off
        else if 0x1C0 ≤ off ∧ off < 0x200 then s.bodyMask t req k inst off
        else 0
      | .intF => if 0x080 ≤ off ∧ off < 0x0C0 then s.bodyMask t req k inst off else 0
      | _ => 0

/-- A hidden write of a tenant is counted (R48, R317). -/
def State.countHidden (s : State) (t : Nat) : State :=
  (s.countWrap (ra .tenStat t 0x040) 0 32 1).stick .tenStat t 8

/-- An access to an unmapped window page is counted (R48, R317). -/
def State.countUnmapped (s : State) (t : Nat) : State := s.countWrap (ra .tenStat t 0x044) 0 32 1

/-! ### Acceptance -/

/-- A change of power state with its waymark (R355). -/
def pwrCode : PwrSt → Nat
  | .run => 0 | .idle => 1 | .sleep => 2 | .deepSleep => 3 | .off => 4

/-- Waymark 0x28 at a change of power state (R355). -/
def State.pwrMark (s : State) (old new : PwrSt) (mask : Nat) : State :=
  s.waymark 0x28 [pwrCode old, pwrCode new, mask]

/-- A register access, or supervisor work, takes the device out of Idle (R348); the waymark follows at the next milestone, the
first in Run (R355). -/
def State.leaveIdle (s : State) : State :=
  if s.pwr.st = .idle then { s with pwr := { s.pwr with st := .run, idleLeft := true } } else s

/-- The lowest set bit of a mask. -/
def lowestBit (m : Nat) : Nat := ((List.range 7).find? fun i => m / 2 ^ i % 2 = 1).getD 0

/-- PWR_WAKE_SRC: the sources, the lowest of them, and the state left (R354). -/
def State.wakeRecord (s : State) (m : Nat) : State :=
  s.setReg (ra .pwr 0 0x04C) (BitVec.ofNat 32 (m + lowestBit m * 256 + pwrCode s.pwr.st * 2048))

/-- A wake from Sleep or Deep Sleep begins: the record is written, REQ returns to Run (R347, R354). -/
def State.beginWake (s : State) (m : Nat) : State :=
  let s := (s.wakeRecord m).setFld (ra .pwr 0 0x040) 0 3 0
  { s with pwr := { s.pwr with waking := true, wakeMask := m, lowPower := false, penHigh := true }
           alm := { s.alm with wakeSeen := false }, thm := { s.thm with wakeSeen := false } }

/-- An access of the host or of the management port wakes the device from Sleep (R353); one of a session waits for Run
(R350). -/
def State.hostWake (s : State) (req : Nat) : State :=
  if s.pwr.st = .sleep && !s.pwr.waking && decide (req < 0x8000) then s.beginWake 64 else s

/-- A command of a requester arrives: the cycles before it pass, and the device leaves Idle, or begins to wake from Sleep. -/
def State.accept (s : State) (a : Acc) : State := ((s.elapse a.dt).leaveIdle).hostWake a.req.toNat

/-! ### The gate -/

/-- What a register write meets: it changes nothing more, goes into the holder's lock image, or acts with the bits that
the requester may write. -/
inductive Gate where
  | drop (s : State)
  | hold (s : State) (mask : Word)
  | act (s : State) (mask : Word)
  deriving DecidableEq, Repr

/-- Reset and lock of a page (R423, R38, R39). `exempt` is set for W1C bits and BLK_LOCK. -/
def State.lockGate (s : State) (req page : Nat) (mask : Word) (exempt : Bool) : Gate :=
  if s.inReset page then .drop s
  else match s.lockOf page with
    | none => .act s mask
    | some l =>
      if exempt then .act s mask
      else if l.holder = req then .hold s mask
      else .drop (s.stickPage page 1)

/-- The gate of a write of `val` to an address of the privileged space. A tenant's write of a field that it sees and may
not write follows R23; one of a hidden field is counted (R48). A write counts where it sets a hidden bit, or where the
tenant sees no bit of the word; one that a lock of another turns away sets LOCKED_OUT and is not counted, unless it is
wholly hidden, and then it is counted alone. DESIGN CHOICE (log 121). -/
def State.gate (s : State) (req a : Nat) (val : Word) (exempt : Bool) : Gate :=
  let page := a / 0x1000
  if !s.answers page || !s.validReq req then .drop s
  else match s.tenantOf req with
    | none => s.lockGate req page allOnes exempt
    | some t =>
      match s.winWr t page with
      | none => .drop (s.countUnmapped t)
      | some wr =>
        let m := if wr then s.writeMask t req a else 0
        let seen := if wr then s.seeMask t req a else 0
        if m = 0 then .drop (if seen ≠ 0 && val &&& ~~~ seen = 0 then s else s.countHidden t)
        else s.lockGate req page m exempt |> fun g => match g with
          | .act s m => .act (if val &&& ~~~ (m ||| seen) = 0 then s else s.countHidden t) m
          | .hold s m => .hold (if val &&& ~~~ (m ||| seen) = 0 then s else s.countHidden t) m
          | .drop s => .drop s

/-- A write goes into the lock image of its page, in the order written (R38). -/
def State.holdWrite (s : State) (a : Nat) (mask val : Word) (low : Option Word := none) : State :=
  { s with acc := { s.acc with locks := s.acc.locks.map fun (l : Lock) =>
    if l.page = a / 0x1000 then { l with image := l.image ++ [(⟨a, mask, val, low⟩ : HeldWrite)] } else l } }

/-- A write of a register that has an action: through the gate, then the action with the bits that may be written. -/
def State.guarded (s : State) (a : Acc) (addr : Nat) (val : Word) (act : State → Word → State) : State :=
  match (s.accept a).gate a.req.toNat addr val false with
  | .drop s => s
  | .hold s m => s.holdWrite addr m val
  | .act s m => act s (val &&& m)

/-! ### Staging images (R33) -/

/-- A requester's staged write of the bits under `mask`. -/
def State.stageBits (s : State) (req a : Nat) (mask val : Word) : State :=
  let same := fun (w : StagedWrite) => w.req = req ∧ w.addr = a
  let merge := fun (w : StagedWrite) =>
    if same w then { w with mask := w.mask ||| mask, val := mergeMask w.val mask val } else w
  if s.acc.stage.any fun w => same w then
    { s with acc := { s.acc with stage := s.acc.stage.map merge } }
  else { s with acc := { s.acc with stage := s.acc.stage ++ [⟨a / 0x1000, req, a, mask, val &&& mask⟩] } }

/-- The mask of a field. -/
def Field.mask (f : Field) : Word := BitVec.ofNat 32 (fieldMask f.lsb f.width)

/-- A value is one of a field's reserved encodings (R24). -/
def Field.isBad (f : Field) (v : Nat) : Bool := f.bad.any fun r => r.1 ≤ v && v ≤ r.2

/-- Software changes bits that the glaze in force may hold: their underlying values change with them (R322). -/
def State.noteUnder (s : State) (a : Nat) (mask val : Word) : State :=
  { s with glz := { s.glz with under := s.glz.under.map fun u =>
    if u.1 = a then (u.1, u.2.1, mergeMask u.2.2 (mask &&& u.2.1) val) else u } }

/-- Bits of a word at the milestone at which a commit puts them in force (R35, R56, R322). -/
def State.commitBits (s : State) (a : Nat) (mask val : Word) : State :=
  let s := (s.setReg a (mergeMask (s.reg a) mask val)).noteUnder a mask val
  { s with acc := { s.acc with touched := s.acc.touched ++ [(a, mask)] } }

/-- One field of a register write (R23, R24): `direct` at the milestone of a released lock image (R38), where staged
values take effect too. -/
def State.writeField (s : State) (req a : Nat) (val mask : Word) (direct : Bool) (f : Field) : State :=
  if f.mask &&& ~~~ mask ≠ 0 then s
  else
    match f.code with
    | .rw =>
      if f.isBad (bits val f.lsb f.width) then s.stickPage (a / 0x1000) 3
      else s.setReg a (mergeMask (s.reg a) f.mask val)
    | .st =>
      if f.isBad (bits val f.lsb f.width) then s.stickPage (a / 0x1000) 3
      else if direct then s.commitBits a f.mask val
      else s.stageBits req a f.mask val
    | .w1c => s.clearReg a (val &&& f.mask)
    | .ro | .wo | .rs | .lp => s

/-- A write to a register without an action of its own: every field acts according to its access code. -/
def State.writeFields (s : State) (req a : Nat) (val mask : Word) (direct : Bool) : State :=
  s.each (addrFields a) fun s f => s.writeField req a val mask direct f

/-- The register holds W1C bits alone, which a lock never holds back (R38, R39). -/
def isW1c (a : Nat) : Bool := (addrFields a).any fun f => f.code = .w1c

end Sys2Proof.Machine
end

