-- ==== Sys2Proof/Machine/Time.lean ====
section
/-! DEFINITION. Fabric time (chapter 10): reading, frequency and adjustments, TIN, time frames, holdover and healing,
the milestone latch, TOUT, software waymarks. -/

namespace Sys2Proof.Machine

open Sys2Proof

/-- The answer of an access. -/
def State.answerWith (s : State) (x : Answer) : State := { s with acc := { s.acc with answer := x } }

/-- The answer of an access that is not carried out: in Sleep and in a wake it has to wait for Run. DEDUCED (log 150). -/
def State.notNow (s : State) (x : Answer) : State :=
  s.answerWith (if s.pwr.st = .sleep || s.pwr.waking then .retry else x)

/-- A read of a register with a read action: through the tenant window, then the action; a hidden or unmapped register
reads 0 (R47, R48). -/
def State.guardedRead (s : State) (a : Acc) (addr : Nat) (act : State → State) : State :=
  let s := s.accept a
  let req := a.req.toNat
  let zero := fun (s : State) => s.answerWith (.data 0)
  if !s.answers (addr / 0x1000) || !s.validReq req then s.notNow (.data 0)
  else match s.tenantOf req with
    | none => act s
    | some t =>
      match s.winWr t (addr / 0x1000) with
      | none => zero (s.countUnmapped t)
      | some _ => if s.seeMask t req addr = 0 then zero s else act s

/-- A latched pair has a newer live value (R41). -/
def State.renew (s : State) (low : Nat) : State :=
  { s with acc := { s.acc with latches := s.acc.latches.map fun l =>
    if l.addr = low then { l with newer := true } else l } }

/-! ### Reading time (R222, R223) -/

/-- Replaces a requester's time shadow with the time now. -/
def State.loadShadow (s : State) (req : Nat) (fresh : Bool) : State :=
  { s with acc := { s.acc with shadows :=
    (s.acc.shadows.filter fun x => x.req ≠ req) ++ [⟨req, s.tim.time, BitVec.ofNat 32 s.tim.msNum, fresh⟩] } }

/-- A requester's time shadow. -/
def State.shadow (s : State) (req : Nat) : Option TimeShadow := s.acc.shadows.find? fun x => x.req = req

/-- TIM_FRAC_LO read (R222): latches all 112 bits and TIM_MS_NOW, or returns a snapped value without latching. -/
def State.readFracLo (s : State) (req : Nat) : State :=
  match s.shadow req with
  | some x =>
    if x.fresh then
      let s := { s with acc := { s.acc with shadows := s.acc.shadows.map fun (y : TimeShadow) =>
        if y.req = req then { y with fresh := false } else y } }
      s.answerWith (.data (BitVec.ofNat 32 x.time))
    else (s.loadShadow req false).answerWith (.data (BitVec.ofNat 32 s.tim.time))
  | none => (s.loadShadow req false).answerWith (.data (BitVec.ofNat 32 s.tim.time))

def execTimFracLoRead (a : Acc) (s : State) : Out :=
  .next (s.guardedRead a (ra .tim 0 0x040) fun s => s.readFracLo a.req.toNat)

/-- TIM_SNAP (R223). -/
def State.actSnap (s : State) (req : Nat) (v : Word) : State := if bit v 0 then s.loadShadow req true else s

def execTimSnap (a : Acc) (s : State) : Out :=
  .next (s.guarded a (ra .tim 0 0x050) 1 fun s v => s.actSnap a.req.toNat v)

/-! ### Frequency (R224) -/

/-- The low word that a requester holds for a writable pair (R43). -/
def State.heldLow (s : State) (req low : Nat) : Option Word :=
  (s.acc.lows.find? fun l => l.req = req && l.addr = low).map (·.val)

/-- Drops a requester's held low word. -/
def State.dropLow (s : State) (req low : Nat) : State :=
  { s with acc := { s.acc with lows := s.acc.lows.filter fun l => !(l.req = req && l.addr = low) } }

/-- The device is a member of an island (R225, R236). -/
def Tim.member (t : Tim) : Bool := t.st = .locked || t.st = .holdover

/-- The new values of TIM_INC that are due act, in the order of their acceptance (R224). -/
def State.incStep (s : State) : State :=
  let isDue := fun (x : Nat × Nat) => decide (x.2 ≤ s.tim.msCount)
  let inc := ((s.tim.incNext.filter isDue).map (·.1)).foldl (fun _ v => v) s.tim.inc
  { s with tim := { s.tim with inc := inc, incNext := s.tim.incNext.filter fun x => !isDue x } }

/-- A new TIM_INC, due at a milestone (R224). -/
def State.setInc (s : State) (v due : Nat) : State :=
  if 2 ^ 33 - 2 ^ 21 ≤ v ∧ v ≤ 2 ^ 33 + 2 ^ 21 ∧ !s.tim.member then
    { s with tim := { s.tim with incNext := s.tim.incNext ++ [(v, due)] } }
  else s.stick .tim 0 13

/-- The high word of TIM_INC combines with the requester's held low word, else with the current one (R43). -/
def State.actIncHigh (s : State) (req : Nat) (hi : Word) (due : Nat) : State :=
  let lo := match s.heldLow req (ra .tim 0 0x060) with
    | some w => w.toNat
    | none => s.tim.inc % 2 ^ 32
  (s.dropLow req (ra .tim 0 0x060)).setInc (hi.toNat * 2 ^ 32 + lo) due

def execTimIncWrite (a : Acc) (hi : Word) (s : State) : Out :=
  let hiA := ra .tim 0 0x064
  .next (match (s.accept a).gate a.req.toNat hiA hi false with
    | .drop s => s
    | .hold s m =>
      let low := (s.heldLow a.req.toNat (ra .tim 0 0x060)).getD (BitVec.ofNat 32 s.tim.inc)
      (s.dropLow a.req.toNat (ra .tim 0 0x060)).holdWrite hiA m hi (some low)
    | .act s _ => s.actIncHigh a.req.toNat hi s.tim.due)

/-! ### Adjustments (R225) -/

/-- The signed offset of TIM_ADJ_OFS in 2^-32 s. -/
def State.adjOfs (s : State) : Int :=
  sext 64 ((s.reg (ra .tim 0 0x06C)).toNat * 2 ^ 32 + (s.reg (ra .tim 0 0x068)).toNat)

/-- The instant that a set names, in 2^-64 s. -/
def State.adjSetTime (s : State) : Nat :=
  (s.fld (ra .tim 0 0x0A4) 0 16 * 2 ^ 32 + (s.reg (ra .tim 0 0x06C)).toNat) * 2 ^ 64 +
    s.fld (ra .tim 0 0x068) 22 10 * 2 ^ 54

/-- A request through TIM_ADJ_CTL (R225): GO and CANCEL together, and every case the rule names, refuse it. -/
def State.actAdjCtl (s : State) (v : Word) (due : Nat) : State :=
  let refuse := s.stick .tim 0 9
  let mode := bits v 0 2
  let next := bit v 2
  let rate := bits v 16 16
  let target := (s.reg (ra .tim 0 0x070)).toNat
  let d := s.adjOfs
  if bit v 3 && bit v 4 then refuse
  else if bit v 4 then { s with tim := { s.tim with adj := none } }
  else if !bit v 3 then s
  else if mode = 3 ∨ (mode = 2 ∧ s.fld (ra .tim 0 0x068) 0 22 ≠ 0) then refuse
  else if mode = 1 ∧ (d.natAbs ≥ 2 ^ 32 ∨ rate = 0) then refuse
  else if s.tim.adj.isSome ∨ s.tim.member then refuse
  else if !next ∧ (!s.tim.ahead target ∨ (s.tim.verge ∧ target = (s.tim.msNum + 1) % 2 ^ 32)) then refuse
  else
    let x : Adj := { mode := mode, offset := d, setTime := s.adjSetTime, rate := rate,
                     target := if next then none else some target, due := due, late := false, heal := false }
    { s with tim := { s.tim with adj := some x } }

def execAdjStep (a : Acc) (next : Bool) (s : State) : Out :=
  .next (s.guarded a (ra .tim 0 0x074) (if next then 12 else 8) fun s v => s.actAdjCtl v s.tim.due)

def execAdjSlew (a : Acc) (next : Bool) (rate : BitVec 16) (s : State) : Out :=
  .next (s.guarded a (ra .tim 0 0x074) (BitVec.ofNat 32 ((if next then 13 else 9) + rate.toNat * 65536))
    fun s v => s.actAdjCtl v s.tim.due)

def execAdjSet (a : Acc) (next : Bool) (s : State) : Out :=
  .next (s.guarded a (ra .tim 0 0x074) (if next then 14 else 10) fun s v => s.actAdjCtl v s.tim.due)

def execAdjCancel (a : Acc) (s : State) : Out :=
  .next (s.guarded a (ra .tim 0 0x074) 16 fun s v => s.actAdjCtl v s.tim.due)

/-- A signed number limited to 32 bits. -/
def sat32 (v : Int) : Int := satS 32 v

/-- Starts a slew of an offset in 2^-32 s, with waymark 0x02 (R228, R240); an offset of 0 starts none. -/
def State.startSlew (s : State) (d : Int) (rate : Nat) : State :=
  if d = 0 then s
  else
    let s := { s with tim := { s.tim with slew := d * 2 ^ 32, slewRate := rate, slewOn := true } }
    s.waymark 0x02 [d / 2 ^ 32, d % 2 ^ 32, rate]

/-- A slew in force ends with its remainder discarded, with waymark 0x03 (R229). -/
def State.discardSlew (s : State) : State :=
  if s.tim.slewOn then
    let rem := sat32 (divOpen s.tim.slew (2 ^ 32))
    let s := { s with tim := { s.tim with slew := 0, slewOn := false } }
    s.waymark 0x03 [rem]
  else s

/-- An offset in 2^-32 s rounded to whole milestones, ties towards zero (R226). -/
def roundMs (d : Int) : Int :=
  let q : Nat := (2 * d.natAbs + 2 ^ 22 - 1) / 2 ^ 23
  if d < 0 then -(q : Int) else (q : Int)

/-- Moves fabric time by a number of whole milestones, modulo its 112 bits (R219, R226). What holds now holds from the new time
on, where a negative step repeats an interval. -/
def State.jump (s : State) (k : Int) : State :=
  let t := ((s.tim.time + k * msSpan : Int) % (2 ^ 112 : Int)).toNat
  { s with tim := { s.tim with time := t, msNum := t / msSpan }
           hist := s.hist.map fun (e : Epoch) => { e with since := min e.since t } }

/-- Waymark 0x01 of a step or set (R240). -/
def State.stepMark (s : State) (k r : Int) (isSet : Bool) : State :=
  s.waymark 0x01 [sat32 k, r, if isSet then 1 else 0, k % 2 ^ 32, k / 2 ^ 32 % 2 ^ 32]

/-- A step by Δ at the milestone that is being emitted (R226). -/
def State.applyStep (s : State) (d : Int) : State :=
  let s := s.discardSlew
  let k := roundMs d
  let r := d - k * 2 ^ 22
  ((s.jump k).stepMark k r false).startSlew r 2048

/-- The pending adjustment reaches its target (R225 to R230). -/
def State.applyAdj (s : State) (x : Adj) : State :=
  let s := { s with tim := { s.tim with adj := none, adjDone := x.target.map fun n => (n, x.offset) } }
  let s := match x.mode with
    | 0 => s.applyStep x.offset
    | 1 => (s.discardSlew).startSlew x.offset x.rate
    | _ =>
      let s := s.discardSlew
      let k := ((x.setTime : Int) - s.tim.time) / msSpan
      (s.jump k).stepMark k 0 true
  let s := if x.heal then
      let s := { s with tim := { s.tim with healApplied := true } }
      s.waymark 0x06 [x.offset / 2 ^ 32, x.offset % 2 ^ 32, s.tim.winner]
    else s
  if x.late then (s.stick .tim 0 10).waymark 0x08 [(x.target.getD 0 : Nat), s.tim.msNum] else s

/-- An adjustment acts at the milestone that is being emitted: its number is reached or passed, or its count is. -/
def Adj.hits (x : Adj) (t : Tim) : Bool :=
  if x.late then decide (x.due ≤ t.msCount)
  else match x.target with
    | some n => !t.ahead n
    | none => decide (x.due ≤ t.msCount)

def execSlewEnd (s : State) : Out :=
  .next (if s.tim.slewOn && s.tim.slew = 0 then s.discardSlew else s)

/-! ### TIN (R231) -/

def execTinEdge (dt : Nat) (s : State) : Out :=
  let s := s.elapse dt
  let t := s.tim
  .next (if !(t.locked && s.pwr.clocked) then s
    else if t.tinAny && decide ((t.time : Int) - t.tinAt < 2 ^ 63) then
      { s with tim := { t with glitches := (t.glitches + 1) % 65536 } }
    else
      let lost := t.tinLost
      let s := { s with tim := { t with tinAny := true, tinAt := t.time, tinLost := false, tinTime := t.time,
                                        edges := (t.edges + 1) % 65536 } }
      let s := s.renew (ra .tim 0 0x080)
      if lost then s.waymark 0x07 [1] else s)

/-- TIN_LOST: 1.5 s without an accepted edge of TIN (R231). DEDUCED (log 37). -/
def execTinLost (s : State) : Out :=
  let t := s.tim
  .next (if t.locked && s.pwr.clocked && !t.tinLost && decide ((t.time : Int) - t.tinAt ≥ 3 * 2 ^ 63) then
      let s := { s with tim := { t with tinLost := true } }
      ((s.stick .tim 0 8).setFld (ra .tim 0 0x05C) 0 1 0).waymark 0x07 [0]
    else s)

/-! ### Time frames (R233 to R237) -/

/-- Root rank as one number, lower is better: GNSS, then HQ, then the address (R232). -/
def rankKey (gnss : Bool) (hq addr : Nat) : Nat := ((if gnss then 0 else 1) * 8 + hq) * 16384 + addr

/-- The rank byte of a time frame or of waymark 0x05. -/
def rankByte (gnss : Bool) (hq : Nat) (islandRoot : Bool) : Nat :=
  (if gnss then 1 else 0) + hq * 2 + (if islandRoot then 16 else 0)

/-- The rank byte that a rank key stands for. -/
def rankByteOf (key : Nat) (islandRoot : Bool) : Nat := rankByte (key < 8 * 16384) (key / 16384 % 8) islandRoot

/-- The device's own rank key by TIM_RANK and its address. -/
def State.ownRank (s : State) : Nat :=
  rankKey (s.flag (ra .tim 0 0x05C) 0) (s.fld (ra .tim 0 0x05C) 1 3) (s.fab.addr.getD 16383)

/-- Codes of TIM_STAT.STATE. -/
def timCode : TimSt → Nat
  | .free => 0 | .root => 1 | .locked => 2 | .holdover => 3

/-- A change of STATE or of the root, with waymark 0x05. -/
def State.timState (s : State) (st : TimSt) (root rank : Nat) (islandRoot : Bool) : State :=
  if s.tim.st = st ∧ s.tim.rootAddr = root then ({ s with tim := { s.tim with rootRank := rank } }).noteEpoch
  else
    let s := ({ s with tim := { s.tim with st := st, rootAddr := root, rootRank := rank } }).noteEpoch
    s.waymark 0x05 [timCode st, root, rankByteOf rank islandRoot]

/-- Nanoseconds in 2^-16 as units of 2^-64 s, rounded to nearest. -/
def nsTo64 (x : Int) : Int := divNearestAway (x * 2 ^ 48) (10 ^ 9)

/-- Link delay of a port in 2^-16 ns (R233). -/
def State.ldelay (s : State) (p : Nat) : Int := s.sfld (ra .tim 0 (0x0E0 + 4 * p)) 0 32

/-- The payload of a time frame. -/
def timeFrameNumbers (f : TimeFrame) (correction : Int) : List Int :=
  [f.origin, correction, f.root.toNat, rankByte f.rankGnss f.rankHq.toNat f.islandRoot, f.hops.toNat, f.seq.toNat,
    f.inc.toNat, f.adjMode.toNat, f.adjRate.toNat, f.adjTarget.toNat, f.adjOffset.toNat]

/-- A frame without an adjustment withdraws a pending one when it was sent before the target: from the target on a root carries
none, and a member that has still to apply it does so (R225, R230). DEDUCED (log 119). -/
def Adj.withdrawnBy (x : Adj) (origin : Nat) : Bool :=
  !x.late && (match x.target with
    | some n => serialNewer 32 n (origin / msSpan)
    | none => true)

/-- An adjustment of the form in which a losing root announces Δ (R237): a slew with RATE 8 up to 1 ms, a step beyond. A frame
says no more of it. DEDUCED (log 88). -/
def healForm (mode rate : Nat) (d : Int) : Bool :=
  if d.natAbs * 1000 ≤ 2 ^ 32 then mode = 1 && rate = 8 else mode = 0

/-- The adjustment a time frame carries, as the member will apply it: the one that the root has accepted, in place of any
other, and none where the root has withdrawn it (R225, R230). DEDUCED (log 119). -/
def State.frameAdj (s : State) (f : TimeFrame) : State :=
  if f.adjMode = 0 then
    { s with tim := { s.tim with adj := s.tim.adj.filter fun (x : Adj) => !x.withdrawnBy f.origin, adjDone := none } }
  else
    let n := f.adjTarget.toNat
    let isSet := f.adjMode.toNat = 3
    let d := sext 64 f.adjOffset.toNat
    let sec := f.adjOffset.toNat % 2 ^ 48
    let ms := f.adjOffset.toNat / 2 ^ 48 % 1024
    let x : Adj := { mode := f.adjMode.toNat - 1, offset := if isSet then 0 else d,
                     setTime := sec * 2 ^ 64 + ms * 2 ^ 54, rate := f.adjRate.toNat, target := some n,
                     due := s.tim.msCount + 1, late := !s.tim.ahead n, heal := s.tim.healing && healForm (f.adjMode.toNat - 1) f.adjRate.toNat d }
    if s.tim.adjDone = some (n, x.offset) then s
    else
      let kept := match s.tim.adj with
        | some y => y.late && y.target = some n && y.offset = x.offset
        | none => false
      if kept then s else { s with tim := { s.tim with adj := some x, adjDone := none } }

/-- Δ is announced by the losing root: a slew with RATE 8 up to 1 ms, a step beyond, 16 milestones ahead (R237).
DEDUCED (log 88). -/
def State.announceHeal (s : State) (delta : Int) (winner : Nat) : State :=
  { s with tim := { s.tim with
    healing := true, winner := winner,
    adj := some { mode := if delta.natAbs * 1000 ≤ 2 ^ 32 then 1 else 0, offset := delta, setTime := 0, rate := 8,
                  target := some ((s.tim.msNum + 16) % 2 ^ 32), due := 0, late := false, heal := true } } }

/-- A member corrects the offset `o` of an accepted frame: below 1 µs by the phase taps at up to 1 ppm, beside any slew in
force, else by a step at the next milestone (R234). DESIGN CHOICE (log 13). -/
def State.correct (s : State) (o : Int) : State :=
  if o.natAbs * 10 ^ 6 < 2 ^ 64 then { s with tim := { s.tim with fix := -o, fixRate := 1 + Config.servoRate o % 16 } }
  else { s with tim := { s.tim with fix := 0, stepDue := some (-(shrNearestUp o 32)) } }

/-- A received time frame (R230, R233, R234, R236, R237). `ingress` is the stamp of its start marker, in 2^-64 s. -/
def execTimeFrameReceive (port : Fin 8) (ingress : Nat) (f : TimeFrame) (s : State) : Out :=
  let p := port.val
  let d := s.ldelay p
  let o : Int := (ingress : Int) - (f.origin + nsTo64 (f.correction + d))
  let key := rankKey f.rankGnss f.rankHq.toNat f.root.toNat
  let root := f.root.toNat
  .next (if !(s.tim.locked && s.pwr.clocked && (s.fport p).carries) then s
    else if s.tim.st = .root ∧ root ≠ s.tim.rootAddr ∧ key < s.ownRank ∧ f.correction ≤ 10 ^ 6 * 65536 then
      if s.tim.healing ∧ (s.tim.adj.isSome ∨ s.tim.healApplied) then s
      else s.announceHeal (-(shrNearestUp o 32)) root
    else if s.tim.member ∧ root ≠ s.tim.rootAddr ∧ key < s.tim.rootRank ∧ f.correction ≤ 10 ^ 6 * 65536 then
      if s.tim.healing ∧ s.tim.winner = root ∧ s.tim.healApplied then s
      else
        let s := { s with tim := { s.tim with healing := true, winner := root } }
        s.sendTo 4 0x0A s.tim.rootAddr 0xFFFF [-(shrNearestUp o 32), root] 16
    else if s.fab.parent = some p ∧ root = s.tim.rootAddr ∧ f.correction ≤ 10 ^ 6 * 65536 ∧ s.tim.st ≠ .root then
      let s := { s with tim := { s.tim with lastFrame := s.tim.msNum, sinceFrame := 0,
                                            rootIsland := f.islandRoot, inc := f.inc.toNat }
                        fab := { s.fab with parted := false } }
      let s := s.timState .locked root key f.islandRoot
      let s := s.frameAdj f
      let s := s.correct o
      let residence := shrNearestUp (((s.tim.time : Int) - ingress) * 10 ^ 9) 48
      s.each s.childPorts fun s q =>
        if q ≠ p then
          s.sendLink q 0 0x02 (timeFrameNumbers f (f.correction + residence + d)) 52
        else s
    else s.stick .tim 0 12)

def execHoldover (s : State) : Out :=
  .next (if s.tim.st = .locked ∧ 2 ≤ s.tim.sinceFrame then
      let s := (s.stick .tim 0 11)
      let s := s.timState .holdover s.tim.rootAddr s.tim.rootRank s.tim.rootIsland
      s.waymark 0x04 [s.tim.lastFrame]
    else s)

def execHealingDelta (delta : Int) (winner : BitVec 14) (s : State) : Out :=
  .next (if s.tim.st = .root ∧ !(s.tim.healing ∧ s.tim.adj.isSome) ∧ !s.tim.healApplied then
      s.announceHeal delta winner.toNat
    else s)

/-! ### The milestone message, software waymarks, the PLL, TOUT -/

def execMsiLatch (dt : Nat) (s : State) : Out :=
  let s := s.elapse dt
  let x := s.source 16
  .next (if (x.st = .active ∨ x.st = .activePending) ∧ x.target < 8 then
      let s := { s with tim := { s.tim with msiInst := s.tim.time, msiMs := BitVec.ofNat 32 s.tim.msNum } }
      s.renew (ra .tim 0 0x098)
    else s)

/-- TIM_WMARK (R241). -/
def State.actWmark (s : State) (v : Word) : State := s.waymark 0x09 [v.toNat]

def execTimWmark (a : Acc) (code : Word) (s : State) : Out :=
  .next (s.guarded a (ra .tim 0 0x0A0) code fun s v => s.actWmark v)

/-- The PLL reports lock (R221): at a cold start fabric time starts at 0, and that instant is milestone 0; on a wake
counting in CKR resumes. -/
def execPllLock (s : State) : Out :=
  .next (if s.tim.locked then s
    else if s.pwr.st = .deepSleep then
      if s.pwr.waking then { s with tim := { s.tim with locked := true, ckr := 0 } } else s
    else if s.pwr.st = .off then s
    else { s with tim := { s.tim with locked := true, time := 0, ckr := 0, msNum := 0 } })

/-- The level of TOUT at the time now (R239): high from q × 2^-P s + OFS × 2^-28 s for WIDTH × 2^-24 s, where that edge has
occurred: one that a step has jumped over, or that comes before the configuration, has not (R421). -/
def State.toutLevel (s : State) : Bool :=
  let c := ra .tim 0 0x088
  let period := 2 ^ (64 - s.fld c 1 5)
  let ofs := s.fld (ra .tim 0 0x08C) 0 28 * 2 ^ 36
  let into := (s.tim.time + period - ofs % period) % period
  s.flag c 0 && s.tim.locked && s.pwr.clocked && decide (into < s.fld c 8 20 * 2 ^ 40) &&
    (s.tim.touts || decide (s.tim.toutFrom + into ≤ s.tim.time))

def execToutEdge (dt : Nat) (s : State) : Out :=
  let s := s.elapse dt
  .next { s with tim := { s.tim with touts := s.toutLevel } }

end Sys2Proof.Machine
end

