-- ==== Sys2Proof/Machine/Alarms.lean ====
section
/-! DEFINITION. The alarm engine (chapter 09): threshold switches, voting rules, fail policies, outputs, event records,
alarm frames. -/

namespace Sys2Proof.Machine

open Sys2Proof

/-! ### Entries -/

/-- The entries of a table whose word `w` differs from its reset value, in force or in effect, ascending. -/
def State.rows (s : State) (t : TableId) (w : Nat) : List Nat :=
  let step := t.words * 4
  let pick := fun (m : KMap Unit) (p : Nat × Word) =>
    if t.base ≤ p.1 ∧ p.1 < t.base + t.count * step ∧ (p.1 - t.base) % step = w * 4 then
      kins m ((p.1 - t.base) / step) ()
    else m
  (s.acc.effective.foldl pick (s.regs.foldl pick [])).map (·.1)

/-- The word of a switch entry in effect. -/
def State.sww (s : State) (i w : Nat) : Word := s.eff (TableId.switch.addr i w)

/-- The word of a rule entry in effect. -/
def State.ruw (s : State) (r w : Nat) : Word := s.eff (TableId.rule.addr r w)

/-- The word of a switch entry that was in effect at a stamp (R199). -/
def State.swAt (s : State) (i stamp w : Nat) : Word :=
  match ((s.switch i).olds.filter fun (o : Nat × List Word) => decide (stamp < o.1)).getLast? with
  | some o => o.2.getD w 0
  | none => s.sww i w

/-- Switches that were enabled at a stamp and have run since, ascending (R199). -/
def State.switchesAt (s : State) (stamp : Nat) : List Nat :=
  let late := (s.alm.switches.filter fun (p : Nat × Switch) => !p.2.olds.isEmpty).map (·.1)
  let all := ((s.rows .switch 0 ++ late).foldl (fun m i => kins m i ()) ([] : KMap Unit)).map (·.1)
  all.filter fun i => bit (s.swAt i stamp 0) 0 && decide ((s.switch i).since ≤ stamp)

/-- Enabled switches, ascending. -/
def State.switchesOn (s : State) : List Nat := (s.rows .switch 0).filter fun i => bit (s.sww i 0) 0

/-- The word of a rule entry that was in effect at a stamp (R199). -/
def State.ruAt (s : State) (r stamp w : Nat) : Word :=
  match ((s.rule r).olds.filter fun (o : Nat × List Word) => decide (stamp < o.1)).getLast? with
  | some o => o.2.getD w 0
  | none => s.ruw r w

/-- Rules that were enabled at a stamp, ascending (R199). -/
def State.rulesAt (s : State) (stamp : Nat) : List Nat :=
  let late := (s.alm.rules.filter fun (p : Nat × Rule) => !p.2.olds.isEmpty).map (·.1)
  let all := ((s.rows .rule 0 ++ late).foldl (fun m i => kins m i ()) ([] : KMap Unit)).map (·.1)
  all.filter fun r => bit (s.ruAt r stamp 0) 0

/-- Enabled rules, ascending. -/
def State.rulesOn (s : State) : List Nat := (s.rows .rule 0).filter fun r => bit (s.ruw r 0) 0

/-- Words 1 to 3 of a rule entry as one 96-bit field. -/
def memberField (w1 w2 w3 : Word) : Nat := w1.toNat + w2.toNat * 2 ^ 32 + w3.toNat * 2 ^ 64

/-- The valid members of a rule: member j in bits [12j + 11 : 12j]. -/
def membersOf (f : Nat) : List Nat :=
  ((List.range 8).map fun j => f / 2 ^ (12 * j) % 4096).filterMap fun m => if m ≥ 2048 then some (m - 2048) else none

/-- The valid members of a rule in effect. -/
def State.members (s : State) (r : Nat) : List Nat := membersOf (memberField (s.ruw r 1) (s.ruw r 2) (s.ruw r 3))

/-- The valid members of a rule at a stamp. -/
def State.membersAt (s : State) (r stamp : Nat) : List Nat :=
  membersOf (memberField (s.ruAt r stamp 1) (s.ruAt r stamp 2) (s.ruAt r stamp 3))

/-- The engine evaluates: its page is in service and the device is in Run, Idle or Sleep (R211, R217). -/
def State.almOn (s : State) : Bool :=
  s.pwr.live && s.pwr.clocked && s.inService 0x0C0 && !s.inReset 0x0C0

/-! ### Switches (R202 to R204) -/

/-- A dwell time of a switch in 2^-32 s. -/
def dwell (w : Word) (isSet : Bool) : Nat := bits w (if isSet then 8 else 16) 8 * 2 ^ (bits w 4 4 + 16)

/-- The set condition (R202). -/
def setCond (w0 w2 : Word) (v : Int) : Bool :=
  if bit w0 3 then decide (v ≤ w2.toInt) else decide (v ≥ w2.toInt)

/-- The clear condition (R202). -/
def clrCond (w0 w3 : Word) (v : Int) : Bool :=
  if bit w0 3 then decide (v > w3.toInt) else decide (v < w3.toInt)

/-- An observation of a settled switch (OFF or ON): stays, begins a dwell, or changes at once with dwell 0. -/
def Switch.settled (x : Switch) (w0 w2 w3 : Word) (v : Int) (stamp : Nat) : Switch × Option Nat :=
  match x.st with
  | .off =>
    if setCond w0 w2 v then
      if dwell w0 true = 0 then ({ x with st := .on }, some stamp) else ({ x with st := .pendOn, t0 := stamp }, none)
    else (x, none)
  | .on =>
    if clrCond w0 w3 v then
      if dwell w0 false = 0 then ({ x with st := .off }, some stamp)
      else ({ x with st := .pendOff, t0 := stamp }, none)
    else (x, none)
  | _ => (x, none)

/-- An unfaulted observation (R203): the switch after it and, in order, the states it passed through with the decision
stamps of its changes. -/
def Switch.take (x : Switch) (w0 w2 w3 : Word) (v : Int) (stamp : Nat) : List (Switch × Nat) :=
  let after := fun (y : Switch) =>
    match y.settled w0 w2 w3 v stamp with
    | (z, some t) => [(z, t)]
    | (z, none) => [(z, stamp)]
  match x.st with
  | .off | .on => after x
  | .pendOn =>
    if stamp < x.t0 + dwell w0 true then
      [(if setCond w0 w2 v then x else { x with st := .off }, stamp)]
    else (({ x with st := .on } : Switch), x.t0 + dwell w0 true) :: after { x with st := .on }
  | .pendOff =>
    if stamp < x.t0 + dwell w0 false then
      [(if clrCond w0 w3 v then x else { x with st := .on }, stamp)]
    else (({ x with st := .off } : Switch), x.t0 + dwell w0 false) :: after { x with st := .off }

/-- A fault cancels the dwell in progress (R204). -/
def Switch.toFault (x : Switch) : Switch :=
  { x with fault := true, st := (match x.st with
    | .pendOn => .off
    | .pendOff => .on
    | y => y) }

/-- An unfaulted member of a vote counts when ON or PEND_OFF (R205). -/
def Switch.isOn (x : Switch) : Bool := x.st = .on || x.st = .pendOff

/-! ### Rules (R205, R206) -/

/-- The outcome of a vote: ON, any member faulted, unfaulted members ON, faulted members, K'. -/
structure Vote where
  on : Bool
  fault : Bool
  nOn : Nat
  nFault : Nat
  k : Nat

/-- The vote over members under a policy (R205). -/
def voteOf (k policy : Nat) (ms : List Switch) : Vote :=
  let nOn := (ms.filter fun m => !m.fault && m.isOn).length
  let bad := ms.filter fun m => m.fault
  let nb := bad.length
  let held := (bad.filter fun m => m.isOn).length
  let rest := ms.length - nb
  let k' := if policy = 2 then min k rest else k
  let count := match policy with
    | 0 => nOn + nb
    | 1 => nOn + held
    | _ => nOn
  { on := if policy = 2 ∧ rest = 0 then true else decide (k' ≤ count), fault := nb ≠ 0, nOn := nOn, nFault := nb, k := k' }

/-- K with the encoding 0 read as 8. -/
def ruleK (w : Word) : Nat := if bits w 1 3 = 0 then 8 else bits w 1 3

/-- The vote of a rule, by its entry at a stamp, on its members' states; a disabled rule votes OFF and is unfaulted (R199). -/
def State.voteAt (s : State) (r stamp : Nat) : Vote :=
  let w := s.ruAt r stamp 0
  if bit w 0 then voteOf (ruleK w) (bits w 4 2) ((s.membersAt r stamp).map s.switch)
  else { on := false, fault := false, nOn := 0, nFault := 0, k := 0 }

/-! ### Outputs (R208, R209) -/

/-- The driver of an output is on: EN, and the output is active with POL = 0 or inactive with POL = 1; without a base configuration
every output stays released (R329). DEDUCED (log 77). -/
def State.drives (s : State) (n : Nat) : Bool :=
  let w := s.reg (ra .alm 0 (0x080 + 4 * n))
  let x := s.rule (bits w 0 8)
  let active := match bits w 8 2 with
    | 0 => x.state
    | 1 => x.fault
    | _ => x.state || x.fault
  s.almOn && !s.pwr.noBase && bit w 11 && (active != bit w 10)

/-- Every output follows its rule; one that stops being driven ends fold-back at once (R209), and DRV_FAIL ends where the pin
reads low under drive (R210). -/
def State.driveOutputs (s : State) : State :=
  s.upTo 16 fun s n =>
    let o := s.almOut n
    if s.drives n then s.setAlmOut n { o with driven := true, extLow := false, drvFail := o.drvFail && o.level }
    else s.setAlmOut n { o with driven := false, fold := false, testing := false }

/-- Every output is released (R19, R217). -/
def State.releaseOutputs (s : State) : State :=
  s.upTo 16 fun s n =>
    let o := s.almOut n
    s.setAlmOut n { o with driven := false, fold := false, testing := false }

/-! ### Decisions (R212 to R214, R291) -/

/-- The epoch in force at a stamp in 2^-32 s (R187, R212, R214). -/
def State.epochOf (s : State) (stamp : Nat) : Epoch := s.epochAt (stamp * 2 ^ 32)

/-- Bit 2 of the event record and of the frame: the latch of the entry at a stamp alone holds STATE. -/
def State.latched (s : State) (r stamp : Nat) (v : Vote) : Bool :=
  bit (s.ruAt r stamp 0) 6 && (s.rule r).state && !v.on

/-- Sends the alarm frame of a rule, by its entry at a stamp, to every destination (R214, R260). -/
def State.sendAlarm (s : State) (r at_ : Nat) (again : Bool) : State :=
  match s.fab.addr with
  | none => s
  | some own =>
    let x := s.rule r
    let v := s.voteAt r at_
    let b := (if x.state then 1 else 0) + (if x.fault then 2 else 0) + (if s.latched r at_ v then 4 else 0) +
      (if s.islandTime then 8 else 0) + (if again then 16 else 0)
    s.upTo 8 fun s i =>
      let w := s.reg (ra .fabRouter 0 (0x080 + 4 * i))
      if bit w 15 then
        s.sendTo 1 0x01 (bits w 0 14) 0xFFFF [own, r, b, x.frameSeq, x.glaze, stampSec x.stamp, stampFrac x.stamp] 16
      else s

/-- A trigger of the pre-trigger ring (R291): armed it starts the post-trigger share; during a capture it is counted. -/
def State.fireTrigger (s : State) (cause stamp : Nat) : State :=
  match s.lake.capSt with
  | .armed => { s with lake := { s.lake with capSt := .post, capCause := cause, capInst := stamp, trigAt := s.lake.ring.length } }
  | .post | .copying => { s with lake := { s.lake with missed := (s.lake.missed + 1) % 65536 } }
  | .idle => s

/-- The rule trigger: a rising STATE or FAULT of the watched rule, as SRC selects (R291). -/
def State.ruleTrigger (s : State) (r : Nat) (roseState roseFault : Bool) (stamp : Nat) : State :=
  let w := s.reg (ra .lak 0 0x090)
  let src := bits w 8 2
  if bit w 14 && bits w 0 8 = r then
    if roseState && (src = 1 || src = 3) then s.fireTrigger 1 stamp
    else if roseFault && (src = 2 || src = 3) then s.fireTrigger 2 stamp
    else s
  else s

/-- What brings a rule to a vote: the switch or −1 or −2, its observation's value and flags (R212), the decision stamp, and the
stamp that chooses the entry: that of the observation (R199). -/
structure Cause where
  source : Int
  val : Int
  flags : Nat
  stamp : Nat
  at_ : Nat

/-- A kind 0x05 record for every change of STATE or FAULT to the KIND 5 streams of the rule (R212). -/
def State.eventRecords (s : State) (r : Nat) (v : Vote) (c : Cause) : State :=
  let x := s.rule r
  let stamp := c.stamp
  let b := (if x.state then 1 else 0) + (if x.fault then 2 else 0) + (if s.latched r c.at_ v then 4 else 0) +
    (if x.acked then 8 else 0) + (if v.on then 16 else 0)
  let vals : List Int := [r, b, v.nOn + v.nFault * 256 + v.k * 65536, c.source, c.val]
  let dest := (s.spe.streams.filter fun p => p.2.active && !p.2.suspended && s.effFld .stream p.1 0 1 3 = 5 &&
    (s.effFld .stream p.1 0 4 10 = r || s.effFld .stream p.1 0 4 10 = 1023)).map (·.1)
  let e := s.epochOf stamp
  let f := Nat.lor (c.flags &&& 0xAD) (if e.island then 2 else 0)
  s.each dest fun s i =>
    let r := s.eventRecord i 5 f stamp vals
    if s.spe.replaying then s.replayOut ⟨stamp * 2 ^ 32, stamp * 2 ^ 32, r, false, s.classOf i⟩ else s.emit r false

/-- The rule is voted by its entry at the observation's stamp, and a change of STATE or FAULT takes its effects with the given
decision stamp, cause and value (R199, R205, R206, R212 to R214). -/
def State.voteRule (s : State) (r : Nat) (c : Cause) : State :=
  let w := s.ruAt r c.at_ 0
  let x := s.rule r
  let v := s.voteAt r c.at_
  let state := bit w 0 && (v.on || (bit w 6 && x.state && !x.acked))
  let acked := if state && !x.state then false else x.acked
  let changed := decide (state ≠ x.state) || decide (v.fault ≠ x.fault)
  let y := { x with state := state, fault := v.fault, acked := acked, vote := v.on }
  if !changed then s.setRule r y
  else
    let y := { y with stamp := c.stamp, glaze := (s.epochOf c.stamp).glaze, frameSeq := (x.frameSeq + 1) % 65536 }
    let s := s.setRule r y
    let s := s.driveOutputs
    let s := s.eventRecords r v c
    let s := if bit w 7 then s.orReg (ra .alm 0 (0x100 + 4 * (r / 32))) (bitW (r % 32)) else s
    let s := if bit w 8 then s.sendAlarm r c.at_ false else s
    s.ruleTrigger r (state && !x.state) (v.fault && !x.fault) c.stamp

/-- A rule whose entry was swapped after a stamp is voted again by the new one, at the milestone at which that took effect
(R199). DEDUCED (log 129). -/
def State.revote (s : State) (r stamp : Nat) : State :=
  match (s.rule r).olds.head? with
  | some o => if stamp < o.1 then s.voteRule r ⟨-2, 0, 0, o.1, o.1⟩ else s
  | none => s

/-- A rule is enabled and names a switch, by its entry at a stamp. -/
def State.namedAt (s : State) (r stamp i : Nat) : Bool := bit (s.ruAt r stamp 0) 0 && (s.membersAt r stamp).contains i

/-- A changed switch: every rule that by its entry at the observation's stamp was enabled and named it is voted, in ascending
number (R199, R205). A rule whose entry has been swapped since is then voted again by the new one, also where only that names
the switch. -/
def State.memberChange (s : State) (i : Nat) (val : Int) (flags stamp at_ : Nat) : State :=
  let all := ((s.rulesAt at_ ++ s.rulesOn).foldl (fun m r => kins m r ()) ([] : KMap Unit)).map (·.1)
  s.each all fun s r =>
    let old := s.namedAt r at_ i
    let s := if old then s.voteRule r ⟨i, val, flags, stamp, at_⟩ else s
    if old || s.namedAt r s.tim.stamp i then s.revote r at_ else s

/-- A switch that becomes ON in Sleep, in a rule with WAKE = 1 that names it, is a wake source (R211). -/
def State.noteWake (s : State) (i : Nat) (was now : Bool) : State :=
  if s.pwr.st = .sleep && !was && now && s.rulesOn.any fun r => (s.members r).contains i && bit (s.ruw r 0) 9 then
    { s with alm := { s.alm with wakeSeen := true } }
  else s

/-- A switch takes an observation, by the entry in effect at its stamp (R199, R201 to R204). -/
def State.observeSwitch (s : State) (i : Nat) (v : Int) (stamp : Nat) (fault : Bool) (flags : Nat) : State :=
  let x := { s.switch i with val := v, quiet := 0, obs := true, flags := flags }
  if fault then
    let s := s.setSwitch i x.toFault
    if (s.switch i).fault = true ∧ x.fault = true then s else s.memberChange i v flags stamp stamp
  else
    let y := { x with fault := false, silent := false }
    let steps := y.take (s.swAt i stamp 0) (s.swAt i stamp 2) (s.swAt i stamp 3) v stamp
    let last := x
    (steps.foldl (fun (p : State × Switch) (q : Switch × Nat) =>
      let s := (p.1.setSwitch i q.1).noteWake i p.2.isOn q.1.isOn
      (if q.1.isOn ≠ p.2.isOn ∨ q.1.fault ≠ p.2.fault then s.memberChange i v flags q.2 stamp else s, q.1)) (s, last)).1

/-- The value of an observation that a switch takes, by its entry in effect at the stamp, with its fault state (R201).
DEDUCED (log 21). -/
def State.obsFor (s : State) (o : Obs) (i : Nat) : Option (Int × Bool) :=
  let w0 := s.swAt i o.stamp 0
  let w1 := s.swAt i o.stamp 1
  match o.src, bits w0 1 2 with
  | .stream k samples, 0 =>
    if bits w1 0 12 = k ∧ s.tabFld .stream k 0 16 8 = 0xFF then
      match (if samples then o.vals.head? else o.vals[bits w1 12 9]?) with
      | some v => some (v, o.fault || (bit w0 29 && o.refUndet))
      | none => none
    else none
  | .health e slot ind, 1 =>
    if bits w1 0 5 = e ∧ bits w1 8 5 = slot ∧ bits w1 16 1 = ind then o.vals.head?.map fun v => (v, o.fault) else none
  | .remote j, 2 => if i = j then o.vals.head?.map fun v => (v, o.fault) else none
  | _, _ => none

/-- The observation that reached the engine first (R207) is taken by every enabled switch that observes its source, in
ascending number (R201). DEDUCED (log 21). -/
def State.takeObs (s : State) : State :=
  match s.alm.obs with
  | [] => s
  | o :: rest =>
    if s.pwr.st = .deepSleep || s.pwr.st = .off then s
    else
      let s := ({ s with alm := { s.alm with obs := rest } }).ringAdd (.event o)
      if !s.almOn then s
      else s.each (s.switchesAt o.stamp) fun s i =>
        match s.obsFor o i with
        | some (v, f) => s.observeSwitch i v o.stamp f o.flags
        | none => s

/-- OBSERVATION (R201, R207). -/
def execObservation (s : State) : Out := .next s.takeObs

/-- Every observation that has reached the engine is taken: those from before a milestone meet the state from before it
(R15). DEDUCED (log 33). -/
def State.takeAllObs (s : State) : State := s.upTo s.alm.obs.length fun s _ => s.takeObs

/-- A switch goes silent: it is faulted until its next observation (R204). -/
def State.goSilent (s : State) (n : Nat) : State :=
  let x := s.switch n
  let s := (s.setSwitch n { x.toFault with silent := true }).stick .alm 0 25
  if x.fault then s else s.memberChange n x.val 0 s.tim.msStamp s.tim.msStamp

/-- A switch has had no observation for 2^SIL milestones (R204). -/
def execSwitchSilent (i : BitVec 11) (s : State) : Out :=
  let n := i.toNat
  let w := s.sww n 0
  let x := s.switch n
  .next (if s.almOn && bit w 0 && bits w 24 5 ≠ 31 && !x.silent && decide (2 ^ bits w 24 5 ≤ x.quiet)
        && (s.pwr.st = .run || s.pwr.st = .idle) then
      (s.ringAdd (.silent n)).goSilent n
    else s)

/-- An acknowledgement of one rule (R206): ignored while STATE is 0. -/
def State.ackRule (s : State) (r : Nat) : State :=
  let x := s.rule r
  if x.state && s.almOn then (s.setRule r { x with acked := true }).voteRule r ⟨-1, 0, 0, s.tim.stamp, s.tim.stamp⟩ else s

/-- ALM_ACK (R206): what has reached the engine before it, or in the same cycle, is taken first. -/
def State.actAck (s : State) (v : Word) : State :=
  let s := s.takeAllObs.ringAdd (.ack v s.tim.time)
  if bit v 31 then s.each s.rulesOn fun s r => s.ackRule r else s.ackRule (bits v 0 8)

def execAlmAck (a : Acc) (rule : BitVec 8) (s : State) : Out :=
  .next (s.guarded a (ra .alm 0 0x058) (BitVec.ofNat 32 rule.toNat) fun s v => s.actAck v)

def execAlmAckAll (a : Acc) (s : State) : Out :=
  .next (s.guarded a (ra .alm 0 0x058) (bitW 31) fun s v => s.actAck v)

/-! ### Drivers (R209, R210) -/

def execFoldBack (n : Fin 16) (s : State) : Out :=
  let o := s.almOut n.val
  .next (if o.driven && !o.fold then (s.setAlmOut n.val { o with fold := true }).stick .alm 0 (8 + n.val) else s)

def execFoldRetry (n : Fin 16) (s : State) : Out :=
  let o := s.almOut n.val
  .next (if o.driven && o.fold then s.setAlmOut n.val { o with testing := true } else s)

def execFoldTestEnd (n : Fin 16) (limited : Bool) (s : State) : Out :=
  let o := s.almOut n.val
  .next (if o.driven && o.fold && o.testing then s.setAlmOut n.val { o with testing := false, fold := limited } else s)

def execExtLow (n : Fin 16) (s : State) : Out :=
  let o := s.almOut n.val
  .next (if o.driven || o.level then s else s.setAlmOut n.val { o with extLow := true })

def execDrvFail (n : Fin 16) (s : State) : Out :=
  let o := s.almOut n.val
  .next (if o.driven && o.level && !o.fold then (s.setAlmOut n.val { o with drvFail := true }).stick .alm 0 24 else s)

def execAlmPinLevelChange (n : Fin 16) (high : Bool) (s : State) : Out :=
  let o := s.almOut n.val
  .next (s.setAlmOut n.val { o with level := high, extLow := if high then false else o.extLow,
                                    drvFail := if o.driven && !high then false else o.drvFail })

/-! ### Frames (R214, R215) -/

/-- Rules with FRAME = 1 in alarm or fault send their frame. -/
def State.sendAlarms (s : State) (again : Bool) : State :=
  s.each (s.rulesOn.filter fun r => bit (s.ruw r 0) 8 && ((s.rule r).state || (s.rule r).fault)) fun s r =>
    s.sendAlarm r s.tim.stamp again

def execAlarmFrameRepeat (s : State) : Out :=
  .next (if s.alm.repeatDue && s.almOn then
      ({ s with alm := { s.alm with repeatDue := false } }).sendAlarms true
    else s)

def execAlarmFrameOnAddress (s : State) : Out :=
  .next (if s.alm.onAddr && s.fab.addr.isSome && s.almOn && s.atMilestone then
      ({ s with alm := { s.alm with onAddr := false } }).sendAlarms false
    else s)

/-- The decision stamp of a frame in 2^-32 s; the bits of the seconds that the frame does not carry are those of fabric
time now. DEDUCED (log 21). -/
def State.frameStamp (s : State) (f : AlarmFrame) : Nat :=
  s.tim.stamp / 2 ^ 64 * 2 ^ 64 + f.sec.toNat * 2 ^ 32 + f.frac.toNat

/-- A received alarm frame (R215): newer in serial comparison, it is an observation of every remote switch that names
its originator and rule; a repeat of the frame accepted last restarts their silence count. -/
def execAlarmFrameReceive (f : AlarmFrame) (s : State) : Out :=
  let at_ := s.frameStamp f
  .next (if !s.almOn then s
    else s.each ((s.switchesAt at_).filter fun i => bits (s.swAt i at_ 0) 1 2 = 2 &&
        bits (s.swAt i at_ 1) 0 14 = f.origin.toNat && bits (s.swAt i at_ 1) 16 8 = f.rule.toNat) fun s i =>
      let x := s.switch i
      let seq := f.seq.toNat
      let newer := match x.remoteSeq with
        | none => true
        | some q => serialNewer 16 seq q
      if newer then
        (s.setSwitch i { x with remoteSeq := some seq }).observe
          ⟨.remote i, [if f.state then 1 else 0], at_, f.fault, false, 0⟩
      else if f.repeated && x.remoteSeq = some seq then s.setSwitch i { x with quiet := 0, obs := true }
      else s)

/-! ### Entries at their milestone (R199) -/

/-- A swapped-in switch: with KIND, source word and CMP unchanged it keeps its state, and observations stamped before the
milestone still meet the old entry; else it starts OFF. Where that changes its state or fault, every enabled rule that
names it is voted at the milestone (R205), with the value that it observed last. DEDUCED (log 60). -/
def State.switchEffect (s : State) (i : Nat) (old : Nat → Word) : State :=
  let w0 := s.sww i 0
  let x := s.switch i
  if bits (old 0) 1 2 = bits w0 1 2 ∧ old 1 = s.sww i 1 ∧ bit (old 0) 3 = bit w0 3 then
    s.setSwitch i { x with olds := (s.tim.stamp, (List.range 4).map old) :: x.olds }
  else
    let s := s.setSwitch i { since := s.tim.stamp }
    if x.isOn || x.fault then
      s.each (s.rulesOn.filter fun r => (s.members r).contains i) fun s r => s.voteRule r ⟨i, x.val, 0, s.tim.msStamp, s.tim.stamp⟩
    else s

/-- A swapped-in rule is voted again at the milestone at which it takes effect; observations stamped before it still meet the
old entry (R199). -/
def State.ruleEffect (s : State) (r : Nat) (old : Nat → Word) : State :=
  let x := s.rule r
  let s := s.setRule r { x with olds := (s.tim.stamp, (List.range 4).map old) :: x.olds }
  let s := s.voteRule r ⟨-2, 0, 0, s.tim.msStamp, s.tim.stamp⟩
  if bit (s.ruw r 0) 0 then s else
    let x := s.rule r
    s.setRule r { x with acked := false }

/-- Every switch and rule restarts OFF and unfaulted, and every output is released (R217); the frame sequence numbers,
which count changes, go on (R214). DEDUCED (log 36). -/
def State.almRestart (s : State) : State :=
  let rules := (s.alm.rules.map fun (p : Nat × Rule) => (p.1, ({ frameSeq := p.2.frameSeq } : Rule))).filter
    fun p => p.2 ≠ {}
  let s := s.ringAdd .restart
  ({ s with alm := { s.alm with switches := [], rules := rules, obs := [], repeatDue := false } }).releaseOutputs

end Sys2Proof.Machine
end

