-- ==== Sys2Proof/Machine/Interrupts.lean ====
section
/-! DEFINITION. The interrupt controller (chapter 15): conditions, events, delivery, moderation, claims and EOI. -/

namespace Sys2Proof.Machine

open Sys2Proof

/-! ### Conditions (R332) -/

/-- BLK_STICKY bits of a page that feed a privileged source and so do not feed the page's source. -/
def privilegedBits (k : PageKind) : Nat :=
  match k with
  | .sys => 2 ^ 11 + 2 ^ 13
  | .thm => 0xF00 + 2 ^ 13
  | .pwr => 2 ^ 9
  | .fabDisc => 2 ^ 9
  | _ => 0

/-- Enabled sticky bits of a page under a mask. -/
def State.stickyOn (s : State) (k : PageKind) (inst : Nat) (m : Nat) : Bool :=
  (s.reg (ra k inst 0x010) &&& s.reg (ra k inst 0x014) &&& BitVec.ofNat 32 m) ≠ 0

/-- The page source of a page (R27, R332). -/
def State.pageCond (s : State) (k : PageKind) (inst : Nat) : Bool :=
  s.stickyOn k inst (2 ^ 32 - 1 - privilegedBits k)

/-- The page behind a page source: sources 32 to 255 and 256 to 383. -/
def sourcePage (n : Nat) : Option (PageKind × Nat) :=
  if n < 32 then none
  else if n ≤ 42 then
    [(PageKind.sys, 0), (.pwr, 0), (.thm, 0), (.tim, 0), (.intN, 0), (.seq, 0), (.glz, 0), (.upd, 0), (.sec, 0),
      (.ten, 0), (.lak, 0)][n - 32]?
  else if n = 43 then some (.cal0, 0)
  else if n ≤ 49 then some (.calTrim, n - 43)
  else if n = 50 then some (.cal7, 7)
  else if n ≤ 58 then some (.htr, n - 51)
  else if n ≤ 74 then some (.afeEc, n - 59)
  else if n ≤ 82 then some (.afeMs, n - 75)
  else if n ≤ 86 then some (.afeFp, n - 83)
  else if n ≤ 88 then some (.afeAx, n - 87)
  else if n = 89 then some (.afeIn, 0)
  else if n = 90 then some (.alloc, 0)
  else if n = 91 then some (.stb, 0)
  else if n = 92 then some (.fabRouter, 0)
  else if n = 93 then some (.fabDisc, 0)
  else if n < 96 then none
  else if n ≤ 119 then some (.bank, n - 96)
  else if n ≤ 143 then some (.scan, n - 120)
  else if n ≤ 167 then some (.pipe, n - 144)
  else if n ≤ 191 then some (.imp, n - 168)
  else if n ≤ 199 then some (.fabPort, n - 192)
  else if n ≤ 205 then [(PageKind.pci, 0), (.i2c, 0), (.tag, 0), (.flash, 0), (.lpddr, 0), (.gpio, 0)][n - 200]?
  else if n < 256 then none
  else if n ≤ 383 then some (.tenStat, n - 256)
  else none

/-- A source that the table of R332 does not reserve. -/
def sourceExists (n : Nat) : Bool :=
  n ≤ 5 || n = 16 || (24 ≤ n && n ≤ 31) || (sourcePage n).isSome || (512 ≤ n && n ≤ 527) || (768 ≤ n && n ≤ 1023)

/-- A source whose condition is a single-cycle pulse. -/
def isPulse (n : Nat) : Bool := n = 16 || 768 ≤ n

/-- The condition of a source now; the level of a GPIO pin is what the environment shows. -/
def State.condOf (s : State) (n : Nat) (level : Bool) : Bool :=
  if n = 0 then
    ((List.range 8).any fun i => s.reg (ra .alm 0 (0x100 + 4 * i)) ≠ 0) || s.stickyOn .alm 0 (2 ^ 32 - 1)
  else if n = 1 then s.stickyOn .thm 0 (privilegedBits .thm)
  else if n = 2 then s.stickyOn .pwr 0 (privilegedBits .pwr)
  else if n = 3 then s.stickyOn .fabDisc 0 (privilegedBits .fabDisc)
  else if n = 4 then s.stickyOn .sys 0 (2 ^ 13)
  else if n = 5 then s.stickyOn .sys 0 (2 ^ 11)
  else if isPulse n then (s.source n).pulse
  else if 24 ≤ n ∧ n ≤ 31 then s.flag (ra .intN 0 0x040) (n - 24)
  else if n = 36 then s.pageCond .intN 0 || s.pageCond .intF 0
  else if 512 ≤ n ∧ n ≤ 527 then level
  else match sourcePage n with
    | some (k, i) => s.pageCond k i
    | none => false

/-! ### Configuration (R333, R336, R344) -/

def Source.en (x : Source) : Bool := bit x.cfg 0
def Source.sense (x : Source) : Nat := bits x.cfg 1 2
def Source.fastAsked (x : Source) : Bool := bit x.cfg 3
def Source.sub (x : Source) : Nat := bits x.cfg 5 3
def Source.tmask (x : Source) : Nat := bits x.cfg 16 16

/-- Numbers of the sources that may differ from an idle one, ascending. -/
def State.sourceNos (s : State) : List Nat :=
  ((s.int.sources.map (·.1)).foldl (fun m n => kins m n ()) ((List.range 6).map fun n => (n, ()))).map (·.1)

/-- The most fast-class sources of a tenant (R311); the owner has no limit of its own. -/
def State.ifast (s : State) (t : Nat) : Nat := if t < 128 then s.effFld .tenant t 3 8 4 else 64

/-- The sources served as fast class under given tenant limits, ascending: CLASS 1, at most 64 in all (R336). -/
def State.fastUnder (s : State) (limit : Nat → Nat) : List Nat :=
  s.sourceNos.foldl (fun acc n =>
    let x := s.source n
    if x.fastAsked && decide (acc.length < 64) &&
        decide ((acc.filter fun m => (s.source m).tenant = x.tenant).length < limit x.tenant) then acc ++ [n]
    else acc) []

/-- The sources served as fast class: at most IFAST for a tenant (R336). -/
def State.fastList (s : State) : List Nat := s.fastUnder s.ifast

/-- A source is served as fast class (FAST_NOW). -/
def State.isFast (s : State) (n : Nat) : Bool := s.fastList.contains n

/-! ### Delivery (R335 to R339, R341) -/

/-- Sources active on a target. -/
def State.activeOn (s : State) (t : Nat) : List Nat :=
  s.sourceNos.filter fun n =>
    let x := s.source n
    (x.st = .active || x.st = .activePending) && x.target = t

/-- Sources held on a target. -/
def State.heldOn (s : State) (t : Nat) : List Nat :=
  s.sourceNos.filter fun n => (s.source n).held && (s.source n).target = t

/-- The source that a claim register of a target names: the lowest active unclaimed one of its class (R338). -/
def State.claimable (s : State) (t : Nat) (fast : Bool) : Option Nat :=
  (s.activeOn t).find? fun n => !(s.source n).claimed && s.isFast n == fast

/-- A claim register: the source, with VALID. -/
def State.claimWord (s : State) (t : Nat) (fast : Bool) : Word :=
  match s.claimable t fast with
  | some n => BitVec.ofNat 32 (n + 2 ^ 31)
  | none => 0

/-- A target is eligible for a source (R335, R341). -/
def State.eligible (s : State) (n t : Nat) : Bool :=
  let x := s.source n
  let c := s.reg (ra .intN 0 (0x080 + 16 * t))
  x.tmask / 2 ^ t % 2 = 1 && bit c 0 && bits c 1 8 = x.tenant &&
    (t < 8 || (s.routeTo (s.fld (ra .intN 0 (0x088 + 16 * t)) 0 14)).isSome)

/-- The next eligible target above the one used last, wrapping (R335). DEDUCED (log 34). -/
def State.nextTarget (s : State) (n : Nat) : Option Nat :=
  ((List.range 16).map fun i => ((s.source n).last + 1 + i) % 16).find? fun t => s.eligible n t

/-- MSI-X messages can leave: enabled, unmasked, link up, not in D3hot (R338, R388). DEDUCED (log 34). -/
def State.msixOpen (s : State) (vector : Nat) : Bool :=
  s.int.msixEnable && !s.int.funcMask && !bit (BitVec.ofNat 32 (s.int.vecMask.toNat / 2 ^ vector)) 0 &&
    s.hst.linkUp && !s.int.d3hot

/-- A message that a masked vector holds: one pending bit stands for each vector (R338, R386). -/
def State.holdMsix (s : State) (m : Msg) : State :=
  let ms := s.int.waiting
  let join := fun (w : Msg) => if w.vector = m.vector then { w with sources := w.sources ++ m.sources } else w
  { s with int := { s.int with waiting := if ms.any fun w => w.vector = m.vector then ms.map join else ms ++ [m] } }

/-- The largest number of messages of a tenant in a milestone period (R311). -/
def State.irate (s : State) (t : Nat) : Option Nat := if t < 128 then some (s.effFld .tenant t 3 0 8) else none

/-- A message to a target makes its sources active there and is handed over by `send`; beyond the tenant's IRATE it is deferred
(R339). -/
def State.messageBy (s : State) (send : State → Msg → State) (t : Nat) (ns : List Nat) : State :=
  match ns with
  | [] => s
  | low :: _ =>
    let ten := (s.source low).tenant
    let m : Msg := ⟨t, 8 * t + (s.source low).sub, ns, ten⟩
    let s := s.each ns fun s n =>
      let x := s.source n
      s.setSource n { x with st := .active, held := false, claimed := false, target := t, last := t }
    match s.irate ten with
    | none => send s m
    | some r =>
      let sent := kget s.int.sent ten 0
      if sent < r ∧ !(s.int.deferred.any fun d => d.tenant = ten) then
        send { s with int := { s.int with sent := kset s.int.sent ten (sent + 1) 0 } } m
      else
        let s := { s with int := { s.int with deferred := s.int.deferred ++ [m] } }
        (s.countWrap (ra .tenStat ten 0x050) 0 32 1).stick .tenStat ten 10

/-- Delivers every source held on a target in one message (R337). -/
def State.releaseBy (s : State) (send : State → Msg → State) (t : Nat) : State :=
  let ns := s.heldOn t
  let s := { s with int := { s.int with timers := s.int.timers.filter fun x => x.1 ≠ t } }
  s.messageBy send t ns

/-- The end of the active state of a source on its target (R334, R337): an active and pending source is delivered again to the
same target; a level source whose condition is still 1 becomes pending, for `again`; held sources leave with the last active one.
DEDUCED (log 91). -/
def State.endActive (s : State) (send : State → Msg → State) (again : State → Nat → State) (t n : Nat) : State :=
  let x := s.source n
  let still := x.en && x.sense = 0 && !isPulse n && s.condOf n x.cond
  let s := if x.en && x.st = .activePending then (s.setSource n { x with st := .inactive, claimed := false }).messageBy send t [n]
    else if still then again (s.setSource n { x with st := .pending, claimed := false }) n
    else s.setSource n { x with st := .inactive, claimed := false }
  if (s.activeOn t).isEmpty && !(s.heldOn t).isEmpty then s.releaseBy send t else s

/-- Hands over a message within the tenant's rate: MSI-X for T0 to T7, an interrupt frame for T8 to T15. With AUTO the frame is
the EOI of its sources (R341); a level source whose condition is still 1 stays pending there until it is sampled again. The number
counts how often an EOI of that kind may deliver again. DEDUCED (log 153). -/
def State.handOver : Nat → State → Msg → State
  | n, s, m =>
    if m.target < 8 then
      if s.msixOpen m.vector then { s with int := { s.int with out := s.int.out ++ [m] } } else s.holdMsix m
    else
      let w := s.reg (ra .intN 0 (0x088 + 16 * m.target))
      let low := m.sources.headD 0
      let priv := m.sources.any fun n => n < 6
      let b := (if s.isFast low then 1 else 0) + (if priv then 2 else 0) + (if s.islandTime then 4 else 0)
      let s := s.sendTo (if priv then 1 else 4) 0x09 (bits w 0 14) 0xFFFF
        [s.fab.addr.getD 0, bits w 16 8, b, low, m.sources.length, stampSec s.tim.stamp, stampFrac s.tim.stamp] 16
      match n with
      | 0 => s
      | k + 1 =>
        if bit (s.reg (ra .intN 0 (0x080 + 16 * m.target))) 16 then
          s.each m.sources fun s n => s.endActive (fun s m => handOver k s m) (fun s _ => s) m.target n
        else s

/-- A message to a target (R335, R339, R341). -/
def State.message (s : State) (t : Nat) (ns : List Nat) : State := s.messageBy (fun s m => State.handOver 4 s m) t ns

/-- Delivers every source held on a target in one message (R337). -/
def State.releaseHeld (s : State) (t : Nat) : State := s.releaseBy (fun s m => State.handOver 4 s m) t

/-- The moderation timer of a target runs. -/
def State.timerRuns (s : State) (t : Nat) : Bool := s.int.timers.any fun x => x.1 = t

/-- MODTIME of a target has passed since its timer started: the window excludes its end (R6, R337). -/
def State.timerOver (s : State) (t : Nat) : Bool := s.int.timers.any fun x => x.1 = t && decide (x.2 ≤ s.tim.time)

/-- The moderation timer of a target starts: MODTIME × 2^-20 s (R337). -/
def State.startTimer (s : State) (t : Nat) : State :=
  let stop := s.tim.time + s.fld (ra .intN 0 (0x084 + 16 * t)) 16 16 * 2 ^ 44
  { s with int := { s.int with timers := kins s.int.timers t stop } }

/-- Delivers a pending source (R335, R337): fast at once, normal at once on an idle target, else held. On T0 to T7 it
stays pending until MSI-X is enabled (R343). An event at the end of a coalescing window belongs to the next one (R6). -/
def State.deliver (s : State) (n : Nat) : State :=
  match s.nextTarget n with
  | none => s.stick .intN 0 9
  | some t =>
    if t < 8 && !s.int.msixEnable then s
    else if s.isFast n || ((s.activeOn t).isEmpty && (s.heldOn t).isEmpty) then s.message t [n]
    else
      let s := if s.timerOver t then s.releaseHeld t else s
      let x := s.source n
      let s := s.setSource n { x with held := true, target := t, last := t }
      let s := if s.timerRuns t then s else s.startTimer t
      if s.fld (ra .intN 0 (0x084 + 16 * t)) 0 8 ≤ (s.heldOn t).length then s.releaseHeld t else s

/-- Pending sources that have a target now are delivered, fast class first, in ascending number (R335). -/
def State.deliverPending (s : State) : State :=
  let due := s.sourceNos.filter fun n => (s.source n).st = .pending && !(s.source n).held
  s.each (due.filter (s.isFast ·) ++ due.filter fun n => !s.isFast n) fun s n =>
    if (s.nextTarget n).isSome then s.deliver n else s

/-- An event on a source (R334). DESIGN CHOICE (log 22). -/
def State.event (s : State) (n : Nat) : State :=
  let x := s.source n
  if !x.en then s
  else match x.st with
    | .inactive => (s.setSource n { x with st := .pending }).deliver n
    | .pending => if x.held then s else s.deliver n
    | .active => s.setSource n { x with st := .activePending }
    | .activePending => s

/-- The events that a sample of the condition makes (R333): a level-sensed source sees its condition as an event while
it is not active, and a renewed one while it is. DESIGN CHOICE (log 22). -/
def State.sampleSource (s : State) (n : Nat) (now : Bool) : State :=
  let x := s.source n
  let s := s.setSource n { x with cond := if isPulse n then false else now, pulse := false }
  let rise := now && !x.cond
  let fall := !now && x.cond
  if isPulse n then
    if !now then s else if x.sense = 3 then (s.event n).event n else s.event n
  else match x.sense with
    | 0 => if now && (rise || x.st = .inactive || x.st = .pending) then s.event n else s
    | 1 => if rise then s.event n else s
    | 2 => if fall then s.event n else s
    | _ => if rise || fall then s.event n else s

/-- SOURCE_EVENT (R332 to R335): the controller samples one source. DESIGN CHOICE (log 22). -/
def execSourceEvent (src : BitVec 10) (level : Bool) (s : State) : Out :=
  let n := src.toNat
  .next (if sourceExists n && s.pwr.live && s.pwr.clocked && !s.inReset 0x004 then
      s.sampleSource n (s.condOf n level)
    else s)

/-- MODERATION_TIMEOUT (R337). -/
def execModerationTimeout (t : Fin 16) (s : State) : Out := .next (if s.timerOver t.val then s.releaseHeld t.val else s)

/-! ### Service (R334, R338, R345) -/

/-- An end of interrupt written to the page of one class (R334); a tenant's is accepted for its own sources only (R345). -/
def State.eoi (s : State) (req t n : Nat) (fast : Bool) : State :=
  let x := s.source n
  let bad := s.stick (if fast then .intF else .intN) 0 8
  let active := (x.st = .active || x.st = .activePending) && x.target = t
  let allowed := match s.tenantOf req with
    | some ten => x.tenant = ten
    | none => true
  if !active || s.isFast n != fast then bad
  else if !allowed then s
  else s.endActive (fun s m => State.handOver 4 s m) State.deliver t n

/-- INT_EOI(t). -/
def State.actEoi (s : State) (req t : Nat) (v : Word) : State := s.eoi req t (bits v 0 10) false

/-- INT_FEOI(t). -/
def State.actFeoi (s : State) (req t : Nat) (v : Word) : State := s.eoi req t (bits v 0 10) true

def execIntEoi (a : Acc) (t : Fin 16) (src : BitVec 10) (s : State) : Out :=
  .next (s.guarded a (ra .intN 0 (0x1C0 + 4 * t.val)) (BitVec.ofNat 32 src.toNat) fun s v =>
    s.actEoi a.req.toNat t.val v)

def execIntFeoi (a : Acc) (t : Fin 16) (src : BitVec 10) (s : State) : Out :=
  .next (s.guarded a (ra .intF 0 (0x080 + 4 * t.val)) (BitVec.ofNat 32 src.toNat) fun s v =>
    s.actFeoi a.req.toNat t.val v)

/-- A full-word read of a claim register (R338): the source that it names is marked claimed. -/
def State.claim (s : State) (t : Nat) (fast : Bool) : State :=
  let a := s.answerWith (.data (s.claimWord t fast))
  match s.claimable t fast with
  | some n => a.setSource n { s.source n with claimed := true }
  | none => a

def execIntClaim (a : Acc) (t : Fin 16) (s : State) : Out :=
  .next (s.guardedRead a (ra .intN 0 (0x180 + 4 * t.val)) fun s => s.claim t.val false)

def execIntFclaim (a : Acc) (t : Fin 16) (s : State) : Out :=
  .next (s.guardedRead a (ra .intF 0 (0x040 + 4 * t.val)) fun s => s.claim t.val true)

/-- A received interrupt frame (R342): a privileged one only on TC1. -/
def execInterruptFrameReceive (port : Fin 8) (vector : BitVec 8) (privileged onTc1 : Bool) (s : State) : Out :=
  .next (if !(s.pwr.live && s.pwr.clocked && (s.fport port.val).carries) then s
    else if privileged && !onTc1 then s.countSat (ra .fabPort port.val 0x058) 1
    else s.pulse (768 + vector.toNat))

/-- TAMPER (R340): the TAP leaves Test-Logic-Reset with an owner chain installed, or the self-test fails. -/
def execTamper (selfTest : Bool) (s : State) : Out :=
  .next (if selfTest || s.flash.nOwners ≠ 0 then s.stick .sys 0 13 else s)

/-! ### INT_SCFG -/

/-- The sources that were served as fast class and are not any more, though they ask for it (R336). -/
def State.pushedOut (old s : State) : List Nat :=
  old.fastList.filter fun n => (s.source n).fastAsked && !s.isFast n

/-- What a changed configuration does to held sources (R337): one that is fast now is held no longer, a timer without a held
source ends, and a target with MODCNT of them delivers. -/
def State.settleHeld (s : State) : State :=
  let s := s.each (s.sourceNos.filter fun n => (s.source n).held && s.isFast n) fun s n =>
    s.setSource n { s.source n with held := false }
  s.upTo 16 fun s t =>
    let n := (s.heldOn t).length
    if n = 0 then { s with int := { s.int with timers := s.int.timers.filter fun x => x.1 ≠ t } }
    else if s.fld (ra .intN 0 (0x084 + 16 * t)) 0 8 ≤ n then s.releaseHeld t else s

/-- A write of INT_SCFG to the source that the requester's INT_SIDX selects (R333, R344, R345). -/
def State.writeScfg (s : State) (req : Nat) (v mask : Word) : State :=
  let n := kget s.acc.sidx req 0
  if !sourceExists n then s
  else
    let x := s.source n
    let fixed : Word := if n < 6 then 0xFF06 else 0
    let badTen := n ≥ 6 && (mask &&& 0xFF00) ≠ 0 && decide (128 ≤ bits v 8 8) && bits v 8 8 ≠ 0xFF
    let m := 0xFFFFFFEF &&& mask &&& ~~~ fixed &&& ~~~ (if badTen then 0xFF00 else 0)
    let cfg := mergeMask x.cfg m v
    let st := if bit cfg 0 then x.st else match x.st with
      | .pending => .inactive
      | .activePending => .active
      | y => y
    let s' := s.setSource n { x with cfg := cfg, st := st, held := x.held && bit cfg 0 }
    let s' := if badTen then s'.stick .intN 0 3 else s'
    let asks := bit cfg 3 && !s'.isFast n
    let s' := if asks || !(s.pushedOut s').isEmpty then s'.stick .intN 0 10 else s'
    (s'.settleHeld).deliverPending

/-! ### Resets and wake (R339, R343) -/

/-- Deferred messages leave at a milestone, in order of deferral, within each tenant's rate (R339); each was counted once, when it
was deferred (R311). -/
def State.sendDeferred (s : State) : State :=
  let ms := s.int.deferred
  let s := { s with int := { s.int with sent := [], deferred := [] } }
  s.each ms fun s m =>
    let sent := kget s.int.sent m.tenant 0
    if sent < (s.irate m.tenant).getD 0 && !(s.int.deferred.any fun d => d.tenant = m.tenant) then
      State.handOver 4 { s with int := { s.int with sent := kset s.int.sent m.tenant (sent + 1) 0 } } m
    else { s with int := { s.int with deferred := s.int.deferred ++ [m] } }

/-- Messages that the endpoint held leave as far as vectors are open; a pending bit goes with the last EOI of its sources
(R338, R386). -/
def State.flushMsix (s : State) : State :=
  let live := fun (m : Msg) => m.sources.any fun n => (s.activeOn m.target).contains n
  let ms := s.int.waiting.filter live
  let s := { s with int := { s.int with waiting := [] } }
  s.each ms fun s m => State.handOver 4 s m

/-- A host-link reset (R343): sources active or held on T0 to T7 return to pending, and moderation is cleared. -/
def State.intLinkReset (s : State) : State :=
  let back := s.sourceNos.filter fun n =>
    let x := s.source n
    x.target < 8 && (x.held || x.st = .active || x.st = .activePending)
  let s := s.each back fun s n =>
    s.setSource n { s.source n with st := .pending, held := false, claimed := false }
  { s with int := { s.int with timers := s.int.timers.filter fun x => 8 ≤ x.1, waiting := [], msixEnable := false,
                               funcMask := false, vecMask := 0, d3hot := false,
                               deferred := s.int.deferred.filter fun m => 8 ≤ m.target } }

/-- The restore of a wake from Deep Sleep (R343): sources held at entry are delivered, and every condition is sampled again, the
fast class before the normal (R335). -/
def State.intRestore (s : State) : State :=
  let s := s.upTo 16 fun s t => if (s.heldOn t).isEmpty then s else s.releaseHeld t
  let all := s.sourceNos ++ (List.range 1024).filter fun n => (sourcePage n).isSome && !s.sourceNos.contains n
  let fast := s.fastList
  s.each (all.filter fast.contains ++ all.filter fun n => !fast.contains n) fun s n =>
    if sourceExists n && !isPulse n then s.sampleSource n (s.condOf n (s.source n).cond) else s

/-- A block reset of either INT page (R343). -/
def State.intReset (s : State) : State :=
  { s with int := { s.int with sources := [], timers := [], deferred := [], waiting := [], sent := [] } }

end Sys2Proof.Machine
end

