-- ==== Sys2Proof/Machine/Fabric.lean ====
section
/-! DEFINITION. Quevex links, discovery, addressing, routing and reservations (chapter 11). -/

namespace Sys2Proof.Machine

open Sys2Proof

/-! ### The owner root (R298, R300, R301) -/

/-- The bytes that a DER element at the front of a list takes: tag, length in short or long form, content. -/
def derLen : List Byte → Nat
  | _ :: l :: rest =>
    if l.toNat < 128 then 2 + l.toNat
    else
      let k := l.toNat - 128
      2 + k + (rest.take k).foldl (fun a b => a * 256 + b.toNat) 0
  | l => l.length

/-- The certificates of a chain, one by one. -/
def derSplit : Nat → List Byte → List (List Byte)
  | 0, _ => []
  | n + 1, bs => if bs.isEmpty then [] else bs.take (derLen bs) :: derSplit n (bs.drop (derLen bs))

/-- The owner certificates installed. -/
def State.ownerCerts (s : State) : List (List Byte) := derSplit s.flash.nOwners s.flash.owners

/-- The digest of the installed owner root, or 48 zero bytes (R298, R301). -/
def State.ownerRoot (s : State) : List Byte :=
  match s.ownerCerts with
  | c :: _ => beBytes (Config.sha384 c).toNat 48
  | [] => List.replicate 48 0

/-! ### Widths and states (R244, R245, R246) -/

/-- The width that good lanes allow: 4 lanes, or 2 of one half, or 1, and at most WMAX. -/
def widthOf (lanes : Nat) (wmax : Nat) : Nat :=
  if lanes = 15 ∧ 2 ≤ wmax then 4
  else if (lanes % 4 = 3 ∨ lanes / 4 = 3) ∧ 1 ≤ wmax then 2
  else if lanes ≠ 0 then 1
  else 0

/-- FAB_PSTAT.WIDTH of a width. -/
def widthCode : Nat → Nat
  | 4 => 3
  | 2 => 2
  | 1 => 1
  | _ => 0

/-- FAB_PSTAT.STATE. -/
def portCode : PortSt → Nat
  | .down => 0 | .training => 1 | .authenticating => 2 | .up => 3 | .quarantined => 4 | .upSleep => 5

/-- Replaces a port. A change of state or width makes waymark 0x13 (R274), a new advertisement (R255) and new routes (R258), and
a queue above the limit of the new width sets TC1_OVER (R250). -/
def State.movePort (s : State) (p : Nat) (v : FabPort) : State :=
  let old := s.fport p
  let s := s.setFport p v
  if old.st = v.st ∧ old.width = v.width then s
  else
    let s := { s with fab := { s.fab with routesDue := true, floodDue := true } }
    let s := if v.carries && decide (tc1Limit v.width < v.queued 1) then s.stick .fabPort p 13 else s
    s.waymark 0x13 [p, portCode v.st, widthCode v.width]

/-- The port is enabled: FAB_PCFG.EN and its page in service (R254, R26). -/
def State.portOn (s : State) (p : Nat) : Bool := s.flag (ra .fabPort p 0x040) 0 && s.inService (0x100 + p)

/-- The port goes down, into `st`: its replay buffer is discarded, and a time parent on it is lost. -/
def State.portDown (s : State) (p : Nat) (st : PortSt) : State :=
  let s := s.movePort p { s.fport p with
    st := st, lanes := 0, width := 0, peer := none, waited := 0, linkUpDue := false, txSeq := 0, rxSeq := 0,
    nakOpen := false, hello := [], lastAck := none, lastNak := none, replay := [], sent := 0, keyAge := 0, hadKeys := false, keys := none,
    rxOld := none, queue := [], busy := 0, begun := [], deficit := [], partialRx := [] }
  { s with fab := { s.fab with parent := if s.fab.parent = some p then none else s.fab.parent, routesDue := true } }

/-- Slots admitted on a port (R261). -/
def State.admitted (s : State) (p : Nat) : Nat := ((s.fab.admits.filter fun x => x.port = p).map (·.slots)).sum

/-! ### Reservations of the device's own sessions (R261, R262, R273) -/

/-- The reserved streams of a session. -/
def State.tc2Streams (s : State) (x : Session) : List Nat := (x.subs.map (·.stream)).filter s.isTc2

/-- ⌈ΣRSV / 1,024⌉ over the session's TC2 streams (R261). -/
def State.rsvSlots (s : State) (x : Session) : Nat :=
  ceilDiv ((s.tc2Streams x).map fun i => s.effFld .stream i 12 8 24).sum 1024

/-- TC2MAX of a tenant number at this hop: 0 for a disabled entry, no limit for the owner (R310). -/
def State.tc2max (s : State) (t : Nat) : Option Nat :=
  if t < 128 then some (if bit (s.eff (TableId.tenant.addr t 0)) 0 then s.effFld .tenant t 2 16 16 else 0) else none

/-- Slots that a tenant has on a port. -/
def State.tenantSlots (s : State) (p t : Nat) : Nat :=
  ((s.fab.admits.filter fun x => x.port = p && x.tenant = t).map (·.slots)).sum

/-- Why an egress port does not take a request: the reasons 1 and 2 of FAB_RSV_REFUSE (R244, R261, R310). -/
def State.rsvBar (s : State) (p t slots : Nat) : Option Nat :=
  let budget : Bool := match s.tc2max t with
    | none => true
    | some m => decide (s.tenantSlots p t + slots ≤ m)
  if !((s.fport p).st = .up && decide (s.admitted p + slots ≤ tc2Limit (s.fport p).width)) then some 1
  else if !budget then some 2 else none

/-- Admits slots on a port; what is still free changes, so the device advertises it (R255). -/
def State.addAdmit (s : State) (x : Admit) : State :=
  { s with fab := { s.fab with admits := s.fab.admits ++ [x], floodDue := true } }

/-- Frees admitted slots. -/
def State.unadmit (s : State) (gone : Admit → Bool) : State :=
  if s.fab.admits.any gone then
    { s with fab := { s.fab with admits := s.fab.admits.filter fun x => !gone x, floodDue := true } }
  else s

/-- A request for no slots goes on where a reservation went, and frees it at the hops behind (R261). DESIGN CHOICE (log 133). -/
def State.freeOnward (s : State) (a : Admit) : State :=
  if (s.fport a.port).carries then
    s.sendOn a.port 4 0x0A a.dest a.session ([1, (a.session : Int), 0, (a.tenant : Int)] ++ (a.origin.map fun o => (o : Int)).toList) 16
  else s

/-- The slots of an own session are freed, here and at the hops behind (R261). DESIGN CHOICE (log 133). -/
def State.freeRsv (s : State) (n : Nat) : State :=
  let mine := fun (x : Admit) => x.session = n && x.origin.isNone
  match s.fab.admits.find? mine with
  | none => s
  | some a => (s.unadmit mine).freeOnward a

/-- Records a refusal (R261). -/
def State.refuseRsv (s : State) (session reason : Nat) : State :=
  let s := s.setReg (ra .fabRouter 0 0x04C) (BitVec.ofNat 32 (session + reason * 2 ^ 11 + 2 ^ 31))
  s.stick .fabRouter 0 8

/-- A session is left without a reservation: what waits goes on TC3, and it asks again later (R245, R262). -/
def State.unreserve (s : State) (n : Nat) : State :=
  match s.session n with
  | some x => (s.setSession { x with granted := 0, asked := false, wants := true, bucket := 0 }).catchUp n false
  | none => s

/-- The session asks for a reservation along its route, with the number of its tenant; the host port needs none. The device's
own egress port is the first hop (R261, R310). While the supervisor does not run the request waits, and the records go on TC3. -/
def State.askRsv (s : State) (x : Session) : State :=
  if x.host ∨ (s.tc2Streams x).isEmpty then s
  else
    let n := x.num
    let s := (s.setSession { x with asked := true, granted := 0, wants := false, askDue := !s.supWorks }).freeRsv n
    let s := s.catchUp n false
    if !s.supWorks then s
    else
      let t := s.partyOf n
      let slots := s.rsvSlots x
      match s.routeTo x.peer with
      | none => (s.unreserve n).refuseRsv n 3
      | some p =>
        match s.rsvBar p t slots with
        | some why => (s.unreserve n).refuseRsv n why
        | none =>
          let s := s.addAdmit { port := p, session := n, tenant := t, slots := slots, dest := x.peer }
          s.sendTo 4 0x0A x.peer n [1, n, slots, t] 16

/-- Withdraws an admitted reservation as a refusal: the session sends on TC3 and asks again later, one of another device is told
(R245, R306). -/
def State.withdraw (s : State) (x : Admit) (reason : Nat) : State :=
  let s := s.unadmit (· = x)
  match x.origin with
  | some o => s.sendTo 4 0x0A o x.session [4, x.session, reason] 16
  | none => s.unreserve x.session

/-- The admitted reservation with the highest session number among some. -/
def topAdmit (l : List Admit) : Option Admit :=
  l.foldl (fun m x => match m with
    | none => some x
    | some y => if y.session < x.session then some x else m) none

/-- Withdraws reservations of a port, highest session number first, until the rest fit. -/
def State.preempt (s : State) (p limit : Nat) : Nat → State
  | 0 => s
  | n + 1 =>
    if s.admitted p ≤ limit then s
    else match topAdmit (s.fab.admits.filter fun x => x.port = p) with
      | none => s
      | some x => State.preempt ((s.withdraw x 1).stick .fabPort p 14) p limit n

/-- Asks for the reservations that sessions still want (R245, R261, R269). -/
def State.askAgain (s : State) : State :=
  s.each (s.fab.sessions.filter fun x => x.wants && x.st = .open_ && !x.host) fun s x =>
    match s.session x.num with
    | some y => s.askRsv y
    | none => s

/-- A lane leaves its port (R245). DEDUCED (log 93). -/
def execLaneLoss (port : Fin 8) (lane : Fin 4) (s : State) : Out :=
  let p := port.val
  let v := s.fport p
  .next (if v.carries && v.lanes.getLsbD lane.val then
      let lanes := v.lanes &&& ~~~ (BitVec.ofNat 4 (2 ^ lane.val))
      let w := widthOf lanes.toNat (s.fld (ra .fabPort p 0x040) 1 2)
      let w := if v.st = .upSleep then min w 1 else w
      let s := s.stick .fabPort p 12
      if w = 0 then (s.portDown p .training).stick .fabPort p 8
      else
        let s' := s.movePort p { v with lanes := lanes, width := w }
        let s' := if w = v.width then s'.waymark 0x13 [p, portCode v.st, widthCode w] else s'
        s'.preempt p (tc2Limit w) s.fab.admits.length
    else s)

/-- A recovered lane rejoins its port at a milestone (R245). -/
def execLaneRejoin (port : Fin 8) (lane : Fin 4) (s : State) : Out :=
  let p := port.val
  let v := s.fport p
  .next (if v.carries && !v.lanes.getLsbD lane.val && s.atMilestone then
      let lanes := v.lanes ||| BitVec.ofNat 4 (2 ^ lane.val)
      let w := widthOf lanes.toNat (s.fld (ra .fabPort p 0x040) 1 2)
      let w := if v.st = .upSleep then min w 1 else w
      (s.movePort p { v with lanes := lanes, width := w }).askAgain
    else s)

/-! ### Fragments (R248 to R253) -/

/-- The egress of a frame that came in on port `p`: never through a port with EXCL except to its peer, nor from one
(R258). -/
def State.transit (s : State) (p dest : Nat) : Option Nat :=
  if s.flag (ra .fabPort p 0x040) 3 then none
  else match s.routeTo dest with
    | none => none
    | some q => if s.flag (ra .fabPort q 0x040) 3 && s.peerOf q ≠ some dest then none else some q

/-- A fragment is forwarded on a port (R249, R250). On TC3 and TC4 a frame of the peer of a tenant's session counts for that
tenant, one of another device for the owner (R310). DESIGN CHOICE (log 133). -/
def State.forward (s : State) (q p : Nat) (peer : Option Role) (f : Fragment) : State :=
  let party := match peer with
    | some (.tenant t) => t.val
    | _ => 255
  s.queueOn q [⟨f.cls.toNat, party, p, f.len.toNat + 1, f.first, f.last⟩]

/-- The frame is for this device or its neighbour: a link-local one, its own address, or one whose entry has LOCAL (R247, R259). -/
def State.isLocal (s : State) (f : Fragment) : Bool :=
  let w := s.reg (TableId.routing.addr f.dest.toNat 0)
  f.linkLocal || s.fab.addr = some f.dest.toNat || bit w 0 && bit w 5

/-- What an accepted fragment does: the frame that it belongs to is for the device or its neighbour, or goes on along
its route with its hop limit lowered; a frame without a route is discarded (R247, R248, R258). A session's peer sends on
TC3 and TC4 alone, and a tenant session's peer sends no mode change (R303, R323). -/
def State.routeFragment (s : State) (p : Nat) (f : Fragment) : State :=
  let cls := f.cls.toNat
  let v := s.fport p
  let seen := kget v.partialRx cls 0
  let s := s.setFport p { v with partialRx := kset v.partialRx cls (if f.last then 0 else if f.first then 1 else seen + 1) 0 }
  let peer := match s.session f.session.toNat with
    | some x => if x.peer = f.src.toNat ∧ !x.host ∧ x.st ≠ SessSt.handshake then some x.role else none
    | none => none
  let badClass := peer.isSome && cls != 3 && cls != 4
  let badKind := f.kind.toNat == 8 && (match peer with
    | some (.tenant _) => true
    | _ => false)
  if badClass || badKind then
    (if f.last then
      let s := s.countDrop p
      if badClass then match peer with
        | some (.tenant t) => s.stick .tenStat t.val 11
        | _ => s.stick .sec 0 12
      else s
    else s)
  else if 5 ≤ cls ∨ 0x0B ≤ f.kind.toNat then (if f.last then s.countDrop p else s)
  else if s.isLocal f then
    (if f.last then
      match s.session f.session.toNat with
      | some x => if x.peer = f.src.toNat ∧ !x.host then s.setSession { x with silence := 0 } else s
      | none => s
    else s)
  else if f.hops.toNat ≤ 1 then (if f.last then (s.countDrop p).stick .fabRouter 0 9 else s)
  else match s.transit p f.dest.toNat with
    | none => if f.last then (s.countDrop p).stick .fabRouter 0 9 else s
    | some q => s.forward q p peer f

/-- 64 µs and 2 µs in 2^-64 s. -/
def phaseSpan : Nat := 64 * 2 ^ 64 / 1000000
def ackMargin : Nat := 2 * 2 ^ 64 / 1000000

/-- The key phase of an accepted fragment: the first of a new phase ends the one before, whose fragments are accepted for 64 µs
more (R253). -/
def FabPort.notePhase (v : FabPort) (phase : Bool) (now : Nat) : FabPort :=
  let late : Bool := v.rxOld.any fun t => now ≤ t + phaseSpan
  if phase = v.rxPhase ∨ late then v else { v with rxPhase := phase, rxOld := some now }

/-- The negative acknowledgement for the first fragment that is not accepted (R251). -/
def FabPort.nak (v : FabPort) : FabPort :=
  { v with nakOpen := true, lastNak := if v.nakOpen then v.lastNak else some v.rxSeq }

/-- FRAGMENT_RECEIVE (R248, R251): the tag and the sequence are checked and the fragment is acknowledged; after a negative
acknowledgement every fragment is discarded until the named one arrives again. -/
def execFragmentReceive (port : Fin 8) (f : Fragment) (s : State) : Out :=
  let p := port.val
  let v := s.fport p
  .next (if !v.carries then s
    else if !f.tagOk then
      let s := (s.countSat (ra .fabPort p 0x04C) 1).stick .fabPort p 11
      s.setFport p v.nak
    else if f.seq.toNat ≠ v.rxSeq then s.setFport p v.nak
    else
      let v := v.notePhase f.phase s.tim.time
      (s.setFport p { v with nakOpen := false, lastAck := some v.rxSeq,
                             rxSeq := (v.rxSeq + 1) % 65536 }).routeFragment p f)

/-- Every fragment from `seq` on is sent again, with a new transmission count each (R251, R253). -/
def State.resend (s : State) (p seq : Nat) : State :=
  let v := s.fport p
  let hit := fun (x : SentFrag) => x.seq = seq ∨ serialNewer 16 x.seq seq
  let again := v.replay.filter fun x => hit x
  let n := again.length
  let buf := v.replay.map fun (x : SentFrag) => if hit x then { x with sends := x.sends + 1, at_ := s.tim.time, phase := v.keyPhase } else x
  let bytes := (again.map fun (x : SentFrag) => fragBytes x.len).sum
  let s := s.setFport p { v with sent := v.sent + n, replay := buf, busy := v.busy + 11 * bytes }
  s.countSat (ra .fabPort p 0x048) n

def execNegativeAcknowledge (port : Fin 8) (seq : BitVec 16) (s : State) : Out :=
  .next (if (s.fport port.val).carries then s.resend port.val seq.toNat else s)

/-- A cumulative acknowledgement frees the replay buffer up to its fragment (R251). -/
def execLinkAcknowledge (port : Fin 8) (seq : BitVec 16) (s : State) : Out :=
  let v := s.fport port.val
  .next (s.setFport port.val { v with replay := v.replay.filter fun x => serialNewer 16 x.seq seq.toNat })

/-- No acknowledgement within 2d + 2 µs: the sender resends from the oldest fragment (R251). -/
def execAckTimeout (port : Fin 8) (s : State) : Out :=
  let v := s.fport port.val
  .next (if v.carries then
      match v.replay with
      | x :: _ => if x.at_ + (nsTo64 (2 * s.ldelay port.val)).toNat + ackMargin ≤ s.tim.time then s.resend port.val x.seq else s
      | [] => s
    else s)

/-- A fragment has been sent 8 times without acknowledgement (R252). -/
def execRetryLimit (port : Fin 8) (s : State) : Out :=
  let p := port.val
  .next (if (s.fport p).carries && (s.fport p).replay.any fun x => 8 ≤ x.sends then
      ((s.portDown p .training).stick .fabPort p 8).stick .fabPort p 10
    else s)

/-- The keys and salts of both directions from the exchange of that serial number (R253). -/
def linkKeys (serial : Nat) : LinkKeys :=
  { txKey := Config.linkKey serial true, txSalt := Config.linkSalt serial true
    rxKey := Config.linkKey serial false, rxSalt := Config.linkSalt serial false }

/-- The link re-keys after 2^22 milestones or 2^31 transmissions, by a fresh exchange on TC4 (R253). DESIGN CHOICE (log 12). -/
def execRekey (port : Fin 8) (s : State) : Out :=
  let p := port.val
  .next (if (s.fport p).carries && (decide (2 ^ 22 ≤ (s.fport p).keyAge) || decide (2 ^ 31 ≤ (s.fport p).sent)) then
      let serial := s.frames.length
      let key : List Byte := 4 :: beBytes (Config.ephemeralKey serial).toNat 96
      let s := s.sendLink p 4 0x0A (5 :: key.map fun b => (b.toNat : Int)) 98
      let v := s.fport p
      s.setFport p { v with keyPhase := !v.keyPhase, keyAge := 0, sent := 0, keys := some (linkKeys serial) }
    else s)

/-! ### Bring-up (R254, R301) -/

/-- Lane training completes (R254, step 1); a link that retrains after a wake resumes with its keys (R246). -/
def execLaneTrainingDone (port : Fin 8) (lanes : BitVec 4) (s : State) : Out :=
  let p := port.val
  let v := s.fport p
  let w := widthOf lanes.toNat (s.fld (ra .fabPort p 0x040) 1 2)
  .next (if v.st = .training ∧ w ≠ 0 ∧ s.portOn p then
      if v.hadKeys then s.movePort p { v with lanes := lanes, width := w, linkUpDue := true }
      else s.movePort p { v with st := .authenticating, lanes := lanes, width := w, waited := 0, hello := s.ownerRoot }
    else s)

/-- A port whose authentication fails is quarantined (R254). -/
def State.quarantine (s : State) (p : Nat) : State := (s.portDown p .quarantined).stick .fabPort p 9

/-- Each certificate is signed by the key of the one before it (R299). -/
def chainFrom : List Byte → List (List Byte) → Bool
  | _, [] => true
  | c, d :: t => Config.certSigned c d && chainFrom d t

/-- A chain verifies against trust anchors (R299). -/
def chainVerifies (anchors chain : List (List Byte)) : Bool :=
  match chain with
  | [] => false
  | c :: t => anchors.any (Config.certSigned · c) && chainFrom c t

/-- The trust anchors: the Dravpa root, and the owner root where one is installed (R299). -/
def State.anchors (s : State) : List (List Byte) := Config.dravpaCert 2 :: s.ownerCerts.take 1

/-- AUTHENTICATION_DONE (R254, R299, R301): `ownerRoot` is the digest that the peer has sent, zeros without an owner root. The chain
must lead to a trust anchor; the verdict on the signature comes with the command. DESIGN CHOICE (log 5). -/
def execAuthenticationDone (port : Fin 8) (chain : List (List Byte)) (sigOk : Bool) (ownerRoot : BitVec 384) (uid : BitVec 64)
    (peer : Option (BitVec 14)) (s : State) : Out :=
  let p := port.val
  let v := s.fport p
  let ownerEqual : Bool := v.hello = beBytes ownerRoot.toNat 48
  .next (if v.st ≠ .authenticating ∨ v.linkUpDue then s
    else if chainVerifies s.anchors chain && sigOk && ownerEqual then
      s.setFport p { v with linkUpDue := true, hadKeys := true, peerUid := uid.toNat, peer := peer.map (·.toNat),
                            keyPhase := false, rxPhase := false, rxOld := none, keyAge := 0, sent := 0,
                            keys := some (linkKeys s.frames.length),
                            txSeq := 0, rxSeq := 0 }
    else
      let s := s.quarantine p
      if ownerEqual then s else s.stick .sec 0 11)

def execHandshakeTimeout (port : Fin 8) (s : State) : Out :=
  let v := s.fport port.val
  .next (if v.st = .authenticating ∧ !v.linkUpDue ∧ 64 ≤ v.waited then s.quarantine port.val else s)

def execQuarantineRetry (port : Fin 8) (s : State) : Out :=
  let v := s.fport port.val
  .next (if v.st = .quarantined ∧ 1024 ≤ v.waited then s.movePort port.val { v with st := .training, waited := 0 } else s)

/-! ### Discovery and addresses (R255 to R257, R269) -/

/-- Ports that carry frames. -/
def State.upPorts (s : State) : List Nat := (List.range 8).filter fun p => (s.fport p).carries

/-- The root the device follows, if it has one (R255, R268). -/
def State.rootNow (s : State) : Option Nat :=
  if s.tim.st = .free ∨ s.fab.electDue ∨ (s.fab.parted ∧ s.tim.st ≠ .root ∧ s.tim.st ≠ .locked) then none
  else some s.tim.rootAddr

/-- An absent address as −1. -/
def orMinus1 (x : Option Nat) : Int := match x with
  | some n => n
  | none => -1

/-- FAB_DCFG.PREF while PVALID is 1. -/
def State.prefAddr (s : State) : Option Nat :=
  if s.flag (ra .fabDisc 0 0x040) 14 then some (s.fld (ra .fabDisc 0 0x040) 0 14) else none

/-- Numbers as bytes, 8 each. -/
def intBytes (l : List Int) : List Byte := l.flatMap fun v => leBytes (encInt 64 v) 8

/-- What the device's own advertisement reports: a change of it is flooded (R255). -/
def State.lsaBody (s : State) : List Int :=
  [(s.uid : Int), orMinus1 s.fab.addr, s.fab.claimMs, s.ownRank, orMinus1 s.rootNow, orMinus1 s.prefAddr] ++
    s.upPorts.flatMap fun p =>
      [orMinus1 (s.peerOf p), ((s.fport p).width : Int), s.portCost p,
        ((tc2Limit (s.fport p).width - s.admitted p : Nat) : Int)]

/-- The device's own advertisement, with its sequence number and its signature (R255). -/
def State.ownLsa (s : State) : List Int :=
  let l : List Int := (s.fab.lsaSeq : Int) :: s.lsaBody
  l ++ [((Config.unitSign (Config.sha384 (intBytes l))).toNat : Int)]

/-- An advertisement as it goes on from neighbour to neighbour, with its originator's signature. -/
def lsaNumbers (l : Lsa) : List Int :=
  let opt := fun (a : Option (BitVec 14)) => orMinus1 (a.map fun (b : BitVec 14) => b.toNat)
  [(l.seq : Int), (l.uid.toNat : Int), opt l.addr, l.claimMs, rankByte l.gnss l.hq.toNat false, opt l.root, opt l.pref] ++
    (l.ports.flatMap fun q => [(q.1.toNat : Int), q.2.1, q.2.2.1, q.2.2.2]) ++ [(l.sig.toNat : Int)]

/-- Floods the device's advertisement on every port that is up; while the supervisor does not run, discovery pauses and the
advertisement waits (R21). -/
def State.flood (s : State) : State :=
  if !s.supWorks then { s with fab := { s.fab with floodDue := true } }
  else
  let s := { s with fab := { s.fab with lsaSeq := s.fab.lsaSeq + 1, sinceFlood := 0, floodDue := false, told := s.lsaBody } }
  s.each s.upPorts fun s p => s.sendOn p 4 0x03 0x4000 0xFFFF s.ownLsa 256

/-- LSA_FLOOD (R255): discovery pauses while the supervisor does not run (R21). -/
def execLsaFlood (s : State) : Out :=
  .next (if s.supWorks && s.pwr.live && s.pwr.clocked then s.flood else s)

/-- The advertisement held from an originator. -/
def State.held (s : State) (uid : Nat) : Option MapEntry := s.fab.map.find? fun e => e.lsa.uid.toNat = uid

/-- A claim beats another (R257): made at the earlier milestone, then by the lower unit identifier. -/
def claimWins (ms1 uid1 ms2 uid2 : Nat) : Bool := ms1 < ms2 || (ms1 = ms2 && uid1 < uid2)

/-- A device that follows no root takes the live root of the part it has joined; else the better root of a merged map
is known, and time follows R237; a device whose root has changed sets ROOT_CHANGE and HEALED (R268, R269). DEDUCED (log 88). -/
def State.mergeRoot (s : State) (l : Lsa) : State :=
  match l.addr, l.root with
  | some a, some r =>
    let key := rankKey l.gnss l.hq.toNat a.toNat
    if s.rootNow.isNone then
      let changed : Bool := s.fab.hadRoot && r.toNat ≠ s.tim.rootAddr
      let rank := if a = r then key else rankKey false 7 r.toNat
      let s := { s with fab := { s.fab with electDue := false, parted := false, hadRoot := false, asking := false, floodDue := true }
                        tim := { s.tim with sinceFrame := 0 } }
      let s := s.timState s.tim.st r.toNat rank s.tim.rootIsland
      if changed then (s.stick .fabDisc 0 10).stick .fabDisc 0 11 else s
    else if a = r ∧ a.toNat ≠ s.tim.rootAddr ∧ key < s.tim.rootRank ∧ !s.tim.healing then
      { s with tim := { s.tim with healing := true, winner := a.toNat } }
    else s
  | _, _ => s

/-- The device takes a newer advertisement into its map: the peers' addresses follow it, and its own address gives way
to an earlier claim (R257, R269). -/
def State.takeLsa (s : State) (l : Lsa) : State :=
  let rest := s.fab.map.filter fun e => e.lsa.uid ≠ l.uid
  let s := { s with fab := { s.fab with map := rest ++ [(⟨l, 0⟩ : MapEntry)], routesDue := true } }
  let s := s.upTo 8 fun s p =>
    let v := s.fport p
    if v.carries ∧ v.peerUid = l.uid.toNat then s.setFport p { v with peer := l.addr.map fun (a : BitVec 14) => a.toNat } else s
  let lost := match s.fab.addr, l.addr with
    | some a, some b => decide (a = b.toNat) && claimWins l.claimMs l.uid.toNat s.fab.claimMs s.uid
    | _, _ => false
  let s := if lost then { s with fab := { s.fab with conflictDue := true } } else s
  s.mergeRoot l

/-- LSA_RECEIVE (R255, R257, R269): supervisor work (R348); in Sleep the advertisement is flooded unchanged, and the map follows in
Run (R350). DEDUCED (log 149). -/
def execLsaReceive (port : Fin 8) (l : Lsa) (s : State) : Out :=
  let newer := match s.held l.uid.toNat with
    | some e => decide (e.lsa.seq < l.seq)
    | none => true
  let newer := newer && decide (l.uid.toNat ≠ s.uid)
  let onward := fun (s : State) => s.each (s.upPorts.filter (· ≠ port.val)) fun s p =>
    s.sendOn p 4 0x03 0x4000 0xFFFF (lsaNumbers l) 256
  .next (if !(s.fport port.val).carries then s
    else if !(newer && l.sigOk) then s.stick .fabDisc 0 12
    else
      let s := onward s.leaveIdle
      if s.supWorks then s.takeLsa l else s)

/-- LSA_WITHDRAW (R255): an advertisement not renewed within 4,096 milestones. -/
def execLsaWithdraw (uid : BitVec 64) (s : State) : Out :=
  .next (match s.held uid.toNat with
    | some e =>
      if 4096 ≤ e.age && s.supWorks then
        { s with fab := { s.fab with map := s.fab.map.filter fun e => e.lsa.uid ≠ uid, routesDue := true } }
      else s
    | none => s)

/-- Addresses that the root must not assign to a requester: claimed in its map, its own, or lost by that device. -/
def State.taken (s : State) (uid a : Nat) : Bool :=
  s.fab.addr = some a || (s.fab.map.any fun e => e.lsa.addr.map (·.toNat) = some a) ||
    s.fab.forbiddenAddrs.any fun x => x.1 = uid && x.2 = a

/-- ADDRESS_REQUEST (R256, R257): the root assigns the lowest free address. -/
def execAddressRequest (port : Fin 8) (uid : BitVec 64) (lost : Option (BitVec 14)) (s : State) : Out :=
  .next (if s.tim.st = .root ∧ s.supWorks then
      let s := s.leaveIdle
      let s := match lost with
        | some a => { s with fab := { s.fab with forbiddenAddrs := s.fab.forbiddenAddrs ++ [(uid.toNat, a.toNat)] } }
        | none => s
      match (List.range 16384).find? fun a => !s.taken uid.toNat a with
      | some a => s.sendLink port.val 4 0x0A [2, uid.toNat, a] 16
      | none => s
    else s)

/-- The device takes an address (R256, R274). DEDUCED (logs 82, 93). -/
def State.takeAddr (s : State) (a : Nat) : State :=
  let old := orMinus1 (s.fab.addr.or s.fab.oldAddr)
  let s := { s with fab := { s.fab with addr := some a, claimMs := s.tim.msNum, asking := false, routesDue := true,
                                        oldAddr := none },
                    alm := { s.alm with onAddr := true } }
  (s.flood).waymark 0x10 [old, a]

def execAddressAssign (addr : BitVec 14) (s : State) : Out :=
  .next (if s.fab.addr.isNone ∧ s.fab.asking ∧ s.supWorks then s.leaveIdle.takeAddr addr.toNat else s)

/-! ### Routes (R258, R260) -/

/-- A candidate next hop: total cost, its address, its port, its own distance, and hops. -/
structure Hop where
  total : Nat
  addr : Nat
  port : Nat
  dist : Nat
  hops : Nat

/-- Order of next hops: least cost, then lower address, then lower port (R258). -/
def Hop.before (x y : Hop) : Bool :=
  x.total < y.total || (x.total = y.total && (x.addr < y.addr || (x.addr = y.addr && x.port < y.port)))

/-- The best of some next hops. -/
def bestHop (l : List Hop) : Option Hop :=
  l.foldl (fun m x => match m with
    | none => some x
    | some y => if x.before y then some x else m) none

/-- The next hops towards a destination. -/
def State.hopsFor (s : State) (dest : Nat) : List Hop :=
  let t := s.distTo dest
  (List.range 8).filterMap fun p =>
    match s.peerOf p with
    | none => none
    | some q =>
      if s.flag (ra .fabPort p 0x040) 3 && q ≠ dest then none
      else match Dist.at t q with
        | none => none
        | some (d, h) => some ⟨s.portCost p + d, q, p, d, h + 1⟩

/-- Words 0 and 1 of the routing entry that the supervisor computes for a destination. -/
def State.routeWords (s : State) (dest : Nat) : Word × Word :=
  let hs := s.hopsFor dest
  match bestHop hs with
  | none => (0, 0)
  | some b =>
    let alt := bestHop (hs.filter fun x => x.port ≠ b.port && x.dist < b.total)
    let w := 1 + b.port * 4 + (match alt with
      | some x => x.port * 64 + 512
      | none => 0) + min b.hops 63 * 1024
    (BitVec.ofNat 32 w, BitVec.ofNat 32 b.total)

/-- Writes a routing entry that is not pinned (R258). -/
def State.setRoute (s : State) (dest : Nat) (w : Word × Word) : State :=
  let a := TableId.routing.addr dest 0
  if s.flag a 1 then s else (s.setReg a w.1).setReg (a + 4) w.2

/-- ROUTE_COMPUTATION (R258, R261): the routing table follows the map; a session whose route changed asks again, and so do those
that were refused (R269). -/
def execRouteComputation (s : State) : Out :=
  .next (if s.fab.routesDue ∧ s.supWorks ∧ (s.pwr.st = .run ∨ s.pwr.st = .idle) ∧ s.pwr.live then
      let before := s.fab.sessions.map fun x => (x.num, s.routeTo x.peer)
      let dests := s.fab.map.filterMap fun e => e.lsa.addr.map (·.toNat)
      let stale := (s.rows .routing 0).filter fun d => !dests.contains d
      let s1 := s.each stale fun s d => s.setRoute d (0, 0)
      let s1 := s1.each dests fun t d => t.setRoute d (s.routeWords d)
      let s1 := match s1.fab.addr with
        | some a => s1.setRoute a (0x21, 0)
        | none => s1
      let s1 := { s1 with fab := { s1.fab with routesDue := false } }
      let off := fun (x : Admit) => x.origin.isSome && s1.routeTo x.dest ≠ some x.port
      let s1 := s1.each (s1.fab.admits.filter off) fun t (x : Admit) => (t.unadmit (· = x)).freeOnward x
      let s1 := s1.each before fun t x =>
        match t.session x.1 with
        | some y => if (y.granted ≠ 0 ∨ y.asked) ∧ t.routeTo y.peer ≠ x.2 then t.askRsv y else t
        | none => t
      s1.askAgain.deliverPending
    else s)

/-- The reference of the PLL (R16, R17). -/
inductive PllRef where
  /-- The clock CKA. -/
  | cka
  /-- The recovered clock of a lane of a port, divided by 12. -/
  | lane (port lane : Nat)
  /-- None: the last frequency is held. -/
  | held
  deriving DecidableEq, Repr

/-- The lowest-numbered lane in use of a port: a link of width 2 uses the upper pair of lanes where the lower one is not
whole, one of width 1 the lowest good lane (R244). -/
def FabPort.lowLane (v : FabPort) : Nat :=
  let good := fun (k : Nat) => v.lanes.getLsbD k
  if v.width = 2 && !(good 0 && good 1) then 2 else ((List.range 4).find? good).getD 0

/-- The reference of the PLL: CKA for a root and a device in no fabric, for a member the recovered clock of the
lowest-numbered lane in use of its time-parent link, and while it has no such link none (R16, R17, R244).
DEDUCED (log 117). -/
def State.pllReference (s : State) : PllRef :=
  if s.tim.member then
    match s.fab.parent with
    | some p => if (s.fport p).carries then .lane p (s.fport p).lowLane else .held
    | none => .held
  else .cka

/-- TIME_PARENT_CHOICE (R16, R17, R260): the choice decides the reference of the PLL (`State.pllReference`). -/
def execTimeParentChoice (s : State) : Out :=
  .next (if s.tim.st = .root ∨ !s.supWorks then s
    else match s.parentChoice s.tim.rootAddr with
      | some (_, p, h) => { s with fab := { s.fab with parent := some p, hops := h } }
      | none => { s with fab := { s.fab with parent := none } })

/-! ### Reservations at a hop (R261, R262, R310) -/

/-- A hop decides a request, which replaces one of the same session: the sink grants it; a hop admits it and passes it on, or
refuses it to the device that asks. A request for no slots frees them along the route. DESIGN CHOICE (log 133). -/
def State.hopRequest (s : State) (n : Nat) (h : RsvHop) (slots t : Nat) : State :=
  let o := h.origin.toNat
  let d := h.dest.toNat
  let mine := fun (x : Admit) => x.session = n && x.origin = some o
  let held := s.fab.admits.find? mine
  let s := s.unadmit mine
  let no := fun (s : State) (why : Nat) => s.sendTo 4 0x0A o n [4, n, why] 16
  if slots = 0 then
    (match held with
     | some a => s.freeOnward a
     | none => s)
  else if s.fab.addr = some d then s.sendTo 4 0x0A o n [3, n, slots] 16
  else match s.transit h.ingress.val d with
    | none => no s 3
    | some q =>
      match s.rsvBar q t slots with
        | some why => no s why
        | none =>
          let s := s.addAdmit { port := q, session := n, tenant := t, slots := slots, origin := some o, dest := d }
          s.sendTo 4 0x0A d n [1, n, slots, t, o] 16

/-- RESERVATION_REQUEST at a hop (R261, R310): it stays pending while the supervisor does not run, in Sleep too (R350). -/
def execReservationRequest (session : BitVec 11) (hop : RsvHop) (slots : Nat) (tenant : BitVec 8) (s : State) : Out :=
  let s := s.leaveIdle
  .next (if !s.supWorks then
      { s with fab := { s.fab with rsvWait := s.fab.rsvWait ++ [(session.toNat, hop, slots, tenant.toNat)] } }
    else s.hopRequest session.toNat hop slots tenant.toNat)

/-- Requests that waited for the supervisor (R261). -/
def State.heldRequests (s : State) : State :=
  if !s.supWorks then s
  else
    let l := s.fab.rsvWait
    let s := { s with fab := { s.fab with rsvWait := [] } }
    let s := s.each l fun s x => s.hopRequest x.1 x.2.1 x.2.2.1 x.2.2.2
    s.each (s.fab.sessions.filter fun x => x.askDue && x.st = SessSt.open_) fun s x =>
      match s.session x.num with
      | some y => s.askRsv y
      | none => s

def execReservationGrant (session : BitVec 11) (slots : Nat) (s : State) : Out :=
  .next (match s.session session.toNat with
    | some x => if x.asked ∧ s.awake then s.leaveIdle.setSession { x with asked := false, granted := slots } else s
    | none => s)

/-- RESERVATION_REFUSE (R261, R262): a hop refuses or withdraws; the slots admitted up to it are freed, and what waits goes on
TC3. -/
def execReservationRefuse (session : BitVec 11) (reason : BitVec 2) (s : State) : Out :=
  let n := session.toNat
  .next (match s.session n with
    | some x =>
      if (x.asked ∨ x.granted ≠ 0) ∧ s.awake then (((s.leaveIdle).freeRsv n).unreserve n).refuseRsv n reason.toNat else s
    | none => s)

/-- ROOT_LOST (R268): no accepted frame for 8 milestones; the device advertises that it has no root. -/
def execRootLost (s : State) : Out :=
  .next (if s.tim.member ∧ 8 ≤ s.tim.sinceFrame ∧ !s.fab.electDue then
      let s := { s with fab := { s.fab with parted := true, electDue := true, hadRoot := true, parent := none, asking := false } }
      ((s.stick .fabDisc 0 9).waymark 0x11 [s.tim.rootAddr]).flood
    else s)

/-! ### Counters read and cleared (R270) -/

/-- A full-word read of a counter that it clears (RS, R23). -/
def State.readClear (s : State) (a : Nat) : State := (s.answerWith (.data (s.reg a))).setReg a 0

def execFabPretryRead (a : Acc) (port : Fin 8) (s : State) : Out :=
  let r := ra .fabPort port.val 0x048
  .next (s.guardedRead a r fun s => s.readClear r)

def execFabPtagfRead (a : Acc) (port : Fin 8) (s : State) : Out :=
  let r := ra .fabPort port.val 0x04C
  .next (s.guardedRead a r fun s => s.readClear r)

def execFabPqpeakRead (a : Acc) (port : Fin 8) (s : State) : Out :=
  let r := ra .fabPort port.val 0x050
  .next (s.guardedRead a r fun s => s.readClear r)

def execFabPdropRead (a : Acc) (port : Fin 8) (s : State) : Out :=
  let r := ra .fabPort port.val 0x058
  .next (s.guardedRead a r fun s => s.readClear r)

end Sys2Proof.Machine
end

