-- ==== Sys2Proof/Machine/Reset.lean ====
section
/-! DEFINITION. Cold and AON power-on resets (R18, R360): what they clear and what the AON domain keeps. -/

namespace Sys2Proof.Machine

open Sys2Proof

/-- The registers of the AON domain (R18, R361, R365 and the THM table). -/
def aonRegs : List Nat :=
  [ra .lpddr 0 0x040, ra .pwr 0 0x04C, ra .pwr 0 0x050, ra .pwr 0 0x060, ra .pwr 0 0x064,
    ra .thm 0 0x04C, ra .thm 0 0x054, ra .thm 0 0x058, ra .thm 0 0x05C]

/-- A reset of every domain but AON (R18). What stands in external memory comes back under R287 by the saved index
alone; the flash keeps its content; the logs of what has left the device go on. Causes recorded since the last start count with
the new one: the higher-numbered is reported (R360). -/
def State.coldReset (s : State) (cause : Nat) : State :=
  { State.reset with
    pending := s.pending
    flash := s.flash
    frames := s.frames
    regs := s.regs.filter fun p => aonRegs.contains p.1
    spe := { State.reset.spe with emitted := s.spe.emitted }
    int := { State.reset.int with out := s.int.out }
    lake := { State.reset.lake with index := s.lake.index }
    upd := { State.reset.upd with firstDue := s.upd.firstDue, markDue := s.upd.markDue, versionLeft := s.upd.versionLeft }
    pwr := { State.reset.pwr with recCause := max cause s.pwr.recCause,
                                  recPf := s.pwr.recPf, recRet := s.pwr.recRet,
                                  cameFrom := if s.pwr.st = .run then s.pwr.cameFrom else some (pwrCode s.pwr.st) } }

/-- The AON power-on reset clears the AON records too (R18, R358). -/
def State.aonReset (s : State) : State :=
  let s := { s with regs := [], lake := { s.lake with index := none, segs := [] } }
  let s := { s with pwr := State.reset.pwr, upd := State.reset.upd }
  let s := s.coldReset 0
  { s with pwr := { s.pwr with recCause := 0 } }

/-- Codes of PWR_RSTAT.CAUSE (R361). -/
def coldCode : ColdCause → Nat
  | .resetN => 1 | .thermal => 2 | .powerFail => 3 | .escalation => 4 | .wakeOff => 6 | .retLoss => 7

def execAonPowerOnReset (s : State) : Out := .next s.aonReset

/-- COLD_RESET (R18, R400): in Off it does nothing, since Off is left by WAKE or the end of a hold-off alone (R346, R358, R359,
R370). DEDUCED (log 149). -/
def execColdReset (c : ColdCause) (s : State) : Out :=
  .next (if s.pwr.st = .off then s else s.coldReset (coldCode c))

/-! ### Ends of a requester's holds (R40, R42, R43) -/

/-- A lock is released, its image discarded, and LOCK_BROKEN set (R40). -/
def State.breakLock (s : State) (page : Nat) : State :=
  if (s.lockOf page).isSome then
    ({ s with acc := { s.acc with locks := s.acc.locks.filter fun l => l.page ≠ page } }).stickPage page 0
  else s

/-- Every lock, latch and held low word of a requester ends (R40, R42, R43). Its time shadow stays: R222 names no end of it.
DESIGN CHOICE (log 143). -/
def State.dropRequester (s : State) (req : Nat) : State :=
  let s := s.each (s.acc.locks.filter fun l => l.holder = req) fun s l => s.breakLock l.page
  { s with acc := { s.acc with latches := s.acc.latches.filter fun l => l.req ≠ req,
                               lows := s.acc.lows.filter fun l => l.req ≠ req } }

end Sys2Proof.Machine
end

