-- ==== Sys2Proof/Machine/Lake.lean ====
section
/-! DEFINITION. The lake (chapter 12): retention limits, replicas, copies that differ, captures, and delivery of what the
lake has kept. -/

namespace Sys2Proof.Machine

open Sys2Proof

/-- LAK BLK_STICKY. -/
def State.lakStick (s : State) (n : Nat) : State := s.stick .lak 0 n

/-! ### Retention (R279, R281) -/

/-- The slot is free and the release goes to the holders (R279). -/
def State.releasable (s : State) (g : Segment) : Bool :=
  g.sealed && g.claims.isEmpty && !g.conflicting &&
    decide (g.sealMs + s.fld (ra .lak 0 0x044) 0 16 * 1024 ≤ s.tim.msCount)

/-- Releases every sealed segment that R279 lets go. -/
def State.releaseSegs (s : State) : State :=
  s.each (s.lake.segs.filter s.releasable) fun s g => s.dropSeg g

/-- Ends every claim on a segment by giving its records up (R266, R281, R289). -/
def State.giveUpSeg (s : State) (num : Nat) : State :=
  let gu := ((s.lake.segs.filter fun g => g.num = num).flatMap Segment.claims).eraseDups
  let s := { s with lake := { s.lake with segs := s.lake.segs.map fun (g : Segment) =>
    if g.num = num then { g with kept := g.kept.map fun (k : Kept) => { k with claims := [] } } else g } }
  s.giveUp gu

/-- Releases a segment that R279 lets go. -/
def State.releaseNow (s : State) (num : Nat) : State :=
  match s.lake.segs.find? fun g => g.num = num && s.releasable g with
  | some g => s.dropSeg g
  | none => s

/-- MAXAGE_GIVE_UP (R281): at the milestone MAXAGE × 2^16 milestones after the sealing, or later, the claims left are given up and
the segment is released under R279. -/
def execMaxageGiveUp (seg : Nat) (s : State) : Out :=
  let age := s.fld (ra .lak 0 0x040) 16 16
  .next (match s.lake.segs.find? fun g => g.num = seg with
    | none => s
    | some g =>
      if age ≠ 0 ∧ g.sealed ∧ !g.conflicting ∧ !g.claims.isEmpty ∧ g.sealMs + age * 2 ^ 16 ≤ s.tim.msCount then
        ((s.giveUpSeg seg).lakStick 9).releaseNow seg
      else s)

/-! ### Holders (R284 to R286) -/

/-- An address that LAK_FORBID excludes. -/
def State.lakForbids (s : State) (a : Nat) : Bool :=
  (List.range 8).any fun i =>
    let w := s.reg (ra .lak 0 (0x060 + 4 * i))
    bit w 15 && bits w 0 14 = a

/-- A candidate of R284: address, port, free replica slots. -/
structure Candidate where
  addr : Nat
  port : Nat
  free : Nat

/-- A candidate that may be chosen: the peer on an up port, allowed, with free replica space, not yet a holder. -/
def State.eligibleHolder (s : State) (c : Candidate) : Bool :=
  s.peerOf c.port = some c.addr && !s.lakForbids c.addr && c.free ≠ 0 && !(s.lake.holders.any fun h => h.2.1 = c.addr)

/-- Order of candidates: another port than the other holder's, more free space, the lower address. -/
def Candidate.before (used : List Nat) (x y : Candidate) : Bool :=
  let a := used.contains x.port
  let b := used.contains y.port
  if a = b then x.free > y.free || (x.free = y.free && x.addr < y.addr) else b

/-- The best of some candidates. -/
def bestHolder (used : List Nat) (l : List Candidate) : Option Candidate :=
  l.foldl (fun m x => match m with
    | none => some x
    | some y => if x.before used y then some x else m) none

/-- Unreleased replicated segments, lowest number first, conflicting ones too (R286). -/
def State.replicatedSegs (s : State) : List Segment :=
  let ins := fun (g : Segment) (l : List Segment) =>
    (l.filter fun x => x.num < g.num) ++ [g] ++ l.filter fun x => !(x.num < g.num)
  (s.lake.segs.filter fun g => g.replicated).foldr ins []

/-- Sends whole segments to a holder on TC3. -/
def State.sendWhole (s : State) (addr : Nat) (g : Segment) : State :=
  s.sendParts 3 0x05 addr 0xFFFF [5, g.num, g.issue] (s.segBytes g)

/-- A candidate becomes holder `i` and gets every unreleased replicated segment. -/
def State.takeHolder (s : State) (i : Nat) (c : Candidate) : State :=
  let s := { s with lake := { s.lake with holders := s.lake.holders ++ [(i, c.addr, c.port)],
                                          holderAge := kset s.lake.holderAge i 0 0,
                                          lost := s.lake.lost.filter (· ≠ c.addr) } }
  let s := s.waymark 0x19 [i, c.addr]
  s.each s.replicatedSegs fun s g => s.sendWhole c.addr g

/-- Fills the places 0 and 1 that are empty from the candidates that accept. -/
def State.fillHolders (s : State) (cands : List Candidate) : State :=
  s.upTo 2 fun s i =>
    if s.lake.holders.any fun h => h.1 = i then s
    else match bestHolder (s.lake.holders.map (·.2.2)) (cands.filter s.eligibleHolder) with
      | some c => s.takeHolder i c
      | none => s

/-- A holder refuses: it answers, for a push, that its replica space has no room (R285). DESIGN CHOICE (log 151). -/
def refuses (cs : List Candidate) (h : Nat × Nat × Nat) : Bool := cs.any fun c => c.addr = h.2.1 && c.free = 0

/-- A holder that refuses, or that LAK_FORBID excludes by now, loses its place (R284, R285). -/
def State.refusedBy (s : State) (cs : List Candidate) : State :=
  let full := fun (h : Nat × Nat × Nat) => refuses cs h || s.lakForbids h.2.1
  { s with lake := { s.lake with holders := s.lake.holders.filter fun h => !full h
                                 lost := s.lake.lost ++ (s.lake.holders.filter full).map fun h => h.2.1 } }

/-- REPLICA_CHOICE (R284): offers go out, and the candidates' answers fill the empty places. The choice is repeated after 1,024
milestones, and at once where a holder refuses or is lost. -/
def execReplicaChoice (cands : List (BitVec 14 × Fin 8 × Nat)) (s : State) : Out :=
  let cs := cands.map fun c => (⟨c.1.toNat, c.2.1.val, c.2.2⟩ : Candidate)
  let refused := s.lake.holders.any (refuses cs)
  .next (if !(s.pwr.live && (s.pwr.st = .run || s.pwr.st = .idle)) || !s.sup.running || (s.lake.choiceIn ≠ 0 && !refused) then s
    else
      let before := s.lake.holders.map (·.1)
      let s := s.refusedBy cs
      let s : State := { s with lake := { s.lake with choiceIn := 1024 } }
      let s := if s.lake.holders.length < 2 then
          s.each (cs.filter fun c => !s.lakForbids c.addr && s.peerOf c.port = some c.addr) fun s c =>
            s.sendTo 3 0x05 c.addr 0xFFFF [0, s.uid] 16
        else s
      let s := s.fillHolders cs
      let gone := before.filter fun i => !(s.lake.holders.any fun h => h.1 = i)
      let s := s.each gone fun s i => s.waymark 0x19 [(i : Int), -1]
      if s.lake.holders.length < 2 then s.lakStick 11 else s)

/-- Numbers of the slots that hold replicas for other devices (R275). -/
def State.replicaSlots (s : State) : List Nat := (List.range s.rspace).map fun i => s.slotNo (s.ownSpace + i)

/-- A free replica slot. -/
def State.freeReplica (s : State) : Option Nat :=
  s.replicaSlots.find? fun k => !s.slotFull k

/-- Free replica slots (LAK_STAT.RFREE). -/
def State.rfree (s : State) : Nat :=
  (s.replicaSlots.filter fun k => !s.slotFull k).length

/-- REPLICA_OFFER (R284): accepted only while replica space is free. -/
def execReplicaOffer (peer : BitVec 14) (uid : BitVec 64) (s : State) : Out :=
  .next (if !s.pwr.live || !s.supWorks then s
    else s.sendTo 3 0x05 peer.toNat 0xFFFF [if s.rfree = 0 then 2 else 1, uid.toNat, s.rfree] 16)

/-- Adds a copy for another device, or refuses it for want of room. -/
def State.addReplica (s : State) (peer : Nat) (c : SegCopy) (conflicting : Bool) : State :=
  match s.freeReplica with
  | some k => { s with lake := { s.lake with replicas :=
      s.lake.replicas ++ [⟨k, c.uid.toNat, c.num, c.issue, c.digest, conflicting, c⟩] } }
  | none => s.sendTo 3 0x05 peer 0xFFFF [2, c.uid.toNat, c.num] 16

/-- Copies of one segment held for another device. -/
def State.copiesOf (s : State) (uid num : Nat) : List Replica :=
  s.lake.replicas.filter fun r => r.uid = uid && r.num = num

/-- PUSH_RECEIVE (R285): accepted with the previous issue held, an intact copy and room; else the whole segment is
asked for. A push carries the records that are new. DEDUCED (log 45). -/
def execPushReceive (peer : BitVec 14) (c : SegCopy) (s : State) : Out :=
  let ask := fun (s : State) => s.sendTo 3 0x05 peer.toNat 0xFFFF [4, c.uid.toNat, c.num] 16
  .next (if !(s.pwr.live && s.awake) then s
    else if !c.intact then ask (s.lakStick 13)
    else match s.copiesOf c.uid.toNat c.num with
      | [] => if c.issue = 1 then s.addReplica peer.toNat c false
        else if s.rfree = 0 then s.addReplica peer.toNat c false else ask s
      | [r] =>
        if r.issue + 1 = c.issue then
          { s with lake := { s.lake with replicas := s.lake.replicas.map fun (x : Replica) =>
            if x.slot = r.slot then { x with issue := c.issue, digest := c.digest,
                                             copy := { c with records := x.copy.records ++ c.records } } else x } }
        else ask s
      | _ => ask s)

/-- SEGMENT_REQUEST (R285): the originator sends the whole segment. -/
def execSegmentRequest (peer : BitVec 14) (seg : Nat) (s : State) : Out :=
  .next (if !(s.pwr.live && (s.pwr.st = .run || s.pwr.st = .idle)) then s
    else match s.lake.segs.find? fun g => g.num = seg && g.replicated && !g.conflicting with
      | some g => s.sendWhole peer.toNat g
      | none => s)

/-- HOLDER_LOST (R286): unreachable for 64 consecutive milestones; REPLICA_CHOICE finds its replacement. -/
def execHolderLost (i : Fin 2) (s : State) : Out :=
  .next (match s.lake.holders.find? fun h => h.1 = i.val with
    | none => s
    | some h =>
      if 64 ≤ kget s.lake.holderAge i.val 0 then
        let s := { s with lake := { s.lake with holders := s.lake.holders.filter fun x => x.1 ≠ i.val,
                                                holderAge := kset s.lake.holderAge i.val 0 0,
                                                lost := s.lake.lost ++ [h.2.1], choiceIn := 0 } }
        s.waymark 0x19 [i.val, -1]
      else s)

/-- SEGMENT_RELEASE_RECEIVE (R286): the copy is freed; a conflicting one stays (R288). -/
def execSegmentReleaseReceive (peer : BitVec 14) (uid : BitVec 64) (num : Nat) (s : State) : Out :=
  let from_ := s.fab.map.any fun e => e.lsa.uid = uid && e.lsa.addr = some peer
  .next (if from_ ∧ s.awake then
      { s with lake := { s.lake with replicas := s.lake.replicas.filter fun r =>
        !(r.uid = uid.toNat && r.num = num && !r.conflicting) } }
    else s)

/-- With the index lost, every device that can be reached is asked once for the highest number that it holds for this device;
COPY_RECEIVE brings the answers (R287). -/
def State.askHighest (s : State) : State :=
  if !s.lake.indexLost then s
  else
    let ds := (s.fab.map.filterMap fun e => e.lsa.addr.map (·.toNat)).filter fun a =>
      (s.routeTo a).isSome && !s.lake.topAsked.contains a
    let s := { s with lake := { s.lake with topAsked := s.lake.topAsked ++ ds } }
    s.each ds fun s a => s.sendTo 3 0x05 a 0xFFFF [9, s.uid] 16

/-- A conflict whose originator has become reachable is put to it, and its answer decides (R288, R289). -/
def State.askOriginators (s : State) : State :=
  let at_ := fun (u : Nat) => (s.fab.map.find? fun e => e.lsa.uid.toNat = u).bind fun e => e.lsa.addr.map (·.toNat)
  let near := fun (x : Nat × Nat) => (at_ x.1).any fun a => (s.routeTo a).isSome
  let all := ((s.lake.replicas.filter fun (r : Replica) => r.conflicting).map fun (r : Replica) => (r.uid, r.num)).eraseDups.filter near
  let due := all.filter fun x => !s.lake.confAsked.contains x
  let s := { s with lake := { s.lake with confAsked := all } }
  s.each due fun s x => s.sendTo 3 0x05 ((at_ x.1).getD 0) 0xFFFF [4, (x.1 : Int), (x.2 : Int)] 16

/-- Releases owed to holders that have become reachable again (R286), recovery requests to reachable holders (R287), and
conflicts that an originator can decide again (R289). In Sleep, and without an address, they wait (R256, R283). -/
def State.sendOwed (s : State) : State :=
  if !s.awake || s.fab.addr.isNone then s
  else
  let now := fun (o : Nat × Nat) => (s.routeTo o.1).isSome
  let rel := s.lake.owed.filter now
  let ask := s.lake.asks.filter now
  let s := { s with lake := { s.lake with owed := s.lake.owed.filter fun o => !now o
                                          asks := s.lake.asks.filter fun o => !now o } }
  let s := s.each rel fun s o => s.sendTo 3 0x05 o.1 0xFFFF [6, o.2] 16
  let s := s.each ask fun s o => s.sendTo 3 0x05 o.1 0xFFFF [7, o.2] 16
  (s.askHighest).askOriginators

/-- The bytes of a copy held for another device. -/
def Replica.bytes (r : Replica) : List Byte :=
  let c := r.copy
  let h : SegHead := { uid := r.uid, origin := c.origin.toNat, replicated := true, tenant := c.tenant, num := r.num
                       issue := r.issue, sealed := c.closed, conflicting := r.conflicting
                       bytes := (c.records.map Record.bytes).sum, sec := ((c.records.head?).map (·.sec)).getD 0
                       frac := ((c.records.head?).map (·.frac)).getD 0, madeMs := c.madeMs.toNat, part := none }
  segImage h (recBody c.records) (leBytes c.sig.toNat 96).reverse

/-- RECOVERY_REQUEST (R287): a holder answers with every intact copy, or that it holds none. -/
def execRecoveryRequest (peer : BitVec 14) (uid : BitVec 64) (num : Nat) (s : State) : Out :=
  .next (if !(s.pwr.live && s.awake) then s
    else match s.copiesOf uid.toNat num with
      | [] => s.sendTo 3 0x05 peer.toNat 0xFFFF [8, uid.toNat, num] 16
      | rs => s.each rs fun s r => s.sendParts 3 0x05 peer.toNat 0xFFFF [5, r.num, r.issue] r.bytes)

/-! ### Copies that differ (R288, R289) -/

/-- Waymark 0x18, LAK_CONF and CONFLICT of a conflict. -/
def State.conflict (s : State) (uid num : Nat) : State :=
  (s.lakStick 14).waymark 0x18 [uid % 2 ^ 32, uid / 2 ^ 32, num % 2 ^ 32, num / 2 ^ 32]

/-- Segments in conflict (LAK_CONF.COUNT). -/
def State.conflicts (s : State) : Nat :=
  let ids := ((s.lake.segs.filter (·.conflicting)).map fun g => (s.uid, g.num)) ++
    (s.lake.replicas.filter (·.conflicting)).map fun r => (r.uid, r.num)
  ids.eraseDups.length

/-- The received copy is the originator's own. -/
def State.fromOriginator (s : State) (peer : BitVec 14) (c : SegCopy) : Bool :=
  s.fab.map.any fun e => e.lsa.uid = c.uid && e.lsa.addr = some peer

/-- The address that a device holds by the map. -/
def State.addrOf (s : State) (uid : Nat) : Nat := ((s.fab.map.find? fun e => e.lsa.uid.toNat = uid).bind fun e => e.lsa.addr.map (·.toNat)).getD 0

/-- A copy held for another device meets one that arrives (R288): the higher issue wins, then the originator's copy;
an originator that can be reached is asked, and both copies wait for its answer; else all stay, conflicting.
DEDUCED (log 45). -/
def State.foreignCopy (s : State) (peer : BitVec 14) (c : SegCopy) (reachable : Bool) : State :=
  let uid := c.uid.toNat
  let held := s.copiesOf uid c.num
  let others := s.lake.replicas.filter fun r => !(r.uid = uid && r.num = c.num)
  let keep := fun (s : State) (rs : List Replica) => { s with lake := { s.lake with replicas := others ++ rs } }
  match held with
  | [] => s.addReplica peer.toNat c false
  | h :: _ =>
    let top := held.foldl (fun m r => max m r.issue) c.issue
    let best := held.filter fun r => r.issue = top
    let new : Replica := ⟨h.slot, uid, c.num, c.issue, c.digest, false, c⟩
    if c.issue = top ∧ (best.isEmpty ∨ s.fromOriginator peer c) then keep s [new]
    else if best.any fun r => r.issue = c.issue ∧ r.digest = c.digest then s
    else if c.issue < top then
      match best with
      | [r] => keep s [{ r with conflicting := false }]
      | _ => s
    else if reachable then
      ((keep s best).addReplica peer.toNat c false).sendTo 3 0x05 (s.addrOf uid) 0xFFFF [4, uid, c.num] 16
    else
      let fresh := !(held.any fun r => r.conflicting)
      let s := keep s (best.map fun (r : Replica) => { r with conflicting := true })
      let s := s.addReplica peer.toNat c true
      if fresh then s.conflict uid c.num else s

/-- The originator holds no intact copy: the copies that differ stay, conflicting (R288). -/
def State.noOriginal (s : State) (uid num : Nat) : State :=
  let held := s.copiesOf uid num
  if held.length < 2 ∨ held.any (fun (r : Replica) => r.conflicting) then s
  else
    let mark := fun (r : Replica) => if r.uid = uid && r.num = num then { r with conflicting := true } else r
    ({ s with lake := { s.lake with replicas := s.lake.replicas.map mark } }).conflict uid num

/-- A session has acknowledged a record of a stream. -/
def State.hasAcked (s : State) (n stream seq : Nat) : Bool :=
  match (s.session n).bind fun x => x.sub stream with
  | some u => decide (2 ^ 31 ≤ seqAhead seq u.acked)
  | none => false

/-- The claims on a record of a recovered segment: those the index lists, unless they have been acknowledged since; without an
index every session subscribed to its stream, for then it counts as unacknowledged (R287). DEDUCED (log 42). -/
def State.recoveredClaims (s : State) (num : Nat) (r : Record) : List Nat :=
  match s.lake.recovering.find? fun g => g.num = num with
  | some g =>
    ((g.kept.filter fun k => k.record.stream = r.stream && k.record.seqNo = r.seqNo).flatMap (·.claims)).filter fun n =>
      !s.hasAcked n r.stream r.seqNo
  | none => (s.subscribers r.stream).map (·.num)

/-- The own segment that a copy brings back. -/
def State.segmentOf (s : State) (c : SegCopy) (slot : Nat) (conflicting : Bool) : Segment :=
  let rs := c.records
  { num := c.num, slot := slot, tenant := c.tenant, replicated := true, issue := c.issue, pushed := rs.length + 1,
    sealed := true, sealMs := s.tim.msCount, bytes := (rs.map Record.bytes).sum, conflicting := conflicting,
    kept := rs.map fun r => { record := { r with flags := r.flags &&& 0xBF }, claims := s.recoveredClaims c.num r },
    origin := c.origin.toNat, madeMs := c.madeMs.toNat, digest := some c.digest }

/-- Records of a segment that open sessions claim and that lie below what they get next go out on TC3 with the recovered flag
(R283, R287). -/
def State.deliverPast (s : State) (g : Segment) : State :=
  s.each (g.kept.flatMap fun k => k.claims.map fun n => (n, k.record)) fun s x =>
    match s.session x.1 with
    | none => s
    | some y => match y.sub x.2.stream with
      | none => s
      | some u =>
        if y.st = SessSt.open_ ∧ 2 ^ 31 ≤ seqAhead x.2.seqNo u.next then (s.markSent y.num x.2).sendRecord y 3 x.2 true
        else s

/-- Delivers a recovered segment, with the recovered flag. -/
def State.deliverSeg (s : State) (g : Segment) : State := (s.deliverPast g).catchUpAll true

/-- Adds a recovered segment, and delivers it unless it conflicts. -/
def State.addRecovered (s : State) (c : SegCopy) (conflicting : Bool) : State :=
  let (s, k, gu) := s.makeRoom c.tenant true
  match k with
  | none => s.giveUp gu
  | some slot =>
    let g := s.segmentOf c slot conflicting
    let s := { s with lake := { s.lake with segs := s.lake.segs ++ [g] } }
    let s := s.giveUp gu
    if conflicting then s else s.deliverSeg g

/-- A copy of an own segment arrives (R287, R288): the own copy that was never lost wins an equal issue; recovered
copies that differ at one issue conflict, for the originator then holds no intact copy of its own.
DEDUCED (log 42). -/
def State.ownCopy (s : State) (c : SegCopy) : State :=
  let held := s.lake.segs.filter fun g => g.num = c.num
  let others := s.lake.segs.filter fun g => g.num ≠ c.num
  match held with
  | [] => s.addRecovered c false
  | h :: _ =>
    let top := held.foldl (fun m g => max m g.issue) 0
    if top < c.issue then
      let g := s.segmentOf c h.slot false
      ({ s with lake := { s.lake with segs := others ++ [g] } }).deliverSeg g
    else if c.issue < top ∨ held.any fun g => g.digest = none ∨ g.digest = some c.digest then s
    else
      let fresh := !(held.any fun g => g.conflicting)
      let s := { s with lake := { s.lake with segs := others ++ held.map fun (g : Segment) => { g with conflicting := true } } }
      let s := s.addRecovered c true
      if fresh then s.conflict s.uid c.num else s

/-- The claims on records of a segment that no copy has brought back. -/
def State.lostClaims (s : State) (g : Segment) : GiveUps :=
  let back := fun (k : Kept) => s.lake.segs.any fun x => x.num = g.num && x.kept.any fun y =>
    y.record.stream = k.record.stream && y.record.seqNo = k.record.seqNo
  (g.kept.filter fun k => !back k).flatMap fun k =>
    (k.claims.filter fun n => !s.hasAcked n k.record.stream k.record.seqNo).map fun n => (k.record.stream, n, k.record.seqNo)

/-- Every holder has answered for a segment: what none has brought back is given up, with RECOVER_FAIL (R287). -/
def State.endRecovery (s : State) (g : Segment) : State :=
  let gu := s.lostClaims g
  let s := { s with lake := { s.lake with recovering := s.lake.recovering.filter fun x => x.num ≠ g.num,
                                          noCopy := kdel s.lake.noCopy g.num } }
  if gu.isEmpty then s else (s.giveUp gu).lakStick 12

/-- A holder has answered for a segment, with a copy or that it holds none; an unanswered request waits (R287). -/
def State.holderAnswer (s : State) (peer num : Nat) : State :=
  match s.lake.recovering.find? fun g => g.num = num with
  | none => s
  | some g =>
    let said := (peer :: (kget s.lake.noCopy num [])).eraseDups
    if s.lake.holders.all fun h => said.contains h.2.1 then s.endRecovery g
    else { s with lake := { s.lake with noCopy := kset s.lake.noCopy num said [] } }

/-- With the index lost, segments begun since the start take numbers above the highest that an answer shows (R287). Nothing has
been pushed of them yet (`State.numbersOpen`). DEDUCED (log 42). -/
def State.liftNumbers (s : State) (top : Nat) : State :=
  let new := fun (g : Segment) => g.digest.isNone && g.issue = 0
  let caps := s.lake.captures ++ s.lake.building.toList
  let low := ((s.lake.segs.filter new).map (·.num) ++ caps.map fun (c : Capture) => c.firstSeg).foldl min s.lake.nextSeg
  let by_ := if s.lake.indexLost then top + 1 - low else 0
  let cap := fun (c : Capture) => { c with firstSeg := c.firstSeg + by_ }
  { s with lake := { s.lake with
    nextSeg := max (s.lake.nextSeg + by_) (top + 1)
    segs := s.lake.segs.map fun (g : Segment) => if new g then { g with num := g.num + by_ } else g
    captures := s.lake.captures.map cap, building := s.lake.building.map cap } }

/-- A device has answered which highest number it holds (R287). -/
def State.topAnswer (s : State) (peer : Nat) : State :=
  if s.lake.topAsked.contains peer then { s with lake := { s.lake with topSaid := (peer :: s.lake.topSaid).eraseDups } } else s

/-- COPY_RECEIVE (R287, R288); in Sleep no port carries TC3 (R246). -/
def execCopyReceive (peer : BitVec 14) (c : SegCopy) (originatorReachable : Bool) (s : State) : Out :=
  .next (if !(s.pwr.live && s.awake) then s
    else if c.issue = 0 then
      (if c.uid.toNat = s.uid then (s.topAnswer peer.toNat).holderAnswer peer.toNat c.num
       else if s.fromOriginator peer c then s.noOriginal c.uid.toNat c.num else s)
    else if !c.intact then s.lakStick 13
    else if c.uid.toNat = s.uid then
      let s := (s.liftNumbers c.num).topAnswer peer.toNat
      (s.ownCopy c).holderAnswer peer.toNat c.num
    else s.foreignCopy peer c originatorReachable)

/-- OP = resolve (R289): the copy in the named slot is kept, the others of its segment are discarded. -/
def State.lakResolve (s : State) (slot : Nat) : State :=
  match s.lake.segs.find? fun g => g.slot = slot && g.conflicting with
  | some g =>
    let rest := s.lake.segs.filter fun x => x.num ≠ g.num
    let g := { g with conflicting := false }
    ({ s with lake := { s.lake with segs := rest ++ [g] } }).deliverSeg g
  | none =>
    match s.lake.replicas.find? fun r => r.slot = slot && r.conflicting with
    | some r =>
      let rest := s.lake.replicas.filter fun x => !(x.uid = r.uid && x.num = r.num)
      { s with lake := { s.lake with replicas := rest ++ [{ r with conflicting := false }] } }
    | none => s

/-- OP = discard (R289): every copy goes, and every claim on the segment is given up. -/
def State.lakDiscard (s : State) (slot : Nat) : State :=
  match s.lake.segs.find? fun g => g.slot = slot && g.conflicting with
  | some g =>
    let s := s.giveUpSeg g.num
    { s with lake := { s.lake with segs := s.lake.segs.filter fun x => x.num ≠ g.num } }
  | none =>
    match s.lake.replicas.find? fun r => r.slot = slot && r.conflicting with
    | some r =>
      { s with lake := { s.lake with replicas := s.lake.replicas.filter fun x => !(x.uid = r.uid && x.num = r.num) } }
    | none => s

/-- LAK_CMD (R289). -/
def State.actLakCmd (s : State) (v : Word) : State :=
  match bits v 16 2 with
  | 1 => s.lakResolve (bits v 0 16)
  | 2 => s.lakDiscard (bits v 0 16)
  | 3 => s.lakStick 3
  | _ => s

/-- The address of LAK_CMD. -/
def lakCmd : Nat := ra .lak 0 0x0B8

def execLakeResolve (a : Acc) (slot : BitVec 16) (s : State) : Out :=
  .next (s.guarded a lakCmd (BitVec.ofNat 32 (slot.toNat + 0x10000)) fun s v => s.actLakCmd v)

def execLakeDiscard (a : Acc) (slot : BitVec 16) (s : State) : Out :=
  .next (s.guarded a lakCmd (BitVec.ofNat 32 (slot.toNat + 0x20000)) fun s v => s.actLakCmd v)

/-! ### Captures (R291) -/

/-- A capture index that is not held. -/
def State.freeCapture (s : State) : Option Nat :=
  (List.range 8).find? fun i => !((s.lake.captures ++ s.lake.building.toList).any fun c => c.idx = i)

/-- Free owner slots, lowest first. -/
def State.freeOwnerSlots (s : State) (n : Nat) : List Nat :=
  let free := ((List.range s.ownSpace).map s.slotNo).filter fun k => !s.slotFull k
  free.take (min n (s.shareOf 255 - s.slotsUsed 255))

/-- The ring arms again, when it has slots. -/
def State.rearm (s : State) : State :=
  { s with lake := { s.lake with capSt := if s.lake.ringNow = 0 then .idle else .armed, ringFirst := s.tim.msNum,
                                 ring := [], trigAt := 0, building := none } }

/-- LAK_CAP_CMD. -/
def State.actCapCmd (s : State) (v : Word) : State :=
  let s := if bit v 1 then
      { s with lake := { s.lake with captures := s.lake.captures.filter fun c => c.idx ≠ bits v 2 3 } }
    else s
  if bit v 0 then s.fireTrigger 0 s.tim.stamp else s

def execCaptureTrigger (a : Acc) (s : State) : Out :=
  .next (s.guarded a (ra .lak 0 0x094) 1 fun s v => s.actCapCmd v)

def execCaptureRelease (a : Acc) (idx : BitVec 3) (s : State) : Out :=
  .next (s.guarded a (ra .lak 0 0x094) (BitVec.ofNat 32 (2 + idx.toNat * 4)) fun s v => s.actCapCmd v)

/-- A capture takes an index and owner slots, one for each of its parts; without them it is abandoned (R291). -/
def State.placeCapture (s : State) (c : Capture) : Option Capture :=
  let slots := s.freeOwnerSlots c.parts.length
  match s.freeCapture with
  | some i => if slots.length = c.parts.length then some { c with idx := i, slots := slots } else none
  | none => none

/-- CAPTURE_POST_TRIGGER_END (R291), once (16 − PRE)/16 of the ring has been written since the trigger: the ring stops, and the
capture is copied or abandoned with CAP_FAIL, as is one of a ring without a complete milestone. DESIGN CHOICE (log 15). -/
def execCapturePostTriggerEnd (s : State) : Out :=
  .next (if s.lake.capSt ≠ .post ∨ !s.pwr.clocked ∨ !s.postDone then s
    else match s.newCapture.bind s.placeCapture with
      | some c =>
        { s with lake := { s.lake with capSt := .copying, nextSeg := s.lake.nextSeg + c.slots.length, building := some c } }
      | none => (s.lakStick 15).rearm)

/-- CAPTURE_RECEIVE (R291): a capture received over a session takes an index and owner slots, one for each part of it, in
the same way. -/
def execCaptureReceive (first last : BitVec 32) (parts : List (List Byte)) (intact : Bool) (s : State) : Out :=
  .next (if !(s.pwr.live && s.awake) then s
    else
      let c : Capture := { idx := 0, first := first.toNat, last := last.toNat, cause := 0, slots := [], verified := intact
                           items := Config.captureItems parts, firstSeg := s.lake.nextSeg, parts := parts
                           origin := s.fab.addr.getD 0, madeMs := s.tim.msNum }
      match s.placeCapture c with
      | some c =>
        { s with lake := { s.lake with nextSeg := s.lake.nextSeg + c.slots.length, captures := s.lake.captures ++ [c] } }
      | none => s.lakStick 15)

/-! ### The ring, the split and replays -/

/-- A replay ends with a status (R293). -/
def State.endReplay (s : State) (status : Nat) : State :=
  if s.lake.replay.isSome then { s with lake := { s.lake with replay := none, replayStatus := status } } else s

/-- On-chip slots that nothing occupies above a number. -/
def State.ringFree (s : State) (want : Nat) : Nat :=
  ((List.range want).takeWhile fun i =>
    !s.slotFull (63 - i)).length

/-- The ring follows LAK_CFG.RING at a milestone (R290): growth as slots come free, a reduction at once with the loss
of its content, of a trigger and of a capture still being built. -/
def State.ringStep (s : State) : State :=
  let want := s.fld (ra .lak 0 0x040) 0 5
  if want < s.lake.ringNow then
    ({ s with lake := { s.lake with ringNow := want } }).rearm
  else if s.lake.ringNow < want then
    let n := max s.lake.ringNow (s.ringFree want)
    if n = s.lake.ringNow then s
    else
      let s' := { s with lake := { s.lake with ringNow := n } }
      if s.lake.ringNow = 0 then s'.rearm else s'
  else s

/-- What a LAK_SPLIT value would leave the owner, as the commit check of R282 needs it. -/
def State.ownerShareWith (s : State) (rspace : Nat) : Int :=
  (64 + s.lake.ext : Int) - s.lake.ringNow - rspace - (s.tenantsOn.map s.quotaNow).sum

/-- The cold start of a lake (R287): the slots of the index that pass are kept, and a copy that is not intact is discarded with
SEG_BAD (R288); own segments with claims that are missing are asked for, and those that no holder has are given up; numbering goes
on. Without an index the reachable devices are asked. -/
def State.lakeRecover (s : State) (bad : List Nat) : State :=
  match s.lake.index with
  | none => { s with lake := { s.lake with indexLost := true } }
  | some x =>
    let here := fun (k : Nat) => decide (64 ≤ k) && decide (k < 64 + s.lake.ext) && !bad.contains k
    let found := x.segs.filter fun g => here g.slot
    let missing := x.segs.filter fun g => !here g.slot && !g.claims.isEmpty
    let used := x.segs.map (·.slot) ++ x.replicas.map (·.slot) ++ x.captures.flatMap (·.slots)
    let spoilt := used.any fun k => bad.contains k && decide (64 ≤ k)
    let s := { s with
      lake := { s.lake with
        segs := found.map fun (g : Segment) => { g with sealed := true, sealMs := s.tim.msCount }
        replicas := x.replicas.filter fun r => here r.slot
        captures := x.captures.filter fun c => c.slots.all here
        nextSeg := x.next, holders := x.holders, recovering := missing.filter (·.replicated), index := none }
      fab := { s.fab with sessions := x.sessions.map fun (y : Session) =>
        { y with st := .dropped, hold := 0, granted := 0, asked := false, wants := false, askDue := false, bucket := 0 } } }
    let s := if spoilt then s.lakStick 13 else s
    let s := s.each (missing.filter fun g => !g.replicated) fun s g => (s.giveUp g.claims).lakStick 12
    let s : State := { s with lake := { s.lake with
      asks := s.lake.recovering.flatMap fun (g : Segment) => s.lake.holders.map fun h => (h.2.1, g.num) } }
    if s.lake.holders.isEmpty then s.each s.lake.recovering fun s g => s.endRecovery g else s

/-- What BAR4 shows at its offsets 0x0 to 0xF_FFFF (R294): the slot that LAK_WIN selects, whatever fills it, or a part of a capture;
a free slot reads 0. -/
def State.lakeWindow (s : State) : List Byte :=
  let w := s.reg (ra .lak 0 0x09C)
  let free : List Byte := List.replicate 1048576 0
  if bit w 19 then
    let part := bits w 20 5
    match s.lake.captures.find? fun c => c.idx = bits w 16 3 with
    | some c => if part < c.slots.length then s.capSegment c part else free
    | none => free
  else
    let k := bits w 0 16
    match s.lake.segs.find? (fun g => g.slot = k), s.lake.replicas.find? fun r => r.slot = k with
    | some g, _ => s.segBytes g
    | none, some r => r.bytes
    | none, none =>
      match s.lake.captures.find? fun c => c.slots.contains k with
      | some c => s.capSegment c (c.slots.idxOf k)
      | none => free

/-- The index that the power-fail sequence and the entry to Deep Sleep save (R287, R351, R357). -/
def State.saveIndex (s : State) : State :=
  { s with lake := { s.lake with index := some {
    next := s.lake.nextSeg, segs := s.lake.segs, replicas := s.lake.replicas, captures := s.lake.captures,
    sessions := s.fab.sessions.filter fun x => x.st ≠ .handshake, holders := s.lake.holders } } }

end Sys2Proof.Machine
end

