-- ==== Sys2Proof/Machine/Update.lean ====
section
/-! DEFINITION. Boot records, images, downloads, activation, trial and rollback (chapter 18). -/

namespace Sys2Proof.Machine

open Sys2Proof

/-! ### Boot records and slots (R372, R373) -/

/-- Replaces an image slot. -/
def State.setSlot (s : State) (b : Bool) (v : Slot) : State :=
  { s with flash := if b then { s.flash with slotB := v } else { s.flash with slotA := v } }

/-- Writes a boot record: to the copy that lost, with the winner's sequence number plus 1, signed (R373). -/
def State.writeRec (s : State) (r : BootRec) : State :=
  let seq := match s.bootRec with
    | some w => (w.seqNo + 1) % 2 ^ 32
    | none => 1
  let c := !s.upd.win
  let r := { r with seqNo := seq, signed := true, digest := (s.flash.slot r.slot).digest }
  { s with flash := (if c then { s.flash with brec1 := some r } else { s.flash with brec0 := some r }),
           upd := { s.upd with win := c } }

/-- UPD BLK_STICKY. -/
def State.updStick (s : State) (n : Nat) : State := s.stick .upd 0 n

/-- The choice between the copies that every start makes (R373); a copy that alone is intact sets BREC_COPY. -/
def State.chooseRec (s : State) : State :=
  let s := match s.flash.choice with
    | some c => { s with upd := { s.upd with win := c } }
    | none => s
  if s.flash.onlyOne then s.updStick 14 else s

/-- A refused command (R376). -/
def State.updRefuse (s : State) : State := ({ s with upd := { s.upd with result := 2 } }).updStick 8

/-- The inactive slot becomes incomplete and the download ends (R376). -/
def State.updEndDownload (s : State) : State :=
  let b := !s.activeSlot
  let s := s.setSlot b { s.flash.slot b with marker := .incomplete, verifying := false }
  { s with upd := { s.upd with st := if s.pwr.recovery then .recovery else .idle, busy := 0, holder := none } }

/-- A download ends when its holder's host link resets or its session drops (R376). -/
def State.updHolderLost (s : State) (req : Nat) : State :=
  if s.upd.holder = some req ∧ (s.upd.st = .downloading ∨ s.upd.st = .verifying) then s.updEndDownload else s

/-- The device rolls back: a record names the previous slot as confirmed, and the supervisor restarts under it, or the
cold start that replaces another start goes on, with waymark 0x38 at its first milestone (R379). DEDUCED (log 81). -/
def State.rollBack (s : State) (atStart : Bool) : State :=
  match s.bootRec with
  | none => s
  | some r =>
    let left := s.slotVersion r.slot
    let s := s.writeRec { r with slot := r.prev, trial := false, starts := 0, prev := r.slot }
    let s := s.updStick 12
    let s := { s with upd := { s.upd with st := if atStart then .idle else .activating, rollback := !atStart, busy := 0,
                                          versionLeft := left, msLeft := 0, holder := none, firstDue := false,
                                          markDue := if atStart then some 2 else none } }
    if atStart then s else { s with sup := { s.sup with haltDue := some (s.tim.msCount + 1) } }

/-- A start of the supervisor (R379): a trial image counts it, but for the start of its activation, and a fourth start rolls
back. DESIGN CHOICE (log 14). DEDUCED (log 81). -/
def State.countStart (s : State) : State :=
  match s.bootRec with
  | none => s
  | some r =>
    let first := s.upd.firstDue
    let s := { s with upd := { s.upd with firstDue := false } }
    if !r.trial then s
    else if first then (({ s with upd := { s.upd with st := .trial, msLeft := 614400 } }).updStick 10)
    else if 3 ≤ r.starts then s.rollBack true
    else
      let s := s.writeRec { r with starts := r.starts + 1 }
      { s with upd := { s.upd with st := .trial, msLeft := 614400 } }

/-- Waymark 0x38 (R385). -/
def State.updMark (s : State) (event : Nat) : State :=
  s.waymark 0x38 [event, s.slotVersion s.activeSlot, s.upd.versionLeft]

/-- The waymark of a start that was a cold start, at its first milestone (R379, R385). -/
def State.updStartMark (s : State) : State :=
  match s.upd.markDue with
  | some n => ({ s with upd := { s.upd with markDue := none } }).updMark n
  | none => s

/-! ### UPD_CMD (R374, R376 to R379) -/

/-- OP = begin. -/
def State.updBegin (s : State) (req : Nat) : State :=
  if s.upd.st = .trial ∨ s.upd.st = .activating ∨ s.upd.st = .verifying ∨ (s.upd.holder.isSome ∧ s.upd.holder ≠ some req)
  then s.updRefuse
  else
    let s := s.setSlot (!s.activeSlot) { marker := .incomplete }
    { s with upd := { s.upd with st := .downloading, busy := 1, result := 0, holder := some req } }

/-- The address of UPD_BUF. -/
def updBuf : Nat := ra .upd 0 0x800

/-- OP = write: the bytes that stand in UPD_BUF now. DEDUCED (log 154). -/
def State.updWrite (s : State) (req : Nat) : State :=
  let ofs := s.fld (ra .upd 0 0x044) 0 25
  let len := s.fld (ra .upd 0 0x048) 0 12
  let b := !s.activeSlot
  let v := s.flash.slot b
  if s.upd.st ≠ .downloading ∨ s.upd.holder ≠ some req ∨ ofs % 2048 ≠ 0 ∨ len = 0 ∨ 2048 < len ∨
      0x1800000 < ofs + len ∨ (v.blocks.any fun p => p.1 = ofs / 2048) then s.updRefuse
  else
    let s := s.setSlot b { v with blocks := v.blocks ++ [(ofs / 2048, s.bufBytes updBuf 0 len)] }
    { s with upd := { s.upd with busy := 2, result := 0 } }

/-- OP = verify. -/
def State.updVerify (s : State) (req : Nat) : State :=
  if s.upd.st ≠ .downloading ∨ s.upd.holder ≠ some req then s.updRefuse
  else
    let b := !s.activeSlot
    let s := s.setSlot b { s.flash.slot b with verifying := true }
    { s with upd := { s.upd with st := .verifying, busy := 3, result := 0 } }

/-- OP = activate. -/
def State.updActivate (s : State) (req : Nat) (cold : Bool) : State :=
  if s.upd.st ≠ .verified ∨ (s.upd.holder.isSome ∧ s.upd.holder ≠ some req) ∨ s.pwr.recovery then s.updRefuse
  else { s with upd := { s.upd with st := .activating, busy := 4, result := 0, cold := cold, rollback := false } }

/-- OP = confirm. -/
def State.updConfirm (s : State) : State :=
  match s.bootRec with
  | some r =>
    if s.upd.st = .trial then
      let s := s.writeRec { r with trial := false, starts := 0 }
      let s := { s with upd := { s.upd with st := .idle, result := 1, msLeft := 0,
                                            versionLeft := s.slotVersion r.prev } }
      (s.updStick 11).updMark 1
    else s.updRefuse
  | none => s.updRefuse

/-- OP = rollback. -/
def State.updRollback (s : State) : State :=
  if s.upd.st = .trial then
    let s := s.rollBack false
    { s with upd := { s.upd with result := 1 } }
  else s.updRefuse

/-- OP = abort. -/
def State.updAbort (s : State) (req : Nat) : State :=
  if (s.upd.st = .downloading ∨ s.upd.st = .verifying) ∧ s.upd.holder = some req then
    let s := s.updEndDownload
    { s with upd := { s.upd with result := 1 } }
  else s.updRefuse

/-- OP = resolve (R374): the kept copy is written over the other, or a new record names slot A; a cold start follows. -/
def State.updResolve (s : State) (req : Nat) (copy : Bool) : State :=
  if !s.pwr.recovery || (s.upd.holder.isSome && s.upd.holder ≠ some req) then s.updRefuse
  else match s.flash.brec0, s.flash.brec1 with
    | none, none =>
      if s.flash.slotA.marker = .verified ∧ copy = false then
        let r : BootRec := ⟨1, false, false, 0, false, true, s.flash.slotA.digest⟩
        let s := ({ s with flash := { s.flash with brec0 := some r } }).updMark 3
        s.coldReset (Config.updateCause 1 % 8)
      else s.updRefuse
    | _, _ =>
      match s.flash.brec copy with
      | none => s.updRefuse
      | some r =>
        let s := { s with flash := { s.flash with brec0 := some r, brec1 := some r } }
        let s := s.updMark 3
        s.coldReset (Config.updateCause r.seqNo % 8)

/-- A write of UPD_CMD: refused while a command runs (R384). -/
def State.actUpd (s : State) (req : Nat) (v : Word) : State :=
  let op := bits v 0 4
  if op = 0 then s
  else if 9 ≤ op then s.updStick 3
  else if s.upd.busy ≠ 0 then s.updRefuse
  else match op with
    | 1 => s.updBegin req
    | 2 => s.updWrite req
    | 3 => s.updVerify req
    | 4 => s.updActivate req (bit v 4)
    | 5 => s.updConfirm
    | 6 => s.updRollback
    | 7 => s.updAbort req
    | _ => s.updResolve req (bit v 5)

/-- The address of UPD_CMD. -/
def updCmd : Nat := ra .upd 0 0x040

def execUpdBegin (a : Acc) (s : State) : Out :=
  .next (s.guarded a updCmd 1 fun s v => s.actUpd a.req.toNat v)
def execUpdWrite (a : Acc) (s : State) : Out :=
  .next (s.guarded a updCmd 2 fun s v => s.actUpd a.req.toNat v)
def execUpdVerify (a : Acc) (s : State) : Out :=
  .next (s.guarded a updCmd 3 fun s v => s.actUpd a.req.toNat v)
def execUpdActivate (a : Acc) (cold : Bool) (s : State) : Out :=
  .next (s.guarded a updCmd (if cold then 0x14 else 4) fun s v => s.actUpd a.req.toNat v)
def execUpdConfirm (a : Acc) (s : State) : Out :=
  .next (s.guarded a updCmd 5 fun s v => s.actUpd a.req.toNat v)
def execUpdRollback (a : Acc) (s : State) : Out :=
  .next (s.guarded a updCmd 6 fun s v => s.actUpd a.req.toNat v)
def execUpdAbort (a : Acc) (s : State) : Out :=
  .next (s.guarded a updCmd 7 fun s v => s.actUpd a.req.toNat v)
def execUpdResolve (a : Acc) (copy : Bool) (s : State) : Out :=
  .next (s.guarded a updCmd (if copy then 0x28 else 8) fun s v => s.actUpd a.req.toNat v)

/-- The SVN that a new image must not go below: that of the confirmed image (R375). -/
def State.confirmedSvn (s : State) : Nat :=
  match s.bootRec with
  | some r => (s.flash.slot (if r.trial then r.prev else r.slot)).header.svn
  | none => 0

/-- UPD_STAT.RESULT of a check of an image that has been verified before: done, bad signature, bad digest, flash failed (R375). Its
header is the one verified, so its format, revision and SVN still pass. -/
def imageResult (c : ImageCheck) : Nat :=
  if !c.flashOk then 5 else if !c.sigOk then 3 else if !c.digestOk then 4 else 1

/-- UPD_STAT.RESULT of the verify of a slot as it reads back (R375, R377); a format or a length outside R375 is reported with the
bad digests. DESIGN CHOICE (log 152). -/
def State.verifyResult (s : State) (c : ImageCheck) (v : Slot) : Nat :=
  let h := v.header
  if imageResult c = 5 ∨ imageResult c = 3 then imageResult c
  else if imageResult c = 4 ∨ h.format ≠ 2 ∨ 0x17FE000 < h.bodyLen ∨ h.digest ≠ Config.sha384 v.body then 4
  else if 0xB0 < h.revision ∨ h.svn < s.confirmedSvn then 6
  else 1

/-- A program or erase of the flash fails where a command reports it so (R397). -/
def State.noteFlash (s : State) (result : Nat) : State := if result = 5 then s.stick .flash 0 9 else s

/-- A command of the update engine ends with a result code. -/
def State.updDone (s : State) (r : Nat) : State :=
  let s := s.noteFlash r
  { s with upd := { s.upd with busy := 0, result := r } }

/-- VERIFY ends: the inactive slot is marked verified, or the image is refused (R377). -/
def State.verifyDone (s : State) (c : ImageCheck) : State :=
  let b := !s.activeSlot
  let r := s.verifyResult c (s.flash.slot b)
  let s := (s.updDone r).setSlot b { s.flash.slot b with verifying := false }
  if r = 1 then
    let s := s.setSlot b { s.flash.slot b with marker := .verified }
    { s with upd := { s.upd with st := .verified } }
  else
    ({ s with upd := { s.upd with st := if s.pwr.recovery then .recovery else .idle, holder := none } }).updStick 9

/-- ACTIVATE has written the boot record, whose start follows; where the write failed, the image stays verified (R378).
DESIGN CHOICE (log 14). -/
def State.activateDone (s : State) (c : ImageCheck) : State :=
  match if c.flashOk then s.bootRec else none with
  | none => { s.updDone 5 with upd := { (s.updDone 5).upd with st := .verified } }
  | some r =>
    let left := s.slotVersion r.slot
    let s := (s.updDone 1).writeRec { r with slot := !r.slot, trial := true, starts := 1, prev := r.slot }
    let s := { s with upd := { s.upd with versionLeft := left, holder := none } }
    if s.upd.cold then { s with upd := { s.upd with firstDue := true, markDue := some 0 } }.coldReset (Config.updateCause (match s.bootRec with
      | some w => w.seqNo
      | none => 0) % 8)
    else { s with sup := { s.sup with haltDue := some (s.tim.msCount + 1) } }

/-- UPD_COMMAND_DONE (R376 to R378, R381): the running erase, program, verify or record write completes. -/
def execUpdCommandDone (c : ImageCheck) (s : State) : Out :=
  .next (if !(s.pwr.st = .run || s.pwr.st = .idle) then s
    else match s.upd.busy with
      | 1 => s.updDone (if c.flashOk then 1 else 5)
      | 2 => s.updDone (if c.flashOk then 1 else 5)
      | 3 => s.verifyDone c
      | 4 => s.activateDone c
      | _ => s)

/-- ACTIVATION_REVERIFY (R378, R379): the boot loader has verified the slot again; Mioxus starts at the next milestone,
or the device rolls back. -/
def execActivationReverify (c : ImageCheck) (s : State) : Out :=
  .next (if s.upd.st ≠ .activating ∨ s.sup.running ∨ s.sup.startDue ∨ !s.awake then s
    else if imageResult c = 1 then
      let s := ({ s with sup := { s.sup with startDue := true, atMs := true, missed := 0 } }).chooseRec
      if s.upd.rollback then
        let s := { s with upd := { s.upd with st := .idle, rollback := false } }
        s.updMark 2
      else
        let s := { s with upd := { s.upd with st := .trial, msLeft := 614400 } }
        (s.updStick 10).updMark 0
    else if s.upd.rollback then s
    else
      let s := s.rollBack false
      { s with sup := { s.sup with haltDue := none, running := false } })

/-- TRIAL_EXPIRY (R379): MS_LEFT has reached 0. -/
def execTrialExpiry (s : State) : Out :=
  .next (if s.upd.st = .trial ∧ s.upd.msLeft = 0 ∧ s.awake then s.rollBack false else s)

end Sys2Proof.Machine
end

