-- ==== Sys2Proof/Machine/Security.lean ====
section
/-! DEFINITION. The security block (R296 to R301, R315): certificates, attestation, the owner chain. -/

namespace Sys2Proof.Machine

open Sys2Proof

/-- Stores one byte of a buffer. -/
def State.setBufByte (s : State) (base i : Nat) (b : Byte) : State :=
  s.setFld (base + i / 4 * 4) (i % 4 * 8) 8 b.toNat

/-- Stores bytes into a buffer. -/
def State.setBufBytes (s : State) (base start : Nat) (bs : List Byte) : State :=
  (bs.foldl (fun (p : State × Nat) b => (p.1.setBufByte base p.2 b, p.2 + 1)) (s, start)).1

/-- The address of SEC_BUF. -/
def secBuf : Nat := ra .sec 0 0x800

/-- SEC BLK_STICKY. -/
def State.secStick (s : State) (n : Nat) : State := s.stick .sec 0 n

/-- A command is refused or fails (R300, R315). -/
def State.secFail (s : State) (result : Nat) : State :=
  ({ s with sec := { s.sec with result := result } }).secStick 8

/-- The digest of the running Mioxus image (R298): between the write of a record and the halt that follows, that is the one which
the record names as previous. -/
def State.runningDigest (s : State) : List Byte :=
  beBytes (s.flash.slot (if s.sup.haltDue.isSome && s.sup.running then !s.activeSlot else s.activeSlot)).digest.toNat 48

/-- SEC_CMD (R315): a command runs until SEC_COMMAND_DONE; while one runs a write is ignored and sets CMD_FAIL. -/
def State.actSec (s : State) (v : Word) : State :=
  let op := bits v 0 4
  let item := bits v 4 4
  if s.sec.busy ≠ 0 then s.secStick 8
  else if op = 0 then s
  else if 5 ≤ op then s.secStick 3
  else if op = 1 ∧ (7 ≤ item ∨ (3 ≤ item ∧ item ≤ 5 ∧ s.flash.nOwners ≤ item - 3)) then s.secFail 2
  else { s with sec := { s.sec with busy := op + item * 16, result := 0 } }

/-- The address of SEC_CMD. -/
def secCmd : Nat := ra .sec 0 0x048

def execSecRead (a : Acc) (item : BitVec 4) (s : State) : Out :=
  .next (s.guarded a secCmd (BitVec.ofNat 32 (1 + item.toNat * 16)) fun s v => s.actSec v)

def execSecSign (a : Acc) (s : State) : Out := .next (s.guarded a secCmd 2 fun s v => s.actSec v)

def execSecInstall (a : Acc) (s : State) : Out := .next (s.guarded a secCmd 3 fun s v => s.actSec v)

def execSecClear (a : Acc) (s : State) : Out := .next (s.guarded a secCmd 4 fun s v => s.actSec v)

/-- An upper-case hex digit in ASCII. -/
def hexDigit (n : Nat) : Byte := BitVec.ofNat 8 (if n < 10 then 48 + n else 55 + n)

/-- The unit identifier in 16 upper-case hex digits (R297). -/
def State.uidHex (s : State) : List Byte := (List.range 16).map fun i => hexDigit (s.uid / 16 ^ (15 - i) % 16)

/-- The unit public key, 97 bytes uncompressed (R315). -/
def unitPublic : List Byte := 4 :: beBytes Config.unitKey.toNat 96

/-- The item that a read copies, within the 2,048 bytes of SEC_BUF: the device certificate names the unit identifier and the unit
key (R297, R315). -/
def State.secItem (s : State) (item : Nat) : List Byte :=
  (if item = 0 then Config.deviceCert s.uidHex unitPublic
   else if item = 6 then unitPublic
   else if 3 ≤ item then s.ownerCerts.getD (item - 3) []
   else Config.dravpaCert item).take 2048

/-- The attestation of R298: signature and both digests. -/
def State.attest (s : State) : State :=
  let nonce := s.bufBytes secBuf 0 48
  let image := s.runningDigest
  let root := s.ownerRoot
  let msg := leBytes s.uid 8 ++ nonce ++ image ++ [0xB0] ++ root
  let sig := beBytes (Config.unitSign (Config.sha384 msg)).toNat 96
  s.setBufBytes secBuf 0 (sig ++ image ++ root)

/-- Every owner session open now closes at the next milestone (R300). -/
def State.closeOwners (s : State) : State :=
  { s with fab := { s.fab with sessions := s.fab.sessions.map fun (x : Session) =>
    if x.role = .owner ∧ x.st = SessSt.open_ then { x with closeDue := true } else x } }

/-- The signature of the record in SEC_BUF verifies with the installed owner root's key, over bytes 0 to L + 3 (R300). -/
def State.recordSigned (s : State) (len : Nat) : Bool :=
  match s.ownerCerts with
  | c :: _ => Config.signedBy c (Config.sha384 (s.bufBytes secBuf 0 (len + 4))) (s.bufBytes secBuf (len + 4) 96)
  | [] => false

/-- The chain of the record in SEC_BUF: of P-384, each certificate signed by the one before it (R300). -/
def State.recordChain (s : State) (len n : Nat) : Bool :=
  match derSplit n (s.bufBytes secBuf 4 len) with
  | c :: t => Config.certP384 c && chainFrom c t
  | [] => false

/-- RESULT of an install or clear by R300: done, refused, signature bad, chain bad, flash failed. -/
def State.chainResult (s : State) (c : ChainCheck) (clear : Bool) : Nat :=
  let len := (s.bufByte secBuf 0).toNat + (s.bufByte secBuf 1).toNat * 256
  let n := (s.bufByte secBuf 2).toNat
  let owned := decide (s.flash.nOwners ≠ 0)
  if clear && (!owned || n ≠ 0 || len ≠ 0) then 2
  else if !clear && (n = 0 || 3 < n || 2048 < len + 4 + (if owned then 96 else 0)) then 2
  else if owned && !s.recordSigned len then 3
  else if !clear && !s.recordChain len n then 4
  else if !c.flashOk then 5
  else 1

/-- An install or clear completes (R300, R397). -/
def State.chainDone (s : State) (c : ChainCheck) (clear : Bool) : State :=
  let r := s.chainResult c clear
  if r ≠ 1 then (s.noteFlash r).secFail r
  else
    let len := (s.bufByte secBuf 0).toNat + (s.bufByte secBuf 1).toNat * 256
    let flash := if clear then { s.flash with owners := [], nOwners := 0 }
      else { s.flash with owners := s.bufBytes secBuf 4 len, nOwners := (s.bufByte secBuf 2).toNat }
    (({ s with flash := flash, sec := { s.sec with result := 1 } }).secStick 9).closeOwners

/-- SEC_COMMAND_DONE (R297, R298, R300). -/
def execSecCommandDone (c : ChainCheck) (s : State) : Out :=
  let op := s.sec.busy % 16
  let item := s.sec.busy / 16
  .next (if s.sec.busy = 0 ∨ !(s.pwr.st = .run ∨ s.pwr.st = .idle) then s
    else
      let s := { s with sec := { s.sec with busy := 0 } }
      match op with
      | 1 =>
        let bs := s.secItem item
        { s.setBufBytes secBuf 0 bs with sec := { s.sec with result := 1, len := bs.length } }
      | 2 => { s.attest with sec := { s.sec with result := 1 } }
      | 3 => s.chainDone c false
      | _ => s.chainDone c true)

end Sys2Proof.Machine
end

