-- ==== Sys2Proof/Machine/Sessions.lean ====
section
/-! DEFINITION. Sessions (R263 to R267, R302 to R304): opening, subscriptions, acknowledgement, loss, hold, resumption. -/

namespace Sys2Proof.Machine

open Sys2Proof

/-! ### Refusals and lockout (R302) -/

/-- The key under which refusals of a peer are counted: host peers apart from fabric peers. -/
def peerKey (peer : Nat) (host : Bool) : Nat := if host then peer + 16384 else peer

/-- A refusal of an open: counted, and from the fourth on the peer is locked out for 1,024 milestones.
DEDUCED (logs 46, 93). -/
def State.countRefusal (s : State) (peer : Nat) (host : Bool) : State :=
  let k := peerKey peer host
  let n := (kget s.fab.refusals k (0, 0)).1 + 1
  { s with fab := { s.fab with refusals := kset s.fab.refusals k (n, if 4 ≤ n then 1025 else 0) (0, 0) } }

/-- A handshake fails (R302): refused, with AUTH_FAIL. -/
def State.refuseOpen (s : State) (x : Session) : State :=
  let s := s.sendSession x 4 0x04 [1, x.num] 16
  (s.countRefusal x.peer x.host).secStick 10

/-- Removes a session. -/
def State.dropNumber (s : State) (n : Nat) : State :=
  let s := s.freeRsv n
  { s with fab := { s.fab with sessions := s.fab.sessions.filter fun x => x.num ≠ n } }

/-- The lowest session number that is not in use. DESIGN CHOICE (log 35). -/
def State.freeSession (s : State) : Option Nat :=
  (List.range 2048).find? fun n => !(s.fab.sessions.any fun x => x.num = n)

/-- Sends data too long for one frame to a session's peer (R247). DESIGN CHOICE (log 12). -/
def State.sendDataTo (s : State) (x : Session) (cls kind : Nat) (head : List Int) (data : List Byte) : State :=
  s.upTo (max 1 (ceilDiv data.length 2080)) fun s i =>
    let part := (data.drop (2080 * i)).take 2080
    s.sendSession x cls kind (head ++ [(i : Int)] ++ part.map fun b => (b.toNat : Int)) (16 + part.length)

/-- The device's part of a handshake (R302): its ephemeral key, the unit key's signature over the transcript, and its certificate
chain. -/
def State.shake (s : State) (x : Session) : State :=
  let serial := s.frames.length
  let s := s.setSession { x with secret := serial }
  let key : List Byte := 4 :: beBytes (Config.ephemeralKey serial).toNat 96
  let sig := beBytes (Config.unitSign (Config.transcript serial)).toNat 96
  s.sendDataTo x 4 0x04 [2, x.num] (key ++ sig ++ s.secItem 0 ++ s.secItem 1)

/-- SESSION_OPEN (R263, R302): a handshake starts, unless the peer is locked out or no number is free. -/
def execSessionOpen (peer : BitVec 14) (host : Bool) (role : Role) (s : State) : Out :=
  let p := peer.toNat
  .next (if !(s.pwr.live && s.supWorks) then s
    else
      let s := s.leaveIdle
      let no := fun (s : State) => if host then s.sendOn 8 4 0x04 p 0xFFFF [1, 0xFFFF] 16
        else s.sendTo 4 0x04 p 0xFFFF [1, 0xFFFF] 16
      if (kget s.fab.refusals (peerKey p host) (0, 0)).2 ≠ 0 then no s
      else match s.freeSession with
        | none => no s
        | some n =>
          let x : Session := { num := n, peer := p, host := host, role := role }
          ({ s with fab := { s.fab with sessions := s.fab.sessions ++ [x] } }).shake x)

/-- KEYHASH of a tenant entry in effect as a big-endian number: bytes in order from word 32 on. -/
def State.keyHash (s : State) (t : Nat) : Nat :=
  (List.range 48).foldl (fun a i => a * 256 + (s.eff (TableId.tenant.addr t (32 + i / 4))).toNat / 256 ^ (i % 4) % 256) 0

/-- The condition of a role, by the entry in effect (R302, R306). -/
def State.roleOk (s : State) (role : Role) (chain : List (List Byte)) (leaf : BitVec 384) : Bool :=
  match role with
  | .owner => decide (s.flash.nOwners ≠ 0) && chainVerifies (s.ownerCerts.take 1) chain
  | .tenant t => bit (s.eff (TableId.tenant.addr t.val 0)) 0 && decide (s.keyHash t.val = leaf.toNat)

/-- The resumption token of a session: derived from the secret of its last handshake (R304). -/
def Session.token (x : Session) : BitVec 128 := Config.hkdfToken (Config.handshakeSecret x.secret)

/-- A successful open or resumption gives a new token (R304). -/
def State.giveToken (s : State) (n : Nat) : State :=
  match s.session n with
  | some x =>
    s.sendSession x 4 0x04 [0, n, x.token.toNat] 32
  | none => s

/-- SESSION_HANDSHAKE_DONE (R302, R304). -/
def execSessionHandshakeDone (session : BitVec 11) (sigOk : Bool) (chain : List (List Byte)) (leaf : BitVec 384) (s : State) : Out :=
  let n := session.toNat
  .next (match s.session n with
    | none => s
    | some x =>
      if x.st ≠ .handshake ∨ !s.supWorks then s
      else
      let s := s.leaveIdle
      if sigOk && s.roleOk x.role chain leaf then
        let s := s.setSession { x with st := .open_, waited := 0, silence := 0, leaf := leaf }
        let s := { s with fab := { s.fab with refusals := kdel s.fab.refusals (peerKey x.peer x.host) } }
        s.giveToken n
      else (s.refuseOpen x).dropNumber n)

def execOpenLockoutEnd (peer : BitVec 14) (s : State) : Out :=
  let free := fun (s : State) (k : Nat) =>
    match kget s.fab.refusals k (0, 0) with
    | (n, 1) => { s with fab := { s.fab with refusals := kset s.fab.refusals k (n, 0) (0, 0) } }
    | _ => s
  .next (free (free s (peerKey peer.toNat false)) (peerKey peer.toNat true))

/-- Fragments of one record of a stream with `n` values (R187, R247). -/
def recFrags (n : Nat) : Nat := fragsOf (24 + 4 * n)

/-! ### Subscriptions and acknowledgement (R263, R264, R303) -/

/-- A stream that a session may subscribe to (R303). DEDUCED (log 53). -/
def State.maySubscribe (s : State) (x : Session) (i : Nat) : Bool :=
  match x.role with
  | .owner => true
  | .tenant t => decide (s.effFld .stream i 0 16 8 = t.val) || bit (s.eff (TableId.tenant.addr t.val (128 + i / 32))) (i % 32)

/-- Subscriptions of all sessions. -/
def State.subsHeld (s : State) : Nat := (s.fab.sessions.map fun x => x.subs.length).sum

/-- SESSION_SUBSCRIBE (R263, R303): from the next record, or from a past one with the recovered flag (R283). -/
def execSessionSubscribe (session : BitVec 11) (stream : BitVec 12) (fromSeq : Option (BitVec 32)) (s : State) : Out :=
  let n := session.toNat
  let i := stream.toNat
  .next (match s.session n with
    | none => s
    | some x =>
      if x.st ≠ SessSt.open_ ∨ !s.awake then s
      else
      let s := s.leaveIdle
      if !s.maySubscribe x i || (decide (32768 ≤ s.subsHeld) && (x.sub i).isNone) then
        s.sendSession x 4 0x04 [3, n, i] 16
      else
        let at_ := match fromSeq with
          | some q => q.toNat
          | none => (s.stream i).seqNo
        let u : Sub := ⟨i, at_, at_⟩
        let y := if (x.sub i).isSome then x.setSub u else { x with subs := x.subs ++ [u] }
        let s := s.setSession { y with silence := 0 }
        let s := if s.isTc2 i then s.askRsv { y with silence := 0 } else s
        if fromSeq.isSome then s.offerKept n true (s.keptFrom i at_) else s)

/-- SESSION_ACKNOWLEDGE (R264, R279): every claim of the session on the stream's records up to the sequence number
ends. -/
def execSessionAcknowledge (session : BitVec 11) (stream : BitVec 12) (seq : BitVec 32) (s : State) : Out :=
  let n := session.toNat
  let i := stream.toNat
  .next (match s.session n with
    | none => s
    | some x =>
      match x.sub i with
      | none => s
      | some u =>
        if x.st ≠ SessSt.open_ ∨ !s.awake then s
        else
          let q := seq.toNat
          let u := if serialNewer 32 ((q + 1) % 2 ^ 32) u.acked then { u with acked := (q + 1) % 2 ^ 32 } else u
          let s := s.leaveIdle.setSession { x.setSub u with silence := 0 }
          let hit := fun (k : Kept) => k.record.stream = i && !serialNewer 32 k.record.seqNo q
          let ack := fun (k : Kept) => if hit k then { k with claims := k.claims.filter (· ≠ n) } else k
          { s with lake := { s.lake with segs := s.lake.segs.map fun (g : Segment) => { g with kept := g.kept.map ack } } })

/-- ACK_TMO_RESEND (R264): records of the stream sent ACK_TMO milestones ago or longer and not acknowledged go again, on
TC3 with the recovered flag. DEDUCED (log 39). -/
def execAckTmoResend (session : BitVec 11) (stream : BitVec 12) (s : State) : Out :=
  let n := session.toNat
  let tmo := s.fld (ra .fabRouter 0 0x044) 0 8
  .next (match s.session n with
    | none => s
    | some x =>
      if x.st ≠ SessSt.open_ ∨ s.pwr.st = .sleep then s
      else
        let open_ : Nat → Bool := fun q => (x.sub stream.toNat).any fun u => decide (seqAhead q u.acked < 2 ^ 31)
        let late := fun (k : Kept) =>
          let t := kget k.sent n 0
          k.record.stream = stream.toNat && open_ k.record.seqNo && t ≠ 0 && decide (t - 1 + tmo ≤ s.tim.msCount)
        let due := ((s.lake.segs.filter fun g => !g.conflicting).flatMap fun g => g.kept.filter late).map (·.record)
        s.each due fun s r => (s.markSent n r).sendRecord x 3 r true)

/-! ### Loss, hold and resumption (R265, R304) -/

/-- What every end of an open session brings: its locks break, its download and its replay end, its reservation is
freed (R40, R376, R293). -/
def State.cutSession (s : State) (n : Nat) : State :=
  let s := s.dropRequester (0x8000 + n)
  let s := s.updHolderLost (0x8000 + n)
  let s := match s.lake.replay with
    | some r => if r.session = n then s.endReplay 5 else s
    | none => s
  s.freeRsv n

/-- A session drops and keeps its number, subscriptions and claims (R265). -/
def State.dropSession (s : State) (x : Session) : State :=
  let s := (s.cutSession x.num).stick .fabRouter 0 11
  s.setSession { x with st := .dropped, hold := 0, silence := 0, granted := 0, asked := false, wants := false, askDue := false, bucket := 0 }

/-- A session is closed without a hold: its claims are given up (R266, R306). -/
def State.closeSession (s : State) (n : Nat) : State :=
  let s := s.cutSession n
  let s := s.endClaims n none
  s.dropNumber n

/-- SESSION_CLOSE: the peer closes the session, which drops (R265); a handshake ends. -/
def execSessionClose (session : BitVec 11) (s : State) : Out :=
  .next (match s.session session.toNat, s.awake with
    | none, _ => s
    | _, false => s
    | some x, true =>
      let s := s.leaveIdle
      match x.st with
      | .open_ => s.dropSession x
      | .handshake => s.dropNumber x.num
      | .dropped => s)

def execSessionKeepAlive (session : BitVec 11) (s : State) : Out :=
  .next (match s.session session.toNat with
    | some x => if x.st = SessSt.open_ then s.setSession { x with silence := 0 } else s
    | none => s)

/-- SESSION_DROP: no frame and no keep-alive for 8 milestones (R265). -/
def execSessionDrop (session : BitVec 11) (s : State) : Out :=
  .next (match s.session session.toNat with
    | some x =>
      let asleep := if s.pwr.st = .deepSleep then s.tim.time / msSpan - s.pwr.entry / msSpan else 0
      if x.st = SessSt.open_ ∧ 8 ≤ x.silence + asleep then s.dropSession x else s
    | none => s)

/-- SESSION_HOLD_END: after HOLD × 2^16 milestones the session is closed; with HOLD = 0 it is kept (R265). -/
def execSessionHoldEnd (session : BitVec 11) (s : State) : Out :=
  let hold := s.fld (ra .fabRouter 0 0x044) 8 12
  .next (match s.session session.toNat with
    | some x =>
      if x.st = .dropped ∧ hold ≠ 0 ∧ hold * 2 ^ 16 ≤ x.hold then s.closeSession x.num else s
    | none => s)

/-- SESSION_RESUME (R265, R302, R304): the peer presents the token and completes a handshake, with `leaf` what it shows of the peer
(none: the handshake fails), under the condition of the session's role; delivery goes on from the last acknowledgement, with the recovered flag. A new token takes the place
of the one used, which is thus valid once; a peer that is locked out is refused. DEDUCED (log 46). -/
def execSessionResume (session : BitVec 11) (token : BitVec 128) (leaf : Option PeerAuth) (s : State) : Out :=
  let n := session.toNat
  .next (match s.session n with
    | none => s
    | some x =>
      if x.st ≠ .dropped ∨ !s.supWorks then s
      else
      let s := s.leaveIdle
      if (kget s.fab.refusals (peerKey x.peer x.host) (0, 0)).2 ≠ 0 then s.sendSession x 4 0x04 [1, n] 16
      else if token = x.token ∧ leaf.any fun a => a.leaf = x.leaf && s.roleOk x.role a.chain a.leaf then
        let y := { x with st := .open_, silence := 0, hold := 0,
                          subs := x.subs.map fun (u : Sub) => { u with next := u.acked } }
        let s := { s with fab := { s.fab with refusals := kdel s.fab.refusals (peerKey x.peer x.host) } }
        let s := ((s.setSession y).shake y).giveToken n
        let s := match s.session n with
          | some z => s.askRsv z
          | none => s
        s.catchUp n true
      else s.refuseOpen x)

end Sys2Proof.Machine
end

