-- ==== Sys2Proof/Machine/Glazes.lean ====
section
/-! DEFINITION. Glazes (chapter 14): loading, storing, mode changes and recalls. The switch itself is part of the
milestone. -/

namespace Sys2Proof.Machine

open Sys2Proof

/-- GLZ BLK_STICKY. -/
def State.glzStick (s : State) (n : Nat) : State := s.stick .glz 0 n

/-! ### Glaze memory (R318, R319) -/

/-- Word `w` of directory entry `d`. -/
def State.dirWord (s : State) (d w : Nat) : Word := s.reg (0x800000 + d * 16 + w * 4)

/-- Word `w` of item `i`. -/
def State.itemWord (s : State) (i w : Nat) : Word := s.reg (0x801000 + i * 16 + w * 4)

/-- Item `i` of the item area. -/
def State.item (s : State) (i : Nat) : Item :=
  ⟨bits (s.itemWord i 0) 0 24, bits (s.itemWord i 0) 24 4, s.itemWord i 1, s.itemWord i 2⟩

def State.dirId (s : State) (d : Nat) : Nat := bits (s.dirWord d 0) 0 16
def State.dirFirst (s : State) (d : Nat) : Nat := bits (s.dirWord d 1) 0 18
def State.dirCount (s : State) (d : Nat) : Nat := bits (s.dirWord d 2) 0 17

/-- A directory entry is loaded. -/
def State.isLoaded (s : State) (d : Nat) : Bool := s.glz.loaded.getLsbD d

/-- The items of a directory entry, ascending. -/
def State.dirItems (s : State) (d : Nat) : List Item := (List.range (s.dirCount d)).map fun i => s.item (s.dirFirst d + i)

/-- The loaded entry of a glaze identifier. -/
def State.glazeDir (s : State) (id : Nat) : Option Nat :=
  (List.range 64).find? fun d => s.isLoaded d && s.dirId d = id

/-- A glaze that a change may name here: loaded, or glaze 0, the base alone (R321). -/
def State.hasGlaze (s : State) (id : Nat) : Bool := id = 0 || (s.glazeDir id).isSome

/-- A write to that address of glaze memory would change a loaded glaze (R320). -/
def State.glazeBusy (s : State) (a : Nat) : Bool :=
  if a < 0x800400 then s.isLoaded ((a - 0x800000) / 16)
  else
    let i := (a - 0x801000) / 16
    (List.range 64).any fun d => s.isLoaded d && decide (s.dirFirst d ≤ i) && decide (i < s.dirFirst d + s.dirCount d)

/-! ### Loading (R320) -/

/-- The bits of an address that are ST fields. -/
def stMask (a : Nat) : Word :=
  (addrFields a).foldl (fun m f => if f.code = .st then m ||| f.mask else m) 0

/-- Pages that no glaze may name (R319). -/
def glazeForbidden : PageKind → Bool
  | .alm | .sec | .ten | .tenStat | .glz | .upd | .pwr => true
  | _ => false

/-- A target within R319. -/
def Item.allowed (x : Item) : Bool :=
  if x.kind = 0 then
    match pageOf (x.offset / 0x1000) with
    | some (k, _) => !glazeForbidden k && decide (x.mask &&& ~~~ (stMask x.offset) = 0)
    | none => false
  else if x.kind = 1 then
    match tableAt x.offset with
    | some (.stream, _, _) => true
    | some (.slice, _, _) => true
    | _ => false
  else false

/-- A stream is named by an enabled switch (R217). -/
def State.switchNames (s : State) (i : Nat) : Bool :=
  (s.rows .switch 0).any fun k =>
    s.tabFld .switch k 0 0 1 = 1 && s.tabFld .switch k 0 1 2 = 0 && s.tabFld .switch k 1 0 12 = i

/-- A target that R217 excludes: the stream-table entry of a stream named by an enabled switch. -/
def State.alarmExcluded (s : State) (x : Item) : Bool :=
  match tableAt x.offset with
  | some (.stream, i, _) => x.kind = 1 && s.switchNames i
  | some (.switch, _, _) => true
  | some (.rule, _, _) => true
  | _ => pageOf (x.offset / 0x1000) = some (.alm, 0)

/-- Item `i` lies in no loaded entry but `d` (R320). -/
def State.itemFree (s : State) (d i : Nat) : Bool :=
  (List.range 64).all fun e =>
    e = d || !s.isLoaded e || decide (i < s.dirFirst e) || decide (s.dirFirst e + s.dirCount e ≤ i)

/-- The reason, if any, for which item `i` of entry `d` is refused. DEDUCED (log 47). -/
def State.itemReason (s : State) (d i : Nat) : Option Nat :=
  let x := s.item i
  if 261888 ≤ i ∨ !s.itemFree d i then some 4
  else if 2 ≤ x.kind ∨ x.offset % 4 ≠ 0 ∨ bits (s.itemWord i 0) 28 4 ≠ 0 ∨ s.itemWord i 3 ≠ 0 then some 1
  else if !x.allowed then some 2
  else if s.alarmExcluded x then some 3
  else none

/-- A reserved encoding or a non-zero reserved field in a directory entry. -/
def State.dirBad (s : State) (d : Nat) : Bool :=
  s.dirId d = 0 || s.dirId d = 0xFFFF || s.dirCount d = 0 || 65536 < s.dirCount d || bits (s.dirWord d 0) 16 16 ≠ 0 ||
    bits (s.dirWord d 1) 18 14 ≠ 0 || bits (s.dirWord d 2) 17 15 ≠ 0 || s.dirWord d 3 ≠ 0

/-- Another loaded entry holds the identifier. -/
def State.dirTwice (s : State) (d : Nat) : Bool :=
  (List.range 64).any fun e => e ≠ d && s.isLoaded e && s.dirId e = s.dirId d

/-- The first refused item of an entry, with its reason. -/
def State.badItem (s : State) (d : Nat) : Option (Nat × Nat) :=
  (List.range (s.dirCount d)).findSome? fun i => (s.itemReason d (s.dirFirst d + i)).map fun r => (i, r)

/-- OP = load: the directory entry is checked, then its items in order, then its identifier. DEDUCED (log 47). -/
def State.glzLoad (s : State) (d : Nat) : State :=
  let refuse := fun (reason item : Nat) =>
    ({ s with glz := { s.glz with refused := some (d, reason, item) } }).glzStick 8
  if s.isLoaded d then s
  else if s.dirBad d then refuse 1 0
  else match s.badItem d with
    | some (i, r) => refuse r i
    | none =>
      if s.dirTwice d then refuse 5 0
      else { s with glz := { s.glz with loaded := s.glz.loaded ||| BitVec.ofNat 64 (2 ^ d) } }

/-- OP = unload: refused for the glaze in force or a pending one. DEDUCED (log 47). -/
def State.glzUnload (s : State) (d : Nat) : State :=
  let id := s.dirId d
  let pending : Bool := match s.glz.pend with
    | some c => c.id = id
    | none => false
  if s.glz.nowId = id ∨ pending then s
  else { s with glz := { s.glz with loaded := s.glz.loaded &&& ~~~ (BitVec.ofNat 64 (2 ^ d)) } }

/-- A GLZ_CMD write that the supervisor carries out. -/
def State.runGlzCmd (s : State) (v : Word) : State :=
  let d := bits v 0 6
  match bits v 8 2 with
  | 1 => s.glzLoad d
  | 2 => s.glzUnload d
  | 3 => { s with glz := { s.glz with busy := true, storeDir := d } }
  | _ => s

/-- GLZ_CMD: ignored while a command runs; it waits while the supervisor does not run. DEDUCED (log 47). -/
def State.actGlzCmd (s : State) (v : Word) : State :=
  if s.glz.busy ∨ bits v 8 2 = 0 then s
  else if s.sup.running then s.runGlzCmd v
  else { s with glz := { s.glz with busy := true, waitCmd := some v } }

/-- The waiting GLZ_CMD runs when the supervisor runs again. -/
def State.glzResume (s : State) : State :=
  match s.glz.waitCmd with
  | some v => ({ s with glz := { s.glz with busy := false, waitCmd := none } }).runGlzCmd v
  | none => s

/-- The address of GLZ_CMD. -/
def glzCmd : Nat := ra .glz 0 0x040

def execGlazeLoad (a : Acc) (dir : BitVec 6) (s : State) : Out :=
  .next (s.guarded a glzCmd (BitVec.ofNat 32 (dir.toNat + 0x100)) fun s v => s.actGlzCmd v)

def execGlazeUnload (a : Acc) (dir : BitVec 6) (s : State) : Out :=
  .next (s.guarded a glzCmd (BitVec.ofNat 32 (dir.toNat + 0x200)) fun s v => s.actGlzCmd v)

def execGlazeStore (a : Acc) (dir : BitVec 6) (s : State) : Out :=
  .next (s.guarded a glzCmd (BitVec.ofNat 32 (dir.toNat + 0x300)) fun s v => s.actGlzCmd v)

/-- The next issue number of a base image (R330). -/
def Flash.nextIssue (f : Flash) : Nat :=
  let n := fun (x : Option BaseImage) => match x with
    | some i => i.issue
    | none => 0
  max (n f.base0) (n f.base1) + 1

/-- The glazes of a stored image: the directory and the item area of an image hold no gaps, so entries and items follow
each other in the order of the directory entries stored (R328, R330). DEDUCED (log 94). -/
def State.packGlazes (s : State) (entry first : Nat) : List Nat → List (Nat × Nat × Nat × List Item)
  | [] => []
  | d :: t => (entry, s.dirId d, first, s.dirItems d) :: s.packGlazes (entry + 1) (first + (s.dirItems d).length) t

/-- GLAZE_STORE_DONE (R330): the image goes to the copy not chosen at boot; a failed write leaves that copy unusable and sets WRITE_FAIL
(R397); an image that 4 MiB do not hold leaves it unusable too (R328). DEDUCED (log 154). -/
def execGlazeStoreDone (written : Bool) (s : State) : Out :=
  .next (if !s.glz.busy ∨ s.glz.waitCmd.isSome ∨ !(s.pwr.st = .run ∨ s.pwr.st = .idle) then s
    else
      let loaded := (List.range 64).filter s.isLoaded
      let image : BaseImage := {
        issue := s.flash.nextIssue, items := s.dirItems s.glz.storeDir, bootGlaze := s.glz.nowId,
        glazes := s.packGlazes 0 0 loaded }
      let ok := written && image.fits
      let new := if ok then some image else none
      let flash := if s.upd.baseCopy then { s.flash with base0 := new } else { s.flash with base1 := new }
      let s := { s with flash := flash, glz := { s.glz with busy := false } }
      let s := if written then s else s.stick .flash 0 9
      if ok then s else s.glzStick 17)

/-! ### Mode changes (R323 to R327) -/

/-- Floods a kind 0x08 frame on every up port but the one it came in on. -/
def State.floodMode (s : State) (not : Option Nat) (id flags num target origin : Nat) : State :=
  s.each (s.upPorts.filter fun p => some p ≠ not) fun s p => s.sendLink p 4 0x08 [id, flags, num, target, origin] 16

/-- Milestones from the one emitted last to a number, in the sense of R220. -/
def Tim.toGo (t : Tim) (n : Nat) : Nat := (n + 2 ^ 32 - t.msNum % 2 ^ 32) % 2 ^ 32

/-- A change is newer than every change accepted (R324). DEDUCED (log 48). -/
def State.newerChange (s : State) (num : Nat) : Bool :=
  match s.glz.last with
  | some c => serialNewer 32 num c.num
  | none => true

/-- A received change (R324): accepted when newer, forwarded once, held pending for its target or late; one that a recall named
before it came is discarded (R326). -/
def State.takeChange (s : State) (not : Option Nat) (flood : Bool) (id num target origin : Nat) : State :=
  if !s.newerChange num || s.glz.recalls.contains num then s
  else
    let onTime := s.tim.ahead target && !(s.tim.verge && s.tim.toGo target = 1)
    let c : Change := { id := id, num := num, target := target, due := s.tim.due, late := !onTime, origin := origin }
    let s := { s with glz := { s.glz with last := some c } }
    let s := if flood then s.floodMode not id 0 num target origin else s
    if s.hasGlaze id then { s with glz := { s.glz with pend := some c } }
    else
      let s := { s with glz := { s.glz with pend := none } }
      (s.glzStick 11).waymark 0x21 [id, -1]

/-- A received recall (R326): forwarded once; the last 16 are remembered; one of a change that has been applied is late.
DEDUCED (log 48). -/
def State.takeRecall (s : State) (not : Option Nat) (flood : Bool) (num origin : Nat) : State :=
  if s.glz.recalls.contains num then s
  else
    let s := { s with glz := { s.glz with recalls := (s.glz.recalls ++ [num]).drop (s.glz.recalls.length - 15) } }
    let s := if flood then s.floodMode not 0 1 num 0 origin else s
    let pending : Bool := match s.glz.pend with
      | some c => c.num = num
      | none => false
    if pending then
      ({ s with glz := { s.glz with pend := none } }).waymark 0x22 [num, 0]
    else if s.glz.applied.contains num then (s.glzStick 13).waymark 0x22 [num, 1]
    else s

/-- GLZ_MC (R323). -/
def State.actMc (s : State) (v : Word) : State :=
  let num := (s.reg (ra .glz 0 0x078)).toNat
  let target := (s.reg (ra .glz 0 0x074)).toNat
  let isLocal := bit v 17
  let id := bits v 0 16
  let own := s.fab.addr.getD 0
  let refuse := s.glzStick 9
  if !bit v 31 then s
  else if bit v 16 then
    match s.glz.pend with
    | some c => if c.num = num then s.takeRecall none (!isLocal) num own else refuse
    | none => refuse
  else
    let d := s.tim.toGo target
    if !s.hasGlaze id ∨ !s.tim.ahead target ∨ d < (if isLocal then 1 else 16) ∨ (s.tim.verge ∧ d = 1) then refuse
    else s.takeChange none (!isLocal) id num target own

/-- The address of GLZ_MC. -/
def glzMc : Nat := ra .glz 0 0x070

def execModeChangeGo (a : Acc) (id : BitVec 16) (isLocal : Bool) (s : State) : Out :=
  .next (s.guarded a glzMc (BitVec.ofNat 32 (id.toNat + (if isLocal then 0x20000 else 0) + 2 ^ 31)) fun s v => s.actMc v)

def execModeChangeRecall (a : Acc) (isLocal : Bool) (s : State) : Out :=
  .next (s.guarded a glzMc (BitVec.ofNat 32 (0x10000 + (if isLocal then 0x20000 else 0) + 2 ^ 31)) fun s v => s.actMc v)

/-- MODE_CHANGE_RECEIVE (R324, R326): TC4 frames wait for Run (R350). -/
def execModeChangeReceive (port : Fin 8) (f : ModeFrame) (s : State) : Out :=
  .next (if !(s.pwr.live && (s.pwr.st = .run || s.pwr.st = .idle) && (s.fport port.val).carries) || f.isQuery then s
    else
      let s := s.leaveIdle
      if f.isRecall then s.takeRecall (some port.val) true f.num.toNat f.origin.toNat
      else s.takeChange (some port.val) true f.id.toNat f.num.toNat f.target.toNat f.origin.toNat)

/-- QUERY_RECEIVE (R327): answered with the last accepted change. -/
def execQueryReceive (port : Fin 8) (s : State) : Out :=
  .next (if !(s.pwr.live && (s.pwr.st = .run || s.pwr.st = .idle) && (s.fport port.val).carries) then s
    else match s.glz.last with
      | some c => s.leaveIdle.sendLink port.val 4 0x08 [c.id, 0, c.num, c.target, c.origin] 16
      | none => s.leaveIdle)

/-- A block reset of the GLZ page cancels a pending change and an unfinished load (R331). -/
def State.glzReset (s : State) : State :=
  { s with glz := { s.glz with pend := none, busy := s.glz.busy && s.glz.waitCmd.isNone, waitCmd := none, refused := none } }

end Sys2Proof.Machine
end

