-- ==== Sys2Proof/Machine/Chain.lean ====
section
/-! DEFINITION. The arithmetic of the pipelines (chapter 08): sine table, notch coefficients, the decimation chain, pulse
analysis and features, on one stream's own state. -/

namespace Sys2Proof.Machine

open Sys2Proof

/-! ### Exact sines and cosines -/

/-- π × 2^192, rounded down. -/
def piFix : Nat := 19720096697726538562396133364228268891463450865190089732560

/-- Σ (−1)^i x^(2i + r) / (2i + r)! in units of 2^-192: the terms from `t` on. -/
def trigSum (x2 : Int) : Nat → Nat → Int → Int
  | 0, _, _ => 0
  | n + 1, i, t => t + trigSum x2 n (i + 2) (-(t * x2 / (2 ^ 192 * (i + 1) * (i + 2) : Int)))

/-- sin of an angle in units of 2^-192. -/
def sinFix (x : Int) : Int := trigSum (x * x / 2 ^ 192) 48 1 x

/-- cos of an angle in units of 2^-192. -/
def cosFix (x : Int) : Int := trigSum (x * x / 2 ^ 192) 48 0 (2 ^ 192)

/-- The table S of R95: round(32,767 × sin(2π p / 16,384)), ties away from zero; p modulo 16,384. -/
def sinTab (p : Int) : Int :=
  let q := (p % 16384).toNat
  let h := q % 8192
  let r := if h ≤ 4096 then h else 8192 - h
  let v := divNearestAway (32767 * sinFix (piFix * r / 8192)) (2 ^ 192)
  if q < 8192 then v else -v

/-- The phase of R95 for a tone at DAC tick `n`: bits [39:26] of (FW × n + PH × 2^28) mod 2^40. -/
def tonePhase (fw ph n : Nat) : Nat := (fw * n + ph * 2 ^ 28) % 2 ^ 40 / 2 ^ 26

/-! ### Notch coefficients (R183) -/

/-- The binary64 value nearest π. -/
def piFlt : Flt := fround false piFix (-192) false

/-- The binary64 value nearest cos of a binary64 argument. -/
def fcos (x : Flt) : Flt :=
  let a : Int := if 0 ≤ x.e then x.m * 2 ^ (x.e + 192).toNat
    else if -192 ≤ x.e then x.m * 2 ^ (192 + x.e).toNat else x.m / 2 ^ (-192 - x.e).toNat
  let v := cosFix a
  fround (v < 0) v.natAbs (-192) true

/-- The nearest signed Q2.30 number. -/
def q230 (x : Flt) : Int := satS 32 (ftoInt (fscale x 30))

/-- W in Hz of an SPE_MAINS.NW code. -/
def notchWidth (code : Nat) : Flt := frat (2 ^ code) 4

/-- Coefficients B0, B1, A1, A2 of harmonic `h` at rate 2^nr, for f0 in 2^-16 Hz. -/
def notchCoef (nr h f0 wcode : Nat) : Int × Int × Int × Int :=
  let f := fscale (fint f0) (-16)
  let arg := fscale (fmul (fmul (fmul (fint 2) piFlt) (fint h)) f) (-(nr : Int))
  let c := fcos arg
  let r := fsub (fint 1) (fscale (fmul piFlt (notchWidth wcode)) (-(nr : Int)))
  let two := fint 2
  let rc2 := fmul (fmul two r) c
  let rr := fmul r r
  let g := fdiv (fadd (fsub (fint 1) rc2) rr) (fsub two (fmul two c))
  (q230 g, q230 (fmul (fmul (fneg two) c) g), q230 (fneg rc2), q230 rr)

/-- Harmonic `h` is used: named in HMASK and not above 0.45 of the notch rate (R182). -/
def harmonicUsed (nr hmask f0 h : Nat) : Bool :=
  hmask / 2 ^ (h - 1) % 2 = 1 && decide (20 * (h * f0) ≤ 9 * 2 ^ (nr + 16))

/-! ### The chain (R178 to R182) -/

/-- What the chain of a stream does: input rate, k, C, D; the notch rate, or none where no cascade runs; the interval
exponent and mark selection for the band sums. -/
structure ChainCfg where
  ri : Nat
  k : Nat
  nr : Option Nat
  hmask : Nat
  f0 : Nat
  w : Nat
  j : Int
  deriving DecidableEq, Repr

def ChainCfg.d (c : ChainCfg) : Nat := min c.k 6
def ChainCfg.c (c : ChainCfg) : Nat := c.k - c.d

/-- A value limited to 32 bits, and whether that changed it. -/
def satFlag (v : Int) : Int × Nat := (satS 32 v, if satS 32 v = v then 0 else 1)

/-- The four integrators, each from the new value of the one before, modulo 2^80 (R179). -/
def integrate (x : Int) : List Int → List Int
  | [] => []
  | a :: t => let v := sext 80 (encInt 80 (a + x)); v :: integrate v t

/-- The four combs: the values they keep, and the last difference. -/
def combs (x : Int) : List Int → List Int × Int
  | [] => ([], x)
  | a :: t =>
    let r := combs (sext 80 (encInt 80 (x - a))) t
    (x :: r.1, r.2)

/-- A halfband tap coefficient at an odd offset 2i + 1; the fifteenth makes the sum 2^22 (R180).
DESIGN CHOICE (log 4). -/
def hbCoef (i : Nat) : Int :=
  if i < 14 then Config.hbCoef i else 2 ^ 22 - ((List.range 14).map Config.hbCoef).sum

/-- The output of a halfband stage over its last 59 inputs, newest first. -/
def halfOut (taps : List Int) : Int :=
  let x := fun (n : Nat) => (taps[n]?).getD 0
  2 ^ 23 * x 29 + ((List.range 15).map fun i => hbCoef i * (x (29 - (2 * i + 1)) + x (29 + (2 * i + 1)))).sum

/-- One biquad (R182). -/
def biquad (b : Int × Int × Int × Int) (z : NotchSt) (x : Int) : NotchSt × Int × Nat :=
  let v := shr (b.1 * x + b.2.1 * z.x1 + b.1 * z.x2 - b.2.2.1 * z.y1 - b.2.2.2 * z.y2 + 2 ^ 29) 30
  let y := satFlag v
  (⟨x, z.x1, y.1, z.y1⟩, y.1, y.2)

/-- The notch cascade in ascending harmonics. -/
def cascade (cfg : ChainCfg) (nr : Nat) (z : KMap NotchSt) (x : Int) : KMap NotchSt × Int × Nat :=
  ((List.range 7).map (· + 1)).foldl (fun (a : KMap NotchSt × Int × Nat) h =>
    if harmonicUsed nr cfg.hmask cfg.f0 h then
      let r := biquad (notchCoef nr h cfg.f0 cfg.w) (kget a.1 h {}) a.2.1
      (kset a.1 h r.1 {}, r.2.1, a.2.2 + r.2.2)
    else a) (z, x, 0)

/-- Group delay up to and including `n` halfband stages, in 2^-64 s (R181). -/
def ChainCfg.delay (c : ChainCfg) (n : Nat) : Nat :=
  2 * (2 ^ c.c - 1) * 2 ^ (64 - c.ri) +
    ((List.range n).map fun j => 29 * 2 ^ (64 - c.ri + c.c + j)).sum

/-- The reporting interval that holds an instant in 2^-64 s: 2^J s each (R185). -/
def intervalOf (j : Int) (inst : Int) : Int := inst / (2 ^ (64 + j).toNat : Int)

/-- A stream on its way through the chain: its state, saturations, the value that goes on and its number. -/
structure Pass where
  st : Stream
  sats : Nat
  v : Option Int
  m : Nat
  deriving DecidableEq, Repr

/-- The CIC stage (R179). -/
def Pass.cic (p : Pass) (c : ChainCfg) : Pass :=
  match p.v with
  | none => p
  | some x =>
    if c.c = 0 then p
    else
      let i := integrate x p.st.integ
      let st := { p.st with integ := i }
      if (p.m + 1) % 2 ^ c.c = 0 then
        let r := combs (i.getLastD 0) st.comb
        let y := satFlag (shr (r.2 + 2 ^ (4 * c.c - 1)) (4 * c.c))
        ⟨{ st with comb := r.1 }, p.sats + y.2, some y.1, p.m / 2 ^ c.c⟩
      else ⟨st, p.sats, none, p.m⟩

/-- The notch cascade, where the rate is 2^NR. -/
def Pass.notch (p : Pass) (c : ChainCfg) (rate : Nat) : Pass :=
  match p.v, c.nr with
  | some x, some nr =>
    if nr = rate then
      let r := cascade c nr p.st.notch x
      { p with st := { p.st with notch := r.1 }, sats := p.sats + r.2.2, v := some r.2.1 }
    else p
  | _, _ => p

/-- Halfband stage `j` (R180), with its band sum (R185). -/
def Pass.half (p : Pass) (c : ChainCfg) (inst : Int) (j : Nat) : Pass :=
  match p.v with
  | none => p
  | some x =>
    let key := c.d - j
    let h := kget p.st.halves key {}
    let taps := (x :: h.taps).take 59
    if p.m % 2 = 1 then
      let y := satFlag (shr (halfOut taps + 2 ^ 23) 24)
      let e := (taps[29]?).getD 0 - y.1
      let q := intervalOf c.j (inst - c.delay (j + 1))
      let b := kget h.bands q.toNat (0, 0)
      let bands := if h.invalid || h.offMark || q < p.st.interval then h.bands
                   else kset h.bands q.toNat (b.1 + e.natAbs ^ 2, b.2 + 1) (0, 0)
      let h : HalfSt := { taps := taps, invalid := false, offMark := false, bands := bands }
      ⟨{ p.st with halves := kset p.st.halves key h {} }, p.sats + y.2, some y.1, p.m / 2⟩
    else
      { p with st := { p.st with halves := kset p.st.halves key { h with taps := taps } {} }, v := none }

/-- One chain input of number `m` sampled at `inst`; a substituted or off-mark input marks every stage. -/
def Stream.chain (st : Stream) (c : ChainCfg) (m : Nat) (inst x : Int) (invalid offMark : Bool) : Pass :=
  let note := fun (h : HalfSt) => { h with invalid := h.invalid || invalid, offMark := h.offMark || offMark }
  let halves := (List.range c.d).foldl (fun (hs : KMap HalfSt) i =>
    kset hs (i + 1) (note (kget hs (i + 1) {})) {}) st.halves
  let p : Pass := ⟨{ st with halves := halves }, 0, some x, m⟩
  let p := p.cic c
  let r := c.ri - c.c
  let p := (List.range c.d).foldl (fun (p : Pass) j => (p.notch c (r - j)).half c inst j) p
  p.notch c (r - c.d)

/-! ### Pulse analysis (R186) -/

/-- What pulse analysis takes from the entry: THR, HYS, WMIN, BK and the 31 edges. -/
structure PulseCfg where
  thr : Nat
  hys : Nat
  wmin : Nat
  bk : Nat
  edges : List Nat
  deriving DecidableEq, Repr

/-- A pulse ends: it is ignored, discarded, or goes to its bin. -/
def Pulse.finish (p : Pulse) (c : PulseCfg) (tooLong : Bool) : Pulse :=
  let q : Pulse := { p with inside := false, top := 0, width := 0, spoiled := false }
  if tooLong then { q with overlong := p.overlong + 1 }
  else if p.width < c.wmin then q
  else if p.spoiled then { q with discarded := p.discarded + 1 }
  else
    let height := shr p.top 16
    let k := (c.edges.filter fun (e : Nat) => (e : Int) ≤ height).length
    { q with binned := p.binned + 1, widths := p.widths + p.width, bins := kset p.bins k (kget p.bins k 0 + 1) 0 }

/-- One chain output. -/
def Pulse.take (p : Pulse) (c : PulseCfg) (y : Int) (valid : Bool) : Pulse :=
  match p.base with
  | none => if valid then { p with base := some y } else p
  | some b =>
    if p.inside then
      if y - b ≥ ((c.thr : Int) - c.hys) * 2 ^ 16 then
        let p := { p with top := max p.top (y - b), width := p.width + 1, spoiled := p.spoiled || !valid }
        if 65535 ≤ p.width then p.finish c true else p
      else
        let p := p.finish c false
        if valid then { p with base := some (b + shr (y - b) c.bk) } else p
    else if y - b ≥ (c.thr : Int) * 2 ^ 16 then
      { p with inside := true, top := y - b, width := 1, spoiled := !valid }
    else if valid then { p with base := some (b + shr (y - b) c.bk) } else p

/-- The counts of a record of kind 0x03. -/
def Pulse.values (p : Pulse) : List Int :=
  ([p.binned, p.overlong, p.discarded, satU 31 p.widths] : List Int) ++
    (List.range 32).map fun k => ((kget p.bins k (0 : Nat) : Nat) : Int)

/-- The next interval's counts start at 0; baseline and open pulse go on. -/
def Pulse.restart (p : Pulse) : Pulse :=
  { p with binned := 0, overlong := 0, discarded := 0, widths := 0, bins := [] }

/-! ### Features (R185) -/

/-- A valid output that takes part: its value, whether it falls in the first half, and S at its phase in phase and in
quadrature. -/
def Feat.take (f : Feat) (y : Int) (firstHalf : Bool) (sc ss : Int) : Feat :=
  { n := f.n + 1, s1 := f.s1 + y, s2 := f.s2 + y.natAbs ^ 2,
    mn := if f.n = 0 then y else min f.mn y, mx := if f.n = 0 then y else max f.mx y,
    nA := if firstHalf then f.nA + 1 else f.nA, s1A := if firstHalf then f.s1A + y else f.s1A,
    nB := if firstHalf then f.nB else f.nB + 1, s1B := if firstHalf then f.s1B else f.s1B + y,
    lockC := f.lockC + y * sc, lockS := f.lockS + y * ss }

/-- The unscaled value list of a features record, each with whether it is scaled, and whether the plausibility flag is
required. `bands` holds (Σ h², N_j) per stage. -/
def Feat.values (f : Feat) (fmask : Nat) (bands : List (Nat × Nat)) : List (Int × Bool) × Bool :=
  let on := fun (b : Nat) => fmask / 2 ^ b % 2 = 1
  let n : Int := f.n
  let half := f.nA = 0 || f.nB = 0
  let zero := f.n = 0
  let z := fun (v : Int) => if zero then 0 else v
  let sd : Nat := Nat.sqrt (f.n * f.s2 - f.s1.natAbs ^ 2) / f.n
  let diff : Int := if half then 0 else divNearestAway (f.s1B * f.nA - f.s1A * f.nB) (f.nA * f.nB)
  let band := fun (b : Nat × Nat) => if b.2 = 0 then (0 : Int) else (Nat.sqrt (b.1 / b.2) : Int)
  let vs : List (Int × Bool) :=
    (if on 0 then [(n, false)] else []) ++ (if on 1 then [(z (divNearestAway f.s1 n), true)] else []) ++
    (if on 2 then [(z f.mn, true)] else []) ++ (if on 3 then [(z f.mx, true)] else []) ++
    (if on 4 then [(z (sd : Int), true)] else []) ++ (if on 5 then [(z diff, true)] else []) ++
    (if on 6 then bands.map fun b => (z (band b), true) else []) ++
    (if on 7 then [(z (divNearestAway (2 * f.lockC) (32767 * n)), true),
                   (z (divNearestAway (2 * f.lockS) (32767 * n)), true)] else [])
  (vs, zero || (on 5 && half) || (on 6 && bands.any fun b => b.2 = 0))

/-- A scaled value (R190). -/
def scaleOut (y omul : Int) (osh : Nat) : Int :=
  satS 32 (if osh = 0 then y * omul else shr (y * omul + 2 ^ (osh - 1)) osh)

end Sys2Proof.Machine
end

