-- ==== Sys2Proof/Machine/Chan.lean ====
section
/-! DEFINITION. Channels: their pages and registers (R50), scan masks and hold groups (R128, R136), the factory record
(R153), and the correction of a code (R174 to R176). -/

namespace Sys2Proof.Machine

open Sys2Proof

/-! ### Channels -/

/-- The kinds of channels. -/
inductive ChanKind where
  | ec | ms | fp | ax | internal
  deriving DecidableEq, Repr

/-- The kind of a channel (channel map of chapter 03). -/
def chanKind (c : Nat) : ChanKind :=
  if c < 256 then .ec else if c < 384 then .ms else if c < 448 then .fp else if c < 480 then .ax else .internal

/-- The AFE page number of a channel (R50). -/
def chanPage (c : Nat) : Nat :=
  match chanKind c with
  | .ec => 0x010 + c / 16
  | .ms => 0x020 + (c - 256) / 16
  | .fp => 0x028 + (c - 384) / 16
  | .ax => 0x02C + (c - 448) / 16
  | .internal => 0x02E

/-- The address of register `off` (0, 4, 8 or 12) of a port. -/
def portReg (c off : Nat) : Nat := chanPage c * 0x1000 + 0x040 + c % 16 * 16 + off

/-- AFE_PCFG in force. -/
def State.pcfg (s : State) (c : Nat) : Word := s.reg (portReg c 0)

/-- The configured range, mode or gain. -/
def State.cfgRange (s : State) (c : Nat) : Nat :=
  match chanKind c with
  | .ec => bits (s.pcfg c) 1 4
  | .internal => 0
  | _ => bits (s.pcfg c) 1 3

/-- The range, mode or gain in force (AFE_PSTAT.RANGE_NOW). -/
def State.rangeNow (s : State) (c : Nat) : Nat := (s.port c).range.getD (s.cfgRange c)

/-- The channel is a port with EN = 1 in a page in service, or an internal channel of a page in service. -/
def State.chanEnabled (s : State) (c : Nat) : Bool :=
  s.inService (chanPage c) && (chanKind c = .internal || bit (s.pcfg c) 0)

/-- The port works: enabled and not fault-disabled. -/
def State.chanOn (s : State) (c : Nat) : Bool := s.chanEnabled c && !(s.port c).fdis

/-- Hold-group mode (R62). -/
def State.grouped (s : State) (c : Nat) : Bool := chanKind c ≠ .internal && bits (s.pcfg c) 7 2 = 1

/-- The hold group of a port. -/
def State.holdGroup (s : State) (c : Nat) : Nat := bits (s.pcfg c) 9 4

/-- CNV_HGRP of a group. -/
def State.hgrp (s : State) (g : Nat) : Word := s.reg (ra .alloc 0 (0x100 + 4 * g))

/-- Microseconds in 2^-64 s. -/
def us (n : Nat) : Nat := n * 2 ^ 64 / 1000000

/-- The dead time after a switch into a range (tables of R54, R57, R60), in 2^-64 s. -/
def deadTime (c range : Nat) : Nat :=
  match chanKind c with
  | .ec => us (match range with
    | 0 => 50000 | 1 => 50000 | 2 => 5000 | 3 => 500 | 4 => 50 | _ => 10)
  | .ms => us (match range with
    | 0 => 10 | 1 => 50 | 2 => 500 | 3 => 5000 | _ => 50000)
  | .fp => us 2
  | _ => us 10

/-- A port fault: its AFE_PFAULT bit and the page's summary bit (R74, R76). -/
def State.portFault (s : State) (c n : Nat) : State :=
  let sticky := match n with
    | 0 => 8 | 1 => 9 | 2 => 10 | 3 => 11 | 4 => 12 | 5 => 13 | _ => 14
  (s.orReg (portReg c 12) (bitW n)).stickPage (chanPage c) sticky

/-! ### Scan masks (R128) -/

/-- A channel is enabled in the mask of scan page `n`. -/
def State.inMask (s : State) (n c : Nat) : Bool := s.flag (ra .scan n (0x040 + 4 * (c / 32))) (c % 32)

/-- The channels of a scan page's mask, ascending. -/
def State.maskOf (s : State) (n : Nat) : List Nat :=
  (List.range 16).flatMap fun i =>
    let w := s.reg (ra .scan n (0x040 + 4 * i))
    if w = 0 then [] else ((List.range 32).filter fun b => bit w b).map fun b => 32 * i + b

/-- The scan pages whose mask names a channel. -/
def State.scansOf (s : State) (c : Nat) : List Nat := (List.range 24).filter fun n => s.inMask n c

/-- Visit duration V of a scan page in CKS (R129). -/
def State.visitLen (s : State) (n : Nat) : Nat :=
  let w := s.reg (ra .scan n 0x080)
  bits w 0 3 + bits w 4 4 + bits w 8 8 + 32

/-- P of a scan page. -/
def State.scanP (s : State) (n : Nat) : Nat := s.fld (ra .scan n 0x084) 0 5

/-- One CKS cycle in 2^-64 s. -/
def cks : Nat := 2 ^ 36

/-- The instant of sweep `q` (R131). -/
def State.sweepAt (s : State) (n : Nat) (q : Int) : Int :=
  q * 2 ^ (64 - s.scanP n) + s.fld (ra .scan n 0x084) 8 22 * cks

/-- The pool of a bank: 0 scan, 1 fast, 2 parked; a bank page out of service is parked (R26). -/
def State.pool (s : State) (b : Nat) : Nat := if s.inService (0x040 + b) then s.fld (ra .bank b 0x040) 0 2 else 2

/-- The pool that CNV_BCFG names, whatever the service of the page. -/
def State.poolCfg (s : State) (b : Nat) : Nat := s.fld (ra .bank b 0x040) 0 2

/-- The watch bank (PWR_CFG.WBANK). -/
def State.wbank (s : State) : Nat := s.fld (ra .pwr 0 0x044) 0 5

/-- A bank is parked (R107). -/
def State.parked (s : State) (b : Nat) : Bool := s.pool b = 2 || (s.bank b).parkedTherm

/-- Both banks that convert a checked channel (R112): its partner, if the channel is in that bank's mask too. -/
def State.partnerOf (s : State) (b c : Nat) : Option Nat :=
  let p := s.fld (ra .bank b 0x040) 4 5
  if p < 24 && s.inMask b c && s.inMask p c && p ≠ b then some p else none

/-! ### The factory record (R153, R154) -/

/-- The copy in use: 0, 1, or 3 for neither (CAL_FRSTAT.COPY). DESIGN CHOICE (log 3). -/
def State.frCopy (s : State) : Nat := s.fld (ra .cal0 0 0x058) 0 2

/-- A byte of a copy of the factory record: the revision and the reserved bytes as R153 states them, the others as fused in
each unit. DESIGN CHOICE (log 3). -/
def fusedByte (copy off : Nat) : Byte :=
  if off = 0x408 then 0xB0
  else if off = 0x40B ∨ (0x488 ≤ off ∧ off < 0x490) ∨ (0xFB8 ≤ off ∧ off < 0xFF8) then 0
  else Config.fused copy off

/-- `n` bytes of the factory record at an offset, as a number. DESIGN CHOICE (log 3). -/
def State.factory (s : State) (off n : Nat) : Nat :=
  let copy := if s.frCopy = 1 then 1 else 0
  ofLeBytes ((List.range n).map fun i => fusedByte copy (off + i))

/-- The device uses nominal values. -/
def State.nominal (s : State) : Bool := 2 ≤ s.frCopy

/-- The measured voltage of reference X at 25 °C: binary32, in volts. -/
def State.refVolt (s : State) (x : Nat) : Flt := if s.nominal then frat 12 10 else f32 (s.factory (0x40C + 4 * x) 4)

/-- The temperature coefficient of a reference: binary32, in ppm/°C. -/
def State.refTc (s : State) (x : Nat) : Flt := if s.nominal then ⟨0, 0⟩ else f32 (s.factory (0x418 + 4 * x) 4)

/-- The range factor of a channel and carried index; 1.0 for internal channels and for indices that the record does not
hold (R175). -/
def State.rangeFactor (s : State) (c idx : Nat) : Flt :=
  let at_ := fun (i : Nat) => if s.nominal then fint 1 else f32 (s.factory (0x424 + 4 * i) 4)
  match chanKind c with
  | .ec => if idx ≤ 8 then at_ idx else fint 1
  | .ms => if idx ≤ 4 then at_ (9 + idx) else fint 1
  | .fp => if idx ≤ 5 then at_ (14 + idx) else fint 1
  | .ax => if idx ≤ 4 then at_ (20 + idx) else fint 1
  | .internal => fint 1

/-- A field of a trim word at 25 °C: OFS, GAIN or DLY, 10 bits each. -/
def State.factoryTrim (s : State) (b sl k : Nat) : Int :=
  if s.nominal then 0 else sext 10 (s.factory (0x490 + 4 * (b * 17 + sl)) 4 / 2 ^ (10 * k))

/-- A temperature coefficient of a trim, in 1/64 tap per °C. -/
def State.factoryTc (s : State) (b sl k : Nat) : Int :=
  if s.nominal then 0 else sext 8 (s.factory (0xAF0 + 3 * (b * 17 + sl) + k) 1)

/-- The selected reference. -/
def State.refSel (s : State) : Nat := s.fld (ra .cal0 0 0x040) 0 2

/-! ### The calibration tone (R171) -/

/-- The sine of the tone's phase at fabric time `t`, in 2^-192: FREQ × 2^20 Hz, counted from the last whole second. -/
def tonePhaseFix (freq t : Nat) : Int := 2 * piFix * (freq * t % 2 ^ 44) / 2 ^ 44

/-- The voltage at IN16 at an instant, in 2^-20 of the full scale of 1.25 V. DESIGN CHOICE (log 104). -/
def State.toneAt (s : State) (t : Nat) : Int :=
  let w := s.reg (ra .cal7 7 0x04C)
  let amp := if bit w 16 then bits w 0 8 else 0
  2 ^ 19 + divNearestAway (amp * 2 ^ 20 * sinFix (tonePhaseFix (bits w 8 8) (t % 2 ^ 64))) (500 * 2 ^ 192)

/-- The mean of IN16 over a window, as its element holds it (R61, R70). DESIGN CHOICE (log 104). -/
def State.toneOver (s : State) (start stop : Nat) : Int :=
  let w := s.reg (ra .cal7 7 0x04C)
  let amp := bits w 0 8
  let freq := bits w 8 8
  if !bit w 16 || freq = 0 || stop ≤ start then s.toneAt stop
  else
    let a := cosFix (tonePhaseFix freq (start % 2 ^ 64))
    let b := cosFix (tonePhaseFix freq (stop % 2 ^ 64))
    2 ^ 19 + divNearestAway (amp * 2 ^ 64 * (a - b)) (1000 * freq * (stop - start) * piFix)

/-! ### Correction (R174 to R176) -/

/-- SPE_CORR of a channel on a pipeline's page. -/
def State.speCorr (s : State) (b c : Nat) : Word := s.reg (ra .pipe b (0x800 + 4 * c))

/-- The gain K of a channel and carried range index (R175). -/
def State.gainK (s : State) (b c idx : Nat) : Int :=
  let g := fscale (fint (bits (s.speCorr b c) 16 16)) (-15)
  let x := fmul (fmul g (s.rangeFactor c idx)) (fdiv (s.refVolt s.refSel) (frat 12 10))
  max 0 (min (ftoInt (fscale x 20)) 4194303)

/-- The corrected word of a slice code (R174). -/
def correctCode (code ofs k : Int) : Int := satS 16 (shr ((4 * code - ofs) * k + 2 ^ 19) 20)

/-- The corrected word of a code of a channel on pipeline `b`. -/
def State.corrected (s : State) (b c idx : Nat) (code : Int) : Int :=
  correctCode code (sext 16 (bits (s.speCorr b c) 0 16)) (s.gainK b c idx)

/-- A visit value (R114, R176): the sum of the corrected words, with the offset and gain of the sample instant (R15). -/
def Flight.value (f : Flight) : Int := (f.codes.map fun x => correctCode x f.ofs f.gain).sum

end Sys2Proof.Machine
end

