-- ==== Sys2Proof/Machine/Ports.lean ====
section
/-! DEFINITION. Cell ports (chapter 03): hold instants and windows, dead times, bias, the WE–RE short, port faults, and
what a milestone does to a port. -/

namespace Sys2Proof.Machine

open Sys2Proof

/-- The analogue side runs: the device is clocked and awake, and after a wake its first milestone has passed (R355). -/
def State.running (s : State) : Bool := s.tim.locked && s.pwr.clocked && !s.pwr.waking && s.pwr.woke.isNone

/-- A spot visit to the channel has begun (R115). -/
def State.spotOn (s : State) (c : Nat) : Bool :=
  (List.range 24).any fun b => (s.bank b).spot.pending && (s.bank b).spot.started && (s.bank b).spot.ch = c

/-- The window element of a channel works: the channel is enabled, its group is active if it holds in a group (R136) or a
spot holds it (R115), and the scan tap of a fast port is powered. -/
def State.holds (s : State) (c : Nat) : Bool :=
  s.chanOn c && (!s.grouped c || bit (s.hgrp (s.holdGroup c)) 0 || s.spotOn c) && (chanKind c ≠ .fp || bit (s.pcfg c) 6)

/-- The bias a port goes to, in BIAS codes: 0 with ZB (R51, R52). -/
def State.biasTarget (s : State) (c : Nat) : Int :=
  if bit (s.pcfg c) 13 then 0 else s.sfld (portReg c 4) 0 16

/-- How far a bias moves in a span of 2^-64 s at AFE_PCFG.SLEW, in 2^-16 of a BIAS code of 2.5 V / 65,536: 1 V/ms for 0,
ten times less for each step (R51, R52). -/
def rampMove (slew span : Nat) : Nat := span * 10 ^ (4 - slew) / (100 * 2 ^ 30)

/-- The bias reached at an instant, in 2^-16 of a BIAS code (R52). -/
def State.biasAt (s : State) (c t : Nat) : Int :=
  let p := s.port c
  if !p.ramping then p.bias
  else
    let d := s.biasTarget c * 65536 - p.bias
    let n := min d.natAbs (rampMove (bits (s.pcfg c) 15 3) (t - p.rampAt))
    if d < 0 then p.bias - n else p.bias + n

/-- The ramp has reached its target (R52). -/
def State.rampOver (s : State) (c : Nat) : Bool := s.biasAt c s.tim.time = s.biasTarget c * 65536

/-- A window that starts at an instant carries BLANK: it lies in a dead time, or in the enable sequence of an EC port
until its ramp ends (R54, R65, R73). -/
def Port.blankAt (p : Port) (t : Nat) : Bool := p.engaging || (p.ramping && p.startRamp) || decide (t < p.blankEnd)

/-- Limited or fault-disabled heater engine of an MS port (bit 7 of its mark byte). -/
def State.marks7 (s : State) (e : Nat) : Nat := if s.seq.limitedNow || (s.engine e).st = .fault then 128 else 0

/-- Starts the window of a channel at an instant: the other element is reset and integrates (R61), with the mark in
force (R87). -/
def State.startWindow (s : State) (c t : Nat) (blank : Bool) : State :=
  let p := s.port c
  let e := s.engine (c - 256)
  let ms := chanKind c = .ms
  s.setPort c { p with winStart := t, winBlank := blank, elemB := !p.elemB,
                       markStart := if ms then e.mark else 0, markBits := if ms then s.marks7 (c - 256) else 0 }

/-- The marker of a window that closes now, the worst of VALID, BLANK, OVERLOAD and FAULT (R65, R74).
DEDUCED (log 90). -/
def windowMarker (p : Port) (overload heaterFault : Bool) : Nat :=
  if p.compliance || p.isOpen || p.clamp || heaterFault then 3
  else if overload then 2 else if p.winBlank then 1 else 0

/-- A slot is enabled. -/
def State.slotOn (s : State) (n k : Nat) : Bool := s.flag (ra .imp n (0x0C0 + 4 * k)) 15

/-- The channel of a slot. -/
def State.slotChan (s : State) (n k : Nat) : Nat := s.fld (ra .imp n (0x0C0 + 4 * k)) 0 9

/-- The enabled slots, ascending. -/
def State.slotsOn (s : State) (n : Nat) : List Nat := (List.range 32).filter fun k => s.slotOn n k

/-- The next enabled slot after `k`, cyclically. -/
def State.nextSlot (s : State) (n k : Nat) : Option Nat :=
  let l := s.slotsOn n
  match l.find? fun j => k < j with
  | some j => some j
  | none => l.head?

/-- The length of a period of an impedance engine, 2^E s, in 2^-64 s. -/
def State.impPeriod (s : State) (n : Nat) : Nat := 2 ^ ((64 : Int) + sext 5 (s.fld (ra .imp n 0x040) 1 5)).toNat

/-- Periods of a visit: SETTLE + NPER. -/
def State.impPeriods (s : State) (n : Nat) : Nat := s.fld (ra .imp n 0x040) 9 4 + s.fld (ra .imp n 0x040) 13 8

/-- The instant at which the visit in progress ends. -/
def State.impEnd (s : State) (n : Nat) : Nat := (s.imp n).start + s.impPeriods n * s.impPeriod n

/-- The channel in visit. -/
def State.impChan (s : State) (n : Nat) : Nat := (s.imp n).ch

/-- The slot that follows the visit in progress, and its channel (R97). -/
def State.impNext (s : State) (n : Nat) : Option (Nat × Nat) :=
  (s.nextSlot n (s.imp n).slot).map fun k => (k, s.slotChan n k)

/-- The visit of an engine at an instant: its slot, its channel and its first period, counted from the visit in progress; the
next visit begins where that one ends, whether or not its end has been commanded (R97). -/
def State.impVisit (s : State) (n t : Nat) : Option (Nat × Nat × Nat) :=
  let e := s.imp n
  if !e.active || t < e.start then none
  else if t < s.impEnd n then some (e.slot, e.ch, 0)
  else (s.impNext n).map fun x => (x.1, x.2, s.impPeriods n)

/-- An EC port with an impedance engine's excitation on it in a window [start, stop) (R97). -/
def State.excitedIn (s : State) (c start stop : Nat) : Bool :=
  chanKind c = .ec && (List.range 24).any fun n =>
    let e := s.imp n
    e.active && ((e.ch = c && decide (start < s.impEnd n) && decide (e.start < stop)) ||
      ((s.impNext n).any fun x => x.2 = c && decide (s.impEnd n < stop)))

/-- A window value, in 2^-20 of the full scale of its range, is that of an open port (R74): below 1 % of full scale on an EC
port; on an MS port a film resistance, the lower limit of the range over the value (R57), above 15 GΩ. -/
def openValue (c range : Nat) (v : Int) : Bool :=
  match chanKind c with
  | .ec => 100 * v.natAbs < 2 ^ 20
  | .ms => 15 * 10 ^ 9 * v.natAbs < 2 ^ 20 * (match range with
    | 0 => 10 ^ 3 | 1 => 3 * 10 ^ 4 | 2 => 10 ^ 6 | 3 => 3 * 10 ^ 7 | _ => 10 ^ 9)
  | _ => false

/-- What a window that ends adds to its period: its value for automatic ranging (R56), which a saturated window raises by two
also where a fault marks it FAULT and not OVERLOAD (DESIGN CHOICE, log 135), and for the open condition (R74). -/
def State.noteWindow (s : State) (c : Nat) (win : WindowIn) : State :=
  let p := s.port c
  s.setPort c { p with sawWindow := true, sawOverload := p.sawOverload || win.overload, openSeen := true,
                       openBad := p.openBad || !openValue c (s.rangeNow c) win.value,
                       peak := max p.peak win.value.natAbs }

/-- A due range or gain change acts at the hold instant, and its dead time starts (R54). -/
def State.takeRange (s : State) (c at_ : Nat) : State :=
  let p := s.port c
  match p.change with
  | none => s
  | some r =>
    s.setPort c { p with change := none, range := if r = s.cfgRange c then none else some r,
                         blanking := true, blankEnd := at_ + deadTime c r,
                         sawWindow := false, sawOverload := false, peak := 0, quiet := 0 }

/-- The start of the visit by place `k` of the sweep of bank `b` (R129). DEDUCED (log 96). -/
def State.visitStart (s : State) (b k : Nat) : Nat := (s.scan b).sweepStart + cks * (k / 16 * (s.scan b).visitLen)

/-- The hold instant of a channel that is due: the latest by now and after the start of its window, of its group, or the start
of the break step of a visit to a channel held per visit, or of a spot visit to any (R62, R115, R136, R138). The strobe of the
command may come up to a CKR cycle after the instant. DEDUCED (log 96). -/
def State.holdAt (s : State) (c : Nat) : Option Nat :=
  let t := s.tim.time
  let w := s.hgrp (s.holdGroup c)
  let per := 2 ^ (64 - bits w 1 5)
  let off := cks * bits w 8 22 % per
  let group := if s.grouped c && bit w 0 && decide (off ≤ t) then [(t - off) / per * per + off] else []
  let visits := if s.grouped c then [] else (List.range 24).filterMap fun b =>
    if (s.scan b).running then ((s.scan b).channels.idxOf? c).map (s.visitStart b) else none
  let spots := (List.range 24).filterMap fun b =>
    let x := (s.bank b).spot
    if x.pending && x.started && x.ch = c then some x.startAt else none
  let at_ := ((group ++ visits ++ spots).filter fun a => decide (a ≤ t)).foldl max 0
  if (s.port c).winStart < at_ then some at_ else none

/-- The number of a hold instant on the grid of a channel's group (R136). -/
def State.groupIndex (s : State) (c stop : Nat) : Nat :=
  let g := s.hgrp (s.holdGroup c)
  (stop - bits g 8 22 * cks) / 2 ^ (64 - bits g 1 5)

/-- The start of the window that integrates: that of a channel without a hold instant since the last reset starts at the
first milestone after it (R134). -/
def State.winFrom (s : State) (c : Nat) : Nat := max (s.port c).winStart s.pwr.liveAt

/-- The pipelines that may process a channel's codes. -/
def State.chanPipes (s : State) (c : Nat) : List Nat := s.scansOf c

/-- What a window that closes now is held with: offset and gain by pipeline (R15, R175). -/
def State.corrNow (s : State) (c : Nat) : KMap (Int × Int) :=
  (s.chanPipes c).map fun b => (b, sext 16 (bits (s.speCorr b c) 0 16), s.gainK b c (s.rangeNow c))

/-- The window of a channel closes at its hold instant, and the next one starts (R61); IN16 presents the calibration tone
(R171). DEDUCED (log 55). -/
def State.holdNow (s : State) (c at_ : Nat) (win : WindowIn) : State :=
  let p := s.port c
  let ms := chanKind c = .ms
  let heater := ms && (s.engine (c - 256)).st = .fault
  let win := if c = 496 then { win with value := s.toneOver (s.winFrom c) at_ } else win
  let held : HeldWin :=
    { start := s.winFrom c, stop := at_, value := win.value, marker := windowMarker p win.overload heater,
      index := s.rangeNow c, markByte := if ms then p.markStart + p.markBits else 0, neg := p.pol,
      excited := p.excited || s.excitedIn c (s.winFrom c) at_, corr := s.corrNow c, coef := (s.spe.coefF0, s.spe.coefW)
      m := s.groupIndex c at_ }
  let s := s.setPort c { p with held := some held, visits := 0, excited := false }
  let s := s.noteWindow c win
  let s := if win.overload && chanKind c ≠ .internal then s.portFault c 0 else s
  let s := s.takeRange c at_
  let q := s.port c
  let s := if chanKind c = .ax then s.setPort c { q with pol := bit (s.pcfg c) 6 && !q.pol } else s
  s.startWindow c at_ ((s.port c).blankAt at_)

/-- DEAD_TIME_END (R54, R59): the dead time has passed. -/
def execDeadTimeEnd (ch : Fin 480) (s : State) : Out :=
  let p := s.port ch.val
  .next (if p.blanking && s.running && decide (p.blankEnd ≤ s.tim.time) then s.setPort ch.val { p with blanking := false }
    else s)

/-- BIAS_RAMP_END (R52, R73): the bias has reached its target at the rate of SLEW. -/
def execBiasRampEnd (ch : Fin 256) (s : State) : Out :=
  let p := s.port ch.val
  .next (if p.ramping && s.running && s.rampOver ch.val then
      s.setPort ch.val { p with ramping := false, startRamp := false, bias := s.biasTarget ch.val * 65536 }
    else s)

/-- EC_SHORT_OPEN (R73): 100 µs after the enable the short opens and the ramp begins. -/
def execEcShortOpen (ch : Fin 256) (s : State) : Out :=
  let p := s.port ch.val
  let ramps : Bool := s.biasTarget ch.val * 65536 ≠ p.bias
  .next (if p.engaging && s.running && decide (p.shortOpen ≤ s.tim.time) then
      s.setPort ch.val { p with engaging := false, shortClosed := false, ramping := ramps, startRamp := ramps,
                                rampAt := p.shortOpen }
    else s)

/-! ### Port faults (R74) -/

/-- PORT_COMPLIANCE: CE at a compliance limit for 1 ms; or (`on` false) the condition no longer holds. -/
def execPortCompliance (x : PortCond 256) (s : State) : Out :=
  let c := x.port.val
  .next (if s.running && s.chanOn c then
      let s := s.setPort c { s.port c with compliance := x.on }
      if x.on then s.portFault c 1 else s
    else s)

/-- PORT_OPEN: after 16 whole periods in which the condition held. -/
def execPortOpen (ch : Fin 480) (s : State) : Out :=
  let p := s.port ch.val
  .next (if s.running && s.chanOn ch.val && ch.val < 384 && 16 ≤ p.openCount && !p.isOpen then
      (s.setPort ch.val { p with isOpen := true }).portFault ch.val 2
    else s)

/-- A change of range or gain that still waits for its hold instant as the port goes out of service: it replaces the value in
force, without a dead time, as R54 has it for one that falls due while the port is disabled. DESIGN CHOICE (log 134). -/
def State.settleRange (s : State) (c : Nat) : State :=
  let p := s.port c
  match p.change with
  | none => s
  | some r => s.setPort c { p with change := none, range := if r = s.cfgRange c then none else some r }

/-- PORT_SHORT: the port is fault-disabled; the short of an EC port closes (R72). -/
def execPortShort (ch : Fin 480) (s : State) : Out :=
  let k := chanKind ch.val
  .next (if s.running && s.chanOn ch.val && k ≠ .fp then
      let s := s.settleRange ch.val
      let p := s.port ch.val
      let s := s.setPort ch.val { p with fdis := true, fdisCleared := false, held := none, blanking := false, blankEnd := 0,
                                         shortClosed := true, engaging := false, ramping := false, startRamp := false,
                                         bias := 0 }
      s.portFault ch.val 3
    else s)

/-- PORT_CLAMP: PB goes to 0 V; or (`on` false) the condition no longer holds. -/
def execPortClamp (x : PortCond 64) (s : State) : Out :=
  let c := 384 + x.port.val
  .next (if s.running && s.chanOn c then
      if x.on then (s.setPort c { s.port c with clamp := true, pbCut := true }).portFault c 4
      else s.setPort c { s.port c with clamp := false }
    else s)

/-- HOLDER_LIMIT (R71): noted in Deep Sleep, reported at the wake. -/
def execHolderLimit (ch : Fin 256) (s : State) : Out :=
  .next (if s.pwr.st = .deepSleep && s.chanOn ch.val then
      s.setPort ch.val { s.port ch.val with holderLimited := true }
    else s)

/-- The report of a limited holder at the wake (R71). -/
def State.reportHolders (s : State) : State :=
  s.upTo 256 fun s c =>
    let p := s.port c
    if p.holderLimited then (s.setPort c { p with holderLimited := false }).portFault c 6 else s

/-! ### The milestone -/

/-- The range that automatic ranging picks from the period just closed (R56, R58). DEDUCED (log 54). -/
def autoPick (c now : Nat) (fall : Bool) (p : Port) : Option Nat :=
  let top := if chanKind c = .ec then 8 else 4
  let bottom := if chanKind c = .ec then 1 else 0
  if p.sawOverload then some (min (now + 2) top)
  else if 9 * 2 ^ 20 ≤ 10 * p.peak then some (min (now + 1) top)
  else if fall && 16 ≤ p.quiet && bottom < now then some (now - 1)
  else none

/-- The quiet count after a period (R56). DEDUCED (log 54). -/
def Port.nextQuiet (p : Port) : Nat :=
  if !p.sawWindow then p.quiet
  else if 100 * p.peak < 7 * 2 ^ 20 && !p.sawOverload then p.quiet + 1 else 0

/-- A milestone ends a period of a channel: open condition (R74; a period without a window does not meet it: DESIGN CHOICE, log
137), monitors, automatic ranging (R56). DEDUCED (log 54). -/
def State.portPeriod (s : State) (m : MsIn) (c : Nat) : State :=
  let p := s.port c
  let held := p.openSeen && !p.openBad && (chanKind c = .ms || (chanKind c = .ec && m.openHeld.any fun x => x.val = c))
  let ended := m.faultEnd.any fun x => x.val = c
  let mon := match m.mon.find? fun x => x.1.val = c with
    | some x => x.2
    | none => p.mon
  let open_ := held && s.chanOn c
  let p := { p with openCount := if open_ then p.openCount + 1 else 0, isOpen := p.isOpen && open_,
                    compliance := p.compliance && !ended, clamp := p.clamp && !ended,
                    mon := if chanKind c = ChanKind.ec || chanKind c = ChanKind.ax then mon else 0 }
  let p := { p with quiet := p.nextQuiet, openSeen := false, openBad := false }
  let auto : Nat := match chanKind c with
    | .ec => bits (s.pcfg c) 5 2
    | .ms => bits (s.pcfg c) 4 2
    | _ => 0
  let now := s.rangeNow c
  let pick := if auto = 0 || !p.sawWindow || !s.chanOn c then none else autoPick c now (auto = 2) p
  let p := { p with sawWindow := false, sawOverload := false, peak := 0 }
  match pick with
  | none => s.setPort c p
  | some r => if r = now then s.setPort c p else s.setPort c { p with change := some r, quiet := 0 }

/-- A field of a word was committed or glazed at this milestone (R56). DEDUCED (log 56). -/
def State.isTouched (s : State) (a lsb width : Nat) : Bool :=
  s.acc.touched.any fun w => w.1 = a && bits w.2 lsb width ≠ 0

/-- Width of the range, mode or gain field. -/
def rangeWidth (c : Nat) : Nat := if chanKind c = .ec then 4 else 3

/-- A port is enabled at a milestone (R54, R60, R73): EC, MS and AX ports begin with the dead time of the range or gain in
force; an FP port has one only after a change of its MODE (R59). Its first window starts at that milestone, as R134 has it for
a port enabled in a mask (DESIGN CHOICE, log 126), and its count of quiet periods starts at 0 (DESIGN CHOICE, log 136). -/
def State.portEnable (s : State) (c : Nat) : State :=
  let s := s.settleRange c
  let p := s.port c
  let ec := chanKind c = .ec
  let dead : Bool := chanKind c ≠ .fp
  let t := s.tim.time
  let s := s.setPort c { p with blanking := dead || p.blanking
                                blankEnd := if dead then t + deadTime c (s.rangeNow c) else p.blankEnd
                                pol := false, held := none, engaging := ec, shortClosed := ec, shortOpen := t + us 100
                                bias := 0, ramping := false, startRamp := false, quiet := 0, peak := 0
                                sawWindow := false, sawOverload := false, openCount := 0, openSeen := false, openBad := false, pbCut := false
                                compliance := false, isOpen := false, clamp := false }
  s.startWindow c t ((s.port c).blankAt t)

/-- A port is disabled at a milestone: its short closes (R72), and a change that waited replaces the value in force
(R54). -/
def State.portDisable (s : State) (c : Nat) : State :=
  let s := s.settleRange c
  let p := s.port c
  s.setPort c { p with held := none, blanking := false, blankEnd := 0, shortClosed := true, engaging := false,
                       ramping := false, startRamp := false, bias := 0, compliance := false, isOpen := false,
                       clamp := false, openCount := 0, mon := 0 }

/-- A configured range, mode or gain reaches a port at a milestone (R54, R59): `was` is the value in force before, and
`on` says that the port works before and after. DEDUCED (log 56). -/
def State.portRange (s : State) (c was : Nat) (on : Bool) : State :=
  let p := s.port c
  let cfg := s.cfgRange c
  if was = cfg then s.setPort c { p with range := none, change := none }
  else if chanKind c = .fp then
    s.setPort c { p with range := none, change := none, blanking := s.chanOn c, blankEnd := s.tim.time + us 2 }
  else if !on then s.setPort c { p with range := none, change := none }
  else s.setPort c { p with range := some was, change := some cfg }

/-- A new bias, rate or ZB of an EC port that works: the bias moves on from the value reached (R52). `s0` is the state
before. -/
def State.biasSync (s s0 : State) (c : Nat) : State :=
  let q := s.port c
  let t := s.tim.time
  let now := s0.biasAt c t
  if q.engaging then s
  else if bit (s.pcfg c) 13 then s.setPort c { q with bias := 0, ramping := false, startRamp := false }
  else if s.biasTarget c = s0.biasTarget c && bits (s.pcfg c) 15 3 = bits (s0.pcfg c) 15 3 then s
  else
    let ramps : Bool := s.biasTarget c * 65536 ≠ now
    s.setPort c { q with bias := now, rampAt := t, ramping := ramps, startRamp := q.startRamp && ramps }

/-- What the values in force after step 4 of a milestone do to a port: fault-disable (R75), range, bias, service. `s0` is
the state before the glaze switch and the commits. PB, which a CLAMP has set to 0 V, returns with a commit of AFE_PSET or
when the port is enabled again. DESIGN CHOICE (log 103). -/
def State.portSync (s s0 : State) (c : Nat) : State :=
  let en := bit (s.pcfg c) 0
  let p := s.port c
  let p := if p.fdis && !en then { p with fdisCleared := true }
           else if p.fdis && p.fdisCleared && en then { p with fdis := false, fdisCleared := false } else p
  let s := s.setPort c p
  let on0 := s0.chanOn c
  let on1 := s.chanOn c
  let changed := s.pcfg c ≠ s0.pcfg c && s.cfgRange c ≠ s0.cfgRange c
  let s := if changed || s.isTouched (portReg c 0) 1 (rangeWidth c) then s.portRange c (s0.rangeNow c) (on0 && on1)
           else s
  if on0 && !on1 then s.portDisable c
  else if !on0 && on1 then s.portEnable c
  else if on1 && chanKind c = .ec then s.biasSync s0 c
  else if on1 && chanKind c = .fp && s.isTouched (portReg c 4) 0 8 then
    s.setPort c { s.port c with pbCut := false }
  else s

/-- The channel works now and is in a mask, or has become so: the first windows of R134 and R70 start at the
milestone. -/
def State.windowFrom (s s0 : State) (c : Nat) : State :=
  let perVisit := !s.grouped c
  let newly := !(s.scansOf c).isEmpty && (s0.scansOf c).isEmpty
  if s.chanOn c && perVisit && newly then s.startWindow c s.tim.time ((s.port c).blankAt s.tim.time) else s

/-- After a time step every held channel's first window starts at the milestone (R140). -/
def State.windowsAfterStep (s : State) : State :=
  s.upTo 512 fun s c => if s.chanOn c then s.startWindow c s.tim.time ((s.port c).blankAt s.tim.time) else s

end Sys2Proof.Machine
end

