-- ==== Sys2Proof/Machine/Heaters.lean ====
section
/-! DEFINITION. Heater profile engines and event flags (chapter 04): ticks, operations, control, faults, the supply
limit, waits and stalls, and the checks of a COMMIT. -/

namespace Sys2Proof.Machine

open Sys2Proof

/-! ### Registers and program words -/

/-- The address of register `off` of an engine (R77). -/
def engReg (e off : Nat) : Nat := ra .htr (e / 16) (0x040 + e % 16 * 0x20 + off)

/-- The address of a program word of an engine's page. -/
def progAddr (e w : Nat) : Nat := ra .htr (e / 16) (0x400 + 4 * w)

def State.ecfg (s : State) (e : Nat) : Word := s.reg (engReg e 0)
def State.eRun (s : State) (e : Nat) : Bool := bit (s.ecfg e) 0
def State.eStart (s : State) (e : Nat) : Nat := bits (s.ecfg e) 1 10
def State.eLen (s : State) (e : Nat) : Nat := bits (s.ecfg e) 11 10
def State.vmax (s : State) (e : Nat) : Nat := s.fld (engReg e 4) 0 12
def State.rcold (s : State) (e : Nat) : Nat := s.fld (engReg e 8) 0 16

/-- Fields of a program word. -/
def opOf (w : Word) : Nat := bits w 28 4
def argOf (w : Word) : Nat := bits w 16 12
def unitOf (w : Word) : Nat := bits w 14 2
def durOf (w : Word) : Nat := bits w 0 14

/-- A word lies in an engine's region. -/
def State.inRegion (s : State) (e w : Nat) : Bool := s.eStart e ≤ w && w < s.eStart e + s.eLen e

/-- The heater tick at or before now, in 2^-20 s (R79). -/
def State.tickNow (s : State) : Nat := s.tim.time / 2 ^ 44

/-- An engine may act in the power state: in Sleep under a watch profile only (R84), and its page is in service.
DEDUCED (log 89). -/
def State.engineLive (s : State) (e : Nat) : Bool :=
  s.running && s.inService (0x030 + e / 16) && (s.pwr.st ≠ .sleep || bit (s.ecfg e) 21)

/-- It is a heater tick, whose flag changes and drives have acted (R79). DEDUCED (log 156). -/
def State.onTick (s : State) : Bool := s.seq.tick = s.tickNow && decide (s.tim.time % 2 ^ 44 < s.tim.perCycle)

/-- The engine may act at this tick. -/
def State.engineNow (s : State) (e : Nat) : Bool := s.engineLive e && s.onTick

/-- The engine stands between two operations, at a word of its region, at a tick. -/
def State.ready (s : State) (e : Nat) : Bool :=
  let g := s.engine e
  g.st = .timed && g.segLen = 0 && g.untimed < 17 && s.inRegion e g.pc && s.engineNow e

/-- The program word at which an engine stands. -/
def State.progWord (s : State) (e : Nat) : Word := s.reg (progAddr e (s.engine e).pc)

/-- HTR_ILIM in µA. -/
def State.ilim (s : State) : Nat := s.fld (ra .htr 0 0x240) 0 12 * 1000

/-- A drive code as the supply limit leaves it: scaled by ILIM / total, rounded down, while the limitation is in force and the
total exceeds ILIM (R90). DEDUCED (log 57). -/
def State.limited (s : State) (d : Nat) : Nat :=
  if s.seq.limitedNow && s.ilim < s.seq.total then d * s.ilim / s.seq.total else d

/-- The drive that leaves the device (R78, R90): never above VMAX, and scaled while the supply limit acts. -/
def State.applyDrive (s : State) (e raw : Nat) : State :=
  let g := s.engine e
  let d := min raw (s.vmax e)
  s.setEngine e { g with rawDrive := d, drive := s.limited d }

/-- A MARK or a limitation inside the window of the engine's MS port (R87). -/
def State.noteMark (s : State) (e m : Nat) : State :=
  let p := s.port (256 + e)
  s.setPort (256 + e) { p with markBits := Nat.lor p.markBits m }

/-! ### Operations (R80) -/

/-- The operation at which an engine stands, if it is this one and the engine is ready. -/
def State.atOp (s : State) (e op : Nat) (act : State → Word → State) : State :=
  if s.ready e && opOf (s.progWord e) = op then act s (s.progWord e) else s

/-- An untimed operation has been executed; the engine goes on at `pc`. -/
def State.untimed (s : State) (e pc : Nat) : State :=
  let g := s.engine e
  s.setEngine e { g with pc := pc, untimed := g.untimed + 1 }

/-- A segment begins at the tick now (R79, R80). -/
def State.segment (s : State) (e : Nat) (w : Word) (start target : Int) (closed : Bool) : State :=
  let g := s.engine e
  s.setEngine e { g with segOp := opOf w, segStart := start, segTarget := target, segTick := s.tickNow,
                         segLen := durOf w * 16 ^ unitOf w, closed := closed, firstCtl := true, untimed := 0 }

/-- The value of a ramp at tick `i` of `n`, rounded to nearest, ties away from zero (VRAMP rule). -/
def rampAt (start target : Int) (i n : Nat) : Int :=
  if n ≤ i then target else start + divNearestAway ((target - start) * i) n

/-- An engine stops with its drive at 0 V (R80 STOP, R83). -/
def State.stopEngine (s : State) (e : Nat) : State :=
  let g := s.engine e
  s.setEngine e { g with st := .stopped, drive := 0, rawDrive := 0, closed := false, segLen := 0, untimed := 0,
                         isSync := false, flagReq := g.flagReq }

/-- STOP: as the 17th untimed operation in succession it is counted, and the engine goes to HEATER_PROG_FAULT (R82). -/
def execStop (e : Fin 128) (s : State) : Out :=
  .next (s.atOp e.val 0 fun s _ =>
    let g := s.engine e.val
    if 16 ≤ g.untimed then s.untimed e.val g.pc else s.stopEngine e.val)

def execVset (e : Fin 128) (s : State) : Out :=
  .next (s.atOp e.val 1 fun s w => (s.segment e.val w (argOf w) (argOf w) false).applyDrive e.val (argOf w))

def execVramp (e : Fin 128) (s : State) : Out :=
  .next (s.atOp e.val 2 fun s w => s.segment e.val w (s.engine e.val).drive (argOf w) false)

/-- A closed-loop segment from a setpoint. -/
def State.closedSegment (s : State) (e : Nat) (w : Word) (start : Int) : State :=
  let s := s.segment e w start (argOf w) true
  s.setEngine e { s.engine e with setpoint := start }

def execTset (e : Fin 128) (s : State) : Out :=
  .next (s.atOp e.val 3 fun s w => s.closedSegment e.val w (argOf w))

def execTramp (e : Fin 128) (s : State) : Out :=
  .next (s.atOp e.val 4 fun s w =>
    let g := s.engine e.val
    s.closedSegment e.val w (if g.closed then g.setpoint else g.temp))

def execMark (e : Fin 128) (s : State) : Out :=
  .next (s.atOp e.val 5 fun s w =>
    let g := s.engine e.val
    let m := argOf w % 64
    let s := if g.mark = m then s else s.noteMark e.val 64
    (s.setEngine e.val { g with mark := m }).untimed e.val (g.pc + 1))

def execFlag (e : Fin 128) (s : State) : Out :=
  .next (s.atOp e.val 6 fun s w =>
    let g := s.engine e.val
    let req := g.flagReq ++ [(argOf w % 64, decide (argOf w / 64 % 2 = 1))]
    (s.setEngine e.val { g with flagReq := req }).untimed e.val (g.pc + 1))

def execWait (e : Fin 128) (s : State) : Out :=
  .next (s.atOp e.val 7 fun s w =>
    let g := s.engine e.val
    s.setEngine e.val { g with st := .waiting, isSync := false, waitFlag := argOf w % 64,
                               waitVal := argOf w / 64 % 2 = 1, waitLeft := durOf w * 16 ^ unitOf w, untimed := 0 })

def execJump (e : Fin 128) (s : State) : Out :=
  .next (s.atOp e.val 8 fun s w => s.untimed e.val (argOf w % 1024))

/-- LOOP: the counter is loaded when it is 0, then decremented, as a number of the 14 bits of DUR. DEDUCED (log 156). -/
def execLoop (e : Fin 128) (s : State) : Out :=
  .next (s.atOp e.val 9 fun s w =>
    let g := s.engine e.val
    let second := argOf w / 1024 % 2 = 1
    let c := if second then g.loop1 else g.loop0
    let n := ((if c = 0 then durOf w else c) + 16383) % 16384
    let g := if second then { g with loop1 := n } else { g with loop0 := n }
    (s.setEngine e.val g).untimed e.val (if n ≠ 0 then argOf w % 1024 else g.pc + 1))

def execSync (e : Fin 128) (s : State) : Out :=
  .next (s.atOp e.val 10 fun s _ =>
    s.setEngine e.val { s.engine e.val with st := .waiting, isSync := true, untimed := 0 })

/-- An engine goes on at `pc`, ready for the next operation. -/
def State.goOn (s : State) (e pc : Nat) : State :=
  let g := s.engine e
  s.setEngine e { g with st := .timed, pc := pc, segLen := 0, isSync := false }

/-- SYNC_REACHED (R80): the tick now is a multiple of 2^-ARG s. -/
def execSyncReached (e : Fin 128) (s : State) : Out :=
  let g := s.engine e.val
  let n := argOf (s.progWord e.val) % 32
  .next (if g.st = .waiting && g.isSync && s.engineNow e.val && s.tickNow % 2 ^ (20 - n) = 0 then
      s.goOn e.val (g.pc + 1)
    else s)

/-- The value of an event flag at the start of the tick in progress (R91). -/
def State.eventFlag (s : State) (n : Nat) : Bool := s.seq.flags.getLsbD n

/-- WAIT_SATISFIED (R92). -/
def execWaitSatisfied (e : Fin 128) (s : State) : Out :=
  let g := s.engine e.val
  .next (if g.st = .waiting && !g.isSync && s.engineNow e.val && s.eventFlag g.waitFlag = g.waitVal then
      (s.setEngine e.val { g with timeout := false }).goOn e.val (g.pc + 1)
    else s)

/-- The timeout path of a WAIT (R92). -/
def State.waitOut (s : State) (e : Nat) : State :=
  let g := s.engine e
  (s.setEngine e { g with timeout := true }).goOn e (g.pc + 2)

def execWaitTimeout (e : Fin 128) (s : State) : Out :=
  let g := s.engine e.val
  .next (if g.st = .waiting && !g.isSync && s.engineNow e.val && g.waitLeft = 0 then s.waitOut e.val else s)

/-- SEGMENT_END (R80): the segment has lasted its ticks. -/
def execSegmentEnd (e : Fin 128) (s : State) : Out :=
  let g := s.engine e.val
  .next (if g.st = .timed && g.segLen ≠ 0 && s.engineNow e.val && g.segTick + g.segLen ≤ s.tickNow then
      let s := if g.segOp = 2 then s.applyDrive e.val g.segTarget.toNat else s
      let g := s.engine e.val
      (s.setEngine e.val { g with setpoint := if g.segOp = 4 then g.segTarget else g.setpoint }).goOn e.val (g.pc + 1)
    else s)

/-! ### The heater tick (R79, R91) -/

/-- Sets or clears an event flag. -/
def flagTo (f : BitVec 64) (n : Nat) (v : Bool) : BitVec 64 :=
  if v then f ||| BitVec.ofNat 64 (2 ^ n) else f &&& ~~~ (BitVec.ofNat 64 (2 ^ n))

/-- The flags with the changes of the tick in progress (R91): operations in ascending engine number, then software writes in
order. Flags that scan sequencers set come between the two, of which R91 says nothing. DESIGN CHOICE (log 111). -/
def State.flagsNext (s : State) : BitVec 64 :=
  let f := s.engines.foldl (fun f (g : Nat × Engine) => g.2.flagReq.foldl (fun f r => flagTo f r.1 r.2) f) s.seq.flags
  let f := s.seq.dueSweeps.foldl (fun f n => flagTo f n true) f
  s.seq.dueRequests.foldl (fun f (r : BitVec 64 × Bool) => if r.2 then f ||| r.1 else f &&& ~~~ r.1) f

/-- The drive and setpoint of an engine at a tick (R79, R80). -/
def State.driveTick (s : State) (e : Nat) : State :=
  let g := s.engine e
  if !s.engineLive e || g.st = .stopped || g.st = .fault then
    (if g.drive = 0 then s else s.setEngine e { g with drive := 0 })
  else if g.segLen = 0 || g.st = .waiting then s
  else
    let i := s.tickNow - g.segTick
    if g.segOp = 2 then s.applyDrive e (rampAt g.segStart g.segTarget i g.segLen).toNat
    else if g.segOp = 4 then s.setEngine e { g with setpoint := rampAt g.segStart g.segTarget i g.segLen }
    else s

/-- The flags at the starts of the ticks of the longest sweep period (R135), with those that a tick starts with. -/
def Seq.noted (q : Seq) (f : BitVec 64) (tick : Nat) : List (Nat × BitVec 64) :=
  if f = q.flags then q.past
  else
    let past := if q.past.isEmpty then [(0, q.flags)] else q.past
    let new := past.filter fun x => decide (tick < x.1 + 2 ^ 15)
    (tick, f) :: new ++ (past.drop new.length).take 1

/-- The flags at the start of a heater tick (R91): in one that no command has brought yet, with what the tick before changes. -/
def State.flagsAt (s : State) (tick : Nat) : BitVec 64 :=
  if s.seq.tick < tick then s.flagsNext
  else ((s.seq.past.find? fun x => decide (x.1 ≤ tick)).map fun x => x.2).getD s.seq.flags

/-- HEATER_TICK: time goes to the next tick unless one has not acted yet; the tick starts with the flags that the last one has
left, its requests are those accepted since, and drives follow. -/
def execHeaterTick (s : State) : Out :=
  let s := if s.tickNow ≠ s.seq.tick || s.tim.perCycle = 0 then s
           else s.elapse (s.tim.cyclesIn ((s.tickNow + 1) * 2 ^ 44 - s.tim.time))
  .next (if !s.running || s.tickNow = s.seq.tick then s
    else
      let f := s.flagsNext
      let clear := fun (g : Nat × Engine) => (g.1, { g.2 with flagReq := [] })
      let s := { s with engines := (s.engines.map clear).filter fun (g : Nat × Engine) => g.2 ≠ ({} : Engine),
                        seq := { s.seq with flags := f, past := s.seq.noted f s.tickNow, dueRequests := s.seq.requests, dueSweeps := s.seq.sweepFlags
                                            requests := [], sweepFlags := [], tick := s.tickNow } }
      s.each (s.engines.map (·.1)) fun s e => s.driveTick e)

/-- SEQ_FSET or SEQ_FCLR: a request for the next tick, in order of acceptance (R91). -/
def State.actFlags (s : State) (hi isSet : Bool) (v : Word) : State :=
  let m : BitVec 64 := BitVec.ofNat 64 (if hi then v.toNat * 2 ^ 32 else v.toNat)
  { s with seq := { s.seq with requests := s.seq.requests ++ [(m, isSet)] } }

def execSeqFset (a : Acc) (hi : Bool) (val : Word) (s : State) : Out :=
  .next (s.guarded a (ra .seq 0 (if hi then 0x04C else 0x048)) val fun s v => s.actFlags hi true v)

def execSeqFclr (a : Acc) (hi : Bool) (val : Word) (s : State) : Out :=
  .next (s.guarded a (ra .seq 0 (if hi then 0x054 else 0x050)) val fun s v => s.actFlags hi false v)

/-! ### Closed-loop temperature (R85, R86) and the supply limit (R90) -/

/-- The temperature from voltage and current in 0.125 °C: 25 °C + (Rh / RCOLD − 1) / α. DESIGN CHOICE (log 17). -/
def heaterTemp (volt cur rcold alpha : Nat) : Int :=
  if alpha = 0 then Config.tempFree volt cur
  else
    let den : Int := 4095 * cur * rcold * alpha
    let num : Int := 2 ^ 27 * (volt * 25000000 - 4095 * cur * rcold)
    200 + divOpen num den

/-- One engine's measurement: the current at every control tick, the temperature where it is estimated. -/
def State.measure (s : State) (m : HeaterMeas) : State :=
  let e := m.engine.val
  let g := s.engine e
  let rc := s.rcold e
  let t := if rc = 0 then 0 else if 25 ≤ m.cur then heaterTemp m.volt m.cur rc (s.fld (engReg e 8) 16 16) else g.temp
  let tmax := s.fld (engReg e 4) 16 12
  s.setEngine e { g with cur := satU 12 m.cur, temp := t,
                         hot := if rc ≠ 0 && (tmax : Int) < t then g.hot + 1 else 0 }

/-- The control step of R85; frozen while the supply limit is in force (R90). DEDUCED (log 57). -/
def State.controlStep (s : State) (e : Nat) : State :=
  let g := s.engine e
  if !g.closed || g.st = .stopped || g.st = .fault || s.seq.limitedNow || !s.engineLive e then s
  else
    let err := g.setpoint - g.temp
    let u0 : Int := if g.firstCtl then g.drive else g.uPrev
    let e0 := if g.firstCtl then err else g.ePrev
    let kp : Int := s.fld (engReg e 12) 0 16
    let ki : Int := s.fld (engReg e 12) 16 16
    let u := min (max (u0 + shrNearestUp (kp * (err - e0) + ki * err) 8) 164) (s.vmax e)
    let s := s.setEngine e { g with uPrev := u, ePrev := err, firstCtl := false }
    s.applyDrive e u.toNat

/-- Every running engine's drive follows the supply limit (R90). -/
def State.scaleDrives (s : State) : State :=
  s.each (s.engines.map (·.1)) fun s e =>
    let g := s.engine e
    if g.st = .timed || g.st = .waiting then s.setEngine e { g with drive := s.limited g.rawDrive } else s

/-- It is a control tick, every 16th heater tick, that has not acted (R85). -/
def State.onControl (s : State) : Bool := s.onTick && decide (s.tickNow % 16 = 0) && decide (s.seq.ctl ≠ s.tickNow + 1)

/-- CONTROL_TICK (R85, R86, R90). -/
def execControlTick (total : Nat) (meas : List HeaterMeas) (s : State) : Out :=
  .next (if !s.running || !s.onControl then s
    else
      let s := s.each meas fun s m => s.measure m
      let exceeds := s.ilim < total
      let first := exceeds && !s.seq.limitedNow
      let quiet := if 100 * total < 95 * s.ilim then s.seq.quietTicks + 1 else 0
      let s := { s with seq := { s.seq with limitedNow := s.seq.limitedNow || exceeds, quietTicks := quiet, total := total
                                            ctl := s.tickNow + 1 } }
      let s := if exceeds then s.stick .htr 0 13 else s
      let s := if first then s.upTo 128 fun s e => if s.port (256 + e) = ({} : Port) then s else s.noteMark e 128 else s
      let s := s.each (s.engines.map (·.1)) fun s e => s.controlStep e
      if s.seq.limitedNow then s.scaleDrives else s)

/-- LIMITATION_END (R90): 16 consecutive control ticks below 95 % of ILIM. -/
def execLimitationEnd (s : State) : Out :=
  .next (if s.seq.limitedNow && 16 ≤ s.seq.quietTicks && s.onTick then
      ({ s with seq := { s.seq with limitedNow := false } }).scaleDrives
    else s)

/-! ### Heater faults (R82, R88, R89) -/

/-- A heater fault fault-disables its engine and is reported (R88). -/
def State.heaterFault (s : State) (e n : Nat) (out : HtrOut) : State :=
  let g := s.engine e
  let s := s.setEngine e { g with st := .fault, runCleared := false, drive := 0, rawDrive := 0, out := out,
                                  closed := false, segLen := 0, untimed := 0 }
  let s := (s.orReg (engReg e 0x18) (bitW n)).stick .htr (e / 16) (8 + n)
  if s.port (256 + e) = ({} : Port) then s else s.noteMark e 128

/-- The engine detects faults. -/
def State.detects (s : State) (e : Nat) : Bool := s.engineLive e && (s.engine e).st ≠ .fault

/-- HEATER_PROG_FAULT (R82): 17 untimed operations in succession, or execution would leave the region. -/
def execHeaterProgFault (e : Fin 128) (s : State) : Out :=
  let g := s.engine e.val
  .next (if s.detects e.val && g.st = .timed && g.segLen = 0 && (17 ≤ g.untimed || !s.inRegion e.val g.pc) then
      s.heaterFault e.val 4 .ground1k
    else s)

/-- HEATER_SHORT_GND: observable from 0.2 V of drive. -/
def execHeaterShortGnd (e : Fin 128) (s : State) : Out :=
  .next (if s.detects e.val && 164 ≤ (s.engine e.val).drive then s.heaterFault e.val 0 .ground1k else s)

/-- HEATER_SHORT_VHTR: observable up to 4.5 V of drive. -/
def execHeaterShortVhtr (e : Fin 128) (s : State) : Out :=
  .next (if s.detects e.val && (s.engine e.val).drive ≤ 3685 then s.heaterFault e.val 1 .highZ else s)

/-- HEATER_OPEN: observable from 0.5 V of drive. -/
def execHeaterOpen (e : Fin 128) (s : State) : Out :=
  .next (if s.detects e.val && 410 ≤ (s.engine e.val).drive then s.heaterFault e.val 2 .ground1k else s)

/-- HEATER_OVERTEMP: above TMAX at four consecutive control ticks. -/
def execHeaterOvertemp (e : Fin 128) (s : State) : Out :=
  .next (if s.detects e.val && 4 ≤ (s.engine e.val).hot && s.rcold e.val ≠ 0 then
      s.heaterFault e.val 3 .ground1k
    else s)

/-! ### Start and stop at a milestone (R83, R84, R89) -/

/-- An engine starts at START with its mark and loop counters at 0; the drive in force is held, without control, until the
first timed operation (R83). HTR_ESTAT.TIMEOUT, of which R92 says only when it is set, is 0 from the start.
DESIGN CHOICE (log 112). -/
def State.startEngine (s : State) (e : Nat) : State :=
  let g := s.engine e
  let s := if g.mark = 0 then s else s.noteMark e 64
  s.setEngine e { g with st := .timed, pc := s.eStart e, mark := 0, loop0 := 0, loop1 := 0, untimed := 0, segLen := 0,
                         out := .drive, isSync := false, closed := false, timeout := false, runCleared := false, hot := 0 }

/-- A VMAX that a milestone brings cuts the drive in force (R78). -/
def State.cutDrive (s : State) (e : Nat) : State :=
  let g := s.engine e
  if s.vmax e < g.rawDrive then s.applyDrive e g.rawDrive else s

/-- What step 4 does to an engine: RUN, changes of its region, the end of a fault. `s0` is the state before. A page that goes
out of service and back ends no fault-disable, which R89 ends by RUN alone; R26 names neither. Where RUN reads 0 already when
the fault is detected, the next milestone counts as the one with RUN = 0. DEDUCED (log 89), DESIGN CHOICE (logs 114, 140). -/
def State.engineSync (s s0 : State) (e : Nat) : State :=
  let s := s.cutDrive e
  let g := s.engine e
  let runTouched := s.isTouched (engReg e 0) 0 1
  let moved := s.eStart e ≠ s0.eStart e || s.eLen e ≠ s0.eLen e ||
    s.acc.touched.any fun w =>
      let a0 := progAddr e (s.eStart e)
      a0 ≤ w.1 && w.1 < a0 + 4 * s.eLen e && s.reg w.1 ≠ s0.reg w.1
  let go := s.eRun e && s.inService (0x030 + e / 16)
  if g.st = .fault then
    if !s.eRun e then s.setEngine e { g with runCleared := true }
    else if g.runCleared && go then s.startEngine e else s
  else if !go then (if g.st = .stopped then s else s.stopEngine e)
  else if g.st = .stopped then
    (if runTouched || !s0.eRun e || !s0.inService (0x030 + e / 16) then s.startEngine e else s)
  else if moved then s.startEngine e
  else s

/-- Waits count milestones (R92). -/
def State.waitsDown (s : State) : State :=
  s.each (s.engines.map (·.1)) fun s e =>
    let g := s.engine e
    if g.st = .waiting && !g.isSync then s.setEngine e { g with waitLeft := g.waitLeft - 1 } else s

/-! ### Stalls (R94) -/

/-- How a member of a wait group stands: `none` if it is stopped, by Sleep too (R349, R350), or fault-disabled, else whether it waits and on which
flag. Heater engines are 0 to 127, impedance engines 128 to 151, scan sequencers 152 to 175. -/
def State.memberWait (s : State) (g m : Nat) : Option (Bool × Option Nat) :=
  if m < 128 then
    let x := s.engine m
    if bits (s.ecfg m) 22 4 ≠ g then none
    else match x.st with
      | .stopped | .fault => none
      | .timed => some (false, none)
      | .waiting => some (true, if x.isSync then none else some x.waitFlag)
  else if m < 152 then
    let n := m - 128
    if s.flag (ra .imp n 0x040) 0 && s.inService (0x0A0 + n) && s.fld (ra .imp n 0x040) 21 4 = g &&
        s.pwr.st ≠ .sleep then some (false, none)
    else none
  else
    let n := m - 152
    let w := s.reg (ra .scan n 0x088)
    if s.pool n = 0 && !(s.maskOf n).isEmpty && bits w 8 4 = g && s.inService (0x059 + n) &&
        (s.pwr.st ≠ .sleep || n = s.wbank) then
      (if (s.scan n).gated then some (true, some (bits w 0 6)) else some (false, none))
    else none

/-- A flag is marked external in SEQ_FEXT. -/
def State.isExternal (s : State) (n : Nat) : Bool := s.flag (ra .seq 0 (0x058 + 4 * (n / 32))) (n % 32)

/-- The members of a group that are not stopped, ascending. -/
def State.liveMembers (s : State) (g : Nat) : List (Nat × Bool × Option Nat) :=
  (List.range 176).filterMap fun m => (s.memberWait g m).map fun x => (m, x)

/-- The group is stalled now (R94). A member that waits in SYNC waits on no flag: it neither makes nor hinders a stall, and a
release passes it over. DESIGN CHOICE (log 112). -/
def State.stalled (s : State) (g : Nat) : Bool :=
  let ms := s.liveMembers g
  ms.any (fun x => x.2.2.isSome) && ms.all fun x => x.2.1 && (match x.2.2 with
    | some f => !s.isExternal f
    | none => true)

/-- The stall detector at a milestone. -/
def State.stallDetect (s : State) : State :=
  s.upTo 16 fun s g =>
    let n := kget s.seq.stall g 0
    let v := if s.stalled g then n + 1 else 0
    if v = n then s else { s with seq := { s.seq with stall := kset s.seq.stall g v 0 } }

/-- STALL_RELEASE (R94): the lowest-numbered member that waits on a flag goes on through its timeout path. -/
def execStallRelease (g : Fin 16) (s : State) : Out :=
  .next (if kget s.seq.stall g.val 0 < 16 then s
    else match (s.liveMembers g.val).find? fun x => x.2.2.isSome with
      | none => s
      | some (m, _) =>
        let s := { s with seq := { s.seq with stall := kset s.seq.stall g.val 0 0 } }
        let s := (s.stick .seq 0 8).setReg (ra .seq 0 0x060) (BitVec.ofNat 32 (m + g.val * 256 + 2 ^ 31))
        if m < 128 then s.waitOut m
        else
          let n := m - 152
          (s.setScan n { s.scan n with force := true, waited := 0, gated := false }).stick .scan n 11)

/-! ### Checks of a COMMIT (R81, R93) -/

/-- A program word that R81 refuses in the region that starts at `a` and has `n` words. Bits of ARG above those that MARK, FLAG,
WAIT, JUMP, LOOP and SYNC use count as beyond the stated range. DESIGN CHOICE (log 115). -/
def badWord (w : Word) (a n rcold : Nat) : Bool :=
  let op := opOf w
  let arg := argOf w
  let ticks := durOf w * 16 ^ unitOf w
  let outside := fun (x : Nat) => x < a || a + n ≤ x
  if 11 ≤ op then true
  else if 1 ≤ op && op ≤ 4 then ticks < 128 || ((op = 3 || op = 4) && rcold = 0)
  else if op = 5 then 64 ≤ arg
  else if op = 6 then 128 ≤ arg
  else if op = 7 then 128 ≤ arg || durOf w = 0 || 2 ^ 20 < ticks
  else if op = 8 then 1024 ≤ arg || outside arg
  else if op = 9 then 2048 ≤ arg || outside (arg % 1024)
  else if op = 10 then 20 < arg
  else false

/-- R81 refuses the engine's program. -/
def State.badProgram (s : State) (e : Nat) : Bool :=
  let a := s.eStart e
  let n := s.eLen e
  s.eRun e && (768 < a + n || (List.range n).any fun i => badWord (s.reg (progAddr e (a + i))) a n (s.rcold e))

/-- R81 refuses the page. -/
def State.badPrograms (s : State) (page : Nat) : Bool := (List.range 16).any fun p => s.badProgram (page * 16 + p)

/-- Words that follow a word in a running engine's program, the timeout path of a WAIT among them; none after STOP. -/
def State.follows (s : State) (e w : Nat) : List Nat :=
  let v := s.reg (progAddr e w)
  match opOf v with
  | 0 => []
  | 7 => [w + 1, w + 2]
  | 8 => [argOf v % 1024]
  | 9 => [argOf v % 1024, w + 1]
  | _ => [w + 1]

/-- The words reached from `todo` without passing a word that ends the walk; those words are reached too. -/
def State.walk (s : State) (e : Nat) (ends : Nat → Bool) : Nat → List Nat → List Nat → List Nat
  | 0, _, seen => seen
  | _, [], seen => seen
  | n + 1, w :: todo, seen =>
    if seen.contains w || !s.inRegion e w then s.walk e ends n todo seen
    else if ends w then s.walk e ends n todo (w :: seen)
    else s.walk e ends n (s.follows e w ++ todo) (w :: seen)

/-- A WAIT of a running program: engine, word, flag, value. -/
structure WaitNode where
  eng : Nat
  word : Nat
  flag : Nat
  val : Bool
  deriving DecidableEq, Repr

/-- The flag and value of a FLAG or WAIT word. -/
def flagArg (w : Word) : Nat × Bool := (argOf w % 64, argOf w / 64 % 2 = 1)

/-- The WAITs of all engines with RUN = 1. DEDUCED (log 57). -/
def State.waitNodes (s : State) : List WaitNode :=
  (List.range 128).flatMap fun e =>
    if s.eRun e then
      (List.range (s.eLen e)).filterMap fun i =>
        let v := s.reg (progAddr e (s.eStart e + i))
        if opOf v = 7 then some ⟨e, s.eStart e + i, (flagArg v).1, (flagArg v).2⟩ else none
    else []

/-- What FLAG operations set behind a WAIT before the next one. -/
def State.behind (s : State) (x : WaitNode) : List (Nat × Bool) :=
  let ends := fun w => opOf (s.reg (progAddr x.eng w)) = 7
  let ws := s.walk x.eng ends (3 * 768 + 3) [x.word + 1] []
  ws.filterMap fun w =>
    let v := s.reg (progAddr x.eng w)
    if opOf v = 6 then some (flagArg v) else none

/-- The timeout path of a WAIT comes back to a WAIT of the cycle without STOP and without a FLAG that the cycle awaits
(R93). -/
def State.comesBack (s : State) (cycle : List WaitNode) (x : WaitNode) : Bool :=
  let inCycle := fun w => cycle.any fun (y : WaitNode) => y.eng = x.eng && y.word = w
  let helps := fun w =>
    let v := s.reg (progAddr x.eng w)
    opOf v = 6 && cycle.any fun (y : WaitNode) => (y.flag, y.val) = flagArg v
  let ws := s.walk x.eng (fun w => inCycle w || helps w) (3 * 768 + 3) [x.word + 2] []
  ws.any inCycle

/-- Cycles through `start` that extend a path (newest node first), with no timed exit. -/
def State.cycleFrom (s : State) (edges : List (WaitNode × List WaitNode)) (start : WaitNode) :
    Nat → List WaitNode → Bool
  | 0, _ => false
  | _, [] => false
  | n + 1, x :: path =>
    let next := ((edges.find? fun p => p.1 = x).map (·.2)).getD []
    next.any fun y =>
      if y = start then (x :: path).all fun z => s.comesBack (x :: path) z
      else !(x :: path).contains y && s.cycleFrom edges start n (y :: x :: path)

/-- R93: the wait graph of all running engines holds a cycle with no timed exit. An edge leads from a WAIT to each WAIT
behind which its flag gets the value it awaits. DEDUCED (log 57). -/
def State.waitCycle (s : State) : Bool :=
  let ns := s.waitNodes
  let behind := ns.map fun x => (x, s.behind x)
  let edges := ns.map fun x =>
    (x, (behind.filter fun (p : WaitNode × List (Nat × Bool)) => p.2.contains (x.flag, x.val)).map (·.1))
  ns.any fun x => s.cycleFrom edges x (ns.length + 1) [x]

/-! ### Reading -/

/-- What the heater output does in the power state (R84, table of cell-side states). -/
def State.heaterOut (s : State) (e : Nat) : HtrOut :=
  match s.pwr.st with
  | .deepSleep => .ground1k
  | .off => .highZ
  | _ => (s.engine e).out

/-- HTR_ESTAT. -/
def State.estat (s : State) (e : Nat) : Nat :=
  let g := s.engine e
  let code := match g.st with
    | .stopped => 0 | .timed => 1 | .waiting => 2 | .fault => 3
  g.pc % 1024 + code * 1024 + (if g.timeout then 8192 else 0) + (if s.seq.limitedNow then 16384 else 0) + g.mark * 65536

/-- HTR_EMEAS; with RCOLD = 0, TEMP reads 0 (R86). DESIGN CHOICE (log 17). -/
def State.emeas (s : State) (e : Nat) : Nat :=
  let g := s.engine e
  (if s.rcold e = 0 then 0 else if 0 ≤ g.temp ∧ g.temp < 4096 then g.temp.toNat else (Config.tempField g.temp).toNat) + g.cur * 65536

end Sys2Proof.Machine
end

