-- ==== Sys2Proof/Machine/Streams.lean ====
section
/-! DEFINITION. The stream processor (chapter 08): where a stream's samples come from, what a sample does to it, records,
intervals, mains tracking, and what a milestone does to a stream. -/

namespace Sys2Proof.Machine

open Sys2Proof

/-! ### The entry in effect -/

/-- A field of a stream's entry in effect. -/
def State.sf (s : State) (i w lsb width : Nat) : Nat := s.effFld .stream i w lsb width

def State.sKind (s : State) (i : Nat) : Nat := s.sf i 0 1 3
def State.sSrc (s : State) (i : Nat) : Nat := s.sf i 0 4 10
def State.sRate (s : State) (i : Nat) : Nat := s.sf i 1 0 6
def State.sJ (s : State) (i : Nat) : Int := sext 5 (s.sf i 4 16 5)

/-- The channel of a stream of kinds 1 to 3. -/
def State.sChan (s : State) (i : Nat) : Option Nat :=
  if 1 ≤ s.sKind i ∧ s.sKind i ≤ 3 then some (s.sSrc i % 512) else none

/-! ### Sources (R172, R178) -/

/-- A channel is a source of the fast path: a fast port that no scan mask names (log entry 24). DEDUCED (log 24). -/
def State.fastSource (s : State) (c : Nat) : Bool := chanKind c = .fp && (s.scansOf c).isEmpty

/-- The bank whose pipeline processes a channel, with the BSEL bit of the stream. DEDUCED (log 24). -/
def State.chanBank (s : State) (c : Nat) (high : Bool) : Option Nat :=
  if s.fastSource c then some (s.place (c - 384)).bank
  else match s.scansOf c with
    | [] => none
    | [a] => some a
    | a :: b :: _ => some (if high then b else a)

/-- The pipeline of a stream. -/
def State.streamBank (s : State) (i : Nat) : Option Nat :=
  match s.sChan i with
  | some c => s.chanBank c (s.sf i 0 14 1 = 1)
  | none => none

/-- The MIN size of a fast port: its entry in the slice-allocation table counts as the default one until one is swapped in
(R149). -/
def State.minSize (s : State) (p : Nat) : Nat :=
  if !s.acc.placed.contains p then 3 else bits (s.reg (TableId.slice.addr p 0)) 4 3

/-- The exponent of the rate of a fast port at a size code: 2^28 S/s for one slice. -/
def sizeRate (sz : Nat) : Nat := 27 + sz

/-- The input rate 2^ri of a channel on a bank: 2^P, 2^Q in a hold group, or that of the placement; in Sleep 2^(P − 8) on
the watch bank (R349); 0 for none. -/
def State.chanRate (s : State) (c b : Nat) : Nat :=
  if s.pwr.st = .sleep then (if b = s.wbank && !s.fastSource c then s.scanP b - 8 else 0)
  else if s.fastSource c then
    let p := s.place (c - 384)
    sizeRate (if p.size = 0 then s.minSize (c - 384) else p.size)
  else if s.grouped c then bits (s.hgrp (s.holdGroup c)) 1 5
  else s.scanP b

/-- The input rate of a stream now, 0 where it has no source. -/
def State.streamRate (s : State) (i : Nat) : Nat :=
  match s.sChan i, s.streamBank i with
  | some c, some b => s.chanRate c b
  | _, _ => 0

/-- The notch cascade can run at D stages (R182). -/
def State.notchReach (s : State) (i ri : Nat) : Bool :=
  let nr := s.sf i 1 6 5
  let ro := s.sRate i
  10 ≤ nr && nr ≤ 16 && ro ≤ nr && nr ≤ ro + min (ri - ro) 6

/-- What the chain of a stream does at its input rate. -/
def State.chainCfg (s : State) (i : Nat) : ChainCfg :=
  let st := s.stream i
  let nen := s.sf i 1 11 1 = 1
  { ri := st.ri, k := st.ri - s.sRate i, nr := if nen && !st.notchBypass then some (s.sf i 1 6 5) else none,
    hmask := s.sf i 1 12 7, f0 := s.spe.coefF0, w := s.spe.coefW, j := s.sJ i }

/-- Streams in service on a channel and pipeline, ascending. -/
def State.streamsOn (s : State) (c b : Nat) : List Nat :=
  (s.spe.streams.filter fun p => p.2.active && !p.2.suspended && decide (s.sChan p.1 = some c) &&
    decide (s.streamBank p.1 = some b)).map (·.1)

/-! ### Flags and epochs (R188) -/

/-- The die-to-die link of a bank is bad (R12); of a paired port also that of the follower. -/
def State.linkFault (s : State) (b : Nat) (paired : Bool) : Bool :=
  s.sup.linkBad.getLsbD b || (paired && s.sup.linkBad.getLsbD (b + 1))

/-- The flags of an input of a channel on a bank that was sampled in an epoch: throttled, island time, plausibility faults of
its source (`chk`: its channel is in check fault), reference undetermined, late glaze. -/
def State.inputFlags (s : State) (e : Epoch) (c b : Nat) (chk : Bool) : Nat :=
  let pl := s.place (c - 384)
  let fast := s.fastSource c
  let low := fast && (pl.throttled || pl.short)
  let bad := s.linkFault b (fast && pl.size = 6) || (!fast && chk) ||
    (fast && (((s.bank b).pairFault && (s.bank b).pairMark) || pl.size = 0))
  (if low then 1 else 0) + (if e.island then 2 else 0) + (if bad then 4 else 0) + (if e.refUndet then 8 else 0) +
    (if e.late then 128 else 0)

/-- The calibration epoch of a bank in an epoch. -/
def Epoch.cal (e : Epoch) (b : Nat) : Nat := e.calEpochs.getD b 0

/-- Adds contributing inputs with their flags and epochs. -/
def Gather.add (g : Gather) (o : Gather) : Gather :=
  let f := Nat.lor g.flags o.flags
  let f := if g.any && g.refEpoch ≠ o.refEpoch then Nat.lor f 8 else f
  let f := if g.any && g.calEpoch ≠ o.calEpoch then Nat.lor f 32 else f
  { o with any := true, flags := f, undet := g.undet || o.undet, newest := max g.newest o.newest
           oldest := if g.any then min g.oldest o.oldest else o.oldest }

/-- One contributing input, sampled at an instant of an epoch. -/
def Epoch.input (e : Epoch) (b flags inst : Nat) : Gather :=
  ⟨true, flags, e.refEpoch, e.cal b, e.glaze, e.refUndet, inst, inst⟩

/-- Joins the contributing inputs of an output to those of its record. -/
def Gather.join (g o : Gather) : Gather := if o.any then g.add o else g

/-- Flags and bytes 16 to 19 of a record without a contributing input: the values in force at its stamp, in 2^-32 s (R187).
The plausibility-fault flag marks every record of a bank on a die-link fault (R12), the reference-changed flag every record
while the reference state is undetermined (R169). -/
def State.gatherNow (s : State) (b stamp : Nat) (paired : Bool) : Gather :=
  let e := s.epochAt (stamp * 2 ^ 32)
  ⟨false, (if s.linkFault b paired then 4 else 0) + (if e.refUndet then 8 else 0), e.refEpoch, e.cal b, e.glaze,
    false, stamp * 2 ^ 32, stamp * 2 ^ 32⟩

/-- The source of a stream is a paired port. -/
def State.isPaired (s : State) (i : Nat) : Bool :=
  match s.sChan i with
  | some c => s.fastSource c && (s.place (c - 384)).size = 6
  | none => false

/-- The entry of LAK_RING_SRC that names a channel on a bank: its bank, or its fast port, followed through its moves (R290). -/
def State.ringSrc (s : State) (c : Nat) (b : Option Nat) : Option Nat :=
  (List.range 4).find? fun k =>
    let kind := s.fld (ra .lak 0 (0x080 + 4 * k)) 0 2
    let n := s.fld (ra .lak 0 (0x080 + 4 * k)) 2 6
    (s.fastSource c && kind = 2 && n = c - 384) || b.any fun b => kind = 1 && n = b

/-- Codes of a source that the ring records enter it (R290). -/
def State.ringCodes (s : State) (f : Flight) (fast : Bool) : State :=
  match s.ringSrc f.ch (some f.bank) with
  | some k => s.ringAdd (.codes k f fast)
  | none => s

/-- The ring records the source of a stream; an alarm stream's records follow from the observations (R218). -/
def State.ringTakes (s : State) (i : Nat) : Bool :=
  let takes := fun (c : Nat) => (s.ringSrc c (s.chanBank c (s.sf i 0 14 1 = 1))).isSome
  match s.sKind i with
  | 4 => takes (s.fld (ra .imp (s.sSrc i / 32) (0x0C0 + 4 * (s.sSrc i % 32))) 0 9)
  | 5 => true
  | 6 => false
  | _ => (s.sChan i).any takes

/-- A complete record goes out; that of a replay only where the capture holds its source (R197, R293). -/
def State.sendOut (s : State) (x : OutRec) : State :=
  if s.spe.replaying then (if s.ringTakes x.record.stream then s.replayOut x else s)
  else s.emitWith (8 + s.lake.segs.length) x.record x.undet x.cls

/-- Emits a record of a stream with the flags of its contributing inputs; at a milestone it waits for the others that are
completed there. -/
def State.emitRecord (s : State) (i kind stamp : Nat) (g : Gather) (extra : Nat) (values : List Int) : State :=
  let st := s.stream i
  let bad := match s.streamBank i with
    | some b => s.linkFault b (s.isPaired i)
    | none => false
  let f := Nat.lor (Nat.lor g.flags extra) (if bad then 4 else 0)
  let f := match st.prev with
    | some (r, c) => Nat.lor (Nat.lor f (if r ≠ g.refEpoch then 8 else 0)) (if c ≠ g.calEpoch then 32 else 0)
    | none => f
  let s := s.setStream i { st with prev := some (g.refEpoch, g.calEpoch) }
  let r : Record := { stream := i, kind := kind, flags := f, seqNo := 0, sec := stampSec stamp, frac := stampFrac stamp,
                      glaze := g.glaze, refEpoch := g.refEpoch, calEpoch := g.calEpoch, exp := s.sf i 3 8 8,
                      unit := s.sf i 3 16 8, values := values }
  if s.spe.holding then
    { s with spe := { s.spe with outbox := s.spe.outbox ++ [(⟨g.newest, g.oldest, r, g.undet, s.classOf i⟩ : OutRec)] } }
  else s.sendOut ⟨g.newest, g.oldest, r, g.undet, s.classOf i⟩

/-- A record comes before another that was completed in the same cycle: by the instant of its newest contributing input,
then by stream (R189). -/
def outBefore (x y : OutRec) : Bool :=
  x.newest < y.newest || (x.newest = y.newest && x.record.stream < y.record.stream)

/-- Insertion in the order of R189, after those that are equal. -/
def outIns (x : OutRec) : List OutRec → List OutRec
  | [] => [x]
  | y :: t => if outBefore x y then x :: y :: t else y :: outIns x t

/-- The records that a milestone has completed go out (R189). -/
def State.flushOut (s : State) : State :=
  let xs := s.spe.outbox.foldl (fun l x => outIns x l) []
  ({ s with spe := { s.spe with holding := false, outbox := [] } }).each xs fun s x => s.sendOut x

/-! ### Samples records (R190) -/

/-- Closes the open record of a samples stream. -/
def State.closeRecord (s : State) (i : Nat) : State :=
  let st := s.stream i
  if st.isOpen && !st.open_.isEmpty then
    let s := s.setStream i { st with isOpen := false, open_ := [], gather := {} }
    s.emitRecord i 1 st.openStamp st.gather 0 st.open_
  else s.setStream i { st with isOpen := false, open_ := [], gather := {} }

/-- One output of a samples stream. A record holds consecutive outputs (R190), and the first begins with an output whose
new inputs all lie at or after the start of the chain (`whole`; R192). DEDUCED (logs 26, 27). -/
def State.sampleOut (s : State) (i n stamp : Nat) (y : Int) (g : Gather) (whole : Bool) : State :=
  let v := scaleOut y (sext 32 (s.sf i 2 0 32)) (s.sf i 3 0 6)
  let size := 2 ^ s.sf i 3 24 4
  let s := s.observe ⟨.stream i true, [v], stamp, g.flags / 4 % 2 = 1, g.undet, g.flags⟩
  let st := s.stream i
  let s := if st.isOpen && n ≠ st.openN + st.open_.length then s.closeRecord i else s
  let st := s.stream i
  let st := if n % size = 0 && whole then
      { st with isOpen := true, open_ := [], openStamp := stamp, openN := n, gather := {} } else st
  if st.isOpen then
    let s := s.setStream i { st with open_ := st.open_ ++ [v], gather := st.gather.join g }
    if n % size = size - 1 then s.closeRecord i else s
  else s.setStream i st

/-! ### Intervals (R185, R186) -/

/-- The words of SPE_PEDGE in force that are not 0. -/
def State.edgeWords (s : State) : KMap Word :=
  s.regs.filter fun w => decide (ra .stb 0 0x600 ≤ w.1 ∧ w.1 < ra .stb 0 0xA00)

/-- The edges of a table (R186). -/
def edgesOf (words : KMap Word) (t : Nat) : List Nat :=
  (List.range 31).map fun i => bits (kget words (ra .stb 0 (0x600 + 0x40 * t + 4 * (i / 2))) 0) (16 * (i % 2)) 16

/-- The edges of a pulse stream's table at a sample instant (R15, R196). -/
def State.edges (s : State) (t : Nat) (inst : Int) : List Nat :=
  edgesOf (match s.spe.oldEdges.find? fun o => decide (inst < o.1) with
    | some o => o.2
    | none => s.edgeWords) t

/-- Pulse analysis of a stream, for a sample of an instant. DEDUCED (log 78). -/
def State.pulseCfg (s : State) (i : Nat) (inst : Int) : PulseCfg :=
  { thr := s.sf i 7 0 16, hys := s.sf i 7 16 16, wmin := s.sf i 8 0 16, bk := s.sf i 8 16 4,
    edges := s.edges (s.sf i 8 20 4) inst }

/-- A milestone has committed other edges: windows that are held now still meet the ones before it (R15, R196). -/
def State.keepEdges (s s0 : State) : State :=
  let held := s.ports.filterMap fun p => p.2.held.map fun (h : HeldWin) => h.stop
  let olds := s.spe.oldEdges ++ (if s.edgeWords = s0.edgeWords then [] else [(s.tim.time, s0.edgeWords)])
  { s with spe := { s.spe with oldEdges := olds.filter fun o => held.any fun h => decide (h < o.1) } }

/-- The stamp of the start of an interval, in 2^-32 s. -/
def intervalStart (j q : Int) : Int := q * (2 ^ (32 + j).toNat : Int)

/-- The record of the open interval of a features or histogram stream, and the start of the next. -/
def State.closeInterval (s : State) (i : Nat) : State :=
  let st := s.stream i
  let d := (s.chainCfg i).d
  let stamp := (intervalStart (s.sJ i) st.interval).toNat
  let g := if st.gather.any then st.gather else s.gatherNow ((s.streamBank i).getD 0) stamp (s.isPaired i)
  let bandOf := fun (t : Nat) => kget (kget st.halves t ({} : HalfSt)).bands st.interval.toNat (0, 0)
  let bands := (List.range d).map fun j => bandOf (d - j)
  let omul := sext 32 (s.sf i 2 0 32)
  let osh := s.sf i 3 0 6
  let fv := st.feat.values (s.sf i 4 0 8) bands
  let scaled := fv.1.map fun p => if p.2 then scaleOut p.1 omul osh else i32 p.1
  let drop := fun (h : HalfSt) => { h with bands := h.bands.filter fun b => decide (st.interval.toNat < b.1) }
  let s := s.setStream i { st with interval := st.interval + 1, feat := {}, pulse := st.pulse.restart, gather := {},
                                   halves := st.halves.map fun (h : Nat × HalfSt) => (h.1, drop h.2) }
  if s.sKind i = 2 then s.emitRecord i 2 stamp g (if fv.2 then 4 else 0) scaled
  else s.emitRecord i 3 stamp g 0 st.pulse.values

/-- Closes intervals until the open one holds an instant in 2^-32 s. -/
def State.closeUntil (s : State) (i : Nat) (stamp : Int) : Nat → State
  | 0 => s
  | n + 1 =>
    let st := s.stream i
    if intervalStart (s.sJ i) (st.interval + 1) ≤ stamp then (s.closeInterval i).closeUntil i stamp n else s

/-- One output of a features stream. -/
def State.featureOut (s : State) (i : Nat) (stamp y : Int) (valid onMark : Bool) (g : Gather) : State :=
  let st := s.stream i
  let a := intervalStart (s.sJ i) st.interval
  let b := intervalStart (s.sJ i) (st.interval + 1)
  if stamp < a then s
  else
    let p := tonePhase (s.sf i 6 0 8 * 2 ^ 32 + s.sf i 5 0 32) (s.sf i 6 8 12) (stamp / 64).toNat
    let sel := s.sf i 4 24 1 = 1
    let f := if valid && (!sel || onMark) then
        st.feat.take y (2 * stamp < a + b) (sinTab (p + 4096)) (sinTab p)
      else st.feat
    s.setStream i { st with feat := f, gather := st.gather.join g }

/-- One output of a histogram stream. -/
def State.pulseOut (s : State) (i : Nat) (inst stamp y : Int) (valid : Bool) (g : Gather) : State :=
  let st := s.stream i
  let cfg := s.pulseCfg i inst
  if stamp < intervalStart (s.sJ i) st.interval then
    s.setStream i { st with pulse := (st.pulse.take cfg y valid).restart }
  else s.setStream i { st with pulse := st.pulse.take cfg y valid, gather := st.gather.join g }

/-! ### One input of a stream (R177, R178, R181) -/

/-- A pipeline sample of a channel (R173, R176): value in Q16.16, marker, excitation flag, sample number and instant in
2^-64 s, mark byte, f0 and width of the notch coefficients of its instant, and whether the channel was in check fault
(R114). -/
structure Sample where
  y : Int
  marker : Nat
  excited : Bool
  m : Nat
  inst : Int
  mark : Nat
  coef : Nat × Nat
  chk : Bool := false
  deriving DecidableEq, Repr

/-- One output of a chain, numbered `n`, from an input of instant `inst`: `at_` is the instant of its stamp, which the group delay
may not bring before the origin of the time scale (DESIGN CHOICE, log 144), `first` that of its first new input. -/
def State.chainOut (s : State) (i n : Nat) (inst at_ first y : Int) (valid onMark : Bool) (g : Gather) : State :=
  let stamp := at_ / 2 ^ 32
  match s.sKind i with
  | 1 => s.sampleOut i n stamp.toNat y g (decide (((s.stream i).since : Int) ≤ first))
  | 2 => (s.closeUntil i stamp 4096).featureOut i stamp y valid onMark g
  | 3 => (s.closeUntil i stamp 4096).pulseOut i inst stamp y valid g
  | _ => s

/-- A sample enters a stream's chain, under the configuration, epochs and coefficients of its instant (R15, R183). After a change
of the input rate no output is missing or doubled (R194): one whose number has left before adds its new inputs to the next
one, and numbers that the new grid passes over take the value of the first output on it. DESIGN CHOICE (log 145). -/
def State.feedNow (s : State) (i c b : Nat) (x : Sample) : State :=
  let st := s.stream i
  let cfg : ChainCfg := { s.chainCfg i with f0 := x.coef.1, w := x.coef.2 }
  let e := s.epochAt x.inst.toNat
  let sub : Bool := x.marker ≠ 0 || (x.excited && s.sf i 0 15 1 = 1)
  let offMark : Bool := s.sf i 4 24 1 = 1 && !(x.mark % 64 = s.sf i 4 25 6 && x.mark / 64 % 2 = 0)
  let s := if sub then (s.countSat (ra .pipe b 0x044) 1).stick .pipe b 8 else s
  let v := if sub then st.lastAccepted else x.y
  let flags := Nat.lor (s.inputFlags e c b x.chk) ((if sub then 4 else 0) + (if st.settle ≠ 0 || st.notchBypass then 32 else 0))
  let st := { st with lastAccepted := v, settle := st.settle - 1, newInvalid := st.newInvalid || sub,
                      newMarkOk := st.newMarkOk && !offMark,
                      newGather := st.newGather.add (e.input b flags x.inst.toNat) }
  let p := st.chain cfg x.m x.inst v sub offMark
  let s := if p.sats = 0 then s else (s.countSat (ra .pipe b 0x048) p.sats).stick .pipe b 9
  match p.v with
  | none => s.setStream i p.st
  | some y =>
    let g := p.st.newGather
    let valid := !p.st.newInvalid
    let onMark := p.st.newMarkOk
    let n := x.m / 2 ^ cfg.k
    let next := st.nextOut.getD n
    if n < next ∧ st.moved then s.setStream i p.st
    else
      let s := s.setStream i { p.st with newInvalid := false, newMarkOk := true, newGather := {}, nextOut := some (n + 1), moved := false }
      let first : Int := x.inst - (2 ^ cfg.k - 1) * 2 ^ (64 - cfg.ri)
      let fill := if st.moved then n - next else 0
      let out := 2 ^ (64 - (cfg.ri - cfg.k))
      s.upTo (fill + 1) fun s j =>
        let back : Int := ((fill - j) * out : Nat)
        s.chainOut i (n - (fill - j)) x.inst (x.inst - cfg.delay cfg.d - back) (first - back) y valid onMark g

/-- Settling length in chain inputs after a restart (R194). -/
def ChainCfg.settling (c : ChainCfg) : Nat :=
  8 * (2 ^ c.c - 1) + 1 + ((List.range c.d).map fun j => 59 * 2 ^ (c.c + j)).sum +
    (match c.nr with
     | some nr => 59 * 2 ^ (c.ri - nr)
     | none => 0)

/-- A stream's input rate changes (R194): the CIC starts at zero, and so does a halfband stage whose input rate,
2^(ORATE + key), no stage had before; the stages that the new rate leaves out end. DEDUCED (log 32). -/
def State.rateChange (s : State) (i ri : Nat) : State :=
  let st := s.stream i
  let ro := s.sRate i
  let nen := s.sf i 1 11 1 = 1
  let st := { st with ri := ri, turn := none, moved := true, integ := [0, 0, 0, 0], comb := [0, 0, 0, 0],
                      halves := st.halves.filter fun (h : Nat × HalfSt) => decide (h.1 ≤ min (ri - ro) 6),
                      notchBypass := nen && !s.notchReach i ri,
                      notch := if s.notchReach i ri && !st.notchBypass then st.notch else [] }
  let s := s.setStream i st
  s.setStream i { st with settle := (s.chainCfg i).settling }

/-- A change of rate that has waited for a sample from after its milestone happens (R15, R194). -/
def State.takeTurn (s : State) (i : Nat) (inst : Int) : State :=
  match (s.stream i).turn with
  | some (at_, ri) => if (at_ : Int) ≤ inst then s.rateChange i ri else s
  | none => s

/-- A sample reaches a stream; one from before the milestone at which its chain started belongs to the chain before it
(R15, R192). -/
def State.feed (s : State) (i c b : Nat) (x : Sample) : State :=
  if x.inst < (s.stream i).since then s else (s.takeTurn i x.inst).feedNow i c b x

/-- Something happens to a chain that has ended, under the entry that it had; its records take the stream's next numbers
(R15, R189). -/
def State.asLate (s : State) (l : LateChain) (f : State → State) : State :=
  let i := l.stream
  let now := s.stream i
  let eff := s.acc.effective
  let old := ((List.range l.words.length).zip l.words).foldl (fun m (w : Nat × Word) =>
    kins m (TableId.stream.addr i w.1) w.2) eff
  let s := ({ s with acc := { s.acc with effective := old } }).setStream i
    { l.chain with seqNo := now.seqNo, prev := now.prev }
  let s := f s
  let r := s.stream i
  ({ s with acc := { s.acc with effective := eff } }).setStream i
    { now with seqNo := r.seqNo, prev := r.prev, lastAccepted := if l.kept then r.lastAccepted else now.lastAccepted }

/-- Records that one cycle completes leave in the order of their newest inputs (R189). -/
def State.inOrder (s : State) (f : State → State) : State :=
  if s.spe.holding then f s else (f { s with spe := { s.spe with holding := true } }).flushOut

/-- The interval of a reduced stream is over and every output that it holds has left the chain (R185). DEDUCED (log 28). -/
def State.intervalOver (s : State) (i : Nat) : Bool :=
  let st := s.stream i
  let late : Int := (s.chainCfg i).delay (s.chainCfg i).d
  let fin : Int := intervalStart (s.sJ i) (st.interval + 1) * 2 ^ 32 + late
  st.active && !st.suspended && st.ri ≠ 0 && (s.sKind i = 2 || s.sKind i = 3) && decide (fin ≤ (s.tim.time : Int))

/-- An interval that is over may close: a pipeline out of service emits no record (R26). -/
def State.intervalDue (s : State) (i : Nat) : Bool :=
  s.intervalOver i && (s.streamBank i).all fun b => s.inService (0x080 + b)

/-- The open record of a samples stream closes short (R190). DEDUCED (log 27). -/
def State.closeShort (s : State) (i : Nat) : State := if s.sKind i = 1 then s.closeRecord i else s

/-- What a stream that stops still emits: its open record, short, or an interval that is over. DEDUCED (log 28). -/
def State.endRecord (s : State) (i : Nat) : State := if s.intervalDue i then s.closeInterval i else s.closeShort i

/-- What a chain that has ended still emits, whatever the service of its pipeline since (R15, R26). -/
def State.endLate (s : State) (i : Nat) : State := if s.intervalOver i then s.closeInterval i else s.closeShort i

/-- A window that a channel held before now is still to be converted by the bank of a stream (R15). -/
def State.lateFor (s : State) (i : Nat) : Option (Nat × Nat) :=
  match s.sChan i with
  | none => none
  | some c =>
    let b := (s.streamBank i).getD ((s.port c).held.bind (fun (h : HeldWin) => h.corr.head?.map (·.1)) |>.getD 24)
    if (s.port c).held.isSome && (s.stream i).active && !(s.stream i).suspended && !s.fastSource c &&
      s.pwr.st ≠ .sleep then some (b, c) else none

/-- A chain ends at a milestone: with its record, or, where a window from before the milestone is still to be converted, once
that one has entered it (R15, R190); that of a pipeline out of service has ended with the service (R26). -/
def State.retire (s : State) (i : Nat) : State :=
  match (if (s.streamBank i).all fun b => s.inService (0x080 + b) then s.lateFor i else none) with
  | none => s.endRecord i
  | some (b, c) =>
    let st := s.stream i
    let l : LateChain := { stream := i, bank := b, ch := c, upto := s.tim.time, chain := st
                           words := (List.range TableId.stream.words).map fun w => s.eff (TableId.stream.addr i w) }
    let s := { s with spe := { s.spe with lates := s.spe.lates ++ [l] } }
    s.setStream i { st with isOpen := false, open_ := [], gather := {}, turn := none }

/-- Chains that have ended take a sample from before their end, and close their records. -/
def State.feedLate (s : State) (c b : Nat) (x : Sample) : State :=
  let mine := fun (l : LateChain) => l.ch = c && l.bank = b && decide (x.inst < l.upto)
  let ls := s.spe.lates.filter mine
  ({ s with spe := { s.spe with lates := s.spe.lates.filter fun l => !mine l } }).each ls fun s l =>
    s.asLate l fun s => (s.feed l.stream c b x).endLate l.stream

/-- Chains whose late window does not come any more close their records, and changes of rate that waited for one happen. -/
def State.endLates (s : State) : State :=
  let waits := fun (c upto : Nat) => (s.port c).held.any fun (h : HeldWin) => decide (h.stop < upto)
  let ls := s.spe.lates.filter fun l => !waits l.ch l.upto
  let s := ({ s with spe := { s.spe with lates := s.spe.lates.filter fun l => waits l.ch l.upto } }).each ls fun s l =>
    s.asLate l fun s => s.endLate l.stream
  s.each (s.spe.streams.map (·.1)) fun s i =>
    match (s.stream i).turn, s.sChan i with
    | some (at_, ri), some c => if waits c at_ then s else s.rateChange i ri
    | _, _ => s

/-- A sample of a channel enters every stream of the pipeline, in ascending stream number; of a pipeline that has gone out of
service since its instant the chains that ended with it (R15, R26). -/
def State.feedAll (s : State) (c b : Nat) (x : Sample) : State :=
  if s.inService (0x080 + b) then
    s.inOrder fun s => (s.feedLate c b x).each (s.streamsOn c b) fun s i => s.feed i c b x
  else s.inOrder fun s => s.feedLate c b x

/-! ### The lock-in of the impedance engines (R97, R98) -/

/-- FW, AMP and PH of tone `j`. -/
def State.tone (s : State) (n j : Nat) : Nat × Nat × Nat :=
  let lo := s.reg (ra .imp n (0x050 + 8 * j))
  let hi := s.reg (ra .imp n (0x054 + 8 * j))
  (lo.toNat + bits hi 0 8 * 2 ^ 32, bits hi 8 12, bits hi 20 12)

/-- The tones in use. -/
def State.tones (s : State) (n : Nat) : List (Nat × Nat × Nat) :=
  (List.range (s.fld (ra .imp n 0x040) 6 3 + 1)).map fun j => s.tone n j

/-- The excitation at a DAC tick (R95). -/
def excitation (tones : List (Nat × Nat × Nat)) (n : Nat) : Int :=
  divNearestAway (tones.map fun (t : Nat × Nat × Nat) => (t.2.1 : Int) * sinTab (tonePhase t.1 t.2.2 n : Nat)).sum 32768

/-- One DAC tick in 2^-64 s. -/
def dacSpan : Nat := 2 ^ 38

/-- The excitation value w of a window [start, stop), or of a point sample where they are equal (chapter 04). -/
def excitationOver (tones : List (Nat × Nat × Nat)) (start stop : Nat) : Int :=
  if stop ≤ start then 256 * excitation tones (start / dacSpan)
  else
    let a := ceilDiv start dacSpan
    let n := ceilDiv stop dacSpan - a
    divNearestAway (256 * ((List.range n).map fun i => excitation tones (a + i)).sum) n

/-- Adds one window to the sums of its period, with the window rate of its port. Of a window whose centre lies between two
DAC ticks the reference phase is that of the tick before (R98 names no other). DESIGN CHOICE (log 113). -/
def LockSums.take (l : LockSums) (tones : List (Nat × Nat × Nat)) (start stop : Nat) (x : Int) (marker index rate : Nat)
    (g : Gather) : LockSums :=
  let w := excitationOver tones start stop
  let mid := (start + stop) / 2 / dacSpan
  let old := if l.tones.length = tones.length then l.tones else tones.map fun _ => (0, 0, 0, 0)
  let raw := (tones.zip old).map fun (p : (Nat × Nat × Nat) × (Int × Int × Int × Int)) =>
    let ph : Int := (tonePhase p.1.1 p.1.2.2 mid : Nat)
    let co := sinTab (ph + 4096)
    let si := sinTab ph
    (p.2.1 + x * co, p.2.2.1 + x * si, p.2.2.2.1 + w * co, p.2.2.2.2 + w * si)
  let lim := raw.map fun (q : Int × Int × Int × Int) => (satS 64 q.1, satS 64 q.2.1, satS 64 q.2.2.1, satS 64 q.2.2.2)
  let moved := match l.index with
    | some i => decide (i ≠ index)
    | none => false
  { tones := lim, sat := l.sat || decide (raw ≠ lim), bad := l.bad || decide (marker ≠ 0) || moved, index := some index,
    gather := l.gather.join g, rate := some (min rate (l.rate.getD rate)) }

/-- A window or fast-path code of a channel enters the sums of the engine that visits it, in the period that contains its
start. Of a channel that two banks convert, the first bank's windows count. -/
def State.lockIn (s : State) (c b start stop : Nat) (x : Int) (marker index : Nat) (g : Gather) : State :=
  s.each (s.imps.map (·.1)) fun s n =>
    let e := s.imp n
    let p := (start - e.start) / s.impPeriod n
    match s.impVisit n start with
    | none => s
    | some (_, ch, first) =>
      if ch = c && s.chanBank c false = some b && decide (s.fld (ra .imp n 0x040) 9 4 ≤ p - first) &&
          decide (p - first < s.impPeriods n) then
        s.setImp n { e with sums := kset e.sums p ((kget e.sums p {}).take (s.tones n) start stop x marker index
          (2 ^ s.chanRate c b) g) {} }
      else s

/-! ### CODE_ARRIVAL (R173 to R177) -/

/-- A negative polarity negates the sample (R176). -/
def negSample (y : Int) (neg : Bool) : Int := if neg then satS 32 (-y) else y

/-- The tracking port of SPE_MAINS. -/
def State.trackPort (s : State) : Nat := 448 + s.fld (ra .stb 0 0x048) 2 5

/-- A pipeline sample of the tracking port: rising zero crossings, interpolated linearly between samples, and substituted
inputs are noted (R184). DEDUCED (log 107). -/
def State.trackSample (s : State) (c b : Nat) (x : Sample) : State :=
  if c ≠ s.trackPort || s.chanBank c false ≠ some b then s
  else
    let m := s.spe.mains
    let cross : List Int := match m.last with
      | some (t0, y0) => if y0 < 0 && 0 ≤ x.y then [t0 + (x.inst - t0) * (-y0) / (x.y - y0)] else []
      | none => []
    let sub : List Int := if x.marker ≠ 0 then [x.inst] else []
    { s with spe := { s.spe with mains := { last := some (x.inst, x.y), crossings := m.crossings ++ cross,
                                            substituted := m.substituted ++ sub } } }

/-- The pipeline sample of a fast-path code: its correction, its sign and scale (R173 to R176). -/
def Flight.fastSample (f : Flight) : Sample :=
  { y := f.value * 2 ^ 16, marker := f.marker, excited := false, m := f.m, inst := f.inst, mark := 0, coef := f.coef }

/-- The pipeline sample of a held window. -/
def Flight.heldSample (f : Flight) : Sample :=
  { y := negSample (f.value * 2 ^ 11) f.neg, marker := f.marker, excited := f.excited,
    m := f.m, inst := f.inst, mark := f.markByte, coef := f.coef, chk := f.chk }

/-- The slice that takes sample `m` of a placed port, by bank and slice (R108, R109, R138). -/
def Place.sliceOf (p : Place) (m : Nat) : Nat × Nat :=
  if p.size = 6 then (p.bank + m % 2, m / 2 % 16)
  else if p.size = 5 then (p.bank, m % 16)
  else (p.bank, p.first + m % 2 ^ (p.size - 1))

/-- The codes of a slice are marked FAULT (R120, R126). -/
def State.sliceBad (s : State) (b k : Nat) : Bool :=
  let x := s.bank b
  x.hard.contains k || (x.retired = some k && x.hard.contains 16)

/-- One fast-path code of a port, with what it takes from the state at its instant. -/
def State.fastFlight (s : State) (p m : Nat) (code : Int) (marker : Nat) : Flight :=
  let pl := s.place p
  let c := 384 + p
  let q := s.port c
  let ri := sizeRate pl.size
  let inst := m * 2 ^ (64 - ri)
  let sl := pl.sliceOf m
  let mk := if !s.chanOn c || q.clamp || s.sliceBad sl.1 sl.2 then 3
    else if marker ≠ 0 then marker
    else if inst < q.blankEnd then 1 else 0
  { bank := pl.bank, ch := c, inst := inst, start := inst, m := m, codes := [code], marker := mk, markByte := 0,
    index := s.rangeNow c, excited := false, neg := false, ofs := sext 16 (bits (s.speCorr pl.bank c) 0 16),
    gain := s.gainK pl.bank c (s.rangeNow c), coef := (s.spe.coefF0, s.spe.coefW) }

/-- The held code group that has been on the link longest arrives. -/
def State.arriveHeld (s : State) : State :=
  match s.spe.flight with
  | [] => s
  | f :: t =>
    let s := { s with spe := { s.spe with flight := t } }.ringCodes f false
    let x := satS 16 (shr (f.value + 16) 5)
    let e := s.epochAt f.inst
    let g := e.input f.bank (Nat.lor (s.inputFlags e f.ch f.bank f.chk) (if f.marker ≠ 0 then 4 else 0)) f.inst
    let s := s.lockIn f.ch f.bank f.start f.inst x f.marker f.index g
    (s.trackSample f.ch f.bank f.heldSample).feedAll f.ch f.bank f.heldSample

/-- The milestone period in progress holds an instant: codes of the periods before have arrived by their milestone
(R15, R144). DESIGN CHOICE (log 108). -/
def State.inPeriod (s : State) (inst : Int) : Bool :=
  decide (((s.tim.msNum * msSpan : Nat) : Int) ≤ inst) && decide (inst < s.tim.next)

/-- A run of fast-path codes of a placed port; marker OVERLOAD is a fault of the port (R74). -/
def State.arriveFast (s : State) (f : FastCodes) : State :=
  let p := f.port.val
  let pl := s.place p
  if pl.size = 0 || !s.fastSource (384 + p) || !s.running then s
  else
    let s := if f.marker = 2 && s.chanOn (384 + p) then s.portFault (384 + p) 0 else s
    s.each ((List.range f.codes.length).zip f.codes) fun s (x : Nat × BitVec 14) =>
      let y := s.fastFlight p (f.m + x.1) (sext 14 x.2.toNat) f.marker.toNat
      if !s.inPeriod y.inst then s
      else
      let s := s.ringCodes y true
      let e := s.epochAt y.inst
      let g := e.input pl.bank (Nat.lor (s.inputFlags e y.ch pl.bank false) (if y.marker ≠ 0 then 4 else 0)) y.inst
      let s := s.lockIn y.ch pl.bank y.inst y.inst y.value y.marker y.index g
      s.feedAll y.ch pl.bank y.fastSample

/-- Every code group on the link arrives: samples from before a milestone meet the state from before it (R15).
DEDUCED (log 33). -/
def State.arriveAll (s : State) : State := s.upTo s.spe.flight.length fun s _ => s.arriveHeld

/-! ### Mains tracking (R184) -/

/-- Nominal f0 in 2^-16 Hz. DEDUCED (log 95). -/
def State.nominalF0 (s : State) : Nat := if s.flag (ra .stb 0 0x048) 0 then 60 * 65536 else 50 * 65536

/-- The estimate of a milestone in 2^-16 Hz, from the crossings of the last 1,024 milestones (R184). -/
def Mains.estimate (m : Mains) : Option Nat :=
  match m.crossings, m.crossings.getLast? with
  | a :: _, some z =>
    if z ≤ a || m.substituted.any (fun t => decide (a ≤ t ∧ t ≤ z)) then none
    else some (divOpen (((m.crossings.length - 1) * 2 ^ 80 : Nat) : Int) (z - a)).toNat
  | _, _ => none

/-- What is older than 1,024 milestones leaves the window of the estimate. -/
def Mains.since (m : Mains) (t : Int) : Mains :=
  { m with crossings := m.crossings.filter fun x => decide (t ≤ x), substituted := m.substituted.filter fun x => decide (t ≤ x) }

/-- The tracking port sweeps fast enough. -/
def State.trackRate (s : State) : Bool :=
  match s.chanBank s.trackPort false with
  | some b => 10 ≤ s.chanRate s.trackPort b
  | none => false

/-- Mains tracking at a milestone. -/
def State.trackMains (s : State) : State :=
  let nom := s.nominalF0
  let m := s.spe.mains.since ((s.tim.time : Int) - 1024 * msSpan)
  let s := { s with spe := { s.spe with mains := m } }
  if !s.flag (ra .stb 0 0x048) 1 then
    { s with spe := { s.spe with f0 := nom, badEst := 0, tracking := false } }
  else
    let est := match m.estimate with
      | some f => if s.trackRate && nom - 5 * 65536 ≤ f && f ≤ nom + 5 * 65536 then some f else none
      | none => none
    match est with
    | some f =>
      let far := 256 ≤ f - s.spe.f0 ∨ 256 ≤ s.spe.f0 - f
      { s with spe := { s.spe with f0 := if far then f else s.spe.f0, badEst := 0, tracking := true, lost := false } }
    | none => { s with spe := { s.spe with badEst := s.spe.badEst + 1 } }

/-- TRACK_LOST: 1,024 consecutive invalid milestones. -/
def execTrackLost (s : State) : Out :=
  .next (if 1024 ≤ s.spe.badEst && !s.spe.lost then
      ({ s with spe := { s.spe with f0 := s.nominalF0, lost := true, tracking := false } }).stick .stb 0 9
    else s)

/-! ### Counters -/

def execSpeSubstRead (a : Acc) (p : Fin 24) (s : State) : Out :=
  .next (s.guardedRead a (ra .pipe p.val 0x044) fun s => s.readClear (ra .pipe p.val 0x044))

def execSpeSatRead (a : Acc) (p : Fin 24) (s : State) : Out :=
  .next (s.guardedRead a (ra .pipe p.val 0x048) fun s => s.readClear (ra .pipe p.val 0x048))

/-! ### Milestones (R192 to R195) -/

/-- A stream starts at the milestone with zero state; its first interval begins at the first boundary at or after it. The
last accepted value goes on from before, as long as the stream has been enabled (R177). -/
def State.startStream (s : State) (i : Nat) : State :=
  let old := s.stream i
  let ri := s.streamRate i
  let j := s.sJ i
  let span : Int := 2 ^ (64 + j).toNat
  let q := ((s.tim.time : Int) + span - 1) / span
  let nen := s.sf i 1 11 1 = 1
  s.setStream i { active := true, seqNo := old.seqNo, ri := ri, interval := q, prev := old.prev, since := s.tim.time,
                  lastAccepted := old.lastAccepted,
                  notchBypass := nen && !s.notchReach i ri }

/-- A stream stops at the milestone; its open record closes short (R190). -/
def State.stopStream (s : State) (i : Nat) : State :=
  let s := s.retire i
  let st := s.stream i
  s.setStream i { seqNo := st.seqNo, prev := st.prev, lastAccepted := st.lastAccepted }

/-- What step 4 and the moves of a milestone do to a stream whose entry has not changed. -/
def State.streamSync (s : State) (i : Nat) : State :=
  let s := if (s.stream i).turn.any fun t => t.2 ≠ s.streamRate i then s.takeTurn i s.tim.time else s
  let st := s.stream i
  let ri := s.streamRate i
  let ro := s.sRate i
  if !st.active || s.sKind i = 0 || 3 < s.sKind i then s
  else if ri = 0 then
    (if st.ri = 0 then s
     else
       let s := s.retire i
       s.setStream i { s.stream i with ri := 0 })
  else if ri < ro || ro + 18 < ri then
    (if st.suspended then s
     else
       let s := s.retire i
       (s.setStream i { s.stream i with suspended := true, ri := ri }).stick .stb 0 10)
  else if st.suspended || st.ri = 0 then s.startStream i
  else if st.turn.isSome || st.ri = ri then s
  else if (s.lateFor i).isSome then s.setStream i { st with turn := some (s.tim.time, ri) }
  else s.rateChange i ri

/-- Every stream at a milestone. -/
def State.streamsSync (s : State) : State := s.each (s.spe.streams.map (·.1)) fun s i => s.streamSync i

/-- Every stream after moves of ports between milestones. -/
def State.streamsMoved (s : State) : State := (s.ringAdd (.moved s.snap)).streamsSync

/-- A swapped-in entry takes effect (R192). -/
def State.streamEffect (s : State) (i : Nat) : State :=
  if s.sf i 0 0 1 = 1 then
    let s := s.startStream i
    let ri := s.streamRate i
    if ri ≠ 0 && (ri < s.sRate i || s.sRate i + 18 < ri) && s.sKind i ≤ 3 then
      (s.setStream i { s.stream i with suspended := true }).stick .stb 0 10
    else s
  else
    let st := s.stream i
    let lates := s.spe.lates.map fun (l : LateChain) => if l.stream = i then { l with kept := false } else l
    ({ s with spe := { s.spe with lates := lates } }).setStream i { seqNo := st.seqNo, prev := st.prev }

/-! ### Substituted inputs (R107, R149, R177, R193) -/

/-- The grid offset of a channel's samples, in 2^-64 s: of a channel held per visit, the place of its visit in the sweep
(R129, R131). DEDUCED (log 29). -/
def State.gridOffset (s : State) (c b : Nat) : Int :=
  if s.fastSource c then 0
  else if s.grouped c then (bits (s.hgrp (s.holdGroup c)) 8 22 * cks : Nat)
  else
    let before := (s.maskOf b).filter fun x => x < c
    ((s.fld (ra .scan b 0x084) 8 22 + before.length / 16 * s.visitLen b) * cks : Nat)

/-- Nothing converts the stream's source: its bank is parked or out of service, its scan page is out of service, or its
fast port is unplaced. -/
def State.sourceless (s : State) (c b : Nat) : Bool :=
  if s.fastSource c then (s.place (c - 384)).size = 0
  else s.parked b || !s.inService (0x059 + b)

/-- Substituted inputs of a stream from instant `a` to before instant `t`. -/
def State.substStream (s : State) (a t : Int) (i : Nat) : State :=
  match s.sChan i, s.streamBank i with
  | some c, some b =>
    let st := s.stream i
    if st.active && !st.suspended && st.ri ≠ 0 && s.sourceless c b && s.inService (0x080 + b) then
      let step : Int := 2 ^ (64 - st.ri)
      let off := s.gridOffset c b
      let q0 := (a - off + step - 1) / step
      let q1 := (t - off + step - 1) / step
      s.upTo (q1 - q0).toNat fun s n =>
        let q := q0 + n
        let x : Sample := ⟨0, 3, false, q.toNat, q * step + off, 0, (s.spe.coefF0, s.spe.coefW), (s.check c).fault⟩
        s.feed i c b x
    else s
  | _, _ => s

/-- While nothing converts the tracking port, its inputs are substituted (R184): the last of the period is noted. -/
def State.substMains (s : State) (t : Int) : State :=
  let c := s.trackPort
  match s.chanBank c false with
  | some b =>
    let step : Int := 2 ^ (64 - s.chanRate c b)
    let off := s.gridOffset c b
    if s.sourceless c b then
      { s with spe := { s.spe with mains := { s.spe.mains with
          substituted := s.spe.mains.substituted ++ [(t - 1 - off) / step * step + off] } } }
    else s
  | none => s

/-- The substituted inputs of the period that started at instant `start`, up to instant `t`, which have not yet entered their
chains; the records that they complete leave in the order of their newest inputs (R189). DEDUCED (log 33). -/
def State.substTo (s : State) (start t : Nat) : State :=
  let a := max start s.spe.substDone
  if t ≤ a then s
  else
    let s := s.inOrder fun s => s.each (s.spe.streams.map (·.1)) fun s i => s.substStream a t i
    { s with spe := { s.spe with substDone := t } }

/-- The substituted inputs up to now: they come before anything that is handled now (R189). -/
def State.substNow (s : State) : State :=
  if s.pwr.clocked && s.pwr.live then (s.ringAdd (.upto s.tim.time)).substTo (s.tim.msNum * msSpan) s.tim.time else s

/-- The substituted inputs of the period that ends at instant `t`. -/
def State.substPeriod (s : State) (t : Nat) : State :=
  let s := (s.substTo (t - msSpan) t).substMains t
  { s with spe := { s.spe with substDone := 0 } }

/-! ### Commands -/

/-- HOLD_INSTANT (R61, R62, R136): where a hold instant is due; a chain that has waited for the window replaced ends (R189). -/
def execHoldInstant (ch : Fin 512) (dt : Nat) (win : WindowIn) (s : State) : Out :=
  let s := s.elapse dt
  .next (if s.running && s.holds ch.val then
      match s.holdAt ch.val with
      | some at_ => let s := s.holdNow ch.val at_ win
                    (s.ringAdd (.hold ch.val (s.port ch.val).held s.tim.time)).endLates
      | none => s
    else s)

/-- CODE_ARRIVAL: the held code group that has been on the link longest, or a run of fast-path codes. -/
def execCodeArrival (fast : Option FastCodes) (s : State) : Out :=
  let s := s.substNow
  .next (match fast with
    | none => s.arriveHeld
    | some f => s.arriveFast f)

/-- INTERVAL_END (R185), with no input of the stream still on the link. -/
def execIntervalEnd (stream : BitVec 12) (s : State) : Out :=
  let i := stream.toNat
  let s := s.substNow
  let onWay := s.spe.flight.any fun f => decide (some f.ch = s.sChan i)
  .next (if s.intervalDue i && !onWay then (s.ringAdd (.interval i)).closeInterval i else s)

/-! ### Reading -/

/-- Streams on a pipeline. -/
def State.pipeStreams (s : State) (b : Nat) : List Nat :=
  (s.spe.streams.filter fun p => p.2.active && (s.streamBank p.1 = some b ||
    (s.sKind p.1 = 4 && s.chanBank (s.fld (ra .imp (s.sSrc p.1 / 32) (0x0C0 + 4 * (s.sSrc p.1 % 32))) 0 9) false = some b))).map
      (·.1)

/-- A published coefficient (SPE_NCOEF): the ones that the pipelines use (R183). -/
def State.ncoef (s : State) (nr h k : Nat) : Int :=
  let c := notchCoef nr h s.spe.coefF0 s.spe.coefW
  match k with
  | 0 => c.1 | 1 => c.2.1 | 2 => c.2.2.1 | _ => c.2.2.2

end Sys2Proof.Machine
end

