-- ==== Sys2Proof/Machine/Scan.lean ====
section
/-! DEFINITION. Sweeps and visits (chapter 06), checked channels and spot conversions (chapter 05). -/

namespace Sys2Proof.Machine

open Sys2Proof

/-! ### Modes and sweeps -/

/-- The mode of a bank in force (CNV_BSTAT.MODE_NOW). -/
def State.modeNow (s : State) (b : Nat) : Nat := ((s.bank b).mode).getD (if b < 8 then 0 else 1)

/-- A bank converts: not parked, not under self-calibration, and in Sleep the watch bank alone (R349). -/
def State.converts (s : State) (b : Nat) : Bool :=
  !s.parked b && (s.bank b).sc ≠ 2 && (s.pwr.st ≠ .sleep || b = s.wbank)

/-- A sweep period in 2^-64 s (R131). -/
def State.sweepPeriod (s : State) (n : Nat) : Nat := 2 ^ (64 - s.scanP n)

/-- A scan sequencer runs sweeps: its bank is in the scan pool and not parked, both pages are in service, and in Sleep it
is the watch bank (R349). -/
def State.sweeps (s : State) (n : Nat) : Bool :=
  s.running && s.pool n = 0 && !(s.bank n).parkedTherm && s.inService (0x059 + n) && (s.pwr.st ≠ .sleep || n = s.wbank)

/-- CNV_SGATE. -/
def State.sgate (s : State) (n : Nat) : Word := s.reg (ra .scan n 0x088)

/-- A sweep that starts at an instant may run by its gate: the flag as it stands at the start of the heater tick at or before the
instant (R91, R135). -/
def State.gateOpen (s : State) (n at_ : Nat) : Bool :=
  !bit (s.sgate n) 7 || (s.scan n).force ||
    (s.flagsAt (at_ / 2 ^ 44)).getLsbD (bits (s.sgate n) 0 6) = bit (s.sgate n) 6

/-- SWEEP_START (R131, R134, R135): the sweep of index `q`. Time goes to its instant if that lies ahead in this milestone
period. No sweep starts at an instant before the milestone from which its grid holds (R134, R140). A sweep that would start before the running one ends is skipped, and each period holds one, also where a commit moves OFFSET in
it. DESIGN CHOICE (log 125). -/
def execSweepStart (n : Fin 24) (q : Int) (s : State) : Out :=
  let i := n.val
  let at_ := s.sweepAt i q
  let s := if (s.tim.time : Int) < at_ ∧ at_ < s.tim.next ∧ s.tim.perCycle ≠ 0 ∧ s.sweeps i then
      s.elapse (s.tim.cyclesIn (at_ - s.tim.time).toNat) else s
  let x := s.scan i
  let now : Int := s.tim.time
  let cs := s.maskOf i
  .next (if !s.sweeps i ∨ cs.isEmpty ∨ now < at_ ∨ at_ + s.sweepPeriod i ≤ now ∨ (x.running ∧ at_ < x.sweepEnd) ∨
        at_ < x.from_ ∨ (s.pwr.st = .sleep ∧ q % 256 ≠ 0) ∨ x.lastQ = some q then s
    else if !s.gateOpen i at_.toNat then s.setScan i { x with gated := true, skips := x.skips + 1, lastQ := some q }
    else
      let v := s.visitLen i
      s.setScan i { x with running := true, visited := [], sweepStart := at_.toNat, q := q, channels := cs, visitLen := v,
                           sweepEnd := at_.toNat + ceilDiv cs.length 16 * v * cks, gated := false, force := false,
                           waited := 0, lastQ := some q, gate := s.sgate i })

/-- GATE_TIMEOUT (R135): the next sweep runs whatever the flag. -/
def execGateTimeout (n : Fin 24) (s : State) : Out :=
  let x := s.scan n.val
  .next (if x.gated ∧ bits (s.sgate n.val) 20 12 * 256 ≤ x.waited then
      (s.setScan n.val { x with force := true, waited := 0 }).stick .scan n.val 11
    else s)

/-- SWEEP_END (R135): the sweep has run, and the flag of the configuration that it started with is set at the next
tick (R134). -/
def execSweepEnd (n : Fin 24) (s : State) : Out :=
  let x := s.scan n.val
  .next (if x.running ∧ x.sweepEnd ≤ s.tim.time then
      let s := s.setScan n.val { x with running := false }
      if bit x.gate 18 then { s with seq := { s.seq with sweepFlags := s.seq.sweepFlags ++ [bits x.gate 12 6] } }
      else s
    else s)

/-! ### Visits (R61 to R69, R129) -/

/-- A hold of 100 µs in 2^-64 s (R64). -/
def staleSpan : Nat := us 100

/-- The marker of a held window when it is converted: FAULT where the port is disabled or fault-disabled, has no held
value, is stale, or a fault of R74 persists. DEDUCED (log 90). A heater fault after the hold instant marks the windows that close while
it lasts, and not the one held before. DESIGN CHOICE (log 122). -/
def State.heldMarker (s : State) (c : Nat) (stale : Bool) : Nat :=
  let p := s.port c
  match p.held with
  | none => 3
  | some h => if !s.holds c || stale || p.compliance || p.isOpen || p.clamp then 3 else h.marker

/-- IN19 to IN31 present code 0, VALID (internal-channel table). -/
def isForced (c : Nat) : Bool := 499 ≤ c && c ≤ 511

/-- The sample number of a visit (R131, R136, R349): of a group-held window, that of its hold instant on the grid then in
force. -/
def State.visitIndex (s : State) (n c : Nat) (stop : Nat) : Nat :=
  let q := (s.scan n).q
  if s.pwr.st = .sleep then (q / 256).toNat
  else if s.grouped c then
    match (s.port c).held with
    | some h => if s.holds c then h.m else s.groupIndex c stop
    | none => s.groupIndex c stop
  else q.toNat

/-- The 32 codes of a visit as numbers. -/
def visitCodes (codes : List (BitVec 14)) : List Int :=
  (List.range 32).map fun i => match codes[i]? with
    | some c => sext 14 c.toNat
    | none => 0

/-- The comparison of a checked channel is suspended: a window held per visit, or a parked partner (R107, R113). -/
def State.checkSuspended (s : State) (b p c : Nat) : Bool := !s.grouped c || s.parked b || s.parked p

/-- Records a mismatch on a page (R114). -/
def State.noteMismatch (s : State) (b c : Nat) : State :=
  let s := s.countSat (ra .bank b 0x074) 1
  (s.setFld (ra .bank b 0x078) 0 16 (c + 32768)).stick .bank b 12

/-- The comparison of a held window once both visit values are there (R114). -/
def State.compareVisit (s : State) (b p c stop : Nat) (v : Int) (valid : Bool) : State :=
  let k := s.check c
  match k.first with
  | some (b1, t1, v1, ok1) =>
    if b1 = b ∨ t1 ≠ stop then s.setCheck c { k with first := some (b, stop, v, valid) }
    else
      let k := { k with first := none }
      if !(valid && ok1) then s.setCheck c k
      else
        let tol : Int := s.fld (ra .bank (min b p) 0x040) 16 8
        if 32 * tol < (v - v1).natAbs then
          ((s.setCheck c { k with bad := k.bad + 1, good := 0 }).noteMismatch b c).noteMismatch p c
        else s.setCheck c { k with bad := 0, good := k.good + 1 }
  | none => s.setCheck c { k with first := some (b, stop, v, valid) }

/-- A slice compares a checked visit with its partner's, unless one of the two is suspended (R114). -/
def State.visitCheck (s : State) (b c : Nat) (stop : Nat) (v : Int) (good : Bool) : State :=
  match s.partnerOf b c with
  | some q => if s.checkSuspended b q c then s else s.compareVisit b q c stop v good
  | none => s

/-- The sample instant of a visit that starts at `t`: the hold instant of the value that it converts (R138).
DEDUCED (log 96). -/
def State.visitStop (s : State) (c t : Nat) : Nat :=
  match (s.port c).held with
  | some h => if s.holds c then h.stop else t
  | none => t

/-- The held value is older than its limit when the visit of `len` cycles that starts at `t` ends (R64). -/
def State.visitStale (s : State) (c t len : Nat) : Bool :=
  decide (staleSpan < t + cks * len - s.visitStop c t)

/-- A held value that is too old at the visit's end is a fault of the port (R64). -/
def State.staleFault (s : State) (c : Nat) (stale : Bool) : State :=
  if stale ∧ chanKind c ≠ .internal ∧ s.holds c then s.portFault c 5 else s

/-- Offset and gain for a held window on a pipeline: those in force at its hold instant, else those in force now. -/
def State.corrAt (s : State) (h : HeldWin) (b c : Nat) : Int × Int :=
  kget h.corr b (sext 16 (bits (s.speCorr b c) 0 16), s.gainK b c h.index)

/-- The element that held the window is free again once every bank that converts the channel has visited it (R61, R113). -/
def State.endHold (s : State) (c : Nat) : State :=
  let p := s.port c
  if p.visits + 1 < (s.scansOf c).length then s.setPort c { p with visits := p.visits + 1 }
  else s.setPort c { p with held := none, visits := 0 }

/-- What a visit puts in flight: its codes with the held value's window and marker. -/
def State.visitFlight (s : State) (b c k stop : Nat) (stale : Bool) (codes : List (BitVec 14)) : Flight :=
  let p := s.port c
  let forced := isForced c
  let dead := s.sliceBad b (k % 16) || (s.bank b).sc = 2
  let mk := if dead then 3 else if forced ∧ s.chanOn c then 0 else s.heldMarker c stale
  let noValue := !s.holds c || p.held.isNone
  let vals := if forced ∨ noValue ∨ (s.bank b).sc = 2 then List.replicate 32 0 else visitCodes codes
  let h : HeldWin := p.held.getD ⟨0, 0, 0, 0, 0, 0, false, false, [], (0, 0), 0⟩
  { bank := b, ch := c, inst := stop, start := if noValue then stop else h.start, m := s.visitIndex b c stop,
    codes := vals, marker := mk, markByte := h.markByte, index := h.index, excited := h.excited, neg := h.neg,
    ofs := (s.corrAt h b c).1, gain := (s.corrAt h b c).2,
    coef := if h.coef.1 = 0 then (s.spe.coefF0, s.spe.coefW) else h.coef, chk := (s.check c).fault }

/-- The visit of a channel by place `k` of a sweep; the element that held its window is free when it ends (R61). -/
def State.visitAt (s : State) (b c k len : Nat) (codes : List (BitVec 14)) : State :=
  let t := s.visitStart b k
  let stale := s.visitStale c t len
  let s' := s.staleFault c stale
  let f := s'.visitFlight b c k (s.visitStop c t) stale codes
  (({ s' with spe := { s'.spe with flight := s'.spe.flight ++ [f] } }).visitCheck b c f.inst f.value (f.marker = 0)).endHold c

/-- VISIT: slice k mod 16 visits the channel; `dt` cycles pass to the start of its break step, before which it does not act; each
place of a sweep is visited once (R129). -/
def execVisit (scan : Fin 24) (ch : Fin 512) (dt : Nat) (codes : List (BitVec 14)) (s : State) : Out :=
  let b := scan.val
  let s := s.elapse dt
  let x := s.scan b
  .next (if !s.sweeps b ∨ !x.running ∨ s.tim.time < x.sweepStart ∨ x.sweepEnd ≤ s.tim.time then s
    else match x.channels.idxOf? ch.val with
      | none => s
      | some k =>
        if s.tim.time < s.visitStart b k ∨ x.visited.contains k then s
        else (s.setScan b { x with visited := k :: x.visited }).visitAt b ch.val k x.visitLen codes)

/-- A commit that changes what sweeps follow puts it into force for those from its milestone on (R134). `s0` is the state before. -/
def State.sweepSync (s s0 : State) (n : Nat) : State :=
  let words := fun (s : State) => (List.range 18).map fun i => s.reg (ra .scan n (0x040 + 4 * i))
  if words s = words s0 then s else s.setScan n { s.scan n with from_ := s.tim.time }

/-! ### Check faults (R114) -/

/-- Counts a channel in or out of check fault on a page. -/
def State.countFaulted (s : State) (b : Nat) (up : Bool) : State :=
  let n := s.fld (ra .bank b 0x078) 16 9
  s.setFld (ra .bank b 0x078) 16 9 (if up then n + 1 else n - 1)

/-- The two banks that check a channel (R112). -/
def State.checkers (s : State) (c : Nat) : List Nat :=
  match s.scansOf c with
  | a :: b :: _ => if s.partnerOf a c = some b && s.partnerOf b c = some a then [a, b] else []
  | _ => []

/-- A partnership that ends at a milestone ends the channel's check fault and its counts with it (R114). `s0` is the state
before. DEDUCED (log 105). -/
def State.checkSync (s s0 : State) : State :=
  s.each (s.checks.map (·.1)) fun s c =>
    if s.checkers c = s0.checkers c then s
    else
      let s := if (s.check c).fault then s.each (s0.checkers c) fun s b => s.countFaulted b false else s
      s.setCheck c {}

def execCheckFault (ch : Fin 512) (s : State) : Out :=
  let c := ch.val
  let k := s.check c
  .next (match s.checkers c with
    | a :: b :: _ =>
      if !k.fault ∧ s.fld (ra .bank (min a b) 0x040) 24 4 ≤ k.bad then
        ((s.setCheck c { k with fault := true, good := 0 }).countFaulted a true).countFaulted b true
      else s
    | _ => s)

def execCheckFaultEnd (ch : Fin 512) (s : State) : Out :=
  let c := ch.val
  let k := s.check c
  .next (if k.fault ∧ 16 ≤ k.good then
      s.each (s.checkers c) (fun s b => s.countFaulted b false) |>.setCheck c { k with fault := false }
    else s)

def execChkCntRead (a : Acc) (b : Fin 24) (s : State) : Out :=
  .next (s.guardedRead a (ra .bank b.val 0x074) fun s => s.readClear (ra .bank b.val 0x074))

/-! ### Idle slices and spots (R115 to R119, R133) -/

/-- Visits per sweep of slice `j` for `n` channels (R128). -/
def visitsOf (n j : Nat) : Nat := if j < n then (n - 1 - j) / 16 + 1 else 0

/-- A slice lies in no group of a SPLIT bank. -/
def State.outsideGroups (s : State) (b k : Nat) : Bool :=
  !(List.range 64).any fun p =>
    let x := s.place p
    x.size ≠ 0 && x.bank = b && x.first ≤ k && k < x.first + 2 ^ (x.size - 1)

/-- The instant at which a slice's gap of the sweep that ran last begins (R133): the sweep keeps its own channels and visit
length (R134). -/
def State.gapStart (s : State) (b k : Nat) : Nat :=
  let x := s.scan b
  if s.modeNow b = 0 then x.sweepStart + visitsOf x.channels.length k * x.visitLen * cks else 0

/-- The first grid instant of a bank's sweeps at or after an instant (R131). -/
def State.gridFrom (s : State) (b at_ : Nat) : Nat :=
  let t := s.sweepPeriod b
  at_ + (s.fld (ra .scan b 0x084) 8 22 * cks % t + t - at_ % t) % t

/-- The values that the glaze switch of the next milestone brings on a page (R321). -/
def State.withSwitch (s : State) (page : Nat) : State :=
  let put := fun (s : State) (a : Nat) (mask val : Word) =>
    if a / 0x1000 = page then s.setReg a (mergeMask (s.reg a) mask val) else s
  match s.glz.pend with
  | none => s
  | some c =>
    let due := if c.late then decide (c.due ≤ s.tim.msCount + 1) else decide ((s.tim.msNum + 1) % 2 ^ 32 = c.target)
    if !due then s
    else
      let s := s.each s.glz.under fun s u => put s u.1 u.2.1 u.2.2
      match s.glazeDir c.id with
      | some d => s.each (s.dirItems d) fun s x => if x.kind = 0 then put s x.offset (x.mask &&& stMask x.offset) x.value else s
      | none => s

/-- The values that a glaze switch, COMMITs and released lock images bring on a page at the next milestone (R14, R38). -/
def State.withSnaps (s : State) (page : Nat) : State :=
  (s.withSwitch page).each (s.acc.snaps.filter fun (x : Snapshot) => decide (x.page = page ∧ x.due ≤ s.tim.msCount + 1)) fun s x =>
    let s := s.each x.items fun s (w : StagedWrite) => s.setReg w.addr (mergeMask (s.reg w.addr) w.mask w.val)
    s.each x.held fun s (w : HeldWrite) => s.setReg w.addr (mergeMask (s.reg w.addr) w.mask w.val)

/-- The service of a page from the next milestone on (R26). -/
def State.serviceNext (s : State) (page : Nat) : Bool :=
  ((s.acc.enables.filter fun (e : Nat × Bool × Nat) => e.1 = page && decide (e.2.2 ≤ s.tim.msCount + 1)).getLast?.map
    fun (e : Nat × Bool × Nat) => e.2.1).getD (s.inService page)

/-- The start of the next sweep (R131): past the instants that the running sweep covers (R134), and from the next milestone on
by the configuration that is committed for it. DEDUCED (log 96). -/
def State.nextSweep (s : State) (b : Nat) : Nat :=
  let busy := if (s.scan b).running then (s.scan b).sweepEnd else 0
  let at_ := s.gridFrom b (max (s.tim.time + 1) busy)
  if at_ < s.tim.next then at_ else (s.withSnaps (0x059 + b)).gridFrom b (max s.tim.next busy)

/-- The instant up to which a slice without visits stays free, if a change at the next milestone gives it some (R133): the first
sweep from then on. -/
def State.freeUntil (s : State) (b k : Nat) : Option Nat :=
  let t := s.withSnaps (0x059 + b)
  if visitsOf (t.maskOf b).length k = 0 || !s.serviceNext (0x059 + b) then none
  else some (t.gridFrom b (max s.tim.next (if (s.scan b).running then (s.scan b).sweepEnd else 0)))

/-- A slice is idle and stays idle for a whole visit from now (R116, R117, R133). -/
def State.sliceIdle (s : State) (b k : Nat) : Bool :=
  if !s.converts b || !s.running then false
  else match s.modeNow b with
    | 0 =>
      let busy := (s.scan b).running && decide (s.tim.time < s.gapStart b k)
      let free := visitsOf (s.maskOf b).length k = 0 || !s.inService (0x059 + b)
      let fin := s.tim.time + s.visitLen b * cks
      !busy && (if free then (s.freeUntil b k).all fun t => decide (fin ≤ t) else decide (fin ≤ s.nextSweep b))
    | 1 => s.outsideGroups b k
    | _ => false

/-- The slice for an urgent request with ANY (R116): the lowest-numbered slice that is idle. The rule's words 'with ANY the
lowest-numbered slice, is idle' are read so, not as slice S0 alone. DESIGN CHOICE (log 106). -/
def State.anyIdle (s : State) (b : Nat) : Option Nat := (List.range 16).find? fun k => s.sliceIdle b k

/-- The slice for an ordinary request with ANY (R117): of the idle slices the one whose gap begins first, the lowest on a
tie. -/
def State.firstGap (s : State) (b : Nat) : Option Nat :=
  ((List.range 16).filter fun k => s.sliceIdle b k).foldl (fun (m : Option Nat) k => match m with
    | none => some k
    | some j => if s.gapStart b k < s.gapStart b j then some k else some j) none

/-- Sets CNV_SPOT_RES.STATUS. -/
def State.spotStatus (s : State) (b v : Nat) : State := s.setFld (ra .bank b 0x064) 26 3 v

def State.setSpot (s : State) (b : Nat) (x : Spot) : State := s.setBank b { s.bank b with spot := x }

/-- The physical slice at a position: SX in the place of the retired one. -/
def State.physical (s : State) (b k : Nat) : Nat := if (s.bank b).retired = some k then 16 else k

/-- A gap visit runs on the slice at a position (R159). -/
def State.gapRuns (s : State) (b k : Nat) : Bool :=
  (kget s.cal.gapOn (b * 17 + s.physical b k) none).any fun (g : GapVisit) => decide (s.tim.time < g.stop)

/-- A gap visit on the slice at a position ends, and its codes are discarded (R159). -/
def State.abortGap (s : State) (b k : Nat) : State :=
  if s.gapRuns b k then
    { s with cal := { s.cal with gapOn := kset s.cal.gapOn (b * 17 + s.physical b k) none none } }
  else s

/-- The spot visit begins on a slice at the next CKS cycle (R116). -/
def State.beginSpot (s : State) (b k : Nat) : State :=
  let s := s.abortGap b k
  let at_ := ceilDiv s.tim.time cks * cks
  s.setSpot b { (s.bank b).spot with pending := true, started := true, slice := k, startAt := at_,
                                     stop := at_ + s.visitLen b * cks }

/-- A request that R115 refuses. -/
def State.spotRefused (s : State) (b ch : Nat) : Bool :=
  !(s.scansOf ch).isEmpty || (chanKind ch = .fp && !bit (s.pcfg ch) 6) || !s.converts b

/-- A write of CNV_SPOT_REQ (R115 to R119). -/
def State.actSpot (s : State) (b : Nat) (v : Word) : State :=
  let x := (s.bank b).spot
  let go := bit v 31
  let cancel := bit v 30
  let ch := bits v 0 9
  let slice := bits v 9 4
  let anySlice := bit v 13
  if go && cancel then s
  else if cancel then
    (if x.pending && !x.started then (s.setSpot b { x with pending := false }).spotStatus b 6 else s)
  else if !go then s
  else if x.pending then s.stick .bank b 15
  else if s.spotRefused b ch then s.spotStatus b 4
  else
    let q : Spot := { ch := ch, slice := slice, any := anySlice, pending := true, started := false, waited := 0 }
    let s := (s.setSpot b q).spotStatus b 1
    if bit v 14 then
      let k := if anySlice then s.anyIdle b else if s.sliceIdle b slice then some slice else none
      match k with
      | some k => s.beginSpot b k
      | none =>
        let s := (s.setSpot b { q with pending := false }).spotStatus b 3
        (s.countSat (ra .bank b 0x070) 1).stick .bank b 14
    else s

def execSpotRequest (a : Acc) (b : Fin 24) (ch : BitVec 9) (slice : BitVec 4) (any urgent : Bool) (s : State) : Out :=
  let v := ch.toNat + slice.toNat * 512 + (if any then 8192 else 0) + (if urgent then 16384 else 0) + 2 ^ 31
  .next (s.guarded a (ra .bank b.val 0x060) (BitVec.ofNat 32 v) fun s v => s.actSpot b.val v)

def execSpotCancel (a : Acc) (b : Fin 24) (s : State) : Out :=
  .next (s.guarded a (ra .bank b.val 0x060) (BitVec.ofNat 32 (2 ^ 30)) fun s v => s.actSpot b.val v)

/-- SPOT_START (R117): a gap that holds a whole visit has begun on the slice, and no gap visit runs in it, which only an
urgent request aborts (R159). -/
def execSpotStart (b : Fin 24) (slice : Fin 16) (s : State) : Out :=
  let x := (s.bank b.val).spot
  let right := if x.any then s.firstGap b.val = some slice.val else x.slice = slice.val ∧ s.sliceIdle b.val slice.val
  .next (if x.pending ∧ !x.started ∧ right ∧ !s.gapRuns b.val slice.val then s.beginSpot b.val slice.val else s)

/-- SPOT_NO_GAP (R117): 16 milestones after acceptance. -/
def execSpotNoGap (b : Fin 24) (s : State) : Out :=
  let x := (s.bank b.val).spot
  .next (if x.pending ∧ !x.started ∧ 16 ≤ x.waited then
      (s.setSpot b.val { x with pending := false }).spotStatus b.val 5
    else s)

/-- SPOT_DONE (R115, R118): the visit of the spot is over. -/
def execSpotDone (b : Fin 24) (codes : List (BitVec 14)) (s : State) : Out :=
  let x := (s.bank b.val).spot
  .next (if x.pending ∧ x.started ∧ x.stop ≤ s.tim.time then
      let forced := isForced x.ch && s.chanOn x.ch
      let dead := s.sliceBad b.val x.slice
      let mk := if dead then 3 else if forced then 0 else s.heldMarker x.ch false
      let noValue := !s.holds x.ch || (s.port x.ch).held.isNone
      let sum := if forced || noValue then 0 else (visitCodes codes).sum
      let w := encInt 20 sum + mk * 2 ^ 20 + x.slice * 2 ^ 22 + 2 * 2 ^ 26
      let t := x.startAt / 2 ^ 32
      let s := (s.setSpot b.val { x with pending := false, started := false }).endHold x.ch
      let s := s.setReg (ra .bank b.val 0x064) (BitVec.ofNat 32 w)
      let s := s.setReg (ra .bank b.val 0x068) (BitVec.ofNat 32 (stampFrac t))
      let s := s.setReg (ra .bank b.val 0x06C) (BitVec.ofNat 32 (stampSec t % 2 ^ 31))
      s.renew (ra .bank b.val 0x068)
    else s)

def execSpotDropRead (a : Acc) (b : Fin 24) (s : State) : Out :=
  .next (s.guardedRead a (ra .bank b.val 0x070) fun s => s.readClear (ra .bank b.val 0x070))

/-- The scan side of a milestone: gates and spots wait. -/
def State.scanMilestone (s : State) : State :=
  s.upTo 24 fun s b =>
    let x := s.scan b
    let s := if x.gated || x.skips ≠ 0 then
        s.setScan b { x with waited := if x.gated then x.waited + 1 else x.waited, skips := 0 }
      else s
    let q := (s.bank b).spot
    if q.pending && !q.started then s.setSpot b { q with waited := q.waited + 1 } else s

end Sys2Proof.Machine
end

