-- ==== Sys2Proof/Machine/Alloc.lean ====
section
/-! DEFINITION. The slice allocator (chapter 06, R142 to R149): capacity, packing, requests, growth, shortfall, and the
halving of thermal enforcement (R145). -/

namespace Sys2Proof.Machine

open Sys2Proof

/-! ### Entries -/

/-- What the allocator takes from an entry of the slice-allocation table. -/
structure PortEntry where
  en : Bool
  alarm : Bool
  pin : Bool
  lo : Nat
  hi : Nat
  psz : Nat
  pbank : Nat
  tenant : Nat
  forbid : Nat
  deriving DecidableEq, Repr

/-- The entry of a fast port; until one is swapped in, the default one (R149). -/
def State.portEntry (s : State) (p : Nat) : PortEntry :=
  let w := s.reg (TableId.slice.addr p 0)
  if !s.acc.placed.contains p then ⟨true, false, false, 3, 3, 0, 0, 0xFF, 0⟩
  else ⟨bit w 0, bit w 1, bit w 2, bits w 4 3, bits w 8 3, bits w 12 3, bits w 16 5, bits w 24 8,
        s.tabFld .slice p 1 0 24⟩

/-- The minimum size of a port: PSZ for a pinned entry. -/
def PortEntry.least (e : PortEntry) : Nat := if e.pin then e.psz else e.lo

/-- Slices of a size code. -/
def slicesOf (sz : Nat) : Nat := if sz = 0 then 0 else 2 ^ (sz - 1)

/-- Enabled fast ports. -/
def State.placedPorts (s : State) : List Nat := (List.range 64).filter fun p => (s.portEntry p).en

/-- The banks of the capacity (R142): fast pool, not parked, not under self-calibration, not degraded. -/
def State.capBanks (s : State) : List Nat :=
  (List.range 24).filter fun b => s.pool b = 1 && s.converts b && !(s.bank b).degraded

/-! ### Packing (R142) -/

/-- A placed size: port, bank, first slice, size code. -/
structure Spot4 where
  port : Nat
  bank : Nat
  first : Nat
  size : Nat
  deriving DecidableEq, Repr

/-- The slices of a placement, as bank × 16 + slice. -/
def Spot4.slots (x : Spot4) : List Nat :=
  if x.size = 6 then (List.range 32).map fun i => x.bank * 16 + i
  else (List.range (slicesOf x.size)).map fun i => x.bank * 16 + x.first + i

/-- The placement lies in the capacity, off forbidden banks and taken slices. -/
def Spot4.fits (x : Spot4) (caps : List Nat) (forbid : Nat) (used : List Nat) : Bool :=
  let ok := fun (b : Nat) => caps.contains b && forbid / 2 ^ b % 2 = 0
  (if x.size = 6 then x.bank % 2 = 0 && ok x.bank && ok (x.bank + 1) else ok x.bank) &&
    x.slots.all fun k => !used.contains k

/-- The places of a size on a bank, in ascending slice. -/
def placesOn (port size b : Nat) : List Spot4 :=
  if size = 0 ∨ 6 < size then []
  else if 5 ≤ size then [⟨port, b, 0, size⟩]
  else (List.range (16 / slicesOf size)).map fun j => ⟨port, b, j * slicesOf size, size⟩

/-- The first place of a size: lowest bank, then lowest slice. -/
def firstPlace (caps : List Nat) (forbid : Nat) (used : List Nat) (port size : Nat) : Option Spot4 :=
  caps.findSome? fun b => (placesOn port size b).find? fun x => x.fits caps forbid used

/-- Packs ports with their sizes in order, after what is placed already. -/
def State.packRest (s : State) (caps : List Nat) : List (Nat × Nat) → List Spot4 → Option (List Spot4)
  | [], acc => some acc
  | (p, sz) :: t, acc =>
    match firstPlace caps (s.portEntry p).forbid (acc.flatMap Spot4.slots) p sz with
    | some x => s.packRest caps t (acc ++ [x])
    | none => none

/-- Packs the pins. -/
def State.packPins (s : State) (caps : List Nat) : List Nat → List Spot4 → Option (List Spot4)
  | [], acc => some acc
  | p :: t, acc =>
    let e := s.portEntry p
    match (placesOn p e.psz e.pbank).find? fun x => x.fits caps e.forbid (acc.flatMap Spot4.slots) with
    | some x => s.packPins caps t (acc ++ [x])
    | none => none

/-- Ports with their sizes, largest first, then in ascending port number. -/
def bySize (l : List (Nat × Nat)) : List (Nat × Nat) :=
  ([6, 5, 4, 3, 2, 1] : List Nat).flatMap fun sz => l.filter fun x => x.2 = sz

/-- Packs all, largest first: pins at their pinned size, then the other sizes, after the placements that stay. -/
def State.packAll (s : State) (caps : List Nat) (stay : List Spot4) (sizes : List (Nat × Nat)) :
    Option (List Spot4) :=
  let todo := bySize (sizes.filter fun x => x.2 ≠ 0 && !stay.any fun y => y.port = x.1)
  let pins := (todo.filter fun x => (s.portEntry x.1).pin && x.2 = (s.portEntry x.1).psz).map (·.1)
  match s.packPins caps pins stay with
  | some acc => s.packRest caps (todo.filter fun x => !pins.contains x.1) acc
  | none => none

/-- The placement of a port now. -/
def State.placeNow (s : State) (p : Nat) : Spot4 := ⟨p, (s.place p).bank, (s.place p).first, (s.place p).size⟩

/-- Placements that stay because the size is unchanged and the place is still good. -/
def State.keepers (s : State) (caps : List Nat) (sizes : List (Nat × Nat)) : List Spot4 :=
  (sizes.filter fun x => x.2 ≠ 0 && (s.place x.1).size = x.2 &&
    (!(s.portEntry x.1).pin || x.2 ≠ (s.portEntry x.1).psz || (s.place x.1).bank = (s.portEntry x.1).pbank) &&
    (s.placeNow x.1).fits caps (s.portEntry x.1).forbid []).map fun x => s.placeNow x.1

/-- Ports of unchanged size keep their slices if packing allows; else everything is packed anew (R143 step 4). Banks in
`frozen` change no layout: their ports stay, disabled ones too, and no other comes. -/
def State.pack (s : State) (caps frozen : List Nat) (sizes : List (Nat × Nat)) : Option (List Spot4) :=
  let onFrozen := fun (x : Spot4) => frozen.contains x.bank || (x.size = 6 && frozen.contains (x.bank + 1))
  let fixed := ((List.range 64).map fun p => s.placeNow p).filter fun x => x.size ≠ 0 && onFrozen x
  let open_ := caps.filter fun b => !frozen.contains b
  let rest := sizes.filter fun x => !fixed.any fun y => y.port = x.1
  match s.packAll open_ (fixed ++ s.keepers open_ rest) rest with
  | some r => some r
  | none => s.packAll open_ fixed rest

/-- The minimums of all enabled ports. -/
def State.leastSizes (s : State) : List (Nat × Nat) := s.placedPorts.map fun p => (p, (s.portEntry p).least)

/-- The minimums can be packed onto these banks. -/
def State.leastPack (s : State) (caps : List Nat) : Bool := (s.packAll caps [] s.leastSizes).isSome

/-- Slices of a tenant's ports at given sizes. -/
def State.tenantSlices (s : State) (t : Nat) (sizes : List (Nat × Nat)) : Nat :=
  ((sizes.filter fun x => (s.portEntry x.1).tenant = t).map fun x => slicesOf x.2).sum

/-- A tenant's converter share (SHARE); the owner has none to keep. -/
def State.shareSlices (s : State) (t : Nat) : Nat := if t < 128 then bits (s.ten t 1) 0 9 else 256 * 24

/-! ### Checks of an entry (R142) -/

/-- Reserved values of an entry (words as they would stand). A PSZ of 0 or 7, a PBANK of 24 or above and an odd PBANK with PSZ 6
count among them, not among the bad pins, and only in a pinned entry. DESIGN CHOICE (log 142). -/
def badSliceEntry (w0 w3 : Word) : Bool :=
  let lo := bits w0 4 3
  let hi := bits w0 8 3
  let t := bits w0 24 8
  let psz := bits w0 12 3
  let pb := bits w0 16 5
  lo = 0 || lo = 7 || hi < lo || hi = 7 || (128 ≤ t && t ≤ 254) || 16 < bits w3 0 5 || 16 < bits w3 8 5 ||
    (bit w0 2 && (psz = 0 || psz = 7 || 24 ≤ pb || (psz = 6 && pb % 2 = 1)))

/-- The sticky bits of the allocator page that refuse entry `p` as it stands in `s`: none accepts it. -/
def State.sliceRefusals (s : State) (p : Nat) : List Nat :=
  if badSliceEntry (s.reg (TableId.slice.addr p 0)) (s.reg (TableId.slice.addr p 3)) then [3]
  else
    let caps := s.capBanks
    let e := s.portEntry p
    let least := s.leastSizes
    let pins := (bySize least).filter fun x => (s.portEntry x.1).pin
    let barred := fun (b : Nat) => e.forbid / 2 ^ b % 2 = 1
    let pinBad := (s.packPins caps (pins.map (·.1)) []).isNone ||
      (e.pin && (barred e.pbank || (e.psz = 6 && barred (e.pbank + 1))))
    let minOver := !s.leastPack caps
    let shareOver := e.tenant < 128 && s.shareSlices e.tenant < s.tenantSlices e.tenant least
    (if minOver then [8] else []) ++ (if shareOver then [9] else []) ++ (if pinBad then [10] else [])

/-! ### Applying a placement (R144) -/

/-- The layout of a bank: the placements on it. -/
def State.layout (s : State) (b : Nat) : List Spot4 :=
  ((List.range 64).map fun p => s.placeNow p).filter fun x =>
    x.size ≠ 0 && (x.bank = b || (x.size = 6 && x.bank + 1 = b))

/-- Mode and role of a bank of the fast pool under its layout (R108, R109). -/
def modeOf (l : List Spot4) (b : Nat) : Nat × Nat :=
  if l.any fun x => x.size = 6 then (3, if b % 2 = 0 then 1 else 2)
  else if l.any fun x => x.size = 5 then (2, 0) else (1, 0)

/-- An estimator returns to tracking, unless it has failed (R161, R163). -/
def Trim.restart (t : Trim) : Trim :=
  if t.est = .failed then t else { t with est := .tracking, idle := false, good := 0, bad := 0 }

/-- All estimators of a slice return to tracking. -/
def SliceCal.restart (c : SliceCal) : SliceCal :=
  { c with ofs := c.ofs.restart, gain := c.gain.restart, dly := c.dly.restart }

/-- The placement that a slice of a bank belongs to. -/
def State.groupAt (s : State) (b k : Nat) : Option Spot4 := (s.layout b).find? fun x => x.slots.contains (b * 16 + k)

/-- The placements before the last entry into Sleep (R166). -/
def State.beforeSleep (s : State) : State :=
  { s with places := s.places.map fun (p : Nat × Place) =>
      (p.1, { p.2 with bank := p.2.slept.1, first := p.2.slept.2.1, size := p.2.slept.2.2 }) }

/-- What a change of mode or layout does to a bank: shadowing restarts, and a substitution that waits on its convergence is
off (R125), but not the early one of R124; the estimators of the slices that it affects return to tracking, of a shadowing
spare with its slice (R161), except where Sleep takes the ports away, which keeps estimator states (R166): where it gives them
back the layout before it is compared; and a new pair's check begins (R144). `whole` says that the mode changes, which affects
every slice. DEDUCED (log 58). -/
def State.layoutChanged (s s0 : State) (b : Nat) (whole : Bool) : State :=
  let x := s.bank b
  let s := s.setBank b { x with shadowMs := 0, shadowOk := 0, converged := false
                                swapDue := x.swapDue && decide (0 < x.swapMs)
                                pairFault := false, pairMark := false, pairFails := 0, pairPasses := 0 }
  let old := if s.pwr.resumed then s0.beforeSleep else s0
  let whole := if s.pwr.resumed then s.pool b = 1 && modeOf (s.layout b) b ≠ modeOf (old.layout b) b else whole
  if s.pwr.st = .sleep && s.pool b = s0.pool b then s
  else s.upTo 17 fun s k =>
    let at_ := if k = 16 then x.target else k
    if whole || s.groupAt b at_ ≠ old.groupAt b at_ then
      let c := kget s.cal.slices (b * 17 + k) {}
      { s with cal := { s.cal with slices := kset s.cal.slices (b * 17 + k) c.restart {} } }
    else s

/-- A bank's mode follows its pool and layout; a parked bank keeps the mode last in force (R107), but leads and follows no
longer (R109). -/
def State.bankMode (s s0 : State) (b : Nat) : State :=
  if s.parked b || (s.bank b).sc = 2 then
    (if (s.bank b).role = 0 then s
     else s.setBank b { s.bank b with role := 0, pairFault := false, pairMark := false, pairFails := 0, pairPasses := 0 })
  else
    let (m, r) := if s.pool b = 0 then (0, 0) else modeOf (s.layout b) b
    let x := s.bank b
    let s := s.setBank b { x with mode := some m, role := r }
    if x.mode = some m ∧ x.role = r ∧ s.layout b = s0.layout b then s
    else if x.mode = none then s else s.layoutChanged s0 b (decide (x.mode ≠ some m) || decide (x.role ≠ r))

/-- Ports take their places (R144): every port whose place changed counts a move; being placed from no slice, or losing its
slice, is no move. DEDUCED (log 44). -/
def State.movePorts (s : State) (xs : List Spot4) : State :=
  s.upTo 64 fun s p =>
    let o := s.place p
    match xs.find? fun x => x.port = p with
    | some x =>
      if o.bank = x.bank ∧ o.first = x.first ∧ o.size = x.size then s
      else
        let n := if o.size = 0 || x.size = 0 then o.moves else (o.moves + 1) % 256
        s.setPlace p { o with bank := x.bank, first := x.first, size := x.size, moves := n, served := true }
    | none => if o.size = 0 then s else s.setPlace p { o with first := 0, size := 0 }

/-- A placement takes effect (R144). -/
def State.applyPlaces (s : State) (xs : List Spot4) : State :=
  let s0 := s
  (s.movePorts xs).upTo 24 fun s b => s.bankMode s0 b

/-- The throttled flag of each port (R145): below its size before enforcement. -/
def State.throttleFlags (s : State) : State :=
  s.upTo 64 fun s p =>
    let x := s.place p
    if x.preSize = 0 then s
    else if x.size < x.preSize then s.setPlace p { x with throttled := true }
    else s.setPlace p { x with throttled := false, preSize := if s.thm.enforced then x.preSize else 0 }

/-! ### Growth (R143) -/

/-- Active periods among the last 16. -/
def Place.act (x : Place) : Nat := (x.acts.filter id).length

/-- A port comes before another when growth is granted. -/
def State.growsBefore (s : State) (beyond : Nat → Bool) (p q : Nat) : Bool :=
  let key := fun (i : Nat) =>
    let e := s.portEntry i
    let w := s.tabFld .slice i 3 16 8
    (((if beyond i then 1 else 0) * 2 + (if e.alarm then 0 else 1)) * 256 + (255 - w)) * 32 * 64 +
      (31 - (s.place i).act) * 64 + i
  key p < key q

/-- The best of some ports. -/
def pickBest (before : Nat → Nat → Bool) : List Nat → Option Nat
  | [] => none
  | p :: t => match pickBest before t with
    | none => some p
    | some q => some (if before q p then q else p)

/-- The size granted to a port so far. -/
def granted (g : List (Nat × Nat)) (p : Nat) : Nat := ((g.find? fun x => x.1 = p).map (·.2)).getD 0

/-- Grants growth one doubling at a time; ports in `stuck` cannot grow any further. DEDUCED (log 58). -/
def State.grow (s : State) (caps frozen : List Nat) (want : Nat → Nat) :
    Nat → List (Nat × Nat) → List Nat → List (Nat × Nat)
  | 0, g, _ => g
  | n + 1, g, stuck =>
    let open_ := (g.map (·.1)).filter fun p =>
      !stuck.contains p && !(s.portEntry p).pin && granted g p ≠ 0 && granted g p < want p
    let up := fun (p : Nat) => g.map fun x => if x.1 = p then (p, x.2 + 1) else x
    let beyond := fun (p : Nat) =>
      let t := (s.portEntry p).tenant
      s.shareSlices t < s.tenantSlices t (up p)
    match pickBest (s.growsBefore beyond) open_ with
    | none => g
    | some p =>
      if (s.pack caps frozen (up p)).isSome then s.grow caps frozen want n (up p) stuck
      else s.grow caps frozen want n g (p :: stuck)

/-- Minimums and pins first, then growth up to what each port asks for; the placement, if the minimums can be packed. -/
def State.grant (s : State) (caps frozen : List Nat) (want : Nat → Nat) : Option (List Spot4) :=
  let least := s.leastSizes
  match s.pack caps frozen least with
  | none => none
  | some _ => s.pack caps frozen (s.grow caps frozen want 512 least [])

/-- The size a port asks for to keep what it has. -/
def State.holdSize (s : State) (p : Nat) : Nat :=
  let e := s.portEntry p
  if e.pin then e.psz else max e.lo (min e.hi (s.place p).size)

/-! ### Shortfall (R146) -/

/-- Ports in the order in which shortfall reduces them: non-ALARM first, ALARM last, highest number first. -/
def State.shortOrder (s : State) : List Nat :=
  let ps := s.placedPorts.reverse
  (ps.filter fun p => !(s.portEntry p).alarm) ++ ps.filter fun p => (s.portEntry p).alarm

/-- Packs what shortfall leaves: around the placements that can stay, else anew. -/
def State.packShort (s : State) (caps : List Nat) (sizes : List (Nat × Nat)) : Option (List Spot4) :=
  match s.packAll caps (s.keepers caps sizes) sizes with
  | some r => some r
  | none => s.packAll caps [] sizes

/-- Reduces ports to size code 1, a pinned one too, and then unplaces them until the rest can be packed.
DEDUCED (log 58). -/
def State.reduce (s : State) (caps : List Nat) : List Nat → List (Nat × Nat) → Option (List Spot4) × List Nat
  | [], sizes => (s.packAll caps [] sizes, [])
  | p :: t, sizes =>
    let to1 := sizes.map fun x => if x.1 = p then (p, 1) else x
    match s.packShort caps to1 with
    | some r => (some r, [p])
    | none =>
      let gone := sizes.map fun x => if x.1 = p then (p, 0) else x
      match s.packShort caps gone with
      | some r => (some r, [p])
      | none => let r := s.reduce caps t gone; (r.1, p :: r.2)

/-- Marks the ports that shortfall reduces. -/
def State.markShort (s : State) (ps : List Nat) : State :=
  s.upTo 64 fun s p =>
    let x := s.place p
    if x.short = ps.contains p then s else s.setPlace p { x with short := ps.contains p }

/-- The allocator reduces ports for want of capacity. -/
def State.shortfall (s : State) (caps : List Nat) : State :=
  let r := s.reduce caps s.shortOrder s.leastSizes
  ((s.applyPlaces (r.1.getD [])).markShort r.2).stick .alloc 0 11

/-! ### Step 6 of a milestone -/

/-- Banks whose spare shadows: their layout does not change at an evaluation (R143). DEDUCED (log 58). -/
def State.frozenBanks (s : State) : List Nat := (List.range 24).filter fun b => (s.bank b).spare = SpareSt.shadowing

/-- What the allocator moves at a milestone: in Sleep every port is unplaced (R349); while every bank of the pool is
under self-calibration too (R149); else a change of capacity packs anew, or falls short. DEDUCED (log 58). -/
def State.allocMoves (s : State) : State :=
  let caps := if s.pwr.st = .run || s.pwr.st = .idle then s.capBanks else []
  if caps = s.caps then s
  else
    let s := { s with caps := caps }
    let calBanks := (List.range 24).any fun b => s.pool b = 1 && (s.bank b).sc = 2
    if caps.isEmpty && (calBanks || s.pwr.st = .sleep) then (s.applyPlaces []).markShort []
    else match s.grant caps [] s.holdSize with
      | some xs => (s.applyPlaces xs).markShort []
      | none => s.shortfall caps

/-- The bank on which packing will first place a port that has not been placed yet feeds its streams (R149). -/
def State.foresee (s : State) : State :=
  let caps := (List.range 24).filter fun b => s.pool b = 1 && !(s.bank b).parkedTherm && !(s.bank b).degraded
  let xs := (s.packAll caps [] s.leastSizes).getD []
  s.each xs fun s x =>
    let o := s.place x.port
    if o.served || o.bank = x.bank then s else s.setPlace x.port { o with bank := x.bank }

/-- Step 5 has something to do at this milestone that comes before the moves of step 6 (R14). -/
def State.enforceDue (s : State) : Bool := (s.thm.begin_ && !s.thm.enforced) || (s.thm.enforced && s.thm.stepDue)

/-- The codes of a port's period that depart from their mean by more than ACT_THR (R143): each value with how often it
came. -/
def beyondMean (codes : List (Int × Nat)) (thr : Nat) : Nat :=
  let n := (codes.map (·.2)).sum
  let sum : Int := (codes.map fun (x : Int × Nat) => x.1 * x.2).sum
  ((codes.filter fun (x : Int × Nat) => decide (thr * n < (n * x.1 - sum).natAbs)).map (·.2)).sum

/-- Activity of a placed port over the period (R143). -/
def State.noteActivity (s : State) (m : MsIn) : State :=
  s.upTo 64 fun s p =>
    let x := s.place p
    if x.size = 0 then s
    else
      let w := s.reg (TableId.slice.addr p 2)
      let n := beyondMean (((m.activity.find? fun a => a.1.val = p).map (·.2)).getD []) (bits w 0 14)
      let on : Bool := decide (bits w 16 16 ≤ n)
      s.setPlace p { x with acts := (on :: x.acts).take 16 }

/-- The request of step 1 of R143, and the count of evaluations at or below LOW. -/
def State.request (s : State) (p : Nat) : Nat × Nat :=
  let x := s.place p
  let e := s.portEntry p
  let w := s.reg (TableId.slice.addr p 3)
  let base := s.holdSize p
  if e.pin then (base, 0)
  else
    let lows := if x.act ≤ bits w 8 5 then x.lows + 1 else 0
    let up := if bits w 0 5 ≤ x.act then min (base + 1) e.hi else base
    (if 4 ≤ lows then max (up - 1) e.lo else up, lows)

/-- ALLOCATOR_EVALUATION (R143) at step 6 of the milestone emitted last (R144), after an enforcement of step 5. While
enforcement is in force no port grows, and ALARM ports keep their size (R145). DEDUCED (log 59). -/
def execAllocatorEvaluation (s : State) : Out :=
  .next (if !s.evalDue || !s.atMilestone || s.enforceDue then s
    else
      let s := { s with evalDue := false }
      let caps := s.capBanks
      let freeze := s.flag (ra .alloc 0 0x044) 3
      let s := if freeze then s
        else s.upTo 64 fun s p =>
          let r := s.request p
          let x := s.place p
          if x.size = 0 && x.lows = 0 && x.want = 0 then s else s.setPlace p { x with want := r.1, lows := r.2 }
      let want := fun (p : Nat) =>
        if freeze || (s.place p).want = 0 || (s.thm.enforced && (s.portEntry p).alarm) then s.holdSize p
        else if s.thm.enforced then min (s.holdSize p) (s.place p).want else (s.place p).want
      if caps.isEmpty then s
      else match s.grant caps s.frozenBanks want with
        | some xs => (((s.applyPlaces xs).markShort []).throttleFlags).streamsMoved
        | none => s)

/-! ### Thermal enforcement (R145, R368) -/

/-- Every non-ALARM port above its MIN is halved once, and every fast bank left without a port is parked, in the mode that
it was in (R107). A pinned port keeps its size like an ALARM port (DESIGN CHOICE, log 141); where the halved sizes cannot be
packed, each port is halved where it stands (DESIGN CHOICE, log 146). The moves of step 6 follow (R14). -/
def State.halvePorts (s : State) : State :=
  let s0 := s
  let sizes := s.placedPorts.map fun p =>
    let e := s.portEntry p
    let x := s.place p
    (p, if e.alarm || e.pin || x.size ≤ e.lo then x.size else x.size - 1)
  let stay := sizes.map fun (x : Nat × Nat) => { s.placeNow x.1 with size := x.2 }
  let s := s.movePorts ((s.pack s.capBanks [] sizes).getD stay)
  let s := s.each (List.range 24).reverse fun s b =>
    if s.pool b = 1 && s.converts b && (s.layout b).isEmpty then s.setBank b { s.bank b with parkedTherm := true } else s
  let s := s.upTo 24 fun s b => s.bankMode s0 b
  let s := { s with caps := s.capBanks }
  ((s.allocMoves).throttleFlags).streamsMoved

/-- The sizes before enforcement (R145). -/
def State.noteSizes (s : State) : State :=
  s.upTo 64 fun s p =>
    let x := s.place p
    if x.size = 0 then s else s.setPlace p { x with preSize := max x.preSize x.size }

/-- Banks that enforcement parked come back (R145). -/
def State.unpark (s : State) : State :=
  s.upTo 24 fun s b => if (s.bank b).parkedTherm then s.setBank b { s.bank b with parkedTherm := false } else s

end Sys2Proof.Machine
end

