-- ==== Sys2Proof/Machine/Replay.lean ====
section
/-! DEFINITION. Plovi replay (R172, R292, R293). -/

namespace Sys2Proof.Machine

open Sys2Proof

/-- A pipeline reads idle: it processes no stream and is no follower's half (R172). -/
def State.pipeIdle (s : State) (b : Nat) : Bool := (s.pipeStreams b).isEmpty && (s.bank b).role ≠ 2

/-- The pipeline a replay would use. -/
def State.replayPipe (s : State) (pipe : Nat) : Option Nat :=
  if pipe = 31 then (List.range 24).find? fun b => s.pipeIdle b
  else if pipe < 24 && s.pipeIdle pipe then some pipe else none

/-- Milestones from the first of a capture, modulo 2^32. -/
def Capture.offset (c : Capture) (ms : Nat) : Nat := (ms + 2 ^ 32 - c.first % 2 ^ 32) % 2 ^ 32

/-- [start, stop) lies within a capture. -/
def Capture.spans (c : Capture) (start stop : Nat) : Bool :=
  c.offset start < c.offset stop && c.offset stop ≤ c.offset c.last

/-- A write of LAK_RPLY_CMD.GO. DEDUCED (log 67). -/
def State.startReplay (s : State) : State :=
  let cfg := s.reg (ra .lak 0 0x0A0)
  let start := (s.reg (ra .lak 0 0x0A4)).toNat
  let stop := (s.reg (ra .lak 0 0x0A8)).toNat
  let refuse := ({ s with lake := { s.lake with replayStatus := 3 } }).stick .lak 0 16
  if s.lake.replay.isSome then refuse
  else match s.replayPipe (bits cfg 3 5), s.lake.captures.find? (fun c => c.idx = bits cfg 0 3),
      s.session (bits cfg 8 11) with
    | some b, some c, some x =>
      if c.verified && c.spans start stop && x.st = SessSt.open_ then
        { s with lake := { s.lake with replay := some ⟨b, c.idx, x.num, start, stop, c.offset start⟩,
                                       replayStatus := 1, replayPipe := b } }
      else refuse
    | _, _, _ => refuse

/-- A write of LAK_RPLY_CMD. DEDUCED (log 68). -/
def State.actReplay (s : State) (v : Word) : State :=
  let s := if bit v 0 then s.startReplay else s
  if bit v 1 then s.endReplay 5 else s

def execReplayGo (a : Acc) (s : State) : Out :=
  .next (s.guarded a (ra .lak 0 0x0AC) 1 fun s v => s.actReplay v)

def execReplayAbort (a : Acc) (s : State) : Out :=
  .next (s.guarded a (ra .lak 0 0x0AC) 2 fun s v => s.actReplay v)

/-- CAPTURE_COPY_DONE (R291, R295). -/
def execCaptureCopyDone (s : State) : Out :=
  .next (if s.lake.capSt ≠ .copying then s
    else match s.lake.building with
      | none => s.rearm
      | some c =>
        let s := { s with lake := { s.lake with captures := s.lake.captures ++ [c], building := none } }
        (s.rearm).waymark 0x1A [c.idx, c.cause])

end Sys2Proof.Machine
end

