-- ==== Sys2Proof/Machine/Power.lean ====
section
/-! DEFINITION. Power states (chapter 16): requests, wake, retention loss, rails, the power-fail sequence, leaving Off. -/

namespace Sys2Proof.Machine

open Sys2Proof

/-- PWR BLK_STICKY. -/
def State.pwrStick (s : State) (n : Nat) : State := s.stick .pwr 0 n

/-- Every WE–RE short of an EC port closes (R72). -/
def State.closeShorts (s : State) : State :=
  s.upTo 256 fun s c =>
    let p := s.port c
    if p = {} then s else s.setPort c { p with shortClosed := true, engaging := false, ramping := false, bias := 0 }

/-- Steps 1 to 5 of the power-fail sequence, to Off (R357): the instant is latched, the index saved unless the entry to
Deep Sleep saved it, the alarm outputs are released, the shorts close, the enables go low. DEDUCED (log 49). -/
def State.powerOff (s : State) (by_ cause : Nat) (returned : Bool) : State :=
  let t := s.tim.stamp
  let s := s.pwrMark s.pwr.st .off 0
  let s := (s.setReg (ra .pwr 0 0x060) (BitVec.ofNat 32 (stampFrac t))).setReg (ra .pwr 0 0x064)
    (BitVec.ofNat 32 (stampSec t))
  let s := if s.pwr.st = .deepSleep then s else s.saveIndex
  let s := (s.releaseOutputs).closeShorts
  let s := s.upTo 8 fun s p => s.setFport p {}
  { s with
    tim := { s.tim with locked := false, touts := false }
    hst := { s.hst with linkUp := false }
    upd := { s.upd with firstDue := false, markDue := none, versionLeft := 0 }
    pwr := { s.pwr with st := .off, booted := false, live := false, basePending := false, waking := false, woke := none,
                        offBy := by_, penHigh := false, lowPower := false, recCause := max cause s.pwr.recCause,
                        recPf := s.pwr.recPf || returned } }

/-- The effect of a request written to PWR_CTRL (R347, R348, R359); `due` is the milestone count at which an entry may
happen. Run ends Idle at once, and Off follows at once. -/
def State.actPwrCtrl (s : State) (v : Word) (due : Nat) : State :=
  let q := bits v 0 3
  if 5 ≤ q then s.pwrStick 3
  else
    let s := s.setFld (ra .pwr 0 0x040) 0 3 q
    let s := { s with pwr := { s.pwr with reqDue := due } }
    if q = 4 then s.powerOff 1 0 false
    else if q = 0 then s.leaveIdle
    else s

/-- The address of PWR_CTRL. -/
def pwrCtrl : Nat := ra .pwr 0 0x040

def execReqRun (a : Acc) (s : State) : Out := .next (s.guarded a pwrCtrl 0 fun s v => s.actPwrCtrl v s.tim.due)
def execReqIdle (a : Acc) (s : State) : Out := .next (s.guarded a pwrCtrl 1 fun s v => s.actPwrCtrl v s.tim.due)
def execReqSleep (a : Acc) (s : State) : Out := .next (s.guarded a pwrCtrl 2 fun s v => s.actPwrCtrl v s.tim.due)
def execReqDeepSleep (a : Acc) (s : State) : Out := .next (s.guarded a pwrCtrl 3 fun s v => s.actPwrCtrl v s.tim.due)
def execReqOff (a : Acc) (s : State) : Out := .next (s.guarded a pwrCtrl 4 fun s v => s.actPwrCtrl v s.tim.due)

/-- EC_SHORT_CLOSE (R72): VDDA_3V3 falls below 2.5 V in a power-fail sequence; a sequence is over in the step that takes
the device Off, so this command finds it Off. -/
def execEcShortClose (s : State) : Out := .next (if s.pwr.st = .off then s.closeShorts else s)

/-! ### Wake (R353 to R355) -/

/-- The milestone PWR_TMR_MS has been reached since the entry (R220, R353). DEDUCED (log 51). -/
def State.timerReached (s : State) : Bool :=
  let n := (s.reg (ra .pwr 0 0x050)).toNat
  let came := s.pwr.entry / msSpan % 2 ^ 32
  let now := s.tim.time / msSpan % 2 ^ 32
  (n = came || serialNewer 32 n came) && (n = now || serialNewer 32 now n)

/-- The sources that may wake the device from its state: those of the table, enabled in PWR_WAKE_EN; the AON timer once its
milestone has been reached; the alarm source where a switch has become ON in Sleep in a rule with WAKE = 1 (R211); in Sleep
the thermal source where the warning has risen (R367); host access always wakes it from Sleep. -/
def State.wakeEnabled (s : State) : Nat :=
  let en := s.fld (ra .pwr 0 0x048) 0 6
  let en := if s.timerReached then en else Nat.land en 0x37
  let en := if s.alm.wakeSeen then en else Nat.land en 0x2F
  if s.pwr.st = .sleep then (if s.thm.wakeSeen then en else Nat.land en 0x1F) + 64 else Nat.land en 0x2F

/-- 1,397 µs, the end of the entry table of R351, in 2^-64 s. DEDUCED (log 51). -/
def entrySpan : Nat := 1397 * 2 ^ 64 / 1000000

/-- WAKE_EVENT (R353, R354): the wake record is written, REQ returns to Run, and the wake sequence begins; after a
retention loss a cold start takes its place (R352). DEDUCED (log 51). -/
def execWakeEvent (sources : BitVec 7) (s : State) : Out :=
  let m := Nat.land sources.toNat s.wakeEnabled
  .next (if !(s.pwr.st = .sleep ∨ s.pwr.st = .deepSleep) ∨ s.pwr.waking ∨ m = 0 then s
    else
      if s.pwr.st = .deepSleep ∧ s.pwr.recRet then (s.wakeRecord m).coldReset 7
      else
        let s := if s.pwr.st = .deepSleep ∧ s.tim.time < s.pwr.entry + entrySpan then s.pwrStick 12 else s
        s.beginWake m)

/-- A port resumes its full width on the return to Run; links that went down retrain with their keys (R246). -/
def State.wakePort (s : State) (p : Nat) : State :=
  let v := s.fport p
  if v.st = .upSleep then
    s.movePort p { v with st := .up, width := widthOf v.lanes.toNat (s.fld (ra .fabPort p 0x040) 1 2) }
  else if v.st = .down ∧ s.portOn p then s.movePort p { v with st := .training, waited := 0 }
  else s

/-- Return from Deep Sleep: the sessions' peers have been silent meanwhile (R265, R351), TOUT has no edge behind it (R239). -/
def State.afterDeep (s : State) : State :=
  let gone := s.tim.time / msSpan - s.pwr.entry / msSpan
  let sess := s.fab.sessions.map fun (x : Session) => if x.st = .open_ then { x with silence := x.silence + gone } else x
  { s with fab := { s.fab with sessions := sess }, tim := { s.tim with toutFrom := s.tim.time } }

/-- WAKE_COMPLETE (R354, R355): the device reaches Run; from Deep Sleep the interrupt controller is restored (R343), and
reservations are asked for again (R246). -/
def execWakeComplete (s : State) : Out :=
  .next (if !s.pwr.waking ∨ !s.tim.locked then s
    else
      let old := s.pwr.st
      let s := { s with pwr := { s.pwr with st := .run, waking := false, woke := some (pwrCode old) } }
      let s := s.upTo 8 fun s p => s.wakePort p
      let s := s.reportHolders
      let s := if old = .deepSleep then (s.afterDeep).intRestore else s
      let s := s.each (s.fab.sessions.filter fun x => x.st = SessSt.open_) fun s (x : Session) =>
        if (s.tc2Streams x).isEmpty then s else s.askRsv x
      s.catchUpAll true)

/-- RETENTION_LOSS (R352): an AON brown-out in Deep Sleep. -/
def execRetentionLoss (s : State) : Out :=
  .next (if s.pwr.st = .deepSleep then
      let s := s.closeShorts
      { s with pwr := { s.pwr with recRet := true, recCause := max 7 s.pwr.recCause } }
    else s)

/-! ### Supplies (R356 to R359) -/

def execRailWarning (rail : Fin 5) (s : State) : Out :=
  .next (if s.pwr.st = .off then s else (s.orReg (ra .pwr 0 0x05C) (bitW rail.val)).pwrStick 9)

def execRailWithinWindow (rail : Fin 5) (s : State) : Out :=
  .next (if s.pwr.st = .off then s else s.clearReg (ra .pwr 0 0x05C) (bitW rail.val))

/-- POWER_FAIL (R357, R358): in any state except Off; it runs to Off. `returned` says that the supply was back before
its end. -/
def execPowerFail (returned : Bool) (s : State) : Out :=
  .next (if s.pwr.st = .off then s else s.powerOff 0 3 returned)

/-- OFF_EXIT (R358): 10 ms of good supply after a power failure. -/
def execOffExit (s : State) : Out :=
  .next (if s.pwr.st = .off ∧ s.pwr.offBy = 0 then s.coldReset 3 else s)

/-- WAKE_FROM_OFF (R359): after REQ = Off only WAKE leads out of Off; PWR_WAKE_SRC records it (R354). -/
def execWakeFromOff (s : State) : Out :=
  .next (if s.pwr.st = .off ∧ s.pwr.offBy = 1 then (s.wakeRecord 2).coldReset 6 else s)

/-- A block reset of the PWR page ends an Idle request and cancels an entry that has not reached its milestone; the AON
fields stay (R361, R423). -/
def State.pwrReset (s : State) : State := { s with pwr := { s.pwr with reqDue := 0, refuse := 0, temp := 0 } }

end Sys2Proof.Machine
end

