-- ==== Sys2Proof/Machine/Thermal.lean ====
section
/-! DEFINITION. The thermal unit (chapter 17): broken and excluded sensors, requests, shutdown and restart. -/

namespace Sys2Proof.Machine

open Sys2Proof

/-- THM BLK_STICKY. -/
def State.thmStick (s : State) (n : Nat) : State := s.stick .thm 0 n

/-- A broken sensor (R364). -/
def State.sensorBad (s : State) (k : Nat) : Bool := kget s.thm.brokenMs k 0 ≠ 0

/-- A sensor that THM_SEXCL excludes. -/
def State.sensorOut (s : State) (k : Nat) : Bool := s.flag (ra .thm 0 0x04C) k

/-- 200 °C in 0.125 °C: what a broken sensor reads. -/
def brokenReading : Int := 1600

/-- SENSOR_BROKEN (R364, R371). -/
def execSensorBroken (sensor : Fin 24) (s : State) : Out :=
  let k := sensor.val
  .next (if s.sensorBad k ∨ !s.pwr.clocked then s
    else
      let s := { s with thm := { s.thm with brokenMs := kset s.thm.brokenMs k (s.tim.msCount + 1) 0,
                                            brokenRow := kset s.thm.brokenRow k (s.tim.time % msSpan / 2 ^ 48) 0,
                                            sread := kset s.thm.sread k brokenReading 0 } }
      (s.thmStick 11).waymark 0x30 [4, k, brokenReading])

/-- THM_SEXCL (R365): refused whole when a newly excluded sensor leaves its region without an included sensor that is not
broken; the two sensors of a region are 2r and 2r + 1. -/
def State.actSexcl (s : State) (v : Word) : State :=
  let bad := (List.range 24).any fun k =>
    let other := if k % 2 = 0 then k + 1 else k - 1
    bit v k && !s.sensorOut k && (bit v other || s.sensorBad other)
  if bad then s.thmStick 12 else s.setFld (ra .thm 0 0x04C) 0 24 (bits v 0 24)

def execThmSexclWrite (a : Acc) (excl : BitVec 24) (s : State) : Out :=
  .next (s.guarded a (ra .thm 0 0x04C) (BitVec.ofNat 32 excl.toNat) fun s v => s.actSexcl v)

/-- THM_REQ.ENFORCE_NOW (R367). -/
def State.actThmReq (s : State) (v : Word) : State :=
  if bit v 2 then { s with thm := { s.thm with now := true } } else s

def execEnforceNow (a : Acc) (s : State) : Out :=
  .next (s.guarded a (ra .thm 0 0x048) 4 fun s v => s.actThmReq v)

/-- The region reading in 0.125 °C (R362, R363). -/
def State.regionNow (s : State) (r : Nat) : Int := kget s.thm.regions r 0

/-- The region with the highest reading, the lowest number on a tie. DEDUCED (log 52). -/
def State.hottest (s : State) : Nat :=
  (List.range 12).foldl (fun m r => if s.regionNow m < s.regionNow r then r else m) 0

/-- Waymark 0x30 (R371). DEDUCED (log 52). -/
def State.thmMark (s : State) (event region : Nat) : State := s.waymark 0x30 [event, region, s.regionNow region]

/-! ### Shutdown (R369, R370) -/

/-- The comparator can trip: its sensors run, or a power-fail sequence is running, which its step takes to Off at once (R369).
DEDUCED (log 50). -/
def State.mayTrip (s : State) : Bool := s.pwr.clocked || (s.pwr.st = .off && s.pwr.offBy ≠ 2)

/-- The shutdown record, then steps 1 to 5 of the power-fail sequence to Off, or on to the end of one that is running. -/
def State.shutdown (s : State) (cause sensor region : Nat) (temp : Int) : State :=
  let t := s.tim.stamp
  let w := cause + sensor * 4 + region * 128 + encInt 12 temp * 2048
  let s := s.setReg (ra .thm 0 0x054) (BitVec.ofNat 32 w)
  let s := s.setReg (ra .thm 0 0x058) (BitVec.ofNat 32 (stampFrac t))
  let s := s.setReg (ra .thm 0 0x05C) (BitVec.ofNat 32 (stampSec t))
  if s.pwr.st = .off then { s with pwr := { s.pwr with recCause := max 2 s.pwr.recCause } } else s.powerOff 2 2 false

/-- THERMAL_SHUTDOWN: an included sensor, or a model reading that SRC selects, at or above 160 °C.
DEDUCED (log 50). -/
def execThermalShutdown (sensor : Option (Fin 24)) (region : Fin 12) (temp : Int) (s : State) : Out :=
  let counts := match sensor with
    | some k => !s.sensorOut k.val
    | none => decide (s.fld (ra .thm 0 (0x080 + 4 * region.val)) 0 2 ≠ 0)
  let n := match sensor with
    | some k => k.val
    | none => 31
  let r := match sensor with
    | some k => k.val / 2
    | none => region.val
  .next (if s.mayTrip && counts && decide (1280 ≤ temp) then s.shutdown 1 n r temp else s)

/-- BROKEN_SENSOR_SHUTDOWN: broken for 1,024 milestones and still included. -/
def execBrokenSensorShutdown (sensor : Fin 24) (s : State) : Out :=
  let k := sensor.val
  .next (if s.mayTrip && s.sensorBad k && !s.sensorOut k &&
        decide (kget s.thm.brokenMs k 0 + 1024 ≤ s.tim.msCount + 1) then
      s.shutdown 2 k (k / 2) brokenReading
    else s)

/-- THERMAL_RESTART (R370): 1 s below 125 °C with good supplies. -/
def execThermalRestart (s : State) : Out :=
  .next (if s.pwr.st = .off ∧ s.pwr.offBy = 2 then s.coldReset 2 else s)

end Sys2Proof.Machine
end

