-- ==== Sys2Proof/Machine/Calib.lean ====
section
/-! DEFINITION. Trims and the mordant, self-calibration, the background estimators, the reference monitor and the drift
monitor (chapter 07, R150 to R171, R425). -/

namespace Sys2Proof.Machine

open Sys2Proof

/-! ### Exact quotients -/

/-- A quotient n / d with d > 0; a quotient by 0 has d = 0. -/
structure Quot_ where
  n : Int
  d : Nat
  deriving DecidableEq, Repr

def Quot_.add (x y : Quot_) : Quot_ := ⟨x.n * y.d + y.n * x.d, x.d * y.d⟩
def Quot_.neg (x : Quot_) : Quot_ := ⟨-x.n, x.d⟩
def Quot_.sub (x y : Quot_) : Quot_ := x.add y.neg
def Quot_.mul (x y : Quot_) : Quot_ := ⟨x.n * y.n, x.d * y.d⟩

/-- x / y for y ≠ 0. -/
def Quot_.div (x y : Quot_) : Quot_ := if y.n < 0 then ⟨-(x.n * y.d), x.d * y.n.natAbs⟩ else ⟨x.n * y.d, x.d * y.n.natAbs⟩

/-- x < y. -/
def Quot_.lt (x y : Quot_) : Bool := x.n * y.d < y.n * x.d

/-- |x| ≤ a / b. -/
def Quot_.within (x : Quot_) (a b : Nat) : Bool := x.n.natAbs * b ≤ a * x.d

/-- x > a / b. -/
def Quot_.above (x : Quot_) (a b : Nat) : Bool := (a * x.d : Int) < x.n * b

/-- The sum of a list. -/
def quotSum (l : List Quot_) : Quot_ := l.foldl Quot_.add ⟨0, 1⟩

/-- The signed register field of an estimate: rounding open, saturating. -/
def Quot_.field (x : Quot_) (width : Nat) : Int := satS width (if x.d = 0 then 0 else divOpen x.n x.d)

/-! ### Trims (R150 to R152) -/

/-- The kinds of trims. -/
inductive TrimK where
  | ofs | gain | dly
  deriving DecidableEq, Repr

/-- A trim's place in the trim word. -/
def TrimK.num : TrimK → Nat
  | .ofs => 0 | .gain => 1 | .dly => 2

/-- All kinds. -/
def TrimK.all : List TrimK := [.ofs, .gain, .dly]

def SliceCal.trim (c : SliceCal) : TrimK → Trim
  | .ofs => c.ofs | .gain => c.gain | .dly => c.dly

def SliceCal.setTrim (c : SliceCal) (k : TrimK) (t : Trim) : SliceCal :=
  match k with
  | .ofs => { c with ofs := t } | .gain => { c with gain := t } | .dly => { c with dly := t }

/-- Applies a function to the three trims of a slice. -/
def SliceCal.mapTrims (c : SliceCal) (f : TrimK → Trim → Trim) : SliceCal :=
  { c with ofs := f .ofs c.ofs, gain := f .gain c.gain, dly := f .dly c.dly }

def State.sliceCal (s : State) (b k : Nat) : SliceCal := kget s.cal.slices (b * 17 + k) {}

def State.setSliceCal (s : State) (b k : Nat) (c : SliceCal) : State :=
  { s with cal := { s.cal with slices := kset s.cal.slices (b * 17 + k) c {} } }

/-- Applies a function to every slice of a bank. -/
def State.mapSlices (s : State) (b : Nat) (f : Nat → SliceCal → SliceCal) : State :=
  s.upTo 17 fun s k => s.setSliceCal b k (f k (s.sliceCal b k))

/-- A trim stands at an end stop. -/
def Trim.atStop (t : Trim) : Bool := t.now ≤ -512 || 511 ≤ t.now

/-- The trim word in the layout of CAL_TRIM. -/
def SliceCal.word (c : SliceCal) : Word :=
  BitVec.ofNat 32 (encInt 10 c.ofs.now + encInt 10 c.gain.now * 2 ^ 10 + encInt 10 c.dly.now * 2 ^ 20)

/-- The region temperature of a bank in 0.125 °C (R362). -/
def State.bankTemp (s : State) (b : Nat) : Int := s.regionNow (b / 6)

/-- The temperature term F of R162, in taps. -/
def State.tempTerm (s : State) (b k : Nat) (t : TrimK) (tref : Int) : Int :=
  if s.flag (ra .cal7 7 0x048) 4 then divNearestAway (s.factoryTc b k t.num * (s.bankTemp b - tref)) 512 else 0

/-- A jump of a trim (R151): base and reference temperature follow. -/
def Trim.jump (t : Trim) (v temp : Int) : Trim := { t with now := satS 10 v, base := satS 10 v, tref := temp }

/-- Banks whose epochs move together with a bank's: both of a pair (R152). -/
def State.pairOf (s : State) (b : Nat) : List Nat :=
  if (s.bank b).role ≠ 0 then [b, if b % 2 = 0 then b + 1 else b - 1] else [b]

/-- The calibration epoch increments, once at a milestone (R152). -/
def State.bumpEpoch (s : State) (b : Nat) : State :=
  s.each (s.pairOf b) fun s b =>
    let x := s.bank b
    if x.epochMs = s.tim.msCount then s
    else s.setBank b { x with epoch := (x.epoch + 1) % 256, epochMs := s.tim.msCount }

/-- A jump to the factory trims plus the temperature term from 25 °C (R154, R165). DEDUCED (log 61). -/
def State.factoryJump (s : State) (b : Nat) : State :=
  let s0 := s
  (s.mapSlices b fun k c => c.mapTrims fun t x =>
    x.jump (s0.factoryTrim b k t.num + s0.tempTerm b k t 200) (s0.bankTemp b)).bumpEpoch b

/-! ### Shadow ends (R125) and self-calibration (R155 to R157) -/

/-- Shadowing ends without substitution. -/
def State.endShadow (s : State) (b : Nat) : State :=
  let x := s.bank b
  if x.spare = .shadowing then
    s.setBank b { x with spare := .free, target := 0, shadowMs := 0, shadowOk := 0, converged := false, swapDue := false
                         swapMs := 0 }
  else s

/-- The trim page that serves a bank, and the bank's place on it. -/
def trimPage (b : Nat) : Nat := 1 + b / 4

/-- Self-calibration of a bank starts at this milestone S. DEDUCED (log 61). -/
def State.startSelfCal (s : State) (b : Nat) : State :=
  let s := s.endShadow b
  s.setBank b { s.bank b with sc := 2, scMs := 0, scPhase := 0 }

/-- The phase of the table of R156 after so many milestones. -/
def scPhaseOf (ms : Nat) : Nat :=
  if ms < 16 then 0 else if ms < 272 then 1 else if ms < 528 then 2 else if ms < 912 then 3 else 4

/-- SELF_CALIBRATION_PHASE (R156): inputs, offset, gain, skew, verification. -/
def execSelfCalibrationPhase (b : Fin 24) (s : State) : Out :=
  let x := s.bank b.val
  .next (if x.sc = 2 then s.setBank b.val { x with scPhase := scPhaseOf x.scMs } else s)

/-- A slice passes verification (R157): its residual offset is within ±0.5 LSB, its gain within ±0.05 %, its skew within
±0.3 ps, and no solved trim is at an end stop. -/
def verified (r : Solved) : Bool :=
  decide (r.rOfs.natAbs ≤ 512) && decide (r.rGain.natAbs ≤ 500) && decide (r.rSkew.natAbs ≤ 300) &&
    [r.ofs, r.gain, r.dly].all fun v => -512 < v && v < 511

/-- A slice's results: they are applied where it passes verification. -/
def SliceCal.solve (c : SliceCal) (r : Option Solved) (temp : Int) : SliceCal :=
  match r with
  | some r =>
    if verified r then
      { c with ofs := c.ofs.jump r.ofs temp, gain := c.gain.jump r.gain temp, dly := c.dly.jump r.dly temp, scFail := false }
    else { c with scFail := true }
  | none => { c with scFail := true }

/-- The self-calibration of a bank is over: its milestone S + 1,024 has come, step 2 of which has returned the bank to service
(R156, `State.selfCalStep`), and its results are still to be applied. -/
def State.selfCalOver (s : State) (b : Nat) : Bool := (s.bank b).sc = 3

/-- SELF_CALIBRATION_END (R157): at milestone S + 1,024 the results are applied, before a sample or a command meets the state that
step 2 has left. DEDUCED (log 61). -/
def execSelfCalibrationEnd (b : Fin 24) (solved : List Solved) (s : State) : Out :=
  let i := b.val
  let x := s.bank i
  .next (if s.selfCalOver i && s.atMilestone then
      let used := (List.range 17).filter fun k => x.retired ≠ some k
      let s := s.each used fun s k => s.setSliceCal i k ((s.sliceCal i k).solve solved[k]? (s.bankTemp i))
      let s := s.mapSlices i fun _ c => c.mapTrims fun _ t =>
        { t with est := .tracking, idle := false, good := 0, bad := 0 }
      let failed := used.any fun k => (s.sliceCal i k).scFail
      let jumped := used.any fun k => !(s.sliceCal i k).scFail
      let s := s.setBank i { s.bank i with sc := 0 }
      let s := if failed then s.stick .calTrim (trimPage i) (12 + i % 4) else s
      let s := if jumped then s.bumpEpoch i else s
      (s.stick .cal7 7 9).noteEpoch
    else s)

/-! ### CAL_CMD (R155, R165) -/

/-- The banks that a mask names. -/
def maskBanks (v : Nat) : List Nat := rangeFilter 24 fun b => v / 2 ^ b % 2 = 1

/-- The packed minimums still pack without these banks and without those whose self-calibration is pending.
DEDUCED (log 59). -/
def State.packsWithout (s : State) (bs : List Nat) : Bool :=
  s.leastPack (s.capBanks.filter fun b => !bs.contains b && (s.bank b).sc ≠ 1)

/-- A write of CAL_CMD. -/
def State.actCal (s : State) (v : Word) : State :=
  let op := bits v 24 4
  let bs := maskBanks (bits v 0 24)
  let due := s.tim.due
  let busy := bs.any fun b => (s.bank b).sc ≠ 0
  if 6 ≤ op then s.stick .cal7 7 3
  else if op = 0 || bs.isEmpty then s
  else if op = 1 then
    (if busy || (bs.any fun b => (s.bank b).parkedTherm) || ((bs.any fun b => s.pool b = 1) && !s.packsWithout bs) then
      (s.stick .cal7 7 8).stick .cal7 7 10
    else s.each bs fun s b => s.setBank b { s.bank b with sc := 1, scDue := due })
  else if busy || (op = 3 && bs.any fun b => !(s.bank b).saved) then s.stick .cal7 7 10
  else { s with cal := { s.cal with ops := s.cal.ops ++ [⟨op, BitVec.ofNat 24 (bits v 0 24), due⟩] } }

/-- The word that asks for an operation. -/
def calWord (banks : BitVec 24) (op : Nat) : Word := BitVec.ofNat 32 (banks.toNat + op * 2 ^ 24)

def execSelfCalibrate (a : Acc) (banks : BitVec 24) (s : State) : Out :=
  .next (s.guarded a (ra .cal7 7 0x040) (calWord banks 1) fun s v => s.actCal v)

def execCalSave (a : Acc) (banks : BitVec 24) (s : State) : Out :=
  .next (s.guarded a (ra .cal7 7 0x040) (calWord banks 2) fun s v => s.actCal v)

def execCalRestore (a : Acc) (banks : BitVec 24) (s : State) : Out :=
  .next (s.guarded a (ra .cal7 7 0x040) (calWord banks 3) fun s v => s.actCal v)

def execFactoryReload (a : Acc) (banks : BitVec 24) (s : State) : Out :=
  .next (s.guarded a (ra .cal7 7 0x040) (calWord banks 4) fun s v => s.actCal v)

def execResetEstimators (a : Acc) (banks : BitVec 24) (s : State) : Out :=
  .next (s.guarded a (ra .cal7 7 0x040) (calWord banks 5) fun s v => s.actCal v)

/-- The address of a save-area word (R165). -/
def saveAddr (b k : Nat) : Nat := ra .calTrim (trimPage b) (0x500 + 0x100 * (b % 4) + 4 * k)

/-- A jump to the save area. -/
def State.restoreJump (s : State) (b : Nat) : State :=
  let s0 := s
  (s.mapSlices b fun k c => (c.mapTrims fun t x =>
    x.jump (sext 10 (bits (s0.reg (saveAddr b k)) (10 * t.num) 10)) (s0.bankTemp b)).restart).bumpEpoch b

/-- Every estimator returns to tracking, and the failed state ends. DEDUCED (log 62). -/
def State.resetEsts (s : State) (b : Nat) : State :=
  s.mapSlices b fun _ c => c.mapTrims fun _ t => { t with est := .tracking, idle := false, good := 0, bad := 0 }

/-- One operation on a bank at its milestone; a save comes after step 2. -/
def State.calOp (s : State) (op b : Nat) : State :=
  match op with
  | 3 => s.restoreJump b
  | 4 => (s.factoryJump b).resetEsts b
  | 5 => s.resetEsts b
  | _ => s

/-- The save of a bank's trims. -/
def State.saveTrims (s : State) (b : Nat) : State :=
  let s := s.upTo 17 fun s k => s.setReg (saveAddr b k) (s.sliceCal b k).word
  s.setBank b { s.bank b with saved := true }

/-- A bank has an operation of CAL_CMD that waits for its milestone (CAL_BSTAT.OP_PENDING). -/
def State.opPending (s : State) (b : Nat) : Bool := s.cal.ops.any fun o => (maskBanks o.banks.toNat).contains b

/-! ### Gap visits (R159) -/

/-- The position of a physical slice. -/
def State.positionOf (s : State) (b k : Nat) : Nat := if k = 16 then (s.bank b).target else k

/-- A slice converts samples: not retired, and SX only in use. -/
def State.sliceUsed (s : State) (b k : Nat) : Bool :=
  if k = 16 then (s.bank b).spare = .inUse else (s.bank b).retired ≠ some k

/-- A gap visit that is over joins the sums of its slice. -/
def GapSums.take (g : GapSums) (v : GapVisit) : GapSums :=
  if !v.ok then { g with bad := g.bad + 1 }
  else if v.full then { g with full := g.full + 1, fullSum := g.fullSum + v.sum }
  else { g with short := g.short + 1, shortSum := g.shortSum + v.sum }

/-- The gap visit of a slice, by bank × 17 + slice, joins its sums where it is over. -/
def State.endGap (s : State) (key : Nat) : State :=
  match kget s.cal.gapOn key none with
  | some v =>
    if v.stop ≤ s.tim.time then
      { s with cal := { s.cal with gapOn := kset s.cal.gapOn key none none
                                   gaps := kset s.cal.gaps key ((kget s.cal.gaps key {}).take v) {} } }
    else s
  | none => s

/-- A slice makes gap visits: one that converts, and SX for a hard-faulted slice that it shadows (R159, R164). -/
def State.gapSlice (s : State) (b k : Nat) : Bool :=
  let x := s.bank b
  s.sliceUsed b k || (k = 16 && x.spare = .shadowing && x.hard.contains x.target)

/-- A gap visit may start on a slice now (R159): a gap that holds the whole visit, and no ordinary spot waits. -/
def State.gapMayStart (s : State) (b k : Nat) : Bool :=
  let q := (s.bank b).spot
  let pos := s.positionOf b k
  s.modeNow b = 0 && s.converts b && s.gapSlice b k && s.sliceIdle b pos && !(q.pending && !q.started) &&
    !(q.pending && q.started && q.slice = pos) && (kget s.cal.gapOn (b * 17 + k) none).isNone

/-- GAP_VISIT (R159): a gap visit starts, with the codes that it converts. A hard-faulted slice's codes are FAULT (R120), and so
are those of an internal channel whose page is out of service (R26). -/
def execGapVisit (b : Fin 24) (slice : Fin 17) (full : Bool) (codes : List (BitVec 14)) (s : State) : Out :=
  let i := b.val
  let key := i * 17 + slice.val
  let s := s.endGap key
  .next (if s.gapMayStart i slice.val then
      let v : GapVisit := { stop := s.tim.time + s.visitLen i * cks, full := full, sum := (visitCodes codes).sum
                            ok := !(s.bank i).hard.contains slice.val && s.chanOn (if full then 498 else 497) }
      { s with cal := { s.cal with gapOn := kset s.cal.gapOn key (some v) none } }
    else s)

/-! ### Estimates (R158, R164), in taps -/

/-- The VALID codes of a slice's period. -/
def statValid (x : SliceStat) : Nat := x.n - x.invalid

/-- At least 15/16 of the codes are VALID. -/
def statUsable (x : SliceStat) : Bool := 0 < x.n && 15 * x.n ≤ 16 * statValid x

def statMean (x : SliceStat) : Quot_ := ⟨x.s1, statValid x⟩

/-- The variance of a slice's codes. -/
def statVar (x : SliceStat) : Quot_ := ⟨statValid x * (x.s2 : Int) - x.s1 * x.s1, statValid x * statValid x⟩

/-- The slices (bank, position) of an interleaved placement. -/
def Spot4.members (x : Spot4) : List (Nat × Nat) :=
  if x.size = 6 then ((List.range 16).map fun k => (x.bank, k)) ++ (List.range 16).map fun k => (x.bank + 1, k)
  else (List.range (slicesOf x.size)).map fun i => (x.bank, x.first + i)

/-- The interleaved group of a position on a bank of the fast pool. -/
def State.groupOf (s : State) (b k : Nat) : Option Spot4 :=
  (s.layout b).find? fun x => x.members.contains (b, k)

/-- The physical slice that stands for a position in the statistics: a shadowing SX stands for a hard-faulted target
(R164). -/
def State.statSlice (s : State) (b k : Nat) : Nat :=
  let x := s.bank b
  if x.spare = .shadowing && x.target = k && x.hard.contains k then 16 else s.physical b k

/-- A slice's statistics of the period. -/
def statOf (m : MsIn) (b k : Nat) : Option SliceStat := m.slices.find? fun x => x.bank.val = b && x.slice.val = k

/-- The statistics of a group's members. -/
def State.groupStats (s : State) (m : MsIn) (g : Spot4) : List SliceStat :=
  (g.members.filterMap fun p => statOf m p.1 (s.statSlice p.1 p.2)).filter fun x => 0 < statValid x

/-- What the estimators of one slice find: an estimate in taps where the period is usable. -/
structure Ests where
  ofs : Option Quot_ := none
  gain : Option Quot_ := none
  dly : Option Quot_ := none
  deriving DecidableEq, Repr

/-- One of the estimates (R158). DESIGN CHOICE (log 18). -/
def Ests.of (e : Ests) : TrimK → Option Quot_
  | .ofs => e.ofs | .gain => e.gain | .dly => e.dly

/-- Group estimators of a slice (R158). -/
def State.groupEsts (s : State) (m : MsIn) (g : Spot4) (x : SliceStat) : Ests :=
  let all := s.groupStats m g
  if !statUsable x || g.size < 2 then {}
  else
    let n := (all.map statValid).sum
    let meanG : Quot_ := ⟨(all.map fun (y : SliceStat) => y.s1).sum, n⟩
    let vBar := (quotSum (all.map statVar)).mul ⟨1, all.length⟩
    let d1 : Quot_ := ⟨((all.map fun (y : SliceStat) => y.sDiff).sum : Nat), n⟩
    let ofs := ((statMean x).sub meanG).mul ⟨32, 1⟩
    let gain := if vBar.lt ⟨64, 1⟩ then none else some ((((statVar x).sub vBar).div (vBar.mul ⟨2, 1⟩)).mul ⟨16384, 1⟩)
    let act := s.fld (ra .cal7 7 0x048) 8 8
    let skewMin := s.fld (ra .cal7 7 0x048) 0 4
    let d := ((⟨x.sNext - x.sPrev, statValid x⟩ : Quot_)).sub (meanG.mul ⟨x.xNext - x.xPrev, statValid x⟩)
    let dly :=
      if d1.lt ⟨act, 1⟩ || d1.lt (vBar.mul ⟨1, 2 ^ skewMin⟩) then none
      else if d1.n = 0 then some (⟨Config.estOpen (x.bank.val * 17 + x.slice.val), 1000000⟩ : Quot_)
      else some ((d.div (d1.mul ⟨2, 1⟩)).mul ⟨8 * 10 ^ 12, 2 ^ sizeRate g.size⟩)
    { ofs := some ofs, gain := gain, dly := dly }

/-- At least 15/16 of the codes of a slice's gap visits are VALID. -/
def GapSums.usable (g : GapSums) : Bool := decide (15 * (g.short + g.full + g.bad) ≤ 16 * (g.short + g.full))

/-- Gap-visit estimators of a slice of a SCAN bank (R158). -/
def State.scanEsts (s : State) (b k : Nat) : Ests :=
  let g := kget s.cal.gaps (b * 17 + k) {}
  if g.short < 4 || !g.usable then {}
  else
    let m17 : Quot_ := ⟨g.shortSum, 32 * g.short⟩
    let m18 : Quot_ := ⟨g.fullSum, 32 * g.full⟩
    { ofs := some ((m17.add ⟨1, 2⟩).mul ⟨32, 1⟩)
      gain := if g.full < 4 then none
        else some ((((m18.sub m17).mul ⟨100, 786432⟩).sub ⟨1, 1⟩).mul ⟨16384, 1⟩) }

/-- The group of the slice that SX shadows, in a fast mode. -/
def State.shadowGroup (s : State) (b : Nat) : Option Spot4 :=
  if s.modeNow b = 0 then none else s.groupOf b (s.bank b).target

/-- Estimators of a shadowing SX against its slice (R164): offset and gain sample by sample, skew with the neighbours of the
slice in its group. In a SCAN bank, which has no group, the gain is taken about the slice's mean; the gain asks for a mean
square of the slice's codes of at least 64 LSB² and for no count of gap visits. DESIGN CHOICE (log 18). -/
def State.shadowEsts (s : State) (m : MsIn) (b : Nat) (y : ShadowStat) : Ests :=
  let n := y.n - y.invalid
  if n = 0 || decide (16 * n < 15 * y.n) then {}
  else
    let grp := s.shadowGroup b
    let g : Quot_ := match grp with
      | some g =>
        let all := s.groupStats m g
        ⟨(all.map fun (z : SliceStat) => z.s1).sum, (all.map statValid).sum⟩
      | none => ⟨y.sK, n⟩
    let gg := (g.mul g).mul ⟨n, 1⟩
    let num := ((⟨y.sXK, 1⟩ : Quot_).sub (g.mul ⟨y.sX + y.sK, 1⟩)).add gg
    let den := ((⟨(y.sKK : Int), 1⟩ : Quot_).sub (g.mul ⟨2 * y.sK, 1⟩)).add gg
    { ofs := some ⟨(y.sX - y.sK) * 32, n⟩
      gain := if den.lt ⟨64 * n, 1⟩ then none else some (((num.div den).sub ⟨1, 1⟩).mul ⟨16384, 1⟩)
      dly := match grp, statOf m b 16 with
        | some g, some x => (s.groupEsts m g x).dly
        | _, _ => none }

/-- What the estimators of a physical slice find at this milestone. -/
def State.estsOf (s : State) (m : MsIn) (b k : Nat) : Ests :=
  let x := s.bank b
  let scan := s.modeNow b = 0
  let shadow := k = 16 && x.spare = .shadowing
  if shadow && !x.hard.contains x.target then
    match m.shadows.find? fun y => y.bank.val = b with
    | some y => s.shadowEsts m b y
    | none => {}
  else if !shadow && !s.sliceUsed b k then {}
  else if scan then s.scanEsts b (if shadow then 16 else k)
  else match s.groupOf b (s.positionOf b k), statOf m b k with
    | some g, some y => s.groupEsts m g y
    | _, _ => {}

/-- The kinds of estimators applicable to a slice in its bank's mode. -/
def State.applicable (s : State) (b k : Nat) : List TrimK :=
  let shadow := k = 16 && (s.bank b).spare = .shadowing
  if !shadow && !s.sliceUsed b k then []
  else if s.modeNow b = 0 then [.ofs, .gain]
  else if shadow then (if (s.shadowGroup b).any fun g => 2 ≤ g.size then TrimK.all else [.ofs, .gain])
  else match s.groupOf b (s.positionOf b k) with
    | some g => if 2 ≤ g.size then TrimK.all else []
    | none => []

/-- CAL_EST.CONV (R161): every applicable estimator is converged. DEDUCED (log 62). -/
def State.sliceConv (s : State) (b k : Nat) : Bool :=
  let a := s.applicable b k
  !a.isEmpty && a.all fun t => ((s.sliceCal b k).trim t).est = .converged && !((s.sliceCal b k).trim t).idle

/-! ### Tracking (R160 to R163) -/

/-- The plausibility limit of an estimate: 8 LSB, 1.0 %, 20 ps, in taps. -/
def limitOf : TrimK → Nat × Nat
  | .ofs => (256, 1) | .gain => (16384, 100) | .dly => (160, 1)

/-- The last estimate that CAL_EST reports. DEDUCED (log 62). -/
def Trim.note (t : Trim) (e : Quot_) : Trim := { t with last := e.field 8 }

/-- An estimator takes its period; the base moves one tap on a plausible estimate beyond 0.75 tap (R160). It is not held to the
range of the trim in force. DESIGN CHOICE (log 128). -/
def Trim.estimate (t : Trim) (k : TrimK) (e : Option Quot_) : Trim :=
  match e with
  | none => { t with idle := true }
  | some e =>
    let t := { t.note e with idle := false }
    let lim := limitOf k
    if t.est = .failed then t
    else if !e.within lim.1 lim.2 then { t with est := .tracking, good := 0, bad := t.bad + 1 }
    else
      let up := e.above 3 4
      let dn := e.neg.above 3 4
      let step : Int := if up then 1 else if dn then -1 else 0
      let t := { t with bad := 0, base := t.base + (if k = TrimK.dly then -step else step) }
      if e.within 3 2 then { t with good := t.good + 1 } else { t with est := .tracking, good := 0 }

/-- The trim in force moves one tap towards base + F, never further into an end stop. -/
def Trim.move (t : Trim) (f : Int) : Trim :=
  let aim := t.base + f
  if t.est = .failed then t
  else if t.now < aim ∧ t.now < 511 then { t with now := t.now + 1 }
  else if aim < t.now ∧ -512 < t.now then { t with now := t.now - 1 }
  else t

/-- Tracking is on for a bank and the supervisor runs (R21, R162); in Sleep the watch bank alone goes on (R166, R350). -/
def State.tracks (s : State) (b : Nat) : Bool :=
  s.sup.running && (s.pwr.st ≠ .sleep || b = s.wbank) && s.flag (ra .cal7 7 0x044) b && (s.bank b).sc ≠ 2

/-- Tracking of one bank at step 2. -/
def State.trackBank (s : State) (m : MsIn) (b : Nat) : State :=
  if !s.tracks b then s
  else
    let s0 := s
    let inService := s.converts b
    s.mapSlices b fun k c =>
      let e := s0.estsOf m b k
      c.mapTrims fun t x =>
        let x := if inService && (s0.applicable b k).contains t then x.estimate t (e.of t) else x
        x.move (s0.tempTerm b k t x.tref)

def execEstimatorConverged (b : Fin 24) (slice : Fin 17) (s : State) : Out :=
  let c := s.sliceCal b.val slice.val
  .next (s.setSliceCal b.val slice.val (c.mapTrims fun _ t =>
    if t.est = .tracking ∧ 16 ≤ t.good then { t with est := .converged } else t))

/-- ESTIMATOR_FAIL (R163): 16 consecutive implausible periods. -/
def execEstimatorFail (b : Fin 24) (slice : Fin 17) (s : State) : Out :=
  let c := s.sliceCal b.val slice.val
  let fails := fun (t : Trim) => t.est ≠ .failed && decide (16 ≤ t.bad)
  .next (if fails c.ofs || fails c.gain || fails c.dly then
      let s := s.setSliceCal b.val slice.val (c.mapTrims fun _ t => if fails t then { t with est := .failed } else t)
      (s.stick .calTrim (trimPage b.val) (8 + b.val % 4)).stick .cal7 7 11
    else s)

/-! ### Step 2 of a milestone -/

/-- Self-calibrations that end by a block reset, end, start or count at this milestone (R156, R157): a bank whose 1,024 milestones
are over is back in service, before step 4 configures it and step 6 packs it. -/
def State.selfCalStep (s : State) : State :=
  s.upTo 24 fun s b =>
    let x := s.bank b
    if x.sc = 2 then
      (if x.scStop then s.setBank b { x with sc := 0, scStop := false, scMs := 0, scPhase := 0 }
       else if 1024 ≤ x.scMs + 1 then s.setBank b { x with sc := 3, scMs := 0, scPhase := 0 }
       else s.setBank b { x with scMs := x.scMs + 1 })
    else if x.sc = 3 then s.setBank b { x with sc := 0 }
    else if x.sc = 1 ∧ x.scDue ≤ s.tim.msCount then s.startSelfCal b
    else s

/-- The mordant (R151): tracking moves, or the jumps due. Substitutions have come before. -/
def State.mordant (s : State) (m : MsIn) (first : Bool) : State :=
  let s := s.each (s.cal.gapOn.map (·.1)) fun s k => s.endGap k
  let due := s.cal.ops.filter fun o => o.due ≤ s.tim.msCount
  let s := { s with cal := { s.cal with ops := s.cal.ops.filter fun o => !(o.due ≤ s.tim.msCount) } }
  let jumps := fun (b : Nat) => first || due.any fun o =>
    (o.op = 3 || o.op = 4) && (maskBanks o.banks.toNat).contains b
  let s := s.upTo 24 fun s b => if jumps b then s else s.trackBank m b
  let s := if first then s.upTo 24 fun s b => s.factoryJump b else s
  let s := s.each due fun s o => s.each (maskBanks o.banks.toNat) fun s b => s.calOp o.op b
  let s := s.each (due.filter fun o => o.op = 2) fun s o => s.each (maskBanks o.banks.toNat) fun s b => s.saveTrims b
  let s := if first then s.upTo 24 fun s b => s.startSelfCal b else s.selfCalStep
  { s with cal := { s.cal with gaps := [] } }

/-! ### The reference monitor (R167 to R169) -/

/-- A binary32 value of the factory record as a quotient. -/
def f32Quot (w : Nat) : Quot_ :=
  let x := f32 w
  if 0 ≤ x.e then ⟨x.m * 2 ^ x.e.toNat, 1⟩ else ⟨x.m, 2 ^ (-x.e).toNat⟩

/-- V_F(X): the factory voltage of a reference at the monitor bank's region temperature. -/
def State.refAt (s : State) (b x : Nat) : Quot_ :=
  if s.nominal then ⟨6, 5⟩
  else (f32Quot (s.factory (0x40C + 4 * x) 4)).mul
    ((⟨1, 1⟩ : Quot_).add ((f32Quot (s.factory (0x418 + 4 * x) 4)).mul ⟨s.bankTemp b - 200, 8000000⟩))

/-- The middle of three. DESIGN CHOICE (log 18). -/
def median3 (a b c : Quot_) : Quot_ :=
  if a.lt b then (if b.lt c then b else if a.lt c then c else a)
  else (if a.lt c then a else if b.lt c then c else b)

/-- δ of the three references. DESIGN CHOICE (log 18). -/
def State.deviations (s : State) (b : Nat) (r : RefStat) : List Quot_ :=
  let q := fun (x : Nat) (v : Int) =>
    (((⟨v - r.short, 512⟩ : Quot_).mul (s.refAt b s.refSel)).div ((s.refAt b x).mul ⟨786432, 100⟩))
  let qs := [q 0 r.a, q 1 r.b, q 2 r.c]
  let med := median3 (q 0 r.a) (q 1 r.b) (q 2 r.c)
  if med.n = 0 then (List.range 3).map fun x => ⟨Config.estOpen (408 + x), 1000000⟩
  else qs.map fun x => (x.div med).sub ⟨1, 1⟩

/-- The reference of smallest |δ|, the earlier letter on a tie. -/
def bestRef (ds : List Quot_) : Nat :=
  let abs_ := fun (i : Nat) => let x : Quot_ := ds.getD i ⟨0, 1⟩; (⟨(x.n.natAbs : Int), x.d⟩ : Quot_)
  [1, 2].foldl (fun m i => if (abs_ i).lt (abs_ m) then i else m) 0

/-- Some two references agree within 0.25 %. -/
def someAgree (ds : List Quot_) : Bool :=
  [(0, 1), (0, 2), (1, 2)].any fun p => ((ds.getD p.1 ⟨0, 1⟩).sub (ds.getD p.2 ⟨0, 1⟩)).within 25 10000

/-- Sweeps of the period that ends now which do not run: those gated away (R135), and in Sleep those whose index is no multiple of
256 (R349). -/
def State.sweepsSkipped (s : State) (b : Nat) : Nat :=
  let all := 2 ^ (s.scanP b - 10)
  let runs :=
    if s.pwr.st ≠ .sleep then all
    else if 256 ≤ all then all / 256
    else if (s.tim.msNum - 1) * all % 256 = 0 then 1 else 0
  min all (all - runs + (s.scan b).skips)

/-- Whole visits that the gaps of a slice held in the milestone period that ends now (R167): by sweeps of 2^-P s where the
period divides a milestone, of which those that do not run leave the slice idle, else by what the sweep that ran last left
free; all of it while the scan page is out of service (R26). -/
def State.gapVisits (s : State) (b k : Nat) : Nat :=
  let v := s.visitLen b * cks
  let busy := visitsOf (s.maskOf b).length k * v
  let skips := s.sweepsSkipped b
  if busy = 0 || !s.inService (0x059 + b) then msSpan / v
  else if 10 ≤ s.scanP b then
    (s.sweepPeriod b - busy) / v * (2 ^ (s.scanP b - 10) - skips) + s.sweepPeriod b / v * skips
  else
    let a := s.tim.time - msSpan
    let x := s.scan b
    let lo := max a (min s.tim.time x.sweepStart)
    let hi := max lo (min s.tim.time (s.gapStart b k))
    (lo - a) / v + (s.tim.time - hi) / v

/-- The slice that makes the visits of the reference monitor: the lowest-numbered whose gaps hold all 64 (R167). -/
def State.monitorSlice (s : State) (b : Nat) : Option Nat := (List.range 16).find? fun k => decide (64 ≤ s.gapVisits b k)

/-- The comparison at a milestone. DEDUCED (log 90). -/
def State.refMonitor (s : State) (m : MsIn) : State :=
  let b := s.fld (ra .cal0 0 0x044) 0 5
  match m.refs with
  | none => s.stick .cal0 0 11
  | some r =>
    if (s.bank b).sc = 2 || s.pool b ≠ 0 || !s.converts b || (s.monitorSlice b).isNone then s.stick .cal0 0 11
    else
      let ds := s.deviations b r
      let s := s.upTo 3 fun s x =>
        let v := ((ds.getD x ⟨0, 1⟩).mul ⟨1000000, 1⟩).field 16
        s.setReg (ra .cal0 0 (0x048 + 4 * x)) (BitVec.ofNat 32 (encInt 16 v + 0x10000))
      let beyond := ds.any fun x => !x.within 1 1000
      let s := if beyond then s.stick .cal0 0 8 else s
      if !someAgree ds then (s.setFld (ra .cal0 0 0x040) 16 2 2).stick .cal0 0 10
      else
        let s := s.setFld (ra .cal0 0 0x040) 16 2 (if beyond then 1 else 0)
        if (ds.getD s.refSel ⟨0, 1⟩).within 25 10000 then s
        else { s with cal := { s.cal with replace := some (bestRef ds) } }

/-- Step 1 of a milestone: a replacement of the selected reference (R168). -/
def State.refReplace (s : State) : State :=
  match s.cal.replace with
  | none => s
  | some x =>
    let s := { s with cal := { s.cal with replace := none } }
    let s := s.setFld (ra .cal0 0 0x040) 0 2 x
    (s.countWrap (ra .cal0 0 0x040) 8 8 1).stick .cal0 0 9

/-! ### The drift monitor (R170) -/

/-- The least-squares slope of 16 comparisons 4,096 s apart, in ppm per 1,000 h. -/
def slopeOf (ys : List Int) : Int :=
  let sxy := ((List.range 16).map fun (i : Nat) => (2 * (i : Int) - 15) * ys.getD i 0).sum
  divOpen (sxy * 3600000) (680 * 4096)

/-- SLOPE_COMPARISON: `ppm` is the selected reference against the drift monitor. -/
def execSlopeComparison (ppm : Int) (s : State) : Out :=
  .next (if s.cal.slopeMs + 2 ^ 22 ≤ s.tim.msCount then
      let ys := (s.cal.slopes ++ [ppm])
      let ys := ys.drop (ys.length - 16)
      let s := { s with cal := { s.cal with slopes := ys, slopeMs := s.tim.msCount } }
      if ys.length < 16 then s
      else
        let v := slopeOf ys
        let f : Nat := if v.natAbs < 32768 then encInt 16 v else (Config.slopeField v).toNat
        let s := s.setReg (ra .cal0 0 0x054) (BitVec.ofNat 32 (f + 0x10000))
        if 500 ≤ (sext 16 f).natAbs then s.stick .cal0 0 14 else s
    else s)

/-! ### Block resets of calibration pages (R157, R166, R425) -/

/-- A block reset of trim page `q`: save areas emptied, estimators back in tracking, running self-calibrations end (R157); one
that is pending still starts. DESIGN CHOICE (log 127). -/
def State.trimPageReset (s : State) (q : Nat) : State :=
  s.each ((List.range 4).map fun i => 4 * (q - 1) + i) fun s b =>
    let s := s.upTo 17 fun s k => s.setReg (saveAddr b k) 0
    let s := s.mapSlices b fun _ c => c.restart
    let x := s.bank b
    s.setBank b { x with saved := false, scStop := x.scStop || x.sc = 2 }

/-- A block reset of CAL7: operations not yet in effect are cancelled; its fields return at the next milestone. -/
def State.cal7Reset (s : State) : State := { s with cal := { s.cal with ops := [], resetDue := true } }

end Sys2Proof.Machine
end

