-- ==== Sys2Proof/Machine/Banks.lean ====
section
/-! DEFINITION. Slice faults, spares and substitution, and the check of paired banks (chapter 05, R110, R111, R120 to
R126). -/

namespace Sys2Proof.Machine

open Sys2Proof

/-! ### Slice faults (R120, R126) -/

/-- A field of CNV_BCFG. -/
def State.bcfg (s : State) (b lsb width : Nat) : Nat := s.fld (ra .bank b 0x040) lsb width

/-- The bank is degraded where its slices leave it so (R126). -/
def State.noteDegraded (s : State) (b : Nat) : State :=
  let x := s.bank b
  if !x.degraded && ((x.retired.isSome && !x.hard.isEmpty) || (x.spare = SpareSt.inUse && x.hard.contains 16)) then
    (s.setBank b { x with degraded := true }).stick .bank b 16
  else s

/-- A fault sets its bits (R120). -/
def State.sliceFault (s : State) (b k n : Nat) : State :=
  (s.orReg (ra .bank b (0x080 + 4 * k)) (bitW n)).stick .bank b 8

/-- A start of shadowing is asked for at a milestone (R121). DEDUCED (log 64). -/
def State.askShadow (s : State) (b k due : Nat) : State :=
  let x := s.bank b
  s.setBank b { x with shadowReqs := x.shadowReqs ++ [(k, due)] }

/-- A fault of a slice asks for shadowing where AUTOSPARE is set (R121). DEDUCED (log 63). -/
def State.autoSpare (s : State) (b k due : Nat) : State :=
  if k < 16 && s.bcfg b 2 1 = 1 then s.askShadow b k due else s

/-- A hard fault of a slice (R120, R124, R126): SX fails while it is not in use; hard-faulted in use it degrades the bank and
CNV_BSTAT.SPARE goes on reading in use. DESIGN CHOICE (log 124). -/
def State.hardFault (s : State) (b k n due : Nat) : State :=
  let s := s.sliceFault b k n
  let x := s.bank b
  if k = 16 ∧ x.spare ≠ .inUse then
    let s := s.endShadow b
    s.setBank b { s.bank b with spare := .failed }
  else
    let early := x.spare = SpareSt.shadowing && x.target = k && s.bcfg b 3 1 = 1
    let s := s.setBank b { x with hard := if x.hard.contains k then x.hard else x.hard ++ [k],
                                  swapDue := x.swapDue || early
                                  swapMs := if early && !x.swapDue then s.tim.msCount + 1 else x.swapMs }
    (s.noteDegraded b).autoSpare b k due

/-- A physical slice converts or shadows. -/
def State.slicePowered (s : State) (b k : Nat) : Bool :=
  !s.parked b && (s.sliceUsed b k || (k = 16 && (s.bank b).spare = SpareSt.shadowing))

/-- METASTABLE (R120). -/
def execMetastable (b : Fin 24) (slice : Fin 17) (unresolved : Nat) (s : State) : Out :=
  .next (if 16 < unresolved ∧ s.slicePowered b.val slice.val then s.hardFault b.val slice.val 0 s.tim.due else s)

/-- TRIM_END (R120): a trim has stood at its end stop for 64 consecutive milestones. -/
def execTrimEnd (b : Fin 24) (slice : Fin 17) (s : State) : Out :=
  let i := b.val
  let k := slice.val
  .next (if TrimK.all.any (fun t => decide (64 ≤ kget (s.bank i).endStop (k * 3 + t.num) 0)) ∧ !s.flag (ra .bank i (0x080 + 4 * k)) 2 then
      (s.sliceFault i k 2).autoSpare i k s.tim.due
    else s)

/-- End stops of the period (R120): each trim of a slice that is powered counts milestones. -/
def State.endStops (s : State) (b : Nat) : State :=
  s.upTo 17 fun s k =>
    s.each TrimK.all fun s t =>
      let stands := s.slicePowered b k && ((s.sliceCal b k).trim t).atStop
      let x := s.bank b
      let i := k * 3 + t.num
      s.setBank b { x with endStop := kset x.endStop i (if stands then min 64 (kget x.endStop i 0 + 1) else 0) 0 }

/-- STUCK (R120) of one position of a group: all its codes are equal while each other slice of the group, or for a group of
one each other slice of the bank's groups, shows a variance of at least 16 LSB². -/
def State.stuckAt (s : State) (m : MsIn) (b k : Nat) (g : Spot4) : Bool :=
  let others := (if 2 ≤ g.size then g.members else (s.layout b).flatMap Spot4.members).filter fun p => p ≠ (b, k)
  match statOf m b (s.physical b k) with
  | none => false
  | some x =>
    let vars := others.map fun p => (statOf m p.1 (s.physical p.1 p.2)).map statVar
    x.allEqual && 0 < x.n && !others.isEmpty &&
      vars.all fun v => match v with
        | some v => !v.lt ⟨16, 1⟩
        | none => false

/-- STUCK of an SX that shadows (R120): it converts every instant of its slice, whose group gives the other slices. -/
def State.stuckShadow (s : State) (m : MsIn) (b : Nat) : Bool :=
  match s.shadowGroup b, statOf m b 16 with
  | some g, some x =>
    let vars := ((if 2 ≤ g.size then g.members else (s.layout b).flatMap Spot4.members).filter fun p =>
      p ≠ (b, (s.bank b).target)).map fun p => (statOf m p.1 (s.physical p.1 p.2)).map statVar
    (s.bank b).spare = .shadowing && x.allEqual && 0 < x.n && !vars.isEmpty && vars.all fun v => match v with
      | some v => !v.lt ⟨16, 1⟩
      | none => false
  | _, _ => false

/-- The STUCK check of a bank in a fast mode at a milestone, a shadowing SX included. DEDUCED (log 64). -/
def State.stuckCheck (s : State) (m : MsIn) (b : Nat) : State :=
  if s.modeNow b = 0 || !s.converts b then s
  else
    let sx := s.stuckShadow m b
    let s := s.upTo 16 fun s k =>
      match s.groupOf b k with
      | some g => if s.stuckAt m b k g then s.hardFault b (s.physical b k) 1 (s.tim.msCount + 1) else s
      | none => s
    if sx then s.hardFault b 16 1 (s.tim.msCount + 1) else s

/-! ### Shadowing and substitution (R121 to R125) -/

/-- A write of CNV_SPARE. -/
def State.actSpare (s : State) (b : Nat) (v : Word) : State :=
  match bits v 4 2 with
  | 1 => s.askShadow b (bits v 0 4) s.tim.due
  | 2 => s.endShadow b
  | 3 => s.stick .bank b 3
  | _ => s

def execSpareStart (a : Acc) (b : Fin 24) (slice : BitVec 4) (s : State) : Out :=
  .next (s.guarded a (ra .bank b.val 0x048) (BitVec.ofNat 32 (slice.toNat + 16)) fun s v => s.actSpare b.val v)

def execSpareAbort (a : Acc) (b : Fin 24) (s : State) : Out :=
  .next (s.guarded a (ra .bank b.val 0x048) 0x20 fun s v => s.actSpare b.val v)

/-- One start of shadowing at its milestone, or its refusal. A start on a bank that is parked or under self-calibration, of
which R121 says nothing, has no effect. DESIGN CHOICE (log 110). -/
def State.startShadow (s : State) (b k : Nat) : State :=
  let x := s.bank b
  if x.spare ≠ .free then s.stick .bank b 10
  else if s.parked b || x.sc = 2 then s
  else
    let s := s.setBank b { x with spare := .shadowing, target := k, shadowMs := 0, shadowOk := 0, converged := false,
                                  swapDue := false, swapMs := 0 }
    s.setSliceCal b 16 (s.sliceCal b 16).restart

/-- The starts due at a milestone, in order. -/
def State.shadowStarts (s : State) (b : Nat) : State :=
  let due := (s.bank b).shadowReqs.filter fun r => r.2 ≤ s.tim.msCount
  let s := s.setBank b { s.bank b with shadowReqs := (s.bank b).shadowReqs.filter fun r => !(r.2 ≤ s.tim.msCount) }
  s.each due fun s r => s.startShadow b r.1

/-- The test of a shadowing SX at a milestone (R122): means within 0.25 LSB, gains within 0.02 %, skews within 0.3 ps, in
taps. A SPLIT group of one slice, which has no skew estimate, passes the test of the skews. DESIGN CHOICE (log 123). -/
def State.shadowPasses (s : State) (m : MsIn) (b : Nat) : Bool :=
  let x := s.bank b
  let e := s.estsOf m b 16
  let skews := match s.shadowGroup b, statOf m b x.target with
    | some g, some y =>
      if g.size < 2 then true
      else match e.dly, (s.groupEsts m g y).dly with
        | some p, some q => (p.sub q).within 24 10
        | _, _ => false
    | _, _ => s.modeNow b = 0
  s.sliceConv b 16 && (x.hard.contains x.target ||
    ((e.ofs.any fun v => v.within 8 1) && (e.gain.any fun v => v.within 32768 10000) && skews))

/-- Shadowing counts its milestones and tests from the 256th on. -/
def State.shadowStep (s : State) (m : MsIn) (b : Nat) : State :=
  let x := s.bank b
  if x.spare ≠ .shadowing then s
  else
    let n := x.shadowMs + 1
    let ok := if 256 ≤ n && s.shadowPasses m b then x.shadowOk + 1 else 0
    s.setBank b { x with shadowMs := n, shadowOk := ok }

/-- SPARE_CONVERGED (R122): substitution follows at the next milestone (R123). -/
def execSpareConverged (b : Fin 24) (s : State) : Out :=
  let x := s.bank b.val
  .next (if x.spare = .shadowing ∧ 16 ≤ x.shadowOk then s.setBank b.val { x with converged := true, swapDue := true }
    else s)

/-- SHADOW_TIMEOUT (R122). -/
def execShadowTimeout (b : Fin 24) (s : State) : Out :=
  let x := s.bank b.val
  .next (if x.spare = .shadowing ∧ 16384 ≤ x.shadowMs ∧ x.shadowOk < 16 then (s.endShadow b.val).stick .bank b.val 10
    else s)

/-- The substitution of a bank due at a milestone (R123). -/
def State.substitute (s : State) (b : Nat) : State :=
  let x := s.bank b
  if x.spare = .shadowing ∧ x.swapDue ∧ x.swapMs ≤ s.tim.msCount then
    let k := x.target
    let s := s.setBank b { x with spare := .inUse, retired := some k, shadowMs := 0, shadowOk := 0, converged := false,
                                  swapDue := false, swapMs := 0, hard := x.hard.filter fun j => j ≠ k }
    let s := s.setSliceCal b k ((s.sliceCal b k).mapTrims fun _ t => { t with est := .tracking, good := 0, bad := 0 })
    let s := (s.orReg (ra .bank b (0x080 + 4 * k)) 8).stick .bank b 9
    (s.noteDegraded b).bumpEpoch b
  else s

/-- A parked bank, or one under self-calibration, shadows no more (R125, R156). -/
def State.parkEnds (s : State) (b : Nat) : State := if s.converts b then s else s.endShadow b

/-! ### The pair check (R110, R111) -/

/-- The check of a leader's pair over the period that a milestone closes. -/
def State.pairCheck (s : State) (m : MsIn) (b : Nat) : State :=
  let w := s.reg (ra .bank b 0x04C)
  let x := s.bank b
  if !bit w 20 then s.setBank b { x with pairFault := false, pairMark := false, pairFails := 0, pairPasses := 0 }
  else
    let s := s.setBank b { x with pairMark := x.pairFault }
    if x.role ≠ 1 || !s.converts b then s
    else match m.pairs.find? fun y => y.leader.val = b with
      | none => s
      | some y =>
        if y.bad || y.n = 0 then s
        else
          let n := y.n
          let dm := (y.s1A - y.s1B).natAbs
          let va := (n * (y.s2A : Int) - y.s1A * y.s1A).natAbs
          let vb := (n * (y.s2B : Int) - y.s1B * y.s1B).natAbs
          let dv := ((va : Int) - vb).natAbs
          let active := 64 * n * n ≤ min va vb
          let pass := 16 * dm ≤ bits w 0 8 * n && (!active || 64 * dv ≤ bits w 8 8 * max va vb)
          let st := satU 16 (16 * dm / n) + (if active then satU 8 (64 * dv / max va vb) * 2 ^ 16 + 2 ^ 24 else 0)
          let s := s.setReg (ra .bank b 0x07C) (BitVec.ofNat 32 st)
          let x := s.bank b
          s.setBank b (if pass then { x with pairFails := 0, pairPasses := x.pairPasses + 1 }
            else { x with pairFails := x.pairFails + 1, pairPasses := 0 })

/-- The follower's mark follows the leader's. -/
def State.pairMarks (s : State) (b : Nat) : State :=
  let x := s.bank b
  if x.role = 2 then
    let l := s.bank (b - 1)
    s.setBank b { x with pairFault := l.pairFault, pairMark := l.pairMark }
  else s

/-- Sets the pair fault on both pages. -/
def State.setPairFault (s : State) (b : Nat) (v : Bool) : State :=
  let s := s.setBank b { s.bank b with pairFault := v, pairPasses := 0 }
  s.setBank (b + 1) { s.bank (b + 1) with pairFault := v }

/-- A check that is switched off at a milestone ends the pair fault (R111: with PEN = 0, PAIR_FAULT reads 0). -/
def State.pairSync (s : State) (b : Nat) : State :=
  let x := s.bank b
  if s.flag (ra .bank b 0x04C) 20 || x.role ≠ 1 then s
  else
    let off := fun (x : Bank) => { x with pairFault := false, pairMark := false, pairFails := 0, pairPasses := 0 }
    let s := s.setBank b (off x)
    s.setBank (b + 1) (off (s.bank (b + 1)))

/-- PAIR_FAULT (R111). -/
def execPairFault (b : Fin 24) (s : State) : Out :=
  let x := s.bank b.val
  .next (if x.role = 1 ∧ !x.pairFault ∧ s.flag (ra .bank b.val 0x04C) 20 ∧
        s.fld (ra .bank b.val 0x04C) 16 4 ≤ x.pairFails ∧ 0 < x.pairFails then
      (s.setPairFault b.val true).stick .bank b.val 11
    else s)

/-- PAIR_FAULT_END (R111): 16 consecutive passing periods. -/
def execPairFaultEnd (b : Fin 24) (s : State) : Out :=
  let x := s.bank b.val
  .next (if x.role = 1 ∧ x.pairFault ∧ 16 ≤ x.pairPasses then s.setPairFault b.val false else s)

/-! ### The bank side of a milestone -/

/-- Checks of the period that the milestone closes. -/
def State.bankChecks (s : State) (m : MsIn) : State :=
  s.upTo 24 fun s b => (((s.pairCheck m b).pairMarks b).stuckCheck m b).shadowStep m b

/-- Step 2 but for the mordant: substitutions before it, starts of shadowing and end stops after it. -/
def State.substitutions (s : State) : State := s.upTo 24 fun s b => (s.parkEnds b).substitute b

def State.shadowsAndStops (s : State) : State :=
  s.upTo 24 fun s b => (((s.parkEnds b).shadowStarts b).endStops b)

/-- A block reset of a bank page (R119, R125, R126): every slice is in service again and SX is free. -/
def State.bankReset (s : State) (b : Nat) : State :=
  let x := s.bank b
  let cancelled := x.spot.pending
  let s := s.setBank b { x with spare := .free, target := 0, shadowMs := 0, shadowOk := 0, converged := false,
                                shadowReqs := [], swapDue := false, swapMs := 0, retired := none, hard := [], endStop := [],
                                degraded := false, pairFault := false, pairMark := false, pairFails := 0,
                                pairPasses := 0, spot := {} }
  if cancelled then s.spotStatus b 6 else s

end Sys2Proof.Machine
end

