-- ==== Sys2Proof/Machine/Enforce.lean ====
section
/-! DEFINITION. What the thermal unit does at a milestone, and enforcement (R363, R366 to R368). -/

namespace Sys2Proof.Machine

open Sys2Proof

/-- The reading of a sensor in row `i` of the readings of the period that ends: 200 °C for a broken one, from the reading on at
which it broke (R364). -/
def State.sensorIn (s : State) (i : Nat) (row : List Int) (k : Nat) : Int :=
  let before : Bool := kget s.thm.brokenMs k 0 = s.tim.msCount && decide (i < kget s.thm.brokenRow k 0)
  if s.sensorBad k && !before then brokenReading else row.getD k (kget s.thm.sread k 0)

/-- The reading of a region from row `i` and the model's estimate (R363). -/
def State.regionIn (s : State) (i : Nat) (row model : List Int) (r : Nat) : Int :=
  let ks := [2 * r, 2 * r + 1].filter fun k => !s.sensorOut k
  let mdl := model.getD r (s.regionNow r)
  let sens := (ks.map (s.sensorIn i row)).max?
  match s.fld (ra .thm 0 (0x080 + 4 * r)) 0 2, sens with
  | 1, _ => mdl
  | 2, some v => max v mdl
  | 2, none => mdl
  | _, some v => v
  | _, none => s.regionNow r

/-- Readings and the average a(n) of a region over the period (R363, chapter 17). -/
def State.thmRegion (s0 s : State) (m : MsIn) (r : Nat) : State :=
  let vs := m.sensors.zipIdx.map fun x => s0.regionIn x.2 x.1 m.model r
  let last := vs.getLast?.getD (s0.regionIn 64 [] m.model r)
  let a := if vs.isEmpty then 8 * last else divOpen (8 * vs.sum) vs.length
  let h := (a :: kget s.thm.hist r []).take 8193
  { s with thm := { s.thm with hist := kset s.thm.hist r h [], regions := kset s.thm.regions r last 0 } }

/-- Sensor and region readings of the period. -/
def State.thmReadings (s : State) (m : MsIn) : State :=
  let s0 := s
  let s := s.upTo 12 fun s r => State.thmRegion s0 s m r
  let row := m.sensors.getLast?.getD []
  s.upTo 24 fun s k => { s with thm := { s.thm with sread := kset s.thm.sread k (s0.sensorIn 64 row k) 0 } }

/-- A condition with hysteresis: true from `on` on, false below `off`. -/
def schmitt (was : Bool) (a on off : Int) : Bool := if on ≤ a then true else if a < off then false else was

/-- Sets bit `r` of a region mask. -/
def putBit (m : BitVec 12) (r : Nat) (v : Bool) : BitVec 12 :=
  if v then m ||| BitVec.ofNat 12 (2 ^ r) else m &&& ~~~ BitVec.ofNat 12 (2 ^ r)

/-- A rise condition: true beyond `lim`, false after `n` consecutive milestones at or below it. -/
def riseStep (was : Bool) (low : Nat) (rise : Option Int) (lim : Int) (n : Nat) : Bool × Nat :=
  match rise with
  | none => (was, low)
  | some d => if lim < d then (true, 0) else if n ≤ low + 1 then (false, n) else (was, low + 1)

/-- The conditions of a region at a milestone (R366). -/
def State.thmConditions (s : State) (r : Nat) : State :=
  let t := s.thm
  let compat := s.flag (ra .thm 0 0x040) 0
  let warn : Int := if compat then 135 else s.fld (ra .thm 0 0x044) 0 8
  let thr : Int := if compat then 145 else s.fld (ra .thm 0 0x044) 8 8
  let h := kget t.hist r []
  let a := h.getD 0 0
  let fast := riseStep (t.fastRise.getLsbD r) (kget t.fastLow r 0) ((h[256]?).map fun o => a - o) 64 256
  let slow := riseStep (t.slowRise.getLsbD r) (kget t.slowLow r 0) ((h[8192]?).map fun o => a - o) 256 1024
  { s with thm := { t with
      warnNow := putBit t.warnNow r (schmitt (t.warnNow.getLsbD r) a (64 * warn) (64 * (warn - 5)))
      thrNow := putBit t.thrNow r (schmitt (t.thrNow.getLsbD r) a (64 * thr) (64 * (thr - 5)))
      hard := putBit t.hard r (schmitt (t.hard.getLsbD r) a (64 * 155) (64 * 150))
      fastRise := putBit t.fastRise r (!compat && fast.1)
      slowRise := putBit t.slowRise r (!compat && slow.1)
      fastLow := kset t.fastLow r fast.2 0
      slowLow := kset t.slowLow r slow.2 0 } }

/-- The lowest region of a mask. -/
def firstRegion (m : BitVec 12) : Nat := ((List.range 12).find? fun r => m.getLsbD r).getD 0

/-- The warning (R367): a rise of WARN_NOW or SLOW_RISE anywhere. -/
def State.thmWarning (s : State) : State :=
  let w := s.thm.warnNow ||| s.thm.slowRise
  let now := decide (w ≠ 0)
  let was := s.thm.warning
  let s := { s with thm := { s.thm with warning := now, wakeSeen := s.thm.wakeSeen || (now && !was && s.pwr.st = .sleep) } }
  if now && !was then (s.thmStick 8).thmMark 0 (firstRegion w) else s

/-- The regions that ask for enforcement. -/
def State.thmCondition (s : State) : BitVec 12 := s.thm.thrNow ||| s.thm.fastRise ||| s.thm.hard

/-- The request, its grace, and the run of milestones without the condition (R367, R368). -/
def State.thmRequest (s : State) : State :=
  let t := s.thm
  let c := s.thmCondition
  let cond := decide (c ≠ 0)
  let hard := decide (t.hard ≠ 0)
  let raise := cond && !t.pending
  let left := if raise then s.fld (ra .thm 0 0x040) 16 16 else if t.pending && cond then t.grace - 1 else t.grace
  let out := t.pending && cond && left = 0
  let begins := !t.enforced && (out || hard || t.now || t.begin_)
  let enfMs := if t.enforced then t.enfMs + 1 else 0
  let live := t.pending || t.enforced || raise
  let s := { s with thm := { t with
      pending := t.pending || raise, grace := left, begin_ := begins, now := false, enfMs := enfMs
      stepDue := t.stepDue || (t.enforced && cond && enfMs % 256 = 0)
      endDue := decide (16 ≤ t.falseRun)
      falseRun := if cond || !live then 0 else t.falseRun + 1 } }
  if raise then (s.thmStick 9).thmMark 1 (firstRegion c) else s

/-- What a milestone does for the thermal unit. -/
def State.thmMilestone (s : State) : State := ((s.upTo 12 fun s r => s.thmConditions r).thmWarning).thmRequest

/-- Ports are halved under enforcement (R145, R368); a bank that it parks shadows no more (R125). -/
def State.enforceHalve (s : State) : State := (s.halvePorts).upTo 24 fun s b => s.parkEnds b

/-- ENFORCEMENT (R367, R368): begins at this milestone. -/
def execEnforcement (s : State) : Out :=
  .next (if s.thm.begin_ ∧ !s.thm.enforced ∧ s.atMilestone then
      let s := s.noteSizes
      let s := { s with thm := { s.thm with enforced := true, begin_ := false, enfMs := 0 } }
      ((s.thmStick 10).thmMark 2 s.hottest).enforceHalve
    else s)

/-- ENFORCEMENT_STEP (R368): each further 256th milestone while the condition holds. -/
def execEnforcementStep (s : State) : Out :=
  .next (if s.thm.enforced ∧ s.thm.stepDue ∧ s.atMilestone then
      ({ s with thm := { s.thm with stepDue := false } }).enforceHalve
    else s)

/-- ENFORCEMENT_END (R367): the condition has been false at 16 consecutive milestones; banks that enforcement parked
come back. -/
def execEnforcementEnd (s : State) : Out :=
  .next (if (s.thm.pending ∨ s.thm.enforced) ∧ s.thm.endDue ∧ s.atMilestone then
      let s := { s with thm := { s.thm with pending := false, enforced := false, grace := 0, enfMs := 0,
                                            begin_ := false, stepDue := false, falseRun := 0, endDue := false } }
      (s.thmMark 3 s.hottest).unpark
    else s)

end Sys2Proof.Machine
end

