-- ==== Sys2Proof/Machine/HostPorts.lean ====
section
/-! DEFINITION. Host ports (chapter 19): the PCI Express endpoint and its frame queue, the cartridge tag buses. -/

namespace Sys2Proof.Machine

open Sys2Proof

/-! ### The host frame queue (R389) -/

/-- The size of a ring, by its control register. -/
def State.ringSize (s : State) (off : Nat) : Nat := 2 ^ s.fld (ra .pci 0 off) 0 4

/-- A slot of a bad length, or a frame of a class that never passes the queue, is discarded and counted (R389). -/
def State.queueDrop (s : State) : State := s.countSat (ra .pci 0 0x074) 1

/-- A frame that goes on to another device on its route (R258). -/
def State.hostForward (s : State) (f : TxFrame) : State :=
  match s.routeTo f.dest.toNat with
  | none => (s.routeDrop f.dest.toNat).stick .fabRouter 0 9
  | some q =>
    if (s.fport q).carries then
      s.queueOn q (txFrags f.cls.toNat (s.partyOf f.session.toNat) f.payload)
    else (s.routeDrop f.dest.toNat).stick .fabRouter 0 9

/-- The session of a frame from the host queue, if it is one of the queue's. -/
def State.hostSession (s : State) (n : Nat) : Option Session :=
  match s.session n with
  | some x => if x.host && x.st ≠ SessSt.handshake then some x else none
  | none => none

/-- A frame of good length (R247, R303, R389): no TC0 or TC1 frame passes the queue, and a session's peer sends on TC3
and TC4 alone. -/
def State.takeFrame (s : State) (f : TxFrame) : State :=
  let cls := f.cls.toNat
  match s.hostSession f.session.toNat with
  | some x =>
    let s := s.setSession { x with silence := 0 }
    if cls ≠ 3 ∧ cls ≠ 4 then
      match x.role with
      | .tenant t => (s.routeDrop f.dest.toNat).stick .tenStat t.val 11
      | .owner => (s.routeDrop f.dest.toNat).stick .sec 0 12
    else if 0x0B ≤ f.kind.toNat ∨ (f.kind = 8 ∧ x.role ≠ .owner) then s.routeDrop f.dest.toNat
    else if f.linkLocal ∨ s.fab.addr = some f.dest.toNat then s
    else s.hostForward f
  | none =>
    if cls ≤ 1 ∨ 5 ≤ cls then s.queueDrop
    else if 0x0B ≤ f.kind.toNat then s.routeDrop f.dest.toNat
    else if f.linkLocal ∨ s.fab.addr = some f.dest.toNat then s
    else s.hostForward f

/-- One slot of the TX ring; a slot of bad length is discarded, counted, and sets QERR. -/
def State.takeSlot (s : State) (f : Option TxFrame) : State :=
  let size := s.ringSize 0x050
  let s := match f with
    | some f =>
      if f.len = 0 ∨ 2112 < f.len ∨ f.len ≠ 16 + f.payload then (s.queueDrop).stick .pci 0 9 else s.takeFrame f
    | none => (s.queueDrop).stick .pci 0 9
  { s with hst := { s.hst with txHead := (s.hst.txHead + 1) % size } }

/-- The device takes the slots from the head up to the tail, as bus master, which D3hot stops (R388). DEDUCED (log 69). -/
def State.takeTx (s : State) (slots : List TxFrame) : State :=
  let size := s.ringSize 0x050
  let tail := s.fld (ra .pci 0 0x054) 0 12 % size
  let n := (tail + size - s.hst.txHead % size) % size
  if s.flag (ra .pci 0 0x050) 4 && s.hst.linkUp && !s.int.d3hot then s.upTo n fun s i => s.takeSlot slots[i]? else s

/-- TXQ_TAIL_WRITE: the host hands over frames (R389). DEDUCED (log 69). -/
def execTxqTailWrite (a : Acc) (tail : BitVec 12) (slots : List TxFrame) (s : State) : Out :=
  .next (s.guarded a (ra .pci 0 0x054) (BitVec.ofNat 32 tail.toNat) fun s v =>
    (s.setFld (ra .pci 0 0x054) 0 12 (bits v 0 12)).takeTx slots)

/-- Free slots of the RX ring. -/
def State.rxRoom (s : State) : Nat :=
  let size := s.ringSize 0x068
  (s.fld (ra .pci 0 0x06C) 0 12 + size + size - 1 - s.hst.rxTail % size) % size

/-- The RX ring is in use: its EN bit and the link. -/
def State.rxOn (s : State) : Bool := s.flag (ra .pci 0 0x068) 4 && s.hst.linkUp && !s.int.d3hot

/-- The device writes one slot of the RX ring. -/
def State.rxSlot (s : State) : State :=
  ({ s with hst := { s.hst with rxTail := (s.hst.rxTail + 1) % s.ringSize 0x068 } }).stick .pci 0 8

/-- Held frames go to the ring as it has room. -/
def State.rxDrain (s : State) : State :=
  if s.rxOn then
    let n := min s.rxRoom s.hst.held.length
    let s := s.upTo n fun s _ => s.rxSlot
    { s with hst := { s.hst with held := s.hst.held.drop n } }
  else s

/-- A write of RXQ_HEAD frees room. -/
def State.actRxHead (s : State) (v : Word) : State := (s.setFld (ra .pci 0 0x06C) 0 12 (bits v 0 12)).rxDrain

def execRxqHeadWrite (a : Acc) (head : BitVec 12) (s : State) : Out :=
  .next (s.guarded a (ra .pci 0 0x06C) (BitVec.ofNat 32 head.toNat) fun s v => s.actRxHead v)

/-- RX_RING_WRITE (R389): a frame for the host. While ring and holding buffer are full, record frames wait in the lake
and others are discarded and counted. -/
def execRxRingWrite (len : Nat) (isRecord : Bool) (s : State) : Out :=
  let s1 := s.rxDrain
  .next (if s1.rxOn && s1.hst.held.isEmpty && decide (0 < s1.rxRoom) then s1.rxSlot
    else if s1.hst.held.sum + len ≤ 65536 then { s1 with hst := { s1.hst with held := s1.hst.held ++ [len] } }
    else if isRecord then s1
    else s1.queueDrop)

def execHstPciQdropRead (a : Acc) (s : State) : Out :=
  .next (s.guardedRead a (ra .pci 0 0x074) fun s => s.readClear (ra .pci 0 0x074))

/-! ### The endpoint (R386 to R388) -/

/-- A speed and a width that the endpoint trains at (R386). -/
def linkTrains (speed width : BitVec 3) : Bool := 1 ≤ speed.toNat && speed.toNat ≤ 4 && (width = 1 || width = 2 || width = 4)

/-- HOST_LINK_UP: the link is in L0, and held messages may leave. -/
def execHostLinkUp (speed : BitVec 3) (width : BitVec 3) (s : State) : Out :=
  .next (if s.pwr.clocked && !s.hst.linkUp && linkTrains speed width then
      ({ s with hst := { s.hst with linkUp := true, speed := speed.toNat, width := width.toNat } }).flushMsix
    else s)

/-- What the endpoint's configuration space shows (R386): identifiers, revision and class code, the sizes that BAR0, BAR2 and BAR4
claim, and the subsystem identifiers latched at the last link reset, at the header offsets of PCI Express. PRESUMED (log 155). -/
def State.configWord (s : State) (off : Nat) : Word :=
  if off = 0x000 then 0x24161F4D
  else if off = 0x008 then 0x118000B0
  else if off = 0x010 then 0xFF000004
  else if off = 0x018 then 0xFF800004
  else if off = 0x020 then 0xFFE00004
  else if off = 0x014 ∨ off = 0x01C ∨ off = 0x024 then allOnes
  else if off = 0x02C then s.hst.subsys
  else 0

/-- The Device Serial Number capability reads the unit identifier (R386). -/
def State.serialNumber (s : State) : Nat := s.uid

/-- CONFIGURATION_REQUEST (R387, R388): Retry Status until the base configuration has been applied; in Sleep it is the host-access
wake of R353. -/
def execConfigurationRequest (msixEnable : Bool) (funcMask : Bool) (d3hot : Bool) (vecMask : BitVec 64) (s : State) : Out :=
  .next (if s.pwr.clocked && s.pwr.live && s.hst.linkUp then
      let s := s.hostWake 0
      let s := { s with int := { s.int with msixEnable := msixEnable, funcMask := funcMask, d3hot := d3hot,
                                            vecMask := vecMask } }
      (s.flushMsix).deliverPending.answerWith .done
    else s.answerWith .retry)

/-- The requesters behind the PCI Express link: BAR0 and the tenant windows of BAR2. -/
def hostRequesters : List Nat := 0 :: (List.range 128).map fun t => 0x0100 + t

/-- The host link goes down or is hot-reset (R18, R40, R42, R43, R388, R389). -/
def State.hostLinkDown (s : State) : State :=
  let s := s.each hostRequesters fun s r => (s.dropRequester r).updHolderLost r
  let s := s.intLinkReset
  let s := s.setFld (ra .pci 0 0x050) 4 1 0
  let s := s.setFld (ra .pci 0 0x068) 4 1 0
  let s := s.each (s.fab.sessions.filter fun x => x.host && x.st = SessSt.open_) fun s x => s.dropSession x
  let s := s.each (s.fab.sessions.filter fun x => x.host && x.st = SessSt.handshake) fun s x => s.dropNumber x.num
  let s := { s with hst := { s.hst with linkUp := false, speed := 0, width := 0, held := [],
                                        subsys := s.reg (ra .pci 0 0x044) } }
  s.stick .pci 0 10

/-- HOST_LINK_RESET. -/
def execHostLinkReset (_c : LinkCause) (s : State) : Out := .next (if s.pwr.clocked then s.hostLinkDown else s)

/-! ### Tag buses (R394 to R396) -/

def State.tag (s : State) (b : Nat) : TagBus := kget s.hst.tags b {}
def State.setTag (s : State) (b : Nat) (v : TagBus) : State := { s with hst := { s.hst with tags := kset s.hst.tags b v {} } }

/-- The bus is enabled and not held for a short. -/
def State.tagOn (s : State) (b : Nat) : Bool := s.flag (ra .tag 0 0x040) b && !(s.tag b).shortHold

/-- The next command starts when none runs and the supervisor works: a waiting read first, then the lowest requested bus. A milestone
starts what has waited for the supervisor. DEDUCED (log 70). -/
def State.tagNext (s : State) : State :=
  if s.hst.tagActive.isSome || s.hst.tagRead.isSome || !s.supWorks then s
  else match s.hst.tagReads with
    | r :: t => { s with hst := { s.hst with tagRead := some r, tagReads := t } }
    | [] =>
      match (List.range 16).find? fun b => (s.tag b).queued && s.tagOn b with
      | some b =>
        let s := s.setTag b { s.tag b with queued := false, result := 1, searches := 0, restarts := 0, overflow := false }
        { s with hst := { s.hst with tagActive := some b } }
      | none => s

/-- A search of a bus is asked for; a bus holds at most one queued request. -/
def State.tagAsk (s : State) (b : Nat) : State :=
  if s.tagOn b then (s.setTag b { s.tag b with queued := true }).tagNext else s

/-- A write of HST_TAG_CMD. -/
def State.actTagCmd (s : State) (v : Word) : State :=
  match bits v 4 2 with
  | 1 => s.tagAsk (bits v 0 4)
  | 2 => ({ s with hst := { s.hst with tagReads :=
      s.hst.tagReads ++ [(⟨bits v 0 4, bits v 6 5, bits v 16 8, bits v 24 8⟩ : TagRead)] } }).tagNext
  | 3 => s.stick .tag 0 3
  | _ => s

def execTagSearch (a : Acc) (bus : BitVec 4) (s : State) : Out :=
  .next (s.guarded a (ra .tag 0 0x044) (BitVec.ofNat 32 (bus.toNat + 16)) fun s v => s.actTagCmd v)

def execTagReadMemory (a : Acc) (bus : BitVec 4) (entry : BitVec 5) (addr : BitVec 8) (len : BitVec 8) (s : State) : Out :=
  let v := bus.toNat + 32 + entry.toNat * 64 + addr.toNat * 65536 + len.toNat * 16777216
  .next (s.guarded a (ra .tag 0 0x044) (BitVec.ofNat 32 v) fun s v => s.actTagCmd v)

/-- TAG_ANNOUNCE (R395): restarts the search of the bus, or asks for one. -/
def execTagAnnounce (bus : Fin 16) (s : State) : Out :=
  let b := bus.val
  .next (if !s.pwr.live || !s.pwr.clocked then s
    else if s.hst.tagActive = some b then
      let t := s.tag b
      s.leaveIdle.setTag b { t with restarts := min 16 (t.restarts + 1), searches := 0 }
    else s.leaveIdle.tagAsk b)

/-- TAG_PERIODIC_SEARCH (R395): the supervisor searches every 2^PER s. -/
def execTagPeriodicSearch (s : State) : Out :=
  let per := s.fld (ra .tag 0 0x040) 16 4
  .next (if per ≠ 0 ∧ 2 ^ (per + 10) ≤ s.hst.tagAge ∧ s.supWorks then
      let s := { s with hst := { s.hst with tagAge := 0 } }
      s.upTo 16 fun s b => s.tagAsk b
    else s)

/-- The search or read in progress ends, and the next command starts. -/
def State.tagEnd (s : State) : State := ({ s with hst := { s.hst with tagActive := none } }).tagNext

/-- TAG_BUS_SHORT (R395). -/
def execTagBusShort (bus : Fin 16) (s : State) : Out :=
  let b := bus.val
  .next (if s.tagOn b && s.pwr.clocked then
      let s := (s.setTag b { s.tag b with result := 5, shortHold := true, queued := false }).stick .tag 0 10
      if s.hst.tagActive = some b then s.tagEnd else s
    else s)

/-- An identity into a rising list without repeats. -/
def idIns (x : Nat) : List Nat → List Nat
  | [] => [x]
  | y :: t => if x < y then x :: y :: t else if x = y then y :: t else y :: idIns x t

/-- The bytes of an identity, most significant first. -/
def idBytes (x : Nat) : List Byte := (leBytes x 8).reverse

/-- The CRC of an identity is good (R394). -/
def idGood (x : BitVec 64 × BitVec 16) : Bool := crc16 (idBytes x.1.toNat) = x.2.toNat

/-- The set that one full search records. -/
def searchSet (l : List (BitVec 64 × BitVec 16)) : List Nat :=
  (l.filter fun x => idGood x).foldl (fun acc x => idIns x.1.toNat acc) []

/-- How a search ends: the searches made until two in a row agree, at most eight, and whether they agree. -/
def settleSearches : List (List Nat) → List (List Nat) → List (List Nat) × Bool
  | done, a :: b :: t => if a = b then (done ++ [a, b], true) else settleSearches (done ++ [a]) (b :: t)
  | done, t => (done ++ t, false)

/-- TAG_SEARCH_DONE (R394, R395): the full searches since the last restart, each with the identities and CRCs read, in Run or Idle.
DEDUCED (log 70). -/
def execTagSearchDone (bus : Fin 16) (rounds : List (List (BitVec 64 × BitVec 16))) (s : State) : Out :=
  let b := bus.val
  let t := s.tag b
  let rs := rounds.take 8
  let (sets, stable) := settleSearches [] (rs.map searchSet)
  let stable := stable && decide (t.restarts < 16)
  .next (if s.hst.tagActive ≠ some b ∨ !s.awake ∨ (!stable ∧ sets.length < 8 ∧ t.restarts < 16) then s
    else
      let s := if rs.any fun r => r.any fun x => !idGood x then s.stick .tag 0 11 else s
      let seen := if stable then sets.getLast?.getD [] else sets.foldl (fun acc l => l.foldl (fun acc x => idIns x acc) acc) []
      let kept := seen.take 32
      let over_ := decide (32 < seen.length)
      let ids := kept.map fun x => (x, !stable && !sets.all fun l => l.contains x)
      let res := if !stable then 3 else if seen.isEmpty then 4 else 2
      let s := s.setTag b { t with result := res, ids := ids, searches := sets.length, overflow := over_ }
      let s := if over_ then s.stick .tag 0 12 else s
      let s := if stable then s else s.stick .tag 0 9
      let s := if kept = t.ids.map (·.1) then s
        else (s.stick .tag 0 8).waymark 0x40 [b, kept.length, if stable then 0 else 1]
      s.tagEnd)

/-- Bytes into HST_TAG_BUF, the first at the lowest address. DEDUCED (log 70). -/
def State.tagBuffer (s : State) (bs : List Byte) : State :=
  s.each ((List.range bs.length).zip bs) fun s (x : Nat × Byte) =>
    s.setFld (ra .tag 0 (0x800 + x.1 / 4 * 4)) (8 * (x.1 % 4)) 8 x.2.toNat

/-- TAG_READ_DONE (R396), in Run or Idle. DEDUCED (log 70). -/
def execTagReadDone (ack : Bool) (bytes : List Byte) (crc : BitVec 16) (s : State) : Out :=
  .next (match if s.awake then s.hst.tagRead else none with
    | none => s
    | some r =>
      let s := { s with hst := { s.hst with tagRead := none } }
      if !ack then ({ s with hst := { s.hst with mresult := 2 } }).tagNext
      else
        let bs := bytes.take (r.len + 1)
        let s := s.tagBuffer bs
        if crc16 bs = crc.toNat && bs.length = r.len + 1 then ({ s with hst := { s.hst with mresult := 1 } }).tagNext
        else (({ s with hst := { s.hst with mresult := 3 } }).stick .tag 0 11).tagNext)

/-- HST_TAG_CFG as written (R395): a bus whose EN is cleared is driven no more, and its short is forgotten. -/
def State.tagConfig (s : State) : State :=
  let s := s.upTo 16 fun s b =>
    if s.flag (ra .tag 0 0x040) b then s
    else
      let t := s.tag b
      s.setTag b { t with shortHold := false, queued := false, result := if t.result = 1 then 0 else t.result }
  match s.hst.tagActive with
  | some b => if s.flag (ra .tag 0 0x040) b then s else s.tagEnd
  | none => s

/-- Searches of every enabled bus at a cold start (R395). -/
def State.tagStart (s : State) : State := s.upTo 16 fun s b => s.tagAsk b

/-- A block reset of the tag-bus page (R400). -/
def State.tagReset (s : State) : State :=
  { s with hst := { s.hst with tags := [], tagActive := none, tagRead := none, tagReads := [], tagAge := 0, mresult := 0 } }

end Sys2Proof.Machine
end

