-- ==== Sys2Proof/Machine/Impedance.lean ====
section
/-! DEFINITION. Impedance engines (chapter 04, R95 to R103): visits, periods, cell health, baselines and the checks of a
configuration. -/

namespace Sys2Proof.Machine

open Sys2Proof

/-! ### Configuration -/

/-- The engine runs: EN, its page in service, Run or Idle (R96, R103, chapter 16). -/
def State.impOn (s : State) (n : Nat) : Bool :=
  s.flag (ra .imp n 0x040) 0 && s.inService (0x0A0 + n) && (s.pwr.st = .run || s.pwr.st = .idle) && !s.pwr.waking

/-- Tone range and limit of the sum of amplitudes of a target kind: from 10 mHz, FW × 2^-14 Hz. -/
def toneLimits (c : Nat) : Option (Nat × Nat) :=
  match chanKind c with
  | .ec => some (100000 * 2 ^ 14, 131)
  | .ms => some (20000000 * 2 ^ 14, 2621)
  | .fp => some (20000000 * 2 ^ 14, 3932)
  | _ => none

/-- Strictly ascending. -/
def ascending : List Nat → Bool
  | a :: b :: t => decide (a < b) && ascending (b :: t)
  | _ => true

/-- The refusal COMPOSE of R96, of engine `n` as its registers stand. -/
def State.composeBad (s : State) (n : Nat) : Bool :=
  let ts := s.tones n
  let grid := 2 ^ (14 - sext 5 (s.fld (ra .imp n 0x040) 1 5)).toNat
  let amps := (ts.map fun (t : Nat × Nat × Nat) => t.2.1).sum
  (s.slotsOn n).any (fun k => match toneLimits (s.slotChan n k) with
    | none => true
    | some (top, amp) => decide (amp < amps) || ts.any fun (t : Nat × Nat × Nat) => t.1 * 100 < 2 ^ 14 || top < t.1) ||
  !ascending (ts.map fun (t : Nat × Nat × Nat) => t.1) || ts.any (fun (t : Nat × Nat × Nat) => t.1 % grid ≠ 0) ||
  (List.range 32).any fun k => (toneLimits (s.slotChan n k)).isNone

/-- The refusal CONFLICT of R96. -/
def State.conflictBad (s : State) (n : Nat) : Bool :=
  (s.slotsOn n).any fun k => (List.range 24).any fun m =>
    m ≠ n && (s.slotsOn m).any fun j => s.slotChan m j = s.slotChan n k

/-! ### Visits (R97, R103) -/

/-- Excitation leaves the ports that engine `n` has excited up to an instant: the window of an EC port that has started by
then keeps its flag. -/
def State.impRemove (s : State) (n stop : Nat) : State :=
  let e := s.imp n
  let flag := fun (s : State) (c stop : Nat) =>
    if chanKind c = .ec && decide ((s.port c).winStart < stop) then s.setPort c { s.port c with excited := true } else s
  if !e.active then s
  else
    let s := flag s e.ch (min stop (s.impEnd n))
    match s.impNext n with
    | some (_, c) => if s.impEnd n < stop then flag s c stop else s
    | none => s

/-- The engine stops at once, without a health update (R103). Requests for baselines stay pending, also over EN = 0, Sleep and a
block reset of the page. DESIGN CHOICE (log 139). -/
def State.impStop (s : State) (n : Nat) : State :=
  let s := s.impRemove n s.tim.time
  let e := s.imp n
  s.setImp n { e with active := false, slot := 0, ch := 0, start := 0, per := 0, sums := [], kept := [], dac := 0 }

/-- A visit starts on a slot at a period boundary, with the sums of windows that already belong to it.
DEDUCED (logs 30, 65). -/
def State.impStart (s : State) (n k at_ : Nat) (sums : KMap LockSums) : State :=
  s.setImp n { s.imp n with active := true, slot := k, ch := s.slotChan n k, start := at_, per := 0, sums := sums, kept := [] }

/-- An engine on a time line that has moved under its visit (R421): period boundaries that a step jumps over do not occur,
and those that it repeats occur again. The period in progress goes on as the one that holds the new time; a visit whose end
is jumped over is left for the visit in progress then, and one that starts later than the new time begins again.
DEDUCED (log 109). -/
def State.impShift (s : State) (n : Nat) : State :=
  let e := s.imp n
  let p := s.impPeriod n
  let now := s.tim.time
  let visit := s.impPeriods n * p
  if !e.active then s
  else if now < e.start then
    s.setImp n { e with start := e.start - ceilDiv (e.start - now) p * p, per := 0, sums := [], kept := [] }
  else if visit = 0 ∨ now < e.start + visit then
    let q := (now - e.start) / p
    s.setImp n { e with per := q, sums := kset [] q (kget e.sums e.per {}) {} }
  else
    let gone := (now - e.start) / visit
    let slots := s.slotsOn n
    match slots[((slots.idxOf? e.slot).getD 0 + gone) % slots.length]? with
    | some k =>
      let s := (s.impRemove n now).impStart n k (e.start + gone * visit) []
      s.setImp n { s.imp n with per := (now - (s.imp n).start) / p }
    | none => s

/-- The words of an engine that decide the visit in progress: its tones, its configuration and its own slot. -/
def State.impWords (s : State) (n k : Nat) : List Word :=
  (List.range 16).map (fun i => s.reg (ra .imp n (0x050 + 4 * i))) ++
    [s.reg (ra .imp n 0x040), s.reg (ra .imp n (0x0C0 + 4 * k))]

/-- An engine at a milestone: stopped, restarted by a change of its configuration (log entry 30), or started at a period
boundary on its lowest enabled slot. A period or visit that ends at the very milestone at which the engine stops or restarts ends
without record or health update where no command has ended it before. DEDUCED (log 30), DESIGN CHOICE (log 138). -/
def State.impSync (s s0 : State) (n : Nat) : State :=
  let k0 := (s.imp n).slot
  let s := if (s.imp n).active && (!s.impOn n || s.impWords n k0 ≠ s0.impWords n k0) then s.impStop n else s
  let at_ := s.tim.msNum * msSpan
  match s.slotsOn n with
  | k :: _ => if s.impOn n && !(s.imp n).active && at_ % s.impPeriod n = 0 then s.impStart n k at_ [] else s
  | [] => s

/-- DAC_TICK (R95): the excitation at the tick in force. -/
def execDacTick (n : Fin 24) (s : State) : Out :=
  let e := s.imp n.val
  let v : Int := if (s.impVisit n.val s.tim.time).isSome then
    excitation (s.tones n.val) (s.tim.time / dacSpan) else 0
  .next (s.setImp n.val { e with dac := v })

/-! ### Periods (R98, R99) -/

/-- The port's full scale: EC and MS ports in amperes, FP ports in volts at the stage's output (R98).
DEDUCED (log 66). -/
def State.fullScale (s : State) (c idx : Nat) : Flt :=
  match chanKind c with
  | .ec => frat (2 * 10 ^ idx) (10 ^ 12)
  | .ms =>
    let vf := [(1, 10), (2, 10), (5, 10), (10, 10)].getD (s.fld (portReg c 4) 0 2) (5, 10)
    let low := [1000, 30000, 1000000, 30000000, 1000000000].getD idx 1000
    frat vf.1 (vf.2 * low)
  | _ => frat 5 4

/-- ReZ and ImZ of one tone; `none` where D = 0. -/
def lockZ (k : Flt) (q : Int × Int × Int × Int) : Option (Flt × Flt) :=
  let a := fint q.1
  let b := fint q.2.1
  let c := fint q.2.2.1
  let d := fint q.2.2.2
  let dd := fadd (fmul a a) (fmul b b)
  if dd.m = 0 then none
  else some (fmul (fdiv (fadd (fmul c a) (fmul d b)) dd) k, fmul (fdiv (fsub (fmul c b) (fmul d a)) dd) k)

/-- The results of a period over all tones, unless it is discarded (R99). -/
def State.lockResult (s : State) (n : Nat) (l : LockSums) : Option (List (Flt × Flt)) :=
  let c := s.impChan n
  let ts := s.tones n
  let top := (ts.map fun (t : Nat × Nat × Nat) => t.1).foldl max 0
  let rate := l.rate.getD 0
  if l.bad || l.sat || l.tones.length ≠ ts.length || 2 * rate * 2 ^ 14 < 5 * top then none
  else
    let fs := s.fullScale c (l.index.getD 0)
    let k := fdiv (fdiv (fdiv (frat 5 2) (fint 65536)) (fint 256)) (fdiv fs (fint 32768))
    l.tones.foldr (fun q acc => match lockZ k q, acc with
      | some z, some t => some (z :: t)
      | _, _ => none) (some [])

/-- round(Z × 2^−EXP), ties away from zero, in 32 bits (R190). -/
def recordZ (z : Flt) (ex : Int) : Int :=
  let e := z.e - ex
  satS 32 (if 0 ≤ e then z.m * 2 ^ e.toNat else divNearestAway z.m (2 ^ (-e).toNat))

/-- Impedance streams of a slot, ascending. -/
def State.impStreams (s : State) (n k : Nat) : List Nat :=
  (s.spe.streams.filter fun p => p.2.active && !p.2.suspended && decide (s.sKind p.1 = 4) &&
    decide (s.sSrc p.1 = n * 32 + k)).map (·.1)

/-- The record of a period on each stream of the slot; while the die-to-die link of its bank is bad it says so (R12). -/
def State.impRecords (s : State) (n : Nat) (stamp : Nat) (l : LockSums) (r : Option (List (Flt × Flt))) : State :=
  let b := (s.chanBank (s.impChan n) false).getD 0
  let g := if l.gather.any then l.gather else s.gatherNow b stamp false
  let c := s.impChan n
  let link := if s.linkFault b (s.fastSource c && (s.place (c - 384)).size = 6) then 4 else 0
  if !s.inService (0x080 + b) then s
  else s.each (s.impStreams n (s.imp n).slot) fun s i =>
    let ex := sext 8 (s.sf i 3 8 8)
    match r with
    | some zs => s.emitRecord i 4 stamp g link (zs.flatMap fun z => [recordZ z.1 ex, recordZ z.2 ex])
    | none => s.emitRecord i 4 stamp g 4 (List.replicate (2 * (s.tones n).length) 0)

/-- IMP_PERIOD_END (R98, R99): the period of the visit that ended last; periods of SETTLE are not accumulated. -/
def execImpPeriodEnd (n : Fin 24) (s : State) : Out :=
  let i := n.val
  let e := s.imp i
  let at_ := e.start + e.per * s.impPeriod i
  .next (if !e.active ∨ s.impPeriods i ≤ e.per ∨ s.tim.time < at_ + s.impPeriod i then s
    else if e.per < s.fld (ra .imp i 0x040) 9 4 then s.setImp i { e with per := e.per + 1 }
    else
      let l := kget e.sums e.per {}
      let r := s.lockResult i l
      let s := match r with
        | some _ => s
        | none => s.stick .imp i 10
      let s := (s.substNow.ringAdd (.sums i (at_ / 2 ^ 32) (s.imp i))).impRecords i (at_ / 2 ^ 32) l r
      s.setImp i { s.imp i with per := e.per + 1, kept := (s.imp i).kept ++ r.toList,
                                sums := kset (s.imp i).sums e.per {} {} })

/-! ### Cell health (R100 to R102) -/

/-- The bits of the binary32 number nearest a value. -/
def f32Bits (x : Flt) : Nat :=
  let a := x.m.natAbs
  let sh := (max ((bitLen a : Int) - 24) (-149 - x.e)).toNat
  let q := roundEven a sh false
  let e := x.e + sh
  let up := (min (24 - (bitLen q : Int)) (e + 149)).toNat
  let q := q * 2 ^ up
  let e := e - up
  let body :=
    if q = 0 then 0
    else if q < 2 ^ 23 then q
    else
      let f := if q = 2 ^ 24 then 2 ^ 23 else q
      let ex := (e + 150 + (if q = 2 ^ 24 then 1 else 0)).toNat
      if 255 ≤ ex then 0x7F800000 else ex * 2 ^ 23 + (f - 2 ^ 23)
  body + (if x.m < 0 then 2 ^ 31 else 0)

/-- The mean of some values, in order, in binary64. -/
def fmean (xs : List Flt) : Flt := fdiv (xs.foldl fadd ⟨0, 0⟩) (fint xs.length)

/-- x ≥ n / 16. -/
def atLeast16 (x : Flt) (n : Nat) : Bool := !flt x (fscale (fint n) (-4))

/-- x ≤ n / 16. -/
def atMost16 (x : Flt) (n : Nat) : Bool := !flt (fscale (fint n) (-4)) x

/-- A ratio as an unsigned 4.4 field, saturating; its rounding is open, and so is a ratio below 0 or without a divisor. -/
def ratioField (x : Option Flt) : Nat :=
  match x with
  | none => (Config.tempField 0).toNat % 256
  | some x =>
    let e := x.e + 4
    if x.m < 0 then (Config.tempField x.m).toNat % 256
    else if 0 ≤ e then satU 8 (x.m * 2 ^ e.toNat).toNat
    else satU 8 (divOpen x.m (2 ^ (-e).toNat)).toNat

/-- What a visit gives: Rs, Cdl (`none` where ImZ is 0), OPEN. -/
structure Visit where
  rs : Flt
  cdl : Option Flt
  isOpen : Bool
  deriving DecidableEq, Repr

/-- Rs, Cdl and OPEN of a visit's averages (R100). DEDUCED (log 66). -/
def State.visitResult (s : State) (n : Nat) (kept : List (List (Flt × Flt))) : Visit :=
  let h := s.fld (ra .imp n 0x040) 6 3
  let col := fun (j : Nat) (f : Flt × Flt → Flt) => fmean (kept.map fun p => f (p.getD j (⟨0, 0⟩, ⟨0, 0⟩)))
  let reH := col h (·.1)
  let imH := col h (·.2)
  let imL := col 0 (·.2)
  let fL := fscale (fint ((s.tone n 0).1 : Nat)) (-14)
  let z2 := fadd (fmul reH reH) (fmul imH imH)
  { rs := reH
    cdl := if imL.m = 0 then none
      else some (fdiv (fint (-1)) (fmul (fmul (fmul (fint 2) piFlt) fL) imL))
    isOpen := flt (fmul (fint 1000000) (fint 1000000)) z2 || decide (0 ≤ imL.m) }

/-- A quotient that has a divisor. -/
def fdivBy (x : Option Flt) (y : Flt) : Option Flt := if y.m = 0 then none else x.map fun v => fdiv v y

/-- A state that rises at once and falls when two visits in a row give the same lower state (R101). -/
def healthStep (cur last v : Nat) : Nat := if cur ≤ v then v else if last = v then v else cur

/-- The new states and IMP_HRES of an EC slot (R101). -/
def State.healthUpdate (s : State) (n k : Nat) (v : Visit) (stamp : Nat) : State :=
  let a := ra .imp n (0x140 + 4 * k)
  let hc := s.reg (ra .imp n 0x1C0)
  let rs0 := f32 (s.reg (ra .imp n (0x200 + 8 * k))).toNat
  let cdl0 := f32 (s.reg (ra .imp n (0x204 + 8 * k))).toNat
  let dry := fdivBy (some v.rs) rs0
  let poi := fdivBy v.cdl cdl0
  let noBase := rs0.m = 0 || cdl0.m = 0
  let rawD := match dry with
    | some x => if atLeast16 x (bits hc 8 8) then 2 else if atLeast16 x (bits hc 0 8) then 1 else 0
    | none => 0
  let rawP := match poi with
    | some x => if atMost16 x (bits hc 24 8) then 2 else if atMost16 x (bits hc 16 8) then 1 else 0
    | none => 0
  let rawD := if v.isOpen then 2 else if noBase then 0 else rawD
  let rawP := if v.isOpen then 2 else if noBase then 0 else rawP
  let last := kget (s.imp n).fall k (3, 3)
  let oldD := s.fld a 16 2
  let oldP := s.fld a 18 2
  let force := noBase && !v.isOpen
  let d := if force then 0 else healthStep oldD last.1 rawD
  let p := if force then 0 else healthStep oldP last.2 rawP
  let w := ratioField dry + ratioField poi * 2 ^ 8 + d * 2 ^ 16 + p * 2 ^ 18 + (if v.isOpen then 2 ^ 20 else 0) +
    (if noBase then 2 ^ 21 else 0)
  let s := s.setReg a (BitVec.ofNat 32 w)
  let s := s.setImp n { s.imp n with fall := kset (s.imp n).fall k (rawD, rawP) (3, 3) }
  let s := if d ≠ oldD || p ≠ oldP then s.stick .imp n 11 else s
  let s := s.observe ⟨.health n k 0, [d], stamp, noBase, false, 0⟩
  s.observe ⟨.health n k 1, [p], stamp, noBase, false, 0⟩

/-- The baseline of a slot is taken at the end of a visit (R102); of a BASE written during a visit it is that visit, which the
rule's "next complete visit" leaves open. DESIGN CHOICE (logs 19, 116). -/
def State.takeBase (s : State) (n k : Nat) (v : Visit) : State :=
  if (s.imp n).baseReq.contains k then
    let s := s.setReg (ra .imp n (0x200 + 8 * k)) (BitVec.ofNat 32 (f32Bits v.rs))
    let s := match v.cdl with
      | some c => s.setReg (ra .imp n (0x204 + 8 * k)) (BitVec.ofNat 32 (f32Bits c))
      | none => s.setReg (ra .imp n (0x204 + 8 * k)) (Config.freeValue (n * 32 + k))
    s.setImp n { s.imp n with baseReq := (s.imp n).baseReq.filter fun j => j ≠ k }
  else s

/-- Sums of windows of the next visit, which have come before the end of this one was commanded. -/
def State.impAhead (s : State) (n : Nat) : KMap LockSums :=
  let e := s.imp n
  (e.sums.filter fun (p : Nat × LockSums) => s.impPeriods n ≤ p.1).map fun (p : Nat × LockSums) => (p.1 - s.impPeriods n, p.2)

/-- IMP_VISIT_END (R97, R100): health, baseline, and the next slot. The health of the visit that gives a baseline is judged
against the baseline before it, of which R102 says nothing; a visit that gives no result, as it keeps fewer than half its
periods or has one tone, leaves a request for its baseline pending for a later visit. DESIGN CHOICE (log 116). -/
def execImpVisitEnd (n : Fin 24) (s : State) : Out :=
  let i := n.val
  let e := s.imp i
  .next (if !e.active ∨ e.per < s.impPeriods i then s
    else
      let at_ := s.impEnd i
      let k := e.slot
      let s :=
        if chanKind (s.impChan i) ≠ .ec ∨ s.fld (ra .imp i 0x040) 6 3 = 0 then s
        else if 2 * e.kept.length < s.fld (ra .imp i 0x040) 13 8 then
          (s.setImp i { e with fall := kset e.fall k (3, 3) (3, 3) }).orReg (ra .imp i (0x140 + 4 * k)) (bitW 22)
        else
          let v := s.visitResult i e.kept
          (s.healthUpdate i k v (at_ / 2 ^ 32)).takeBase i k v
      let s := s.impRemove i at_
      match s.nextSlot i k with
      | some j => s.impStart i j at_ (s.impAhead i)
      | none => s.impStop i)

/-- A write of IMP_CMD (R102). -/
def State.actImpCmd (s : State) (n : Nat) (v : Word) : State :=
  let e := s.imp n
  let ks := (if bit v 8 then [bits v 0 5] else []) ++
    (if bit v 9 then (s.slotsOn n).filter fun k => chanKind (s.slotChan n k) = .ec else [])
  s.setImp n { e with baseReq := e.baseReq ++ ks.filter fun k => !e.baseReq.contains k }

def execImpBase (a : Acc) (n : Fin 24) (slot : BitVec 5) (s : State) : Out :=
  .next (s.guarded a (ra .imp n.val 0x044) (BitVec.ofNat 32 (slot.toNat + 256)) fun s v => s.actImpCmd n.val v)

def execImpBaseAll (a : Acc) (n : Fin 24) (s : State) : Out :=
  .next (s.guarded a (ra .imp n.val 0x044) 512 fun s v => s.actImpCmd n.val v)

end Sys2Proof.Machine
end

