-- ==== Sys2Proof/Machine/Views.lean ====
section
/-! DEFINITION. What a register reads (R23): the status words that the device computes from its state, page by page; every
other word reads as it is stored. -/

namespace Sys2Proof.Machine

open Sys2Proof

/-- A number as a word. -/
def word (n : Nat) : Word := BitVec.ofNat 32 n

/-- A Boolean at a bit place. -/
def at1 (b : Bool) (n : Nat) : Nat := if b then 2 ^ n else 0

/-- A word with a bit per number that satisfies a condition. -/
def bitsOf (n : Nat) (p : Nat → Bool) : Nat := ((List.range n).map fun i => at1 (p i) i).sum

/-- A requester identifier's read of INT_SIDX has its own index (R344). -/
def State.sidxOf (s : State) (req : Nat) : Nat := kget s.acc.sidx req 0

/-! ### The page head -/

/-- BLK_STAT (R25, R26). -/
def State.blkStat (s : State) (page : Nat) : Word :=
  word (at1 (s.inService page) 0 + at1 (s.acc.snaps.any fun x => x.page = page) 1 + at1 (s.lockOf page).isSome 2 +
    at1 (s.inReset page) 3)

/-- BLK_LOCK as it reads. -/
def State.blkLock (s : State) (page : Nat) : Word :=
  match s.lockOf page with
  | none => 0
  | some l => word (2 ^ 29 + l.lease * 2 ^ 16 + l.holder)

/-! ### The mixed-signal die -/

/-- AFE_PSTAT of channel `c`. -/
def State.pstat (s : State) (c : Nat) : Word :=
  let p := s.port c
  let k := chanKind c
  word (s.rangeNow c % 16 + at1 (p.blanking && decide (s.tim.time < p.blankEnd)) 4 + at1 (p.ramping && k = .ec && !s.rampOver c) 5 + at1 p.fdis 6 + at1 (p.pol && k = .ax) 7 +
    (if k = .ec || k = .ax then encInt 12 p.mon * 2 ^ 16 else 0))

/-- IMP_STAT. -/
def State.impStat (s : State) (n : Nat) : Word :=
  match s.impVisit n s.tim.time with
  | some (k, _, first) =>
    word (k + ((s.tim.time - (s.imp n).start) / s.impPeriod n - first) % 256 * 32 + 2 ^ 13)
  | none => word ((s.imp n).slot + (s.imp n).per % 256 * 32)

/-- Codes of CNV_BSTAT.SPARE. -/
def spareCode : SpareSt → Nat
  | .free => 0 | .shadowing => 1 | .inUse => 2 | .failed => 3

/-- The comparison of some checked channel of the bank is suspended (CHK_SUSP, R113). -/
def State.chkSusp (s : State) (b : Nat) : Bool :=
  (s.maskOf b).any fun c => match s.partnerOf b c with
    | some p => s.checkSuspended b p c
    | none => false

/-- Some checked channel of the bank is in check fault. -/
def State.chkFault (s : State) (b : Nat) : Bool :=
  (s.maskOf b).any fun c => (s.check c).fault && (s.partnerOf b c).isSome

/-- CNV_BSTAT. -/
def State.bstat (s : State) (b : Nat) : Word :=
  let x := s.bank b
  word (s.modeNow b + x.role * 4 + at1 (s.parked b) 4 + spareCode x.spare * 32 + x.target * 128 + at1 x.degraded 11 +
    at1 (x.pairFault && x.role ≠ 0) 12 + at1 (s.chkFault b) 13 + at1 (s.chkSusp b) 14 +
    (if x.spare = .shadowing then satU 16 x.shadowMs * 2 ^ 16 else 0))

/-- CNV_SSTAT. -/
def State.sstat (s : State) (n : Nat) : Word :=
  let k := (s.maskOf n).length
  word (k % 1024 + ceilDiv k 16 % 64 * 1024 + ceilDiv k 16 * s.visitLen n % 16384 * 2 ^ 16 + at1 (s.scan n).gated 30)

/-- CNV_ALLOC_STAT. -/
def State.allocStat (s : State) : Word :=
  word (16 * s.capBanks.length % 512 + (s.leastSizes.map fun x => slicesOf x.2).sum % 512 * 2 ^ 16 +
    at1 ((List.range 64).any fun p => (s.place p).short) 31)

/-- CNV_APSTAT. -/
def State.apstat (s : State) (p : Nat) : Word :=
  let x := s.place p
  let e := s.portEntry p
  word (x.bank + x.first * 32 + x.size * 512 + x.act % 32 * 2 ^ 12 + at1 (e.en && e.pin) 17 + at1 x.throttled 18 +
    at1 x.short 19 + x.moves % 256 * 2 ^ 24)

/-- CNV_TAP: from the CKS edge of the clock tree, every eighth CKR cycle since the PLL locked, to the fabric-time CKS
grid, placed at the nearest tap of 2^-39 s (R139). -/
def State.tap (s : State) : Word :=
  let edge : Int := (s.tim.time : Int) - s.tim.ckr % 8 * s.tim.perCycle
  word ((((-edge) % (2 ^ 36 : Int)).toNat + 2 ^ 24) / 2 ^ 25 % 2048)

/-- CAL_BSTAT. -/
def State.calBstat (s : State) (b : Nat) : Word :=
  let x := s.bank b
  word (x.epoch % 256 + x.sc % 3 * 256 + x.scMs % 1024 * 1024 + at1 x.saved 20 + at1 (s.opPending b) 21)

/-- A state in CAL_EST. -/
def Trim.estCode (t : Trim) : Nat :=
  if t.est = .failed then 3 else if t.idle then 0 else if t.est = .converged then 2 else 1

/-- CAL_EST. -/
def State.calEst (s : State) (b k : Nat) : Word :=
  let c := s.sliceCal b k
  word (c.ofs.estCode + c.gain.estCode * 4 + c.dly.estCode * 16 + at1 (s.sliceConv b k) 6 + at1 c.scFail 7 +
    encInt 8 c.ofs.last * 2 ^ 16 + encInt 8 c.dly.last * 2 ^ 24)

/-- A trim page's word. -/
def State.trimView (s : State) (q off a : Nat) : Word :=
  if 0x040 ≤ off ∧ off < 0x050 then s.calBstat (4 * (q - 1) + (off - 0x040) / 4)
  else if 0x100 ≤ off ∧ off < 0x500 then
    let b := 4 * (q - 1) + (off - 0x100) / 0x100
    let k := off % 0x100 / 8
    if off % 8 = 0 then (s.sliceCal b k).word else s.calEst b k
  else s.reg a

/-! ### The stream processor and the alarm engine -/

/-- SPE_PSTAT. -/
def State.spePstat (s : State) (b : Nat) : Word :=
  let rs : Bool := match s.lake.replay with
    | some r => decide (r.pipe = b)
    | none => false
  let role := if rs then 3 else if s.pipeIdle b then 4 else (s.bank b).role
  let is := s.pipeStreams b
  let load := (is.map fun i => let r := s.streamRate i; if r = 0 then 0 else 2 ^ r).sum
  word (role + is.length * 8 + satU 19 (load / 2 ^ 16) * 2 ^ 13)

/-- A word of the stream-table control page. -/
def State.stbView (s : State) (off a : Nat) : Word :=
  if off = 0x04C then word (s.spe.f0 % 2 ^ 23 + at1 s.spe.tracking 24 + at1 s.spe.lost 25)
  else if off = 0x050 then
    word ((s.rows .stream 0).filter fun i => bit (s.eff (TableId.stream.addr i 0)) 0).length
  else if off = 0x058 then word (s.stream (s.fld (ra .stb 0 0x054) 0 12)).seqNo
  else if 0x100 ≤ off ∧ off < 0x410 then
    let n := off - 0x100
    word (encInt 32 (s.ncoef (10 + n / 0x70) (1 + n % 0x70 / 0x10) (n % 0x10 / 4)))
  else if 0xA00 ≤ off ∧ off < 0xA3C then word (encInt 24 (hbCoef ((off - 0xA00) / 4)))
  else s.reg a

/-- Codes of ALM_SQ_STAT.STATE. -/
def swCode : SwSt → Nat
  | .off => 0 | .pendOn => 1 | .on => 2 | .pendOff => 3

/-- A word of the ALM control page. -/
def State.almView (s : State) (off a : Nat) : Word :=
  let o := fun n => s.almOut n
  if off = 0x044 then
    word (bitsOf 16 (fun n => (o n).extLow) + at1 ((List.range 16).any fun n => (o n).fold || (o n).drvFail) 31)
  else if off = 0x048 then word (bitsOf 16 (fun n => (o n).level) + bitsOf 16 (fun n => (o n).driven) * 2 ^ 16)
  else if off = 0x04C then word (bitsOf 16 (fun n => (o n).drvFail) + bitsOf 16 (fun n => (o n).fold) * 2 ^ 16)
  else if off = 0x064 then
    let x := s.switch (s.fld (ra .alm 0 0x060) 0 11)
    word (swCode x.st + at1 x.fault 2 + at1 x.silent 3)
  else if off = 0x068 then word (encInt 32 (s.switch (s.fld (ra .alm 0 0x060) 0 11)).val)
  else if 0x140 ≤ off ∧ off < 0x160 then
    word (bitsOf 32 fun b => (s.rule ((off - 0x140) / 4 * 32 + b)).state)
  else if 0x160 ≤ off ∧ off < 0x180 then
    word (bitsOf 32 fun b => (s.rule ((off - 0x160) / 4 * 32 + b)).fault)
  else s.reg a

/-! ### Time, interrupts -/

/-- The four time words of an instant in 2^-64 s, and the milestone number. -/
def timeWord (t : Nat) (ms : Word) (off : Nat) : Word :=
  if off = 0x054 then ms else word (t / 2 ^ (8 * (off - 0x040)) % (if off = 0x04C then 2 ^ 16 else 2 ^ 32))

/-- A word of the TIM page, live; the NEWER bits of its pairs read 0 (R42). -/
def State.timView (s : State) (off a : Nat) : Word :=
  let t := s.tim
  if 0x040 ≤ off ∧ off ≤ 0x04C ∨ off = 0x054 then timeWord t.time (word t.msNum) off
  else if off = 0x058 then
    word (timCode t.st + at1 s.islandTime 2 + at1 t.adj.isSome 3 + at1 t.slewOn 4 + t.rootAddr * 2 ^ 16)
  else if off = 0x060 then word t.inc
  else if off = 0x064 then word (t.inc / 2 ^ 32)
  else if off = 0x078 then word (encInt 32 (sat32 (divOpen t.slewLeft (2 ^ 32))))
  else if off = 0x07C then word (t.edges + t.glitches * 2 ^ 16)
  else if off = 0x080 then word (t.tinTime / 2 ^ 32)
  else if off = 0x084 then word (t.tinTime / 2 ^ 64 % 2 ^ 31)
  else if off = 0x094 then t.msiMs
  else if off = 0x098 then word (t.msiInst / 2 ^ 32)
  else if off = 0x09C then word (t.msiInst / 2 ^ 64 % 2 ^ 31)
  else s.reg a

/-- A source is pending: alone or beside its activity (R334). -/
def Source.isPending (x : Source) : Bool := x.st = .pending || x.st = .activePending

/-- A source is active. -/
def Source.isActive (x : Source) : Bool := x.st = .active || x.st = .activePending

/-- INT_SCFG of the source that a requester's INT_SIDX names (R344). -/
def State.scfg (s : State) (n : Nat) : Word :=
  if sourceExists n then ((s.source n).cfg &&& 0xFFFFFFEF) ||| word (at1 (s.isFast n) 4) else 0

/-- The condition of a source as INT_RAW shows it. -/
def State.rawCond (s : State) (n : Nat) : Bool := sourceExists n && s.condOf n (s.source n).cond

/-- A word of the normal INT page. -/
def State.intNView (s : State) (req off a : Nat) : Word :=
  if off = 0x044 then word (s.sidxOf req)
  else if off = 0x048 then s.scfg (s.sidxOf req)
  else if off = 0x04C then word s.fastList.length
  else if 0x080 ≤ off ∧ off < 0x180 ∧ off % 16 = 12 then
    let t := (off - 0x080) / 16
    word ((s.activeOn t).length + (s.heldOn t).length * 2 ^ 11)
  else if 0x180 ≤ off ∧ off < 0x1C0 then s.claimWord ((off - 0x180) / 4) false
  else if 0x200 ≤ off ∧ off < 0x280 then word (bitsOf 32 fun b => (s.source ((off - 0x200) / 4 * 32 + b)).isPending)
  else if 0x280 ≤ off ∧ off < 0x300 then word (bitsOf 32 fun b => (s.source ((off - 0x280) / 4 * 32 + b)).isActive)
  else if 0x300 ≤ off ∧ off < 0x380 then word (bitsOf 32 fun b => s.rawCond ((off - 0x300) / 4 * 32 + b))
  else s.reg a

/-- A word of the fast-class bank. -/
def State.intFView (s : State) (off a : Nat) : Word :=
  if 0x040 ≤ off ∧ off < 0x080 then s.claimWord ((off - 0x040) / 4) true
  else if 0x100 ≤ off ∧ off < 0x180 then
    word (bitsOf 32 fun b => let n := (off - 0x100) / 4 * 32 + b; (s.source n).isPending && s.isFast n)
  else if 0x180 ≤ off ∧ off < 0x200 then
    word (bitsOf 32 fun b => let n := (off - 0x180) / 4 * 32 + b; (s.source n).isActive && s.isFast n)
  else s.reg a

/-! ### The fabric, the lake, tenants, security, glazes -/

/-- A word of a Quevex port page. -/
def State.fabPortView (s : State) (p off a : Nat) : Word :=
  let v := s.fport p
  if off = 0x044 then
    word (portCode v.st + widthCode v.width * 8 + v.lanes.toNat * 32 + at1 (s.fab.parent = some p) 9 +
      (v.peer.getD 0) * 2 ^ 16 + at1 v.peer.isSome 30)
  else if off = 0x054 then word (s.admitted p % 2 ^ 16 + tc2Limit v.width % 2 ^ 16 * 2 ^ 16)
  else if off = 0x060 then word v.peerUid
  else if off = 0x064 then word (v.peerUid / 2 ^ 32)
  else s.reg a

/-- Open sessions that satisfy a condition. -/
def State.openSessions (s : State) (p : Session → Bool) : Nat :=
  (s.fab.sessions.filter fun x => x.st = .open_ && p x).length

/-- A word of the router page. DEDUCED (log 88). -/
def State.fabRouterView (s : State) (off a : Nat) : Word :=
  if off = 0x048 then
    word (s.openSessions (fun _ => true) +
      (s.fab.sessions.filter fun (x : Session) => x.st = .dropped).length * 2 ^ 12 +
      at1 (s.fab.sessions.any fun x => x.asked) 24)
  else s.reg a

/-- A word of the discovery page. -/
def State.fabDiscView (s : State) (off a : Nat) : Word :=
  if off = 0x044 then
    word (s.fab.addr.getD 0 + at1 s.fab.addr.isSome 14 + (s.fab.parent.getD 0) * 2 ^ 16 + at1 s.fab.parent.isSome 19 +
      min s.fab.hops 63 * 2 ^ 20 + at1 (s.fab.parted || (s.tim.member && s.tim.rootIsland) || (s.tim.st = .root && s.tim.islandRoot)) 26)
  else if off = 0x048 then word (s.fab.map.length + (if s.fab.addr.isSome then 1 else 0))
  else s.reg a

/-- Codes of LAK_CAP_STAT.STATE. -/
def capCode : CapSt → Nat
  | .idle => 0 | .armed => 1 | .post => 2 | .copying => 3

/-- A word of the LAK page. -/
def State.lakView (s : State) (off a : Nat) : Word :=
  let l := s.lake
  if off = 0x04C then word (satU 16 (s.shareOf 255 - s.slotsUsed 255) + satU 16 s.rfree * 2 ^ 16)
  else if off = 0x050 then word (l.ext % 2 ^ 16 + l.ringNow * 2 ^ 16)
  else if off = 0x054 ∨ off = 0x058 then
    match l.holders.find? fun h => h.1 = (off - 0x054) / 4 with
    | some h => word (h.2.1 + 2 ^ 14)
    | none => 0
  else if off = 0x098 then
    word (capCode l.capSt + bitsOf 8 (fun i => l.captures.any fun c => c.idx = i) * 2 ^ 8 + l.missed % 2 ^ 16 * 2 ^ 16)
  else if off = 0x0B0 then word (l.replayStatus + l.replayPipe * 8)
  else if off = 0x0B4 then word (satU 16 s.conflicts)
  else s.reg a

/-- A word of the SEC page. -/
def State.secView (s : State) (off a : Nat) : Word :=
  if off = 0x040 then word s.uid
  else if off = 0x044 then word (s.uid / 2 ^ 32)
  else if off = 0x04C then
    word (at1 (s.sec.busy ≠ 0) 0 + s.sec.result * 2 + at1 (s.flash.nOwners ≠ 0) 4 + s.flash.nOwners * 2 ^ 8 +
      s.sec.len * 2 ^ 16)
  else if off = 0x050 then
    word (s.openSessions (fun x => x.role = .owner) + s.openSessions (fun x => x.role ≠ .owner) * 2 ^ 12)
  else s.reg a

/-- Tenants enabled by the entries in force. -/
def State.tenantsInForce (s : State) : List Nat := rangeFilter 128 fun t => bit (s.ten t 0) 0

/-- A word of the TEN page. -/
def State.tenView (s : State) (off a : Nat) : Word :=
  if off = 0x04C then
    let ts := s.tenantsInForce
    word ((ts.map fun t => bits (s.ten t 1) 0 9).sum % 512 +
      satU 16 (ts.map fun t => s.tabFld .tenant t 2 0 16).sum * 2 ^ 16)
  else if 0x050 ≤ off ∧ off < 0x060 then word (bitsOf 32 fun b => bit (s.ten ((off - 0x050) / 4 * 32 + b) 0) 0)
  else s.reg a

/-- A word of a TEN_STAT page. -/
def State.tenStatView (s : State) (t off a : Nat) : Word :=
  let own := fun (x : Session) => decide (∃ h : t < 128, x.role = .tenant ⟨t, h⟩)
  if off = 0x048 then word (satU 16 (s.slotsUsed t) + s.quotaNow t * 2 ^ 16)
  else if off = 0x04C then
    word (s.openSessions own + ((s.fab.sessions.filter own).map fun (x : Session) => x.subs.length).sum * 2 ^ 16)
  else if off = 0x054 then
    word (s.tenantSlices t s.leastSizes % 512 +
      s.tenantSlices t (s.placedPorts.map fun p => (p, (s.place p).size)) % 512 * 2 ^ 16)
  else if off = 0x058 then
    word (satU 16 (((List.range 8).map fun p => s.tenantSlots p t).foldl max 0) + (s.tc2max t).getD 0 * 2 ^ 16)
  else if off = 0x05C then
    word (s.fld a 0 16 + at1 (s.acc.dirty.any fun d => d.table = .tenant && d.idx = t) 16)
  else s.reg a

/-- A word of the GLZ page. -/
def State.glzView (s : State) (off a : Nat) : Word :=
  let g := s.glz
  if off = 0x044 then word g.loaded.toNat
  else if off = 0x048 then word (g.loaded.toNat / 2 ^ 32)
  else if off = 0x04C then
    match g.refused with
    | some (d, r, i) => word (d + r * 2 ^ 8 + 2 ^ 12 + i % 2 ^ 16 * 2 ^ 16)
    | none => 0
  else if off = 0x050 then word (g.nowId + at1 g.nowLate 16)
  else if off = 0x054 then word g.nowMs
  else if off = 0x058 then word g.nowChg
  else if off = 0x05C then
    match g.pend with
    | some c => word (c.id + 2 ^ 16)
    | none => 0
  else if off = 0x060 then
    match g.pend with
    | some c => word c.target
    | none => 0
  else if off = 0x064 then word (at1 g.busy 0)
  else s.reg a

/-! ### Power, heat, updates, host ports -/

/-- A word of the PWR page. -/
def State.pwrView (s : State) (off a : Nat) : Word :=
  if off = 0x054 then
    word (pwrCode s.pwr.st + s.pwr.refuse * 8 + encInt 10 s.pwr.temp * 2 ^ 8 + at1 s.pwr.lowPower 18)
  else s.reg a

/-- A word of the THM page. -/
def State.thmView (s : State) (off a : Nat) : Word :=
  let h := s.thm
  if off = 0x048 then word (at1 h.pending 0 + at1 h.enforced 1 + h.grace % 2 ^ 16 * 2 ^ 16)
  else if off = 0x050 then word (bitsOf 24 fun k => s.sensorBad k)
  else if 0x0C0 ≤ off ∧ off < 0x0F0 then
    let r := (off - 0x0C0) / 4
    word (encInt 12 (s.regionNow r) + at1 (h.warnNow.getLsbD r) 12 + at1 (h.thrNow.getLsbD r) 13 +
      at1 (h.fastRise.getLsbD r) 14 + at1 (h.slowRise.getLsbD r) 15 + at1 (h.hard.getLsbD r) 16)
  else if 0x100 ≤ off ∧ off < 0x160 then
    let k := (off - 0x100) / 4
    word (encInt 12 (kget h.sread k 0) + at1 (s.sensorBad k) 12 + at1 (s.sensorOut k) 13)
  else s.reg a

/-- Codes of UPD_STAT.STATE. -/
def updCode : UpdSt → Nat
  | .idle => 0 | .downloading => 1 | .verifying => 2 | .verified => 3 | .activating => 4 | .trial => 5 | .recovery => 6

/-- A word of the UPD page. -/
def State.updView (s : State) (off a : Nat) : Word :=
  let u := s.upd
  let act := s.flash.slot s.activeSlot
  let other := s.flash.slot (!s.activeSlot)
  let known := other.marker = .verified
  if off = 0x04C then
    word (updCode u.st + at1 (u.busy ≠ 0) 3 + u.result * 16 + at1 s.activeSlot 7 +
      ((s.bootRec.map fun r => if r.trial then min r.starts 3 else 0).getD 0) * 256)
  else if off = 0x050 then word (u.msLeft % 2 ^ 20)
  else if off = 0x054 then word act.header.version
  else if off = 0x058 then word (if known then other.header.version else 0)
  else if off = 0x05C then word (act.header.svn % 2 ^ 16 + (if known then other.header.svn else 0) % 2 ^ 16 * 2 ^ 16)
  else if off = 0x060 then word ((s.bootRec.map (·.seqNo)).getD 0)
  else if off = 0x064 then word (u.holder.getD 0)
  else s.reg a

/-- A word of the tag-bus page (R396). -/
def State.tagView (s : State) (off a : Nat) : Word :=
  let sel := s.reg (ra .tag 0 0x048)
  let x := (s.tag (bits sel 0 4)).ids[bits sel 4 5]?
  if off = 0x04C then word (match x with
    | some y => 1 + at1 y.2 1
    | none => 0)
  else if off = 0x050 then word (match x with
    | some y => y.1
    | none => 0)
  else if off = 0x054 then word (match x with
    | some y => y.1 / 2 ^ 32
    | none => 0)
  else if off = 0x058 then word (at1 s.hst.tagActive.isSome 0 + s.hst.mresult * 2)
  else if 0x080 ≤ off ∧ off < 0x0C0 then
    let t := s.tag ((off - 0x080) / 4)
    word (t.result + t.ids.length * 8 + at1 t.overflow 9 + t.searches * 2 ^ 10 + t.restarts * 2 ^ 14)
  else s.reg a

/-- A word of the PCI Express page. -/
def State.pciView (s : State) (off a : Nat) : Word :=
  if off = 0x040 then word (s.hst.speed + s.hst.width * 8)
  else if off = 0x058 then word s.hst.txHead
  else if off = 0x070 then word s.hst.rxTail
  else s.reg a

/-! ### Any register -/

/-- A word of a page's body. -/
def State.bodyView (s : State) (req : Nat) (k : PageKind) (inst off a : Nat) : Word :=
  match k with
  | .seq => if off = 0x040 then word s.flagsNext.toNat else if off = 0x044 then word (s.flagsNext.toNat / 2 ^ 32)
            else s.reg a
  | .cal0 => if 0x400 ≤ off then word (s.factory off 4) else s.reg a
  | .calTrim => s.trimView inst off a
  | .cal7 => if off = 0x050 then word (bitsOf 24 fun b => (s.bank b).sc % 3 ≠ 0) else s.reg a
  | .afeEc | .afeMs | .afeFp | .afeAx =>
    if off % 16 = 8 ∧ off < 0x140 then s.pstat (afeBase k inst + (off - 0x040) / 16) else s.reg a
  | .htr =>
    let e := inst * 16 + (off - 0x040) / 32
    if off < 0x240 ∧ off % 32 = 0x10 then word (s.estat e)
    else if off < 0x240 ∧ off % 32 = 0x14 then word (s.emeas e)
    else s.reg a
  | .imp =>
    if off = 0x048 then s.impStat inst
    else if 0x140 ≤ off ∧ off < 0x1C0 ∧ chanKind (s.slotChan inst ((off - 0x140) / 4)) ≠ .ec then 0
    else s.reg a
  | .bank =>
    if off = 0x044 then s.bstat inst
    else if 0x080 ≤ off ∧ off < 0x0C4 then
      s.reg a ||| word (at1 ((s.bank inst).retired = some ((off - 0x080) / 4)) 3)
    else s.reg a
  | .alloc =>
    if off = 0x048 then s.allocStat
    else if 0x200 ≤ off ∧ off < 0x300 then s.apstat ((off - 0x200) / 4)
    else if 0x300 ≤ off ∧ off < 0x360 then s.tap
    else s.reg a
  | .scan => if off = 0x08C then s.sstat inst else s.reg a
  | .pipe => if off = 0x040 then s.spePstat inst else s.reg a
  | .stb => s.stbView off a
  | .alm => s.almView off a
  | .tim => s.timView off a
  | .intN => s.intNView req off a
  | .intF => s.intFView off a
  | .fabPort => s.fabPortView inst off a
  | .fabRouter => s.fabRouterView off a
  | .fabDisc => s.fabDiscView off a
  | .lak => s.lakView off a
  | .sec => s.secView off a
  | .ten => s.tenView off a
  | .tenStat => s.tenStatView inst off a
  | .glz => s.glzView off a
  | .pwr => s.pwrView off a
  | .thm => s.thmView off a
  | .upd => s.updView off a
  | .tag => s.tagView off a
  | .pci => s.pciView off a
  | .i2c => if off = 0x040 then word (s.hst.i2cAddr + at1 s.hst.i2cBusy 7) else s.reg a
  | .sys | .afeIn | .flash | .lpddr | .gpio => s.reg a

/-- The live value of a word of the privileged space for a requester (R23, R44): reserved offsets read 0 (R32). -/
def State.view (s : State) (req a : Nat) : Word :=
  match pageOf (a / 0x1000) with
  | none => s.reg a
  | some (k, inst) =>
    let off := a % 0x1000
    if off = 0x00C then s.blkStat (a / 0x1000)
    else if off = 0x018 then s.blkLock (a / 0x1000)
    else if off < 0x040 ∨ (addrFields a).isEmpty then s.reg a
    else s.bodyView req k inst off a

end Sys2Proof.Machine
end

