-- ==== Sys2Proof/Machine/Tables.lean ====
section
/-! DEFINITION. Tables under R44 to R46 and R424: staging images of entries, the checks of an entry (R142, R191, R200,
R305), swaps, and what a swapped entry does at its milestone (R192, R199, R306, R312). -/

namespace Sys2Proof.Machine

open Sys2Proof

/-! ### Images -/

/-- The bits of a table word that its entry table defines; every other bit is reserved. -/
def tableMask (t : TableId) (w : Nat) : Nat :=
  let all := 2 ^ 32 - 1
  match t with
  | .slice => match w with
    | 0 => 0xFF1F7777 | 1 => 0xFFFFFF | 2 => 0xFFFF3FFF | 3 => 0xFF1F1F | _ => 0
  | .stream => match w with
    | 0 => 0xFFFFFF | 1 => 0x7FFFF | 2 | 5 | 7 => all | 3 => 0x0FFFFF3F | 4 => 0x7F1F00FF | 6 => 0xFFFFF
    | 8 => 0xFFFFFF | 12 => 0xFFFFFF01 | 14 => 1 | _ => 0
  | .tenant =>
    if w = 0 then 0xFF03 else if w = 1 then 0x1FF else if w = 2 ∨ w = 4 ∨ w = 5 then all else if w = 3 then 0xFFF
    else if 8 ≤ w ∧ w < 24 then all else if 24 ≤ w ∧ w < 31 then 0x3FFF3FFF else if w = 31 then 0x3FFF
    else if 32 ≤ w ∧ w < 44 then all else if 128 ≤ w then all else 0
  | .routing => match w with
    | 0 => 0xFFFF | 1 => all | _ => 0
  | .switch => if w = 0 then 0x3FFFFFFF else all
  | .rule => if w = 0 then 0x3FF else all

/-- A write to a table word changes the staging image of its entry (R44). -/
def State.imageWrite (s : State) (t : TableId) (i a : Nat) (v : Word) : State :=
  let same := fun (d : DirtyEntry) => d.table = t ∧ d.idx = i
  let images := if s.reg a = v then kdel s.acc.images a else kins s.acc.images a v
  let rest := s.acc.dirty.filter fun d => !(same d)
  { s with acc := { s.acc with images := images, dirty := rest ++ [⟨t, i, 0⟩] } }

/-- The words of an entry's image that differ from the entry in force. -/
def State.imageOf (s : State) (t : TableId) (i : Nat) : KMap Word :=
  s.acc.images.filter fun p => t.addr i 0 ≤ p.1 && p.1 < t.addr (i + 1) 0

/-- The entry's image holds writes not yet swapped in. -/
def State.isDirty (s : State) (t : TableId) (i : Nat) : Bool := s.acc.dirty.any fun d => d.table = t && d.idx = i

/-- The image becomes a copy of the entry in force again. -/
def State.cleanImage (s : State) (t : TableId) (i : Nat) : State :=
  { s with acc := { s.acc with
    images := s.acc.images.filter fun p => !(t.addr i 0 ≤ p.1 && p.1 < t.addr (i + 1) 0)
    dirty := s.acc.dirty.filter fun d => !(d.table = t && d.idx = i) } }

/-- The table with an entry's image in place of the entry in force. -/
def State.candidate (s : State) (t : TableId) (i : Nat) : State :=
  let s' := s.each (s.imageOf t i) fun s p => s.setReg p.1 p.2
  if t = .slice ∧ !s.acc.placed.contains i then { s' with acc := { s'.acc with placed := s'.acc.placed ++ [i] } } else s'

/-- Some reserved bit of an entry is 1. DEDUCED (log 71). -/
def State.badReserved (s : State) (t : TableId) (i : Nat) : Bool :=
  (List.range t.words).any fun w => s.reg (t.addr i w) &&& ~~~ (word (tableMask t w)) ≠ 0

/-! ### The check of a stream-table entry (R191) -/

/-- A tenant may use the source of a stream (R191, reason 6), by its entry as `ten` gives it. -/
def mayUse (ten : Nat → Word) (kind : Nat) (chan : Option Nat) : Bool :=
  bit (ten 0) 0 && (5 ≤ kind || (match chan with
    | some c => bit (ten (8 + c / 32)) (c % 32)
    | none => false))

/-- The channel that decides a tenant's permission: the source channel, or the target channel of the slot. -/
def State.permChan (s : State) (i : Nat) : Option Nat :=
  if s.sKind i = 4 then some (s.slotChan (s.sSrc i / 32) (s.sSrc i % 32)) else s.sChan i

/-- A reserved encoding stands in the entry; HYS above THR counts as one. DESIGN CHOICE (log 148). -/
def State.streamBad (c : State) (i : Nat) : Bool :=
  let k := c.sKind i
  let t := c.sf i 0 16 8
  let src := c.sSrc i
  let j := c.sJ i
  c.badReserved .stream i || k = 0 || k = 7 || (128 ≤ t && t ≤ 254) || (k = 4 && 768 ≤ src) ||
    (k = 5 && 256 ≤ src && src ≠ 1023) || (k = 6 && src ≠ 0 && src ≠ 1023) || (k ≤ 3 && 512 ≤ src) || 34 ≤ c.sRate i ||
    10 ≤ c.sf i 3 24 4 || (15 ≤ c.sf i 3 16 8 && c.sf i 3 16 8 ≤ 127) || ((k = 2 || k = 3) && (decide (j < -10) || decide (12 < j))) ||
    (k = 3 && c.sf i 7 0 16 < c.sf i 7 16 16) || (c.isTc2 i && c.sf i 12 8 24 = 0)

/-- The input rates of a stream's source to be checked: of a fast port at every size that its allocation entry allows, of
a held channel the rate in force; none where the channel has no source. -/
def State.checkRates (c : State) (i : Nat) : List Nat :=
  match c.sChan i with
  | none => []
  | some ch =>
    if c.fastSource ch then
      let e := c.portEntry (ch - 384)
      (List.range (e.hi + 1 - e.lo)).map fun k => sizeRate (e.lo + k)
    else match c.streamBank i with
      | some b => let r := c.chanRate ch b; if r = 0 then [] else [r]
      | none => []

/-- The rate at which a stream counts for the load of its pipeline: a fast port at its MAX size. -/
def State.loadOf (c : State) (i : Nat) : Nat :=
  let r := (c.checkRates i).foldl max 0
  if r = 0 then 0 else 2 ^ r

/-- The streams enabled on a pipeline by the entries in force. -/
def State.loadOn (c : State) (b : Nat) : Nat :=
  (((c.rows .stream 0).filter fun i => c.sf i 0 0 1 = 1 && c.streamBank i = some b).map c.loadOf).sum

/-- The reason for which an entry is refused, 0 for none: `c` is the table as the entry would leave it. A load is that
of enabled streams, and judges an entry that adds to it. DEDUCED (logs 71, 78). Of several reasons the lowest number is recorded.
DESIGN CHOICE (log 147). -/
def State.streamReason (c : State) (i : Nat) : Nat :=
  let k := c.sKind i
  let ro := c.sRate i
  let t := c.sf i 0 16 8
  let rates := c.checkRates i
  let en := c.sf i 0 0 1 = 1
  let nen := c.sf i 1 11 1 = 1
  let limit := match c.streamBank i with
    | some b => if (c.bank b).role = 1 then 2 ^ 34 else 2 ^ 33
    | none => 2 ^ 34
  let over_ : Bool := match c.streamBank i with
    | some b => decide (limit < c.loadOn b)
    | none => false
  if c.streamBad i then 1
  else if k ≤ 3 ∧ (rates.any fun r => r < ro || ro + 18 < r) then 2
  else if k ≤ 3 ∧ nen ∧ (c.sf i 1 6 5 < 10 ∨ 16 < c.sf i 1 6 5 ∨ (rates.any fun r => !c.notchReach i r)) then 3
  else if en ∧ k ≤ 3 ∧ over_ then 4
  else if (k = 2 ∨ k = 3) ∧ 31 ≤ c.sJ i + ro then 5
  else if t < 128 ∧ !mayUse (c.ten t) k (c.permChan i) then 6
  else 0

/-- Values in a record of a stream (R190): the longest where their number varies. -/
def State.valuesOf (c : State) (i : Nat) : Nat :=
  match c.sKind i with
  | 1 => 2 ^ c.sf i 3 24 4
  | 2 =>
    let m := c.sf i 4 0 8
    let d := min (((c.checkRates i).foldl max 0) - c.sRate i) 6
    ((List.range 6).map fun b => m / 2 ^ b % 2).sum + (if m / 64 % 2 = 1 then d else 0) + m / 128 % 2 * 2
  | 3 => 36
  | 4 => 2 * (c.tones (c.sSrc i / 32)).length
  | 5 => 5
  | _ => 7

/-! ### The checks of switch and rule entries (R200) -/

/-- A field of a switch or rule in force. -/
def State.swf (s : State) (i w lsb width : Nat) : Nat := s.tabFld .switch i w lsb width
def State.ruf (s : State) (r w lsb width : Nat) : Nat := s.tabFld .rule r w lsb width

/-- Observations per second of a stream switch in 2^-12. -/
def State.obsRate (c : State) (i : Nat) : Nat :=
  let st := c.swf i 1 0 12
  if c.sKind st = 1 then 2 ^ (12 + c.sRate st) else 2 ^ (12 - c.sJ st).toNat

/-- The members of a rule in force. -/
def State.membersIn (s : State) (r : Nat) : List Nat :=
  membersOf (memberField (s.reg (TableId.rule.addr r 1)) (s.reg (TableId.rule.addr r 2)) (s.reg (TableId.rule.addr r 3)))

/-- The bits of word 1 of a switch that its KIND defines. -/
def sourceBits (kind : Nat) : Nat := match kind with
  | 0 => 0x1FFFFF | 1 => 0x11F1F | _ => 0xFF3FFF

/-- The reason for which a switch entry is refused; `s` holds the old entry, `c` the new one. -/
def State.switchReason (s c : State) (i : Nat) : Nat :=
  let kind := c.swf i 0 1 2
  let en := c.swf i 0 0 1 = 1
  let sil := c.swf i 0 24 5
  let w1 := (c.reg (TableId.switch.addr i 1)).toNat
  let st := c.swf i 1 0 12
  let set := sext 32 (c.reg (TableId.switch.addr i 2)).toNat
  let clr := sext 32 (c.reg (TableId.switch.addr i 3)).toNat
  let on := (c.rows .switch 0).filter fun n => c.swf n 0 0 1 = 1 && c.swf n 0 1 2 = 0
  if kind = 3 ∨ (21 ≤ sil ∧ sil ≤ 30) ∨ c.badReserved .switch i ∨ Nat.land w1 (sourceBits kind) ≠ w1 ∨
      (kind = 1 ∧ 24 ≤ w1 % 32) then 1
  else if kind = 0 ∧ (c.sf st 0 0 1 = 0 ∨ c.sf st 0 16 8 ≠ 0xFF ∨ 20 < c.sRate st ∨
      c.valuesOf st < c.swf i 1 12 9 + 1) then 2
  else if (c.swf i 0 3 1 = 0 ∧ set < clr) ∨ (c.swf i 0 3 1 = 1 ∧ clr < set) then 3
  else if en ∧ kind = 0 ∧ 2 ^ 40 < (on.map c.obsRate).sum then 4
  else if !en ∧ s.swf i 0 0 1 = 1 ∧
      ((s.rows .rule 0).any fun r => s.ruf r 0 0 1 = 1 && (s.membersIn r).contains i) then 6
  else 0

/-- The reason for which a rule entry is refused. -/
def State.ruleReason (c : State) (r : Nat) : Nat :=
  let ms := c.membersIn r
  if c.badReserved .rule r then 1
  else if ms.length < ruleK (c.reg (TableId.rule.addr r 0)) ∨ (ms.any fun m => c.swf m 0 0 1 = 0) then 5
  else 0

/-! ### The check of a tenant entry (R305) -/

/-- A tenant window may map pages of these kinds (R307). -/
def mayMap : PageKind → Bool
  | .afeEc | .afeMs | .afeFp | .afeAx | .htr | .pipe | .seq | .tim | .intN | .intF => true
  | _ => false

/-- The pages of the VALID window pages of a tenant's entry. -/
def State.winPages (c : State) (t : Nat) : List Nat :=
  (List.range 15).filterMap fun i =>
    let h := bits (c.ten t (24 + i / 2)) (i % 2 * 16) 16
    if h / 8192 % 2 = 1 then some (h % 4096) else none

/-- No number of a list stands in it twice. -/
def distinct : List Nat → Bool
  | [] => true
  | x :: t => !t.contains x && distinct t

/-- A tenant's KEYHASH. -/
def State.keyOf (c : State) (t : Nat) : Nat := ((List.range 12).map fun k => (c.ten t (32 + k)).toNat * 2 ^ (32 * k)).sum

/-- The reason for which a tenant entry is refused. -/
def State.tenantReason (c : State) (t : Nat) : Nat :=
  let en := bit (c.ten t 0) 0
  let on := c.tenantsInForce
  let share := bits (c.ten t 1) 0 9
  let ps := c.winPages t
  if c.badReserved .tenant t ∨ bits (c.ten t 0) 8 8 = 0 ∨ 256 < share ∨ 32768 < bits (c.ten t 2) 16 16 ∨
      (en ∧ bits (c.ten t 2) 0 16 = 0) then 1
  else if (ps.any fun p => match pageOf p with
      | some (k, _) => !mayMap k
      | none => true) ∨ !distinct ps then 2
  else if share < c.tenantSlices t c.leastSizes ∨ 256 < (on.map fun x => bits (c.ten x 1) 0 9).sum then 3
  else if c.ownSpace < (on.map fun x => bits (c.ten x 2) 0 16).sum + 2 then 4
  else if en ∧ (c.keyOf t = 0 ∨ (on.any fun x => x ≠ t && c.keyOf x = c.keyOf t)) then 5
  else 0

/-! ### Swaps (R424) -/

/-- A refusal, recorded as the table's rule states. -/
def State.refuseEntry (s : State) (t : TableId) (i reason : Nat) : State :=
  match t with
  | .stream => (s.setReg (ra .stb 0 0x044) (word (i + reason * 2 ^ 12 + 2 ^ 31))).stick .stb 0 8
  | .switch => (s.setReg (ra .alm 0 0x05C) (word (i + reason * 2 ^ 12 + 2 ^ 31))).stick .alm 0 26
  | .rule => (s.setReg (ra .alm 0 0x05C) (word (i + 2 ^ 11 + reason * 2 ^ 12 + 2 ^ 31))).stick .alm 0 26
  | .tenant => (s.setReg (ra .ten 0 0x048) (word (i + reason * 2 ^ 8 + 2 ^ 31))).stick .ten 0 8
  | .slice => s.stick .alloc 0 reason
  | .routing => s

/-- The reasons for which the image of an entry is refused (of the allocation table: the sticky bits). -/
def State.entryReasons (s : State) (t : TableId) (i : Nat) : List Nat :=
  let c := s.candidate t i
  let c := { c with acc := { c.acc with effective := [] } }
  let one := fun (r : Nat) => if r = 0 then [] else [r]
  match t with
  | .stream => one (c.streamReason i)
  | .switch => one (s.switchReason c i)
  | .rule => one (c.ruleReason i)
  | .tenant => one (c.tenantReason i)
  | .slice => if c.badReserved .slice i then [3] else c.sliceRefusals i
  | .routing => []

/-- The entry takes effect at a milestone: until then its old words act (R192, R199, R306). -/
def hasMilestone : TableId → Bool
  | .stream | .switch | .rule | .tenant => true
  | .routing | .slice => false

/-- The old words of an entry go on in effect until its milestone. -/
def State.keepEffective (s : State) (t : TableId) (i : Nat) : State :=
  let ws := (s.imageOf t i).map (·.1)
  let add := fun (m : KMap Word) (a : Nat) => kins m a (s.eff a)
  { s with acc := { s.acc with
    effective := ws.foldl add s.acc.effective
    swapped := (s.acc.swapped.filter fun x => !(x.1 = t ∧ x.2 = i)) ++ [(t, i)] } }

/-- The image is swapped in whole (R46). -/
def State.swapIn (s : State) (t : TableId) (i : Nat) : State :=
  let s' := if hasMilestone t then s.keepEffective t i else s
  let s' := if s'.glz.under.isEmpty then s'
    else s'.upTo t.words fun s w => s.noteUnder (t.addr i w) allOnes (kget s.acc.images (t.addr i w) (s.reg (t.addr i w)))
  let s' := (s'.candidate t i).cleanImage t i
  match t with
  | .tenant => s'.countWrap (ra .tenStat i 0x05C) 0 16 1
  | .routing => (s'.upTo 8 fun s w => s.setReg (t.addr i w) (s.reg (t.addr i w) &&& word (tableMask t w))).deliverPending
  | _ => s'

/-- An entry is checked and swapped in, or refused and its image discarded (R424). An image without unswapped writes is
a copy of the entry in force and is checked and swapped like any other (R44). -/
def State.swapEntry (s : State) (t : TableId) (i : Nat) : State :=
  let rs := s.entryReasons t i
  if rs.isEmpty then s.swapIn t i else (s.each rs fun s r => s.refuseEntry t i r).cleanImage t i

/-- Insertion into a rising list. -/
def natIns (n : Nat) : List Nat → List Nat
  | [] => [n]
  | m :: t => if n ≤ m then n :: m :: t else m :: natIns n t

/-- The entries of a table whose images hold writes, ascending. -/
def State.dirtyOf (s : State) (t : TableId) : List Nat :=
  ((s.acc.dirty.filter fun d => d.table = t).map (·.idx)).foldl (fun l n => natIns n l) []

/-- An INVALIDATE acts on one entry, or on all (R424). -/
def State.runInvalidate (s : State) (t : TableId) (idx : Option Nat) : State :=
  match idx with
  | some i => s.swapEntry t i
  | none => s.each (s.dirtyOf t) fun s i => s.swapEntry t i

/-- A write of an INVALIDATE register: an index beyond the table sets BAD_ENC; while the supervisor does not run, the
write waits. -/
def State.actInvalidate (s : State) (t : TableId) (v : Word) : State :=
  let all := bit v 31
  let i := bits v 0 14
  if !all ∧ t.count ≤ i then s.stickPage t.page 3
  else if !s.sup.running then
    { s with acc := { s.acc with waiting := s.acc.waiting ++ [(t, if all then none else some i)] } }
  else s.runInvalidate t (if all then none else some i)

def execInvalidate (a : Acc) (t : TableId) (idx : BitVec 14) (s : State) : Out :=
  .next (s.guarded a (t.page * 0x1000 + t.invOff) (word idx.toNat) fun s v => s.actInvalidate t v)

def execInvalidateAll (a : Acc) (t : TableId) (s : State) : Out :=
  .next (s.guarded a (t.page * 0x1000 + t.invOff) (word (2 ^ 31)) fun s v => s.actInvalidate t v)

/-- An entry that was written and not invalidated is swapped in at the milestone emitted last (R45). -/
def State.autoSwap (s : State) (t : TableId) (i : Nat) : State :=
  let s := s.swapEntry t i
  { s with acc := { s.acc with autoSwaps := (s.acc.autoSwaps.filter fun x => x.1 ≠ t) ++ [(t, i)] } }

/-- An automatic swap may follow at this milestone: entries of one table go in ascending index (R45). -/
def State.mayAutoSwap (s : State) (t : TableId) (i : Nat) : Bool :=
  s.sup.running && s.pwr.live && s.isDirty t i && s.atMilestone && s.acc.autoSwaps.all fun x => x.1 ≠ t || decide (x.2 < i)

/-- AUTOMATIC_SWAP (R45): an entry of a table that was written and not invalidated is swapped in at a milestone of the
device's choosing, the one emitted just before the command, entries of one milestone in ascending index.
DEDUCED (log 72). -/
def execAutomaticSwap (t : TableId) (idx : BitVec 14) (s : State) : Out :=
  .next (if s.mayAutoSwap t idx.toNat then s.autoSwap t idx.toNat else s)

/-- The INVALIDATE writes that waited run in order of acceptance (R424). -/
def State.runWaiting (s : State) : State :=
  let ws := s.acc.waiting
  ({ s with acc := { s.acc with waiting := [] } }).each ws fun s x => s.runInvalidate x.1 x.2

/-- A requester writes a word of a table. -/
def execTableEntryWrite (a : Acc) (addr : BitVec 24) (val : Word) (s : State) : Out :=
  let s := s.accept a
  .next (match tableAt addr.toNat, decide (addr.toNat % 4 = 0) with
    | some (t, i, _), true => match s.gate a.req.toNat addr.toNat val false with
      | .act s _ => s.imageWrite t i addr.toNat val
      | .drop s => s
      | .hold s _ => s
    | _, _ => s)

/-! ### At the milestone (step 4 of R14) -/

/-- A tenant may use the source of a stream by the entries in effect. -/
def State.permitted (s : State) (i : Nat) : Bool :=
  let t := s.sf i 0 16 8
  128 ≤ t || mayUse (fun w => s.eff (TableId.tenant.addr t w)) (s.sKind i) (s.permChan i)

/-- Streams of a tenant stop while their source is not permitted, and restart when it is again (R306). -/
def State.tenantStreams (s : State) (t : Nat) : State :=
  s.each ((s.rows .stream 0).filter fun i => s.sf i 0 16 8 = t && s.sf i 0 0 1 = 1) fun s i =>
    let on := (s.stream i).active
    if s.permitted i then (if on then s else s.startStream i)
    else if on then (s.stopStream i).refuseEntry .stream i 6 else s

/-- A tenant's quotas in effect, cut when the own space does not hold them (R312). -/
def State.quotaOf (s : State) (t : Nat) : Nat × Bool :=
  let q := fun (x : Nat) => s.effFld .tenant x 2 0 16
  let sum := (s.tenantsOn.map q).sum
  if !s.tenantsOn.contains t then (0, false)
  else if s.ownSpace < sum + 2 then (max 1 (q t * (s.ownSpace - 2) / sum), true)
  else (q t, false)

/-- Frees the surplus segments of a tenant in the order of R280, with give-ups (R306). -/
def State.cutSegments (s : State) (t : Nat) : Nat → State
  | 0 => s
  | n + 1 =>
    if s.slotsUsed t ≤ s.quotaNow t then s
    else
      let old := fun (repl : Bool) => s.oldestSealed t repl
      let pick := match old false, old true with
        | some x, some y =>
          if x.claims.isEmpty = y.claims.isEmpty then (if x.num < y.num then some x else some y)
          else if x.claims.isEmpty then some x else some y
        | some x, none => some x
        | none, y => y
      match pick with
      | none => s
      | some g =>
        let gu := g.claims
        let s := s.dropSeg g
        let s := if gu.isEmpty then s else (s.giveUp gu).stick .tenStat t 12
        State.cutSegments s t n

/-- The quotas of a milestone (R312). A shortage that begins sets QSHORT for every tenant, also where the quota stays what it
was. -/
def State.quotaStep (s : State) : State :=
  let begun := s.lake.short
  let s := { s with lake := { s.lake with short := s.tenantsOn.any fun t => (s.quotaOf t).2 } }
  s.upTo 128 fun s t =>
    let q := s.quotaOf t
    let was := s.quotaNow t
    let s := if q.2 && (was ≠ q.1 || !begun) then (s.stick .ten 0 9).stick .tenStat t 9 else s
    if was = q.1 then s
    else
      let s := s.setFld (ra .tenStat t 0x048) 16 16 q.1
      if q.1 < was then s.cutSegments t s.lake.segs.length else s

/-- Reservations of a tenant above its TC2MAX are withdrawn, highest session number first (R306). -/
def State.cutTc2 (s : State) (t : Nat) : State :=
  match s.tc2max t with
  | none => s
  | some lim =>
    s.upTo 8 fun s p =>
      let mine := fun (s : State) => s.fab.admits.filter fun x => x.port = p && x.tenant = t
      s.each (mine s) fun s _ =>
        if s.tenantSlots p t ≤ lim then s
        else match topAdmit (mine s) with
          | some x => if x.origin.isNone then (s.withdraw x 2).refuseRsv x.session 2 else s.withdraw x 2
          | none => s

/-- A tenant entry takes effect (R306); `old` gives the words that were in effect. -/
def State.tenantEffect (s : State) (t : Nat) (old : Nat → Word) : State :=
  let key := fun (f : Nat → Word) => (List.range 12).map fun k => f (32 + k)
  let now := fun (w : Nat) => s.eff (TableId.tenant.addr t w)
  let mine := fun (x : Session) => match x.role with
    | .owner => false
    | .tenant u => u.val = t
  let s := if bit (old 0) 0 && (!bit (now 0) 0 || decide (key old ≠ key now)) then
      let s := s.each (s.fab.sessions.filter mine) fun s x => s.closeSession x.num
      s.each (s.acc.locks.filter fun l => l.holder = 0x0100 + t) fun s l => s.breakLock l.page
    else s
  let before := s.fastUnder fun u => if u = t then bits (old 3) 8 4 else s.ifast u
  let s := if before.all s.fastList.contains then s else s.stick .intN 0 10
  let s := s.each (s.fab.sessions.filter mine) fun s x =>
    let gone := x.subs.filter fun u => !s.maySubscribe x u.stream
    let s := if gone.isEmpty then s
      else s.setSession { x with subs := x.subs.filter fun u => s.maySubscribe x u.stream }
    s.each gone fun s u => s.endClaims x.num (some u.stream)
  (s.tenantStreams t).cutTc2 t

/-- The words of an entry that are in effect. -/
def State.wordsIn (s : State) (t : TableId) (i w : Nat) : Word := s.eff (t.addr i w)

/-- A swapped entry takes effect; the chain of a stream whose entry came back unchanged goes on (R192). -/
def State.entryEffect (s0 s : State) (t : TableId) (i : Nat) : State :=
  let old := s0.wordsIn t i
  let same : Bool := t = .stream && (s.stream i).active && (List.range t.words).all fun w => old w = s.reg (t.addr i w)
  let s := if t = .stream ∧ (s.stream i).active ∧ !same then s.stopStream i else s
  let s := { s with acc := { s.acc with
    effective := s.acc.effective.filter fun p => !(t.addr i 0 ≤ p.1 && p.1 < t.addr (i + 1) 0) } }
  match t with
  | .stream =>
    if !s.permitted i then (if same then s.stopStream i else s).refuseEntry .stream i 6
    else if same then s else s.streamEffect i
  | .switch => s.switchEffect i old
  | .rule => s.ruleEffect i old
  | .tenant => s.tenantEffect i old
  | .routing | .slice => s

/-- The entries due at the milestone, in the order of their swaps (R14, R424). -/
def State.tableEffects (s : State) : State :=
  let xs := s.acc.swapped
  ({ s with acc := { s.acc with swapped := [] } }).each xs fun s x => s.entryEffect s x.1 x.2

/-- The tables, in the order in which a milestone swaps them. -/
def allTables : List TableId := [.stream, .tenant, .routing, .slice, .switch, .rule]

/-- Entries that have waited for 64 milestones since their last write are swapped in, ascending by table (R45). -/
def State.forcedSwaps (s : State) : State :=
  if !(s.sup.running && s.pwr.live) then s
  else
    s.each allTables fun s t =>
      let old := fun (i : Nat) => s.acc.dirty.any fun (d : DirtyEntry) => d.table = t && d.idx = i && decide (64 ≤ d.age)
      s.each ((s.dirtyOf t).filter old) fun s i => s.autoSwap t i

/-- Milestones since the last write of an entry that has not been invalidated, and the swaps that can wait no longer
(R45). DEDUCED (log 72). -/
def State.dirtyAges (s : State) : State :=
  let older := s.acc.dirty.map fun (d : DirtyEntry) => { d with age := d.age + 1 }
  ({ s with acc := { s.acc with dirty := older, autoSwaps := [] } }).forcedSwaps

end Sys2Proof.Machine
end

