-- ==== Sys2Proof/Machine/Access.lean ====
section
/-! DEFINITION. Register accesses (chapter 02): latched pairs, staging and COMMIT, locks, BLK_CTRL, block reset, the action
of a write to every register, and the accesses of the I²C port and of sessions. -/

namespace Sys2Proof.Machine

open Sys2Proof

/-! ### Latched pairs (R41 to R43) -/

/-- A latched pair: the addresses of its low and high word and of its companion, whether it has a NEWER bit and whether it
is writable. -/
structure Pair where
  lo : Nat
  hi : Nat
  comp : Option Nat := none
  newer : Bool := false
  writable : Bool := false
  deriving DecidableEq, Repr

/-- The pairs of a page, by offset. -/
def pagePairs : PageKind → List Pair
  | .bank => [⟨0x068, 0x06C, some 0x064, true, false⟩]
  | .tim => [⟨0x060, 0x064, none, false, true⟩, ⟨0x068, 0x06C, none, false, true⟩, ⟨0x080, 0x084, some 0x07C, true, false⟩,
      ⟨0x098, 0x09C, some 0x094, true, false⟩]
  | .pwr => [⟨0x060, 0x064, none, false, false⟩]
  | .thm => [⟨0x058, 0x05C, none, false, false⟩]
  | .fabPort => [⟨0x060, 0x064, none, false, false⟩]
  | .sec => [⟨0x040, 0x044, none, false, false⟩]
  | .pci => [⟨0x048, 0x04C, none, false, true⟩, ⟨0x060, 0x064, none, false, true⟩]
  | .tag => [⟨0x050, 0x054, some 0x04C, false, false⟩]
  | _ => []

/-- The pair to which an address belongs, with full addresses. -/
def pairAt (a : Nat) : Option Pair :=
  match pageOf (a / 0x1000) with
  | none => none
  | some (k, _) =>
    let base := a / 0x1000 * 0x1000
    let off := a % 0x1000
    ((pagePairs k).find? fun p => p.lo = off || p.hi = off || p.comp = some off).map fun p =>
      { p with lo := base + p.lo, hi := base + p.hi, comp := p.comp.map (base + ·) }

/-- The latch that a requester holds on a pair. -/
def State.latchOf (s : State) (req lo : Nat) : Option Latch :=
  s.acc.latches.find? fun l => l.req = req && l.addr = lo

/-- Ends a requester's latch on a pair. -/
def State.endLatch (s : State) (req lo : Nat) : State :=
  { s with acc := { s.acc with latches := s.acc.latches.filter fun l => !(l.req = req && l.addr = lo) } }

/-- A full-word read of a word of a pair: the low word latches, the high word ends the latch (R41, R42). -/
def State.readPair (s : State) (req : Nat) (p : Pair) (a : Nat) : State :=
  if a = p.lo then
    let l : Latch := { req := req, addr := p.lo, newer := false,
                       vals := ([p.hi] ++ p.comp.toList).map fun x => (x, s.view req x) }
    let s := s.endLatch req p.lo
    ({ s with acc := { s.acc with latches := s.acc.latches ++ [l] } }).answerWith (.data (s.view req a))
  else
    match s.latchOf req p.lo with
    | none => s.answerWith (.data (s.view req a))
    | some l =>
      let v := kget l.vals a 0
      if a = p.hi then
        (s.endLatch req p.lo).answerWith (.data (if p.newer && l.newer then v ||| word (2 ^ 31) else v))
      else s.answerWith (.data v)

/-- A low word is held for its writer (R43). DEDUCED (log 41). -/
def State.holdLow (s : State) (req lo : Nat) (v : Word) : State :=
  let s := s.dropLow req lo
  { s with acc := { s.acc with lows := s.acc.lows ++ [⟨req, lo, v⟩] } }

/-- The holder of a lock writes a pair's high word: the combined value goes into the image as one write (R38, R43). -/
def State.holdPair (s : State) (req lo hi : Nat) (mask val : Word) : State :=
  let low := (s.heldLow req lo).getD (s.view req lo)
  (s.dropLow req lo).holdWrite hi mask val (some low)

/-- A write of a pair's high word: the pair takes the new value whole, with the writer's held low word or the current one
(R43). The low 7 bits of a ring base are reserved. DEDUCED (log 41). -/
def State.writePairHigh (s : State) (req : Nat) (p : Pair) (v : Word) (due : Nat) : State :=
  if p.lo = ra .tim 0 0x060 then s.actIncHigh req v due
  else
    let keep : Word := if p.lo / 0x1000 = pageNum .pci 0 then 0xFFFFFF80 else allOnes
    let s' := match s.heldLow req p.lo with
      | some w => s.setReg p.lo (w &&& keep)
      | none => s
    (s'.setReg p.hi v).dropLow req p.lo

/-! ### Reads with their side-effects (R23, R29) -/

/-- A time word for a requester: its shadow, else the live value (R222). -/
def State.timeRead (s : State) (req off : Nat) : Word :=
  match s.shadow req with
  | some x => timeWord x.time x.ms off
  | none => timeWord s.tim.time (word s.tim.msNum) off

/-- A full-word read of an address by a requester, with its side-effects, answered. -/
def State.readWord (s : State) (req a : Nat) : State :=
  let off := a % 0x1000
  let plain := s.answerWith (.data (s.view req a))
  match pageOf (a / 0x1000) with
  | none => plain
  | some (k, _) =>
    match pairAt a with
    | some p => s.readPair req p a
    | none =>
      match k with
      | .sys => if off = 0x04C then s.readClear a else plain
      | .bank => if off = 0x070 ∨ off = 0x074 then s.readClear a else plain
      | .pipe => if off = 0x044 ∨ off = 0x048 then s.readClear a else plain
      | .fabPort => if off = 0x048 ∨ off = 0x04C ∨ off = 0x050 ∨ off = 0x058 then s.readClear a else plain
      | .pci => if off = 0x074 then s.readClear a else plain
      | .intN => if 0x180 ≤ off ∧ off < 0x1C0 then s.claim ((off - 0x180) / 4) false else plain
      | .intF => if 0x040 ≤ off ∧ off < 0x080 then s.claim ((off - 0x040) / 4) true else plain
      | .tim =>
        if off = 0x040 then s.readFracLo req
        else if off = 0x044 ∨ off = 0x048 ∨ off = 0x04C ∨ off = 0x054 then s.answerWith (.data (s.timeRead req off))
        else plain
      | _ => plain

/-- The answer that a tenant sees: hidden fields read 0 (R48). -/
def State.maskAnswer (s : State) (m : Word) : State :=
  match s.acc.answer with
  | .data w => s.answerWith (.data (w &&& m))
  | _ => s

/-- A full-word read that a requester makes. -/
def State.readFor (s : State) (a : Acc) (addr : Nat) : State :=
  s.guardedRead a addr fun s =>
    let s' := s.readWord a.req.toNat addr
    match s.tenantOf a.req.toNat with
    | none => s'
    | some t => s'.maskAnswer (s.seeMask t a.req.toNat addr)

/-- A read of 8 or 16 bits: the addressed bytes of the live word, without side-effects (R29, R42). -/
def State.readNarrow (s : State) (a : Acc) (addr width : Nat) : State :=
  let base := addr / 4 * 4
  let req := a.req.toNat
  s.guardedRead a base fun s =>
    let seen := match s.tenantOf req with
      | none => allOnes
      | some t => s.seeMask t req base
    s.answerWith (.data (word (((s.view req base) &&& seen).toNat / 2 ^ (8 * (addr % 4)) % 2 ^ (8 * width))))

/-- The word that the last access answered. -/
def State.answered (s : State) : Word :=
  match s.acc.answer with
  | .data w => w
  | _ => 0

/-- A read access of 1, 2, 4 or 8 bytes (R29 to R32): one that is not aligned to its width fails, one of 64 bits is two of
32 bits, lower address first, answered in one completion. -/
def State.readAccess (s : State) (a : Acc) (addr width : Nat) : State :=
  if width = 0 ∨ addr % width ≠ 0 then
    let s := s.accept a
    if s.answers (addr / 0x1000) && s.validReq a.req.toNat then
      (s.stick .sys 0 9).answerWith (if a.req.toNat = 1 then .nack else .unsupported)
    else s.notNow (.data 0)
  else if width < 4 then s.readNarrow a addr width
  else if width = 8 then
    let lo := s.readFor a addr
    let hi := lo.readFor ⟨a.req, 0⟩ (addr + 4)
    hi.answerWith (.pair lo.answered hi.answered)
  else s.readFor a addr

/-- PAIR_LOW_READ, with the width of the access: a read that starts at a pair's low word, or at a register that belongs
to no pair. DESIGN CHOICE (log 102). -/
def execPairLowRead (a : Acc) (r : ReadAt) (s : State) : Out :=
  .next (match pairAt (r.addr.toNat / 4 * 4) with
    | some p => if p.lo = r.addr.toNat / 4 * 4 then s.readAccess a r.addr.toNat r.width.toNat else s
    | none => s.readAccess a r.addr.toNat r.width.toNat)

/-- PAIR_HIGH_READ, with the width of the access: a read of a pair's high word or companion. -/
def execPairHighRead (a : Acc) (r : ReadAt) (s : State) : Out :=
  .next (match pairAt (r.addr.toNat / 4 * 4) with
    | some p => if p.lo = r.addr.toNat / 4 * 4 then s else s.readAccess a r.addr.toNat r.width.toNat
    | none => s)

def execSysD2dRetryRead (a : Acc) (s : State) : Out := .next (s.readFor a (ra .sys 0 0x04C))

/-! ### COMMIT and DISCARD (R33 to R36) -/

/-- The staging image of a requester on a page. -/
def State.stageOf (s : State) (req page : Nat) : List StagedWrite :=
  s.acc.stage.filter fun w => w.req = req && w.page = page

/-- Empties a staging image. -/
def State.emptyStage (s : State) (req page : Nat) : State :=
  { s with acc := { s.acc with stage := s.acc.stage.filter fun w => !(w.req = req && w.page = page) } }

/-- A snapshot is marked for a milestone; in the verge it is deferred and COMMIT_DEFERRED is set (R33, R34). -/
def State.addSnapshot (s : State) (x : Snapshot) : State :=
  let s := if s.tim.verge then s.stickPage x.page 2 else s
  { s with acc := { s.acc with snaps := s.acc.snaps ++ [x] } }

/-- A write of BLK_COMMIT (R33, R36). -/
def State.actCommit (s : State) (req page : Nat) (v : Word) : State :=
  if bit v 0 && bit v 1 then s
  else if bit v 1 then s.emptyStage req page
  else if bit v 0 then
    let items := s.stageOf req page
    if items.isEmpty then s
    else (s.addSnapshot ⟨page, req, s.tim.due, items, []⟩).emptyStage req page
  else s

/-! ### Locks (R37 to R40) -/

/-- Releases a lock without setting anything. -/
def State.releaseLock (s : State) (page : Nat) : State :=
  { s with acc := { s.acc with locks := s.acc.locks.filter fun l => l.page ≠ page } }

/-- The lease in milestones that a request gets: 0 selects 256, and a tenant's is clipped to TEN_CFG.TLEASE (R37, R308). -/
def State.leaseFor (s : State) (req n : Nat) : Nat :=
  let n := if n = 0 then 256 else n
  if (s.tenantOf req).isSome then min n (s.fld (ra .ten 0 0x044) 8 12) else n

/-- A write of BLK_LOCK. -/
def State.actLock (s : State) (req page : Nat) (v : Word) : State :=
  let lease := s.leaseFor req (bits v 16 12)
  match bits v 30 2, s.lockOf page with
  | 0, none => { s with acc := { s.acc with locks := s.acc.locks ++ [⟨page, req, lease, []⟩] } }
  | 3, some l => if l.holder = req then s else s.stickPage page 1
  | 0, some l =>
    if l.holder = req then
      { s with acc := { s.acc with locks := s.acc.locks.map fun (x : Lock) =>
        if x.page = page then { x with lease := lease } else x } }
    else s.stickPage page 1
  | 1, some l =>
    if l.holder = req then
      let s := s.releaseLock page
      if l.image.isEmpty then s else s.addSnapshot ⟨page, req, s.tim.due, [], l.image⟩
    else s.stickPage page 1
  | 2, some l =>
    if l.holder = req then s.releaseLock page
    else if req = 0 then s.breakLock page
    else s.stickPage page 1
  | _, _ => s

/-- LOCK_LEASE_EXPIRY (R40): the lease has reached 0 at a milestone. -/
def execLockLeaseExpiry (page : BitVec 12) (s : State) : Out :=
  .next (match s.lockOf page.toNat with
    | some l => if l.lease = 0 then s.breakLock page.toNat else s
    | none => s)

/-! ### BLK_CTRL and block reset (R26, R423) -/

/-- A write of BLK_CTRL.EN; `due` is the milestone count at which the change acts (R26). -/
def State.setEn (s : State) (page : Nat) (k : PageKind) (en : Bool) (due : Nat) : State :=
  if !enActs k then (if en then s else s.stickPage page 3)
  else if s.flag (page * 0x1000 + 0x008) 0 = en then s
  else
    let s := s.setFld (page * 0x1000 + 0x008) 0 1 (if en then 1 else 0)
    { s with acc := { s.acc with enables := s.acc.enables ++ [(page, en, due)] } }

/-- The words of a page that its chapter keeps through a block reset, and the status words that go on showing what the
device is in. DEDUCED (log 73). -/
def keptOnReset (k : PageKind) (off : Nat) : Bool :=
  (k = .tenStat && off = 0x014) || 0x040 ≤ off && (match k with
    | .sys => off = 0x048
    | .pwr => off = 0x04C || off = 0x050 || (0x058 ≤ off && off ≤ 0x064)
    | .thm | .flash | .lpddr | .cal7 => true
    | .tim => 0x0E0 ≤ off
    | .cal0 => off = 0x058
    | .imp => 0x140 ≤ off && off ≠ 0x1C0
    | .pipe => 0x800 ≤ off
    | .gpio => off = 0x044
    | .tenStat => off = 0x048
    | _ => false)

/-- The registers of a page at the values that a block reset leaves. DEDUCED (log 73). -/
def State.clearPage (s : State) (page : Nat) (k : PageKind) : State :=
  { s with regs := s.regs.filter fun p => p.1 / 0x1000 ≠ page || keptOnReset k (p.1 % 0x1000) }

/-- The datapath state that a block reset of a page clears, as its chapter says. DEDUCED (log 73). -/
def State.resetDatapath (s : State) (k : PageKind) (inst : Nat) : State :=
  match k with
  | .sys | .alloc | .stb | .flash | .lpddr | .gpio | .i2c | .fabDisc | .ten | .tenStat => s
  | .pwr => s.pwrReset
  | .thm => { s with thm := { s.thm with resetDue := true } }
  | .tim =>
    let s := s.discardSlew
    { s with tim := { s.tim with adj := none, edges := 0, glitches := 0, tinTime := 0, msiInst := 0, msiMs := 0
                                 touts := false },
             acc := { s.acc with shadows := [] } }
  | .intN => { s.intReset with acc := { s.acc with sidx := [] } }
  | .intF =>
    let n := pageNum .intN 0
    let mine := fun (p : Nat × Word) => p.1 / 0x1000 = n && (p.1 % 0x1000 = 0x040 ||
      (0x080 ≤ p.1 % 0x1000 && p.1 % 0x1000 < 0x180))
    let s := s.intReset
    { s with regs := s.regs.filter fun p => !mine p }
  | .seq =>
    { s with seq := { s.seq with flags := 0, requests := [], sweepFlags := [], dueRequests := [], dueSweeps := [], stall := [] } }
  | .cal0 => { s with cal := { s.cal with replace := none, slopes := [] } }
  | .calTrim => s.trimPageReset inst
  | .cal7 => s.cal7Reset
  | .afeIn => s.upTo 32 fun s p => s.setPort (480 + p) {}
  | .afeEc | .afeMs | .afeFp | .afeAx => s.upTo 16 fun s p => s.setPort (afeBase k inst + p) {}
  | .htr =>
    s.upTo 16 fun s p =>
      let e := inst * 16 + p
      let s := if (s.engine e).mark = 0 then s else s.noteMark e 64
      s.setEngine e {}
  | .imp => s.impStop inst
  | .bank => s.bankReset inst
  | .scan => s.setScan inst {}
  | .pipe => { s with spe := { s.spe with restart := s.spe.restart ++ [inst] } }
  | .alm => s.almRestart
  | .fabPort => s.portDown inst (if s.inService (0x100 + inst) then .training else .down)
  | .fabRouter => s
  | .lak =>
    let st := if s.lake.replay.isSome then 5 else 0
    let s := s.endReplay 5
    { s with lake := { s.lake with replayStatus := st, replayPipe := 0, ringNow := 0, ringFirst := 0, ring := [], capSt := .idle, building := none,
                                   missed := 0 } }
  | .sec => { s with sec := {} }
  | .glz => s.glzReset
  | .upd =>
    let s := if s.upd.st = .downloading ∨ s.upd.st = .verifying then s.updEndDownload else s
    { s with upd := { s.upd with result := 0 } }
  | .pci => { s with hst := { s.hst with txHead := 0, rxTail := 0, held := [] } }
  | .tag => s.tagReset

/-- A block reset starts (R423): the registers read their reset values, the images are empty, the snapshots cancelled,
the lock broken, the latches ended; the glaze in force comes back at the next milestone (R322). DEDUCED (log 73). -/
def State.startReset (s : State) (page : Nat) : State :=
  match pageOf page with
  | none => s
  | some (k, inst) =>
    let locked := (s.lockOf page).isSome
    let faulted := s.fld (ra .bank inst 0x078) 16 9
    let s0 := s
    let s := s.clearPage page k
    let s := if k = .bank then s.setFld (ra .bank inst 0x078) 16 9 faulted else s
    let s := { s with acc := { s.acc with
      stage := s.acc.stage.filter fun w => w.page ≠ page
      snaps := s.acc.snaps.filter fun x => x.page ≠ page
      locks := s.acc.locks.filter fun l => l.page ≠ page
      latches := s.acc.latches.filter fun l => l.addr / 0x1000 ≠ page
      lows := s.acc.lows.filter fun l => l.addr / 0x1000 ≠ page
      enables := s.acc.enables.filter fun e => e.1 ≠ page
      inReset := s.acc.inReset ++ [page] } }
    let s := (s.resetDatapath k inst).checkSync s0
    let s := if locked then s.stickPage page 0 else s
    let here := fun (u : Nat × Word × Word) => u.1 / 0x1000 = page
    { s with glz := { s.glz with
      under := s.glz.under.map fun u => if here u then (u.1, u.2.1, regReset u.1 &&& u.2.1) else u
      reapply := if s.glz.under.any here then s.glz.reapply ++ [page] else s.glz.reapply } }

/-- BLOCK_RESET_END (R423): a block whose EN in force was 0 returns to service at a milestone. -/
def execBlockResetEnd (page : BitVec 12) (s : State) : Out :=
  let n := page.toNat
  .next (if !s.inReset n then s
    else
      let s := { s with acc := { s.acc with inReset := s.acc.inReset.filter (· ≠ n) } }
      if s.inService n then s
      else { s with acc := { s.acc with enables := s.acc.enables ++ [(n, true, s.tim.due)] } })

/-- A write of BLK_CTRL. One that asks for a reset only starts the reset, whatever EN it holds: R423 names what EN reads from
then on. DESIGN CHOICE (log 118). -/
def State.actCtrl (s : State) (page : Nat) (k : PageKind) (v mask : Word) (due : Nat) : State :=
  if bit v 1 && bit mask 1 then s.startReset page
  else if bit mask 0 then s.setEn page k (bit v 0) due else s

/-! ### The action of a write (R23) -/

/-- A write of SYS_RESET (R28); a reset that an earlier one has asked for begins at its own milestone. -/
def State.actSysReset (s : State) (req : Nat) (v : Word) (due : Nat) : State :=
  if !bit v 8 then s
  else if bits v 0 8 = 0x57 ∧ s.ownerReq req then
    { s with acc := { s.acc with warmDue := some (min due (s.acc.warmDue.getD due)) } }
  else s.stick .sys 0 3

/-- A write to a register of a page's body that has an action of its own; none where every field just acts by its access
code. -/
def State.bodyAction (s : State) (req : Nat) (k : PageKind) (inst off : Nat) (v mask : Word) (due : Nat) : Option State :=
  let a := pageNum k inst * 0x1000 + off
  match k with
  | .sys => if off = 0x040 then some (s.actSysReset req v due) else none
  | .pwr => if off = 0x040 then some (s.actPwrCtrl v due) else none
  | .thm => if off = 0x048 then some (s.actThmReq v) else if off = 0x04C then some (s.actSexcl v) else none
  | .tim =>
    if off = 0x050 then some (s.actSnap req v)
    else if off = 0x074 then some (s.actAdjCtl v due)
    else if off = 0x0A0 then some (s.actWmark v)
    else none
  | .intN =>
    if off = 0x040 then some (s.setReg a (mergeMask (s.reg a) (mask &&& 0xFF) v))
    else if off = 0x044 then some { s with acc := { s.acc with sidx := kset s.acc.sidx req (bits v 0 10) 0 } }
    else if off = 0x048 then some (s.writeScfg req v mask)
    else if 0x080 ≤ off ∧ off < 0x180 then some ((s.writeFields req a v mask true).settleHeld.deliverPending)
    else if 0x1C0 ≤ off ∧ off < 0x200 then some (s.actEoi req ((off - 0x1C0) / 4) v)
    else none
  | .intF => if 0x080 ≤ off ∧ off < 0x0C0 then some (s.actFeoi req ((off - 0x080) / 4) v) else none
  | .seq =>
    if off = 0x048 ∨ off = 0x04C then some (s.actFlags (off = 0x04C) true v)
    else if off = 0x050 ∨ off = 0x054 then some (s.actFlags (off = 0x054) false v)
    else none
  | .calTrim =>
    if 0x500 ≤ off then
      let b := 4 * (inst - 1) + (off - 0x500) / 0x100
      let s := s.writeFields req a v mask true
      some (s.setBank b { s.bank b with saved := true })
    else none
  | .cal7 => if off = 0x040 then some (s.actCal v) else none
  | .imp => if off = 0x044 then some (s.actImpCmd inst v) else none
  | .bank =>
    if off = 0x048 then some (s.actSpare inst v)
    else if off = 0x060 then some (s.actSpot inst v)
    else none
  | .alloc => if off = 0x040 then some (s.actInvalidate .slice v) else none
  | .stb => if off = 0x040 then some (s.actInvalidate .stream v) else none
  | .fabRouter => if off = 0x040 then some (s.actInvalidate .routing v) else none
  | .ten => if off = 0x040 then some (s.actInvalidate .tenant v) else none
  | .alm =>
    if off = 0x050 then some (s.actInvalidate .switch v)
    else if off = 0x054 then some (s.actInvalidate .rule v)
    else if off = 0x058 then some (s.actAck v)
    else none
  | .lak =>
    if off = 0x094 then some (s.actCapCmd v)
    else if 0x080 ≤ off ∧ off < 0x090 ∧ bits v 0 2 = 1 ∧ 24 ≤ bits v 2 6 then some (s.stick .lak 0 3)
    else if off = 0x0AC then some (s.actReplay v)
    else if off = 0x0B8 then some (s.actLakCmd v)
    else none
  | .sec =>
    if off = 0x048 then some (s.actSec v)
    else if 0x800 ≤ off ∧ s.sec.busy ≠ 0 then some s
    else none
  | .glz => if off = 0x040 then some (s.actGlzCmd v) else if off = 0x070 then some (s.actMc v) else none
  | .upd => if off = 0x040 then some (s.actUpd req v) else none
  | .pci => if off = 0x06C then some (s.actRxHead v) else none
  | .tag =>
    if off = 0x040 then some ((s.writeFields req a v mask true).tagConfig)
    else if off = 0x044 then some (s.actTagCmd v)
    else none
  | _ => none

/-- A write of `val` to a word, with the bits under `mask` that the requester may write: `direct` at the milestone of a
released lock image, where `due` is that milestone (R38). -/
def State.actWrite (s : State) (req a : Nat) (val mask : Word) (direct : Bool) (due : Nat) : State :=
  let page := a / 0x1000
  let off := a % 0x1000
  let v := val &&& mask
  match pageOf page with
  | none =>
    match tableAt a with
    | some (t, i, _) => s.imageWrite t i a v
    | none => if !isGlazeMem a then s else if s.glazeBusy a then s.glzStick 14 else s.setReg a v
  | some (k, inst) =>
    if s.inReset page ∨ (addrFields a).isEmpty then s
    else if off = 0x008 then s.actCtrl page k v mask due
    else if off = 0x018 then s.actLock req page v
    else if off = 0x01C then s.actCommit req page v
    else match pairAt a with
      | some p =>
        if !p.writable then s
        else if a = p.lo then s.holdLow req a v
        else s.writePairHigh req p v due
      | none =>
        match s.bodyAction req k inst off v mask due with
        | some s' => s'
        | none => s.writeFields req a val mask direct

/-- A 32-bit write of a requester, once accepted (R23 to R48). -/
def State.write32 (s : State) (req a : Nat) (val : Word) : State :=
  match s.gate req a val (a % 0x1000 = 0x018 || isW1c a) with
  | .drop s => s
  | .act s m => s.actWrite req a val m false s.tim.due
  | .hold s m =>
    if a % 0x1000 = 0x01C ∨ (addrFields a).isEmpty then s
    else match pairAt a with
      | none => s.holdWrite a m val
      | some p =>
        if !p.writable then s
        else if a = p.lo then s.holdLow req a val
        else
          s.holdPair req p.lo a m val

/-- A write access of one requester (R29 to R32): narrow and unaligned ones are refused, a 64-bit one is two. A write that
is both narrow and unaligned fails, and sets UNALIGNED alone. DESIGN CHOICE (log 120). -/
def State.writeAccess (s : State) (req a : Nat) (val : BitVec 64) (width : Nat) : State :=
  let live := s.answers (a / 0x1000) && s.validReq req
  if !live then s.notNow .done
  else if width = 0 ∨ a % width ≠ 0 then
    (s.stick .sys 0 9).answerWith (if req = 1 then .nack else .unsupported)
  else if width < 4 then (s.stick .sys 0 8).answerWith .done
  else
    let s := s.write32 req a (val.truncate 32)
    (if width = 8 then s.write32 req (a + 4) (val.extractLsb' 32 32) else s).answerWith .done

/-- REGISTER_WRITE: a write of a requester through its view; an access of 1, 2, 4 or 8 bytes. -/
def execRegisterWrite (a : Acc) (addr : BitVec 24) (val : BitVec 64) (width : BitVec 4) (s : State) : Out :=
  .next ((s.accept a).writeAccess a.req.toNat addr.toNat val width.toNat)

/-- A write of a word by a row of its own. -/
def State.writeBy (s : State) (a : Acc) (addr : Nat) (val : Word) : State := (s.accept a).write32 a.req.toNat addr val

def execPairLowWrite (a : Acc) (addr : BitVec 24) (val : Word) (s : State) : Out :=
  .next (match pairAt addr.toNat with
    | some p => if p.lo = addr.toNat then s.writeBy a addr.toNat val else s
    | none => s)

def execPairHighWrite (a : Acc) (addr : BitVec 24) (val : Word) (s : State) : Out :=
  .next (match pairAt addr.toNat with
    | some p => if p.hi = addr.toNat then s.writeBy a addr.toNat val else s
    | none => s)

def execBlockReset (a : Acc) (page : BitVec 12) (s : State) : Out :=
  .next (s.writeBy a (page.toNat * 0x1000 + 0x008) 2)

def execBlockEnable (a : Acc) (page : BitVec 12) (en : Bool) (s : State) : Out :=
  .next (s.writeBy a (page.toNat * 0x1000 + 0x008) (if en then 1 else 0))

def execCommit (a : Acc) (page : BitVec 12) (s : State) : Out := .next (s.writeBy a (page.toNat * 0x1000 + 0x01C) 1)

def execDiscard (a : Acc) (page : BitVec 12) (s : State) : Out := .next (s.writeBy a (page.toNat * 0x1000 + 0x01C) 2)

def execLockAcquire (a : Acc) (page : BitVec 12) (lease : BitVec 12) (s : State) : Out :=
  .next (s.writeBy a (page.toNat * 0x1000 + 0x018) (word (lease.toNat * 2 ^ 16)))

def execLockUnlockCommit (a : Acc) (page : BitVec 12) (s : State) : Out :=
  .next (s.writeBy a (page.toNat * 0x1000 + 0x018) (word (2 ^ 30)))

def execLockUnlockDiscard (a : Acc) (page : BitVec 12) (s : State) : Out :=
  .next (s.writeBy a (page.toNat * 0x1000 + 0x018) (word (2 ^ 31)))

def execSysReset (a : Acc) (key : BitVec 8) (warm : Bool) (s : State) : Out :=
  .next (s.writeBy a (ra .sys 0 0x040) (word (key.toNat + at1 warm 8)))

/-! ### Accesses of sessions and of the I²C port (R303, R391 to R393) -/

/-- SESSION_REGISTER_ACCESS (R303): an open session accesses a word as requester 0x8000 + n. DEDUCED (log 74). -/
def execSessionRegisterAccess (session : BitVec 11) (write : Bool) (addr : BitVec 24) (val : Word) (s : State) : Out :=
  let a : Acc := ⟨BitVec.ofNat 16 (0x8000 + session.toNat), 0⟩
  let s := match s.reqSession a.req.toNat with
    | some x => s.setSession { x with silence := 0 }
    | none => s
  .next (if (s.reqSession a.req.toNat).isNone then s
    else if write then (s.accept a).writeAccess a.req.toNat addr.toNat (val.zeroExtend 64) 4
    else if addr.toNat % 4 ≠ 0 then ((s.accept a).stick .sys 0 9).answerWith .unsupported
    else s.readFor a addr.toNat)

/-- The I²C port is clocked and the device awake: outside, its address gets a NACK (R392). DEDUCED (log 74). -/
def State.i2cAwake (s : State) : Bool := s.tim.locked && s.pwr.clocked && !s.pwr.waking && s.pwr.st ≠ .sleep

/-- I2C_OFFSET: the three offset bytes of a transaction (R391). In Sleep SCL is stretched until the wake that the match
causes has run (R392, WAKE_EVENT), and in Deep Sleep and Off the address is not acknowledged. -/
def execI2cOffset (dt : Nat) (offset : BitVec 24) (write : Bool) (s : State) : Out :=
  let s := s.elapse dt
  .next (if !s.i2cAwake then (s.hostWake 1).answerWith (if s.pwr.st = .sleep then .retry else .nack)
    else if offset.toNat % 4 ≠ 0 then
      let s := { s with hst := { s.hst with i2cBusy := true, i2cOff := none, i2cWrite := write } }
      (s.stick .sys 0 9).answerWith .nack
    else
      ({ s with hst := { s.hst with i2cBusy := true, i2cOff := some offset.toNat, i2cWrite := write } }).answerWith .done)

/-- The offset of the transaction advances by a word. -/
def State.i2cNext (s : State) (o : Nat) : State :=
  { s with hst := { s.hst with i2cOff := some ((o + 4) % 2 ^ 24) } }

/-- I2C_WRITE_WORD: requester 0x0001 writes at the offset, which advances (R391). -/
def execI2cWriteWord (dt : Nat) (val : Word) (s : State) : Out :=
  .next (match s.hst.i2cOff with
    | some o =>
      if s.hst.i2cBusy ∧ s.hst.i2cWrite ∧ s.i2cAwake then
        (((s.accept ⟨1, dt⟩).writeAccess 1 o (val.zeroExtend 64) 4)).i2cNext o
      else s
    | none => s)

/-- I2C_READ_WORD: requester 0x0001 reads at the offset, which advances (R391). -/
def execI2cReadWord (dt : Nat) (s : State) : Out :=
  .next (match s.hst.i2cOff with
    | some o =>
      if s.hst.i2cBusy ∧ !s.hst.i2cWrite ∧ s.i2cAwake then (s.readFor ⟨1, dt⟩ o).i2cNext o else s
    | none => s)

/-- The transaction is over. -/
def State.i2cEnd (s : State) : State := { s with hst := { s.hst with i2cBusy := false, i2cOff := none, i2cWrite := false } }

/-- I2C_TRANSACTION_END: the bytes of an incomplete write word are dropped, and NARROW_WR is set (R30, R391). -/
def execI2cTransactionEnd (left : BitVec 2) (s : State) : Out :=
  .next (if !s.hst.i2cBusy then s
    else (if s.hst.i2cWrite ∧ left ≠ 0 then s.stick .sys 0 8 else s).i2cEnd)

/-- I2C_BUS_TIMEOUT (R393): the transaction is abandoned. -/
def execI2cBusTimeout (s : State) : Out :=
  .next (if s.pwr.clocked then (s.i2cEnd).stick .i2c 0 8 else s)

end Sys2Proof.Machine
end

