-- ==== Sys2Proof/Machine/Boot.lean ====
section
/-! DEFINITION. Cold start and base configuration (chapters 07, 14, 16, 18 and 19): the boot records, the flash and the
memory, the factory record, the base image, and what a warm reset clears. -/

namespace Sys2Proof.Machine

open Sys2Proof

/-! ### The boot record (R373, R374) -/

/-- The boot-ROM recovery loader runs (R374): the supervisor does not. DESIGN CHOICE (log 31). -/
def State.enterRecovery (s : State) : State :=
  let s := { s with upd := { s.upd with st := .recovery }, sup := { s.sup with running := false }
                    pwr := { s.pwr with booted := true, recovery := true } }
  s.updStick 15

/-! ### Flash and memory (R397 to R399) -/

/-- The flash can be used. -/
def flashOk (b : BootIn) : Bool := b.sfdpOk && (b.flashMode = 1 || b.flashMode = 2) && 26 ≤ b.density.toNat

/-- HST_FL_STAT after the boot ROM has read SFDP. -/
def State.flashStat (s : State) (b : BootIn) : State :=
  if flashOk b then
    s.setReg (ra .flash 0 0x040)
      (word (b.flashMode.toNat + b.flashDiv.toNat * 4 + b.density.toNat * 16 + 512))
  else s.stick .flash 0 8

/-- Training of the LPDDR5 memory: what answers is the external lake, in MiB. -/
def State.trainMemory (s : State) (b : BootIn) : State :=
  if b.lpOk && b.lpMib ≠ 0 then
    let s := s.setReg (ra .lpddr 0 0x044) (word (b.lpMib.toNat + b.lpRanks.toNat * 2 ^ 16 + 2 ^ 18))
    { s with lake := { s.lake with ext := min 32768 b.lpMib.toNat } }
  else ({ s with lake := { s.lake with ext := 0 } }).stick .lpddr 0 8

/-! ### The factory record (R153, R154) -/

/-- The CRC of a copy of the factory record is good. DEDUCED (log 83). -/
def factoryGood (copy : Nat) : Bool :=
  let at_ := fun (start n : Nat) => (List.range n).map fun i => fusedByte copy (start + i)
  crc64 (at_ 0x400 0xBF8) = ofLeBytes (at_ 0xFF8 8)

/-- The copy in use: the first whose CRC is good. -/
def State.factoryCheck (s : State) : State :=
  let c := if factoryGood 0 then 0 else if factoryGood 1 then 1 else 2
  let s := s.setReg (ra .cal0 0 0x058) (word c)
  let s := if c = 0 then s else s.stick .cal0 0 12
  if c = 2 then s.stick .cal0 0 13 else s

/-! ### The base image (R328, R329) -/

/-- The intact copy that is chosen, with its number. -/
def State.chooseBase (s : State) (b : BootIn) : Option (Bool × BaseImage) :=
  let c0 := if b.baseSig0 then s.flash.base0 else none
  let c1 := if b.baseSig1 then s.flash.base1 else none
  match c0, c1 with
  | none, none => none
  | some x, none => some (false, x)
  | none, some y => some (true, y)
  | some x, some y => if x.issue < y.issue then some (true, y) else some (false, x)

/-- A word as the owner's writes so far will leave it: the image of a table entry, or the owner's staging image over the
register. -/
def State.ownerWord (s : State) (a : Nat) : Word :=
  match tableAt a with
  | some _ => kget s.acc.images a (s.reg a)
  | none => (s.acc.stage.filter fun w => w.req = 0 && w.addr = a).foldl
      (fun v (w : StagedWrite) => mergeMask v w.mask w.val) (s.reg a)

/-- The bits of a register that a write of 1 acts on: write-1-to-clear and write-only fields. -/
def actMask (a : Nat) : Word := (addrFields a).foldl (fun m f => if f.code = .w1c || f.code = .wo then m ||| f.mask else m) 0

/-- A base item is an owner write that changes the bits under its mask (R318, R329): the other bits are written as they stand, or
as 0 where a 1 would act; INT_SCFG merges with the entry that INT_SIDX selects. DEDUCED (log 76). -/
def State.baseItem (s : State) (x : Item) : State :=
  let keep := if (tableAt x.offset).isSome then allOnes else ~~~ actMask x.offset
  let v := mergeMask (s.ownerWord x.offset &&& keep) x.mask x.value
  s.actWrite 0 x.offset v (if x.offset = ra .intN 0 0x048 then x.mask else allOnes) false (s.tim.msCount + 1)

/-- Every page that the owner has staged values for is committed for the first milestone. -/
def State.commitAll (s : State) : State :=
  let pages := ((s.acc.stage.filter fun w => w.req = 0).map fun (w : StagedWrite) => w.page).eraseDups
  s.each pages fun s page =>
    let x : Snapshot := ⟨page, 0, s.tim.msCount + 1, s.stageOf 0 page, []⟩
    { s with acc := { s.acc with snaps := s.acc.snaps ++ [x] } }.emptyStage 0 page

/-- The base configuration is applied: its items in order, every table entry written invalidated, every page
committed; it takes effect at the next milestone, M0. -/
def State.applyBase (s : State) (b : BootIn) : State :=
  let s := if b.baseSig0 && s.flash.base0.isSome then s else s.glzStick 15
  let s := { s with pwr := { s.pwr with basePending := true, noBase := false } }
  match s.chooseBase b with
  | none => ({ s with pwr := { s.pwr with noBase := true } }).glzStick 16
  | some (c, img) =>
    let s := { s with upd := { s.upd with baseCopy := c } }
    let s := s.each img.items fun s x => s.baseItem x
    let ents := (img.items.filterMap fun (x : Item) => (tableAt x.offset).map fun e => (e.1, e.2.1)).eraseDups
    (s.each ents fun s e => s.runInvalidate e.1 (some e.2)).commitAll

/-- BASE_CONFIGURATION (R329): after a warm reset, or where a cold start has not chosen the image itself. -/
def execBaseConfiguration (boot : BootIn) (s : State) : Out :=
  .next (if s.tim.locked && s.pwr.booted && s.pwr.st = .run && !s.pwr.live && !s.pwr.basePending && !s.pwr.recovery then
      s.applyBase boot
    else s)

/-! ### Starts (R18, R28, R360, R379, R380) -/

/-- A trial image whose start is counted or rolled back; `next` is the restart that a rollback in place of the start
makes. -/
def State.startImage (s : State) (next : State → State) : State :=
  let s := s.chooseRec
  match s.bootRec with
  | some r => if r.trial && 3 ≤ r.starts then next s.countStart else s.countStart
  | none => s

/-- The cold start that a rollback in place of another start makes (R379), with ROLLBACK set; no cause is given for it. -/
def State.rollbackReset (s : State) : State :=
  (s.coldReset (Config.updateCause (match s.bootRec with
    | some r => r.seqNo
    | none => 0) % 8)).updStick 12

/-- PWR_RSTAT and the sticky bits from the AON record store, which is then cleared (R360, R370). DESIGN CHOICE (log 8). -/
def State.startCause (s : State) : State :=
  let p := s.pwr
  let s := s.setReg (ra .pwr 0 0x058)
    (word (p.recCause % 8 + at1 p.recPf 3 + at1 p.recRet 4 + at1 s.lake.index.isSome 5))
  let s := if p.recRet then s.pwrStick 10 else s
  let s := if p.recPf then s.pwrStick 11 else s
  let s := if p.recCause = 2 then s.stick .thm 0 13 else s
  { s with pwr := { s.pwr with recCause := 0, recPf := false, recRet := false } }

/-- What a power failure in an update left in the inactive slot (R380): an unfinished verify goes on, an unfinished
download has to begin again. -/
def State.slotAtStart (s : State) : State :=
  let v := s.flash.slot (!s.activeSlot)
  if v.marker ≠ .incomplete then s
  else if v.verifying then { s with upd := { s.upd with st := .verifying, busy := 3 } }
  else s.updStick 13

/-- The image that the record names: a trial image that does not verify is rolled back, a confirmed one leaves the
recovery loader. DESIGN CHOICE (log 31). -/
def State.bootImage (s : State) (b : BootIn) : State :=
  let trial : Bool := match s.bootRec with
    | some r => r.trial
    | none => false
  if imageResult b.image = 1 then s.startImage fun s => s
  else if trial then s.rollBack true
  else s.enterRecovery

/-- Step 4 of R360 under the winning boot record: its image starts, and the base image applies. -/
def State.bootFrom (s : State) (b : BootIn) : State :=
  let s := (s.chooseRec.slotAtStart).bootImage b
  if s.pwr.recovery then s
  else
    let s := { s with pwr := { s.pwr with booted := true } }
    ((((s.trainMemory b).factoryCheck).lakeRecover b.badSlots)).applyBase b

/-- Steps 3 and 4 of R360. In the recovery loader too an unfinished download or verify is found (R380).
DESIGN CHOICE (log 8). -/
def State.boot (s : State) (b : BootIn) : State :=
  let s := s.flashStat b
  if !flashOk b then s.enterRecovery
  else
    let s := { s with flash := s.flash.readRecs b.brecSig0 b.brecSig1 }
    if s.flash.choice.isSome then s.bootFrom b else s.enterRecovery.slotAtStart

/-- COLD_START (R360): the enables rise, the PLL locks to CKA with fabric time 0 at lock (R221), the I²C straps are
sampled (R390), and the device boots. DESIGN CHOICE (log 8). -/
def execColdStart (boot : BootIn) (s : State) : Out :=
  .next (if s.pwr.st = .run && !s.pwr.booted then
      let s := if s.tim.locked then s else { s with tim := { s.tim with locked := true, time := 0, ckr := 0, msNum := 0 } }
      let s := { s with pwr := { s.pwr with penHigh := true }
                        hst := { s.hst with i2cAddr := 0x28 + boot.straps.toNat } }
      let s := if boot.secSelfTest then s else s.stick .sys 0 13
      (s.startCause).boot boot
    else s)

/-- What a warm reset leaves of a bank: its retirement, and with it degradation, persist (R126). -/
def Bank.afterWarm (x : Bank) : Bank :=
  if x.retired.isNone && !x.degraded then {}
  else
    { spare := if x.spare = .inUse then .inUse else .free, target := if x.spare = .inUse then x.target else 0
      retired := x.retired, hard := x.hard, degraded := x.degraded }

/-- A warm reset (R18, R28): the supervisor, registers, tables and datapaths are cleared; the AON domain, the lake's
contents, fabric time and the sequence counters stay, and with them what R12 and R126 let persist. The sessions' claims
on the lake stay with their numbers, the sessions themselves drop. -/
def State.warmReset (s : State) : State :=
  let z := State.reset
  let s' := { z with
    pending := s.pending
    flash := s.flash
    frames := s.frames
    regs := s.regs.filter fun p => aonRegs.contains p.1
    spe := { z.spe with emitted := s.spe.emitted
                        streams := (s.spe.streams.map fun (p : Nat × Stream) =>
                          (p.1, ({ seqNo := p.2.seqNo } : Stream))).filter fun (p : Nat × Stream) => p.2 ≠ ({} : Stream) }
    tim := { z.tim with time := s.tim.time, locked := true, ckr := s.tim.ckr, msNum := s.tim.msNum
                        msCount := s.tim.msCount, tinAt := s.tim.time }
    fab := { z.fab with sessions := (s.fab.sessions.filter fun (x : Session) => x.st ≠ SessSt.handshake).map fun (x : Session) =>
      { x with st := .dropped, hold := 0, granted := 0, asked := false, wants := false, askDue := false, bucket := 0 } }
    lake := { s.lake with ringNow := 0, ringFirst := 0, ring := [], capSt := .idle, missed := 0, replay := none, building := none,
                          replayStatus := 0, replayPipe := 0 }
    int := { z.int with out := s.int.out, msixEnable := s.int.msixEnable, funcMask := s.int.funcMask,
                        vecMask := s.int.vecMask, d3hot := s.int.d3hot }
    thm := { z.thm with regions := s.thm.regions, sread := s.thm.sread, brokenMs := s.thm.brokenMs }
    upd := { z.upd with win := s.upd.win, baseCopy := s.upd.baseCopy, versionLeft := s.upd.versionLeft }
    hst := { z.hst with linkUp := s.hst.linkUp, speed := s.hst.speed, width := s.hst.width, subsys := s.hst.subsys
                        i2cAddr := s.hst.i2cAddr }
    sup := { z.sup with linkBad := s.sup.linkBad }
    banks := (s.banks.map fun (p : Nat × Bank) => (p.1, p.2.afterWarm)).filter fun (p : Nat × Bank) => p.2 ≠ ({} : Bank)
    pwr := { z.pwr with booted := true, recCause := 0 } }
  let s' := s'.setReg (ra .pwr 0 0x058) (word 5)
  ((s'.slotAtStart).startImage State.rollbackReset).factoryCheck

end Sys2Proof.Machine
end

