-- ==== Sys2Proof/Machine/Commits.lean ====
section
/-! DEFINITION. Step 4 of a milestone (R14): due snapshots and released lock images in order of acceptance, each judged as
R422 states, and changes of BLK_CTRL.EN (R26). -/

namespace Sys2Proof.Machine

open Sys2Proof

/-! ### The checks by which a rule refuses a COMMIT (R422) -/

/-- Visit timing below the minimum of R68. -/
def State.visitShort (c : State) (n : Nat) : Bool :=
  let w := c.reg (ra .scan n 0x080)
  bits w 0 3 < 1 || bits w 4 4 < 2 || bits w 8 8 < 20

/-- OFFSET and sweep duration do not fit the period (R132). -/
def State.sweepLong (c : State) (n : Nat) : Bool :=
  let offset := c.fld (ra .scan n 0x084) 8 22
  let period := 2 ^ (28 - c.scanP n)
  decide (period ≤ offset) || decide (period < offset + ceilDiv (c.maskOf n).length 16 * c.visitLen n)

/-- The visit of the channel with index `i` in the mask of a bank breaks a condition of R137. DEDUCED (log 79). -/
def State.clashAt (c : State) (b ch i : Nat) : Bool :=
  let g := c.hgrp (c.holdGroup ch)
  if !c.grouped ch || !bit g 0 then false
  else
    let t := 2 ^ (28 - bits g 1 5)
    let v := c.visitLen b
    let start := c.fld (ra .scan b 0x084) 8 22 + i / 16 * v
    let hold := bits g 8 22 % t
    let ahead := (hold + t - start % t) % t
    let age := (start + v + t - hold) % t
    bits g 1 5 ≠ c.scanP b || decide (ahead < v) || decide (26843 < if age = 0 then t else age)

/-- Some port in hold-group mode breaks R137 on some bank. DEDUCED (log 79). -/
def State.holdClash (c : State) : Bool :=
  (List.range 24).any fun b =>
    let cs := c.maskOf b
    (cs.zip (List.range cs.length)).any fun (x : Nat × Nat) => c.clashAt b x.1 x.2

/-- Some channel of a scan page's mask is in the masks of more than two banks, or of two that do not name each other
(R112). -/
def State.partnersBad (c : State) (n : Nat) : Bool :=
  (c.maskOf n).any fun ch => match c.scansOf ch with
    | [_] => false
    | [b, p] => c.fld (ra .bank b 0x040) 4 5 ≠ p || c.fld (ra .bank p 0x040) 4 5 ≠ b
    | _ => true

/-- Some edge table falls somewhere (R186). -/
def State.edgesBad (c : State) : Bool :=
  (List.range 16).any fun t =>
    let es := edgesOf c.edgeWords t
    (es.zip (es.drop 1)).any fun (x : Nat × Nat) => decide (x.2 < x.1)

/-- TIM_TOUT_CFG.EN = 1 with a WIDTH or OFS that R239 refuses. -/
def State.toutBad (c : State) : Bool :=
  let w := c.reg (ra .tim 0 0x088)
  bit w 0 && (bits w 8 20 = 0 || decide (2 ^ 24 ≤ bits w 8 20 * 2 ^ bits w 1 5) ||
    decide (2 ^ 28 ≤ c.fld (ra .tim 0 0x08C) 0 28 * 2 ^ bits w 1 5))

/-- The sticky bits of the rules that refuse a COMMIT of a page whose values stand in `c`; `named` says whether an address
is among the values committed. None: the COMMIT is accepted. -/
def State.refusals (c : State) (page : Nat) (named : Nat → Bool) : List (PageKind × Nat × Nat) :=
  let one := fun (b : Bool) (k : PageKind) (inst n : Nat) => if b then [(k, inst, n)] else []
  match pageOf page with
  | some (.scan, n) =>
    one (c.visitShort n) .scan n 8 ++ one (c.sweepLong n) .scan n 9 ++ one c.holdClash .scan n 10 ++
      one (c.partnersBad n) .bank n 13 ++ one c.waitCycle .seq 0 9
  | some (.alloc, _) => one c.holdClash .alloc 0 12
  | some (.htr, p) => one (c.badPrograms p) .htr p 14 ++ one c.waitCycle .seq 0 9
  | some (.imp, n) => one (c.composeBad n) .imp n 8 ++ one (c.conflictBad n) .imp n 9 ++ one c.waitCycle .seq 0 9
  | some (.stb, _) => one c.edgesBad .stb 0 8
  | some (.tim, _) => one c.toutBad .tim 0 14
  | some (.lak, _) =>
    one (named (ra .lak 0 0x048) && decide (c.ownerShareWith (c.fld (ra .lak 0 0x048) 0 16) < 2)) .lak 0 10
  | _ => []

/-! ### Application (R35, R38) -/

/-- The values of a snapshot in force. -/
def State.withItems (s : State) (xs : List StagedWrite) : State := s.each xs fun s w => s.commitBits w.addr w.mask w.val

/-- The staged and RW values of a released lock image in force. DEDUCED (log 75). -/
def State.withHeld (s : State) (req : Nat) (xs : List HeldWrite) : State :=
  s.each xs fun s w => s.writeFields req w.addr w.val w.mask true

/-- A held write takes effect; an assembled pair whole, apart from any low word that its writer holds since (R38, R43). -/
def State.actHeld (s : State) (req : Nat) (w : HeldWrite) (due : Nat) : State :=
  match w.low with
  | none => s.actWrite req w.addr w.val w.mask true due
  | some lo =>
    let lows := s.acc.lows
    let s := (s.holdLow req (w.addr - 4) lo).actWrite req w.addr w.val w.mask true due
    { s with acc := { s.acc with lows := lows } }

/-- Writes that act at this milestone: an action that names the next milestone names this one (R38). -/
def State.actNow (s : State) (f : State → State) : State :=
  let s := f { s with tim := { s.tim with msCount := s.tim.msCount - 1 } }
  { s with tim := { s.tim with msCount := s.tim.msCount + 1 } }

/-- A held write of CAL_CMD. -/
def isCalCmd (w : HeldWrite) : Bool := w.addr = ra .cal7 7 0x040

/-- The held writes of CAL_CMD in the lock images due at this milestone: their operations belong to its step 2, where alone trims
change (R38, R151). DEDUCED (log 75). -/
def State.heldCal (s : State) : State :=
  if !s.sup.running || s.inReset (ra .cal7 7 0x040 / 0x1000) then s
  else
    (s.acc.snaps.filter fun (x : Snapshot) => decide (x.due ≤ s.tim.msCount)).foldl (fun s (x : Snapshot) =>
      s.actNow fun s => s.each (x.held.filter isCalCmd) fun s w => s.actCal (w.val &&& w.mask)) s

/-- A snapshot due at this milestone: refused with the sticky bits of the rules, or applied. DEDUCED (log 75). -/
def State.applySnapshot (s : State) (x : Snapshot) : State :=
  let named := fun (a : Nat) => (x.items.any fun w => w.addr = a) || x.held.any fun w => w.addr = a
  let rs := ((s.withItems x.items).withHeld x.req x.held).refusals x.page named
  if rs.isEmpty then
    (s.withItems x.items).actNow fun s => s.each (x.held.filter fun w => !isCalCmd w) fun s w =>
      s.actHeld x.req w (s.tim.msCount + 1)
  else s.each rs fun s r => s.stick r.1 r.2.1 r.2.2

/-- The snapshots due, in order of acceptance; they wait while the supervisor does not run (R21). A block reset that a
held write of RST starts cancels the later ones of its page (R36, R423). DEDUCED (log 84). -/
def State.applySnapshots (s : State) : State :=
  if !s.sup.running then s
  else
    let isDue := fun (x : Snapshot) => decide (x.due ≤ s.tim.msCount)
    let xs := s.acc.snaps.filter isDue
    ({ s with acc := { s.acc with snaps := s.acc.snaps.filter fun x => !isDue x } }).each xs fun s x =>
      if s.inReset x.page then s else s.applySnapshot x

/-- Starts of shadowing that a released lock image has asked for at this milestone, whose step 2 is over (R38).
DEDUCED (log 75). -/
def State.lateOps (s : State) : State := s.upTo 24 fun s b => s.shadowStarts b

/-! ### Service of blocks (R26) -/

/-- The streams of a pipeline that goes out of service stop (R26, R190). DEDUCED (log 28). -/
def State.endPipe (s : State) (b : Nat) : State :=
  s.each (s.spe.streams.map (·.1)) fun s i =>
    if (s.stream i).active && (s.streamBank i).any fun x => x = b then s.retire i else s

/-- A page enters or leaves service. What stops and starts with it follows from BLK_STAT.ENABLED, but for the alarm engine,
which restarts, and a pipeline, whose streams restart with zero chain state. -/
def State.setService (s : State) (page : Nat) (en : Bool) : State :=
  if s.inService page = en then s
  else
    let s := match pageOf page with
      | some (.pipe, b) => if en then s else s.endPipe b
      | _ => s
    let off := if en then s.acc.disabled.filter fun p => p ≠ page else natIns page s.acc.disabled
    let s := { s with acc := { s.acc with disabled := off } }
    match pageOf page with
    | some (.alm, _) => if en then s.driveOutputs else s.almRestart
    | some (.pipe, b) => if en then { s with spe := { s.spe with restart := s.spe.restart ++ [b] } } else s
    | _ => s

/-- Changes of BLK_CTRL.EN due at this milestone, in order of acceptance. DEDUCED (log 84). -/
def State.applyEnables (s : State) : State :=
  let isDue := fun (e : Nat × Bool × Nat) => decide (e.2.2 ≤ s.tim.msCount)
  let es := s.acc.enables.filter isDue
  ({ s with acc := { s.acc with enables := s.acc.enables.filter fun e => !isDue e } }).each es fun s e =>
    s.setService e.1 e.2.1

/-- Fields that a block reset of CAL7 or of the thermal page returns to reset at the next milestone (R425, R371). -/
def State.fieldResets (s : State) : State :=
  let clear := fun (s : State) (as_ : List Nat) => s.each as_ fun s a => s.setReg a (regReset a)
  let s := if s.cal.resetDue then
      clear { s with cal := { s.cal with resetDue := false } } [ra .cal7 0 0x044, ra .cal7 0 0x048, ra .cal7 0 0x04C]
    else s
  if s.thm.resetDue then
    clear { s with thm := { s.thm with resetDue := false } }
      ([ra .thm 0 0x040, ra .thm 0 0x044] ++ (List.range 12).map fun r => ra .thm 0 (0x080 + 4 * r))
  else s

/-- Streams of the pipelines that a block reset or a return to service restarts (R383, R26). DEDUCED (log 27). -/
def State.restartPipes (s : State) : State :=
  let bs := s.spe.restart
  let s := { s with spe := { s.spe with restart := [] } }
  s.each (s.spe.streams.map (·.1)) fun s i =>
    if (s.stream i).active && (s.streamBank i).any fun b => bs.contains b then (s.closeShort i).startStream i else s

/-- FAB_PCFG.EN or the service of a port page changes (R254, R26), or its cost or EXCL, on which routes rest (R258). -/
def State.fabPortSync (s s0 : State) (p : Nat) : State :=
  let st := (s.fport p).st
  let cfg := fun (s : State) => (s.portCost p, s.flag (ra .fabPort p 0x040) 3)
  let s := if cfg s = cfg s0 then s else { s with fab := { s.fab with routesDue := true, floodDue := true } }
  if s0.portOn p && !s.portOn p then s.portDown p .down
  else if s.portOn p && st = .down && !s0.portOn p then s.movePort p { s.fport p with st := .training, waited := 0 }
  else s

end Sys2Proof.Machine
end

