-- ==== Sys2Proof/Machine/Switch.lean ====
section
/-! DEFINITION. Step 3 of a milestone (R14): the glaze switch (R321 to R325), the boot glaze (R329) and the glaze in force
after a block reset (R322). -/

namespace Sys2Proof.Machine

open Sys2Proof

/-! ### Registers -/

/-- The bits of a word that an item may change there: ST fields under its mask that it leaves at no reserved encoding
(R24, R319). -/
def State.itemMask (s : State) (x : Item) : Word :=
  let v := mergeMask (s.reg x.offset) x.mask x.value
  (addrFields x.offset).foldl (fun m f =>
    if f.code = .st && !f.isBad (bits v f.lsb f.width) then m ||| (f.mask &&& x.mask) else m) 0

/-- An item leaves some ST field under its mask at a reserved encoding. -/
def State.itemBad (s : State) (x : Item) : Bool := s.itemMask x ≠ (stMask x.offset &&& x.mask)

/-- Bits of a word that the glaze coming into force holds, with their underlying values. -/
def State.holdUnder (s : State) (a : Nat) (mask : Word) : State :=
  let under := match s.glz.under.find? fun u => u.1 = a with
    | none => s.glz.under ++ [(a, mask, s.reg a &&& mask)]
    | some _ => s.glz.under.map fun u =>
      if u.1 = a then (u.1, u.2.1 ||| mask, mergeMask (s.reg a &&& (u.2.1 ||| mask)) u.2.1 u.2.2) else u
  { s with glz := { s.glz with under := under } }

/-- Bits of a register in force by a glaze (R56). -/
def State.glazeBits (s : State) (a : Nat) (mask val : Word) : State :=
  let s := s.setReg a (mergeMask (s.reg a) mask val)
  { s with acc := { s.acc with touched := s.acc.touched ++ [(a, mask)] } }

/-- A register item of the incoming glaze. DEDUCED (log 87). -/
def State.applyItem (s : State) (x : Item) : State :=
  let m := s.itemMask x
  let s := if s.itemBad x then s.stickPage (x.offset / 0x1000) 3 else s
  if m = 0 then s else (s.holdUnder x.offset m).glazeBits x.offset m x.value

/-! ### Table entries -/

/-- The entry with its words replaced where `f` says so, as an image in place of the software's. -/
def State.withImage (s : State) (t : TableId) (i : Nat) (f : Nat → Word) : State :=
  let mine := fun (p : Nat × Word) => t.addr i 0 ≤ p.1 && p.1 < t.addr (i + 1) 0
  let s := { s with acc := { s.acc with images := s.acc.images.filter fun p => !mine p } }
  s.upTo t.words fun s w =>
    let a := t.addr i w
    if f a = s.reg a then s else { s with acc := { s.acc with images := kins s.acc.images a (f a) } }

/-- New words of an entry are in force; the software's staging image stays as it is (R46, R322). -/
def State.glazeEntry (s : State) (t : TableId) (i : Nat) (f : Nat → Word) : State :=
  let own := fun (a : Nat) => kget s.acc.images a (s.reg a)
  let s' := s.withImage t i f
  let s' := if hasMilestone t then s'.keepEffective t i else s'
  (s'.candidate t i).withImage t i own

/-- The entries that items name, in the order of their first items. -/
def entriesOf (xs : List Item) : List (TableId × Nat) :=
  (xs.filterMap fun (x : Item) => (tableAt x.offset).map fun e => (e.1, e.2.1)).eraseDups

/-- An item names a word of an entry. -/
def Item.names (x : Item) (t : TableId) (i : Nat) : Bool := (tableAt x.offset).any fun e => e.1 = t && e.2.1 = i

/-- A word as the items leave it, in ascending order. -/
def itemsOver (xs : List Item) (a : Nat) (v : Word) : Word :=
  xs.foldl (fun v x => if x.offset = a then mergeMask v x.mask x.value else v) v

/-- An item is skipped: ITEM_SKIPPED and waymark 0x21 (R321). DEDUCED (log 87). -/
def State.skipItem (s : State) (id i : Nat) : State := (s.glzStick 12).waymark 0x21 [id, i]

/-- The items of an entry: in force if the entry that they make passes its table's rules; else its underlying value
stays. The words of an entry that software has swapped in for this milestone, one of `sw`, stay the software's (R14,
R322). DEDUCED (log 87). -/
def State.applyEntry (s : State) (sw : List (TableId × Nat)) (id : Nat) (xs : List (Nat × Item)) (e : TableId × Nat) : State :=
  let mine := xs.filter fun (x : Nat × Item) => x.2.names e.1 e.2
  let items := mine.map (·.2)
  let late := sw.contains e
  let f := fun (a : Nat) => itemsOver items a (s.reg a)
  let hold := fun (s : State) => s.each items fun s (x : Item) => s.holdUnder x.offset x.mask
  if late then hold s
  else if ((s.withImage e.1 e.2 f).entryReasons e.1 e.2).isEmpty then (hold s).glazeEntry e.1 e.2 f
  else s.each mine fun s x => s.skipItem id x.1

/-! ### The switch (R321) -/

/-- Everything that the outgoing glaze held returns to its underlying value. -/
def State.revertGlaze (s : State) : State :=
  let us := s.glz.under
  let back := fun (s : State) (a : Nat) => us.foldl (fun (v : Word) u => if u.1 = a then mergeMask v u.2.1 u.2.2 else v) (s.reg a)
  let s := { s with glz := { s.glz with under := [], reapply := [] } }
  let ents := (us.filterMap fun (u : Nat × Word × Word) => (tableAt u.1).map fun e => (e.1, e.2.1)).eraseDups
  let s := s.each us fun s u => if (tableAt u.1).isSome then s else s.glazeBits u.1 u.2.1 u.2.2
  s.each ents fun s e => if s.acc.swapped.contains e then s else s.glazeEntry e.1 e.2 (back s)

/-- The items of a glaze with their indexes. -/
def State.glazeItems (s : State) (id : Nat) : List (Nat × Item) :=
  match s.glazeDir id with
  | some d => (List.range (s.dirCount d)).zip (s.dirItems d)
  | none => []

/-- The items of the incoming glaze. -/
def State.applyGlaze (s : State) (sw : List (TableId × Nat)) (id : Nat) : State :=
  let xs := s.glazeItems id
  let regs := xs.filter fun (x : Nat × Item) => x.2.kind = 0
  let s := s.each regs fun s x => if s.alarmExcluded x.2 then s.skipItem id x.1 else s.applyItem x.2
  let tabs := xs.filter fun (x : Nat × Item) => x.2.kind = 1
  let s := s.each (tabs.filter fun (x : Nat × Item) => s.alarmExcluded x.2) fun s x => s.skipItem id x.1
  let tabs := tabs.filter fun (x : Nat × Item) => !s.alarmExcluded x.2
  s.each (entriesOf (tabs.map (·.2))) fun s e => s.applyEntry sw id tabs e

/-- The glaze switch at this milestone: the change is on time, or late (R325). DEDUCED (log 40). -/
def State.switchGlaze (s : State) (id num target : Nat) (late : Bool) : State :=
  let s := (s.revertGlaze).applyGlaze s.acc.swapped id
  let s := { s with glz := { s.glz with nowId := id, nowLate := late, nowMs := s.tim.msNum, nowChg := num } }
  let s := if late then s.glzStick 10 else s
  s.waymark 0x20 [id, num, target, s.tim.msNum]

/-- The pending change, if it is due (R324). A change that falls due while the supervisor does not run waits for it and is
late then (R378); so is one whose target a time step has skipped (R227). -/
def State.switchStep (s : State) : State :=
  match s.glz.pend with
  | none => s
  | some c =>
    let due : Bool := if c.late then decide (c.due ≤ s.tim.msCount) else !s.tim.ahead c.target
    if !due then s
    else if !s.sup.running then { s with glz := { s.glz with pend := some { c with late := true, due := s.tim.msCount } } }
    else
      let s := { s with glz := { s.glz with pend := none, applied := s.glz.applied ++ [c.num] } }
      s.switchGlaze c.id c.num c.target (c.late || s.tim.msNum % 2 ^ 32 ≠ c.target)

/-- The glaze in force is applied again to the pages that a block reset has cleared (R322). -/
def State.reapplyGlaze (s : State) : State :=
  let ps := s.glz.reapply
  let s := { s with glz := { s.glz with reapply := [] } }
  let xs := (s.glazeItems s.glz.nowId).filter fun (x : Nat × Item) => x.2.kind = 0 && ps.contains (x.2.offset / 0x1000)
  s.each xs fun s x => if s.alarmExcluded x.2 then s else s.applyItem x.2

/-! ### The glazes of the base image (R329) -/

/-- Words into glaze memory. -/
def State.putWords (s : State) (a : Nat) (ws : List Word) : State :=
  s.each ((List.range ws.length).zip ws) fun s (x : Nat × Word) => s.setReg (a + 4 * x.1) x.2

/-- One glaze of the image: its directory entry and items, loaded under R320. DEDUCED (log 76). -/
def State.loadImageGlaze (s : State) (g : Nat × Nat × Nat × List Item) : State :=
  let s := s.putWords (0x800000 + g.1 * 16) [word g.2.1, word g.2.2.1, word g.2.2.2.length, 0]
  let s := s.each ((List.range g.2.2.2.length).zip g.2.2.2) fun s (x : Nat × Item) =>
    s.putWords (0x801000 + (g.2.2.1 + x.1) * 16) [word (x.2.offset + x.2.kind * 2 ^ 24), x.2.value, x.2.mask, 0]
  s.glzLoad g.1

/-- The glazes of the chosen base image, and the boot glaze. DEDUCED (log 76). -/
def State.bootGlazes (s : State) : State :=
  match if s.pwr.noBase then none else if s.upd.baseCopy then s.flash.base1 else s.flash.base0 with
  | none => s
  | some img =>
    let s := s.each img.glazes fun s g => s.loadImageGlaze g
    if img.bootGlaze = 0 then s
    else if s.hasGlaze img.bootGlaze then s.switchGlaze img.bootGlaze 0 s.tim.msNum false
    else (s.glzStick 11).waymark 0x21 [img.bootGlaze, -1]

end Sys2Proof.Machine
end

