-- ==== Sys2Proof/Machine/Supervisor.lean ====
section
/-! DEFINITION. The die-to-die link and the supervisor's watchdog (R11, R12, R20, R21). -/

namespace Sys2Proof.Machine

open Sys2Proof

/-- D2D_RETRY (R11): the link, which runs while the PLL is locked, sends a beat again, and no code is lost. -/
def execD2dRetry (s : State) : Out :=
  .next (if s.tim.locked then (s.countSat (ra .sys 0 0x04C) 1).stick .sys 0 10 else s)

/-- D2D_FAIL (R12): 16 failures of one beat; records of the affected banks carry the plausibility-fault flag. -/
def execD2dFail (banks : BitVec 24) (s : State) : Out :=
  .next (if s.tim.locked then
      let bad := s.sup.linkBad ||| banks
      (({ s with sup := { s.sup with linkBad := bad } }).ringAdd (.links bad)).stick .sys 0 11
    else s)

/-- D2D_RECOVERY (R12): 1,024 consecutive good beats. -/
def execD2dRecovery (s : State) : Out := .next ({ s with sup := { s.sup with linkBad := 0 } }.ringAdd (.links 0))

/-- The watchdog restarts the supervisor alone (R21); a trial image counts the start, and rolls back in place of a fourth
(R379). DEDUCED (log 80). -/
def State.watchdogRestart (s : State) : State :=
  let s := (s.countWrap (ra .sys 0 0x048) 0 16 1).stick .sys 0 12
  let s := { s with sup := { s.sup with running := false, startDue := true, missed := 0
                                        restarts := s.sup.restarts ++ [s.tim.msCount] } }
  s.startImage State.rollbackReset

/-- SUPERVISOR_WATCHDOG (R21): 64 milestones without a check-in. A third restart within 1,024 milestones is a cold reset
in its place. -/
def execSupervisorWatchdog (s : State) : Out :=
  let recent := s.sup.restarts.filter fun n => s.tim.msCount < n + 1024
  .next (if !s.sup.running ∨ s.sup.missed < 64 then s
    else if 2 ≤ recent.length then s.coldReset 4
    else ({ s with sup := { s.sup with restarts := recent } }).watchdogRestart)

/-- SUPERVISOR_RESUME (R21, R378, R424): the supervisor runs again, and INVALIDATE writes and GLZ_CMD that waited are
carried out; COMMITs that waited follow at the next milestone. After an activation or a rollback it runs from a milestone on.
DEDUCED (log 38). -/
def execSupervisorResume (s : State) : Out :=
  .next (if s.sup.startDue && (!s.sup.atMs || s.atMilestone) then
      let s := { s with sup := { s.sup with running := true, startDue := false, atMs := false, missed := 0 } }
      (s.runWaiting).glzResume
    else s)

end Sys2Proof.Machine
end

