-- ==== Sys2Proof/Machine/FabricStep.lean ====
section
/-! DEFINITION. What a milestone does for the fabric and the lake (chapters 10 to 13): links that come up (R254),
addresses (R256, R257), the root's time frames (R233), election and healing (R237, R268), token buckets (R262), segments
(R277, R279, R285), and the counts of milestones behind the timeouts. -/

namespace Sys2Proof.Machine

open Sys2Proof

/-! ### Links and addresses -/

/-- Links whose bring-up is complete come up; each side sends a QUERY frame (R254, R327), and both parts' maps merge: the
advertisements that the device holds go over the new link (R269). -/
def State.linksUp (s : State) : State :=
  let ps := (List.range 8).filter fun p => (s.fport p).linkUpDue
  if ps.isEmpty then s
  else
    let first := s.upPorts.isEmpty
    let s := s.each ps fun s p =>
      let v := { s.fport p with linkUpDue := false, waited := 0 }
      let s := s.movePort p (if s.pwr.st = .sleep then { v with st := .upSleep, width := min 1 v.width } else { v with st := .up })
      s.sendLink p 4 0x08 [0, 2, 0, 0, 0] 16
    let s := if first ∧ s.tim.st = .free then { s with tim := { s.tim with sinceFrame := 0 } } else s
    let s := ({ s with fab := { s.fab with routesDue := true } }).flood
    (s.each ps fun s p => s.each s.fab.map fun s e => s.sendOn p 4 0x03 0x4000 0xFFFF (lsaNumbers e.lsa) 256).deliverPending

/-- The addresses that conflicts have cost the device (R257). -/
def State.lostAddrs (s : State) : List Nat := (s.fab.forbiddenAddrs.filter fun x => x.1 = s.uid).map (·.2)

/-- The device knows a root that it may ask for an address: the one it follows, or, before it follows any, one of its map. -/
def State.knowsRoot (s : State) : Bool :=
  s.rootNow.isSome || (s.tim.st = .free && s.fab.map.any fun e => e.lsa.root.isSome)

/-- The loser of a conflict gives its address up; the waymark follows when it has another (R257). -/
def State.giveUpAddr (s : State) : State :=
  if !s.supWorks then s
  else match s.fab.conflictDue, s.fab.addr with
  | true, some a =>
    let s := s.each (s.fab.sessions.filter fun x => !x.host && x.st = SessSt.open_) fun s x => s.dropSession x
    let s := s.each (s.fab.sessions.filter fun x => !x.host && x.st = SessSt.handshake) fun s x => s.dropNumber x.num
    let s := s.setRoute a (0, 0)
    let s := { s with fab := { s.fab with conflictDue := false, addr := none, oldAddr := some a, asking := false, routesDue := true,
                                          forbiddenAddrs := s.fab.forbiddenAddrs ++ [(s.uid, a)] } }
    (s.stick .fabDisc 0 8).flood
  | _, _ => { s with fab := { s.fab with conflictDue := false } }

/-- A device without an address claims PREF, or asks its root; a root without one takes the lowest free one (R256).
DEDUCED (log 82). -/
def State.claimAddr (s : State) : State :=
  let pref := s.fld (ra .fabDisc 0 0x040) 0 14
  if s.fab.addr.isSome ∨ s.upPorts.isEmpty ∨ !s.supWorks then s
  else if s.flag (ra .fabDisc 0 0x040) 14 ∧ !s.lostAddrs.contains pref then s.takeAddr pref
  else if s.tim.st = .root then
    match (List.range 16384).find? fun a => !s.taken s.uid a with
    | some a => s.takeAddr a
    | none => s
  else if s.knowsRoot ∧ !s.fab.asking then
    let s := { s with fab := { s.fab with asking := true } }
    let lost : List Int := if s.lostAddrs.isEmpty then [-1] else s.lostAddrs.map fun a => (a : Int)
    s.each s.upPorts fun s p => s.sendLink p 4 0x0A ([1, (s.uid : Int)] ++ lost) 16
  else s

/-! ### Roots (R237, R268) -/

/-- Rank of a device without an address: behind every addressed one (R268). -/
def noAddrRank : Nat := 16 * 16384

/-- The device's own rank in an election: its PREF counts as its address while it holds none. -/
def State.electRank (s : State) : Nat :=
  let key := fun (a : Nat) => rankKey (s.flag (ra .tim 0 0x05C) 0) (s.fld (ra .tim 0 0x05C) 1 3) a
  match s.fab.addr with
  | some a => key a
  | none => if s.flag (ra .fabDisc 0 0x040) 14 then key (s.fld (ra .fabDisc 0 0x040) 0 14) else noAddrRank

/-- The rank of an advertised device. -/
def MapEntry.rank (e : MapEntry) : Nat :=
  match e.lsa.addr.or e.lsa.pref with
  | some a => rankKey e.lsa.gnss e.lsa.hq.toNat a.toNat
  | none => noAddrRank

/-- The best device of the map that follows no root, if it beats the device itself. -/
def State.electOther (s : State) : Option MapEntry :=
  let better := fun (k u k' u' : Nat) => decide (k < k') || (k = k' && decide (u < u'))
  (s.fab.map.filter fun e => e.lsa.root.isNone).foldl (fun m e =>
    let (k, u) := match m with
      | some x => (MapEntry.rank x, x.lsa.uid.toNat)
      | none => (s.electRank, s.uid)
    if better e.rank e.lsa.uid.toNat k u then some e else m) none

/-- The device becomes root; with its old root lost it sets the island-root bit (R237). DEDUCED (log 82). -/
def State.becomeRoot (s : State) : State :=
  let island := s.fab.hadRoot && !s.flag (ra .tim 0 0x05C) 0
  let s := { s with fab := { s.fab with electDue := false, parted := false, hadRoot := false, parent := none, hops := 0 },
                    tim := { s.tim with islandRoot := island, sinceFrame := 0 } }
  (s.timState .root (s.fab.addr.getD 0) s.ownRank island).flood

/-- The election falls at the milestone after the loss (R268). DEDUCED (log 82). -/
def State.elect (s : State) : State :=
  if !s.fab.electDue ∨ !s.supWorks then s
  else match s.electOther with
    | none => s.becomeRoot
    | some e =>
      match e.lsa.addr.or e.lsa.pref with
      | none => s
      | some a =>
        let s := { s with fab := { s.fab with electDue := false, asking := false }, tim := { s.tim with sinceFrame := 0 } }
        s.timState s.tim.st a.toNat e.rank false

/-- Fresh start-up: eight milestones from the first link up without a root (R268). -/
def State.freshCount (s : State) : State :=
  if s.tim.st = .free ∧ !s.upPorts.isEmpty then
    if 8 ≤ s.tim.sinceFrame then { s with fab := { s.fab with electDue := true }, tim := { s.tim with sinceFrame := 0 } }
    else s
  else s

/-- A root whose TIM_RANK.GNSS is 1 clears the island-root bit (R237). -/
def State.gnssRoot (s : State) : State :=
  if s.tim.st = .root ∧ s.flag (ra .tim 0 0x05C) 0 then ({ s with tim := { s.tim with islandRoot := false } }).noteEpoch
  else s

/-- HEALING_HANDOVER (R237, R269): the healing adjustment is complete, and the winning root is the root, which the device
advertises. HOLDOVER goes on until a frame of it is accepted (R236). -/
def State.handover (s : State) : State :=
  let t := s.tim
  if t.healing ∧ t.healApplied ∧ !t.slewOn ∧ t.adj.isNone then
    let island := s.islandTime
    let rank := match s.fab.map.find? fun e => e.lsa.addr.map (·.toNat) = some t.winner with
      | some e => e.rank
      | none => rankKey false 7 t.winner
    let s := { s with tim := { t with healing := false, healApplied := false, islandRoot := false, rootIsland := island,
                                      sinceFrame := 0 }
                      fab := { s.fab with parted := false, parent := none, routesDue := true, asking := false } }
    let st := if t.st = .holdover then TimSt.holdover else .locked
    (((s.timState st t.winner rank island).stick .fabDisc 0 10).stick .fabDisc 0 11).flood
  else s

/-- A root sends a time frame on every port to a member, with its pending adjustment (R230, R233). -/
def State.timeFrames (s : State) : State :=
  if s.tim.st ≠ .root then s
  else
    let t := s.tim
    let seq := (t.frameSeq + 1) % 65536
    let adj : List Int := match t.adj with
      | none => [0, 0, 0, 0]
      | some x =>
        let ofs : Int := if x.mode = 2 then (x.setTime / 2 ^ 64 : Nat) + (x.setTime / 2 ^ 54 % 1024 : Nat) * 2 ^ 48 else x.offset
        [x.mode + 1, x.rate, (x.target.getD ((t.msNum + 1) % 2 ^ 32) : Nat), ofs]
    let rank := rankByte (s.flag (ra .tim 0 0x05C) 0) (s.fld (ra .tim 0 0x05C) 1 3) t.islandRoot
    let nums : List Int := ([(t.time : Int), 0, ((s.fab.addr.getD 0 : Nat) : Int), ((rank : Nat) : Int), 0, (seq : Int), (t.inc : Int)] : List Int) ++ adj
    let s := { s with tim := { t with frameSeq := seq } }
    s.each s.childPorts fun s p => s.sendLink p 0 0x02 nums 52

/-- Link delays of the milestone (R233). -/
def State.linkDelays (s : State) (m : MsIn) : State :=
  s.each m.links fun s x =>
    let p := x.port.val
    if (s.fport p).carries then
      s.setReg (ra .tim 0 (0x0E0 + 4 * p))
        (word (encInt 32 (divOpen ((x.t4 - x.t1) - (x.t3 - x.t2)) 2 + s.sfld (ra .tim 0 (0x0C0 + 4 * p)) 0 32)))
    else s

/-! ### Reservations and the lake -/

/-- Depth of a session's token bucket (R262). DESIGN CHOICE (log 35). -/
def State.bucketDepth (s : State) (x : Session) : Nat :=
  max (16 * x.granted) ((s.tc2Streams x).map fun i => recFrags (s.valuesOf i)).sum

/-- Token buckets gain their reserved slots, and waiting records leave on TC2 (R262). -/
def State.refill (s : State) : State :=
  s.each ((s.fab.sessions.filter fun x => x.st = SessSt.open_ && x.granted ≠ 0).map fun (x : Session) => x.num) fun s n =>
    match s.session n with
    | some x => (s.setSession { x with bucket := min (s.bucketDepth x) (x.bucket + x.granted) }).catchUp n false
    | none => s

/-- Segments at a milestone: sealed at multiples of 2^SEAL, pushed where they have grown, released (R277, R279, R285). -/
def State.segmentStep (s : State) : State :=
  let sealing := s.tim.msNum % 2 ^ s.fld (ra .lak 0 0x040) 8 4 = 0
  let s := s.each (s.lake.segs.map fun (g : Segment) => g.slot) fun s n =>
    match s.lake.segs.find? fun g => g.slot = n with
    | none => s
    | some g =>
      let r := if sealing && !g.sealed && !g.kept.isEmpty then s.sealSeg g
        else if g.pushed < g.toPush then s.pushSeg g else (s, g)
      r.1.setSeg r.2
  (s.releaseSegs).sendOwed

/-! ### Counts of milestones -/

/-- The counts behind the fabric's timeouts. -/
def State.fabCounts (s : State) : State :=
  let s := s.upTo 8 fun s p =>
    let v := s.fport p
    if v.st = .down then s
    else s.setFport p { v with waited := if v.carries then 0 else v.waited + 1, keyAge := if v.carries then v.keyAge + 1 else v.keyAge }
  let sess := s.fab.sessions.map fun (x : Session) => match x.st with
    | .handshake => { x with waited := x.waited + 1 }
    | .open_ => { x with silence := x.silence + 1 }
    | .dropped => { x with hold := x.hold + 1 }
  let fab := { s.fab with
    sessions := sess
    map := if s.supWorks then s.fab.map.map fun (e : MapEntry) => { e with age := e.age + 1 } else s.fab.map
    sinceFlood := if s.supWorks then s.fab.sinceFlood + 1 else s.fab.sinceFlood
    }
  let ages := fun (l : KMap Nat) => s.lake.holders.foldl (fun m (h : Nat × Nat × Nat) =>
    kset m h.1 (if (s.routeTo h.2.1).isSome then 0 else kget m h.1 0 + 1) 0) l
  let counts := s.tim.member || (s.tim.st = .free && !s.upPorts.isEmpty)
  { s with fab := fab, lake := { s.lake with holderAge := ages s.lake.holderAge, choiceIn := s.lake.choiceIn - 1 }
           tim := { s.tim with sinceFrame := if counts then s.tim.sinceFrame + 1 else s.tim.sinceFrame } }

/-- Lockouts count down (R302). -/
def State.lockoutStep (s : State) : State :=
  { s with fab := { s.fab with
    refusals := s.fab.refusals.map fun (p : Nat × Nat × Nat) => (p.1, p.2.1, if 1 < p.2.2 then p.2.2 - 1 else p.2.2) } }

/-- The advertisement has something to report, or waits to be flooded (R255). -/
def State.hasNews (s : State) : Bool := s.fab.floodDue || (!s.upPorts.isEmpty && s.lsaBody ≠ s.fab.told)

/-- Sessions that end at this milestone: closed ones, and handshakes of 64 milestones (R300, R302). -/
def State.sessionEnds (s : State) : State :=
  let s := s.each (s.fab.sessions.filter fun x => x.closeDue) fun s x => s.closeSession x.num
  s.each (s.fab.sessions.filter fun x => x.st = SessSt.handshake && decide (64 ≤ x.waited)) fun s x =>
    (s.refuseOpen x).dropNumber x.num

/-- The fabric and the lake at a milestone. -/
def State.fabricStep (s : State) (m : MsIn) : State :=
  let s := (s.linkDelays m).heldRequests
  let s := if s.hasNews && s.supWorks then s.flood else s
  let s := ((s.linksUp).giveUpAddr).elect
  let s := (((s.handover).gnssRoot).freshCount).claimAddr
  let s := (((s.timeFrames).lockoutStep).sessionEnds).refill
  (s.segmentStep).fabCounts

end Sys2Proof.Machine
end

