-- ==== Sys2Proof/Machine/Milestone.lean ====
section
/-! DEFINITION. The milestone (R14): the period that it ends, the six steps, the counts of milestones, and the power
states that a milestone enters (R347 to R351). -/

namespace Sys2Proof.Machine

open Sys2Proof

/-! ### The period that ends -/

/-- What the CKR cycle that reaches the boundary adds beyond it, in 2^-64 s (R221). DESIGN CHOICE (log 6). -/
def Tim.beyond (t : Tim) : Nat :=
  ((t.time + t.passed t.cyclesLeft : Int) - t.next).toNat

/-- The clock reaches the boundary (R219 to R221): the number of the milestone follows from its instant, and what the
milestone does stands at that instant. DESIGN CHOICE (log 6). -/
def State.reachBoundary (s : State) : State :=
  let t := s.tim
  let n := t.cyclesLeft
  { s with
    tim := { t.worked n with time := t.next, msCkr := t.ckr + n, msNum := t.next / msSpan, msCount := t.msCount + 1 }
    fab := { s.fab with ports := s.fab.ports.map fun p => (p.1, p.2.drain s.weightOf t.next n) }
    acc := { s.acc with touched := [] } }

/-- What the closed period leaves: substituted inputs, the ports' monitors and ranges, the observations that have reached the
alarm engine, temperatures. -/
def State.closePeriod (s : State) (m : MsIn) : State :=
  let s := ((s.ringAdd (.closing s.tim.time)).substPeriod s.tim.time).endLates
  let s := s.upTo 480 fun s c => s.portPeriod m c
  (s.takeAllObs).thmReadings m


/-- Adjustments that act at this milestone (R225 to R230, R234). -/
def State.adjustStep (s : State) : State :=
  let s := match s.tim.stepDue with
    | some d => ({ s with tim := { s.tim with stepDue := none } }).applyStep d
    | none => s
  match s.tim.adj with
  | some x => if x.hits s.tim then s.applyAdj x else s
  | none => s

/-- An instant that lies on the time line moves with a step of it. -/
def stepInst (k : Int) (t : Nat) : Nat := if t = 0 then 0 else (t + k * msSpan : Int).toNat

/-- No start and no swap of a switch lies after a stamp: what a negative step repeats meets the entry in effect. -/
def Switch.notAfter (x : Switch) (stamp : Nat) : Switch :=
  { x with since := min x.since stamp, olds := x.olds.map fun (o : Nat × List Word) => (min o.1 stamp, o.2) }

/-- A stream's intervals continue on the stepped time: the one in progress becomes the one that holds the new time, without
those that the step jumps over (R421). `j` is its interval exponent, `now` the stepped time. DEDUCED (log 109). -/
def Stream.stepTo (x : Stream) (j : Int) (now : Nat) (k : Int) : Stream :=
  let span : Int := 2 ^ (64 + j).toNat
  let began : Bool := x.interval * span ≤ now - k * msSpan
  let q : Int := if began then now / span else (now + span - 1) / span
  let move := fun (h : HalfSt) =>
    { h with bands := (h.bands.filter fun b => b.1 = x.interval.toNat).map fun b => (q.toNat, b.2) }
  { x with since := min x.since now, nextOut := none, interval := q, halves := x.halves.map fun (h : Nat × HalfSt) => (h.1, move h.2) }

/-- Sweeps and spot visits in progress lie on the stepped time from a step of `k` milestones on, and a sweep may start at
grid instants that the step repeats (R140). Durations that are measured in fabric time are measured on the stepped time
(R421): the instants at which they began or end stay. -/
def State.shiftInstants (s : State) (k : Int) : State :=
  let f := stepInst k
  let now := s.tim.time
  let strs := s.spe.streams.map fun (p : Nat × Stream) => (p.1, p.2.stepTo (s.sJ p.1) now k)
  let sws := s.alm.switches.map fun (p : Nat × Switch) => (p.1, p.2.notAfter s.tim.stamp)
  let rules := s.alm.rules.map fun (p : Nat × Rule) =>
    (p.1, { p.2 with olds := p.2.olds.map fun (o : Nat × List Word) => (min o.1 s.tim.stamp, o.2) })
  { s with
    hist := s.hist.map fun (e : Epoch) => { e with since := min e.since now }
    spe := { s.spe with streams := strs, mains := {} }
    alm := { s.alm with switches := sws, rules := rules }
    scans := s.scans.map fun (p : Nat × Scan) =>
      (p.1, { p.2 with sweepStart := f p.2.sweepStart, sweepEnd := f p.2.sweepEnd, lastQ := none, from_ := now })
    tim := { s.tim with toutFrom := now }
    seq := { s.seq with past := [] }
    banks := s.banks.map fun (p : Nat × Bank) =>
      (p.1, { p.2 with spot := { p.2.spot with startAt := f p.2.spot.startAt, stop := f p.2.spot.stop } })
    pwr := { s.pwr with liveAt := f s.pwr.liveAt } }

/-- The adjustments that act now, and the grids on the stepped time (R421). -/
def State.moveTime (s : State) : State :=
  let t := s.adjustStep
  let k := ((t.tim.time : Int) - s.tim.time) / msSpan
  if k = 0 then t else (t.shiftInstants k).upTo 24 fun s n => s.impShift n

/-! ### The steps of R14 -/

/-- Step 2: mordant trims and spare substitutions; after Deep Sleep every calibration epoch increments (R355). -/
def State.step2 (s : State) (m : MsIn) : State :=
  let s := ((s.bankChecks m).heldCal).substitutions
  let s := if s.pwr.woke = some 3 then s.upTo 24 fun s b => s.bumpEpoch b else s
  (s.mordant m s.pwr.basePending).shadowsAndStops

/-- Step 3: the glaze switch, or at M0 the boot glaze (R329), and the glaze in force on pages that a block reset has cleared; what
such a reset clears at this milestone only is cleared before (R322, R423). -/
def State.step3 (s : State) : State :=
  let s := s.fieldResets
  (if s.pwr.basePending then s.bootGlazes else s.switchStep).reapplyGlaze

/-- An engine at a milestone. In Sleep one without WATCH holds 0 V, also where WATCH is cleared meanwhile, and starts on the
return to Run only (R84), but a RUN = 0 that is committed in between counts for the end of a fault-disable (R89). -/
def State.engineStep (s s0 : State) (e : Nat) : State :=
  let g := s.engine e
  if s.pwr.st = .sleep && !bit (s.ecfg e) 21 then
    (if g.st = .fault then (if s.eRun e then s else s.setEngine e { g with runCleared := true })
     else if g.st = .stopped then s else s.stopEngine e)
  else s.engineSync s0 e

/-- What the values in force after step 4 do to the blocks. `s0` is the state before the glaze switch of step 3. -/
def State.takeEffect (s s0 : State) : State :=
  let s := (s.restartPipes).checkSync s0
  let tout := fun (s : State) => (s.reg (ra .tim 0 0x088), s.reg (ra .tim 0 0x08C))
  let s := if tout s = tout s0 then s else { s with tim := { s.tim with toutFrom := s.tim.time } }
  let s := if s.flag (ra .tim 0 0x088) 0 then s else { s with tim := { s.tim with touts := false } }
  let s := s.upTo 8 fun s p => s.fabPortSync s0 p
  let s := s.upTo 480 fun s c => s.portSync s0 c
  let s := s.upTo 128 fun s e => s.engineStep s0 e
  let s := s.upTo 24 fun s n => s.impSync s0 n
  let s := (s.quotaStep).ringStep
  let s := s.upTo 24 fun s b => (((s.bankMode s0 b).pairSync b).parkEnds b)
  let s := (s.upTo 512 fun s c => s.windowFrom s0 c).upTo 24 fun s n => s.sweepSync s0 n
  (s.lateOps).streamsSync

/-- Step 4: commits, coefficients, table entries (R14, R26, R183, R422, R424); without tracking f0 is the nominal one of
the SPE_MAINS in force, and the crossings of a tracking port that TCH names no more are forgotten (R184). What a released lock image writes to TIM_INC or asks of the time unit acts here (R38). `s0` is the
state before step 3. DEDUCED (log 95). -/
def State.step4 (s s0 : State) : State :=
  let s := (((s.applySnapshots).incStep).moveTime).applyEnables
  let f0 := if s.flag (ra .stb 0 0x048) 1 then s.spe.f0 else s.nominalF0
  let s := { s with spe := { s.spe with f0 := f0, coefF0 := f0, coefW := s.fld (ra .stb 0 0x048) 8 2 } }
  let s := (if s.trackPort = s0.trackPort then s else { s with spe := { s.spe with mains := {} } }).keepEdges s0
  (s.tableEffects).takeEffect s0

/-- The waymark of a cold start from another state than Run (R355). -/
def State.startMark (s : State) : State :=
  match s.pwr.cameFrom with
  | some old => ({ s with pwr := { s.pwr with cameFrom := none } }).waymark 0x28 [(old : Int), 0, (s.fld (ra .pwr 0 0x04C) 0 7 : Int)]
  | none => s

/-- The first milestone after the base configuration: the device is configured (R329), its ports train (R254), its tag
buses are searched (R395). DEDUCED (logs 61, 77). -/
def State.goLive (s : State) : State :=
  if !s.pwr.basePending then s
  else
    let s := { s with pwr := { s.pwr with live := true, basePending := false, liveAt := s.tim.time } }
    let s := s.upTo 8 fun s p =>
      if s.portOn p && (s.fport p).st = PortSt.down then s.movePort p { s.fport p with st := .training, waited := 0 } else s
    let s := s.startMark.updStartMark
    if s.fld (ra .pwr 0 0x058) 0 3 = 5 then s else s.tagStart

/-- The waymark of a return from Idle to Run (R355). -/
def State.idleMark (s : State) : State :=
  if s.pwr.idleLeft then ({ s with pwr := { s.pwr with idleLeft := false } }).pwrMark .idle .run 0 else s

/-- The first milestone after a wake (R84, R355); after Deep Sleep the rises of R366 are compared with averages from before it
no more. -/
def State.wakeStep (s : State) : State :=
  match s.pwr.woke with
  | none => s
  | some old =>
    let s := s.upTo 128 fun s e =>
      let g := s.engine e
      if s.eRun e && s.inService (0x030 + e / 16) && (g.st ≠ .fault || g.runCleared) then s.startEngine e else s
    let s := { s with pwr := { s.pwr with woke := none, resumed := true } }
    let s := if old = 3 then { s with thm := { s.thm with hist := s.thm.hist.map fun p => (p.1, p.2.take 1) } } else s
    s.pwrMark (if old = 3 then .deepSleep else .sleep) .run s.pwr.wakeMask

/-- Step 6: the allocator (R143, R146, R149); its moves wait for an enforcement that is due at this milestone (R14). -/
def State.step6 (s : State) (m : MsIn) : State :=
  let awake : Bool := s.pwr.st = .run || s.pwr.st = .idle
  let s := if awake then
      let s := s.noteActivity m
      { s with evalDue := s.tim.msNum % 2 ^ s.fld (ra .alloc 0 0x044) 0 3 = 0 }
    else s
  let s := if s.enforceDue then s else (s.allocMoves).foresee
  (s.throttleFlags).streamsSync

/-! ### Counts of milestones -/

/-- Switches without an observation (R204): milestones in Run or Idle; the count restarts at the first of them. -/
def State.quietStep (s : State) : State :=
  let awake : Bool := s.pwr.st = .run || s.pwr.st = .idle
  let s := s.each s.switchesOn fun s i =>
    let x := s.switch i
    s.setSwitch i { x with quiet := if !awake || x.obs then 0 else x.quiet + 1, obs := !awake }
  { s with alm := { s.alm with repeatDue := s.tim.msNum % 2 ^ s.fld (ra .alm 0 0x040) 0 4 = 0 } }

/-- Largest pipeline delays of the period (SPE_LAT), of at most 2,048 CKS cycles (R198). -/
def State.latencies (s : State) (m : MsIn) : State :=
  s.upTo 24 fun s b =>
    let n := ((m.latency.find? fun x => x.1.val = b).map (·.2)).getD 0
    s.setFld (ra .pipe b 0x04C) 0 16 (min n 2048)

/-- The milestone interrupt source (R238) and the deferred messages (R339). -/
def State.intStep (s : State) : State :=
  let w := s.reg (ra .tim 0 0x090)
  let s := if bit w 0 && s.tim.msNum % 2 ^ bits w 1 4 = 0 then s.pulse 16 else s
  s.sendDeferred

/-- Leases (R37), table entries (R45), tag buses (R395), a trial image (R379), the supervisor (R21, R348, R378). -/
def State.countStep (s : State) (m : MsIn) : State :=
  let locks := s.acc.locks.map fun (l : Lock) => { l with lease := l.lease - 1 }
  let s := ({ s with acc := { s.acc with locks := locks }, hst := { s.hst with tagAge := s.hst.tagAge + 1 } }).dirtyAges
  let awake : Bool := s.pwr.st = .run || s.pwr.st = .idle
  let s := if awake && s.upd.st = .trial then { s with upd := { s.upd with msLeft := s.upd.msLeft - 1 } } else s
  let s := if s.pwr.st = .run && s.sup.running then
      { s with sup := { s.sup with missed := if m.checkIn then 0 else s.sup.missed + 1 } }
    else s
  match s.sup.haltDue with
  | some n => if n ≤ s.tim.msCount then { s with sup := { s.sup with running := false, haltDue := none } } else s
  | none => s

/-- Everything that a milestone does beside the six steps. DEDUCED (log 20). -/
def State.afterSteps (s : State) (m : MsIn) : State :=
  let s := s.stallDetect
  let s := ((((s.waitsDown).refMonitor m).scanMilestone).trackMains).noteEpoch
  let s := (s.quietStep).fabricStep m
  let s := s.latencies m
  let s := if m.derate && s.flag (ra .lpddr 0 0x044) 18 then s.stick .lpddr 0 9 else s
  ((s.intStep).countStep m).tagNext

/-! ### Power states (R347 to R351) -/

/-- The supervisor has work (R348). DEDUCED (logs 85, 86). -/
def State.supervisorWork (s : State) (m : MsIn) : Bool :=
  m.supWork || !s.acc.snaps.isEmpty || !s.acc.dirty.isEmpty || !s.acc.waiting.isEmpty || s.fab.routesDue ||
    !s.cal.ops.isEmpty || s.banks.any (fun p => p.2.sc = 1 || p.2.sc = 2) || s.glz.busy || decide (s.sec.busy ≠ 0) ||
    decide (s.upd.busy ≠ 0)

/-- A request for Sleep or Deep Sleep waits (R350). -/
def State.sleepDeferred (s : State) : Bool :=
  s.banks.any (fun p => p.2.sc = 1 || p.2.sc = 2) || decide (s.lake.capSt = CapSt.copying)

/-- WBANK names no bank that may watch (R350). -/
def State.noWatchBank (s : State) : Bool :=
  decide (24 ≤ s.wbank) || decide (s.poolCfg s.wbank ≠ 0) || decide (s.scanP s.wbank < 14)

/-- The counts of silence restart at the next milestone in Run or Idle (R204). -/
def State.quietRestart (s : State) : State :=
  s.each s.switchesOn fun s i => s.setSwitch i { s.switch i with quiet := 0, obs := true }

/-- The device enters Sleep (R84, R204, R246, R349, R350). -/
def State.enterSleep (s : State) : State :=
  let old := s.pwr.st
  let s := { s with pwr := { s.pwr with st := .sleep, entry := s.tim.time }
                    alm := { s.alm with wakeSeen := false }
                    thm := { s.thm with wakeSeen := false } }
  let s := s.pwrMark old .sleep 0
  let s := (s.quietRestart).upTo 24 fun s n => s.impStop n
  let s := s.upTo 128 fun s e =>
    if bit (s.ecfg e) 21 || (s.engine e).st = HtrState.fault then s else s.stopEngine e
  let s := s.upTo 8 fun s p =>
    let v := s.fport p
    if v.st = .up then s.movePort p { v with st := .upSleep, width := min 1 v.width } else s
  let s := s.upTo 64 fun s p =>
    let x := s.place p
    s.setPlace p { x with slept := (x.bank, x.first, x.size) }
  (s.allocMoves).streamsMoved

/-- A port on the way down with its keys kept for the resumption of R246. -/
def State.portSleepDown (s : State) (p : Nat) : State :=
  let v := s.fport p
  if v.st = .down then s
  else s.movePort p { v with st := .down, lanes := 0, width := 0, linkUpDue := false, waited := 0,
                             hadKeys := v.hadKeys || v.carries }

/-- The device enters Deep Sleep (R351): the index is saved, links go down, time goes on in ticks of CKA (R221). -/
def State.enterDeepSleep (s : State) : State :=
  let s := s.pwrMark .sleep .deepSleep 0
  let s := s.upTo 128 fun s e => if (s.engine e).st = HtrState.fault then s else s.stopEngine e
  let s := (s.saveIndex).hostLinkDown
  let s := s.upTo 8 fun s p => s.portSleepDown p
  let t := ceilDiv s.tim.time (2 ^ 49) * 2 ^ 49
  { s with
    tim := { s.tim with time := t, locked := false, touts := false }
    pwr := { s.pwr with st := .deepSleep, entry := s.tim.time, penHigh := false, lowPower := true } }

/-- The check of the highest junction reading, in Sleep while REQ asks for Deep Sleep (R351). -/
def State.tryDeepSleep (s : State) : State :=
  let t := s.regionNow s.hottest
  if s.sleepDeferred then s.pwrStick 13
  else
  let s := { s with pwr := { s.pwr with temp := divOpen t 8 } }
  if 880 < t then ({ s with pwr := { s.pwr with refuse := 1 } }).pwrStick 8 else s.enterDeepSleep

/-- A request for Sleep or Deep Sleep that may act now, from Run. -/
def State.trySleep (s : State) : State :=
  if s.noWatchBank then { s with pwr := { s.pwr with refuse := 2, reqDue := 0 } }
  else if s.sleepDeferred then s.pwrStick 13
  else s.enterSleep

/-- Requests in PWR_CTRL after step 6 (R347, R348, R351). -/
def State.powerStep (s : State) (m : MsIn) : State :=
  let req := s.fld pwrCtrl 0 3
  let may : Bool := s.pwr.reqDue ≠ 0 && decide (s.pwr.reqDue ≤ s.tim.msCount) && !s.pwr.waking
  let work := s.supervisorWork m
  let s := if work then (s.leaveIdle).idleMark else s
  if !may then s
  else
    let s := if s.pwr.st = .run && req = 1 && !work then
        ({ s with pwr := { s.pwr with st := .idle } }).pwrMark .run .idle 0
      else if s.pwr.st = .run && (req = 2 || req = 3) then s.trySleep else s
    if s.pwr.st = .sleep && req = 3 then s.tryDeepSleep else s

/-! ### The milestone -/

/-- A warm reset that falls due (R28). -/
def State.warmNow (s : State) : Bool := s.acc.warmDue.any fun n => decide (n ≤ s.tim.msCount)

/-- What follows step 4: the first windows, a wake, outputs, the region limits, steps 5 and 6, and what is decided after them. `at_` is
the instant that the milestone was reached at. -/
def State.fromStep5 (s : State) (at_ : Nat) (m : MsIn) : State :=
  let s := if s.tim.time ≠ at_ then s.windowsAfterStep else s
  let s := ((s.goLive).idleMark).wakeStep
  let s := if s.almOn then s.driveOutputs else s
  let s := (((s.thmMilestone).step6 m).flushOut).afterSteps m
  ({ s with pwr := { s.pwr with resumed := false } }).powerStep m

/-- From step 4 on the milestone's records are held, and leave in order (`State.flushOut`, R189). -/
def State.openHold (s : State) : State := { s with spe := { s.spe with holding := true } }

/-- Steps 2 to 4 of a milestone (R14), from the state step 1 leaves. -/
def State.toStep4 (s : State) (m : MsIn) : State :=
  let s1 := (s.refReplace).step2 m
  (((s1.step3).noteEpoch).openHold).step4 s1

/-- What follows step 4: the device has gone off (R347), a warm reset begins (R28), or steps 5 and 6. -/
def State.fromStep4 (s : State) (at_ : Nat) (m : MsIn) : State :=
  if !s.pwr.clocked then s.flushOut
  else if s.warmNow then s.warmReset
  else s.fromStep5 at_ m

/-- What follows the end of the period: step 1, and the rest. -/
def State.stepsOf (s : State) (m : MsIn) : State :=
  let s0 := (s.incStep).moveTime
  (s0.toStep4 m).fromStep4 s.tim.time m

/-- Steps 1 to 6 and what goes with them, on a configured device; the ring gets the milestone with what it finds (R290).
DEDUCED (log 20). -/
def State.runMilestone (s : State) (m : MsIn) : State :=
  let s := s.closePeriod m
  (s.ringAdd (.milestone s.tim.msNum m s.snap)).stepsOf m

end Sys2Proof.Machine
end

