-- ==== Sys2Proof/Machine/Rerun.lean ====
section
/-! DEFINITION. The replay of a capture (R197, R207, R218, R293): the inputs that it holds go through the chains and the alarm engine
again, under the state that it records, apart from everything live; and the milestone, which moves a replay on. -/

namespace Sys2Proof.Machine

open Sys2Proof

/-! ### The machine of a replay -/

/-- A machine in a recorded state, without lake, sessions, links and logs. -/
def Snap.state (p : Snap) : State :=
  { State.reset with
    regs := p.regs, acc := p.acc, sup := p.sup, ports := p.ports, engines := p.engines, seq := p.seq, imps := p.imps,
    banks := p.banks, checks := p.checks, cal := p.cal, scans := p.scans, places := p.places, evalDue := p.evalDue,
    caps := p.caps, alm := { p.alm with obs := [] }, tim := p.tim, glz := p.glz, pwr := p.pwr, thm := p.thm, hist := p.hist,
    spe := { p.spe with emitted := [], replaying := true, made := [] } }

/-- A recorded state is in force from here on; chains and alarm states go on from what the replay has computed. Tracking and the
calculation of coefficients are not run again: their results are recorded (R197). -/
def State.adopt (s : State) (p : Snap) : State :=
  let t := p.state
  { t with alm := { s.alm with obs := [] }
           spe := { t.spe with streams := s.spe.streams, lates := s.spe.lates, substDone := s.spe.substDone, made := s.spe.made } }

/-- The machine of a replay at a fabric time. -/
def State.atTime (s : State) (t : Nat) : State := { s with tim := { s.tim with time := t } }

/-- One recorded item happens again. -/
def State.rerun (s : State) (x : RingItem) : State :=
  match x with
  | .milestone _ m p => (s.adopt p).stepsOf m
  | .codes _ f fast => s.feedAll f.ch f.bank (if fast then f.fastSample else f.heldSample)
  | .hold c h t => ((s.atTime t).setPort c { s.port c with held := h }).endLates
  | .upto t => s.substTo (s.tim.msNum * msSpan) t
  | .closing t => ((s.atTime t).substPeriod t).endLates
  | .interval i => s.closeInterval i
  | .sums n stamp e =>
    let l := kget e.sums e.per {}
    let s := s.setImp n e
    s.impRecords n stamp l (s.lockResult n l)
  | .epochs h => { s with hist := h }
  | .links bad => { s with sup := { s.sup with linkBad := bad } }
  | .moved p => (s.adopt p).streamsSync
  | .event o => ({ s with alm := { s.alm with obs := [o] } }).takeObs
  | .ack w t => ((s.atTime t)).actAck w
  | .silent i => s.goSilent i
  | .restart => s.almRestart

/-- What the blocks of a capture make of its inputs: the records that the replay computes from its first milestone on, whose state the
snapshot gives with the chain states and the alarm states. -/
def Capture.remade (c : Capture) : List OutRec :=
  match firstMilestone c.items with
  | some (_, p) => (p.state.each c.items fun s x =>
      { s with alm := { s.alm with obs := [] } }.rerun x).spe.made
  | none => []

/-- The number of a capture's first milestone, as its blocks count. -/
def Capture.firstNum (c : Capture) : Nat := ((firstMilestone c.items).map (·.1)).getD c.first

/-- The records of a replay from inputs of the milestones [lo, hi) of its capture, counted from its first: the newest of their
contributing inputs lies there and none before START, with flag bit 4 set and no flag bit 6 (R6, R197, R218, R293).
DEDUCED (log 67). -/
def State.replayed (s : State) (r : Replay) (lo hi : Nat) : List Record :=
  match s.lake.captures.find? fun c => c.idx = r.capture with
  | none => []
  | some c =>
    let at_ := fun (k : Nat) => (c.firstNum + k) * msSpan
    c.remade.filterMap fun x =>
      if at_ (c.offset r.start) ≤ x.oldest ∧ at_ lo ≤ x.newest ∧ x.newest < at_ hi ∧ x.record.kind ≠ 6 then
        some { x.record with flags := Nat.lor (x.record.flags % 64 + x.record.flags / 128 * 128) 16 }
      else none

/-- A running replay goes on to a milestone of its capture: what it computes goes to its session alone, on TC3 (R293). -/
def State.replayTo (s : State) (hi : Nat) : State :=
  match s.lake.replay with
  | none => s
  | some r =>
    let s' := match s.session r.session with
      | some x => s.each (s.replayed r r.upto hi) fun s y => s.sendRecord x 3 y false
      | none => s
    { s' with lake := { s'.lake with replay := some { r with upto := max r.upto hi } } }

/-- The place of a milestone number in the capture of the running replay. -/
def State.replayPlace (s : State) (ms : Nat) : Nat :=
  match s.lake.replay with
  | none => 0
  | some r => match s.lake.captures.find? fun c => c.idx = r.capture with
    | some c => c.offset ms
    | none => 0

/-- REPLAY_DONE (R293): END is reached. -/
def execReplayDone (s : State) : Out :=
  .next (match s.lake.replay with
    | none => s
    | some r => ((s.replayTo (s.replayPlace r.stop)).endReplay 2).stick .lak 0 17)

/-- A replay on a pipeline ends preempted (R293). -/
def State.preemptReplay (s : State) (b : Nat) : State :=
  match s.lake.replay with
  | some r => if r.pipe = b then (s.endReplay 4).stick .lak 0 18 else s
  | none => s

/-- A replay at a milestone: it ends where the pipeline's bank leaves the idle state (unparked, another pool, or a stream to
process), else it goes on by one milestone of its capture. DEDUCED (log 67). -/
def State.replayMilestone (s s0 : State) : State :=
  match s.lake.replay with
  | some r =>
    if (s0.parked r.pipe && !s.parked r.pipe) || ((s0.bank r.pipe).sc = 2 && (s.bank r.pipe).sc ≠ 2) || s0.pool r.pipe ≠ s.pool r.pipe || !s.pipeIdle r.pipe then s.preemptReplay r.pipe
    else s.replayTo (min (r.upto + 1) (s.replayPlace r.stop))
  | none => s

/-- MILESTONE (R14). Before the base configuration has been chosen, and in a wake from Deep Sleep (R221), only time goes on;
codes of the period that are on their way arrive first (R15). A replay goes on by one milestone of its capture. -/
def execMilestone (m : MsIn) (s : State) : Out :=
  .next (if !(s.tim.locked && s.pwr.counts) then s
    else
      let s := (s.arriveAll).each m.fast fun s f => s.arriveFast f
      let rest := s.tim.beyond
      let s := s.reachBoundary
      let s := if !s.pwr.clocked || !(s.pwr.live || s.pwr.basePending) then s
        else if s.warmNow then s.warmReset
        else (s.runMilestone m).replayMilestone s
      if s.tim.locked then { s with tim := { s.tim with time := s.tim.time + rest } } else s)

end Sys2Proof.Machine
end

