-- ==== Sys2Proof/Machine/Dispatch.lean ====
section
/-! DEFINITION. One arm per command: a direct call of its meaning. -/

namespace Sys2Proof.Machine

def exec (i : Instr) (s : State) : Host.Outcome State Fault Refusal :=
  match i with
  | .milestone m => Sys2Proof.Machine.execMilestone m s
  | .d2dRetry => Sys2Proof.Machine.execD2dRetry s
  | .d2dFail banks => Sys2Proof.Machine.execD2dFail banks s
  | .d2dRecovery => Sys2Proof.Machine.execD2dRecovery s
  | .supervisorWatchdog => Sys2Proof.Machine.execSupervisorWatchdog s
  | .supervisorResume => Sys2Proof.Machine.execSupervisorResume s
  | .aonPowerOnReset => Sys2Proof.Machine.execAonPowerOnReset s
  | .coldReset c => Sys2Proof.Machine.execColdReset c s
  | .sysReset a key warm => Sys2Proof.Machine.execSysReset a key warm s
  | .blockReset a page => Sys2Proof.Machine.execBlockReset a page s
  | .blockResetEnd page => Sys2Proof.Machine.execBlockResetEnd page s
  | .hostLinkReset c => Sys2Proof.Machine.execHostLinkReset c s
  | .sysD2dRetryRead a => Sys2Proof.Machine.execSysD2dRetryRead a s
  | .blockEnable a page en => Sys2Proof.Machine.execBlockEnable a page en s
  | .registerWrite a addr val width => Sys2Proof.Machine.execRegisterWrite a addr val width s
  | .commit a page => Sys2Proof.Machine.execCommit a page s
  | .discard a page => Sys2Proof.Machine.execDiscard a page s
  | .lockAcquire a page lease => Sys2Proof.Machine.execLockAcquire a page lease s
  | .lockUnlockCommit a page => Sys2Proof.Machine.execLockUnlockCommit a page s
  | .lockUnlockDiscard a page => Sys2Proof.Machine.execLockUnlockDiscard a page s
  | .lockLeaseExpiry page => Sys2Proof.Machine.execLockLeaseExpiry page s
  | .pairLowRead a r => Sys2Proof.Machine.execPairLowRead a r s
  | .pairHighRead a r => Sys2Proof.Machine.execPairHighRead a r s
  | .pairLowWrite a addr val => Sys2Proof.Machine.execPairLowWrite a addr val s
  | .pairHighWrite a addr val => Sys2Proof.Machine.execPairHighWrite a addr val s
  | .tableEntryWrite a addr val => Sys2Proof.Machine.execTableEntryWrite a addr val s
  | .invalidate a t idx => Sys2Proof.Machine.execInvalidate a t idx s
  | .invalidateAll a t => Sys2Proof.Machine.execInvalidateAll a t s
  | .automaticSwap t idx => Sys2Proof.Machine.execAutomaticSwap t idx s
  | .holdInstant ch dt win => Sys2Proof.Machine.execHoldInstant ch dt win s
  | .deadTimeEnd ch => Sys2Proof.Machine.execDeadTimeEnd ch s
  | .biasRampEnd ch => Sys2Proof.Machine.execBiasRampEnd ch s
  | .ecShortOpen ch => Sys2Proof.Machine.execEcShortOpen ch s
  | .visit scan ch dt codes => Sys2Proof.Machine.execVisit scan ch dt codes s
  | .portCompliance x => Sys2Proof.Machine.execPortCompliance x s
  | .portOpen ch => Sys2Proof.Machine.execPortOpen ch s
  | .portShort ch => Sys2Proof.Machine.execPortShort ch s
  | .portClamp x => Sys2Proof.Machine.execPortClamp x s
  | .holderLimit ch => Sys2Proof.Machine.execHolderLimit ch s
  | .ecShortClose => Sys2Proof.Machine.execEcShortClose s
  | .heaterTick => Sys2Proof.Machine.execHeaterTick s
  | .segmentEnd e => Sys2Proof.Machine.execSegmentEnd e s
  | .stop e => Sys2Proof.Machine.execStop e s
  | .vset e => Sys2Proof.Machine.execVset e s
  | .vramp e => Sys2Proof.Machine.execVramp e s
  | .tset e => Sys2Proof.Machine.execTset e s
  | .tramp e => Sys2Proof.Machine.execTramp e s
  | .mark e => Sys2Proof.Machine.execMark e s
  | .flag e => Sys2Proof.Machine.execFlag e s
  | .wait e => Sys2Proof.Machine.execWait e s
  | .jump e => Sys2Proof.Machine.execJump e s
  | .loop e => Sys2Proof.Machine.execLoop e s
  | .sync e => Sys2Proof.Machine.execSync e s
  | .waitSatisfied e => Sys2Proof.Machine.execWaitSatisfied e s
  | .waitTimeout e => Sys2Proof.Machine.execWaitTimeout e s
  | .syncReached e => Sys2Proof.Machine.execSyncReached e s
  | .controlTick total meas => Sys2Proof.Machine.execControlTick total meas s
  | .heaterProgFault e => Sys2Proof.Machine.execHeaterProgFault e s
  | .heaterShortGnd e => Sys2Proof.Machine.execHeaterShortGnd e s
  | .heaterShortVhtr e => Sys2Proof.Machine.execHeaterShortVhtr e s
  | .heaterOpen e => Sys2Proof.Machine.execHeaterOpen e s
  | .heaterOvertemp e => Sys2Proof.Machine.execHeaterOvertemp e s
  | .limitationEnd => Sys2Proof.Machine.execLimitationEnd s
  | .seqFset a hi val => Sys2Proof.Machine.execSeqFset a hi val s
  | .seqFclr a hi val => Sys2Proof.Machine.execSeqFclr a hi val s
  | .stallRelease g => Sys2Proof.Machine.execStallRelease g s
  | .impPeriodEnd n => Sys2Proof.Machine.execImpPeriodEnd n s
  | .impVisitEnd n => Sys2Proof.Machine.execImpVisitEnd n s
  | .impBase a n slot => Sys2Proof.Machine.execImpBase a n slot s
  | .impBaseAll a n => Sys2Proof.Machine.execImpBaseAll a n s
  | .pairFault b => Sys2Proof.Machine.execPairFault b s
  | .pairFaultEnd b => Sys2Proof.Machine.execPairFaultEnd b s
  | .checkFault ch => Sys2Proof.Machine.execCheckFault ch s
  | .checkFaultEnd ch => Sys2Proof.Machine.execCheckFaultEnd ch s
  | .spotRequest a b ch slice any urgent => Sys2Proof.Machine.execSpotRequest a b ch slice any urgent s
  | .spotStart b slice => Sys2Proof.Machine.execSpotStart b slice s
  | .spotNoGap b => Sys2Proof.Machine.execSpotNoGap b s
  | .spotCancel a b => Sys2Proof.Machine.execSpotCancel a b s
  | .spotDone b codes => Sys2Proof.Machine.execSpotDone b codes s
  | .spotDropRead a b => Sys2Proof.Machine.execSpotDropRead a b s
  | .chkCntRead a b => Sys2Proof.Machine.execChkCntRead a b s
  | .metastable b slice unresolved => Sys2Proof.Machine.execMetastable b slice unresolved s
  | .trimEnd b slice => Sys2Proof.Machine.execTrimEnd b slice s
  | .spareStart a b slice => Sys2Proof.Machine.execSpareStart a b slice s
  | .spareAbort a b => Sys2Proof.Machine.execSpareAbort a b s
  | .spareConverged b => Sys2Proof.Machine.execSpareConverged b s
  | .shadowTimeout b => Sys2Proof.Machine.execShadowTimeout b s
  | .sweepStart n q => Sys2Proof.Machine.execSweepStart n q s
  | .gateTimeout n => Sys2Proof.Machine.execGateTimeout n s
  | .sweepEnd n => Sys2Proof.Machine.execSweepEnd n s
  | .allocatorEvaluation => Sys2Proof.Machine.execAllocatorEvaluation s
  | .selfCalibrate a banks => Sys2Proof.Machine.execSelfCalibrate a banks s
  | .calSave a banks => Sys2Proof.Machine.execCalSave a banks s
  | .calRestore a banks => Sys2Proof.Machine.execCalRestore a banks s
  | .factoryReload a banks => Sys2Proof.Machine.execFactoryReload a banks s
  | .resetEstimators a banks => Sys2Proof.Machine.execResetEstimators a banks s
  | .selfCalibrationPhase b => Sys2Proof.Machine.execSelfCalibrationPhase b s
  | .selfCalibrationEnd b solved => Sys2Proof.Machine.execSelfCalibrationEnd b solved s
  | .gapVisit b slice full codes => Sys2Proof.Machine.execGapVisit b slice full codes s
  | .estimatorConverged b slice => Sys2Proof.Machine.execEstimatorConverged b slice s
  | .estimatorFail b slice => Sys2Proof.Machine.execEstimatorFail b slice s
  | .slopeComparison ppm => Sys2Proof.Machine.execSlopeComparison ppm s
  | .codeArrival fast => Sys2Proof.Machine.execCodeArrival fast s
  | .intervalEnd stream => Sys2Proof.Machine.execIntervalEnd stream s
  | .trackLost => Sys2Proof.Machine.execTrackLost s
  | .speSubstRead a p => Sys2Proof.Machine.execSpeSubstRead a p s
  | .speSatRead a p => Sys2Proof.Machine.execSpeSatRead a p s
  | .observation => Sys2Proof.Machine.execObservation s
  | .switchSilent k => Sys2Proof.Machine.execSwitchSilent k s
  | .almAck a rule => Sys2Proof.Machine.execAlmAck a rule s
  | .almAckAll a => Sys2Proof.Machine.execAlmAckAll a s
  | .foldBack n => Sys2Proof.Machine.execFoldBack n s
  | .foldRetry n => Sys2Proof.Machine.execFoldRetry n s
  | .foldTestEnd n limited => Sys2Proof.Machine.execFoldTestEnd n limited s
  | .extLow n => Sys2Proof.Machine.execExtLow n s
  | .drvFail n => Sys2Proof.Machine.execDrvFail n s
  | .alarmFrameRepeat => Sys2Proof.Machine.execAlarmFrameRepeat s
  | .alarmFrameOnAddress => Sys2Proof.Machine.execAlarmFrameOnAddress s
  | .alarmFrameReceive f => Sys2Proof.Machine.execAlarmFrameReceive f s
  | .timFracLoRead a => Sys2Proof.Machine.execTimFracLoRead a s
  | .timSnap a => Sys2Proof.Machine.execTimSnap a s
  | .timIncWrite a hi => Sys2Proof.Machine.execTimIncWrite a hi s
  | .adjStep a next => Sys2Proof.Machine.execAdjStep a next s
  | .adjSlew a next rate => Sys2Proof.Machine.execAdjSlew a next rate s
  | .adjSet a next => Sys2Proof.Machine.execAdjSet a next s
  | .adjCancel a => Sys2Proof.Machine.execAdjCancel a s
  | .slewEnd => Sys2Proof.Machine.execSlewEnd s
  | .tinEdge dt => Sys2Proof.Machine.execTinEdge dt s
  | .tinLost => Sys2Proof.Machine.execTinLost s
  | .timeFrameReceive port ingress f => Sys2Proof.Machine.execTimeFrameReceive port ingress f s
  | .holdover => Sys2Proof.Machine.execHoldover s
  | .healingDelta delta winner => Sys2Proof.Machine.execHealingDelta delta winner s
  | .msiLatch dt => Sys2Proof.Machine.execMsiLatch dt s
  | .timWmark a code => Sys2Proof.Machine.execTimWmark a code s
  | .pllLock => Sys2Proof.Machine.execPllLock s
  | .laneLoss port lane => Sys2Proof.Machine.execLaneLoss port lane s
  | .laneRejoin port lane => Sys2Proof.Machine.execLaneRejoin port lane s
  | .fragmentReceive port f => Sys2Proof.Machine.execFragmentReceive port f s
  | .negativeAcknowledge port seq => Sys2Proof.Machine.execNegativeAcknowledge port seq s
  | .linkAcknowledge port seq => Sys2Proof.Machine.execLinkAcknowledge port seq s
  | .ackTimeout port => Sys2Proof.Machine.execAckTimeout port s
  | .retryLimit port => Sys2Proof.Machine.execRetryLimit port s
  | .rekey port => Sys2Proof.Machine.execRekey port s
  | .laneTrainingDone port lanes => Sys2Proof.Machine.execLaneTrainingDone port lanes s
  | .authenticationDone port chain sigOk ownerRoot uid peer => Sys2Proof.Machine.execAuthenticationDone port chain sigOk ownerRoot uid peer s
  | .handshakeTimeout port => Sys2Proof.Machine.execHandshakeTimeout port s
  | .quarantineRetry port => Sys2Proof.Machine.execQuarantineRetry port s
  | .lsaFlood => Sys2Proof.Machine.execLsaFlood s
  | .lsaReceive port l => Sys2Proof.Machine.execLsaReceive port l s
  | .lsaWithdraw uid => Sys2Proof.Machine.execLsaWithdraw uid s
  | .addressRequest port uid lost => Sys2Proof.Machine.execAddressRequest port uid lost s
  | .addressAssign addr => Sys2Proof.Machine.execAddressAssign addr s
  | .routeComputation => Sys2Proof.Machine.execRouteComputation s
  | .timeParentChoice => Sys2Proof.Machine.execTimeParentChoice s
  | .reservationRequest session hop slots tenant => Sys2Proof.Machine.execReservationRequest session hop slots tenant s
  | .reservationGrant session slots => Sys2Proof.Machine.execReservationGrant session slots s
  | .reservationRefuse session reason => Sys2Proof.Machine.execReservationRefuse session reason s
  | .sessionOpen peer host role => Sys2Proof.Machine.execSessionOpen peer host role s
  | .sessionSubscribe session stream fromSeq => Sys2Proof.Machine.execSessionSubscribe session stream fromSeq s
  | .sessionAcknowledge session stream seq => Sys2Proof.Machine.execSessionAcknowledge session stream seq s
  | .ackTmoResend session stream => Sys2Proof.Machine.execAckTmoResend session stream s
  | .sessionClose session => Sys2Proof.Machine.execSessionClose session s
  | .sessionKeepAlive session => Sys2Proof.Machine.execSessionKeepAlive session s
  | .sessionDrop session => Sys2Proof.Machine.execSessionDrop session s
  | .sessionHoldEnd session => Sys2Proof.Machine.execSessionHoldEnd session s
  | .sessionResume session token leaf => Sys2Proof.Machine.execSessionResume session token leaf s
  | .sessionRegisterAccess session write addr val => Sys2Proof.Machine.execSessionRegisterAccess session write addr val s
  | .rootLost => Sys2Proof.Machine.execRootLost s
  | .maxageGiveUp seg => Sys2Proof.Machine.execMaxageGiveUp seg s
  | .replicaChoice cands => Sys2Proof.Machine.execReplicaChoice cands s
  | .replicaOffer peer uid => Sys2Proof.Machine.execReplicaOffer peer uid s
  | .pushReceive peer c => Sys2Proof.Machine.execPushReceive peer c s
  | .segmentRequest peer seg => Sys2Proof.Machine.execSegmentRequest peer seg s
  | .holderLost k => Sys2Proof.Machine.execHolderLost k s
  | .segmentReleaseReceive peer uid num => Sys2Proof.Machine.execSegmentReleaseReceive peer uid num s
  | .copyReceive peer c originatorReachable => Sys2Proof.Machine.execCopyReceive peer c originatorReachable s
  | .lakeResolve a slot => Sys2Proof.Machine.execLakeResolve a slot s
  | .lakeDiscard a slot => Sys2Proof.Machine.execLakeDiscard a slot s
  | .captureTrigger a => Sys2Proof.Machine.execCaptureTrigger a s
  | .capturePostTriggerEnd => Sys2Proof.Machine.execCapturePostTriggerEnd s
  | .captureCopyDone => Sys2Proof.Machine.execCaptureCopyDone s
  | .captureRelease a idx => Sys2Proof.Machine.execCaptureRelease a idx s
  | .captureReceive first last parts intact => Sys2Proof.Machine.execCaptureReceive first last parts intact s
  | .replayGo a => Sys2Proof.Machine.execReplayGo a s
  | .replayAbort a => Sys2Proof.Machine.execReplayAbort a s
  | .replayDone => Sys2Proof.Machine.execReplayDone s
  | .secRead a item => Sys2Proof.Machine.execSecRead a item s
  | .secSign a => Sys2Proof.Machine.execSecSign a s
  | .secInstall a => Sys2Proof.Machine.execSecInstall a s
  | .secClear a => Sys2Proof.Machine.execSecClear a s
  | .secCommandDone c => Sys2Proof.Machine.execSecCommandDone c s
  | .openLockoutEnd peer => Sys2Proof.Machine.execOpenLockoutEnd peer s
  | .glazeLoad a dir => Sys2Proof.Machine.execGlazeLoad a dir s
  | .glazeUnload a dir => Sys2Proof.Machine.execGlazeUnload a dir s
  | .glazeStore a dir => Sys2Proof.Machine.execGlazeStore a dir s
  | .glazeStoreDone ok => Sys2Proof.Machine.execGlazeStoreDone ok s
  | .modeChangeGo a id isLocal => Sys2Proof.Machine.execModeChangeGo a id isLocal s
  | .modeChangeRecall a isLocal => Sys2Proof.Machine.execModeChangeRecall a isLocal s
  | .modeChangeReceive port f => Sys2Proof.Machine.execModeChangeReceive port f s
  | .queryReceive port => Sys2Proof.Machine.execQueryReceive port s
  | .baseConfiguration boot => Sys2Proof.Machine.execBaseConfiguration boot s
  | .sourceEvent src level => Sys2Proof.Machine.execSourceEvent src level s
  | .moderationTimeout t => Sys2Proof.Machine.execModerationTimeout t s
  | .intEoi a t src => Sys2Proof.Machine.execIntEoi a t src s
  | .intFeoi a t src => Sys2Proof.Machine.execIntFeoi a t src s
  | .intClaim a t => Sys2Proof.Machine.execIntClaim a t s
  | .intFclaim a t => Sys2Proof.Machine.execIntFclaim a t s
  | .interruptFrameReceive port vector privileged onTc1 => Sys2Proof.Machine.execInterruptFrameReceive port vector privileged onTc1 s
  | .tamper selfTest => Sys2Proof.Machine.execTamper selfTest s
  | .reqRun a => Sys2Proof.Machine.execReqRun a s
  | .reqIdle a => Sys2Proof.Machine.execReqIdle a s
  | .reqSleep a => Sys2Proof.Machine.execReqSleep a s
  | .reqDeepSleep a => Sys2Proof.Machine.execReqDeepSleep a s
  | .reqOff a => Sys2Proof.Machine.execReqOff a s
  | .wakeEvent sources => Sys2Proof.Machine.execWakeEvent sources s
  | .wakeComplete => Sys2Proof.Machine.execWakeComplete s
  | .retentionLoss => Sys2Proof.Machine.execRetentionLoss s
  | .railWarning rail => Sys2Proof.Machine.execRailWarning rail s
  | .powerFail returned => Sys2Proof.Machine.execPowerFail returned s
  | .offExit => Sys2Proof.Machine.execOffExit s
  | .coldStart boot => Sys2Proof.Machine.execColdStart boot s
  | .sensorBroken sensor => Sys2Proof.Machine.execSensorBroken sensor s
  | .thmSexclWrite a excl => Sys2Proof.Machine.execThmSexclWrite a excl s
  | .enforcement => Sys2Proof.Machine.execEnforcement s
  | .enforceNow a => Sys2Proof.Machine.execEnforceNow a s
  | .enforcementStep => Sys2Proof.Machine.execEnforcementStep s
  | .enforcementEnd => Sys2Proof.Machine.execEnforcementEnd s
  | .thermalShutdown sensor region temp => Sys2Proof.Machine.execThermalShutdown sensor region temp s
  | .brokenSensorShutdown sensor => Sys2Proof.Machine.execBrokenSensorShutdown sensor s
  | .thermalRestart => Sys2Proof.Machine.execThermalRestart s
  | .updBegin a => Sys2Proof.Machine.execUpdBegin a s
  | .updWrite a => Sys2Proof.Machine.execUpdWrite a s
  | .updVerify a => Sys2Proof.Machine.execUpdVerify a s
  | .updActivate a cold => Sys2Proof.Machine.execUpdActivate a cold s
  | .updConfirm a => Sys2Proof.Machine.execUpdConfirm a s
  | .updRollback a => Sys2Proof.Machine.execUpdRollback a s
  | .updAbort a => Sys2Proof.Machine.execUpdAbort a s
  | .updResolve a copy => Sys2Proof.Machine.execUpdResolve a copy s
  | .updCommandDone c => Sys2Proof.Machine.execUpdCommandDone c s
  | .activationReverify c => Sys2Proof.Machine.execActivationReverify c s
  | .trialExpiry => Sys2Proof.Machine.execTrialExpiry s
  | .txqTailWrite a tail slots => Sys2Proof.Machine.execTxqTailWrite a tail slots s
  | .rxqHeadWrite a head => Sys2Proof.Machine.execRxqHeadWrite a head s
  | .rxRingWrite len isRecord => Sys2Proof.Machine.execRxRingWrite len isRecord s
  | .i2cWriteWord dt val => Sys2Proof.Machine.execI2cWriteWord dt val s
  | .i2cReadWord dt => Sys2Proof.Machine.execI2cReadWord dt s
  | .i2cBusTimeout => Sys2Proof.Machine.execI2cBusTimeout s
  | .tagSearch a bus => Sys2Proof.Machine.execTagSearch a bus s
  | .tagReadMemory a bus entry addr len => Sys2Proof.Machine.execTagReadMemory a bus entry addr len s
  | .tagAnnounce bus => Sys2Proof.Machine.execTagAnnounce bus s
  | .tagPeriodicSearch => Sys2Proof.Machine.execTagPeriodicSearch s
  | .tagBusShort bus => Sys2Proof.Machine.execTagBusShort bus s
  | .tagSearchDone bus rounds => Sys2Proof.Machine.execTagSearchDone bus rounds s
  | .tagReadDone ack bytes crc => Sys2Proof.Machine.execTagReadDone ack bytes crc s
  | .fabPretryRead a port => Sys2Proof.Machine.execFabPretryRead a port s
  | .fabPtagfRead a port => Sys2Proof.Machine.execFabPtagfRead a port s
  | .fabPqpeakRead a port => Sys2Proof.Machine.execFabPqpeakRead a port s
  | .fabPdropRead a port => Sys2Proof.Machine.execFabPdropRead a port s
  | .hstPciQdropRead a => Sys2Proof.Machine.execHstPciQdropRead a s
  | .toutEdge dt => Sys2Proof.Machine.execToutEdge dt s
  | .dacTick n => Sys2Proof.Machine.execDacTick n s
  | .wakeFromOff => Sys2Proof.Machine.execWakeFromOff s
  | .railWithinWindow rail => Sys2Proof.Machine.execRailWithinWindow rail s
  | .almPinLevelChange n high => Sys2Proof.Machine.execAlmPinLevelChange n high s
  | .configurationRequest msixEnable funcMask d3hot vecMask => Sys2Proof.Machine.execConfigurationRequest msixEnable funcMask d3hot vecMask s
  | .hostLinkUp speed width => Sys2Proof.Machine.execHostLinkUp speed width s
  | .i2cOffset dt offset write => Sys2Proof.Machine.execI2cOffset dt offset write s
  | .i2cTransactionEnd left => Sys2Proof.Machine.execI2cTransactionEnd left s
  | .recoveryRequest peer uid num => Sys2Proof.Machine.execRecoveryRequest peer uid num s
  | .sessionHandshakeDone session sigOk chain leaf => Sys2Proof.Machine.execSessionHandshakeDone session sigOk chain leaf s

end Sys2Proof.Machine
end

