-- ==== Sys2Proof/Machine/Step.lean ====
section
/-! DEFINITION. The step of the block: the command at the front of its queue, or, when no command waits, one cycle of
its clock. -/

namespace Sys2Proof.Machine

open Sys2Proof

/-- One cycle of the clock that counts fabric time: a CKR cycle, or in Deep Sleep a tick of CKA (R221, R353).
DESIGN CHOICE (log 2). -/
def State.idle (s : State) : State :=
  if s.pwr.st = .deepSleep ∧ !s.tim.locked then { s with tim := { s.tim with time := s.tim.time + 2 ^ 49 } }
  else s.elapse 1

/-- The state with the front of its queue taken off. -/
def State.pop (s : State) : State := { s with pending := s.pending.tail }

/-- One step: the command at the front of the queue acts on the state with the rest of the queue; with none waiting, a
cycle passes (log entry 2). DESIGN CHOICE (logs 2, 97). -/
def step (s : State) : Host.Outcome State Fault Refusal :=
  match s.pending with
  | [] => .next s.idle
  | c :: _ => exec c s.pop

/-- The state with the command that a word spells at the front of its queue: the opcode table gives no row any bits, so
no word spells a command. DESIGN CHOICE (log 97). -/
def State.withFetchWord (s : State) (_nbits _w : Nat) : State := s

end Sys2Proof.Machine
end

