-- ==== Sys2Proof/Safety.lean ====
section
/-! DEFINITION. What claims are stated in: the form that every step keeps, when a write of a requester acts, and when its
read has its side-effects. -/

namespace Sys2Proof.Machine
open Sys2Proof

/-- The register space is in canonical form (addresses strictly rising, no entry at its reset value), and the commands
that wait are those of `q`. -/
structure State.Keeps (s : State) (q : List Instr) : Prop where
  queue : s.pending = q
  wf : kWf regReset s.regs = true

/-- The write of `val` to `addr` by the requester of `a`, `a.dt` cycles from now, acts with all its bits: no reset, lock
or tenant mask stands in its way. `u` is the state it finds; `exempt` says that a lock does not hold it back. -/
abbrev State.Passes (s : State) (a : Acc) (addr : Nat) (val : Word) (exempt : Bool) (u : State) : Prop :=
  (s.accept a).gate a.req.toNat addr val exempt = .act u allOnes

/-- The requester sees the register: its page answers, and a tenant's window maps it and shows some bit. -/
def State.sees (s : State) (req addr : Nat) : Bool :=
  s.answers (addr / 0x1000) && s.validReq req &&
    (match s.tenantOf req with
     | none => true
     | some t => (s.winWr t (addr / 0x1000)).isSome && s.seeMask t req addr != 0)

/-- The read of `addr` by the requester of `a`, `a.dt` cycles from now, reaches the register. -/
abbrev State.Reads (s : State) (a : Acc) (addr : Nat) : Prop := (s.accept a).sees a.req.toNat addr = true

/-- The bits that a requester's read of a register shows. -/
def State.readMask (s : State) (req addr : Nat) : Word :=
  match s.tenantOf req with
  | none => allOnes
  | some t => s.seeMask t req addr

/-- A full-word read of a register that the read clears: its answer, and 0 left behind. -/
def State.readOff (s : State) (addr : Nat) : State := (s.answerWith (.data (s.reg addr))).setReg addr 0

/-- `t` is `s` with heater engine `e` at `g`. -/
def State.WithEngine (s t : State) (e : Nat) (g : Engine) : Prop :=
  t = { s with engines := t.engines } ∧ t.engine e = g ∧ ∀ d, d ≠ e → t.engine d = s.engine d

/-- `t` is `s` with Quevex port `p` at `v`. -/
def State.WithFport (s t : State) (p : Nat) (v : FabPort) : Prop :=
  t = { s with fab := { s.fab with ports := t.fab.ports } } ∧ t.fport p = v ∧ ∀ d, d ≠ p → t.fport d = s.fport d

/-- Nothing but the register space differs, and in it only the listed addresses. -/
def State.OnlyRegs (s t : State) (l : List Nat) : Prop :=
  t = { s with regs := t.regs } ∧ ∀ b, b ∉ l → t.reg b = s.reg b

end Sys2Proof.Machine
end

