-- ==== Sys2Proof/Certificates/Slice0/Obligations.lean ====
section
/-! DEFINITION. The statements for the provers. Each says in its docstring what it formalises; a clause that rests on a
choice of the model names the log entry. -/

open Sys2Proof Sys2Proof.Machine

/-! ### The step, the queue and the register space -/

/-- With a command at the front of its queue, a step is that command's effect on the state with the rest of the queue.
-/
def Obligations.StepRunsFrontCommand : Prop :=
  ∀ (c : Instr) (rest : List Instr) (s : State),
    s.pending = c :: rest → step s = exec c { s with pending := rest }

/-- With no command waiting, a step answers a next state with an empty queue in which at most fabric time and what time
alone moves in the fabric's ports differ: no register, no number of a milestone, no session (log entry 2). Cycles that
pass before a command never reach the next milestone, which is a command of its own, and emit none; without a locked PLL
that counts nothing passes (log entry 6). -/
def Obligations.IdleStepPassesCyclesBelowTheMilestone : Prop :=
  (
  ∀ s : State, s.pending = [] → ∃ t, step s = .next t ∧
    t = { s with tim := { s.tim with time := t.tim.time, slew := t.tim.slew, fix := t.tim.fix, ckr := t.tim.ckr },
                 fab := { s.fab with ports := t.fab.ports } }) ∧
  (
  ∀ (s : State) (n : Nat), (s.elapse n).tim.time < s.tim.next ∧ (s.elapse n).tim.msCount = s.tim.msCount ∧
    (s.elapse n).tim.msNum = s.tim.msNum ∧ (s.elapse n).regs = s.regs ∧
    (s.tim.locked = false ∨ s.pwr.counts = false → s.elapse n = s))

/-- Right after reset the queue is empty, the register space is in canonical form, every address reads its reset value,
fabric time stands at 0 with no milestone emitted, and the device has no configuration in force. -/
def Obligations.ResetHoldsTheForm : Prop :=
  State.reset.Keeps [] ∧ (∀ a, State.reset.reg a = regReset a) ∧ State.reset.tim.time = 0 ∧
    State.reset.tim.msCount = 0 ∧ State.reset.pwr.st = .run ∧ State.reset.pwr.live = false

/-- From every state whose register space is in canonical form, whatever command is at the front of the queue, a step
answers a next state (never a fault, never a refusal), exactly the other commands still wait, in their order, and the
register space is in canonical form. -/
def Obligations.EveryStepCompletesAndKeepsTheForm : Prop :=
  ∀ (s : State) (c : Instr) (rest : List Instr), s.Keeps (c :: rest) → ∃ t, step s = .next t ∧ t.Keeps rest

/-- A word written to the register space reads back at its address and nowhere else, whatever is written; the write
keeps the canonical form, and two canonical register spaces that read the same at every address are the same data. -/
def Obligations.RegisterSpaceLaws : Prop :=
  (∀ (s : State) (a b : Nat) (v : Word), (s.setReg a v).reg b = if b = a then v else s.reg b) ∧
  (∀ (s : State) (a : Nat) (v w : Word), kWf regReset s.regs = true → (s.setReg a v).setReg a w = s.setReg a w) ∧
  (∀ (s : State) (a : Nat) (v : Word), kWf regReset s.regs = true → kWf regReset (s.setReg a v).regs = true) ∧
  (∀ s t : State, kWf regReset s.regs = true → kWf regReset t.regs = true → (∀ a, s.reg a = t.reg a) → s.regs = t.regs)

/-! ### Who may write -/

/-- The gate of a write by an owner requester on a page that answers: while a block reset runs on the page the write is
dropped; without a lock it acts with all bits; a page's lock holds the holder's own writes back and drops those of
others with LOCKED_OUT (BLK_STICKY bit 1), but for W1C bits and BLK_LOCK, which are exempt. The gate of a write by a
tenant: on a page its window does not map the access is counted and dropped; on one that it maps without WR, or where it
shows no writable bit, the write is dropped, counted as hidden unless the bits it sets are all visible; else, with the
page out of reset and unlocked, it acts with the bits that the tenant may write, and a value that sets bits the tenant
does not see is counted as hidden. -/
def Obligations.WritesPassTheGateOrStopAtIt : Prop :=
  (
  ∀ (s : State) (req addr : Nat) (val : Word) (exempt : Bool),
    s.answers (addr / 0x1000) = true → s.ownerReq req = true →
    (s.inReset (addr / 0x1000) = true → s.gate req addr val exempt = .drop s) ∧
    (s.inReset (addr / 0x1000) = false →
      (s.lockOf (addr / 0x1000) = none → s.gate req addr val exempt = .act s allOnes) ∧
      (∀ l, s.lockOf (addr / 0x1000) = some l →
        (exempt = true → s.gate req addr val exempt = .act s allOnes) ∧
        (exempt = false ∧ l.holder = req → s.gate req addr val exempt = .hold s allOnes) ∧
        (exempt = false ∧ l.holder ≠ req → s.gate req addr val exempt = .drop (s.stickPage (addr / 0x1000) 1))))) ∧
  (
  ∀ (s : State) (req t addr : Nat) (val : Word) (exempt : Bool),
    s.answers (addr / 0x1000) = true → s.tenantOf req = some t →
    (s.winWr t (addr / 0x1000) = none → s.gate req addr val exempt = .drop (s.countUnmapped t)) ∧
    (s.winWr t (addr / 0x1000) = some false → s.gate req addr val exempt = .drop (s.countHidden t)) ∧
    (s.winWr t (addr / 0x1000) = some true →
      (s.writeMask t req addr = 0 → s.gate req addr val exempt = .drop
        (if s.seeMask t req addr ≠ 0 ∧ val &&& ~~~(s.seeMask t req addr) = 0 then s else s.countHidden t)) ∧
      (s.writeMask t req addr ≠ 0 ∧ s.inReset (addr / 0x1000) = true → s.gate req addr val exempt = .drop s) ∧
      (s.writeMask t req addr ≠ 0 ∧ s.inReset (addr / 0x1000) = false ∧ s.lockOf (addr / 0x1000) = none →
        s.gate req addr val exempt = .act
          (if val &&& ~~~(s.writeMask t req addr ||| s.seeMask t req addr) = 0 then s else s.countHidden t)
          (s.writeMask t req addr))))

/-- A write of a tenant to a page that its window does not map changes nothing in the machine but the answer of the
access, the tenant's own count TEN_UNMAPPED, and, for a narrow or unaligned access, SYS_STICKY. It says that this
command answers a next state under its hypotheses: registerWrite. -/
def Obligations.UnmappedTenantWriteChangesNothing : Prop :=
  ∀ (s : State) (a : Acc) (t : Nat) (addr : BitVec 24) (val : BitVec 64) (width : BitVec 4),
    (s.accept a).tenantOf a.req.toNat = some t → (s.accept a).winWr t (addr.toNat / 0x1000) = none →
    ∃ v, exec (.registerWrite a addr val width) s = .next v ∧
      v = { s.accept a with regs := v.regs, acc := { (s.accept a).acc with answer := v.acc.answer } } ∧
      ∀ b, b ≠ ra .tenStat t 0x044 → b ≠ ra .sys 0 0x010 → v.reg b = (s.accept a).reg b

/-! ### Register access (chapter 02) -/

/-- An aligned write of 8 or 16 bits to a register of a page that answers is ignored and sets SYS_STICKY.NARROW_WR (bit
8); nothing else changes but the answer of the access. It says that this command answers a next state under its
hypotheses: registerWrite. -/
def Obligations.NarrowWriteIsIgnoredAndNoted : Prop :=
  ∀ (s : State) (a : Acc) (addr : BitVec 24) (val : BitVec 64) (width : BitVec 4),
    (width = 1 ∨ width = 2) → addr.toNat % width.toNat = 0 →
    (s.accept a).answers (addr.toNat / 0x1000) = true → (s.accept a).validReq a.req.toNat = true →
    exec (.registerWrite a addr val width) s = .next (((s.accept a).stick .sys 0 8).answerWith .done)

/-- REGISTER_WRITE of a word that passes the gate, to a register with one field and no action of its own: an RW field
takes the value, a reserved encoding leaves RW and ST fields alone and sets BAD_ENC (BLK_STICKY bit 3), an ST value goes
to the requester's staging image, a W1C field loses the bits written as 1, and RO, WO, RS and LP fields do not change.
It says that this command answers a next state under its hypotheses: registerWrite. -/
def Obligations.RegisterWriteFollowsTheAccessCode : Prop :=
  ∀ (s u : State) (a : Acc) (addr : BitVec 24) (val : BitVec 64) (k : PageKind) (inst : Nat) (f : Field),
    addr.toNat % 4 = 0 → pageOf (addr.toNat / 0x1000) = some (k, inst) →
    addr.toNat % 0x1000 ≠ 0x008 → addr.toNat % 0x1000 ≠ 0x018 → addr.toNat % 0x1000 ≠ 0x01C →
    pairAt addr.toNat = none → addrFields addr.toNat = [f] →
    s.Passes a addr.toNat (val.truncate 32) (isW1c addr.toNat) u →
    u.bodyAction a.req.toNat k inst (addr.toNat % 0x1000) (val.truncate 32) allOnes u.tim.due = none →
    let v : Word := val.truncate 32
    let bad := f.isBad (bits v f.lsb f.width)
    let badEnc := u.stickPage (addr.toNat / 0x1000) 3
    ∃ t, exec (.registerWrite a addr val 4) s = .next (t.answerWith .done) ∧
      (f.code = .rw → t = if bad then badEnc else u.setReg addr.toNat (mergeMask (u.reg addr.toNat) f.mask v)) ∧
      (f.code = .st → t = if bad then badEnc else u.stageBits a.req.toNat addr.toNat f.mask v) ∧
      (f.code = .w1c → t = u.setReg addr.toNat (u.reg addr.toNat &&& ~~~ (v &&& f.mask))) ∧
      (f.code ∈ [.ro, .wo, .rs, .lp] → t = u)

/-- COMMIT takes a snapshot of the requester's staging image of the page, marks it for the milestone due (in the verge
the one after the next, with COMMIT_DEFERRED, bit 2) and empties the image; with an empty image it does nothing. DISCARD
empties the image. BLK_CTRL.EN on a page where it acts: a change is stored and acts at the milestone due; where it does
not act, EN = 0 sets BAD_ENC (bit 3). At the end of a block reset the page leaves the reset, and a block whose service
was out has its return marked for the milestone due. SYS_RESET with its key asks for a warm reset at the milestone due
(an earlier one stays); with another key it sets BAD_ENC. It says that each of these commands answers a next state under
its hypotheses: sysReset, blockResetEnd, blockEnable, commit, discard. -/
def Obligations.ImagesEnablesAndWarmReset : Prop :=
  (
  ∀ (s u : State) (a : Acc) (page : BitVec 12), (pageOf page.toNat).isSome = true →
    let p := page.toNat
    let req := a.req.toNat
    let mine := fun (w : StagedWrite) => decide (w.req = req) && decide (w.page = p)
    let rest := u.acc.stage.filter fun w => !mine w
    (s.Passes a (p * 0x1000 + 0x01C) 1 false u →
      (u.acc.stage.filter mine = [] → exec (.commit a page) s = .next u) ∧
      (u.acc.stage.filter mine ≠ [] → exec (.commit a page) s =
        .next { (if u.tim.verge then u.stickPage p 2 else u) with
          acc := { u.acc with stage := rest,
                              snaps := u.acc.snaps ++ [⟨p, req, u.tim.due, u.acc.stage.filter mine, []⟩] } })) ∧
    (s.Passes a (p * 0x1000 + 0x01C) 2 false u →
      exec (.discard a page) s = .next { u with acc := { u.acc with stage := rest } })) ∧
  (
  (∀ (s u : State) (a : Acc) (page : BitVec 12) (en : Bool) (k : PageKind) (inst : Nat),
    pageOf page.toNat = some (k, inst) →
    s.Passes a (page.toNat * 0x1000 + 0x008) (if en then 1 else 0) false u →
    let r := page.toNat * 0x1000 + 0x008
    (enActs k = false → exec (.blockEnable a page en) s = .next (if en then u else u.stickPage page.toNat 3)) ∧
    (enActs k = true ∧ u.flag r 0 = en → exec (.blockEnable a page en) s = .next u) ∧
    (enActs k = true ∧ u.flag r 0 ≠ en → exec (.blockEnable a page en) s =
      .next { u.setFld r 0 1 (if en then 1 else 0) with
        acc := { u.acc with enables := u.acc.enables ++ [(page.toNat, en, u.tim.due)] } })) ∧
  (∀ (s : State) (page : BitVec 12), s.inReset page.toNat = true →
    ∃ t, exec (.blockResetEnd page) s = .next t ∧ t.inReset page.toNat = false ∧
      t = { s with acc := { s.acc with inReset := s.acc.inReset.filter (· ≠ page.toNat), enables := t.acc.enables } } ∧
      t.acc.enables = if s.inService page.toNat then s.acc.enables
        else s.acc.enables ++ [(page.toNat, true, s.tim.due)]) ∧
  (∀ (s u : State) (a : Acc) (key : BitVec 8),
    (s.Passes a (ra .sys 0 0x040) (word (key.toNat + 256)) false u → u.ownerReq a.req.toNat = true →
      exec (.sysReset a key true) s = .next (if key = 0x57
        then { u with acc := { u.acc with warmDue := some (min u.tim.due (u.acc.warmDue.getD u.tim.due)) } }
        else u.stick .sys 0 3)) ∧
    (s.Passes a (ra .sys 0 0x040) (word key.toNat) false u → exec (.sysReset a key false) s = .next u)))

/-- The lock commands. Acquire takes a free lock, renews the holder's lease, and is refused with LOCKED_OUT (bit 1) on
another's lock. Unlock with commit by the holder releases the lock and marks the held writes, if any, for the milestone
due; unlock and discard by the holder releases it; requester 0 breaks another's lock, with LOCK_BROKEN (bit 0); anyone
else is refused with LOCKED_OUT; on a free page both unlocks do nothing. A lease that has reached 0 breaks the lock. A
write of a table word changes its entry's image alone, not the word in force. INVALIDATE of an entry, and the automatic
swap of one that was written (at a milestone, in ascending index, log entry 72), check it: an entry with no reason for
refusal has every word of its image in force afterwards, a refused one keeps its words, and in both cases the image is a
copy again. An index beyond the table sets BAD_ENC; while the supervisor does not run INVALIDATE waits in order;
INVALIDATE of all takes the entries with writes in ascending index. It says that each of these commands answers a next
state under its hypotheses: lockAcquire, lockUnlockCommit, lockUnlockDiscard, lockLeaseExpiry, tableEntryWrite,
invalidate, invalidateAll, automaticSwap. -/
def Obligations.LocksAndTableSwaps : Prop :=
  (
  (∀ (s u : State) (a : Acc) (page lease : BitVec 12), (pageOf page.toNat).isSome = true →
    let p := page.toNat
    let req := a.req.toNat
    let left := u.leaseFor req lease.toNat
    s.Passes a (p * 0x1000 + 0x018) (word (lease.toNat * 2 ^ 16)) true u →
      (u.lockOf p = none → exec (.lockAcquire a page lease) s =
        .next { u with acc := { u.acc with locks := u.acc.locks ++ [⟨p, req, left, []⟩] } }) ∧
      (∀ l, u.lockOf p = some l → l.holder = req → exec (.lockAcquire a page lease) s =
        .next { u with acc := { u.acc with
          locks := u.acc.locks.map fun (x : Lock) => if x.page = p then { x with lease := left } else x } }) ∧
      (∀ l, u.lockOf p = some l → l.holder ≠ req → exec (.lockAcquire a page lease) s = .next (u.stickPage p 1))) ∧
  (∀ (s u : State) (a : Acc) (page : BitVec 12), (pageOf page.toNat).isSome = true →
    let p := page.toNat
    let req := a.req.toNat
    let free : State := { u with acc := { u.acc with locks := u.acc.locks.filter fun l => l.page ≠ p } }
    (s.Passes a (p * 0x1000 + 0x018) (word (2 ^ 30)) true u →
      (u.lockOf p = none → exec (.lockUnlockCommit a page) s = .next u) ∧
      (∀ l, u.lockOf p = some l → l.holder = req → l.image = [] → exec (.lockUnlockCommit a page) s = .next free) ∧
      (∀ l, u.lockOf p = some l → l.holder = req → l.image ≠ [] → exec (.lockUnlockCommit a page) s =
        .next { (if u.tim.verge then free.stickPage p 2 else free) with
          acc := { free.acc with snaps := u.acc.snaps ++ [⟨p, req, u.tim.due, [], l.image⟩] } }) ∧
      (∀ l, u.lockOf p = some l → l.holder ≠ req → exec (.lockUnlockCommit a page) s = .next (u.stickPage p 1))) ∧
    (s.Passes a (p * 0x1000 + 0x018) (word (2 ^ 31)) true u →
      (u.lockOf p = none → exec (.lockUnlockDiscard a page) s = .next u) ∧
      (∀ l, u.lockOf p = some l → l.holder = req → exec (.lockUnlockDiscard a page) s = .next free) ∧
      (∀ l, u.lockOf p = some l → l.holder ≠ req → req = 0 → exec (.lockUnlockDiscard a page) s =
        .next (free.stickPage p 0)) ∧
      (∀ l, u.lockOf p = some l → l.holder ≠ req → req ≠ 0 → exec (.lockUnlockDiscard a page) s =
        .next (u.stickPage p 1)))) ∧
  (∀ (s : State) (page : BitVec 12) (l : Lock), s.lockOf page.toNat = some l →
    (l.lease = 0 → exec (.lockLeaseExpiry page) s =
      .next (State.stickPage { s with acc := { s.acc with locks := s.acc.locks.filter fun l => l.page ≠ page.toNat } }
        page.toNat 0)) ∧
    (l.lease ≠ 0 → exec (.lockLeaseExpiry page) s = .next s))) ∧
  (
  let swapped := fun (u v : State) (t : TableId) (i : Nat) =>
    v.isDirty t i = false ∧ v.imageOf t i = [] ∧
    (u.entryReasons t i ≠ [] → ∀ w, w < t.words → v.reg (t.addr i w) = u.reg (t.addr i w)) ∧
    (u.entryReasons t i = [] → kSorted u.acc.images = true → t ≠ .routing →
      ∀ w, w < t.words → v.reg (t.addr i w) = kget u.acc.images (t.addr i w) (u.reg (t.addr i w)))
  (∀ (s u : State) (a : Acc) (addr : BitVec 24) (val m : Word) (t : TableId) (i w : Nat), addr.toNat % 4 = 0 →
    tableAt addr.toNat = some (t, i, w) →
    (s.accept a).gate a.req.toNat addr.toNat val false = .act u m →
    exec (.tableEntryWrite a addr val) s = .next { u with acc := { u.acc with
      images := if u.reg addr.toNat = val then kdel u.acc.images addr.toNat else kins u.acc.images addr.toNat val
      dirty := (u.acc.dirty.filter fun d => !decide (d.table = t ∧ d.idx = i)) ++ [⟨t, i, 0⟩] } }) ∧
  (∀ (s u : State) (a : Acc) (t : TableId) (idx : BitVec 14),
    s.Passes a (t.page * 0x1000 + t.invOff) (word idx.toNat) false u →
    (t.count ≤ idx.toNat → exec (.invalidate a t idx) s = .next (u.stickPage t.page 3)) ∧
    (idx.toNat < t.count → u.sup.running = false → exec (.invalidate a t idx) s =
      .next { u with acc := { u.acc with waiting := u.acc.waiting ++ [(t, some idx.toNat)] } }) ∧
    (idx.toNat < t.count → u.sup.running = true →
      ∃ v, exec (.invalidate a t idx) s = .next v ∧ swapped u v t idx.toNat)) ∧
  (∀ (s : State) (t : TableId) (idx : BitVec 14),
    let may := s.sup.running = true ∧ s.pwr.live = true ∧ s.isDirty t idx.toNat = true ∧ s.atMilestone = true ∧
      ∀ x ∈ s.acc.autoSwaps, x.1 = t → x.2 < idx.toNat
    (may → ∃ v, exec (.automaticSwap t idx) s = .next v ∧ swapped s v t idx.toNat ∧ (t, idx.toNat) ∈ v.acc.autoSwaps) ∧
    (¬may → exec (.automaticSwap t idx) s = .next s)) ∧
  (∀ (s u : State) (a : Acc) (t : TableId),
    s.Passes a (t.page * 0x1000 + t.invOff) (word (2 ^ 31)) false u →
    (u.sup.running = false → exec (.invalidateAll a t) s =
      .next { u with acc := { u.acc with waiting := u.acc.waiting ++ [(t, none)] } }) ∧
    (u.sup.running = true → exec (.invalidateAll a t) s = .next ((u.dirtyOf t).foldl (fun v i => v.swapEntry t i) u))))

/-- A block reset of a page that answers, whatever the page: its registers but those its chapter keeps (and a bank's
count of faulted channels, log entry 73) read their reset values, its staging images, snapshots, lock, latches, held low
words and enable changes are gone and it is in reset; then its datapath clears and the partnerships of checking slices
that it ends end their check faults, a lock that was held leaves LOCK_BROKEN (bit 0), and the words of the glaze in
force on the page are noted to come back. It says that this command answers a next state under its hypotheses:
blockReset. -/
def Obligations.BlockResetClearsThePage : Prop :=
  ∀ (s u : State) (a : Acc) (page : BitVec 12) (k : PageKind) (inst : Nat),
    pageOf page.toNat = some (k, inst) →
    s.Passes a (page.toNat * 0x1000 + 0x008) 2 false u →
    let p := page.toNat
    let faulted := u.fld (ra .bank inst 0x078) 16 9
    let cleared : State := { u with regs := u.regs.filter fun x => x.1 / 0x1000 ≠ p || keptOnReset k (x.1 % 0x1000) }
    let cleared := if k = .bank then cleared.setFld (ra .bank inst 0x078) 16 9 faulted else cleared
    let cleared : State := { cleared with
      acc := { u.acc with
        stage := u.acc.stage.filter fun w => w.page ≠ p
        snaps := u.acc.snaps.filter fun x => x.page ≠ p
        locks := u.acc.locks.filter fun l => l.page ≠ p
        latches := u.acc.latches.filter fun l => l.addr / 0x1000 ≠ p
        lows := u.acc.lows.filter fun l => l.addr / 0x1000 ≠ p
        enables := u.acc.enables.filter fun e => e.1 ≠ p
        inReset := u.acc.inReset ++ [p] } }
    let done := (cleared.resetDatapath k inst).checkSync u
    let done := if (u.lockOf p).isSome then done.stickPage p 0 else done
    let here := fun (w : Nat × Word × Word) => decide (w.1 / 0x1000 = p)
    exec (.blockReset a page) s = .next { done with glz := { done.glz with
        under := done.glz.under.map fun w => if here w then (w.1, w.2.1, regReset w.1 &&& w.2.1) else w
        reapply := if done.glz.under.any here then done.glz.reapply ++ [p] else done.glz.reapply } } ∧
    (∀ b, b / 0x1000 = p → keptOnReset k (b % 0x1000) = false → (k = .bank → b ≠ ra .bank inst 0x078) →
      cleared.reg b = regReset b) ∧
    (∀ b, b / 0x1000 ≠ p → cleared.reg b = u.reg b) ∧
    (k ∈ [.sys, .alloc, .stb, .flash, .lpddr, .gpio, .i2c, .fabDisc, .fabRouter, .ten, .tenStat] →
      cleared.resetDatapath k inst = cleared)

/-- The latched pairs. A full-word read of the low word answers it and latches the other words for that requester; the
read of the high word answers the latched value (with NEWER in bit 31 where the live value has been renewed and the pair
has the bit) and ends the latch, and without a latch it answers the live value. A read of 8 or 16 bits answers the
addressed bytes of the live word and latches nothing, one of 64 bits answers both words in one completion, and one that
is not aligned to its width fails and sets UNALIGNED (SYS_STICKY bit 9). A write of a low word is held for its writer;
the write of the high word gives the pair its value whole, with the held low word if there is one. The reads that clear:
each of these registers answers its count and holds 0 afterwards; nothing else changes. It says that each of these
commands answers a next state under its hypotheses: sysD2dRetryRead, pairLowRead, pairHighRead, pairLowWrite,
pairHighWrite, spotDropRead, chkCntRead, speSubstRead, speSatRead, fabPretryRead, fabPtagfRead, fabPqpeakRead,
fabPdropRead, hstPciQdropRead. -/
def Obligations.ReadsWithEffects : Prop :=
  (
  (∀ (s : State) (a : Acc) (addr : BitVec 24) (p : Pair), addr.toNat % 4 = 0 → s.Reads a addr.toNat →
    pairAt addr.toNat = some p →
    let u := s.accept a
    let req := a.req.toNat
    let m := u.readMask req addr.toNat
    let others := u.acc.latches.filter fun l => !(decide (l.req = req) && decide (l.addr = p.lo))
    (p.lo = addr.toNat → exec (.pairLowRead a ⟨addr, 4⟩) s = .next { u with acc := { u.acc with
      latches := others ++ [⟨req, p.lo, ([p.hi] ++ p.comp.toList).map fun x => (x, u.view req x), false⟩]
      answer := .data (u.view req addr.toNat &&& m) } }) ∧
    (p.hi = addr.toNat → p.lo ≠ addr.toNat →
      (u.latchOf req p.lo = none → exec (.pairHighRead a ⟨addr, 4⟩) s =
        .next (u.answerWith (.data (u.view req addr.toNat &&& m)))) ∧
      (∀ l, u.latchOf req p.lo = some l →
        let v := kget l.vals addr.toNat 0
        exec (.pairHighRead a ⟨addr, 4⟩) s = .next { u with acc := { u.acc with
          latches := others
          answer := .data ((if p.newer && l.newer then v ||| word (2 ^ 31) else v) &&& m) } }))) ∧
  (∀ (s : State) (a : Acc) (addr : BitVec 24) (width : BitVec 4) (p : Pair), width = 1 ∨ width = 2 →
    addr.toNat % width.toNat = 0 →
    let base := addr.toNat / 4 * 4
    let u := s.accept a
    let w := u.view a.req.toNat base &&& u.readMask a.req.toNat base
    let t := u.answerWith (.data (word (w.toNat / 2 ^ (8 * (addr.toNat % 4)) % 2 ^ (8 * width.toNat))))
    s.Reads a base → pairAt base = some p →
    (p.lo = base → exec (.pairLowRead a ⟨addr, width⟩) s = .next t) ∧
    (p.lo ≠ base → exec (.pairHighRead a ⟨addr, width⟩) s = .next t)) ∧
  (∀ (s : State) (a : Acc) (addr : BitVec 24) (p : Pair), addr.toNat % 8 = 0 → pairAt addr.toNat = some p →
    p.lo = addr.toNat → pairAt (addr + 4).toNat = some p → p.lo ≠ (addr + 4).toNat →
    ∃ lo hi, exec (.pairLowRead a ⟨addr, 4⟩) s = .next lo ∧ exec (.pairHighRead ⟨a.req, 0⟩ ⟨addr + 4, 4⟩) lo = .next hi ∧
      exec (.pairLowRead a ⟨addr, 8⟩) s = .next (hi.answerWith (.pair lo.answered hi.answered))) ∧
  (∀ (s : State) (a : Acc) (addr : BitVec 24) (width : BitVec 4) (p : Pair), width ≠ 0 → addr.toNat % width.toNat ≠ 0 →
    pairAt (addr.toNat / 4 * 4) = some p →
    let u := s.accept a
    u.answers (addr.toNat / 0x1000) = true → u.validReq a.req.toNat = true →
    let t := (u.stick .sys 0 9).answerWith (if a.req.toNat = 1 then .nack else .unsupported)
    (p.lo = addr.toNat / 4 * 4 → exec (.pairLowRead a ⟨addr, width⟩) s = .next t) ∧
    (p.lo ≠ addr.toNat / 4 * 4 → exec (.pairHighRead a ⟨addr, width⟩) s = .next t)) ∧
  (∀ (s u : State) (a : Acc) (addr : BitVec 24) (val : Word) (p : Pair), pairAt addr.toNat = some p → p.writable = true →
    s.Passes a addr.toNat val false u →
    let req := a.req.toNat
    let rest := u.acc.lows.filter fun l => !(decide (l.req = req) && decide (l.addr = p.lo))
    (p.lo = addr.toNat → exec (.pairLowWrite a addr val) s =
      .next { u with acc := { u.acc with lows := rest ++ [⟨req, p.lo, val⟩] } }) ∧
    (p.hi = addr.toNat → p.lo / 0x1000 = pageNum .tim 0 → p.lo ≠ ra .tim 0 0x060 → exec (.pairHighWrite a addr val) s =
      .next { (match u.heldLow req p.lo with
          | some w => u.setReg p.lo w
          | none => u).setReg p.hi val with acc := { u.acc with lows := rest } }))) ∧
  (
  (∀ (s : State) (a : Acc), s.Reads a (ra .sys 0 0x04C) →
    exec (.sysD2dRetryRead a) s = .next ((s.accept a).readOff (ra .sys 0 0x04C))) ∧
  (∀ (s : State) (a : Acc) (b : Fin 24),
    (s.Reads a (ra .bank b.val 0x070) →
      exec (.spotDropRead a b) s = .next ((s.accept a).readOff (ra .bank b.val 0x070))) ∧
    (s.Reads a (ra .bank b.val 0x074) →
      exec (.chkCntRead a b) s = .next ((s.accept a).readOff (ra .bank b.val 0x074))) ∧
    (s.Reads a (ra .pipe b.val 0x044) →
      exec (.speSubstRead a b) s = .next ((s.accept a).readOff (ra .pipe b.val 0x044))) ∧
    (s.Reads a (ra .pipe b.val 0x048) →
      exec (.speSatRead a b) s = .next ((s.accept a).readOff (ra .pipe b.val 0x048)))) ∧
  (∀ (s : State) (a : Acc) (p : Fin 8),
    (s.Reads a (ra .fabPort p.val 0x048) →
      exec (.fabPretryRead a p) s = .next ((s.accept a).readOff (ra .fabPort p.val 0x048))) ∧
    (s.Reads a (ra .fabPort p.val 0x04C) →
      exec (.fabPtagfRead a p) s = .next ((s.accept a).readOff (ra .fabPort p.val 0x04C))) ∧
    (s.Reads a (ra .fabPort p.val 0x050) →
      exec (.fabPqpeakRead a p) s = .next ((s.accept a).readOff (ra .fabPort p.val 0x050))) ∧
    (s.Reads a (ra .fabPort p.val 0x058) →
      exec (.fabPdropRead a p) s = .next ((s.accept a).readOff (ra .fabPort p.val 0x058)))) ∧
  (∀ (s : State) (a : Acc), s.Reads a (ra .pci 0 0x074) →
    exec (.hstPciQdropRead a) s = .next ((s.accept a).readOff (ra .pci 0 0x074))))

/-! ### Supervisor, die-to-die link, resets (chapter 01) -/

/-- The die-to-die link and the supervisor. While the PLL is locked a retransmission counts in SYS_D2D_RETRY,
saturating, and sets D2D_RETRY (bit 10), and a failure marks the banks it names and sets D2D_FAIL (bit 11); the recovery
unmarks all; the ring of samples notes both. A running supervisor that has missed 64 check-ins is restarted alone:
RESTARTS counts, SUP_WDOG (bit 12) is set, it does not run, the boot record is chosen again and a trial image counts the
start; a third restart within 1,024 milestones is a cold reset with cause 4 in its place (log entry 80). A supervisor
that is due to start (after an activation at the first milestone) runs again, and INVALIDATE writes and a GLZ_CMD that
waited are carried out. It says that each of these commands answers a next state under its hypotheses: d2dRetry,
d2dFail, d2dRecovery, supervisorWatchdog, supervisorResume. -/
def Obligations.SupervisorAndLinkEvents : Prop :=
  (∀ s : State, s.tim.locked = true →
    exec .d2dRetry s = .next ((s.setReg (ra .sys 0 0x04C)
      (BitVec.ofNat 32 (min (2 ^ 32 - 1) ((s.reg (ra .sys 0 0x04C)).toNat + 1)))).stick .sys 0 10)) ∧
  (∀ (s : State) (banks : BitVec 24), s.tim.locked = true →
    let bad := s.sup.linkBad ||| banks
    exec (.d2dFail banks) s =
      .next (({ s with sup := { s.sup with linkBad := bad } }.ringAdd (.links bad)).stick .sys 0 11)) ∧
  (∀ s : State, exec .d2dRecovery s = .next ({ s with sup := { s.sup with linkBad := 0 } }.ringAdd (.links 0))) ∧
  (∀ s : State, s.sup.running = true → 64 ≤ s.sup.missed →
    let recent := s.sup.restarts.filter fun n => decide (s.tim.msCount < n + 1024)
    let restarted : State := { (s.setFld (ra .sys 0 0x048) 0 16 (s.fld (ra .sys 0 0x048) 0 16 + 1)).stick .sys 0 12 with
      sup := { s.sup with running := false, startDue := true, missed := 0, restarts := recent ++ [s.tim.msCount] } }
    (2 ≤ recent.length → exec .supervisorWatchdog s = .next (s.coldReset 4)) ∧
    (recent.length < 2 →
      let chosen := restarted.chooseRec
      exec .supervisorWatchdog s = .next (match chosen.bootRec with
        | none => chosen
        | some r => if r.trial ∧ 3 ≤ r.starts then chosen.countStart.rollbackReset else chosen.countStart))) ∧
  (∀ s : State, s.sup.startDue = true → (s.sup.atMs = true → s.atMilestone = true) →
    exec .supervisorResume s = .next
      (s.acc.waiting.foldl (fun (v : State) x => v.runInvalidate x.1 x.2)
        { s with sup := { s.sup with running := true, startDue := false, atMs := false, missed := 0 },
                 acc := { s.acc with waiting := [] } }).glzResume)

/-- A cold reset in Off changes nothing. What it leaves elsewhere: outside the always-on registers every register reads
its reset value, the queue, the flash and the saved lake index stay, fabric time restarts unlocked at 0, no
configuration is in force, every lock, staging image, session and segment is gone, and the cause is noted for the next
start unless a higher one is. An always-on power-on reset leaves no always-on register and no saved index either. A
host-link reset while the device is clocked takes the link down with speed and width 0, empties the RX holding buffer
and sets bit 10 of the PCI page's BLK_STICKY, whatever reset it is. It says that each of these commands answers a next
state under its hypotheses: aonPowerOnReset, coldReset, hostLinkReset. -/
def Obligations.ResetsClearAllButTheirDomain : Prop :=
  (
  (∀ (s : State) (c : ColdCause), s.pwr.st = .off → exec (.coldReset c) s = .next s) ∧
  (∀ (s : State) (c : ColdCause), s.pwr.st ≠ .off → ∃ t, exec (.coldReset c) s = .next t ∧
    (∀ a, aonRegs.contains a = false → t.reg a = regReset a) ∧ (∀ a, aonRegs.contains a = true → t.reg a = s.reg a) ∧
    t.pending = s.pending ∧ t.flash = s.flash ∧ t.lake.index = s.lake.index ∧ t.acc = {} ∧ t.ports = [] ∧
    t.tim = {} ∧ t.fab = {} ∧ t.lake.segs = [] ∧ t.glz = {} ∧ t.pwr.st = .run ∧ t.pwr.booted = false ∧
    t.pwr.live = false ∧ t.pwr.recCause = max (coldCode c) s.pwr.recCause) ∧
  (∀ s : State, ∃ t, exec .aonPowerOnReset s = .next t ∧ (∀ a, t.reg a = regReset a) ∧
    t.pending = s.pending ∧ t.flash = s.flash ∧ t.lake.index = none ∧ t.lake.segs = [] ∧ t.acc = {} ∧
    t.tim = {} ∧ t.pwr.recCause = 0 ∧ t.pwr.recRet = false ∧ t.pwr.live = false)) ∧
  (
  ∀ (s : State) (c : LinkCause), s.pwr.clocked = true → ∃ t, exec (.hostLinkReset c) s = .next t ∧
    t.hst.linkUp = false ∧ t.hst.speed = 0 ∧ t.hst.width = 0 ∧ t.hst.held = [] ∧ t.flag (ra .pci 0 0x010) 10 = true)

/-! ### Cell ports (chapter 03) -/

/-- A hold instant on a working channel of the running device: the element that integrated goes to hold with the
window's value (for IN16 the calibration tone's mean), its start and stop, range index and marker, and the other element
integrates from the hold instant on; a due range change takes the place of the range in force. Where no instant of the
channel's grid or visits has come since its window began, only time has passed. It says that this command answers a next
state under its hypotheses: holdInstant. -/
def Obligations.HoldInstantClosesTheWindow : Prop :=
  ∀ (s : State) (ch : Fin 512) (dt : Nat) (win : WindowIn),
    let u := s.elapse dt
    let c := ch.val
    (u.running = true → u.holds c = true → u.holdAt c = none → exec (.holdInstant ch dt win) s = .next u) ∧
    ∀ at_, u.running = true → u.holds c = true → u.holdAt c = some at_ → ∃ t, exec (.holdInstant ch dt win) s = .next t ∧
      (∃ h, (t.port c).held = some h ∧ h.value = (if c = 496 then u.toneOver (u.winFrom c) at_ else win.value) ∧
        h.start = u.winFrom c ∧ h.stop = at_ ∧
        h.index = u.rangeNow c ∧
        h.marker = (if (u.port c).compliance ∨ (u.port c).isOpen ∨ (u.port c).clamp ∨
            (chanKind c = .ms ∧ (u.engine (c - 256)).st = .fault) then 3
          else if win.overload then 2 else if (u.port c).winBlank then 1 else 0)) ∧
      (t.port c).winStart = at_ ∧ (t.port c).elemB = !(u.port c).elemB ∧ (t.port c).change = none ∧
      (∀ r, (u.port c).change = some r → (t.port c).range = (if r = u.cfgRange c then none else some r)) ∧
      (∀ d, d ≠ c → t.port d = u.port d)

/-- What ends in a port on the running device, once it is due: the dead time, the bias ramp (at its target), and 100 µs
after an enable the closed short of an EC port (the ramp to the target begins where the bias is not there). Nothing else
changes. The port faults on an enabled port of the running device: each sets its AFE_PFAULT bit and its summary bit on
the page and acts on the port: compliance and open persist in the port, a short fault-disables it and closes its short,
a clamp takes the photodiode bias to 0 V; compliance and clamp last until their condition ends. A holder that limits in
Deep Sleep is noted for the wake. It says that each of these commands answers a next state under its hypotheses:
deadTimeEnd, biasRampEnd, ecShortOpen, portCompliance, portOpen, portShort, portClamp, holderLimit. -/
def Obligations.PortSequencesAndFaults : Prop :=
  (
  (∀ (s : State) (ch : Fin 480), s.running = true → (s.port ch.val).blanking = true →
    (s.port ch.val).blankEnd ≤ s.tim.time →
    exec (.deadTimeEnd ch) s = .next (s.setPort ch.val { s.port ch.val with blanking := false })) ∧
  (∀ (s : State) (ch : Fin 256), s.running = true → (s.port ch.val).ramping = true →
    s.biasAt ch.val s.tim.time = s.biasTarget ch.val * 65536 →
    exec (.biasRampEnd ch) s = .next (s.setPort ch.val
      { s.port ch.val with
        ramping := false, startRamp := false
        bias := (if bit (s.pcfg ch.val) 13 then 0 else s.sfld (portReg ch.val 4) 0 16) * 65536 })) ∧
  (∀ (s : State) (ch : Fin 256), s.running = true → (s.port ch.val).engaging = true →
    (s.port ch.val).shortOpen ≤ s.tim.time →
    let ramps := decide ((if bit (s.pcfg ch.val) 13 then 0 else s.sfld (portReg ch.val 4) 0 16) * 65536 ≠ (s.port ch.val).bias)
    exec (.ecShortOpen ch) s = .next (s.setPort ch.val
      { s.port ch.val with
        engaging := false, shortClosed := false, ramping := ramps, startRamp := ramps
        rampAt := (s.port ch.val).shortOpen }))) ∧
  (
  (∀ (s : State) (ch : Fin 256), s.running = true → s.chanOn ch.val = true →
    exec (.portCompliance ⟨ch, true⟩) s = .next (((s.setPort ch.val { s.port ch.val with compliance := true }).orReg
      (portReg ch.val 12) (bitW 1)).stickPage (chanPage ch.val) 9) ∧
    exec (.portCompliance ⟨ch, false⟩) s = .next (s.setPort ch.val { s.port ch.val with compliance := false })) ∧
  (∀ (s : State) (ch : Fin 480), s.running = true → s.chanOn ch.val = true → ch.val < 384 →
    16 ≤ (s.port ch.val).openCount → (s.port ch.val).isOpen = false →
    exec (.portOpen ch) s = .next (((s.setPort ch.val { s.port ch.val with isOpen := true }).orReg
      (portReg ch.val 12) (bitW 2)).stickPage (chanPage ch.val) 10)) ∧
  (∀ (s : State) (ch : Fin 480), s.running = true → s.chanOn ch.val = true → chanKind ch.val ≠ .fp →
    let u := s.settleRange ch.val
    exec (.portShort ch) s = .next (((u.setPort ch.val { u.port ch.val with
        fdis := true, fdisCleared := false, held := none, blanking := false, blankEnd := 0, shortClosed := true,
        engaging := false, ramping := false, startRamp := false, bias := 0 }).orReg (portReg ch.val 12) (bitW 3)).stickPage (chanPage ch.val) 11)) ∧
  (∀ (s : State) (p : Fin 64), s.running = true → s.chanOn (384 + p.val) = true →
    exec (.portClamp ⟨p, true⟩) s = .next (((s.setPort (384 + p.val) { s.port (384 + p.val) with
        clamp := true, pbCut := true }).orReg (portReg (384 + p.val) 12) (bitW 4)).stickPage (chanPage (384 + p.val)) 12) ∧
    exec (.portClamp ⟨p, false⟩) s = .next (s.setPort (384 + p.val) { s.port (384 + p.val) with clamp := false })) ∧
  (∀ (s : State) (ch : Fin 256), s.pwr.st = .deepSleep → s.chanOn ch.val = true →
    exec (.holderLimit ch) s = .next (s.setPort ch.val { s.port ch.val with holderLimited := true })))

/-! ### Heater engines and event flags (chapter 04) -/

/-- The operations of a heater program. An engine that is ready (at a heater tick, between two operations, at a word of
its region, at most 16 untimed operations in succession) executes the word at its program counter as the operation table
says; a drive is cut at VMAX and scaled while the supply limit acts, and a STOP as the 17th untimed operation only
counts, for HEATER_PROG_FAULT to follow. Nothing but that engine changes, and for a MARK that changes the value the
window in progress of its MS port gets mark bit 6. It says that each of these commands answers a next state under its
hypotheses: stop, vset, vramp, tset, tramp, mark, flag, wait, jump, loop, sync. -/
def Obligations.HeaterOperationsFollowTheTable : Prop :=
  ∀ (s : State) (e : Fin 128), s.ready e.val = true →
    let g := s.engine e.val
    let w := s.progWord e.val
    let arg := argOf w
    let next := { g with pc := g.pc + 1, untimed := g.untimed + 1 }
    let seg : Engine := { g with segOp := opOf w, segTick := s.tickNow, segLen := durOf w * 16 ^ unitOf w,
                                 segTarget := arg, firstCtl := true, untimed := 0, closed := false, segStart := arg }
    let limited := fun d => if s.seq.limitedNow ∧ s.ilim < s.seq.total then d * s.ilim / s.seq.total else d
    (opOf w = 0 → ∃ t, exec (.stop e) s = .next t ∧ s.WithEngine t e.val (if 16 ≤ g.untimed then
      { g with untimed := g.untimed + 1 } else
      { g with st := .stopped, drive := 0, rawDrive := 0, closed := false, segLen := 0, untimed := 0, isSync := false })) ∧
    (opOf w = 1 → ∃ t, exec (.vset e) s = .next t ∧ s.WithEngine t e.val
      { seg with rawDrive := min arg (s.vmax e.val), drive := limited (min arg (s.vmax e.val)) }) ∧
    (opOf w = 2 → ∃ t, exec (.vramp e) s = .next t ∧ s.WithEngine t e.val { seg with segStart := g.drive }) ∧
    (opOf w = 3 → ∃ t, exec (.tset e) s = .next t ∧ s.WithEngine t e.val { seg with closed := true, setpoint := arg }) ∧
    (opOf w = 4 → ∃ t, exec (.tramp e) s = .next t ∧
      let start := if g.closed then g.setpoint else g.temp
      s.WithEngine t e.val { seg with closed := true, segStart := start, setpoint := start }) ∧
    (opOf w = 5 → ∃ t, exec (.mark e) s = .next t ∧
      t = { s with engines := t.engines, ports := t.ports } ∧ t.engine e.val = { next with mark := arg % 64 } ∧
      (∀ d, d ≠ e.val → t.engine d = s.engine d) ∧ (∀ c, c ≠ 256 + e.val → t.port c = s.port c) ∧
      t.port (256 + e.val) = (if g.mark = arg % 64 then s.port (256 + e.val) else
        { s.port (256 + e.val) with markBits := Nat.lor (s.port (256 + e.val)).markBits 64 })) ∧
    (opOf w = 6 → ∃ t, exec (.flag e) s = .next t ∧ s.WithEngine t e.val
      { next with flagReq := g.flagReq ++ [(arg % 64, decide (arg / 64 % 2 = 1))] }) ∧
    (opOf w = 7 → ∃ t, exec (.wait e) s = .next t ∧ s.WithEngine t e.val
      { g with st := .waiting, isSync := false, waitFlag := arg % 64, waitVal := decide (arg / 64 % 2 = 1),
               waitLeft := durOf w * 16 ^ unitOf w, untimed := 0 }) ∧
    (opOf w = 8 → ∃ t, exec (.jump e) s = .next t ∧ s.WithEngine t e.val { next with pc := arg % 1024 }) ∧
    (opOf w = 9 → ∃ t, exec (.loop e) s = .next t ∧
      let second := decide (arg / 1024 % 2 = 1)
      let c := if second then g.loop1 else g.loop0
      let n := ((if c = 0 then durOf w else c) + 16383) % 16384
      s.WithEngine t e.val { next with pc := if n ≠ 0 then arg % 1024 else g.pc + 1,
                                       loop0 := if second then g.loop0 else n, loop1 := if second then n else g.loop1 }) ∧
    (opOf w = 10 → ∃ t, exec (.sync e) s = .next t ∧ s.WithEngine t e.val
      { g with st := .waiting, isSync := true, untimed := 0 })

/-- How a live engine leaves a segment or a wait at a heater tick: a segment that has lasted its ticks goes on at the
next word (an open ramp at its target drive, a setpoint ramp at its target); a SYNC goes on at a tick that is a multiple
of 2^-ARG s; a WAIT whose flag has the value goes on at the next word with TIMEOUT clear, and one whose count has run
out at the word after that with TIMEOUT set. Nothing but that engine changes. The heater faults of a live engine that is
not fault-disabled, each where it is observable: the engine is fault-disabled with its drive at 0 and its output in the
state of the fault table, its HTR_EFAULT bit and the page's summary bit are set, and the window in progress of its MS
port, where the port is in use, gets mark bit 7. It says that each of these commands answers a next state under its
hypotheses: segmentEnd, waitSatisfied, waitTimeout, syncReached, heaterProgFault, heaterShortGnd, heaterShortVhtr,
heaterOpen, heaterOvertemp. -/
def Obligations.HeaterSegmentsWaitsAndFaults : Prop :=
  (
  ∀ (s : State) (e : Fin 128), s.engineLive e.val = true → s.onTick = true →
    let g := s.engine e.val
    let limited := fun d => if s.seq.limitedNow ∧ s.ilim < s.seq.total then d * s.ilim / s.seq.total else d
    let on : Engine := { g with st := .timed, segLen := 0, isSync := false, pc := g.pc + 1 }
    (g.st = .timed → g.segLen ≠ 0 → g.segTick + g.segLen ≤ s.tickNow →
      ∃ t, exec (.segmentEnd e) s = .next t ∧ s.WithEngine t e.val
        { on with setpoint := (if g.segOp = 4 then g.segTarget else g.setpoint),
                  drive := (if g.segOp = 2 then limited (min g.segTarget.toNat (s.vmax e.val)) else g.drive),
                  rawDrive := (if g.segOp = 2 then min g.segTarget.toNat (s.vmax e.val) else g.rawDrive) }) ∧
    (g.st = .waiting → g.isSync = true → s.tickNow % 2 ^ (20 - argOf (s.progWord e.val) % 32) = 0 →
      ∃ t, exec (.syncReached e) s = .next t ∧ s.WithEngine t e.val on) ∧
    (g.st = .waiting → g.isSync = false →
      (s.seq.flags.getLsbD g.waitFlag = g.waitVal →
        ∃ t, exec (.waitSatisfied e) s = .next t ∧ s.WithEngine t e.val { on with timeout := false }) ∧
      (g.waitLeft = 0 →
        ∃ t, exec (.waitTimeout e) s = .next t ∧ s.WithEngine t e.val { on with timeout := true, pc := g.pc + 2 }))) ∧
  (
  ∀ (s : State) (e : Fin 128), s.engineLive e.val = true → (s.engine e.val).st ≠ .fault →
    let g := s.engine e.val
    let p := s.port (256 + e.val)
    let off := fun (n : Nat) (out : HtrOut) =>
      let u := ((s.setEngine e.val { g with st := .fault, runCleared := false, drive := 0, rawDrive := 0, out := out,
                                            closed := false, segLen := 0, untimed := 0 }).orReg
        (engReg e.val 0x18) (bitW n)).stick .htr (e.val / 16) (8 + n)
      if p = {} then u else u.setPort (256 + e.val) { p with markBits := Nat.lor p.markBits 128 }
    (164 ≤ g.drive → exec (.heaterShortGnd e) s = .next (off 0 .ground1k)) ∧
    (g.drive ≤ 3685 → exec (.heaterShortVhtr e) s = .next (off 1 .highZ)) ∧
    (410 ≤ g.drive → exec (.heaterOpen e) s = .next (off 2 .ground1k)) ∧
    (4 ≤ g.hot → s.rcold e.val ≠ 0 → exec (.heaterOvertemp e) s = .next (off 3 .ground1k)) ∧
    (g.st = .timed → g.segLen = 0 → 17 ≤ g.untimed ∨ s.inRegion e.val g.pc = false →
      exec (.heaterProgFault e) s = .next (off 4 .ground1k)))

/-- A heater tick (the next one where the one at hand has acted) starts with the flags that the tick before has left:
FLAG operations in ascending engine number, the flags of ended sweeps (log entry 111), software writes in order of
acceptance. The flags that waits of late visits may test (R91) are noted, what was asked for since is due at this tick's
end, the engines' drives follow, and no register changes; SEQ_FSET and SEQ_FCLR only note their bits. A control tick of
the running device that has not acted, `v` being the state with its measurements taken. Within the supply limit every
live closed-loop engine takes the control step of R85 and every other engine stays. Above the limit HTR_ILIM (bit 13 of
page 0's BLK_STICKY) is set, the limitation is in force, and the drive of every engine in a segment or wait is its own
drive times ILIM over the total, rounded down. The limitation ends at a heater tick after 16 control ticks below 95 %,
with the drives back. A stall that has persisted through 16 milestones: SEQ_STALL names the group and its
lowest-numbered member that waits on a flag, STALL (bit 8) is set, the count starts again, and that member goes on: a
heater engine through the timeout path of its WAIT, a scan sequencer past its gate. It says that each of these commands
answers a next state under its hypotheses: heaterTick, controlTick, limitationEnd, seqFset, seqFclr, stallRelease. -/
def Obligations.FlagsControlTicksAndStalls : Prop :=
  (
  (∀ s₀ : State,
    let s := if s₀.tickNow ≠ s₀.seq.tick ∨ s₀.tim.perCycle = 0 then s₀
      else s₀.elapse (s₀.tim.cyclesIn ((s₀.tickNow + 1) * 2 ^ 44 - s₀.tim.time))
    s.running = true → s.tickNow ≠ s.seq.tick →
    ∃ t, exec .heaterTick s₀ = .next t ∧
      (let f := s.engines.foldl (fun f (g : Nat × Engine) => g.2.flagReq.foldl (fun f r => flagTo f r.1 r.2) f) s.seq.flags
       let f := s.seq.dueSweeps.foldl (fun f n => flagTo f n true) f
       let f := s.seq.dueRequests.foldl (fun f (r : BitVec 64 × Bool) => if r.2 then f ||| r.1 else f &&& ~~~ r.1) f
       t.seq = { s.seq with flags := f, past := s.seq.noted f s.tickNow, dueRequests := s.seq.requests, dueSweeps := s.seq.sweepFlags, requests := [],
                            sweepFlags := [], tick := s.tickNow }) ∧
      (∀ e, (t.engine e).flagReq = []) ∧ t = { s with seq := t.seq, engines := t.engines }) ∧
  (∀ (s u : State) (a : Acc) (hi : Bool) (val m : Word),
    let note := fun (isSet : Bool) =>
      { u with seq := { u.seq with requests := u.seq.requests ++
        [(BitVec.ofNat 64 (if hi then (val &&& m).toNat * 2 ^ 32 else (val &&& m).toNat), isSet)] } }
    ((s.accept a).gate a.req.toNat (ra .seq 0 (if hi then 0x04C else 0x048)) val false = .act u m →
      exec (.seqFset a hi val) s = .next (note true)) ∧
    ((s.accept a).gate a.req.toNat (ra .seq 0 (if hi then 0x054 else 0x050)) val false = .act u m →
      exec (.seqFclr a hi val) s = .next (note false)))) ∧
  (
  (∀ (s : State) (total : Nat) (meas : List HeaterMeas), s.running = true → s.onControl = true →
    kSorted s.engines = true →
    let v := meas.foldl (fun v m => v.measure m) s
    (total ≤ s.ilim → s.seq.limitedNow = false → ∃ t, exec (.controlTick total meas) s = .next t ∧
      t = { s with seq := t.seq, engines := t.engines } ∧ t.seq.limitedNow = false ∧ ∀ e,
        let g := v.engine e
        let err := g.setpoint - g.temp
        let kp : Int := s.fld (engReg e 12) 0 16
        let ki : Int := s.fld (engReg e 12) 16 16
        let u := min (max ((if g.firstCtl then (g.drive : Int) else g.uPrev) +
          (kp * (err - (if g.firstCtl then err else g.ePrev)) + ki * err + 128) / 256) 164) (s.vmax e)
        (g.closed = true → g.st ≠ .stopped → g.st ≠ .fault → s.engineLive e = true →
          (t.engine e).drive = min u.toNat (s.vmax e) ∧ (t.engine e).uPrev = u ∧ (t.engine e).ePrev = err ∧
          (t.engine e).firstCtl = false) ∧
        (g.closed = false ∨ g.st = .stopped ∨ g.st = .fault ∨ s.engineLive e = false → t.engine e = g)) ∧
    (s.ilim < total → ∃ t, exec (.controlTick total meas) s = .next t ∧ t.flag (ra .htr 0 0x010) 13 = true ∧
      t.seq.limitedNow = true ∧ ∀ e, (v.engine e).st = .timed ∨ (v.engine e).st = .waiting →
        (t.engine e).drive = (v.engine e).rawDrive * s.ilim / total)) ∧
  (∀ s : State, s.seq.limitedNow = true → 16 ≤ s.seq.quietTicks → s.onTick = true → ∃ t, exec .limitationEnd s = .next t ∧
    t = { s with seq := { s.seq with limitedNow := false }, engines := t.engines } ∧
    ∀ e, t.engine e = if (s.engine e).st = .timed ∨ (s.engine e).st = .waiting then
      { s.engine e with drive := (s.engine e).rawDrive } else s.engine e)) ∧
  (
  ∀ (s : State) (g : Fin 16) (m : Nat) (x : Bool × Option Nat), 16 ≤ kget s.seq.stall g.val 0 →
    ((s.liveMembers g.val).find? fun y => y.2.2.isSome) = some (m, x) →
    ∃ t, exec (.stallRelease g) s = .next t ∧
      t.seq = { s.seq with stall := kset s.seq.stall g.val 0 0 } ∧ t.flag (ra .seq 0 0x010) 8 = true ∧
      t.reg (ra .seq 0 0x060) = BitVec.ofNat 32 (m + g.val * 256 + 2 ^ 31) ∧
      (m < 128 → t.engine m = { s.engine m with timeout := true, st := .timed, pc := (s.engine m).pc + 2, segLen := 0, isSync := false } ∧
        ∀ d, d ≠ m → t.engine d = s.engine d) ∧
      (152 ≤ m → t.scan (m - 152) = { s.scan (m - 152) with force := true, waited := 0, gated := false } ∧
        t.engines = s.engines))

/-! ### Host ports (chapter 19) -/

/-- If SCL or SDA stays low for 32 ms (the command is that event) with the clock running, the target abandons the
transaction, drops an incomplete write word (nothing of it is written) and sets BUS_TIMEOUT (BLK_STICKY bit 8 of the I²C
page); nothing else changes. It says that this command answers a next state under its hypotheses: i2cBusTimeout. -/
def Obligations.BusTimeoutAbandonsTheTransaction : Prop :=
  ∀ s : State, s.pwr.clocked = true → ∃ t, exec .i2cBusTimeout s = .next t ∧
    t.hst = { s.hst with i2cBusy := false, i2cOff := none, i2cWrite := false } ∧
    t.flag (ra .i2c 0 0x010) 8 = true ∧
    t = { s with regs := t.regs, hst := t.hst } ∧ ∀ b, b ≠ ra .i2c 0 0x010 → t.reg b = s.reg b

/-- An I²C transaction. While the device is awake an aligned offset starts the transaction and is acknowledged; an
unaligned one is not acknowledged and sets UNALIGNED (SYS_STICKY bit 9); in Sleep the clock is stretched and the wake
begins, and a device that is not awake does not acknowledge. A word written is the REGISTER_WRITE of requester 0x0001 at
the offset, a word read is the read of requester 0x0001 at the offset, and the offset advances by 4. At the end of a
transaction the bus is free, and the bytes of an incomplete write word are dropped with NARROW_WR (SYS_STICKY bit 8). It
says that each of these commands answers a next state under its hypotheses: registerWrite, i2cWriteWord, i2cReadWord,
i2cOffset, i2cTransactionEnd. -/
def Obligations.TwoWireWordsAreAccesses : Prop :=
  (∀ (s : State) (dt : Nat) (off : BitVec 24) (write : Bool),
    let u := s.elapse dt
    (u.i2cAwake = true → off.toNat % 4 = 0 → exec (.i2cOffset dt off write) s = .next
      { u with hst := { u.hst with i2cBusy := true, i2cOff := some off.toNat, i2cWrite := write }
               acc := { u.acc with answer := .done } }) ∧
    (u.i2cAwake = true → off.toNat % 4 ≠ 0 → ∃ t, exec (.i2cOffset dt off write) s = .next t ∧
      t.acc.answer = .nack ∧ t.flag (ra .sys 0 0x010) 9 = true ∧ t.hst.i2cOff = none) ∧
    (u.i2cAwake = false → exec (.i2cOffset dt off write) s =
      .next ((u.hostWake 1).answerWith (if u.pwr.st = .sleep then .retry else .nack)))) ∧
  (∀ (s : State) (dt : Nat) (off : BitVec 24) (val : Word),
    s.hst.i2cOff = some off.toNat → s.hst.i2cBusy = true → s.i2cAwake = true →
    (s.hst.i2cWrite = true → ∃ t, exec (.registerWrite ⟨1, dt⟩ off (val.zeroExtend 64) 4) s = .next t ∧
      exec (.i2cWriteWord dt val) s = .next { t with hst := { t.hst with i2cOff := some ((off.toNat + 4) % 2 ^ 24) } }) ∧
    (s.hst.i2cWrite = false → ∃ t, t = s.readFor ⟨1, dt⟩ off.toNat ∧
      exec (.i2cReadWord dt) s = .next { t with hst := { t.hst with i2cOff := some ((off.toNat + 4) % 2 ^ 24) } })) ∧
  (∀ (s : State) (left : BitVec 2), s.hst.i2cBusy = true → ∃ t, exec (.i2cTransactionEnd left) s = .next t ∧
    t.hst = { s.hst with i2cBusy := false, i2cOff := none, i2cWrite := false } ∧
    (s.hst.i2cWrite = true → left ≠ 0 → t.flag (ra .sys 0 0x010) 8 = true) ∧
    (s.hst.i2cWrite = false ∨ left = 0 → t.regs = s.regs) ∧
    t = { s with regs := t.regs, hst := t.hst } ∧ ∀ b, b ≠ ra .sys 0 0x010 → t.reg b = s.reg b)

/-- The frame queue of the host. A write of TXQ_TAIL stores the tail, and with the ring enabled and the link up, outside
D3hot, the device takes the slots up to it; a slot whose frame has a bad length is discarded and counted in QDROP and
sets QERR (bit 9), and each slot taken moves the head by one. A write of RXQ_HEAD stores the head and frees room for the
frames held. A frame for the host comes after those held, as the ring has room: it goes into the RX ring while it is in
use, has room and no frame is held before it; else it is held while the held frames come to at most 64 KiB; else a
record frame waits in the lake and any other is discarded and counted. The endpoint. A link that comes up takes its
speed and width and lets held messages leave; on a link that is up, or to a speed or width that the port does not have,
nothing changes. A configuration request is answered once the base configuration has been applied and the link is up,
and what it sets of the message interrupts and D3hot is in force, and in Sleep it begins the wake by host access; before
that it is answered with Retry Status. It says that each of these commands answers a next state under its hypotheses:
txqTailWrite, rxqHeadWrite, rxRingWrite, configurationRequest, hostLinkUp. -/
def Obligations.HostQueueAndEndpointRules : Prop :=
  (
  (∀ (s u : State) (a : Acc) (tail : BitVec 12) (slots : List TxFrame),
    s.Passes a (ra .pci 0 0x054) (BitVec.ofNat 32 tail.toNat) false u →
    let v := u.setFld (ra .pci 0 0x054) 0 12 tail.toNat
    (u.flag (ra .pci 0 0x050) 4 = false ∨ u.hst.linkUp = false ∨ u.int.d3hot = true → exec (.txqTailWrite a tail slots) s = .next v) ∧
    (u.flag (ra .pci 0 0x050) 4 = true → u.hst.linkUp = true → u.int.d3hot = false →
      let size := u.ringSize 0x050
      let n := (tail.toNat % size + size - u.hst.txHead % size) % size
      exec (.txqTailWrite a tail slots) s = .next ((List.range n).foldl (fun (v : State) i => v.takeSlot slots[i]?) v))) ∧
  (∀ (v : State) (f : TxFrame), f.len ≠ 16 + f.payload → (v.takeSlot (some f)).flag (ra .pci 0 0x010) 9 = true ∧
    (v.takeSlot (some f)).hst = { v.hst with txHead := (v.hst.txHead + 1) % v.ringSize 0x050 }) ∧
  (∀ (s u : State) (a : Acc) (head : BitVec 12), s.Passes a (ra .pci 0 0x06C) (BitVec.ofNat 32 head.toNat) false u →
    exec (.rxqHeadWrite a head) s = .next ((u.setFld (ra .pci 0 0x06C) 0 12 head.toNat).rxDrain)) ∧
  (∀ (s : State) (len : Nat) (isRecord : Bool),
    let v := s.rxDrain
    exec (.rxRingWrite len isRecord) s = .next
      (if v.rxOn = true ∧ v.hst.held = [] ∧ 0 < v.rxRoom then
        State.stick { v with hst := { v.hst with rxTail := (v.hst.rxTail + 1) % v.ringSize 0x068 } } .pci 0 8
      else if v.hst.held.sum + len ≤ 65536 then { v with hst := { v.hst with held := v.hst.held ++ [len] } }
      else if isRecord then v else v.countSat (ra .pci 0 0x074) 1))) ∧
  (
  (∀ (s : State) (speed width : BitVec 3), s.pwr.clocked = true →
    let trains := 1 ≤ speed.toNat ∧ speed.toNat ≤ 4 ∧ (width = 1 ∨ width = 2 ∨ width = 4)
    (s.hst.linkUp = false → trains → exec (.hostLinkUp speed width) s = .next (State.flushMsix
      { s with hst := { s.hst with linkUp := true, speed := speed.toNat, width := width.toNat } })) ∧
    (s.hst.linkUp = true ∨ ¬trains → exec (.hostLinkUp speed width) s = .next s)) ∧
  (∀ (s : State) (en mask d3 : Bool) (vm : BitVec 64),
    (s.pwr.live = false ∨ s.hst.linkUp = false →
      exec (.configurationRequest en mask d3 vm) s = .next (s.answerWith .retry)) ∧
    (s.pwr.clocked = true → s.pwr.live = true → s.hst.linkUp = true →
      let w := s.hostWake 0
      ∃ t, exec (.configurationRequest en mask d3 vm) s = .next (t.answerWith .done) ∧
        t = (State.flushMsix { w with int := { w.int with msixEnable := en, funcMask := mask, d3hot := d3,
                                                          vecMask := vm } }).deliverPending)))

/-- Commands of the tag buses. SEARCH of an enabled bus without a short, an announcement on one that is not being
searched and the periodic search queue one request for the bus and start it when no command runs and the supervisor
works; an announcement on the bus being searched restarts the search (either ends Idle); READ_MEMORY queues a read, or
starts it; a short ends the search of its bus with result 5, holds the bus and sets its sticky bit (bit 10). What ends
on a tag bus. A search that was made twice in a row with the same identities, all with a good CRC and at most 32 of
them, records them in rising order with result 2 (4 with none); where they differ from those recorded, CHANGED (bit 8)
is set with a waymark. A read that the tag does not acknowledge has result 2 and writes no byte of the buffer; with a
good CRC over all its bytes it has result 1, and its bytes are in the buffer. It says that each of these commands
answers a next state under its hypotheses: tagSearch, tagReadMemory, tagAnnounce, tagPeriodicSearch, tagBusShort,
tagSearchDone, tagReadDone. -/
def Obligations.TagBusesSearchAndRead : Prop :=
  (
  (∀ (s u : State) (a : Acc) (bus : BitVec 4),
    s.Passes a (ra .tag 0 0x044) (BitVec.ofNat 32 (bus.toNat + 16)) false u →
    (u.tagOn bus.toNat = false → exec (.tagSearch a bus) s = .next u) ∧
    (u.tagOn bus.toNat = true → exec (.tagSearch a bus) s =
      .next (u.setTag bus.toNat { u.tag bus.toNat with queued := true }).tagNext)) ∧
  (∀ (s u : State) (a : Acc) (bus : BitVec 4) (entry : BitVec 5) (addr len : BitVec 8),
    s.Passes a (ra .tag 0 0x044)
      (BitVec.ofNat 32 (bus.toNat + 32 + entry.toNat * 64 + addr.toNat * 65536 + len.toNat * 16777216)) false u →
    let r : TagRead := ⟨bus.toNat, entry.toNat, addr.toNat, len.toNat⟩
    (u.hst.tagActive = none → u.hst.tagRead = none → u.hst.tagReads = [] → u.supWorks = true →
      exec (.tagReadMemory a bus entry addr len) s = .next { u with hst := { u.hst with tagRead := some r } }) ∧
    (u.hst.tagActive.isSome = true ∨ u.hst.tagRead.isSome = true ∨ u.supWorks = false →
      exec (.tagReadMemory a bus entry addr len) s =
        .next { u with hst := { u.hst with tagReads := u.hst.tagReads ++ [r] } })) ∧
  (∀ (s : State) (bus : Fin 16), s.pwr.live = true → s.pwr.clocked = true →
    let u := s.leaveIdle
    (s.hst.tagActive = some bus.val → ∃ t, exec (.tagAnnounce bus) s = .next t ∧
      t = { u with hst := { u.hst with tags := t.hst.tags } } ∧
      t.tag bus.val = { s.tag bus.val with restarts := min 16 ((s.tag bus.val).restarts + 1), searches := 0 } ∧
      ∀ d, d ≠ bus.val → t.tag d = u.tag d) ∧
    (s.hst.tagActive ≠ some bus.val → u.tagOn bus.val = true → exec (.tagAnnounce bus) s =
      .next (u.setTag bus.val { u.tag bus.val with queued := true }).tagNext)) ∧
  (∀ s : State, s.fld (ra .tag 0 0x040) 16 4 ≠ 0 → 2 ^ (s.fld (ra .tag 0 0x040) 16 4 + 10) ≤ s.hst.tagAge →
    s.supWorks = true →
    ∃ t, exec .tagPeriodicSearch s = .next t ∧ t.hst.tagAge = 0 ∧ t = { s with hst := t.hst } ∧
      ((∀ b, b < 16 → s.tagOn b = false) → t = { s with hst := { s.hst with tagAge := 0 } })) ∧
  (∀ (s : State) (bus : Fin 16), s.tagOn bus.val = true → s.pwr.clocked = true → s.hst.tagActive ≠ some bus.val →
    ∃ t, exec (.tagBusShort bus) s = .next t ∧ t.flag (ra .tag 0 0x010) 10 = true ∧
      t = { s with regs := t.regs, hst := { s.hst with tags := t.hst.tags } } ∧
      t.tag bus.val = { s.tag bus.val with result := 5, shortHold := true, queued := false } ∧
      (∀ d, d ≠ bus.val → t.tag d = s.tag d) ∧ ∀ b, b ≠ ra .tag 0 0x010 → t.reg b = s.reg b)) ∧
  (
  (∀ (s : State) (bus : Fin 16) (x : List (BitVec 64 × BitVec 16)), s.hst.tagActive = some bus.val →
    s.awake = true → (s.tag bus.val).restarts < 16 → (∀ y, y ∈ x → idGood y = true) → (searchSet x).length ≤ 32 →
    let ids := (searchSet x).map fun n => (n, false)
    let u := s.setTag bus.val { s.tag bus.val with result := if (searchSet x).isEmpty then 4 else 2, ids := ids,
                                                   searches := 2, overflow := false }
    (searchSet x = (s.tag bus.val).ids.map (·.1) → exec (.tagSearchDone bus [x, x]) s = .next u.tagEnd) ∧
    (searchSet x ≠ (s.tag bus.val).ids.map (·.1) → exec (.tagSearchDone bus [x, x]) s =
      .next ((u.stick .tag 0 8).waymark 0x40 [bus.val, (searchSet x).length, 0]).tagEnd)) ∧
  (∀ (s : State) (bytes : List Byte) (crc : BitVec 16) (r : TagRead), s.hst.tagRead = some r → s.awake = true →
    let idle : State := { s with hst := { s.hst with tagRead := none } }
    (exec (.tagReadDone false bytes crc) s = .next
      (State.tagNext { idle with hst := { idle.hst with mresult := 2 } })) ∧
    (bytes.length = r.len + 1 → crc16 bytes = crc.toNat →
      exec (.tagReadDone true bytes crc) s = .next
        (State.tagNext { idle.tagBuffer bytes with hst := { (idle.tagBuffer bytes).hst with mresult := 1 } }))))

/-! ### Fabric time (chapter 10) -/

/-- A write of 1 to TIM_SNAP loads the requester's shadow at once with fabric time and milestone number. The requester's
next full-word read of TIM_FRAC_LO returns the snapped value without latching again (the shadow keeps its time), and
later reads latch, as reads without a snapped shadow do: they answer the low word of fabric time and load the shadow. It
says that each of these commands answers a next state under its hypotheses: timFracLoRead, timSnap. -/
def Obligations.SnapLoadsTheShadowAtOnce : Prop :=
  (∀ (s u : State) (a : Acc), s.Passes a (ra .tim 0 0x050) 1 false u → ∃ t, exec (.timSnap a) s = .next t ∧
    t = { u with acc := { u.acc with shadows := t.acc.shadows } } ∧
    t.shadow a.req.toNat = some ⟨a.req.toNat, u.tim.time, BitVec.ofNat 32 u.tim.msNum, true⟩ ∧
    ∀ r, r ≠ a.req.toNat → t.shadow r = u.shadow r) ∧
  (∀ (s : State) (a : Acc), s.Reads a (ra .tim 0 0x040) →
    let u := s.accept a
    let req := a.req.toNat
    ∃ t, exec (.timFracLoRead a) s = .next t ∧
      t = { u with acc := { u.acc with shadows := t.acc.shadows, answer := t.acc.answer } } ∧
      (∀ r, r ≠ req → t.shadow r = u.shadow r) ∧
      (∀ x, u.shadow req = some x → x.fresh = true →
        t.acc.answer = .data (BitVec.ofNat 32 x.time) ∧ t.shadow req = some { x with fresh := false }) ∧
      ((∀ x, u.shadow req = some x → x.fresh = false) →
        t.acc.answer = .data (BitVec.ofNat 32 u.tim.time) ∧
        t.shadow req = some ⟨req, u.tim.time, BitVec.ofNat 32 u.tim.msNum, false⟩))

/-- A write of the high word of TIM_INC combines with the requester's low word (else with the one in force); a value
within 244 ppm of nominal, on a device that is no member, waits for the milestone due; any other sets INC_REFUSED (bit
13) and leaves TIM_INC as it is. A value that waits already still acts at its own milestone. Requests of TIM_ADJ_CTL.
With no adjustment pending, on a device that is no member, a step, a slew with RATE ≠ 0 and an offset below 1 s, and a
set without low bits are taken for the next milestone (NEXT) or for a target that is ahead and, in the verge, is not the
coming milestone; with an adjustment pending or on a member they set ADJ_REFUSED (bit 9) and nothing else; CANCEL
removes the pending adjustment. It says that each of these commands answers a next state under its hypotheses:
timIncWrite, adjStep, adjSlew, adjSet, adjCancel. -/
def Obligations.FrequencyAndAdjustmentRequests : Prop :=
  (
  ∀ (s u : State) (a : Acc) (hi : Word), s.Passes a (ra .tim 0 0x064) hi false u →
    let lo := ((u.heldLow a.req.toNat (ra .tim 0 0x060)).map (·.toNat)).getD (u.tim.inc % 2 ^ 32)
    let v := hi.toNat * 2 ^ 32 + lo
    let d := u.dropLow a.req.toNat (ra .tim 0 0x060)
    let good := 2 ^ 33 - 2 ^ 21 ≤ v ∧ v ≤ 2 ^ 33 + 2 ^ 21 ∧ u.tim.st ≠ .locked ∧ u.tim.st ≠ .holdover
    (good → exec (.timIncWrite a hi) s = .next { d with tim := { d.tim with incNext := d.tim.incNext ++ [(v, u.tim.due)] } }) ∧
    (¬ good → exec (.timIncWrite a hi) s = .next (d.stick .tim 0 13))) ∧
  (
  ∀ (s u : State) (a : Acc) (next : Bool) (rate : BitVec 16),
    let ctl := ra .tim 0 0x074
    let target := (u.reg (ra .tim 0 0x070)).toNat
    let free := u.tim.adj = none ∧ u.tim.member = false
    let timely := next = true ∨ (u.tim.ahead target = true ∧ (u.tim.verge = true → target ≠ (u.tim.msNum + 1) % 2 ^ 32))
    let taken := fun (mode r : Nat) =>
      let x : Adj := { mode := mode, offset := u.adjOfs, setTime := u.adjSetTime, rate := r,
                       target := if next then none else some target, due := u.tim.due, late := false, heal := false }
      { u with tim := { u.tim with adj := some x } }
    let n := if next then 4 else 0
    (s.Passes a ctl (BitVec.ofNat 32 (8 + n)) false u →
      (free ∧ timely → exec (.adjStep a next) s = .next (taken 0 0)) ∧
      (¬ (free ∧ timely) → exec (.adjStep a next) s = .next (u.stick .tim 0 9))) ∧
    (s.Passes a ctl (BitVec.ofNat 32 (9 + n + rate.toNat * 65536)) false u →
      (free ∧ timely ∧ rate ≠ 0 ∧ u.adjOfs.natAbs < 2 ^ 32 → exec (.adjSlew a next rate) s = .next (taken 1 rate.toNat)) ∧
      (¬ (free ∧ timely ∧ rate ≠ 0 ∧ u.adjOfs.natAbs < 2 ^ 32) →
        exec (.adjSlew a next rate) s = .next (u.stick .tim 0 9))) ∧
    (s.Passes a ctl (BitVec.ofNat 32 (10 + n)) false u →
      (free ∧ timely ∧ u.fld (ra .tim 0 0x068) 0 22 = 0 → exec (.adjSet a next) s = .next (taken 2 0)) ∧
      (¬ (free ∧ timely ∧ u.fld (ra .tim 0 0x068) 0 22 = 0) → exec (.adjSet a next) s = .next (u.stick .tim 0 9))) ∧
    (s.Passes a ctl 16 false u → exec (.adjCancel a) s = .next { u with tim := { u.tim with adj := none } }))

/-- TIN and the end of a slew. An edge within 0.5 s of the last accepted one counts as a glitch only; any other is
captured and counted and renews the latched pair, with a waymark where TIN was lost; 1.5 s without an accepted edge set
TIN_LOST (bit 8), clear GNSS and emit a waymark. A slew that has run out ends, with the waymark of a discarded remainder
of 0. The PLL, the milestone latch, software waymarks and TOUT. Lock at a cold start starts fabric time at 0 as
milestone 0; on a wake from Deep Sleep it keeps fabric time. The latch of the milestone interrupt takes time and number
while the source is active on a target of its own. A write of TIM_WMARK emits class 0x09. After an edge of TOUT the
output is high exactly where, with EN = 1 and the clock running, the time lies in an interval from q × 2^-P s + OFS ×
2^-28 s of length WIDTH × 2^-24 s whose beginning was not jumped over by a step (R421), or where it was high before. It
says that each of these commands answers a next state under its hypotheses: slewEnd, tinEdge, tinLost, msiLatch,
timWmark, pllLock, toutEdge. -/
def Obligations.PulseInputClockAndOutput : Prop :=
  (
  (∀ (s : State) (dt : Nat), let u := s.elapse dt
    u.tim.locked = true → u.pwr.clocked = true →
    let early := u.tim.tinAny = true ∧ (u.tim.time : Int) - u.tim.tinAt < 2 ^ 63
    let on := State.renew { u with tim := { u.tim with tinAny := true, tinAt := u.tim.time, tinLost := false,
                                                       tinTime := u.tim.time,
                                                       edges := (u.tim.edges + 1) % 65536 } } (ra .tim 0 0x080)
    (early → exec (.tinEdge dt) s = .next { u with tim := { u.tim with glitches := (u.tim.glitches + 1) % 65536 } }) ∧
    (¬ early → exec (.tinEdge dt) s = .next (if u.tim.tinLost then on.waymark 0x07 [1] else on))) ∧
  (∀ s : State, s.tim.locked = true → s.pwr.clocked = true → s.tim.tinLost = false →
    3 * 2 ^ 63 ≤ (s.tim.time : Int) - s.tim.tinAt →
    ∃ v : State, exec .tinLost s = .next (v.waymark 0x07 [0]) ∧ v.flag (ra .tim 0 0x010) 8 = true ∧
      v.flag (ra .tim 0 0x05C) 0 = false ∧
      v = { s with tim := { s.tim with tinLost := true }, regs := v.regs }) ∧
  (∀ s : State, s.tim.slewOn = true → s.tim.slew = 0 →
    exec .slewEnd s = .next (State.waymark { s with tim := { s.tim with slew := 0, slewOn := false } } 0x03 [0]))) ∧
  (
  (∀ s : State, s.tim.locked = false →
    (s.pwr.st ≠ .deepSleep → s.pwr.st ≠ .off → exec .pllLock s =
      .next { s with tim := { s.tim with locked := true, time := 0, ckr := 0, msNum := 0 } }) ∧
    (s.pwr.st = .deepSleep → s.pwr.waking = true → exec .pllLock s =
      .next { s with tim := { s.tim with locked := true, ckr := 0 } })) ∧
  (∀ (s : State) (dt : Nat), let u := s.elapse dt
    ((u.source 16).st = .active ∨ (u.source 16).st = .activePending) ∧ (u.source 16).target < 8 →
    exec (.msiLatch dt) s = .next (State.renew { u with tim := { u.tim with
      msiInst := u.tim.time, msiMs := BitVec.ofNat 32 u.tim.msNum } } (ra .tim 0 0x098))) ∧
  (∀ (s u : State) (a : Acc) (code : Word), s.Passes a (ra .tim 0 0x0A0) code false u →
    exec (.timWmark a code) s = .next (u.waymark 0x09 [code.toNat])) ∧
  (∀ (s : State) (dt : Nat), let u := s.elapse dt
    let period : Int := 2 ^ (64 - u.fld (ra .tim 0 0x088) 1 5)
    let ofs : Int := u.fld (ra .tim 0 0x08C) 0 28 * 2 ^ 36
    let width : Int := u.fld (ra .tim 0 0x088) 8 20 * 2 ^ 40
    ∃ t, exec (.toutEdge dt) s = .next t ∧ t = { u with tim := { u.tim with touts := t.tim.touts } } ∧
      (t.tim.touts = true ↔ u.flag (ra .tim 0 0x088) 0 = true ∧ u.tim.locked = true ∧ u.pwr.clocked = true ∧
        ∃ q : Int, q * period + ofs ≤ u.tim.time ∧ u.tim.time < q * period + ofs + min width period ∧
          (u.tim.touts = true ∨ (u.tim.toutFrom : Int) ≤ q * period + ofs))))

/-- Time frames on a port that carries frames, with the clock running. A frame of the root that the device follows, from
its time parent, with a correction of at most 1 ms, is accepted by a device that is not itself root: it is LOCKED with
the root's rank and frequency and the count since the last frame at 0. A frame of the same root from another port sets
FRAME_BAD (bit 12) and changes nothing else. A locked member with no frame for 2 milestones enters HOLDOVER with its
sticky bit (bit 11) and waymark. A root of a losing part announces Δ as an adjustment 16 milestones ahead: a slew with
RATE 8 up to 1 ms, else a step (log entry 88). It says that each of these commands answers a next state under its
hypotheses: timeFrameReceive, holdover, healingDelta. -/
def Obligations.TimeFramesAndHoldover : Prop :=
  (∀ (s : State) (port : Fin 8) (ingress : Nat) (f : TimeFrame), s.tim.locked = true → s.pwr.clocked = true →
    (s.fport port.val).carries = true → f.root.toNat = s.tim.rootAddr → s.tim.st ≠ .root →
    (s.fab.parent = some port.val → f.correction ≤ 10 ^ 6 * 65536 →
      ∃ t, exec (.timeFrameReceive port ingress f) s = .next t ∧ t.tim.st = .locked ∧
        t.tim.rootAddr = f.root.toNat ∧ t.tim.rootRank = rankKey f.rankGnss f.rankHq.toNat f.root.toNat ∧
        t.tim.inc = f.inc.toNat ∧ t.tim.sinceFrame = 0 ∧ t.tim.lastFrame = s.tim.msNum ∧ t.tim.time = s.tim.time) ∧
    (s.fab.parent ≠ some port.val ∨ 10 ^ 6 * 65536 < f.correction →
      exec (.timeFrameReceive port ingress f) s = .next (s.stick .tim 0 12))) ∧
  (∀ s : State, s.tim.st = .locked → 2 ≤ s.tim.sinceFrame →
    ∃ v : State, exec .holdover s = .next (v.waymark 0x04 [s.tim.lastFrame]) ∧ v.tim = { s.tim with st := .holdover } ∧
      v = (State.stick { s with tim := { s.tim with st := .holdover } } .tim 0 11).noteEpoch.waymark 0x05
        [3, s.tim.rootAddr, rankByteOf s.tim.rootRank s.tim.rootIsland]) ∧
  (∀ (s : State) (delta : Int) (winner : BitVec 14), s.tim.st = .root → s.tim.healApplied = false →
    s.tim.healing = false ∨ s.tim.adj = none →
    exec (.healingDelta delta winner) s = .next { s with tim := { s.tim with
      healing := true, winner := winner.toNat,
      adj := some { mode := if delta.natAbs * 1000 ≤ 2 ^ 32 then 1 else 0, offset := delta, setTime := 0, rate := 8,
                    target := some ((s.tim.msNum + 16) % 2 ^ 32), due := 0, late := false, heal := true } } })

/-! ### The alarm engine (chapter 09) and the allocator (chapter 06) -/

/-- How an observation moves the switch that it reaches, by the entry in effect at the observation's stamp (R199, R203,
R204). An unfaulted observation of an unfaulted switch i with dwell windows dset and dclr: OFF and the set condition met
begins the window (with dset = 0 the switch is ON at once and the rules are voted with the observation's stamp as
decision stamp); inside the window PEND_ON stays while the condition holds and else returns to OFF; at or after the
window it is ON with decision stamp t0 + dset, and the observation is evaluated in ON; likewise from ON to OFF with the
clear condition and dclr. A switch that becomes ON is noted as a wake source (R211). A faulted observation faults the
switch and cancels the dwell. No rule is voted but where the switch changes to or from ON, or becomes faulted. -/
def Obligations.SwitchesFollowTheirWindows : Prop :=
  ∀ (s : State) (i : Nat) (v : Int) (stamp flags : Nat), (s.switch i).fault = false →
    let w0 := s.swAt i stamp 0
    let x : Switch := { s.switch i with val := v, quiet := 0, obs := true, flags := flags }
    let y : Switch := { x with silent := false, fault := false }
    let set := setCond w0 (s.swAt i stamp 2) v
    let clr := clrCond w0 (s.swAt i stamp 3) v
    let nowOn := fun (t : Nat) =>
      ((s.setSwitch i { y with st := .on }).noteWake i false true).memberChange i v flags t stamp
    let nowOff := fun (t : Nat) => (s.setSwitch i { y with st := .off }).memberChange i v flags t stamp
    let after := fun (z : Switch) => s.observeSwitch i v stamp false flags = s.setSwitch i z
    (x.st = .off → set = true → dwell w0 true ≠ 0 → after { y with st := .pendOn, t0 := stamp }) ∧
    (x.st = .off → set = false → after y) ∧
    (x.st = .off → set = true → dwell w0 true = 0 →
      s.observeSwitch i v stamp false flags = nowOn stamp) ∧
    (x.st = .pendOn → stamp < x.t0 + dwell w0 true → after (if set then y else { y with st := .off })) ∧
    (x.st = .pendOn → x.t0 + dwell w0 true ≤ stamp → clr = false → s.observeSwitch i v stamp false flags =
      (nowOn (x.t0 + dwell w0 true)).setSwitch i { y with st := .on }) ∧
    (x.st = .on → clr = true → dwell w0 false ≠ 0 → after { y with st := .pendOff, t0 := stamp }) ∧
    (x.st = .on → clr = true → dwell w0 false = 0 → s.observeSwitch i v stamp false flags = nowOff stamp) ∧
    (x.st = .on → clr = false → after y) ∧
    (x.st = .pendOff → stamp < x.t0 + dwell w0 false → after (if clr then y else { y with st := .on })) ∧
    (x.st = .pendOff → x.t0 + dwell w0 false ≤ stamp → set = false → s.observeSwitch i v stamp false flags =
      (nowOff (x.t0 + dwell w0 false)).setSwitch i { y with st := .off }) ∧
    (s.observeSwitch i v stamp true flags = (s.setSwitch i x.toFault).memberChange i v flags stamp stamp)

/-- The engine takes the observation that reached it first, and the capture ring records it. In a device that evaluates,
with just one switch enabled at the observation's stamp that observes its source, it is the observation of that switch;
with none, the observation is gone and nothing else changes. A switch that has had no observation for 2^SIL milestones
in Run or Idle becomes silent and faulted, and SILENT (bit 25) is set; the rules that name it are voted unless it was
faulted before. A received frame newer than the one accepted last is an observation of the remote switch that names it;
a repeat of that one restarts its silence count alone, like an observation (the bits of the seconds that a frame does
not carry are those of fabric time: log entry 21). The alarm outputs and acknowledgements. The observations that wait
are taken first, and the ring notes the write. An acknowledgement of a rule whose STATE is 0 then does nothing; of one
whose STATE is 1 it is noted and the rule voted again at the instant of the write; the acknowledgement of all does so
for every enabled rule. A current limit folds a driven output back with SHORT (bits 8 to 23); a test retries it and
decides; a pin low while released is EXT_LOW, high while driven and not folded DRV_FAIL with bit 24, which ends when the
pin next reads low under drive. Frames go out at a repeat that is due, and once at the first milestone with an address.
It says that each of these commands answers a next state under its hypotheses: observation, switchSilent, almAck,
almAckAll, foldBack, foldRetry, foldTestEnd, extLow, drvFail, alarmFrameRepeat, alarmFrameOnAddress, alarmFrameReceive,
almPinLevelChange. -/
def Obligations.ObservationsAndAlarmOutputs : Prop :=
  (
  (∀ (s : State) (o : Obs) (rest : List Obs), s.alm.obs = o :: rest → s.pwr.st ≠ .deepSleep → s.pwr.st ≠ .off →
    let u := State.ringAdd { s with alm := { s.alm with obs := rest } } (.event o)
    (s.switchesAt o.stamp = [] ∨ s.almOn = false → exec .observation s = .next u) ∧
    (∀ i, s.almOn = true → s.switchesAt o.stamp = [i] →
      (s.obsFor o i = none → exec .observation s = .next u) ∧
      (∀ v f, s.obsFor o i = some (v, f) → exec .observation s = .next (u.observeSwitch i v o.stamp f o.flags)))) ∧
  (∀ (s : State) (i : BitVec 11), s.almOn = true → (s.pwr.st = .run ∨ s.pwr.st = .idle) →
    let w := s.sww i.toNat 0
    let x := s.switch i.toNat
    bit w 0 = true → bits w 24 5 ≠ 31 → x.silent = false → 2 ^ bits w 24 5 ≤ x.quiet →
    let u := ((s.ringAdd (.silent i.toNat)).setSwitch i.toNat { x.toFault with silent := true }).stick .alm 0 25
    exec (.switchSilent i) s =
      .next (if x.fault then u else u.memberChange i.toNat x.val 0 s.tim.msStamp s.tim.msStamp)) ∧
  (∀ (s : State) (f : AlarmFrame) (i : Nat), s.almOn = true → let at_ := s.frameStamp f
    s.switchesAt at_ = [i] → bits (s.swAt i at_ 0) 1 2 = 2 →
    bits (s.swAt i at_ 1) 0 14 = f.origin.toNat → bits (s.swAt i at_ 1) 16 8 = f.rule.toNat →
    let x := s.switch i
    let newer := ∀ q, x.remoteSeq = some q → serialNewer 16 f.seq.toNat q = true
    (newer → exec (.alarmFrameReceive f) s = .next ((s.setSwitch i { x with remoteSeq := some f.seq.toNat }).observe
      ⟨.remote i, [if f.state then 1 else 0], at_, f.fault, false, 0⟩)) ∧
    (¬ newer → f.repeated = true → x.remoteSeq = some f.seq.toNat →
      exec (.alarmFrameReceive f) s = .next (s.setSwitch i { x with quiet := 0, obs := true })) ∧
    (¬ newer → f.repeated = false → exec (.alarmFrameReceive f) s = .next s))) ∧
  (
  (∀ (s u : State) (a : Acc) (rule : BitVec 8), s.Passes a (ra .alm 0 0x058) (BitVec.ofNat 32 rule.toNat) false u →
    let w := u.takeAllObs.ringAdd (.ack (BitVec.ofNat 32 rule.toNat) u.tim.time)
    ((w.rule rule.toNat).state = false → exec (.almAck a rule) s = .next w) ∧
    ((w.rule rule.toNat).state = true → w.almOn = true → exec (.almAck a rule) s =
      .next ((w.setRule rule.toNat { w.rule rule.toNat with acked := true }).voteRule rule.toNat
        ⟨-1, 0, 0, w.tim.stamp, w.tim.stamp⟩))) ∧
  (∀ (s u : State) (a : Acc), s.Passes a (ra .alm 0 0x058) (bitW 31) false u →
    let w := u.takeAllObs.ringAdd (.ack (bitW 31) u.tim.time)
    exec (.almAckAll a) s = .next (w.rulesOn.foldl (fun s r => s.ackRule r) w)) ∧
  (∀ (s : State) (n : Fin 16),
    let o := s.almOut n.val
    (o.driven = true → o.fold = false →
      exec (.foldBack n) s = .next ((s.setAlmOut n.val { o with fold := true }).stick .alm 0 (8 + n.val))) ∧
    (o.driven = true → o.fold = false → o.level = true →
      exec (.drvFail n) s = .next ((s.setAlmOut n.val { o with drvFail := true }).stick .alm 0 24)) ∧
    (o.driven = true → o.fold = true → exec (.foldRetry n) s = .next (s.setAlmOut n.val { o with testing := true }) ∧
      (o.testing = true → ∀ lim, exec (.foldTestEnd n lim) s =
        .next (s.setAlmOut n.val { o with testing := false, fold := lim }))) ∧
    (o.driven = false → o.level = false → exec (.extLow n) s = .next (s.setAlmOut n.val { o with extLow := true })) ∧
    (∀ high, exec (.almPinLevelChange n high) s = .next (s.setAlmOut n.val
      { o with level := high, extLow := o.extLow && !high, drvFail := o.drvFail && !(o.driven && !high) }))) ∧
  (∀ s : State, s.almOn = true →
    (s.alm.repeatDue = true → exec .alarmFrameRepeat s =
      .next (State.sendAlarms { s with alm := { s.alm with repeatDue := false } } true)) ∧
    (s.alm.onAddr = true → s.fab.addr.isSome = true → s.atMilestone = true → exec .alarmFrameOnAddress s =
      .next (State.sendAlarms { s with alm := { s.alm with onAddr := false } } false))))

/-- An evaluation of the allocator that is due at its milestone, with no enforcement of step 5 to come first. Unless
FREEZE is set each port's wish is doubled up to MAX at ACT ≥ HIGH and halved down to MIN after 4 evaluations with ACT ≤
LOW, a pinned port keeps its size; then, where the minimums can be packed, the placement that the grants give is in
force; under FREEZE, and for a port without a wish, the port asks for what it holds, and under enforcement for no more
than that, an ALARM port for just that (R143 to R145). It says that this command answers a next state under its
hypotheses: allocatorEvaluation. -/
def Obligations.EvaluationsGrantAndPack : Prop :=
  ∀ s : State,
    (s.evalDue = false → exec .allocatorEvaluation s = .next s) ∧
    (s.evalDue = true → s.atMilestone = true → s.enforceDue = false → ∃ v : State, v = { s with evalDue := false, places := v.places } ∧
      (∀ p, v.place p =
        let x := s.place p
        let e := s.portEntry p
        let w := s.reg (TableId.slice.addr p 3)
        let held := if e.pin then e.psz else max e.lo (min e.hi x.size)
        let lows := if x.act ≤ bits w 8 5 then x.lows + 1 else 0
        let up := if bits w 0 5 ≤ x.act then min (held + 1) e.hi else held
        if s.flag (ra .alloc 0 0x044) 3 = true ∨ 64 ≤ p ∨ (x.size = 0 ∧ x.lows = 0 ∧ x.want = 0) then x
        else if e.pin then { x with want := held, lows := 0 }
        else { x with want := if 4 ≤ lows then max (up - 1) e.lo else up, lows := lows }) ∧
      (s.capBanks = [] → exec .allocatorEvaluation s = .next v) ∧
      (s.capBanks ≠ [] →
        let want := fun p => if s.flag (ra .alloc 0 0x044) 3 = true ∨ (v.place p).want = 0 ∨
            s.thm.enforced = true ∧ (v.portEntry p).alarm = true then v.holdSize p
          else if s.thm.enforced = true then min (v.holdSize p) (v.place p).want else (v.place p).want
        (v.grant s.capBanks s.frozenBanks want = none → exec .allocatorEvaluation s = .next v) ∧
        ∀ xs, v.grant s.capBanks s.frozenBanks want = some xs → exec .allocatorEvaluation s =
          .next (((v.applyPlaces xs).markShort []).throttleFlags).streamsMoved))

/-! ### Quevex ports (chapter 11) -/

/-- Lanes of a port that carries frames. A lane that is lost leaves the port at the width of the lanes left (one lane at
most in Sleep), LANE_LOST (bit 12) is set, and reservations beyond the width's limit are withdrawn; without a width left
the port retrains, with LINK_LOST (bit 8). A lane rejoins at a milestone: it widens the port, and sessions ask again.
Each change of the width is a waymark 0x13, one way or another. Fragments on a port that carries frames. A fragment with
a bad tag is counted, sets TAG_FAIL (bit 11) and opens a negative acknowledgement; one out of sequence opens it; the one
due is acknowledged, closes it, advances the sequence number and is routed. A negative acknowledgement, and an
acknowledgement that does not come within 2d + 2 µs, send the replay buffer again from the fragment named, or from its
oldest; a cumulative acknowledgement frees it up to its fragment and changes nothing else. It says that each of these
commands answers a next state under its hypotheses: laneLoss, laneRejoin, fragmentReceive, negativeAcknowledge,
linkAcknowledge, ackTimeout. -/
def Obligations.LanesAndFragments : Prop :=
  (
  ∀ (s : State) (port : Fin 8) (lane : Fin 4), (s.fport port.val).carries = true →
    let p := port.val
    let v := s.fport p
    let wide := fun (lanes : BitVec 4) =>
      let w := widthOf lanes.toNat (s.fld (ra .fabPort p 0x040) 1 2)
      if v.st = .upSleep then min w 1 else w
    let less := v.lanes &&& ~~~ (BitVec.ofNat 4 (2 ^ lane.val))
    let more := v.lanes ||| BitVec.ofNat 4 (2 ^ lane.val)
    let lost := s.stick .fabPort p 12
    (v.lanes.getLsbD lane.val = true →
      (wide less = 0 → exec (.laneLoss port lane) s = .next ((lost.portDown p .training).stick .fabPort p 8)) ∧
      (wide less ≠ 0 →
        let u := lost.movePort p { v with lanes := less, width := wide less }
        let u := if wide less = v.width then u.waymark 0x13 [p, portCode v.st, widthCode (wide less)] else u
        exec (.laneLoss port lane) s = .next (u.preempt p (tc2Limit (wide less)) s.fab.admits.length))) ∧
    (v.lanes.getLsbD lane.val = false →
      (s.atMilestone = true → exec (.laneRejoin port lane) s =
        .next (s.movePort p { v with lanes := more, width := wide more }).askAgain) ∧
      (s.atMilestone = false → exec (.laneRejoin port lane) s = .next s)) ∧
    (∀ (t : State) (w : FabPort), (t.fport p).st = w.st → (t.fport p).width ≠ w.width →
      let u := t.setFport p w
      let u : State := { u with fab := { u.fab with routesDue := true, floodDue := true } }
      let u := if w.carries && decide (tc1Limit w.width < w.queued 1) then u.stick .fabPort p 13 else u
      t.movePort p w = u.waymark 0x13 [p, portCode w.st, widthCode w.width])) ∧
  (
  (∀ (s : State) (port : Fin 8) (f : Fragment), (s.fport port.val).carries = true →
    let p := port.val
    let v := s.fport p
    (f.tagOk = false → ∃ t, exec (.fragmentReceive port f) s = .next t ∧ t.fport p = v.nak ∧
      t.flag (ra .fabPort p 0x010) 11 = true ∧
      (t.reg (ra .fabPort p 0x04C)).toNat = min ((s.reg (ra .fabPort p 0x04C)).toNat + 1) (2 ^ 32 - 1) ∧
      t = { s with regs := t.regs, fab := { s.fab with ports := t.fab.ports } } ∧
      (∀ d, d ≠ p → t.fport d = s.fport d) ∧
      ∀ b, b ≠ ra .fabPort p 0x010 → b ≠ ra .fabPort p 0x04C → t.reg b = s.reg b) ∧
    (f.tagOk = true → f.seq.toNat ≠ v.rxSeq → exec (.fragmentReceive port f) s =
      .next (s.setFport p v.nak)) ∧
    (f.tagOk = true → f.seq.toNat = v.rxSeq → exec (.fragmentReceive port f) s =
      let w := v.notePhase f.phase s.tim.time
      .next ((s.setFport p { w with nakOpen := false, lastAck := some v.rxSeq, rxSeq := (v.rxSeq + 1) % 65536 }).routeFragment
        p f))) ∧
  (∀ (s : State) (port : Fin 8) (seq : BitVec 16),
    let p := port.val
    let v := s.fport p
    let again := fun (n : Nat) (t : State) =>
      let hit := fun (x : SentFrag) => decide (x.seq = n) || serialNewer 16 x.seq n
      t = { s with regs := t.regs, fab := { s.fab with ports := t.fab.ports } } ∧
      (∀ d, d ≠ p → t.fport d = s.fport d) ∧ (∀ b, b ≠ ra .fabPort p 0x048 → t.reg b = s.reg b) ∧
      t.fport p = { v with sent := v.sent + (v.replay.filter hit).length,
                           busy := v.busy + 11 * ((v.replay.filter hit).map fun x => fragBytes x.len).sum
                           replay := v.replay.map fun (x : SentFrag) =>
                             if hit x then { x with sends := x.sends + 1, at_ := s.tim.time, phase := v.keyPhase } else x }
    (v.carries = true → ∃ t, exec (.negativeAcknowledge port seq) s = .next t ∧ again seq.toNat t) ∧
    (v.carries = true → ∀ x rest, v.replay = x :: rest →
      let late := x.at_ + (nsTo64 (2 * s.ldelay p)).toNat + ackMargin ≤ s.tim.time
      (late → ∃ t, exec (.ackTimeout port) s = .next t ∧ again x.seq t) ∧ (¬ late → exec (.ackTimeout port) s = .next s)) ∧
    (∃ t, exec (.linkAcknowledge port seq) s = .next t ∧ s.WithFport t p
      { v with replay := v.replay.filter fun x => serialNewer 16 x.seq seq.toNat })))

/-- How a port comes up and fails. A trained port of an enabled page authenticates; after a wake it resumes with its
keys; a chain and a signature that check against its anchors and the same digest of the owner root as the device has
sent give it its keys and bring it up at the milestone, and anything else quarantines it with AUTH_FAIL (bit 9), with
OWNER_MISMATCH (bit 11 of the security page) where the owner differs; so does a handshake of 64 milestones; a
quarantined port retries after 1,024 milestones. A fragment sent 8 times without acknowledgement retrains the port (bits
8 and 10), and a port whose key is old or used up sends a fresh public key and takes new keys and salts (log entry 5).
It says that each of these commands answers a next state under its hypotheses: retryLimit, rekey, laneTrainingDone,
authenticationDone, handshakeTimeout, quarantineRetry. -/
def Obligations.PortsTrainAuthenticateAndRekey : Prop :=
  ∀ (s : State) (port : Fin 8),
    let p := port.val
    let v := s.fport p
    let out := (s.portDown p .quarantined).stick .fabPort p 9
    (∀ (lanes : BitVec 4), let w := widthOf lanes.toNat (s.fld (ra .fabPort p 0x040) 1 2)
      v.st = .training → w ≠ 0 → s.portOn p = true → exec (.laneTrainingDone port lanes) s = .next (s.movePort p
        (if v.hadKeys then { v with lanes := lanes, width := w, linkUpDue := true }
         else { v with st := .authenticating, lanes := lanes, width := w, waited := 0, hello := s.ownerRoot }))) ∧
    (∀ (chain : List (List Byte)) (sig : Bool) (root : BitVec 384) (uid : BitVec 64) (peer : Option (BitVec 14)),
      v.st = .authenticating → v.linkUpDue = false →
      let owner := v.hello = beBytes root.toNat 48
      let good := chainVerifies s.anchors chain = true ∧ sig = true ∧ owner
      ∃ t, exec (.authenticationDone port chain sig root uid peer) s = .next t ∧
        (good → s.WithFport t p { v with linkUpDue := true, hadKeys := true, peerUid := uid.toNat,
                                         peer := peer.map (·.toNat), keyPhase := false, rxPhase := false, rxOld := none,
                                         keys := some (linkKeys s.frames.length),
                                         keyAge := 0, sent := 0, txSeq := 0, rxSeq := 0 }) ∧
        (¬ good → t = if owner then out else out.stick .sec 0 11)) ∧
    (v.st = .authenticating → v.linkUpDue = false → 64 ≤ v.waited → exec (.handshakeTimeout port) s = .next out) ∧
    (v.st = .quarantined → 1024 ≤ v.waited →
      exec (.quarantineRetry port) s = .next (s.movePort p { v with st := .training, waited := 0 })) ∧
    (v.carries = true → (∃ x ∈ v.replay, 8 ≤ x.sends) → exec (.retryLimit port) s =
      .next (((s.portDown p .training).stick .fabPort p 8).stick .fabPort p 10)) ∧
    (v.carries = true → 2 ^ 22 ≤ v.keyAge ∨ 2 ^ 31 ≤ v.sent →
      let key : List Byte := 4 :: beBytes (Config.ephemeralKey s.frames.length).toNat 96
      let u := s.sendLink p 4 0x0A (5 :: key.map fun b => (b.toNat : Int)) 98
      exec (.rekey port) s = .next (u.setFport p { u.fport p with keyPhase := !v.keyPhase, keyAge := 0, sent := 0,
                                                                  keys := some (linkKeys s.frames.length) }))

/-- Discovery, while the supervisor works (it runs, in Run or Idle, which this work ends). A flood takes the next
sequence number and sends the device's advertisement on every port that is up. A newer signed advertisement of another
device is passed on and taken into the map; an old or unsigned one sets LSA_BAD (bit 12) and changes nothing else; one
not renewed within 4,096 milestones leaves the map, and routes are due. The root answers a request with the lowest
address that is free and not given up; a device without an address takes the one it asked for; a member without a frame
for 8 milestones notes the loss, with its sticky bit (bit 9) and waymark 0x11, and floods that it has no root. Routes,
time parents and reservations, while the supervisor works (it runs, in Run or Idle). A computation that is due leaves
every entry that is not pinned as the map gives it: the device's own address local, an address of the map its computed
words, every other entry clear; reservations in transit whose route has gone are freed along the old way, and a session
whose route has changed asks again. A device that is not root takes the time parent that the choice gives, or none. A
hop frees what the session held there, and a request of no slots goes on over the port that held them; its destination
grants the request; a hop without a route refuses it with reason 3, one beyond the port's limit with 1 and one beyond
the tenant's budget with 2, to the device that asked; else it admits the slots and passes the request on. While the
supervisor does not work a request waits. A grant and a refusal settle the request that the session has made; a refusal
is recorded with RSV_REFUSED (bit 8). It says that each of these commands answers a next state under its hypotheses:
lsaFlood, lsaReceive, lsaWithdraw, addressRequest, addressAssign, routeComputation, timeParentChoice,
reservationRequest, reservationGrant, reservationRefuse, rootLost. -/
def Obligations.DiscoveryRoutesAndReservations : Prop :=
  (
  (∀ s : State, s.supWorks = true → s.pwr.live = true → s.pwr.clocked = true →
    let fab := { s.fab with lsaSeq := s.fab.lsaSeq + 1, sinceFlood := 0, floodDue := false, told := s.lsaBody }
    let u : State := { s with fab := fab }
    exec .lsaFlood s = .next (u.upPorts.foldl (fun t p => t.sendOn p 4 0x03 0x4000 0xFFFF u.ownLsa 256) u)) ∧
  (∀ (s : State) (port : Fin 8) (l : Lsa), (s.fport port.val).carries = true →
    let newer := l.sigOk = true ∧ l.uid.toNat ≠ s.uid ∧ ∀ e, s.held l.uid.toNat = some e → e.lsa.seq < l.seq
    let u := (s.upPorts.filter (· ≠ port.val)).foldl
      (fun t p => t.sendOn p 4 0x03 0x4000 0xFFFF (lsaNumbers l) 256) s.leaveIdle
    (¬ newer → exec (.lsaReceive port l) s = .next (s.stick .fabDisc 0 12)) ∧
    (newer → exec (.lsaReceive port l) s = .next (if u.supWorks then u.takeLsa l else u))) ∧
  (∀ (s : State) (uid : BitVec 64) (e : MapEntry), s.held uid.toNat = some e → 4096 ≤ e.age → s.supWorks = true →
    exec (.lsaWithdraw uid) s = .next { s with fab := { s.fab with
      map := s.fab.map.filter fun x => x.lsa.uid ≠ uid, routesDue := true } }) ∧
  (∀ (s : State) (port : Fin 8) (uid : BitVec 64) (lost : Option (BitVec 14)), s.tim.st = .root → s.supWorks = true →
    let w := s.leaveIdle
    let u : State := { w with fab := { s.fab with
      forbiddenAddrs := s.fab.forbiddenAddrs ++ (lost.map fun a => (uid.toNat, a.toNat)).toList } }
    ∀ a, a < 16384 → u.taken uid.toNat a = false → (∀ b, b < a → u.taken uid.toNat b = true) →
      exec (.addressRequest port uid lost) s = .next (u.sendLink port.val 4 0x0A [2, uid.toNat, a] 16)) ∧
  (∀ (s : State) (addr : BitVec 14), s.fab.addr = none → s.fab.asking = true → s.supWorks = true →
    let u : State := { s.leaveIdle with
      fab := { s.fab with addr := some addr.toNat, claimMs := s.tim.msNum, asking := false, routesDue := true,
                          oldAddr := none }
      alm := { s.alm with onAddr := true } }
    exec (.addressAssign addr) s = .next (u.flood.waymark 0x10 [orMinus1 s.fab.oldAddr, addr.toNat])) ∧
  (∀ s : State, s.tim.st = .locked ∨ s.tim.st = .holdover → 8 ≤ s.tim.sinceFrame → s.fab.electDue = false →
    ∃ u : State, exec .rootLost s = .next (u.waymark 0x11 [s.tim.rootAddr]).flood ∧ u.flag (ra .fabDisc 0 0x010) 9 = true ∧
      u = { s with regs := u.regs, fab := { s.fab with parted := true, electDue := true, hadRoot := true, parent := none,
                                                         asking := false } } ∧
      ∀ b, b ≠ ra .fabDisc 0 0x010 → u.reg b = s.reg b)) ∧
  (
  (∀ s : State, s.fab.routesDue = true → s.supWorks = true → (s.pwr.st = .run ∨ s.pwr.st = .idle) → s.pwr.live = true →
    ∃ v : State,
      v = { s with regs := v.regs, frames := v.frames,
                   fab := { s.fab with routesDue := false, admits := v.fab.admits, floodDue := v.fab.floodDue,
                                       ports := v.fab.ports } } ∧
      v.fab.admits = s.fab.admits.filter (fun x => !(x.origin.isSome && v.routeTo x.dest ≠ some x.port)) ∧
      (∀ d, d < 16384 → v.reg (TableId.routing.addr d 0) =
        if s.flag (TableId.routing.addr d 0) 1 = true then s.reg (TableId.routing.addr d 0)
        else if s.fab.addr = some d then 0x21
        else if ∃ e ∈ s.fab.map, e.lsa.addr.map (·.toNat) = some d then (s.routeWords d).1 else 0) ∧
      exec .routeComputation s = .next (s.fab.sessions.foldl (fun t x => match t.session x.num with
        | some y => if (y.granted ≠ 0 ∨ y.asked) ∧ t.routeTo y.peer ≠ s.routeTo x.peer then t.askRsv y else t
        | none => t) v).askAgain.deliverPending) ∧
  (∀ s : State, s.tim.st ≠ .root → s.supWorks = true →
    (s.parentChoice s.tim.rootAddr = none → exec .timeParentChoice s =
      .next { s with fab := { s.fab with parent := none } }) ∧
    (∀ c p h, s.parentChoice s.tim.rootAddr = some (c, p, h) → exec .timeParentChoice s =
      .next { s with fab := { s.fab with parent := some p, hops := h } })) ∧
  (∀ (s : State) (n : BitVec 11) (hop : RsvHop) (slots : Nat) (tenant : BitVec 8),
    let run := exec (.reservationRequest n hop slots tenant) s
    let w := s.leaveIdle
    let mine := fun (x : Admit) => decide (x.session = n.toNat) && decide (x.origin = some hop.origin.toNat)
    let u := w.unadmit mine
    let no := fun (reason : Int) => Host.Outcome.next (u.sendTo 4 0x0A hop.origin.toNat n.toNat [4, n.toNat, reason] 16)
    let on := fun (t : State) (k : Nat) =>
      Host.Outcome.next (t.sendTo 4 0x0A hop.dest.toNat n.toNat [1, n.toNat, k, tenant.toNat, hop.origin.toNat] 16)
    (w.supWorks = false → run = .next { w with fab := { w.fab with
      rsvWait := w.fab.rsvWait ++ [(n.toNat, hop, slots, tenant.toNat)] } }) ∧
    (w.supWorks = true → slots = 0 → run = .next (match w.fab.admits.find? mine with
      | some a => u.freeOnward a
      | none => u)) ∧
    (w.supWorks = true → slots ≠ 0 → u.fab.addr = some hop.dest.toNat →
      run = .next (u.sendTo 4 0x0A hop.origin.toNat n.toNat [3, n.toNat, slots] 16)) ∧
    (w.supWorks = true → slots ≠ 0 → u.fab.addr ≠ some hop.dest.toNat →
      u.transit hop.ingress.val hop.dest.toNat = none → run = no 3) ∧
    ∀ q, w.supWorks = true → slots ≠ 0 → u.fab.addr ≠ some hop.dest.toNat → u.transit hop.ingress.val hop.dest.toNat = some q →
      let room := u.admitted q + slots ≤ 8192 * (u.fport q).width ∧ (u.fport q).st = .up
      let fits := ∀ m, u.tc2max tenant.toNat = some m → u.tenantSlots q tenant.toNat + slots ≤ m
      (¬ room → run = no 1) ∧ (room ∧ ¬ fits → run = no 2) ∧
      (room ∧ fits → run = on { u with fab := { u.fab with floodDue := true, admits := u.fab.admits ++
        [⟨q, n.toNat, tenant.toNat, slots, some hop.origin.toNat, hop.dest.toNat⟩] } } slots)) ∧
  (∀ (s : State) (n : BitVec 11) (x : Session), s.session n.toNat = some x →
    let w := s.leaveIdle
    (x.asked = true → s.awake = true → ∀ slots, exec (.reservationGrant n slots) s =
      .next (w.setSession { x with asked := false, granted := slots })) ∧
    (∀ (reason : BitVec 2) (y : Session), x.asked = true ∨ x.granted ≠ 0 → s.awake = true →
      (w.freeRsv n.toNat).session n.toNat = some y →
      let v := ((w.freeRsv n.toNat).setSession { y with granted := 0, asked := false, wants := true, bucket := 0 }).catchUp
        n.toNat false
      ∃ t, exec (.reservationRefuse n reason) s = .next t ∧ t.flag (ra .fabRouter 0 0x010) 8 = true ∧
        t.reg (ra .fabRouter 0 0x04C) = BitVec.ofNat 32 (n.toNat + reason.toNat * 2 ^ 11 + 2 ^ 31) ∧
        t = { v with regs := t.regs })))

/-! ### Sessions (chapters 11 and 13) -/

/-- How a session opens, resumes and refuses, while the device is up and its supervisor works (it runs, in Run or Idle,
which this work ends). An open takes the lowest free number (log entry 35) and answers with the device's handshake; a
peer that is locked out, and an open with no number free, is answered with a refusal. A handshake whose signature and
role check opens the session, forgets the peer's refusals and gives a token; any other is refused, counted (from the
fourth on with a lockout of 1,024 milestones) and sets AUTH_FAIL. A dropped session resumes with the token it was given
last and the same leaf, where its role check still holds, forgets the peer's refusals and gets a new token; a resumption
of a peer that is locked out is answered with a refusal, any other is refused and counted. The lockout of a peer of the
fabric or of the host port that is over ends. It says that each of these commands answers a next state under its
hypotheses: sessionOpen, sessionResume, openLockoutEnd, sessionHandshakeDone. -/
def Obligations.SessionsOpenAndResume : Prop :=
  (∀ (s : State) (peer : BitVec 14) (host : Bool) (role : Role), s.pwr.live = true → s.supWorks = true →
    let u := s.leaveIdle
    let locked := (kget u.fab.refusals (peerKey peer.toNat host) (0, 0)).2 ≠ 0
    (locked ∨ (∀ n, n < 2048 → ∃ x ∈ u.fab.sessions, x.num = n) → exec (.sessionOpen peer host role) s =
      .next (if host then u.sendOn 8 4 0x04 peer.toNat 0xFFFF [1, 0xFFFF] 16
             else u.sendTo 4 0x04 peer.toNat 0xFFFF [1, 0xFFFF] 16)) ∧
    (∀ n, ¬ locked → n < 2048 → (∀ x ∈ u.fab.sessions, x.num ≠ n) →
      (∀ k, k < n → ∃ x ∈ u.fab.sessions, x.num = k) → exec (.sessionOpen peer host role) s =
        let x : Session := { num := n, peer := peer.toNat, host := host, role := role }
        .next (State.shake { u with fab := { u.fab with sessions := u.fab.sessions ++ [x] } } x))) ∧
  (∀ (s : State) (n : BitVec 11) (x : Session) (sig : Bool) (chain : List (List Byte)) (leaf : BitVec 384),
    s.session n.toNat = some x → x.st = .handshake → s.supWorks = true →
    let u := s.leaveIdle
    let good := sig = true ∧ u.roleOk x.role chain leaf = true
    let o := u.setSession { x with st := .open_, waited := 0, silence := 0, leaf := leaf }
    let k := peerKey x.peer x.host
    (good → exec (.sessionHandshakeDone n sig chain leaf) s =
      .next (State.giveToken { o with fab := { o.fab with refusals := kdel o.fab.refusals k } } n.toNat)) ∧
    (¬ good → ∃ t, exec (.sessionHandshakeDone n sig chain leaf) s = .next t ∧ t.session n.toNat = none ∧
      t.flag (ra .sec 0 0x010) 10 = true ∧
      (kget t.fab.refusals k (0, 0)).1 = (kget s.fab.refusals k (0, 0)).1 + 1 ∧
      (3 ≤ (kget s.fab.refusals k (0, 0)).1 ↔ (kget t.fab.refusals k (0, 0)).2 = 1025))) ∧
  (∀ (s : State) (n : BitVec 11) (x : Session) (token : BitVec 128) (auth : Option PeerAuth),
    s.session n.toNat = some x → x.st = .dropped → s.supWorks = true →
    let u := s.leaveIdle
    let k := peerKey x.peer x.host
    let good := token = x.token ∧ ∃ a, auth = some a ∧ a.leaf = x.leaf ∧ u.roleOk x.role a.chain a.leaf = true
    let y : Session := { x with st := .open_, silence := 0, hold := 0,
                                subs := x.subs.map fun (u : Sub) => { u with next := u.acked } }
    let o : State := { u with fab := { u.fab with refusals := kdel u.fab.refusals k } }
    let v := ((o.setSession y).shake y).giveToken n.toNat
    ((kget s.fab.refusals k (0, 0)).2 ≠ 0 →
      exec (.sessionResume n token auth) s = .next (u.sendSession x 4 0x04 [1, n.toNat] 16)) ∧
    ((kget s.fab.refusals k (0, 0)).2 = 0 →
      (good → ∀ z, v.session n.toNat = some z →
        exec (.sessionResume n token auth) s = .next ((v.askRsv z).catchUp n.toNat true)) ∧
      (¬ good → exec (.sessionResume n token auth) s = .next (u.refuseOpen x)))) ∧
  (∀ (s : State) (peer : BitVec 14), ∃ t, exec (.openLockoutEnd peer) s = .next t ∧
    t = { s with fab := { s.fab with refusals := t.fab.refusals } } ∧
    ∀ k, let a := kget s.fab.refusals k (0, 0)
      kget t.fab.refusals k (0, 0) = if (k = peer.toNat ∨ k = peer.toNat + 16384) ∧ a.2 = 1 then (a.1, 0) else a)

/-- What a session asks for (in Run or Idle, which it ends). A subscription that its role does not permit, and a new one
beyond 32,768 in all, is answered with a refusal; any other starts at the next record, or at the kept one that it names,
and one to a stream of TC2 asks for slots. An acknowledgement moves what the sink holds and ends the session's claims on
the stream's records up to it. Records sent ACK_TMO milestones ago and not acknowledged go again on TC3 with the
recovered flag. An access restarts the session's silence and is one of requester 0x8000 + n: a write is REGISTER_WRITE,
a read of an aligned word the read of that requester. How a session ends. A keep-alive of an open session restarts its
silence; closed by its peer, or silent for 8 milestones (those of a Deep Sleep included), it drops: its locks, its
download and its replay end, its reservation is freed, SESS_DROP (bit 11) is set, and it keeps its number, its
subscriptions and its claims until HOLD × 2^16 milestones have passed; with HOLD = 0 it keeps them. A handshake that its
peer closes is gone. It says that each of these commands answers a next state under its hypotheses: registerWrite,
sessionSubscribe, sessionAcknowledge, ackTmoResend, sessionClose, sessionKeepAlive, sessionDrop, sessionHoldEnd,
sessionRegisterAccess. -/
def Obligations.OpenSessionsAskAcknowledgeAndEnd : Prop :=
  (
  ∀ (s : State) (n : BitVec 11) (x : Session), s.session n.toNat = some x → x.st = .open_ →
    (∀ (stream : BitVec 12) (q : Option (BitVec 32)), s.awake = true →
      let i := stream.toNat
      let w := s.leaveIdle
      let start := match q with
        | some k => k.toNat
        | none => (w.stream i).seqNo
      let new : Sub := ⟨i, start, start⟩
      let y : Session := { (if (x.sub i).isSome then x.setSub new else { x with subs := x.subs ++ [new] }) with silence := 0 }
      let t := if w.isTc2 i then (w.setSession y).askRsv y else w.setSession y
      let may := w.maySubscribe x i = true ∧ (w.subsHeld < 32768 ∨ (x.sub i).isSome = true)
      (¬ may → exec (.sessionSubscribe n stream q) s = .next (w.sendSession x 4 0x04 [3, n.toNat, i] 16)) ∧
      (may → exec (.sessionSubscribe n stream q) s =
        .next (if q.isSome then t.offerKept n.toNat true (t.keptFrom i start) else t))) ∧
    (∀ (stream : BitVec 12) (seq : BitVec 32) (u : Sub), x.sub stream.toNat = some u → s.awake = true →
      let next := (seq.toNat + 1) % 2 ^ 32
      let u' : Sub := { u with acked := if serialNewer 32 next u.acked then next else u.acked }
      let v := s.leaveIdle.setSession { x.setSub u' with silence := 0 }
      let free := fun (k : Kept) => if k.record.stream = stream.toNat ∧ serialNewer 32 k.record.seqNo seq.toNat = false
        then { k with claims := k.claims.filter (· ≠ n.toNat) } else k
      exec (.sessionAcknowledge n stream seq) s = .next { v with lake := { v.lake with
        segs := v.lake.segs.map fun (g : Segment) => { g with kept := g.kept.map free } } }) ∧
    (∀ stream : BitVec 12, s.pwr.st ≠ .sleep →
      let late := fun (k : Kept) => decide (k.record.stream = stream.toNat) &&
        ((x.sub stream.toNat).any fun u => decide (seqAhead k.record.seqNo u.acked < 2 ^ 31)) &&
        decide (kget k.sent n.toNat 0 ≠ 0) &&
        decide (kget k.sent n.toNat 0 - 1 + s.fld (ra .fabRouter 0 0x044) 0 8 ≤ s.tim.msCount)
      let due := ((s.lake.segs.filter fun g => !g.conflicting).flatMap fun g => g.kept.filter late).map (·.record)
      exec (.ackTmoResend n stream) s =
        .next (due.foldl (fun t r => (t.markSent n.toNat r).sendRecord x 3 r true) s)) ∧
    (∀ (addr : BitVec 24) (val : Word), let a : Acc := ⟨BitVec.ofNat 16 (0x8000 + n.toNat), 0⟩
      let u := s.setSession { x with silence := 0 }
      exec (.sessionRegisterAccess n true addr val) s = exec (.registerWrite a addr (val.zeroExtend 64) 4) u ∧
      (addr.toNat % 4 = 0 → exec (.sessionRegisterAccess n false addr val) s = .next (u.readFor a addr.toNat)))) ∧
  (
  ∀ (s : State) (n : BitVec 11) (x : Session), s.session n.toNat = some x →
    let w := s.leaveIdle
    let slept := if s.pwr.st = .deepSleep then s.tim.time / msSpan - s.pwr.entry / msSpan else 0
    let gone := fun (v : State) => State.setSession ((v.cutSession x.num).stick .fabRouter 0 11)
      { x with st := .dropped, hold := 0, silence := 0, granted := 0, asked := false, wants := false,
               askDue := false, bucket := 0 }
    let hold := s.fld (ra .fabRouter 0 0x044) 8 12
    (x.st = .open_ → exec (.sessionKeepAlive n) s = .next (s.setSession { x with silence := 0 })) ∧
    (x.st = .open_ → s.awake = true → exec (.sessionClose n) s = .next (gone w)) ∧
    (x.st = .open_ → 8 ≤ x.silence + slept → exec (.sessionDrop n) s = .next (gone s)) ∧
    (x.st = .handshake → s.awake = true → ∃ t, exec (.sessionClose n) s = .next t ∧ t.session n.toNat = none ∧
      (let u := w.freeRsv n.toNat
       t = { u with fab := { u.fab with sessions := u.fab.sessions.filter fun y => y.num ≠ n.toNat } }) ∧
      ((∀ y ∈ s.fab.admits, y.session ≠ n.toNat ∨ y.origin.isSome = true) → w.freeRsv n.toNat = w)) ∧
    (x.st = .dropped → hold ≠ 0 → hold * 2 ^ 16 ≤ x.hold → exec (.sessionHoldEnd n) s =
      .next (((s.cutSession x.num).endClaims x.num none).dropNumber x.num)) ∧
    (x.st = .dropped → hold = 0 → exec (.sessionHoldEnd n) s = .next s))

/-! ### The lake (chapter 12) -/

/-- Own segments and their holders. A sealed segment older than MAXAGE with claims gives its records up, with bit 9, and
is released. While the device is up in Run or Idle, an offer is answered by acceptance while replica space is free and
by refusal otherwise; a whole segment that a holder asks for is sent, its image in parts; a choice that is due, or that
follows a holder's refusal, drops the holders that refuse or that LAK_FORBID names (log entry 151), takes eligible
candidates for the places that are free and is due again in 1,024 milestones, and one that leaves fewer than two holders
sets NO_HOLDER (bit 11); a holder out of reach for 64 milestones leaves its place, with waymark 0x19; a recovery request
is answered with every copy held, or that none is held. It says that each of these commands answers a next state under
its hypotheses: maxageGiveUp, replicaChoice, replicaOffer, segmentRequest, holderLost, recoveryRequest. -/
def Obligations.HoldersAreChosenAskedAndLost : Prop :=
  (∀ (s : State) (seg : Nat) (g : Segment), s.lake.segs.find? (fun x => x.num = seg) = some g →
    s.fld (ra .lak 0 0x040) 16 16 ≠ 0 → g.sealed = true → g.conflicting = false → g.claims ≠ [] →
    g.sealMs + s.fld (ra .lak 0 0x040) 16 16 * 2 ^ 16 ≤ s.tim.msCount →
    exec (.maxageGiveUp seg) s = .next (((s.giveUpSeg seg).stick .lak 0 9).releaseNow seg)) ∧
  (∀ (s : State) (cands : List (BitVec 14 × Fin 8 × Nat)), s.pwr.live = true → (s.pwr.st = .run ∨ s.pwr.st = .idle) →
    s.sup.running = true →
    let refuses := fun (h : Nat × Nat × Nat) => cands.any fun c => decide (c.1.toNat = h.2.1) && decide (c.2.2 = 0)
    let stay := s.lake.holders.filter fun h => !(refuses h || s.lakForbids h.2.1)
    let due := s.lake.choiceIn = 0 ∨ s.lake.holders.any refuses = true
    (due → ∃ t new, exec (.replicaChoice cands) s = .next t ∧ t.lake.holders = stay ++ new ∧ t.lake.choiceIn = 1024 ∧
      (t.lake.holders.length < 2 → t.flag (ra .lak 0 0x010) 11 = true) ∧
      ∀ h ∈ new, (h.1 = 0 ∨ h.1 = 1) ∧ stay.any (fun x => x.1 = h.1) = false ∧
        ∃ c ∈ cands, c.1.toNat = h.2.1 ∧ c.2.1.val = h.2.2 ∧ c.2.2 ≠ 0 ∧ s.peerOf h.2.2 = some h.2.1 ∧
          s.lakForbids h.2.1 = false) ∧
    (¬ due → exec (.replicaChoice cands) s = .next s)) ∧
  (∀ (s : State), s.pwr.live = true → (s.pwr.st = .run ∨ s.pwr.st = .idle) → s.sup.running = true → s.lake.holders = [] →
    s.lake.choiceIn = 0 →
    exec (.replicaChoice []) s = .next (State.stick { s with lake := { s.lake with choiceIn := 1024 } } .lak 0 11) ∧
    ∀ (c : BitVec 14) (port : Fin 8) (free : Nat), s.peerOf port.val = some c.toNat → s.lakForbids c.toNat = false →
      free ≠ 0 → ∃ t, exec (.replicaChoice [(c, port, free)]) s = .next t ∧
        t.lake.holders = [(0, c.toNat, port.val)] ∧ t.flag (ra .lak 0 0x010) 11 = true) ∧
  (∀ (s : State), s.pwr.live = true → (s.pwr.st = .run ∨ s.pwr.st = .idle) → s.sup.running = true →
    2 ≤ s.lake.holders.length → s.lake.holders.any (fun h => h.1 = 0) = true →
    s.lake.holders.any (fun h => h.1 = 1) = true → s.lake.holders.any (fun h => s.lakForbids h.2.1) = false →
    s.lake.choiceIn = 0 →
    exec (.replicaChoice []) s = .next { s with lake := { s.lake with choiceIn := 1024 } }) ∧
  (∀ (s : State) (peer : BitVec 14) (uid : BitVec 64), s.pwr.live = true → s.supWorks = true →
    exec (.replicaOffer peer uid) s =
      .next (s.sendTo 3 0x05 peer.toNat 0xFFFF [if s.rfree = 0 then 2 else 1, uid.toNat, s.rfree] 16)) ∧
  (∀ (s : State) (peer : BitVec 14) (seg : Nat) (g : Segment), s.pwr.live = true → (s.pwr.st = .run ∨ s.pwr.st = .idle) →
    s.lake.segs.find? (fun x => decide (x.num = seg) && x.replicated && !x.conflicting) = some g →
    exec (.segmentRequest peer seg) s =
      .next (s.sendParts 3 0x05 peer.toNat 0xFFFF [5, g.num, g.issue] (s.segBytes g))) ∧
  (∀ (s : State) (i : Fin 2) (h : Nat × Nat × Nat), s.lake.holders.find? (fun x => x.1 = i.val) = some h →
    64 ≤ kget s.lake.holderAge i.val 0 → exec (.holderLost i) s =
      .next (State.waymark { s with lake := { s.lake with
        holders := s.lake.holders.filter fun x => x.1 ≠ i.val
        holderAge := kset s.lake.holderAge i.val 0 0, lost := s.lake.lost ++ [h.2.1], choiceIn := 0 } } 0x19 [i.val, -1])) ∧
  (∀ (s : State) (peer : BitVec 14) (uid : BitVec 64) (num : Nat), s.pwr.live = true → s.awake = true →
    (s.copiesOf uid.toNat num = [] → exec (.recoveryRequest peer uid num) s =
      .next (s.sendTo 3 0x05 peer.toNat 0xFFFF [8, uid.toNat, num] 16)) ∧
    (s.copiesOf uid.toNat num ≠ [] → exec (.recoveryRequest peer uid num) s = .next ((s.copiesOf uid.toNat num).foldl
      (fun t r => t.sendParts 3 0x05 peer.toNat 0xFFFF [5, r.num, r.issue] r.bytes) s)))

/-- Copies held for other devices and copies that differ, on a device that is up in Run or Idle. A copy that is not
intact sets bit 13 and is not taken; a first issue takes a free replica slot, and is refused where none is free; a push
of the next issue adds its records and replaces issue, digest, header and signature in place; any other asks for the
whole segment. A copy of an own segment numbers the next ones above it (with the index lost those that are new move
above it too) and is taken as the copies held require, and so is one of another device; one of issue 0 is the answer
that the peer holds none: of the originator itself, it leaves the copies held in conflict. A release by the originator
frees the copies of the segment that do not conflict. A resolve keeps the copy in the named slot, discards the segment's
others and delivers an own copy's records to its sessions; a discard removes them all. It says that each of these
commands answers a next state under its hypotheses: pushReceive, segmentReleaseReceive, copyReceive, lakeResolve,
lakeDiscard. -/
def Obligations.CopiesAreKeptResolvedAndReleased : Prop :=
  (∀ (s : State) (peer : BitVec 14) (c : SegCopy), s.pwr.live = true → s.awake = true →
    let ask := fun (t : State) => t.sendTo 3 0x05 peer.toNat 0xFFFF [4, c.uid.toNat, c.num] 16
    (c.intact = false → exec (.pushReceive peer c) s = .next (ask (s.stick .lak 0 13)) ∧
      (c.issue ≠ 0 → ∀ b, exec (.copyReceive peer c b) s = .next (s.stick .lak 0 13))) ∧
    (c.intact = true → s.copiesOf c.uid.toNat c.num = [] → ∀ k, s.freeReplica = some k →
      let new : State := { s with lake := { s.lake with
        replicas := s.lake.replicas ++ [⟨k, c.uid.toNat, c.num, c.issue, c.digest, false, c⟩] } }
      (c.issue = 1 → exec (.pushReceive peer c) s = .next new) ∧
      (c.issue ≠ 0 → c.uid.toNat ≠ s.uid → ∀ b, exec (.copyReceive peer c b) s = .next new)) ∧
    (∀ r, c.intact = true → s.copiesOf c.uid.toNat c.num = [r] →
      (r.issue + 1 = c.issue → exec (.pushReceive peer c) s = .next { s with lake := { s.lake with
        replicas := s.lake.replicas.map fun (x : Replica) =>
          if x.slot = r.slot then
            { x with issue := c.issue, digest := c.digest, copy := { c with records := x.copy.records ++ c.records } }
          else x } }) ∧
      (r.issue + 1 ≠ c.issue → exec (.pushReceive peer c) s = .next (ask s))) ∧
    (c.intact = true → s.copiesOf c.uid.toNat c.num = [] → c.issue = 1 → s.freeReplica = none →
      exec (.pushReceive peer c) s = .next (s.sendTo 3 0x05 peer.toNat 0xFFFF [2, c.uid.toNat, c.num] 16)) ∧
    (c.intact = true → 2 ≤ (s.copiesOf c.uid.toNat c.num).length → exec (.pushReceive peer c) s = .next (ask s)) ∧
    (c.intact = true → s.copiesOf c.uid.toNat c.num = [] → c.issue ≠ 1 → s.rfree ≠ 0 →
      exec (.pushReceive peer c) s = .next (ask s)) ∧
    (c.issue = 0 → ∀ b, exec (.copyReceive peer c b) s =
      .next (if c.uid.toNat = s.uid then (s.topAnswer peer.toNat).holderAnswer peer.toNat c.num
        else if s.fromOriginator peer c then s.noOriginal c.uid.toNat c.num else s)) ∧
    (c.intact = true → c.issue ≠ 0 → ∀ b, exec (.copyReceive peer c b) s = .next (if c.uid.toNat = s.uid then
      (((s.liftNumbers c.num).topAnswer peer.toNat).ownCopy c).holderAnswer peer.toNat c.num
      else s.foreignCopy peer c b)) ∧
    c.num < (s.liftNumbers c.num).lake.nextSeg ∧
    (s.lake.indexLost = false → (s.liftNumbers c.num).lake.segs = s.lake.segs)) ∧
  (∀ (s : State) (peer : BitVec 14) (uid : BitVec 64) (num : Nat) (e : MapEntry), e ∈ s.fab.map → e.lsa.uid = uid →
    e.lsa.addr = some peer → s.awake = true → exec (.segmentReleaseReceive peer uid num) s = .next { s with lake := { s.lake with
      replicas := s.lake.replicas.filter fun r => !(r.uid = uid.toNat && r.num = num && !r.conflicting) } }) ∧
  (∀ (s u : State) (a : Acc) (slot : BitVec 16) (r : Replica),
    u.lake.segs.find? (fun g => decide (g.slot = slot.toNat) && g.conflicting) = none →
    u.lake.replicas.find? (fun x => decide (x.slot = slot.toNat) && x.conflicting) = some r →
    let rest := u.lake.replicas.filter fun x => !(x.uid = r.uid && x.num = r.num)
    (s.Passes a (ra .lak 0 0x0B8) (BitVec.ofNat 32 (slot.toNat + 0x10000)) false u → exec (.lakeResolve a slot) s =
      .next { u with lake := { u.lake with replicas := rest ++ [{ r with conflicting := false }] } }) ∧
    (s.Passes a (ra .lak 0 0x0B8) (BitVec.ofNat 32 (slot.toNat + 0x20000)) false u → exec (.lakeDiscard a slot) s =
      .next { u with lake := { u.lake with replicas := rest } })) ∧
  (∀ (s u : State) (a : Acc) (slot : BitVec 16) (g : Segment),
    u.lake.segs.find? (fun x => decide (x.slot = slot.toNat) && x.conflicting) = some g →
    let rest := u.lake.segs.filter fun x => x.num ≠ g.num
    (s.Passes a (ra .lak 0 0x0B8) (BitVec.ofNat 32 (slot.toNat + 0x10000)) false u → exec (.lakeResolve a slot) s =
      let h := { g with conflicting := false }
      .next (State.deliverSeg { u with lake := { u.lake with segs := rest ++ [h] } } h)) ∧
    (s.Passes a (ra .lak 0 0x0B8) (BitVec.ofNat 32 (slot.toNat + 0x20000)) false u → ∃ t,
      exec (.lakeDiscard a slot) s = .next t ∧ ∀ x ∈ t.lake.segs, x.num ≠ g.num))

/-- Captures. A software trigger of an armed ring starts the post-trigger share with cause 0 at the instant of the
write, one during a capture is counted as missed, and with no ring it does nothing; a release frees the capture's index.
At the end of the share, not before, the ring stops, and what it holds from its first complete milestone on is copied
where an index and slots for all its parts are free; else the capture is abandoned with CAP_FAIL (bit 15) and the ring
is armed again. A capture that has been copied is listed, the ring empty and armed and waymark 0x1A emitted. A capture
received over a session in Run or Idle takes an index and owner slots in the same way (its blocks' layout: log entry
15). It says that each of these commands answers a next state under its hypotheses: captureTrigger,
capturePostTriggerEnd, captureCopyDone, captureRelease, captureReceive. -/
def Obligations.CapturesTriggerCopyAndRelease : Prop :=
  (∀ (s u : State) (a : Acc), s.Passes a (ra .lak 0 0x094) 1 false u →
    (u.lake.capSt = .armed → exec (.captureTrigger a) s =
      .next { u with lake := { u.lake with capSt := .post, capCause := 0, capInst := u.tim.stamp, trigAt := u.lake.ring.length } }) ∧
    (u.lake.capSt = .post ∨ u.lake.capSt = .copying → exec (.captureTrigger a) s =
      .next { u with lake := { u.lake with missed := (u.lake.missed + 1) % 65536 } }) ∧
    (u.lake.capSt = .idle → exec (.captureTrigger a) s = .next u)) ∧
  (∀ (s u : State) (a : Acc) (idx : BitVec 3), s.Passes a (ra .lak 0 0x094) (BitVec.ofNat 32 (2 + idx.toNat * 4)) false u →
    exec (.captureRelease a idx) s = .next { u with lake := { u.lake with
      captures := u.lake.captures.filter fun c => c.idx ≠ idx.toNat } }) ∧
  (∀ s : State, s.lake.capSt = .post → s.pwr.clocked = true →
    let abandoned := (s.stick .lak 0 15).rearm
    (s.postDone = false → exec .capturePostTriggerEnd s = .next s) ∧
    (s.postDone = true → exec .capturePostTriggerEnd s = .next (match firstMilestone s.ringHeld with
      | none => abandoned
      | some x =>
        let bs := s.capBytes x.1 s.tim.msNum x.2 s.ringHeld
        match s.placeCapture { idx := 0, first := x.1, last := s.tim.msNum, cause := s.lake.capCause, slots := [],
                               verified := true, items := s.ringHeld, firstSeg := s.lake.nextSeg,
                               parts := cutParts bs.length bs, origin := s.fab.addr.getD 0, madeMs := s.tim.msNum } with
        | none => abandoned
        | some c => { s with lake := { s.lake with capSt := .copying, nextSeg := s.lake.nextSeg + c.slots.length,
                                                   building := some c } }))) ∧
  (∀ (s : State) (c : Capture),
    let slots := s.freeOwnerSlots c.parts.length
    (s.freeCapture = none ∨ slots.length ≠ c.parts.length → s.placeCapture c = none) ∧
    (∀ i, s.freeCapture = some i → slots.length = c.parts.length →
      s.placeCapture c = some { c with idx := i, slots := slots })) ∧
  (∀ (s : State) (c : Capture), s.lake.capSt = .copying → s.lake.building = some c → exec .captureCopyDone s =
    .next (State.waymark { s with lake := { s.lake with
      captures := s.lake.captures ++ [c]
      building := none
      ringFirst := s.tim.msNum
      ring := []
      trigAt := 0
      capSt := if s.lake.ringNow = 0 then .idle else .armed } } 0x1A [c.idx, c.cause])) ∧
  (∀ (s : State) (first last : BitVec 32) (parts : List (List Byte)) (intact : Bool), s.pwr.live = true →
    s.awake = true →
    let c : Capture := { idx := 0, first := first.toNat, last := last.toNat, cause := 0, slots := [], verified := intact,
                         items := Config.captureItems parts, firstSeg := s.lake.nextSeg, parts := parts,
                         origin := s.fab.addr.getD 0, madeMs := s.tim.msNum }
    (s.placeCapture c = none → exec (.captureReceive first last parts intact) s = .next (s.stick .lak 0 15)) ∧
    (∀ d, s.placeCapture c = some d → exec (.captureReceive first last parts intact) s = .next { s with lake := { s.lake with
      nextSeg := s.lake.nextSeg + d.slots.length
      captures := s.lake.captures ++ [d] } }))

/-- Replays. A replay is started on an idle pipeline, from a verified capture that spans [START, END), for an open
session; with one of these wanting, or a replay running, it is refused with status 3 and bit 16. An abort ends the
replay with status 5; one that reaches its end sends what is left of the records it reproduces to its session alone, on
TC3, and ends with status 2 and bit 17. It says that each of these commands answers a next state under its hypotheses:
replayGo, replayAbort, replayDone. -/
def Obligations.ReplaysStartEndAndAbort : Prop :=
  (∀ (s u : State) (a : Acc), s.Passes a (ra .lak 0 0x0AC) 1 false u →
    let cfg := u.reg (ra .lak 0 0x0A0)
    let start := (u.reg (ra .lak 0 0x0A4)).toNat
    let stop := (u.reg (ra .lak 0 0x0A8)).toNat
    let ready := fun (b : Nat) (c : Capture) (x : Session) => u.lake.replay = none ∧
      u.replayPipe (bits cfg 3 5) = some b ∧ u.lake.captures.find? (fun c => c.idx = bits cfg 0 3) = some c ∧
      u.session (bits cfg 8 11) = some x ∧ c.verified = true ∧ c.spans start stop = true ∧ x.st = .open_
    (∀ b c x, ready b c x → exec (.replayGo a) s = .next { u with lake := { u.lake with
      replay := some ⟨b, c.idx, x.num, start, stop, c.offset start⟩, replayStatus := 1, replayPipe := b } }) ∧
    ((∀ b c x, ¬ ready b c x) → exec (.replayGo a) s =
      .next (State.stick { u with lake := { u.lake with replayStatus := 3 } } .lak 0 16))) ∧
  (∀ (s u : State) (a : Acc), s.Passes a (ra .lak 0 0x0AC) 2 false u →
    (u.lake.replay = none → exec (.replayAbort a) s = .next u) ∧
    (u.lake.replay ≠ none → exec (.replayAbort a) s =
      .next { u with lake := { u.lake with replay := none, replayStatus := 5 } })) ∧
  (∀ (s : State) (r : Replay), s.lake.replay = some r →
    let done := fun (v : State) => State.stick { v with lake := { v.lake with replay := none, replayStatus := 2 } } .lak 0 17
    (∀ x, s.session r.session = some x → exec .replayDone s = .next
      (done ((s.replayed r r.upto (s.replayPlace r.stop)).foldl (fun t y => t.sendRecord x 3 y false) s))) ∧
    (s.session r.session = none → exec .replayDone s = .next (done s)))

/-! ### Glazes, boot and security (chapters 13, 14 and 18) -/

/-- Glaze commands. While a command runs a write is ignored; while the supervisor does not run it waits. A load of an
entry that passes the checks marks it loaded; one that fails them is refused with its first failing item and reason in
GLZ_REFUSE and LOAD_REFUSED (bit 8). An unload clears the mark, but not for the glaze in force or a pending one. A store
runs until it is done: a good one whose image fits 4 MiB writes an image with the next issue number, the items of its
entry, the loaded glazes and the boot glaze to the copy not chosen at boot; any other (log entry 154) leaves that copy
unusable and sets STORE_FAIL (bit 17), and a write that fails sets WRITE_FAIL on the flash page (bit 9). It says that
each of these commands answers a next state under its hypotheses: glazeLoad, glazeUnload, glazeStore, glazeStoreDone. -/
def Obligations.GlazeCommandsLoadUnloadAndStore : Prop :=
  (∀ (s u : State) (a : Acc) (dir : BitVec 6),
    let d := dir.toNat
    let cmd := fun (op : Nat) => BitVec.ofNat 32 (d + op * 256)
    let by_ := fun (op : Nat) => s.Passes a (ra .glz 0 0x040) (cmd op) false u
    let c := fun (op : Nat) => if op = 1 then Instr.glazeLoad a dir else if op = 2 then .glazeUnload a dir else .glazeStore a dir
    (∀ op ∈ [1, 2, 3], by_ op →
      (u.glz.busy = true → exec (c op) s = .next u) ∧
      (u.glz.busy = false → u.sup.running = false → exec (c op) s =
        .next { u with glz := { u.glz with busy := true, waitCmd := some (cmd op) } })) ∧
    (u.glz.busy = false → u.sup.running = true →
      let refused := fun (item reason : Nat) =>
        State.stick { u with glz := { u.glz with refused := some (d, reason, item) } } .glz 0 8
      (by_ 1 → u.isLoaded d = false →
        (u.dirBad d = true → exec (.glazeLoad a dir) s = .next (refused 0 1)) ∧
        (u.dirBad d = false → ∀ i r, u.badItem d = some (i, r) → exec (.glazeLoad a dir) s = .next (refused i r)) ∧
        (u.dirBad d = false → u.badItem d = none → (∃ e < 64, e ≠ d ∧ u.isLoaded e = true ∧ u.dirId e = u.dirId d) →
          exec (.glazeLoad a dir) s = .next (refused 0 5)) ∧
        (u.dirBad d = false → u.badItem d = none → (∀ e < 64, e ≠ d → u.isLoaded e = true → u.dirId e ≠ u.dirId d) →
          exec (.glazeLoad a dir) s =
          .next { u with glz := { u.glz with loaded := u.glz.loaded ||| BitVec.ofNat 64 (2 ^ d) } })) ∧
      (by_ 1 → u.isLoaded d = true → exec (.glazeLoad a dir) s = .next u) ∧
      (by_ 2 → u.glz.nowId ≠ u.dirId d → (∀ p, u.glz.pend = some p → p.id ≠ u.dirId d) → exec (.glazeUnload a dir) s =
        .next { u with glz := { u.glz with loaded := u.glz.loaded &&& ~~~ (BitVec.ofNat 64 (2 ^ d)) } }) ∧
      (by_ 2 → u.glz.nowId = u.dirId d → exec (.glazeUnload a dir) s = .next u) ∧
      (by_ 3 → exec (.glazeStore a dir) s = .next { u with glz := { u.glz with busy := true, storeDir := d } }))) ∧
  (∀ s : State, s.glz.busy = true → s.glz.waitCmd = none → (s.pwr.st = .run ∨ s.pwr.st = .idle) →
    let image : BaseImage := {
      issue := s.flash.nextIssue, items := s.dirItems s.glz.storeDir, bootGlaze := s.glz.nowId,
      glazes := s.packGlazes 0 0 ((List.range 64).filter s.isLoaded) }
    let stored := fun (x : Option BaseImage) => { s with
      flash := if s.upd.baseCopy then { s.flash with base0 := x } else { s.flash with base1 := x }
      glz := { s.glz with busy := false } }
    exec (.glazeStoreDone true) s = .next (if image.size ≤ 0x400000 then stored (some image)
      else State.stick (stored none) .glz 0 17) ∧
    exec (.glazeStoreDone false) s = .next (State.stick (State.stick (stored none) .flash 0 9) .glz 0 17))

/-- Mode changes. GO of a glaze that is there for a target that is ahead, 16 milestones or, locally, one, and not in the
verge before it, is taken as received; else it sets MC_REFUSED (bit 9). A recall of the pending change is taken as
received; of any other it is refused. A received change newer than all accepted and not recalled before goes on to the
other ports and is pending, late where its target is not ahead, or shortfall (bit 11 and waymark 0x21) where its glaze
is not there; one that is not newer or was recalled before changes nothing. A recall drops the pending change with
waymark 0x22, is kept with the last 16, and sets bit 13 with the waymark where its change has been applied; of a change
never applied it is only kept. A query is answered with the change accepted last. It says that each of these commands
answers a next state under its hypotheses: modeChangeGo, modeChangeRecall, modeChangeReceive, queryReceive. -/
def Obligations.ModeChangesAreTakenRecalledAndAnswered : Prop :=
  (∀ (s u : State) (a : Acc) (id : BitVec 16) (isLocal : Bool),
    let num := (u.reg (ra .glz 0 0x078)).toNat
    let target := (u.reg (ra .glz 0 0x074)).toNat
    let own := u.fab.addr.getD 0
    let loc := if isLocal then 0x20000 else 0
    let good := u.hasGlaze id.toNat = true ∧ u.tim.ahead target = true ∧
      (if isLocal then 1 else 16) ≤ u.tim.toGo target ∧ ¬ (u.tim.verge = true ∧ u.tim.toGo target = 1)
    (s.Passes a (ra .glz 0 0x070) (BitVec.ofNat 32 (id.toNat + loc + 2 ^ 31)) false u →
      (good → exec (.modeChangeGo a id isLocal) s = .next (u.takeChange none (!isLocal) id.toNat num target own)) ∧
      (¬ good → exec (.modeChangeGo a id isLocal) s = .next (u.stick .glz 0 9))) ∧
    (s.Passes a (ra .glz 0 0x070) (BitVec.ofNat 32 (0x10000 + loc + 2 ^ 31)) false u →
      ((∃ c, u.glz.pend = some c ∧ c.num = num) → exec (.modeChangeRecall a isLocal) s =
        .next (u.takeRecall none (!isLocal) num own)) ∧
      ((∀ c, u.glz.pend = some c → c.num ≠ num) → exec (.modeChangeRecall a isLocal) s = .next (u.stick .glz 0 9)))) ∧
  (∀ (z : State) (port : Fin 8) (f : ModeFrame), z.pwr.live = true → (z.pwr.st = .run ∨ z.pwr.st = .idle) →
    (z.fport port.val).carries = true → f.isQuery = false → let s := z.leaveIdle
    let onTime := s.tim.ahead f.target.toNat = true ∧ ¬ (s.tim.verge = true ∧ s.tim.toGo f.target.toNat = 1)
    let c : Change := { id := f.id.toNat, num := f.num.toNat, target := f.target.toNat, due := s.tim.due,
                        late := !(decide onTime), origin := f.origin.toNat }
    let u := State.floodMode { s with glz := { s.glz with last := some c } } (some port.val) f.id.toNat 0 f.num.toNat
      f.target.toNat f.origin.toNat
    (f.isRecall = false → s.newerChange f.num.toNat = false → exec (.modeChangeReceive port f) z = .next s) ∧
    (f.isRecall = false → s.newerChange f.num.toNat = true →
      (s.glz.recalls.contains f.num.toNat = true → exec (.modeChangeReceive port f) z = .next s) ∧
      (s.glz.recalls.contains f.num.toNat = false → exec (.modeChangeReceive port f) z =
        .next (if u.hasGlaze f.id.toNat then { u with glz := { u.glz with pend := some c } }
          else (State.stick { u with glz := { u.glz with pend := none } } .glz 0 11).waymark 0x21 [f.id.toNat, -1]))) ∧
    (f.isRecall = true → s.glz.recalls.contains f.num.toNat = true → exec (.modeChangeReceive port f) z = .next s) ∧
    (f.isRecall = true → s.glz.recalls.contains f.num.toNat = false →
      ∃ v : State, v.glz = { s.glz with recalls := v.glz.recalls } ∧ f.num.toNat ∈ v.glz.recalls ∧ v.glz.recalls.length ≤ 16 ∧
        ((∃ p, s.glz.pend = some p ∧ p.num = f.num.toNat) → exec (.modeChangeReceive port f) z =
          .next (State.waymark { v with glz := { v.glz with pend := none } } 0x22 [f.num.toNat, 0])) ∧
        ((∀ p, s.glz.pend = some p → p.num ≠ f.num.toNat) → exec (.modeChangeReceive port f) z =
          .next (if s.glz.applied.contains f.num.toNat then (v.stick .glz 0 13).waymark 0x22 [f.num.toNat, 1] else v)))) ∧
  (∀ (s : State) (port : Fin 8), s.pwr.live = true → (s.pwr.st = .run ∨ s.pwr.st = .idle) →
    (s.fport port.val).carries = true →
    (s.glz.last = none → exec (.queryReceive port) s = .next s.leaveIdle) ∧
    (∀ c, s.glz.last = some c → exec (.queryReceive port) s =
      .next (s.leaveIdle.sendLink port.val 4 0x08 [c.id, 0, c.num, c.target, c.origin] 16)))

/-- The security block. A command written while none runs starts; a read of an item that is not there is refused with
result 2 and CMD_FAIL (bit 8); while one runs a write is ignored with CMD_FAIL. A read that is done copies the item into
SEC_BUF with its length; a signature is the attestation; an install writes the checked chain to flash and a clear
removes it, each with OWNER_CHANGED (bit 9), every open owner session closing at the next milestone; one that fails its
checks leaves the chain in force, with its result and CMD_FAIL, and WRITE_FAIL of the flash page (bit 9) with result 5.
A tamper event sets bit 13 of SYS_STICKY where an owner chain is installed or the self-test failed. It says that each of
these commands answers a next state under its hypotheses: secRead, secSign, secInstall, secClear, secCommandDone,
tamper. -/
def Obligations.SecurityCommandsRunAndEnd : Prop :=
  (∀ (s u : State) (a : Acc) (item : BitVec 4),
    let absent := 7 ≤ item.toNat ∨ (3 ≤ item.toNat ∧ item.toNat ≤ 5 ∧ u.flash.nOwners ≤ item.toNat - 3)
    let cmd := fun (op : Nat) => s.Passes a (ra .sec 0 0x048) (BitVec.ofNat 32 op) false u
    let runs := fun (n : Nat) => { u with sec := { u.sec with busy := n, result := 0 } }
    (u.sec.busy = 0 →
      (cmd (1 + item.toNat * 16) →
        (¬ absent → exec (.secRead a item) s = .next (runs (1 + item.toNat * 16))) ∧
        (absent → exec (.secRead a item) s =
          .next (State.stick { u with sec := { u.sec with result := 2 } } .sec 0 8))) ∧
      (cmd 2 → exec (.secSign a) s = .next (runs 2)) ∧ (cmd 3 → exec (.secInstall a) s = .next (runs 3)) ∧
      (cmd 4 → exec (.secClear a) s = .next (runs 4))) ∧
    (u.sec.busy ≠ 0 → (cmd (1 + item.toNat * 16) → exec (.secRead a item) s = .next (u.stick .sec 0 8)) ∧
      (cmd 2 → exec (.secSign a) s = .next (u.stick .sec 0 8)) ∧
      (cmd 3 → exec (.secInstall a) s = .next (u.stick .sec 0 8)) ∧
      (cmd 4 → exec (.secClear a) s = .next (u.stick .sec 0 8)))) ∧
  (∀ (s : State) (c : ChainCheck), (s.pwr.st = .run ∨ s.pwr.st = .idle) →
    let idle : State := { s with sec := { s.sec with busy := 0 } }
    (s.sec.busy % 16 = 1 → let bs := s.secItem (s.sec.busy / 16)
      exec (.secCommandDone c) s =
        .next { idle.setBufBytes (ra .sec 0 0x800) 0 bs with sec := { idle.sec with result := 1, len := bs.length } }) ∧
    (s.sec.busy % 16 = 2 → exec (.secCommandDone c) s = .next { idle.attest with sec := { idle.sec with result := 1 } }) ∧
    (∀ clear, s.sec.busy % 16 = (if clear then 4 else 3) → ∃ t, exec (.secCommandDone c) s = .next t ∧
      (s.chainResult c clear ≠ 1 →
        let w := if s.chainResult c clear = 5 then idle.stick .flash 0 9 else idle
        t = State.stick { w with sec := { w.sec with result := s.chainResult c clear } } .sec 0 8) ∧
      (s.chainResult c clear = 1 → t.flag (ra .sec 0 0x010) 9 = true ∧
        t.sec = { s.sec with busy := 0, result := 1 } ∧
        t.flash.nOwners = (if clear then 0 else (s.bufByte (ra .sec 0 0x800) 2).toNat) ∧
        (∀ x ∈ t.fab.sessions, x.role = .owner → x.st = .open_ → x.closeDue = true) ∧
        t = { s with regs := t.regs, flash := { s.flash with owners := t.flash.owners, nOwners := t.flash.nOwners }
                     sec := t.sec, fab := { s.fab with sessions := t.fab.sessions } }))) ∧
  (∀ (s : State) (selfTest : Bool),
    (selfTest = true ∨ s.flash.nOwners ≠ 0 → exec (.tamper selfTest) s = .next (s.stick .sys 0 13)) ∧
    (selfTest = false ∧ s.flash.nOwners = 0 → exec (.tamper selfTest) s = .next s))

/-- Starts. A cold start in Run, not yet booted: fabric time starts at 0, the supply enable rises, the I²C address is
sampled, a failed security self-test sets TAMPER (SYS bit 13) and the start causes are recorded. Without a usable flash,
or with boot records of which none is chosen (none intact, or two that differ under one number, neither or both signed),
the recovery loader runs (UPD bit 15) and the supervisor does not; else the device boots from the record chosen, with
BREC_COPY (UPD bit 14) where only one copy is intact. It says that this command answers a next state under its
hypotheses: coldStart. -/
def Obligations.AColdStartBootsTheChosenRecordOrRecovers : Prop :=
  ∀ (s : State) (boot : BootIn), s.pwr.st = .run → s.pwr.booted = false →
    let t0 := if s.tim.locked then s.tim else { s.tim with locked := true, time := 0, ckr := 0, msNum := 0 }
    let u : State := { s with tim := t0, pwr := { s.pwr with penHigh := true }
                              hst := { s.hst with i2cAddr := 0x28 + boot.straps.toNat } }
    let v := ((if boot.secSelfTest then u else u.stick .sys 0 13).startCause).flashStat boot
    let kept := fun (r : Option BootRec) (ok : Bool) => if recIntact r ok then r else none
    let f : Flash := { v.flash with brec0 := kept v.flash.brec0 boot.brecSig0, brec1 := kept v.flash.brec1 boot.brecSig1 }
    let w : State := { v with flash := f }
    let recovers := fun (x : State) (t : State) =>
      t.flag (ra .upd 0 0x010) 15 = true ∧ t.pwr.recovery = true ∧ t.pwr.booted = true ∧ t.sup.running = false ∧
      t = { x with upd := t.upd, sup := { x.sup with running := false }
                   pwr := { x.pwr with booted := true, recovery := true }, regs := t.regs }
    let rec_ := fun (c : Bool) => if c then f.brec1 else f.brec0
    (flashOk boot = false → ∃ t, exec (.coldStart boot) s = .next t ∧ recovers v t ∧ t.upd.st = .recovery) ∧
    (flashOk boot = true → f.choice = none → ∃ t, exec (.coldStart boot) s = .next t ∧ recovers w t) ∧
    (∀ c, f.choice = some c → (rec_ c).isSome = true ∧
      (∀ x y, rec_ c = some x → rec_ (!c) = some y → y.seqNo < x.seqNo ∨ x = y ∨
        (y.seqNo = x.seqNo ∧ x.signed = true ∧ y.signed = false)) ∧
      (flashOk boot = true →
        let only := decide (rec_ (!c) = none)
        let won : State := { w with upd := { w.upd with win := c } }
        let b := State.bootImage (State.slotAtStart (if only then won.stick .upd 0 14 else won)) boot
        exec (.coldStart boot) s = .next (if b.pwr.recovery then b else
          State.applyBase (((State.trainMemory { b with pwr := { b.pwr with booted := true } } boot).factoryCheck).lakeRecover
            boot.badSlots) boot)))

/-- The base configuration of a device that has booted, is not live and not in recovery, and has none pending. Of the
base images that are there and whose signature holds, the higher issue is chosen, copy 0 of equal ones; a first copy
that is not usable sets BASE_COPY (GLZ bit 15). With none BASE_NONE (bit 16) is set and the device is to be live with no
base at the next milestone. With one its items are written in order for the owner, the table entries they name are
validated and every page is committed, all for the milestone at which the device goes live; the choice is kept as the
copy a store leaves alone. An image of no items changes nothing else (log entries 8, 31, 76 for what the spec leaves
open). It says that this command answers a next state under its hypotheses: baseConfiguration. -/
def Obligations.TheBaseConfigurationIsWrittenValidatedAndCommitted : Prop :=
  ∀ (s : State) (boot : BootIn), s.tim.locked = true → s.pwr.booted = true → s.pwr.st = .run → s.pwr.live = false →
    s.pwr.basePending = false → s.pwr.recovery = false →
    let usable := fun (sig : Bool) (x : Option BaseImage) => if sig then x else none
    let c0 := usable boot.baseSig0 s.flash.base0
    let c1 := usable boot.baseSig1 s.flash.base1
    let base := fun (no : Bool) => { (if c0.isSome then s else s.stick .glz 0 15) with
      pwr := { s.pwr with basePending := true, noBase := no } }
    let entries := fun (items : List Item) =>
      (items.filterMap fun (x : Item) => (tableAt x.offset).map fun e => (e.1, e.2.1)).eraseDups
    let applied := fun (c : Bool) (img : BaseImage) =>
      let w : State := { base false with upd := { s.upd with baseCopy := c } }
      let w := img.items.foldl (fun (w : State) x => w.baseItem x) w
      State.commitAll ((entries img.items).foldl (fun (w : State) e => w.runInvalidate e.1 (some e.2)) w)
    (c0 = none → c1 = none → exec (.baseConfiguration boot) s = .next (State.stick (base true) .glz 0 16)) ∧
    (∀ x, c0 = some x → (∀ y, c1 = some y → y.issue ≤ x.issue) →
      exec (.baseConfiguration boot) s = .next (applied false x)) ∧
    (∀ y, c1 = some y → (∀ x, c0 = some x → x.issue < y.issue) →
      exec (.baseConfiguration boot) s = .next (applied true y)) ∧
    (∀ c img, s.chooseBase boot = some (c, img) → img.items = [] → s.acc.stage = [] →
      ∃ t, exec (.baseConfiguration boot) s = .next t ∧
        t = { s with regs := t.regs, pwr := { s.pwr with basePending := true, noBase := false }
                     upd := { s.upd with baseCopy := c } } ∧
        ∀ b, b ≠ ra .glz 0 0x010 → t.reg b = s.reg b)

/-! ### Interrupts, power states and the thermal unit (chapters 15 to 17) -/

/-- A sample of a source, outside a block reset, while the device is up: an enabled source sees an event as its sensing
says (a level while it is not active, and renewed; a rise; a fall; either), a pulse source one for each pulse, and two
where it senses both edges (log entry 22). An event makes an inactive source pending and delivers it, delivers a pending
one that is not held, makes an active one active and pending, and adds nothing to one that is; without an event only the
noted condition changes, and no other source ever changes but by a delivery. Claims, ends of interrupt, moderation and
interrupt frames. A claim read answers the lowest unclaimed source of its class that is active on the target, with
VALID, and marks it claimed; with none it answers 0. An EOI of a source active on the target, written to the page of its
class, by a requester that may, ends the active state; where the source is pending too, or its level still stands, it is
delivered again, and a target left idle gets what is held for it; of one that is not active there, or to the other page,
it sets BAD_EOI (bit 8), whoever writes it; of another tenant's it changes nothing else. The moderation timer, when
MODTIME has passed, delivers everything held on its target in one message. A privileged frame off TC1 is dropped and
counted; any other pulses source 768 + vector. It says that each of these commands answers a next state under its
hypotheses: sourceEvent, moderationTimeout, intEoi, intFeoi, intClaim, intFclaim, interruptFrameReceive. -/
def Obligations.SourcesClaimsAndInterruptFrames : Prop :=
  (
  ∀ (s : State) (src : BitVec 10) (level : Bool), sourceExists src.toNat = true →
    s.pwr.live = true → s.pwr.clocked = true → s.inReset 0x004 = false →
    let n := src.toNat
    let x := s.source n
    let now := s.condOf n level
    let rise := now = true ∧ x.cond = false
    let fall := now = false ∧ x.cond = true
    let sees := x.en = true ∧ (if isPulse n then now = true else if x.sense = 0 then now = true ∧ (x.cond = false ∨ x.st = .inactive ∨ x.st = .pending)
      else if x.sense = 1 then rise else if x.sense = 2 then fall else rise ∨ fall)
    let noted : Source := { x with cond := now && !isPulse n, pulse := false }
    let once := isPulse n = false ∨ x.sense ≠ 3
    let only := fun (y : Source) (t : State) => t = { s with int := { s.int with sources := t.int.sources } } ∧
      t.source n = y ∧ ∀ d, d ≠ n → t.source d = s.source d
    (¬ sees → ∃ t, exec (.sourceEvent src level) s = .next t ∧ only noted t) ∧
    (sees → ¬ once → exec (.sourceEvent src level) s = .next (((s.setSource n noted).event n).event n)) ∧
    (sees → once → x.st = .inactive → ∃ v : State, exec (.sourceEvent src level) s = .next (v.deliver n) ∧
      only { noted with st := .pending } v) ∧
    (sees → once → x.st = .pending → ∃ v : State, only noted v ∧
      exec (.sourceEvent src level) s = .next (if x.held then v else v.deliver n)) ∧
    (sees → once → x.st = .active → ∃ t, exec (.sourceEvent src level) s = .next t ∧ only { noted with st := .activePending } t) ∧
    (sees → once → x.st = .activePending → ∃ t, exec (.sourceEvent src level) s = .next t ∧ only noted t)) ∧
  (
  (∀ (s : State) (a : Acc) (t : Fin 16) (fast : Bool),
    let c := if fast then Instr.intFclaim a t else .intClaim a t
    let u := s.accept a
    let mine := fun (n : Nat) => !(u.source n).claimed && decide (u.isFast n = fast)
    s.Reads a (if fast then ra .intF 0 (0x040 + 4 * t.val) else ra .intN 0 (0x180 + 4 * t.val)) →
    (∀ n, (u.activeOn t.val).find? mine = some n → exec c s =
      .next ((u.setSource n { u.source n with claimed := true }).answerWith (.data (BitVec.ofNat 32 (n + 2 ^ 31))))) ∧
    ((u.activeOn t.val).find? mine = none → exec c s = .next (u.answerWith (.data 0)))) ∧
  (∀ (s u : State) (a : Acc) (t : Fin 16) (src : BitVec 10) (fast : Bool),
    let c := if fast then Instr.intFeoi a t src else .intEoi a t src
    let n := src.toNat
    let x := u.source n
    let active := (x.st = .active ∨ x.st = .activePending) ∧ x.target = t.val
    s.Passes a (if fast then ra .intF 0 (0x080 + 4 * t.val) else ra .intN 0 (0x1C0 + 4 * t.val)) (BitVec.ofNat 32 n) false u →
    (¬ active ∨ u.isFast n ≠ fast → exec c s = .next (u.stick (if fast then .intF else .intN) 0 8)) ∧
    (active → u.isFast n = fast → ∀ k, u.tenantOf a.req.toNat = some k → x.tenant ≠ k → exec c s = .next u) ∧
    ((∀ k, u.tenantOf a.req.toNat = some k → x.tenant = k) →
      (active → u.isFast n = fast →
        let off := u.setSource n { x with st := .inactive, claimed := false }
        let v := if x.en = true ∧ x.st = .activePending then off.message t.val [n]
          else if x.en = true ∧ x.sense = 0 ∧ isPulse n = false ∧ u.condOf n x.cond = true then
            (u.setSource n { x with st := .pending, claimed := false }).deliver n
          else off
        exec c s = .next (if v.activeOn t.val = [] ∧ v.heldOn t.val ≠ [] then v.releaseHeld t.val else v)))) ∧
  (∀ (s : State) (t : Fin 16),
    let ended := ∃ x ∈ s.int.timers, x.1 = t.val ∧ x.2 ≤ s.tim.time
    let timers := s.int.timers.filter fun (x : Nat × Nat) => x.1 ≠ t.val
    (ended → exec (.moderationTimeout t) s =
      .next (State.message { s with int := { s.int with timers := timers } } t.val (s.heldOn t.val))) ∧
    (¬ ended → exec (.moderationTimeout t) s = .next s)) ∧
  (∀ (s : State) (port : Fin 8) (vector : BitVec 8) (priv tc1 : Bool), s.pwr.live = true → s.pwr.clocked = true →
    (s.fport port.val).carries = true →
    (priv = true ∧ tc1 = false → exec (.interruptFrameReceive port vector priv tc1) s =
      .next (s.countSat (ra .fabPort port.val 0x058) 1)) ∧
    (¬ (priv = true ∧ tc1 = false) → exec (.interruptFrameReceive port vector priv tc1) s =
      .next (s.setSource (768 + vector.toNat) { s.source (768 + vector.toNat) with pulse := true }))))

/-- Power requests written to PWR_CTRL. The write ends Idle, so the device is in Run when it acts. A request of Run,
Idle, Sleep or Deep Sleep is stored and may act from the milestone due; nothing else changes. A request of Off is stored
and goes through to Off at once: the instant is latched in PWR_PF_T, fabric time stops, the links and the host link are
down, every alarm output is released, the WE to RE shorts of ports in use are closed, and it is noted that WAKE alone
leads out. It says that each of these commands answers a next state under its hypotheses: reqRun, reqIdle, reqSleep,
reqDeepSleep, reqOff. -/
def Obligations.PowerRequestsAreStoredOrGoToOff : Prop :=
  ∀ (s u : State) (a : Acc),
    let by_ := fun (n : Nat) => s.Passes a (ra .pwr 0 0x040) (BitVec.ofNat 32 n) false u
    let stored := fun (n : Nat) => { u.setFld (ra .pwr 0 0x040) 0 3 n with pwr := { u.pwr with reqDue := u.tim.due } }
    (by_ 0 → u.pwr.st = .run ∧ exec (.reqRun a) s = .next (stored 0)) ∧
    (by_ 1 → exec (.reqIdle a) s = .next (stored 1)) ∧
    (by_ 2 → exec (.reqSleep a) s = .next (stored 2)) ∧
    (by_ 3 → exec (.reqDeepSleep a) s = .next (stored 3)) ∧
    (by_ 4 → ∃ t, exec (.reqOff a) s = .next t ∧ t.pwr.st = .off ∧ t.pwr.offBy = 1 ∧ t.pwr.live = false ∧
      t.pwr.penHigh = false ∧ t.pwr.recCause = u.pwr.recCause ∧ t.pwr.recPf = u.pwr.recPf ∧ t.tim.locked = false ∧
      t.hst.linkUp = false ∧ t.fld (ra .pwr 0 0x040) 0 3 = 4 ∧
      t.reg (ra .pwr 0 0x060) = BitVec.ofNat 32 (stampFrac u.tim.stamp) ∧
      t.reg (ra .pwr 0 0x064) = BitVec.ofNat 32 (stampSec u.tim.stamp) ∧ (∀ p, p < 8 → t.fport p = {}) ∧
      (∀ n, n < 16 → (t.almOut n).driven = false ∧ (t.almOut n).fold = false) ∧
      ∀ c, c < 256 → u.port c ≠ {} → (t.port c).shortClosed = true ∧ (t.port c).bias = 0)

/-- Losses and failures of power. A power failure outside Off goes through to Off at once: the instant is latched in
PWR_PF_T, cause 3 is recorded unless a higher one is, and the return of the supply during it as PF_RETURN; fabric time
stops, the links and the host link are down, every alarm output is released and the WE to RE shorts of ports in use are
closed; it is noted that the return of supply leads out. In Off the shorts close, with bias and ramps ended, and nothing
else changes. A retention loss in Deep Sleep is noted for the next start with cause 7. Rail events set and clear their
bit, with SUPPLY (bit 9). In states in which none of this can arrive nothing changes. It says that each of these
commands answers a next state under its hypotheses: ecShortClose, retentionLoss, railWarning, powerFail,
railWithinWindow. -/
def Obligations.PowerFailsAndRailsWarn : Prop :=
  (∀ (s : State) (returned : Bool), s.pwr.st ≠ .off → ∃ t, exec (.powerFail returned) s = .next t ∧
    t.pwr.st = .off ∧ t.pwr.offBy = 0 ∧ t.pwr.recCause = max 3 s.pwr.recCause ∧
    t.pwr.recPf = (s.pwr.recPf || returned) ∧ t.pwr.penHigh = false ∧ t.pwr.live = false ∧ t.tim.locked = false ∧
    t.hst.linkUp = false ∧ t.reg (ra .pwr 0 0x060) = BitVec.ofNat 32 (stampFrac s.tim.stamp) ∧
    t.reg (ra .pwr 0 0x064) = BitVec.ofNat 32 (stampSec s.tim.stamp) ∧ (∀ p, p < 8 → t.fport p = {}) ∧
    (∀ n, n < 16 → (t.almOut n).driven = false ∧ (t.almOut n).fold = false) ∧
    ∀ c, c < 256 → s.port c ≠ {} → (t.port c).shortClosed = true ∧ (t.port c).bias = 0) ∧
  (∀ s : State, s.pwr.st = .off → ∃ t, exec .ecShortClose s = .next t ∧ t = { s with ports := t.ports } ∧
    ∀ c, t.port c = if c < 256 ∧ s.port c ≠ {} then
      { s.port c with shortClosed := true, engaging := false, ramping := false, bias := 0 } else s.port c) ∧
  (∀ s : State, s.pwr.st = .deepSleep → ∃ t, exec .retentionLoss s = .next t ∧
    t = { s with ports := t.ports, pwr := { s.pwr with recRet := true, recCause := max 7 s.pwr.recCause } }) ∧
  (∀ (s : State) (rail : Fin 5), s.pwr.st ≠ .off →
    exec (.railWarning rail) s = .next ((s.orReg (ra .pwr 0 0x05C) (bitW rail.val)).stick .pwr 0 9) ∧
    exec (.railWithinWindow rail) s = .next (s.clearReg (ra .pwr 0 0x05C) (bitW rail.val))) ∧
  (∀ (s : State) (returned : Bool) (rail : Fin 5), s.pwr.st = .off → exec (.powerFail returned) s = .next s ∧
    exec (.railWarning rail) s = .next s ∧ exec (.railWithinWindow rail) s = .next s) ∧
  (∀ s : State, s.pwr.st ≠ .off → exec .ecShortClose s = .next s) ∧
  (∀ s : State, s.pwr.st ≠ .deepSleep → exec .retentionLoss s = .next s)

/-- Ways back. The enabled wake sources are those of PWR_WAKE_EN whose event has come: the timer reached, in Sleep the
alarm and the thermal warning seen; host access always in Sleep; no alarm and no host access in Deep Sleep. An enabled
wake source in Sleep or Deep Sleep is recorded with the lowest source and the state left, REQ reads Run, and the wake
begins; after a retention loss it is a cold start with cause 7; one within the time of an entry to Deep Sleep sets bit
12. At its end, with the PLL locked, the device is in Run. Each way into Off has its own way out, a cold reset with its
cause: the supply, WAKE, which is recorded as the wake source, or the return below 125 °C. It says that each of these
commands answers a next state under its hypotheses: coldReset, wakeEvent, wakeComplete, offExit, thermalRestart,
wakeFromOff. -/
def Obligations.WakesAndWaysOutOfOff : Prop :=
  (∀ (s : State) (sources : BitVec 7), (s.pwr.st = .sleep ∨ s.pwr.st = .deepSleep) → s.pwr.waking = false →
    let m := Nat.land sources.toNat s.wakeEnabled
    let u := s.setReg (ra .pwr 0 0x04C) (BitVec.ofNat 32 (m + lowestBit m * 256 + pwrCode s.pwr.st * 2048))
    let early := s.pwr.st = .deepSleep ∧ s.tim.time < s.pwr.entry + entrySpan
    (m = 0 → exec (.wakeEvent sources) s = .next s) ∧
    (m ≠ 0 → s.pwr.st = .deepSleep → s.pwr.recRet = true → exec (.wakeEvent sources) s = .next (u.coldReset 7)) ∧
    (m ≠ 0 → s.pwr.st = .sleep ∨ s.pwr.recRet = false → ∃ t, exec (.wakeEvent sources) s = .next t ∧
      t.flag (ra .pwr 0 0x010) 12 = (decide early || s.flag (ra .pwr 0 0x010) 12) ∧ t.fld (ra .pwr 0 0x040) 0 3 = 0 ∧
      t.reg (ra .pwr 0 0x04C) = u.reg (ra .pwr 0 0x04C) ∧
      t = { s with pwr := { s.pwr with waking := true, wakeMask := m, lowPower := false, penHigh := true }
                   alm := { s.alm with wakeSeen := false }, thm := { s.thm with wakeSeen := false }
                   regs := t.regs } ∧
      ∀ b, b ≠ ra .pwr 0 0x010 → b ≠ ra .pwr 0 0x040 → b ≠ ra .pwr 0 0x04C → t.reg b = s.reg b)) ∧
  (∀ s : State, (s.pwr.st = .sleep ∨ s.pwr.st = .deepSleep) → let on := fun b => s.flag (ra .pwr 0 0x048) b
    ∀ b : Fin 7, s.wakeEnabled.testBit b.val =
      if b.val = 3 then on 3 && s.timerReached
      else if b.val = 4 then on 4 && s.alm.wakeSeen && decide (s.pwr.st = .sleep)
      else if b.val = 5 then on 5 && (s.thm.wakeSeen || decide (s.pwr.st = .deepSleep))
      else if b.val = 6 then decide (s.pwr.st = .sleep) else on b.val) ∧
  (∀ s : State, s.pwr.waking = true → s.tim.locked = true → s.pwr.st = .sleep ∨ s.pwr.st = .deepSleep →
    ∃ t, exec .wakeComplete s = .next t ∧ t.pwr.st = .run ∧ t.pwr.waking = false ∧
      t.pwr.woke = some (pwrCode s.pwr.st) ∧ t.tim.time = s.tim.time) ∧
  (∀ s : State, s.pwr.st = .off →
    let out := s.setReg (ra .pwr 0 0x04C) (BitVec.ofNat 32 (2 + 256 + 4 * 2048))
    (s.pwr.offBy = 0 → exec .offExit s = .next (s.coldReset 3)) ∧
    (s.pwr.offBy = 1 → exec .wakeFromOff s = .next (out.coldReset 6)) ∧
    (s.pwr.offBy = 2 → exec .thermalRestart s = .next (s.coldReset 2)) ∧
    (s.pwr.offBy ≠ 0 → exec .offExit s = .next s) ∧ (s.pwr.offBy ≠ 1 → exec .wakeFromOff s = .next s) ∧
    (s.pwr.offBy ≠ 2 → exec .thermalRestart s = .next s) ∧ ∀ c, exec (.coldReset c) s = .next s)

/-- The thermal unit. A sensor found broken reads 200 °C, with bit 11 and a waymark. A write of THM_SEXCL that would
leave a region without a good included sensor is refused whole with bit 12; else it takes. ENFORCE_NOW is noted for the
milestone. At a milestone at which it is due, enforcement begins with bit 10 and a waymark and halves ports, halves
again at each further step, and ends with a waymark and the banks it parked coming back. At 160 °C of a reading that
counts, and 1,024 milestones after a sensor that is still included broke, the cause, sensor, region and temperature are
recorded and the device goes to Off; in Off on the way of a power failure the record is still written, with cause 2
unless a higher one is recorded. It says that each of these commands answers a next state under its hypotheses:
sensorBroken, thmSexclWrite, enforcement, enforceNow, enforcementStep, enforcementEnd, thermalShutdown,
brokenSensorShutdown. -/
def Obligations.ThermalUnitActs : Prop :=
  (∀ (s : State) (k : Fin 24), s.sensorBad k.val = false → s.pwr.clocked = true →
    exec (.sensorBroken k) s = .next ((State.stick { s with thm := { s.thm with
      brokenMs := kset s.thm.brokenMs k.val (s.tim.msCount + 1) 0
      brokenRow := kset s.thm.brokenRow k.val (s.tim.time % 2 ^ 54 / 2 ^ 48) 0
      sread := kset s.thm.sread k.val 1600 0 } } .thm 0 11).waymark 0x30 [4, k.val, 1600])) ∧
  (∀ (s u : State) (a : Acc) (excl : BitVec 24), s.Passes a (ra .thm 0 0x04C) (BitVec.ofNat 32 excl.toNat) false u →
    let bad := ∃ k, k < 24 ∧ excl.getLsbD k = true ∧ u.sensorOut k = false ∧
      (excl.getLsbD (k / 2 * 2 + 1 - k % 2) = true ∨ u.sensorBad (k / 2 * 2 + 1 - k % 2) = true)
    (bad → exec (.thmSexclWrite a excl) s = .next (u.stick .thm 0 12)) ∧
    (¬ bad → exec (.thmSexclWrite a excl) s = .next (u.setFld (ra .thm 0 0x04C) 0 24 excl.toNat))) ∧
  (∀ (s u : State) (a : Acc), s.Passes a (ra .thm 0 0x048) 4 false u →
    exec (.enforceNow a) s = .next { u with thm := { u.thm with now := true } }) ∧
  (∀ s : State,
    (s.atMilestone = false → exec .enforcement s = .next s ∧ exec .enforcementStep s = .next s ∧
      exec .enforcementEnd s = .next s) ∧
    (s.thm.begin_ = true → s.thm.enforced = false → s.atMilestone = true →
      let u := s.noteSizes
      let v : State := { u with thm := { u.thm with enforced := true, begin_ := false, enfMs := 0 } }
      exec .enforcement s = .next (((v.stick .thm 0 10).waymark 0x30 [2, v.hottest, v.regionNow v.hottest]).enforceHalve)) ∧
    (s.thm.enforced = true → s.thm.stepDue = true → s.atMilestone = true →
      exec .enforcementStep s = .next (State.enforceHalve { s with thm := { s.thm with stepDue := false } })) ∧
    ((s.thm.pending = true ∨ s.thm.enforced = true) → s.thm.endDue = true → s.atMilestone = true →
      let v : State := { s with thm := { s.thm with pending := false, enforced := false, grace := 0, enfMs := 0
                                                    begin_ := false, stepDue := false, falseRun := 0, endDue := false } }
      exec .enforcementEnd s = .next ((v.waymark 0x30 [3, v.hottest, v.regionNow v.hottest]).unpark))) ∧
  (∀ (s : State) (sensor : Option (Fin 24)) (region : Fin 12) (temp : Int), s.mayTrip = true →
    let n := (sensor.map (·.val)).getD 31
    let r := (sensor.map (·.val / 2)).getD region.val
    let counts := (∀ k, sensor = some k → s.sensorOut k.val = false) ∧
      (sensor = none → s.fld (ra .thm 0 (0x080 + 4 * region.val)) 0 2 ≠ 0)
    (1280 ≤ temp → counts → ∃ t, exec (.thermalShutdown sensor region temp) s = .next t ∧ t.pwr.st = .off ∧
      t.pwr.offBy = (if s.pwr.st = .off then s.pwr.offBy else 2) ∧ t.pwr.recCause = max 2 s.pwr.recCause ∧
      t.reg (ra .thm 0 0x054) = BitVec.ofNat 32 (1 + n * 4 + r * 128 + encInt 12 temp * 2048) ∧
      t.reg (ra .thm 0 0x058) = BitVec.ofNat 32 (stampFrac s.tim.stamp) ∧
      t.reg (ra .thm 0 0x05C) = BitVec.ofNat 32 (stampSec s.tim.stamp)) ∧
    (temp < 1280 ∨ ¬ counts → exec (.thermalShutdown sensor region temp) s = .next s)) ∧
  (∀ (s : State) (k : Fin 24), s.mayTrip = true → s.sensorBad k.val = true → s.sensorOut k.val = false →
    kget s.thm.brokenMs k.val 0 + 1024 ≤ s.tim.msCount + 1 → ∃ t, exec (.brokenSensorShutdown k) s = .next t ∧
      t.pwr.st = .off ∧ t.pwr.offBy = (if s.pwr.st = .off then s.pwr.offBy else 2) ∧
      t.pwr.recCause = max 2 s.pwr.recCause ∧
      t.reg (ra .thm 0 0x054) = BitVec.ofNat 32 (2 + k.val * 4 + k.val / 2 * 128 + 1600 * 2048)) ∧
  (∀ s : State, s.mayTrip = true ↔ (s.pwr.st ≠ .deepSleep ∧ (s.pwr.st = .off → s.pwr.offBy ≠ 2)))

/-! ### Updates (chapter 18) -/

/-- The commands of UPD_CMD, written while no command runs. BEGIN outside trial, activation and verification, with no
other holder, claims the update and erases the inactive slot; WRITE by the holder of a download, of at most 2,048 bytes
at a block of 2,048 within the slot that was not written before, programs the bytes of UPD_BUF into it; VERIFY by the
holder checks it; ACTIVATE of a verified slot begins its activation; ABORT by the holder ends the download with the slot
incomplete; anything else, in each case, is refused with result 2 and REFUSED (bit 8). While another command runs all
are refused. It says that each of these commands answers a next state under its hypotheses: updBegin, updWrite,
updVerify, updActivate, updAbort. -/
def Obligations.DownloadsFollowTheirHolder : Prop :=
  ∀ (s u : State) (a : Acc),
    let req := a.req.toNat
    let cmd := fun (n : Nat) => s.Passes a (ra .upd 0 0x040) (BitVec.ofNat 32 n) false u
    let refused := State.stick { u with upd := { u.upd with result := 2 } } .upd 0 8
    let b := !u.activeSlot
    let v := u.flash.slot b
    let ofs := u.fld (ra .upd 0 0x044) 0 25
    let len := u.fld (ra .upd 0 0x048) 0 12
    let begins := u.upd.busy = 0 ∧ u.upd.st ≠ .trial ∧ u.upd.st ≠ .activating ∧ u.upd.st ≠ .verifying ∧
      (∀ h, u.upd.holder = some h → h = req)
    let writes := u.upd.busy = 0 ∧ u.upd.st = .downloading ∧ u.upd.holder = some req ∧ ofs % 2048 = 0 ∧ len ≠ 0 ∧
      len ≤ 2048 ∧ ofs + len ≤ 0x1800000 ∧ ∀ p ∈ v.blocks, p.1 ≠ ofs / 2048
    let verifies := u.upd.busy = 0 ∧ u.upd.st = .downloading ∧ u.upd.holder = some req
    let activates := u.upd.busy = 0 ∧ u.upd.st = .verified ∧ (∀ h, u.upd.holder = some h → h = req) ∧
      u.pwr.recovery = false
    let aborts := u.upd.busy = 0 ∧ (u.upd.st = .downloading ∨ u.upd.st = .verifying) ∧ u.upd.holder = some req
    (cmd 1 → (begins → let e := u.setSlot b { marker := .incomplete }
        exec (.updBegin a) s = .next { e with
          upd := { e.upd with st := .downloading, busy := 1, result := 0, holder := some req } }) ∧
      (¬ begins → exec (.updBegin a) s = .next refused)) ∧
    (cmd 2 → (writes → let e := u.setSlot b { v with
          blocks := v.blocks ++ [(ofs / 2048, u.bufBytes (ra .upd 0 0x800) 0 len)] }
        exec (.updWrite a) s = .next { e with upd := { e.upd with busy := 2, result := 0 } }) ∧
      (¬ writes → exec (.updWrite a) s = .next refused)) ∧
    (cmd 3 → (verifies → let e := u.setSlot b { v with verifying := true }
        exec (.updVerify a) s = .next { e with upd := { e.upd with st := .verifying, busy := 3, result := 0 } }) ∧
      (¬ verifies → exec (.updVerify a) s = .next refused)) ∧
    (∀ cold, cmd (if cold then 20 else 4) →
      (activates → exec (.updActivate a cold) s = .next { u with upd := { u.upd with
        st := .activating, busy := 4, result := 0, cold := cold, rollback := false } }) ∧
      (¬ activates → exec (.updActivate a cold) s = .next refused)) ∧
    (cmd 7 → (aborts → let e := u.setSlot b { v with marker := .incomplete, verifying := false }
        exec (.updAbort a) s = .next { e with upd := { e.upd with
          st := if u.pwr.recovery then .recovery else .idle, busy := 0, holder := none, result := 1 } }) ∧
      (¬ aborts → exec (.updAbort a) s = .next refused))

/-- Trials, rollback and the repair of the boot record. CONFIRM in trial writes the record as confirmed with 0 starts,
sets CONFIRMED (bit 11) and emits waymark 0x38; ROLLBACK in trial, and a trial that has run out, write a record that
names the previous slot as confirmed, in the copy that lost and with the next sequence number, and restart the
supervisor; outside trial both are refused. RESOLVE, in the recovery loader alone and with no other holder, writes the
kept copy over the other, or, where no copy is intact, a first record for slot A when that slot is verified; a cold
start follows (its cause is a free value). How update commands end, in Run or Idle. An erase and a program end with
result 1, or 5 where the flash failed, which always sets WRITE_FAIL on the flash page (bit 9). A check reads the slot
back (log entry 152): its result is 1 only where the flash reads, the signature holds, the header has format 2, a length
that fits and the digest of the body, and the revision and security number may run here. One that passes marks the
inactive slot verified; one that fails frees the download with its reason, VERIFY_FAIL (bit 9) and the slot as it was.
An activation writes a record that names the other slot as a trial with its first start, and the supervisor halts at the
next milestone, or a cold start follows where it was asked for; where the flash fails it ends with result 5. When the
slot has been verified again the record is chosen afresh and the supervisor starts at the next milestone, in trial or as
rolled back; when not, it is rolled back. It says that each of these commands answers a next state under its hypotheses:
updConfirm, updRollback, updResolve, updCommandDone, activationReverify, trialExpiry. -/
def Obligations.TrialsEndsAndRollbacks : Prop :=
  (
  (∀ (s u : State) (a : Acc), u.upd.busy = 0 →
    let cmd := fun (n : Nat) => s.Passes a (ra .upd 0 0x040) (BitVec.ofNat 32 n) false u
    let refused := State.stick { u with upd := { u.upd with result := 2 } } .upd 0 8
    (u.upd.st ≠ .trial → (cmd 5 → exec (.updConfirm a) s = .next refused) ∧
      (cmd 6 → exec (.updRollback a) s = .next refused)) ∧
    (∀ r, u.bootRec = some r → u.upd.st = .trial →
      (cmd 5 → ∃ v : State, exec (.updConfirm a) s = .next (v.updMark 1) ∧ v.flag (ra .upd 0 0x010) 11 = true ∧
        v.upd.st = .idle ∧ v.upd.msLeft = 0 ∧ v.upd.versionLeft = u.slotVersion r.prev ∧
        ∃ w, v.bootRec = some w ∧ w.slot = r.slot ∧ w.trial = false ∧ w.starts = 0 ∧ w.seqNo = (r.seqNo + 1) % 2 ^ 32 ∧
          w.signed = true ∧ v.flash.brec u.upd.win = some r) ∧
      (cmd 6 → ∃ t, exec (.updRollback a) s = .next t ∧ t.upd.st = .activating ∧ t.upd.rollback = true ∧
        t.upd.result = 1 ∧ t.sup.haltDue = some (u.tim.msCount + 1) ∧ t.flag (ra .upd 0 0x010) 12 = true ∧
        ∃ w, t.bootRec = some w ∧ w.slot = r.prev ∧ w.trial = false ∧ w.seqNo = (r.seqNo + 1) % 2 ^ 32)) ∧
    (u.pwr.recovery = false ∨ (∃ h, u.upd.holder = some h ∧ h ≠ a.req.toNat) → ∀ copy, cmd (if copy then 40 else 8) →
      exec (.updResolve a copy) s = .next refused) ∧
    (u.pwr.recovery = true → (∀ h, u.upd.holder = some h → h = a.req.toNat) → ∀ copy, cmd (if copy then 40 else 8) →
      (∀ r, u.flash.brec copy = some r →
        ∃ t, exec (.updResolve a copy) s = .next t ∧ t.flash = { u.flash with brec0 := some r, brec1 := some r } ∧
          t.pwr.st = .run ∧ t.pwr.live = false) ∧
      (u.flash.brec copy = none → u.flash.brec (!copy) ≠ none ∨ copy = true ∨ u.flash.slotA.marker ≠ .verified →
        exec (.updResolve a copy) s = .next refused) ∧
      (u.flash.brec false = none → u.flash.brec true = none → copy = false → u.flash.slotA.marker = .verified →
        ∃ t, exec (.updResolve a copy) s = .next t ∧ t.pwr.st = .run ∧ t.pwr.live = false ∧
          t.flash = { u.flash with brec0 := some ⟨1, false, false, 0, false, true, u.flash.slotA.digest⟩ }))) ∧
  (∀ (s : State) (r : BootRec), s.upd.st = .trial → s.upd.msLeft = 0 → s.awake = true → s.bootRec = some r →
    ∃ t, exec .trialExpiry s = .next t ∧ t.upd.st = .activating ∧ t.upd.rollback = true ∧
      t.sup.haltDue = some (s.tim.msCount + 1) ∧ ∃ w, t.bootRec = some w ∧ w.slot = r.prev ∧ w.trial = false)) ∧
  (
  (∀ (s : State) (c : ImageCheck), s.awake = true →
    let b := !s.activeSlot
    let v := s.flash.slot b
    let r := s.verifyResult c v
    let h := v.header
    let w := s.stick .flash 0 9
    let failed : State := { w with upd := { w.upd with busy := 0, result := 5 } }
    (r = 1 ↔ c.flashOk = true ∧ c.sigOk = true ∧ c.digestOk = true ∧ h.format = 2 ∧ h.bodyLen ≤ 0x17FE000 ∧
      h.digest = Config.sha384 v.body ∧ h.revision ≤ 0xB0 ∧ s.confirmedSvn ≤ h.svn) ∧
    (s.upd.busy = 1 ∨ s.upd.busy = 2 → exec (.updCommandDone c) s =
      .next (if c.flashOk then { s with upd := { s.upd with busy := 0, result := 1 } } else failed)) ∧
    (s.upd.busy = 3 → let w := if r = 5 then w else s
      let e := w.setSlot b { v with verifying := false }
      let good := s.setSlot b { v with verifying := false, marker := .verified }
      exec (.updCommandDone c) s = .next (if r = 1 then
        { good with upd := { s.upd with st := .verified, busy := 0, result := 1 } }
      else State.stick { e with upd := { w.upd with
        st := if s.pwr.recovery then .recovery else .idle, busy := 0, result := r, holder := none } } .upd 0 9)) ∧
    (s.upd.busy = 4 → c.flashOk = false ∨ s.bootRec = none → exec (.updCommandDone c) s =
      .next { failed with upd := { failed.upd with st := .verified } }) ∧
    (s.upd.busy = 4 → c.flashOk = true → ∀ w, s.bootRec = some w → ∃ t, exec (.updCommandDone c) s = .next t ∧
      (∃ n, t.flash.brec (!s.upd.win) = some n ∧ n.slot = (!w.slot) ∧
        n.trial = true ∧ n.starts = 1 ∧ n.prev = w.slot ∧ n.seqNo = (w.seqNo + 1) % 2 ^ 32) ∧
      (s.upd.cold = false → t.sup.haltDue = some (s.tim.msCount + 1) ∧ t.upd.busy = 0 ∧ t.upd.result = 1 ∧
        t.upd.holder = none ∧ t.upd.win = (!s.upd.win) ∧ t.upd.versionLeft = s.slotVersion w.slot) ∧
      (s.upd.cold = true → t.upd.firstDue = true ∧ t.upd.markDue = some 0 ∧ t.pwr.live = false ∧ t.pwr.booted = false))) ∧
  (∀ (s : State) (c : ImageCheck), s.upd.st = .activating → s.sup.running = false → s.sup.startDue = false →
    s.awake = true →
    let started := State.chooseRec { s with sup := { s.sup with startDue := true, atMs := true, missed := 0 } }
    let good := c.flashOk = true ∧ c.sigOk = true ∧ c.digestOk = true
    (good → s.upd.rollback = false → exec (.activationReverify c) s = .next (State.updMark
      (State.stick { started with upd := { started.upd with st := .trial, msLeft := 614400 } } .upd 0 10) 0)) ∧
    (good → s.upd.rollback = true → exec (.activationReverify c) s = .next (State.updMark
      { started with upd := { started.upd with st := .idle, rollback := false } } 2)) ∧
    (¬ good → s.upd.rollback = true → exec (.activationReverify c) s = .next s) ∧
    (¬ good → s.upd.rollback = false → ∀ r, s.bootRec = some r → ∃ t,
      exec (.activationReverify c) s = .next t ∧ t.sup.running = false ∧ t.upd.rollback = true ∧
      t.flag (ra .upd 0 0x010) 12 = true ∧ ∃ w, t.bootRec = some w ∧ w.slot = r.prev ∧ w.trial = false)))

/-! ### Milestones, impedance engines, banks, sweeps, calibration and streams (chapters 01 and 04 to 08) -/

/-- A milestone. Without fabric time, or where nothing counts it, nothing happens. Else the codes of the period that are
on their way arrive, the clock stands at the boundary (its number follows from the instant, the count of milestones
moves on by one, log entry 6), and what the last CKR cycle adds beyond it is carried over. Before a configuration has
been chosen, and in a wake from Deep Sleep (R221), only time goes on; a warm reset that is due takes the place of all
else; on a configured device the steps follow in the order reference replacement, mordant and substitutions, glaze
switch, staged values, enforcement, allocator; the capture ring records the milestone as it finds the device, and a
replay in progress goes on at its end (log entry 67). It says that this command answers a next state under its
hypotheses: milestone. -/
def Obligations.MilestonesTakeTheirStepsInOrder : Prop :=
  ∀ (s : State) (m : MsIn),
    let w := m.fast.foldl (fun (t : State) f => t.arriveFast f) s.arriveAll
    let u := w.reachBoundary
    let carry := fun (v : State) =>
      if v.tim.locked then { v with tim := { v.tim with time := v.tim.time + w.tim.beyond } } else v
    let idle := u.pwr.clocked = false ∨ (u.pwr.live = false ∧ u.pwr.basePending = false)
    (s.tim.locked = false ∨ s.pwr.counts = false → exec (.milestone m) s = .next s) ∧
    (s.tim.locked = true → s.pwr.counts = true →
      (idle → exec (.milestone m) s = .next (carry u)) ∧
      (¬ idle →
        (u.warmNow = true → exec (.milestone m) s = .next (carry u.warmReset)) ∧
        (u.warmNow = false → exec (.milestone m) s = .next (carry ((u.runMilestone m).replayMilestone u))))) ∧
    (s.spe.flight = [] → m.fast = [] → w = s ∧ u.tim.time = s.tim.next ∧ u.tim.msCount = s.tim.msCount + 1 ∧
      u.tim.msNum = s.tim.next / msSpan ∧ u.regs = s.regs ∧ u.banks = s.banks ∧ u.pending = s.pending) ∧
    (let c := u.closePeriod m
     let r := c.ringAdd (.milestone c.tim.msNum m c.snap)
     let p := r.incStep
     let k := ((p.adjustStep.tim.time : Int) - p.tim.time) / msSpan
     let q := if k = 0 then p.adjustStep else (p.adjustStep.shiftInstants k).upTo 24 fun v n => v.impShift n
     let two := q.refReplace.step2 m
     let three := two.step3.noteEpoch
     let four := State.step4 { three with spe := { three.spe with holding := true } } two
     let on := ((if four.tim.time ≠ r.tim.time then four.windowsAfterStep else four).goLive).idleMark.wakeStep
     let six := (((if on.almOn then on.driveOutputs else on).thmMilestone.step6 m).flushOut.afterSteps m)
     (four.pwr.clocked = false → u.runMilestone m = four.flushOut) ∧
     (four.pwr.clocked = true → four.warmNow = true → u.runMilestone m = four.warmReset) ∧
     (four.pwr.clocked = true → four.warmNow = false → u.runMilestone m =
       State.powerStep { six with pwr := { six.pwr with resumed := false } } m))

/-- The impedance engines. At a DAC tick of a visit in progress, or of the one that follows it at once, the DAC holds
the excitation of the tick, at any other 0. A period of SETTLE only counts; a later one is kept with its results, or
discarded with bit 10 of the page's BLK_STICKY, and goes to the impedance streams of its slot, after the inputs that are
substituted up to then. The visit that has run its periods ends: on a port that is no EC port, or without a high tone,
the next enabled slot follows at once and with none the engine stops; with fewer than half of the periods kept IMP_HRES
of the slot gets bit 22, with more its health is judged and a baseline asked for is taken (log entry 116), and the next
slot follows likewise. A baseline command notes its slot, the one for all every enabled slot of an EC port, each once.
It says that each of these commands answers a next state under its hypotheses: impPeriodEnd, impVisitEnd, impBase,
impBaseAll, dacTick. -/
def Obligations.ImpedanceEnginesVisitTheirSlots : Prop :=
  (∀ (s : State) (n : Fin 24),
    let i := n.val
    let e := s.imp i
    let H := s.fld (ra .imp i 0x040) 6 3
    let driven := s.setImp i { e with dac := excitation (s.tones i) (s.tim.time / 2 ^ 38) }
    (e.active = true → e.start ≤ s.tim.time → s.tim.time < s.impEnd i ∨ s.impNext i ≠ none →
      exec (.dacTick n) s = .next driven) ∧
    (e.active = false ∨ s.tim.time < e.start ∨ (s.impEnd i ≤ s.tim.time ∧ s.impNext i = none) →
      exec (.dacTick n) s = .next (s.setImp i { e with dac := 0 })) ∧
    (e.active = true → e.per < s.impPeriods i → e.start + (e.per + 1) * s.impPeriod i ≤ s.tim.time →
      (e.per < s.fld (ra .imp i 0x040) 9 4 →
        exec (.impPeriodEnd n) s = .next (s.setImp i { e with per := e.per + 1 })) ∧
      (s.fld (ra .imp i 0x040) 9 4 ≤ e.per →
        let l := kget e.sums e.per {}
        let r := s.lockResult i l
        let stamp := (e.start + e.per * s.impPeriod i) / 2 ^ 32
        let v := if r = none then s.stick .imp i 10 else s
        let w := v.substNow.ringAdd (.sums i stamp e)
        let u := State.impRecords w i stamp l r
        let next := fun (x : State) => x.setImp i { x.imp i with
          per := e.per + 1, kept := (x.imp i).kept ++ r.toList, sums := kset (x.imp i).sums e.per {} {} }
        exec (.impPeriodEnd n) s = .next (next u) ∧
        (r = none → v.flag (ra .imp i 0x010) 10 = true) ∧
        (w.impStreams i (w.imp i).slot = [] → exec (.impPeriodEnd n) s = .next (next w)))) ∧
    (e.active = true → s.impPeriods i ≤ e.per →
      let at_ := s.impEnd i
      let goes := fun (t : State) =>
        (∀ j, s.nextSlot i e.slot = some j → t.imp i =
          { s.imp i with active := true, slot := j, ch := s.slotChan i j, start := at_, per := 0,
                         sums := s.impAhead i, kept := [] }) ∧
        (s.nextSlot i e.slot = none → t.imp i =
          { s.imp i with active := false, slot := 0, ch := 0, start := 0, per := 0, sums := [], kept := [], dac := 0 }) ∧
        ∀ d, d ≠ i → t.imp d = s.imp d
      (chanKind (s.impChan i) ≠ .ec ∨ H = 0 → ∃ t, exec (.impVisitEnd n) s = .next t ∧ goes t ∧ t.regs = s.regs) ∧
      (chanKind (s.impChan i) = .ec → H ≠ 0 → 2 * e.kept.length < s.fld (ra .imp i 0x040) 13 8 → e.slot < 32 →
        ∃ t, exec (.impVisitEnd n) s = .next t ∧ t.flag (ra .imp i (0x140 + 4 * e.slot)) 22 = true ∧
          ∀ b, b ≠ ra .imp i (0x140 + 4 * e.slot) → t.reg b = s.reg b) ∧
      (chanKind (s.impChan i) = .ec → H ≠ 0 → s.fld (ra .imp i 0x040) 13 8 ≤ 2 * e.kept.length →
        let v := s.visitResult i e.kept
        let w := ((s.healthUpdate i e.slot v (at_ / 2 ^ 32)).takeBase i e.slot v).impRemove i at_
        exec (.impVisitEnd n) s = .next (match w.nextSlot i e.slot with
          | some j => w.impStart i j at_ (w.impAhead i)
          | none => w.impStop i)))) ∧
  (∀ (s u : State) (a : Acc) (n : Fin 24) (slot : BitVec 5),
    let e := u.imp n.val
    let ecs := (u.slotsOn n.val).filter fun k => chanKind (u.slotChan n.val k) = .ec
    (s.Passes a (ra .imp n.val 0x044) (BitVec.ofNat 32 (slot.toNat + 256)) false u → exec (.impBase a n slot) s =
      .next (u.setImp n.val { e with
        baseReq := if e.baseReq.contains slot.toNat then e.baseReq else e.baseReq ++ [slot.toNat] })) ∧
    (s.Passes a (ra .imp n.val 0x044) 512 false u → exec (.impBaseAll a n) s =
      .next (u.setImp n.val { e with baseReq := e.baseReq ++ ecs.filter fun k => !e.baseReq.contains k })))

/-- Slice faults and the spare of a bank. Unresolved comparisons beyond 16 on a powered slice and one trim 64 milestones
at its end stop set the slice's bit (0 or 2) and SLICE_FAULT (bit 8); with AUTOSPARE a slice other than SX asks for
shadowing at the milestone due; SX itself fails while it is not in use. CNV_SPARE asks for shadowing of its slice or
ends it. A shadowing SX that has passed 16 tests is swapped in at the next milestone; after 16,384 milestones without
them it is free again, with bit 10. It says that each of these commands answers a next state under its hypotheses:
metastable, trimEnd, spareStart, spareAbort, spareConverged, shadowTimeout. -/
def Obligations.SlicesFaultAndSparesShadow : Prop :=
  (∀ (s : State) (b : Fin 24) (slice : Fin 17),
    let i := b.val
    let k := slice.val
    let asks := fun (t : State) => (t.bank i).shadowReqs = (s.bank i).shadowReqs ++
      (if k < 16 ∧ s.fld (ra .bank i 0x040) 2 1 = 1 then [(k, s.tim.due)] else [])
    let only := fun (t : State) => t = { s with regs := t.regs, banks := t.banks } ∧
      (∀ d, d ≠ i → t.bank d = s.bank d) ∧
      ∀ r, r ≠ ra .bank i 0x010 → r ≠ ra .bank i (0x080 + 4 * k) → t.reg r = s.reg r
    (∀ n, 16 < n → s.slicePowered i k = true → ∃ t, exec (.metastable b slice n) s = .next t ∧ only t ∧
      t.flag (ra .bank i (0x080 + 4 * k)) 0 = true ∧ t.flag (ra .bank i 0x010) 8 = true ∧
      (k = 16 → (s.bank i).spare ≠ .inUse → (t.bank i).spare = .failed ∧ (t.bank i).hard = (s.bank i).hard) ∧
      (k < 16 ∨ (s.bank i).spare = .inUse → asks t ∧ k ∈ (t.bank i).hard ∧ (t.bank i).spare = (s.bank i).spare)) ∧
    (∀ n, n ≤ 16 ∨ s.slicePowered i k = false → exec (.metastable b slice n) s = .next s) ∧
    ((∃ j : TrimK, 64 ≤ kget (s.bank i).endStop (k * 3 + j.num) 0) → s.flag (ra .bank i (0x080 + 4 * k)) 2 = false →
      ∃ t, exec (.trimEnd b slice) s = .next t ∧ only t ∧ asks t ∧
        t.flag (ra .bank i (0x080 + 4 * k)) 2 = true ∧ t.flag (ra .bank i 0x010) 8 = true) ∧
    ((∀ j : TrimK, kget (s.bank i).endStop (k * 3 + j.num) 0 < 64) ∨ s.flag (ra .bank i (0x080 + 4 * k)) 2 = true →
      exec (.trimEnd b slice) s = .next s)) ∧
  (∀ (s u : State) (a : Acc) (b : Fin 24),
    let x := u.bank b.val
    let free := { x with spare := .free, target := 0, shadowMs := 0, shadowOk := 0, converged := false, swapDue := false,
                         swapMs := 0 }
    (∀ slice : BitVec 4, s.Passes a (ra .bank b.val 0x048) (BitVec.ofNat 32 (slice.toNat + 16)) false u →
      exec (.spareStart a b slice) s =
        .next (u.setBank b.val { x with shadowReqs := x.shadowReqs ++ [(slice.toNat, u.tim.due)] })) ∧
    (s.Passes a (ra .bank b.val 0x048) 0x20 false u → exec (.spareAbort a b) s =
      .next (if x.spare = .shadowing then u.setBank b.val free else u)) ∧
    (x.spare = .shadowing → 16 ≤ x.shadowOk →
      exec (.spareConverged b) u = .next (u.setBank b.val { x with converged := true, swapDue := true })) ∧
    (x.spare = .shadowing → 16384 ≤ x.shadowMs → x.shadowOk < 16 →
      exec (.shadowTimeout b) u = .next ((u.setBank b.val free).stick .bank b.val 10)))

/-- The checks of pairs and of channels. A leader with PEN whose pair has failed as many periods in a row as its
threshold says faults both banks of the pair with bit 11; 16 passing periods in a row end it. A channel that two banks
convert and whose visits have differed as often as the lower page's threshold says is in check fault, and both pages
count it; 16 matches in a row end it, and both count it out. It says that each of these commands answers a next state
under its hypotheses: pairFault, pairFaultEnd, checkFault, checkFaultEnd. -/
def Obligations.PairsAndChecksFaultAndRecover : Prop :=
  (∀ (s : State) (b : Fin 24), (s.bank b.val).role = 1 →
    let i := b.val
    let x := s.bank i
    let both := fun (v : Bool) (t : State) => t = { s with regs := t.regs, banks := t.banks } ∧
      t.bank i = { x with pairFault := v, pairPasses := 0 } ∧
      t.bank (i + 1) = { s.bank (i + 1) with pairFault := v } ∧ ∀ d, d ≠ i → d ≠ i + 1 → t.bank d = s.bank d
    (x.pairFault = false → s.flag (ra .bank i 0x04C) 20 = true → 0 < x.pairFails → s.fld (ra .bank i 0x04C) 16 4 ≤ x.pairFails →
      ∃ t, exec (.pairFault b) s = .next t ∧ both true t ∧ t.flag (ra .bank i 0x010) 11 = true ∧
        ∀ r, r ≠ ra .bank i 0x010 → t.reg r = s.reg r) ∧
    (x.pairFault = true ∨ s.flag (ra .bank i 0x04C) 20 = false ∨ x.pairFails = 0 → exec (.pairFault b) s = .next s) ∧
    (x.pairFault = true → 16 ≤ x.pairPasses →
      ∃ t, exec (.pairFaultEnd b) s = .next t ∧ both false t ∧ t.regs = s.regs) ∧
    (x.pairFault = false ∨ x.pairPasses < 16 → exec (.pairFaultEnd b) s = .next s)) ∧
  (∀ (s : State) (ch : Fin 512) (b c : Nat), s.checkers ch.val = [b, c] →
    let k := s.check ch.val
    let n := fun (t : State) (p : Nat) => t.fld (ra .bank p 0x078) 16 9
    let only := fun (t : State) => t = { s with regs := t.regs, checks := t.checks } ∧
      (∀ d, d ≠ ch.val → t.check d = s.check d) ∧
      ∀ r, r ≠ ra .bank b 0x078 → r ≠ ra .bank c 0x078 → t.reg r = s.reg r
    (k.fault = false → s.fld (ra .bank (min b c) 0x040) 24 4 ≤ k.bad → ∃ t, exec (.checkFault ch) s = .next t ∧
      only t ∧ t.check ch.val = { k with fault := true, good := 0 } ∧
      n t b = (n s b + 1) % 512 ∧ n t c = (n s c + 1) % 512) ∧
    (k.fault = true ∨ k.bad < s.fld (ra .bank (min b c) 0x040) 24 4 → exec (.checkFault ch) s = .next s) ∧
    (k.fault = true → 16 ≤ k.good → ∃ t, exec (.checkFaultEnd ch) s = .next t ∧
      only t ∧ t.check ch.val = { k with fault := false } ∧ n t b = n s b - 1 ∧ n t c = n s c - 1) ∧
    (k.fault = false ∨ k.good < 16 → exec (.checkFaultEnd ch) s = .next s))

/-- Spot conversions. A request while one waits or runs sets bit 15; one that the bank cannot serve has status 4; any
other is pending with status 1, and an urgent one begins at once, ending a gap visit there, on its slice or the lowest
idle one (log entry 106), or fails with status 3, is counted, and sets bit 14. A gap on the slice (with ANY, the gap
that begins first), in which no gap visit runs, begins an ordinary one; 16 milestones without a gap end it with status
5, a cancel before its start with status 6. Once its visit is over, it answers its sum, marker and slice with status 2
and the instant of its start, renews the latched pair, and frees the element that held its window. It says that each of
these commands answers a next state under its hypotheses: spotRequest, spotStart, spotNoGap, spotCancel, spotDone. -/
def Obligations.SpotsWaitForGapsAndAnswer : Prop :=
  (∀ (s u : State) (a : Acc) (b : Fin 24) (ch : BitVec 9) (slice : BitVec 4) (any urgent : Bool),
    let i := b.val
    let x := (u.bank i).spot
    let word := ch.toNat + slice.toNat * 512 + (if any then 8192 else 0) + (if urgent then 16384 else 0) + 2 ^ 31
    let q : Spot := { ch := ch.toNat, slice := slice.toNat, any := any, pending := true, started := false, waited := 0 }
    let v := (u.setSpot i q).spotStatus i 1
    let c := Instr.spotRequest a b ch slice any urgent
    s.Passes a (ra .bank i 0x060) (BitVec.ofNat 32 word) false u →
    (x.pending = true → exec c s = .next (u.stick .bank i 15)) ∧
    (x.pending = false → u.spotRefused i ch.toNat = true → exec c s = .next (u.spotStatus i 4)) ∧
    (x.pending = false → u.spotRefused i ch.toNat = false →
      (urgent = false → exec c s = .next v) ∧
      (urgent = true → ∀ k, (if any then v.anyIdle i = some k else k = slice.toNat ∧ v.sliceIdle i k = true) →
        exec c s = .next ((v.abortGap i k).setSpot i { q with
          started := true, slice := k, startAt := ceilDiv u.tim.time cks * cks,
          stop := ceilDiv u.tim.time cks * cks + u.visitLen i * cks })) ∧
      (urgent = true → (if any then v.anyIdle i = none else v.sliceIdle i slice.toNat = false) → exec c s =
        .next ((((v.setSpot i { q with pending := false }).spotStatus i 3).countSat (ra .bank i 0x070) 1).stick .bank i
          14)))) ∧
  (∀ (s u : State) (a : Acc) (b : Fin 24), let x := (u.bank b.val).spot
    s.Passes a (ra .bank b.val 0x060) (BitVec.ofNat 32 (2 ^ 30)) false u →
    (x.pending = true → x.started = false → exec (.spotCancel a b) s =
      .next ((u.setSpot b.val { x with pending := false }).spotStatus b.val 6)) ∧
    (x.pending = false ∨ x.started = true → exec (.spotCancel a b) s = .next u)) ∧
  (∀ (s : State) (b : Fin 24), let x := (s.bank b.val).spot
    let at_ := ceilDiv s.tim.time cks * cks
    x.pending = true →
    (∀ slice : Fin 16, x.started = false → x.any = false → x.slice = slice.val → s.sliceIdle b.val slice.val = true →
      s.gapRuns b.val slice.val = false → exec (.spotStart b slice) s =
        .next (s.setSpot b.val { x with started := true, startAt := at_, stop := at_ + s.visitLen b.val * cks })) ∧
    (∀ slice : Fin 16, x.started = false → x.any = true → s.firstGap b.val = some slice.val →
      s.gapRuns b.val slice.val = false → exec (.spotStart b slice) s =
        .next (s.setSpot b.val { x with started := true, slice := slice.val, startAt := at_,
                                        stop := at_ + s.visitLen b.val * cks })) ∧
    (x.started = false → 16 ≤ x.waited → exec (.spotNoGap b) s =
      .next ((s.setSpot b.val { x with pending := false }).spotStatus b.val 5)) ∧
    (x.started = true → s.tim.time < x.stop → ∀ codes, exec (.spotDone b codes) s = .next s) ∧
    (x.started = true → x.stop ≤ s.tim.time → ∀ codes, ∃ t, exec (.spotDone b codes) s = .next t ∧
      t.bank b.val = { s.bank b.val with spot := { x with pending := false, started := false } } ∧
      (∀ d, d ≠ b.val → t.bank d = s.bank d) ∧
      (∀ d, t.port d = if d ≠ x.ch then s.port d else if (s.port d).visits + 1 < (s.scansOf d).length then
        { s.port d with visits := (s.port d).visits + 1 } else { s.port d with held := none, visits := 0 }) ∧
      t = { s with regs := t.regs, banks := t.banks, ports := t.ports, acc := { s.acc with latches := t.acc.latches } } ∧
      (let forced := isForced x.ch = true ∧ s.chanOn x.ch = true
       let mk := if s.sliceBad b.val x.slice then 3 else if forced then 0 else s.heldMarker x.ch false
       let sum := if forced ∨ s.holds x.ch = false ∨ (s.port x.ch).held = none then 0 else (visitCodes codes).sum
       t.reg (ra .bank b.val 0x064) =
         BitVec.ofNat 32 (encInt 20 sum + mk * 2 ^ 20 + x.slice * 2 ^ 22 + 2 * 2 ^ 26)) ∧
      t.reg (ra .bank b.val 0x068) = BitVec.ofNat 32 (stampFrac (x.startAt / 2 ^ 32)) ∧
      t.reg (ra .bank b.val 0x06C) = BitVec.ofNat 32 (stampSec (x.startAt / 2 ^ 32) % 2 ^ 31) ∧
      ∀ r, r ≠ ra .bank b.val 0x064 → r ≠ ra .bank b.val 0x068 → r ≠ ra .bank b.val 0x06C → t.reg r = s.reg r))

/-- Sweeps and visits. The sweep of an index starts at its instant where the sequencer runs, names a channel, no sweep
before it still runs, the index has had no sweep, its instant is not before the milestone from which the grid holds
(R134, R140) and, in Sleep, the index is a multiple of 256: behind a closed gate it waits and counts as skipped, else it
visits the channels of its mask, 16 at a time. A gate that has waited its time-out is forced, with bit 11. A sweep that
has run ends and asks for the flag of the configuration that it started with. A visit of a channel of the running sweep
takes place from its start in the sweep on, once; without a partner it puts the 32 codes of the held window on the link,
with the window's instants and marker, and frees the element that held it. It says that each of these commands answers a
next state under its hypotheses: visit, sweepStart, gateTimeout, sweepEnd. -/
def Obligations.SweepsRunAndVisitTheirChannels : Prop :=
  (∀ (s : State) (n : Fin 24) (q : Int),
    let i := n.val
    let at_ := s.sweepAt i q
    let u := if (s.tim.time : Int) < at_ ∧ at_ < s.tim.next ∧ s.tim.perCycle ≠ 0 ∧ s.sweeps i = true then
      s.elapse (s.tim.cyclesIn (at_ - s.tim.time).toNat) else s
    let x := u.scan i
    let starts := u.sweeps i = true ∧ u.maskOf i ≠ [] ∧ at_ ≤ u.tim.time ∧ u.tim.time < at_ + (u.sweepPeriod i : Int) ∧
      (x.running = false ∨ (x.sweepEnd : Int) ≤ at_) ∧ (x.from_ : Int) ≤ at_ ∧ (u.pwr.st = .sleep → q % 256 = 0) ∧ x.lastQ ≠ some q
    (starts → u.gateOpen i at_.toNat = false → exec (.sweepStart n q) s = .next (u.setScan i { x with
      gated := true, skips := x.skips + 1, lastQ := some q })) ∧
    (starts → u.gateOpen i at_.toNat = true → exec (.sweepStart n q) s = .next (u.setScan i { x with
      running := true, visited := [], sweepStart := at_.toNat, q := q, channels := u.maskOf i, visitLen := u.visitLen i,
      sweepEnd := at_.toNat + ceilDiv (u.maskOf i).length 16 * u.visitLen i * cks, gated := false, force := false,
      waited := 0, lastQ := some q, gate := u.sgate i })) ∧
    (¬ starts → exec (.sweepStart n q) s = .next u)) ∧
  (∀ (s : State) (n : Fin 24),
    let i := n.val
    let x := s.scan i
    let asked := if bit x.gate 18 then [bits x.gate 12 6] else []
    (x.gated = true → bits (s.sgate i) 20 12 * 256 ≤ x.waited → exec (.gateTimeout n) s =
      .next ((s.setScan i { x with force := true, waited := 0 }).stick .scan i 11)) ∧
    (x.running = true → x.sweepEnd ≤ s.tim.time → ∃ t, exec (.sweepEnd n) s = .next t ∧
      t = { s.setScan i { x with running := false } with seq := t.seq } ∧
      t.seq = { s.seq with sweepFlags := s.seq.sweepFlags ++ asked })) ∧
  (∀ (s : State) (n : Fin 24) (ch : Fin 512) (dt : Nat) (codes : List (BitVec 14)),
    let i := n.val
    let c := ch.val
    let u := s.elapse dt
    let x := u.scan i
    let on := u.sweeps i = true ∧ x.running = true ∧ x.sweepStart ≤ u.tim.time ∧ u.tim.time < x.sweepEnd
    let due := fun (k : Nat) => x.channels.idxOf? c = some k ∧ u.visitStart i k ≤ u.tim.time ∧ k ∉ x.visited
    let seen := fun (k : Nat) => u.setScan i { x with visited := k :: x.visited }
    (¬ on ∨ (∀ k, ¬ due k) → exec (.visit n ch dt codes) s = .next u) ∧
    (∀ k, on → due k → exec (.visit n ch dt codes) s = .next ((seen k).visitAt i c k x.visitLen codes)) ∧
    (∀ k h, on → due k → u.partnerOf i c = none → (u.port c).held = some h → u.holds c = true →
      isForced c = false → (u.bank i).sc ≠ 2 → u.visitStart i k + cks * x.visitLen - h.stop ≤ us 100 →
      ∃ f : Flight, exec (.visit n ch dt codes) s =
          .next (State.endHold { seen k with spe := { u.spe with flight := u.spe.flight ++ [f] } } c) ∧
        f.bank = i ∧ f.ch = c ∧ f.codes = visitCodes codes ∧ f.inst = h.stop ∧ f.start = h.start ∧ f.index = h.index ∧
        (u.sliceBad i (k % 16) = true → f.marker = 3) ∧
        (u.sliceBad i (k % 16) = false → (u.port c).compliance = false → (u.port c).isOpen = false →
          (u.port c).clamp = false → f.marker = h.marker)))

/-- CAL_CMD. Without banks it does nothing. Self-calibration asks every bank it names to start at the milestone due;
with a bank that already calibrates, or is parked by the thermal unit, or without which the fast pool cannot be packed,
it is refused whole with bits 8 and 10. Save, restore, factory reload and reset of the estimators wait for the milestone
due; with a bank that calibrates, and a restore of one without saved trims, they are refused with bit 10. What
calibration does by itself. A bank under self-calibration shows the phase of its milestones; at the milestone at which
it is over (log entry 91) every slice in use takes its solved trims or is marked failed, every estimator is in tracking
again, and bit 9 is set. A gap visit that is over joins the sums of its slice; one may start in a gap that holds it,
while no ordinary spot waits. An estimator in tracking with 16 good periods has converged; one with 16 bad ones has
failed, with the bank's bit on its trim page and bit 11. A comparison that is due joins the last 16, and from the
sixteenth on the slope is reported, with bit 14 at 500 ppm per 1,000 h or more (a slope outside its field is open). It
says that each of these commands answers a next state under its hypotheses: selfCalibrate, calSave, calRestore,
factoryReload, resetEstimators, selfCalibrationPhase, selfCalibrationEnd, gapVisit, estimatorConverged, estimatorFail,
slopeComparison. -/
def Obligations.CalibrationCommandsAndEstimators : Prop :=
  (
  ∀ (s u : State) (a : Acc) (banks : BitVec 24),
    let bs := maskBanks banks.toNat
    let cmd := fun (op : Nat) => s.Passes a (ra .cal7 7 0x040) (calWord banks op) false u
    let busy := ∃ b ∈ bs, (u.bank b).sc ≠ 0
    let refused := busy ∨ (∃ b ∈ bs, (u.bank b).parkedTherm = true) ∨
      ((∃ b ∈ bs, u.pool b = 1) ∧ u.packsWithout bs = false)
    let c := fun (op : Nat) => if op = 2 then Instr.calSave a banks else if op = 3 then .calRestore a banks
      else if op = 4 then .factoryReload a banks else .resetEstimators a banks
    (cmd 1 →
      (bs = [] → exec (.selfCalibrate a banks) s = .next u) ∧
      (bs ≠ [] → refused → exec (.selfCalibrate a banks) s = .next ((u.stick .cal7 7 8).stick .cal7 7 10)) ∧
      (bs ≠ [] → ¬ refused → ∃ t, exec (.selfCalibrate a banks) s = .next t ∧ t = { u with banks := t.banks } ∧
        ∀ b, t.bank b = if b ∈ bs then { u.bank b with sc := 1, scDue := u.tim.due } else u.bank b)) ∧
    (∀ op ∈ [2, 3, 4, 5], cmd op →
      let bad := busy ∨ (op = 3 ∧ ∃ b ∈ bs, (u.bank b).saved = false)
      (bs = [] → exec (c op) s = .next u) ∧
      (bs ≠ [] → bad → exec (c op) s = .next (u.stick .cal7 7 10)) ∧
      (bs ≠ [] → ¬ bad → exec (c op) s =
        .next { u with cal := { u.cal with ops := u.cal.ops ++ [⟨op, banks, u.tim.due⟩] } }))) ∧
  (
  (∀ (s : State) (b : Fin 24), let x := s.bank b.val
    (x.sc = 2 → exec (.selfCalibrationPhase b) s = .next (s.setBank b.val { x with scPhase :=
      if x.scMs < 16 then 0 else if x.scMs < 272 then 1 else if x.scMs < 528 then 2 else if x.scMs < 912 then 3 else 4 })) ∧
    (∀ solved, s.selfCalOver b.val = false ∨ s.atMilestone = false → exec (.selfCalibrationEnd b solved) s = .next s) ∧
    (∀ solved, s.selfCalOver b.val = true → s.atMilestone = true → ∃ v : State,
      exec (.selfCalibrationEnd b solved) s = .next (v.stick .cal7 7 9).noteEpoch ∧
      v = { s with regs := v.regs, banks := v.banks, cal := v.cal } ∧
      (v.bank b.val).sc = 0 ∧ (∀ d, d ≠ b.val → (v.bank d).sc = (s.bank d).sc) ∧
      ∀ k, k < 17 → v.sliceCal b.val k =
        (if x.retired = some k then s.sliceCal b.val k
         else (s.sliceCal b.val k).solve solved[k]? (s.bankTemp b.val)).mapTrims fun _ t =>
          { t with est := .tracking, idle := false, good := 0, bad := 0 })) ∧
  (∀ (s : State) (b : Fin 24) (slice : Fin 17) (full : Bool) (codes : List (BitVec 14)),
    let i := b.val
    let k := slice.val
    let key := i * 17 + k
    let u := s.endGap key
    let q := (u.bank i).spot
    let may := u.modeNow i = 0 ∧ u.converts i = true ∧ u.gapSlice i k = true ∧ u.sliceIdle i (u.positionOf i k) = true ∧
      (q.pending = true → q.started = true ∧ q.slice ≠ u.positionOf i k) ∧ kget u.cal.gapOn key none = none
    let v : GapVisit := { stop := u.tim.time + u.visitLen i * cks, full := full, sum := (visitCodes codes).sum
                          ok := !(u.bank i).hard.contains k && u.chanOn (if full then 498 else 497) }
    (∀ w, kget s.cal.gapOn key none = some w → w.stop ≤ s.tim.time → u = { s with cal := { s.cal with
      gapOn := kset s.cal.gapOn key none none, gaps := kset s.cal.gaps key ((kget s.cal.gaps key {}).take w) {} } }) ∧
    (may → exec (.gapVisit b slice full codes) s =
      .next { u with cal := { u.cal with gapOn := kset u.cal.gapOn key (some v) none } }) ∧
    (¬ may → exec (.gapVisit b slice full codes) s = .next u)) ∧
  (∀ (s : State) (b : Fin 24) (slice : Fin 17),
    let i := b.val
    let k := slice.val
    let c := s.sliceCal i k
    let only := fun (t : State) => t = { s with regs := t.regs, cal := { s.cal with slices := t.cal.slices } } ∧
      ∀ d j, j < 17 → i * 17 + k ≠ d * 17 + j → t.sliceCal d j = s.sliceCal d j
    (∃ t, exec (.estimatorConverged b slice) s = .next t ∧ only t ∧ t.regs = s.regs ∧ ∀ j, (t.sliceCal i k).trim j =
      if (c.trim j).est = .tracking ∧ 16 ≤ (c.trim j).good then { c.trim j with est := .converged } else c.trim j) ∧
    (let fails := fun (j : TrimK) => (c.trim j).est ≠ .failed ∧ 16 ≤ (c.trim j).bad
     ((∀ j, ¬ fails j) → exec (.estimatorFail b slice) s = .next s) ∧
     ((∃ j, fails j) → ∃ t, exec (.estimatorFail b slice) s = .next t ∧ only t ∧
       t.flag (ra .calTrim (1 + i / 4) 0x010) (8 + i % 4) = true ∧ t.flag (ra .cal7 7 0x010) 11 = true ∧
       ∀ j, (fails j → (t.sliceCal i k).trim j = { c.trim j with est := .failed }) ∧
         (¬ fails j → (t.sliceCal i k).trim j = c.trim j)))) ∧
  (∀ (s : State) (ppm : Int),
    let ys := s.cal.slopes ++ [ppm]
    (s.tim.msCount < s.cal.slopeMs + 2 ^ 22 → exec (.slopeComparison ppm) s = .next s) ∧
    (s.cal.slopeMs + 2 ^ 22 ≤ s.tim.msCount →
      (ys.length < 16 → exec (.slopeComparison ppm) s =
        .next { s with cal := { s.cal with slopes := ys, slopeMs := s.tim.msCount } }) ∧
      (16 ≤ ys.length →
        let last := ys.drop (ys.length - 16)
        let v := slopeOf last
        let f : Nat := if v.natAbs < 32768 then encInt 16 v else (Config.slopeField v).toNat
        ∃ u : State, u = { s with
            regs := u.regs, cal := { s.cal with slopes := last, slopeMs := s.tim.msCount } } ∧
          u.reg (ra .cal0 0 0x054) = BitVec.ofNat 32 (f + 0x10000) ∧
          (∀ b, b ≠ ra .cal0 0 0x054 → u.reg b = s.reg b) ∧
          exec (.slopeComparison ppm) s = .next (if 500 ≤ (sext 16 f).natAbs then u.stick .cal0 0 14 else u)))))

/-- The stream processor. First the inputs that are missing up to the instant are substituted. The code group longest on
the link arrives: it leaves the link, goes to the capture ring where its source is captured, its corrected value goes to
the lock-in of its window and to the streams of its channel; with none on the link nothing more happens. A run of
fast-path codes of a port without a place, or of no fast source, is gone; one code goes to the ring, the lock-in and the
streams of its channel where it lies in the period in progress (log entry 108), and its marker OVERLOAD is a fault of
the port. An interval that is over, with no input of its stream on the link, closes. After 1,024 milestones without a
valid estimate of the mains the tracker falls back to the nominal frequency, with bit 9. It says that each of these
commands answers a next state under its hypotheses: codeArrival, intervalEnd, trackLost. -/
def Obligations.CodesArriveAndIntervalsClose : Prop :=
  (∀ s0 : State, let s := s0.substNow
    (s.spe.flight = [] → exec (.codeArrival none) s0 = .next s) ∧
    (∀ f rest, s.spe.flight = f :: rest →
      let u := State.ringCodes { s with spe := { s.spe with flight := rest } } f false
      let x := satS 16 (shr (f.value + 16) 5)
      let e := u.epochAt f.inst
      let g := e.input f.bank (Nat.lor (u.inputFlags e f.ch f.bank f.chk) (if f.marker ≠ 0 then 4 else 0)) f.inst
      let v := u.lockIn f.ch f.bank f.start f.inst x f.marker f.index g
      exec (.codeArrival none) s0 =
        .next ((v.trackSample f.ch f.bank f.heldSample).feedAll f.ch f.bank f.heldSample)) ∧
    (∀ f : FastCodes,
      let p := f.port.val
      let c := 384 + p
      let gone := (s.place p).size = 0 ∨ s.fastSource c = false ∨ s.running = false
      (gone → exec (.codeArrival (some f)) s0 = .next s) ∧
      (∀ code, ¬ gone → f.codes = [code] →
        let z := if f.marker = 2 ∧ s.chanOn c = true then s.portFault c 0 else s
        let y := z.fastFlight p f.m (sext 14 code.toNat) f.marker.toNat
        let r := z.ringCodes y true
        let b := (s.place p).bank
        let e := r.epochAt y.inst
        let g := e.input b (Nat.lor (r.inputFlags e c b false) (if y.marker ≠ 0 then 4 else 0)) y.inst
        exec (.codeArrival (some f)) s0 = .next (if z.inPeriod y.inst then
          (r.lockIn c b y.inst y.inst y.value y.marker (z.rangeNow c) g).feedAll c b y.fastSample else z)) ∧
      exec (.codeArrival (some f)) s0 = .next (s.arriveFast f))) ∧
  (∀ (s0 : State) (stream : BitVec 12), let s := s0.substNow
    let onWay := ∃ f ∈ s.spe.flight, some f.ch = s.sChan stream.toNat
    (s.intervalDue stream.toNat = true → ¬ onWay →
      exec (.intervalEnd stream) s0 = .next ((s.ringAdd (.interval stream.toNat)).closeInterval stream.toNat)) ∧
    (s.intervalDue stream.toNat = false ∨ onWay → exec (.intervalEnd stream) s0 = .next s)) ∧
  (∀ s : State,
    (1024 ≤ s.spe.badEst → s.spe.lost = false → exec .trackLost s = .next (State.stick { s with spe := { s.spe with
      f0 := if s.flag (ra .stb 0 0x048) 0 then 60 * 65536 else 50 * 65536, lost := true, tracking := false } } .stb 0 9)) ∧
    (s.spe.badEst < 1024 ∨ s.spe.lost = true → exec .trackLost s = .next s))
end

