-- ==== Sys2Proof/Decode.lean ====
section
/-! DEFINITION. Reading a command from a word of the opcode table: the table gives no row any bits. -/

namespace Sys2Proof

/-- The command that a word of `nbits` bits spells by the opcode table's bits: none, as no row has bits.
DESIGN CHOICE (log 97). -/
def decodeTableWord (_nbits _w : Nat) : Option Instr := none

end Sys2Proof
end

