-- ==== Sys2Proof/Laws/KMap.lean ====
section
/-! SUPPORT. Sparse data by number: what a read after a write gives, and that every operation keeps the canonical form. -/

namespace Sys2Proof.Machine

variable {α : Type}

theorem kget_kins_same (m : KMap α) (k : Nat) (v d : α) : kget (kins m k v) k d = v := by
  induction m with
  | nil => simp [kins, kget]
  | cons p t ih =>
    obtain ⟨k', v'⟩ := p
    unfold kins
    split
    · simp [kget]
    · split
      · simp [kget]
      · rename_i h1 h2
        simp [kget, h2, ih]

theorem kget_kins_other (m : KMap α) (k j : Nat) (v d : α) (h : j ≠ k) : kget (kins m k v) j d = kget m j d := by
  induction m with
  | nil => simp [kins, kget, h]
  | cons p t ih =>
    obtain ⟨k', v'⟩ := p
    unfold kins
    split
    · simp [kget, h]
    · split
      · rename_i h1 h2
        subst h2
        simp [kget, h]
      · simp [kget, ih]

theorem kget_kdel_same (m : KMap α) (k : Nat) (d : α) : kget (kdel m k) k d = d := by
  induction m with
  | nil => rfl
  | cons p t ih =>
    obtain ⟨k', v'⟩ := p
    unfold kdel
    split
    · exact ih
    · rename_i h
      simp [kget, Ne.symm h, ih]

theorem kget_kdel_other (m : KMap α) (k j : Nat) (d : α) (h : j ≠ k) : kget (kdel m k) j d = kget m j d := by
  induction m with
  | nil => rfl
  | cons p t ih =>
    obtain ⟨k', v'⟩ := p
    unfold kdel
    split
    · rename_i h1
      subst h1
      simp [kget, h, ih]
    · simp [kget, ih]

/-- A read after a write to the same key gives the value written. -/
@[simp] theorem kget_kset_same [DecidableEq α] (m : KMap α) (k : Nat) (v d : α) : kget (kset m k v d) k d = v := by
  unfold kset
  split
  · rename_i h
    rw [kget_kdel_same, h]
  · exact kget_kins_same m k v d

/-- A write leaves every other key alone. -/
theorem kget_kset_other [DecidableEq α] (m : KMap α) (k j : Nat) (v d e : α) (h : j ≠ k) :
    kget (kset m k v d) j e = kget m j e := by
  unfold kset
  split
  · exact kget_kdel_other m k j e h
  · exact kget_kins_other m k j v e h

/-- A read of one key after a write of any. -/
theorem kget_kset [DecidableEq α] (m : KMap α) (k j : Nat) (v d : α) :
    kget (kset m k v d) j d = if j = k then v else kget m j d := by
  split
  · rename_i h
    subst h
    simp
  · rename_i h
    exact kget_kset_other m k j v d d h

/-- Every key of the list is above a bound. -/
def kAbove (a : Nat) (m : KMap α) : Prop := ∀ p ∈ m, a < p.1

theorem kSorted_cons (a : Nat) (v : α) (m : KMap α) : kSorted ((a, v) :: m) = true ↔ kAbove a m ∧ kSorted m = true := by
  induction m generalizing a v with
  | nil => simp [kSorted, kAbove]
  | cons p t ih =>
    obtain ⟨b, w⟩ := p
    rw [kSorted, Bool.and_eq_true, decide_eq_true_eq, ih b w]
    unfold kAbove
    constructor
    · rintro ⟨h, hb, ht⟩
      exact ⟨fun q hq => by
        rcases List.mem_cons.mp hq with rfl | hq
        · exact h
        · exact Nat.lt_trans h (hb q hq), hb, ht⟩
    · rintro ⟨h, hb, ht⟩
      exact ⟨h (b, w) (by simp), hb, ht⟩

theorem kAbove_kins (a k : Nat) (v : α) (m : KMap α) (h : kAbove a m) (hk : a < k) : kAbove a (kins m k v) := by
  induction m with
  | nil => simpa [kins, kAbove] using hk
  | cons p t ih =>
    obtain ⟨k', v'⟩ := p
    have ht : kAbove a t := fun q hq => h q (by simp [hq])
    have hh : a < k' := h (k', v') (by simp)
    unfold kins
    split
    · intro q hq
      rcases List.mem_cons.mp hq with rfl | hq
      · exact hk
      · exact h q hq
    · split
      · intro q hq
        rcases List.mem_cons.mp hq with rfl | hq
        · exact hk
        · exact ht q hq
      · intro q hq
        rcases List.mem_cons.mp hq with rfl | hq
        · exact hh
        · exact ih ht q hq

theorem kSorted_kins (k : Nat) (v : α) (m : KMap α) (h : kSorted m = true) : kSorted (kins m k v) = true := by
  induction m with
  | nil => rfl
  | cons p t ih =>
    obtain ⟨k', v'⟩ := p
    have hc := (kSorted_cons k' v' t).mp h
    unfold kins
    split
    · rename_i h1
      refine (kSorted_cons k v _).mpr ⟨fun q hq => ?_, h⟩
      rcases List.mem_cons.mp hq with rfl | hq
      · exact h1
      · exact Nat.lt_trans h1 (hc.1 q hq)
    · split
      · rename_i h1 h2
        subst h2
        exact (kSorted_cons k v t).mpr hc
      · rename_i h1 h2
        exact (kSorted_cons k' v' _).mpr ⟨kAbove_kins k' k v t hc.1 (by omega), ih hc.2⟩

theorem mem_kdel (k : Nat) (m : KMap α) (p : Nat × α) (h : p ∈ kdel m k) : p ∈ m := by
  induction m with
  | nil => exact h
  | cons q t ih =>
    obtain ⟨k', v'⟩ := q
    unfold kdel at h
    split at h
    · exact List.mem_cons_of_mem _ (ih h)
    · rcases List.mem_cons.mp h with rfl | h
      · simp
      · exact List.mem_cons_of_mem _ (ih h)

theorem kSorted_kdel (k : Nat) (m : KMap α) (h : kSorted m = true) : kSorted (kdel m k) = true := by
  induction m with
  | nil => rfl
  | cons p t ih =>
    obtain ⟨k', v'⟩ := p
    have hc := (kSorted_cons k' v' t).mp h
    unfold kdel
    split
    · exact ih hc.2
    · exact (kSorted_cons k' v' _).mpr ⟨fun q hq => hc.1 q (mem_kdel k t q hq), ih hc.2⟩

theorem kSorted_filter (f : Nat × α → Bool) (m : KMap α) (h : kSorted m = true) : kSorted (m.filter f) = true := by
  induction m with
  | nil => rfl
  | cons p t ih =>
    obtain ⟨k', v'⟩ := p
    have hc := (kSorted_cons k' v' t).mp h
    rw [List.filter_cons]
    split
    · exact (kSorted_cons k' v' _).mpr ⟨fun q hq => hc.1 q (List.mem_filter.mp hq).1, ih hc.2⟩
    · exact ih hc.2

theorem kClean_kdel [DecidableEq α] (d : Nat → α) (k : Nat) (m : KMap α) (h : kClean d m = true) :
    kClean d (kdel m k) = true := by
  simp only [kClean, List.all_eq_true] at *
  exact fun p hp => h p (mem_kdel k m p hp)

theorem mem_kins (k : Nat) (v : α) (m : KMap α) (p : Nat × α) (h : p ∈ kins m k v) : p = (k, v) ∨ p ∈ m := by
  induction m with
  | nil => simpa [kins] using h
  | cons q t ih =>
    obtain ⟨k', v'⟩ := q
    unfold kins at h
    split at h
    · exact List.mem_cons.mp h
    · split at h
      · rcases List.mem_cons.mp h with rfl | h
        · simp
        · exact .inr (List.mem_cons_of_mem _ h)
      · rcases List.mem_cons.mp h with rfl | h
        · simp
        · rcases ih h with rfl | h
          · simp
          · exact .inr (List.mem_cons_of_mem _ h)

/-- A write keeps the canonical form. -/
theorem kWf_kset [DecidableEq α] (d : Nat → α) (m : KMap α) (k : Nat) (v : α) (h : kWf d m = true) :
    kWf d (kset m k v (d k)) = true := by
  simp only [kWf, Bool.and_eq_true] at *
  unfold kset
  split
  · exact ⟨kSorted_kdel k m h.1, kClean_kdel d k m h.2⟩
  · rename_i hv
    refine ⟨kSorted_kins k v m h.1, ?_⟩
    have hc := h.2
    simp only [kClean, List.all_eq_true, decide_eq_true_eq] at *
    intro p hp
    rcases mem_kins k v m p hp with rfl | hp
    · exact hv
    · exact hc p hp

/-- Dropping entries keeps the canonical form. -/
theorem kWf_filter [DecidableEq α] (d : Nat → α) (f : Nat × α → Bool) (m : KMap α) (h : kWf d m = true) :
    kWf d (m.filter f) = true := by
  simp only [kWf, Bool.and_eq_true] at *
  refine ⟨kSorted_filter f m h.1, ?_⟩
  have hc := h.2
  simp only [kClean, List.all_eq_true, decide_eq_true_eq] at *
  exact fun p hp => hc p (List.mem_filter.mp hp).1

end Sys2Proof.Machine
end

