-- ==== Sys2Proof/Laws/State.lean ====
section
/-! SUPPORT. One lemma per field of State per named update: which fields an update leaves alone, and what a read after it
gives. -/

namespace Sys2Proof.Machine
open Sys2Proof

variable (s : State)

/-! ### setReg -/

@[simp] theorem setReg_pending (a : Nat) (v : Word) : (s.setReg a v).pending = s.pending := rfl
@[simp] theorem setReg_acc (a : Nat) (v : Word) : (s.setReg a v).acc = s.acc := rfl
@[simp] theorem setReg_sup (a : Nat) (v : Word) : (s.setReg a v).sup = s.sup := rfl
@[simp] theorem setReg_ports (a : Nat) (v : Word) : (s.setReg a v).ports = s.ports := rfl
@[simp] theorem setReg_engines (a : Nat) (v : Word) : (s.setReg a v).engines = s.engines := rfl
@[simp] theorem setReg_seq (a : Nat) (v : Word) : (s.setReg a v).seq = s.seq := rfl
@[simp] theorem setReg_imps (a : Nat) (v : Word) : (s.setReg a v).imps = s.imps := rfl
@[simp] theorem setReg_banks (a : Nat) (v : Word) : (s.setReg a v).banks = s.banks := rfl
@[simp] theorem setReg_checks (a : Nat) (v : Word) : (s.setReg a v).checks = s.checks := rfl
@[simp] theorem setReg_cal (a : Nat) (v : Word) : (s.setReg a v).cal = s.cal := rfl
@[simp] theorem setReg_scans (a : Nat) (v : Word) : (s.setReg a v).scans = s.scans := rfl
@[simp] theorem setReg_places (a : Nat) (v : Word) : (s.setReg a v).places = s.places := rfl
@[simp] theorem setReg_evalDue (a : Nat) (v : Word) : (s.setReg a v).evalDue = s.evalDue := rfl
@[simp] theorem setReg_caps (a : Nat) (v : Word) : (s.setReg a v).caps = s.caps := rfl
@[simp] theorem setReg_spe (a : Nat) (v : Word) : (s.setReg a v).spe = s.spe := rfl
@[simp] theorem setReg_alm (a : Nat) (v : Word) : (s.setReg a v).alm = s.alm := rfl
@[simp] theorem setReg_tim (a : Nat) (v : Word) : (s.setReg a v).tim = s.tim := rfl
@[simp] theorem setReg_fab (a : Nat) (v : Word) : (s.setReg a v).fab = s.fab := rfl
@[simp] theorem setReg_frames (a : Nat) (v : Word) : (s.setReg a v).frames = s.frames := rfl
@[simp] theorem setReg_lake (a : Nat) (v : Word) : (s.setReg a v).lake = s.lake := rfl
@[simp] theorem setReg_sec (a : Nat) (v : Word) : (s.setReg a v).sec = s.sec := rfl
@[simp] theorem setReg_glz (a : Nat) (v : Word) : (s.setReg a v).glz = s.glz := rfl
@[simp] theorem setReg_int (a : Nat) (v : Word) : (s.setReg a v).int = s.int := rfl
@[simp] theorem setReg_pwr (a : Nat) (v : Word) : (s.setReg a v).pwr = s.pwr := rfl
@[simp] theorem setReg_thm (a : Nat) (v : Word) : (s.setReg a v).thm = s.thm := rfl
@[simp] theorem setReg_hist (a : Nat) (v : Word) : (s.setReg a v).hist = s.hist := rfl
@[simp] theorem setReg_flash (a : Nat) (v : Word) : (s.setReg a v).flash = s.flash := rfl
@[simp] theorem setReg_upd (a : Nat) (v : Word) : (s.setReg a v).upd = s.upd := rfl
@[simp] theorem setReg_hst (a : Nat) (v : Word) : (s.setReg a v).hst = s.hst := rfl

/-! ### setFld -/

@[simp] theorem setFld_pending (a l w v : Nat) : (s.setFld a l w v).pending = s.pending := rfl
@[simp] theorem setFld_acc (a l w v : Nat) : (s.setFld a l w v).acc = s.acc := rfl
@[simp] theorem setFld_sup (a l w v : Nat) : (s.setFld a l w v).sup = s.sup := rfl
@[simp] theorem setFld_ports (a l w v : Nat) : (s.setFld a l w v).ports = s.ports := rfl
@[simp] theorem setFld_engines (a l w v : Nat) : (s.setFld a l w v).engines = s.engines := rfl
@[simp] theorem setFld_seq (a l w v : Nat) : (s.setFld a l w v).seq = s.seq := rfl
@[simp] theorem setFld_imps (a l w v : Nat) : (s.setFld a l w v).imps = s.imps := rfl
@[simp] theorem setFld_banks (a l w v : Nat) : (s.setFld a l w v).banks = s.banks := rfl
@[simp] theorem setFld_checks (a l w v : Nat) : (s.setFld a l w v).checks = s.checks := rfl
@[simp] theorem setFld_cal (a l w v : Nat) : (s.setFld a l w v).cal = s.cal := rfl
@[simp] theorem setFld_scans (a l w v : Nat) : (s.setFld a l w v).scans = s.scans := rfl
@[simp] theorem setFld_places (a l w v : Nat) : (s.setFld a l w v).places = s.places := rfl
@[simp] theorem setFld_evalDue (a l w v : Nat) : (s.setFld a l w v).evalDue = s.evalDue := rfl
@[simp] theorem setFld_caps (a l w v : Nat) : (s.setFld a l w v).caps = s.caps := rfl
@[simp] theorem setFld_spe (a l w v : Nat) : (s.setFld a l w v).spe = s.spe := rfl
@[simp] theorem setFld_alm (a l w v : Nat) : (s.setFld a l w v).alm = s.alm := rfl
@[simp] theorem setFld_tim (a l w v : Nat) : (s.setFld a l w v).tim = s.tim := rfl
@[simp] theorem setFld_fab (a l w v : Nat) : (s.setFld a l w v).fab = s.fab := rfl
@[simp] theorem setFld_frames (a l w v : Nat) : (s.setFld a l w v).frames = s.frames := rfl
@[simp] theorem setFld_lake (a l w v : Nat) : (s.setFld a l w v).lake = s.lake := rfl
@[simp] theorem setFld_sec (a l w v : Nat) : (s.setFld a l w v).sec = s.sec := rfl
@[simp] theorem setFld_glz (a l w v : Nat) : (s.setFld a l w v).glz = s.glz := rfl
@[simp] theorem setFld_int (a l w v : Nat) : (s.setFld a l w v).int = s.int := rfl
@[simp] theorem setFld_pwr (a l w v : Nat) : (s.setFld a l w v).pwr = s.pwr := rfl
@[simp] theorem setFld_thm (a l w v : Nat) : (s.setFld a l w v).thm = s.thm := rfl
@[simp] theorem setFld_hist (a l w v : Nat) : (s.setFld a l w v).hist = s.hist := rfl
@[simp] theorem setFld_flash (a l w v : Nat) : (s.setFld a l w v).flash = s.flash := rfl
@[simp] theorem setFld_upd (a l w v : Nat) : (s.setFld a l w v).upd = s.upd := rfl
@[simp] theorem setFld_hst (a l w v : Nat) : (s.setFld a l w v).hst = s.hst := rfl

/-! ### orReg -/

@[simp] theorem orReg_pending (a : Nat) (m : Word) : (s.orReg a m).pending = s.pending := rfl
@[simp] theorem orReg_acc (a : Nat) (m : Word) : (s.orReg a m).acc = s.acc := rfl
@[simp] theorem orReg_sup (a : Nat) (m : Word) : (s.orReg a m).sup = s.sup := rfl
@[simp] theorem orReg_ports (a : Nat) (m : Word) : (s.orReg a m).ports = s.ports := rfl
@[simp] theorem orReg_engines (a : Nat) (m : Word) : (s.orReg a m).engines = s.engines := rfl
@[simp] theorem orReg_seq (a : Nat) (m : Word) : (s.orReg a m).seq = s.seq := rfl
@[simp] theorem orReg_imps (a : Nat) (m : Word) : (s.orReg a m).imps = s.imps := rfl
@[simp] theorem orReg_banks (a : Nat) (m : Word) : (s.orReg a m).banks = s.banks := rfl
@[simp] theorem orReg_checks (a : Nat) (m : Word) : (s.orReg a m).checks = s.checks := rfl
@[simp] theorem orReg_cal (a : Nat) (m : Word) : (s.orReg a m).cal = s.cal := rfl
@[simp] theorem orReg_scans (a : Nat) (m : Word) : (s.orReg a m).scans = s.scans := rfl
@[simp] theorem orReg_places (a : Nat) (m : Word) : (s.orReg a m).places = s.places := rfl
@[simp] theorem orReg_evalDue (a : Nat) (m : Word) : (s.orReg a m).evalDue = s.evalDue := rfl
@[simp] theorem orReg_caps (a : Nat) (m : Word) : (s.orReg a m).caps = s.caps := rfl
@[simp] theorem orReg_spe (a : Nat) (m : Word) : (s.orReg a m).spe = s.spe := rfl
@[simp] theorem orReg_alm (a : Nat) (m : Word) : (s.orReg a m).alm = s.alm := rfl
@[simp] theorem orReg_tim (a : Nat) (m : Word) : (s.orReg a m).tim = s.tim := rfl
@[simp] theorem orReg_fab (a : Nat) (m : Word) : (s.orReg a m).fab = s.fab := rfl
@[simp] theorem orReg_frames (a : Nat) (m : Word) : (s.orReg a m).frames = s.frames := rfl
@[simp] theorem orReg_lake (a : Nat) (m : Word) : (s.orReg a m).lake = s.lake := rfl
@[simp] theorem orReg_sec (a : Nat) (m : Word) : (s.orReg a m).sec = s.sec := rfl
@[simp] theorem orReg_glz (a : Nat) (m : Word) : (s.orReg a m).glz = s.glz := rfl
@[simp] theorem orReg_int (a : Nat) (m : Word) : (s.orReg a m).int = s.int := rfl
@[simp] theorem orReg_pwr (a : Nat) (m : Word) : (s.orReg a m).pwr = s.pwr := rfl
@[simp] theorem orReg_thm (a : Nat) (m : Word) : (s.orReg a m).thm = s.thm := rfl
@[simp] theorem orReg_hist (a : Nat) (m : Word) : (s.orReg a m).hist = s.hist := rfl
@[simp] theorem orReg_flash (a : Nat) (m : Word) : (s.orReg a m).flash = s.flash := rfl
@[simp] theorem orReg_upd (a : Nat) (m : Word) : (s.orReg a m).upd = s.upd := rfl
@[simp] theorem orReg_hst (a : Nat) (m : Word) : (s.orReg a m).hst = s.hst := rfl

/-! ### clearReg -/

@[simp] theorem clearReg_pending (a : Nat) (m : Word) : (s.clearReg a m).pending = s.pending := rfl
@[simp] theorem clearReg_acc (a : Nat) (m : Word) : (s.clearReg a m).acc = s.acc := rfl
@[simp] theorem clearReg_sup (a : Nat) (m : Word) : (s.clearReg a m).sup = s.sup := rfl
@[simp] theorem clearReg_ports (a : Nat) (m : Word) : (s.clearReg a m).ports = s.ports := rfl
@[simp] theorem clearReg_engines (a : Nat) (m : Word) : (s.clearReg a m).engines = s.engines := rfl
@[simp] theorem clearReg_seq (a : Nat) (m : Word) : (s.clearReg a m).seq = s.seq := rfl
@[simp] theorem clearReg_imps (a : Nat) (m : Word) : (s.clearReg a m).imps = s.imps := rfl
@[simp] theorem clearReg_banks (a : Nat) (m : Word) : (s.clearReg a m).banks = s.banks := rfl
@[simp] theorem clearReg_checks (a : Nat) (m : Word) : (s.clearReg a m).checks = s.checks := rfl
@[simp] theorem clearReg_cal (a : Nat) (m : Word) : (s.clearReg a m).cal = s.cal := rfl
@[simp] theorem clearReg_scans (a : Nat) (m : Word) : (s.clearReg a m).scans = s.scans := rfl
@[simp] theorem clearReg_places (a : Nat) (m : Word) : (s.clearReg a m).places = s.places := rfl
@[simp] theorem clearReg_evalDue (a : Nat) (m : Word) : (s.clearReg a m).evalDue = s.evalDue := rfl
@[simp] theorem clearReg_caps (a : Nat) (m : Word) : (s.clearReg a m).caps = s.caps := rfl
@[simp] theorem clearReg_spe (a : Nat) (m : Word) : (s.clearReg a m).spe = s.spe := rfl
@[simp] theorem clearReg_alm (a : Nat) (m : Word) : (s.clearReg a m).alm = s.alm := rfl
@[simp] theorem clearReg_tim (a : Nat) (m : Word) : (s.clearReg a m).tim = s.tim := rfl
@[simp] theorem clearReg_fab (a : Nat) (m : Word) : (s.clearReg a m).fab = s.fab := rfl
@[simp] theorem clearReg_frames (a : Nat) (m : Word) : (s.clearReg a m).frames = s.frames := rfl
@[simp] theorem clearReg_lake (a : Nat) (m : Word) : (s.clearReg a m).lake = s.lake := rfl
@[simp] theorem clearReg_sec (a : Nat) (m : Word) : (s.clearReg a m).sec = s.sec := rfl
@[simp] theorem clearReg_glz (a : Nat) (m : Word) : (s.clearReg a m).glz = s.glz := rfl
@[simp] theorem clearReg_int (a : Nat) (m : Word) : (s.clearReg a m).int = s.int := rfl
@[simp] theorem clearReg_pwr (a : Nat) (m : Word) : (s.clearReg a m).pwr = s.pwr := rfl
@[simp] theorem clearReg_thm (a : Nat) (m : Word) : (s.clearReg a m).thm = s.thm := rfl
@[simp] theorem clearReg_hist (a : Nat) (m : Word) : (s.clearReg a m).hist = s.hist := rfl
@[simp] theorem clearReg_flash (a : Nat) (m : Word) : (s.clearReg a m).flash = s.flash := rfl
@[simp] theorem clearReg_upd (a : Nat) (m : Word) : (s.clearReg a m).upd = s.upd := rfl
@[simp] theorem clearReg_hst (a : Nat) (m : Word) : (s.clearReg a m).hst = s.hst := rfl

/-! ### stick -/

@[simp] theorem stick_pending (k : PageKind) (i n : Nat) : (s.stick k i n).pending = s.pending := rfl
@[simp] theorem stick_acc (k : PageKind) (i n : Nat) : (s.stick k i n).acc = s.acc := rfl
@[simp] theorem stick_sup (k : PageKind) (i n : Nat) : (s.stick k i n).sup = s.sup := rfl
@[simp] theorem stick_ports (k : PageKind) (i n : Nat) : (s.stick k i n).ports = s.ports := rfl
@[simp] theorem stick_engines (k : PageKind) (i n : Nat) : (s.stick k i n).engines = s.engines := rfl
@[simp] theorem stick_seq (k : PageKind) (i n : Nat) : (s.stick k i n).seq = s.seq := rfl
@[simp] theorem stick_imps (k : PageKind) (i n : Nat) : (s.stick k i n).imps = s.imps := rfl
@[simp] theorem stick_banks (k : PageKind) (i n : Nat) : (s.stick k i n).banks = s.banks := rfl
@[simp] theorem stick_checks (k : PageKind) (i n : Nat) : (s.stick k i n).checks = s.checks := rfl
@[simp] theorem stick_cal (k : PageKind) (i n : Nat) : (s.stick k i n).cal = s.cal := rfl
@[simp] theorem stick_scans (k : PageKind) (i n : Nat) : (s.stick k i n).scans = s.scans := rfl
@[simp] theorem stick_places (k : PageKind) (i n : Nat) : (s.stick k i n).places = s.places := rfl
@[simp] theorem stick_evalDue (k : PageKind) (i n : Nat) : (s.stick k i n).evalDue = s.evalDue := rfl
@[simp] theorem stick_caps (k : PageKind) (i n : Nat) : (s.stick k i n).caps = s.caps := rfl
@[simp] theorem stick_spe (k : PageKind) (i n : Nat) : (s.stick k i n).spe = s.spe := rfl
@[simp] theorem stick_alm (k : PageKind) (i n : Nat) : (s.stick k i n).alm = s.alm := rfl
@[simp] theorem stick_tim (k : PageKind) (i n : Nat) : (s.stick k i n).tim = s.tim := rfl
@[simp] theorem stick_fab (k : PageKind) (i n : Nat) : (s.stick k i n).fab = s.fab := rfl
@[simp] theorem stick_frames (k : PageKind) (i n : Nat) : (s.stick k i n).frames = s.frames := rfl
@[simp] theorem stick_lake (k : PageKind) (i n : Nat) : (s.stick k i n).lake = s.lake := rfl
@[simp] theorem stick_sec (k : PageKind) (i n : Nat) : (s.stick k i n).sec = s.sec := rfl
@[simp] theorem stick_glz (k : PageKind) (i n : Nat) : (s.stick k i n).glz = s.glz := rfl
@[simp] theorem stick_int (k : PageKind) (i n : Nat) : (s.stick k i n).int = s.int := rfl
@[simp] theorem stick_pwr (k : PageKind) (i n : Nat) : (s.stick k i n).pwr = s.pwr := rfl
@[simp] theorem stick_thm (k : PageKind) (i n : Nat) : (s.stick k i n).thm = s.thm := rfl
@[simp] theorem stick_hist (k : PageKind) (i n : Nat) : (s.stick k i n).hist = s.hist := rfl
@[simp] theorem stick_flash (k : PageKind) (i n : Nat) : (s.stick k i n).flash = s.flash := rfl
@[simp] theorem stick_upd (k : PageKind) (i n : Nat) : (s.stick k i n).upd = s.upd := rfl
@[simp] theorem stick_hst (k : PageKind) (i n : Nat) : (s.stick k i n).hst = s.hst := rfl

/-! ### stickPage -/

@[simp] theorem stickPage_pending (p n : Nat) : (s.stickPage p n).pending = s.pending := rfl
@[simp] theorem stickPage_acc (p n : Nat) : (s.stickPage p n).acc = s.acc := rfl
@[simp] theorem stickPage_sup (p n : Nat) : (s.stickPage p n).sup = s.sup := rfl
@[simp] theorem stickPage_ports (p n : Nat) : (s.stickPage p n).ports = s.ports := rfl
@[simp] theorem stickPage_engines (p n : Nat) : (s.stickPage p n).engines = s.engines := rfl
@[simp] theorem stickPage_seq (p n : Nat) : (s.stickPage p n).seq = s.seq := rfl
@[simp] theorem stickPage_imps (p n : Nat) : (s.stickPage p n).imps = s.imps := rfl
@[simp] theorem stickPage_banks (p n : Nat) : (s.stickPage p n).banks = s.banks := rfl
@[simp] theorem stickPage_checks (p n : Nat) : (s.stickPage p n).checks = s.checks := rfl
@[simp] theorem stickPage_cal (p n : Nat) : (s.stickPage p n).cal = s.cal := rfl
@[simp] theorem stickPage_scans (p n : Nat) : (s.stickPage p n).scans = s.scans := rfl
@[simp] theorem stickPage_places (p n : Nat) : (s.stickPage p n).places = s.places := rfl
@[simp] theorem stickPage_evalDue (p n : Nat) : (s.stickPage p n).evalDue = s.evalDue := rfl
@[simp] theorem stickPage_caps (p n : Nat) : (s.stickPage p n).caps = s.caps := rfl
@[simp] theorem stickPage_spe (p n : Nat) : (s.stickPage p n).spe = s.spe := rfl
@[simp] theorem stickPage_alm (p n : Nat) : (s.stickPage p n).alm = s.alm := rfl
@[simp] theorem stickPage_tim (p n : Nat) : (s.stickPage p n).tim = s.tim := rfl
@[simp] theorem stickPage_fab (p n : Nat) : (s.stickPage p n).fab = s.fab := rfl
@[simp] theorem stickPage_frames (p n : Nat) : (s.stickPage p n).frames = s.frames := rfl
@[simp] theorem stickPage_lake (p n : Nat) : (s.stickPage p n).lake = s.lake := rfl
@[simp] theorem stickPage_sec (p n : Nat) : (s.stickPage p n).sec = s.sec := rfl
@[simp] theorem stickPage_glz (p n : Nat) : (s.stickPage p n).glz = s.glz := rfl
@[simp] theorem stickPage_int (p n : Nat) : (s.stickPage p n).int = s.int := rfl
@[simp] theorem stickPage_pwr (p n : Nat) : (s.stickPage p n).pwr = s.pwr := rfl
@[simp] theorem stickPage_thm (p n : Nat) : (s.stickPage p n).thm = s.thm := rfl
@[simp] theorem stickPage_hist (p n : Nat) : (s.stickPage p n).hist = s.hist := rfl
@[simp] theorem stickPage_flash (p n : Nat) : (s.stickPage p n).flash = s.flash := rfl
@[simp] theorem stickPage_upd (p n : Nat) : (s.stickPage p n).upd = s.upd := rfl
@[simp] theorem stickPage_hst (p n : Nat) : (s.stickPage p n).hst = s.hst := rfl

/-! ### countSat -/

@[simp] theorem countSat_pending (a n : Nat) : (s.countSat a n).pending = s.pending := rfl
@[simp] theorem countSat_acc (a n : Nat) : (s.countSat a n).acc = s.acc := rfl
@[simp] theorem countSat_sup (a n : Nat) : (s.countSat a n).sup = s.sup := rfl
@[simp] theorem countSat_ports (a n : Nat) : (s.countSat a n).ports = s.ports := rfl
@[simp] theorem countSat_engines (a n : Nat) : (s.countSat a n).engines = s.engines := rfl
@[simp] theorem countSat_seq (a n : Nat) : (s.countSat a n).seq = s.seq := rfl
@[simp] theorem countSat_imps (a n : Nat) : (s.countSat a n).imps = s.imps := rfl
@[simp] theorem countSat_banks (a n : Nat) : (s.countSat a n).banks = s.banks := rfl
@[simp] theorem countSat_checks (a n : Nat) : (s.countSat a n).checks = s.checks := rfl
@[simp] theorem countSat_cal (a n : Nat) : (s.countSat a n).cal = s.cal := rfl
@[simp] theorem countSat_scans (a n : Nat) : (s.countSat a n).scans = s.scans := rfl
@[simp] theorem countSat_places (a n : Nat) : (s.countSat a n).places = s.places := rfl
@[simp] theorem countSat_evalDue (a n : Nat) : (s.countSat a n).evalDue = s.evalDue := rfl
@[simp] theorem countSat_caps (a n : Nat) : (s.countSat a n).caps = s.caps := rfl
@[simp] theorem countSat_spe (a n : Nat) : (s.countSat a n).spe = s.spe := rfl
@[simp] theorem countSat_alm (a n : Nat) : (s.countSat a n).alm = s.alm := rfl
@[simp] theorem countSat_tim (a n : Nat) : (s.countSat a n).tim = s.tim := rfl
@[simp] theorem countSat_fab (a n : Nat) : (s.countSat a n).fab = s.fab := rfl
@[simp] theorem countSat_frames (a n : Nat) : (s.countSat a n).frames = s.frames := rfl
@[simp] theorem countSat_lake (a n : Nat) : (s.countSat a n).lake = s.lake := rfl
@[simp] theorem countSat_sec (a n : Nat) : (s.countSat a n).sec = s.sec := rfl
@[simp] theorem countSat_glz (a n : Nat) : (s.countSat a n).glz = s.glz := rfl
@[simp] theorem countSat_int (a n : Nat) : (s.countSat a n).int = s.int := rfl
@[simp] theorem countSat_pwr (a n : Nat) : (s.countSat a n).pwr = s.pwr := rfl
@[simp] theorem countSat_thm (a n : Nat) : (s.countSat a n).thm = s.thm := rfl
@[simp] theorem countSat_hist (a n : Nat) : (s.countSat a n).hist = s.hist := rfl
@[simp] theorem countSat_flash (a n : Nat) : (s.countSat a n).flash = s.flash := rfl
@[simp] theorem countSat_upd (a n : Nat) : (s.countSat a n).upd = s.upd := rfl
@[simp] theorem countSat_hst (a n : Nat) : (s.countSat a n).hst = s.hst := rfl

/-! ### countSatFld -/

@[simp] theorem countSatFld_pending (a l w n : Nat) : (s.countSatFld a l w n).pending = s.pending := rfl
@[simp] theorem countSatFld_acc (a l w n : Nat) : (s.countSatFld a l w n).acc = s.acc := rfl
@[simp] theorem countSatFld_sup (a l w n : Nat) : (s.countSatFld a l w n).sup = s.sup := rfl
@[simp] theorem countSatFld_ports (a l w n : Nat) : (s.countSatFld a l w n).ports = s.ports := rfl
@[simp] theorem countSatFld_engines (a l w n : Nat) : (s.countSatFld a l w n).engines = s.engines := rfl
@[simp] theorem countSatFld_seq (a l w n : Nat) : (s.countSatFld a l w n).seq = s.seq := rfl
@[simp] theorem countSatFld_imps (a l w n : Nat) : (s.countSatFld a l w n).imps = s.imps := rfl
@[simp] theorem countSatFld_banks (a l w n : Nat) : (s.countSatFld a l w n).banks = s.banks := rfl
@[simp] theorem countSatFld_checks (a l w n : Nat) : (s.countSatFld a l w n).checks = s.checks := rfl
@[simp] theorem countSatFld_cal (a l w n : Nat) : (s.countSatFld a l w n).cal = s.cal := rfl
@[simp] theorem countSatFld_scans (a l w n : Nat) : (s.countSatFld a l w n).scans = s.scans := rfl
@[simp] theorem countSatFld_places (a l w n : Nat) : (s.countSatFld a l w n).places = s.places := rfl
@[simp] theorem countSatFld_evalDue (a l w n : Nat) : (s.countSatFld a l w n).evalDue = s.evalDue := rfl
@[simp] theorem countSatFld_caps (a l w n : Nat) : (s.countSatFld a l w n).caps = s.caps := rfl
@[simp] theorem countSatFld_spe (a l w n : Nat) : (s.countSatFld a l w n).spe = s.spe := rfl
@[simp] theorem countSatFld_alm (a l w n : Nat) : (s.countSatFld a l w n).alm = s.alm := rfl
@[simp] theorem countSatFld_tim (a l w n : Nat) : (s.countSatFld a l w n).tim = s.tim := rfl
@[simp] theorem countSatFld_fab (a l w n : Nat) : (s.countSatFld a l w n).fab = s.fab := rfl
@[simp] theorem countSatFld_frames (a l w n : Nat) : (s.countSatFld a l w n).frames = s.frames := rfl
@[simp] theorem countSatFld_lake (a l w n : Nat) : (s.countSatFld a l w n).lake = s.lake := rfl
@[simp] theorem countSatFld_sec (a l w n : Nat) : (s.countSatFld a l w n).sec = s.sec := rfl
@[simp] theorem countSatFld_glz (a l w n : Nat) : (s.countSatFld a l w n).glz = s.glz := rfl
@[simp] theorem countSatFld_int (a l w n : Nat) : (s.countSatFld a l w n).int = s.int := rfl
@[simp] theorem countSatFld_pwr (a l w n : Nat) : (s.countSatFld a l w n).pwr = s.pwr := rfl
@[simp] theorem countSatFld_thm (a l w n : Nat) : (s.countSatFld a l w n).thm = s.thm := rfl
@[simp] theorem countSatFld_hist (a l w n : Nat) : (s.countSatFld a l w n).hist = s.hist := rfl
@[simp] theorem countSatFld_flash (a l w n : Nat) : (s.countSatFld a l w n).flash = s.flash := rfl
@[simp] theorem countSatFld_upd (a l w n : Nat) : (s.countSatFld a l w n).upd = s.upd := rfl
@[simp] theorem countSatFld_hst (a l w n : Nat) : (s.countSatFld a l w n).hst = s.hst := rfl

/-! ### countWrap -/

@[simp] theorem countWrap_pending (a l w n : Nat) : (s.countWrap a l w n).pending = s.pending := rfl
@[simp] theorem countWrap_acc (a l w n : Nat) : (s.countWrap a l w n).acc = s.acc := rfl
@[simp] theorem countWrap_sup (a l w n : Nat) : (s.countWrap a l w n).sup = s.sup := rfl
@[simp] theorem countWrap_ports (a l w n : Nat) : (s.countWrap a l w n).ports = s.ports := rfl
@[simp] theorem countWrap_engines (a l w n : Nat) : (s.countWrap a l w n).engines = s.engines := rfl
@[simp] theorem countWrap_seq (a l w n : Nat) : (s.countWrap a l w n).seq = s.seq := rfl
@[simp] theorem countWrap_imps (a l w n : Nat) : (s.countWrap a l w n).imps = s.imps := rfl
@[simp] theorem countWrap_banks (a l w n : Nat) : (s.countWrap a l w n).banks = s.banks := rfl
@[simp] theorem countWrap_checks (a l w n : Nat) : (s.countWrap a l w n).checks = s.checks := rfl
@[simp] theorem countWrap_cal (a l w n : Nat) : (s.countWrap a l w n).cal = s.cal := rfl
@[simp] theorem countWrap_scans (a l w n : Nat) : (s.countWrap a l w n).scans = s.scans := rfl
@[simp] theorem countWrap_places (a l w n : Nat) : (s.countWrap a l w n).places = s.places := rfl
@[simp] theorem countWrap_evalDue (a l w n : Nat) : (s.countWrap a l w n).evalDue = s.evalDue := rfl
@[simp] theorem countWrap_caps (a l w n : Nat) : (s.countWrap a l w n).caps = s.caps := rfl
@[simp] theorem countWrap_spe (a l w n : Nat) : (s.countWrap a l w n).spe = s.spe := rfl
@[simp] theorem countWrap_alm (a l w n : Nat) : (s.countWrap a l w n).alm = s.alm := rfl
@[simp] theorem countWrap_tim (a l w n : Nat) : (s.countWrap a l w n).tim = s.tim := rfl
@[simp] theorem countWrap_fab (a l w n : Nat) : (s.countWrap a l w n).fab = s.fab := rfl
@[simp] theorem countWrap_frames (a l w n : Nat) : (s.countWrap a l w n).frames = s.frames := rfl
@[simp] theorem countWrap_lake (a l w n : Nat) : (s.countWrap a l w n).lake = s.lake := rfl
@[simp] theorem countWrap_sec (a l w n : Nat) : (s.countWrap a l w n).sec = s.sec := rfl
@[simp] theorem countWrap_glz (a l w n : Nat) : (s.countWrap a l w n).glz = s.glz := rfl
@[simp] theorem countWrap_int (a l w n : Nat) : (s.countWrap a l w n).int = s.int := rfl
@[simp] theorem countWrap_pwr (a l w n : Nat) : (s.countWrap a l w n).pwr = s.pwr := rfl
@[simp] theorem countWrap_thm (a l w n : Nat) : (s.countWrap a l w n).thm = s.thm := rfl
@[simp] theorem countWrap_hist (a l w n : Nat) : (s.countWrap a l w n).hist = s.hist := rfl
@[simp] theorem countWrap_flash (a l w n : Nat) : (s.countWrap a l w n).flash = s.flash := rfl
@[simp] theorem countWrap_upd (a l w n : Nat) : (s.countWrap a l w n).upd = s.upd := rfl
@[simp] theorem countWrap_hst (a l w n : Nat) : (s.countWrap a l w n).hst = s.hst := rfl

/-! ### setPort -/

@[simp] theorem setPort_pending (c : Nat) (p : Port) : (s.setPort c p).pending = s.pending := rfl
@[simp] theorem setPort_regs (c : Nat) (p : Port) : (s.setPort c p).regs = s.regs := rfl
@[simp] theorem setPort_acc (c : Nat) (p : Port) : (s.setPort c p).acc = s.acc := rfl
@[simp] theorem setPort_sup (c : Nat) (p : Port) : (s.setPort c p).sup = s.sup := rfl
@[simp] theorem setPort_engines (c : Nat) (p : Port) : (s.setPort c p).engines = s.engines := rfl
@[simp] theorem setPort_seq (c : Nat) (p : Port) : (s.setPort c p).seq = s.seq := rfl
@[simp] theorem setPort_imps (c : Nat) (p : Port) : (s.setPort c p).imps = s.imps := rfl
@[simp] theorem setPort_banks (c : Nat) (p : Port) : (s.setPort c p).banks = s.banks := rfl
@[simp] theorem setPort_checks (c : Nat) (p : Port) : (s.setPort c p).checks = s.checks := rfl
@[simp] theorem setPort_cal (c : Nat) (p : Port) : (s.setPort c p).cal = s.cal := rfl
@[simp] theorem setPort_scans (c : Nat) (p : Port) : (s.setPort c p).scans = s.scans := rfl
@[simp] theorem setPort_places (c : Nat) (p : Port) : (s.setPort c p).places = s.places := rfl
@[simp] theorem setPort_evalDue (c : Nat) (p : Port) : (s.setPort c p).evalDue = s.evalDue := rfl
@[simp] theorem setPort_caps (c : Nat) (p : Port) : (s.setPort c p).caps = s.caps := rfl
@[simp] theorem setPort_spe (c : Nat) (p : Port) : (s.setPort c p).spe = s.spe := rfl
@[simp] theorem setPort_alm (c : Nat) (p : Port) : (s.setPort c p).alm = s.alm := rfl
@[simp] theorem setPort_tim (c : Nat) (p : Port) : (s.setPort c p).tim = s.tim := rfl
@[simp] theorem setPort_fab (c : Nat) (p : Port) : (s.setPort c p).fab = s.fab := rfl
@[simp] theorem setPort_frames (c : Nat) (p : Port) : (s.setPort c p).frames = s.frames := rfl
@[simp] theorem setPort_lake (c : Nat) (p : Port) : (s.setPort c p).lake = s.lake := rfl
@[simp] theorem setPort_sec (c : Nat) (p : Port) : (s.setPort c p).sec = s.sec := rfl
@[simp] theorem setPort_glz (c : Nat) (p : Port) : (s.setPort c p).glz = s.glz := rfl
@[simp] theorem setPort_int (c : Nat) (p : Port) : (s.setPort c p).int = s.int := rfl
@[simp] theorem setPort_pwr (c : Nat) (p : Port) : (s.setPort c p).pwr = s.pwr := rfl
@[simp] theorem setPort_thm (c : Nat) (p : Port) : (s.setPort c p).thm = s.thm := rfl
@[simp] theorem setPort_hist (c : Nat) (p : Port) : (s.setPort c p).hist = s.hist := rfl
@[simp] theorem setPort_flash (c : Nat) (p : Port) : (s.setPort c p).flash = s.flash := rfl
@[simp] theorem setPort_upd (c : Nat) (p : Port) : (s.setPort c p).upd = s.upd := rfl
@[simp] theorem setPort_hst (c : Nat) (p : Port) : (s.setPort c p).hst = s.hst := rfl

/-! ### setEngine -/

@[simp] theorem setEngine_pending (e : Nat) (v : Engine) : (s.setEngine e v).pending = s.pending := rfl
@[simp] theorem setEngine_regs (e : Nat) (v : Engine) : (s.setEngine e v).regs = s.regs := rfl
@[simp] theorem setEngine_acc (e : Nat) (v : Engine) : (s.setEngine e v).acc = s.acc := rfl
@[simp] theorem setEngine_sup (e : Nat) (v : Engine) : (s.setEngine e v).sup = s.sup := rfl
@[simp] theorem setEngine_ports (e : Nat) (v : Engine) : (s.setEngine e v).ports = s.ports := rfl
@[simp] theorem setEngine_seq (e : Nat) (v : Engine) : (s.setEngine e v).seq = s.seq := rfl
@[simp] theorem setEngine_imps (e : Nat) (v : Engine) : (s.setEngine e v).imps = s.imps := rfl
@[simp] theorem setEngine_banks (e : Nat) (v : Engine) : (s.setEngine e v).banks = s.banks := rfl
@[simp] theorem setEngine_checks (e : Nat) (v : Engine) : (s.setEngine e v).checks = s.checks := rfl
@[simp] theorem setEngine_cal (e : Nat) (v : Engine) : (s.setEngine e v).cal = s.cal := rfl
@[simp] theorem setEngine_scans (e : Nat) (v : Engine) : (s.setEngine e v).scans = s.scans := rfl
@[simp] theorem setEngine_places (e : Nat) (v : Engine) : (s.setEngine e v).places = s.places := rfl
@[simp] theorem setEngine_evalDue (e : Nat) (v : Engine) : (s.setEngine e v).evalDue = s.evalDue := rfl
@[simp] theorem setEngine_caps (e : Nat) (v : Engine) : (s.setEngine e v).caps = s.caps := rfl
@[simp] theorem setEngine_spe (e : Nat) (v : Engine) : (s.setEngine e v).spe = s.spe := rfl
@[simp] theorem setEngine_alm (e : Nat) (v : Engine) : (s.setEngine e v).alm = s.alm := rfl
@[simp] theorem setEngine_tim (e : Nat) (v : Engine) : (s.setEngine e v).tim = s.tim := rfl
@[simp] theorem setEngine_fab (e : Nat) (v : Engine) : (s.setEngine e v).fab = s.fab := rfl
@[simp] theorem setEngine_frames (e : Nat) (v : Engine) : (s.setEngine e v).frames = s.frames := rfl
@[simp] theorem setEngine_lake (e : Nat) (v : Engine) : (s.setEngine e v).lake = s.lake := rfl
@[simp] theorem setEngine_sec (e : Nat) (v : Engine) : (s.setEngine e v).sec = s.sec := rfl
@[simp] theorem setEngine_glz (e : Nat) (v : Engine) : (s.setEngine e v).glz = s.glz := rfl
@[simp] theorem setEngine_int (e : Nat) (v : Engine) : (s.setEngine e v).int = s.int := rfl
@[simp] theorem setEngine_pwr (e : Nat) (v : Engine) : (s.setEngine e v).pwr = s.pwr := rfl
@[simp] theorem setEngine_thm (e : Nat) (v : Engine) : (s.setEngine e v).thm = s.thm := rfl
@[simp] theorem setEngine_hist (e : Nat) (v : Engine) : (s.setEngine e v).hist = s.hist := rfl
@[simp] theorem setEngine_flash (e : Nat) (v : Engine) : (s.setEngine e v).flash = s.flash := rfl
@[simp] theorem setEngine_upd (e : Nat) (v : Engine) : (s.setEngine e v).upd = s.upd := rfl
@[simp] theorem setEngine_hst (e : Nat) (v : Engine) : (s.setEngine e v).hst = s.hst := rfl

/-! ### setImp -/

@[simp] theorem setImp_pending (n : Nat) (v : ImpEngine) : (s.setImp n v).pending = s.pending := rfl
@[simp] theorem setImp_regs (n : Nat) (v : ImpEngine) : (s.setImp n v).regs = s.regs := rfl
@[simp] theorem setImp_acc (n : Nat) (v : ImpEngine) : (s.setImp n v).acc = s.acc := rfl
@[simp] theorem setImp_sup (n : Nat) (v : ImpEngine) : (s.setImp n v).sup = s.sup := rfl
@[simp] theorem setImp_ports (n : Nat) (v : ImpEngine) : (s.setImp n v).ports = s.ports := rfl
@[simp] theorem setImp_engines (n : Nat) (v : ImpEngine) : (s.setImp n v).engines = s.engines := rfl
@[simp] theorem setImp_seq (n : Nat) (v : ImpEngine) : (s.setImp n v).seq = s.seq := rfl
@[simp] theorem setImp_banks (n : Nat) (v : ImpEngine) : (s.setImp n v).banks = s.banks := rfl
@[simp] theorem setImp_checks (n : Nat) (v : ImpEngine) : (s.setImp n v).checks = s.checks := rfl
@[simp] theorem setImp_cal (n : Nat) (v : ImpEngine) : (s.setImp n v).cal = s.cal := rfl
@[simp] theorem setImp_scans (n : Nat) (v : ImpEngine) : (s.setImp n v).scans = s.scans := rfl
@[simp] theorem setImp_places (n : Nat) (v : ImpEngine) : (s.setImp n v).places = s.places := rfl
@[simp] theorem setImp_evalDue (n : Nat) (v : ImpEngine) : (s.setImp n v).evalDue = s.evalDue := rfl
@[simp] theorem setImp_caps (n : Nat) (v : ImpEngine) : (s.setImp n v).caps = s.caps := rfl
@[simp] theorem setImp_spe (n : Nat) (v : ImpEngine) : (s.setImp n v).spe = s.spe := rfl
@[simp] theorem setImp_alm (n : Nat) (v : ImpEngine) : (s.setImp n v).alm = s.alm := rfl
@[simp] theorem setImp_tim (n : Nat) (v : ImpEngine) : (s.setImp n v).tim = s.tim := rfl
@[simp] theorem setImp_fab (n : Nat) (v : ImpEngine) : (s.setImp n v).fab = s.fab := rfl
@[simp] theorem setImp_frames (n : Nat) (v : ImpEngine) : (s.setImp n v).frames = s.frames := rfl
@[simp] theorem setImp_lake (n : Nat) (v : ImpEngine) : (s.setImp n v).lake = s.lake := rfl
@[simp] theorem setImp_sec (n : Nat) (v : ImpEngine) : (s.setImp n v).sec = s.sec := rfl
@[simp] theorem setImp_glz (n : Nat) (v : ImpEngine) : (s.setImp n v).glz = s.glz := rfl
@[simp] theorem setImp_int (n : Nat) (v : ImpEngine) : (s.setImp n v).int = s.int := rfl
@[simp] theorem setImp_pwr (n : Nat) (v : ImpEngine) : (s.setImp n v).pwr = s.pwr := rfl
@[simp] theorem setImp_thm (n : Nat) (v : ImpEngine) : (s.setImp n v).thm = s.thm := rfl
@[simp] theorem setImp_hist (n : Nat) (v : ImpEngine) : (s.setImp n v).hist = s.hist := rfl
@[simp] theorem setImp_flash (n : Nat) (v : ImpEngine) : (s.setImp n v).flash = s.flash := rfl
@[simp] theorem setImp_upd (n : Nat) (v : ImpEngine) : (s.setImp n v).upd = s.upd := rfl
@[simp] theorem setImp_hst (n : Nat) (v : ImpEngine) : (s.setImp n v).hst = s.hst := rfl

/-! ### setBank -/

@[simp] theorem setBank_pending (b : Nat) (v : Bank) : (s.setBank b v).pending = s.pending := rfl
@[simp] theorem setBank_regs (b : Nat) (v : Bank) : (s.setBank b v).regs = s.regs := rfl
@[simp] theorem setBank_acc (b : Nat) (v : Bank) : (s.setBank b v).acc = s.acc := rfl
@[simp] theorem setBank_sup (b : Nat) (v : Bank) : (s.setBank b v).sup = s.sup := rfl
@[simp] theorem setBank_ports (b : Nat) (v : Bank) : (s.setBank b v).ports = s.ports := rfl
@[simp] theorem setBank_engines (b : Nat) (v : Bank) : (s.setBank b v).engines = s.engines := rfl
@[simp] theorem setBank_seq (b : Nat) (v : Bank) : (s.setBank b v).seq = s.seq := rfl
@[simp] theorem setBank_imps (b : Nat) (v : Bank) : (s.setBank b v).imps = s.imps := rfl
@[simp] theorem setBank_checks (b : Nat) (v : Bank) : (s.setBank b v).checks = s.checks := rfl
@[simp] theorem setBank_cal (b : Nat) (v : Bank) : (s.setBank b v).cal = s.cal := rfl
@[simp] theorem setBank_scans (b : Nat) (v : Bank) : (s.setBank b v).scans = s.scans := rfl
@[simp] theorem setBank_places (b : Nat) (v : Bank) : (s.setBank b v).places = s.places := rfl
@[simp] theorem setBank_evalDue (b : Nat) (v : Bank) : (s.setBank b v).evalDue = s.evalDue := rfl
@[simp] theorem setBank_caps (b : Nat) (v : Bank) : (s.setBank b v).caps = s.caps := rfl
@[simp] theorem setBank_spe (b : Nat) (v : Bank) : (s.setBank b v).spe = s.spe := rfl
@[simp] theorem setBank_alm (b : Nat) (v : Bank) : (s.setBank b v).alm = s.alm := rfl
@[simp] theorem setBank_tim (b : Nat) (v : Bank) : (s.setBank b v).tim = s.tim := rfl
@[simp] theorem setBank_fab (b : Nat) (v : Bank) : (s.setBank b v).fab = s.fab := rfl
@[simp] theorem setBank_frames (b : Nat) (v : Bank) : (s.setBank b v).frames = s.frames := rfl
@[simp] theorem setBank_lake (b : Nat) (v : Bank) : (s.setBank b v).lake = s.lake := rfl
@[simp] theorem setBank_sec (b : Nat) (v : Bank) : (s.setBank b v).sec = s.sec := rfl
@[simp] theorem setBank_glz (b : Nat) (v : Bank) : (s.setBank b v).glz = s.glz := rfl
@[simp] theorem setBank_int (b : Nat) (v : Bank) : (s.setBank b v).int = s.int := rfl
@[simp] theorem setBank_pwr (b : Nat) (v : Bank) : (s.setBank b v).pwr = s.pwr := rfl
@[simp] theorem setBank_thm (b : Nat) (v : Bank) : (s.setBank b v).thm = s.thm := rfl
@[simp] theorem setBank_hist (b : Nat) (v : Bank) : (s.setBank b v).hist = s.hist := rfl
@[simp] theorem setBank_flash (b : Nat) (v : Bank) : (s.setBank b v).flash = s.flash := rfl
@[simp] theorem setBank_upd (b : Nat) (v : Bank) : (s.setBank b v).upd = s.upd := rfl
@[simp] theorem setBank_hst (b : Nat) (v : Bank) : (s.setBank b v).hst = s.hst := rfl

/-! ### setCheck -/

@[simp] theorem setCheck_pending (c : Nat) (v : Check) : (s.setCheck c v).pending = s.pending := rfl
@[simp] theorem setCheck_regs (c : Nat) (v : Check) : (s.setCheck c v).regs = s.regs := rfl
@[simp] theorem setCheck_acc (c : Nat) (v : Check) : (s.setCheck c v).acc = s.acc := rfl
@[simp] theorem setCheck_sup (c : Nat) (v : Check) : (s.setCheck c v).sup = s.sup := rfl
@[simp] theorem setCheck_ports (c : Nat) (v : Check) : (s.setCheck c v).ports = s.ports := rfl
@[simp] theorem setCheck_engines (c : Nat) (v : Check) : (s.setCheck c v).engines = s.engines := rfl
@[simp] theorem setCheck_seq (c : Nat) (v : Check) : (s.setCheck c v).seq = s.seq := rfl
@[simp] theorem setCheck_imps (c : Nat) (v : Check) : (s.setCheck c v).imps = s.imps := rfl
@[simp] theorem setCheck_banks (c : Nat) (v : Check) : (s.setCheck c v).banks = s.banks := rfl
@[simp] theorem setCheck_cal (c : Nat) (v : Check) : (s.setCheck c v).cal = s.cal := rfl
@[simp] theorem setCheck_scans (c : Nat) (v : Check) : (s.setCheck c v).scans = s.scans := rfl
@[simp] theorem setCheck_places (c : Nat) (v : Check) : (s.setCheck c v).places = s.places := rfl
@[simp] theorem setCheck_evalDue (c : Nat) (v : Check) : (s.setCheck c v).evalDue = s.evalDue := rfl
@[simp] theorem setCheck_caps (c : Nat) (v : Check) : (s.setCheck c v).caps = s.caps := rfl
@[simp] theorem setCheck_spe (c : Nat) (v : Check) : (s.setCheck c v).spe = s.spe := rfl
@[simp] theorem setCheck_alm (c : Nat) (v : Check) : (s.setCheck c v).alm = s.alm := rfl
@[simp] theorem setCheck_tim (c : Nat) (v : Check) : (s.setCheck c v).tim = s.tim := rfl
@[simp] theorem setCheck_fab (c : Nat) (v : Check) : (s.setCheck c v).fab = s.fab := rfl
@[simp] theorem setCheck_frames (c : Nat) (v : Check) : (s.setCheck c v).frames = s.frames := rfl
@[simp] theorem setCheck_lake (c : Nat) (v : Check) : (s.setCheck c v).lake = s.lake := rfl
@[simp] theorem setCheck_sec (c : Nat) (v : Check) : (s.setCheck c v).sec = s.sec := rfl
@[simp] theorem setCheck_glz (c : Nat) (v : Check) : (s.setCheck c v).glz = s.glz := rfl
@[simp] theorem setCheck_int (c : Nat) (v : Check) : (s.setCheck c v).int = s.int := rfl
@[simp] theorem setCheck_pwr (c : Nat) (v : Check) : (s.setCheck c v).pwr = s.pwr := rfl
@[simp] theorem setCheck_thm (c : Nat) (v : Check) : (s.setCheck c v).thm = s.thm := rfl
@[simp] theorem setCheck_hist (c : Nat) (v : Check) : (s.setCheck c v).hist = s.hist := rfl
@[simp] theorem setCheck_flash (c : Nat) (v : Check) : (s.setCheck c v).flash = s.flash := rfl
@[simp] theorem setCheck_upd (c : Nat) (v : Check) : (s.setCheck c v).upd = s.upd := rfl
@[simp] theorem setCheck_hst (c : Nat) (v : Check) : (s.setCheck c v).hst = s.hst := rfl

/-! ### setScan -/

@[simp] theorem setScan_pending (n : Nat) (v : Scan) : (s.setScan n v).pending = s.pending := rfl
@[simp] theorem setScan_regs (n : Nat) (v : Scan) : (s.setScan n v).regs = s.regs := rfl
@[simp] theorem setScan_acc (n : Nat) (v : Scan) : (s.setScan n v).acc = s.acc := rfl
@[simp] theorem setScan_sup (n : Nat) (v : Scan) : (s.setScan n v).sup = s.sup := rfl
@[simp] theorem setScan_ports (n : Nat) (v : Scan) : (s.setScan n v).ports = s.ports := rfl
@[simp] theorem setScan_engines (n : Nat) (v : Scan) : (s.setScan n v).engines = s.engines := rfl
@[simp] theorem setScan_seq (n : Nat) (v : Scan) : (s.setScan n v).seq = s.seq := rfl
@[simp] theorem setScan_imps (n : Nat) (v : Scan) : (s.setScan n v).imps = s.imps := rfl
@[simp] theorem setScan_banks (n : Nat) (v : Scan) : (s.setScan n v).banks = s.banks := rfl
@[simp] theorem setScan_checks (n : Nat) (v : Scan) : (s.setScan n v).checks = s.checks := rfl
@[simp] theorem setScan_cal (n : Nat) (v : Scan) : (s.setScan n v).cal = s.cal := rfl
@[simp] theorem setScan_places (n : Nat) (v : Scan) : (s.setScan n v).places = s.places := rfl
@[simp] theorem setScan_evalDue (n : Nat) (v : Scan) : (s.setScan n v).evalDue = s.evalDue := rfl
@[simp] theorem setScan_caps (n : Nat) (v : Scan) : (s.setScan n v).caps = s.caps := rfl
@[simp] theorem setScan_spe (n : Nat) (v : Scan) : (s.setScan n v).spe = s.spe := rfl
@[simp] theorem setScan_alm (n : Nat) (v : Scan) : (s.setScan n v).alm = s.alm := rfl
@[simp] theorem setScan_tim (n : Nat) (v : Scan) : (s.setScan n v).tim = s.tim := rfl
@[simp] theorem setScan_fab (n : Nat) (v : Scan) : (s.setScan n v).fab = s.fab := rfl
@[simp] theorem setScan_frames (n : Nat) (v : Scan) : (s.setScan n v).frames = s.frames := rfl
@[simp] theorem setScan_lake (n : Nat) (v : Scan) : (s.setScan n v).lake = s.lake := rfl
@[simp] theorem setScan_sec (n : Nat) (v : Scan) : (s.setScan n v).sec = s.sec := rfl
@[simp] theorem setScan_glz (n : Nat) (v : Scan) : (s.setScan n v).glz = s.glz := rfl
@[simp] theorem setScan_int (n : Nat) (v : Scan) : (s.setScan n v).int = s.int := rfl
@[simp] theorem setScan_pwr (n : Nat) (v : Scan) : (s.setScan n v).pwr = s.pwr := rfl
@[simp] theorem setScan_thm (n : Nat) (v : Scan) : (s.setScan n v).thm = s.thm := rfl
@[simp] theorem setScan_hist (n : Nat) (v : Scan) : (s.setScan n v).hist = s.hist := rfl
@[simp] theorem setScan_flash (n : Nat) (v : Scan) : (s.setScan n v).flash = s.flash := rfl
@[simp] theorem setScan_upd (n : Nat) (v : Scan) : (s.setScan n v).upd = s.upd := rfl
@[simp] theorem setScan_hst (n : Nat) (v : Scan) : (s.setScan n v).hst = s.hst := rfl

/-! ### setPlace -/

@[simp] theorem setPlace_pending (p : Nat) (v : Place) : (s.setPlace p v).pending = s.pending := rfl
@[simp] theorem setPlace_regs (p : Nat) (v : Place) : (s.setPlace p v).regs = s.regs := rfl
@[simp] theorem setPlace_acc (p : Nat) (v : Place) : (s.setPlace p v).acc = s.acc := rfl
@[simp] theorem setPlace_sup (p : Nat) (v : Place) : (s.setPlace p v).sup = s.sup := rfl
@[simp] theorem setPlace_ports (p : Nat) (v : Place) : (s.setPlace p v).ports = s.ports := rfl
@[simp] theorem setPlace_engines (p : Nat) (v : Place) : (s.setPlace p v).engines = s.engines := rfl
@[simp] theorem setPlace_seq (p : Nat) (v : Place) : (s.setPlace p v).seq = s.seq := rfl
@[simp] theorem setPlace_imps (p : Nat) (v : Place) : (s.setPlace p v).imps = s.imps := rfl
@[simp] theorem setPlace_banks (p : Nat) (v : Place) : (s.setPlace p v).banks = s.banks := rfl
@[simp] theorem setPlace_checks (p : Nat) (v : Place) : (s.setPlace p v).checks = s.checks := rfl
@[simp] theorem setPlace_cal (p : Nat) (v : Place) : (s.setPlace p v).cal = s.cal := rfl
@[simp] theorem setPlace_scans (p : Nat) (v : Place) : (s.setPlace p v).scans = s.scans := rfl
@[simp] theorem setPlace_evalDue (p : Nat) (v : Place) : (s.setPlace p v).evalDue = s.evalDue := rfl
@[simp] theorem setPlace_caps (p : Nat) (v : Place) : (s.setPlace p v).caps = s.caps := rfl
@[simp] theorem setPlace_spe (p : Nat) (v : Place) : (s.setPlace p v).spe = s.spe := rfl
@[simp] theorem setPlace_alm (p : Nat) (v : Place) : (s.setPlace p v).alm = s.alm := rfl
@[simp] theorem setPlace_tim (p : Nat) (v : Place) : (s.setPlace p v).tim = s.tim := rfl
@[simp] theorem setPlace_fab (p : Nat) (v : Place) : (s.setPlace p v).fab = s.fab := rfl
@[simp] theorem setPlace_frames (p : Nat) (v : Place) : (s.setPlace p v).frames = s.frames := rfl
@[simp] theorem setPlace_lake (p : Nat) (v : Place) : (s.setPlace p v).lake = s.lake := rfl
@[simp] theorem setPlace_sec (p : Nat) (v : Place) : (s.setPlace p v).sec = s.sec := rfl
@[simp] theorem setPlace_glz (p : Nat) (v : Place) : (s.setPlace p v).glz = s.glz := rfl
@[simp] theorem setPlace_int (p : Nat) (v : Place) : (s.setPlace p v).int = s.int := rfl
@[simp] theorem setPlace_pwr (p : Nat) (v : Place) : (s.setPlace p v).pwr = s.pwr := rfl
@[simp] theorem setPlace_thm (p : Nat) (v : Place) : (s.setPlace p v).thm = s.thm := rfl
@[simp] theorem setPlace_hist (p : Nat) (v : Place) : (s.setPlace p v).hist = s.hist := rfl
@[simp] theorem setPlace_flash (p : Nat) (v : Place) : (s.setPlace p v).flash = s.flash := rfl
@[simp] theorem setPlace_upd (p : Nat) (v : Place) : (s.setPlace p v).upd = s.upd := rfl
@[simp] theorem setPlace_hst (p : Nat) (v : Place) : (s.setPlace p v).hst = s.hst := rfl

/-! ### setStream -/

@[simp] theorem setStream_pending (i : Nat) (v : Stream) : (s.setStream i v).pending = s.pending := rfl
@[simp] theorem setStream_regs (i : Nat) (v : Stream) : (s.setStream i v).regs = s.regs := rfl
@[simp] theorem setStream_acc (i : Nat) (v : Stream) : (s.setStream i v).acc = s.acc := rfl
@[simp] theorem setStream_sup (i : Nat) (v : Stream) : (s.setStream i v).sup = s.sup := rfl
@[simp] theorem setStream_ports (i : Nat) (v : Stream) : (s.setStream i v).ports = s.ports := rfl
@[simp] theorem setStream_engines (i : Nat) (v : Stream) : (s.setStream i v).engines = s.engines := rfl
@[simp] theorem setStream_seq (i : Nat) (v : Stream) : (s.setStream i v).seq = s.seq := rfl
@[simp] theorem setStream_imps (i : Nat) (v : Stream) : (s.setStream i v).imps = s.imps := rfl
@[simp] theorem setStream_banks (i : Nat) (v : Stream) : (s.setStream i v).banks = s.banks := rfl
@[simp] theorem setStream_checks (i : Nat) (v : Stream) : (s.setStream i v).checks = s.checks := rfl
@[simp] theorem setStream_cal (i : Nat) (v : Stream) : (s.setStream i v).cal = s.cal := rfl
@[simp] theorem setStream_scans (i : Nat) (v : Stream) : (s.setStream i v).scans = s.scans := rfl
@[simp] theorem setStream_places (i : Nat) (v : Stream) : (s.setStream i v).places = s.places := rfl
@[simp] theorem setStream_evalDue (i : Nat) (v : Stream) : (s.setStream i v).evalDue = s.evalDue := rfl
@[simp] theorem setStream_caps (i : Nat) (v : Stream) : (s.setStream i v).caps = s.caps := rfl
@[simp] theorem setStream_alm (i : Nat) (v : Stream) : (s.setStream i v).alm = s.alm := rfl
@[simp] theorem setStream_tim (i : Nat) (v : Stream) : (s.setStream i v).tim = s.tim := rfl
@[simp] theorem setStream_fab (i : Nat) (v : Stream) : (s.setStream i v).fab = s.fab := rfl
@[simp] theorem setStream_frames (i : Nat) (v : Stream) : (s.setStream i v).frames = s.frames := rfl
@[simp] theorem setStream_lake (i : Nat) (v : Stream) : (s.setStream i v).lake = s.lake := rfl
@[simp] theorem setStream_sec (i : Nat) (v : Stream) : (s.setStream i v).sec = s.sec := rfl
@[simp] theorem setStream_glz (i : Nat) (v : Stream) : (s.setStream i v).glz = s.glz := rfl
@[simp] theorem setStream_int (i : Nat) (v : Stream) : (s.setStream i v).int = s.int := rfl
@[simp] theorem setStream_pwr (i : Nat) (v : Stream) : (s.setStream i v).pwr = s.pwr := rfl
@[simp] theorem setStream_thm (i : Nat) (v : Stream) : (s.setStream i v).thm = s.thm := rfl
@[simp] theorem setStream_hist (i : Nat) (v : Stream) : (s.setStream i v).hist = s.hist := rfl
@[simp] theorem setStream_flash (i : Nat) (v : Stream) : (s.setStream i v).flash = s.flash := rfl
@[simp] theorem setStream_upd (i : Nat) (v : Stream) : (s.setStream i v).upd = s.upd := rfl
@[simp] theorem setStream_hst (i : Nat) (v : Stream) : (s.setStream i v).hst = s.hst := rfl

/-! ### setSwitch -/

@[simp] theorem setSwitch_pending (i : Nat) (v : Switch) : (s.setSwitch i v).pending = s.pending := rfl
@[simp] theorem setSwitch_regs (i : Nat) (v : Switch) : (s.setSwitch i v).regs = s.regs := rfl
@[simp] theorem setSwitch_acc (i : Nat) (v : Switch) : (s.setSwitch i v).acc = s.acc := rfl
@[simp] theorem setSwitch_sup (i : Nat) (v : Switch) : (s.setSwitch i v).sup = s.sup := rfl
@[simp] theorem setSwitch_ports (i : Nat) (v : Switch) : (s.setSwitch i v).ports = s.ports := rfl
@[simp] theorem setSwitch_engines (i : Nat) (v : Switch) : (s.setSwitch i v).engines = s.engines := rfl
@[simp] theorem setSwitch_seq (i : Nat) (v : Switch) : (s.setSwitch i v).seq = s.seq := rfl
@[simp] theorem setSwitch_imps (i : Nat) (v : Switch) : (s.setSwitch i v).imps = s.imps := rfl
@[simp] theorem setSwitch_banks (i : Nat) (v : Switch) : (s.setSwitch i v).banks = s.banks := rfl
@[simp] theorem setSwitch_checks (i : Nat) (v : Switch) : (s.setSwitch i v).checks = s.checks := rfl
@[simp] theorem setSwitch_cal (i : Nat) (v : Switch) : (s.setSwitch i v).cal = s.cal := rfl
@[simp] theorem setSwitch_scans (i : Nat) (v : Switch) : (s.setSwitch i v).scans = s.scans := rfl
@[simp] theorem setSwitch_places (i : Nat) (v : Switch) : (s.setSwitch i v).places = s.places := rfl
@[simp] theorem setSwitch_evalDue (i : Nat) (v : Switch) : (s.setSwitch i v).evalDue = s.evalDue := rfl
@[simp] theorem setSwitch_caps (i : Nat) (v : Switch) : (s.setSwitch i v).caps = s.caps := rfl
@[simp] theorem setSwitch_spe (i : Nat) (v : Switch) : (s.setSwitch i v).spe = s.spe := rfl
@[simp] theorem setSwitch_tim (i : Nat) (v : Switch) : (s.setSwitch i v).tim = s.tim := rfl
@[simp] theorem setSwitch_fab (i : Nat) (v : Switch) : (s.setSwitch i v).fab = s.fab := rfl
@[simp] theorem setSwitch_frames (i : Nat) (v : Switch) : (s.setSwitch i v).frames = s.frames := rfl
@[simp] theorem setSwitch_lake (i : Nat) (v : Switch) : (s.setSwitch i v).lake = s.lake := rfl
@[simp] theorem setSwitch_sec (i : Nat) (v : Switch) : (s.setSwitch i v).sec = s.sec := rfl
@[simp] theorem setSwitch_glz (i : Nat) (v : Switch) : (s.setSwitch i v).glz = s.glz := rfl
@[simp] theorem setSwitch_int (i : Nat) (v : Switch) : (s.setSwitch i v).int = s.int := rfl
@[simp] theorem setSwitch_pwr (i : Nat) (v : Switch) : (s.setSwitch i v).pwr = s.pwr := rfl
@[simp] theorem setSwitch_thm (i : Nat) (v : Switch) : (s.setSwitch i v).thm = s.thm := rfl
@[simp] theorem setSwitch_hist (i : Nat) (v : Switch) : (s.setSwitch i v).hist = s.hist := rfl
@[simp] theorem setSwitch_flash (i : Nat) (v : Switch) : (s.setSwitch i v).flash = s.flash := rfl
@[simp] theorem setSwitch_upd (i : Nat) (v : Switch) : (s.setSwitch i v).upd = s.upd := rfl
@[simp] theorem setSwitch_hst (i : Nat) (v : Switch) : (s.setSwitch i v).hst = s.hst := rfl

/-! ### setRule -/

@[simp] theorem setRule_pending (r : Nat) (v : Rule) : (s.setRule r v).pending = s.pending := rfl
@[simp] theorem setRule_regs (r : Nat) (v : Rule) : (s.setRule r v).regs = s.regs := rfl
@[simp] theorem setRule_acc (r : Nat) (v : Rule) : (s.setRule r v).acc = s.acc := rfl
@[simp] theorem setRule_sup (r : Nat) (v : Rule) : (s.setRule r v).sup = s.sup := rfl
@[simp] theorem setRule_ports (r : Nat) (v : Rule) : (s.setRule r v).ports = s.ports := rfl
@[simp] theorem setRule_engines (r : Nat) (v : Rule) : (s.setRule r v).engines = s.engines := rfl
@[simp] theorem setRule_seq (r : Nat) (v : Rule) : (s.setRule r v).seq = s.seq := rfl
@[simp] theorem setRule_imps (r : Nat) (v : Rule) : (s.setRule r v).imps = s.imps := rfl
@[simp] theorem setRule_banks (r : Nat) (v : Rule) : (s.setRule r v).banks = s.banks := rfl
@[simp] theorem setRule_checks (r : Nat) (v : Rule) : (s.setRule r v).checks = s.checks := rfl
@[simp] theorem setRule_cal (r : Nat) (v : Rule) : (s.setRule r v).cal = s.cal := rfl
@[simp] theorem setRule_scans (r : Nat) (v : Rule) : (s.setRule r v).scans = s.scans := rfl
@[simp] theorem setRule_places (r : Nat) (v : Rule) : (s.setRule r v).places = s.places := rfl
@[simp] theorem setRule_evalDue (r : Nat) (v : Rule) : (s.setRule r v).evalDue = s.evalDue := rfl
@[simp] theorem setRule_caps (r : Nat) (v : Rule) : (s.setRule r v).caps = s.caps := rfl
@[simp] theorem setRule_spe (r : Nat) (v : Rule) : (s.setRule r v).spe = s.spe := rfl
@[simp] theorem setRule_tim (r : Nat) (v : Rule) : (s.setRule r v).tim = s.tim := rfl
@[simp] theorem setRule_fab (r : Nat) (v : Rule) : (s.setRule r v).fab = s.fab := rfl
@[simp] theorem setRule_frames (r : Nat) (v : Rule) : (s.setRule r v).frames = s.frames := rfl
@[simp] theorem setRule_lake (r : Nat) (v : Rule) : (s.setRule r v).lake = s.lake := rfl
@[simp] theorem setRule_sec (r : Nat) (v : Rule) : (s.setRule r v).sec = s.sec := rfl
@[simp] theorem setRule_glz (r : Nat) (v : Rule) : (s.setRule r v).glz = s.glz := rfl
@[simp] theorem setRule_int (r : Nat) (v : Rule) : (s.setRule r v).int = s.int := rfl
@[simp] theorem setRule_pwr (r : Nat) (v : Rule) : (s.setRule r v).pwr = s.pwr := rfl
@[simp] theorem setRule_thm (r : Nat) (v : Rule) : (s.setRule r v).thm = s.thm := rfl
@[simp] theorem setRule_hist (r : Nat) (v : Rule) : (s.setRule r v).hist = s.hist := rfl
@[simp] theorem setRule_flash (r : Nat) (v : Rule) : (s.setRule r v).flash = s.flash := rfl
@[simp] theorem setRule_upd (r : Nat) (v : Rule) : (s.setRule r v).upd = s.upd := rfl
@[simp] theorem setRule_hst (r : Nat) (v : Rule) : (s.setRule r v).hst = s.hst := rfl

/-! ### setAlmOut -/

@[simp] theorem setAlmOut_pending (n : Nat) (v : AlmOut) : (s.setAlmOut n v).pending = s.pending := rfl
@[simp] theorem setAlmOut_regs (n : Nat) (v : AlmOut) : (s.setAlmOut n v).regs = s.regs := rfl
@[simp] theorem setAlmOut_acc (n : Nat) (v : AlmOut) : (s.setAlmOut n v).acc = s.acc := rfl
@[simp] theorem setAlmOut_sup (n : Nat) (v : AlmOut) : (s.setAlmOut n v).sup = s.sup := rfl
@[simp] theorem setAlmOut_ports (n : Nat) (v : AlmOut) : (s.setAlmOut n v).ports = s.ports := rfl
@[simp] theorem setAlmOut_engines (n : Nat) (v : AlmOut) : (s.setAlmOut n v).engines = s.engines := rfl
@[simp] theorem setAlmOut_seq (n : Nat) (v : AlmOut) : (s.setAlmOut n v).seq = s.seq := rfl
@[simp] theorem setAlmOut_imps (n : Nat) (v : AlmOut) : (s.setAlmOut n v).imps = s.imps := rfl
@[simp] theorem setAlmOut_banks (n : Nat) (v : AlmOut) : (s.setAlmOut n v).banks = s.banks := rfl
@[simp] theorem setAlmOut_checks (n : Nat) (v : AlmOut) : (s.setAlmOut n v).checks = s.checks := rfl
@[simp] theorem setAlmOut_cal (n : Nat) (v : AlmOut) : (s.setAlmOut n v).cal = s.cal := rfl
@[simp] theorem setAlmOut_scans (n : Nat) (v : AlmOut) : (s.setAlmOut n v).scans = s.scans := rfl
@[simp] theorem setAlmOut_places (n : Nat) (v : AlmOut) : (s.setAlmOut n v).places = s.places := rfl
@[simp] theorem setAlmOut_evalDue (n : Nat) (v : AlmOut) : (s.setAlmOut n v).evalDue = s.evalDue := rfl
@[simp] theorem setAlmOut_caps (n : Nat) (v : AlmOut) : (s.setAlmOut n v).caps = s.caps := rfl
@[simp] theorem setAlmOut_spe (n : Nat) (v : AlmOut) : (s.setAlmOut n v).spe = s.spe := rfl
@[simp] theorem setAlmOut_tim (n : Nat) (v : AlmOut) : (s.setAlmOut n v).tim = s.tim := rfl
@[simp] theorem setAlmOut_fab (n : Nat) (v : AlmOut) : (s.setAlmOut n v).fab = s.fab := rfl
@[simp] theorem setAlmOut_frames (n : Nat) (v : AlmOut) : (s.setAlmOut n v).frames = s.frames := rfl
@[simp] theorem setAlmOut_lake (n : Nat) (v : AlmOut) : (s.setAlmOut n v).lake = s.lake := rfl
@[simp] theorem setAlmOut_sec (n : Nat) (v : AlmOut) : (s.setAlmOut n v).sec = s.sec := rfl
@[simp] theorem setAlmOut_glz (n : Nat) (v : AlmOut) : (s.setAlmOut n v).glz = s.glz := rfl
@[simp] theorem setAlmOut_int (n : Nat) (v : AlmOut) : (s.setAlmOut n v).int = s.int := rfl
@[simp] theorem setAlmOut_pwr (n : Nat) (v : AlmOut) : (s.setAlmOut n v).pwr = s.pwr := rfl
@[simp] theorem setAlmOut_thm (n : Nat) (v : AlmOut) : (s.setAlmOut n v).thm = s.thm := rfl
@[simp] theorem setAlmOut_hist (n : Nat) (v : AlmOut) : (s.setAlmOut n v).hist = s.hist := rfl
@[simp] theorem setAlmOut_flash (n : Nat) (v : AlmOut) : (s.setAlmOut n v).flash = s.flash := rfl
@[simp] theorem setAlmOut_upd (n : Nat) (v : AlmOut) : (s.setAlmOut n v).upd = s.upd := rfl
@[simp] theorem setAlmOut_hst (n : Nat) (v : AlmOut) : (s.setAlmOut n v).hst = s.hst := rfl

/-! ### setFport -/

@[simp] theorem setFport_pending (p : Nat) (v : FabPort) : (s.setFport p v).pending = s.pending := rfl
@[simp] theorem setFport_regs (p : Nat) (v : FabPort) : (s.setFport p v).regs = s.regs := rfl
@[simp] theorem setFport_acc (p : Nat) (v : FabPort) : (s.setFport p v).acc = s.acc := rfl
@[simp] theorem setFport_sup (p : Nat) (v : FabPort) : (s.setFport p v).sup = s.sup := rfl
@[simp] theorem setFport_ports (p : Nat) (v : FabPort) : (s.setFport p v).ports = s.ports := rfl
@[simp] theorem setFport_engines (p : Nat) (v : FabPort) : (s.setFport p v).engines = s.engines := rfl
@[simp] theorem setFport_seq (p : Nat) (v : FabPort) : (s.setFport p v).seq = s.seq := rfl
@[simp] theorem setFport_imps (p : Nat) (v : FabPort) : (s.setFport p v).imps = s.imps := rfl
@[simp] theorem setFport_banks (p : Nat) (v : FabPort) : (s.setFport p v).banks = s.banks := rfl
@[simp] theorem setFport_checks (p : Nat) (v : FabPort) : (s.setFport p v).checks = s.checks := rfl
@[simp] theorem setFport_cal (p : Nat) (v : FabPort) : (s.setFport p v).cal = s.cal := rfl
@[simp] theorem setFport_scans (p : Nat) (v : FabPort) : (s.setFport p v).scans = s.scans := rfl
@[simp] theorem setFport_places (p : Nat) (v : FabPort) : (s.setFport p v).places = s.places := rfl
@[simp] theorem setFport_evalDue (p : Nat) (v : FabPort) : (s.setFport p v).evalDue = s.evalDue := rfl
@[simp] theorem setFport_caps (p : Nat) (v : FabPort) : (s.setFport p v).caps = s.caps := rfl
@[simp] theorem setFport_spe (p : Nat) (v : FabPort) : (s.setFport p v).spe = s.spe := rfl
@[simp] theorem setFport_alm (p : Nat) (v : FabPort) : (s.setFport p v).alm = s.alm := rfl
@[simp] theorem setFport_tim (p : Nat) (v : FabPort) : (s.setFport p v).tim = s.tim := rfl
@[simp] theorem setFport_frames (p : Nat) (v : FabPort) : (s.setFport p v).frames = s.frames := rfl
@[simp] theorem setFport_lake (p : Nat) (v : FabPort) : (s.setFport p v).lake = s.lake := rfl
@[simp] theorem setFport_sec (p : Nat) (v : FabPort) : (s.setFport p v).sec = s.sec := rfl
@[simp] theorem setFport_glz (p : Nat) (v : FabPort) : (s.setFport p v).glz = s.glz := rfl
@[simp] theorem setFport_int (p : Nat) (v : FabPort) : (s.setFport p v).int = s.int := rfl
@[simp] theorem setFport_pwr (p : Nat) (v : FabPort) : (s.setFport p v).pwr = s.pwr := rfl
@[simp] theorem setFport_thm (p : Nat) (v : FabPort) : (s.setFport p v).thm = s.thm := rfl
@[simp] theorem setFport_hist (p : Nat) (v : FabPort) : (s.setFport p v).hist = s.hist := rfl
@[simp] theorem setFport_flash (p : Nat) (v : FabPort) : (s.setFport p v).flash = s.flash := rfl
@[simp] theorem setFport_upd (p : Nat) (v : FabPort) : (s.setFport p v).upd = s.upd := rfl
@[simp] theorem setFport_hst (p : Nat) (v : FabPort) : (s.setFport p v).hst = s.hst := rfl

/-! ### setSession -/

@[simp] theorem setSession_pending (v : Session) : (s.setSession v).pending = s.pending := rfl
@[simp] theorem setSession_regs (v : Session) : (s.setSession v).regs = s.regs := rfl
@[simp] theorem setSession_acc (v : Session) : (s.setSession v).acc = s.acc := rfl
@[simp] theorem setSession_sup (v : Session) : (s.setSession v).sup = s.sup := rfl
@[simp] theorem setSession_ports (v : Session) : (s.setSession v).ports = s.ports := rfl
@[simp] theorem setSession_engines (v : Session) : (s.setSession v).engines = s.engines := rfl
@[simp] theorem setSession_seq (v : Session) : (s.setSession v).seq = s.seq := rfl
@[simp] theorem setSession_imps (v : Session) : (s.setSession v).imps = s.imps := rfl
@[simp] theorem setSession_banks (v : Session) : (s.setSession v).banks = s.banks := rfl
@[simp] theorem setSession_checks (v : Session) : (s.setSession v).checks = s.checks := rfl
@[simp] theorem setSession_cal (v : Session) : (s.setSession v).cal = s.cal := rfl
@[simp] theorem setSession_scans (v : Session) : (s.setSession v).scans = s.scans := rfl
@[simp] theorem setSession_places (v : Session) : (s.setSession v).places = s.places := rfl
@[simp] theorem setSession_evalDue (v : Session) : (s.setSession v).evalDue = s.evalDue := rfl
@[simp] theorem setSession_caps (v : Session) : (s.setSession v).caps = s.caps := rfl
@[simp] theorem setSession_spe (v : Session) : (s.setSession v).spe = s.spe := rfl
@[simp] theorem setSession_alm (v : Session) : (s.setSession v).alm = s.alm := rfl
@[simp] theorem setSession_tim (v : Session) : (s.setSession v).tim = s.tim := rfl
@[simp] theorem setSession_frames (v : Session) : (s.setSession v).frames = s.frames := rfl
@[simp] theorem setSession_lake (v : Session) : (s.setSession v).lake = s.lake := rfl
@[simp] theorem setSession_sec (v : Session) : (s.setSession v).sec = s.sec := rfl
@[simp] theorem setSession_glz (v : Session) : (s.setSession v).glz = s.glz := rfl
@[simp] theorem setSession_int (v : Session) : (s.setSession v).int = s.int := rfl
@[simp] theorem setSession_pwr (v : Session) : (s.setSession v).pwr = s.pwr := rfl
@[simp] theorem setSession_thm (v : Session) : (s.setSession v).thm = s.thm := rfl
@[simp] theorem setSession_hist (v : Session) : (s.setSession v).hist = s.hist := rfl
@[simp] theorem setSession_flash (v : Session) : (s.setSession v).flash = s.flash := rfl
@[simp] theorem setSession_upd (v : Session) : (s.setSession v).upd = s.upd := rfl
@[simp] theorem setSession_hst (v : Session) : (s.setSession v).hst = s.hst := rfl

/-! ### setSource -/

@[simp] theorem setSource_pending (n : Nat) (v : Source) : (s.setSource n v).pending = s.pending := rfl
@[simp] theorem setSource_regs (n : Nat) (v : Source) : (s.setSource n v).regs = s.regs := rfl
@[simp] theorem setSource_acc (n : Nat) (v : Source) : (s.setSource n v).acc = s.acc := rfl
@[simp] theorem setSource_sup (n : Nat) (v : Source) : (s.setSource n v).sup = s.sup := rfl
@[simp] theorem setSource_ports (n : Nat) (v : Source) : (s.setSource n v).ports = s.ports := rfl
@[simp] theorem setSource_engines (n : Nat) (v : Source) : (s.setSource n v).engines = s.engines := rfl
@[simp] theorem setSource_seq (n : Nat) (v : Source) : (s.setSource n v).seq = s.seq := rfl
@[simp] theorem setSource_imps (n : Nat) (v : Source) : (s.setSource n v).imps = s.imps := rfl
@[simp] theorem setSource_banks (n : Nat) (v : Source) : (s.setSource n v).banks = s.banks := rfl
@[simp] theorem setSource_checks (n : Nat) (v : Source) : (s.setSource n v).checks = s.checks := rfl
@[simp] theorem setSource_cal (n : Nat) (v : Source) : (s.setSource n v).cal = s.cal := rfl
@[simp] theorem setSource_scans (n : Nat) (v : Source) : (s.setSource n v).scans = s.scans := rfl
@[simp] theorem setSource_places (n : Nat) (v : Source) : (s.setSource n v).places = s.places := rfl
@[simp] theorem setSource_evalDue (n : Nat) (v : Source) : (s.setSource n v).evalDue = s.evalDue := rfl
@[simp] theorem setSource_caps (n : Nat) (v : Source) : (s.setSource n v).caps = s.caps := rfl
@[simp] theorem setSource_spe (n : Nat) (v : Source) : (s.setSource n v).spe = s.spe := rfl
@[simp] theorem setSource_alm (n : Nat) (v : Source) : (s.setSource n v).alm = s.alm := rfl
@[simp] theorem setSource_tim (n : Nat) (v : Source) : (s.setSource n v).tim = s.tim := rfl
@[simp] theorem setSource_fab (n : Nat) (v : Source) : (s.setSource n v).fab = s.fab := rfl
@[simp] theorem setSource_frames (n : Nat) (v : Source) : (s.setSource n v).frames = s.frames := rfl
@[simp] theorem setSource_lake (n : Nat) (v : Source) : (s.setSource n v).lake = s.lake := rfl
@[simp] theorem setSource_sec (n : Nat) (v : Source) : (s.setSource n v).sec = s.sec := rfl
@[simp] theorem setSource_glz (n : Nat) (v : Source) : (s.setSource n v).glz = s.glz := rfl
@[simp] theorem setSource_pwr (n : Nat) (v : Source) : (s.setSource n v).pwr = s.pwr := rfl
@[simp] theorem setSource_thm (n : Nat) (v : Source) : (s.setSource n v).thm = s.thm := rfl
@[simp] theorem setSource_hist (n : Nat) (v : Source) : (s.setSource n v).hist = s.hist := rfl
@[simp] theorem setSource_flash (n : Nat) (v : Source) : (s.setSource n v).flash = s.flash := rfl
@[simp] theorem setSource_upd (n : Nat) (v : Source) : (s.setSource n v).upd = s.upd := rfl
@[simp] theorem setSource_hst (n : Nat) (v : Source) : (s.setSource n v).hst = s.hst := rfl

/-! ### What a read after an update gives -/

/-- Reading a word after a write to any. -/
theorem reg_setReg (a b : Nat) (v : Word) : (s.setReg a v).reg b = if b = a then v else s.reg b := by
  unfold State.reg State.setReg
  by_cases h : b = a
  · subst h
    simp
  · simp only [h, if_false]
    exact kget_kset_other _ _ _ _ _ _ h

@[simp] theorem reg_setReg_same (a : Nat) (v : Word) : (s.setReg a v).reg a = v := by simp [reg_setReg]

@[simp] theorem reg_setFld_same (a l w v : Nat) : (s.setFld a l w v).reg a = setBits (s.reg a) l w v := by
  simp [State.setFld]

@[simp] theorem reg_orReg_same (a : Nat) (m : Word) : (s.orReg a m).reg a = s.reg a ||| m := by simp [State.orReg]

@[simp] theorem reg_clearReg_same (a : Nat) (m : Word) : (s.clearReg a m).reg a = s.reg a &&& ~~~ m := by
  simp [State.clearReg]

@[simp] theorem reg_stick_same (k : PageKind) (i n : Nat) :
    (s.stick k i n).reg (ra k i 0x010) = s.reg (ra k i 0x010) ||| bitW n := by simp [State.stick]

@[simp] theorem port_setPort_same (c : Nat) (p : Port) : (s.setPort c p).port c = p := by simp [State.port, State.setPort]

theorem port_setPort_other (c : Nat) (p : Port) (j : Nat) (h : j ≠ c) : (s.setPort c p).port j = s.port j := by
  simp [State.port, State.setPort, kget_kset_other _ _ _ _ _ _ h]

@[simp] theorem engine_setEngine_same (c : Nat) (p : Engine) : (s.setEngine c p).engine c = p := by simp [State.engine, State.setEngine]

theorem engine_setEngine_other (c : Nat) (p : Engine) (j : Nat) (h : j ≠ c) : (s.setEngine c p).engine j = s.engine j := by
  simp [State.engine, State.setEngine, kget_kset_other _ _ _ _ _ _ h]

@[simp] theorem imp_setImp_same (c : Nat) (p : ImpEngine) : (s.setImp c p).imp c = p := by simp [State.imp, State.setImp]

theorem imp_setImp_other (c : Nat) (p : ImpEngine) (j : Nat) (h : j ≠ c) : (s.setImp c p).imp j = s.imp j := by
  simp [State.imp, State.setImp, kget_kset_other _ _ _ _ _ _ h]

@[simp] theorem bank_setBank_same (c : Nat) (p : Bank) : (s.setBank c p).bank c = p := by simp [State.bank, State.setBank]

theorem bank_setBank_other (c : Nat) (p : Bank) (j : Nat) (h : j ≠ c) : (s.setBank c p).bank j = s.bank j := by
  simp [State.bank, State.setBank, kget_kset_other _ _ _ _ _ _ h]

@[simp] theorem check_setCheck_same (c : Nat) (p : Check) : (s.setCheck c p).check c = p := by simp [State.check, State.setCheck]

theorem check_setCheck_other (c : Nat) (p : Check) (j : Nat) (h : j ≠ c) : (s.setCheck c p).check j = s.check j := by
  simp [State.check, State.setCheck, kget_kset_other _ _ _ _ _ _ h]

@[simp] theorem scan_setScan_same (c : Nat) (p : Scan) : (s.setScan c p).scan c = p := by simp [State.scan, State.setScan]

theorem scan_setScan_other (c : Nat) (p : Scan) (j : Nat) (h : j ≠ c) : (s.setScan c p).scan j = s.scan j := by
  simp [State.scan, State.setScan, kget_kset_other _ _ _ _ _ _ h]

@[simp] theorem place_setPlace_same (c : Nat) (p : Place) : (s.setPlace c p).place c = p := by simp [State.place, State.setPlace]

theorem place_setPlace_other (c : Nat) (p : Place) (j : Nat) (h : j ≠ c) : (s.setPlace c p).place j = s.place j := by
  simp [State.place, State.setPlace, kget_kset_other _ _ _ _ _ _ h]

@[simp] theorem stream_setStream_same (c : Nat) (p : Stream) : (s.setStream c p).stream c = p := by simp [State.stream, State.setStream]

theorem stream_setStream_other (c : Nat) (p : Stream) (j : Nat) (h : j ≠ c) : (s.setStream c p).stream j = s.stream j := by
  simp [State.stream, State.setStream, kget_kset_other _ _ _ _ _ _ h]

@[simp] theorem switch_setSwitch_same (c : Nat) (p : Switch) : (s.setSwitch c p).switch c = p := by simp [State.switch, State.setSwitch]

theorem switch_setSwitch_other (c : Nat) (p : Switch) (j : Nat) (h : j ≠ c) : (s.setSwitch c p).switch j = s.switch j := by
  simp [State.switch, State.setSwitch, kget_kset_other _ _ _ _ _ _ h]

@[simp] theorem rule_setRule_same (c : Nat) (p : Rule) : (s.setRule c p).rule c = p := by simp [State.rule, State.setRule]

theorem rule_setRule_other (c : Nat) (p : Rule) (j : Nat) (h : j ≠ c) : (s.setRule c p).rule j = s.rule j := by
  simp [State.rule, State.setRule, kget_kset_other _ _ _ _ _ _ h]

@[simp] theorem almOut_setAlmOut_same (c : Nat) (p : AlmOut) : (s.setAlmOut c p).almOut c = p := by simp [State.almOut, State.setAlmOut]

theorem almOut_setAlmOut_other (c : Nat) (p : AlmOut) (j : Nat) (h : j ≠ c) : (s.setAlmOut c p).almOut j = s.almOut j := by
  simp [State.almOut, State.setAlmOut, kget_kset_other _ _ _ _ _ _ h]

@[simp] theorem fport_setFport_same (c : Nat) (p : FabPort) : (s.setFport c p).fport c = p := by simp [State.fport, State.setFport]

theorem fport_setFport_other (c : Nat) (p : FabPort) (j : Nat) (h : j ≠ c) : (s.setFport c p).fport j = s.fport j := by
  simp [State.fport, State.setFport, kget_kset_other _ _ _ _ _ _ h]

@[simp] theorem source_setSource_same (c : Nat) (p : Source) : (s.setSource c p).source c = p := by simp [State.source, State.setSource]

theorem source_setSource_other (c : Nat) (p : Source) (j : Nat) (h : j ≠ c) : (s.setSource c p).source j = s.source j := by
  simp [State.source, State.setSource, kget_kset_other _ _ _ _ _ _ h]

end Sys2Proof.Machine
end

