-- ==== Sys2Proof/Laws/Gate.lean ====
section
/-! SUPPORT. What a gated write and a gated read do where nothing stands in their way. -/

namespace Sys2Proof.Machine
open Sys2Proof

variable {s u : State} {a : Acc} {addr req : Nat} {val : Word}

theorem and_allOnes (w : Word) : w &&& allOnes = w := by
  unfold allOnes
  exact BitVec.and_allOnes

/-- An owner requester uses no tenant's window. -/
theorem owner_no_tenant (h : s.ownerReq req = true) : s.tenantOf req = none := by
  unfold State.ownerReq at h
  unfold State.tenantOf
  rcases hx : s.reqSession req with _ | x
  · simp [hx] at h
    rcases h with h | h <;> subst h <;> simp
  · have h8 : 0x8000 ≤ req := by
      unfold State.reqSession at hx
      split at hx
      · rename_i h; exact h.1
      · cases hx
    have hn : ¬(req = 0) ∧ ¬(req = 1) ∧ ¬(0x0100 ≤ req ∧ req ≤ 0x017F) := by omega
    simp [hx, hn.1, hn.2.1] at h
    simp [hn.2.2, h]

theorem guarded_passes (h : s.Passes a addr val false u) (act : State → Word → State) :
    s.guarded a addr val act = act u val := by
  unfold State.guarded
  rw [h]
  simp [and_allOnes]

/-- A write that passes with some of its bits acts with them. -/
theorem guarded_act {m : Word} (h : (s.accept a).gate a.req.toNat addr val false = .act u m)
    (act : State → Word → State) : s.guarded a addr val act = act u (val &&& m) := by
  unfold State.guarded
  rw [h]

theorem guardedRead_reads (h : s.Reads a addr) (act : State → State) :
    s.guardedRead a addr act = act (s.accept a) := by
  unfold State.Reads State.sees at h
  unfold State.guardedRead
  simp only [Bool.and_eq_true] at h
  obtain ⟨⟨h1, h2⟩, h3⟩ := h
  simp only [h1, h2, Bool.not_true, Bool.or_self, Bool.false_eq_true, if_false]
  split
  · rfl
  · rename_i t ht
    rw [ht] at h3
    simp only [Bool.and_eq_true, bne_iff_ne, ne_eq] at h3
    obtain ⟨w, hw⟩ := Option.isSome_iff_exists.mp h3.1
    simp only [hw]
    rw [if_neg h3.2]

theorem writeBy_passes (h : s.Passes a addr val (addr % 0x1000 = 0x018 || isW1c addr) u) :
    s.writeBy a addr val = u.actWrite a.req.toNat addr val allOnes false u.tim.due := by
  unfold State.writeBy State.write32
  rw [h]

end Sys2Proof.Machine
end

