-- ==== Sys2Proof/Laws/Inv.lean ====
section
/-! SUPPORT. How the invariant of Safety.lean passes through the constructions that every meaning is built from: the
record update, the choice, the loop. Laws/Keep*.lean add one lemma per function of the model. -/

namespace Sys2Proof.Machine
open Sys2Proof

variable {q : List Instr} {s t : State}

/-- An update of any field but the queue and the registers. -/
theorem keeps_of (h : s.Keeps q) (hp : t.pending = s.pending) (hr : t.regs = s.regs) : t.Keeps q :=
  ⟨hp.trans h.queue, by rw [hr]; exact h.wf⟩

theorem keeps_if (c : Prop) [Decidable c] (h1 : s.Keeps q) (h2 : t.Keeps q) : (if c then s else t).Keeps q := by
  split <;> assumption

theorem keeps_step {p : Prop} (h1 : s.Keeps q) (h2 : s.Keeps q → p) : p := h2 h1

theorem setReg_keeps (h : s.Keeps q) (a : Nat) (v : Word) : (s.setReg a v).Keeps q :=
  ⟨h.queue, kWf_kset regReset s.regs a v h.wf⟩

theorem each_keeps {α : Type} (h : s.Keeps q) (l : List α) (f : State → α → State)
    (hf : ∀ t, t.Keeps q → ∀ x, (f t x).Keeps q) : (s.each l f).Keeps q := by
  unfold State.each
  induction l generalizing s with
  | nil => exact h
  | cons x l ih => exact ih (hf s h x)

theorem upTo_keeps (h : s.Keeps q) (n : Nat) (f : State → Nat → State)
    (hf : ∀ t, t.Keeps q → ∀ x, (f t x).Keeps q) : (s.upTo n f).Keeps q := each_keeps h _ f hf

/-- A meaning that answers a next state of the form. -/
def OutKeeps (o : Out) (q : List Instr) : Prop := ∃ t, o = .next t ∧ t.Keeps q

theorem out_keeps (h : s.Keeps q) : OutKeeps (.next s) q := ⟨s, rfl, h⟩

end Sys2Proof.Machine
end

