-- ==== Sys2Proof/Laws/Keep1.lean ====
section
/-! SUPPORT. One lemma per function of the model, in the order in which they call one another (part 1 of 4): each keeps the
commands that wait and the canonical form of the register space. -/

set_option linter.all false

namespace Sys2Proof.Machine
open Sys2Proof

variable {q : List Instr} {s t : State}

theorem setFld_keeps (h : s.Keeps q) (x1 : ℕ) (x2 : ℕ) (x3 : ℕ) (x4 : ℕ) : (State.setFld s x1 x2 x3 x4).Keeps q := by
  unfold State.setFld
  repeat' first
    | with_reducible assumption
    | with_reducible exact ⟨h.queue, h.wf⟩
    | with_reducible apply setReg_keeps
    | split

theorem countWrap_keeps (h : s.Keeps q) (x1 : ℕ) (x2 : ℕ) (x3 : ℕ) (x4 : ℕ) : (State.countWrap s x1 x2 x3 x4).Keeps q := by
  unfold State.countWrap
  repeat' first
    | with_reducible assumption
    | with_reducible exact ⟨h.queue, h.wf⟩
    | with_reducible apply setFld_keeps
    | split

theorem countUnmapped_keeps (h : s.Keeps q) (x1 : ℕ) : (State.countUnmapped s x1).Keeps q := by
  unfold State.countUnmapped
  repeat' first
    | with_reducible assumption
    | with_reducible exact ⟨h.queue, h.wf⟩
    | with_reducible apply countWrap_keeps
    | split

theorem answerWith_keeps (h : s.Keeps q) (x1 : Answer) : (State.answerWith s x1).Keeps q := ⟨h.queue, h.wf⟩

theorem notNow_keeps (h : s.Keeps q) (x1 : Answer) : (State.notNow s x1).Keeps q := ⟨h.queue, h.wf⟩

theorem elapse_keeps (h : s.Keeps q) (x1 : ℕ) : (State.elapse s x1).Keeps q := by
  unfold State.elapse
  repeat' first
    | with_reducible assumption
    | with_reducible exact ⟨h.queue, h.wf⟩
    | split

theorem leaveIdle_keeps (h : s.Keeps q) : (State.leaveIdle s).Keeps q := by
  unfold State.leaveIdle
  repeat' first
    | with_reducible assumption
    | with_reducible exact ⟨h.queue, h.wf⟩
    | with_reducible apply pwrMark_keeps
    | split

theorem wakeRecord_keeps (h : s.Keeps q) (x1 : ℕ) : (State.wakeRecord s x1).Keeps q := by
  unfold State.wakeRecord
  repeat' first
    | with_reducible assumption
    | with_reducible exact ⟨h.queue, h.wf⟩
    | with_reducible apply setReg_keeps
    | split

theorem beginWake_keeps (h : s.Keeps q) (x1 : ℕ) : (State.beginWake s x1).Keeps q := by
  unfold State.beginWake
  repeat' first
    | with_reducible assumption
    | (intro x; refine keeps_step (q := q) (s := x) ?_ ?_; rotate_left; intro hx; clear_value x; rotate_right)
    | (intro x; clear_value x)
    | intro x (hx : State.Keeps x q)
    | intro x
    | lift_lets
    | simp only [x]
    | with_reducible exact ⟨hx.queue, hx.wf⟩
    | with_reducible exact ⟨h.queue, h.wf⟩
    | with_reducible apply setFld_keeps
    | with_reducible apply wakeRecord_keeps
    | split

theorem hostWake_keeps (h : s.Keeps q) (x1 : ℕ) : (State.hostWake s x1).Keeps q := by
  unfold State.hostWake
  repeat' first
    | with_reducible assumption
    | with_reducible exact ⟨h.queue, h.wf⟩
    | with_reducible apply beginWake_keeps
    | split

theorem accept_keeps (h : s.Keeps q) (x1 : Acc) : (State.accept s x1).Keeps q := by
  unfold State.accept
  repeat' first
    | with_reducible assumption
    | with_reducible exact ⟨h.queue, h.wf⟩
    | with_reducible apply hostWake_keeps
    | with_reducible apply leaveIdle_keeps
    | with_reducible apply elapse_keeps
    | split

theorem orReg_keeps (h : s.Keeps q) (x1 : ℕ) (x2 : Word) : (State.orReg s x1 x2).Keeps q := by
  unfold State.orReg
  repeat' first
    | with_reducible assumption
    | with_reducible exact ⟨h.queue, h.wf⟩
    | with_reducible apply setReg_keeps
    | split

theorem stick_keeps (h : s.Keeps q) (x1 : PageKind) (x2 : ℕ) (x3 : ℕ) : (State.stick s x1 x2 x3).Keeps q := by
  unfold State.stick
  repeat' first
    | with_reducible assumption
    | with_reducible exact ⟨h.queue, h.wf⟩
    | with_reducible apply orReg_keeps
    | split

theorem maskAnswer_keeps (h : s.Keeps q) (x1 : Word) : (State.maskAnswer s x1).Keeps q := by
  unfold State.maskAnswer
  repeat' first
    | with_reducible assumption
    | with_reducible exact ⟨h.queue, h.wf⟩
    | with_reducible apply answerWith_keeps
    | split

theorem loadShadow_keeps (h : s.Keeps q) (x1 : ℕ) (x2 : Bool) : (State.loadShadow s x1 x2).Keeps q := ⟨h.queue, h.wf⟩

theorem readFracLo_keeps (h : s.Keeps q) (x1 : ℕ) : (State.readFracLo s x1).Keeps q := by
  unfold State.readFracLo
  repeat' first
    | with_reducible assumption
    | with_reducible exact ⟨h.queue, h.wf⟩
    | with_reducible apply answerWith_keeps
    | with_reducible apply loadShadow_keeps
    | split

theorem setSource_keeps (h : s.Keeps q) (x1 : ℕ) (x2 : Source) : (State.setSource s x1 x2).Keeps q := ⟨h.queue, h.wf⟩

theorem claim_keeps (h : s.Keeps q) (x1 : ℕ) (x2 : Bool) : (State.claim s x1 x2).Keeps q := by
  unfold State.claim
  repeat' first
    | with_reducible assumption
    | with_reducible exact ⟨h.queue, h.wf⟩
    | with_reducible apply answerWith_keeps
    | with_reducible apply setSource_keeps
    | split

theorem readClear_keeps (h : s.Keeps q) (x1 : ℕ) : (State.readClear s x1).Keeps q := by
  unfold State.readClear
  repeat' first
    | with_reducible assumption
    | with_reducible exact ⟨h.queue, h.wf⟩
    | with_reducible apply setReg_keeps
    | with_reducible apply answerWith_keeps
    | split

theorem endLatch_keeps (h : s.Keeps q) (x1 : ℕ) (x2 : ℕ) : (State.endLatch s x1 x2).Keeps q := ⟨h.queue, h.wf⟩

theorem readPair_keeps (h : s.Keeps q) (x1 : ℕ) (x2 : Pair) (x3 : ℕ) : (State.readPair s x1 x2 x3).Keeps q := by
  unfold State.readPair
  repeat' first
    | with_reducible assumption
    | (intro x; refine keeps_step (q := q) (s := x) ?_ ?_; rotate_left; intro hx; clear_value x; rotate_right)
    | (intro x; clear_value x)
    | intro x (hx : State.Keeps x q)
    | intro x
    | lift_lets
    | simp only [x]
    | with_reducible exact ⟨hx.queue, hx.wf⟩
    | with_reducible exact ⟨h.queue, h.wf⟩
    | with_reducible apply endLatch_keeps
    | with_reducible apply answerWith_keeps
    | split

theorem readWord_keeps (h : s.Keeps q) (x1 : ℕ) (x2 : ℕ) : (State.readWord s x1 x2).Keeps q := by
  unfold State.readWord
  dsimp only
  repeat' first
    | with_reducible assumption
    | with_reducible exact ⟨h.queue, h.wf⟩
    | with_reducible apply answerWith_keeps
    | with_reducible apply readPair_keeps
    | with_reducible apply readClear_keeps
    | with_reducible apply claim_keeps
    | with_reducible apply readFracLo_keeps
    | split

theorem guardedRead_keeps (h : s.Keeps q) (a : Acc) (addr : Nat) (act : State → State)
    (hact : ∀ {t : State}, t.Keeps q → (act t).Keeps q) : (s.guardedRead a addr act).Keeps q := by
  unfold State.guardedRead
  dsimp only
  have ha := accept_keeps h a
  split
  · exact ⟨ha.queue, ha.wf⟩
  · split
    · exact hact ha
    · split
      · exact keeps_of (countUnmapped_keeps ha _) rfl rfl
      · split
        · exact ⟨ha.queue, ha.wf⟩
        · exact hact ha

theorem readFor_keeps (h : s.Keeps q) (x1 : Acc) (x2 : ℕ) : (State.readFor s x1 x2).Keeps q := by
  unfold State.readFor
  refine guardedRead_keeps h _ _ _ fun ht => ?_
  dsimp only
  split
  · exact readWord_keeps ht _ _
  · exact maskAnswer_keeps (readWord_keeps ht _ _) _

theorem setStream_keeps (h : s.Keeps q) (x1 : ℕ) (x2 : Stream) : (State.setStream s x1 x2).Keeps q := by
  unfold State.setStream
  repeat' first
    | with_reducible assumption
    | (intro x; refine keeps_step (q := q) (s := x) ?_ ?_; rotate_left; intro hx; clear_value x; rotate_right)
    | (intro x; clear_value x)
    | intro x (hx : State.Keeps x q)
    | intro x
    | lift_lets
    | simp only [x]
    | with_reducible exact ⟨hx.queue, hx.wf⟩
    | with_reducible exact ⟨h.queue, h.wf⟩
    | split

theorem countSat_keeps (h : s.Keeps q) (x1 : ℕ) (x2 : ℕ) : (State.countSat s x1 x2).Keeps q := by
  unfold State.countSat
  repeat' first
    | with_reducible assumption
    | with_reducible exact ⟨h.queue, h.wf⟩
    | with_reducible apply setReg_keeps
    | split

theorem setFport_keeps (h : s.Keeps q) (x1 : ℕ) (x2 : FabPort) : (State.setFport s x1 x2).Keeps q := ⟨h.queue, h.wf⟩

theorem queueOn_keeps (h : s.Keeps q) (x1 : ℕ) (x2 : List TxFrag) : (State.queueOn s x1 x2).Keeps q := by
  unfold State.queueOn
  dsimp only
  repeat' first
    | with_reducible assumption
    | with_reducible exact ⟨h.queue, h.wf⟩
    | with_reducible apply setFport_keeps
    | with_reducible apply setFld_keeps
    | with_reducible apply stick_keeps
    | split

theorem sendOn_keeps (h : s.Keeps q) (x1 : ℕ) (x2 : ℕ) (x3 : ℕ) (x4 : ℕ) (x5 : ℕ) (x6 : List ℤ) (x7 : ℕ) : (State.sendOn s x1 x2 x3 x4 x5 x6 x7).Keeps q := by
  unfold State.sendOn
  repeat' first
    | with_reducible assumption
    | with_reducible exact ⟨h.queue, h.wf⟩
    | with_reducible apply queueOn_keeps
    | split

theorem countDrop_keeps (h : s.Keeps q) (x1 : ℕ) : (State.countDrop s x1).Keeps q := by
  unfold State.countDrop
  repeat' first
    | with_reducible assumption
    | with_reducible exact ⟨h.queue, h.wf⟩
    | with_reducible apply countSat_keeps
    | split

theorem routeDrop_keeps (h : s.Keeps q) (x1 : ℕ) : (State.routeDrop s x1).Keeps q := by
  unfold State.routeDrop
  repeat' first
    | with_reducible assumption
    | with_reducible exact ⟨h.queue, h.wf⟩
    | with_reducible apply countDrop_keeps
    | split

theorem sendTo_keeps (h : s.Keeps q) (x1 : ℕ) (x2 : ℕ) (x3 : ℕ) (x4 : ℕ) (x5 : List ℤ) (x6 : ℕ) : (State.sendTo s x1 x2 x3 x4 x5 x6).Keeps q := by
  unfold State.sendTo
  repeat' first
    | with_reducible assumption
    | with_reducible exact ⟨h.queue, h.wf⟩
    | with_reducible apply sendOn_keeps
    | with_reducible apply stick_keeps
    | with_reducible apply routeDrop_keeps
    | split

theorem sendSession_keeps (h : s.Keeps q) (x1 : Session) (x2 : ℕ) (x3 : ℕ) (x4 : List ℤ) (x5 : ℕ) : (State.sendSession s x1 x2 x3 x4 x5).Keeps q := by
  unfold State.sendSession
  repeat' first
    | with_reducible assumption
    | with_reducible exact ⟨h.queue, h.wf⟩
    | with_reducible apply sendOn_keeps
    | with_reducible apply sendTo_keeps
    | split

theorem sendRecord_keeps (h : s.Keeps q) (x1 : Session) (x2 : ℕ) (x3 : Record) (x4 : Bool) : (State.sendRecord s x1 x2 x3 x4).Keeps q := by
  unfold State.sendRecord
  repeat' first
    | with_reducible assumption
    | with_reducible exact ⟨h.queue, h.wf⟩
    | with_reducible apply sendSession_keeps
    | split

theorem tellGiveUp_keeps (h : s.Keeps q) (x1 : ℕ × ℕ × ℕ × ℕ) : (State.tellGiveUp s x1).Keeps q := by
  unfold State.tellGiveUp
  dsimp only
  repeat' first
    | with_reducible assumption
    | with_reducible exact ⟨h.queue, h.wf⟩
    | with_reducible apply stick_keeps
    | with_reducible apply sendRecord_keeps
    | split

theorem observe_keeps (h : s.Keeps q) (x1 : Obs) : (State.observe s x1).Keeps q := ⟨h.queue, h.wf⟩

theorem markSent_keeps (h : s.Keeps q) (x1 : ℕ) (x2 : Record) : (State.markSent s x1 x2).Keeps q := ⟨h.queue, h.wf⟩

theorem setSession_keeps (h : s.Keeps q) (x1 : Session) : (State.setSession s x1).Keeps q := ⟨h.queue, h.wf⟩

theorem offer_keeps (h : s.Keeps q) (x1 : Session) (x2 : Record) (x3 : Bool) : (State.offer s x1 x2 x3).Keeps q := by
  unfold State.offer
  dsimp only
  repeat' first
    | with_reducible assumption
    | with_reducible exact ⟨h.queue, h.wf⟩
    | with_reducible apply sendRecord_keeps
    | with_reducible apply setSession_keeps
    | with_reducible apply markSent_keeps
    | split

theorem sendParts_keeps (h : s.Keeps q) (x1 : ℕ) (x2 : ℕ) (x3 : ℕ) (x4 : ℕ) (x5 : List ℤ) (x6 : List Byte) : (State.sendParts s x1 x2 x3 x4 x5 x6).Keeps q := by
  unfold State.sendParts
  repeat' first
    | with_reducible assumption
    | with_reducible exact ⟨h.queue, h.wf⟩
    | intro x (hx : State.Keeps x q)
    | intro x
    | with_reducible exact ⟨hx.queue, hx.wf⟩
    | with_reducible apply upTo_keeps
    | with_reducible apply sendTo_keeps
    | split

theorem setSeg_keeps (h : s.Keeps q) (x1 : Segment) : (State.setSeg s x1).Keeps q := ⟨h.queue, h.wf⟩

theorem dropSeg_keeps (h : s.Keeps q) (x1 : Segment) : (State.dropSeg s x1).Keeps q := by
  unfold State.dropSeg
  repeat' first
    | with_reducible assumption
    | (intro x; refine keeps_step (q := q) (s := x) ?_ ?_; rotate_left; intro hx; clear_value x; rotate_right)
    | (intro x; clear_value x)
    | intro x (hx : State.Keeps x q)
    | intro x
    | lift_lets
    | simp only [x]
    | with_reducible exact ⟨hx.queue, hx.wf⟩
    | with_reducible exact ⟨h.queue, h.wf⟩
    | with_reducible apply each_keeps
    | with_reducible apply sendTo_keeps
    | split

theorem pushSeg_keeps (h : s.Keeps q) (g : Segment) : (s.pushSeg g).1.Keeps q := by
  unfold State.pushSeg
  split
  · exact each_keeps h _ _ fun t ht x => sendParts_keeps ht _ _ _ _ _ _
  · exact h

theorem sealSeg_keeps (h : s.Keeps q) (g : Segment) : (s.sealSeg g).1.Keeps q := pushSeg_keeps h _

theorem makeRoom_keeps (h : s.Keeps q) (n : Nat) (b : Bool) : (s.makeRoom n b).1.Keeps q := by
  unfold State.makeRoom
  split
  · exact h
  · split
    · dsimp only
      split
      · exact dropSeg_keeps h _
      · exact stick_keeps (dropSeg_keeps h _) _ _ _
    · exact h

theorem lakeAppend_keeps (h : s.Keeps q) (r : Record) (c : Nat × Bool) : (s.lakeAppend r c).1.Keeps q := by
  unfold State.lakeAppend
  dsimp only
  have go : ∀ {r : State × Option Nat × GiveUps} {t : State} {n : Nat} {b : Bool}, t.Keeps q → t.makeRoom n b = r →
      r.1.Keeps q := fun ht e => e ▸ makeRoom_keeps ht _ _
  split
  · split
    · exact setSeg_keeps h _
    · split <;> rename_i heq
      · have hm := go (setSeg_keeps (sealSeg_keeps h _) _) heq
        exact ⟨hm.queue, hm.wf⟩
      · have hm := go (setSeg_keeps (sealSeg_keeps h _) _) heq
        dsimp only
        split
        · exact hm
        · exact stick_keeps hm _ _ _
  · split <;> rename_i heq
    · have hm := go h heq
      exact ⟨hm.queue, hm.wf⟩
    · have hm := go h heq
      dsimp only
      split
      · exact hm
      · exact stick_keeps hm _ _ _

theorem emitOne_keeps (h : s.Keeps q) (r : Record) (u : Bool) (c : Nat × Bool) : (s.emitOne r u c).1.Keeps q := by
  unfold State.emitOne
  lift_lets
  intro st mark moved r' s1 spe s2 p s3
  have h1 : s1.Keeps q := setStream_keeps h _ _
  have h2 : s2.Keeps q := ⟨h1.queue, h1.wf⟩
  have h3 : p.1.Keeps q := lakeAppend_keeps h2 _ _
  have h4 : s3.Keeps q := each_keeps h3 _ _ fun t ht x => offer_keeps ht _ _ _
  show State.Keeps (if _ then _ else _) q
  split
  · exact h4
  · exact observe_keeps h4 _

theorem emitWith_keeps (h : s.Keeps q) (x1 : ℕ) (x2 : Record) (x3 : Bool) (x4 : ℕ × Bool) : (State.emitWith s x1 x2 x3 x4).Keeps q := by
  induction x1 generalizing s x2 x3 x4 with
  | zero =>
    unfold State.emitWith
    exact each_keeps (emitOne_keeps h _ _ _) _ _ fun t ht g => tellGiveUp_keeps ht _
  | succ n ih =>
    unfold State.emitWith
    refine each_keeps (emitOne_keeps h _ _ _) _ _ fun t ht g => ?_
    exact each_keeps (tellGiveUp_keeps ht _) _ _ fun u hu i => ih hu _ _ _

theorem replayOut_keeps (h : s.Keeps q) (x1 : OutRec) : (State.replayOut s x1).Keeps q := ⟨h.queue, h.wf⟩

theorem sendOut_keeps (h : s.Keeps q) (x1 : OutRec) : (State.sendOut s x1).Keeps q := by
  unfold State.sendOut
  repeat' first
    | with_reducible assumption
    | with_reducible exact ⟨h.queue, h.wf⟩
    | with_reducible apply replayOut_keeps
    | with_reducible apply emitWith_keeps
    | split

theorem emitRecord_keeps (h : s.Keeps q) (x1 : ℕ) (x2 : ℕ) (x3 : ℕ) (x4 : Gather) (x5 : ℕ) (x6 : List ℤ) : (State.emitRecord s x1 x2 x3 x4 x5 x6).Keeps q := by
  unfold State.emitRecord
  repeat' first
    | with_reducible assumption
    | (intro x; refine keeps_step (q := q) (s := x) ?_ ?_; rotate_left; intro hx; clear_value x; rotate_right)
    | (intro x; clear_value x)
    | intro x (hx : State.Keeps x q)
    | intro x
    | lift_lets
    | simp only [x]
    | with_reducible exact ⟨hx.queue, hx.wf⟩
    | with_reducible exact ⟨h.queue, h.wf⟩
    | with_reducible apply setStream_keeps
    | with_reducible apply sendOut_keeps
    | split

theorem closeRecord_keeps (h : s.Keeps q) (x1 : ℕ) : (State.closeRecord s x1).Keeps q := by
  unfold State.closeRecord
  dsimp only
  repeat' first
    | with_reducible assumption
    | with_reducible exact ⟨h.queue, h.wf⟩
    | with_reducible apply setStream_keeps
    | with_reducible apply emitRecord_keeps
    | split

theorem sampleOut_keeps (h : s.Keeps q) (x1 : ℕ) (x2 : ℕ) (x3 : ℕ) (x4 : ℤ) (x5 : Gather) (x6 : Bool) : (State.sampleOut s x1 x2 x3 x4 x5 x6).Keeps q := by
  unfold State.sampleOut
  dsimp only
  repeat' first
    | with_reducible assumption
    | with_reducible exact ⟨h.queue, h.wf⟩
    | with_reducible apply observe_keeps
    | with_reducible apply closeRecord_keeps
    | with_reducible apply setStream_keeps
    | split

theorem lakStick_keeps (h : s.Keeps q) (x1 : ℕ) : (State.lakStick s x1).Keeps q := by
  unfold State.lakStick
  repeat' first
    | with_reducible assumption
    | with_reducible exact ⟨h.queue, h.wf⟩
    | with_reducible apply stick_keeps
    | split

theorem emit_keeps (h : s.Keeps q) (x1 : Record) (x2 : Bool) : (State.emit s x1 x2).Keeps q := by
  unfold State.emit
  repeat' first
    | with_reducible assumption
    | with_reducible exact ⟨h.queue, h.wf⟩
    | with_reducible apply emitWith_keeps
    | split

theorem waymarkAt_keeps (h : s.Keeps q) (x1 : ℕ) (x2 : ℕ) (x3 : List ℤ) : (State.waymarkAt s x1 x2 x3).Keeps q := by
  unfold State.waymarkAt
  repeat' first
    | with_reducible assumption
    | with_reducible exact ⟨h.queue, h.wf⟩
    | intro x (hx : State.Keeps x q)
    | intro x
    | with_reducible exact ⟨hx.queue, hx.wf⟩
    | with_reducible apply each_keeps
    | with_reducible apply emit_keeps
    | split

theorem waymark_keeps (h : s.Keeps q) (x1 : ℕ) (x2 : List ℤ) : (State.waymark s x1 x2).Keeps q := by
  unfold State.waymark
  repeat' first
    | with_reducible assumption
    | with_reducible exact ⟨h.queue, h.wf⟩
    | with_reducible apply waymarkAt_keeps
    | split

theorem conflict_keeps (h : s.Keeps q) (x1 : ℕ) (x2 : ℕ) : (State.conflict s x1 x2).Keeps q := by
  unfold State.conflict
  repeat' first
    | with_reducible assumption
    | with_reducible exact ⟨h.queue, h.wf⟩
    | with_reducible apply waymark_keeps
    | with_reducible apply lakStick_keeps
    | split

theorem addReplica_keeps (h : s.Keeps q) (x1 : ℕ) (x2 : SegCopy) (x3 : Bool) : (State.addReplica s x1 x2 x3).Keeps q := by
  unfold State.addReplica
  repeat' first
    | with_reducible assumption
    | with_reducible exact ⟨h.queue, h.wf⟩
    | with_reducible apply sendTo_keeps
    | split

theorem foreignCopy_keeps (h : s.Keeps q) (x1 : BitVec 14) (x2 : SegCopy) (x3 : Bool) : (State.foreignCopy s x1 x2 x3).Keeps q := by
  unfold State.foreignCopy
  dsimp only
  repeat' first
    | with_reducible assumption
    | intro x (hx : State.Keeps x q)
    | intro x
    | with_reducible exact ⟨hx.queue, hx.wf⟩
    | with_reducible exact ⟨h.queue, h.wf⟩
    | with_reducible apply addReplica_keeps
    | with_reducible apply sendTo_keeps
    | with_reducible apply conflict_keeps
    | (refine conflict_keeps ?_ _ _)
    | split

theorem deliverPast_keeps (h : s.Keeps q) (x1 : Segment) : (State.deliverPast s x1).Keeps q := by
  unfold State.deliverPast
  repeat' first
    | with_reducible assumption
    | with_reducible exact ⟨h.queue, h.wf⟩
    | intro x (hx : State.Keeps x q)
    | intro x
    | with_reducible exact ⟨hx.queue, hx.wf⟩
    | with_reducible apply each_keeps
    | with_reducible apply sendRecord_keeps
    | with_reducible apply markSent_keeps
    | split

theorem offerKept_keeps (h : s.Keeps q) (n : Nat) (recovered : Bool) (l : List Record) :
    (s.offerKept n recovered l).Keeps q := by
  induction l generalizing s with
  | nil => exact h
  | cons r t ih =>
    unfold State.offerKept
    split
    · exact h
    · rename_i x hx
      split
      · exact h
      · rename_i u hu
        have h1 := setSession_keeps h (x.setSub { u with next := r.seqNo })
        generalize s.setSession (x.setSub { u with next := r.seqNo }) = w at h1 ⊢
        dsimp only
        have h2 : State.Keeps (match w.session n with
          | some y => w.offer y r recovered
          | none => w) q := by
          split
          · exact offer_keeps h1 _ _ _
          · exact h1
        split
        · split
          · exact h2
          · exact ih h2
        · exact h2

theorem catchUp_keeps (h : s.Keeps q) (x1 : ℕ) (x2 : Bool) : (State.catchUp s x1 x2).Keeps q := by
  unfold State.catchUp
  split
  · exact h
  · exact each_keeps h _ _ fun t ht u => offerKept_keeps ht _ _ _

theorem catchUpAll_keeps (h : s.Keeps q) (x1 : Bool) : (State.catchUpAll s x1).Keeps q := by
  unfold State.catchUpAll
  repeat' first
    | with_reducible assumption
    | with_reducible exact ⟨h.queue, h.wf⟩
    | intro x (hx : State.Keeps x q)
    | intro x
    | with_reducible exact ⟨hx.queue, hx.wf⟩
    | with_reducible apply each_keeps
    | with_reducible apply catchUp_keeps
    | split

theorem deliverSeg_keeps (h : s.Keeps q) (x1 : Segment) : (State.deliverSeg s x1).Keeps q := by
  unfold State.deliverSeg
  repeat' first
    | with_reducible assumption
    | with_reducible exact ⟨h.queue, h.wf⟩
    | with_reducible apply catchUpAll_keeps
    | with_reducible apply deliverPast_keeps
    | split

theorem giveUp_keeps (h : s.Keeps q) (x1 : GiveUps) : (State.giveUp s x1).Keeps q := by
  unfold State.giveUp
  repeat' first
    | with_reducible assumption
    | with_reducible exact ⟨h.queue, h.wf⟩
    | intro x (hx : State.Keeps x q)
    | intro x
    | with_reducible exact ⟨hx.queue, hx.wf⟩
    | with_reducible apply each_keeps
    | with_reducible apply waymark_keeps
    | with_reducible apply tellGiveUp_keeps
    | split

theorem addRecovered_keeps (h : s.Keeps q) (x1 : SegCopy) (x2 : Bool) : (State.addRecovered s x1 x2).Keeps q := by
  unfold State.addRecovered
  dsimp only
  have hm := makeRoom_keeps h x1.tenant true
  split
  · exact giveUp_keeps hm _
  · split
    · exact giveUp_keeps (by exact ⟨hm.queue, hm.wf⟩) _
    · exact deliverSeg_keeps (giveUp_keeps (by exact ⟨hm.queue, hm.wf⟩) _) _

theorem ownCopy_keeps (h : s.Keeps q) (x1 : SegCopy) : (State.ownCopy s x1).Keeps q := by
  unfold State.ownCopy
  dsimp only
  repeat' first
    | with_reducible assumption
    | with_reducible exact ⟨h.queue, h.wf⟩
    | with_reducible apply addRecovered_keeps
    | with_reducible apply deliverSeg_keeps
    | with_reducible apply conflict_keeps
    | split

theorem liftNumbers_keeps (h : s.Keeps q) (x1 : ℕ) : (State.liftNumbers s x1).Keeps q := ⟨h.queue, h.wf⟩

theorem noOriginal_keeps (h : s.Keeps q) (x1 : ℕ) (x2 : ℕ) : (State.noOriginal s x1 x2).Keeps q := by
  unfold State.noOriginal
  dsimp only
  repeat' first
    | with_reducible assumption
    | with_reducible exact ⟨h.queue, h.wf⟩
    | with_reducible apply conflict_keeps
    | split

theorem topAnswer_keeps (h : s.Keeps q) (x1 : ℕ) : (State.topAnswer s x1).Keeps q := by
  unfold State.topAnswer
  repeat' first
    | with_reducible assumption
    | with_reducible exact ⟨h.queue, h.wf⟩
    | split

theorem endRecovery_keeps (h : s.Keeps q) (x1 : Segment) : (State.endRecovery s x1).Keeps q := by
  unfold State.endRecovery
  dsimp only
  repeat' first
    | with_reducible assumption
    | with_reducible exact ⟨h.queue, h.wf⟩
    | with_reducible apply lakStick_keeps
    | with_reducible apply giveUp_keeps
    | split

theorem holderAnswer_keeps (h : s.Keeps q) (x1 : ℕ) (x2 : ℕ) : (State.holderAnswer s x1 x2).Keeps q := by
  unfold State.holderAnswer
  dsimp only
  repeat' first
    | with_reducible assumption
    | with_reducible exact ⟨h.queue, h.wf⟩
    | with_reducible apply endRecovery_keeps
    | split

theorem coldReset_keeps (h : s.Keeps q) (x1 : ℕ) : (State.coldReset s x1).Keeps q := by
  unfold State.coldReset
  exact ⟨h.queue, kWf_filter _ _ _ h.wf⟩

theorem updStick_keeps (h : s.Keeps q) (x1 : ℕ) : (State.updStick s x1).Keeps q := by
  unfold State.updStick
  repeat' first
    | with_reducible assumption
    | with_reducible exact ⟨h.queue, h.wf⟩
    | with_reducible apply stick_keeps
    | split

theorem rollbackReset_keeps (h : s.Keeps q) : (State.rollbackReset s).Keeps q := by
  unfold State.rollbackReset
  repeat' first
    | with_reducible assumption
    | with_reducible exact ⟨h.queue, h.wf⟩
    | with_reducible apply updStick_keeps
    | with_reducible apply coldReset_keeps
    | split

theorem writeRec_keeps (h : s.Keeps q) (x1 : BootRec) : (State.writeRec s x1).Keeps q := ⟨h.queue, h.wf⟩

theorem rollBack_keeps (h : s.Keeps q) (x1 : Bool) : (State.rollBack s x1).Keeps q := by
  unfold State.rollBack
  repeat' first
    | with_reducible assumption
    | (intro x; refine keeps_step (q := q) (s := x) ?_ ?_; rotate_left; intro hx; clear_value x; rotate_right)
    | (intro x; clear_value x)
    | intro x (hx : State.Keeps x q)
    | intro x
    | lift_lets
    | simp only [x]
    | with_reducible exact ⟨hx.queue, hx.wf⟩
    | with_reducible exact ⟨h.queue, h.wf⟩
    | with_reducible apply writeRec_keeps
    | with_reducible apply updStick_keeps
    | split

theorem countStart_keeps (h : s.Keeps q) : (State.countStart s).Keeps q := by
  unfold State.countStart
  split
  · exact h
  · dsimp only
    split
    · exact ⟨h.queue, h.wf⟩
    · split
      · exact updStick_keeps (by exact ⟨h.queue, h.wf⟩) _
      · split
        · exact rollBack_keeps (by exact ⟨h.queue, h.wf⟩) _
        · have h1 : State.Keeps (State.writeRec { s with upd := { s.upd with firstDue := false } } { ‹BootRec› with starts := ‹BootRec›.starts + 1 }) q :=
            writeRec_keeps (by exact ⟨h.queue, h.wf⟩) _
          exact ⟨h1.queue, h1.wf⟩

theorem chooseRec_keeps (h : s.Keeps q) : (State.chooseRec s).Keeps q := by
  unfold State.chooseRec
  repeat' first
    | with_reducible assumption
    | (intro x; refine keeps_step (q := q) (s := x) ?_ ?_; rotate_left; intro hx; clear_value x; rotate_right)
    | (intro x; clear_value x)
    | intro x (hx : State.Keeps x q)
    | intro x
    | lift_lets
    | simp only [x]
    | with_reducible exact ⟨hx.queue, hx.wf⟩
    | with_reducible exact ⟨h.queue, h.wf⟩
    | with_reducible apply updStick_keeps
    | split

theorem startImage_keeps (h : s.Keeps q) (next : State → State) (hn : ∀ {t : State}, t.Keeps q → (next t).Keeps q) :
    (s.startImage next).Keeps q := by
  unfold State.startImage
  have h1 := chooseRec_keeps h
  generalize s.chooseRec = u at h1 ⊢
  dsimp only
  split
  · split
    · exact hn (countStart_keeps h1)
    · exact countStart_keeps h1
  · exact h1

theorem watchdogRestart_keeps (h : s.Keeps q) : (State.watchdogRestart s).Keeps q := by
  unfold State.watchdogRestart
  dsimp only
  have h1 := stick_keeps (countWrap_keeps h (ra .sys 0 0x048) 0 16 1) .sys 0 12
  exact startImage_keeps (by exact ⟨h1.queue, h1.wf⟩) _ fun ht => rollbackReset_keeps ht

theorem unadmit_keeps (h : s.Keeps q) (x1 : Admit → Bool) : (State.unadmit s x1).Keeps q := by
  unfold State.unadmit
  repeat' first
    | with_reducible assumption
    | with_reducible exact ⟨h.queue, h.wf⟩
    | split

theorem freeOnward_keeps (h : s.Keeps q) (x1 : Admit) : (State.freeOnward s x1).Keeps q := by
  unfold State.freeOnward
  repeat' first
    | with_reducible assumption
    | with_reducible exact ⟨h.queue, h.wf⟩
    | with_reducible apply sendOn_keeps
    | split

theorem freeRsv_keeps (h : s.Keeps q) (x1 : ℕ) : (State.freeRsv s x1).Keeps q := by
  unfold State.freeRsv
  dsimp only
  repeat' first
    | with_reducible assumption
    | with_reducible exact ⟨h.queue, h.wf⟩
    | with_reducible apply freeOnward_keeps
    | with_reducible apply unadmit_keeps
    | split

theorem endReplay_keeps (h : s.Keeps q) (x1 : ℕ) : (State.endReplay s x1).Keeps q := by
  unfold State.endReplay
  repeat' first
    | with_reducible assumption
    | with_reducible exact ⟨h.queue, h.wf⟩
    | split

theorem setSlot_keeps (h : s.Keeps q) (x1 : Bool) (x2 : Slot) : (State.setSlot s x1 x2).Keeps q := ⟨h.queue, h.wf⟩

theorem updEndDownload_keeps (h : s.Keeps q) : (State.updEndDownload s).Keeps q := ⟨h.queue, h.wf⟩

theorem updHolderLost_keeps (h : s.Keeps q) (x1 : ℕ) : (State.updHolderLost s x1).Keeps q := by
  unfold State.updHolderLost
  repeat' first
    | with_reducible assumption
    | with_reducible exact ⟨h.queue, h.wf⟩
    | with_reducible apply updEndDownload_keeps
    | split

theorem stickPage_keeps (h : s.Keeps q) (x1 : ℕ) (x2 : ℕ) : (State.stickPage s x1 x2).Keeps q := by
  unfold State.stickPage
  repeat' first
    | with_reducible assumption
    | with_reducible exact ⟨h.queue, h.wf⟩
    | with_reducible apply orReg_keeps
    | split

theorem breakLock_keeps (h : s.Keeps q) (x1 : ℕ) : (State.breakLock s x1).Keeps q := by
  unfold State.breakLock
  repeat' first
    | with_reducible assumption
    | with_reducible exact ⟨h.queue, h.wf⟩
    | with_reducible apply stickPage_keeps
    | split

theorem dropRequester_keeps (h : s.Keeps q) (x1 : ℕ) : (State.dropRequester s x1).Keeps q := by
  unfold State.dropRequester
  repeat' first
    | with_reducible assumption
    | (intro x; refine keeps_step (q := q) (s := x) ?_ ?_; rotate_left; intro hx; clear_value x; rotate_right)
    | (intro x; clear_value x)
    | intro x (hx : State.Keeps x q)
    | intro x
    | lift_lets
    | simp only [x]
    | with_reducible exact ⟨hx.queue, hx.wf⟩
    | with_reducible exact ⟨h.queue, h.wf⟩
    | with_reducible apply each_keeps
    | with_reducible apply breakLock_keeps
    | split

theorem cutSession_keeps (h : s.Keeps q) (x1 : ℕ) : (State.cutSession s x1).Keeps q := by
  unfold State.cutSession
  repeat' first
    | with_reducible assumption
    | with_reducible exact ⟨h.queue, h.wf⟩
    | with_reducible apply dropRequester_keeps
    | with_reducible apply updHolderLost_keeps
    | with_reducible apply endReplay_keeps
    | with_reducible apply freeRsv_keeps
    | split

theorem dropSession_keeps (h : s.Keeps q) (x1 : Session) : (State.dropSession s x1).Keeps q := by
  unfold State.dropSession
  repeat' first
    | with_reducible assumption
    | with_reducible exact ⟨h.queue, h.wf⟩
    | with_reducible apply stick_keeps
    | with_reducible apply cutSession_keeps
    | with_reducible apply setSession_keeps
    | split

theorem afterDeep_keeps (h : s.Keeps q) : (State.afterDeep s).Keeps q := ⟨h.queue, h.wf⟩

theorem ringAdd_keeps (h : s.Keeps q) (x1 : RingItem) : (State.ringAdd s x1).Keeps q := by
  unfold State.ringAdd
  repeat' first
    | with_reducible assumption
    | with_reducible exact ⟨h.queue, h.wf⟩
    | split

theorem glzStick_keeps (h : s.Keeps q) (x1 : ℕ) : (State.glzStick s x1).Keeps q := by
  unfold State.glzStick
  repeat' first
    | with_reducible assumption
    | with_reducible exact ⟨h.queue, h.wf⟩
    | with_reducible apply stick_keeps
    | split

theorem candidate_keeps (h : s.Keeps q) (x1 : TableId) (x2 : ℕ) : (State.candidate s x1 x2).Keeps q := by
  unfold State.candidate
  repeat' first
    | with_reducible assumption
    | (intro x; refine keeps_step (q := q) (s := x) ?_ ?_; rotate_left; intro hx; clear_value x; rotate_right)
    | (intro x; clear_value x)
    | intro x (hx : State.Keeps x q)
    | intro x
    | lift_lets
    | simp only [x]
    | with_reducible exact ⟨hx.queue, hx.wf⟩
    | with_reducible exact ⟨h.queue, h.wf⟩
    | with_reducible apply each_keeps
    | with_reducible apply setReg_keeps
    | split

theorem keepEffective_keeps (h : s.Keeps q) (x1 : TableId) (x2 : ℕ) : (State.keepEffective s x1 x2).Keeps q := ⟨h.queue, h.wf⟩

theorem withImage_keeps (h : s.Keeps q) (x1 : TableId) (x2 : ℕ) (x3 : ℕ → Word) : (State.withImage s x1 x2 x3).Keeps q := by
  unfold State.withImage
  repeat' first
    | with_reducible assumption
    | (intro x; refine keeps_step (q := q) (s := x) ?_ ?_; rotate_left; intro hx; clear_value x; rotate_right)
    | (intro x; clear_value x)
    | intro x (hx : State.Keeps x q)
    | intro x
    | lift_lets
    | simp only [x]
    | with_reducible exact ⟨hx.queue, hx.wf⟩
    | with_reducible exact ⟨h.queue, h.wf⟩
    | with_reducible apply upTo_keeps
    | split

theorem glazeEntry_keeps (h : s.Keeps q) (x1 : TableId) (x2 : ℕ) (x3 : ℕ → Word) : (State.glazeEntry s x1 x2 x3).Keeps q := by
  unfold State.glazeEntry
  repeat' first
    | with_reducible assumption
    | with_reducible exact ⟨h.queue, h.wf⟩
    | with_reducible apply withImage_keeps
    | with_reducible apply keepEffective_keeps
    | with_reducible apply candidate_keeps
    | split

theorem glazeBits_keeps (h : s.Keeps q) (x1 : ℕ) (x2 : Word) (x3 : Word) : (State.glazeBits s x1 x2 x3).Keeps q := by
  unfold State.glazeBits
  repeat' first
    | with_reducible assumption
    | (intro x; refine keeps_step (q := q) (s := x) ?_ ?_; rotate_left; intro hx; clear_value x; rotate_right)
    | (intro x; clear_value x)
    | intro x (hx : State.Keeps x q)
    | intro x
    | lift_lets
    | simp only [x]
    | with_reducible exact ⟨hx.queue, hx.wf⟩
    | with_reducible exact ⟨h.queue, h.wf⟩
    | with_reducible apply setReg_keeps
    | split

theorem revertGlaze_keeps (h : s.Keeps q) : (State.revertGlaze s).Keeps q := by
  unfold State.revertGlaze
  repeat' first
    | with_reducible assumption
    | with_reducible exact ⟨h.queue, h.wf⟩
    | intro x (hx : State.Keeps x q)
    | intro x
    | with_reducible exact ⟨hx.queue, hx.wf⟩
    | with_reducible apply each_keeps
    | with_reducible apply glazeBits_keeps
    | with_reducible apply glazeEntry_keeps
    | split

theorem skipItem_keeps (h : s.Keeps q) (x1 : ℕ) (x2 : ℕ) : (State.skipItem s x1 x2).Keeps q := by
  unfold State.skipItem
  repeat' first
    | with_reducible assumption
    | with_reducible exact ⟨h.queue, h.wf⟩
    | with_reducible apply waymark_keeps
    | with_reducible apply glzStick_keeps
    | split

theorem holdUnder_keeps (h : s.Keeps q) (x1 : ℕ) (x2 : Word) : (State.holdUnder s x1 x2).Keeps q := ⟨h.queue, h.wf⟩

theorem applyEntry_keeps (h : s.Keeps q) (x1 : List (TableId × ℕ)) (x2 : ℕ) (x3 : List (ℕ × Item)) (x4 : TableId × ℕ) : (State.applyEntry s x1 x2 x3 x4).Keeps q := by
  unfold State.applyEntry
  dsimp only
  have hh : State.Keeps (s.each (List.map (fun x => x.2) (List.filter (fun (x : Nat × Item) => x.2.names x4.1 x4.2) x3))
      fun s (x : Item) => s.holdUnder x.offset x.mask) q :=
    each_keeps h _ _ fun t ht x => holdUnder_keeps ht _ _
  split
  · exact hh
  · split
    · exact glazeEntry_keeps hh _ _ _
    · exact each_keeps h _ _ fun t ht x => skipItem_keeps ht _ _

theorem applyItem_keeps (h : s.Keeps q) (x1 : Item) : (State.applyItem s x1).Keeps q := by
  unfold State.applyItem
  dsimp only
  repeat' first
    | with_reducible assumption
    | with_reducible exact ⟨h.queue, h.wf⟩
    | with_reducible apply stickPage_keeps
    | with_reducible apply glazeBits_keeps
    | with_reducible apply holdUnder_keeps
    | split

theorem applyGlaze_keeps (h : s.Keeps q) (x1 : List (TableId × ℕ)) (x2 : ℕ) : (State.applyGlaze s x1 x2).Keeps q := by
  unfold State.applyGlaze
  repeat' first
    | with_reducible assumption
    | with_reducible exact ⟨h.queue, h.wf⟩
    | intro x (hx : State.Keeps x q)
    | intro x
    | with_reducible exact ⟨hx.queue, hx.wf⟩
    | with_reducible apply each_keeps
    | with_reducible apply skipItem_keeps
    | with_reducible apply applyItem_keeps
    | with_reducible apply applyEntry_keeps
    | split

theorem switchGlaze_keeps (h : s.Keeps q) (x1 : ℕ) (x2 : ℕ) (x3 : ℕ) (x4 : Bool) : (State.switchGlaze s x1 x2 x3 x4).Keeps q := by
  unfold State.switchGlaze
  repeat' first
    | with_reducible assumption
    | (intro x; refine keeps_step (q := q) (s := x) ?_ ?_; rotate_left; intro hx; clear_value x; rotate_right)
    | (intro x; clear_value x)
    | intro x (hx : State.Keeps x q)
    | intro x
    | lift_lets
    | simp only [x]
    | with_reducible exact ⟨hx.queue, hx.wf⟩
    | with_reducible exact ⟨h.queue, h.wf⟩
    | with_reducible apply applyGlaze_keeps
    | with_reducible apply revertGlaze_keeps
    | with_reducible apply glzStick_keeps
    | with_reducible apply waymark_keeps
    | split

theorem switchStep_keeps (h : s.Keeps q) : (State.switchStep s).Keeps q := by
  unfold State.switchStep
  dsimp only
  repeat' first
    | with_reducible assumption
    | with_reducible exact ⟨h.queue, h.wf⟩
    | with_reducible apply switchGlaze_keeps
    | split

theorem glzLoad_keeps (h : s.Keeps q) (x1 : ℕ) : (State.glzLoad s x1).Keeps q := by
  unfold State.glzLoad
  repeat' first
    | with_reducible assumption
    | with_reducible exact ⟨h.queue, h.wf⟩
    | with_reducible apply glzStick_keeps
    | split

theorem putWords_keeps (h : s.Keeps q) (x1 : ℕ) (x2 : List Word) : (State.putWords s x1 x2).Keeps q := by
  unfold State.putWords
  repeat' first
    | with_reducible assumption
    | with_reducible exact ⟨h.queue, h.wf⟩
    | intro x (hx : State.Keeps x q)
    | intro x
    | with_reducible exact ⟨hx.queue, hx.wf⟩
    | with_reducible apply each_keeps
    | with_reducible apply setReg_keeps
    | split

theorem loadImageGlaze_keeps (h : s.Keeps q) (x1 : ℕ × ℕ × ℕ × List Item) : (State.loadImageGlaze s x1).Keeps q := by
  unfold State.loadImageGlaze
  repeat' first
    | with_reducible assumption
    | with_reducible exact ⟨h.queue, h.wf⟩
    | intro x (hx : State.Keeps x q)
    | intro x
    | with_reducible exact ⟨hx.queue, hx.wf⟩
    | with_reducible apply putWords_keeps
    | with_reducible apply each_keeps
    | with_reducible apply glzLoad_keeps
    | split

theorem bootGlazes_keeps (h : s.Keeps q) : (State.bootGlazes s).Keeps q := by
  unfold State.bootGlazes
  dsimp only
  repeat' first
    | with_reducible assumption
    | with_reducible exact ⟨h.queue, h.wf⟩
    | with_reducible apply each_keeps
    | with_reducible apply loadImageGlaze_keeps
    | with_reducible apply switchGlaze_keeps
    | with_reducible apply waymark_keeps
    | with_reducible apply glzStick_keeps
    | split

theorem reapplyGlaze_keeps (h : s.Keeps q) : (State.reapplyGlaze s).Keeps q := by
  unfold State.reapplyGlaze
  repeat' first
    | with_reducible assumption
    | with_reducible exact ⟨h.queue, h.wf⟩
    | intro x (hx : State.Keeps x q)
    | intro x
    | with_reducible exact ⟨hx.queue, hx.wf⟩
    | with_reducible apply each_keeps
    | with_reducible apply applyItem_keeps
    | split

theorem fieldResets_keeps (h : s.Keeps q) : (State.fieldResets s).Keeps q := by
  unfold State.fieldResets
  have hc : ∀ {t : State} (as_ : List Nat), t.Keeps q → (t.each as_ fun s a => s.setReg a (regReset a)).Keeps q :=
    fun as_ ht => each_keeps ht _ _ fun u hu a => setReg_keeps hu _ _
  lift_lets
  intro clear z t
  have h1 : t.Keeps q := by
    simp only [t]
    split
    · exact hc _ (by exact ⟨h.queue, h.wf⟩)
    · exact h
  clear_value t
  split
  · exact hc _ (by exact ⟨h1.queue, h1.wf⟩)
  · exact h1

theorem step3_keeps (h : s.Keeps q) : (State.step3 s).Keeps q := by
  unfold State.step3
  repeat' first
    | with_reducible assumption
    | with_reducible exact ⟨h.queue, h.wf⟩
    | with_reducible apply fieldResets_keeps
    | with_reducible apply reapplyGlaze_keeps
    | with_reducible apply bootGlazes_keeps
    | with_reducible apply switchStep_keeps
    | split

theorem noteEpoch_keeps (h : s.Keeps q) : (State.noteEpoch s).Keeps q := by
  unfold State.noteEpoch
  dsimp only
  repeat' first
    | with_reducible assumption
    | with_reducible exact ⟨h.queue, h.wf⟩
    | with_reducible apply ringAdd_keeps
    | split

theorem openHold_keeps (h : s.Keeps q) : (State.openHold s).Keeps q := ⟨h.queue, h.wf⟩

theorem closeShort_keeps (h : s.Keeps q) (x1 : ℕ) : (State.closeShort s x1).Keeps q := by
  unfold State.closeShort
  repeat' first
    | with_reducible assumption
    | with_reducible exact ⟨h.queue, h.wf⟩
    | with_reducible apply closeRecord_keeps
    | split

theorem closeInterval_keeps (h : s.Keeps q) (x1 : ℕ) : (State.closeInterval s x1).Keeps q := by
  unfold State.closeInterval
  dsimp only
  repeat' first
    | with_reducible assumption
    | with_reducible exact ⟨h.queue, h.wf⟩
    | with_reducible apply setStream_keeps
    | with_reducible apply emitRecord_keeps
    | split

theorem endRecord_keeps (h : s.Keeps q) (x1 : ℕ) : (State.endRecord s x1).Keeps q := by
  unfold State.endRecord
  repeat' first
    | with_reducible assumption
    | with_reducible exact ⟨h.queue, h.wf⟩
    | with_reducible apply closeInterval_keeps
    | with_reducible apply closeShort_keeps
    | split

theorem retire_keeps (h : s.Keeps q) (x1 : ℕ) : (State.retire s x1).Keeps q := by
  unfold State.retire
  repeat' first
    | with_reducible assumption
    | with_reducible exact ⟨h.queue, h.wf⟩
    | with_reducible apply endRecord_keeps
    | with_reducible apply setStream_keeps
    | split

theorem stopStream_keeps (h : s.Keeps q) (x1 : ℕ) : (State.stopStream s x1).Keeps q := by
  unfold State.stopStream
  repeat' first
    | with_reducible assumption
    | with_reducible exact ⟨h.queue, h.wf⟩
    | with_reducible apply retire_keeps
    | with_reducible apply setStream_keeps
    | split

theorem refuseEntry_keeps (h : s.Keeps q) (x1 : TableId) (x2 : ℕ) (x3 : ℕ) : (State.refuseEntry s x1 x2 x3).Keeps q := by
  unfold State.refuseEntry
  repeat' first
    | with_reducible assumption
    | with_reducible exact ⟨h.queue, h.wf⟩
    | with_reducible apply stick_keeps
    | with_reducible apply setReg_keeps
    | split

theorem startStream_keeps (h : s.Keeps q) (x1 : ℕ) : (State.startStream s x1).Keeps q := ⟨h.queue, h.wf⟩

theorem tenantStreams_keeps (h : s.Keeps q) (x1 : ℕ) : (State.tenantStreams s x1).Keeps q := by
  unfold State.tenantStreams
  repeat' first
    | with_reducible assumption
    | (intro x; refine keeps_step (q := q) (s := x) ?_ ?_; rotate_left; intro hx; clear_value x; rotate_right)
    | (intro x; clear_value x)
    | intro x (hx : State.Keeps x q)
    | intro x
    | lift_lets
    | simp only [x]
    | with_reducible exact ⟨hx.queue, hx.wf⟩
    | with_reducible exact ⟨h.queue, h.wf⟩
    | with_reducible apply each_keeps
    | with_reducible apply startStream_keeps
    | with_reducible apply refuseEntry_keeps
    | with_reducible apply stopStream_keeps
    | split

theorem unreserve_keeps (h : s.Keeps q) (x1 : ℕ) : (State.unreserve s x1).Keeps q := by
  unfold State.unreserve
  repeat' first
    | with_reducible assumption
    | with_reducible exact ⟨h.queue, h.wf⟩
    | with_reducible apply catchUp_keeps
    | with_reducible apply setSession_keeps
    | split

theorem withdraw_keeps (h : s.Keeps q) (x1 : Admit) (x2 : ℕ) : (State.withdraw s x1 x2).Keeps q := by
  unfold State.withdraw
  repeat' first
    | with_reducible assumption
    | with_reducible exact ⟨h.queue, h.wf⟩
    | with_reducible apply unadmit_keeps
    | with_reducible apply sendTo_keeps
    | with_reducible apply unreserve_keeps
    | split

theorem refuseRsv_keeps (h : s.Keeps q) (x1 : ℕ) (x2 : ℕ) : (State.refuseRsv s x1 x2).Keeps q := by
  unfold State.refuseRsv
  repeat' first
    | with_reducible assumption
    | with_reducible exact ⟨h.queue, h.wf⟩
    | with_reducible apply setReg_keeps
    | with_reducible apply stick_keeps
    | split

theorem cutTc2_keeps (h : s.Keeps q) (x1 : ℕ) : (State.cutTc2 s x1).Keeps q := by
  unfold State.cutTc2
  repeat' first
    | with_reducible assumption
    | with_reducible exact ⟨h.queue, h.wf⟩
    | intro x (hx : State.Keeps x q)
    | intro x
    | with_reducible exact ⟨hx.queue, hx.wf⟩
    | with_reducible apply upTo_keeps
    | with_reducible apply each_keeps
    | with_reducible apply refuseRsv_keeps
    | with_reducible apply withdraw_keeps
    | split

theorem endClaims_keeps (h : s.Keeps q) (x1 : ℕ) (x2 : Option ℕ) : (State.endClaims s x1 x2).Keeps q := by
  unfold State.endClaims
  repeat' first
    | with_reducible assumption
    | with_reducible exact ⟨h.queue, h.wf⟩
    | with_reducible apply giveUp_keeps
    | split

theorem dropNumber_keeps (h : s.Keeps q) (x1 : ℕ) : (State.dropNumber s x1).Keeps q := by
  unfold State.dropNumber
  repeat' first
    | with_reducible assumption
    | (intro x; refine keeps_step (q := q) (s := x) ?_ ?_; rotate_left; intro hx; clear_value x; rotate_right)
    | (intro x; clear_value x)
    | intro x (hx : State.Keeps x q)
    | intro x
    | lift_lets
    | simp only [x]
    | with_reducible exact ⟨hx.queue, hx.wf⟩
    | with_reducible exact ⟨h.queue, h.wf⟩
    | with_reducible apply freeRsv_keeps
    | split

theorem closeSession_keeps (h : s.Keeps q) (x1 : ℕ) : (State.closeSession s x1).Keeps q := by
  unfold State.closeSession
  repeat' first
    | with_reducible assumption
    | with_reducible exact ⟨h.queue, h.wf⟩
    | with_reducible apply cutSession_keeps
    | with_reducible apply endClaims_keeps
    | with_reducible apply dropNumber_keeps
    | split

theorem tenantEffect_keeps (h : s.Keeps q) (x1 : ℕ) (x2 : ℕ → Word) : (State.tenantEffect s x1 x2).Keeps q := by
  unfold State.tenantEffect
  repeat' first
    | with_reducible assumption
    | with_reducible exact ⟨h.queue, h.wf⟩
    | intro x (hx : State.Keeps x q)
    | intro x
    | with_reducible exact ⟨hx.queue, hx.wf⟩
    | with_reducible apply each_keeps
    | with_reducible apply closeSession_keeps
    | with_reducible apply breakLock_keeps
    | with_reducible apply stick_keeps
    | with_reducible apply setSession_keeps
    | with_reducible apply endClaims_keeps
    | with_reducible apply cutTc2_keeps
    | with_reducible apply tenantStreams_keeps
    | split

theorem fireTrigger_keeps (h : s.Keeps q) (x1 : ℕ) (x2 : ℕ) : (State.fireTrigger s x1 x2).Keeps q := by
  unfold State.fireTrigger
  repeat' first
    | with_reducible assumption
    | with_reducible exact ⟨h.queue, h.wf⟩
    | split

theorem ruleTrigger_keeps (h : s.Keeps q) (x1 : ℕ) (x2 : Bool) (x3 : Bool) (x4 : ℕ) : (State.ruleTrigger s x1 x2 x3 x4).Keeps q := by
  unfold State.ruleTrigger
  dsimp only
  repeat' first
    | with_reducible assumption
    | with_reducible exact ⟨h.queue, h.wf⟩
    | with_reducible apply fireTrigger_keeps
    | split

theorem sendAlarm_keeps (h : s.Keeps q) (x1 : ℕ) (x2 : ℕ) (x3 : Bool) : (State.sendAlarm s x1 x2 x3).Keeps q := by
  unfold State.sendAlarm
  repeat' first
    | with_reducible assumption
    | (intro x; refine keeps_step (q := q) (s := x) ?_ ?_; rotate_left; intro hx; clear_value x; rotate_right)
    | (intro x; clear_value x)
    | intro x (hx : State.Keeps x q)
    | intro x
    | lift_lets
    | simp only [x]
    | with_reducible exact ⟨hx.queue, hx.wf⟩
    | with_reducible exact ⟨h.queue, h.wf⟩
    | with_reducible apply upTo_keeps
    | with_reducible apply sendTo_keeps
    | split

theorem eventRecords_keeps (h : s.Keeps q) (x1 : ℕ) (x2 : Vote) (x3 : Cause) : (State.eventRecords s x1 x2 x3).Keeps q := by
  unfold State.eventRecords
  repeat' first
    | with_reducible assumption
    | with_reducible exact ⟨h.queue, h.wf⟩
    | intro x (hx : State.Keeps x q)
    | intro x
    | with_reducible exact ⟨hx.queue, hx.wf⟩
    | with_reducible apply each_keeps
    | with_reducible apply replayOut_keeps
    | with_reducible apply emit_keeps
    | split

theorem setAlmOut_keeps (h : s.Keeps q) (x1 : ℕ) (x2 : AlmOut) : (State.setAlmOut s x1 x2).Keeps q := ⟨h.queue, h.wf⟩

theorem driveOutputs_keeps (h : s.Keeps q) : (State.driveOutputs s).Keeps q := by
  unfold State.driveOutputs
  repeat' first
    | with_reducible assumption
    | with_reducible exact ⟨h.queue, h.wf⟩
    | intro x (hx : State.Keeps x q)
    | intro x
    | with_reducible exact ⟨hx.queue, hx.wf⟩
    | with_reducible apply upTo_keeps
    | with_reducible apply setAlmOut_keeps
    | split

theorem setRule_keeps (h : s.Keeps q) (x1 : ℕ) (x2 : Rule) : (State.setRule s x1 x2).Keeps q := ⟨h.queue, h.wf⟩

theorem voteRule_keeps (h : s.Keeps q) (x1 : ℕ) (x2 : Cause) : (State.voteRule s x1 x2).Keeps q := by
  unfold State.voteRule
  dsimp only
  repeat' first
    | with_reducible assumption
    | with_reducible exact ⟨h.queue, h.wf⟩
    | with_reducible apply setRule_keeps
    | with_reducible apply driveOutputs_keeps
    | with_reducible apply eventRecords_keeps
    | with_reducible apply orReg_keeps
    | with_reducible apply sendAlarm_keeps
    | with_reducible apply ruleTrigger_keeps
    | split

theorem ruleEffect_keeps (h : s.Keeps q) (x1 : ℕ) (x2 : ℕ → Word) : (State.ruleEffect s x1 x2).Keeps q := by
  unfold State.ruleEffect
  dsimp only
  repeat' first
    | with_reducible assumption
    | with_reducible exact ⟨h.queue, h.wf⟩
    | with_reducible apply voteRule_keeps
    | with_reducible apply setRule_keeps
    | split

theorem setSwitch_keeps (h : s.Keeps q) (x1 : ℕ) (x2 : Switch) : (State.setSwitch s x1 x2).Keeps q := ⟨h.queue, h.wf⟩

theorem switchEffect_keeps (h : s.Keeps q) (x1 : ℕ) (x2 : ℕ → Word) : (State.switchEffect s x1 x2).Keeps q := by
  unfold State.switchEffect
  repeat' first
    | with_reducible assumption
    | (intro x; refine keeps_step (q := q) (s := x) ?_ ?_; rotate_left; intro hx; clear_value x; rotate_right)
    | (intro x; clear_value x)
    | intro x (hx : State.Keeps x q)
    | intro x
    | lift_lets
    | simp only [x]
    | with_reducible exact ⟨hx.queue, hx.wf⟩
    | with_reducible exact ⟨h.queue, h.wf⟩
    | with_reducible apply setSwitch_keeps
    | with_reducible apply each_keeps
    | with_reducible apply voteRule_keeps
    | split

theorem streamEffect_keeps (h : s.Keeps q) (x1 : ℕ) : (State.streamEffect s x1).Keeps q := by
  unfold State.streamEffect
  dsimp only
  repeat' first
    | with_reducible assumption
    | with_reducible exact ⟨h.queue, h.wf⟩
    | with_reducible apply startStream_keeps
    | with_reducible apply stick_keeps
    | with_reducible apply setStream_keeps
    | split

theorem entryEffect_keeps (h : s.Keeps q) (x0 : State) (x2 : TableId) (x3 : ℕ) : (State.entryEffect x0 s x2 x3).Keeps q := by
  unfold State.entryEffect
  repeat' first
    | with_reducible assumption
    | (intro x; refine keeps_step (q := q) (s := x) ?_ ?_; rotate_left; intro hx; clear_value x; rotate_right)
    | (intro x; clear_value x)
    | intro x (hx : State.Keeps x q)
    | intro x
    | lift_lets
    | simp only [x]
    | with_reducible exact ⟨hx.queue, hx.wf⟩
    | with_reducible exact ⟨h.queue, h.wf⟩
    | with_reducible apply stopStream_keeps
    | with_reducible apply streamEffect_keeps
    | with_reducible apply refuseEntry_keeps
    | with_reducible apply switchEffect_keeps
    | with_reducible apply ruleEffect_keeps
    | with_reducible apply tenantEffect_keeps
    | split

theorem tableEffects_keeps (h : s.Keeps q) : (State.tableEffects s).Keeps q := by
  unfold State.tableEffects
  repeat' first
    | with_reducible assumption
    | with_reducible exact ⟨h.queue, h.wf⟩
    | intro x (hx : State.Keeps x q)
    | intro x
    | with_reducible exact ⟨hx.queue, hx.wf⟩
    | with_reducible apply each_keeps
    | with_reducible apply entryEffect_keeps
    | split

theorem setSliceCal_keeps (h : s.Keeps q) (x1 : ℕ) (x2 : ℕ) (x3 : SliceCal) : (State.setSliceCal s x1 x2 x3).Keeps q := ⟨h.queue, h.wf⟩

theorem setBank_keeps (h : s.Keeps q) (x1 : ℕ) (x2 : Bank) : (State.setBank s x1 x2).Keeps q := ⟨h.queue, h.wf⟩

theorem startShadow_keeps (h : s.Keeps q) (x1 : ℕ) (x2 : ℕ) : (State.startShadow s x1 x2).Keeps q := by
  unfold State.startShadow
  dsimp only
  repeat' first
    | with_reducible assumption
    | with_reducible exact ⟨h.queue, h.wf⟩
    | with_reducible apply stick_keeps
    | with_reducible apply setBank_keeps
    | with_reducible apply setSliceCal_keeps
    | split

theorem shadowStarts_keeps (h : s.Keeps q) (x1 : ℕ) : (State.shadowStarts s x1).Keeps q := by
  unfold State.shadowStarts
  repeat' first
    | with_reducible assumption
    | with_reducible exact ⟨h.queue, h.wf⟩
    | intro x (hx : State.Keeps x q)
    | intro x
    | with_reducible exact ⟨hx.queue, hx.wf⟩
    | with_reducible apply setBank_keeps
    | with_reducible apply each_keeps
    | with_reducible apply startShadow_keeps
    | split

theorem lateOps_keeps (h : s.Keeps q) : (State.lateOps s).Keeps q := by
  unfold State.lateOps
  repeat' first
    | with_reducible assumption
    | with_reducible exact ⟨h.queue, h.wf⟩
    | intro x (hx : State.Keeps x q)
    | intro x
    | with_reducible exact ⟨hx.queue, hx.wf⟩
    | with_reducible apply each_keeps
    | with_reducible apply calOp_keeps
    | with_reducible apply saveTrims_keeps
    | with_reducible apply upTo_keeps
    | with_reducible apply startSelfCal_keeps
    | with_reducible apply shadowStarts_keeps
    | split

theorem rateChange_keeps (h : s.Keeps q) (x1 : ℕ) (x2 : ℕ) : (State.rateChange s x1 x2).Keeps q := ⟨h.queue, h.wf⟩

theorem takeTurn_keeps (h : s.Keeps q) (x1 : ℕ) (x2 : ℤ) : (State.takeTurn s x1 x2).Keeps q := by
  unfold State.takeTurn
  repeat' first
    | with_reducible assumption
    | with_reducible exact ⟨h.queue, h.wf⟩
    | with_reducible apply rateChange_keeps
    | split

theorem streamSync_keeps (h : s.Keeps q) (x1 : ℕ) : (State.streamSync s x1).Keeps q := by
  unfold State.streamSync
  dsimp only
  repeat' first
    | with_reducible assumption
    | with_reducible exact ⟨h.queue, h.wf⟩
    | with_reducible apply takeTurn_keeps
    | with_reducible apply retire_keeps
    | with_reducible apply setStream_keeps
    | with_reducible apply stick_keeps
    | with_reducible apply startStream_keeps
    | with_reducible apply rateChange_keeps
    | split

theorem streamsSync_keeps (h : s.Keeps q) : (State.streamsSync s).Keeps q := by
  unfold State.streamsSync
  repeat' first
    | with_reducible assumption
    | with_reducible exact ⟨h.queue, h.wf⟩
    | with_reducible apply each_keeps
    | with_reducible apply streamSync_keeps
    | split

theorem setScan_keeps (h : s.Keeps q) (x1 : ℕ) (x2 : Scan) : (State.setScan s x1 x2).Keeps q := ⟨h.queue, h.wf⟩

theorem sweepSync_keeps (h : s.Keeps q) (x1 : State) (x2 : ℕ) : (State.sweepSync s x1 x2).Keeps q := by
  unfold State.sweepSync
  dsimp only
  repeat' first
    | with_reducible assumption
    | with_reducible exact ⟨h.queue, h.wf⟩
    | with_reducible apply setScan_keeps
    | split

theorem setPort_keeps (h : s.Keeps q) (x1 : ℕ) (x2 : Port) : (State.setPort s x1 x2).Keeps q := ⟨h.queue, h.wf⟩

theorem startWindow_keeps (h : s.Keeps q) (x1 : ℕ) (x2 : ℕ) (x3 : Bool) : (State.startWindow s x1 x2 x3).Keeps q := ⟨h.queue, h.wf⟩

theorem windowFrom_keeps (h : s.Keeps q) (x1 : State) (x2 : ℕ) : (State.windowFrom s x1 x2).Keeps q := by
  unfold State.windowFrom
  dsimp only
  repeat' first
    | with_reducible assumption
    | with_reducible exact ⟨h.queue, h.wf⟩
    | with_reducible apply startWindow_keeps
    | split

theorem beforeSleep_keeps (h : s.Keeps q) : (State.beforeSleep s).Keeps q := ⟨h.queue, h.wf⟩

theorem layoutChanged_keeps (h : s.Keeps q) (x1 : State) (x2 : ℕ) (x3 : Bool) : (State.layoutChanged s x1 x2 x3).Keeps q := by
  unfold State.layoutChanged
  dsimp only
  split
  · exact setBank_keeps h _ _
  · refine upTo_keeps (setBank_keeps h _ _) _ _ fun t ht k => ?_
    repeat' split
    all_goals first
      | exact ⟨ht.queue, ht.wf⟩
      | exact ht

theorem bankMode_keeps (h : s.Keeps q) (x1 : State) (x2 : ℕ) : (State.bankMode s x1 x2).Keeps q := by
  unfold State.bankMode
  dsimp only
  repeat' first
    | with_reducible assumption
    | with_reducible exact ⟨h.queue, h.wf⟩
    | with_reducible apply setBank_keeps
    | with_reducible apply layoutChanged_keeps
    | split

theorem pairSync_keeps (h : s.Keeps q) (x1 : ℕ) : (State.pairSync s x1).Keeps q := by
  unfold State.pairSync
  dsimp only
  repeat' first
    | with_reducible assumption
    | with_reducible exact ⟨h.queue, h.wf⟩
    | with_reducible apply setBank_keeps
    | split

theorem endShadow_keeps (h : s.Keeps q) (x1 : ℕ) : (State.endShadow s x1).Keeps q := by
  unfold State.endShadow
  dsimp only
  repeat' first
    | with_reducible assumption
    | with_reducible exact ⟨h.queue, h.wf⟩
    | with_reducible apply setBank_keeps
    | split

theorem parkEnds_keeps (h : s.Keeps q) (x1 : ℕ) : (State.parkEnds s x1).Keeps q := by
  unfold State.parkEnds
  repeat' first
    | with_reducible assumption
    | with_reducible exact ⟨h.queue, h.wf⟩
    | with_reducible apply endShadow_keeps
    | split

end Sys2Proof.Machine
end

