-- ==== Sys2Proof/Laws/Keep2.lean ====
section
/-! SUPPORT. One lemma per function of the model, in the order in which they call one another (part 2 of 4): each keeps the
commands that wait and the canonical form of the register space. -/

set_option linter.all false

namespace Sys2Proof.Machine
open Sys2Proof

variable {q : List Instr} {s t : State}

theorem cutSegments_keeps (h : s.Keeps q) (t n : Nat) : (s.cutSegments t n).Keeps q := by
  induction n generalizing s with
  | zero => exact h
  | succ n ih =>
    unfold State.cutSegments
    split
    · exact h
    · dsimp only
      split
      · exact h
      · refine ih ?_
        split
        · exact dropSeg_keeps h _
        · exact stick_keeps (giveUp_keeps (dropSeg_keeps h _) _) _ _ _

theorem quotaStep_keeps (h : s.Keeps q) : (State.quotaStep s).Keeps q := by
  unfold State.quotaStep
  refine upTo_keeps (by exact ⟨h.queue, h.wf⟩) _ _ fun t ht x => ?_
  dsimp only
  have h1 : State.Keeps (if ((t.quotaOf x).2 && (decide (t.quotaNow x ≠ (t.quotaOf x).1) || !s.lake.short)) = true then
      (t.stick .ten 0 9).stick .tenStat x 9 else t) q := by
    split
    · exact stick_keeps (stick_keeps ht _ _ _) _ _ _
    · exact ht
  generalize (if ((t.quotaOf x).2 && (decide (t.quotaNow x ≠ (t.quotaOf x).1) || !s.lake.short)) = true then
      (t.stick .ten 0 9).stick .tenStat x 9 else t) = w at h1 ⊢
  split
  · exact h1
  · split
    · exact cutSegments_keeps (setFld_keeps h1 _ _ _ _) _ _
    · exact setFld_keeps h1 _ _ _ _

theorem rearm_keeps (h : s.Keeps q) : (State.rearm s).Keeps q := ⟨h.queue, h.wf⟩

theorem ringStep_keeps (h : s.Keeps q) : (State.ringStep s).Keeps q := by
  unfold State.ringStep
  dsimp only
  repeat' first
    | with_reducible assumption
    | with_reducible exact ⟨h.queue, h.wf⟩
    | with_reducible apply rearm_keeps
    | split

theorem setImp_keeps (h : s.Keeps q) (x1 : ℕ) (x2 : ImpEngine) : (State.setImp s x1 x2).Keeps q := ⟨h.queue, h.wf⟩

theorem impStart_keeps (h : s.Keeps q) (x1 : ℕ) (x2 : ℕ) (x3 : ℕ) (x4 : KMap LockSums) : (State.impStart s x1 x2 x3 x4).Keeps q := ⟨h.queue, h.wf⟩

theorem impRemove_keeps (h : s.Keeps q) (x1 : ℕ) (x2 : ℕ) : (State.impRemove s x1 x2).Keeps q := by
  unfold State.impRemove
  dsimp only
  repeat' first
    | with_reducible assumption
    | with_reducible exact ⟨h.queue, h.wf⟩
    | with_reducible apply setPort_keeps
    | split

theorem impStop_keeps (h : s.Keeps q) (x1 : ℕ) : (State.impStop s x1).Keeps q := by
  unfold State.impStop
  repeat' first
    | with_reducible assumption
    | with_reducible exact ⟨h.queue, h.wf⟩
    | with_reducible apply impRemove_keeps
    | with_reducible apply setImp_keeps
    | split

theorem impSync_keeps (h : s.Keeps q) (x1 : State) (x2 : ℕ) : (State.impSync s x1 x2).Keeps q := by
  unfold State.impSync
  dsimp only
  repeat' first
    | with_reducible assumption
    | with_reducible exact ⟨h.queue, h.wf⟩
    | with_reducible apply impStop_keeps
    | with_reducible apply impStart_keeps
    | split

theorem setEngine_keeps (h : s.Keeps q) (x1 : ℕ) (x2 : Engine) : (State.setEngine s x1 x2).Keeps q := ⟨h.queue, h.wf⟩

theorem stopEngine_keeps (h : s.Keeps q) (x1 : ℕ) : (State.stopEngine s x1).Keeps q := ⟨h.queue, h.wf⟩

theorem noteMark_keeps (h : s.Keeps q) (x1 : ℕ) (x2 : ℕ) : (State.noteMark s x1 x2).Keeps q := ⟨h.queue, h.wf⟩

theorem startEngine_keeps (h : s.Keeps q) (x1 : ℕ) : (State.startEngine s x1).Keeps q := by
  unfold State.startEngine
  repeat' first
    | with_reducible assumption
    | with_reducible exact ⟨h.queue, h.wf⟩
    | with_reducible apply noteMark_keeps
    | with_reducible apply setEngine_keeps
    | split

theorem applyDrive_keeps (h : s.Keeps q) (x1 : ℕ) (x2 : ℕ) : (State.applyDrive s x1 x2).Keeps q := ⟨h.queue, h.wf⟩

theorem cutDrive_keeps (h : s.Keeps q) (x1 : ℕ) : (State.cutDrive s x1).Keeps q := by
  unfold State.cutDrive
  dsimp only
  repeat' first
    | with_reducible assumption
    | with_reducible exact ⟨h.queue, h.wf⟩
    | with_reducible apply applyDrive_keeps
    | split

theorem engineSync_keeps (h : s.Keeps q) (x1 : State) (x2 : ℕ) : (State.engineSync s x1 x2).Keeps q := by
  unfold State.engineSync
  dsimp only
  repeat' first
    | with_reducible assumption
    | with_reducible exact ⟨h.queue, h.wf⟩
    | with_reducible apply cutDrive_keeps
    | with_reducible apply setEngine_keeps
    | with_reducible apply startEngine_keeps
    | with_reducible apply stopEngine_keeps
    | split

theorem engineStep_keeps (h : s.Keeps q) (x1 : State) (x2 : ℕ) : (State.engineStep s x1 x2).Keeps q := by
  unfold State.engineStep
  dsimp only
  repeat' first
    | with_reducible assumption
    | with_reducible exact ⟨h.queue, h.wf⟩
    | with_reducible apply setEngine_keeps
    | with_reducible apply stopEngine_keeps
    | with_reducible apply engineSync_keeps
    | split

theorem biasSync_keeps (h : s.Keeps q) (x1 : State) (x2 : ℕ) : (State.biasSync s x1 x2).Keeps q := by
  unfold State.biasSync
  dsimp only
  repeat' first
    | with_reducible assumption
    | with_reducible exact ⟨h.queue, h.wf⟩
    | with_reducible apply setPort_keeps
    | split

theorem settleRange_keeps (h : s.Keeps q) (x1 : ℕ) : (State.settleRange s x1).Keeps q := by
  unfold State.settleRange
  dsimp only
  repeat' first
    | with_reducible assumption
    | with_reducible exact ⟨h.queue, h.wf⟩
    | with_reducible apply setPort_keeps
    | split

theorem portEnable_keeps (h : s.Keeps q) (x1 : ℕ) : (State.portEnable s x1).Keeps q := by
  unfold State.portEnable
  repeat' first
    | with_reducible assumption
    | with_reducible exact ⟨h.queue, h.wf⟩
    | with_reducible apply settleRange_keeps
    | with_reducible apply setPort_keeps
    | with_reducible apply startWindow_keeps
    | split

theorem portDisable_keeps (h : s.Keeps q) (x1 : ℕ) : (State.portDisable s x1).Keeps q := by
  unfold State.portDisable
  repeat' first
    | with_reducible assumption
    | with_reducible exact ⟨h.queue, h.wf⟩
    | with_reducible apply settleRange_keeps
    | with_reducible apply setPort_keeps
    | split

theorem portRange_keeps (h : s.Keeps q) (x1 : ℕ) (x2 : ℕ) (x3 : Bool) : (State.portRange s x1 x2 x3).Keeps q := by
  unfold State.portRange
  dsimp only
  repeat' first
    | with_reducible assumption
    | with_reducible exact ⟨h.queue, h.wf⟩
    | with_reducible apply setPort_keeps
    | split

theorem portSync_keeps (h : s.Keeps q) (x1 : State) (x2 : ℕ) : (State.portSync s x1 x2).Keeps q := by
  unfold State.portSync
  dsimp only
  repeat' first
    | with_reducible assumption
    | with_reducible exact ⟨h.queue, h.wf⟩
    | with_reducible apply setPort_keeps
    | with_reducible apply portRange_keeps
    | with_reducible apply portDisable_keeps
    | with_reducible apply portEnable_keeps
    | with_reducible apply biasSync_keeps
    | split

theorem movePort_keeps (h : s.Keeps q) (x1 : ℕ) (x2 : FabPort) : (State.movePort s x1 x2).Keeps q := by
  unfold State.movePort
  repeat' first
    | with_reducible assumption
    | (intro x; refine keeps_step (q := q) (s := x) ?_ ?_; rotate_left; intro hx; clear_value x; rotate_right)
    | (intro x; clear_value x)
    | intro x (hx : State.Keeps x q)
    | intro x
    | lift_lets
    | simp only [x]
    | with_reducible exact ⟨hx.queue, hx.wf⟩
    | with_reducible exact ⟨h.queue, h.wf⟩
    | with_reducible apply setFport_keeps
    | with_reducible apply stick_keeps
    | with_reducible apply waymark_keeps
    | split

theorem portDown_keeps (h : s.Keeps q) (x1 : ℕ) (x2 : PortSt) : (State.portDown s x1 x2).Keeps q := by
  unfold State.portDown
  repeat' first
    | with_reducible assumption
    | (intro x; refine keeps_step (q := q) (s := x) ?_ ?_; rotate_left; intro hx; clear_value x; rotate_right)
    | (intro x; clear_value x)
    | intro x (hx : State.Keeps x q)
    | intro x
    | lift_lets
    | simp only [x]
    | with_reducible exact ⟨hx.queue, hx.wf⟩
    | with_reducible exact ⟨h.queue, h.wf⟩
    | with_reducible apply movePort_keeps
    | split

theorem fabPortSync_keeps (h : s.Keeps q) (x1 : State) (x2 : ℕ) : (State.fabPortSync s x1 x2).Keeps q := by
  unfold State.fabPortSync
  dsimp only
  repeat' first
    | with_reducible assumption
    | with_reducible exact ⟨h.queue, h.wf⟩
    | with_reducible apply portDown_keeps
    | with_reducible apply movePort_keeps
    | split

theorem restartPipes_keeps (h : s.Keeps q) : (State.restartPipes s).Keeps q := by
  unfold State.restartPipes
  repeat' first
    | with_reducible assumption
    | with_reducible exact ⟨h.queue, h.wf⟩
    | intro x (hx : State.Keeps x q)
    | intro x
    | with_reducible exact ⟨hx.queue, hx.wf⟩
    | with_reducible apply each_keeps
    | with_reducible apply startStream_keeps
    | with_reducible apply closeShort_keeps
    | split

theorem setCheck_keeps (h : s.Keeps q) (x1 : ℕ) (x2 : Check) : (State.setCheck s x1 x2).Keeps q := ⟨h.queue, h.wf⟩

theorem countFaulted_keeps (h : s.Keeps q) (x1 : ℕ) (x2 : Bool) : (State.countFaulted s x1 x2).Keeps q := by
  unfold State.countFaulted
  repeat' first
    | with_reducible assumption
    | with_reducible exact ⟨h.queue, h.wf⟩
    | with_reducible apply setFld_keeps
    | split

theorem checkSync_keeps (h : s.Keeps q) (x1 : State) : (State.checkSync s x1).Keeps q := by
  unfold State.checkSync
  repeat' first
    | with_reducible assumption
    | with_reducible exact ⟨h.queue, h.wf⟩
    | intro x (hx : State.Keeps x q)
    | intro x
    | with_reducible exact ⟨hx.queue, hx.wf⟩
    | with_reducible apply each_keeps
    | with_reducible apply countFaulted_keeps
    | with_reducible apply setCheck_keeps
    | split

theorem takeEffect_keeps (h : s.Keeps q) (x1 : State) : (State.takeEffect s x1).Keeps q := by
  unfold State.takeEffect
  repeat' first
    | with_reducible assumption
    | (intro x; refine keeps_step (q := q) (s := x) ?_ ?_; rotate_left; intro hx; clear_value x; rotate_right)
    | (intro x; clear_value x)
    | intro x (hx : State.Keeps x q)
    | intro x
    | lift_lets
    | simp only [x]
    | with_reducible exact ⟨hx.queue, hx.wf⟩
    | with_reducible exact ⟨h.queue, h.wf⟩
    | with_reducible apply checkSync_keeps
    | with_reducible apply restartPipes_keeps
    | with_reducible apply upTo_keeps
    | with_reducible apply fabPortSync_keeps
    | with_reducible apply portSync_keeps
    | with_reducible apply engineStep_keeps
    | with_reducible apply impSync_keeps
    | with_reducible apply ringStep_keeps
    | with_reducible apply quotaStep_keeps
    | with_reducible apply parkEnds_keeps
    | with_reducible apply pairSync_keeps
    | with_reducible apply bankMode_keeps
    | with_reducible apply windowFrom_keeps
    | with_reducible apply sweepSync_keeps
    | with_reducible apply streamsSync_keeps
    | with_reducible apply lateOps_keeps
    | split

theorem keepEdges_keeps (h : s.Keeps q) (x1 : State) : (State.keepEdges s x1).Keeps q := ⟨h.queue, h.wf⟩

theorem dropLow_keeps (h : s.Keeps q) (x1 : ℕ) (x2 : ℕ) : (State.dropLow s x1 x2).Keeps q := ⟨h.queue, h.wf⟩

theorem holdLow_keeps (h : s.Keeps q) (x1 : ℕ) (x2 : ℕ) (x3 : Word) : (State.holdLow s x1 x2 x3).Keeps q := ⟨h.queue, h.wf⟩

theorem clearReg_keeps (h : s.Keeps q) (x1 : ℕ) (x2 : Word) : (State.clearReg s x1 x2).Keeps q := by
  unfold State.clearReg
  repeat' first
    | with_reducible assumption
    | with_reducible exact ⟨h.queue, h.wf⟩
    | with_reducible apply setReg_keeps
    | split

theorem stageBits_keeps (h : s.Keeps q) (x1 : ℕ) (x2 : ℕ) (x3 : Word) (x4 : Word) : (State.stageBits s x1 x2 x3 x4).Keeps q := by
  unfold State.stageBits
  dsimp only
  repeat' first
    | with_reducible assumption
    | with_reducible exact ⟨h.queue, h.wf⟩
    | split

theorem noteUnder_keeps (h : s.Keeps q) (x1 : ℕ) (x2 : Word) (x3 : Word) : (State.noteUnder s x1 x2 x3).Keeps q := ⟨h.queue, h.wf⟩

theorem commitBits_keeps (h : s.Keeps q) (x1 : ℕ) (x2 : Word) (x3 : Word) : (State.commitBits s x1 x2 x3).Keeps q := by
  unfold State.commitBits
  repeat' first
    | with_reducible assumption
    | (intro x; refine keeps_step (q := q) (s := x) ?_ ?_; rotate_left; intro hx; clear_value x; rotate_right)
    | (intro x; clear_value x)
    | intro x (hx : State.Keeps x q)
    | intro x
    | lift_lets
    | simp only [x]
    | with_reducible exact ⟨hx.queue, hx.wf⟩
    | with_reducible exact ⟨h.queue, h.wf⟩
    | with_reducible apply noteUnder_keeps
    | with_reducible apply setReg_keeps
    | split

theorem writeField_keeps (h : s.Keeps q) (x1 : ℕ) (x2 : ℕ) (x3 : Word) (x4 : Word) (x5 : Bool) (x6 : Field) : (State.writeField s x1 x2 x3 x4 x5 x6).Keeps q := by
  unfold State.writeField
  repeat' first
    | with_reducible assumption
    | with_reducible exact ⟨h.queue, h.wf⟩
    | with_reducible apply stickPage_keeps
    | with_reducible apply setReg_keeps
    | with_reducible apply commitBits_keeps
    | with_reducible apply stageBits_keeps
    | with_reducible apply clearReg_keeps
    | split

theorem writeFields_keeps (h : s.Keeps q) (x1 : ℕ) (x2 : ℕ) (x3 : Word) (x4 : Word) (x5 : Bool) : (State.writeFields s x1 x2 x3 x4 x5).Keeps q := by
  unfold State.writeFields
  repeat' first
    | with_reducible assumption
    | with_reducible exact ⟨h.queue, h.wf⟩
    | intro x (hx : State.Keeps x q)
    | intro x
    | with_reducible exact ⟨hx.queue, hx.wf⟩
    | with_reducible apply each_keeps
    | with_reducible apply writeField_keeps
    | split

theorem setTag_keeps (h : s.Keeps q) (x1 : ℕ) (x2 : TagBus) : (State.setTag s x1 x2).Keeps q := ⟨h.queue, h.wf⟩

theorem tagNext_keeps (h : s.Keeps q) : (State.tagNext s).Keeps q := by
  unfold State.tagNext
  repeat' first
    | with_reducible assumption
    | (intro x; refine keeps_step (q := q) (s := x) ?_ ?_; rotate_left; intro hx; clear_value x; rotate_right)
    | (intro x; clear_value x)
    | intro x (hx : State.Keeps x q)
    | intro x
    | lift_lets
    | simp only [x]
    | with_reducible exact ⟨hx.queue, hx.wf⟩
    | with_reducible exact ⟨h.queue, h.wf⟩
    | with_reducible apply setTag_keeps
    | split

theorem tagAsk_keeps (h : s.Keeps q) (x1 : ℕ) : (State.tagAsk s x1).Keeps q := by
  unfold State.tagAsk
  repeat' first
    | with_reducible assumption
    | with_reducible exact ⟨h.queue, h.wf⟩
    | with_reducible apply tagNext_keeps
    | with_reducible apply setTag_keeps
    | split

theorem actTagCmd_keeps (h : s.Keeps q) (x1 : Word) : (State.actTagCmd s x1).Keeps q := by
  unfold State.actTagCmd
  repeat' first
    | with_reducible assumption
    | with_reducible exact ⟨h.queue, h.wf⟩
    | with_reducible apply tagAsk_keeps
    | with_reducible apply tagNext_keeps
    | with_reducible apply stick_keeps
    | split

theorem tagEnd_keeps (h : s.Keeps q) : (State.tagEnd s).Keeps q := by
  unfold State.tagEnd
  repeat' first
    | with_reducible assumption
    | with_reducible exact ⟨h.queue, h.wf⟩
    | with_reducible apply tagNext_keeps
    | split

theorem tagConfig_keeps (h : s.Keeps q) : (State.tagConfig s).Keeps q := by
  unfold State.tagConfig
  repeat' first
    | with_reducible assumption
    | (intro x; refine keeps_step (q := q) (s := x) ?_ ?_; rotate_left; intro hx; clear_value x; rotate_right)
    | (intro x; clear_value x)
    | intro x (hx : State.Keeps x q)
    | intro x
    | lift_lets
    | simp only [x]
    | with_reducible exact ⟨hx.queue, hx.wf⟩
    | with_reducible exact ⟨h.queue, h.wf⟩
    | with_reducible apply upTo_keeps
    | with_reducible apply setTag_keeps
    | with_reducible apply tagEnd_keeps
    | split

theorem rxSlot_keeps (h : s.Keeps q) : (State.rxSlot s).Keeps q := by
  unfold State.rxSlot
  repeat' first
    | with_reducible assumption
    | with_reducible exact ⟨h.queue, h.wf⟩
    | with_reducible apply stick_keeps
    | split

theorem rxDrain_keeps (h : s.Keeps q) : (State.rxDrain s).Keeps q := by
  unfold State.rxDrain
  repeat' first
    | with_reducible assumption
    | (intro x; refine keeps_step (q := q) (s := x) ?_ ?_; rotate_left; intro hx; clear_value x; rotate_right)
    | (intro x; clear_value x)
    | intro x (hx : State.Keeps x q)
    | intro x
    | lift_lets
    | simp only [x]
    | with_reducible exact ⟨hx.queue, hx.wf⟩
    | with_reducible exact ⟨h.queue, h.wf⟩
    | with_reducible apply upTo_keeps
    | with_reducible apply rxSlot_keeps
    | split

theorem actRxHead_keeps (h : s.Keeps q) (x1 : Word) : (State.actRxHead s x1).Keeps q := by
  unfold State.actRxHead
  repeat' first
    | with_reducible assumption
    | with_reducible exact ⟨h.queue, h.wf⟩
    | with_reducible apply rxDrain_keeps
    | with_reducible apply setFld_keeps
    | split

theorem updMark_keeps (h : s.Keeps q) (x1 : ℕ) : (State.updMark s x1).Keeps q := by
  unfold State.updMark
  repeat' first
    | with_reducible assumption
    | with_reducible exact ⟨h.queue, h.wf⟩
    | with_reducible apply waymark_keeps
    | split

theorem updRefuse_keeps (h : s.Keeps q) : (State.updRefuse s).Keeps q := by
  unfold State.updRefuse
  repeat' first
    | with_reducible assumption
    | with_reducible exact ⟨h.queue, h.wf⟩
    | with_reducible apply updStick_keeps
    | split

theorem updResolve_keeps (h : s.Keeps q) (x1 : ℕ) (x2 : Bool) : (State.updResolve s x1 x2).Keeps q := by
  unfold State.updResolve
  repeat' first
    | with_reducible assumption
    | with_reducible exact ⟨h.queue, h.wf⟩
    | with_reducible apply updRefuse_keeps
    | with_reducible apply updMark_keeps
    | with_reducible apply coldReset_keeps
    | split

theorem updAbort_keeps (h : s.Keeps q) (x1 : ℕ) : (State.updAbort s x1).Keeps q := by
  unfold State.updAbort
  repeat' first
    | with_reducible assumption
    | (intro x; refine keeps_step (q := q) (s := x) ?_ ?_; rotate_left; intro hx; clear_value x; rotate_right)
    | (intro x; clear_value x)
    | intro x (hx : State.Keeps x q)
    | intro x
    | lift_lets
    | simp only [x]
    | with_reducible exact ⟨hx.queue, hx.wf⟩
    | with_reducible exact ⟨h.queue, h.wf⟩
    | with_reducible apply updEndDownload_keeps
    | with_reducible apply updRefuse_keeps
    | split

theorem updRollback_keeps (h : s.Keeps q) : (State.updRollback s).Keeps q := by
  unfold State.updRollback
  repeat' first
    | with_reducible assumption
    | (intro x; refine keeps_step (q := q) (s := x) ?_ ?_; rotate_left; intro hx; clear_value x; rotate_right)
    | (intro x; clear_value x)
    | intro x (hx : State.Keeps x q)
    | intro x
    | lift_lets
    | simp only [x]
    | with_reducible exact ⟨hx.queue, hx.wf⟩
    | with_reducible exact ⟨h.queue, h.wf⟩
    | with_reducible apply rollBack_keeps
    | with_reducible apply updRefuse_keeps
    | split

theorem updConfirm_keeps (h : s.Keeps q) : (State.updConfirm s).Keeps q := by
  unfold State.updConfirm
  repeat' first
    | with_reducible assumption
    | (intro x; refine keeps_step (q := q) (s := x) ?_ ?_; rotate_left; intro hx; clear_value x; rotate_right)
    | (intro x; clear_value x)
    | intro x (hx : State.Keeps x q)
    | intro x
    | lift_lets
    | simp only [x]
    | with_reducible exact ⟨hx.queue, hx.wf⟩
    | with_reducible exact ⟨h.queue, h.wf⟩
    | with_reducible apply writeRec_keeps
    | with_reducible apply updMark_keeps
    | with_reducible apply updStick_keeps
    | with_reducible apply updRefuse_keeps
    | split

theorem updActivate_keeps (h : s.Keeps q) (x1 : ℕ) (x2 : Bool) : (State.updActivate s x1 x2).Keeps q := by
  unfold State.updActivate
  repeat' first
    | with_reducible assumption
    | with_reducible exact ⟨h.queue, h.wf⟩
    | with_reducible apply updRefuse_keeps
    | split

theorem updVerify_keeps (h : s.Keeps q) (x1 : ℕ) : (State.updVerify s x1).Keeps q := by
  unfold State.updVerify
  repeat' first
    | with_reducible assumption
    | (intro x; refine keeps_step (q := q) (s := x) ?_ ?_; rotate_left; intro hx; clear_value x; rotate_right)
    | (intro x; clear_value x)
    | intro x (hx : State.Keeps x q)
    | intro x
    | lift_lets
    | simp only [x]
    | with_reducible exact ⟨hx.queue, hx.wf⟩
    | with_reducible exact ⟨h.queue, h.wf⟩
    | with_reducible apply updRefuse_keeps
    | with_reducible apply setSlot_keeps
    | split

theorem updWrite_keeps (h : s.Keeps q) (x1 : ℕ) : (State.updWrite s x1).Keeps q := by
  unfold State.updWrite
  repeat' first
    | with_reducible assumption
    | (intro x; refine keeps_step (q := q) (s := x) ?_ ?_; rotate_left; intro hx; clear_value x; rotate_right)
    | (intro x; clear_value x)
    | intro x (hx : State.Keeps x q)
    | intro x
    | lift_lets
    | simp only [x]
    | with_reducible exact ⟨hx.queue, hx.wf⟩
    | with_reducible exact ⟨h.queue, h.wf⟩
    | with_reducible apply updRefuse_keeps
    | with_reducible apply setSlot_keeps
    | split

theorem updBegin_keeps (h : s.Keeps q) (x1 : ℕ) : (State.updBegin s x1).Keeps q := by
  unfold State.updBegin
  repeat' first
    | with_reducible assumption
    | (intro x; refine keeps_step (q := q) (s := x) ?_ ?_; rotate_left; intro hx; clear_value x; rotate_right)
    | (intro x; clear_value x)
    | intro x (hx : State.Keeps x q)
    | intro x
    | lift_lets
    | simp only [x]
    | with_reducible exact ⟨hx.queue, hx.wf⟩
    | with_reducible exact ⟨h.queue, h.wf⟩
    | with_reducible apply updRefuse_keeps
    | with_reducible apply setSlot_keeps
    | split

theorem actUpd_keeps (h : s.Keeps q) (x1 : ℕ) (x2 : Word) : (State.actUpd s x1 x2).Keeps q := by
  unfold State.actUpd
  dsimp only
  repeat' first
    | with_reducible assumption
    | with_reducible exact ⟨h.queue, h.wf⟩
    | with_reducible apply updStick_keeps
    | with_reducible apply updRefuse_keeps
    | with_reducible apply updBegin_keeps
    | with_reducible apply updWrite_keeps
    | with_reducible apply updVerify_keeps
    | with_reducible apply updActivate_keeps
    | with_reducible apply updConfirm_keeps
    | with_reducible apply updRollback_keeps
    | with_reducible apply updAbort_keeps
    | with_reducible apply updResolve_keeps
    | split

theorem sendLink_keeps (h : s.Keeps q) (x1 : ℕ) (x2 : ℕ) (x3 : ℕ) (x4 : List ℤ) (x5 : ℕ) : (State.sendLink s x1 x2 x3 x4 x5).Keeps q := by
  unfold State.sendLink
  repeat' first
    | with_reducible assumption
    | with_reducible exact ⟨h.queue, h.wf⟩
    | with_reducible apply sendOn_keeps
    | split

theorem floodMode_keeps (h : s.Keeps q) (x1 : Option ℕ) (x2 : ℕ) (x3 : ℕ) (x4 : ℕ) (x5 : ℕ) (x6 : ℕ) : (State.floodMode s x1 x2 x3 x4 x5 x6).Keeps q := by
  unfold State.floodMode
  repeat' first
    | with_reducible assumption
    | with_reducible exact ⟨h.queue, h.wf⟩
    | intro x (hx : State.Keeps x q)
    | intro x
    | with_reducible exact ⟨hx.queue, hx.wf⟩
    | with_reducible apply each_keeps
    | with_reducible apply sendLink_keeps
    | split

theorem takeChange_keeps (h : s.Keeps q) (x1 : Option ℕ) (x2 : Bool) (x3 : ℕ) (x4 : ℕ) (x5 : ℕ) (x6 : ℕ) : (State.takeChange s x1 x2 x3 x4 x5 x6).Keeps q := by
  unfold State.takeChange
  split
  · exact h
  · lift_lets
    intro onTime c g s1 s2
    have h1 : s1.Keeps q := ⟨h.queue, h.wf⟩
    have h2 : s2.Keeps q := by
      simp only [s2]
      split
      · exact floodMode_keeps h1 _ _ _ _ _ _
      · exact h1
    generalize s2 = u at h2 ⊢
    dsimp only
    split
    · exact ⟨h2.queue, h2.wf⟩
    · exact waymark_keeps (glzStick_keeps (by exact ⟨h2.queue, h2.wf⟩) _) _ _

theorem takeRecall_keeps (h : s.Keeps q) (x1 : Option ℕ) (x2 : Bool) (x3 : ℕ) (x4 : ℕ) : (State.takeRecall s x1 x2 x3 x4).Keeps q := by
  unfold State.takeRecall
  split
  · exact h
  · lift_lets
    intro g s1 s2 pending
    have h1 : s1.Keeps q := ⟨h.queue, h.wf⟩
    have h2 : s2.Keeps q := by
      simp only [s2]
      split
      · exact floodMode_keeps h1 _ _ _ _ _ _
      · exact h1
    dsimp only
    split
    · exact waymark_keeps (by exact ⟨h2.queue, h2.wf⟩) _ _
    · split
      · exact waymark_keeps (glzStick_keeps h2 _) _ _
      · exact h2

theorem actMc_keeps (h : s.Keeps q) (x1 : Word) : (State.actMc s x1).Keeps q := by
  unfold State.actMc
  dsimp only
  repeat' first
    | with_reducible assumption
    | with_reducible exact ⟨h.queue, h.wf⟩
    | with_reducible apply glzStick_keeps
    | with_reducible apply takeRecall_keeps
    | with_reducible apply takeChange_keeps
    | split

theorem glzUnload_keeps (h : s.Keeps q) (x1 : ℕ) : (State.glzUnload s x1).Keeps q := by
  unfold State.glzUnload
  dsimp only
  repeat' first
    | with_reducible assumption
    | with_reducible exact ⟨h.queue, h.wf⟩
    | split

theorem runGlzCmd_keeps (h : s.Keeps q) (x1 : Word) : (State.runGlzCmd s x1).Keeps q := by
  unfold State.runGlzCmd
  repeat' first
    | with_reducible assumption
    | with_reducible exact ⟨h.queue, h.wf⟩
    | with_reducible apply glzLoad_keeps
    | with_reducible apply glzUnload_keeps
    | split

theorem actGlzCmd_keeps (h : s.Keeps q) (x1 : Word) : (State.actGlzCmd s x1).Keeps q := by
  unfold State.actGlzCmd
  repeat' first
    | with_reducible assumption
    | with_reducible exact ⟨h.queue, h.wf⟩
    | with_reducible apply runGlzCmd_keeps
    | split

theorem secStick_keeps (h : s.Keeps q) (x1 : ℕ) : (State.secStick s x1).Keeps q := by
  unfold State.secStick
  repeat' first
    | with_reducible assumption
    | with_reducible exact ⟨h.queue, h.wf⟩
    | with_reducible apply stick_keeps
    | split

theorem secFail_keeps (h : s.Keeps q) (x1 : ℕ) : (State.secFail s x1).Keeps q := by
  unfold State.secFail
  repeat' first
    | with_reducible assumption
    | with_reducible exact ⟨h.queue, h.wf⟩
    | with_reducible apply secStick_keeps
    | split

theorem actSec_keeps (h : s.Keeps q) (x1 : Word) : (State.actSec s x1).Keeps q := by
  unfold State.actSec
  dsimp only
  repeat' first
    | with_reducible assumption
    | with_reducible exact ⟨h.queue, h.wf⟩
    | with_reducible apply secStick_keeps
    | with_reducible apply secFail_keeps
    | split

theorem giveUpSeg_keeps (h : s.Keeps q) (x1 : ℕ) : (State.giveUpSeg s x1).Keeps q := by
  unfold State.giveUpSeg
  repeat' first
    | with_reducible assumption
    | with_reducible exact ⟨h.queue, h.wf⟩
    | with_reducible apply giveUp_keeps
    | split

theorem lakDiscard_keeps (h : s.Keeps q) (x1 : ℕ) : (State.lakDiscard s x1).Keeps q := by
  unfold State.lakDiscard
  repeat' first
    | with_reducible assumption
    | (intro x; refine keeps_step (q := q) (s := x) ?_ ?_; rotate_left; intro hx; clear_value x; rotate_right)
    | (intro x; clear_value x)
    | intro x (hx : State.Keeps x q)
    | intro x
    | lift_lets
    | simp only [x]
    | with_reducible exact ⟨hx.queue, hx.wf⟩
    | with_reducible exact ⟨h.queue, h.wf⟩
    | with_reducible apply giveUpSeg_keeps
    | split

theorem lakResolve_keeps (h : s.Keeps q) (x1 : ℕ) : (State.lakResolve s x1).Keeps q := by
  unfold State.lakResolve
  repeat' first
    | with_reducible assumption
    | with_reducible exact ⟨h.queue, h.wf⟩
    | with_reducible apply deliverSeg_keeps
    | split

theorem actLakCmd_keeps (h : s.Keeps q) (x1 : Word) : (State.actLakCmd s x1).Keeps q := by
  unfold State.actLakCmd
  repeat' first
    | with_reducible assumption
    | with_reducible exact ⟨h.queue, h.wf⟩
    | with_reducible apply lakResolve_keeps
    | with_reducible apply lakDiscard_keeps
    | with_reducible apply lakStick_keeps
    | split

theorem startReplay_keeps (h : s.Keeps q) : (State.startReplay s).Keeps q := by
  unfold State.startReplay
  dsimp only
  repeat' first
    | with_reducible assumption
    | with_reducible exact ⟨h.queue, h.wf⟩
    | with_reducible apply stick_keeps
    | split

theorem actReplay_keeps (h : s.Keeps q) (x1 : Word) : (State.actReplay s x1).Keeps q := by
  unfold State.actReplay
  repeat' first
    | with_reducible assumption
    | with_reducible exact ⟨h.queue, h.wf⟩
    | with_reducible apply startReplay_keeps
    | with_reducible apply endReplay_keeps
    | split

theorem actCapCmd_keeps (h : s.Keeps q) (x1 : Word) : (State.actCapCmd s x1).Keeps q := by
  unfold State.actCapCmd
  repeat' first
    | with_reducible assumption
    | with_reducible exact ⟨h.queue, h.wf⟩
    | with_reducible apply fireTrigger_keeps
    | split

theorem ackRule_keeps (h : s.Keeps q) (x1 : ℕ) : (State.ackRule s x1).Keeps q := by
  unfold State.ackRule
  dsimp only
  repeat' first
    | with_reducible assumption
    | with_reducible exact ⟨h.queue, h.wf⟩
    | with_reducible apply voteRule_keeps
    | with_reducible apply setRule_keeps
    | split

theorem noteWake_keeps (h : s.Keeps q) (x1 : ℕ) (x2 : Bool) (x3 : Bool) : (State.noteWake s x1 x2 x3).Keeps q := by
  unfold State.noteWake
  repeat' first
    | with_reducible assumption
    | with_reducible exact ⟨h.queue, h.wf⟩
    | split

theorem revote_keeps (h : s.Keeps q) (x1 : ℕ) (x2 : ℕ) : (State.revote s x1 x2).Keeps q := by
  unfold State.revote
  repeat' first
    | with_reducible assumption
    | with_reducible exact ⟨h.queue, h.wf⟩
    | with_reducible apply voteRule_keeps
    | split

theorem memberChange_keeps (h : s.Keeps q) (x1 : ℕ) (x2 : ℤ) (x3 : ℕ) (x4 : ℕ) (x5 : ℕ) : (State.memberChange s x1 x2 x3 x4 x5).Keeps q := by
  unfold State.memberChange
  repeat' first
    | with_reducible assumption
    | (intro x; refine keeps_step (q := q) (s := x) ?_ ?_; rotate_left; intro hx; clear_value x; rotate_right)
    | (intro x; clear_value x)
    | intro x (hx : State.Keeps x q)
    | intro x
    | lift_lets
    | simp only [x]
    | with_reducible exact ⟨hx.queue, hx.wf⟩
    | with_reducible exact ⟨h.queue, h.wf⟩
    | with_reducible apply each_keeps
    | with_reducible apply voteRule_keeps
    | with_reducible apply revote_keeps
    | split

theorem observeSwitch_keeps (h : s.Keeps q) (x1 : ℕ) (x2 : ℤ) (x3 : ℕ) (x4 : Bool) (x5 : ℕ) : (State.observeSwitch s x1 x2 x3 x4 x5).Keeps q := by
  unfold State.observeSwitch
  dsimp only
  split
  · split
    · exact setSwitch_keeps h _ _
    · exact memberChange_keeps (setSwitch_keeps h _ _) _ _ _ _ _
  · have go : ∀ (l : List (Switch × Nat)) (p : State × Switch), p.1.Keeps q →
        (l.foldl (fun (p : State × Switch) (q : Switch × Nat) =>
          (if q.1.isOn ≠ p.2.isOn ∨ q.1.fault ≠ p.2.fault then
              ((p.1.setSwitch x1 q.1).noteWake x1 p.2.isOn q.1.isOn).memberChange x1 x2 x5 q.2 x3
            else (p.1.setSwitch x1 q.1).noteWake x1 p.2.isOn q.1.isOn, q.1)) p).1.Keeps q := by
      intro l
      induction l with
      | nil => exact fun p hp => hp
      | cons b t ih =>
        refine fun p hp => ih _ ?_
        dsimp only
        split
        · exact memberChange_keeps (noteWake_keeps (setSwitch_keeps hp _ _) _ _ _) _ _ _ _ _
        · exact noteWake_keeps (setSwitch_keeps hp _ _) _ _ _
    exact go _ _ h

theorem takeObs_keeps (h : s.Keeps q) : (State.takeObs s).Keeps q := by
  unfold State.takeObs
  repeat' first
    | with_reducible assumption
    | (intro x; refine keeps_step (q := q) (s := x) ?_ ?_; rotate_left; intro hx; clear_value x; rotate_right)
    | (intro x; clear_value x)
    | intro x (hx : State.Keeps x q)
    | intro x
    | lift_lets
    | simp only [x]
    | with_reducible exact ⟨hx.queue, hx.wf⟩
    | with_reducible exact ⟨h.queue, h.wf⟩
    | with_reducible apply ringAdd_keeps
    | with_reducible apply each_keeps
    | with_reducible apply observeSwitch_keeps
    | split

theorem takeAllObs_keeps (h : s.Keeps q) : (State.takeAllObs s).Keeps q := by
  unfold State.takeAllObs
  repeat' first
    | with_reducible assumption
    | with_reducible exact ⟨h.queue, h.wf⟩
    | intro x (hx : State.Keeps x q)
    | intro x
    | with_reducible exact ⟨hx.queue, hx.wf⟩
    | with_reducible apply upTo_keeps
    | with_reducible apply takeObs_keeps
    | split

theorem actAck_keeps (h : s.Keeps q) (x1 : Word) : (State.actAck s x1).Keeps q := by
  unfold State.actAck
  repeat' first
    | with_reducible assumption
    | with_reducible exact ⟨h.queue, h.wf⟩
    | with_reducible apply ringAdd_keeps
    | with_reducible apply takeAllObs_keeps
    | with_reducible apply each_keeps
    | with_reducible apply ackRule_keeps
    | split

theorem cleanImage_keeps (h : s.Keeps q) (x1 : TableId) (x2 : ℕ) : (State.cleanImage s x1 x2).Keeps q := ⟨h.queue, h.wf⟩

theorem startTimer_keeps (h : s.Keeps q) (x1 : ℕ) : (State.startTimer s x1).Keeps q := ⟨h.queue, h.wf⟩

theorem holdMsix_keeps (h : s.Keeps q) (x1 : Msg) : (State.holdMsix s x1).Keeps q := by
  unfold State.holdMsix
  repeat' first
    | with_reducible assumption
    | (intro x; refine keeps_step (q := q) (s := x) ?_ ?_; rotate_left; intro hx; clear_value x; rotate_right)
    | (intro x; clear_value x)
    | intro x (hx : State.Keeps x q)
    | intro x
    | lift_lets
    | simp only [x]
    | with_reducible exact ⟨hx.queue, hx.wf⟩
    | with_reducible exact ⟨h.queue, h.wf⟩
    | split

theorem messageBy_keeps (h : s.Keeps q) (send : State → Msg → State) (hs : ∀ {t : State} (m : Msg), t.Keeps q → (send t m).Keeps q)
    (t : Nat) (ns : List Nat) : (s.messageBy send t ns).Keeps q := by
  unfold State.messageBy
  split
  · exact h
  · rename_i low tail
    dsimp only
    have h1 : State.Keeps (s.each (low :: tail) fun s n =>
        s.setSource n { s.source n with st := .active, held := false, claimed := false, target := t, last := t }) q :=
      each_keeps h _ _ fun u hu n => setSource_keeps hu _ _
    generalize s.each (low :: tail) _ = u at h1 ⊢
    split
    · exact hs _ h1
    · split
      · exact hs _ ⟨h1.queue, h1.wf⟩
      · exact stick_keeps (countWrap_keeps (by exact ⟨h1.queue, h1.wf⟩) _ _ _ _) _ _ _

theorem releaseBy_keeps (h : s.Keeps q) (send : State → Msg → State) (hs : ∀ {t : State} (m : Msg), t.Keeps q → (send t m).Keeps q)
    (t : Nat) : (s.releaseBy send t).Keeps q := by
  unfold State.releaseBy
  exact messageBy_keeps (by exact ⟨h.queue, h.wf⟩) _ hs _ _

theorem endActive_keeps (h : s.Keeps q) (send : State → Msg → State) (hs : ∀ {t : State} (m : Msg), t.Keeps q → (send t m).Keeps q)
    (again : State → Nat → State) (ha : ∀ {t : State} (n : Nat), t.Keeps q → (again t n).Keeps q) (t n : Nat) :
    (s.endActive send again t n).Keeps q := by
  unfold State.endActive
  lift_lets
  intro x still u
  have h1 : u.Keeps q := by
    simp only [u]
    split
    · exact messageBy_keeps (setSource_keeps h _ _) _ hs _ _
    · split
      · exact ha _ (setSource_keeps h _ _)
      · exact setSource_keeps h _ _
  clear_value u
  split
  · exact releaseBy_keeps h1 _ hs _
  · exact h1

theorem handOver_keeps (n : Nat) (h : s.Keeps q) (m : Msg) : (State.handOver n s m).Keeps q := by
  induction n generalizing s m with
  | zero =>
    unfold State.handOver
    dsimp only
    split
    · split
      · exact ⟨h.queue, h.wf⟩
      · exact holdMsix_keeps h _
    · exact sendTo_keeps h _ _ _ _ _ _
  | succ k ih =>
    unfold State.handOver
    split
    · split
      · exact ⟨h.queue, h.wf⟩
      · exact holdMsix_keeps h _
    · lift_lets
      intro w low priv b u
      have hu : u.Keeps q := sendTo_keeps h _ _ _ _ _ _
      clear_value u
      dsimp only
      split
      · exact each_keeps hu _ _ fun t ht x =>
          endActive_keeps ht _ (fun m hu => ih hu m) _ (fun _ hu => hu) _ _
      · exact hu

theorem releaseHeld_keeps (h : s.Keeps q) (x1 : ℕ) : (State.releaseHeld s x1).Keeps q := by
  unfold State.releaseHeld
  exact releaseBy_keeps h _ (fun m hu => handOver_keeps 4 hu m) _

theorem message_keeps (h : s.Keeps q) (x1 : ℕ) (x2 : List ℕ) : (State.message s x1 x2).Keeps q := by
  unfold State.message
  exact messageBy_keeps h _ (fun m hu => handOver_keeps 4 hu m) _ _

theorem deliver_keeps (h : s.Keeps q) (x1 : ℕ) : (State.deliver s x1).Keeps q := by
  unfold State.deliver
  dsimp only
  repeat' first
    | with_reducible assumption
    | with_reducible exact ⟨h.queue, h.wf⟩
    | with_reducible apply stick_keeps
    | with_reducible apply message_keeps
    | with_reducible apply setSource_keeps
    | with_reducible apply startTimer_keeps
    | with_reducible apply releaseHeld_keeps
    | split

theorem deliverPending_keeps (h : s.Keeps q) : (State.deliverPending s).Keeps q := by
  unfold State.deliverPending
  repeat' first
    | with_reducible assumption
    | with_reducible exact ⟨h.queue, h.wf⟩
    | intro x (hx : State.Keeps x q)
    | intro x
    | with_reducible exact ⟨hx.queue, hx.wf⟩
    | with_reducible apply each_keeps
    | with_reducible apply deliver_keeps
    | split

theorem swapIn_keeps (h : s.Keeps q) (x1 : TableId) (x2 : ℕ) : (State.swapIn s x1 x2).Keeps q := by
  unfold State.swapIn
  repeat' first
    | with_reducible assumption
    | with_reducible exact ⟨h.queue, h.wf⟩
    | intro x (hx : State.Keeps x q)
    | intro x
    | with_reducible exact ⟨hx.queue, hx.wf⟩
    | with_reducible apply keepEffective_keeps
    | with_reducible apply upTo_keeps
    | with_reducible apply noteUnder_keeps
    | with_reducible apply cleanImage_keeps
    | with_reducible apply candidate_keeps
    | with_reducible apply countWrap_keeps
    | with_reducible apply deliverPending_keeps
    | with_reducible apply setReg_keeps
    | split

theorem swapEntry_keeps (h : s.Keeps q) (x1 : TableId) (x2 : ℕ) : (State.swapEntry s x1 x2).Keeps q := by
  unfold State.swapEntry
  repeat' first
    | with_reducible assumption
    | (intro x; refine keeps_step (q := q) (s := x) ?_ ?_; rotate_left; intro hx; clear_value x; rotate_right)
    | (intro x; clear_value x)
    | intro x (hx : State.Keeps x q)
    | intro x
    | lift_lets
    | simp only [x]
    | with_reducible exact ⟨hx.queue, hx.wf⟩
    | with_reducible exact ⟨h.queue, h.wf⟩
    | with_reducible apply swapIn_keeps
    | with_reducible apply cleanImage_keeps
    | with_reducible apply each_keeps
    | with_reducible apply refuseEntry_keeps
    | split

theorem runInvalidate_keeps (h : s.Keeps q) (x1 : TableId) (x2 : Option ℕ) : (State.runInvalidate s x1 x2).Keeps q := by
  unfold State.runInvalidate
  repeat' first
    | with_reducible assumption
    | with_reducible exact ⟨h.queue, h.wf⟩
    | intro x (hx : State.Keeps x q)
    | intro x
    | with_reducible exact ⟨hx.queue, hx.wf⟩
    | with_reducible apply swapEntry_keeps
    | with_reducible apply each_keeps
    | split

theorem actInvalidate_keeps (h : s.Keeps q) (x1 : TableId) (x2 : Word) : (State.actInvalidate s x1 x2).Keeps q := by
  unfold State.actInvalidate
  dsimp only
  repeat' first
    | with_reducible assumption
    | with_reducible exact ⟨h.queue, h.wf⟩
    | with_reducible apply stickPage_keeps
    | with_reducible apply runInvalidate_keeps
    | split

theorem setSpot_keeps (h : s.Keeps q) (x1 : ℕ) (x2 : Spot) : (State.setSpot s x1 x2).Keeps q := ⟨h.queue, h.wf⟩

theorem abortGap_keeps (h : s.Keeps q) (x1 : ℕ) (x2 : ℕ) : (State.abortGap s x1 x2).Keeps q := by
  unfold State.abortGap
  repeat' first
    | with_reducible assumption
    | with_reducible exact ⟨h.queue, h.wf⟩
    | split

theorem beginSpot_keeps (h : s.Keeps q) (x1 : ℕ) (x2 : ℕ) : (State.beginSpot s x1 x2).Keeps q := by
  unfold State.beginSpot
  repeat' first
    | with_reducible assumption
    | with_reducible exact ⟨h.queue, h.wf⟩
    | with_reducible apply abortGap_keeps
    | with_reducible apply setSpot_keeps
    | split

theorem withSwitch_keeps (h : s.Keeps q) (x1 : ℕ) : (State.withSwitch s x1).Keeps q := by
  unfold State.withSwitch
  have hp : ∀ {t : State} (a : Nat) (mask val : Word), t.Keeps q →
      State.Keeps (if a / 0x1000 = x1 then t.setReg a (mergeMask (t.reg a) mask val) else t) q := by
    intro t a mask val ht
    split
    · exact setReg_keeps ht _ _
    · exact ht
  dsimp only
  split
  · exact h
  · repeat' first
      | with_reducible assumption
      | with_reducible apply hp
      | (refine each_keeps ?_ _ _ ?_; rotate_left; intro t ht u; rotate_right)
      | split

theorem withSnaps_keeps (h : s.Keeps q) (x1 : ℕ) : (State.withSnaps s x1).Keeps q := by
  unfold State.withSnaps
  repeat' first
    | with_reducible assumption
    | with_reducible exact ⟨h.queue, h.wf⟩
    | intro x (hx : State.Keeps x q)
    | intro x
    | with_reducible exact ⟨hx.queue, hx.wf⟩
    | with_reducible apply each_keeps
    | with_reducible apply withSwitch_keeps
    | with_reducible apply setReg_keeps
    | split

theorem spotStatus_keeps (h : s.Keeps q) (x1 : ℕ) (x2 : ℕ) : (State.spotStatus s x1 x2).Keeps q := by
  unfold State.spotStatus
  repeat' first
    | with_reducible assumption
    | with_reducible exact ⟨h.queue, h.wf⟩
    | with_reducible apply setFld_keeps
    | split

theorem actSpot_keeps (h : s.Keeps q) (x1 : ℕ) (x2 : Word) : (State.actSpot s x1 x2).Keeps q := by
  unfold State.actSpot
  dsimp only
  repeat' first
    | with_reducible assumption
    | with_reducible exact ⟨h.queue, h.wf⟩
    | with_reducible apply spotStatus_keeps
    | with_reducible apply setSpot_keeps
    | with_reducible apply stick_keeps
    | with_reducible apply beginSpot_keeps
    | with_reducible apply countSat_keeps
    | split

theorem askShadow_keeps (h : s.Keeps q) (x1 : ℕ) (x2 : ℕ) (x3 : ℕ) : (State.askShadow s x1 x2 x3).Keeps q := ⟨h.queue, h.wf⟩

theorem actSpare_keeps (h : s.Keeps q) (x1 : ℕ) (x2 : Word) : (State.actSpare s x1 x2).Keeps q := by
  unfold State.actSpare
  repeat' first
    | with_reducible assumption
    | with_reducible exact ⟨h.queue, h.wf⟩
    | with_reducible apply askShadow_keeps
    | with_reducible apply endShadow_keeps
    | with_reducible apply stick_keeps
    | split

theorem actImpCmd_keeps (h : s.Keeps q) (x1 : ℕ) (x2 : Word) : (State.actImpCmd s x1 x2).Keeps q := ⟨h.queue, h.wf⟩

theorem actCal_keeps (h : s.Keeps q) (x1 : Word) : (State.actCal s x1).Keeps q := by
  unfold State.actCal
  repeat' first
    | with_reducible assumption
    | (intro x; refine keeps_step (q := q) (s := x) ?_ ?_; rotate_left; intro hx; clear_value x; rotate_right)
    | (intro x; clear_value x)
    | intro x (hx : State.Keeps x q)
    | intro x
    | lift_lets
    | simp only [x]
    | with_reducible exact ⟨hx.queue, hx.wf⟩
    | with_reducible exact ⟨h.queue, h.wf⟩
    | with_reducible apply stick_keeps
    | with_reducible apply each_keeps
    | with_reducible apply setBank_keeps
    | split

theorem actFlags_keeps (h : s.Keeps q) (x1 : Bool) (x2 : Bool) (x3 : Word) : (State.actFlags s x1 x2 x3).Keeps q := ⟨h.queue, h.wf⟩

theorem eoi_keeps (h : s.Keeps q) (x1 : ℕ) (x2 : ℕ) (x3 : ℕ) (x4 : Bool) : (State.eoi s x1 x2 x3 x4).Keeps q := by
  unfold State.eoi
  lift_lets
  intro x bad active allowed
  have hb : bad.Keeps q := stick_keeps h _ _ _
  have he := endActive_keeps h (fun s m => State.handOver 4 s m) (fun m hu => handOver_keeps 4 hu m) State.deliver
    (fun n hu => deliver_keeps hu n) x2 x3
  clear_value x bad active allowed
  split
  · exact hb
  · split
    · exact h
    · exact he

theorem actFeoi_keeps (h : s.Keeps q) (x1 : ℕ) (x2 : ℕ) (x3 : Word) : (State.actFeoi s x1 x2 x3).Keeps q := by
  unfold State.actFeoi
  repeat' first
    | with_reducible assumption
    | with_reducible exact ⟨h.queue, h.wf⟩
    | with_reducible apply eoi_keeps
    | split

theorem actEoi_keeps (h : s.Keeps q) (x1 : ℕ) (x2 : ℕ) (x3 : Word) : (State.actEoi s x1 x2 x3).Keeps q := by
  unfold State.actEoi
  repeat' first
    | with_reducible assumption
    | with_reducible exact ⟨h.queue, h.wf⟩
    | with_reducible apply eoi_keeps
    | split

theorem settleHeld_keeps (h : s.Keeps q) : (State.settleHeld s).Keeps q := by
  unfold State.settleHeld
  repeat' first
    | with_reducible assumption
    | (intro x; refine keeps_step (q := q) (s := x) ?_ ?_; rotate_left; intro hx; clear_value x; rotate_right)
    | (intro x; clear_value x)
    | intro x (hx : State.Keeps x q)
    | intro x
    | lift_lets
    | simp only [x]
    | with_reducible exact ⟨hx.queue, hx.wf⟩
    | with_reducible exact ⟨h.queue, h.wf⟩
    | with_reducible apply each_keeps
    | with_reducible apply setSource_keeps
    | with_reducible apply upTo_keeps
    | with_reducible apply releaseHeld_keeps
    | split

theorem writeScfg_keeps (h : s.Keeps q) (x1 : ℕ) (x2 : Word) (x3 : Word) : (State.writeScfg s x1 x2 x3).Keeps q := by
  unfold State.writeScfg
  dsimp only
  repeat' first
    | with_reducible assumption
    | with_reducible exact ⟨h.queue, h.wf⟩
    | with_reducible apply setSource_keeps
    | with_reducible apply stick_keeps
    | with_reducible apply deliverPending_keeps
    | with_reducible apply settleHeld_keeps
    | split

theorem actWmark_keeps (h : s.Keeps q) (x1 : Word) : (State.actWmark s x1).Keeps q := by
  unfold State.actWmark
  repeat' first
    | with_reducible assumption
    | with_reducible exact ⟨h.queue, h.wf⟩
    | with_reducible apply waymark_keeps
    | split

theorem actAdjCtl_keeps (h : s.Keeps q) (x1 : Word) (x2 : ℕ) : (State.actAdjCtl s x1 x2).Keeps q := by
  unfold State.actAdjCtl
  dsimp only
  repeat' first
    | with_reducible assumption
    | with_reducible exact ⟨h.queue, h.wf⟩
    | with_reducible apply stick_keeps
    | split

theorem actSnap_keeps (h : s.Keeps q) (x1 : ℕ) (x2 : Word) : (State.actSnap s x1 x2).Keeps q := by
  unfold State.actSnap
  repeat' first
    | with_reducible assumption
    | with_reducible exact ⟨h.queue, h.wf⟩
    | with_reducible apply loadShadow_keeps
    | split

theorem thmStick_keeps (h : s.Keeps q) (x1 : ℕ) : (State.thmStick s x1).Keeps q := by
  unfold State.thmStick
  repeat' first
    | with_reducible assumption
    | with_reducible exact ⟨h.queue, h.wf⟩
    | with_reducible apply stick_keeps
    | split

theorem actSexcl_keeps (h : s.Keeps q) (x1 : Word) : (State.actSexcl s x1).Keeps q := by
  unfold State.actSexcl
  dsimp only
  repeat' first
    | with_reducible assumption
    | with_reducible exact ⟨h.queue, h.wf⟩
    | with_reducible apply thmStick_keeps
    | with_reducible apply setFld_keeps
    | split

theorem actThmReq_keeps (h : s.Keeps q) (x1 : Word) : (State.actThmReq s x1).Keeps q := by
  unfold State.actThmReq
  repeat' first
    | with_reducible assumption
    | with_reducible exact ⟨h.queue, h.wf⟩
    | split

theorem releaseOutputs_keeps (h : s.Keeps q) : (State.releaseOutputs s).Keeps q := by
  unfold State.releaseOutputs
  repeat' first
    | with_reducible assumption
    | with_reducible exact ⟨h.queue, h.wf⟩
    | intro x (hx : State.Keeps x q)
    | intro x
    | with_reducible exact ⟨hx.queue, hx.wf⟩
    | with_reducible apply upTo_keeps
    | with_reducible apply setAlmOut_keeps
    | split

theorem closeShorts_keeps (h : s.Keeps q) : (State.closeShorts s).Keeps q := by
  unfold State.closeShorts
  repeat' first
    | with_reducible assumption
    | (intro x; refine keeps_step (q := q) (s := x) ?_ ?_; rotate_left; intro hx; clear_value x; rotate_right)
    | (intro x; clear_value x)
    | intro x (hx : State.Keeps x q)
    | intro x
    | lift_lets
    | simp only [x]
    | with_reducible exact ⟨hx.queue, hx.wf⟩
    | with_reducible exact ⟨h.queue, h.wf⟩
    | with_reducible apply upTo_keeps
    | with_reducible apply setPort_keeps
    | split

theorem saveIndex_keeps (h : s.Keeps q) : (State.saveIndex s).Keeps q := ⟨h.queue, h.wf⟩

theorem pwrMark_keeps (h : s.Keeps q) (x1 : PwrSt) (x2 : PwrSt) (x3 : ℕ) : (State.pwrMark s x1 x2 x3).Keeps q := by
  unfold State.pwrMark
  repeat' first
    | with_reducible assumption
    | with_reducible exact ⟨h.queue, h.wf⟩
    | with_reducible apply waymark_keeps
    | split

theorem powerOff_keeps (h : s.Keeps q) (x1 : ℕ) (x2 : ℕ) (x3 : Bool) : (State.powerOff s x1 x2 x3).Keeps q := by
  unfold State.powerOff
  repeat' first
    | with_reducible assumption
    | (intro x; refine keeps_step (q := q) (s := x) ?_ ?_; rotate_left; intro hx; clear_value x; rotate_right)
    | (intro x; clear_value x)
    | intro x (hx : State.Keeps x q)
    | intro x
    | lift_lets
    | simp only [x]
    | with_reducible exact ⟨hx.queue, hx.wf⟩
    | with_reducible exact ⟨h.queue, h.wf⟩
    | with_reducible apply pwrMark_keeps
    | with_reducible apply setReg_keeps
    | with_reducible apply saveIndex_keeps
    | with_reducible apply closeShorts_keeps
    | with_reducible apply releaseOutputs_keeps
    | with_reducible apply upTo_keeps
    | with_reducible apply setFport_keeps
    | split

theorem pwrStick_keeps (h : s.Keeps q) (x1 : ℕ) : (State.pwrStick s x1).Keeps q := by
  unfold State.pwrStick
  repeat' first
    | with_reducible assumption
    | with_reducible exact ⟨h.queue, h.wf⟩
    | with_reducible apply stick_keeps
    | split

theorem actPwrCtrl_keeps (h : s.Keeps q) (x1 : Word) (x2 : ℕ) : (State.actPwrCtrl s x1 x2).Keeps q := by
  unfold State.actPwrCtrl
  repeat' first
    | with_reducible assumption
    | (intro x; refine keeps_step (q := q) (s := x) ?_ ?_; rotate_left; intro hx; clear_value x; rotate_right)
    | (intro x; clear_value x)
    | intro x (hx : State.Keeps x q)
    | intro x
    | lift_lets
    | simp only [x]
    | with_reducible exact ⟨hx.queue, hx.wf⟩
    | with_reducible exact ⟨h.queue, h.wf⟩
    | with_reducible apply pwrStick_keeps
    | with_reducible apply setFld_keeps
    | with_reducible apply powerOff_keeps
    | with_reducible apply leaveIdle_keeps
    | split

theorem actSysReset_keeps (h : s.Keeps q) (x1 : ℕ) (x2 : Word) (x3 : ℕ) : (State.actSysReset s x1 x2 x3).Keeps q := by
  unfold State.actSysReset
  repeat' first
    | with_reducible assumption
    | with_reducible exact ⟨h.queue, h.wf⟩
    | with_reducible apply stick_keeps
    | split

theorem setInc_keeps (h : s.Keeps q) (x1 : ℕ) (x2 : ℕ) : (State.setInc s x1 x2).Keeps q := by
  unfold State.setInc
  repeat' first
    | with_reducible assumption
    | with_reducible exact ⟨h.queue, h.wf⟩
    | with_reducible apply stick_keeps
    | split

theorem actIncHigh_keeps (h : s.Keeps q) (x1 : ℕ) (x2 : Word) (x3 : ℕ) : (State.actIncHigh s x1 x2 x3).Keeps q := by
  unfold State.actIncHigh
  repeat' first
    | with_reducible assumption
    | with_reducible exact ⟨h.queue, h.wf⟩
    | with_reducible apply setInc_keeps
    | with_reducible apply dropLow_keeps
    | split

theorem writePairHigh_keeps (h : s.Keeps q) (x1 : ℕ) (x2 : Pair) (x3 : Word) (x4 : ℕ) : (State.writePairHigh s x1 x2 x3 x4).Keeps q := by
  unfold State.writePairHigh
  repeat' first
    | with_reducible assumption
    | with_reducible exact ⟨h.queue, h.wf⟩
    | with_reducible apply actIncHigh_keeps
    | with_reducible apply setReg_keeps
    | with_reducible apply dropLow_keeps
    | split

theorem addSnapshot_keeps (h : s.Keeps q) (x1 : Snapshot) : (State.addSnapshot s x1).Keeps q := by
  unfold State.addSnapshot
  repeat' first
    | with_reducible assumption
    | (intro x; refine keeps_step (q := q) (s := x) ?_ ?_; rotate_left; intro hx; clear_value x; rotate_right)
    | (intro x; clear_value x)
    | intro x (hx : State.Keeps x q)
    | intro x
    | lift_lets
    | simp only [x]
    | with_reducible exact ⟨hx.queue, hx.wf⟩
    | with_reducible exact ⟨h.queue, h.wf⟩
    | with_reducible apply stickPage_keeps
    | split

theorem emptyStage_keeps (h : s.Keeps q) (x1 : ℕ) (x2 : ℕ) : (State.emptyStage s x1 x2).Keeps q := ⟨h.queue, h.wf⟩

theorem actCommit_keeps (h : s.Keeps q) (x1 : ℕ) (x2 : ℕ) (x3 : Word) : (State.actCommit s x1 x2 x3).Keeps q := by
  unfold State.actCommit
  dsimp only
  repeat' first
    | with_reducible assumption
    | with_reducible exact ⟨h.queue, h.wf⟩
    | with_reducible apply emptyStage_keeps
    | with_reducible apply addSnapshot_keeps
    | split

theorem releaseLock_keeps (h : s.Keeps q) (x1 : ℕ) : (State.releaseLock s x1).Keeps q := ⟨h.queue, h.wf⟩

theorem actLock_keeps (h : s.Keeps q) (x1 : ℕ) (x2 : ℕ) (x3 : Word) : (State.actLock s x1 x2 x3).Keeps q := by
  unfold State.actLock
  repeat' first
    | with_reducible assumption
    | with_reducible exact ⟨h.queue, h.wf⟩
    | with_reducible apply stickPage_keeps
    | with_reducible apply releaseLock_keeps
    | with_reducible apply addSnapshot_keeps
    | with_reducible apply breakLock_keeps
    | split

theorem setEn_keeps (h : s.Keeps q) (x1 : ℕ) (x2 : PageKind) (x3 : Bool) (x4 : ℕ) : (State.setEn s x1 x2 x3 x4).Keeps q := by
  unfold State.setEn
  repeat' first
    | with_reducible assumption
    | (intro x; refine keeps_step (q := q) (s := x) ?_ ?_; rotate_left; intro hx; clear_value x; rotate_right)
    | (intro x; clear_value x)
    | intro x (hx : State.Keeps x q)
    | intro x
    | lift_lets
    | simp only [x]
    | with_reducible exact ⟨hx.queue, hx.wf⟩
    | with_reducible exact ⟨h.queue, h.wf⟩
    | with_reducible apply stickPage_keeps
    | with_reducible apply setFld_keeps
    | split

theorem tagReset_keeps (h : s.Keeps q) : (State.tagReset s).Keeps q := ⟨h.queue, h.wf⟩

theorem glzReset_keeps (h : s.Keeps q) : (State.glzReset s).Keeps q := ⟨h.queue, h.wf⟩

theorem almRestart_keeps (h : s.Keeps q) : (State.almRestart s).Keeps q := by
  unfold State.almRestart
  repeat' first
    | with_reducible assumption
    | (intro x; refine keeps_step (q := q) (s := x) ?_ ?_; rotate_left; intro hx; clear_value x; rotate_right)
    | (intro x; clear_value x)
    | intro x (hx : State.Keeps x q)
    | intro x
    | lift_lets
    | simp only [x]
    | with_reducible exact ⟨hx.queue, hx.wf⟩
    | with_reducible exact ⟨h.queue, h.wf⟩
    | with_reducible apply ringAdd_keeps
    | with_reducible apply releaseOutputs_keeps
    | split

theorem bankReset_keeps (h : s.Keeps q) (x1 : ℕ) : (State.bankReset s x1).Keeps q := by
  unfold State.bankReset
  dsimp only
  repeat' first
    | with_reducible assumption
    | with_reducible exact ⟨h.queue, h.wf⟩
    | with_reducible apply setBank_keeps
    | with_reducible apply spotStatus_keeps
    | split

theorem cal7Reset_keeps (h : s.Keeps q) : (State.cal7Reset s).Keeps q := ⟨h.queue, h.wf⟩

theorem mapSlices_keeps (h : s.Keeps q) (x1 : ℕ) (x2 : ℕ → SliceCal → SliceCal) : (State.mapSlices s x1 x2).Keeps q := by
  unfold State.mapSlices
  repeat' first
    | with_reducible assumption
    | with_reducible exact ⟨h.queue, h.wf⟩
    | intro x (hx : State.Keeps x q)
    | intro x
    | with_reducible exact ⟨hx.queue, hx.wf⟩
    | with_reducible apply upTo_keeps
    | with_reducible apply setSliceCal_keeps
    | split

theorem trimPageReset_keeps (h : s.Keeps q) (x1 : ℕ) : (State.trimPageReset s x1).Keeps q := by
  unfold State.trimPageReset
  repeat' first
    | with_reducible assumption
    | with_reducible exact ⟨h.queue, h.wf⟩
    | intro x (hx : State.Keeps x q)
    | intro x
    | with_reducible exact ⟨hx.queue, hx.wf⟩
    | with_reducible apply each_keeps
    | with_reducible apply upTo_keeps
    | with_reducible apply setReg_keeps
    | with_reducible apply mapSlices_keeps
    | with_reducible apply setBank_keeps
    | split

theorem intReset_keeps (h : s.Keeps q) : (State.intReset s).Keeps q := ⟨h.queue, h.wf⟩

theorem discardSlew_keeps (h : s.Keeps q) : (State.discardSlew s).Keeps q := by
  unfold State.discardSlew
  dsimp only
  repeat' first
    | with_reducible assumption
    | with_reducible exact ⟨h.queue, h.wf⟩
    | with_reducible apply waymark_keeps
    | split

theorem pwrReset_keeps (h : s.Keeps q) : (State.pwrReset s).Keeps q := ⟨h.queue, h.wf⟩

theorem resetDatapath_keeps (h : s.Keeps q) (x1 : PageKind) (x2 : ℕ) : (State.resetDatapath s x1 x2).Keeps q := by
  unfold State.resetDatapath
  split
  case h_14 =>
    have hi := intReset_keeps h
    exact ⟨hi.queue, hi.wf⟩
  case h_15 =>
    have hi := intReset_keeps h
    exact ⟨hi.queue, kWf_filter _ _ _ hi.wf⟩
  case h_13 =>
    have hi := discardSlew_keeps h
    exact ⟨hi.queue, hi.wf⟩
  case h_33 =>
    have hi := endReplay_keeps h 5
    exact ⟨hi.queue, hi.wf⟩
  all_goals first
    | with_reducible exact h
    | with_reducible exact ⟨h.queue, h.wf⟩
    | with_reducible exact pwrReset_keeps h
    | with_reducible exact trimPageReset_keeps h _
    | with_reducible exact cal7Reset_keeps h
    | with_reducible exact impStop_keeps h _
    | with_reducible exact bankReset_keeps h _
    | with_reducible exact setScan_keeps h _ _
    | with_reducible exact almRestart_keeps h
    | with_reducible exact portDown_keeps h _ _
    | with_reducible exact glzReset_keeps h
    | with_reducible exact tagReset_keeps h
    | with_reducible exact upTo_keeps h _ _ fun t ht x => setPort_keeps ht _ _
    | skip
  · refine upTo_keeps h _ _ fun t ht x => ?_
    dsimp only
    split
    · exact setEngine_keeps ht _ _
    · exact setEngine_keeps (noteMark_keeps ht _ _) _ _
  · dsimp only
    split
    · have hi := updEndDownload_keeps h
      exact ⟨hi.queue, hi.wf⟩
    · exact ⟨h.queue, h.wf⟩

end Sys2Proof.Machine
end

