-- ==== Sys2Proof/Laws/Keep3.lean ====
section
/-! SUPPORT. One lemma per function of the model, in the order in which they call one another (part 3 of 4): each keeps the
commands that wait and the canonical form of the register space. -/

set_option linter.all false

namespace Sys2Proof.Machine
open Sys2Proof

variable {q : List Instr} {s t : State}

theorem clearPage_keeps (h : s.Keeps q) (x1 : ℕ) (x2 : PageKind) : (State.clearPage s x1 x2).Keeps q := by
  unfold State.clearPage
  exact ⟨h.queue, kWf_filter _ _ _ h.wf⟩

theorem startReset_keeps (h : s.Keeps q) (x1 : ℕ) : (State.startReset s x1).Keeps q := by
  unfold State.startReset
  split
  · exact h
  · rename_i k inst hp
    dsimp only
    have h1 := clearPage_keeps h x1 k
    have h2 : State.Keeps (if k = PageKind.bank then (s.clearPage x1 k).setFld (ra .bank inst 0x078) 16 9 (s.fld (ra .bank inst 0x078) 16 9)
        else s.clearPage x1 k) q := by
      split
      · exact setFld_keeps h1 _ _ _ _
      · exact h1
    generalize (if k = PageKind.bank then (s.clearPage x1 k).setFld (ra .bank inst 0x078) 16 9 (s.fld (ra .bank inst 0x078) 16 9)
        else s.clearPage x1 k) = t at h2 ⊢
    generalize hz : State.resetDatapath _ k inst = z
    have h3 : z.Keeps q := hz ▸ resetDatapath_keeps (by exact ⟨h2.queue, h2.wf⟩) k inst
    have h4 := checkSync_keeps h3 s
    generalize z.checkSync s = w at h4 ⊢
    split
    · have h5 := stickPage_keeps h4 x1 0
      exact ⟨h5.queue, h5.wf⟩
    · exact ⟨h4.queue, h4.wf⟩

theorem actCtrl_keeps (h : s.Keeps q) (x1 : ℕ) (x2 : PageKind) (x3 : Word) (x4 : Word) (x5 : ℕ) : (State.actCtrl s x1 x2 x3 x4 x5).Keeps q := by
  unfold State.actCtrl
  repeat' first
    | with_reducible assumption
    | with_reducible exact ⟨h.queue, h.wf⟩
    | with_reducible apply startReset_keeps
    | with_reducible apply setEn_keeps
    | split

theorem imageWrite_keeps (h : s.Keeps q) (x1 : TableId) (x2 : ℕ) (x3 : ℕ) (x4 : Word) : (State.imageWrite s x1 x2 x3 x4).Keeps q := by
  unfold State.imageWrite
  repeat' first
    | with_reducible assumption
    | (intro x; refine keeps_step (q := q) (s := x) ?_ ?_; rotate_left; intro hx; clear_value x; rotate_right)
    | (intro x; clear_value x)
    | intro x (hx : State.Keeps x q)
    | intro x
    | lift_lets
    | simp only [x]
    | with_reducible exact ⟨hx.queue, hx.wf⟩
    | with_reducible exact ⟨h.queue, h.wf⟩
    | split

theorem opt_none : ∀ u, (none : Option State) = some u → u.Keeps q := fun _ e => nomatch e

theorem opt_some (h : t.Keeps q) : ∀ u, some t = some u → u.Keeps q := fun _ e => Option.some.inj e ▸ h

theorem opt_ite {c : Prop} [Decidable c] {a b : Option State} (ha : ∀ u, a = some u → u.Keeps q)
    (hb : ∀ u, b = some u → u.Keeps q) : ∀ u, (if c then a else b) = some u → u.Keeps q := by
  split
  · exact ha
  · exact hb

theorem bodyAction_keeps (h : s.Keeps q) {req : Nat} {k : PageKind} {inst off : Nat} {v mask : Word} {due : Nat} {u : State}
    (hb : s.bodyAction req k inst off v mask due = some u) : u.Keeps q := by
  refine (?_ : ∀ u, s.bodyAction req k inst off v mask due = some u → u.Keeps q) u hb
  unfold State.bodyAction
  dsimp only
  split
  all_goals repeat' with_reducible first
    | exact opt_none
    | refine opt_ite ?_ ?_
    | refine opt_some ?_
    | exact h
    | exact ⟨h.queue, h.wf⟩
    | apply actSysReset_keeps h
    | apply actPwrCtrl_keeps h
    | apply actThmReq_keeps h
    | apply actSexcl_keeps h
    | apply actSnap_keeps h
    | apply actAdjCtl_keeps h
    | apply actWmark_keeps h
    | apply setReg_keeps h
    | apply writeScfg_keeps h
    | exact deliverPending_keeps (settleHeld_keeps (writeFields_keeps h _ _ _ _ _))
    | apply actEoi_keeps h
    | apply actFeoi_keeps h
    | apply actFlags_keeps h
    | exact setBank_keeps (writeFields_keeps h _ _ _ _ _) _ _
    | apply actCal_keeps h
    | apply actImpCmd_keeps h
    | apply actSpare_keeps h
    | apply actSpot_keeps h
    | apply actInvalidate_keeps h
    | apply actAck_keeps h
    | apply actCapCmd_keeps h
    | apply stick_keeps h
    | apply actReplay_keeps h
    | apply actLakCmd_keeps h
    | apply actSec_keeps h
    | apply actGlzCmd_keeps h
    | apply actMc_keeps h
    | apply actUpd_keeps h
    | apply actRxHead_keeps h
    | exact tagConfig_keeps (writeFields_keeps h _ _ _ _ _)
    | apply actTagCmd_keeps h

theorem actWrite_keeps (h : s.Keeps q) (x1 : ℕ) (x2 : ℕ) (x3 : Word) (x4 : Word) (x5 : Bool) (x6 : ℕ) : (State.actWrite s x1 x2 x3 x4 x5 x6).Keeps q := by
  unfold State.actWrite
  dsimp only
  split
  · split
    · exact imageWrite_keeps h _ _ _ _
    · split
      · exact h
      · split
        · exact glzStick_keeps h _
        · exact setReg_keeps h _ _
  · split
    · exact h
    · split
      · exact actCtrl_keeps h _ _ _ _ _
      · split
        · exact actLock_keeps h _ _ _
        · split
          · exact actCommit_keeps h _ _ _
          · split
            · split
              · exact h
              · split
                · exact holdLow_keeps h _ _ _
                · exact writePairHigh_keeps h _ _ _ _
            · split
              · rename_i s' hb
                exact bodyAction_keeps h hb
              · exact writeFields_keeps h _ _ _ _ _

theorem actHeld_keeps (h : s.Keeps q) (x1 : ℕ) (x2 : HeldWrite) (x3 : ℕ) : (State.actHeld s x1 x2 x3).Keeps q := by
  unfold State.actHeld
  repeat' first
    | with_reducible assumption
    | (intro x; refine keeps_step (q := q) (s := x) ?_ ?_; rotate_left; intro hx; clear_value x; rotate_right)
    | (intro x; clear_value x)
    | intro x (hx : State.Keeps x q)
    | intro x
    | lift_lets
    | simp only [x]
    | with_reducible exact ⟨hx.queue, hx.wf⟩
    | with_reducible exact ⟨h.queue, h.wf⟩
    | with_reducible apply actWrite_keeps
    | with_reducible apply holdLow_keeps
    | split

theorem withItems_keeps (h : s.Keeps q) (x1 : List StagedWrite) : (State.withItems s x1).Keeps q := by
  unfold State.withItems
  repeat' first
    | with_reducible assumption
    | with_reducible exact ⟨h.queue, h.wf⟩
    | intro x (hx : State.Keeps x q)
    | intro x
    | with_reducible exact ⟨hx.queue, hx.wf⟩
    | with_reducible apply each_keeps
    | with_reducible apply commitBits_keeps
    | split

theorem withHeld_keeps (h : s.Keeps q) (x1 : ℕ) (x2 : List HeldWrite) : (State.withHeld s x1 x2).Keeps q := by
  unfold State.withHeld
  repeat' first
    | with_reducible assumption
    | with_reducible exact ⟨h.queue, h.wf⟩
    | intro x (hx : State.Keeps x q)
    | intro x
    | with_reducible exact ⟨hx.queue, hx.wf⟩
    | with_reducible apply each_keeps
    | with_reducible apply writeFields_keeps
    | split

theorem actNow_keeps (h : s.Keeps q) (f : State → State) (hf : ∀ {t : State}, t.Keeps q → (f t).Keeps q) :
    (s.actNow f).Keeps q := by
  have h1 := @hf { s with tim := { s.tim with msCount := s.tim.msCount - 1 } } (by exact ⟨h.queue, h.wf⟩)
  exact ⟨h1.queue, h1.wf⟩

theorem applySnapshot_keeps (h : s.Keeps q) (x1 : Snapshot) : (State.applySnapshot s x1).Keeps q := by
  unfold State.applySnapshot
  dsimp only
  split
  · refine actNow_keeps (withItems_keeps h _) _ fun ht => each_keeps ht _ _ fun u hu w => actHeld_keeps hu _ _ _
  · exact each_keeps h _ _ fun t ht r => stick_keeps ht _ _ _

theorem applySnapshots_keeps (h : s.Keeps q) : (State.applySnapshots s).Keeps q := by
  unfold State.applySnapshots
  repeat' first
    | with_reducible assumption
    | with_reducible exact ⟨h.queue, h.wf⟩
    | intro x (hx : State.Keeps x q)
    | intro x
    | with_reducible exact ⟨hx.queue, hx.wf⟩
    | with_reducible apply each_keeps
    | with_reducible apply applySnapshot_keeps
    | split

theorem incStep_keeps (h : s.Keeps q) : (State.incStep s).Keeps q := by
  unfold State.incStep
  repeat' first
    | with_reducible assumption
    | with_reducible exact ⟨h.queue, h.wf⟩
    | split

theorem impShift_keeps (h : s.Keeps q) (x1 : ℕ) : (State.impShift s x1).Keeps q := by
  unfold State.impShift
  dsimp only
  repeat' first
    | with_reducible assumption
    | with_reducible exact ⟨h.queue, h.wf⟩
    | with_reducible apply setImp_keeps
    | with_reducible apply impStart_keeps
    | with_reducible apply impRemove_keeps
    | split

theorem shiftInstants_keeps (h : s.Keeps q) (x1 : ℤ) : (State.shiftInstants s x1).Keeps q := by
  unfold State.shiftInstants
  repeat' first
    | with_reducible assumption
    | with_reducible exact ⟨h.queue, h.wf⟩
    | split

theorem jump_keeps (h : s.Keeps q) (x1 : ℤ) : (State.jump s x1).Keeps q := ⟨h.queue, h.wf⟩

theorem stepMark_keeps (h : s.Keeps q) (x1 : ℤ) (x2 : ℤ) (x3 : Bool) : (State.stepMark s x1 x2 x3).Keeps q := by
  unfold State.stepMark
  repeat' first
    | with_reducible assumption
    | with_reducible exact ⟨h.queue, h.wf⟩
    | with_reducible apply waymark_keeps
    | split

theorem startSlew_keeps (h : s.Keeps q) (x1 : ℤ) (x2 : ℕ) : (State.startSlew s x1 x2).Keeps q := by
  unfold State.startSlew
  repeat' first
    | with_reducible assumption
    | with_reducible exact ⟨h.queue, h.wf⟩
    | with_reducible apply waymark_keeps
    | split

theorem applyStep_keeps (h : s.Keeps q) (x1 : ℤ) : (State.applyStep s x1).Keeps q := by
  unfold State.applyStep
  repeat' first
    | with_reducible assumption
    | with_reducible exact ⟨h.queue, h.wf⟩
    | with_reducible apply discardSlew_keeps
    | with_reducible apply startSlew_keeps
    | with_reducible apply stepMark_keeps
    | with_reducible apply jump_keeps
    | split

theorem applyAdj_keeps (h : s.Keeps q) (x1 : Adj) : (State.applyAdj s x1).Keeps q := by
  unfold State.applyAdj
  repeat' first
    | with_reducible assumption
    | (intro x; refine keeps_step (q := q) (s := x) ?_ ?_; rotate_left; intro hx; clear_value x; rotate_right)
    | (intro x; clear_value x)
    | intro x (hx : State.Keeps x q)
    | intro x
    | lift_lets
    | simp only [x]
    | with_reducible exact ⟨hx.queue, hx.wf⟩
    | with_reducible exact ⟨h.queue, h.wf⟩
    | with_reducible apply applyStep_keeps
    | with_reducible apply startSlew_keeps
    | with_reducible apply discardSlew_keeps
    | with_reducible apply stepMark_keeps
    | with_reducible apply jump_keeps
    | with_reducible apply waymark_keeps
    | with_reducible apply stick_keeps
    | split

theorem adjustStep_keeps (h : s.Keeps q) : (State.adjustStep s).Keeps q := by
  unfold State.adjustStep
  dsimp only
  repeat' first
    | with_reducible assumption
    | with_reducible exact ⟨h.queue, h.wf⟩
    | with_reducible apply applyStep_keeps
    | with_reducible apply applyAdj_keeps
    | split

theorem moveTime_keeps (h : s.Keeps q) : (State.moveTime s).Keeps q := by
  unfold State.moveTime
  dsimp only
  repeat' first
    | with_reducible assumption
    | with_reducible exact ⟨h.queue, h.wf⟩
    | with_reducible apply adjustStep_keeps
    | with_reducible apply upTo_keeps
    | with_reducible apply shiftInstants_keeps
    | with_reducible apply impShift_keeps
    | split

theorem endPipe_keeps (h : s.Keeps q) (x1 : ℕ) : (State.endPipe s x1).Keeps q := by
  unfold State.endPipe
  repeat' first
    | with_reducible assumption
    | with_reducible exact ⟨h.queue, h.wf⟩
    | intro x (hx : State.Keeps x q)
    | intro x
    | with_reducible exact ⟨hx.queue, hx.wf⟩
    | with_reducible apply each_keeps
    | with_reducible apply retire_keeps
    | split

theorem setService_keeps (h : s.Keeps q) (x1 : ℕ) (x2 : Bool) : (State.setService s x1 x2).Keeps q := by
  unfold State.setService
  repeat' first
    | with_reducible assumption
    | (intro x; refine keeps_step (q := q) (s := x) ?_ ?_; rotate_left; intro hx; clear_value x; rotate_right)
    | (intro x; clear_value x)
    | intro x (hx : State.Keeps x q)
    | intro x
    | lift_lets
    | simp only [x]
    | with_reducible exact ⟨hx.queue, hx.wf⟩
    | with_reducible exact ⟨h.queue, h.wf⟩
    | with_reducible apply endPipe_keeps
    | with_reducible apply driveOutputs_keeps
    | with_reducible apply almRestart_keeps
    | split

theorem applyEnables_keeps (h : s.Keeps q) : (State.applyEnables s).Keeps q := by
  unfold State.applyEnables
  repeat' first
    | with_reducible assumption
    | with_reducible exact ⟨h.queue, h.wf⟩
    | intro x (hx : State.Keeps x q)
    | intro x
    | with_reducible exact ⟨hx.queue, hx.wf⟩
    | with_reducible apply each_keeps
    | with_reducible apply setService_keeps
    | split

theorem step4_keeps (h : s.Keeps q) (x1 : State) : (State.step4 s x1).Keeps q := by
  unfold State.step4
  repeat' first
    | with_reducible assumption
    | (intro x; refine keeps_step (q := q) (s := x) ?_ ?_; rotate_left; intro hx; clear_value x; rotate_right)
    | (intro x; clear_value x)
    | intro x (hx : State.Keeps x q)
    | intro x
    | lift_lets
    | simp only [x]
    | with_reducible exact ⟨hx.queue, hx.wf⟩
    | with_reducible exact ⟨h.queue, h.wf⟩
    | with_reducible apply applyEnables_keeps
    | with_reducible apply moveTime_keeps
    | with_reducible apply incStep_keeps
    | with_reducible apply applySnapshots_keeps
    | with_reducible apply keepEdges_keeps
    | with_reducible apply takeEffect_keeps
    | with_reducible apply tableEffects_keeps
    | split

theorem refReplace_keeps (h : s.Keeps q) : (State.refReplace s).Keeps q := by
  unfold State.refReplace
  repeat' first
    | with_reducible assumption
    | with_reducible exact ⟨h.queue, h.wf⟩
    | with_reducible apply setFld_keeps
    | with_reducible apply stick_keeps
    | with_reducible apply countWrap_keeps
    | split

theorem startSelfCal_keeps (h : s.Keeps q) (x1 : ℕ) : (State.startSelfCal s x1).Keeps q := by
  unfold State.startSelfCal
  repeat' first
    | with_reducible assumption
    | with_reducible exact ⟨h.queue, h.wf⟩
    | with_reducible apply endShadow_keeps
    | with_reducible apply setBank_keeps
    | split

theorem selfCalStep_keeps (h : s.Keeps q) : (State.selfCalStep s).Keeps q := by
  unfold State.selfCalStep
  repeat' first
    | with_reducible assumption
    | (intro x; refine keeps_step (q := q) (s := x) ?_ ?_; rotate_left; intro hx; clear_value x; rotate_right)
    | (intro x; clear_value x)
    | intro x (hx : State.Keeps x q)
    | intro x
    | lift_lets
    | simp only [x]
    | with_reducible exact ⟨hx.queue, hx.wf⟩
    | with_reducible exact ⟨h.queue, h.wf⟩
    | with_reducible apply upTo_keeps
    | with_reducible apply setBank_keeps
    | with_reducible apply startSelfCal_keeps
    | split

theorem saveTrims_keeps (h : s.Keeps q) (x1 : ℕ) : (State.saveTrims s x1).Keeps q := by
  unfold State.saveTrims
  repeat' first
    | with_reducible assumption
    | with_reducible exact ⟨h.queue, h.wf⟩
    | intro x (hx : State.Keeps x q)
    | intro x
    | with_reducible exact ⟨hx.queue, hx.wf⟩
    | with_reducible apply upTo_keeps
    | with_reducible apply setReg_keeps
    | with_reducible apply setBank_keeps
    | split

theorem bumpEpoch_keeps (h : s.Keeps q) (x1 : ℕ) : (State.bumpEpoch s x1).Keeps q := by
  unfold State.bumpEpoch
  repeat' first
    | with_reducible assumption
    | (intro x; refine keeps_step (q := q) (s := x) ?_ ?_; rotate_left; intro hx; clear_value x; rotate_right)
    | (intro x; clear_value x)
    | intro x (hx : State.Keeps x q)
    | intro x
    | lift_lets
    | simp only [x]
    | with_reducible exact ⟨hx.queue, hx.wf⟩
    | with_reducible exact ⟨h.queue, h.wf⟩
    | with_reducible apply each_keeps
    | with_reducible apply setBank_keeps
    | split

theorem factoryJump_keeps (h : s.Keeps q) (x1 : ℕ) : (State.factoryJump s x1).Keeps q := by
  unfold State.factoryJump
  repeat' first
    | with_reducible assumption
    | with_reducible exact ⟨h.queue, h.wf⟩
    | with_reducible apply bumpEpoch_keeps
    | with_reducible apply mapSlices_keeps
    | split

theorem resetEsts_keeps (h : s.Keeps q) (x1 : ℕ) : (State.resetEsts s x1).Keeps q := by
  unfold State.resetEsts
  repeat' first
    | with_reducible assumption
    | with_reducible exact ⟨h.queue, h.wf⟩
    | with_reducible apply mapSlices_keeps
    | split

theorem restoreJump_keeps (h : s.Keeps q) (x1 : ℕ) : (State.restoreJump s x1).Keeps q := by
  unfold State.restoreJump
  repeat' first
    | with_reducible assumption
    | with_reducible exact ⟨h.queue, h.wf⟩
    | with_reducible apply bumpEpoch_keeps
    | with_reducible apply mapSlices_keeps
    | split

theorem calOp_keeps (h : s.Keeps q) (x1 : ℕ) (x2 : ℕ) : (State.calOp s x1 x2).Keeps q := by
  unfold State.calOp
  repeat' first
    | with_reducible assumption
    | with_reducible exact ⟨h.queue, h.wf⟩
    | with_reducible apply restoreJump_keeps
    | with_reducible apply resetEsts_keeps
    | with_reducible apply factoryJump_keeps
    | split

theorem trackBank_keeps (h : s.Keeps q) (x1 : MsIn) (x2 : ℕ) : (State.trackBank s x1 x2).Keeps q := by
  unfold State.trackBank
  repeat' first
    | with_reducible assumption
    | with_reducible exact ⟨h.queue, h.wf⟩
    | with_reducible apply mapSlices_keeps
    | split

theorem endGap_keeps (h : s.Keeps q) (x1 : ℕ) : (State.endGap s x1).Keeps q := by
  unfold State.endGap
  repeat' first
    | with_reducible assumption
    | with_reducible exact ⟨h.queue, h.wf⟩
    | split

theorem mordant_keeps (h : s.Keeps q) (x1 : MsIn) (x2 : Bool) : (State.mordant s x1 x2).Keeps q := by
  unfold State.mordant
  repeat' first
    | with_reducible assumption
    | (intro x; refine keeps_step (q := q) (s := x) ?_ ?_; rotate_left; intro hx; clear_value x; rotate_right)
    | (intro x; clear_value x)
    | intro x (hx : State.Keeps x q)
    | intro x
    | lift_lets
    | simp only [x]
    | with_reducible exact ⟨hx.queue, hx.wf⟩
    | with_reducible exact ⟨h.queue, h.wf⟩
    | with_reducible apply each_keeps
    | with_reducible apply endGap_keeps
    | with_reducible apply upTo_keeps
    | with_reducible apply trackBank_keeps
    | with_reducible apply factoryJump_keeps
    | with_reducible apply calOp_keeps
    | with_reducible apply saveTrims_keeps
    | with_reducible apply startSelfCal_keeps
    | with_reducible apply selfCalStep_keeps
    | split

theorem endStops_keeps (h : s.Keeps q) (x1 : ℕ) : (State.endStops s x1).Keeps q := by
  unfold State.endStops
  repeat' first
    | with_reducible assumption
    | with_reducible exact ⟨h.queue, h.wf⟩
    | intro x (hx : State.Keeps x q)
    | intro x
    | with_reducible exact ⟨hx.queue, hx.wf⟩
    | with_reducible apply upTo_keeps
    | with_reducible apply each_keeps
    | with_reducible apply setBank_keeps
    | split

theorem shadowsAndStops_keeps (h : s.Keeps q) : (State.shadowsAndStops s).Keeps q := by
  unfold State.shadowsAndStops
  repeat' first
    | with_reducible assumption
    | with_reducible exact ⟨h.queue, h.wf⟩
    | intro x (hx : State.Keeps x q)
    | intro x
    | with_reducible exact ⟨hx.queue, hx.wf⟩
    | with_reducible apply upTo_keeps
    | with_reducible apply endStops_keeps
    | with_reducible apply shadowStarts_keeps
    | with_reducible apply parkEnds_keeps
    | split

theorem pairCheck_keeps (h : s.Keeps q) (x1 : MsIn) (x2 : ℕ) : (State.pairCheck s x1 x2).Keeps q := by
  unfold State.pairCheck
  dsimp only
  repeat' first
    | with_reducible assumption
    | with_reducible exact ⟨h.queue, h.wf⟩
    | with_reducible apply setBank_keeps
    | with_reducible apply setReg_keeps
    | split

theorem pairMarks_keeps (h : s.Keeps q) (x1 : ℕ) : (State.pairMarks s x1).Keeps q := by
  unfold State.pairMarks
  dsimp only
  repeat' first
    | with_reducible assumption
    | with_reducible exact ⟨h.queue, h.wf⟩
    | with_reducible apply setBank_keeps
    | split

theorem noteDegraded_keeps (h : s.Keeps q) (x1 : ℕ) : (State.noteDegraded s x1).Keeps q := by
  unfold State.noteDegraded
  dsimp only
  repeat' first
    | with_reducible assumption
    | with_reducible exact ⟨h.queue, h.wf⟩
    | with_reducible apply stick_keeps
    | with_reducible apply setBank_keeps
    | split

theorem autoSpare_keeps (h : s.Keeps q) (x1 : ℕ) (x2 : ℕ) (x3 : ℕ) : (State.autoSpare s x1 x2 x3).Keeps q := by
  unfold State.autoSpare
  repeat' first
    | with_reducible assumption
    | with_reducible exact ⟨h.queue, h.wf⟩
    | with_reducible apply askShadow_keeps
    | split

theorem sliceFault_keeps (h : s.Keeps q) (x1 : ℕ) (x2 : ℕ) (x3 : ℕ) : (State.sliceFault s x1 x2 x3).Keeps q := by
  unfold State.sliceFault
  repeat' first
    | with_reducible assumption
    | with_reducible exact ⟨h.queue, h.wf⟩
    | with_reducible apply stick_keeps
    | with_reducible apply orReg_keeps
    | split

theorem hardFault_keeps (h : s.Keeps q) (x1 : ℕ) (x2 : ℕ) (x3 : ℕ) (x4 : ℕ) : (State.hardFault s x1 x2 x3 x4).Keeps q := by
  unfold State.hardFault
  dsimp only
  repeat' first
    | with_reducible assumption
    | with_reducible exact ⟨h.queue, h.wf⟩
    | with_reducible apply sliceFault_keeps
    | with_reducible apply endShadow_keeps
    | with_reducible apply setBank_keeps
    | with_reducible apply autoSpare_keeps
    | with_reducible apply noteDegraded_keeps
    | split

theorem stuckCheck_keeps (h : s.Keeps q) (x1 : MsIn) (x2 : ℕ) : (State.stuckCheck s x1 x2).Keeps q := by
  unfold State.stuckCheck
  repeat' first
    | with_reducible assumption
    | (intro x; refine keeps_step (q := q) (s := x) ?_ ?_; rotate_left; intro hx; clear_value x; rotate_right)
    | (intro x; clear_value x)
    | intro x (hx : State.Keeps x q)
    | intro x
    | lift_lets
    | simp only [x]
    | with_reducible exact ⟨hx.queue, hx.wf⟩
    | with_reducible exact ⟨h.queue, h.wf⟩
    | with_reducible apply upTo_keeps
    | with_reducible apply hardFault_keeps
    | split

theorem shadowStep_keeps (h : s.Keeps q) (x1 : MsIn) (x2 : ℕ) : (State.shadowStep s x1 x2).Keeps q := by
  unfold State.shadowStep
  dsimp only
  repeat' first
    | with_reducible assumption
    | with_reducible exact ⟨h.queue, h.wf⟩
    | with_reducible apply setBank_keeps
    | split

theorem bankChecks_keeps (h : s.Keeps q) (x1 : MsIn) : (State.bankChecks s x1).Keeps q := by
  unfold State.bankChecks
  repeat' first
    | with_reducible assumption
    | with_reducible exact ⟨h.queue, h.wf⟩
    | intro x (hx : State.Keeps x q)
    | intro x
    | with_reducible exact ⟨hx.queue, hx.wf⟩
    | with_reducible apply upTo_keeps
    | with_reducible apply shadowStep_keeps
    | with_reducible apply stuckCheck_keeps
    | with_reducible apply pairMarks_keeps
    | with_reducible apply pairCheck_keeps
    | split

theorem heldCal_keeps (h : s.Keeps q) : (State.heldCal s).Keeps q := by
  unfold State.heldCal
  split
  · exact h
  · rename_i hc
    clear hc
    generalize List.filter _ s.acc.snaps = l
    induction l generalizing s with
    | nil => exact h
    | cons x l ih =>
      refine ih (actNow_keeps h _ fun ht => each_keeps ht _ _ fun u hu w => actCal_keeps hu _)

theorem substitute_keeps (h : s.Keeps q) (x1 : ℕ) : (State.substitute s x1).Keeps q := by
  unfold State.substitute
  dsimp only
  repeat' first
    | with_reducible assumption
    | with_reducible exact ⟨h.queue, h.wf⟩
    | with_reducible apply setBank_keeps
    | with_reducible apply setSliceCal_keeps
    | with_reducible apply stick_keeps
    | with_reducible apply orReg_keeps
    | with_reducible apply bumpEpoch_keeps
    | with_reducible apply noteDegraded_keeps
    | split

theorem substitutions_keeps (h : s.Keeps q) : (State.substitutions s).Keeps q := by
  unfold State.substitutions
  repeat' first
    | with_reducible assumption
    | with_reducible exact ⟨h.queue, h.wf⟩
    | intro x (hx : State.Keeps x q)
    | intro x
    | with_reducible exact ⟨hx.queue, hx.wf⟩
    | with_reducible apply upTo_keeps
    | with_reducible apply substitute_keeps
    | with_reducible apply parkEnds_keeps
    | split

theorem step2_keeps (h : s.Keeps q) (x1 : MsIn) : (State.step2 s x1).Keeps q := by
  unfold State.step2
  repeat' first
    | with_reducible assumption
    | with_reducible exact ⟨h.queue, h.wf⟩
    | with_reducible apply substitutions_keeps
    | with_reducible apply heldCal_keeps
    | with_reducible apply bankChecks_keeps
    | with_reducible apply upTo_keeps
    | with_reducible apply bumpEpoch_keeps
    | with_reducible apply shadowsAndStops_keeps
    | with_reducible apply mordant_keeps
    | split

theorem toStep4_keeps (h : s.Keeps q) (x1 : MsIn) : (State.toStep4 s x1).Keeps q := by
  unfold State.toStep4
  exact step4_keeps (openHold_keeps (noteEpoch_keeps (step3_keeps (step2_keeps (refReplace_keeps h) _)))) _

theorem portSleepDown_keeps (h : s.Keeps q) (x1 : ℕ) : (State.portSleepDown s x1).Keeps q := by
  unfold State.portSleepDown
  dsimp only
  repeat' first
    | with_reducible assumption
    | with_reducible exact ⟨h.queue, h.wf⟩
    | with_reducible apply movePort_keeps
    | split

theorem intLinkReset_keeps (h : s.Keeps q) : (State.intLinkReset s).Keeps q := by
  unfold State.intLinkReset
  repeat' first
    | with_reducible assumption
    | (intro x; refine keeps_step (q := q) (s := x) ?_ ?_; rotate_left; intro hx; clear_value x; rotate_right)
    | (intro x; clear_value x)
    | intro x (hx : State.Keeps x q)
    | intro x
    | lift_lets
    | simp only [x]
    | with_reducible exact ⟨hx.queue, hx.wf⟩
    | with_reducible exact ⟨h.queue, h.wf⟩
    | with_reducible apply each_keeps
    | with_reducible apply setSource_keeps
    | split

theorem hostLinkDown_keeps (h : s.Keeps q) : (State.hostLinkDown s).Keeps q := by
  unfold State.hostLinkDown
  repeat' first
    | with_reducible assumption
    | (intro x; refine keeps_step (q := q) (s := x) ?_ ?_; rotate_left; intro hx; clear_value x; rotate_right)
    | (intro x; clear_value x)
    | intro x (hx : State.Keeps x q)
    | intro x
    | lift_lets
    | simp only [x]
    | with_reducible exact ⟨hx.queue, hx.wf⟩
    | with_reducible exact ⟨h.queue, h.wf⟩
    | with_reducible apply each_keeps
    | with_reducible apply updHolderLost_keeps
    | with_reducible apply dropRequester_keeps
    | with_reducible apply intLinkReset_keeps
    | with_reducible apply setFld_keeps
    | with_reducible apply dropSession_keeps
    | with_reducible apply dropNumber_keeps
    | with_reducible apply stick_keeps
    | split

theorem enterDeepSleep_keeps (h : s.Keeps q) : (State.enterDeepSleep s).Keeps q := by
  unfold State.enterDeepSleep
  repeat' first
    | with_reducible assumption
    | (intro x; refine keeps_step (q := q) (s := x) ?_ ?_; rotate_left; intro hx; clear_value x; rotate_right)
    | (intro x; clear_value x)
    | intro x (hx : State.Keeps x q)
    | intro x
    | lift_lets
    | simp only [x]
    | with_reducible exact ⟨hx.queue, hx.wf⟩
    | with_reducible exact ⟨h.queue, h.wf⟩
    | with_reducible apply pwrMark_keeps
    | with_reducible apply upTo_keeps
    | with_reducible apply stopEngine_keeps
    | with_reducible apply hostLinkDown_keeps
    | with_reducible apply saveIndex_keeps
    | with_reducible apply portSleepDown_keeps
    | split

theorem tryDeepSleep_keeps (h : s.Keeps q) : (State.tryDeepSleep s).Keeps q := by
  unfold State.tryDeepSleep
  dsimp only
  repeat' first
    | with_reducible assumption
    | with_reducible exact ⟨h.queue, h.wf⟩
    | with_reducible apply pwrStick_keeps
    | with_reducible apply enterDeepSleep_keeps
    | split

theorem setPlace_keeps (h : s.Keeps q) (x1 : ℕ) (x2 : Place) : (State.setPlace s x1 x2).Keeps q := ⟨h.queue, h.wf⟩

theorem movePorts_keeps (h : s.Keeps q) (x1 : List Spot4) : (State.movePorts s x1).Keeps q := by
  unfold State.movePorts
  repeat' first
    | with_reducible assumption
    | (intro x; refine keeps_step (q := q) (s := x) ?_ ?_; rotate_left; intro hx; clear_value x; rotate_right)
    | (intro x; clear_value x)
    | intro x (hx : State.Keeps x q)
    | intro x
    | lift_lets
    | simp only [x]
    | with_reducible exact ⟨hx.queue, hx.wf⟩
    | with_reducible exact ⟨h.queue, h.wf⟩
    | with_reducible apply upTo_keeps
    | with_reducible apply setPlace_keeps
    | split

theorem applyPlaces_keeps (h : s.Keeps q) (x1 : List Spot4) : (State.applyPlaces s x1).Keeps q := by
  unfold State.applyPlaces
  repeat' first
    | with_reducible assumption
    | with_reducible exact ⟨h.queue, h.wf⟩
    | intro x (hx : State.Keeps x q)
    | intro x
    | with_reducible exact ⟨hx.queue, hx.wf⟩
    | with_reducible apply upTo_keeps
    | with_reducible apply movePorts_keeps
    | with_reducible apply bankMode_keeps
    | split

theorem markShort_keeps (h : s.Keeps q) (x1 : List ℕ) : (State.markShort s x1).Keeps q := by
  unfold State.markShort
  repeat' first
    | with_reducible assumption
    | (intro x; refine keeps_step (q := q) (s := x) ?_ ?_; rotate_left; intro hx; clear_value x; rotate_right)
    | (intro x; clear_value x)
    | intro x (hx : State.Keeps x q)
    | intro x
    | lift_lets
    | simp only [x]
    | with_reducible exact ⟨hx.queue, hx.wf⟩
    | with_reducible exact ⟨h.queue, h.wf⟩
    | with_reducible apply upTo_keeps
    | with_reducible apply setPlace_keeps
    | split

theorem shortfall_keeps (h : s.Keeps q) (x1 : List ℕ) : (State.shortfall s x1).Keeps q := by
  unfold State.shortfall
  repeat' first
    | with_reducible assumption
    | with_reducible exact ⟨h.queue, h.wf⟩
    | with_reducible apply stick_keeps
    | with_reducible apply markShort_keeps
    | with_reducible apply applyPlaces_keeps
    | split

theorem allocMoves_keeps (h : s.Keeps q) : (State.allocMoves s).Keeps q := by
  unfold State.allocMoves
  dsimp only
  repeat' first
    | with_reducible assumption
    | with_reducible exact ⟨h.queue, h.wf⟩
    | with_reducible apply markShort_keeps
    | with_reducible apply applyPlaces_keeps
    | with_reducible apply shortfall_keeps
    | split

theorem streamsMoved_keeps (h : s.Keeps q) : (State.streamsMoved s).Keeps q := by
  unfold State.streamsMoved
  repeat' first
    | with_reducible assumption
    | with_reducible exact ⟨h.queue, h.wf⟩
    | with_reducible apply streamsSync_keeps
    | with_reducible apply ringAdd_keeps
    | split

theorem quietRestart_keeps (h : s.Keeps q) : (State.quietRestart s).Keeps q := by
  unfold State.quietRestart
  repeat' first
    | with_reducible assumption
    | with_reducible exact ⟨h.queue, h.wf⟩
    | intro x (hx : State.Keeps x q)
    | intro x
    | with_reducible exact ⟨hx.queue, hx.wf⟩
    | with_reducible apply each_keeps
    | with_reducible apply setSwitch_keeps
    | split

theorem enterSleep_keeps (h : s.Keeps q) : (State.enterSleep s).Keeps q := by
  unfold State.enterSleep
  repeat' first
    | with_reducible assumption
    | (intro x; refine keeps_step (q := q) (s := x) ?_ ?_; rotate_left; intro hx; clear_value x; rotate_right)
    | (intro x; clear_value x)
    | intro x (hx : State.Keeps x q)
    | intro x
    | lift_lets
    | simp only [x]
    | with_reducible exact ⟨hx.queue, hx.wf⟩
    | with_reducible exact ⟨h.queue, h.wf⟩
    | with_reducible apply pwrMark_keeps
    | with_reducible apply upTo_keeps
    | with_reducible apply quietRestart_keeps
    | with_reducible apply impStop_keeps
    | with_reducible apply stopEngine_keeps
    | with_reducible apply movePort_keeps
    | with_reducible apply setPlace_keeps
    | with_reducible apply streamsMoved_keeps
    | with_reducible apply allocMoves_keeps
    | split

theorem trySleep_keeps (h : s.Keeps q) : (State.trySleep s).Keeps q := by
  unfold State.trySleep
  repeat' first
    | with_reducible assumption
    | with_reducible exact ⟨h.queue, h.wf⟩
    | with_reducible apply pwrStick_keeps
    | with_reducible apply enterSleep_keeps
    | split

theorem idleMark_keeps (h : s.Keeps q) : (State.idleMark s).Keeps q := by
  unfold State.idleMark
  repeat' first
    | with_reducible assumption
    | with_reducible exact ⟨h.queue, h.wf⟩
    | with_reducible apply pwrMark_keeps
    | split

theorem powerStep_keeps (h : s.Keeps q) (x1 : MsIn) : (State.powerStep s x1).Keeps q := by
  unfold State.powerStep
  repeat' first
    | with_reducible assumption
    | (intro x; refine keeps_step (q := q) (s := x) ?_ ?_; rotate_left; intro hx; clear_value x; rotate_right)
    | (intro x; clear_value x)
    | intro x (hx : State.Keeps x q)
    | intro x
    | lift_lets
    | simp only [x]
    | with_reducible exact ⟨hx.queue, hx.wf⟩
    | with_reducible exact ⟨h.queue, h.wf⟩
    | with_reducible apply idleMark_keeps
    | with_reducible apply leaveIdle_keeps
    | with_reducible apply pwrMark_keeps
    | with_reducible apply trySleep_keeps
    | with_reducible apply tryDeepSleep_keeps
    | split

theorem thmConditions_keeps (h : s.Keeps q) (x1 : ℕ) : (State.thmConditions s x1).Keeps q := ⟨h.queue, h.wf⟩

theorem thmMark_keeps (h : s.Keeps q) (x1 : ℕ) (x2 : ℕ) : (State.thmMark s x1 x2).Keeps q := by
  unfold State.thmMark
  repeat' first
    | with_reducible assumption
    | with_reducible exact ⟨h.queue, h.wf⟩
    | with_reducible apply waymark_keeps
    | split

theorem thmWarning_keeps (h : s.Keeps q) : (State.thmWarning s).Keeps q := by
  unfold State.thmWarning
  dsimp only
  repeat' first
    | with_reducible assumption
    | with_reducible exact ⟨h.queue, h.wf⟩
    | with_reducible apply thmMark_keeps
    | with_reducible apply thmStick_keeps
    | split

theorem thmRequest_keeps (h : s.Keeps q) : (State.thmRequest s).Keeps q := by
  unfold State.thmRequest
  dsimp only
  repeat' first
    | with_reducible assumption
    | with_reducible exact ⟨h.queue, h.wf⟩
    | with_reducible apply thmMark_keeps
    | with_reducible apply thmStick_keeps
    | split

theorem thmMilestone_keeps (h : s.Keeps q) : (State.thmMilestone s).Keeps q := by
  unfold State.thmMilestone
  repeat' first
    | with_reducible assumption
    | with_reducible exact ⟨h.queue, h.wf⟩
    | with_reducible apply thmRequest_keeps
    | with_reducible apply thmWarning_keeps
    | with_reducible apply upTo_keeps
    | with_reducible apply thmConditions_keeps
    | split

theorem throttleFlags_keeps (h : s.Keeps q) : (State.throttleFlags s).Keeps q := by
  unfold State.throttleFlags
  repeat' first
    | with_reducible assumption
    | (intro x; refine keeps_step (q := q) (s := x) ?_ ?_; rotate_left; intro hx; clear_value x; rotate_right)
    | (intro x; clear_value x)
    | intro x (hx : State.Keeps x q)
    | intro x
    | lift_lets
    | simp only [x]
    | with_reducible exact ⟨hx.queue, hx.wf⟩
    | with_reducible exact ⟨h.queue, h.wf⟩
    | with_reducible apply upTo_keeps
    | with_reducible apply setPlace_keeps
    | split

theorem foresee_keeps (h : s.Keeps q) : (State.foresee s).Keeps q := by
  unfold State.foresee
  repeat' first
    | with_reducible assumption
    | (intro x; refine keeps_step (q := q) (s := x) ?_ ?_; rotate_left; intro hx; clear_value x; rotate_right)
    | (intro x; clear_value x)
    | intro x (hx : State.Keeps x q)
    | intro x
    | lift_lets
    | simp only [x]
    | with_reducible exact ⟨hx.queue, hx.wf⟩
    | with_reducible exact ⟨h.queue, h.wf⟩
    | with_reducible apply each_keeps
    | with_reducible apply setPlace_keeps
    | split

theorem noteActivity_keeps (h : s.Keeps q) (x1 : MsIn) : (State.noteActivity s x1).Keeps q := by
  unfold State.noteActivity
  repeat' first
    | with_reducible assumption
    | (intro x; refine keeps_step (q := q) (s := x) ?_ ?_; rotate_left; intro hx; clear_value x; rotate_right)
    | (intro x; clear_value x)
    | intro x (hx : State.Keeps x q)
    | intro x
    | lift_lets
    | simp only [x]
    | with_reducible exact ⟨hx.queue, hx.wf⟩
    | with_reducible exact ⟨h.queue, h.wf⟩
    | with_reducible apply upTo_keeps
    | with_reducible apply setPlace_keeps
    | split

theorem step6_keeps (h : s.Keeps q) (x1 : MsIn) : (State.step6 s x1).Keeps q := by
  unfold State.step6
  repeat' first
    | with_reducible assumption
    | (intro x; refine keeps_step (q := q) (s := x) ?_ ?_; rotate_left; intro hx; clear_value x; rotate_right)
    | (intro x; clear_value x)
    | intro x (hx : State.Keeps x q)
    | intro x
    | lift_lets
    | simp only [x]
    | with_reducible exact ⟨hx.queue, hx.wf⟩
    | with_reducible exact ⟨h.queue, h.wf⟩
    | with_reducible apply noteActivity_keeps
    | with_reducible apply foresee_keeps
    | with_reducible apply allocMoves_keeps
    | with_reducible apply streamsSync_keeps
    | with_reducible apply throttleFlags_keeps
    | split

theorem flushOut_keeps (h : s.Keeps q) : (State.flushOut s).Keeps q := by
  unfold State.flushOut
  repeat' first
    | with_reducible assumption
    | (intro x; refine keeps_step (q := q) (s := x) ?_ ?_; rotate_left; intro hx; clear_value x; rotate_right)
    | (intro x; clear_value x)
    | intro x (hx : State.Keeps x q)
    | intro x
    | lift_lets
    | simp only [x]
    | with_reducible exact ⟨hx.queue, hx.wf⟩
    | with_reducible exact ⟨h.queue, h.wf⟩
    | with_reducible apply each_keeps
    | with_reducible apply sendOut_keeps
    | split

theorem inOrder_keeps (h : s.Keeps q) (f : State → State) (hf : ∀ {t : State}, t.Keeps q → (f t).Keeps q) :
    (s.inOrder f).Keeps q := by
  unfold State.inOrder
  split
  · exact hf h
  · exact flushOut_keeps (hf (by exact ⟨h.queue, h.wf⟩))

theorem asLate_keeps (h : s.Keeps q) (l : LateChain) (f : State → State) (hf : ∀ {t : State}, t.Keeps q → (f t).Keeps q) :
    (s.asLate l f).Keeps q := by
  unfold State.asLate
  dsimp only
  generalize hz : f _ = z
  have h1 : z.Keeps q := hz ▸ hf (setStream_keeps (by exact ⟨h.queue, h.wf⟩) _ _)
  exact ⟨h1.queue, h1.wf⟩

theorem sendDeferred_keeps (h : s.Keeps q) : (State.sendDeferred s).Keeps q := by
  unfold State.sendDeferred
  dsimp only
  refine each_keeps (by exact ⟨h.queue, h.wf⟩) _ _ fun t ht m => ?_
  split
  · exact handOver_keeps 4 (by exact ⟨ht.queue, ht.wf⟩) _
  · exact ⟨ht.queue, ht.wf⟩

theorem pulse_keeps (h : s.Keeps q) (x1 : ℕ) : (State.pulse s x1).Keeps q := ⟨h.queue, h.wf⟩

theorem intStep_keeps (h : s.Keeps q) : (State.intStep s).Keeps q := by
  unfold State.intStep
  repeat' first
    | with_reducible assumption
    | with_reducible exact ⟨h.queue, h.wf⟩
    | with_reducible apply pulse_keeps
    | with_reducible apply sendDeferred_keeps
    | split

theorem autoSwap_keeps (h : s.Keeps q) (x1 : TableId) (x2 : ℕ) : (State.autoSwap s x1 x2).Keeps q := by
  unfold State.autoSwap
  repeat' first
    | with_reducible assumption
    | (intro x; refine keeps_step (q := q) (s := x) ?_ ?_; rotate_left; intro hx; clear_value x; rotate_right)
    | (intro x; clear_value x)
    | intro x (hx : State.Keeps x q)
    | intro x
    | lift_lets
    | simp only [x]
    | with_reducible exact ⟨hx.queue, hx.wf⟩
    | with_reducible exact ⟨h.queue, h.wf⟩
    | with_reducible apply swapEntry_keeps
    | split

theorem forcedSwaps_keeps (h : s.Keeps q) : (State.forcedSwaps s).Keeps q := by
  unfold State.forcedSwaps
  repeat' first
    | with_reducible assumption
    | with_reducible exact ⟨h.queue, h.wf⟩
    | intro x (hx : State.Keeps x q)
    | intro x
    | with_reducible exact ⟨hx.queue, hx.wf⟩
    | with_reducible apply each_keeps
    | with_reducible apply autoSwap_keeps
    | split

theorem dirtyAges_keeps (h : s.Keeps q) : (State.dirtyAges s).Keeps q := by
  unfold State.dirtyAges
  repeat' first
    | with_reducible assumption
    | with_reducible exact ⟨h.queue, h.wf⟩
    | with_reducible apply forcedSwaps_keeps
    | split

theorem countStep_keeps (h : s.Keeps q) (x1 : MsIn) : (State.countStep s x1).Keeps q := by
  unfold State.countStep
  repeat' first
    | with_reducible assumption
    | (intro x; refine keeps_step (q := q) (s := x) ?_ ?_; rotate_left; intro hx; clear_value x; rotate_right)
    | (intro x; clear_value x)
    | intro x (hx : State.Keeps x q)
    | intro x
    | lift_lets
    | simp only [x]
    | with_reducible exact ⟨hx.queue, hx.wf⟩
    | with_reducible exact ⟨h.queue, h.wf⟩
    | with_reducible apply dirtyAges_keeps
    | split

theorem latencies_keeps (h : s.Keeps q) (x1 : MsIn) : (State.latencies s x1).Keeps q := by
  unfold State.latencies
  repeat' first
    | with_reducible assumption
    | with_reducible exact ⟨h.queue, h.wf⟩
    | intro x (hx : State.Keeps x q)
    | intro x
    | with_reducible exact ⟨hx.queue, hx.wf⟩
    | with_reducible apply upTo_keeps
    | with_reducible apply setFld_keeps
    | split

theorem quietStep_keeps (h : s.Keeps q) : (State.quietStep s).Keeps q := by
  unfold State.quietStep
  repeat' first
    | with_reducible assumption
    | (intro x; refine keeps_step (q := q) (s := x) ?_ ?_; rotate_left; intro hx; clear_value x; rotate_right)
    | (intro x; clear_value x)
    | intro x (hx : State.Keeps x q)
    | intro x
    | lift_lets
    | simp only [x]
    | with_reducible exact ⟨hx.queue, hx.wf⟩
    | with_reducible exact ⟨h.queue, h.wf⟩
    | with_reducible apply each_keeps
    | with_reducible apply setSwitch_keeps
    | split

theorem releaseSegs_keeps (h : s.Keeps q) : (State.releaseSegs s).Keeps q := by
  unfold State.releaseSegs
  repeat' first
    | with_reducible assumption
    | with_reducible exact ⟨h.queue, h.wf⟩
    | with_reducible apply each_keeps
    | with_reducible apply dropSeg_keeps
    | split

theorem askHighest_keeps (h : s.Keeps q) : (State.askHighest s).Keeps q := by
  unfold State.askHighest
  repeat' first
    | with_reducible assumption
    | with_reducible exact ⟨h.queue, h.wf⟩
    | intro x (hx : State.Keeps x q)
    | intro x
    | with_reducible exact ⟨hx.queue, hx.wf⟩
    | with_reducible apply each_keeps
    | with_reducible apply sendTo_keeps
    | split

theorem askOriginators_keeps (h : s.Keeps q) : (State.askOriginators s).Keeps q := by
  unfold State.askOriginators
  repeat' first
    | with_reducible assumption
    | with_reducible exact ⟨h.queue, h.wf⟩
    | intro x (hx : State.Keeps x q)
    | intro x
    | with_reducible exact ⟨hx.queue, hx.wf⟩
    | with_reducible apply each_keeps
    | with_reducible apply sendTo_keeps
    | split

theorem sendOwed_keeps (h : s.Keeps q) : (State.sendOwed s).Keeps q := by
  unfold State.sendOwed
  repeat' first
    | with_reducible assumption
    | with_reducible exact ⟨h.queue, h.wf⟩
    | intro x (hx : State.Keeps x q)
    | intro x
    | with_reducible exact ⟨hx.queue, hx.wf⟩
    | with_reducible apply each_keeps
    | with_reducible apply sendTo_keeps
    | with_reducible apply askOriginators_keeps
    | with_reducible apply askHighest_keeps
    | split

theorem segmentStep_keeps (h : s.Keeps q) : (State.segmentStep s).Keeps q := by
  unfold State.segmentStep
  dsimp only
  refine sendOwed_keeps (releaseSegs_keeps (each_keeps h _ _ fun t ht n => ?_))
  split
  · exact ht
  · refine setSeg_keeps ?_ _
    split
    · exact sealSeg_keeps ht _
    · split
      · exact pushSeg_keeps ht _
      · exact ht

theorem fabCounts_keeps (h : s.Keeps q) : (State.fabCounts s).Keeps q := by
  unfold State.fabCounts
  repeat' first
    | with_reducible assumption
    | (intro x; refine keeps_step (q := q) (s := x) ?_ ?_; rotate_left; intro hx; clear_value x; rotate_right)
    | (intro x; clear_value x)
    | intro x (hx : State.Keeps x q)
    | intro x
    | lift_lets
    | simp only [x]
    | with_reducible exact ⟨hx.queue, hx.wf⟩
    | with_reducible exact ⟨h.queue, h.wf⟩
    | with_reducible apply upTo_keeps
    | with_reducible apply setFport_keeps
    | split

theorem timeFrames_keeps (h : s.Keeps q) : (State.timeFrames s).Keeps q := by
  unfold State.timeFrames
  repeat' first
    | with_reducible assumption
    | with_reducible exact ⟨h.queue, h.wf⟩
    | intro x (hx : State.Keeps x q)
    | intro x
    | with_reducible exact ⟨hx.queue, hx.wf⟩
    | with_reducible apply each_keeps
    | with_reducible apply sendLink_keeps
    | split

theorem lockoutStep_keeps (h : s.Keeps q) : (State.lockoutStep s).Keeps q := ⟨h.queue, h.wf⟩

theorem countRefusal_keeps (h : s.Keeps q) (x1 : ℕ) (x2 : Bool) : (State.countRefusal s x1 x2).Keeps q := ⟨h.queue, h.wf⟩

theorem refuseOpen_keeps (h : s.Keeps q) (x1 : Session) : (State.refuseOpen s x1).Keeps q := by
  unfold State.refuseOpen
  repeat' first
    | with_reducible assumption
    | with_reducible exact ⟨h.queue, h.wf⟩
    | with_reducible apply sendSession_keeps
    | with_reducible apply secStick_keeps
    | with_reducible apply countRefusal_keeps
    | split

theorem sessionEnds_keeps (h : s.Keeps q) : (State.sessionEnds s).Keeps q := by
  unfold State.sessionEnds
  repeat' first
    | with_reducible assumption
    | with_reducible exact ⟨h.queue, h.wf⟩
    | intro x (hx : State.Keeps x q)
    | intro x
    | with_reducible exact ⟨hx.queue, hx.wf⟩
    | with_reducible apply each_keeps
    | with_reducible apply closeSession_keeps
    | with_reducible apply dropNumber_keeps
    | with_reducible apply refuseOpen_keeps
    | split

theorem refill_keeps (h : s.Keeps q) : (State.refill s).Keeps q := by
  unfold State.refill
  repeat' first
    | with_reducible assumption
    | with_reducible exact ⟨h.queue, h.wf⟩
    | intro x (hx : State.Keeps x q)
    | intro x
    | with_reducible exact ⟨hx.queue, hx.wf⟩
    | with_reducible apply each_keeps
    | with_reducible apply catchUp_keeps
    | with_reducible apply setSession_keeps
    | split

theorem timState_keeps (h : s.Keeps q) (x1 : TimSt) (x2 : ℕ) (x3 : ℕ) (x4 : Bool) : (State.timState s x1 x2 x3 x4).Keeps q := by
  unfold State.timState
  repeat' first
    | with_reducible assumption
    | with_reducible exact ⟨h.queue, h.wf⟩
    | with_reducible apply noteEpoch_keeps
    | with_reducible apply waymark_keeps
    | split

theorem flood_keeps (h : s.Keeps q) : (State.flood s).Keeps q := by
  unfold State.flood
  repeat' first
    | with_reducible assumption
    | with_reducible exact ⟨h.queue, h.wf⟩
    | intro x (hx : State.Keeps x q)
    | intro x
    | with_reducible exact ⟨hx.queue, hx.wf⟩
    | with_reducible apply each_keeps
    | with_reducible apply sendOn_keeps
    | split

theorem handover_keeps (h : s.Keeps q) : (State.handover s).Keeps q := by
  unfold State.handover
  dsimp only
  repeat' first
    | with_reducible assumption
    | with_reducible exact ⟨h.queue, h.wf⟩
    | with_reducible apply flood_keeps
    | with_reducible apply stick_keeps
    | with_reducible apply timState_keeps
    | split

theorem gnssRoot_keeps (h : s.Keeps q) : (State.gnssRoot s).Keeps q := by
  unfold State.gnssRoot
  repeat' first
    | with_reducible assumption
    | with_reducible exact ⟨h.queue, h.wf⟩
    | with_reducible apply noteEpoch_keeps
    | split

theorem freshCount_keeps (h : s.Keeps q) : (State.freshCount s).Keeps q := by
  unfold State.freshCount
  repeat' first
    | with_reducible assumption
    | with_reducible exact ⟨h.queue, h.wf⟩
    | split

theorem takeAddr_keeps (h : s.Keeps q) (x1 : ℕ) : (State.takeAddr s x1).Keeps q := by
  unfold State.takeAddr
  repeat' first
    | with_reducible assumption
    | with_reducible exact ⟨h.queue, h.wf⟩
    | with_reducible apply waymark_keeps
    | with_reducible apply flood_keeps
    | split

theorem claimAddr_keeps (h : s.Keeps q) : (State.claimAddr s).Keeps q := by
  unfold State.claimAddr
  repeat' first
    | with_reducible assumption
    | (intro x; refine keeps_step (q := q) (s := x) ?_ ?_; rotate_left; intro hx; clear_value x; rotate_right)
    | (intro x; clear_value x)
    | intro x (hx : State.Keeps x q)
    | intro x
    | lift_lets
    | simp only [x]
    | with_reducible exact ⟨hx.queue, hx.wf⟩
    | with_reducible exact ⟨h.queue, h.wf⟩
    | with_reducible apply takeAddr_keeps
    | with_reducible apply each_keeps
    | with_reducible apply sendLink_keeps
    | split

theorem linksUp_keeps (h : s.Keeps q) : (State.linksUp s).Keeps q := by
  unfold State.linksUp
  repeat' first
    | with_reducible assumption
    | (intro x; refine keeps_step (q := q) (s := x) ?_ ?_; rotate_left; intro hx; clear_value x; rotate_right)
    | (intro x; clear_value x)
    | intro x (hx : State.Keeps x q)
    | intro x
    | lift_lets
    | simp only [x]
    | with_reducible exact ⟨hx.queue, hx.wf⟩
    | with_reducible exact ⟨h.queue, h.wf⟩
    | with_reducible apply each_keeps
    | with_reducible apply movePort_keeps
    | with_reducible apply sendLink_keeps
    | with_reducible apply flood_keeps
    | with_reducible apply deliverPending_keeps
    | with_reducible apply sendOn_keeps
    | split

theorem setRoute_keeps (h : s.Keeps q) (x1 : ℕ) (x2 : Word × Word) : (State.setRoute s x1 x2).Keeps q := by
  unfold State.setRoute
  dsimp only
  repeat' first
    | with_reducible assumption
    | with_reducible exact ⟨h.queue, h.wf⟩
    | with_reducible apply setReg_keeps
    | split

theorem giveUpAddr_keeps (h : s.Keeps q) : (State.giveUpAddr s).Keeps q := by
  unfold State.giveUpAddr
  repeat' first
    | with_reducible assumption
    | (intro x; refine keeps_step (q := q) (s := x) ?_ ?_; rotate_left; intro hx; clear_value x; rotate_right)
    | (intro x; clear_value x)
    | intro x (hx : State.Keeps x q)
    | intro x
    | lift_lets
    | simp only [x]
    | with_reducible exact ⟨hx.queue, hx.wf⟩
    | with_reducible exact ⟨h.queue, h.wf⟩
    | with_reducible apply each_keeps
    | with_reducible apply dropSession_keeps
    | with_reducible apply dropNumber_keeps
    | with_reducible apply setRoute_keeps
    | with_reducible apply waymark_keeps
    | with_reducible apply flood_keeps
    | with_reducible apply stick_keeps
    | split

theorem becomeRoot_keeps (h : s.Keeps q) : (State.becomeRoot s).Keeps q := by
  unfold State.becomeRoot
  repeat' first
    | with_reducible assumption
    | with_reducible exact ⟨h.queue, h.wf⟩
    | with_reducible apply flood_keeps
    | with_reducible apply timState_keeps
    | split

theorem elect_keeps (h : s.Keeps q) : (State.elect s).Keeps q := by
  unfold State.elect
  repeat' first
    | with_reducible assumption
    | with_reducible exact ⟨h.queue, h.wf⟩
    | with_reducible apply becomeRoot_keeps
    | with_reducible apply timState_keeps
    | split

theorem linkDelays_keeps (h : s.Keeps q) (x1 : MsIn) : (State.linkDelays s x1).Keeps q := by
  unfold State.linkDelays
  repeat' first
    | with_reducible assumption
    | (intro x; refine keeps_step (q := q) (s := x) ?_ ?_; rotate_left; intro hx; clear_value x; rotate_right)
    | (intro x; clear_value x)
    | intro x (hx : State.Keeps x q)
    | intro x
    | lift_lets
    | simp only [x]
    | with_reducible exact ⟨hx.queue, hx.wf⟩
    | with_reducible exact ⟨h.queue, h.wf⟩
    | with_reducible apply each_keeps
    | with_reducible apply setReg_keeps
    | split

theorem addAdmit_keeps (h : s.Keeps q) (x1 : Admit) : (State.addAdmit s x1).Keeps q := ⟨h.queue, h.wf⟩

theorem askRsv_keeps (h : s.Keeps q) (x1 : Session) : (State.askRsv s x1).Keeps q := by
  unfold State.askRsv
  dsimp only
  repeat' first
    | with_reducible assumption
    | with_reducible exact ⟨h.queue, h.wf⟩
    | with_reducible apply freeRsv_keeps
    | with_reducible apply setSession_keeps
    | with_reducible apply catchUp_keeps
    | with_reducible apply refuseRsv_keeps
    | with_reducible apply unreserve_keeps
    | with_reducible apply addAdmit_keeps
    | with_reducible apply sendTo_keeps
    | split

theorem hopRequest_keeps (h : s.Keeps q) (x1 : ℕ) (x2 : RsvHop) (x3 : ℕ) (x4 : ℕ) : (State.hopRequest s x1 x2 x3 x4).Keeps q := by
  unfold State.hopRequest
  dsimp only
  repeat' first
    | with_reducible assumption
    | with_reducible exact ⟨h.queue, h.wf⟩
    | with_reducible apply unadmit_keeps
    | with_reducible apply sendTo_keeps
    | with_reducible apply freeOnward_keeps
    | with_reducible apply addAdmit_keeps
    | split

theorem heldRequests_keeps (h : s.Keeps q) : (State.heldRequests s).Keeps q := by
  unfold State.heldRequests
  repeat' first
    | with_reducible assumption
    | with_reducible exact ⟨h.queue, h.wf⟩
    | intro x (hx : State.Keeps x q)
    | intro x
    | with_reducible exact ⟨hx.queue, hx.wf⟩
    | with_reducible apply each_keeps
    | with_reducible apply hopRequest_keeps
    | with_reducible apply askRsv_keeps
    | split

theorem fabricStep_keeps (h : s.Keeps q) (x1 : MsIn) : (State.fabricStep s x1).Keeps q := by
  unfold State.fabricStep
  repeat' first
    | with_reducible assumption
    | with_reducible exact ⟨h.queue, h.wf⟩
    | with_reducible apply heldRequests_keeps
    | with_reducible apply linkDelays_keeps
    | with_reducible apply flood_keeps
    | with_reducible apply elect_keeps
    | with_reducible apply giveUpAddr_keeps
    | with_reducible apply linksUp_keeps
    | with_reducible apply claimAddr_keeps
    | with_reducible apply freshCount_keeps
    | with_reducible apply gnssRoot_keeps
    | with_reducible apply handover_keeps
    | with_reducible apply refill_keeps
    | with_reducible apply sessionEnds_keeps
    | with_reducible apply lockoutStep_keeps
    | with_reducible apply timeFrames_keeps
    | with_reducible apply fabCounts_keeps
    | with_reducible apply segmentStep_keeps
    | split

theorem waitsDown_keeps (h : s.Keeps q) : (State.waitsDown s).Keeps q := by
  unfold State.waitsDown
  repeat' first
    | with_reducible assumption
    | (intro x; refine keeps_step (q := q) (s := x) ?_ ?_; rotate_left; intro hx; clear_value x; rotate_right)
    | (intro x; clear_value x)
    | intro x (hx : State.Keeps x q)
    | intro x
    | lift_lets
    | simp only [x]
    | with_reducible exact ⟨hx.queue, hx.wf⟩
    | with_reducible exact ⟨h.queue, h.wf⟩
    | with_reducible apply each_keeps
    | with_reducible apply setEngine_keeps
    | split

theorem refMonitor_keeps (h : s.Keeps q) (x1 : MsIn) : (State.refMonitor s x1).Keeps q := by
  unfold State.refMonitor
  repeat' first
    | with_reducible assumption
    | (intro x; refine keeps_step (q := q) (s := x) ?_ ?_; rotate_left; intro hx; clear_value x; rotate_right)
    | (intro x; clear_value x)
    | intro x (hx : State.Keeps x q)
    | intro x
    | lift_lets
    | simp only [x]
    | with_reducible exact ⟨hx.queue, hx.wf⟩
    | with_reducible exact ⟨h.queue, h.wf⟩
    | with_reducible apply stick_keeps
    | with_reducible apply upTo_keeps
    | with_reducible apply setReg_keeps
    | with_reducible apply setFld_keeps
    | split

theorem scanMilestone_keeps (h : s.Keeps q) : (State.scanMilestone s).Keeps q := by
  unfold State.scanMilestone
  repeat' first
    | with_reducible assumption
    | (intro x; refine keeps_step (q := q) (s := x) ?_ ?_; rotate_left; intro hx; clear_value x; rotate_right)
    | (intro x; clear_value x)
    | intro x (hx : State.Keeps x q)
    | intro x
    | lift_lets
    | simp only [x]
    | with_reducible exact ⟨hx.queue, hx.wf⟩
    | with_reducible exact ⟨h.queue, h.wf⟩
    | with_reducible apply upTo_keeps
    | with_reducible apply setScan_keeps
    | with_reducible apply setSpot_keeps
    | split

theorem trackMains_keeps (h : s.Keeps q) : (State.trackMains s).Keeps q := by
  unfold State.trackMains
  dsimp only
  repeat' first
    | with_reducible assumption
    | with_reducible exact ⟨h.queue, h.wf⟩
    | split

theorem stallDetect_keeps (h : s.Keeps q) : (State.stallDetect s).Keeps q := by
  unfold State.stallDetect
  repeat' first
    | with_reducible assumption
    | (intro x; refine keeps_step (q := q) (s := x) ?_ ?_; rotate_left; intro hx; clear_value x; rotate_right)
    | (intro x; clear_value x)
    | intro x (hx : State.Keeps x q)
    | intro x
    | lift_lets
    | simp only [x]
    | with_reducible exact ⟨hx.queue, hx.wf⟩
    | with_reducible exact ⟨h.queue, h.wf⟩
    | with_reducible apply upTo_keeps
    | split

end Sys2Proof.Machine
end

