-- ==== Sys2Proof/Laws/Keep4.lean ====
section
/-! SUPPORT. One lemma per function of the model, in the order in which they call one another (part 4 of 4): each keeps the
commands that wait and the canonical form of the register space. -/

set_option linter.all false

namespace Sys2Proof.Machine
open Sys2Proof

variable {q : List Instr} {s t : State}

theorem afterSteps_keeps (h : s.Keeps q) (x1 : MsIn) : (State.afterSteps s x1).Keeps q := by
  unfold State.afterSteps
  repeat' first
    | with_reducible assumption
    | with_reducible exact ⟨h.queue, h.wf⟩
    | with_reducible apply stallDetect_keeps
    | with_reducible apply scanMilestone_keeps
    | with_reducible apply replayMilestone_keeps
    | with_reducible apply noteEpoch_keeps
    | with_reducible apply trackMains_keeps
    | with_reducible apply refMonitor_keeps
    | with_reducible apply waitsDown_keeps
    | with_reducible apply fabricStep_keeps
    | with_reducible apply quietStep_keeps
    | with_reducible apply latencies_keeps
    | with_reducible apply stick_keeps
    | with_reducible apply tagNext_keeps
    | with_reducible apply countStep_keeps
    | with_reducible apply intStep_keeps
    | split

theorem tagStart_keeps (h : s.Keeps q) : (State.tagStart s).Keeps q := by
  unfold State.tagStart
  repeat' first
    | with_reducible assumption
    | with_reducible exact ⟨h.queue, h.wf⟩
    | with_reducible apply upTo_keeps
    | with_reducible apply tagAsk_keeps
    | split

theorem startMark_keeps (h : s.Keeps q) : (State.startMark s).Keeps q := by
  unfold State.startMark
  repeat' first
    | with_reducible assumption
    | with_reducible exact ⟨h.queue, h.wf⟩
    | with_reducible apply waymark_keeps
    | split

theorem updStartMark_keeps (h : s.Keeps q) : (State.updStartMark s).Keeps q := by
  unfold State.updStartMark
  repeat' first
    | with_reducible assumption
    | with_reducible exact ⟨h.queue, h.wf⟩
    | with_reducible apply updMark_keeps
    | split

theorem goLive_keeps (h : s.Keeps q) : (State.goLive s).Keeps q := by
  unfold State.goLive
  split
  · exact h
  · dsimp only
    have hu : State.Keeps (State.upTo { s with pwr := { s.pwr with live := true, basePending := false, liveAt := s.tim.time } } 8 fun s p =>
      if s.portOn p && (s.fport p).st = PortSt.down then s.movePort p { s.fport p with st := .training, waited := 0 } else s) q :=
      upTo_keeps (by exact ⟨h.queue, h.wf⟩) _ _ fun t ht p => by
        split
        · exact movePort_keeps ht _ _
        · exact ht
    have hv := updStartMark_keeps (startMark_keeps hu)
    split
    · exact hv
    · exact tagStart_keeps hv

theorem wakeStep_keeps (h : s.Keeps q) : (State.wakeStep s).Keeps q := by
  unfold State.wakeStep
  repeat' first
    | with_reducible assumption
    | (intro x; refine keeps_step (q := q) (s := x) ?_ ?_; rotate_left; intro hx; clear_value x; rotate_right)
    | (intro x; clear_value x)
    | intro x (hx : State.Keeps x q)
    | intro x
    | lift_lets
    | simp only [x]
    | with_reducible exact ⟨hx.queue, hx.wf⟩
    | with_reducible exact ⟨h.queue, h.wf⟩
    | with_reducible apply upTo_keeps
    | with_reducible apply startEngine_keeps
    | with_reducible apply pwrMark_keeps
    | split

theorem windowsAfterStep_keeps (h : s.Keeps q) : (State.windowsAfterStep s).Keeps q := by
  unfold State.windowsAfterStep
  repeat' first
    | with_reducible assumption
    | with_reducible exact ⟨h.queue, h.wf⟩
    | intro x (hx : State.Keeps x q)
    | intro x
    | with_reducible exact ⟨hx.queue, hx.wf⟩
    | with_reducible apply upTo_keeps
    | with_reducible apply startWindow_keeps
    | split

theorem fromStep5_keeps (h : s.Keeps q) (x1 : ℕ) (x2 : MsIn) : (State.fromStep5 s x1 x2).Keeps q := by
  unfold State.fromStep5
  repeat' first
    | with_reducible assumption
    | (intro x; refine keeps_step (q := q) (s := x) ?_ ?_; rotate_left; intro hx; clear_value x; rotate_right)
    | (intro x; clear_value x)
    | intro x (hx : State.Keeps x q)
    | intro x
    | lift_lets
    | simp only [x]
    | with_reducible exact ⟨hx.queue, hx.wf⟩
    | with_reducible exact ⟨h.queue, h.wf⟩
    | with_reducible apply windowsAfterStep_keeps
    | with_reducible apply wakeStep_keeps
    | with_reducible apply idleMark_keeps
    | with_reducible apply goLive_keeps
    | with_reducible apply driveOutputs_keeps
    | with_reducible apply afterSteps_keeps
    | with_reducible apply flushOut_keeps
    | with_reducible apply step6_keeps
    | with_reducible apply thmMilestone_keeps
    | with_reducible apply powerStep_keeps
    | split

theorem slotAtStart_keeps (h : s.Keeps q) : (State.slotAtStart s).Keeps q := by
  unfold State.slotAtStart
  dsimp only
  repeat' first
    | with_reducible assumption
    | with_reducible exact ⟨h.queue, h.wf⟩
    | with_reducible apply updStick_keeps
    | split

theorem factoryCheck_keeps (h : s.Keeps q) : (State.factoryCheck s).Keeps q := by
  unfold State.factoryCheck
  dsimp only
  repeat' first
    | with_reducible assumption
    | with_reducible exact ⟨h.queue, h.wf⟩
    | with_reducible apply setReg_keeps
    | with_reducible apply stick_keeps
    | split

theorem warmReset_keeps (h : s.Keeps q) : (State.warmReset s).Keeps q := by
  unfold State.warmReset
  dsimp only
  refine factoryCheck_keeps (startImage_keeps (slotAtStart_keeps (setReg_keeps (by exact ⟨h.queue, kWf_filter _ _ _ h.wf⟩) _ _)) _
    fun ht => rollbackReset_keeps ht)

theorem fromStep4_keeps (h : s.Keeps q) (x1 : ℕ) (x2 : MsIn) : (State.fromStep4 s x1 x2).Keeps q := by
  unfold State.fromStep4
  repeat' first
    | with_reducible assumption
    | with_reducible exact ⟨h.queue, h.wf⟩
    | with_reducible apply flushOut_keeps
    | with_reducible apply warmReset_keeps
    | with_reducible apply fromStep5_keeps
    | split

theorem stepsOf_keeps (h : s.Keeps q) (x1 : MsIn) : (State.stepsOf s x1).Keeps q := by
  unfold State.stepsOf
  repeat' first
    | with_reducible assumption
    | with_reducible exact ⟨h.queue, h.wf⟩
    | with_reducible apply moveTime_keeps
    | with_reducible apply incStep_keeps
    | with_reducible apply fromStep4_keeps
    | with_reducible apply toStep4_keeps
    | split

theorem thmRegion_keeps (h : s.Keeps q) (x0 : State) (x2 : MsIn) (x3 : ℕ) : (State.thmRegion x0 s x2 x3).Keeps q := ⟨h.queue, h.wf⟩

theorem thmReadings_keeps (h : s.Keeps q) (x1 : MsIn) : (State.thmReadings s x1).Keeps q := by
  unfold State.thmReadings
  repeat' first
    | with_reducible assumption
    | with_reducible exact ⟨h.queue, h.wf⟩
    | intro x (hx : State.Keeps x q)
    | intro x
    | with_reducible exact ⟨hx.queue, hx.wf⟩
    | with_reducible apply upTo_keeps
    | with_reducible apply thmRegion_keeps
    | split

theorem portPeriod_keeps (h : s.Keeps q) (x1 : MsIn) (x2 : ℕ) : (State.portPeriod s x1 x2).Keeps q := by
  unfold State.portPeriod
  dsimp only
  repeat' first
    | with_reducible assumption
    | with_reducible exact ⟨h.queue, h.wf⟩
    | with_reducible apply setPort_keeps
    | split

theorem pulseOut_keeps (h : s.Keeps q) (x1 : ℕ) (x2 : ℤ) (x3 : ℤ) (x4 : ℤ) (x5 : Bool) (x6 : Gather) : (State.pulseOut s x1 x2 x3 x4 x5 x6).Keeps q := by
  unfold State.pulseOut
  dsimp only
  repeat' first
    | with_reducible assumption
    | with_reducible exact ⟨h.queue, h.wf⟩
    | with_reducible apply setStream_keeps
    | split

theorem closeUntil_keeps (h : s.Keeps q) (i : Nat) (stamp : Int) (n : Nat) : (s.closeUntil i stamp n).Keeps q := by
  induction n generalizing s with
  | zero => exact h
  | succ n ih =>
    unfold State.closeUntil
    dsimp only
    split
    · exact ih (closeInterval_keeps h _)
    · exact h

theorem featureOut_keeps (h : s.Keeps q) (x1 : ℕ) (x2 : ℤ) (x3 : ℤ) (x4 : Bool) (x5 : Bool) (x6 : Gather) : (State.featureOut s x1 x2 x3 x4 x5 x6).Keeps q := by
  unfold State.featureOut
  dsimp only
  repeat' first
    | with_reducible assumption
    | with_reducible exact ⟨h.queue, h.wf⟩
    | with_reducible apply setStream_keeps
    | split

theorem chainOut_keeps (h : s.Keeps q) (x1 : ℕ) (x2 : ℕ) (x3 : ℤ) (x4 : ℤ) (x5 : ℤ) (x6 : ℤ) (x7 : Bool) (x8 : Bool) (x9 : Gather) : (State.chainOut s x1 x2 x3 x4 x5 x6 x7 x8 x9).Keeps q := by
  unfold State.chainOut
  dsimp only
  split
  · exact sampleOut_keeps h _ _ _ _ _ _
  · exact featureOut_keeps (closeUntil_keeps h _ _ _) _ _ _ _ _ _
  · exact pulseOut_keeps (closeUntil_keeps h _ _ _) _ _ _ _ _ _
  · exact h

theorem feedNow_keeps (h : s.Keeps q) (x1 : ℕ) (x2 : ℕ) (x3 : ℕ) (x4 : Sample) : (State.feedNow s x1 x2 x3 x4).Keeps q := by
  unfold State.feedNow
  lift_lets
  intro st cfg0 cfg e sub offMark s1 v flags st1 p s2
  have h1 : s1.Keeps q := by
    simp only [s1]
    split
    · exact stick_keeps (countSat_keeps h _ _) _ _ _
    · exact h
  have h2 : s2.Keeps q := by
    simp only [s2]
    split
    · exact h1
    · exact stick_keeps (countSat_keeps h1 _ _) _ _ _
  clear_value s2
  dsimp only
  split
  · exact setStream_keeps h2 _ _
  · split
    · exact setStream_keeps h2 _ _
    · exact upTo_keeps (setStream_keeps h2 _ _) _ _ fun t ht j => chainOut_keeps ht _ _ _ _ _ _ _ _ _

theorem feed_keeps (h : s.Keeps q) (x1 : ℕ) (x2 : ℕ) (x3 : ℕ) (x4 : Sample) : (State.feed s x1 x2 x3 x4).Keeps q := by
  unfold State.feed
  repeat' first
    | with_reducible assumption
    | with_reducible exact ⟨h.queue, h.wf⟩
    | with_reducible apply feedNow_keeps
    | with_reducible apply takeTurn_keeps
    | split

theorem substStream_keeps (h : s.Keeps q) (x1 : ℤ) (x2 : ℤ) (x3 : ℕ) : (State.substStream s x1 x2 x3).Keeps q := by
  unfold State.substStream
  repeat' first
    | with_reducible assumption
    | (intro x; refine keeps_step (q := q) (s := x) ?_ ?_; rotate_left; intro hx; clear_value x; rotate_right)
    | (intro x; clear_value x)
    | intro x (hx : State.Keeps x q)
    | intro x
    | lift_lets
    | simp only [x]
    | with_reducible exact ⟨hx.queue, hx.wf⟩
    | with_reducible exact ⟨h.queue, h.wf⟩
    | with_reducible apply upTo_keeps
    | with_reducible apply feed_keeps
    | split

theorem substTo_keeps (h : s.Keeps q) (x1 : ℕ) (x2 : ℕ) : (State.substTo s x1 x2).Keeps q := by
  unfold State.substTo
  repeat' first
    | with_reducible assumption
    | (intro x; refine keeps_step (q := q) (s := x) ?_ ?_; rotate_left; intro hx; clear_value x; rotate_right)
    | (intro x; clear_value x)
    | intro x (hx : State.Keeps x q)
    | intro x
    | lift_lets
    | simp only [x]
    | with_reducible exact ⟨hx.queue, hx.wf⟩
    | with_reducible exact ⟨h.queue, h.wf⟩
    | with_reducible apply inOrder_keeps
    | with_reducible apply each_keeps
    | with_reducible apply substStream_keeps
    | split

theorem substMains_keeps (h : s.Keeps q) (x1 : ℤ) : (State.substMains s x1).Keeps q := by
  unfold State.substMains
  dsimp only
  repeat' first
    | with_reducible assumption
    | with_reducible exact ⟨h.queue, h.wf⟩
    | split

theorem substPeriod_keeps (h : s.Keeps q) (x1 : ℕ) : (State.substPeriod s x1).Keeps q := by
  unfold State.substPeriod
  repeat' first
    | with_reducible assumption
    | (intro x; refine keeps_step (q := q) (s := x) ?_ ?_; rotate_left; intro hx; clear_value x; rotate_right)
    | (intro x; clear_value x)
    | intro x (hx : State.Keeps x q)
    | intro x
    | lift_lets
    | simp only [x]
    | with_reducible exact ⟨hx.queue, hx.wf⟩
    | with_reducible exact ⟨h.queue, h.wf⟩
    | with_reducible apply substMains_keeps
    | with_reducible apply substTo_keeps
    | split

theorem endLate_keeps (h : s.Keeps q) (x1 : ℕ) : (State.endLate s x1).Keeps q := by
  unfold State.endLate
  repeat' first
    | with_reducible assumption
    | with_reducible exact ⟨h.queue, h.wf⟩
    | with_reducible apply closeInterval_keeps
    | with_reducible apply closeShort_keeps
    | split

theorem endLates_keeps (h : s.Keeps q) : (State.endLates s).Keeps q := by
  unfold State.endLates
  repeat' first
    | with_reducible assumption
    | with_reducible exact ⟨h.queue, h.wf⟩
    | intro x (hx : State.Keeps x q)
    | intro x
    | with_reducible exact ⟨hx.queue, hx.wf⟩
    | with_reducible apply each_keeps
    | with_reducible apply asLate_keeps
    | with_reducible apply endLate_keeps
    | with_reducible apply rateChange_keeps
    | split

theorem closePeriod_keeps (h : s.Keeps q) (x1 : MsIn) : (State.closePeriod s x1).Keeps q := by
  unfold State.closePeriod
  repeat' first
    | with_reducible assumption
    | with_reducible exact ⟨h.queue, h.wf⟩
    | intro x (hx : State.Keeps x q)
    | intro x
    | with_reducible exact ⟨hx.queue, hx.wf⟩
    | with_reducible apply endLates_keeps
    | with_reducible apply substPeriod_keeps
    | with_reducible apply ringAdd_keeps
    | with_reducible apply upTo_keeps
    | with_reducible apply portPeriod_keeps
    | with_reducible apply thmReadings_keeps
    | with_reducible apply takeAllObs_keeps
    | split

theorem runMilestone_keeps (h : s.Keeps q) (x1 : MsIn) : (State.runMilestone s x1).Keeps q := by
  unfold State.runMilestone
  repeat' first
    | with_reducible assumption
    | with_reducible exact ⟨h.queue, h.wf⟩
    | with_reducible apply closePeriod_keeps
    | with_reducible apply stepsOf_keeps
    | with_reducible apply ringAdd_keeps
    | split

theorem goSilent_keeps (h : s.Keeps q) (x1 : ℕ) : (State.goSilent s x1).Keeps q := by
  unfold State.goSilent
  dsimp only
  repeat' first
    | with_reducible assumption
    | with_reducible exact ⟨h.queue, h.wf⟩
    | with_reducible apply stick_keeps
    | with_reducible apply setSwitch_keeps
    | with_reducible apply memberChange_keeps
    | split

theorem impRecords_keeps (h : s.Keeps q) (x1 : ℕ) (x2 : ℕ) (x3 : LockSums) (x4 : Option (List (Flt × Flt))) : (State.impRecords s x1 x2 x3 x4).Keeps q := by
  unfold State.impRecords
  repeat' first
    | with_reducible assumption
    | (intro x; refine keeps_step (q := q) (s := x) ?_ ?_; rotate_left; intro hx; clear_value x; rotate_right)
    | (intro x; clear_value x)
    | intro x (hx : State.Keeps x q)
    | intro x
    | lift_lets
    | simp only [x]
    | with_reducible exact ⟨hx.queue, hx.wf⟩
    | with_reducible exact ⟨h.queue, h.wf⟩
    | with_reducible apply each_keeps
    | with_reducible apply emitRecord_keeps
    | split

theorem atTime_keeps (h : s.Keeps q) (x1 : ℕ) : (State.atTime s x1).Keeps q := ⟨h.queue, h.wf⟩

theorem feedLate_keeps (h : s.Keeps q) (x1 : ℕ) (x2 : ℕ) (x3 : Sample) : (State.feedLate s x1 x2 x3).Keeps q := by
  unfold State.feedLate
  repeat' first
    | with_reducible assumption
    | with_reducible exact ⟨h.queue, h.wf⟩
    | intro x (hx : State.Keeps x q)
    | intro x
    | with_reducible exact ⟨hx.queue, hx.wf⟩
    | with_reducible apply each_keeps
    | with_reducible apply asLate_keeps
    | with_reducible apply endLate_keeps
    | with_reducible apply feed_keeps
    | split

theorem feedAll_keeps (h : s.Keeps q) (x1 : ℕ) (x2 : ℕ) (x3 : Sample) : (State.feedAll s x1 x2 x3).Keeps q := by
  unfold State.feedAll
  repeat' first
    | with_reducible assumption
    | with_reducible exact ⟨h.queue, h.wf⟩
    | intro x (hx : State.Keeps x q)
    | intro x
    | with_reducible exact ⟨hx.queue, hx.wf⟩
    | with_reducible apply inOrder_keeps
    | with_reducible apply each_keeps
    | with_reducible apply feedLate_keeps
    | with_reducible apply feed_keeps
    | split

theorem replayTo_keeps (h : s.Keeps q) (x1 : ℕ) : (State.replayTo s x1).Keeps q := by
  unfold State.replayTo
  repeat' first
    | with_reducible assumption
    | (intro x; refine keeps_step (q := q) (s := x) ?_ ?_; rotate_left; intro hx; clear_value x; rotate_right)
    | (intro x; clear_value x)
    | intro x (hx : State.Keeps x q)
    | intro x
    | lift_lets
    | simp only [x]
    | with_reducible exact ⟨hx.queue, hx.wf⟩
    | with_reducible exact ⟨h.queue, h.wf⟩
    | with_reducible apply each_keeps
    | with_reducible apply sendRecord_keeps
    | split

theorem preemptReplay_keeps (h : s.Keeps q) (x1 : ℕ) : (State.preemptReplay s x1).Keeps q := by
  unfold State.preemptReplay
  repeat' first
    | with_reducible assumption
    | with_reducible exact ⟨h.queue, h.wf⟩
    | with_reducible apply stick_keeps
    | with_reducible apply endReplay_keeps
    | split

theorem replayMilestone_keeps (h : s.Keeps q) (x1 : State) : (State.replayMilestone s x1).Keeps q := by
  unfold State.replayMilestone
  repeat' first
    | with_reducible assumption
    | with_reducible exact ⟨h.queue, h.wf⟩
    | with_reducible apply preemptReplay_keeps
    | with_reducible apply replayTo_keeps
    | split

theorem reachBoundary_keeps (h : s.Keeps q) : (State.reachBoundary s).Keeps q := ⟨h.queue, h.wf⟩

theorem lockIn_keeps (h : s.Keeps q) (x1 : ℕ) (x2 : ℕ) (x3 : ℕ) (x4 : ℕ) (x5 : ℤ) (x6 : ℕ) (x7 : ℕ) (x8 : Gather) : (State.lockIn s x1 x2 x3 x4 x5 x6 x7 x8).Keeps q := by
  unfold State.lockIn
  repeat' first
    | with_reducible assumption
    | (intro x; refine keeps_step (q := q) (s := x) ?_ ?_; rotate_left; intro hx; clear_value x; rotate_right)
    | (intro x; clear_value x)
    | intro x (hx : State.Keeps x q)
    | intro x
    | lift_lets
    | simp only [x]
    | with_reducible exact ⟨hx.queue, hx.wf⟩
    | with_reducible exact ⟨h.queue, h.wf⟩
    | with_reducible apply each_keeps
    | with_reducible apply setImp_keeps
    | split

theorem ringCodes_keeps (h : s.Keeps q) (x1 : Flight) (x2 : Bool) : (State.ringCodes s x1 x2).Keeps q := by
  unfold State.ringCodes
  repeat' first
    | with_reducible assumption
    | with_reducible exact ⟨h.queue, h.wf⟩
    | with_reducible apply ringAdd_keeps
    | split

theorem portFault_keeps (h : s.Keeps q) (x1 : ℕ) (x2 : ℕ) : (State.portFault s x1 x2).Keeps q := by
  unfold State.portFault
  repeat' first
    | with_reducible assumption
    | with_reducible exact ⟨h.queue, h.wf⟩
    | with_reducible apply stickPage_keeps
    | with_reducible apply orReg_keeps
    | split

theorem arriveFast_keeps (h : s.Keeps q) (x1 : FastCodes) : (State.arriveFast s x1).Keeps q := by
  unfold State.arriveFast
  repeat' first
    | with_reducible assumption
    | (intro x; refine keeps_step (q := q) (s := x) ?_ ?_; rotate_left; intro hx; clear_value x; rotate_right)
    | (intro x; clear_value x)
    | intro x (hx : State.Keeps x q)
    | intro x
    | lift_lets
    | simp only [x]
    | with_reducible exact ⟨hx.queue, hx.wf⟩
    | with_reducible exact ⟨h.queue, h.wf⟩
    | with_reducible apply portFault_keeps
    | with_reducible apply each_keeps
    | with_reducible apply ringCodes_keeps
    | with_reducible apply lockIn_keeps
    | with_reducible apply feedAll_keeps
    | split

theorem trackSample_keeps (h : s.Keeps q) (x1 : ℕ) (x2 : ℕ) (x3 : Sample) : (State.trackSample s x1 x2 x3).Keeps q := by
  unfold State.trackSample
  repeat' first
    | with_reducible assumption
    | with_reducible exact ⟨h.queue, h.wf⟩
    | split

theorem arriveHeld_keeps (h : s.Keeps q) : (State.arriveHeld s).Keeps q := by
  unfold State.arriveHeld
  repeat' first
    | with_reducible assumption
    | with_reducible exact ⟨h.queue, h.wf⟩
    | with_reducible apply ringCodes_keeps
    | with_reducible apply lockIn_keeps
    | with_reducible apply feedAll_keeps
    | with_reducible apply trackSample_keeps
    | split

theorem arriveAll_keeps (h : s.Keeps q) : (State.arriveAll s).Keeps q := by
  unfold State.arriveAll
  repeat' first
    | with_reducible assumption
    | with_reducible exact ⟨h.queue, h.wf⟩
    | intro x (hx : State.Keeps x q)
    | intro x
    | with_reducible exact ⟨hx.queue, hx.wf⟩
    | with_reducible apply upTo_keeps
    | with_reducible apply arriveHeld_keeps
    | split

theorem holdWrite_keeps (h : s.Keeps q) (x1 : ℕ) (x2 : Word) (x3 : Word) (x4 : optParam (Option Word) none) : (State.holdWrite s x1 x2 x3 x4).Keeps q := ⟨h.queue, h.wf⟩

theorem countHidden_keeps (h : s.Keeps q) (x1 : ℕ) : (State.countHidden s x1).Keeps q := by
  unfold State.countHidden
  repeat' first
    | with_reducible assumption
    | with_reducible exact ⟨h.queue, h.wf⟩
    | with_reducible apply stick_keeps
    | with_reducible apply countWrap_keeps
    | split

theorem queueDrop_keeps (h : s.Keeps q) : (State.queueDrop s).Keeps q := by
  unfold State.queueDrop
  repeat' first
    | with_reducible assumption
    | with_reducible exact ⟨h.queue, h.wf⟩
    | with_reducible apply countSat_keeps
    | split

theorem hostForward_keeps (h : s.Keeps q) (x1 : TxFrame) : (State.hostForward s x1).Keeps q := by
  unfold State.hostForward
  repeat' first
    | with_reducible assumption
    | with_reducible exact ⟨h.queue, h.wf⟩
    | with_reducible apply stick_keeps
    | with_reducible apply routeDrop_keeps
    | with_reducible apply queueOn_keeps
    | split

theorem takeFrame_keeps (h : s.Keeps q) (x1 : TxFrame) : (State.takeFrame s x1).Keeps q := by
  unfold State.takeFrame
  dsimp only
  repeat' first
    | with_reducible assumption
    | with_reducible exact ⟨h.queue, h.wf⟩
    | with_reducible apply setSession_keeps
    | with_reducible apply stick_keeps
    | with_reducible apply queueDrop_keeps
    | with_reducible apply routeDrop_keeps
    | with_reducible apply hostForward_keeps
    | split

theorem takeSlot_keeps (h : s.Keeps q) (x1 : Option TxFrame) : (State.takeSlot s x1).Keeps q := by
  unfold State.takeSlot
  repeat' first
    | with_reducible assumption
    | (intro x; refine keeps_step (q := q) (s := x) ?_ ?_; rotate_left; intro hx; clear_value x; rotate_right)
    | (intro x; clear_value x)
    | intro x (hx : State.Keeps x q)
    | intro x
    | lift_lets
    | simp only [x]
    | with_reducible exact ⟨hx.queue, hx.wf⟩
    | with_reducible exact ⟨h.queue, h.wf⟩
    | with_reducible apply stick_keeps
    | with_reducible apply queueDrop_keeps
    | with_reducible apply takeFrame_keeps
    | split

theorem countSatFld_keeps (h : s.Keeps q) (x1 : ℕ) (x2 : ℕ) (x3 : ℕ) (x4 : ℕ) : (State.countSatFld s x1 x2 x3 x4).Keeps q := by
  unfold State.countSatFld
  repeat' first
    | with_reducible assumption
    | with_reducible exact ⟨h.queue, h.wf⟩
    | with_reducible apply setFld_keeps
    | split

theorem healthUpdate_keeps (h : s.Keeps q) (x1 : ℕ) (x2 : ℕ) (x3 : Visit) (x4 : ℕ) : (State.healthUpdate s x1 x2 x3 x4).Keeps q := by
  unfold State.healthUpdate
  repeat' first
    | with_reducible assumption
    | with_reducible exact ⟨h.queue, h.wf⟩
    | with_reducible apply setReg_keeps
    | with_reducible apply setImp_keeps
    | with_reducible apply stick_keeps
    | with_reducible apply observe_keeps
    | split

theorem segment_keeps (h : s.Keeps q) (x1 : ℕ) (x2 : Word) (x3 : ℤ) (x4 : ℤ) (x5 : Bool) : (State.segment s x1 x2 x3 x4 x5).Keeps q := ⟨h.queue, h.wf⟩

theorem takeBase_keeps (h : s.Keeps q) (x1 : ℕ) (x2 : ℕ) (x3 : Visit) : (State.takeBase s x1 x2 x3).Keeps q := by
  unfold State.takeBase
  split
  · refine setImp_keeps ?_ _ _
    split
    · exact setReg_keeps (setReg_keeps h _ _) _ _
    · exact setReg_keeps (setReg_keeps h _ _) _ _
  · exact h

theorem holdPair_keeps (h : s.Keeps q) (x1 : ℕ) (x2 : ℕ) (x3 : ℕ) (x4 : Word) (x5 : Word) : (State.holdPair s x1 x2 x3 x4 x5).Keeps q := by
  unfold State.holdPair
  exact holdWrite_keeps (dropLow_keeps h _ _) _ _ _ _

/-- The state that a gate leaves. -/
def Gate.out : Gate → State
  | .drop t => t
  | .hold t _ => t
  | .act t _ => t

theorem lockGate_keeps (h : s.Keeps q) (req page : Nat) (mask : Word) (exempt : Bool) :
    (s.lockGate req page mask exempt).out.Keeps q := by
  unfold State.lockGate
  split
  · exact h
  · split
    · exact h
    · split
      · exact h
      · split
        · exact h
        · exact stickPage_keeps h _ _

theorem gate_keeps (h : s.Keeps q) (req a : Nat) (val : Word) (exempt : Bool) :
    (s.gate req a val exempt).out.Keeps q := by
  unfold State.gate
  lift_lets
  intro page
  split
  · exact h
  · split
    · exact lockGate_keeps h _ _ _ _
    · split
      · exact countUnmapped_keeps h _
      · lift_lets
        intro m seen
        clear_value m seen
        split
        · split
          · exact h
          · exact countHidden_keeps h _
        · have hl := lockGate_keeps h req (a / 0x1000) m exempt
          generalize s.lockGate _ _ _ _ = g at hl
          cases g
          · exact hl
          all_goals
            dsimp only [Gate.out] at hl ⊢
            split
            · exact hl
            · exact countHidden_keeps hl _

theorem guarded_keeps (h : s.Keeps q) (a : Acc) (addr : Nat) (val : Word) (act : State → Word → State)
    (hact : ∀ {t : State} (v : Word), t.Keeps q → (act t v).Keeps q) : (s.guarded a addr val act).Keeps q := by
  unfold State.guarded
  have hg := gate_keeps (accept_keeps h a) a.req.toNat addr val false
  generalize (s.accept a).gate a.req.toNat addr val false = g at hg ⊢
  cases g with
  | drop t => exact hg
  | hold t m => exact holdWrite_keeps hg _ _ _ _
  | act t m => exact hact _ hg

theorem atOp_keeps (h : s.Keeps q) (e op : Nat) (act : State → Word → State)
    (hact : ∀ (v : Word), (act s v).Keeps q) : (s.atOp e op act).Keeps q := by
  unfold State.atOp
  split
  · exact hact _
  · exact h

theorem write32_keeps (h : s.Keeps q) (x1 : ℕ) (x2 : ℕ) (x3 : Word) : (State.write32 s x1 x2 x3).Keeps q := by
  unfold State.write32
  have hg := gate_keeps h x1 x2 x3 (x2 % 0x1000 = 0x018 || isW1c x2)
  split
  · rename_i t hq
    rw [hq] at hg
    exact hg
  · rename_i t m hq
    rw [hq] at hg
    exact actWrite_keeps hg _ _ _ _ _ _
  · rename_i t m hq
    rw [hq] at hg
    replace hg : t.Keeps q := hg
    split
    · exact hg
    · split
      · exact holdWrite_keeps hg _ _ _ _
      · split
        · exact hg
        · split
          · exact holdLow_keeps hg _ _ _
          · exact holdPair_keeps hg _ _ _ _ _

theorem writeAccess_keeps (h : s.Keeps q) (x1 : ℕ) (x2 : ℕ) (x3 : BitVec 64) (x4 : ℕ) : (State.writeAccess s x1 x2 x3 x4).Keeps q := by
  unfold State.writeAccess
  dsimp only
  repeat' first
    | with_reducible assumption
    | with_reducible exact ⟨h.queue, h.wf⟩
    | with_reducible apply notNow_keeps
    | with_reducible apply answerWith_keeps
    | with_reducible apply stick_keeps
    | with_reducible apply write32_keeps
    | split

theorem i2cNext_keeps (h : s.Keeps q) (x1 : ℕ) : (State.i2cNext s x1).Keeps q := ⟨h.queue, h.wf⟩

theorem baseItem_keeps (h : s.Keeps q) (x1 : Item) : (State.baseItem s x1).Keeps q := by
  unfold State.baseItem
  repeat' first
    | with_reducible assumption
    | with_reducible exact ⟨h.queue, h.wf⟩
    | with_reducible apply actWrite_keeps
    | split

theorem askAgain_keeps (h : s.Keeps q) : (State.askAgain s).Keeps q := by
  unfold State.askAgain
  repeat' first
    | with_reducible assumption
    | with_reducible exact ⟨h.queue, h.wf⟩
    | intro x (hx : State.Keeps x q)
    | intro x
    | with_reducible exact ⟨hx.queue, hx.wf⟩
    | with_reducible apply each_keeps
    | with_reducible apply askRsv_keeps
    | split

theorem commitAll_keeps (h : s.Keeps q) : (State.commitAll s).Keeps q := by
  unfold State.commitAll
  repeat' first
    | with_reducible assumption
    | with_reducible exact ⟨h.queue, h.wf⟩
    | intro x (hx : State.Keeps x q)
    | intro x
    | with_reducible exact ⟨hx.queue, hx.wf⟩
    | with_reducible apply each_keeps
    | with_reducible apply emptyStage_keeps
    | split

theorem applyBase_keeps (h : s.Keeps q) (x1 : BootIn) : (State.applyBase s x1).Keeps q := by
  unfold State.applyBase
  have h1 : State.Keeps (if x1.baseSig0 && s.flash.base0.isSome then s else s.glzStick 15) q := by
    split
    · exact h
    · exact glzStick_keeps h _
  generalize (if x1.baseSig0 && s.flash.base0.isSome then s else s.glzStick 15) = t at h1
  dsimp only
  split
  · exact glzStick_keeps (by exact ⟨h1.queue, h1.wf⟩) _
  · refine commitAll_keeps (each_keeps (each_keeps (by exact ⟨h1.queue, h1.wf⟩) _ _ fun t ht x => baseItem_keeps ht _) _ _
      fun t ht e => runInvalidate_keeps ht _ _)

theorem substNow_keeps (h : s.Keeps q) : (State.substNow s).Keeps q := by
  unfold State.substNow
  repeat' first
    | with_reducible assumption
    | with_reducible exact ⟨h.queue, h.wf⟩
    | with_reducible apply substTo_keeps
    | with_reducible apply ringAdd_keeps
    | split

theorem withFetchWord_keeps (h : s.Keeps q) (x1 : ℕ) (x2 : ℕ) : (State.withFetchWord s x1 x2).Keeps q := ⟨h.queue, h.wf⟩

theorem measure_keeps (h : s.Keeps q) (x1 : HeaterMeas) : (State.measure s x1).Keeps q := ⟨h.queue, h.wf⟩

theorem quarantine_keeps (h : s.Keeps q) (x1 : ℕ) : (State.quarantine s x1).Keeps q := by
  unfold State.quarantine
  repeat' first
    | with_reducible assumption
    | with_reducible exact ⟨h.queue, h.wf⟩
    | with_reducible apply stick_keeps
    | with_reducible apply portDown_keeps
    | split

theorem unpark_keeps (h : s.Keeps q) : (State.unpark s).Keeps q := by
  unfold State.unpark
  repeat' first
    | with_reducible assumption
    | with_reducible exact ⟨h.queue, h.wf⟩
    | intro x (hx : State.Keeps x q)
    | intro x
    | with_reducible exact ⟨hx.queue, hx.wf⟩
    | with_reducible apply upTo_keeps
    | with_reducible apply setBank_keeps
    | split

theorem writeBy_keeps (h : s.Keeps q) (x1 : Acc) (x2 : ℕ) (x3 : Word) : (State.writeBy s x1 x2 x3).Keeps q := by
  unfold State.writeBy
  repeat' first
    | with_reducible assumption
    | with_reducible exact ⟨h.queue, h.wf⟩
    | with_reducible apply write32_keeps
    | with_reducible apply accept_keeps
    | split

theorem noteMismatch_keeps (h : s.Keeps q) (x1 : ℕ) (x2 : ℕ) : (State.noteMismatch s x1 x2).Keeps q := by
  unfold State.noteMismatch
  repeat' first
    | with_reducible assumption
    | with_reducible exact ⟨h.queue, h.wf⟩
    | with_reducible apply countSat_keeps
    | with_reducible apply stick_keeps
    | with_reducible apply setFld_keeps
    | split

theorem compareVisit_keeps (h : s.Keeps q) (x1 : ℕ) (x2 : ℕ) (x3 : ℕ) (x4 : ℕ) (x5 : ℤ) (x6 : Bool) : (State.compareVisit s x1 x2 x3 x4 x5 x6).Keeps q := by
  unfold State.compareVisit
  dsimp only
  repeat' first
    | with_reducible assumption
    | with_reducible exact ⟨h.queue, h.wf⟩
    | with_reducible apply setCheck_keeps
    | with_reducible apply noteMismatch_keeps
    | split

theorem visitCheck_keeps (h : s.Keeps q) (x1 : ℕ) (x2 : ℕ) (x3 : ℕ) (x4 : ℤ) (x5 : Bool) : (State.visitCheck s x1 x2 x3 x4 x5).Keeps q := by
  unfold State.visitCheck
  repeat' first
    | with_reducible assumption
    | with_reducible exact ⟨h.queue, h.wf⟩
    | with_reducible apply compareVisit_keeps
    | split

theorem endHold_keeps (h : s.Keeps q) (x1 : ℕ) : (State.endHold s x1).Keeps q := by
  unfold State.endHold
  dsimp only
  repeat' first
    | with_reducible assumption
    | with_reducible exact ⟨h.queue, h.wf⟩
    | with_reducible apply setPort_keeps
    | split

theorem staleFault_keeps (h : s.Keeps q) (x1 : ℕ) (x2 : Bool) : (State.staleFault s x1 x2).Keeps q := by
  unfold State.staleFault
  repeat' first
    | with_reducible assumption
    | with_reducible exact ⟨h.queue, h.wf⟩
    | with_reducible apply portFault_keeps
    | split

theorem visitAt_keeps (h : s.Keeps q) (x1 : ℕ) (x2 : ℕ) (x3 : ℕ) (x4 : ℕ) (x5 : List (BitVec 14)) : (State.visitAt s x1 x2 x3 x4 x5).Keeps q := by
  unfold State.visitAt
  repeat' first
    | with_reducible assumption
    | (intro x; refine keeps_step (q := q) (s := x) ?_ ?_; rotate_left; intro hx; clear_value x; rotate_right)
    | (intro x; clear_value x)
    | intro x (hx : State.Keeps x q)
    | intro x
    | lift_lets
    | simp only [x]
    | with_reducible exact ⟨hx.queue, hx.wf⟩
    | with_reducible exact ⟨h.queue, h.wf⟩
    | with_reducible apply staleFault_keeps
    | with_reducible apply endHold_keeps
    | with_reducible apply visitCheck_keeps
    | split

theorem event_keeps (h : s.Keeps q) (x1 : ℕ) : (State.event s x1).Keeps q := by
  unfold State.event
  dsimp only
  repeat' first
    | with_reducible assumption
    | with_reducible exact ⟨h.queue, h.wf⟩
    | with_reducible apply deliver_keeps
    | with_reducible apply setSource_keeps
    | split

theorem sampleSource_keeps (h : s.Keeps q) (x1 : ℕ) (x2 : Bool) : (State.sampleSource s x1 x2).Keeps q := by
  unfold State.sampleSource
  dsimp only
  repeat' first
    | with_reducible assumption
    | with_reducible exact ⟨h.queue, h.wf⟩
    | with_reducible apply setSource_keeps
    | with_reducible apply event_keeps
    | split

theorem reportHolders_keeps (h : s.Keeps q) : (State.reportHolders s).Keeps q := by
  unfold State.reportHolders
  repeat' first
    | with_reducible assumption
    | (intro x; refine keeps_step (q := q) (s := x) ?_ ?_; rotate_left; intro hx; clear_value x; rotate_right)
    | (intro x; clear_value x)
    | intro x (hx : State.Keeps x q)
    | intro x
    | lift_lets
    | simp only [x]
    | with_reducible exact ⟨hx.queue, hx.wf⟩
    | with_reducible exact ⟨h.queue, h.wf⟩
    | with_reducible apply upTo_keeps
    | with_reducible apply portFault_keeps
    | with_reducible apply setPort_keeps
    | split

theorem heaterFault_keeps (h : s.Keeps q) (x1 : ℕ) (x2 : ℕ) (x3 : HtrOut) : (State.heaterFault s x1 x2 x3).Keeps q := by
  unfold State.heaterFault
  dsimp only
  repeat' first
    | with_reducible assumption
    | with_reducible exact ⟨h.queue, h.wf⟩
    | with_reducible apply setEngine_keeps
    | with_reducible apply stick_keeps
    | with_reducible apply orReg_keeps
    | with_reducible apply noteMark_keeps
    | split

theorem driveTick_keeps (h : s.Keeps q) (x1 : ℕ) : (State.driveTick s x1).Keeps q := by
  unfold State.driveTick
  dsimp only
  repeat' first
    | with_reducible assumption
    | with_reducible exact ⟨h.queue, h.wf⟩
    | with_reducible apply setEngine_keeps
    | with_reducible apply applyDrive_keeps
    | split

theorem renew_keeps (h : s.Keeps q) (x1 : ℕ) : (State.renew s x1).Keeps q := ⟨h.queue, h.wf⟩

theorem idle_keeps (h : s.Keeps q) : (State.idle s).Keeps q := by
  unfold State.idle
  repeat' first
    | with_reducible assumption
    | with_reducible exact ⟨h.queue, h.wf⟩
    | with_reducible apply elapse_keeps
    | split

theorem correct_keeps (h : s.Keeps q) (x1 : ℤ) : (State.correct s x1).Keeps q := by
  unfold State.correct
  repeat' first
    | with_reducible assumption
    | (intro x; refine keeps_step (q := q) (s := x) ?_ ?_; rotate_left; intro hx; clear_value x; rotate_right)
    | (intro x; clear_value x)
    | intro x (hx : State.Keeps x q)
    | intro x
    | lift_lets
    | simp only [x]
    | with_reducible exact ⟨hx.queue, hx.wf⟩
    | with_reducible exact ⟨h.queue, h.wf⟩
    | with_reducible apply discardSlew_keeps
    | split

theorem halvePorts_keeps (h : s.Keeps q) : (State.halvePorts s).Keeps q := by
  unfold State.halvePorts
  repeat' first
    | with_reducible assumption
    | (intro x; refine keeps_step (q := q) (s := x) ?_ ?_; rotate_left; intro hx; clear_value x; rotate_right)
    | (intro x; clear_value x)
    | intro x (hx : State.Keeps x q)
    | intro x
    | lift_lets
    | simp only [x]
    | with_reducible exact ⟨hx.queue, hx.wf⟩
    | with_reducible exact ⟨h.queue, h.wf⟩
    | with_reducible apply movePorts_keeps
    | with_reducible apply each_keeps
    | with_reducible apply setBank_keeps
    | with_reducible apply upTo_keeps
    | with_reducible apply bankMode_keeps
    | with_reducible apply streamsMoved_keeps
    | with_reducible apply throttleFlags_keeps
    | with_reducible apply allocMoves_keeps
    | split

theorem enforceHalve_keeps (h : s.Keeps q) : (State.enforceHalve s).Keeps q := by
  unfold State.enforceHalve
  repeat' first
    | with_reducible assumption
    | with_reducible exact ⟨h.queue, h.wf⟩
    | intro x (hx : State.Keeps x q)
    | intro x
    | with_reducible exact ⟨hx.queue, hx.wf⟩
    | with_reducible apply upTo_keeps
    | with_reducible apply halvePorts_keeps
    | with_reducible apply parkEnds_keeps
    | split

theorem noteSizes_keeps (h : s.Keeps q) : (State.noteSizes s).Keeps q := by
  unfold State.noteSizes
  repeat' first
    | with_reducible assumption
    | (intro x; refine keeps_step (q := q) (s := x) ?_ ?_; rotate_left; intro hx; clear_value x; rotate_right)
    | (intro x; clear_value x)
    | intro x (hx : State.Keeps x q)
    | intro x
    | lift_lets
    | simp only [x]
    | with_reducible exact ⟨hx.queue, hx.wf⟩
    | with_reducible exact ⟨h.queue, h.wf⟩
    | with_reducible apply upTo_keeps
    | with_reducible apply setPlace_keeps
    | split

theorem untimed_keeps (h : s.Keeps q) (x1 : ℕ) (x2 : ℕ) : (State.untimed s x1 x2).Keeps q := ⟨h.queue, h.wf⟩

theorem readNarrow_keeps (h : s.Keeps q) (x1 : Acc) (x2 : ℕ) (x3 : ℕ) : (State.readNarrow s x1 x2 x3).Keeps q := by
  unfold State.readNarrow
  repeat' first
    | with_reducible assumption
    | with_reducible exact ⟨h.queue, h.wf⟩
    | intro x (hx : State.Keeps x q)
    | intro x
    | with_reducible exact ⟨hx.queue, hx.wf⟩
    | with_reducible apply guardedRead_keeps
    | with_reducible apply answerWith_keeps
    | split

theorem readAccess_keeps (h : s.Keeps q) (x1 : Acc) (x2 : ℕ) (x3 : ℕ) : (State.readAccess s x1 x2 x3).Keeps q := by
  unfold State.readAccess
  dsimp only
  repeat' first
    | with_reducible assumption
    | with_reducible exact ⟨h.queue, h.wf⟩
    | with_reducible apply accept_keeps
    | with_reducible apply answerWith_keeps
    | with_reducible apply stick_keeps
    | with_reducible apply notNow_keeps
    | with_reducible apply readNarrow_keeps
    | with_reducible apply readFor_keeps
    | split

theorem takeRange_keeps (h : s.Keeps q) (x1 : ℕ) (x2 : ℕ) : (State.takeRange s x1 x2).Keeps q := by
  unfold State.takeRange
  dsimp only
  repeat' first
    | with_reducible assumption
    | with_reducible exact ⟨h.queue, h.wf⟩
    | with_reducible apply setPort_keeps
    | split

theorem sendAlarms_keeps (h : s.Keeps q) (x1 : Bool) : (State.sendAlarms s x1).Keeps q := by
  unfold State.sendAlarms
  repeat' first
    | with_reducible assumption
    | with_reducible exact ⟨h.queue, h.wf⟩
    | intro x (hx : State.Keeps x q)
    | intro x
    | with_reducible exact ⟨hx.queue, hx.wf⟩
    | with_reducible apply each_keeps
    | with_reducible apply sendAlarm_keeps
    | split

theorem setBufByte_keeps (h : s.Keeps q) (x1 : ℕ) (x2 : ℕ) (x3 : Byte) : (State.setBufByte s x1 x2 x3).Keeps q := by
  unfold State.setBufByte
  repeat' first
    | with_reducible assumption
    | with_reducible exact ⟨h.queue, h.wf⟩
    | with_reducible apply setFld_keeps
    | split

theorem setBufBytes_keeps (h : s.Keeps q) (x1 : ℕ) (x2 : ℕ) (x3 : List Byte) : (State.setBufBytes s x1 x2 x3).Keeps q := by
  unfold State.setBufBytes
  have go : ∀ (l : List Byte) (p : State × Nat), p.1.Keeps q →
      (l.foldl (fun (p : State × Nat) b => (p.1.setBufByte x1 p.2 b, p.2 + 1)) p).1.Keeps q := by
    intro l
    induction l with
    | nil => exact fun p hp => hp
    | cons b t ih => exact fun p hp => ih _ (setBufByte_keeps hp _ _ _)
  exact go _ _ h

theorem attest_keeps (h : s.Keeps q) : (State.attest s).Keeps q := by
  unfold State.attest
  repeat' first
    | with_reducible assumption
    | with_reducible exact ⟨h.queue, h.wf⟩
    | with_reducible apply setBufBytes_keeps
    | split

theorem runWaiting_keeps (h : s.Keeps q) : (State.runWaiting s).Keeps q := by
  unfold State.runWaiting
  repeat' first
    | with_reducible assumption
    | with_reducible exact ⟨h.queue, h.wf⟩
    | intro x (hx : State.Keeps x q)
    | intro x
    | with_reducible exact ⟨hx.queue, hx.wf⟩
    | with_reducible apply each_keeps
    | with_reducible apply runInvalidate_keeps
    | split

theorem glzResume_keeps (h : s.Keeps q) : (State.glzResume s).Keeps q := by
  unfold State.glzResume
  repeat' first
    | with_reducible assumption
    | with_reducible exact ⟨h.queue, h.wf⟩
    | with_reducible apply runGlzCmd_keeps
    | split

theorem enterRecovery_keeps (h : s.Keeps q) : (State.enterRecovery s).Keeps q := by
  unfold State.enterRecovery
  repeat' first
    | with_reducible assumption
    | with_reducible exact ⟨h.queue, h.wf⟩
    | with_reducible apply updStick_keeps
    | split

theorem frameAdj_keeps (h : s.Keeps q) (x1 : TimeFrame) : (State.frameAdj s x1).Keeps q := by
  unfold State.frameAdj
  dsimp only
  repeat' first
    | with_reducible assumption
    | with_reducible exact ⟨h.queue, h.wf⟩
    | split

theorem announceHeal_keeps (h : s.Keeps q) (x1 : ℤ) (x2 : ℕ) : (State.announceHeal s x1 x2).Keeps q := ⟨h.queue, h.wf⟩

theorem goOn_keeps (h : s.Keeps q) (x1 : ℕ) (x2 : ℕ) : (State.goOn s x1 x2).Keeps q := ⟨h.queue, h.wf⟩

theorem sendDataTo_keeps (h : s.Keeps q) (x1 : Session) (x2 : ℕ) (x3 : ℕ) (x4 : List ℤ) (x5 : List Byte) : (State.sendDataTo s x1 x2 x3 x4 x5).Keeps q := by
  unfold State.sendDataTo
  repeat' first
    | with_reducible assumption
    | with_reducible exact ⟨h.queue, h.wf⟩
    | intro x (hx : State.Keeps x q)
    | intro x
    | with_reducible exact ⟨hx.queue, hx.wf⟩
    | with_reducible apply upTo_keeps
    | with_reducible apply sendSession_keeps
    | split

theorem shake_keeps (h : s.Keeps q) (x1 : Session) : (State.shake s x1).Keeps q := by
  unfold State.shake
  repeat' first
    | with_reducible assumption
    | with_reducible exact ⟨h.queue, h.wf⟩
    | with_reducible apply setSession_keeps
    | with_reducible apply sendDataTo_keeps
    | split

theorem forward_keeps (h : s.Keeps q) (x1 : ℕ) (x2 : ℕ) (x3 : Option Role) (x4 : Fragment) : (State.forward s x1 x2 x3 x4).Keeps q := by
  unfold State.forward
  repeat' first
    | with_reducible assumption
    | with_reducible exact ⟨h.queue, h.wf⟩
    | with_reducible apply queueOn_keeps
    | split

theorem routeFragment_keeps (h : s.Keeps q) (x1 : ℕ) (x2 : Fragment) : (State.routeFragment s x1 x2).Keeps q := by
  unfold State.routeFragment
  repeat' first
    | with_reducible assumption
    | (intro x; refine keeps_step (q := q) (s := x) ?_ ?_; rotate_left; intro hx; clear_value x; rotate_right)
    | (intro x; clear_value x)
    | intro x (hx : State.Keeps x q)
    | intro x
    | lift_lets
    | simp only [x]
    | with_reducible exact ⟨hx.queue, hx.wf⟩
    | with_reducible exact ⟨h.queue, h.wf⟩
    | with_reducible apply setFport_keeps
    | with_reducible apply countDrop_keeps
    | with_reducible apply stick_keeps
    | with_reducible apply setSession_keeps
    | with_reducible apply forward_keeps
    | split

theorem releaseNow_keeps (h : s.Keeps q) (x1 : ℕ) : (State.releaseNow s x1).Keeps q := by
  unfold State.releaseNow
  repeat' first
    | with_reducible assumption
    | with_reducible exact ⟨h.queue, h.wf⟩
    | with_reducible apply dropSeg_keeps
    | split

theorem i2cEnd_keeps (h : s.Keeps q) : (State.i2cEnd s).Keeps q := ⟨h.queue, h.wf⟩

theorem resend_keeps (h : s.Keeps q) (x1 : ℕ) (x2 : ℕ) : (State.resend s x1 x2).Keeps q := by
  unfold State.resend
  repeat' first
    | with_reducible assumption
    | with_reducible exact ⟨h.queue, h.wf⟩
    | with_reducible apply setFport_keeps
    | with_reducible apply countSat_keeps
    | split

theorem sendWhole_keeps (h : s.Keeps q) (x1 : ℕ) (x2 : Segment) : (State.sendWhole s x1 x2).Keeps q := by
  unfold State.sendWhole
  repeat' first
    | with_reducible assumption
    | with_reducible exact ⟨h.queue, h.wf⟩
    | with_reducible apply sendParts_keeps
    | split

theorem closedSegment_keeps (h : s.Keeps q) (x1 : ℕ) (x2 : Word) (x3 : ℤ) : (State.closedSegment s x1 x2 x3).Keeps q := ⟨h.queue, h.wf⟩

theorem takeHolder_keeps (h : s.Keeps q) (x1 : ℕ) (x2 : Candidate) : (State.takeHolder s x1 x2).Keeps q := by
  unfold State.takeHolder
  repeat' first
    | with_reducible assumption
    | with_reducible exact ⟨h.queue, h.wf⟩
    | intro x (hx : State.Keeps x q)
    | intro x
    | with_reducible exact ⟨hx.queue, hx.wf⟩
    | with_reducible apply waymark_keeps
    | with_reducible apply each_keeps
    | with_reducible apply sendWhole_keeps
    | split

theorem fillHolders_keeps (h : s.Keeps q) (x1 : List Candidate) : (State.fillHolders s x1).Keeps q := by
  unfold State.fillHolders
  repeat' first
    | with_reducible assumption
    | with_reducible exact ⟨h.queue, h.wf⟩
    | intro x (hx : State.Keeps x q)
    | intro x
    | with_reducible exact ⟨hx.queue, hx.wf⟩
    | with_reducible apply upTo_keeps
    | with_reducible apply takeHolder_keeps
    | split

theorem refusedBy_keeps (h : s.Keeps q) (x1 : List Candidate) : (State.refusedBy s x1).Keeps q := ⟨h.queue, h.wf⟩

theorem scaleDrives_keeps (h : s.Keeps q) : (State.scaleDrives s).Keeps q := by
  unfold State.scaleDrives
  repeat' first
    | with_reducible assumption
    | (intro x; refine keeps_step (q := q) (s := x) ?_ ?_; rotate_left; intro hx; clear_value x; rotate_right)
    | (intro x; clear_value x)
    | intro x (hx : State.Keeps x q)
    | intro x
    | lift_lets
    | simp only [x]
    | with_reducible exact ⟨hx.queue, hx.wf⟩
    | with_reducible exact ⟨h.queue, h.wf⟩
    | with_reducible apply each_keeps
    | with_reducible apply setEngine_keeps
    | split

theorem noteWindow_keeps (h : s.Keeps q) (x1 : ℕ) (x2 : WindowIn) : (State.noteWindow s x1 x2).Keeps q := ⟨h.queue, h.wf⟩

theorem holdNow_keeps (h : s.Keeps q) (x1 : ℕ) (x2 : ℕ) (x3 : WindowIn) : (State.holdNow s x1 x2 x3).Keeps q := by
  unfold State.holdNow
  repeat' first
    | with_reducible assumption
    | with_reducible exact ⟨h.queue, h.wf⟩
    | with_reducible apply setPort_keeps
    | with_reducible apply noteWindow_keeps
    | with_reducible apply portFault_keeps
    | with_reducible apply takeRange_keeps
    | with_reducible apply startWindow_keeps
    | split

theorem flashStat_keeps (h : s.Keeps q) (x1 : BootIn) : (State.flashStat s x1).Keeps q := by
  unfold State.flashStat
  repeat' first
    | with_reducible assumption
    | with_reducible exact ⟨h.queue, h.wf⟩
    | with_reducible apply setReg_keeps
    | with_reducible apply stick_keeps
    | split

theorem mergeRoot_keeps (h : s.Keeps q) (x1 : Lsa) : (State.mergeRoot s x1).Keeps q := by
  unfold State.mergeRoot
  dsimp only
  repeat' first
    | with_reducible assumption
    | with_reducible exact ⟨h.queue, h.wf⟩
    | with_reducible apply timState_keeps
    | with_reducible apply stick_keeps
    | split

theorem takeLsa_keeps (h : s.Keeps q) (x1 : Lsa) : (State.takeLsa s x1).Keeps q := by
  unfold State.takeLsa
  lift_lets
  intro rest z u1 u2 lost z2 u3
  have h2 : u1.Keeps q := ⟨h.queue, h.wf⟩
  have h3 : u2.Keeps q := by
    refine upTo_keeps h2 _ _ fun v hv p => ?_
    dsimp only
    split
    · exact setFport_keeps hv _ _
    · exact hv
  have h4 : u3.Keeps q := by
    simp only [u3]
    clear_value lost z2 u2
    split
    · exact ⟨h3.queue, h3.wf⟩
    · exact h3
  exact mergeRoot_keeps h4 _

theorem noteFlash_keeps (h : s.Keeps q) (x1 : ℕ) : (State.noteFlash s x1).Keeps q := by
  unfold State.noteFlash
  split
  · exact stick_keeps h ..
  · exact h

theorem updDone_keeps (h : s.Keeps q) (x1 : ℕ) : (State.updDone s x1).Keeps q := by
  have h1 := noteFlash_keeps h x1
  exact ⟨h1.queue, h1.wf⟩

theorem activateDone_keeps (h : s.Keeps q) (x1 : ImageCheck) : (State.activateDone s x1).Keeps q := by
  unfold State.activateDone
  split
  · have h1 := updDone_keeps h 5
    exact ⟨h1.queue, h1.wf⟩
  · dsimp only
    have h1 := writeRec_keeps (updDone_keeps h 1) { ‹BootRec› with slot := !‹BootRec›.slot, trial := true, starts := 1, prev := ‹BootRec›.slot }
    split
    · exact coldReset_keeps (by exact ⟨h1.queue, h1.wf⟩) _
    · exact ⟨h1.queue, h1.wf⟩

theorem verifyDone_keeps (h : s.Keeps q) (x1 : ImageCheck) : (State.verifyDone s x1).Keeps q := by
  unfold State.verifyDone
  lift_lets
  intro r b y u z2 v w z
  have h1 : u.Keeps q := setSlot_keeps (updDone_keeps h _) _ _
  clear_value u
  split
  · have h2 : v.Keeps q := setSlot_keeps h1 _ _
    clear_value v
    exact ⟨h2.queue, h2.wf⟩
  · exact updStick_keeps (by exact ⟨h1.queue, h1.wf⟩) _

theorem giveToken_keeps (h : s.Keeps q) (x1 : ℕ) : (State.giveToken s x1).Keeps q := by
  unfold State.giveToken
  repeat' first
    | with_reducible assumption
    | with_reducible exact ⟨h.queue, h.wf⟩
    | with_reducible apply sendSession_keeps
    | with_reducible apply setSession_keeps
    | split

theorem wakePort_keeps (h : s.Keeps q) (x1 : ℕ) : (State.wakePort s x1).Keeps q := by
  unfold State.wakePort
  dsimp only
  repeat' first
    | with_reducible assumption
    | with_reducible exact ⟨h.queue, h.wf⟩
    | with_reducible apply movePort_keeps
    | split

theorem waitOut_keeps (h : s.Keeps q) (x1 : ℕ) : (State.waitOut s x1).Keeps q := ⟨h.queue, h.wf⟩

theorem intRestore_keeps (h : s.Keeps q) : (State.intRestore s).Keeps q := by
  unfold State.intRestore
  repeat' first
    | with_reducible assumption
    | with_reducible exact ⟨h.queue, h.wf⟩
    | intro x (hx : State.Keeps x q)
    | intro x
    | with_reducible exact ⟨hx.queue, hx.wf⟩
    | with_reducible apply each_keeps
    | with_reducible apply sampleSource_keeps
    | with_reducible apply upTo_keeps
    | with_reducible apply releaseHeld_keeps
    | split

theorem controlStep_keeps (h : s.Keeps q) (x1 : ℕ) : (State.controlStep s x1).Keeps q := by
  unfold State.controlStep
  dsimp only
  repeat' first
    | with_reducible assumption
    | with_reducible exact ⟨h.queue, h.wf⟩
    | with_reducible apply setEngine_keeps
    | with_reducible apply applyDrive_keeps
    | split

theorem startCause_keeps (h : s.Keeps q) : (State.startCause s).Keeps q := by
  unfold State.startCause
  repeat' first
    | with_reducible assumption
    | (intro x; refine keeps_step (q := q) (s := x) ?_ ?_; rotate_left; intro hx; clear_value x; rotate_right)
    | (intro x; clear_value x)
    | intro x (hx : State.Keeps x q)
    | intro x
    | lift_lets
    | simp only [x]
    | with_reducible exact ⟨hx.queue, hx.wf⟩
    | with_reducible exact ⟨h.queue, h.wf⟩
    | with_reducible apply setReg_keeps
    | with_reducible apply pwrStick_keeps
    | with_reducible apply stick_keeps
    | split

theorem trainMemory_keeps (h : s.Keeps q) (x1 : BootIn) : (State.trainMemory s x1).Keeps q := by
  unfold State.trainMemory
  repeat' first
    | with_reducible assumption
    | (intro x; refine keeps_step (q := q) (s := x) ?_ ?_; rotate_left; intro hx; clear_value x; rotate_right)
    | (intro x; clear_value x)
    | intro x (hx : State.Keeps x q)
    | intro x
    | lift_lets
    | simp only [x]
    | with_reducible exact ⟨hx.queue, hx.wf⟩
    | with_reducible exact ⟨h.queue, h.wf⟩
    | with_reducible apply setReg_keeps
    | with_reducible apply stick_keeps
    | split

theorem lakeRecover_keeps (h : s.Keeps q) (x1 : List ℕ) : (State.lakeRecover s x1).Keeps q := by
  unfold State.lakeRecover
  repeat' first
    | with_reducible assumption
    | (intro x; refine keeps_step (q := q) (s := x) ?_ ?_; rotate_left; intro hx; clear_value x; rotate_right)
    | (intro x; clear_value x)
    | intro x (hx : State.Keeps x q)
    | intro x
    | lift_lets
    | simp only [x]
    | with_reducible exact ⟨hx.queue, hx.wf⟩
    | with_reducible exact ⟨h.queue, h.wf⟩
    | with_reducible apply lakStick_keeps
    | with_reducible apply each_keeps
    | with_reducible apply giveUp_keeps
    | with_reducible apply endRecovery_keeps
    | split

theorem bootImage_keeps (h : s.Keeps q) (x1 : BootIn) : (State.bootImage s x1).Keeps q := by
  unfold State.bootImage
  repeat' first
    | with_reducible assumption
    | (intro x; refine keeps_step (q := q) (s := x) ?_ ?_; rotate_left; intro hx; clear_value x; rotate_right)
    | (intro x; clear_value x)
    | intro x (hx : State.Keeps x q)
    | intro x
    | lift_lets
    | simp only [x]
    | with_reducible exact ⟨hx.queue, hx.wf⟩
    | with_reducible exact ⟨h.queue, h.wf⟩
    | with_reducible apply startImage_keeps
    | with_reducible apply rollBack_keeps
    | with_reducible apply enterRecovery_keeps
    | split

theorem bootFrom_keeps (h : s.Keeps q) (x1 : BootIn) : (State.bootFrom s x1).Keeps q := by
  unfold State.bootFrom
  have h1 := bootImage_keeps (slotAtStart_keeps (chooseRec_keeps h)) x1
  generalize State.bootImage _ _ = u at h1 ⊢
  dsimp only
  split
  · exact h1
  · exact applyBase_keeps (lakeRecover_keeps (factoryCheck_keeps (trainMemory_keeps (by exact ⟨h1.queue, h1.wf⟩) _)) _) _

theorem boot_keeps (h : s.Keeps q) (x1 : BootIn) : (State.boot s x1).Keeps q := by
  unfold State.boot
  repeat' first
    | with_reducible assumption
    | (intro x; refine keeps_step (q := q) (s := x) ?_ ?_; rotate_left; intro hx; clear_value x; rotate_right)
    | (intro x; clear_value x)
    | intro x (hx : State.Keeps x q)
    | intro x
    | lift_lets
    | simp only [x]
    | with_reducible exact ⟨hx.queue, hx.wf⟩
    | with_reducible exact ⟨h.queue, h.wf⟩
    | with_reducible apply flashStat_keeps
    | with_reducible apply enterRecovery_keeps
    | with_reducible apply bootFrom_keeps
    | with_reducible apply slotAtStart_keeps
    | split

theorem flushMsix_keeps (h : s.Keeps q) : (State.flushMsix s).Keeps q := by
  unfold State.flushMsix
  dsimp only
  exact each_keeps (by exact ⟨h.queue, h.wf⟩) _ _ fun t ht m => handOver_keeps 4 ht m

theorem tagBuffer_keeps (h : s.Keeps q) (x1 : List Byte) : (State.tagBuffer s x1).Keeps q := by
  unfold State.tagBuffer
  repeat' first
    | with_reducible assumption
    | with_reducible exact ⟨h.queue, h.wf⟩
    | intro x (hx : State.Keeps x q)
    | intro x
    | with_reducible exact ⟨hx.queue, hx.wf⟩
    | with_reducible apply each_keeps
    | with_reducible apply setFld_keeps
    | split

theorem takeTx_keeps (h : s.Keeps q) (x1 : List TxFrame) : (State.takeTx s x1).Keeps q := by
  unfold State.takeTx
  repeat' first
    | with_reducible assumption
    | with_reducible exact ⟨h.queue, h.wf⟩
    | intro x (hx : State.Keeps x q)
    | intro x
    | with_reducible exact ⟨hx.queue, hx.wf⟩
    | with_reducible apply upTo_keeps
    | with_reducible apply takeSlot_keeps
    | split

theorem shutdown_keeps (h : s.Keeps q) (x1 : ℕ) (x2 : ℕ) (x3 : ℕ) (x4 : ℤ) : (State.shutdown s x1 x2 x3 x4).Keeps q := by
  unfold State.shutdown
  repeat' first
    | with_reducible assumption
    | (intro x; refine keeps_step (q := q) (s := x) ?_ ?_; rotate_left; intro hx; clear_value x; rotate_right)
    | (intro x; clear_value x)
    | intro x (hx : State.Keeps x q)
    | intro x
    | lift_lets
    | simp only [x]
    | with_reducible exact ⟨hx.queue, hx.wf⟩
    | with_reducible exact ⟨h.queue, h.wf⟩
    | with_reducible apply setReg_keeps
    | with_reducible apply powerOff_keeps
    | split

theorem closeOwners_keeps (h : s.Keeps q) : (State.closeOwners s).Keeps q := ⟨h.queue, h.wf⟩

theorem chainDone_keeps (h : s.Keeps q) (x1 : ChainCheck) (x2 : Bool) : (State.chainDone s x1 x2).Keeps q := by
  unfold State.chainDone
  dsimp only
  repeat' first
    | with_reducible assumption
    | with_reducible exact ⟨h.queue, h.wf⟩
    | with_reducible apply secFail_keeps
    | with_reducible apply noteFlash_keeps
    | with_reducible apply closeOwners_keeps
    | with_reducible apply secStick_keeps
    | split

theorem setPairFault_keeps (h : s.Keeps q) (x1 : ℕ) (x2 : Bool) : (State.setPairFault s x1 x2).Keeps q := ⟨h.queue, h.wf⟩

theorem aonReset_keeps (h : s.Keeps q) : (State.aonReset s).Keeps q := by
  unfold State.aonReset
  have h1 : State.Keeps (State.coldReset { { s with regs := [], lake := { s.lake with index := none, segs := [] } } with
      pwr := State.reset.pwr } 0) q := coldReset_keeps (by exact ⟨h.queue, rfl⟩) _
  exact ⟨h1.queue, h1.wf⟩

end Sys2Proof.Machine
end

