-- ==== Sys2Proof/Laws/KeepExec.lean ====
section
/-! SUPPORT. One lemma per meaning: each answers a next state that keeps the commands that wait and the canonical form of
the register space. -/

set_option linter.all false

namespace Sys2Proof.Machine
open Sys2Proof

variable {q : List Instr} {s t : State}

theorem execTrackLost_keeps (h : s.Keeps q) : OutKeeps (execTrackLost s) q := by
  unfold execTrackLost
  repeat' first
    | with_reducible assumption
    | with_reducible exact ⟨h.queue, h.wf⟩
    | with_reducible apply stick_keeps
    | with_reducible apply out_keeps
    | split

theorem execCopyReceive_keeps (h : s.Keeps q) (x0 : BitVec 14) (x1 : SegCopy) (x2 : Bool) : OutKeeps (execCopyReceive x0 x1 x2 s) q := by
  unfold execCopyReceive
  repeat' first
    | with_reducible assumption
    | with_reducible exact ⟨h.queue, h.wf⟩
    | with_reducible apply holderAnswer_keeps
    | with_reducible apply topAnswer_keeps
    | with_reducible apply noOriginal_keeps
    | with_reducible apply lakStick_keeps
    | with_reducible apply liftNumbers_keeps
    | with_reducible apply ownCopy_keeps
    | with_reducible apply foreignCopy_keeps
    | with_reducible apply out_keeps
    | split

theorem execMilestone_keeps (h : s.Keeps q) (x0 : MsIn) : OutKeeps (execMilestone x0 s) q := by
  unfold execMilestone
  repeat' first
    | with_reducible assumption
    | (intro x; refine keeps_step (q := q) (s := x) ?_ ?_; rotate_left; intro hx; clear_value x; rotate_right)
    | (intro x; clear_value x)
    | intro x (hx : State.Keeps x q)
    | intro x
    | lift_lets
    | simp only [x]
    | with_reducible exact ⟨hx.queue, hx.wf⟩
    | with_reducible exact ⟨h.queue, h.wf⟩
    | with_reducible apply each_keeps
    | with_reducible apply arriveAll_keeps
    | with_reducible apply arriveFast_keeps
    | with_reducible apply reachBoundary_keeps
    | with_reducible apply warmReset_keeps
    | with_reducible apply replayMilestone_keeps
    | with_reducible apply runMilestone_keeps
    | with_reducible apply out_keeps
    | rintro z (hx : State.Keeps z _)
    | split

theorem execReqSleep_keeps (h : s.Keeps q) (x0 : Acc) : OutKeeps (execReqSleep x0 s) q := by
  unfold execReqSleep
  repeat' first
    | with_reducible assumption
    | with_reducible exact ⟨h.queue, h.wf⟩
    | intro x (hx : State.Keeps x q)
    | intro x
    | with_reducible exact ⟨hx.queue, hx.wf⟩
    | with_reducible apply guarded_keeps
    | with_reducible apply actPwrCtrl_keeps
    | with_reducible apply out_keeps
    | split

theorem execPowerFail_keeps (h : s.Keeps q) (x0 : Bool) : OutKeeps (execPowerFail x0 s) q := by
  unfold execPowerFail
  repeat' first
    | with_reducible assumption
    | with_reducible exact ⟨h.queue, h.wf⟩
    | with_reducible apply powerOff_keeps
    | with_reducible apply out_keeps
    | split

theorem execEcShortOpen_keeps (h : s.Keeps q) (x0 : Fin 256) : OutKeeps (execEcShortOpen x0 s) q := by
  unfold execEcShortOpen
  repeat' first
    | with_reducible assumption
    | with_reducible exact ⟨h.queue, h.wf⟩
    | with_reducible apply setPort_keeps
    | with_reducible apply out_keeps
    | split

theorem execRekey_keeps (h : s.Keeps q) (x0 : Fin 8) : OutKeeps (execRekey x0 s) q := by
  unfold execRekey
  repeat' first
    | with_reducible assumption
    | with_reducible exact ⟨h.queue, h.wf⟩
    | with_reducible apply sendLink_keeps
    | with_reducible apply setFport_keeps
    | with_reducible apply out_keeps
    | split

theorem execRxqHeadWrite_keeps (h : s.Keeps q) (x0 : Acc) (x1 : BitVec 12) : OutKeeps (execRxqHeadWrite x0 x1 s) q := by
  unfold execRxqHeadWrite
  repeat' first
    | with_reducible assumption
    | with_reducible exact ⟨h.queue, h.wf⟩
    | intro x (hx : State.Keeps x q)
    | intro x
    | with_reducible exact ⟨hx.queue, hx.wf⟩
    | with_reducible apply guarded_keeps
    | with_reducible apply actRxHead_keeps
    | with_reducible apply out_keeps
    | split

theorem execUpdBegin_keeps (h : s.Keeps q) (x0 : Acc) : OutKeeps (execUpdBegin x0 s) q := by
  unfold execUpdBegin
  repeat' first
    | with_reducible assumption
    | with_reducible exact ⟨h.queue, h.wf⟩
    | intro x (hx : State.Keeps x q)
    | intro x
    | with_reducible exact ⟨hx.queue, hx.wf⟩
    | with_reducible apply guarded_keeps
    | with_reducible apply actUpd_keeps
    | with_reducible apply out_keeps
    | split

theorem execSecInstall_keeps (h : s.Keeps q) (x0 : Acc) : OutKeeps (execSecInstall x0 s) q := by
  unfold execSecInstall
  repeat' first
    | with_reducible assumption
    | with_reducible exact ⟨h.queue, h.wf⟩
    | intro x (hx : State.Keeps x q)
    | intro x
    | with_reducible exact ⟨hx.queue, hx.wf⟩
    | with_reducible apply guarded_keeps
    | with_reducible apply actSec_keeps
    | with_reducible apply out_keeps
    | split

theorem execI2cWriteWord_keeps (h : s.Keeps q) (x0 : ℕ) (x1 : Word) : OutKeeps (execI2cWriteWord x0 x1 s) q := by
  unfold execI2cWriteWord
  repeat' first
    | with_reducible assumption
    | with_reducible exact ⟨h.queue, h.wf⟩
    | with_reducible apply i2cNext_keeps
    | with_reducible apply writeAccess_keeps
    | with_reducible apply accept_keeps
    | with_reducible apply out_keeps
    | split

theorem execLaneRejoin_keeps (h : s.Keeps q) (x0 : Fin 8) (x1 : Fin 4) : OutKeeps (execLaneRejoin x0 x1 s) q := by
  unfold execLaneRejoin
  repeat' first
    | with_reducible assumption
    | with_reducible exact ⟨h.queue, h.wf⟩
    | with_reducible apply askAgain_keeps
    | with_reducible apply movePort_keeps
    | with_reducible apply out_keeps
    | split

theorem execGateTimeout_keeps (h : s.Keeps q) (x0 : Fin 24) : OutKeeps (execGateTimeout x0 s) q := by
  unfold execGateTimeout
  repeat' first
    | with_reducible assumption
    | with_reducible exact ⟨h.queue, h.wf⟩
    | with_reducible apply stick_keeps
    | with_reducible apply setScan_keeps
    | with_reducible apply out_keeps
    | split

theorem execGlazeUnload_keeps (h : s.Keeps q) (x0 : Acc) (x1 : BitVec 6) : OutKeeps (execGlazeUnload x0 x1 s) q := by
  unfold execGlazeUnload
  repeat' first
    | with_reducible assumption
    | with_reducible exact ⟨h.queue, h.wf⟩
    | intro x (hx : State.Keeps x q)
    | intro x
    | with_reducible exact ⟨hx.queue, hx.wf⟩
    | with_reducible apply guarded_keeps
    | with_reducible apply actGlzCmd_keeps
    | with_reducible apply out_keeps
    | split

theorem execEstimatorConverged_keeps (h : s.Keeps q) (x0 : Fin 24) (x1 : Fin 17) : OutKeeps (execEstimatorConverged x0 x1 s) q := out_keeps ⟨h.queue, h.wf⟩

theorem execReplayGo_keeps (h : s.Keeps q) (x0 : Acc) : OutKeeps (execReplayGo x0 s) q := by
  unfold execReplayGo
  repeat' first
    | with_reducible assumption
    | with_reducible exact ⟨h.queue, h.wf⟩
    | intro x (hx : State.Keeps x q)
    | intro x
    | with_reducible exact ⟨hx.queue, hx.wf⟩
    | with_reducible apply guarded_keeps
    | with_reducible apply actReplay_keeps
    | with_reducible apply out_keeps
    | split

theorem execBaseConfiguration_keeps (h : s.Keeps q) (x0 : BootIn) : OutKeeps (execBaseConfiguration x0 s) q := by
  unfold execBaseConfiguration
  repeat' first
    | with_reducible assumption
    | with_reducible exact ⟨h.queue, h.wf⟩
    | with_reducible apply applyBase_keeps
    | with_reducible apply out_keeps
    | split

theorem execIntClaim_keeps (h : s.Keeps q) (x0 : Acc) (x1 : Fin 16) : OutKeeps (execIntClaim x0 x1 s) q := by
  unfold execIntClaim
  repeat' first
    | with_reducible assumption
    | with_reducible exact ⟨h.queue, h.wf⟩
    | intro x (hx : State.Keeps x q)
    | intro x
    | with_reducible exact ⟨hx.queue, hx.wf⟩
    | with_reducible apply guardedRead_keeps
    | with_reducible apply claim_keeps
    | with_reducible apply out_keeps
    | split

theorem execGlazeLoad_keeps (h : s.Keeps q) (x0 : Acc) (x1 : BitVec 6) : OutKeeps (execGlazeLoad x0 x1 s) q := by
  unfold execGlazeLoad
  repeat' first
    | with_reducible assumption
    | with_reducible exact ⟨h.queue, h.wf⟩
    | intro x (hx : State.Keeps x q)
    | intro x
    | with_reducible exact ⟨hx.queue, hx.wf⟩
    | with_reducible apply guarded_keeps
    | with_reducible apply actGlzCmd_keeps
    | with_reducible apply out_keeps
    | split

theorem execRxRingWrite_keeps (h : s.Keeps q) (x0 : ℕ) (x1 : Bool) : OutKeeps (execRxRingWrite x0 x1 s) q := by
  unfold execRxRingWrite
  repeat' first
    | with_reducible assumption
    | (intro x; refine keeps_step (q := q) (s := x) ?_ ?_; rotate_left; intro hx; clear_value x; rotate_right)
    | (intro x; clear_value x)
    | intro x (hx : State.Keeps x q)
    | intro x
    | lift_lets
    | simp only [x]
    | with_reducible exact ⟨hx.queue, hx.wf⟩
    | with_reducible exact ⟨h.queue, h.wf⟩
    | with_reducible apply rxDrain_keeps
    | with_reducible apply rxSlot_keeps
    | with_reducible apply queueDrop_keeps
    | with_reducible apply out_keeps
    | rintro z (hx : State.Keeps z _)
    | split

theorem execSpeSubstRead_keeps (h : s.Keeps q) (x0 : Acc) (x1 : Fin 24) : OutKeeps (execSpeSubstRead x0 x1 s) q := by
  unfold execSpeSubstRead
  repeat' first
    | with_reducible assumption
    | with_reducible exact ⟨h.queue, h.wf⟩
    | intro x (hx : State.Keeps x q)
    | intro x
    | with_reducible exact ⟨hx.queue, hx.wf⟩
    | with_reducible apply guardedRead_keeps
    | with_reducible apply readClear_keeps
    | with_reducible apply out_keeps
    | split

theorem execEnforcementEnd_keeps (h : s.Keeps q) : OutKeeps (execEnforcementEnd s) q := by
  unfold execEnforcementEnd
  repeat' first
    | with_reducible assumption
    | with_reducible exact ⟨h.queue, h.wf⟩
    | with_reducible apply unpark_keeps
    | with_reducible apply thmMark_keeps
    | with_reducible apply out_keeps
    | split

theorem execLockAcquire_keeps (h : s.Keeps q) (x0 : Acc) (x1 : BitVec 12) (x2 : BitVec 12) : OutKeeps (execLockAcquire x0 x1 x2 s) q := by
  unfold execLockAcquire
  repeat' first
    | with_reducible assumption
    | with_reducible exact ⟨h.queue, h.wf⟩
    | with_reducible apply writeBy_keeps
    | with_reducible apply out_keeps
    | split

theorem execSlewEnd_keeps (h : s.Keeps q) : OutKeeps (execSlewEnd s) q := by
  unfold execSlewEnd
  repeat' first
    | with_reducible assumption
    | with_reducible exact ⟨h.queue, h.wf⟩
    | with_reducible apply discardSlew_keeps
    | with_reducible apply out_keeps
    | split

theorem execReqOff_keeps (h : s.Keeps q) (x0 : Acc) : OutKeeps (execReqOff x0 s) q := by
  unfold execReqOff
  repeat' first
    | with_reducible assumption
    | with_reducible exact ⟨h.queue, h.wf⟩
    | intro x (hx : State.Keeps x q)
    | intro x
    | with_reducible exact ⟨hx.queue, hx.wf⟩
    | with_reducible apply guarded_keeps
    | with_reducible apply actPwrCtrl_keeps
    | with_reducible apply out_keeps
    | split

theorem execCaptureReceive_keeps (h : s.Keeps q) (x0 : BitVec 32) (x1 : BitVec 32) (x2 : List (List Byte)) (x3 : Bool) : OutKeeps (execCaptureReceive x0 x1 x2 x3 s) q := by
  unfold execCaptureReceive
  dsimp only
  repeat' first
    | with_reducible assumption
    | with_reducible exact ⟨h.queue, h.wf⟩
    | with_reducible apply lakStick_keeps
    | with_reducible apply out_keeps
    | split

theorem execPortShort_keeps (h : s.Keeps q) (x0 : Fin 480) : OutKeeps (execPortShort x0 s) q := by
  unfold execPortShort
  repeat' first
    | with_reducible assumption
    | with_reducible exact ⟨h.queue, h.wf⟩
    | with_reducible apply settleRange_keeps
    | with_reducible apply setPort_keeps
    | with_reducible apply portFault_keeps
    | with_reducible apply out_keeps
    | split

theorem execSourceEvent_keeps (h : s.Keeps q) (x0 : BitVec 10) (x1 : Bool) : OutKeeps (execSourceEvent x0 x1 s) q := by
  unfold execSourceEvent
  repeat' first
    | with_reducible assumption
    | with_reducible exact ⟨h.queue, h.wf⟩
    | with_reducible apply sampleSource_keeps
    | with_reducible apply out_keeps
    | split

theorem execLockUnlockCommit_keeps (h : s.Keeps q) (x0 : Acc) (x1 : BitVec 12) : OutKeeps (execLockUnlockCommit x0 x1 s) q := by
  unfold execLockUnlockCommit
  repeat' first
    | with_reducible assumption
    | with_reducible exact ⟨h.queue, h.wf⟩
    | with_reducible apply writeBy_keeps
    | with_reducible apply out_keeps
    | split

theorem execSessionSubscribe_keeps (h : s.Keeps q) (x0 : BitVec 11) (x1 : BitVec 12) (x2 : Option (BitVec 32)) : OutKeeps (execSessionSubscribe x0 x1 x2 s) q := by
  unfold execSessionSubscribe
  dsimp only
  refine out_keeps ?_
  split
  · exact h
  · split
    · exact h
    · have hl := leaveIdle_keeps h
      generalize s.leaveIdle = u at hl ⊢
      split
      · exact sendSession_keeps hl _ _ _ _ _
      · repeat' first
          | with_reducible assumption
          | with_reducible apply offerKept_keeps
          | with_reducible apply askRsv_keeps
          | with_reducible apply setSession_keeps
          | split

theorem execSpotNoGap_keeps (h : s.Keeps q) (x0 : Fin 24) : OutKeeps (execSpotNoGap x0 s) q := by
  unfold execSpotNoGap
  repeat' first
    | with_reducible assumption
    | with_reducible exact ⟨h.queue, h.wf⟩
    | with_reducible apply spotStatus_keeps
    | with_reducible apply setSpot_keeps
    | with_reducible apply out_keeps
    | split

theorem execAdjCancel_keeps (h : s.Keeps q) (x0 : Acc) : OutKeeps (execAdjCancel x0 s) q := by
  unfold execAdjCancel
  repeat' first
    | with_reducible assumption
    | with_reducible exact ⟨h.queue, h.wf⟩
    | intro x (hx : State.Keeps x q)
    | intro x
    | with_reducible exact ⟨hx.queue, hx.wf⟩
    | with_reducible apply guarded_keeps
    | with_reducible apply actAdjCtl_keeps
    | with_reducible apply out_keeps
    | split

theorem execBlockReset_keeps (h : s.Keeps q) (x0 : Acc) (x1 : BitVec 12) : OutKeeps (execBlockReset x0 x1 s) q := by
  unfold execBlockReset
  repeat' first
    | with_reducible assumption
    | with_reducible exact ⟨h.queue, h.wf⟩
    | with_reducible apply writeBy_keeps
    | with_reducible apply out_keeps
    | split

theorem execHeaterShortVhtr_keeps (h : s.Keeps q) (x0 : Fin 128) : OutKeeps (execHeaterShortVhtr x0 s) q := by
  unfold execHeaterShortVhtr
  repeat' first
    | with_reducible assumption
    | with_reducible exact ⟨h.queue, h.wf⟩
    | with_reducible apply heaterFault_keeps
    | with_reducible apply out_keeps
    | split

theorem execSweepEnd_keeps (h : s.Keeps q) (x0 : Fin 24) : OutKeeps (execSweepEnd x0 s) q := by
  unfold execSweepEnd
  repeat' first
    | with_reducible assumption
    | (intro x; refine keeps_step (q := q) (s := x) ?_ ?_; rotate_left; intro hx; clear_value x; rotate_right)
    | (intro x; clear_value x)
    | intro x (hx : State.Keeps x q)
    | intro x
    | lift_lets
    | simp only [x]
    | with_reducible exact ⟨hx.queue, hx.wf⟩
    | with_reducible exact ⟨h.queue, h.wf⟩
    | with_reducible apply setScan_keeps
    | with_reducible apply out_keeps
    | rintro z (hx : State.Keeps z _)
    | split

theorem execEstimatorFail_keeps (h : s.Keeps q) (x0 : Fin 24) (x1 : Fin 17) : OutKeeps (execEstimatorFail x0 x1 s) q := by
  unfold execEstimatorFail
  repeat' first
    | with_reducible assumption
    | with_reducible exact ⟨h.queue, h.wf⟩
    | with_reducible apply setSliceCal_keeps
    | with_reducible apply stick_keeps
    | with_reducible apply out_keeps
    | split

theorem execCommit_keeps (h : s.Keeps q) (x0 : Acc) (x1 : BitVec 12) : OutKeeps (execCommit x0 x1 s) q := by
  unfold execCommit
  repeat' first
    | with_reducible assumption
    | with_reducible exact ⟨h.queue, h.wf⟩
    | with_reducible apply writeBy_keeps
    | with_reducible apply out_keeps
    | split

theorem execHolderLost_keeps (h : s.Keeps q) (x0 : Fin 2) : OutKeeps (execHolderLost x0 s) q := by
  unfold execHolderLost
  repeat' first
    | with_reducible assumption
    | with_reducible exact ⟨h.queue, h.wf⟩
    | with_reducible apply waymark_keeps
    | with_reducible apply out_keeps
    | split

theorem execDrvFail_keeps (h : s.Keeps q) (x0 : Fin 16) : OutKeeps (execDrvFail x0 s) q := by
  unfold execDrvFail
  repeat' first
    | with_reducible assumption
    | with_reducible exact ⟨h.queue, h.wf⟩
    | with_reducible apply stick_keeps
    | with_reducible apply setAlmOut_keeps
    | with_reducible apply out_keeps
    | split

theorem execSpotDone_keeps (h : s.Keeps q) (x0 : Fin 24) (x1 : List (BitVec 14)) : OutKeeps (execSpotDone x0 x1 s) q := by
  unfold execSpotDone
  repeat' first
    | with_reducible assumption
    | with_reducible exact ⟨h.queue, h.wf⟩
    | with_reducible apply endHold_keeps
    | with_reducible apply setSpot_keeps
    | with_reducible apply setReg_keeps
    | with_reducible apply renew_keeps
    | with_reducible apply out_keeps
    | split

theorem execAckTmoResend_keeps (h : s.Keeps q) (x0 : BitVec 11) (x1 : BitVec 12) : OutKeeps (execAckTmoResend x0 x1 s) q := by
  unfold execAckTmoResend
  repeat' first
    | with_reducible assumption
    | with_reducible exact ⟨h.queue, h.wf⟩
    | intro x (hx : State.Keeps x q)
    | intro x
    | with_reducible exact ⟨hx.queue, hx.wf⟩
    | with_reducible apply each_keeps
    | with_reducible apply sendRecord_keeps
    | with_reducible apply markSent_keeps
    | with_reducible apply out_keeps
    | split

theorem execSysReset_keeps (h : s.Keeps q) (x0 : Acc) (x1 : BitVec 8) (x2 : Bool) : OutKeeps (execSysReset x0 x1 x2 s) q := by
  unfold execSysReset
  repeat' first
    | with_reducible assumption
    | with_reducible exact ⟨h.queue, h.wf⟩
    | with_reducible apply writeBy_keeps
    | with_reducible apply out_keeps
    | split

theorem execResetEstimators_keeps (h : s.Keeps q) (x0 : Acc) (x1 : BitVec 24) : OutKeeps (execResetEstimators x0 x1 s) q := by
  unfold execResetEstimators
  repeat' first
    | with_reducible assumption
    | with_reducible exact ⟨h.queue, h.wf⟩
    | intro x (hx : State.Keeps x q)
    | intro x
    | with_reducible exact ⟨hx.queue, hx.wf⟩
    | with_reducible apply guarded_keeps
    | with_reducible apply actCal_keeps
    | with_reducible apply out_keeps
    | split

theorem execEnforcement_keeps (h : s.Keeps q) : OutKeeps (execEnforcement s) q := by
  unfold execEnforcement
  repeat' first
    | with_reducible assumption
    | (intro x; refine keeps_step (q := q) (s := x) ?_ ?_; rotate_left; intro hx; clear_value x; rotate_right)
    | (intro x; clear_value x)
    | intro x (hx : State.Keeps x q)
    | intro x
    | lift_lets
    | simp only [x]
    | with_reducible exact ⟨hx.queue, hx.wf⟩
    | with_reducible exact ⟨h.queue, h.wf⟩
    | with_reducible apply noteSizes_keeps
    | with_reducible apply enforceHalve_keeps
    | with_reducible apply thmMark_keeps
    | with_reducible apply thmStick_keeps
    | with_reducible apply out_keeps
    | rintro z (hx : State.Keeps z _)
    | split

theorem execStop_keeps (h : s.Keeps q) (x0 : Fin 128) : OutKeeps (execStop x0 s) q := by
  unfold execStop
  repeat' first
    | with_reducible assumption
    | (intro x; refine keeps_step (q := q) (s := x) ?_ ?_; rotate_left; intro hx; clear_value x; rotate_right)
    | (intro x; clear_value x)
    | intro x (hx : State.Keeps x q)
    | intro x
    | lift_lets
    | simp only [x]
    | with_reducible exact ⟨hx.queue, hx.wf⟩
    | with_reducible exact ⟨h.queue, h.wf⟩
    | with_reducible apply atOp_keeps
    | with_reducible apply untimed_keeps
    | with_reducible apply stopEngine_keeps
    | with_reducible apply out_keeps
    | rintro z (hx : State.Keeps z _)
    | split

theorem execPairHighRead_keeps (h : s.Keeps q) (x0 : Acc) (x1 : ReadAt) : OutKeeps (execPairHighRead x0 x1 s) q := by
  unfold execPairHighRead
  repeat' first
    | with_reducible assumption
    | with_reducible exact ⟨h.queue, h.wf⟩
    | with_reducible apply readAccess_keeps
    | with_reducible apply out_keeps
    | split

theorem execAlarmFrameOnAddress_keeps (h : s.Keeps q) : OutKeeps (execAlarmFrameOnAddress s) q := by
  unfold execAlarmFrameOnAddress
  repeat' first
    | with_reducible assumption
    | with_reducible exact ⟨h.queue, h.wf⟩
    | with_reducible apply sendAlarms_keeps
    | with_reducible apply out_keeps
    | split

theorem execSlopeComparison_keeps (h : s.Keeps q) (x0 : ℤ) : OutKeeps (execSlopeComparison x0 s) q := by
  unfold execSlopeComparison
  dsimp only
  repeat' first
    | with_reducible assumption
    | with_reducible exact ⟨h.queue, h.wf⟩
    | with_reducible apply setReg_keeps
    | with_reducible apply stick_keeps
    | with_reducible apply out_keeps
    | split

theorem execFabPdropRead_keeps (h : s.Keeps q) (x0 : Acc) (x1 : Fin 8) : OutKeeps (execFabPdropRead x0 x1 s) q := by
  unfold execFabPdropRead
  repeat' first
    | with_reducible assumption
    | with_reducible exact ⟨h.queue, h.wf⟩
    | intro x (hx : State.Keeps x q)
    | intro x
    | with_reducible exact ⟨hx.queue, hx.wf⟩
    | with_reducible apply guardedRead_keeps
    | with_reducible apply readClear_keeps
    | with_reducible apply out_keeps
    | split

theorem execSessionHoldEnd_keeps (h : s.Keeps q) (x0 : BitVec 11) : OutKeeps (execSessionHoldEnd x0 s) q := by
  unfold execSessionHoldEnd
  repeat' first
    | with_reducible assumption
    | with_reducible exact ⟨h.queue, h.wf⟩
    | with_reducible apply closeSession_keeps
    | with_reducible apply out_keeps
    | split

theorem execRegisterWrite_keeps (h : s.Keeps q) (x0 : Acc) (x1 : BitVec 24) (x2 : BitVec 64) (x3 : BitVec 4) : OutKeeps (execRegisterWrite x0 x1 x2 x3 s) q := by
  unfold execRegisterWrite
  repeat' first
    | with_reducible assumption
    | with_reducible exact ⟨h.queue, h.wf⟩
    | with_reducible apply writeAccess_keeps
    | with_reducible apply accept_keeps
    | with_reducible apply out_keeps
    | split

theorem execInvalidate_keeps (h : s.Keeps q) (x0 : Acc) (x1 : TableId) (x2 : BitVec 14) : OutKeeps (execInvalidate x0 x1 x2 s) q := by
  unfold execInvalidate
  repeat' first
    | with_reducible assumption
    | with_reducible exact ⟨h.queue, h.wf⟩
    | intro x (hx : State.Keeps x q)
    | intro x
    | with_reducible exact ⟨hx.queue, hx.wf⟩
    | with_reducible apply guarded_keeps
    | with_reducible apply actInvalidate_keeps
    | with_reducible apply out_keeps
    | split

theorem execTinEdge_keeps (h : s.Keeps q) (x0 : ℕ) : OutKeeps (execTinEdge x0 s) q := by
  unfold execTinEdge
  have h1 := elapse_keeps h x0
  generalize s.elapse x0 = t at h1
  dsimp only
  repeat' first
    | with_reducible assumption
    | with_reducible apply out_keeps
    | with_reducible apply waymark_keeps
    | with_reducible apply renew_keeps
    | with_reducible exact ⟨h1.queue, h1.wf⟩
    | with_reducible exact ⟨h.queue, h.wf⟩
    | split

theorem execSupervisorResume_keeps (h : s.Keeps q) : OutKeeps (execSupervisorResume s) q := by
  unfold execSupervisorResume
  repeat' first
    | with_reducible assumption
    | with_reducible exact ⟨h.queue, h.wf⟩
    | with_reducible apply glzResume_keeps
    | with_reducible apply runWaiting_keeps
    | with_reducible apply out_keeps
    | split

theorem execTagPeriodicSearch_keeps (h : s.Keeps q) : OutKeeps (execTagPeriodicSearch s) q := by
  unfold execTagPeriodicSearch
  repeat' first
    | with_reducible assumption
    | with_reducible exact ⟨h.queue, h.wf⟩
    | with_reducible apply upTo_keeps
    | with_reducible apply tagAsk_keeps
    | with_reducible apply out_keeps
    | split

theorem execMetastable_keeps (h : s.Keeps q) (x0 : Fin 24) (x1 : Fin 17) (x2 : ℕ) : OutKeeps (execMetastable x0 x1 x2 s) q := by
  unfold execMetastable
  repeat' first
    | with_reducible assumption
    | with_reducible exact ⟨h.queue, h.wf⟩
    | with_reducible apply hardFault_keeps
    | with_reducible apply out_keeps
    | split

theorem execQuarantineRetry_keeps (h : s.Keeps q) (x0 : Fin 8) : OutKeeps (execQuarantineRetry x0 s) q := by
  unfold execQuarantineRetry
  repeat' first
    | with_reducible assumption
    | with_reducible exact ⟨h.queue, h.wf⟩
    | with_reducible apply movePort_keeps
    | with_reducible apply out_keeps
    | split

theorem execColdReset_keeps (h : s.Keeps q) (x0 : ColdCause) : OutKeeps (execColdReset x0 s) q := by
  unfold execColdReset
  repeat' first
    | with_reducible assumption
    | with_reducible exact ⟨h.queue, h.wf⟩
    | with_reducible apply coldReset_keeps
    | with_reducible apply out_keeps
    | split

theorem execTimeParentChoice_keeps (h : s.Keeps q) : OutKeeps (execTimeParentChoice s) q := by
  unfold execTimeParentChoice
  repeat' first
    | with_reducible assumption
    | with_reducible exact ⟨h.queue, h.wf⟩
    | with_reducible apply out_keeps
    | split

theorem execGlazeStoreDone_keeps (h : s.Keeps q) (x0 : Bool) : OutKeeps (execGlazeStoreDone x0 s) q := by
  unfold execGlazeStoreDone
  dsimp only
  repeat' first
    | with_reducible assumption
    | with_reducible exact ⟨h.queue, h.wf⟩
    | with_reducible apply glzStick_keeps
    | with_reducible apply stick_keeps
    | with_reducible apply out_keeps
    | split

theorem execTimeFrameReceive_keeps (h : s.Keeps q) (x0 : Fin 8) (x1 : ℕ) (x2 : TimeFrame) : OutKeeps (execTimeFrameReceive x0 x1 x2 s) q := by
  unfold execTimeFrameReceive
  repeat' first
    | with_reducible assumption
    | with_reducible exact ⟨h.queue, h.wf⟩
    | intro x (hx : State.Keeps x q)
    | intro x
    | with_reducible exact ⟨hx.queue, hx.wf⟩
    | with_reducible apply announceHeal_keeps
    | with_reducible apply sendTo_keeps
    | with_reducible apply timState_keeps
    | with_reducible apply frameAdj_keeps
    | with_reducible apply correct_keeps
    | with_reducible apply each_keeps
    | with_reducible apply sendLink_keeps
    | with_reducible apply stick_keeps
    | with_reducible apply out_keeps
    | split

theorem execReqIdle_keeps (h : s.Keeps q) (x0 : Acc) : OutKeeps (execReqIdle x0 s) q := by
  unfold execReqIdle
  repeat' first
    | with_reducible assumption
    | with_reducible exact ⟨h.queue, h.wf⟩
    | intro x (hx : State.Keeps x q)
    | intro x
    | with_reducible exact ⟨hx.queue, hx.wf⟩
    | with_reducible apply guarded_keeps
    | with_reducible apply actPwrCtrl_keeps
    | with_reducible apply out_keeps
    | split

theorem execCalRestore_keeps (h : s.Keeps q) (x0 : Acc) (x1 : BitVec 24) : OutKeeps (execCalRestore x0 x1 s) q := by
  unfold execCalRestore
  repeat' first
    | with_reducible assumption
    | with_reducible exact ⟨h.queue, h.wf⟩
    | intro x (hx : State.Keeps x q)
    | intro x
    | with_reducible exact ⟨hx.queue, hx.wf⟩
    | with_reducible apply guarded_keeps
    | with_reducible apply actCal_keeps
    | with_reducible apply out_keeps
    | split

theorem execCheckFault_keeps (h : s.Keeps q) (x0 : Fin 512) : OutKeeps (execCheckFault x0 s) q := by
  unfold execCheckFault
  repeat' first
    | with_reducible assumption
    | with_reducible exact ⟨h.queue, h.wf⟩
    | with_reducible apply countFaulted_keeps
    | with_reducible apply setCheck_keeps
    | with_reducible apply out_keeps
    | split

theorem execSessionRegisterAccess_keeps (h : s.Keeps q) (x0 : BitVec 11) (x1 : Bool) (x2 : BitVec 24) (x3 : Word) : OutKeeps (execSessionRegisterAccess x0 x1 x2 x3 s) q := by
  unfold execSessionRegisterAccess
  repeat' first
    | with_reducible assumption
    | with_reducible exact ⟨h.queue, h.wf⟩
    | with_reducible apply setSession_keeps
    | with_reducible apply writeAccess_keeps
    | with_reducible apply accept_keeps
    | with_reducible apply answerWith_keeps
    | with_reducible apply stick_keeps
    | with_reducible apply readFor_keeps
    | with_reducible apply out_keeps
    | split

theorem execSyncReached_keeps (h : s.Keeps q) (x0 : Fin 128) : OutKeeps (execSyncReached x0 s) q := by
  unfold execSyncReached
  repeat' first
    | with_reducible assumption
    | with_reducible exact ⟨h.queue, h.wf⟩
    | with_reducible apply goOn_keeps
    | with_reducible apply out_keeps
    | split

theorem execFoldTestEnd_keeps (h : s.Keeps q) (x0 : Fin 16) (x1 : Bool) : OutKeeps (execFoldTestEnd x0 x1 s) q := by
  unfold execFoldTestEnd
  repeat' first
    | with_reducible assumption
    | with_reducible exact ⟨h.queue, h.wf⟩
    | with_reducible apply setAlmOut_keeps
    | with_reducible apply out_keeps
    | split

theorem execHeaterTick_keeps (h : s.Keeps q) : OutKeeps (execHeaterTick s) q := by
  unfold execHeaterTick
  repeat' first
    | with_reducible assumption
    | (intro x; refine keeps_step (q := q) (s := x) ?_ ?_; rotate_left; intro hx; clear_value x; rotate_right)
    | (intro x; clear_value x)
    | intro x (hx : State.Keeps x q)
    | intro x
    | lift_lets
    | simp only [x]
    | with_reducible exact ⟨hx.queue, hx.wf⟩
    | with_reducible exact ⟨h.queue, h.wf⟩
    | with_reducible apply elapse_keeps
    | with_reducible apply each_keeps
    | with_reducible apply driveTick_keeps
    | with_reducible apply out_keeps
    | rintro z (hx : State.Keeps z _)
    | split

theorem execCalSave_keeps (h : s.Keeps q) (x0 : Acc) (x1 : BitVec 24) : OutKeeps (execCalSave x0 x1 s) q := by
  unfold execCalSave
  repeat' first
    | with_reducible assumption
    | with_reducible exact ⟨h.queue, h.wf⟩
    | intro x (hx : State.Keeps x q)
    | intro x
    | with_reducible exact ⟨hx.queue, hx.wf⟩
    | with_reducible apply guarded_keeps
    | with_reducible apply actCal_keeps
    | with_reducible apply out_keeps
    | split

theorem execSpotCancel_keeps (h : s.Keeps q) (x0 : Acc) (x1 : Fin 24) : OutKeeps (execSpotCancel x0 x1 s) q := by
  unfold execSpotCancel
  repeat' first
    | with_reducible assumption
    | with_reducible exact ⟨h.queue, h.wf⟩
    | intro x (hx : State.Keeps x q)
    | intro x
    | with_reducible exact ⟨hx.queue, hx.wf⟩
    | with_reducible apply guarded_keeps
    | with_reducible apply actSpot_keeps
    | with_reducible apply out_keeps
    | split

theorem execMaxageGiveUp_keeps (h : s.Keeps q) (x0 : ℕ) : OutKeeps (execMaxageGiveUp x0 s) q := by
  unfold execMaxageGiveUp
  repeat' first
    | with_reducible assumption
    | with_reducible exact ⟨h.queue, h.wf⟩
    | with_reducible apply releaseNow_keeps
    | with_reducible apply lakStick_keeps
    | with_reducible apply giveUpSeg_keeps
    | with_reducible apply out_keeps
    | split

theorem execAdjSlew_keeps (h : s.Keeps q) (x0 : Acc) (x1 : Bool) (x2 : BitVec 16) : OutKeeps (execAdjSlew x0 x1 x2 s) q := by
  unfold execAdjSlew
  repeat' first
    | with_reducible assumption
    | with_reducible exact ⟨h.queue, h.wf⟩
    | intro x (hx : State.Keeps x q)
    | intro x
    | with_reducible exact ⟨hx.queue, hx.wf⟩
    | with_reducible apply guarded_keeps
    | with_reducible apply actAdjCtl_keeps
    | with_reducible apply out_keeps
    | split

theorem execI2cTransactionEnd_keeps (h : s.Keeps q) (x0 : BitVec 2) : OutKeeps (execI2cTransactionEnd x0 s) q := by
  unfold execI2cTransactionEnd
  repeat' first
    | with_reducible assumption
    | with_reducible exact ⟨h.queue, h.wf⟩
    | with_reducible apply i2cEnd_keeps
    | with_reducible apply stick_keeps
    | with_reducible apply out_keeps
    | split

theorem execEcShortClose_keeps (h : s.Keeps q) : OutKeeps (execEcShortClose s) q := by
  unfold execEcShortClose
  repeat' first
    | with_reducible assumption
    | with_reducible exact ⟨h.queue, h.wf⟩
    | with_reducible apply closeShorts_keeps
    | with_reducible apply out_keeps
    | split

theorem execD2dRecovery_keeps (h : s.Keeps q) : OutKeeps (execD2dRecovery s) q := by
  unfold execD2dRecovery
  repeat' first
    | with_reducible assumption
    | with_reducible exact ⟨h.queue, h.wf⟩
    | with_reducible apply ringAdd_keeps
    | with_reducible apply out_keeps
    | split

theorem execSpareAbort_keeps (h : s.Keeps q) (x0 : Acc) (x1 : Fin 24) : OutKeeps (execSpareAbort x0 x1 s) q := by
  unfold execSpareAbort
  repeat' first
    | with_reducible assumption
    | with_reducible exact ⟨h.queue, h.wf⟩
    | intro x (hx : State.Keeps x q)
    | intro x
    | with_reducible exact ⟨hx.queue, hx.wf⟩
    | with_reducible apply guarded_keeps
    | with_reducible apply actSpare_keeps
    | with_reducible apply out_keeps
    | split

theorem execSessionOpen_keeps (h : s.Keeps q) (x0 : BitVec 14) (x1 : Bool) (x2 : Role) : OutKeeps (execSessionOpen x0 x1 x2 s) q := by
  unfold execSessionOpen
  dsimp only
  refine out_keeps ?_
  split
  · exact h
  · have h1 := leaveIdle_keeps h
    generalize s.leaveIdle = u at h1 ⊢
    have no : State.Keeps (if x1 = true then u.sendOn 8 4 0x04 x0.toNat 0xFFFF [1, 0xFFFF] 16
        else u.sendTo 4 0x04 x0.toNat 0xFFFF [1, 0xFFFF] 16) q := by
      split
      · exact sendOn_keeps h1 _ _ _ _ _ _ _
      · exact sendTo_keeps h1 _ _ _ _ _ _
    split
    · exact no
    · split
      · exact no
      · exact shake_keeps (by exact ⟨h1.queue, h1.wf⟩) _

theorem execCapturePostTriggerEnd_keeps (h : s.Keeps q) : OutKeeps (execCapturePostTriggerEnd s) q := by
  unfold execCapturePostTriggerEnd
  dsimp only
  repeat' first
    | with_reducible assumption
    | with_reducible exact ⟨h.queue, h.wf⟩
    | with_reducible apply rearm_keeps
    | with_reducible apply lakStick_keeps
    | with_reducible apply out_keeps
    | split

theorem execLinkAcknowledge_keeps (h : s.Keeps q) (x0 : Fin 8) (x1 : BitVec 16) : OutKeeps (execLinkAcknowledge x0 x1 s) q := out_keeps ⟨h.queue, h.wf⟩

theorem execCodeArrival_keeps (h : s.Keeps q) (x0 : Option FastCodes) : OutKeeps (execCodeArrival x0 s) q := by
  unfold execCodeArrival
  repeat' first
    | with_reducible assumption
    | with_reducible exact ⟨h.queue, h.wf⟩
    | with_reducible apply substNow_keeps
    | with_reducible apply arriveHeld_keeps
    | with_reducible apply arriveFast_keeps
    | with_reducible apply out_keeps
    | split

theorem execSpareStart_keeps (h : s.Keeps q) (x0 : Acc) (x1 : Fin 24) (x2 : BitVec 4) : OutKeeps (execSpareStart x0 x1 x2 s) q := by
  unfold execSpareStart
  repeat' first
    | with_reducible assumption
    | with_reducible exact ⟨h.queue, h.wf⟩
    | intro x (hx : State.Keeps x q)
    | intro x
    | with_reducible exact ⟨hx.queue, hx.wf⟩
    | with_reducible apply guarded_keeps
    | with_reducible apply actSpare_keeps
    | with_reducible apply out_keeps
    | split

theorem execFlag_keeps (h : s.Keeps q) (x0 : Fin 128) : OutKeeps (execFlag x0 s) q := by
  unfold execFlag
  repeat' first
    | with_reducible assumption
    | with_reducible exact ⟨h.queue, h.wf⟩
    | intro x (hx : State.Keeps x q)
    | intro x
    | with_reducible exact ⟨hx.queue, hx.wf⟩
    | with_reducible apply atOp_keeps
    | with_reducible apply untimed_keeps
    | with_reducible apply setEngine_keeps
    | with_reducible apply out_keeps
    | split

theorem execAddressRequest_keeps (h : s.Keeps q) (x0 : Fin 8) (x1 : BitVec 64) (x2 : Option (BitVec 14)) : OutKeeps (execAddressRequest x0 x1 x2 s) q := by
  unfold execAddressRequest
  repeat' first
    | with_reducible assumption
    | (intro x; refine keeps_step (q := q) (s := x) ?_ ?_; rotate_left; intro hx; clear_value x; rotate_right)
    | (intro x; clear_value x)
    | intro x (hx : State.Keeps x q)
    | intro x
    | lift_lets
    | simp only [x]
    | with_reducible exact ⟨hx.queue, hx.wf⟩
    | with_reducible exact ⟨h.queue, h.wf⟩
    | with_reducible apply leaveIdle_keeps
    | with_reducible apply sendLink_keeps
    | with_reducible apply out_keeps
    | rintro z (hx : State.Keeps z _)
    | split

theorem execRailWarning_keeps (h : s.Keeps q) (x0 : Fin 5) : OutKeeps (execRailWarning x0 s) q := by
  unfold execRailWarning
  repeat' first
    | with_reducible assumption
    | with_reducible exact ⟨h.queue, h.wf⟩
    | with_reducible apply pwrStick_keeps
    | with_reducible apply orReg_keeps
    | with_reducible apply out_keeps
    | split

theorem execGlazeStore_keeps (h : s.Keeps q) (x0 : Acc) (x1 : BitVec 6) : OutKeeps (execGlazeStore x0 x1 s) q := by
  unfold execGlazeStore
  repeat' first
    | with_reducible assumption
    | with_reducible exact ⟨h.queue, h.wf⟩
    | intro x (hx : State.Keeps x q)
    | intro x
    | with_reducible exact ⟨hx.queue, hx.wf⟩
    | with_reducible apply guarded_keeps
    | with_reducible apply actGlzCmd_keeps
    | with_reducible apply out_keeps
    | split

theorem execFabPretryRead_keeps (h : s.Keeps q) (x0 : Acc) (x1 : Fin 8) : OutKeeps (execFabPretryRead x0 x1 s) q := by
  unfold execFabPretryRead
  repeat' first
    | with_reducible assumption
    | with_reducible exact ⟨h.queue, h.wf⟩
    | intro x (hx : State.Keeps x q)
    | intro x
    | with_reducible exact ⟨hx.queue, hx.wf⟩
    | with_reducible apply guardedRead_keeps
    | with_reducible apply readClear_keeps
    | with_reducible apply out_keeps
    | split

theorem execSegmentRequest_keeps (h : s.Keeps q) (x0 : BitVec 14) (x1 : ℕ) : OutKeeps (execSegmentRequest x0 x1 s) q := by
  unfold execSegmentRequest
  repeat' first
    | with_reducible assumption
    | with_reducible exact ⟨h.queue, h.wf⟩
    | with_reducible apply sendWhole_keeps
    | with_reducible apply out_keeps
    | split

theorem execAlmAck_keeps (h : s.Keeps q) (x0 : Acc) (x1 : BitVec 8) : OutKeeps (execAlmAck x0 x1 s) q := by
  unfold execAlmAck
  repeat' first
    | with_reducible assumption
    | with_reducible exact ⟨h.queue, h.wf⟩
    | intro x (hx : State.Keeps x q)
    | intro x
    | with_reducible exact ⟨hx.queue, hx.wf⟩
    | with_reducible apply guarded_keeps
    | with_reducible apply actAck_keeps
    | with_reducible apply out_keeps
    | split

theorem execReplicaChoice_keeps (h : s.Keeps q) (x0 : List (BitVec 14 × Fin 8 × ℕ)) : OutKeeps (execReplicaChoice x0 s) q := by
  unfold execReplicaChoice
  repeat' first
    | with_reducible assumption
    | (intro x; refine keeps_step (q := q) (s := x) ?_ ?_; rotate_left; intro hx; clear_value x; rotate_right)
    | (intro x; clear_value x)
    | intro x (hx : State.Keeps x q)
    | intro x
    | lift_lets
    | simp only [x]
    | with_reducible exact ⟨hx.queue, hx.wf⟩
    | with_reducible exact ⟨h.queue, h.wf⟩
    | with_reducible apply refusedBy_keeps
    | with_reducible apply each_keeps
    | with_reducible apply sendTo_keeps
    | with_reducible apply fillHolders_keeps
    | with_reducible apply waymark_keeps
    | with_reducible apply lakStick_keeps
    | with_reducible apply out_keeps
    | rintro z (hx : State.Keeps z _)
    | split

theorem execLockUnlockDiscard_keeps (h : s.Keeps q) (x0 : Acc) (x1 : BitVec 12) : OutKeeps (execLockUnlockDiscard x0 x1 s) q := by
  unfold execLockUnlockDiscard
  repeat' first
    | with_reducible assumption
    | with_reducible exact ⟨h.queue, h.wf⟩
    | with_reducible apply writeBy_keeps
    | with_reducible apply out_keeps
    | split

theorem execAlarmFrameReceive_keeps (h : s.Keeps q) (x0 : AlarmFrame) : OutKeeps (execAlarmFrameReceive x0 s) q := by
  unfold execAlarmFrameReceive
  repeat' first
    | with_reducible assumption
    | (intro x; refine keeps_step (q := q) (s := x) ?_ ?_; rotate_left; intro hx; clear_value x; rotate_right)
    | (intro x; clear_value x)
    | intro x (hx : State.Keeps x q)
    | intro x
    | lift_lets
    | simp only [x]
    | with_reducible exact ⟨hx.queue, hx.wf⟩
    | with_reducible exact ⟨h.queue, h.wf⟩
    | with_reducible apply each_keeps
    | with_reducible apply observe_keeps
    | with_reducible apply setSwitch_keeps
    | with_reducible apply out_keeps
    | rintro z (hx : State.Keeps z _)
    | split

theorem execPortOpen_keeps (h : s.Keeps q) (x0 : Fin 480) : OutKeeps (execPortOpen x0 s) q := by
  unfold execPortOpen
  repeat' first
    | with_reducible assumption
    | with_reducible exact ⟨h.queue, h.wf⟩
    | with_reducible apply portFault_keeps
    | with_reducible apply setPort_keeps
    | with_reducible apply out_keeps
    | split

theorem execBlockResetEnd_keeps (h : s.Keeps q) (x0 : BitVec 12) : OutKeeps (execBlockResetEnd x0 s) q := by
  unfold execBlockResetEnd
  dsimp only
  repeat' first
    | with_reducible assumption
    | with_reducible exact ⟨h.queue, h.wf⟩
    | with_reducible apply out_keeps
    | split

theorem execRetryLimit_keeps (h : s.Keeps q) (x0 : Fin 8) : OutKeeps (execRetryLimit x0 s) q := by
  unfold execRetryLimit
  repeat' first
    | with_reducible assumption
    | with_reducible exact ⟨h.queue, h.wf⟩
    | with_reducible apply stick_keeps
    | with_reducible apply portDown_keeps
    | with_reducible apply out_keeps
    | split

theorem execI2cReadWord_keeps (h : s.Keeps q) (x0 : ℕ) : OutKeeps (execI2cReadWord x0 s) q := by
  unfold execI2cReadWord
  repeat' first
    | with_reducible assumption
    | with_reducible exact ⟨h.queue, h.wf⟩
    | with_reducible apply i2cNext_keeps
    | with_reducible apply readFor_keeps
    | with_reducible apply out_keeps
    | split

theorem execModeChangeRecall_keeps (h : s.Keeps q) (x0 : Acc) (x1 : Bool) : OutKeeps (execModeChangeRecall x0 x1 s) q := by
  unfold execModeChangeRecall
  repeat' first
    | with_reducible assumption
    | with_reducible exact ⟨h.queue, h.wf⟩
    | intro x (hx : State.Keeps x q)
    | intro x
    | with_reducible exact ⟨hx.queue, hx.wf⟩
    | with_reducible apply guarded_keeps
    | with_reducible apply actMc_keeps
    | with_reducible apply out_keeps
    | split

theorem execQueryReceive_keeps (h : s.Keeps q) (x0 : Fin 8) : OutKeeps (execQueryReceive x0 s) q := by
  unfold execQueryReceive
  repeat' first
    | with_reducible assumption
    | with_reducible exact ⟨h.queue, h.wf⟩
    | with_reducible apply sendLink_keeps
    | with_reducible apply leaveIdle_keeps
    | with_reducible apply out_keeps
    | split

theorem execInvalidateAll_keeps (h : s.Keeps q) (x0 : Acc) (x1 : TableId) : OutKeeps (execInvalidateAll x0 x1 s) q := by
  unfold execInvalidateAll
  repeat' first
    | with_reducible assumption
    | with_reducible exact ⟨h.queue, h.wf⟩
    | intro x (hx : State.Keeps x q)
    | intro x
    | with_reducible exact ⟨hx.queue, hx.wf⟩
    | with_reducible apply guarded_keeps
    | with_reducible apply actInvalidate_keeps
    | with_reducible apply out_keeps
    | split

theorem execLimitationEnd_keeps (h : s.Keeps q) : OutKeeps (execLimitationEnd s) q := by
  unfold execLimitationEnd
  repeat' first
    | with_reducible assumption
    | with_reducible exact ⟨h.queue, h.wf⟩
    | with_reducible apply scaleDrives_keeps
    | with_reducible apply out_keeps
    | split

theorem execCaptureCopyDone_keeps (h : s.Keeps q) : OutKeeps (execCaptureCopyDone s) q := by
  unfold execCaptureCopyDone
  repeat' first
    | with_reducible assumption
    | with_reducible exact ⟨h.queue, h.wf⟩
    | with_reducible apply rearm_keeps
    | with_reducible apply waymark_keeps
    | with_reducible apply out_keeps
    | split

theorem execTagReadMemory_keeps (h : s.Keeps q) (x0 : Acc) (x1 : BitVec 4) (x2 : BitVec 5) (x3 : BitVec 8) (x4 : BitVec 8) : OutKeeps (execTagReadMemory x0 x1 x2 x3 x4 s) q := by
  unfold execTagReadMemory
  repeat' first
    | with_reducible assumption
    | with_reducible exact ⟨h.queue, h.wf⟩
    | intro x (hx : State.Keeps x q)
    | intro x
    | with_reducible exact ⟨hx.queue, hx.wf⟩
    | with_reducible apply guarded_keeps
    | with_reducible apply actTagCmd_keeps
    | with_reducible apply out_keeps
    | split

theorem execHoldInstant_keeps (h : s.Keeps q) (x0 : Fin 512) (x1 : ℕ) (x2 : WindowIn) : OutKeeps (execHoldInstant x0 x1 x2 s) q := by
  unfold execHoldInstant
  repeat' first
    | with_reducible assumption
    | with_reducible exact ⟨h.queue, h.wf⟩
    | with_reducible apply elapse_keeps
    | with_reducible apply holdNow_keeps
    | with_reducible apply endLates_keeps
    | with_reducible apply ringAdd_keeps
    | with_reducible apply out_keeps
    | split

theorem execTagSearchDone_keeps (h : s.Keeps q) (x0 : Fin 16) (x1 : List (List (BitVec 64 × BitVec 16))) : OutKeeps (execTagSearchDone x0 x1 s) q := by
  unfold execTagSearchDone
  repeat' first
    | with_reducible assumption
    | with_reducible exact ⟨h.queue, h.wf⟩
    | with_reducible apply stick_keeps
    | with_reducible apply setTag_keeps
    | with_reducible apply waymark_keeps
    | with_reducible apply tagEnd_keeps
    | with_reducible apply out_keeps
    | split

theorem execThmSexclWrite_keeps (h : s.Keeps q) (x0 : Acc) (x1 : BitVec 24) : OutKeeps (execThmSexclWrite x0 x1 s) q := by
  unfold execThmSexclWrite
  repeat' first
    | with_reducible assumption
    | with_reducible exact ⟨h.queue, h.wf⟩
    | intro x (hx : State.Keeps x q)
    | intro x
    | with_reducible exact ⟨hx.queue, hx.wf⟩
    | with_reducible apply guarded_keeps
    | with_reducible apply actSexcl_keeps
    | with_reducible apply out_keeps
    | split

theorem execTset_keeps (h : s.Keeps q) (x0 : Fin 128) : OutKeeps (execTset x0 s) q := by
  unfold execTset
  repeat' first
    | with_reducible assumption
    | with_reducible exact ⟨h.queue, h.wf⟩
    | intro x (hx : State.Keeps x q)
    | intro x
    | with_reducible exact ⟨hx.queue, hx.wf⟩
    | with_reducible apply atOp_keeps
    | with_reducible apply closedSegment_keeps
    | with_reducible apply out_keeps
    | split

theorem execLoop_keeps (h : s.Keeps q) (x0 : Fin 128) : OutKeeps (execLoop x0 s) q := by
  unfold execLoop
  repeat' first
    | with_reducible assumption
    | with_reducible exact ⟨h.queue, h.wf⟩
    | intro x (hx : State.Keeps x q)
    | intro x
    | with_reducible exact ⟨hx.queue, hx.wf⟩
    | with_reducible apply atOp_keeps
    | with_reducible apply untimed_keeps
    | with_reducible apply setEngine_keeps
    | with_reducible apply out_keeps
    | split

theorem execPairLowRead_keeps (h : s.Keeps q) (x0 : Acc) (x1 : ReadAt) : OutKeeps (execPairLowRead x0 x1 s) q := by
  unfold execPairLowRead
  repeat' first
    | with_reducible assumption
    | with_reducible exact ⟨h.queue, h.wf⟩
    | with_reducible apply readAccess_keeps
    | with_reducible apply out_keeps
    | split

theorem execVisit_keeps (h : s.Keeps q) (x0 : Fin 24) (x1 : Fin 512) (x2 : ℕ) (x3 : List (BitVec 14)) : OutKeeps (execVisit x0 x1 x2 x3 s) q := by
  unfold execVisit
  repeat' first
    | with_reducible assumption
    | with_reducible exact ⟨h.queue, h.wf⟩
    | with_reducible apply elapse_keeps
    | with_reducible apply visitAt_keeps
    | with_reducible apply setScan_keeps
    | with_reducible apply out_keeps
    | split

theorem execIntFeoi_keeps (h : s.Keeps q) (x0 : Acc) (x1 : Fin 16) (x2 : BitVec 10) : OutKeeps (execIntFeoi x0 x1 x2 s) q := by
  unfold execIntFeoi
  repeat' first
    | with_reducible assumption
    | with_reducible exact ⟨h.queue, h.wf⟩
    | intro x (hx : State.Keeps x q)
    | intro x
    | with_reducible exact ⟨hx.queue, hx.wf⟩
    | with_reducible apply guarded_keeps
    | with_reducible apply actFeoi_keeps
    | with_reducible apply out_keeps
    | split

theorem execTagSearch_keeps (h : s.Keeps q) (x0 : Acc) (x1 : BitVec 4) : OutKeeps (execTagSearch x0 x1 s) q := by
  unfold execTagSearch
  repeat' first
    | with_reducible assumption
    | with_reducible exact ⟨h.queue, h.wf⟩
    | intro x (hx : State.Keeps x q)
    | intro x
    | with_reducible exact ⟨hx.queue, hx.wf⟩
    | with_reducible apply guarded_keeps
    | with_reducible apply actTagCmd_keeps
    | with_reducible apply out_keeps
    | split

theorem execReqDeepSleep_keeps (h : s.Keeps q) (x0 : Acc) : OutKeeps (execReqDeepSleep x0 s) q := by
  unfold execReqDeepSleep
  repeat' first
    | with_reducible assumption
    | with_reducible exact ⟨h.queue, h.wf⟩
    | intro x (hx : State.Keeps x q)
    | intro x
    | with_reducible exact ⟨hx.queue, hx.wf⟩
    | with_reducible apply guarded_keeps
    | with_reducible apply actPwrCtrl_keeps
    | with_reducible apply out_keeps
    | split

theorem execSessionKeepAlive_keeps (h : s.Keeps q) (x0 : BitVec 11) : OutKeeps (execSessionKeepAlive x0 s) q := by
  unfold execSessionKeepAlive
  repeat' first
    | with_reducible assumption
    | with_reducible exact ⟨h.queue, h.wf⟩
    | with_reducible apply setSession_keeps
    | with_reducible apply out_keeps
    | split

theorem execReqRun_keeps (h : s.Keeps q) (x0 : Acc) : OutKeeps (execReqRun x0 s) q := by
  unfold execReqRun
  repeat' first
    | with_reducible assumption
    | with_reducible exact ⟨h.queue, h.wf⟩
    | intro x (hx : State.Keeps x q)
    | intro x
    | with_reducible exact ⟨hx.queue, hx.wf⟩
    | with_reducible apply guarded_keeps
    | with_reducible apply actPwrCtrl_keeps
    | with_reducible apply out_keeps
    | split

theorem execUpdCommandDone_keeps (h : s.Keeps q) (x0 : ImageCheck) : OutKeeps (execUpdCommandDone x0 s) q := by
  unfold execUpdCommandDone
  repeat' first
    | with_reducible assumption
    | with_reducible exact ⟨h.queue, h.wf⟩
    | with_reducible apply updDone_keeps
    | with_reducible apply verifyDone_keeps
    | with_reducible apply activateDone_keeps
    | with_reducible apply out_keeps
    | split

theorem execSelfCalibrationPhase_keeps (h : s.Keeps q) (x0 : Fin 24) : OutKeeps (execSelfCalibrationPhase x0 s) q := by
  unfold execSelfCalibrationPhase
  repeat' first
    | with_reducible assumption
    | with_reducible exact ⟨h.queue, h.wf⟩
    | with_reducible apply setBank_keeps
    | with_reducible apply out_keeps
    | split

theorem execReservationGrant_keeps (h : s.Keeps q) (x0 : BitVec 11) (x1 : ℕ) : OutKeeps (execReservationGrant x0 x1 s) q := by
  unfold execReservationGrant
  repeat' first
    | with_reducible assumption
    | with_reducible exact ⟨h.queue, h.wf⟩
    | with_reducible apply setSession_keeps
    | with_reducible apply leaveIdle_keeps
    | with_reducible apply out_keeps
    | split

theorem execIntEoi_keeps (h : s.Keeps q) (x0 : Acc) (x1 : Fin 16) (x2 : BitVec 10) : OutKeeps (execIntEoi x0 x1 x2 s) q := by
  unfold execIntEoi
  repeat' first
    | with_reducible assumption
    | with_reducible exact ⟨h.queue, h.wf⟩
    | intro x (hx : State.Keeps x q)
    | intro x
    | with_reducible exact ⟨hx.queue, hx.wf⟩
    | with_reducible apply guarded_keeps
    | with_reducible apply actEoi_keeps
    | with_reducible apply out_keeps
    | split

theorem execIntervalEnd_keeps (h : s.Keeps q) (x0 : BitVec 12) : OutKeeps (execIntervalEnd x0 s) q := by
  unfold execIntervalEnd
  repeat' first
    | with_reducible assumption
    | with_reducible exact ⟨h.queue, h.wf⟩
    | with_reducible apply substNow_keeps
    | with_reducible apply closeInterval_keeps
    | with_reducible apply ringAdd_keeps
    | with_reducible apply out_keeps
    | split

theorem execUpdVerify_keeps (h : s.Keeps q) (x0 : Acc) : OutKeeps (execUpdVerify x0 s) q := by
  unfold execUpdVerify
  repeat' first
    | with_reducible assumption
    | with_reducible exact ⟨h.queue, h.wf⟩
    | intro x (hx : State.Keeps x q)
    | intro x
    | with_reducible exact ⟨hx.queue, hx.wf⟩
    | with_reducible apply guarded_keeps
    | with_reducible apply actUpd_keeps
    | with_reducible apply out_keeps
    | split

theorem execAlmAckAll_keeps (h : s.Keeps q) (x0 : Acc) : OutKeeps (execAlmAckAll x0 s) q := by
  unfold execAlmAckAll
  repeat' first
    | with_reducible assumption
    | with_reducible exact ⟨h.queue, h.wf⟩
    | intro x (hx : State.Keeps x q)
    | intro x
    | with_reducible exact ⟨hx.queue, hx.wf⟩
    | with_reducible apply guarded_keeps
    | with_reducible apply actAck_keeps
    | with_reducible apply out_keeps
    | split

theorem execSessionHandshakeDone_keeps (h : s.Keeps q) (x0 : BitVec 11) (x1 : Bool) (x2 : List (List Byte)) (x3 : BitVec 384) : OutKeeps (execSessionHandshakeDone x0 x1 x2 x3 s) q := by
  unfold execSessionHandshakeDone
  repeat' first
    | with_reducible assumption
    | (intro x; refine keeps_step (q := q) (s := x) ?_ ?_; rotate_left; intro hx; clear_value x; rotate_right)
    | (intro x; clear_value x)
    | intro x (hx : State.Keeps x q)
    | intro x
    | lift_lets
    | simp only [x]
    | with_reducible exact ⟨hx.queue, hx.wf⟩
    | with_reducible exact ⟨h.queue, h.wf⟩
    | with_reducible apply leaveIdle_keeps
    | with_reducible apply setSession_keeps
    | with_reducible apply giveToken_keeps
    | with_reducible apply dropNumber_keeps
    | with_reducible apply refuseOpen_keeps
    | with_reducible apply out_keeps
    | rintro z (hx : State.Keeps z _)
    | split

theorem execSweepStart_keeps (h : s.Keeps q) (x0 : Fin 24) (x1 : ℤ) : OutKeeps (execSweepStart x0 x1 s) q := by
  unfold execSweepStart
  repeat' first
    | with_reducible assumption
    | with_reducible exact ⟨h.queue, h.wf⟩
    | with_reducible apply elapse_keeps
    | with_reducible apply setScan_keeps
    | with_reducible apply out_keeps
    | split

theorem execImpBase_keeps (h : s.Keeps q) (x0 : Acc) (x1 : Fin 24) (x2 : BitVec 5) : OutKeeps (execImpBase x0 x1 x2 s) q := by
  unfold execImpBase
  repeat' first
    | with_reducible assumption
    | with_reducible exact ⟨h.queue, h.wf⟩
    | intro x (hx : State.Keeps x q)
    | intro x
    | with_reducible exact ⟨hx.queue, hx.wf⟩
    | with_reducible apply guarded_keeps
    | with_reducible apply actImpCmd_keeps
    | with_reducible apply out_keeps
    | split

theorem execSegmentReleaseReceive_keeps (h : s.Keeps q) (x0 : BitVec 14) (x1 : BitVec 64) (x2 : ℕ) : OutKeeps (execSegmentReleaseReceive x0 x1 x2 s) q := by
  unfold execSegmentReleaseReceive
  repeat' first
    | with_reducible assumption
    | with_reducible exact ⟨h.queue, h.wf⟩
    | with_reducible apply out_keeps
    | split

theorem execSync_keeps (h : s.Keeps q) (x0 : Fin 128) : OutKeeps (execSync x0 s) q := by
  unfold execSync
  repeat' first
    | with_reducible assumption
    | with_reducible exact ⟨h.queue, h.wf⟩
    | intro x (hx : State.Keeps x q)
    | intro x
    | with_reducible exact ⟨hx.queue, hx.wf⟩
    | with_reducible apply atOp_keeps
    | with_reducible apply setEngine_keeps
    | with_reducible apply out_keeps
    | split

theorem execHeaterProgFault_keeps (h : s.Keeps q) (x0 : Fin 128) : OutKeeps (execHeaterProgFault x0 s) q := by
  unfold execHeaterProgFault
  repeat' first
    | with_reducible assumption
    | with_reducible exact ⟨h.queue, h.wf⟩
    | with_reducible apply heaterFault_keeps
    | with_reducible apply out_keeps
    | split

theorem execUpdAbort_keeps (h : s.Keeps q) (x0 : Acc) : OutKeeps (execUpdAbort x0 s) q := by
  unfold execUpdAbort
  repeat' first
    | with_reducible assumption
    | with_reducible exact ⟨h.queue, h.wf⟩
    | intro x (hx : State.Keeps x q)
    | intro x
    | with_reducible exact ⟨hx.queue, hx.wf⟩
    | with_reducible apply guarded_keeps
    | with_reducible apply actUpd_keeps
    | with_reducible apply out_keeps
    | split

theorem execSelfCalibrate_keeps (h : s.Keeps q) (x0 : Acc) (x1 : BitVec 24) : OutKeeps (execSelfCalibrate x0 x1 s) q := by
  unfold execSelfCalibrate
  repeat' first
    | with_reducible assumption
    | with_reducible exact ⟨h.queue, h.wf⟩
    | intro x (hx : State.Keeps x q)
    | intro x
    | with_reducible exact ⟨hx.queue, hx.wf⟩
    | with_reducible apply guarded_keeps
    | with_reducible apply actCal_keeps
    | with_reducible apply out_keeps
    | split

theorem execGapVisit_keeps (h : s.Keeps q) (x0 : Fin 24) (x1 : Fin 17) (x2 : Bool) (x3 : List (BitVec 14)) : OutKeeps (execGapVisit x0 x1 x2 x3 s) q := by
  unfold execGapVisit
  repeat' first
    | with_reducible assumption
    | (intro x; refine keeps_step (q := q) (s := x) ?_ ?_; rotate_left; intro hx; clear_value x; rotate_right)
    | (intro x; clear_value x)
    | intro x (hx : State.Keeps x q)
    | intro x
    | lift_lets
    | simp only [x]
    | with_reducible exact ⟨hx.queue, hx.wf⟩
    | with_reducible exact ⟨h.queue, h.wf⟩
    | with_reducible apply endGap_keeps
    | with_reducible apply out_keeps
    | rintro z (hx : State.Keeps z _)
    | split

theorem execAddressAssign_keeps (h : s.Keeps q) (x0 : BitVec 14) : OutKeeps (execAddressAssign x0 s) q := by
  unfold execAddressAssign
  repeat' first
    | with_reducible assumption
    | with_reducible exact ⟨h.queue, h.wf⟩
    | with_reducible apply takeAddr_keeps
    | with_reducible apply leaveIdle_keeps
    | with_reducible apply out_keeps
    | split

theorem execOffExit_keeps (h : s.Keeps q) : OutKeeps (execOffExit s) q := by
  unfold execOffExit
  repeat' first
    | with_reducible assumption
    | with_reducible exact ⟨h.queue, h.wf⟩
    | with_reducible apply coldReset_keeps
    | with_reducible apply out_keeps
    | split

theorem execIntFclaim_keeps (h : s.Keeps q) (x0 : Acc) (x1 : Fin 16) : OutKeeps (execIntFclaim x0 x1 s) q := by
  unfold execIntFclaim
  repeat' first
    | with_reducible assumption
    | with_reducible exact ⟨h.queue, h.wf⟩
    | intro x (hx : State.Keeps x q)
    | intro x
    | with_reducible exact ⟨hx.queue, hx.wf⟩
    | with_reducible apply guardedRead_keeps
    | with_reducible apply claim_keeps
    | with_reducible apply out_keeps
    | split

theorem execExtLow_keeps (h : s.Keeps q) (x0 : Fin 16) : OutKeeps (execExtLow x0 s) q := by
  unfold execExtLow
  repeat' first
    | with_reducible assumption
    | with_reducible exact ⟨h.queue, h.wf⟩
    | with_reducible apply setAlmOut_keeps
    | with_reducible apply out_keeps
    | split

theorem execInterruptFrameReceive_keeps (h : s.Keeps q) (x0 : Fin 8) (x1 : BitVec 8) (x2 : Bool) (x3 : Bool) : OutKeeps (execInterruptFrameReceive x0 x1 x2 x3 s) q := by
  unfold execInterruptFrameReceive
  repeat' first
    | with_reducible assumption
    | with_reducible exact ⟨h.queue, h.wf⟩
    | with_reducible apply countSat_keeps
    | with_reducible apply pulse_keeps
    | with_reducible apply out_keeps
    | split

theorem execPortClamp_keeps (h : s.Keeps q) (x0 : PortCond 64) : OutKeeps (execPortClamp x0 s) q := by
  unfold execPortClamp
  repeat' first
    | with_reducible assumption
    | with_reducible exact ⟨h.queue, h.wf⟩
    | with_reducible apply portFault_keeps
    | with_reducible apply setPort_keeps
    | with_reducible apply out_keeps
    | split

theorem execVramp_keeps (h : s.Keeps q) (x0 : Fin 128) : OutKeeps (execVramp x0 s) q := by
  unfold execVramp
  repeat' first
    | with_reducible assumption
    | with_reducible exact ⟨h.queue, h.wf⟩
    | intro x (hx : State.Keeps x q)
    | intro x
    | with_reducible exact ⟨hx.queue, hx.wf⟩
    | with_reducible apply atOp_keeps
    | with_reducible apply segment_keeps
    | with_reducible apply out_keeps
    | split

theorem execSpareConverged_keeps (h : s.Keeps q) (x0 : Fin 24) : OutKeeps (execSpareConverged x0 s) q := by
  unfold execSpareConverged
  repeat' first
    | with_reducible assumption
    | with_reducible exact ⟨h.queue, h.wf⟩
    | with_reducible apply setBank_keeps
    | with_reducible apply out_keeps
    | split

theorem execSessionResume_keeps (h : s.Keeps q) (x0 : BitVec 11) (x1 : BitVec 128) (x2 : Option PeerAuth) : OutKeeps (execSessionResume x0 x1 x2 s) q := by
  unfold execSessionResume
  repeat' first
    | with_reducible assumption
    | (intro x; refine keeps_step (q := q) (s := x) ?_ ?_; rotate_left; intro hx; clear_value x; rotate_right)
    | (intro x; clear_value x)
    | intro x (hx : State.Keeps x q)
    | intro x
    | lift_lets
    | simp only [x]
    | with_reducible exact ⟨hx.queue, hx.wf⟩
    | with_reducible exact ⟨h.queue, h.wf⟩
    | with_reducible apply leaveIdle_keeps
    | with_reducible apply sendSession_keeps
    | with_reducible apply giveToken_keeps
    | with_reducible apply shake_keeps
    | with_reducible apply setSession_keeps
    | with_reducible apply askRsv_keeps
    | with_reducible apply catchUp_keeps
    | with_reducible apply refuseOpen_keeps
    | with_reducible apply out_keeps
    | rintro z (hx : State.Keeps z _)
    | split

theorem execLakeDiscard_keeps (h : s.Keeps q) (x0 : Acc) (x1 : BitVec 16) : OutKeeps (execLakeDiscard x0 x1 s) q := by
  unfold execLakeDiscard
  repeat' first
    | with_reducible assumption
    | with_reducible exact ⟨h.queue, h.wf⟩
    | intro x (hx : State.Keeps x q)
    | intro x
    | with_reducible exact ⟨hx.queue, hx.wf⟩
    | with_reducible apply guarded_keeps
    | with_reducible apply actLakCmd_keeps
    | with_reducible apply out_keeps
    | split

theorem execSessionDrop_keeps (h : s.Keeps q) (x0 : BitVec 11) : OutKeeps (execSessionDrop x0 s) q := by
  unfold execSessionDrop
  dsimp only
  repeat' first
    | with_reducible assumption
    | with_reducible exact ⟨h.queue, h.wf⟩
    | with_reducible apply dropSession_keeps
    | with_reducible apply out_keeps
    | split

theorem execTamper_keeps (h : s.Keeps q) (x0 : Bool) : OutKeeps (execTamper x0 s) q := by
  unfold execTamper
  repeat' first
    | with_reducible assumption
    | with_reducible exact ⟨h.queue, h.wf⟩
    | with_reducible apply stick_keeps
    | with_reducible apply out_keeps
    | split

theorem execAdjStep_keeps (h : s.Keeps q) (x0 : Acc) (x1 : Bool) : OutKeeps (execAdjStep x0 x1 s) q := by
  unfold execAdjStep
  repeat' first
    | with_reducible assumption
    | with_reducible exact ⟨h.queue, h.wf⟩
    | intro x (hx : State.Keeps x q)
    | intro x
    | with_reducible exact ⟨hx.queue, hx.wf⟩
    | with_reducible apply guarded_keeps
    | with_reducible apply actAdjCtl_keeps
    | with_reducible apply out_keeps
    | split

theorem execModeChangeGo_keeps (h : s.Keeps q) (x0 : Acc) (x1 : BitVec 16) (x2 : Bool) : OutKeeps (execModeChangeGo x0 x1 x2 s) q := by
  unfold execModeChangeGo
  repeat' first
    | with_reducible assumption
    | with_reducible exact ⟨h.queue, h.wf⟩
    | intro x (hx : State.Keeps x q)
    | intro x
    | with_reducible exact ⟨hx.queue, hx.wf⟩
    | with_reducible apply guarded_keeps
    | with_reducible apply actMc_keeps
    | with_reducible apply out_keeps
    | split

theorem execUpdConfirm_keeps (h : s.Keeps q) (x0 : Acc) : OutKeeps (execUpdConfirm x0 s) q := by
  unfold execUpdConfirm
  repeat' first
    | with_reducible assumption
    | with_reducible exact ⟨h.queue, h.wf⟩
    | intro x (hx : State.Keeps x q)
    | intro x
    | with_reducible exact ⟨hx.queue, hx.wf⟩
    | with_reducible apply guarded_keeps
    | with_reducible apply actUpd_keeps
    | with_reducible apply out_keeps
    | split

theorem execWakeComplete_keeps (h : s.Keeps q) : OutKeeps (execWakeComplete s) q := by
  unfold execWakeComplete
  repeat' first
    | with_reducible assumption
    | with_reducible exact ⟨h.queue, h.wf⟩
    | intro x (hx : State.Keeps x q)
    | intro x
    | with_reducible exact ⟨hx.queue, hx.wf⟩
    | with_reducible apply upTo_keeps
    | with_reducible apply wakePort_keeps
    | with_reducible apply reportHolders_keeps
    | with_reducible apply intRestore_keeps
    | with_reducible apply afterDeep_keeps
    | with_reducible apply each_keeps
    | with_reducible apply askRsv_keeps
    | with_reducible apply catchUpAll_keeps
    | with_reducible apply out_keeps
    | split

theorem execUpdResolve_keeps (h : s.Keeps q) (x0 : Acc) (x1 : Bool) : OutKeeps (execUpdResolve x0 x1 s) q := by
  unfold execUpdResolve
  repeat' first
    | with_reducible assumption
    | with_reducible exact ⟨h.queue, h.wf⟩
    | intro x (hx : State.Keeps x q)
    | intro x
    | with_reducible exact ⟨hx.queue, hx.wf⟩
    | with_reducible apply guarded_keeps
    | with_reducible apply actUpd_keeps
    | with_reducible apply out_keeps
    | split

theorem execControlTick_keeps (h : s.Keeps q) (x0 : ℕ) (x1 : List HeaterMeas) : OutKeeps (execControlTick x0 x1 s) q := by
  unfold execControlTick
  repeat' first
    | with_reducible assumption
    | (intro x; refine keeps_step (q := q) (s := x) ?_ ?_; rotate_left; intro hx; clear_value x; rotate_right)
    | (intro x; clear_value x)
    | intro x (hx : State.Keeps x q)
    | intro x
    | lift_lets
    | simp only [x]
    | with_reducible exact ⟨hx.queue, hx.wf⟩
    | with_reducible exact ⟨h.queue, h.wf⟩
    | with_reducible apply each_keeps
    | with_reducible apply measure_keeps
    | with_reducible apply stick_keeps
    | with_reducible apply upTo_keeps
    | with_reducible apply noteMark_keeps
    | with_reducible apply controlStep_keeps
    | with_reducible apply scaleDrives_keeps
    | with_reducible apply out_keeps
    | rintro z (hx : State.Keeps z _)
    | split

theorem execTramp_keeps (h : s.Keeps q) (x0 : Fin 128) : OutKeeps (execTramp x0 s) q := by
  unfold execTramp
  repeat' first
    | with_reducible assumption
    | with_reducible exact ⟨h.queue, h.wf⟩
    | intro x (hx : State.Keeps x q)
    | intro x
    | with_reducible exact ⟨hx.queue, hx.wf⟩
    | with_reducible apply atOp_keeps
    | with_reducible apply closedSegment_keeps
    | with_reducible apply out_keeps
    | split

theorem execColdStart_keeps (h : s.Keeps q) (x0 : BootIn) : OutKeeps (execColdStart x0 s) q := by
  unfold execColdStart
  repeat' first
    | with_reducible assumption
    | with_reducible exact ⟨h.queue, h.wf⟩
    | with_reducible apply stick_keeps
    | with_reducible apply boot_keeps
    | with_reducible apply startCause_keeps
    | with_reducible apply out_keeps
    | split

theorem execRecoveryRequest_keeps (h : s.Keeps q) (x0 : BitVec 14) (x1 : BitVec 64) (x2 : ℕ) : OutKeeps (execRecoveryRequest x0 x1 x2 s) q := by
  unfold execRecoveryRequest
  repeat' first
    | with_reducible assumption
    | with_reducible exact ⟨h.queue, h.wf⟩
    | intro x (hx : State.Keeps x q)
    | intro x
    | with_reducible exact ⟨hx.queue, hx.wf⟩
    | with_reducible apply sendTo_keeps
    | with_reducible apply each_keeps
    | with_reducible apply sendParts_keeps
    | with_reducible apply out_keeps
    | split

theorem execI2cOffset_keeps (h : s.Keeps q) (x0 : ℕ) (x1 : BitVec 24) (x2 : Bool) : OutKeeps (execI2cOffset x0 x1 x2 s) q := by
  unfold execI2cOffset
  have h1 := elapse_keeps h x0
  generalize s.elapse x0 = t at h1
  dsimp only
  refine out_keeps ?_
  split
  · exact answerWith_keeps (hostWake_keeps h1 _) _
  · split
    · exact answerWith_keeps (stick_keeps (by exact ⟨h1.queue, h1.wf⟩) _ _ _) _
    · exact answerWith_keeps (by exact ⟨h1.queue, h1.wf⟩) _

theorem execHostLinkUp_keeps (h : s.Keeps q) (x0 : BitVec 3) (x1 : BitVec 3) : OutKeeps (execHostLinkUp x0 x1 s) q := by
  unfold execHostLinkUp
  repeat' first
    | with_reducible assumption
    | with_reducible exact ⟨h.queue, h.wf⟩
    | with_reducible apply flushMsix_keeps
    | with_reducible apply out_keeps
    | split

theorem execConfigurationRequest_keeps (h : s.Keeps q) (x0 : Bool) (x1 : Bool) (x2 : Bool) (x3 : BitVec 64) : OutKeeps (execConfigurationRequest x0 x1 x2 x3 s) q := by
  have h1 := hostWake_keeps h 0
  unfold execConfigurationRequest
  repeat' first
    | with_reducible assumption
    | with_reducible exact ⟨h.queue, h.wf⟩
    | with_reducible exact ⟨h1.queue, h1.wf⟩
    | with_reducible apply answerWith_keeps
    | with_reducible apply deliverPending_keeps
    | with_reducible apply flushMsix_keeps
    | with_reducible apply out_keeps
    | split

theorem execAlmPinLevelChange_keeps (h : s.Keeps q) (x0 : Fin 16) (x1 : Bool) : OutKeeps (execAlmPinLevelChange x0 x1 s) q := out_keeps ⟨h.queue, h.wf⟩

theorem execRailWithinWindow_keeps (h : s.Keeps q) (x0 : Fin 5) : OutKeeps (execRailWithinWindow x0 s) q := by
  unfold execRailWithinWindow
  repeat' first
    | with_reducible assumption
    | with_reducible exact ⟨h.queue, h.wf⟩
    | with_reducible apply clearReg_keeps
    | with_reducible apply out_keeps
    | split

theorem execWakeFromOff_keeps (h : s.Keeps q) : OutKeeps (execWakeFromOff s) q := by
  unfold execWakeFromOff
  repeat' first
    | with_reducible assumption
    | with_reducible exact ⟨h.queue, h.wf⟩
    | with_reducible apply coldReset_keeps
    | with_reducible apply wakeRecord_keeps
    | with_reducible apply out_keeps
    | split

theorem execDacTick_keeps (h : s.Keeps q) (x0 : Fin 24) : OutKeeps (execDacTick x0 s) q := out_keeps ⟨h.queue, h.wf⟩

theorem execToutEdge_keeps (h : s.Keeps q) (x0 : ℕ) : OutKeeps (execToutEdge x0 s) q := by
  unfold execToutEdge
  repeat' first
    | with_reducible assumption
    | (intro x; refine keeps_step (q := q) (s := x) ?_ ?_; rotate_left; intro hx; clear_value x; rotate_right)
    | (intro x; clear_value x)
    | intro x (hx : State.Keeps x q)
    | intro x
    | lift_lets
    | simp only [x]
    | with_reducible exact ⟨hx.queue, hx.wf⟩
    | with_reducible exact ⟨h.queue, h.wf⟩
    | with_reducible apply elapse_keeps
    | with_reducible apply out_keeps
    | rintro z (hx : State.Keeps z _)
    | split

theorem execHstPciQdropRead_keeps (h : s.Keeps q) (x0 : Acc) : OutKeeps (execHstPciQdropRead x0 s) q := by
  unfold execHstPciQdropRead
  repeat' first
    | with_reducible assumption
    | with_reducible exact ⟨h.queue, h.wf⟩
    | intro x (hx : State.Keeps x q)
    | intro x
    | with_reducible exact ⟨hx.queue, hx.wf⟩
    | with_reducible apply guardedRead_keeps
    | with_reducible apply readClear_keeps
    | with_reducible apply out_keeps
    | split

theorem execFabPqpeakRead_keeps (h : s.Keeps q) (x0 : Acc) (x1 : Fin 8) : OutKeeps (execFabPqpeakRead x0 x1 s) q := by
  unfold execFabPqpeakRead
  repeat' first
    | with_reducible assumption
    | with_reducible exact ⟨h.queue, h.wf⟩
    | intro x (hx : State.Keeps x q)
    | intro x
    | with_reducible exact ⟨hx.queue, hx.wf⟩
    | with_reducible apply guardedRead_keeps
    | with_reducible apply readClear_keeps
    | with_reducible apply out_keeps
    | split

theorem execFabPtagfRead_keeps (h : s.Keeps q) (x0 : Acc) (x1 : Fin 8) : OutKeeps (execFabPtagfRead x0 x1 s) q := by
  unfold execFabPtagfRead
  repeat' first
    | with_reducible assumption
    | with_reducible exact ⟨h.queue, h.wf⟩
    | intro x (hx : State.Keeps x q)
    | intro x
    | with_reducible exact ⟨hx.queue, hx.wf⟩
    | with_reducible apply guardedRead_keeps
    | with_reducible apply readClear_keeps
    | with_reducible apply out_keeps
    | split

theorem execTagReadDone_keeps (h : s.Keeps q) (x0 : Bool) (x1 : List Byte) (x2 : BitVec 16) : OutKeeps (execTagReadDone x0 x1 x2 s) q := by
  unfold execTagReadDone
  dsimp only
  refine out_keeps ?_
  split
  · exact h
  · rename_i r hr
    have h1 : State.Keeps { s with hst := { s.hst with tagRead := none } } q := ⟨h.queue, h.wf⟩
    have h2 := tagBuffer_keeps h1 (x1.take (r.len + 1))
    split
    · exact tagNext_keeps (keeps_of h rfl rfl)
    · split
      · exact tagNext_keeps (keeps_of h2 rfl rfl)
      · exact tagNext_keeps (stick_keeps (by exact keeps_of h2 rfl rfl) _ _ _)

theorem execTagBusShort_keeps (h : s.Keeps q) (x0 : Fin 16) : OutKeeps (execTagBusShort x0 s) q := by
  unfold execTagBusShort
  dsimp only
  repeat' first
    | with_reducible assumption
    | with_reducible exact ⟨h.queue, h.wf⟩
    | with_reducible apply stick_keeps
    | with_reducible apply setTag_keeps
    | with_reducible apply tagEnd_keeps
    | with_reducible apply out_keeps
    | split

theorem execTagAnnounce_keeps (h : s.Keeps q) (x0 : Fin 16) : OutKeeps (execTagAnnounce x0 s) q := by
  unfold execTagAnnounce
  repeat' first
    | with_reducible assumption
    | with_reducible exact ⟨h.queue, h.wf⟩
    | with_reducible apply setTag_keeps
    | with_reducible apply leaveIdle_keeps
    | with_reducible apply tagAsk_keeps
    | with_reducible apply out_keeps
    | split

theorem execI2cBusTimeout_keeps (h : s.Keeps q) : OutKeeps (execI2cBusTimeout s) q := by
  unfold execI2cBusTimeout
  repeat' first
    | with_reducible assumption
    | with_reducible exact ⟨h.queue, h.wf⟩
    | with_reducible apply stick_keeps
    | with_reducible apply i2cEnd_keeps
    | with_reducible apply out_keeps
    | split

theorem execTxqTailWrite_keeps (h : s.Keeps q) (x0 : Acc) (x1 : BitVec 12) (x2 : List TxFrame) : OutKeeps (execTxqTailWrite x0 x1 x2 s) q := by
  unfold execTxqTailWrite
  repeat' first
    | with_reducible assumption
    | with_reducible exact ⟨h.queue, h.wf⟩
    | intro x (hx : State.Keeps x q)
    | intro x
    | with_reducible exact ⟨hx.queue, hx.wf⟩
    | with_reducible apply guarded_keeps
    | with_reducible apply takeTx_keeps
    | with_reducible apply setFld_keeps
    | with_reducible apply out_keeps
    | split

theorem execTrialExpiry_keeps (h : s.Keeps q) : OutKeeps (execTrialExpiry s) q := by
  unfold execTrialExpiry
  repeat' first
    | with_reducible assumption
    | with_reducible exact ⟨h.queue, h.wf⟩
    | with_reducible apply rollBack_keeps
    | with_reducible apply out_keeps
    | split

theorem execActivationReverify_keeps (h : s.Keeps q) (x0 : ImageCheck) : OutKeeps (execActivationReverify x0 s) q := by
  unfold execActivationReverify
  dsimp only
  refine out_keeps ?_
  split
  · exact h
  · split
    · have h1 : State.Keeps (State.chooseRec { s with sup := { s.sup with startDue := true, atMs := true, missed := 0 } }) q :=
        chooseRec_keeps (by exact ⟨h.queue, h.wf⟩)
      generalize State.chooseRec _ = u at h1 ⊢
      split
      · exact updMark_keeps (by exact ⟨h1.queue, h1.wf⟩) _
      · exact updMark_keeps (updStick_keeps (by exact ⟨h1.queue, h1.wf⟩) _) _
    · split
      · exact h
      · have h1 := rollBack_keeps h false
        exact ⟨h1.queue, h1.wf⟩

theorem execUpdRollback_keeps (h : s.Keeps q) (x0 : Acc) : OutKeeps (execUpdRollback x0 s) q := by
  unfold execUpdRollback
  repeat' first
    | with_reducible assumption
    | with_reducible exact ⟨h.queue, h.wf⟩
    | intro x (hx : State.Keeps x q)
    | intro x
    | with_reducible exact ⟨hx.queue, hx.wf⟩
    | with_reducible apply guarded_keeps
    | with_reducible apply actUpd_keeps
    | with_reducible apply out_keeps
    | split

theorem execUpdActivate_keeps (h : s.Keeps q) (x0 : Acc) (x1 : Bool) : OutKeeps (execUpdActivate x0 x1 s) q := by
  unfold execUpdActivate
  repeat' first
    | with_reducible assumption
    | with_reducible exact ⟨h.queue, h.wf⟩
    | intro x (hx : State.Keeps x q)
    | intro x
    | with_reducible exact ⟨hx.queue, hx.wf⟩
    | with_reducible apply guarded_keeps
    | with_reducible apply actUpd_keeps
    | with_reducible apply out_keeps
    | split

theorem execUpdWrite_keeps (h : s.Keeps q) (x0 : Acc) : OutKeeps (execUpdWrite x0 s) q := by
  unfold execUpdWrite
  repeat' first
    | with_reducible assumption
    | with_reducible exact ⟨h.queue, h.wf⟩
    | intro x (hx : State.Keeps x q)
    | intro x
    | with_reducible exact ⟨hx.queue, hx.wf⟩
    | with_reducible apply guarded_keeps
    | with_reducible apply actUpd_keeps
    | with_reducible apply out_keeps
    | split

theorem execThermalRestart_keeps (h : s.Keeps q) : OutKeeps (execThermalRestart s) q := by
  unfold execThermalRestart
  repeat' first
    | with_reducible assumption
    | with_reducible exact ⟨h.queue, h.wf⟩
    | with_reducible apply coldReset_keeps
    | with_reducible apply out_keeps
    | split

theorem execBrokenSensorShutdown_keeps (h : s.Keeps q) (x0 : Fin 24) : OutKeeps (execBrokenSensorShutdown x0 s) q := by
  unfold execBrokenSensorShutdown
  repeat' first
    | with_reducible assumption
    | with_reducible exact ⟨h.queue, h.wf⟩
    | with_reducible apply shutdown_keeps
    | with_reducible apply out_keeps
    | split

theorem execThermalShutdown_keeps (h : s.Keeps q) (x0 : Option (Fin 24)) (x1 : Fin 12) (x2 : ℤ) : OutKeeps (execThermalShutdown x0 x1 x2 s) q := by
  unfold execThermalShutdown
  repeat' first
    | with_reducible assumption
    | with_reducible exact ⟨h.queue, h.wf⟩
    | with_reducible apply shutdown_keeps
    | with_reducible apply out_keeps
    | split

theorem execEnforcementStep_keeps (h : s.Keeps q) : OutKeeps (execEnforcementStep s) q := by
  unfold execEnforcementStep
  repeat' first
    | with_reducible assumption
    | with_reducible exact ⟨h.queue, h.wf⟩
    | with_reducible apply enforceHalve_keeps
    | with_reducible apply out_keeps
    | split

theorem execEnforceNow_keeps (h : s.Keeps q) (x0 : Acc) : OutKeeps (execEnforceNow x0 s) q := by
  unfold execEnforceNow
  repeat' first
    | with_reducible assumption
    | with_reducible exact ⟨h.queue, h.wf⟩
    | intro x (hx : State.Keeps x q)
    | intro x
    | with_reducible exact ⟨hx.queue, hx.wf⟩
    | with_reducible apply guarded_keeps
    | with_reducible apply actThmReq_keeps
    | with_reducible apply out_keeps
    | split

theorem execSensorBroken_keeps (h : s.Keeps q) (x0 : Fin 24) : OutKeeps (execSensorBroken x0 s) q := by
  unfold execSensorBroken
  repeat' first
    | with_reducible assumption
    | with_reducible exact ⟨h.queue, h.wf⟩
    | with_reducible apply waymark_keeps
    | with_reducible apply thmStick_keeps
    | with_reducible apply out_keeps
    | split

theorem execRetentionLoss_keeps (h : s.Keeps q) : OutKeeps (execRetentionLoss s) q := by
  unfold execRetentionLoss
  repeat' first
    | with_reducible assumption
    | (intro x; refine keeps_step (q := q) (s := x) ?_ ?_; rotate_left; intro hx; clear_value x; rotate_right)
    | (intro x; clear_value x)
    | intro x (hx : State.Keeps x q)
    | intro x
    | lift_lets
    | simp only [x]
    | with_reducible exact ⟨hx.queue, hx.wf⟩
    | with_reducible exact ⟨h.queue, h.wf⟩
    | with_reducible apply closeShorts_keeps
    | with_reducible apply out_keeps
    | rintro z (hx : State.Keeps z _)
    | split

theorem execWakeEvent_keeps (h : s.Keeps q) (x0 : BitVec 7) : OutKeeps (execWakeEvent x0 s) q := by
  unfold execWakeEvent
  repeat' first
    | with_reducible assumption
    | with_reducible exact ⟨h.queue, h.wf⟩
    | with_reducible apply coldReset_keeps
    | with_reducible apply wakeRecord_keeps
    | with_reducible apply pwrStick_keeps
    | with_reducible apply beginWake_keeps
    | with_reducible apply out_keeps
    | split

theorem execModerationTimeout_keeps (h : s.Keeps q) (x0 : Fin 16) : OutKeeps (execModerationTimeout x0 s) q := by
  unfold execModerationTimeout
  repeat' first
    | with_reducible assumption
    | with_reducible exact ⟨h.queue, h.wf⟩
    | with_reducible apply releaseHeld_keeps
    | with_reducible apply out_keeps
    | split

theorem execModeChangeReceive_keeps (h : s.Keeps q) (x0 : Fin 8) (x1 : ModeFrame) : OutKeeps (execModeChangeReceive x0 x1 s) q := by
  unfold execModeChangeReceive
  repeat' first
    | with_reducible assumption
    | with_reducible exact ⟨h.queue, h.wf⟩
    | with_reducible apply leaveIdle_keeps
    | with_reducible apply takeRecall_keeps
    | with_reducible apply takeChange_keeps
    | with_reducible apply out_keeps
    | split

theorem execOpenLockoutEnd_keeps (h : s.Keeps q) (x0 : BitVec 14) : OutKeeps (execOpenLockoutEnd x0 s) q := by
  unfold execOpenLockoutEnd
  have hf : ∀ {t : State}, t.Keeps q → ∀ k, State.Keeps (match kget t.fab.refusals k (0, 0) with
      | (n, 1) => { t with fab := { t.fab with refusals := kset t.fab.refusals k (n, 0) (0, 0) } }
      | _ => t) q := by
    intro t ht k
    split
    · exact ⟨ht.queue, ht.wf⟩
    · exact ht
  exact out_keeps (hf (hf h _) _)

theorem execSecCommandDone_keeps (h : s.Keeps q) (x0 : ChainCheck) : OutKeeps (execSecCommandDone x0 s) q := by
  unfold execSecCommandDone
  dsimp only
  refine out_keeps ?_
  split
  · exact h
  · have h1 : State.Keeps { s with sec := { s.sec with busy := 0 } } q := ⟨h.queue, h.wf⟩
    split
    · exact keeps_of (setBufBytes_keeps h1 _ _ _) rfl rfl
    · exact keeps_of (attest_keeps h1) rfl rfl
    · exact chainDone_keeps h1 _ _
    · exact chainDone_keeps h1 _ _

theorem execSecClear_keeps (h : s.Keeps q) (x0 : Acc) : OutKeeps (execSecClear x0 s) q := by
  unfold execSecClear
  repeat' first
    | with_reducible assumption
    | with_reducible exact ⟨h.queue, h.wf⟩
    | intro x (hx : State.Keeps x q)
    | intro x
    | with_reducible exact ⟨hx.queue, hx.wf⟩
    | with_reducible apply guarded_keeps
    | with_reducible apply actSec_keeps
    | with_reducible apply out_keeps
    | split

theorem execSecSign_keeps (h : s.Keeps q) (x0 : Acc) : OutKeeps (execSecSign x0 s) q := by
  unfold execSecSign
  repeat' first
    | with_reducible assumption
    | with_reducible exact ⟨h.queue, h.wf⟩
    | intro x (hx : State.Keeps x q)
    | intro x
    | with_reducible exact ⟨hx.queue, hx.wf⟩
    | with_reducible apply guarded_keeps
    | with_reducible apply actSec_keeps
    | with_reducible apply out_keeps
    | split

theorem execSecRead_keeps (h : s.Keeps q) (x0 : Acc) (x1 : BitVec 4) : OutKeeps (execSecRead x0 x1 s) q := by
  unfold execSecRead
  repeat' first
    | with_reducible assumption
    | with_reducible exact ⟨h.queue, h.wf⟩
    | intro x (hx : State.Keeps x q)
    | intro x
    | with_reducible exact ⟨hx.queue, hx.wf⟩
    | with_reducible apply guarded_keeps
    | with_reducible apply actSec_keeps
    | with_reducible apply out_keeps
    | split

theorem execReplayDone_keeps (h : s.Keeps q) : OutKeeps (execReplayDone s) q := by
  unfold execReplayDone
  repeat' first
    | with_reducible assumption
    | with_reducible exact ⟨h.queue, h.wf⟩
    | with_reducible apply stick_keeps
    | with_reducible apply endReplay_keeps
    | with_reducible apply replayTo_keeps
    | with_reducible apply out_keeps
    | split

theorem execReplayAbort_keeps (h : s.Keeps q) (x0 : Acc) : OutKeeps (execReplayAbort x0 s) q := by
  unfold execReplayAbort
  repeat' first
    | with_reducible assumption
    | with_reducible exact ⟨h.queue, h.wf⟩
    | intro x (hx : State.Keeps x q)
    | intro x
    | with_reducible exact ⟨hx.queue, hx.wf⟩
    | with_reducible apply guarded_keeps
    | with_reducible apply actReplay_keeps
    | with_reducible apply out_keeps
    | split

theorem execCaptureRelease_keeps (h : s.Keeps q) (x0 : Acc) (x1 : BitVec 3) : OutKeeps (execCaptureRelease x0 x1 s) q := by
  unfold execCaptureRelease
  repeat' first
    | with_reducible assumption
    | with_reducible exact ⟨h.queue, h.wf⟩
    | intro x (hx : State.Keeps x q)
    | intro x
    | with_reducible exact ⟨hx.queue, hx.wf⟩
    | with_reducible apply guarded_keeps
    | with_reducible apply actCapCmd_keeps
    | with_reducible apply out_keeps
    | split

theorem execCaptureTrigger_keeps (h : s.Keeps q) (x0 : Acc) : OutKeeps (execCaptureTrigger x0 s) q := by
  unfold execCaptureTrigger
  repeat' first
    | with_reducible assumption
    | with_reducible exact ⟨h.queue, h.wf⟩
    | intro x (hx : State.Keeps x q)
    | intro x
    | with_reducible exact ⟨hx.queue, hx.wf⟩
    | with_reducible apply guarded_keeps
    | with_reducible apply actCapCmd_keeps
    | with_reducible apply out_keeps
    | split

theorem execLakeResolve_keeps (h : s.Keeps q) (x0 : Acc) (x1 : BitVec 16) : OutKeeps (execLakeResolve x0 x1 s) q := by
  unfold execLakeResolve
  repeat' first
    | with_reducible assumption
    | with_reducible exact ⟨h.queue, h.wf⟩
    | intro x (hx : State.Keeps x q)
    | intro x
    | with_reducible exact ⟨hx.queue, hx.wf⟩
    | with_reducible apply guarded_keeps
    | with_reducible apply actLakCmd_keeps
    | with_reducible apply out_keeps
    | split

theorem execPushReceive_keeps (h : s.Keeps q) (x0 : BitVec 14) (x1 : SegCopy) : OutKeeps (execPushReceive x0 x1 s) q := by
  unfold execPushReceive
  dsimp only
  repeat' first
    | with_reducible assumption
    | with_reducible apply out_keeps
    | with_reducible apply sendTo_keeps
    | with_reducible apply lakStick_keeps
    | with_reducible apply addReplica_keeps
    | with_reducible exact ⟨h.queue, h.wf⟩
    | split

theorem execReplicaOffer_keeps (h : s.Keeps q) (x0 : BitVec 14) (x1 : BitVec 64) : OutKeeps (execReplicaOffer x0 x1 s) q := by
  unfold execReplicaOffer
  repeat' first
    | with_reducible assumption
    | with_reducible exact ⟨h.queue, h.wf⟩
    | with_reducible apply sendTo_keeps
    | with_reducible apply out_keeps
    | split

theorem execRootLost_keeps (h : s.Keeps q) : OutKeeps (execRootLost s) q := by
  unfold execRootLost
  repeat' first
    | with_reducible assumption
    | with_reducible exact ⟨h.queue, h.wf⟩
    | with_reducible apply flood_keeps
    | with_reducible apply waymark_keeps
    | with_reducible apply stick_keeps
    | with_reducible apply out_keeps
    | split

theorem execSessionClose_keeps (h : s.Keeps q) (x0 : BitVec 11) : OutKeeps (execSessionClose x0 s) q := by
  unfold execSessionClose
  repeat' first
    | with_reducible assumption
    | with_reducible exact ⟨h.queue, h.wf⟩
    | with_reducible apply leaveIdle_keeps
    | with_reducible apply dropSession_keeps
    | with_reducible apply dropNumber_keeps
    | with_reducible apply out_keeps
    | split

theorem execSessionAcknowledge_keeps (h : s.Keeps q) (x0 : BitVec 11) (x1 : BitVec 12) (x2 : BitVec 32) : OutKeeps (execSessionAcknowledge x0 x1 x2 s) q := by
  unfold execSessionAcknowledge
  repeat' first
    | with_reducible assumption
    | (intro x; refine keeps_step (q := q) (s := x) ?_ ?_; rotate_left; intro hx; clear_value x; rotate_right)
    | (intro x; clear_value x)
    | intro x (hx : State.Keeps x q)
    | intro x
    | lift_lets
    | simp only [x]
    | with_reducible exact ⟨hx.queue, hx.wf⟩
    | with_reducible exact ⟨h.queue, h.wf⟩
    | with_reducible apply setSession_keeps
    | with_reducible apply leaveIdle_keeps
    | with_reducible apply out_keeps
    | rintro z (hx : State.Keeps z _)
    | split

theorem execReservationRefuse_keeps (h : s.Keeps q) (x0 : BitVec 11) (x1 : BitVec 2) : OutKeeps (execReservationRefuse x0 x1 s) q := by
  unfold execReservationRefuse
  repeat' first
    | with_reducible assumption
    | with_reducible exact ⟨h.queue, h.wf⟩
    | with_reducible apply refuseRsv_keeps
    | with_reducible apply unreserve_keeps
    | with_reducible apply freeRsv_keeps
    | with_reducible apply leaveIdle_keeps
    | with_reducible apply out_keeps
    | split

theorem execReservationRequest_keeps (h : s.Keeps q) (x0 : BitVec 11) (x1 : RsvHop) (x2 : ℕ) (x3 : BitVec 8) : OutKeeps (execReservationRequest x0 x1 x2 x3 s) q := by
  unfold execReservationRequest
  repeat' first
    | with_reducible assumption
    | (intro x; refine keeps_step (q := q) (s := x) ?_ ?_; rotate_left; intro hx; clear_value x; rotate_right)
    | (intro x; clear_value x)
    | intro x (hx : State.Keeps x q)
    | intro x
    | lift_lets
    | simp only [x]
    | with_reducible exact ⟨hx.queue, hx.wf⟩
    | with_reducible exact ⟨h.queue, h.wf⟩
    | with_reducible apply leaveIdle_keeps
    | with_reducible apply hopRequest_keeps
    | with_reducible apply out_keeps
    | rintro z (hx : State.Keeps z _)
    | split

theorem execRouteComputation_keeps (h : s.Keeps q) : OutKeeps (execRouteComputation s) q := by
  unfold execRouteComputation
  repeat' first
    | with_reducible assumption
    | (intro x; refine keeps_step (q := q) (s := x) ?_ ?_; rotate_left; intro hx; clear_value x; rotate_right)
    | (intro x; clear_value x)
    | intro x (hx : State.Keeps x q)
    | intro x
    | lift_lets
    | simp only [x]
    | with_reducible exact ⟨hx.queue, hx.wf⟩
    | with_reducible exact ⟨h.queue, h.wf⟩
    | with_reducible apply each_keeps
    | with_reducible apply setRoute_keeps
    | with_reducible apply freeOnward_keeps
    | with_reducible apply unadmit_keeps
    | with_reducible apply askRsv_keeps
    | with_reducible apply deliverPending_keeps
    | with_reducible apply askAgain_keeps
    | with_reducible apply out_keeps
    | rintro z (hx : State.Keeps z _)
    | split

theorem execLsaWithdraw_keeps (h : s.Keeps q) (x0 : BitVec 64) : OutKeeps (execLsaWithdraw x0 s) q := by
  unfold execLsaWithdraw
  repeat' first
    | with_reducible assumption
    | with_reducible exact ⟨h.queue, h.wf⟩
    | with_reducible apply out_keeps
    | split

theorem execLsaReceive_keeps (h : s.Keeps q) (x0 : Fin 8) (x1 : Lsa) : OutKeeps (execLsaReceive x0 x1 s) q := by
  unfold execLsaReceive
  lift_lets
  intro newer newer1 onward
  have ho : ∀ {t : State}, t.Keeps q → (onward t).Keeps q := fun ht =>
    each_keeps ht _ _ fun u hu p => sendOn_keeps hu _ _ _ _ _ _ _
  clear_value onward
  refine out_keeps ?_
  split
  · exact h
  · split
    · exact stick_keeps h _ _ _
    · split
      · exact takeLsa_keeps (ho (leaveIdle_keeps h)) _
      · exact ho (leaveIdle_keeps h)

theorem execLsaFlood_keeps (h : s.Keeps q) : OutKeeps (execLsaFlood s) q := by
  unfold execLsaFlood
  repeat' first
    | with_reducible assumption
    | with_reducible exact ⟨h.queue, h.wf⟩
    | with_reducible apply flood_keeps
    | with_reducible apply out_keeps
    | split

theorem execHandshakeTimeout_keeps (h : s.Keeps q) (x0 : Fin 8) : OutKeeps (execHandshakeTimeout x0 s) q := by
  unfold execHandshakeTimeout
  repeat' first
    | with_reducible assumption
    | with_reducible exact ⟨h.queue, h.wf⟩
    | with_reducible apply quarantine_keeps
    | with_reducible apply out_keeps
    | split

theorem execAuthenticationDone_keeps (h : s.Keeps q) (x0 : Fin 8) (x1 : List (List Byte)) (x2 : Bool) (x3 : BitVec 384) (x4 : BitVec 64) (x5 : Option (BitVec 14)) : OutKeeps (execAuthenticationDone x0 x1 x2 x3 x4 x5 s) q := by
  unfold execAuthenticationDone
  repeat' first
    | with_reducible assumption
    | with_reducible exact ⟨h.queue, h.wf⟩
    | with_reducible apply setFport_keeps
    | with_reducible apply quarantine_keeps
    | with_reducible apply stick_keeps
    | with_reducible apply out_keeps
    | split

theorem execLaneTrainingDone_keeps (h : s.Keeps q) (x0 : Fin 8) (x1 : BitVec 4) : OutKeeps (execLaneTrainingDone x0 x1 s) q := by
  unfold execLaneTrainingDone
  repeat' first
    | with_reducible assumption
    | with_reducible exact ⟨h.queue, h.wf⟩
    | with_reducible apply movePort_keeps
    | with_reducible apply out_keeps
    | split

theorem execAckTimeout_keeps (h : s.Keeps q) (x0 : Fin 8) : OutKeeps (execAckTimeout x0 s) q := by
  unfold execAckTimeout
  repeat' first
    | with_reducible assumption
    | with_reducible exact ⟨h.queue, h.wf⟩
    | with_reducible apply resend_keeps
    | with_reducible apply out_keeps
    | split

theorem execNegativeAcknowledge_keeps (h : s.Keeps q) (x0 : Fin 8) (x1 : BitVec 16) : OutKeeps (execNegativeAcknowledge x0 x1 s) q := by
  unfold execNegativeAcknowledge
  repeat' first
    | with_reducible assumption
    | with_reducible exact ⟨h.queue, h.wf⟩
    | with_reducible apply resend_keeps
    | with_reducible apply out_keeps
    | split

theorem execFragmentReceive_keeps (h : s.Keeps q) (x0 : Fin 8) (x1 : Fragment) : OutKeeps (execFragmentReceive x0 x1 s) q := by
  unfold execFragmentReceive
  dsimp only
  refine out_keeps ?_
  split
  · exact h
  · split
    · exact setFport_keeps (stick_keeps (countSat_keeps h _ _) _ _ _) _ _
    · split
      · exact setFport_keeps h _ _
      · exact routeFragment_keeps (setFport_keeps h _ _) _ _

theorem preempt_keeps (h : s.Keeps q) (p limit n : Nat) : (s.preempt p limit n).Keeps q := by
  induction n generalizing s with
  | zero => exact h
  | succ n ih =>
    unfold State.preempt
    split
    · exact h
    · split
      · exact h
      · exact ih (stick_keeps (withdraw_keeps h _ _) _ _ _)

theorem execLaneLoss_keeps (h : s.Keeps q) (x0 : Fin 8) (x1 : Fin 4) : OutKeeps (execLaneLoss x0 x1 s) q := by
  unfold execLaneLoss
  refine out_keeps ?_
  split
  · extract_lets p v lanes w w' s1 s2 s3
    split
    · exact stick_keeps (portDown_keeps (stick_keeps h _ _ _) _ _) _ _ _
    · refine preempt_keeps ?_ _ _ _
      show State.Keeps (if _ then _ else _) q
      split
      · exact waymark_keeps (movePort_keeps (stick_keeps h _ _ _) _ _) _ _
      · exact movePort_keeps (stick_keeps h _ _ _) _ _
  · exact h

theorem execPllLock_keeps (h : s.Keeps q) : OutKeeps (execPllLock s) q := by
  unfold execPllLock
  repeat' first
    | with_reducible assumption
    | with_reducible exact ⟨h.queue, h.wf⟩
    | with_reducible apply out_keeps
    | split

theorem execTimWmark_keeps (h : s.Keeps q) (x0 : Acc) (x1 : Word) : OutKeeps (execTimWmark x0 x1 s) q := by
  unfold execTimWmark
  repeat' first
    | with_reducible assumption
    | with_reducible exact ⟨h.queue, h.wf⟩
    | intro x (hx : State.Keeps x q)
    | intro x
    | with_reducible exact ⟨hx.queue, hx.wf⟩
    | with_reducible apply guarded_keeps
    | with_reducible apply actWmark_keeps
    | with_reducible apply out_keeps
    | split

theorem execMsiLatch_keeps (h : s.Keeps q) (x0 : ℕ) : OutKeeps (execMsiLatch x0 s) q := by
  unfold execMsiLatch
  repeat' first
    | with_reducible assumption
    | (intro x; refine keeps_step (q := q) (s := x) ?_ ?_; rotate_left; intro hx; clear_value x; rotate_right)
    | (intro x; clear_value x)
    | intro x (hx : State.Keeps x q)
    | intro x
    | lift_lets
    | simp only [x]
    | with_reducible exact ⟨hx.queue, hx.wf⟩
    | with_reducible exact ⟨h.queue, h.wf⟩
    | with_reducible apply elapse_keeps
    | with_reducible apply renew_keeps
    | with_reducible apply out_keeps
    | rintro z (hx : State.Keeps z _)
    | split

theorem execHealingDelta_keeps (h : s.Keeps q) (x0 : ℤ) (x1 : BitVec 14) : OutKeeps (execHealingDelta x0 x1 s) q := by
  unfold execHealingDelta
  repeat' first
    | with_reducible assumption
    | with_reducible exact ⟨h.queue, h.wf⟩
    | with_reducible apply announceHeal_keeps
    | with_reducible apply out_keeps
    | split

theorem execHoldover_keeps (h : s.Keeps q) : OutKeeps (execHoldover s) q := by
  unfold execHoldover
  repeat' first
    | with_reducible assumption
    | with_reducible exact ⟨h.queue, h.wf⟩
    | with_reducible apply stick_keeps
    | with_reducible apply timState_keeps
    | with_reducible apply waymark_keeps
    | with_reducible apply out_keeps
    | split

theorem execTinLost_keeps (h : s.Keeps q) : OutKeeps (execTinLost s) q := by
  unfold execTinLost
  repeat' first
    | with_reducible assumption
    | with_reducible exact ⟨h.queue, h.wf⟩
    | with_reducible apply waymark_keeps
    | with_reducible apply setFld_keeps
    | with_reducible apply stick_keeps
    | with_reducible apply out_keeps
    | split

theorem execAdjSet_keeps (h : s.Keeps q) (x0 : Acc) (x1 : Bool) : OutKeeps (execAdjSet x0 x1 s) q := by
  unfold execAdjSet
  repeat' first
    | with_reducible assumption
    | with_reducible exact ⟨h.queue, h.wf⟩
    | intro x (hx : State.Keeps x q)
    | intro x
    | with_reducible exact ⟨hx.queue, hx.wf⟩
    | with_reducible apply guarded_keeps
    | with_reducible apply actAdjCtl_keeps
    | with_reducible apply out_keeps
    | split

theorem execTimIncWrite_keeps (h : s.Keeps q) (x0 : Acc) (x1 : Word) : OutKeeps (execTimIncWrite x0 x1 s) q := by
  unfold execTimIncWrite
  have hg := gate_keeps (accept_keeps h x0) x0.req.toNat (ra .tim 0 0x064) x1 false
  dsimp only
  refine out_keeps ?_
  generalize (s.accept x0).gate _ _ _ _ = g at hg ⊢
  cases g with
  | drop t => exact hg
  | hold t m => exact holdWrite_keeps (dropLow_keeps hg _ _) _ _ _ _
  | act t m => exact actIncHigh_keeps hg _ _ _

theorem execTimSnap_keeps (h : s.Keeps q) (x0 : Acc) : OutKeeps (execTimSnap x0 s) q := by
  unfold execTimSnap
  repeat' first
    | with_reducible assumption
    | with_reducible exact ⟨h.queue, h.wf⟩
    | intro x (hx : State.Keeps x q)
    | intro x
    | with_reducible exact ⟨hx.queue, hx.wf⟩
    | with_reducible apply guarded_keeps
    | with_reducible apply actSnap_keeps
    | with_reducible apply out_keeps
    | split

theorem execTimFracLoRead_keeps (h : s.Keeps q) (x0 : Acc) : OutKeeps (execTimFracLoRead x0 s) q := by
  unfold execTimFracLoRead
  repeat' first
    | with_reducible assumption
    | with_reducible exact ⟨h.queue, h.wf⟩
    | intro x (hx : State.Keeps x q)
    | intro x
    | with_reducible exact ⟨hx.queue, hx.wf⟩
    | with_reducible apply guardedRead_keeps
    | with_reducible apply readFracLo_keeps
    | with_reducible apply out_keeps
    | split

theorem execAlarmFrameRepeat_keeps (h : s.Keeps q) : OutKeeps (execAlarmFrameRepeat s) q := by
  unfold execAlarmFrameRepeat
  repeat' first
    | with_reducible assumption
    | with_reducible exact ⟨h.queue, h.wf⟩
    | with_reducible apply sendAlarms_keeps
    | with_reducible apply out_keeps
    | split

theorem execFoldRetry_keeps (h : s.Keeps q) (x0 : Fin 16) : OutKeeps (execFoldRetry x0 s) q := by
  unfold execFoldRetry
  repeat' first
    | with_reducible assumption
    | with_reducible exact ⟨h.queue, h.wf⟩
    | with_reducible apply setAlmOut_keeps
    | with_reducible apply out_keeps
    | split

theorem execFoldBack_keeps (h : s.Keeps q) (x0 : Fin 16) : OutKeeps (execFoldBack x0 s) q := by
  unfold execFoldBack
  repeat' first
    | with_reducible assumption
    | with_reducible exact ⟨h.queue, h.wf⟩
    | with_reducible apply stick_keeps
    | with_reducible apply setAlmOut_keeps
    | with_reducible apply out_keeps
    | split

theorem execSwitchSilent_keeps (h : s.Keeps q) (x0 : BitVec 11) : OutKeeps (execSwitchSilent x0 s) q := by
  unfold execSwitchSilent
  repeat' first
    | with_reducible assumption
    | with_reducible exact ⟨h.queue, h.wf⟩
    | with_reducible apply goSilent_keeps
    | with_reducible apply ringAdd_keeps
    | with_reducible apply out_keeps
    | split

theorem execObservation_keeps (h : s.Keeps q) : OutKeeps (execObservation s) q := by
  unfold execObservation
  repeat' first
    | with_reducible assumption
    | with_reducible exact ⟨h.queue, h.wf⟩
    | with_reducible apply takeObs_keeps
    | with_reducible apply out_keeps
    | split

theorem execSpeSatRead_keeps (h : s.Keeps q) (x0 : Acc) (x1 : Fin 24) : OutKeeps (execSpeSatRead x0 x1 s) q := by
  unfold execSpeSatRead
  repeat' first
    | with_reducible assumption
    | with_reducible exact ⟨h.queue, h.wf⟩
    | intro x (hx : State.Keeps x q)
    | intro x
    | with_reducible exact ⟨hx.queue, hx.wf⟩
    | with_reducible apply guardedRead_keeps
    | with_reducible apply readClear_keeps
    | with_reducible apply out_keeps
    | split

theorem execSelfCalibrationEnd_keeps (h : s.Keeps q) (x0 : Fin 24) (x1 : List Solved) : OutKeeps (execSelfCalibrationEnd x0 x1 s) q := by
  unfold execSelfCalibrationEnd
  repeat' first
    | with_reducible assumption
    | with_reducible exact ⟨h.queue, h.wf⟩
    | intro x (hx : State.Keeps x q)
    | intro x
    | with_reducible exact ⟨hx.queue, hx.wf⟩
    | with_reducible apply each_keeps
    | with_reducible apply setSliceCal_keeps
    | with_reducible apply mapSlices_keeps
    | with_reducible apply setBank_keeps
    | with_reducible apply stick_keeps
    | with_reducible apply bumpEpoch_keeps
    | with_reducible apply bankMode_keeps
    | with_reducible apply foresee_keeps
    | with_reducible apply allocMoves_keeps
    | with_reducible apply noteEpoch_keeps
    | with_reducible apply preemptReplay_keeps
    | with_reducible apply streamsSync_keeps
    | with_reducible apply out_keeps
    | split

theorem execFactoryReload_keeps (h : s.Keeps q) (x0 : Acc) (x1 : BitVec 24) : OutKeeps (execFactoryReload x0 x1 s) q := by
  unfold execFactoryReload
  repeat' first
    | with_reducible assumption
    | with_reducible exact ⟨h.queue, h.wf⟩
    | intro x (hx : State.Keeps x q)
    | intro x
    | with_reducible exact ⟨hx.queue, hx.wf⟩
    | with_reducible apply guarded_keeps
    | with_reducible apply actCal_keeps
    | with_reducible apply out_keeps
    | split

theorem execAllocatorEvaluation_keeps (h : s.Keeps q) : OutKeeps (execAllocatorEvaluation s) q := by
  unfold execAllocatorEvaluation
  repeat' first
    | with_reducible assumption
    | (intro x; refine keeps_step (q := q) (s := x) ?_ ?_; rotate_left; intro hx; clear_value x; rotate_right)
    | (intro x; clear_value x)
    | intro x (hx : State.Keeps x q)
    | intro x
    | lift_lets
    | simp only [x]
    | with_reducible exact ⟨hx.queue, hx.wf⟩
    | with_reducible exact ⟨h.queue, h.wf⟩
    | with_reducible apply upTo_keeps
    | with_reducible apply setPlace_keeps
    | with_reducible apply streamsMoved_keeps
    | with_reducible apply throttleFlags_keeps
    | with_reducible apply markShort_keeps
    | with_reducible apply applyPlaces_keeps
    | with_reducible apply out_keeps
    | rintro z (hx : State.Keeps z _)
    | split

theorem execShadowTimeout_keeps (h : s.Keeps q) (x0 : Fin 24) : OutKeeps (execShadowTimeout x0 s) q := by
  unfold execShadowTimeout
  repeat' first
    | with_reducible assumption
    | with_reducible exact ⟨h.queue, h.wf⟩
    | with_reducible apply stick_keeps
    | with_reducible apply endShadow_keeps
    | with_reducible apply out_keeps
    | split

theorem execTrimEnd_keeps (h : s.Keeps q) (x0 : Fin 24) (x1 : Fin 17) : OutKeeps (execTrimEnd x0 x1 s) q := by
  unfold execTrimEnd
  repeat' first
    | with_reducible assumption
    | with_reducible exact ⟨h.queue, h.wf⟩
    | with_reducible apply autoSpare_keeps
    | with_reducible apply sliceFault_keeps
    | with_reducible apply out_keeps
    | split

theorem execChkCntRead_keeps (h : s.Keeps q) (x0 : Acc) (x1 : Fin 24) : OutKeeps (execChkCntRead x0 x1 s) q := by
  unfold execChkCntRead
  repeat' first
    | with_reducible assumption
    | with_reducible exact ⟨h.queue, h.wf⟩
    | intro x (hx : State.Keeps x q)
    | intro x
    | with_reducible exact ⟨hx.queue, hx.wf⟩
    | with_reducible apply guardedRead_keeps
    | with_reducible apply readClear_keeps
    | with_reducible apply out_keeps
    | split

theorem execSpotDropRead_keeps (h : s.Keeps q) (x0 : Acc) (x1 : Fin 24) : OutKeeps (execSpotDropRead x0 x1 s) q := by
  unfold execSpotDropRead
  repeat' first
    | with_reducible assumption
    | with_reducible exact ⟨h.queue, h.wf⟩
    | intro x (hx : State.Keeps x q)
    | intro x
    | with_reducible exact ⟨hx.queue, hx.wf⟩
    | with_reducible apply guardedRead_keeps
    | with_reducible apply readClear_keeps
    | with_reducible apply out_keeps
    | split

theorem execSpotStart_keeps (h : s.Keeps q) (x0 : Fin 24) (x1 : Fin 16) : OutKeeps (execSpotStart x0 x1 s) q := by
  unfold execSpotStart
  repeat' first
    | with_reducible assumption
    | with_reducible exact ⟨h.queue, h.wf⟩
    | with_reducible apply beginSpot_keeps
    | with_reducible apply out_keeps
    | split

theorem execSpotRequest_keeps (h : s.Keeps q) (x0 : Acc) (x1 : Fin 24) (x2 : BitVec 9) (x3 : BitVec 4) (x4 : Bool) (x5 : Bool) : OutKeeps (execSpotRequest x0 x1 x2 x3 x4 x5 s) q := by
  unfold execSpotRequest
  repeat' first
    | with_reducible assumption
    | with_reducible exact ⟨h.queue, h.wf⟩
    | intro x (hx : State.Keeps x q)
    | intro x
    | with_reducible exact ⟨hx.queue, hx.wf⟩
    | with_reducible apply guarded_keeps
    | with_reducible apply actSpot_keeps
    | with_reducible apply out_keeps
    | split

theorem execCheckFaultEnd_keeps (h : s.Keeps q) (x0 : Fin 512) : OutKeeps (execCheckFaultEnd x0 s) q := by
  unfold execCheckFaultEnd
  repeat' first
    | with_reducible assumption
    | with_reducible exact ⟨h.queue, h.wf⟩
    | intro x (hx : State.Keeps x q)
    | intro x
    | with_reducible exact ⟨hx.queue, hx.wf⟩
    | with_reducible apply setCheck_keeps
    | with_reducible apply each_keeps
    | with_reducible apply countFaulted_keeps
    | with_reducible apply out_keeps
    | split

theorem execPairFaultEnd_keeps (h : s.Keeps q) (x0 : Fin 24) : OutKeeps (execPairFaultEnd x0 s) q := by
  unfold execPairFaultEnd
  repeat' first
    | with_reducible assumption
    | with_reducible exact ⟨h.queue, h.wf⟩
    | with_reducible apply setPairFault_keeps
    | with_reducible apply out_keeps
    | split

theorem execPairFault_keeps (h : s.Keeps q) (x0 : Fin 24) : OutKeeps (execPairFault x0 s) q := by
  unfold execPairFault
  repeat' first
    | with_reducible assumption
    | with_reducible exact ⟨h.queue, h.wf⟩
    | with_reducible apply stick_keeps
    | with_reducible apply setPairFault_keeps
    | with_reducible apply out_keeps
    | split

theorem execImpBaseAll_keeps (h : s.Keeps q) (x0 : Acc) (x1 : Fin 24) : OutKeeps (execImpBaseAll x0 x1 s) q := by
  unfold execImpBaseAll
  repeat' first
    | with_reducible assumption
    | with_reducible exact ⟨h.queue, h.wf⟩
    | intro x (hx : State.Keeps x q)
    | intro x
    | with_reducible exact ⟨hx.queue, hx.wf⟩
    | with_reducible apply guarded_keeps
    | with_reducible apply actImpCmd_keeps
    | with_reducible apply out_keeps
    | split

theorem execImpVisitEnd_keeps (h : s.Keeps q) (x0 : Fin 24) : OutKeeps (execImpVisitEnd x0 s) q := by
  unfold execImpVisitEnd
  dsimp only
  repeat' first
    | with_reducible assumption
    | with_reducible exact ⟨h.queue, h.wf⟩
    | with_reducible apply orReg_keeps
    | with_reducible apply setImp_keeps
    | with_reducible apply takeBase_keeps
    | with_reducible apply healthUpdate_keeps
    | with_reducible apply impRemove_keeps
    | with_reducible apply impStart_keeps
    | with_reducible apply impStop_keeps
    | with_reducible apply out_keeps
    | split

theorem execImpPeriodEnd_keeps (h : s.Keeps q) (x0 : Fin 24) : OutKeeps (execImpPeriodEnd x0 s) q := by
  unfold execImpPeriodEnd
  repeat' first
    | with_reducible assumption
    | with_reducible exact ⟨h.queue, h.wf⟩
    | with_reducible apply setImp_keeps
    | with_reducible apply stick_keeps
    | with_reducible apply impRecords_keeps
    | with_reducible apply ringAdd_keeps
    | with_reducible apply substNow_keeps
    | with_reducible apply out_keeps
    | split

theorem execStallRelease_keeps (h : s.Keeps q) (x0 : Fin 16) : OutKeeps (execStallRelease x0 s) q := by
  unfold execStallRelease
  refine out_keeps ?_
  split
  · exact h
  · split
    · exact h
    · dsimp only
      have h1 := fun m => setReg_keeps (stick_keeps (s := { s with seq := { s.seq with stall := kset s.seq.stall x0.val 0 0 } })
        (by exact ⟨h.queue, h.wf⟩) .seq 0 8) (ra .seq 0 0x060) (BitVec.ofNat 32 m)
      split
      · exact waitOut_keeps (h1 _) _
      · exact stick_keeps (setScan_keeps (h1 _) _ _) _ _ _

theorem execSeqFclr_keeps (h : s.Keeps q) (x0 : Acc) (x1 : Bool) (x2 : Word) : OutKeeps (execSeqFclr x0 x1 x2 s) q := by
  unfold execSeqFclr
  repeat' first
    | with_reducible assumption
    | with_reducible exact ⟨h.queue, h.wf⟩
    | intro x (hx : State.Keeps x q)
    | intro x
    | with_reducible exact ⟨hx.queue, hx.wf⟩
    | with_reducible apply guarded_keeps
    | with_reducible apply actFlags_keeps
    | with_reducible apply out_keeps
    | split

theorem execSeqFset_keeps (h : s.Keeps q) (x0 : Acc) (x1 : Bool) (x2 : Word) : OutKeeps (execSeqFset x0 x1 x2 s) q := by
  unfold execSeqFset
  repeat' first
    | with_reducible assumption
    | with_reducible exact ⟨h.queue, h.wf⟩
    | intro x (hx : State.Keeps x q)
    | intro x
    | with_reducible exact ⟨hx.queue, hx.wf⟩
    | with_reducible apply guarded_keeps
    | with_reducible apply actFlags_keeps
    | with_reducible apply out_keeps
    | split

theorem execHeaterOvertemp_keeps (h : s.Keeps q) (x0 : Fin 128) : OutKeeps (execHeaterOvertemp x0 s) q := by
  unfold execHeaterOvertemp
  repeat' first
    | with_reducible assumption
    | with_reducible exact ⟨h.queue, h.wf⟩
    | with_reducible apply heaterFault_keeps
    | with_reducible apply out_keeps
    | split

theorem execHeaterOpen_keeps (h : s.Keeps q) (x0 : Fin 128) : OutKeeps (execHeaterOpen x0 s) q := by
  unfold execHeaterOpen
  repeat' first
    | with_reducible assumption
    | with_reducible exact ⟨h.queue, h.wf⟩
    | with_reducible apply heaterFault_keeps
    | with_reducible apply out_keeps
    | split

theorem execHeaterShortGnd_keeps (h : s.Keeps q) (x0 : Fin 128) : OutKeeps (execHeaterShortGnd x0 s) q := by
  unfold execHeaterShortGnd
  repeat' first
    | with_reducible assumption
    | with_reducible exact ⟨h.queue, h.wf⟩
    | with_reducible apply heaterFault_keeps
    | with_reducible apply out_keeps
    | split

theorem execWaitTimeout_keeps (h : s.Keeps q) (x0 : Fin 128) : OutKeeps (execWaitTimeout x0 s) q := by
  unfold execWaitTimeout
  repeat' first
    | with_reducible assumption
    | with_reducible exact ⟨h.queue, h.wf⟩
    | with_reducible apply waitOut_keeps
    | with_reducible apply out_keeps
    | split

theorem execWaitSatisfied_keeps (h : s.Keeps q) (x0 : Fin 128) : OutKeeps (execWaitSatisfied x0 s) q := by
  unfold execWaitSatisfied
  repeat' first
    | with_reducible assumption
    | with_reducible exact ⟨h.queue, h.wf⟩
    | with_reducible apply goOn_keeps
    | with_reducible apply setEngine_keeps
    | with_reducible apply out_keeps
    | split

theorem execJump_keeps (h : s.Keeps q) (x0 : Fin 128) : OutKeeps (execJump x0 s) q := by
  unfold execJump
  repeat' first
    | with_reducible assumption
    | with_reducible exact ⟨h.queue, h.wf⟩
    | intro x (hx : State.Keeps x q)
    | intro x
    | with_reducible exact ⟨hx.queue, hx.wf⟩
    | with_reducible apply atOp_keeps
    | with_reducible apply untimed_keeps
    | with_reducible apply out_keeps
    | split

theorem execWait_keeps (h : s.Keeps q) (x0 : Fin 128) : OutKeeps (execWait x0 s) q := by
  unfold execWait
  repeat' first
    | with_reducible assumption
    | with_reducible exact ⟨h.queue, h.wf⟩
    | intro x (hx : State.Keeps x q)
    | intro x
    | with_reducible exact ⟨hx.queue, hx.wf⟩
    | with_reducible apply atOp_keeps
    | with_reducible apply setEngine_keeps
    | with_reducible apply out_keeps
    | split

theorem execMark_keeps (h : s.Keeps q) (x0 : Fin 128) : OutKeeps (execMark x0 s) q := by
  unfold execMark
  repeat' first
    | with_reducible assumption
    | with_reducible exact ⟨h.queue, h.wf⟩
    | intro x (hx : State.Keeps x q)
    | intro x
    | with_reducible exact ⟨hx.queue, hx.wf⟩
    | with_reducible apply atOp_keeps
    | with_reducible apply noteMark_keeps
    | with_reducible apply untimed_keeps
    | with_reducible apply setEngine_keeps
    | with_reducible apply out_keeps
    | split

theorem execVset_keeps (h : s.Keeps q) (x0 : Fin 128) : OutKeeps (execVset x0 s) q := by
  unfold execVset
  repeat' first
    | with_reducible assumption
    | with_reducible exact ⟨h.queue, h.wf⟩
    | intro x (hx : State.Keeps x q)
    | intro x
    | with_reducible exact ⟨hx.queue, hx.wf⟩
    | with_reducible apply atOp_keeps
    | with_reducible apply applyDrive_keeps
    | with_reducible apply segment_keeps
    | with_reducible apply out_keeps
    | split

theorem execSegmentEnd_keeps (h : s.Keeps q) (x0 : Fin 128) : OutKeeps (execSegmentEnd x0 s) q := by
  unfold execSegmentEnd
  repeat' first
    | with_reducible assumption
    | with_reducible exact ⟨h.queue, h.wf⟩
    | with_reducible apply applyDrive_keeps
    | with_reducible apply goOn_keeps
    | with_reducible apply setEngine_keeps
    | with_reducible apply out_keeps
    | split

theorem execHolderLimit_keeps (h : s.Keeps q) (x0 : Fin 256) : OutKeeps (execHolderLimit x0 s) q := by
  unfold execHolderLimit
  repeat' first
    | with_reducible assumption
    | with_reducible exact ⟨h.queue, h.wf⟩
    | with_reducible apply setPort_keeps
    | with_reducible apply out_keeps
    | split

theorem execPortCompliance_keeps (h : s.Keeps q) (x0 : PortCond 256) : OutKeeps (execPortCompliance x0 s) q := by
  unfold execPortCompliance
  repeat' first
    | with_reducible assumption
    | with_reducible exact ⟨h.queue, h.wf⟩
    | with_reducible apply portFault_keeps
    | with_reducible apply setPort_keeps
    | with_reducible apply out_keeps
    | split

theorem execBiasRampEnd_keeps (h : s.Keeps q) (x0 : Fin 256) : OutKeeps (execBiasRampEnd x0 s) q := by
  unfold execBiasRampEnd
  repeat' first
    | with_reducible assumption
    | with_reducible exact ⟨h.queue, h.wf⟩
    | with_reducible apply setPort_keeps
    | with_reducible apply out_keeps
    | split

theorem execDeadTimeEnd_keeps (h : s.Keeps q) (x0 : Fin 480) : OutKeeps (execDeadTimeEnd x0 s) q := by
  unfold execDeadTimeEnd
  repeat' first
    | with_reducible assumption
    | with_reducible exact ⟨h.queue, h.wf⟩
    | with_reducible apply setPort_keeps
    | with_reducible apply out_keeps
    | split

theorem execAutomaticSwap_keeps (h : s.Keeps q) (x0 : TableId) (x1 : BitVec 14) : OutKeeps (execAutomaticSwap x0 x1 s) q := by
  unfold execAutomaticSwap
  repeat' first
    | with_reducible assumption
    | with_reducible exact ⟨h.queue, h.wf⟩
    | with_reducible apply autoSwap_keeps
    | with_reducible apply out_keeps
    | split

theorem execTableEntryWrite_keeps (h : s.Keeps q) (x0 : Acc) (x1 : BitVec 24) (x2 : Word) : OutKeeps (execTableEntryWrite x0 x1 x2 s) q := by
  unfold execTableEntryWrite
  have ha := accept_keeps h x0
  generalize s.accept x0 = t at ha
  dsimp only
  refine out_keeps ?_
  split
  · have hg := gate_keeps ha x0.req.toNat x1.toNat x2 false
    generalize t.gate _ _ _ _ = g at hg ⊢
    cases g with
    | drop t => exact hg
    | hold t m => exact hg
    | act t m => exact imageWrite_keeps hg _ _ _ _
  · exact ha

theorem execPairHighWrite_keeps (h : s.Keeps q) (x0 : Acc) (x1 : BitVec 24) (x2 : Word) : OutKeeps (execPairHighWrite x0 x1 x2 s) q := by
  unfold execPairHighWrite
  repeat' first
    | with_reducible assumption
    | with_reducible exact ⟨h.queue, h.wf⟩
    | with_reducible apply writeBy_keeps
    | with_reducible apply out_keeps
    | split

theorem execPairLowWrite_keeps (h : s.Keeps q) (x0 : Acc) (x1 : BitVec 24) (x2 : Word) : OutKeeps (execPairLowWrite x0 x1 x2 s) q := by
  unfold execPairLowWrite
  repeat' first
    | with_reducible assumption
    | with_reducible exact ⟨h.queue, h.wf⟩
    | with_reducible apply writeBy_keeps
    | with_reducible apply out_keeps
    | split

theorem execLockLeaseExpiry_keeps (h : s.Keeps q) (x0 : BitVec 12) : OutKeeps (execLockLeaseExpiry x0 s) q := by
  unfold execLockLeaseExpiry
  repeat' first
    | with_reducible assumption
    | with_reducible exact ⟨h.queue, h.wf⟩
    | with_reducible apply breakLock_keeps
    | with_reducible apply out_keeps
    | split

theorem execDiscard_keeps (h : s.Keeps q) (x0 : Acc) (x1 : BitVec 12) : OutKeeps (execDiscard x0 x1 s) q := by
  unfold execDiscard
  repeat' first
    | with_reducible assumption
    | with_reducible exact ⟨h.queue, h.wf⟩
    | with_reducible apply writeBy_keeps
    | with_reducible apply out_keeps
    | split

theorem execBlockEnable_keeps (h : s.Keeps q) (x0 : Acc) (x1 : BitVec 12) (x2 : Bool) : OutKeeps (execBlockEnable x0 x1 x2 s) q := by
  unfold execBlockEnable
  repeat' first
    | with_reducible assumption
    | with_reducible exact ⟨h.queue, h.wf⟩
    | with_reducible apply writeBy_keeps
    | with_reducible apply out_keeps
    | split

theorem execSysD2dRetryRead_keeps (h : s.Keeps q) (x0 : Acc) : OutKeeps (execSysD2dRetryRead x0 s) q := by
  unfold execSysD2dRetryRead
  repeat' first
    | with_reducible assumption
    | with_reducible exact ⟨h.queue, h.wf⟩
    | with_reducible apply readFor_keeps
    | with_reducible apply out_keeps
    | split

theorem execHostLinkReset_keeps (h : s.Keeps q) (x0 : LinkCause) : OutKeeps (execHostLinkReset x0 s) q := by
  unfold execHostLinkReset
  repeat' first
    | with_reducible assumption
    | with_reducible exact ⟨h.queue, h.wf⟩
    | with_reducible apply hostLinkDown_keeps
    | with_reducible apply out_keeps
    | split

theorem execAonPowerOnReset_keeps (h : s.Keeps q) : OutKeeps (execAonPowerOnReset s) q := by
  unfold execAonPowerOnReset
  repeat' first
    | with_reducible assumption
    | with_reducible exact ⟨h.queue, h.wf⟩
    | with_reducible apply aonReset_keeps
    | with_reducible apply out_keeps
    | split

theorem execSupervisorWatchdog_keeps (h : s.Keeps q) : OutKeeps (execSupervisorWatchdog s) q := by
  unfold execSupervisorWatchdog
  repeat' first
    | with_reducible assumption
    | with_reducible exact ⟨h.queue, h.wf⟩
    | with_reducible apply coldReset_keeps
    | with_reducible apply watchdogRestart_keeps
    | with_reducible apply out_keeps
    | split

theorem execD2dFail_keeps (h : s.Keeps q) (x0 : BitVec 24) : OutKeeps (execD2dFail x0 s) q := by
  unfold execD2dFail
  repeat' first
    | with_reducible assumption
    | with_reducible exact ⟨h.queue, h.wf⟩
    | with_reducible apply stick_keeps
    | with_reducible apply ringAdd_keeps
    | with_reducible apply out_keeps
    | split

theorem execD2dRetry_keeps (h : s.Keeps q) : OutKeeps (execD2dRetry s) q := by
  unfold execD2dRetry
  repeat' first
    | with_reducible assumption
    | with_reducible exact ⟨h.queue, h.wf⟩
    | with_reducible apply stick_keeps
    | with_reducible apply countSat_keeps
    | with_reducible apply out_keeps
    | split

end Sys2Proof.Machine
end

