-- ==== Sys2Proof/WellFormed.lean ====
section
/-! DEFINITION. Which commands are well formed: the ranges that the spec gives operands beyond their types. `exec` is
total and does not lean on it; the tests refuse an ill-formed command for each check. -/

namespace Sys2Proof

/-- The classes of owner identifiers (table of chapter 02, "Locks"): the owner, the management port, tenants, sessions. -/
def Acc.ok (a : Acc) : Bool :=
  let n := a.req.toNat
  n ≤ 1 || (0x0100 ≤ n && n < 0x0180) || (0x8000 ≤ n && n < 0x8800)

/-- Registers and table words stand at multiples of 4 (R29). -/
def aligned (addr : Nat) : Bool := addr % 4 = 0

/-- How many entries a table has (table of chapter 02, "Tables"). -/
def TableId.entries : TableId → Nat
  | .stream => 4096
  | .tenant => 128
  | .routing => 16384
  | .slice => 64
  | .switch => 2048
  | .rule => 256

/-- A tenant's number or 0xFF for the owner (R9). -/
def tenantByte (n : Nat) : Bool := n < 128 || n = 255

/-- A temperature that a reading of 12 bits in 0.125 °C can hold (R362). -/
def reading (t : Int) : Bool := -2048 ≤ t && t < 2048

/-- No entry occurs twice. -/
def noRepeat : List Nat → Bool
  | [] => true
  | x :: t => !t.contains x && noRepeat t

/-- A window's value lies within full scale (R61). -/
def WindowIn.ok (w : WindowIn) : Bool := w.value.natAbs ≤ 2 ^ 20

/-- A run of codes on the fast path is not empty. -/
def FastCodes.ok (f : FastCodes) : Bool := !f.codes.isEmpty

/-- Sums over a period: the codes that are not VALID are among the codes. -/
def SliceStat.ok (x : SliceStat) : Bool := x.invalid ≤ x.n

/-- No more instants are not VALID than there are. -/
def ShadowStat.ok (x : ShadowStat) : Bool := x.invalid ≤ x.n

/-- A milestone's inputs: 24 sensors in a row of readings, 12 regions in the model, one entry for a port (R362, R363). -/
def MsIn.ok (m : MsIn) : Bool :=
  m.sensors.all (fun r => decide (r.length = 24) && r.all reading) &&
    (m.model.isEmpty || (decide (m.model.length = 12) && m.model.all reading)) &&
    m.slices.all SliceStat.ok && m.shadows.all ShadowStat.ok && noRepeat (m.mon.map (·.1.val)) &&
    noRepeat (m.activity.map (·.1.val)) && noRepeat (m.links.map (·.port.val)) && noRepeat (m.latency.map (·.1.val)) && m.fast.all FastCodes.ok

/-- A record's fields within their widths (R187). -/
def recordOk (r : Machine.Record) : Bool :=
  r.stream < 4096 && r.kind < 16 && r.flags < 256 && r.seqNo < 2 ^ 32 && r.sec < 2 ^ 32 && r.frac < 2 ^ 32 &&
    r.glaze < 2 ^ 16 && r.refEpoch < 256 && r.calEpoch < 256 && r.exp < 256 && r.unit < 256

/-- A copy of a segment (R276). -/
def SegCopy.ok (c : SegCopy) : Bool := tenantByte c.tenant && c.records.all recordOk

/-- An advertisement names each port of its device at most once: at most eight (R255). -/
def Lsa.ok (l : Lsa) : Bool := l.ports.length ≤ 8 && l.claimMs < 2 ^ 32

/-- A time frame's adjustment mode is 0 to 3; its origin has 112 bits (R219, R233). -/
def TimeFrame.ok (f : TimeFrame) : Bool := f.origin < 2 ^ 112

/-- A fragment carries at most 256 bytes of its frame, and a class that exists (R247, R248). -/
def Fragment.ok (f : Fragment) : Bool := f.len.toNat ≤ 256 && f.cls.toNat ≤ 4

/-- The flash's mode of 2 bits is dual or quad where SFDP was read (R397). -/
def BootIn.ok (b : BootIn) : Bool := !b.sfdpOk || b.flashMode.toNat ≤ 2

/-- A well-formed command. -/
def Instr.wellFormed (c : Instr) : Bool :=
  match c with
  | .milestone m => m.ok
  | .d2dRetry => true
  | .d2dFail _ => true
  | .d2dRecovery => true
  | .supervisorWatchdog => true
  | .supervisorResume => true
  | .aonPowerOnReset => true
  | .coldReset _ => true
  | .sysReset a _ _ => a.ok
  | .blockReset a _ => a.ok
  | .blockResetEnd _ => true
  | .hostLinkReset _ => true
  | .sysD2dRetryRead a => a.ok
  | .blockEnable a _ _ => a.ok
  | .registerWrite a _ _ width => a.ok && [1, 2, 4, 8].contains width.toNat
  | .commit a _ => a.ok
  | .discard a _ => a.ok
  | .lockAcquire a _ _ => a.ok
  | .lockUnlockCommit a _ => a.ok
  | .lockUnlockDiscard a _ => a.ok
  | .lockLeaseExpiry _ => true
  | .pairLowRead a r => a.ok && [1, 2, 4, 8].contains r.width.toNat
  | .pairHighRead a r => a.ok && [1, 2, 4, 8].contains r.width.toNat
  | .pairLowWrite a addr _ => a.ok && aligned addr.toNat
  | .pairHighWrite a addr _ => a.ok && aligned addr.toNat
  | .tableEntryWrite a addr _ => a.ok && aligned addr.toNat
  | .invalidate a t idx => a.ok && decide (idx.toNat < t.entries)
  | .invalidateAll a _ => a.ok
  | .automaticSwap t idx => decide (idx.toNat < t.entries)
  | .holdInstant _ _ win => win.ok
  | .deadTimeEnd _ => true
  | .biasRampEnd _ => true
  | .ecShortOpen _ => true
  | .visit _ _ _ codes => decide (codes.length = 32)
  | .portCompliance _ => true
  | .portOpen _ => true
  | .portShort _ => true
  | .portClamp _ => true
  | .holderLimit _ => true
  | .ecShortClose => true
  | .heaterTick => true
  | .segmentEnd _ => true
  | .stop _ => true
  | .vset _ => true
  | .vramp _ => true
  | .tset _ => true
  | .tramp _ => true
  | .mark _ => true
  | .flag _ => true
  | .wait _ => true
  | .jump _ => true
  | .loop _ => true
  | .sync _ => true
  | .waitSatisfied _ => true
  | .waitTimeout _ => true
  | .syncReached _ => true
  | .controlTick _ meas => noRepeat (meas.map (·.engine.val))
  | .heaterProgFault _ => true
  | .heaterShortGnd _ => true
  | .heaterShortVhtr _ => true
  | .heaterOpen _ => true
  | .heaterOvertemp _ => true
  | .limitationEnd => true
  | .seqFset a _ _ => a.ok
  | .seqFclr a _ _ => a.ok
  | .stallRelease _ => true
  | .impPeriodEnd _ => true
  | .impVisitEnd _ => true
  | .impBase a _ _ => a.ok
  | .impBaseAll a _ => a.ok
  | .pairFault _ => true
  | .pairFaultEnd _ => true
  | .checkFault _ => true
  | .checkFaultEnd _ => true
  | .spotRequest a _ _ _ _ _ => a.ok
  | .spotStart _ _ => true
  | .spotNoGap _ => true
  | .spotCancel a _ => a.ok
  | .spotDone _ codes => decide (codes.length = 32)
  | .spotDropRead a _ => a.ok
  | .chkCntRead a _ => a.ok
  | .metastable _ _ _ => true
  | .trimEnd _ _ => true
  | .spareStart a _ _ => a.ok
  | .spareAbort a _ => a.ok
  | .spareConverged _ => true
  | .shadowTimeout _ => true
  | .sweepStart _ _ => true
  | .gateTimeout _ => true
  | .sweepEnd _ => true
  | .allocatorEvaluation => true
  | .selfCalibrate a _ => a.ok
  | .calSave a _ => a.ok
  | .calRestore a _ => a.ok
  | .factoryReload a _ => a.ok
  | .resetEstimators a _ => a.ok
  | .selfCalibrationPhase _ => true
  | .selfCalibrationEnd _ solved => decide (solved.length = 17)
  | .gapVisit _ _ _ codes => decide (codes.length = 32)
  | .estimatorConverged _ _ => true
  | .estimatorFail _ _ => true
  | .slopeComparison _ => true
  | .codeArrival fast => fast.all FastCodes.ok
  | .intervalEnd _ => true
  | .trackLost => true
  | .speSubstRead a _ => a.ok
  | .speSatRead a _ => a.ok
  | .observation => true
  | .switchSilent _ => true
  | .almAck a _ => a.ok
  | .almAckAll a => a.ok
  | .foldBack _ => true
  | .foldRetry _ => true
  | .foldTestEnd _ _ => true
  | .extLow _ => true
  | .drvFail _ => true
  | .alarmFrameRepeat => true
  | .alarmFrameOnAddress => true
  | .alarmFrameReceive _ => true
  | .timFracLoRead a => a.ok
  | .timSnap a => a.ok
  | .timIncWrite a _ => a.ok
  | .adjStep a _ => a.ok
  | .adjSlew a _ _ => a.ok
  | .adjSet a _ => a.ok
  | .adjCancel a => a.ok
  | .slewEnd => true
  | .tinEdge _ => true
  | .tinLost => true
  | .timeFrameReceive _ _ f => f.ok
  | .holdover => true
  | .healingDelta _ _ => true
  | .msiLatch _ => true
  | .timWmark a _ => a.ok
  | .pllLock => true
  | .laneLoss _ _ => true
  | .laneRejoin _ _ => true
  | .fragmentReceive _ f => f.ok
  | .negativeAcknowledge _ _ => true
  | .linkAcknowledge _ _ => true
  | .ackTimeout _ => true
  | .retryLimit _ => true
  | .rekey _ => true
  | .laneTrainingDone _ _ => true
  | .authenticationDone _ _ _ _ _ _ => true
  | .handshakeTimeout _ => true
  | .quarantineRetry _ => true
  | .lsaFlood => true
  | .lsaReceive _ l => l.ok
  | .lsaWithdraw _ => true
  | .addressRequest _ _ _ => true
  | .addressAssign _ => true
  | .routeComputation => true
  | .timeParentChoice => true
  | .reservationRequest _ _ _ tenant => tenantByte tenant.toNat
  | .reservationGrant _ _ => true
  | .reservationRefuse _ _ => true
  | .sessionOpen _ _ _ => true
  | .sessionSubscribe _ _ _ => true
  | .sessionAcknowledge _ _ _ => true
  | .ackTmoResend _ _ => true
  | .sessionClose _ => true
  | .sessionKeepAlive _ => true
  | .sessionDrop _ => true
  | .sessionHoldEnd _ => true
  | .sessionResume _ _ _ => true
  | .sessionRegisterAccess _ _ addr _ => aligned addr.toNat
  | .rootLost => true
  | .maxageGiveUp _ => true
  | .replicaChoice _ => true
  | .replicaOffer _ _ => true
  | .pushReceive _ c => c.ok
  | .segmentRequest _ _ => true
  | .holderLost _ => true
  | .segmentReleaseReceive _ _ _ => true
  | .copyReceive _ c _ => c.ok
  | .lakeResolve a _ => a.ok
  | .lakeDiscard a _ => a.ok
  | .captureTrigger a => a.ok
  | .capturePostTriggerEnd => true
  | .captureCopyDone => true
  | .captureRelease a _ => a.ok
  | .captureReceive _ _ parts _ => !parts.isEmpty && parts.all fun l => decide (l.length ≤ 1048384)
  | .replayGo a => a.ok
  | .replayAbort a => a.ok
  | .replayDone => true
  | .secRead a _ => a.ok
  | .secSign a => a.ok
  | .secInstall a => a.ok
  | .secClear a => a.ok
  | .secCommandDone _ => true
  | .openLockoutEnd _ => true
  | .glazeLoad a _ => a.ok
  | .glazeUnload a _ => a.ok
  | .glazeStore a _ => a.ok
  | .glazeStoreDone _ => true
  | .modeChangeGo a _ _ => a.ok
  | .modeChangeRecall a _ => a.ok
  | .modeChangeReceive _ _ => true
  | .queryReceive _ => true
  | .baseConfiguration boot => boot.ok
  | .sourceEvent _ _ => true
  | .moderationTimeout _ => true
  | .intEoi a _ _ => a.ok
  | .intFeoi a _ _ => a.ok
  | .intClaim a _ => a.ok
  | .intFclaim a _ => a.ok
  | .interruptFrameReceive _ _ _ _ => true
  | .tamper _ => true
  | .reqRun a => a.ok
  | .reqIdle a => a.ok
  | .reqSleep a => a.ok
  | .reqDeepSleep a => a.ok
  | .reqOff a => a.ok
  | .wakeEvent _ => true
  | .wakeComplete => true
  | .retentionLoss => true
  | .railWarning _ => true
  | .powerFail _ => true
  | .offExit => true
  | .coldStart boot => boot.ok
  | .sensorBroken _ => true
  | .thmSexclWrite a _ => a.ok
  | .enforcement => true
  | .enforceNow a => a.ok
  | .enforcementStep => true
  | .enforcementEnd => true
  | .thermalShutdown _ _ temp => reading temp
  | .brokenSensorShutdown _ => true
  | .thermalRestart => true
  | .updBegin a => a.ok
  | .updWrite a => a.ok
  | .updVerify a => a.ok
  | .updActivate a _ => a.ok
  | .updConfirm a => a.ok
  | .updRollback a => a.ok
  | .updAbort a => a.ok
  | .updResolve a _ => a.ok
  | .updCommandDone _ => true
  | .activationReverify _ => true
  | .trialExpiry => true
  | .txqTailWrite a _ slots => a.ok && decide (slots.length < 4096)
  | .rxqHeadWrite a _ => a.ok
  | .rxRingWrite len _ => decide (len ≤ 4096)
  | .i2cWriteWord _ _ => true
  | .i2cReadWord _ => true
  | .i2cBusTimeout => true
  | .tagSearch a _ => a.ok
  | .tagReadMemory a _ _ _ _ => a.ok
  | .tagAnnounce _ => true
  | .tagPeriodicSearch => true
  | .tagBusShort _ => true
  | .tagSearchDone _ _ => true
  | .tagReadDone _ bytes _ => decide (bytes.length ≤ 256)
  | .fabPretryRead a _ => a.ok
  | .fabPtagfRead a _ => a.ok
  | .fabPqpeakRead a _ => a.ok
  | .fabPdropRead a _ => a.ok
  | .hstPciQdropRead a => a.ok
  | .toutEdge _ => true
  | .dacTick _ => true
  | .wakeFromOff => true
  | .railWithinWindow _ => true
  | .almPinLevelChange _ _ => true
  | .configurationRequest _ _ _ _ => true
  | .hostLinkUp _ _ => true
  | .i2cOffset _ offset _ => aligned offset.toNat
  | .i2cTransactionEnd _ => true
  | .recoveryRequest _ _ _ => true
  | .sessionHandshakeDone _ _ _ _ => true

end Sys2Proof
end

