-- ==== Sys2Proof/Tests/Slice0.lean ====
section
/-! SUPPORT. Small tests: ill-formed commands that `Instr.wellFormed` refuses, a concrete state and operands that meet
the hypotheses of each statement, and single steps with results worked out by hand from the spec. -/

-- One test after the other: a thread for each takes more memory than the check allows.
set_option Elab.async false

namespace Sys2Proof.Tests
open Sys2Proof Sys2Proof.Machine

/-! ### Helpers -/

/-- The owner, at once. -/
def own : Acc := ⟨0, 0⟩

/-- A device in Run with its base configuration in force. -/
def up : State :=
  { State.reset with
    pwr := { State.reset.pwr with live := true, booted := true }
    tim := { State.reset.tim with locked := true } }

/-- A state with some registers written. -/
def State.with (s : State) (l : List (Nat × Word)) : State := l.foldl (fun s x => s.setReg x.1 x.2) s

/-- An owner's write passes on a device that answers, with nothing locked and nothing in reset. -/
theorem pass {s : State} {addr : Nat} {val : Word} {ex : Bool} (h : s.accept own = s := by rfl)
    (h1 : s.pwr.live = true := by rfl) (h2 : s.pwr.clocked = true := by rfl) (h3 : s.pwr.waking = false := by rfl)
    (h4 : s.acc.inReset = [] := by rfl) (h5 : s.acc.locks = [] := by rfl) (h6 : s.pwr.st ≠ .sleep := by decide) :
    s.Passes own addr val ex s := by
  unfold State.Passes
  rw [h]
  have v : s.validReq 0 = true := by simp [State.validReq, State.ownerReq]
  have t : s.tenantOf 0 = none := owner_no_tenant (by simp [State.ownerReq])
  simp [State.gate, State.answers, h1, h2, h3, h6, own, v, t, State.lockGate, State.inReset, h4, State.lockOf, h5]

/-- An owner's read reaches every register of a device that answers. -/
theorem reach {s : State} {addr : Nat} (h : s.accept own = s := by rfl) (h1 : s.pwr.live = true := by rfl)
    (h2 : s.pwr.clocked = true := by rfl) (h3 : s.pwr.waking = false := by rfl) (h6 : s.pwr.st ≠ .sleep := by decide) :
    s.Reads own addr := by
  unfold State.Reads
  rw [h]
  have v : s.validReq 0 = true := by simp [State.validReq, State.ownerReq]
  have t : s.tenantOf 0 = none := owner_no_tenant (by simp [State.ownerReq])
  simp [State.sees, State.answers, h1, h2, h3, h6, own, v, t]

/-! ### Ill-formed commands -/

/-- A requester of no class of chapter 02. -/
def nobody : Acc := ⟨2, 0⟩

theorem test_bad_requester : (Instr.blockReset nobody 0x040).wellFormed = false ∧
    (Instr.blockReset ⟨0x0180, 0⟩ 0x040).wellFormed = false ∧ (Instr.blockReset ⟨0x8800, 0⟩ 0x040).wellFormed = false ∧
    (Instr.blockReset own 0x040).wellFormed = true := by decide
theorem test_bad_alignment_or_width : (Instr.pairLowRead own ⟨0x003040, 3⟩).wellFormed = false ∧
    (Instr.i2cOffset 0 2 true).wellFormed = false ∧
    (Instr.sessionRegisterAccess 0 true 1 0).wellFormed = false := by decide
theorem test_bad_width : (Instr.registerWrite own 0 0 3).wellFormed = false ∧
    (Instr.registerWrite own 0 0 8).wellFormed = true := by decide
theorem test_bad_index : (Instr.invalidate own .slice 64).wellFormed = false ∧
    (Instr.automaticSwap .rule 256).wellFormed = false ∧ (Instr.automaticSwap .rule 255).wellFormed = true := by decide
theorem test_bad_window : (Instr.holdInstant 0 0 ⟨2 ^ 20 + 1, false⟩).wellFormed = false := by decide
theorem test_bad_code_count : (Instr.visit 0 0 0 [1]).wellFormed = false ∧ (Instr.spotDone 0 []).wellFormed = false ∧
    (Instr.gapVisit 0 0 true [1, 2]).wellFormed = false ∧ (Instr.selfCalibrationEnd 0 []).wellFormed = false ∧
    (Instr.codeArrival (some ⟨0, 0, [], 0⟩)).wellFormed = false := by decide
theorem test_bad_repeats : (Instr.controlTick 0 [⟨3, 0, 0⟩, ⟨3, 1, 1⟩]).wellFormed = false ∧
    (Instr.milestone { mon := [(1, 0), (1, 5)] }).wellFormed = false ∧
    (Instr.milestone { activity := [(1, []), (1, [])] }).wellFormed = false ∧
    (Instr.milestone { latency := [(1, 0), (1, 5)] }).wellFormed = false ∧
    (Instr.milestone { links := [⟨1, 0, 0, 0, 0⟩, ⟨1, 0, 0, 0, 0⟩] }).wellFormed = false := by decide
theorem test_bad_milestone : (Instr.milestone { sensors := [[200]] }).wellFormed = false ∧
    (Instr.milestone { sensors := [List.replicate 24 2048] }).wellFormed = false ∧
    (Instr.milestone { model := [200] }).wellFormed = false ∧
    (Instr.milestone { model := List.replicate 12 (-2049) }).wellFormed = false ∧
    (Instr.milestone { slices := [⟨0, 0, 1, 2, 0, 0, false, 0, 0, 0, 0, 0⟩] }).wellFormed = false ∧
    (Instr.milestone {}).wellFormed = true := by decide
theorem test_bad_frames :
    (Instr.timeFrameReceive 0 0 ⟨2 ^ 112, 0, 0, false, 0, false, 0, 0, 0, 0, 0, 0, 0⟩).wellFormed = false ∧
    (Instr.fragmentReceive 0 ⟨0, 0, true, true, 257, false, true, 0, false, 0, 0, 0, 0⟩).wellFormed = false ∧
    (Instr.fragmentReceive 0 ⟨0, 5, true, true, 4, false, true, 0, false, 0, 0, 0, 0⟩).wellFormed = false ∧
    (Instr.lsaReceive 0 ⟨1, none, 0, false, 0, none, 0, List.replicate 9 (0, 0, 0, 0), none, 0, true⟩).wellFormed = false ∧
    (Instr.lsaReceive 0 ⟨1, none, 2 ^ 32, false, 0, none, 0, [], none, 0, true⟩).wellFormed = false := by decide
theorem test_bad_tenant : (Instr.reservationRequest 0 ⟨0, 0, 0⟩ 1 128).wellFormed = false ∧
    (Instr.reservationRequest 0 ⟨0, 0, 0⟩ 1 255).wellFormed = true ∧
    (Instr.pushReceive 0 ⟨1, 0, 1, 0, true, 128, [], 0, 0, true, 0⟩).wellFormed = false ∧
    (Instr.copyReceive 0 ⟨1, 0, 1, 0, true, 0, [⟨4096, 0, 0, 0, 0, 0, 0, 0, 0, 0, 0, []⟩], 0, 0, true, 0⟩
      true).wellFormed = false := by
  decide
theorem test_bad_sizes : (Instr.captureReceive 0 0 [] true).wellFormed = false ∧
    (Instr.rxRingWrite 4097 false).wellFormed = false := by decide
theorem test_bad_part (l : List Byte) (h : l.length = 1048385) : (Instr.captureReceive 0 0 [l] true).wellFormed = false := by
  simp [Instr.wellFormed, h]
theorem test_bad_slots (l : List TxFrame) (h : l.length = 4096) : (Instr.txqTailWrite own 0 l).wellFormed = false := by
  show (Acc.ok own && decide (l.length < 4096)) = false
  rw [h]; decide
theorem test_bad_tag_read (l : List Byte) (h : l.length = 257) : (Instr.tagReadDone true l 0).wellFormed = false := by
  show decide (l.length ≤ 256) = false
  rw [h]; decide
theorem test_bad_temperature : (Instr.thermalShutdown none 0 2048).wellFormed = false ∧
    (Instr.coldStart { flashMode := 3 }).wellFormed = false ∧
    (Instr.baseConfiguration { flashMode := 3 }).wellFormed = false := by decide

/-! ### The statements' hypotheses are met: the step, the register space, who may write -/

theorem witness_StepRunsFrontCommand :
    ({ up with pending := [.tinLost, .heaterTick] } : State).pending = .tinLost :: [.heaterTick] := rfl
theorem witness_IdleStepPassesCyclesBelowTheMilestone : up.pending = [] := rfl
theorem witness_EveryStepCompletesAndKeepsTheForm :
    ({ up with pending := [.tinLost, .heaterTick] } : State).Keeps [.tinLost, .heaterTick] := ⟨rfl, rfl⟩
theorem witness_RegisterSpaceLaws : kWf regReset (up.setReg 0x001048 1).regs = true ∧
    (up.setReg 0x001048 1).regs ≠ [] := by decide
theorem witness_IdleStepPassesCyclesBelowTheMilestone_elapsed : State.reset.tim.locked = false := rfl

/-- A lock of the owner on page 0x40, a block reset on page 0x41. -/
def locked : State := { up with acc := { up.acc with locks := [⟨0x040, 0, 5, []⟩], inReset := [0x041] } }
theorem witness_WritesPassTheGateOrStopAtIt_owner : locked.answers 0x040 = true ∧ locked.ownerReq 0 = true ∧
    locked.ownerReq 1 = true ∧ locked.inReset 0x041 = true ∧ locked.inReset 0x040 = false ∧
    locked.inReset 0x042 = false ∧ locked.lockOf 0x042 = none ∧ locked.lockOf 0x040 = some ⟨0x040, 0, 5, []⟩ := by decide

/-- Tenant 0 with the TIM page writable and the SEQ page readable in its window. -/
def tenanted : State := State.with up [(TableId.tenant.addr 0 0, 1), (TableId.tenant.addr 0 24, 0x20063003)]
theorem witness_WritesPassTheGateOrStopAtIt_tenant : tenanted.answers 3 = true ∧ tenanted.tenantOf 0x0100 = some 0 ∧
    tenanted.winWr 0 0x040 = none ∧ tenanted.winWr 0 6 = some false ∧ tenanted.winWr 0 3 = some true ∧
    tenanted.writeMask 0 0x0100 (ra .tim 0 0x074) = 0 ∧ tenanted.writeMask 0 0x0100 (ra .tim 0 0x050) ≠ 0 ∧
    tenanted.inReset 3 = false ∧ tenanted.lockOf 3 = none ∧
    ({ tenanted with acc := { up.acc with inReset := [3] } } : State).inReset 3 = true := by decide
theorem witness_UnmappedTenantWriteChangesNothing :
    (tenanted.accept ⟨0x0100, 0⟩).tenantOf 0x0100 = some 0 ∧
    (tenanted.accept ⟨0x0100, 0⟩).winWr 0 (0x040048 / 0x1000) = none := by decide

/-! ### Chapter 02 -/

theorem witness_NarrowWriteIsIgnoredAndNoted : 0x001048 % 2 = 0 ∧ (up.accept own).answers (0x001048 / 0x1000) = true ∧
    (up.accept own).validReq own.req.toNat = true := by decide
/-- An RW, an ST, a W1C and an RO register of one field each. -/
theorem witness_RegisterWriteFollowsTheAccessCode :
    (∀ x ∈ [(4168, Code.rw), (8320, .st), (4112, .w1c), (4184, .ro)], (addrFields x.1).map (·.code) = [x.2] ∧
      (pageOf (x.1 / 0x1000)).isSome = true ∧ pairAt x.1 = none ∧
      ((pageOf (x.1 / 0x1000)).all fun k =>
        (up.bodyAction 0 k.1 k.2 (x.1 % 0x1000) 1 allOnes up.tim.due).isNone) = true) ∧
    up.Passes own 4168 1 false up ∧ up.Passes own 4112 1 true up := ⟨by decide, pass, pass⟩
def staged : State := { up with acc := { up.acc with stage := [⟨8, 0, 0x008040, 1, 1⟩] } }
theorem witness_ImagesEnablesAndWarmReset_images : (pageOf 8).isSome = true ∧
    up.Passes own (8 * 0x1000 + 0x01C) 1 false up ∧ staged.Passes own (8 * 0x1000 + 0x01C) 1 false staged ∧
    staged.Passes own (8 * 0x1000 + 0x01C) 2 false staged ∧
    (staged.acc.stage.filter fun w => decide (w.req = 0) && decide (w.page = 8)) ≠ [] :=
  ⟨by decide, pass, pass, pass, by decide⟩

/-- Requester `r` holds page 8 with a held write and a lease of `n`. -/
def held (r n : Nat) : State := { up with acc := { up.acc with locks := [⟨8, r, n, [⟨0x008040, 1, 1, none⟩]⟩] } }
theorem witness_LocksAndTableSwaps_lock :
    up.Passes own (8 * 0x1000 + 0x018) (word (5 * 2 ^ 16)) true up ∧ up.lockOf 8 = none ∧
    (held 0 5).Passes own (8 * 0x1000 + 0x018) (word (2 ^ 30)) true (held 0 5) ∧
    (held 1 5).Passes own (8 * 0x1000 + 0x018) (word (2 ^ 31)) true (held 1 5) ∧
    (held 0 5).lockOf 8 = some ⟨8, 0, 5, [⟨0x008040, 1, 1, none⟩]⟩ ∧
    (held 1 5).lockOf 8 = some ⟨8, 1, 5, [⟨0x008040, 1, 1, none⟩]⟩ ∧
    (held 0 0).lockOf 8 = some ⟨8, 0, 0, [⟨0x008040, 1, 1, none⟩]⟩ :=
  ⟨pass, by decide, by rfl, by rfl, by decide, by decide, by decide⟩
theorem witness_ImagesEnablesAndWarmReset : pageOf 0x042 = some (.bank, 2) ∧ enActs .bank = true ∧ enActs .sys = false ∧
    up.Passes own (0x042 * 0x1000 + 0x008) 0 false up ∧ up.flag (0x042 * 0x1000 + 0x008) 0 ≠ false ∧
    locked.inReset 0x041 = true ∧ up.Passes own (ra .sys 0 0x040) (word (0x57 + 256)) false up ∧
    up.ownerReq 0 = true ∧ up.Passes own (ra .sys 0 0x040) (word 0x57) false up :=
  ⟨by decide, by decide, by decide, pass, by decide, by decide, pass, by decide, pass⟩
theorem witness_BlockResetClearsThePage : pageOf 0x042 = some (.bank, 2) ∧
    up.Passes own (0x042 * 0x1000 + 0x008) 2 false up :=
  ⟨by decide, pass⟩
/-- The second low word of TIM's fraction is latched for the owner. -/
def latched : State := { up with acc := { up.acc with latches := [⟨0, ra .tim 0 0x080, [(ra .tim 0 0x084, 7)], true⟩] } }
theorem witness_ReadsWithEffects : up.Reads own (ra .tim 0 0x080) ∧ latched.Reads own (ra .tim 0 0x084) ∧
    (pairAt (ra .tim 0 0x080)).isSome = true ∧ (pairAt (ra .tim 0 0x084)).isSome = true ∧
    (latched.latchOf 0 (ra .tim 0 0x080)).isSome = true ∧ up.latchOf 0 (ra .tim 0 0x080) = none ∧
    ((pairAt (ra .tim 0 0x060)).all fun p => p.writable) = true ∧ up.Passes own (ra .tim 0 0x060) 5 false up ∧
    up.Passes own (ra .tim 0 0x06C) 5 false up ∧ ((pairAt (ra .tim 0 0x06C)).all fun p => p.hi = ra .tim 0 0x06C) = true ∧
    up.Reads own (ra .sys 0 0x04C) ∧ up.Reads own (ra .bank 23 0x074) ∧ up.Reads own (ra .fabPort 7 0x058) ∧
    up.Reads own (ra .pci 0 0x074) ∧ (2 : BitVec 4).toNat = 2 ∧ (ra .tim 0 0x082) % 2 = 0 ∧
    (ra .tim 0 0x081) % 2 ≠ 0 ∧ (ra .tim 0 0x081) / 4 * 4 = ra .tim 0 0x080 ∧ ra .tim 0 0x080 % 8 = 0 ∧
    up.answers 3 = true ∧ up.validReq 0 = true :=
  ⟨reach, reach, by decide, by decide, by decide, by decide, by decide, pass, pass, by decide, reach, reach, reach, reach,
    by decide⟩
/-- Slice-allocation entry 3 with a write in its image. -/
def dirty : State :=
  { up with acc := { up.acc with images := [(TableId.slice.addr 3 0, 0xFF000001)], dirty := [⟨.slice, 3, 0⟩] } }
theorem witness_LocksAndTableSwaps_table : tableAt (TableId.slice.addr 3 0) = some (.slice, 3, 0) ∧
    up.Passes own (TableId.slice.addr 3 0) 1 false up ∧
    dirty.Passes own (TableId.slice.page * 0x1000 + TableId.slice.invOff) (word 3) false dirty ∧
    dirty.isDirty .slice 3 = true ∧ dirty.isDirty .slice 4 = false ∧ kSorted dirty.acc.images = true ∧
    dirty.sup.running = true ∧ dirty.pwr.live = true ∧ dirty.atMilestone = true ∧
    (∀ x ∈ dirty.acc.autoSwaps, x.1 = TableId.slice → x.2 < 3) ∧
    up.Passes own (TableId.slice.page * 0x1000 + TableId.slice.invOff) (word 64) false up ∧
    up.Passes own (TableId.slice.page * 0x1000 + TableId.slice.invOff) (word (2 ^ 31)) false up ∧
    (∃ v, exec (.invalidate own .slice 3) dirty = .next v) :=
  ⟨by decide, pass, pass, by decide, by decide, by decide, by decide, by decide, by decide,
    by decide, pass, pass, ⟨_, rfl⟩⟩

/-! ### Chapter 01 and the cell ports -/

theorem witness_SupervisorAndLinkEvents : up.tim.locked = true ∧ (0 < up.tim.msCount + 1024) ∧
    ({ up with sup := { up.sup with missed := 64 } } : State).sup.running = true ∧
    ({ up with sup := { up.sup with missed := 64, restarts := [0, 0] } } : State).sup.restarts.length = 2 ∧
    ({ up with flash := { up.flash with brec0 := none, brec1 := none } } : State).flash.brec1 = none ∧
    ({ up with sup := { up.sup with running := false, startDue := true } } : State).sup.startDue = true ∧
    up.glz.waitCmd = none := by decide
theorem witness_ResetsClearAllButTheirDomain : up.pwr.clocked = true := by decide
/-- EC port 0 enabled and all that may end in it in progress. -/
def ported : State := State.with
  { up with
    ports := [(0, { on := true, blanking := true, ramping := true, engaging := true, openCount := 16 }),
      (384, { on := true })] } [(portReg 0 0, 1), (portReg 384 0, 0x41)]
/-- EC port 0 on grid 0, which has instants every 2^-13 s, at fabric time 2^52. -/
def gridded : State := State.with { ported with tim := { up.tim with time := 2 ^ 52 } }
  [(portReg 0 0, 0x81), (ra .alloc 0 0x100, 0x1B)]
theorem witness_HoldInstantClosesTheWindow : (ported.elapse 0).running = true ∧ (ported.elapse 0).holds 0 = true ∧
    (ported.elapse 0).holdAt 0 = none ∧ (gridded.elapse 0).running = true ∧ (gridded.elapse 0).holds 0 = true ∧
    (gridded.elapse 0).holdAt 0 = some (2 ^ 52) := by
  decide
theorem witness_PortSequencesAndFaults : ported.running = true ∧ (ported.port 0).blanking = true ∧
    (ported.port 0).blankEnd ≤ ported.tim.time ∧ ported.biasAt 0 ported.tim.time = ported.biasTarget 0 * 65536 ∧
    (ported.port 0).shortOpen ≤ ported.tim.time ∧
    (ported.port 0).ramping = true ∧ (ported.port 0).engaging = true ∧ ported.chanOn 0 = true ∧
    16 ≤ (ported.port 0).openCount ∧ (ported.port 0).isOpen = false ∧ chanKind 0 ≠ .fp ∧ ported.chanOn 384 = true ∧
    ({ ported with pwr := { up.pwr with st := .deepSleep } } : State).chanOn 0 = true := by decide

/-! ### Heaters -/

/-- Engine `5` live with program word `w` at its program counter. -/
def heated (w : Word) (g : Engine) : State :=
  State.with { up with engines := [(5, g)] } [(engReg 5 0, 0x00000801), (ra .htr 0 0x400, w)]
def between : Engine := { st := .timed }
theorem witness_HeaterOperationsFollowTheTable : ∀ op ∈ [0, 1, 2, 3, 4, 5, 6, 7, 8, 9, 10],
    (heated (BitVec.ofNat 32 (op * 2 ^ 28 + 1)) between).ready 5 = true ∧
    opOf ((heated (BitVec.ofNat 32 (op * 2 ^ 28 + 1)) between).progWord 5) = op := by decide
theorem witness_HeaterSegmentsWaitsAndFaults : (heated 0 { between with segLen := 1 }).engineLive 5 = true ∧
    (heated 0 { between with segLen := 1 }).onTick = true ∧
    0 + 1 ≤ ({ heated 0 { between with segLen := 1 } with tim := { up.tim with time := 2 ^ 44 }
                                                          seq := { up.seq with tick := 1 } } : State).tickNow ∧
    ({ up with tim := { up.tim with time := 2 ^ 44 }, seq := { up.seq with tick := 1 } } : State).onTick = true ∧
    up.tickNow % 2 ^ (20 - argOf ((heated 0xA0000000 between).progWord 5) % 32) = 0 ∧
    (heated 0 { st := .waiting, waitFlag := 63 }).seq.flags.getLsbD 63 = false ∧
    ((heated 0 { st := .waiting }).engine 5).waitLeft = 0 ∧ (164 ≤ 164 ∧ 410 ≤ 3685) ∧
    (State.with (heated 0 { between with hot := 4 }) [(engReg 5 8, 100)]).rcold 5 ≠ 0 ∧
    (heated 0 { between with pc := 2 }).inRegion 5 2 = false := by decide
theorem witness_FlagsControlTicksAndStalls_tick :
    ({ up with tim := { up.tim with time := 2 ^ 44 } } : State).running = true ∧
    ({ up with tim := { up.tim with time := 2 ^ 44 } } : State).tickNow ≠ up.seq.tick ∧
    (up.accept own).gate 0 (ra .seq 0 0x04C) 1 false = .act up allOnes ∧
    (up.accept own).gate 0 (ra .seq 0 0x050) 1 false = .act up allOnes := ⟨by decide, by decide, pass, pass⟩
theorem witness_FlagsControlTicksAndStalls_control : up.running = true ∧ up.onControl = true ∧ up.onTick = true ∧
    kSorted (heated 0 between).engines = true ∧
    up.ilim < up.ilim + 1 ∧ up.seq.limitedNow = false ∧
    ({ up with seq := { up.seq with limitedNow := true, quietTicks := 16 } } : State).seq.limitedNow = true ∧
    (let s : State := { heated 0 { st := .waiting, waitFlag := 3 } with seq := { up.seq with stall := [(0, 16)] } }
     16 ≤ kget s.seq.stall 0 0 ∧ ((s.liveMembers 0).find? fun y => y.2.2.isSome) = some (5, (true, some 3))) := by decide

/-! ### Host ports -/

theorem witness_BusTimeoutAbandonsTheTransaction : up.pwr.clocked = true := rfl
/-- A write transaction at the offset of a writable register. -/
def wired (w : Bool) : State := { up with hst := { up.hst with i2cBusy := true, i2cOff := some 4168, i2cWrite := w } }
theorem witness_TwoWireWordsAreAccesses : (up.elapse 0).i2cAwake = true ∧ (4168 % 4 = 0 ∧ 4170 % 4 ≠ 0) ∧
    ({ up with pwr := { up.pwr with st := .sleep } } : State).i2cAwake = false ∧
    (wired true).hst.i2cOff = some (4168 : BitVec 24).toNat ∧ (wired true).hst.i2cBusy = true ∧
    (wired true).i2cAwake = true ∧ (wired false).hst.i2cWrite = false ∧
    (∃ t, exec (.registerWrite ⟨1, 0⟩ 4168 1 4) (wired true) = .next t) :=
  ⟨by decide, by decide, by decide, by decide, by decide, by decide, by decide, ⟨_, rfl⟩⟩
/-- The TX and RX rings in use with rings of 16 slots and the link up. -/
def ringed : State := State.with { up with hst := { up.hst with linkUp := true } }
  [(ra .pci 0 0x050, 0x14), (ra .pci 0 0x068, 0x14)]
theorem witness_HostQueueAndEndpointRules : ringed.Passes own (ra .pci 0 0x054) 1 false ringed ∧
    up.Passes own (ra .pci 0 0x054) 1 false up ∧ up.flag (ra .pci 0 0x050) 4 = false ∧
    ringed.flag (ra .pci 0 0x050) 4 = true ∧ ringed.hst.linkUp = true ∧ ringed.int.d3hot = false ∧
    1 % ringed.ringSize 0x050 = (ringed.hst.txHead + 1) % ringed.ringSize 0x050 ∧ 1 < ringed.ringSize 0x050 ∧
    (∃ f : TxFrame, [f][0]? = some f ∧ f.len ≠ 16 + f.payload) ∧
    up.Passes own (ra .pci 0 0x06C) 1 false up ∧ ringed.rxOn = true ∧ ringed.hst.held = [] ∧ 0 < ringed.rxRoom ∧
    up.rxOn = false ∧ up.hst.held.sum + 65536 ≤ 65536 ∧ 65536 < up.hst.held.sum + 65537 ∧
    up.pwr.clocked = true ∧ up.hst.linkUp = false ∧ State.reset.pwr.live = false ∧ ringed.pwr.live = true :=
  ⟨pass, pass, by decide, by decide, by decide, by decide, by decide, by decide, ⟨⟨0, 0, 0, 0, 0, false, 0⟩, rfl, by decide⟩, pass,
    by decide⟩
/-- Tag bus 3 enabled, being searched where `b`, with a read of bus 3 running where `r`. -/
def tagged (b r : Bool) : State := State.with { up with hst := { up.hst with
  tagActive := if b then some 3 else none, tagRead := if r then some ⟨3, 0, 0, 0⟩ else none, tagAge := 2048 } }
  [(ra .tag 0 0x040, 0x00010008)]
theorem witness_TagBusesSearchAndRead : (tagged false false).Passes own (ra .tag 0 0x044) 19 false (tagged false false) ∧
    (tagged false false).tagOn 2 = false ∧ (tagged false false).tagOn 3 = true ∧
    (tagged true false).hst.tagActive = some 3 ∧ (tagged false false).hst.tagActive ≠ some 3 ∧
    (tagged false false).Passes own (ra .tag 0 0x044) 35 false (tagged false false) ∧
    (tagged false true).Passes own (ra .tag 0 0x044) 35 false (tagged false true) ∧
    (tagged false true).hst.tagRead.isSome = true ∧
    (tagged false false).fld (ra .tag 0 0x040) 16 4 ≠ 0 ∧
    2 ^ ((tagged false false).fld (ra .tag 0 0x040) 16 4 + 10) ≤ (tagged false false).hst.tagAge ∧
    ((tagged true false).tag 3).restarts < 16 ∧ (searchSet []).length ≤ 32 ∧
    crc16 [0] = (BitVec.ofNat 16 (crc16 [0])).toNat ∧ (tagged true true).supWorks = true ∧
    (tagged true true).awake = true ∧ (tagged false false).pwr.clocked = true :=
  ⟨pass, by decide, by decide, by decide, by decide, pass, pass, by decide, by decide, by decide, by decide, by decide,
    by decide, by decide, by decide, by decide⟩

/-! ### Fabric time -/

/-- A snapped shadow of the owner. -/
def snapped : State := { up with acc := { up.acc with shadows := [⟨0, 5, 0, true⟩] } }
theorem witness_SnapLoadsTheShadowAtOnce : up.Passes own (ra .tim 0 0x050) 1 false up ∧ up.Reads own (ra .tim 0 0x040) ∧
    snapped.Reads own (ra .tim 0 0x040) ∧ snapped.shadow 0 = some ⟨0, 5, 0, true⟩ ∧ up.shadow 0 = none :=
  ⟨pass, reach, reach, by decide, by decide⟩
/-- An offset of 1 s × 2^-32, and a set time without low bits. -/
def offset : State := State.with up [(ra .tim 0 0x068, 0x00400000)]
theorem witness_FrequencyAndAdjustmentRequests : up.Passes own (ra .tim 0 0x064) 2 false up ∧
    (2 ^ 33 - 2 ^ 21 ≤ 2 * 2 ^ 32 ∧ 2 * 2 ^ 32 ≤ 2 ^ 33 + 2 ^ 21) ∧ up.tim.st ≠ .locked ∧ up.tim.st ≠ .holdover ∧
    offset.Passes own (ra .tim 0 0x074) 12 false offset ∧ offset.Passes own (ra .tim 0 0x074) 0x1000D false offset ∧
    offset.Passes own (ra .tim 0 0x074) 14 false offset ∧ offset.Passes own (ra .tim 0 0x074) 16 false offset ∧
    offset.tim.adj = none ∧ offset.tim.member = false ∧ offset.adjOfs.natAbs < 2 ^ 32 ∧
    offset.fld (ra .tim 0 0x068) 0 22 = 0 ∧ ({ up.tim with st := .locked } : Tim).member = true :=
  ⟨pass, by decide, by decide, by decide, pass, pass, pass, pass, by decide, by decide, by decide, by decide, by decide⟩
theorem witness_PulseInputClockAndOutput : (up.elapse 0).tim.locked = true ∧ (up.elapse 0).pwr.clocked = true ∧
    ({ up with tim := { up.tim with tinAny := true } } : State).tim.tinAny = true ∧
    ((3 * 2 ^ 63 : Int) ≤ ({ up with tim := { up.tim with time := 3 * 2 ^ 63 } } : State).tim.time) ∧
    up.tim.tinLost = false ∧ ({ up with tim := { up.tim with slewOn := true } } : State).tim.slew = 0 ∧
    State.reset.tim.locked = false ∧ State.reset.pwr.st ≠ .deepSleep ∧ State.reset.pwr.st ≠ .off ∧
    ({ State.reset with pwr := { up.pwr with st := .deepSleep, waking := true } } : State).pwr.waking = true ∧
    (({ up with int := { up.int with sources := [(16, { st := .active, target := 7 })] } } : State).source 16).st = .active := by
  decide
theorem witness_PulseInputClockAndOutput_waymark : up.Passes own (ra .tim 0 0x0A0) 1 false up := pass
/-- Port 2 carries frames and is the time parent; the island's root is device 9. -/
def follower (st : TimSt) : State := { up with
  tim := { up.tim with st := st, rootAddr := 9, sinceFrame := 2 }
  fab := { up.fab with ports := [(2, { st := .up, lanes := 15, width := 2 })], parent := some 2 } }
theorem witness_TimeFramesAndHoldover : (follower .locked).tim.locked = true ∧ (follower .locked).pwr.clocked = true ∧
    ((follower .locked).fport 2).carries = true ∧ (9 : BitVec 14).toNat = (follower .locked).tim.rootAddr ∧
    (follower .locked).tim.st ≠ .root ∧ (follower .locked).fab.parent = some 2 ∧ (0 : Int) ≤ 10 ^ 6 * 65536 ∧
    2 ≤ (follower .locked).tim.sinceFrame ∧ (follower .root).tim.healApplied = false ∧
    (follower .root).tim.healing = false := by decide

/-! ### Alarms and the allocator -/

/-- Switch 0 of a stream, enabled, on above 10, silent after 2 milestones; its rule table is empty. -/
def watching (x : Switch) : State := State.with
  { up with
    alm := { up.alm with switches := [(0, x)], obs := [⟨.stream 0 true, [11], 0, false, false, 0⟩] } }
  [(TableId.switch.addr 0 0, 0x01000001),
   (TableId.switch.addr 0 2, 10), (TableId.switch.addr 0 3, 5), (ra .alm 0 0x040, 0)]
theorem witness_SwitchesFollowTheirWindows : ((watching {}).switch 0).fault = false ∧
    setCond ((watching {}).swAt 0 7 0) ((watching {}).swAt 0 7 2) 11 = true ∧
    setCond ((watching {}).swAt 0 7 0) ((watching {}).swAt 0 7 2) 9 = false ∧
    clrCond ((watching {}).swAt 0 7 0) ((watching {}).swAt 0 7 3) 4 = true ∧
    clrCond ((watching {}).swAt 0 7 0) ((watching {}).swAt 0 7 3) 6 = false ∧
    dwell ((watching {}).swAt 0 7 0) true = 0 ∧ dwell ((watching {}).swAt 0 7 0) false = 0 ∧
    dwell ((watching {}).swAt 0 7 0 ||| 0x100) true ≠ 0 ∧ dwell ((watching {}).swAt 0 7 0 ||| 0x10000) false ≠ 0 ∧
    ((watching { st := .pendOn, t0 := 7 }).switch 0).t0 + 0 ≤ 7 ∧
    6 < ((watching { st := .pendOff, t0 := 7 }).switch 0).t0 := by
  decide

/-- A remote switch 0 that names rule 7 of device 3, and rules 0 and 1. -/
def remoted (x : Switch) : State := State.with { up with alm := { up.alm with switches := [(0, x)] } }
  [(TableId.switch.addr 0 0, 0x02000005), (TableId.switch.addr 0 1, 0x00070003)]
def frame7 (rep : Bool) (seq : BitVec 16) : AlarmFrame := ⟨3, 7, true, false, false, false, rep, seq, 0, 0, 5⟩
def alarmed (o : AlmOut) : State :=
  { up with
    alm := { up.alm with rules := [(0, { state := true })], outs := [(0, o)], repeatDue := true, onAddr := true }
    fab := { up.fab with addr := some 5 } }
theorem witness_ObservationsAndAlarmOutputs :
    (watching {}).alm.obs = [⟨.stream 0 true, [11], 0, false, false, 0⟩] ∧ (watching {}).pwr.st = .run ∧
    (watching {}).almOn = true ∧ (watching {}).switchesAt 0 = [0] ∧ up.switchesAt 0 = [] ∧
    (watching {}).obsFor ⟨.stream 1 true, [11], 0, false, false, 0⟩ 0 = none ∧
    (State.with (watching {}) [(TableId.stream.addr 0 0, 0x00FF0000)]).obsFor ⟨.stream 0 true, [11], 0, false, false, 0⟩ 0 =
      some (11, false) ∧
    bits ((watching { quiet := 2 }).sww 0 0) 24 5 = 1 ∧ 2 ^ 1 ≤ ((watching { quiet := 2 }).switch 0).quiet ∧
    bit ((watching { quiet := 2 }).sww 0 0) 0 = true ∧
    (remoted {}).switchesAt ((remoted {}).frameStamp (frame7 false 1)) = [0] ∧
    bits ((remoted {}).swAt 0 5 0) 1 2 = 2 ∧ bits ((remoted {}).swAt 0 5 1) 0 14 = 3 ∧
    bits ((remoted {}).swAt 0 5 1) 16 8 = 7 ∧ ((remoted {}).switch 0).remoteSeq = none ∧ serialNewer 16 2 1 = true ∧
    serialNewer 16 1 1 = false ∧ ((remoted { remoteSeq := some 1 }).switch 0).remoteSeq = some 1 := by decide
theorem witness_ObservationsAndAlarmOutputs_outputs :
    (alarmed {}).Passes own (ra .alm 0 0x058) (BitVec.ofNat 32 0) false (alarmed {}) ∧
    (alarmed {}).Passes own (ra .alm 0 0x058) (bitW 31) false (alarmed {}) ∧
    ((alarmed {}).rule 0).state = true ∧ ((alarmed {}).rule 1).state = false ∧ (alarmed {}).almOn = true ∧
    ((alarmed { driven := true, level := true }).almOut 0).driven = true ∧
    ((alarmed { driven := true, fold := true, testing := true }).almOut 0).testing = true ∧
    ((alarmed {}).almOut 0).driven = false ∧ ((alarmed {}).almOut 0).level = false ∧
    (alarmed {}).alm.repeatDue = true ∧ (alarmed {}).alm.onAddr = true ∧ (alarmed {}).fab.addr.isSome = true :=
  ⟨pass, pass, by decide⟩
/-- An evaluation is due with the banks from `n` on in the fast pool and the ports from `m` on, whose entries
were written, disabled. -/
def evaluating (n m : Nat) : State :=
  State.with { up with evalDue := true, acc := { up.acc with placed := (List.range 64).drop m } }
    (((List.range 24).map fun b => (ra .bank b 0x040, if b < n then 2 else 1)) ++
      ((List.range 64).drop m).map fun p => (TableId.slice.addr p 0, 0))
theorem witness_EvaluationsGrantAndPack : up.evalDue = false ∧ (evaluating 23 64).evalDue = true ∧
    (evaluating 23 64).atMilestone = true ∧ (evaluating 23 64).enforceDue = false ∧ (evaluating 24 64).capBanks = [] ∧
    (evaluating 23 64).capBanks = [23] ∧
    (evaluating 23 64).grant [23] [] (fun p => (evaluating 23 64).holdSize p) = none := by decide
theorem witness_EvaluationsGrantAndPack_packs :
    ((evaluating 23 2).grant [23] [] (fun p => (evaluating 23 2).holdSize p)).isSome = true := by decide +kernel

/-! ### The fabric -/

/-- Port 2 as given, enabled at full width. -/
def linked (v : FabPort) : State :=
  State.with { up with fab := { up.fab with ports := [(2, v)] } } [(ra .fabPort 2 0x040, 5)]
/-- A port up at full width with fragment 5 unacknowledged after 8 sendings. -/
def busy : FabPort := { st := .up, lanes := 15, width := 4, peer := some 9, replay := [⟨5, 3, 256, true, true, false, 0, 8⟩] }
theorem witness_LanesAndFragments : ((linked busy).fport 2).carries = true ∧
    ((linked busy).fport 2).lanes.getLsbD 3 = true ∧ ((linked { busy with lanes := 7 }).fport 2).lanes.getLsbD 3 = false ∧
    widthOf (15 &&& ~~~(8 : BitVec 4)).toNat ((linked busy).fld (ra .fabPort 2 0x040) 1 2) ≠ 0 ∧
    widthOf ((8 : BitVec 4) &&& ~~~(8 : BitVec 4)).toNat ((linked busy).fld (ra .fabPort 2 0x040) 1 2) = 0 ∧
    ((linked busy).fport 2).rxSeq = 0 ∧ ((linked busy).fport 2).replay = [⟨5, 3, 256, true, true, false, 0, 8⟩] ∧
    ((⟨0, 0, true, true, 16, false, true, 9, false, 3, 5, 1, 0⟩ : Fragment).seq.toNat = 0 ∧
      (⟨1, 0, true, true, 16, false, true, 9, false, 3, 5, 1, 0⟩ : Fragment).seq.toNat ≠ 0) := by decide
theorem witness_PortsTrainAuthenticateAndRekey : ((linked { st := .training }).fport 2).st = .training ∧
    widthOf (15 : BitVec 4).toNat ((linked {}).fld (ra .fabPort 2 0x040) 1 2) ≠ 0 ∧ (linked {}).portOn 2 = true ∧
    ((linked { st := .authenticating, waited := 64 }).fport 2).st = .authenticating ∧
    ((linked { st := .authenticating, waited := 64 }).fport 2).linkUpDue = false ∧
    64 ≤ ((linked { st := .authenticating, waited := 64 }).fport 2).waited ∧
    ((linked { st := .quarantined, waited := 1024 }).fport 2).st = .quarantined ∧
    1024 ≤ ((linked { st := .quarantined, waited := 1024 }).fport 2).waited ∧
    (∃ x ∈ ((linked busy).fport 2).replay, 8 ≤ x.sends) ∧
    2 ^ 22 ≤ ((linked { busy with keyAge := 2 ^ 22 }).fport 2).keyAge ∧
    2 ^ 31 ≤ ((linked { busy with sent := 2 ^ 31 }).fport 2).sent := by decide
/-- An advertisement of device `uid` at address 9. -/
def lsa (uid : BitVec 64) (seq : Nat) : Lsa := ⟨uid, some 9, 0, false, 0, some 9, seq, [(3, 2, 1, 100)], none, 0, true⟩
/-- The device in an island of two, in time state `st`. -/
def island (st : TimSt) (n : Nat) : State := { linked busy with
  tim := { up.tim with st := st, sinceFrame := n, rootAddr := 9 }
  fab := { (linked busy).fab with map := [⟨lsa 77 4, 4096⟩], addr := if st = .root then some 3 else none
                                  asking := true, routesDue := true,
                                  sessions := [{ num := 6, peer := 9, host := false, role := .owner, asked := true }] } }
theorem witness_DiscoveryRoutesAndReservations : (island .locked 8).sup.running = true ∧
    (island .locked 8).pwr.live = true ∧ (island .locked 8).pwr.clocked = true ∧
    ((island .locked 8).fport 2).carries = true ∧ (island .locked 8).held 77 = some ⟨lsa 77 4, 4096⟩ ∧
    (lsa 77 4).seq < (lsa 77 5).seq ∧ (island .root 0).tim.st = .root ∧ (island .root 0).taken 5 0 = false ∧
    (island .root 0).taken 5 3 = true ∧ (island .locked 8).fab.addr = none ∧ (island .locked 8).fab.asking = true ∧
    8 ≤ (island .locked 8).tim.sinceFrame ∧ (island .locked 8).fab.electDue = false ∧
    (island .locked 8).fab.routesDue = true ∧ (∀ x ∈ (island .locked 8).fab.sessions, x.granted = 0 ∨ x.host = true) ∧
    (island .locked 8).parentChoice 9 = some (9, 2, 1) ∧ up.parentChoice 9 = none ∧ up.tim.st ≠ .root ∧
    (island .locked 8).admitted 2 + 32768 ≤ 8192 * ((island .locked 8).fport 2).width ∧
    ¬ (island .locked 8).admitted 2 + 32769 ≤ 8192 * ((island .locked 8).fport 2).width ∧
    ((island .locked 8).fport 2).st = .up ∧ (island .locked 8).tc2max 255 = none ∧ (island .locked 8).tc2max 0 = some 0 ∧
    (island .locked 8).session 6 = some { num := 6, peer := 9, host := false, role := .owner, asked := true } := by decide +kernel
theorem witness_DiscoveryRoutesAndReservations_newer : ∃ u : BitVec 64, u.toNat ≠ (island .locked 8).uid ∧
    ∀ e, (island .locked 8).held u.toNat = some e → e.lsa.seq < (lsa u 5).seq := by
  by_cases h : (1 : BitVec 64).toNat = (island .locked 8).uid
  · exact ⟨2, by rw [← h]; decide, fun e he => by revert he; simp [State.held, island, lsa]⟩
  · exact ⟨1, h, fun e he => by revert he; simp [State.held, island, lsa]⟩

/-! ### Sessions -/

/-- Session 0 as given, a claimed record of stream 5 kept, refusals of peer 9. -/
def sessioned (x : Session) (r : KMap (Nat × Nat)) : State :=
  State.with { linked busy with fab := { (linked busy).fab with sessions := [x], refusals := r } }
    [(ra .fabRouter 0 0x044, 0x00000102)]
def talk : Session :=
  { num := 0, peer := 9, host := false, role := .owner, st := .open_, subs := [⟨5, 1, 1⟩], silence := 8 }
theorem witness_SessionsOpenAndResume : (sessioned talk []).pwr.live = true ∧ (sessioned talk []).sup.running = true ∧
    (sessioned talk []).pwr.st = .run ∧
    (kget ((sessioned talk [(9, (4, 7))]).leaveIdle).fab.refusals (peerKey 9 false) (0, 0)).2 ≠ 0 ∧
    (kget ((sessioned talk []).leaveIdle).fab.refusals (peerKey 9 false) (0, 0)).2 = 0 ∧
    (∀ x ∈ ((sessioned talk []).leaveIdle).fab.sessions, x.num ≠ 1) ∧
    (∃ x ∈ ((sessioned talk []).leaveIdle).fab.sessions, x.num = 0) ∧
    (sessioned { talk with st := .handshake } []).session 0 = some { talk with st := .handshake } ∧
    (sessioned { talk with st := .dropped } []).session 0 = some { talk with st := .dropped } ∧
    (kget [(9, ((4 : Nat), (1 : Nat)))] 9 (0, 0)).2 = 1 := by decide
/-- A tenant whose key matches has its role; without an owner chain no owner has. -/
theorem witness_SessionsOpenAndResume_role (leaf : BitVec 384) (chain : List (List Byte)) :
    tenanted.roleOk (.tenant 0) chain 0 = true ∧ up.roleOk .owner chain leaf = false :=
  ⟨show (bit (tenanted.eff (TableId.tenant.addr 0 0)) 0 && decide (tenanted.keyHash 0 = (0 : BitVec 384).toNat)) = true by
    decide +kernel, rfl⟩
/-- A device with these sessions. -/
def manned (l : List Session) : State := { up with fab := { up.fab with sessions := l } }
theorem manned_sessions (l : List Session) : (manned l).leaveIdle.fab.sessions = l := rfl
/-- An open with every session number taken is refused. -/
theorem witness_SessionsOpenAndResume_full : ∀ n, n < 2048 →
    ∃ x ∈ (manned ((List.range 2048).map fun n => { talk with num := n })).leaveIdle.fab.sessions, x.num = n := by
  intro n h
  rw [manned_sessions]
  exact ⟨{ talk with num := n }, List.mem_map.mpr ⟨n, List.mem_range.mpr h, rfl⟩, rfl⟩
theorem witness_OpenSessionsAskAcknowledgeAndEnd : (sessioned talk []).session 0 = some talk ∧ talk.st = .open_ ∧
    (sessioned talk []).maySubscribe talk 7 = true ∧ (sessioned talk []).subsHeld < 32768 ∧
    (sessioned talk []).maySubscribe { talk with role := .tenant 3 } 7 = false ∧ talk.sub 5 = some ⟨5, 1, 1⟩ ∧
    (sessioned talk []).pwr.st ≠ .sleep ∧ (0x001048 : BitVec 24).toNat % 4 = 0 ∧ 8 ≤ talk.silence ∧
    (sessioned talk []).fld (ra .fabRouter 0 0x044) 8 12 = 1 ∧
    1 * 2 ^ 16 ≤ ({ talk with st := .dropped, hold := 2 ^ 16 } : Session).hold ∧
    (sessioned { talk with st := .dropped, hold := 2 ^ 16 } []).session 0 = some { talk with st := .dropped, hold := 2 ^ 16 } ∧
    (State.with (sessioned talk []) [(ra .fabRouter 0 0x044, 2)]).fld (ra .fabRouter 0 0x044) 8 12 = 0 := by decide
/-- Ports 2 and 3 of device 3 carry frames, and device 9 is reached through port 2. -/
def hop : State := State.with { linked busy with fab := { (linked busy).fab with addr := some 3 } }
  [(TableId.routing.addr 9 0, 0x9)]
theorem witness_DiscoveryRoutesAndReservations_hops : hop.sup.running = true ∧ hop.fab.addr = some 3 ∧
    hop.fab.addr ≠ some 9 ∧ hop.transit 1 8 = none ∧ hop.transit 1 9 = some 2 ∧ (hop.fport 2).st = .up ∧
    hop.admitted 2 + 32768 ≤ 8192 * (hop.fport 2).width ∧ hop.tc2max 255 = none ∧ hop.tc2max 0 = some 0 ∧
    ¬ hop.tenantSlots 2 0 + 1 ≤ 0 ∧ hop.pwr.st = .run ∧ hop.pwr.live = true ∧
    ((sessioned { talk with asked := true } []).freeRsv 0).session 0 = some { talk with asked := true } := by decide
/-- The instant from which an acknowledgement is late has come, and has not. -/
theorem witness_LanesAndFragments_late : (0 + (nsTo64 (2 * (linked busy).ldelay 2)).toNat + ackMargin ≤ 2 ^ 50) ∧
    ¬ 0 + (nsTo64 (2 * (linked busy).ldelay 2)).toNat + ackMargin ≤ (linked busy).tim.time ∧
    (linked busy).atMilestone = true ∧
    ({ linked busy with tim := { up.tim with ckr := 5 } } : State).atMilestone = false := by decide
theorem witness_PortsTrainAuthenticateAndRekey_owner :
    ((linked { st := .authenticating, hello := beBytes 0 48 }).fport 2).hello = beBytes (0 : BitVec 384).toNat 48 ∧
    ((linked { st := .authenticating }).fport 2).hello ≠ beBytes (0 : BitVec 384).toNat 48 := by decide
/-- A dropped session resumes: the peer is not locked out, or it is; and the session that resumes is there. -/
theorem witness_SessionsOpenAndResume_resume :
    (kget (sessioned { talk with st := .dropped } []).fab.refusals (peerKey 9 false) (0, 0)).2 = 0 ∧
    (kget (sessioned { talk with st := .dropped } [(9, (4, 7))]).fab.refusals (peerKey 9 false) (0, 0)).2 ≠ 0 ∧
    ((sessioned talk []).giveToken 0).session 0 = some talk ∧ (sessioned talk []).supWorks = true := by
  refine ⟨by decide, by decide, rfl, rfl⟩

/-! ### The lake -/

/-- Own sealed segment 4 with a claim, replicated or conflicting as asked, MAXAGE of one unit. -/
def stored (conf : Bool) : State := State.with { linked busy with
  tim := { up.tim with msCount := 65536 }
  lake := { up.lake with segs := [⟨4, 1, 255, true, 0, 0, true, 0, 100, conf,
    [⟨⟨5, 0, 0, 0, 0, 0, 0, 0, 0, 0, 0, []⟩, [0], []⟩], 0, 0, none⟩] } }
  [(ra .lak 0 0x040, 0x00010000)]
theorem witness_HoldersAreChosenAskedAndLost : ((stored false).lake.segs.find? fun x => x.num = 4).isSome = true ∧
    (stored false).fld (ra .lak 0 0x040) 16 16 = 1 ∧
    (((stored false).lake.segs.find? fun x => x.num = 4).any fun g => g.sealed && !g.conflicting && g.claims ≠ [] &&
      decide (g.sealMs + 65536 ≤ (stored false).tim.msCount)) = true ∧
    (stored false).pwr.live = true ∧ (stored false).pwr.st = .run ∧ (stored false).sup.running = true ∧
    (stored false).supWorks = true ∧ (stored false).awake = true ∧
    (stored false).lake.holders = [] ∧ (stored false).peerOf 2 = some 9 ∧ (stored false).lakForbids 9 = false ∧
    ((stored false).lake.segs.find? (fun x => decide (x.num = 4) && x.replicated && !x.conflicting)).isSome = true ∧
    2 ≤ ([(0, 9, 2), (1, 8, 3)] : List (Nat × Nat × Nat)).length ∧ (stored false).lake.choiceIn = 0 ∧
    ({ up with lake := { up.lake with choiceIn := 5, holders := [(0, 9, 2), (1, 8, 3)] } } : State).lake.choiceIn ≠ 0 ∧
    64 ≤ kget ([(0, 64)] : KMap Nat) 0 0 := by decide
/-- Issue 1 of segment 3 of device 77, and copies of it. -/
def seg3 : SegCopy := ⟨77, 3, 1, 0, true, 255, [], 9, 0, false, 0⟩
def copies (l : List Replica) : State :=
  { up with lake := { up.lake with replicas := l }, fab := { up.fab with map := [⟨lsa 77 4, 0⟩] } }
theorem witness_CopiesAreKeptResolvedAndReleased : (copies []).copiesOf 77 3 = [] ∧
    ((copies [⟨0, 77, 3, 1, 0, false, seg3⟩]).copiesOf 77 3).map (·.slot) = [0] ∧
    2 ≤ ((copies [⟨0, 77, 3, 1, 0, true, seg3⟩, ⟨1, 77, 3, 1, 9, true, seg3⟩]).copiesOf 77 3).length ∧
    (State.with (copies []) [(ra .lak 0 0x048, 16)]).freeReplica = some 48 ∧
    (State.with (copies []) [(ra .lak 0 0x048, 16)]).rfree ≠ 0 ∧ (copies []).freeReplica = none ∧
    (copies []).awake = true ∧ (copies []).lake.indexLost = false ∧ (⟨lsa 77 4, 0⟩ : MapEntry) ∈ (copies []).fab.map ∧ (lsa 77 4).addr = some 9 ∧
    up.lake.segs.find? (fun g => decide (g.slot = 1) && g.conflicting) = none ∧
    ((copies [⟨1, 77, 3, 1, 0, true, seg3⟩]).lake.replicas.find? (fun x => decide (x.slot = 1) && x.conflicting)).isSome =
      true ∧
    ((stored true).lake.segs.find? (fun x => decide (x.slot = 1) && x.conflicting)).isSome = true := by decide +kernel
theorem witness_CopiesAreKeptResolvedAndReleased_writes :
    (copies []).Passes own (ra .lak 0 0x0B8) (BitVec.ofNat 32 (1 + 0x10000)) false (copies []) ∧
    (stored true).Passes own (ra .lak 0 0x0B8) (BitVec.ofNat 32 (1 + 0x20000)) false (stored true) := ⟨pass, pass⟩
/-- A uid of the device's own, and one of another. -/
theorem witness_CopiesAreKeptResolvedAndReleased_uid : ∃ u : BitVec 64, u.toNat ≠ up.uid := by
  by_cases h : (1 : BitVec 64).toNat = up.uid
  · exact ⟨2, by rw [← h]; decide⟩
  · exact ⟨1, h⟩
/-- The capture ring in state `c`, with the lake's space. -/
def ring (c : CapSt) (l : List Capture) : State := { up with lake := { up.lake with capSt := c, captures := l,
                                                                                    building := l.head? } }
def cap : Capture := ⟨0, 0, 8, 0, [0], true, [], 0, [[]], 0, 8⟩
theorem witness_CapturesTriggerCopyAndRelease : (ring .armed []).Passes own (ra .lak 0 0x094) 1 false (ring .armed []) ∧
    (ring .armed [cap]).Passes own (ra .lak 0 0x094) 2 false (ring .armed [cap]) ∧
    (ring .armed []).lake.capSt = .armed ∧ (ring .post []).lake.capSt = .post ∧ up.lake.capSt = .idle ∧
    (ring .post []).pwr.clocked = true ∧ (ring .post []).freeCapture = some 0 ∧
    ((ring .post []).freeOwnerSlots 1).length = 1 ∧
    (ring .post ((List.range 8).map fun i => { cap with idx := i })).freeCapture = none ∧
    (ring .copying [cap]).lake.building = some cap ∧ ((ring .post []).freeOwnerSlots 100).length ≠ 100 ∧
    (ring .post []).postDone = true ∧
    ({ up with lake := { up.lake with capSt := .post, ringNow := 1 } } : State).postDone = false :=
  ⟨pass, pass, by decide⟩
/-- A capture of one part has a place; with every index taken it has none. -/
theorem witness_CapturesTriggerCopyAndRelease_slots :
    ((ring .post []).placeCapture cap).isSome = true ∧ ((ring .post []).freeOwnerSlots cap.parts.length).length = 1 ∧
    (ring .post ((List.range 8).map fun i => { cap with idx := i })).placeCapture cap = none ∧
    (ring .post []).awake = true := by decide
/-- Replay of milestones 1 to 2 of capture 0 on any pipeline to session 0. -/
def replaying : State := State.with { ring .armed [cap] with fab := { up.fab with sessions := [talk] } }
  [(ra .lak 0 0x0A0, 0xF8), (ra .lak 0 0x0A4, 1), (ra .lak 0 0x0A8, 2)]
theorem witness_ReplaysStartEndAndAbort :
    replaying.Passes own (ra .lak 0 0x0AC) 1 false replaying ∧ replaying.Passes own (ra .lak 0 0x0AC) 2 false replaying ∧
    replaying.lake.replay = none ∧ replaying.session 0 = some talk ∧ cap.spans 1 2 = true ∧ talk.st = .open_ ∧
    (replaying.lake.captures.find? fun c => c.idx = bits (replaying.reg (ra .lak 0 0x0A0)) 0 3) = some cap ∧
    bits (replaying.reg (ra .lak 0 0x0A0)) 3 5 = 31 ∧ bits (replaying.reg (ra .lak 0 0x0A0)) 8 11 = 0 ∧
    (replaying.replayPipe 31).isSome = true ∧ up.session 0 = none :=
  ⟨pass, pass, by decide⟩

/-! ### Glazes, boot and security -/

/-- Directory entry 3 names item 0 as glaze 5; `n` items. -/
def glazed (n : Word) (g : Glz) : State := State.with { up with glz := g }
  [(0x800030, 5), (0x800038, n), (0x801000, BitVec.ofNat 32 (portReg 0 0)),
    (0x801010, BitVec.ofNat 32 (ra .alm 0 0x040))]
theorem witness_GlazeCommandsLoadUnloadAndStore :
    (glazed 1 {}).Passes own (ra .glz 0 0x040) (BitVec.ofNat 32 (3 + 256)) false (glazed 1 {}) ∧
    (glazed 1 { busy := true }).glz.busy = true ∧ (glazed 1 {}).sup.running = true ∧
    ({ up with sup := { up.sup with running := false } } : State).sup.running = false ∧
    (glazed 1 {}).isLoaded 3 = false ∧ (glazed 0 {}).dirBad 3 = true ∧ (glazed 1 {}).dirBad 3 = false ∧
    (glazed 1 {}).badItem 3 = none ∧ (glazed 2 {}).dirBad 3 = false ∧ (glazed 2 {}).badItem 3 = some (1, 2) ∧
    (∀ e < 64, e ≠ 3 → (glazed 1 {}).isLoaded e = true → (glazed 1 {}).dirId e ≠ (glazed 1 {}).dirId 3) ∧
    (State.with (glazed 1 { loaded := 2 }) [(0x800010, 5)]).isLoaded 1 = true ∧
    (State.with (glazed 1 { loaded := 2 }) [(0x800010, 5)]).dirId 1 = (glazed 1 {}).dirId 3 ∧
    (glazed 1 { loaded := 8 }).isLoaded 3 = true ∧
    (glazed 1 {}).glz.nowId ≠ (glazed 1 {}).dirId 3 ∧ (glazed 1 { nowId := 5 }).glz.nowId = (glazed 1 {}).dirId 3 ∧
    (glazed 1 { busy := true }).glz.waitCmd = none ∧ (glazed 1 {}).pwr.st = .run := ⟨pass, by decide⟩
/-- A pending change with number 6, and a staged GO or recall of number 6 for milestone 16. -/
def changing (p : Option Change) : State := State.with { linked busy with
  glz := { up.glz with pend := p, last := p, recalls := [4] } } [(ra .glz 0 0x078, 6), (ra .glz 0 0x074, 16)]
def change6 : Change := ⟨0, 6, 16, 0, false, 0⟩
theorem witness_ModeChangesAreTakenRecalledAndAnswered :
    (changing none).Passes own (ra .glz 0 0x070) (BitVec.ofNat 32 (0 + 2 ^ 31)) false (changing none) ∧
    (changing none).Passes own (ra .glz 0 0x070) (BitVec.ofNat 32 (0x10000 + 2 ^ 31)) false (changing none) ∧
    (changing none).hasGlaze 0 = true ∧ (changing none).hasGlaze 1 = false ∧ (changing none).tim.ahead 16 = true ∧
    16 ≤ (changing none).tim.toGo 16 ∧ ¬ 16 ≤ (changing none).tim.toGo 15 ∧ (changing none).tim.verge = false ∧
    (changing (some change6)).glz.pend = some change6 ∧ change6.num = 6 ∧
    (changing none).pwr.live = true ∧ ((changing none).fport 2).carries = true ∧
    (changing (some change6)).newerChange 6 = false ∧ (changing (some change6)).newerChange 7 = true ∧
    (changing none).glz.recalls.contains 4 = true ∧ (changing none).glz.recalls.contains 7 = false ∧
    (changing none).glz.last = none ∧ (changing (some change6)).glz.last = some change6 := ⟨pass, pass, by decide⟩
/-- The security block while command `n` runs, with owners in flash and a chain of one owner in the buffer. -/
def secured (n owners : Nat) : State := State.with { up with sec := { up.sec with busy := n }
                                                             flash := { up.flash with nOwners := owners } }
  [(ra .sec 0 0x800, 0x00010000)]
theorem witness_SecurityCommandsRunAndEnd : (secured 0 0).Passes own (ra .sec 0 0x048) 2 false (secured 0 0) ∧
    (secured 0 0).sec.busy = 0 ∧ (secured 2 0).sec.busy ≠ 0 ∧ (secured 33 0).sec.busy % 16 = 1 ∧
    (secured 3 0).sec.busy % 16 = 3 ∧ (secured 4 1).sec.busy % 16 = 4 ∧
    (secured 3 0).chainResult ⟨true⟩ false = 4 ∧ (secured 4 0).chainResult ⟨true⟩ true = 2 ∧ (secured 3 0).pwr.st = .run ∧
    (secured 0 1).flash.nOwners ≠ 0 := ⟨pass, by decide⟩
/-- A device that has booted and waits for its base configuration, with image `b` in copy 1. -/
def booted (b : Option BaseImage) : State :=
  { up with pwr := { up.pwr with live := false }, flash := { up.flash with base1 := b } }
theorem witness_AColdStartBootsTheChosenRecordOrRecovers : State.reset.pwr.st = .run ∧ State.reset.pwr.booted = false ∧
    flashOk {} = true ∧ flashOk { density := 25 } = false ∧ State.reset.flash.choice = some false ∧
    recIntact State.reset.flash.brec0 true = true ∧ recIntact State.reset.flash.brec0 false = false ∧
    ({ State.reset.flash with brec0 := none, brec1 := none } : Flash).choice = none := by decide +kernel
theorem witness_TheBaseConfigurationIsWrittenValidatedAndCommitted :
    (booted none).tim.locked = true ∧ (booted none).pwr.booted = true ∧ (booted none).pwr.live = false ∧
    (booted none).pwr.st = .run ∧ (booted none).flash.base0 = none ∧
    (booted none).pwr.basePending = false ∧ (booted none).pwr.recovery = false ∧ (booted none).chooseBase {} = none ∧
    (booted (some ⟨1, [], 0, []⟩)).chooseBase {} = some (true, ⟨1, [], 0, []⟩) ∧ (booted none).acc.stage = [] := by
  decide +kernel

/-! ### Interrupts, power, the thermal unit, updates -/

/-- Source 2 as given, on target 0. -/
def sourced (x : Source) : State := { up with int := { up.int with sources := [(2, x)], timers := [(0, 0)] } }
def on2 (sense : Word) (st : SrcSt) (cond : Bool) : Source := { cfg := sense * 2 + 1, st := st, cond := cond }
theorem witness_SourcesClaimsAndInterruptFrames : sourceExists 2 = true ∧ isPulse 2 = false ∧ isPulse 768 = true ∧
    (∀ k : Fin 4, ((sourced (on2 (BitVec.ofNat 32 k.val) .pending false)).source 2).sense = k.val ∧
      ((sourced (on2 (BitVec.ofNat 32 k.val) .pending false)).source 2).en = true) ∧
    (State.with up [(ra .pwr 0 0x010, 0x200), (ra .pwr 0 0x014, 0x200)]).condOf 2 false = true ∧
    up.condOf 2 true = false ∧ up.inReset 4 = false ∧
    (sourced (on2 0 .active false)).activeOn 0 = [2] ∧ up.activeOn 0 = [] ∧
    (sourced (on2 0 .active false)).isFast 2 = false ∧
    ((sourced (on2 0 .activePending false)).source 2).st = .activePending ∧
    (∃ x ∈ (sourced {}).int.timers, x.1 = 0 ∧ x.2 ≤ (sourced {}).tim.time) ∧ up.int.timers = [] ∧
    ((linked busy).fport 2).carries = true := by decide
theorem witness_SourcesClaimsAndInterruptFrames_access :
    (sourced (on2 0 .active false)).Reads own (ra .intN 0 0x180) ∧
    (sourced (on2 0 .active false)).Reads own (ra .intF 0 0x040) ∧
    (sourced (on2 0 .active false)).Passes own (ra .intN 0 0x1C0) (BitVec.ofNat 32 2) false (sourced (on2 0 .active false)) ∧
    (sourced (on2 0 .active false)).Passes own (ra .intF 0 0x080) (BitVec.ofNat 32 2) false (sourced (on2 0 .active false)) ∧
    (sourced (on2 0 .active false)).tenantOf 0 = none :=
  ⟨reach, reach, pass, pass, by decide⟩
/-- Tenant 0 writes the page of the interrupt controller; source 2, active on target 0, is another tenant's. -/
def foreign : State := State.with (sourced { cfg := BitVec.ofNat 32 (1 + 7 * 256), st := .active })
  [(TableId.tenant.addr 0 0, 1), (TableId.tenant.addr 0 24, 0x3004), (ra .intN 0 0x080, 1)]
theorem witness_SourcesClaimsAndInterruptFrames_foreign :
    foreign.Passes ⟨0x0100, 0⟩ (ra .intN 0 0x1C0) (BitVec.ofNat 32 2) false foreign ∧
    foreign.tenantOf 0x0100 = some 0 ∧ (foreign.source 2).tenant ≠ 0 ∧ foreign.isFast 2 = false ∧
    (foreign.source 2).st = .active ∧ (foreign.source 2).target = 0 := by decide +kernel
/-- A power state, the sources that may wake from it, retention kept or lost. -/
def power (st : PwrSt) (waking ret : Bool) (off : Nat) : State :=
  State.with { up with pwr := { up.pwr with st := st, waking := waking, recRet := ret, offBy := off } }
    [(ra .pwr 0 0x048, 1)]
theorem witness_PowerRequestsAreStoredOrGoToOff :
    (∀ n ∈ [0, 1, 2, 3, 4], up.Passes own (ra .pwr 0 0x040) (BitVec.ofNat 32 n) false up) ∧
    (power .idle false false 0).Passes own (ra .pwr 0 0x040) (BitVec.ofNat 32 0) false
      ((power .idle false false 0).accept own) := by
  exact ⟨fun n _ => pass, by decide +kernel⟩
theorem witness_PowerFailsAndRailsWarn : up.pwr.st ≠ .off ∧ up.pwr.st ≠ .deepSleep ∧
    (power .off false false 0).pwr.st = .off ∧ (power .deepSleep false false 0).pwr.st = .deepSleep := by decide
theorem witness_WakesAndWaysOutOfOff :
    (power .off false false 0).pwr.st = .off ∧ (power .deepSleep false false 0).pwr.st = .deepSleep ∧
    Nat.land (1 : BitVec 7).toNat (power .sleep false false 0).wakeEnabled ≠ 0 ∧
    Nat.land (2 : BitVec 7).toNat (power .sleep false false 0).wakeEnabled = 0 ∧
    (power .deepSleep false true 0).pwr.recRet = true ∧ (power .deepSleep false false 0).pwr.recRet = false ∧
    Nat.land (1 : BitVec 7).toNat (power .deepSleep false true 0).wakeEnabled ≠ 0 ∧
    (power .deepSleep false false 0).tim.time < (power .deepSleep false false 0).pwr.entry + entrySpan ∧
    (power .sleep false false 0).pwr.waking = false ∧
    (power .sleep true false 0).pwr.waking = true ∧ (power .sleep true false 0).tim.locked = true ∧
    (∀ k : Fin 3, (power .off false false k.val).pwr.offBy = k.val) := by decide
/-- Enforcement in progress or about to begin, its end due, sensor 4 broken 1,024 milestones ago. -/
def hot (enf : Bool) : State := { up with
  tim := { up.tim with msCount := 1024 }
  thm := { up.thm with enforced := enf, begin_ := !enf, stepDue := enf, endDue := enf, brokenMs := [(4, 1)] } }
theorem witness_ThermalUnitActs : up.sensorBad 4 = false ∧ up.Passes own (ra .thm 0 0x04C) (BitVec.ofNat 32 0) false up ∧
    up.Passes own (ra .thm 0 0x048) 4 false up ∧
    (∃ k, k < 24 ∧ (3 : BitVec 24).getLsbD k = true ∧ up.sensorOut k = false ∧
      ((3 : BitVec 24).getLsbD (k / 2 * 2 + 1 - k % 2) = true ∨ up.sensorBad (k / 2 * 2 + 1 - k % 2) = true)) ∧
    (hot false).thm.begin_ = true ∧ (hot false).thm.enforced = false ∧ (hot true).thm.enforced = true ∧
    (hot true).thm.stepDue = true ∧ (hot true).thm.endDue = true ∧ (hot true).sensorBad 4 = true ∧
    (hot true).sensorOut 4 = false ∧ kget (hot true).thm.brokenMs 4 0 + 1024 ≤ (hot true).tim.msCount + 1 ∧
    (hot true).atMilestone = true ∧ ({ up with tim := { up.tim with ckr := 5 } } : State).atMilestone = false ∧
    up.mayTrip = true ∧ (power .off false false 0).mayTrip = true ∧
    (State.with up [(ra .thm 0 0x080, 1)]).fld (ra .thm 0 (0x080 + 4 * 0)) 0 2 ≠ 0 ∧ up.pwr.clocked = true :=
  ⟨by decide, pass, pass, ⟨0, by decide⟩, by decide⟩
/-- The update unit in state `st`, held by the owner, with command `b` running. -/
def updating (st : UpdSt) (b : Nat) : State := State.with { up with
  upd := { up.upd with st := st, busy := b, holder := some 0 }
  sup := { up.sup with running := false } } [(ra .upd 0 0x048, 2048)]
theorem witness_DownloadsFollowTheirHolder :
    (∀ n ∈ [1, 2, 3, 4, 7, 20], (up.accept own).gate 0 (ra .upd 0 0x040) (BitVec.ofNat 32 n) false = .act up allOnes) ∧
    (updating .downloading 0).upd.busy = 0 ∧ (updating .downloading 0).upd.holder = some 0 ∧
    (updating .downloading 0).fld (ra .upd 0 0x044) 0 25 % 2048 = 0 ∧
    (updating .downloading 0).fld (ra .upd 0 0x048) 0 12 = 2048 ∧
    (∀ p ∈ ((updating .downloading 0).flash.slot (!(updating .downloading 0).activeSlot)).blocks, p.1 ≠ 0) ∧
    (updating .verified 0).upd.st = .verified ∧ (updating .verified 0).pwr.recovery = false ∧
    (updating .trial 0).upd.st = .trial ∧ (updating .verifying 3).upd.busy ≠ 0 ∧
    ((updating .downloading 0).accept own).gate 0 (ra .upd 0 0x040) 2 false = .act (updating .downloading 0) allOnes :=
  ⟨fun n _ => pass, by decide, by decide, by decide, by decide, by decide, by decide, by decide, by decide,
    by decide, pass⟩
theorem witness_TrialsEndsAndRollbacks : (updating .trial 0).upd.st = .trial ∧ (updating .trial 0).upd.msLeft = 0 ∧
    (updating .trial 0).bootRec = some ⟨0, false, false, 0, false, false, 0⟩ ∧ (updating .idle 0).upd.st ≠ .trial ∧
    (updating .idle 0).pwr.recovery = false ∧ State.reset.flash.brec true = some ⟨0, false, false, 0, false, false, 0⟩ ∧
    (∀ k : Fin 5, (updating .idle k.val).upd.busy = k.val) ∧ (updating .idle 0).awake = true ∧
    ({ updating .idle 4 with flash := { up.flash with brec0 := none } } : State).bootRec = none ∧
    ({ updating .activating 0 with upd := { up.upd with rollback := true } } : State).upd.rollback = true ∧
    (updating .activating 0).sup.running = false ∧ (updating .activating 0).sup.startDue = false ∧
    (updating .activating 0).upd.rollback = false ∧ (updating .idle 4).upd.cold = false := by decide
/-- The recovery loader runs. -/
def recovering : State := { up with pwr := { up.pwr with recovery := true } }
theorem witness_TrialsEndsAndRollbacks_writes :
    (updating .trial 0).Passes own (ra .upd 0 0x040) (BitVec.ofNat 32 5) false (updating .trial 0) ∧
    (updating .trial 0).Passes own (ra .upd 0 0x040) (BitVec.ofNat 32 6) false (updating .trial 0) ∧
    recovering.pwr.recovery = true ∧ recovering.upd.holder = none ∧
    recovering.flash.brec false = some ⟨0, false, false, 0, false, false, 0⟩ ∧ recovering.flash.slotA.marker = .verified ∧
    ({ recovering with flash := { up.flash with brec0 := none, brec1 := none } } : State).flash.brec false = none ∧
    (recovering.accept own).gate 0 (ra .upd 0 0x040) (BitVec.ofNat 32 8) false = .act recovering allOnes :=
  ⟨pass, pass, rfl, rfl, rfl, rfl, rfl, by decide⟩

/-! ### Milestones, impedance, banks -/

theorem witness_MilestonesTakeTheirStepsInOrder : up.tim.locked = true ∧ up.pwr.counts = true ∧ up.pwr.clocked = true ∧
    up.pwr.live = true ∧ State.reset.tim.locked = false ∧ up.spe.flight = [] ∧ up.warmNow = false ∧
    ({ up with acc := { up.acc with warmDue := some 0 } } : State).warmNow = true ∧
    ({ up with pwr := { up.pwr with live := false } } : State).pwr.basePending = false := by decide
/-- Impedance engine 0 visiting slot 3 at EC port 1 with a high tone, two periods of settling and four of averaging. -/
def imped (e : ImpEngine) (cfg : Word) : State := State.with { up with imps := [(0, e)] }
  [(ra .imp 0 0x040, cfg), (ra .imp 0 0x0CC, 0x8001)]
def impCfg : Word := BitVec.ofNat 32 (1 + 3 * 64 + 2 * 512 + 4 * 8192)
theorem witness_ImpedanceEnginesVisitTheirSlots :
    (imped { active := true, slot := 3, ch := 1 } impCfg).tim.time < (imped { active := true, slot := 3, ch := 1 } impCfg).impEnd 0 ∧
    (imped {} 0).impEnd 0 ≤ (imped {} 0).tim.time ∧
    (imped { active := true } 0).impNext 0 ≠ none ∧
    (State.with up [(ra .imp 0 0x040, 0)]).impNext 0 = none ∧
    (State.with up [(ra .imp 0 0x040, 0)]).impEnd 0 ≤ (State.with up [(ra .imp 0 0x040, 0)]).tim.time ∧
    (imped { active := true, per := 1 } impCfg).fld (ra .imp 0 0x040) 9 4 = 2 ∧
    (imped { active := true, per := 1 } impCfg).impPeriods 0 = 6 ∧
    (imped { active := true, slot := 3, per := 2 } impCfg).impStreams 0 3 = [] ∧
    ((imped { active := true, slot := 3, per := 2 } impCfg).lockResult 0 {}).isNone = true ∧
    0 + (1 + 1) * (imped {} impCfg).impPeriod 0 ≤ 2 * 2 ^ 64 ∧
    chanKind ((imped { active := true, slot := 3, ch := 1 } impCfg).impChan 0) = .ec ∧
    chanKind ((imped { active := true, slot := 3, ch := 256 } impCfg).impChan 0) ≠ .ec ∧
    (imped { active := true, per := 6 } impCfg).fld (ra .imp 0 0x040) 13 8 ≤ 2 * 2 ∧
    2 * 1 < (imped { active := true, per := 6 } impCfg).fld (ra .imp 0 0x040) 13 8 ∧
    (imped {} impCfg).nextSlot 0 3 = some 3 ∧ up.nextSlot 0 3 = none ∧
    (imped {} impCfg).fld (ra .imp 0 0x040) 6 3 = 3 := by
  decide
theorem witness_ImpedanceEnginesVisitTheirSlots_writes :
    up.Passes own (ra .imp 0 0x044) (BitVec.ofNat 32 (3 + 256)) false up ∧ up.Passes own (ra .imp 0 0x044) 512 false up :=
  ⟨pass, pass⟩
/-- Bank 2 as given, with registers. -/
def banked (x : Bank) (l : List (Nat × Word)) : State := State.with { up with banks := [(2, x)] } l
theorem witness_SlicesFaultAndSparesShadow : up.slicePowered 2 3 = true ∧ up.slicePowered 2 16 = false ∧
    (banked { spare := .shadowing } []).slicePowered 2 16 = true ∧
    (banked { spare := .inUse } []).slicePowered 2 16 = true ∧
    64 ≤ kget ((banked { endStop := [(3 * 3 + TrimK.ofs.num, 64)] } []).bank 2).endStop (3 * 3 + TrimK.ofs.num) 0 ∧
    (up.bank 2).endStop = [] ∧
    up.flag (ra .bank 2 (0x080 + 4 * 3)) 2 = false ∧
    ((banked { spare := .shadowing, shadowOk := 16 } []).bank 2).spare = .shadowing ∧
    16 ≤ ((banked { spare := .shadowing, shadowOk := 16 } []).bank 2).shadowOk ∧
    16384 ≤ ((banked { spare := .shadowing, shadowMs := 16384 } []).bank 2).shadowMs ∧
    ((banked { spare := .shadowing, shadowMs := 16384 } []).bank 2).shadowOk < 16 := by decide
theorem witness_SlicesFaultAndSparesShadow_writes :
    up.Passes own (ra .bank 2 0x048) (BitVec.ofNat 32 (3 + 16)) false up ∧
    up.Passes own (ra .bank 2 0x048) 0x20 false up :=
  ⟨pass, pass⟩
/-- Channel 7 in the masks of banks 2 and 3, each the other's partner. -/
def checked (c : Check) : State := State.with { up with checks := [(7, c)] }
  [(ra .bank 2 0x040, 0x04000030), (ra .bank 3 0x040, 0x04000020), (ra .scan 2 0x040, 0x80), (ra .scan 3 0x040, 0x80)]
theorem witness_PairsAndChecksFaultAndRecover : ((banked { role := 1 } []).bank 2).role = 1 ∧
    (banked { role := 1, pairFails := 1 } [(ra .bank 2 0x04C, 0x00110000)]).flag (ra .bank 2 0x04C) 20 = true ∧
    (banked { role := 1, pairFails := 1 } [(ra .bank 2 0x04C, 0x00110000)]).fld (ra .bank 2 0x04C) 16 4 ≤ 1 ∧
    ((banked { role := 1, pairFault := true, pairPasses := 16 } []).bank 2).pairFault = true ∧
    16 ≤ ((banked { role := 1, pairFault := true, pairPasses := 16 } []).bank 2).pairPasses ∧
    (checked {}).checkers 7 = [2, 3] ∧ (checked {}).fld (ra .bank 2 0x040) 24 4 ≤ 4 ∧
    ((checked { bad := 4 }).check 7).fault = false ∧ ((checked { fault := true, good := 16 }).check 7).fault = true ∧
    ((checked { bad := 3 }).check 7).bad < (checked {}).fld (ra .bank 2 0x040) 24 4 := by decide
/-- The request of an ordinary, an urgent and an urgent any-slice spot of channel 9 on slice 3. -/
def spotWord (more : Nat) : Word := BitVec.ofNat 32 ((9 : BitVec 9).toNat + (3 : BitVec 4).toNat * 512 + more + 2 ^ 31)
theorem witness_SpotsWaitForGapsAndAnswer : up.Passes own (ra .bank 2 0x060) (spotWord 0) false up ∧
    up.Passes own (ra .bank 2 0x060) (spotWord (8192 + 16384)) false up ∧
    up.Passes own (ra .bank 2 0x060) (BitVec.ofNat 32 (2 ^ 30)) false up ∧ (up.bank 2).spot.pending = false ∧
    up.spotRefused 2 9 = false ∧ (checked {}).spotRefused 2 7 = true ∧ up.sliceIdle 2 3 = true ∧ up.anyIdle 2 = some 0 ∧
    (({ up with
        scans := [(2, { running := true, sweepEnd := 2 ^ 60, channels := [1, 2, 3, 4, 5] })] } : State).sliceIdle 2 3) =
      false ∧
    (State.with up [(ra .bank 2 0x040, 2)]).spotRefused 2 9 = true ∧
    up.firstGap 2 = some 0 ∧ up.gapRuns 2 3 = false ∧
    16 ≤ ((banked { spot := { ch := 9, pending := true, waited := 16 } } []).bank 2).spot.waited ∧
    ((banked { spot := { ch := 9, pending := true, started := true } } []).bank 2).spot.started = true :=
  ⟨pass, pass, pass, by decide⟩

/-- The visit of a spot is over at fabric time 7, and is not. -/
theorem witness_SpotsWaitForGapsAndAnswer_over :
    ((banked { spot := { ch := 9, pending := true, started := true, stop := 0 } } []).bank 2).spot.stop ≤
      (banked { spot := { ch := 9, pending := true, started := true, stop := 0 } } []).tim.time ∧
    (banked { spot := { ch := 9, pending := true, started := true, stop := 7 } } []).tim.time <
      ((banked { spot := { ch := 9, pending := true, started := true, stop := 7 } } []).bank 2).spot.stop := by decide

/-! ### Sweeps, calibration, the stream processor -/

/-- Bank 2 sweeping channels 0 to 39 every 2^-14 s, with the scan sequencer as given; channel 5 holds a window. -/
def sweeping (x : Scan) (gate : Word) : State := State.with
  { up with
    scans := [(2, x)]
    ports := [(5, { on := true, held := some { value := 1, start := 0, stop := 9, index := 0, marker := 0, markByte := 0,
                                               excited := false, neg := false } })] }
  [(ra .scan 2 0x040, 0xFFFFFFFF), (ra .scan 2 0x044, 0xFF), (ra .scan 2 0x084, 14), (ra .scan 2 0x088, gate),
   (portReg 5 0, 1)]
def sweep2 : Scan :=
  { running := true, sweepEnd := 195 * cks, channels := List.range 40, visitLen := 65, gate := 0x00040000 }
theorem witness_SweepsRunAndVisitTheirChannels : (sweeping {} 0).sweeps 2 = true ∧ (sweeping {} 0).maskOf 2 ≠ [] ∧
    (sweeping {} 0).sweepAt 2 0 ≤ (sweeping {} 0).tim.time ∧
    (((sweeping {} 0).tim.time : Nat) : Int) < (sweeping {} 0).sweepAt 2 0 + ((sweeping {} 0).sweepPeriod 2 : Int) ∧
    ((sweeping {} 0).scan 2).running = false ∧ ((sweeping {} 0).scan 2).lastQ ≠ some 0 ∧
    ((sweeping {} 0).scan 2).from_ ≤ (sweeping {} 0).sweepAt 2 0 ∧ (sweeping {} 0).gateOpen 2 0 = true ∧
    (sweeping {} 0xC0).gateOpen 2 0 = false ∧ (sweeping {} 0).pwr.st ≠ .sleep ∧ ((0 : Int) % 256 = 0) ∧
    ((sweeping { gated := true } 0xC0).scan 2).gated = true ∧
    bits ((sweeping { gated := true } 0xC0).sgate 2) 20 12 * 256 ≤ 0 ∧
    ((sweeping { sweep2 with sweepEnd := 0 } 0).scan 2).sweepEnd ≤ (sweeping sweep2 0).tim.time ∧
    ((sweeping sweep2 0).elapse 0).sweeps 2 = true ∧ (sweep2.channels.idxOf? 5) = some 5 ∧ 40 ∉ sweep2.channels ∧
    ((sweeping sweep2 0).elapse 0).partnerOf 2 5 = none ∧ (((sweeping sweep2 0).elapse 0).port 5).held.isSome = true ∧
    ((sweeping sweep2 0).elapse 0).holds 5 = true ∧ isForced 5 = false ∧ ((sweeping sweep2 0).bank 2).sc ≠ 2 ∧
    ((sweeping sweep2 0).elapse 0).visitStart 2 5 ≤ ((sweeping sweep2 0).elapse 0).tim.time ∧ 5 ∉ sweep2.visited ∧
    ((sweeping sweep2 0).elapse 0).visitStart 2 5 + cks * 65 - 9 ≤ us 100 := by decide
/-- Bank 2 in a state of calibration. -/
def calibrating (x : Bank) : State := banked x []
theorem witness_CalibrationCommandsAndEstimators :
    (∀ op ∈ [1, 2, 3, 4, 5], (up.accept own).gate 0 (ra .cal7 7 0x040) (calWord 4 op) false = .act up allOnes) ∧
    maskBanks (4 : BitVec 24).toNat = [2] ∧ maskBanks (0 : BitVec 24).toNat = [] ∧ (up.bank 2).sc = 0 ∧
    ((calibrating { sc := 2, scMs := 1024 }).bank 2).sc = 2 ∧
    (calibrating { sc := 3 }).selfCalOver 2 = true ∧ (calibrating { sc := 3 }).atMilestone = true ∧
    (calibrating { sc := 2, scMs := 1023 }).selfCalOver 2 = false ∧ (up.bank 2).parkedTherm = false ∧ up.pool 2 ≠ 1 ∧
    (up.bank 2).saved = false ∧ ((calibrating { saved := true }).bank 2).saved = true ∧ up.tim.msCount < 0 + 2 ^ 22 ∧
    ({ up with tim := { up.tim with msCount := 2 ^ 22 } } : State).cal.slopeMs + 2 ^ 22 ≤ 2 ^ 22 ∧
    up.cal.slopes.length < 16 ∧ (∀ n, n = 15 → (List.replicate n (0 : Int)).length + 1 = 16) ∧
    up.modeNow 2 = 0 ∧ up.converts 2 = true ∧ up.gapSlice 2 3 = true ∧ up.sliceIdle 2 (up.positionOf 2 3) = true ∧
    (up.bank 2).spot.pending = false ∧ kget up.cal.gapOn (2 * 17 + 3) none = none := by
  refine ⟨fun op _ => pass, by decide, by decide, by decide, by decide, by decide, by decide, by decide, by decide,
    by decide, by decide, by decide, by decide, by decide, by decide,
    ?_, by decide⟩
  intro n h; rw [h]; decide
theorem witness_CalibrationCommandsAndEstimators_fails :
    let bad : Trim := { est := .tracking, bad := 16, idle := false }
    let good : Trim := { est := .tracking, good := 16, idle := false }
    let s : State := { up with cal := { up.cal with slices := [(2 * 17 + 3, { ofs := bad, gain := good, dly := good })] } }
    ((s.sliceCal 2 3).trim .ofs).est ≠ .failed ∧ 16 ≤ ((s.sliceCal 2 3).trim .ofs).bad ∧
      16 ≤ ((s.sliceCal 2 3).trim .gain).good := by decide
/-- Fast port 2 placed on four slices of bank 8. -/
def placed : State := { up with places := [(2, { bank := 8, first := 4, size := 3, served := true })] }
theorem witness_CodesArriveAndIntervalsClose : up.spe.flight = [] ∧ (up.place 2).size = 0 ∧ (placed.place 2).size ≠ 0 ∧
    placed.fastSource 386 = true ∧ placed.running = true ∧ placed.inPeriod 0 = true ∧
    up.intervalDue 40 = false ∧ ({ up.spe with badEst := 1024 } : Spe).badEst = 1024 ∧ up.spe.lost = false ∧
    up.spe.badEst < 1024 ∧ up.substNow.spe.flight = [] ∧ (placed.substNow.place 2).size ≠ 0 ∧
    placed.substNow.fastSource 386 = true ∧ placed.substNow.running = true ∧ up.substNow.intervalDue 40 = false := by
  decide +kernel

/-! ### Results worked out by hand or given by the examples of the spec -/

/-- The heater program of chapter 04's example: SYNC, MARK 1, TSET 300 °C for 250 ms, LOOP to word 97 20 times. -/
theorem test_example_program_words : [0xA0000000, 0x50010000, 0x3960C040, 0x90610014].map
    (fun w => (opOf w, argOf w, durOf w * 16 ^ unitOf w)) =
      [(10, 0, 0), (5, 1, 0), (3, 2400, 262144), (9, 97, 20)] := by decide
/-- The state after a command. -/
def go (c : Instr) (s : State) : State :=
  match exec c s with
  | .next t => t
  | _ => State.reset
theorem test_example_loop : ((go (.loop 5) (heated 0x90610014 between)).engine 5).pc = 97 ∧
    ((go (.loop 5) (heated 0x90610014 between)).engine 5).loop0 = 19 ∧
    ((go (.loop 5) (heated 0x90610014 { between with loop0 := 1 })).engine 5).pc = 1 := by decide
theorem test_example_tset : ((go (.tset 5) (heated 0x3960C040 between)).engine 5).setpoint = 2400 ∧
    ((go (.tset 5) (heated 0x3960C040 between)).engine 5).segLen = 2 ^ 18 := by decide
/-- Chapter 06's example: with 68 channels slices 0 to 3 make five visits, 4 to 15 four. -/
theorem test_example_visits : visitsOf 68 0 = 5 ∧ visitsOf 68 3 = 5 ∧ visitsOf 68 4 = 4 ∧ visitsOf 68 15 = 4 := by decide
/-- Chapter 05's example: of 40 channels slice 8's gap begins at CKS 130, slice 0's at 195, and slice 8 is chosen. -/
theorem test_example_gap : (sweeping sweep2 0).gapStart 2 8 = 130 * cks ∧ (sweeping sweep2 0).gapStart 2 0 = 195 * cks ∧
    ({ sweeping sweep2 0 with tim := { up.tim with time := 195 * cks } } : State).firstGap 2 = some 8 := by decide
/-- Chapter 14's example: the sweep register of scan page 1. Chapter 13's: EC44 is port 12 of the page at 0x0001_2000. -/
theorem test_example_addresses : ra .scan 1 0x084 = 0x05A084 ∧ portReg 44 0 / 0x1000 = 0x012 ∧
    portReg 44 0 % 0x1000 = 0x100 := by
  decide
/-- Chapter 11's example: a record of 64 values is 24 + 256 bytes. -/
theorem test_example_record (l : List Int) (h : l.length = 64) :
    (⟨40, 0, 0, 0, 0, 0, 0, 0, 0, 0, 0, l⟩ : Record).bytes = 280 := by simp [Record.bytes, h]
/-- Chapter 09's example: DUNIT = 10 and DSET = 32 give 500 ms. -/
theorem test_example_dwell : dwell (BitVec.ofNat 32 (10 * 2 ^ 4 + 32 * 2 ^ 8)) true = 2 ^ 31 := by decide
/-- Chapter 02's example: the verge starts at cycle 2,080,768. -/
theorem test_example_verge : ({ up.tim with time := 2080767 * up.tim.perCycle } : Tim).verge = false ∧
    ({ up.tim with time := 2080768 * up.tim.perCycle } : Tim).verge = true := by decide
/-- VMAX = 1,000 codes cuts a VSET of 4,095. -/
theorem test_vset_is_cut : ((go (.vset 5) (State.with (heated 0x1FFF0001 between) [(engReg 5 4, 1000)])).engine 5).drive = 1000 := by
  decide
theorem test_flags_wait_for_the_tick : (go .heaterTick (go (.seqFset own false 8) up)).seq.flags = 0 ∧
    (go .heaterTick { go .heaterTick { go (.seqFset own false 8) up with tim := { up.tim with time := 2 ^ 44 } } with
      tim := { up.tim with time := 2 ^ 45 } }).seq.flags = 8 := by decide
theorem test_narrow_write : (go (.registerWrite own 0x001048 1 2) up).reg 0x001048 = up.reg 0x001048 ∧
    (go (.registerWrite own 0x001048 1 2) up).flag (ra .sys 0 0x010) 8 = true := by decide
theorem test_wide_write_is_two : (go (.registerWrite own 0x003068 0x0000000A00400000 8) up).reg 0x003068 = 0x00400000 := by
  decide
theorem test_lock_is_broken : (go (.lockUnlockDiscard own 8) (held 1 5)).lockOf 8 = none ∧
    (go (.lockUnlockDiscard own 8) (held 1 5)).flag (8 * 0x1000 + 0x010) 0 = true := by decide
theorem test_d2d_retry_counts : (go .d2dRetry (go .d2dRetry up)).reg (ra .sys 0 0x04C) = 2 := by decide
theorem test_third_restart_is_a_cold_reset :
    (go .supervisorWatchdog { up with sup := { up.sup with missed := 64, restarts := [0, 0] } }).pwr.live = false ∧
    (go .supervisorWatchdog { up with tim := { up.tim with msCount := 1024 },
                                      sup := { up.sup with missed := 64, restarts := [0, 0] } }).pwr.live = true := by
  decide
theorem test_lane_loss_halves : ((go (.laneLoss 2 3) (linked busy)).fport 2).width = 2 ∧
    ((go (.laneLoss 2 3) (linked busy)).fport 2).lanes = 7 := by decide
theorem test_session_number : (sessioned talk []).freeSession = some 1 ∧ up.freeSession = some 0 := by
  decide +kernel
theorem test_claim_and_eoi : (go (.intClaim own 0) (sourced (on2 0 .active false))).acc.answer = .data 0x80000002 ∧
    ((go (.intEoi own 0 2) (sourced (on2 0 .active false))).source 2).st = .inactive := by decide
theorem test_wake_is_recorded : (go (.wakeEvent 1) (power .sleep false false 0)).pwr.waking = true ∧
    (go (.wakeEvent 1) (power .sleep false false 0)).reg (ra .pwr 0 0x04C) = 0x1001 := by decide
theorem test_hot_sensor_ends_in_off : (go (.brokenSensorShutdown 4) (hot true)).pwr.st = .off ∧
    bits ((go (.brokenSensorShutdown 4) (hot true)).reg (ra .thm 0 0x054)) 2 5 = 4 := by decide +kernel
theorem test_update_write : ((go (.updWrite own) (updating .downloading 0)).flash.slot true).blocks.map
    (fun p => (p.1, p.2.length)) = [(0, 2048)] := by decide +kernel
theorem test_impedance_period_counts : ((go (.impPeriodEnd 0) { imped { active := true, per := 1 } impCfg with
    tim := { up.tim with time := 2 ^ 66 } }).imp 0).per = 2 := by decide
theorem test_metastable_asks_for_the_spare :
    ((go (.metastable 2 3 17) (banked {} [(ra .bank 2 0x040, 4)])).bank 2).shadowReqs.map (·.1) = [3] ∧
    ((go (.metastable 2 3 16) (banked {} [(ra .bank 2 0x040, 4)])).bank 2).hard = [] := by decide
theorem test_check_fault_is_counted : (go (.checkFault 7) (checked { bad := 4 })).fld (ra .bank 3 0x078) 16 9 = 1 := by
  decide
theorem test_spot_is_started : ((go (.spotRequest own 2 9 3 true true) up).bank 2).spot.started = true ∧
    ((go (.spotRequest own 2 9 3 true true) up).bank 2).spot.slice = 0 := by decide
theorem test_sweep_starts_once : ((go (.sweepStart 2 0) (sweeping {} 0)).scan 2).running = true ∧
    ((go (.sweepStart 2 0) (sweeping { lastQ := some 0 } 0)).scan 2).running = false := by decide
theorem test_visit_reaches_the_link : ((go (.visit 2 5 0 (List.replicate 32 1)) (sweeping sweep2 0)).spe.flight.map
    fun f => (f.ch, f.codes.sum)) = [(5, 32)] := by decide
theorem test_slope_waits : (go (.slopeComparison 7) up).cal.slopes = [] := by decide
theorem test_visit_is_made_once : (go (.visit 2 5 0 (List.replicate 32 1)) (go (.visit 2 5 0 (List.replicate 32 1))
    (sweeping sweep2 0))).spe.flight.length = 1 := by decide
theorem test_trims_count_apart :
    (go (.trimEnd 2 3) (banked { endStop := [(9, 40), (10, 24)] } [])).flag (ra .bank 2 0x010) 8 = false ∧
    (go (.trimEnd 2 3) (banked { endStop := [(9, 40), (10, 64)] } [])).flag (ra .bank 2 0x010) 8 = true := by decide
theorem test_wake_leaves_off : (go .wakeFromOff (power .off false false 1)).reg (ra .pwr 0 0x04C) = 0x2102 ∧
    (go .wakeFromOff (power .off false false 1)).pwr.recCause = 6 := by decide +kernel
theorem test_reset_pin_does_not_leave_off : (go (.coldReset .resetN) (power .off false false 1)).pwr.st = .off := by
  decide
theorem test_foreign_eoi : (go (.intEoi ⟨0x0100, 0⟩ 0 2) foreign).flag (ra .intN 0 0x010) 8 = false ∧
    (go (.intEoi ⟨0x0100, 0⟩ 0 3) foreign).flag (ra .intN 0 0x010) 8 = true := by decide +kernel
theorem test_record_written_in_off :
    bits ((go (.thermalShutdown none 0 1280) (State.with (power .off false false 0) [(ra .thm 0 0x080, 1)])).reg
      (ra .thm 0 0x054)) 0 2 = 1 := by decide +kernel

end Sys2Proof.Tests
end

section
/-! SUPPORT. Proofs of the statements of chapter 01: the die-to-die link and the supervisor, what resets clear, and the
order of a milestone's steps. -/

namespace Sys2Proof.Machine
open Sys2Proof

/-! ### Saturating counters -/

/-- A saturating counter holds the lesser of its top and the count. -/
theorem satU_eq_min (width v : Nat) : satU width v = min (2 ^ width - 1) v := by
  have := Nat.one_le_two_pow (n := width)
  unfold satU
  split <;> omega

/-! ### The die-to-die link (R11, R12) -/

theorem exec_d2dRetry_locked {s : State} (h : s.tim.locked = true) :
    exec .d2dRetry s = .next ((s.countSat (ra .sys 0 0x04C) 1).stick .sys 0 10) :=
  congrArg Host.Outcome.next (if_pos h)

theorem exec_d2dFail_locked {s : State} (banks : BitVec 24) (h : s.tim.locked = true) :
    exec (.d2dFail banks) s = .next
      (({ s with sup := { s.sup with linkBad := s.sup.linkBad ||| banks } }.ringAdd
        (.links (s.sup.linkBad ||| banks))).stick .sys 0 11) :=
  congrArg Host.Outcome.next (if_pos h)

/-! ### The supervisor's watchdog and its resumption (R21, R379, R424) -/

/-- What the watchdog notes of a restart of the supervisor alone, before the boot record is chosen: `recent` are the
restarts that still count. -/
def State.noteRestart (s : State) (recent : List Nat) : State :=
  { (s.countWrap (ra .sys 0 0x048) 0 16 1).stick .sys 0 12 with
    sup := { s.sup with
      running := false, startDue := true, missed := 0, restarts := recent ++ [s.tim.msCount] } }

theorem watchdogRestart_eq (s : State) (recent : List Nat) :
    ({ s with sup := { s.sup with restarts := recent } } : State).watchdogRestart =
      (s.noteRestart recent).startImage State.rollbackReset := rfl

/-- The restarts that count: those of the last 1,024 milestones. -/
def State.recentRestarts (s : State) : List Nat := s.sup.restarts.filter fun n => decide (s.tim.msCount < n + 1024)

theorem exec_supervisorWatchdog_missed {s : State} (hrun : s.sup.running = true) (hmiss : 64 ≤ s.sup.missed) :
    exec .supervisorWatchdog s = .next (if 2 ≤ s.recentRestarts.length then s.coldReset 4
      else (s.noteRestart s.recentRestarts).startImage State.rollbackReset) := by
  have hacts : ¬((!s.sup.running) = true ∨ s.sup.missed < 64) := by simp [hrun, hmiss]
  rw [← watchdogRestart_eq]
  exact congrArg Host.Outcome.next (if_neg hacts)

theorem startImage_of_no_record {s : State} (next : State → State) (h : s.chooseRec.bootRec = none) :
    s.startImage next = s.chooseRec := by
  simp [State.startImage, h]

theorem startImage_of_record {s : State} {r : BootRec} (next : State → State) (h : s.chooseRec.bootRec = some r) :
    s.startImage next =
      if r.trial = true ∧ 3 ≤ r.starts then next s.chooseRec.countStart else s.chooseRec.countStart := by
  simp [State.startImage, h]

/-- A supervisor that is due to start runs again. -/
def State.supStarts (s : State) : State :=
  { s with sup := { s.sup with running := true, startDue := false, atMs := false, missed := 0 } }

theorem exec_supervisorResume_due {s : State} (hdue : s.sup.startDue = true)
    (hms : s.sup.atMs = true → s.atMilestone = true) :
    exec .supervisorResume s = .next s.supStarts.runWaiting.glzResume := by
  have hacts : (s.sup.startDue && (!s.sup.atMs || s.atMilestone)) = true := by
    cases hat : s.sup.atMs with
    | false => simp [hdue]
    | true => simp [hdue, hms hat]
  exact congrArg Host.Outcome.next (if_pos hacts)

/-- Settles O14: each command's arm under its hypotheses, a restart split by whether a boot record is found. -/
theorem supervisorAndLinkEvents : Obligations.SupervisorAndLinkEvents := by
  unfold Obligations.SupervisorAndLinkEvents
  refine ⟨fun s h => ?_, fun s banks h => exec_d2dFail_locked banks h, fun s => rfl, fun s hrun hmiss => ?_,
    fun s hdue hms => exec_supervisorResume_due hdue hms⟩
  · rw [exec_d2dRetry_locked h, State.countSat, satU_eq_min]
  · rw [exec_supervisorWatchdog_missed hrun hmiss]
    refine ⟨fun hthird => congrArg Host.Outcome.next (if_pos hthird), fun hfew => congrArg Host.Outcome.next ?_⟩
    refine (if_neg (Nat.not_le.mpr hfew)).trans ?_
    split
    case h_1 hrec => exact startImage_of_no_record _ hrec
    case h_2 r hrec => exact startImage_of_record _ hrec

/-! ### Resets (R18, R360, R388) -/

/-- A selection by key keeps the values of the keys it keeps, and any other key reads as unlisted. -/
theorem kget_filter_key {α : Type} (keep : Nat → Bool) (m : KMap α) (k : Nat) (d : α) :
    kget (m.filter fun p => keep p.1) k d = if keep k then kget m k d else d := by
  induction m with
  | nil => simp [kget]
  | cons p t ih =>
    obtain ⟨k', v⟩ := p
    by_cases hk : k = k'
    · subst hk
      cases hkeep : keep k <;> simp [kget, hkeep, ih]
    · cases hkeep : keep k' <;> simp [kget, hkeep, hk, ih]

theorem reg_coldReset (s : State) (cause a : Nat) :
    (s.coldReset cause).reg a = if aonRegs.contains a then s.reg a else regReset a :=
  kget_filter_key aonRegs.contains s.regs a (regReset a)

theorem exec_coldReset_off {s : State} (c : ColdCause) (h : s.pwr.st = .off) : exec (.coldReset c) s = .next s :=
  congrArg Host.Outcome.next (if_pos h)

theorem exec_coldReset_on {s : State} (c : ColdCause) (h : s.pwr.st ≠ .off) :
    exec (.coldReset c) s = .next (s.coldReset (coldCode c)) :=
  congrArg Host.Outcome.next (if_neg h)

theorem reg_aonReset (s : State) (a : Nat) : s.aonReset.reg a = regReset a := rfl

theorem exec_hostLinkReset_clocked {s : State} (c : LinkCause) (h : s.pwr.clocked = true) :
    exec (.hostLinkReset c) s = .next s.hostLinkDown :=
  congrArg Host.Outcome.next (if_pos h)

/-- A sticky bit reads 1 once it has been set. -/
theorem flag_stick_same (s : State) (k : PageKind) (i n : Nat) (h : n < 32) :
    (s.stick k i n).flag (ra k i 0x010) n = true := by
  have hbit : (bitW n).getLsbD n = true := by
    simp only [bitW, BitVec.getLsbD_ofNat, Nat.testBit_two_pow_self, h, decide_true, Bool.and_true]
  rw [State.flag, reg_stick_same, bit, BitVec.getLsbD_or, hbit, Bool.or_true]

theorem hostLinkDown_flag (s : State) : s.hostLinkDown.flag (ra .pci 0 0x010) 10 = true :=
  flag_stick_same _ .pci 0 10 (by decide)

/-- Settles O15: what the cold and the AON power-on reset build, and the last steps of a host-link reset. -/
theorem resetsClearAllButTheirDomain : Obligations.ResetsClearAllButTheirDomain := by
  unfold Obligations.ResetsClearAllButTheirDomain
  refine ⟨⟨fun s c hoff => exec_coldReset_off c hoff,
    fun s c hon => ⟨s.coldReset (coldCode c), exec_coldReset_on c hon, fun a ha => ?_, fun a ha => ?_,
      rfl, rfl, rfl, rfl, rfl, rfl, rfl, rfl, rfl, rfl, rfl, rfl, rfl⟩,
    fun s => ⟨s.aonReset, rfl, reg_aonReset s, rfl, rfl, rfl, rfl, rfl, rfl, rfl, rfl, rfl⟩⟩,
    fun s c hclk => ⟨s.hostLinkDown, exec_hostLinkReset_clocked c hclk, rfl, rfl, rfl, rfl, hostLinkDown_flag s⟩⟩
  · rw [reg_coldReset, ha, if_neg Bool.false_ne_true]
  · rw [reg_coldReset, if_pos ha]

/-! ### The milestone (R14, R219 to R221) -/

theorem arriveAll_of_no_flight {s : State} (h : s.spe.flight = []) : s.arriveAll = s := by
  simp [State.arriveAll, State.upTo, h]

/-- What the last CKR cycle adds beyond the boundary is carried over while the PLL is locked. -/
def State.carryOver (s : State) (rest : Nat) : State :=
  if s.tim.locked then { s with tim := { s.tim with time := s.tim.time + rest } } else s

/-- The codes of the period that are on their way arrive: those on the link, then the fast path's. -/
def State.arrivals (s : State) (m : MsIn) : State := s.arriveAll.each m.fast fun t f => t.arriveFast f

/-- What a milestone does at its boundary. -/
def State.atBoundary (s : State) (m : MsIn) : State :=
  if !s.pwr.clocked || !(s.pwr.live || s.pwr.basePending) then s
  else if s.warmNow then s.warmReset
  else (s.runMilestone m).replayMilestone s

theorem exec_milestone_uncounted {s : State} (m : MsIn) (h : s.tim.locked = false ∨ s.pwr.counts = false) :
    exec (.milestone m) s = .next s := by
  have hno : (!(s.tim.locked && s.pwr.counts)) = true := by
    rcases h with h | h <;> simp [h]
  exact congrArg Host.Outcome.next (if_pos hno)

theorem exec_milestone_counted {s : State} (m : MsIn) (hlock : s.tim.locked = true) (hcount : s.pwr.counts = true) :
    exec (.milestone m) s = .next
      (((s.arrivals m).reachBoundary.atBoundary m).carryOver (s.arrivals m).tim.beyond) := by
  have hyes : ¬(!(s.tim.locked && s.pwr.counts)) = true := by simp [hlock, hcount]
  exact congrArg Host.Outcome.next (if_neg hyes)

theorem atBoundary_idle {s : State} (m : MsIn)
    (h : s.pwr.clocked = false ∨ (s.pwr.live = false ∧ s.pwr.basePending = false)) : s.atBoundary m = s := by
  refine if_pos ?_
  rcases h with h | ⟨hl, hb⟩
  · simp [h]
  · simp [hl, hb]

theorem atBoundary_working {s : State} (m : MsIn)
    (h : ¬(s.pwr.clocked = false ∨ (s.pwr.live = false ∧ s.pwr.basePending = false))) :
    s.atBoundary m = if s.warmNow then s.warmReset else (s.runMilestone m).replayMilestone s := by
  refine if_neg ?_
  simpa using h

theorem runMilestone_eq (s : State) (m : MsIn) :
    s.runMilestone m =
      ((s.closePeriod m).ringAdd (.milestone (s.closePeriod m).tim.msNum m (s.closePeriod m).snap)).stepsOf m := rfl

theorem stepsOf_eq (s : State) (m : MsIn) :
    s.stepsOf m = (s.incStep.moveTime.toStep4 m).fromStep4 s.tim.time m := rfl

theorem moveTime_eq (s : State) :
    s.moveTime =
      if ((s.adjustStep.tim.time : Int) - s.tim.time) / msSpan = 0 then s.adjustStep
      else (s.adjustStep.shiftInstants (((s.adjustStep.tim.time : Int) - s.tim.time) / msSpan)).upTo 24
        fun v n => v.impShift n := rfl

theorem openHold_eq (s : State) : s.openHold = { s with spe := { s.spe with holding := true } } := rfl

theorem fromStep4_off {s : State} (at_ : Nat) (m : MsIn) (h : s.pwr.clocked = false) :
    s.fromStep4 at_ m = s.flushOut := by
  simp [State.fromStep4, h]

theorem fromStep4_warm {s : State} (at_ : Nat) (m : MsIn) (h : s.pwr.clocked = true) (hw : s.warmNow = true) :
    s.fromStep4 at_ m = s.warmReset := by
  simp [State.fromStep4, h, hw]

theorem fromStep4_on {s on six : State} {at_ : Nat} {m : MsIn}
    (hon : (if s.tim.time ≠ at_ then s.windowsAfterStep else s).goLive.idleMark.wakeStep = on)
    (hsix : ((if on.almOn then on.driveOutputs else on).thmMilestone.step6 m).flushOut.afterSteps m = six)
    (h : s.pwr.clocked = true) (hw : s.warmNow = false) :
    s.fromStep4 at_ m = State.powerStep { six with pwr := { six.pwr with resumed := false } } m := by
  subst hsix hon
  have hfive : s.fromStep4 at_ m = s.fromStep5 at_ m := by simp [State.fromStep4, h, hw]
  rw [hfive, State.fromStep5]

/-- Settles O53: what a milestone does at its boundary, split as `atBoundary` is, and the six steps as `runMilestone`
takes them, one named state after another. -/
theorem milestonesTakeTheirStepsInOrder : Obligations.MilestonesTakeTheirStepsInOrder := by
  unfold Obligations.MilestonesTakeTheirStepsInOrder
  intro s m w u carry idle
  refine ⟨exec_milestone_uncounted m, fun hlock hcount => ?_, fun hflight hfast => ?_, ?_⟩
  · rw [exec_milestone_counted m hlock hcount]
    refine ⟨fun hidle => ?_, fun hwork => ⟨fun hwarm => ?_, fun hwarm => ?_⟩⟩
    · exact congrArg (fun v => Host.Outcome.next (carry v)) (atBoundary_idle m hidle)
    · exact congrArg (fun v => Host.Outcome.next (carry v)) ((atBoundary_working m hwork).trans (if_pos hwarm))
    · exact congrArg (fun v => Host.Outcome.next (carry v))
        ((atBoundary_working m hwork).trans (if_neg (ne_true_of_eq_false hwarm)))
  · have hw : w = s := by
      simp only [w, hfast, List.foldl_nil, arriveAll_of_no_flight hflight]
    refine ⟨hw, ?_⟩
    simp only [u, hw]
    exact ⟨rfl, rfl, rfl, rfl, rfl, rfl⟩
  · intro c r p k q two three four on six
    have hq : r.incStep.moveTime = q := moveTime_eq p
    have htwo : q.toStep4 m = three.openHold.step4 two := rfl
    have hfour : three.openHold.step4 two = four := congrArg (fun v => v.step4 two) (openHold_eq three)
    have hsteps : r.stepsOf m = four.fromStep4 r.tim.time m := by
      rw [stepsOf_eq, hq, htwo, hfour]
    rw [show u.runMilestone m = r.stepsOf m from runMilestone_eq u m, hsteps]
    exact ⟨fromStep4_off _ m, fromStep4_warm _ m, fromStep4_on rfl rfl⟩

end Sys2Proof.Machine
end

section
/-! SUPPORT. Proof of the statement of the register space (R29): its canonical form is unique. -/

namespace Sys2Proof.Machine
open Sys2Proof

/-! ### The canonical form of sparse data -/

section
variable {α : Type} {d : Nat → α}

theorem kWf_cons [DecidableEq α] (a : Nat) (v : α) (m : KMap α) :
    kWf d ((a, v) :: m) = true ↔ v ≠ d a ∧ kAbove a m ∧ kWf d m = true := by
  simp only [kWf, kClean, Bool.and_eq_true, kSorted_cons, List.all_cons, decide_eq_true_eq]
  tauto

/-- A key below every key of the list is unlisted. -/
theorem kget_of_kAbove {k : Nat} {m : KMap α} (e : α) (h : kAbove k m) : kget m k e = e := by
  induction m with
  | nil => rfl
  | cons p t ih =>
    have hne : k ≠ p.1 := Nat.ne_of_lt (h p (by simp))
    exact (if_neg hne).trans (ih fun q hq => h q (List.mem_cons_of_mem _ hq))

/-- Of two canonical lists that read the same, neither starts at a lower key than the other. -/
theorem kWf_head_not_below {a b : Nat} {v w : α} {t u : KMap α} (ha : v ≠ d a) (hu : kAbove b u)
    (h : kget ((a, v) :: t) a (d a) = kget ((b, w) :: u) a (d a)) : ¬a < b := by
  intro hab
  have habove : kAbove a ((b, w) :: u) := by
    intro q hq
    rcases List.mem_cons.mp hq with rfl | hq
    · exact hab
    · exact Nat.lt_trans hab (hu q hq)
  rw [kget_of_kAbove _ habove, kget, if_pos rfl] at h
  exact ha h

/-- Two canonical lists that read the same at every key are the same list. -/
theorem kWf_ext [DecidableEq α] {m n : KMap α} (hm : kWf d m = true) (hn : kWf d n = true)
    (h : ∀ k, kget m k (d k) = kget n k (d k)) : m = n := by
  induction m generalizing n with
  | nil =>
    cases n with
    | nil => rfl
    | cons p u =>
      have hk := h p.1
      rw [kget, kget, if_pos rfl] at hk
      exact absurd hk.symm ((kWf_cons p.1 p.2 u).mp hn).1
  | cons p t ih =>
    obtain ⟨a, v⟩ := p
    obtain ⟨hv, hat, ht⟩ := (kWf_cons a v t).mp hm
    cases n with
    | nil =>
      have hk := h a
      rw [kget, kget, if_pos rfl] at hk
      exact absurd hk hv
    | cons p u =>
      obtain ⟨b, w⟩ := p
      obtain ⟨hw, hbu, hu⟩ := (kWf_cons b w u).mp hn
      have hab : a = b := Nat.le_antisymm (Nat.not_lt.mp (kWf_head_not_below hw hat (h b).symm))
        (Nat.not_lt.mp (kWf_head_not_below hv hbu (h a)))
      subst hab
      have hvw : v = w := by simpa [kget] using h a
      have htail : t = u := by
        refine ih ht hu fun k => ?_
        by_cases hk : k = a
        · subst hk
          rw [kget_of_kAbove _ hat, kget_of_kAbove _ hbu]
        · simpa [kget, hk] using h k
      rw [hvw, htail]

end

/-! ### The register space (R29) -/

theorem setReg_setReg {s : State} (h : kWf regReset s.regs = true) (a : Nat) (v w : Word) :
    (s.setReg a v).setReg a w = s.setReg a w := by
  have hregs : ((s.setReg a v).setReg a w).regs = (s.setReg a w).regs := by
    refine kWf_ext (d := regReset) (kWf_kset _ _ _ _ (kWf_kset _ _ _ _ h)) (kWf_kset _ _ _ _ h) fun k => ?_
    change ((s.setReg a v).setReg a w).reg k = (s.setReg a w).reg k
    simp only [reg_setReg]
    split <;> rfl
  exact congrArg (fun r => { s with regs := r }) hregs

/-- Settles O5: reads after a write, and the uniqueness of the canonical form, from which an overwritten write leaves
no trace. -/
theorem registerSpaceLaws : Obligations.RegisterSpaceLaws := by
  unfold Obligations.RegisterSpaceLaws
  exact ⟨reg_setReg, fun s a v w h => setReg_setReg h a v w, fun s a v h => kWf_kset regReset s.regs a v h,
    fun s t hs ht h => kWf_ext hs ht h⟩

end Sys2Proof.Machine
end

section
/-! SUPPORT. Proofs of the statements of who may write, and of a word's write: the gate of a write (R37 to R39, R47, R48),
narrow and unmapped writes, and the access codes. -/

namespace Sys2Proof.Machine
open Sys2Proof

/-! ### The lock of a page (R37 to R39, R423) -/

section
variable {s : State} {req page : Nat} {mask : Word} {exempt : Bool}

theorem lockGate_of_inReset (h : s.inReset page = true) : s.lockGate req page mask exempt = .drop s := by
  simp [State.lockGate, h]

theorem lockGate_of_unlocked (hr : s.inReset page = false) (hl : s.lockOf page = none) :
    s.lockGate req page mask exempt = .act s mask := by
  simp [State.lockGate, hr, hl]

theorem lockGate_of_exempt (hr : s.inReset page = false) : s.lockGate req page mask true = .act s mask := by
  cases hl : s.lockOf page <;> simp [State.lockGate, hr, hl]

theorem lockGate_of_locked {l : Lock} (hr : s.inReset page = false) (hl : s.lockOf page = some l) :
    s.lockGate req page mask false =
      if l.holder = req then .hold s mask else .drop (s.stickPage page 1) := by
  simp [State.lockGate, hr, hl]

/-- What passes the lock of a page has found it out of reset, and is unchanged. -/
theorem lockGate_act {u : State} {m : Word} (h : s.lockGate req page mask exempt = .act u m) :
    s.inReset page = false ∧ u = s ∧ m = mask := by
  unfold State.lockGate at h
  split at h
  case isTrue => cases h
  case isFalse hr =>
    refine ⟨by simpa using hr, ?_⟩
    split at h
    case h_1 =>
      cases h
      exact ⟨rfl, rfl⟩
    case h_2 l hl =>
      split at h
      case isTrue =>
        cases h
        exact ⟨rfl, rfl⟩
      case isFalse => split at h <;> cases h

end

/-! ### The gate of a write (R47, R48, R307, R308) -/

section
variable {s : State} {req t a : Nat} {val : Word} {exempt : Bool}

theorem validReq_of_owner (h : s.ownerReq req = true) : s.validReq req = true := by
  simp [State.validReq, h]

theorem validReq_of_tenant (h : s.tenantOf req = some t) : s.validReq req = true := by
  simp [State.validReq, h]

theorem gate_noTenant (hans : s.answers (a / 0x1000) = true) (hreq : s.validReq req = true)
    (ht : s.tenantOf req = none) :
    s.gate req a val exempt = s.lockGate req (a / 0x1000) allOnes exempt := by
  simp [State.gate, hans, hreq, ht]

theorem gate_owner (hans : s.answers (a / 0x1000) = true) (hown : s.ownerReq req = true) :
    s.gate req a val exempt = s.lockGate req (a / 0x1000) allOnes exempt :=
  gate_noTenant hans (validReq_of_owner hown) (owner_no_tenant hown)

theorem gate_unmapped (hans : s.answers (a / 0x1000) = true) (ht : s.tenantOf req = some t)
    (hw : s.winWr t (a / 0x1000) = none) : s.gate req a val exempt = .drop (s.countUnmapped t) := by
  simp [State.gate, hans, validReq_of_tenant ht, ht, hw]

theorem gate_readOnly (hans : s.answers (a / 0x1000) = true) (ht : s.tenantOf req = some t)
    (hw : s.winWr t (a / 0x1000) = some false) : s.gate req a val exempt = .drop (s.countHidden t) := by
  simp [State.gate, hans, validReq_of_tenant ht, ht, hw]

theorem gate_unwritable (hans : s.answers (a / 0x1000) = true) (ht : s.tenantOf req = some t)
    (hw : s.winWr t (a / 0x1000) = some true) (hm : s.writeMask t req a = 0) :
    s.gate req a val exempt = .drop
      (if s.seeMask t req a ≠ 0 ∧ val &&& ~~~(s.seeMask t req a) = 0 then s else s.countHidden t) := by
  simp [State.gate, hans, validReq_of_tenant ht, ht, hw, hm]

/-- What is counted of a tenant's write that goes on: a value that sets a bit the tenant does not see. -/
def State.noteHidden (s : State) (t req a : Nat) (val : Word) : State :=
  if val &&& ~~~(s.writeMask t req a ||| s.seeMask t req a) = 0 then s else s.countHidden t

theorem gate_writable_of_act {u : State} {m : Word} (hans : s.answers (a / 0x1000) = true)
    (ht : s.tenantOf req = some t) (hw : s.winWr t (a / 0x1000) = some true) (hm : s.writeMask t req a ≠ 0)
    (hg : s.lockGate req (a / 0x1000) (s.writeMask t req a) exempt = .act u m) :
    s.gate req a val exempt = .act (s.noteHidden t req a val) (s.writeMask t req a) := by
  obtain ⟨-, rfl, rfl⟩ := lockGate_act hg
  have hbits : ¬u.writeMask t req a = 0#32 := hm
  simp [State.gate, hans, validReq_of_tenant ht, ht, hw, hbits, hg, State.noteHidden]

theorem gate_writable_of_drop {u : State} (hans : s.answers (a / 0x1000) = true)
    (ht : s.tenantOf req = some t) (hw : s.winWr t (a / 0x1000) = some true) (hm : s.writeMask t req a ≠ 0)
    (hg : s.lockGate req (a / 0x1000) (s.writeMask t req a) exempt = .drop u) :
    s.gate req a val exempt = .drop u := by
  have hbits : ¬s.writeMask t req a = 0#32 := hm
  simp [State.gate, hans, validReq_of_tenant ht, ht, hw, hbits, hg]

theorem gate_writable_of_hold {u : State} {m : Word} (hans : s.answers (a / 0x1000) = true)
    (ht : s.tenantOf req = some t) (hw : s.winWr t (a / 0x1000) = some true) (hm : s.writeMask t req a ≠ 0)
    (hg : s.lockGate req (a / 0x1000) (s.writeMask t req a) exempt = .hold u m) :
    ∃ v, s.gate req a val exempt = .hold v m := by
  have hbits : ¬s.writeMask t req a = 0#32 := hm
  simp [State.gate, hans, validReq_of_tenant ht, ht, hw, hbits, hg]

end

/-- Settles O6: the owner's gate is the page's lock; the tenant's is its window first, then the lock. -/
theorem writesPassTheGateOrStopAtIt : Obligations.WritesPassTheGateOrStopAtIt := by
  unfold Obligations.WritesPassTheGateOrStopAtIt
  refine ⟨fun s req addr val exempt hans hown => ?_, fun s req t addr val exempt hans ht => ?_⟩
  · rw [gate_owner hans hown]
    refine ⟨lockGate_of_inReset, fun hr => ⟨lockGate_of_unlocked hr, fun l hl => ⟨?_, ?_, ?_⟩⟩⟩
    · rintro rfl
      exact lockGate_of_exempt hr
    · rintro ⟨rfl, hmine⟩
      rw [lockGate_of_locked hr hl, if_pos hmine]
    · rintro ⟨rfl, hother⟩
      rw [lockGate_of_locked hr hl, if_neg hother]
  · exact ⟨gate_unmapped hans ht, gate_readOnly hans ht, fun hw => ⟨gate_unwritable hans ht hw,
      fun ⟨hm, hr⟩ => gate_writable_of_drop hans ht hw hm (lockGate_of_inReset hr),
      fun ⟨hm, hr, hl⟩ => gate_writable_of_act hans ht hw hm (lockGate_of_unlocked hr hl)⟩⟩

/-! ### Narrow, unaligned and full-word writes (R29 to R32) -/

section
variable {s u : State} {req a width : Nat} {val : BitVec 64}

theorem writeAccess_unanswered (h : s.answers (a / 0x1000) = false) :
    s.writeAccess req a val width = s.notNow .done := by
  simp [State.writeAccess, h]

theorem writeAccess_unaligned (hans : s.answers (a / 0x1000) = true) (hreq : s.validReq req = true)
    (h : width = 0 ∨ a % width ≠ 0) : s.writeAccess req a val width =
      (s.stick .sys 0 9).answerWith (if req = 1 then .nack else .unsupported) := by
  simp only [State.writeAccess, hans, hreq, Bool.and_self, Bool.not_true, Bool.false_eq_true, if_false, if_pos h]

theorem writeAccess_narrow (hans : s.answers (a / 0x1000) = true) (hreq : s.validReq req = true)
    (h : ¬(width = 0 ∨ a % width ≠ 0)) (hw : width < 4) :
    s.writeAccess req a val width = (s.stick .sys 0 8).answerWith .done := by
  simp only [State.writeAccess, hans, hreq, Bool.and_self, Bool.not_true, Bool.false_eq_true, if_false, if_neg h,
    if_pos hw]

theorem writeAccess_words (hans : s.answers (a / 0x1000) = true) (hreq : s.validReq req = true)
    (h : ¬(width = 0 ∨ a % width ≠ 0)) (hw : ¬width < 4) :
    s.writeAccess req a val width =
      (if width = 8 then (s.write32 req a (val.truncate 32)).write32 req (a + 4) (val.extractLsb' 32 32)
       else s.write32 req a (val.truncate 32)).answerWith .done := by
  simp only [State.writeAccess, hans, hreq, Bool.and_self, Bool.not_true, Bool.false_eq_true, if_false, if_neg h,
    if_neg hw]

end

/-- Settles O8: the access is aligned and narrow. -/
theorem narrowWriteIsIgnoredAndNoted : Obligations.NarrowWriteIsIgnoredAndNoted := by
  unfold Obligations.NarrowWriteIsIgnoredAndNoted
  intro s a addr val width hwidth halign hans hreq
  have hsize : 0 < width.toNat ∧ width.toNat < 4 := by
    rcases hwidth with rfl | rfl <;> decide
  exact congrArg Host.Outcome.next (writeAccess_narrow hans hreq (by omega) hsize.2)

/-! ### Nothing but some registers changes -/

section
variable {s u : State} {l : List Nat}

theorem onlyRegs_refl (s : State) (l : List Nat) : s.OnlyRegs s l := ⟨rfl, fun _ _ => rfl⟩

theorem onlyRegs_setReg (h : s.OnlyRegs u l) {a : Nat} (ha : a ∈ l) (v : Word) : s.OnlyRegs (u.setReg a v) l := by
  obtain ⟨heq, hreg⟩ := h
  refine ⟨congrArg (fun w : State => { w with regs := (u.setReg a v).regs }) heq, fun b hb => ?_⟩
  have hne : b ≠ a := fun h => hb (h ▸ ha)
  rw [reg_setReg, if_neg hne, hreg b hb]

end

/-! ### A tenant's write outside its window (R48, R317) -/

/-- What the window of a tenant maps is a function of its entry. -/
theorem winWr_congr {s u : State} {t : Nat} (h : ∀ w, u.ten t w = s.ten t w) (page : Nat) :
    u.winWr t page = s.winWr t page := by
  simp only [State.winWr, State.winPage, h]

theorem tenantOf_lt {s : State} {req t : Nat} (h : s.tenantOf req = some t) : t < 128 := by
  unfold State.tenantOf at h
  split at h
  case isTrue hreq =>
    have := Option.some.inj h
    omega
  case isFalse =>
    split at h
    case h_2 => cases h
    case h_1 x _ =>
      split at h
      case h_1 => cases h
      case h_2 v _ => exact Option.some.inj h ▸ v.isLt

/-- No word of a tenant's entry is a register of a TEN_STAT page. -/
theorem ten_countUnmapped {s : State} {u : Nat} (hu : u < 128) (t w : Nat) :
    (s.countUnmapped u).ten t w = s.ten t w := by
  have hne : TableId.tenant.addr t w ≠ ra .tenStat u 0x044 := by
    simp only [TableId.addr, TableId.base, ra, pageNum]
    omega
  exact (reg_setReg s _ _ _).trans (if_neg hne)

theorem write32_of_drop {s u : State} {req a : Nat} {val : Word}
    (h : s.gate req a val (a % 0x1000 = 0x018 || isW1c a) = .drop u) : s.write32 req a val = u := by
  unfold State.write32
  rw [h]

section
variable {s : State} {req t a width : Nat} {val : BitVec 64}

theorem write32_unmapped {val : Word} (hans : s.answers (a / 0x1000) = true)
    (ht : s.tenantOf req = some t) (hw : s.winWr t (a / 0x1000) = none) :
    s.write32 req a val = s.countUnmapped t :=
  write32_of_drop (gate_unmapped hans ht hw)

/-- An access of 64 bits outside the window is two accesses there. -/
theorem write32_write32_unmapped {val val' : Word} (hans : s.answers (a / 0x1000) = true)
    (ht : s.tenantOf req = some t) (hw : s.winWr t (a / 0x1000) = none) (h8 : a % 8 = 0) :
    (s.write32 req a val).write32 req (a + 4) val' = (s.countUnmapped t).countUnmapped t := by
  have hpage : (a + 4) / 0x1000 = a / 0x1000 := by omega
  have hw' : (s.countUnmapped t).winWr t ((a + 4) / 0x1000) = none := by
    rw [hpage, winWr_congr (ten_countUnmapped (tenantOf_lt ht) t), hw]
  have hans' : (s.countUnmapped t).answers ((a + 4) / 0x1000) = true := by
    rw [hpage]
    exact hans
  rw [write32_unmapped hans ht hw, write32_unmapped hans' ht hw']

/-- The words of an access of a tenant to a page that its window does not map change only the tenant's count. -/
theorem writeAccess_unmapped (ht : s.tenantOf req = some t) (hw : s.winWr t (a / 0x1000) = none) :
    ∃ u x, s.writeAccess req a val width = u.answerWith x ∧
      s.OnlyRegs u [ra .tenStat t 0x044, ra .sys 0 0x010] := by
  have hcount : ∀ u : State, s.OnlyRegs u [ra .tenStat t 0x044, ra .sys 0 0x010] →
      s.OnlyRegs (u.countUnmapped t) [ra .tenStat t 0x044, ra .sys 0 0x010] :=
    fun u h => onlyRegs_setReg h (by simp) _
  have hstick : ∀ n, s.OnlyRegs (s.stick .sys 0 n) [ra .tenStat t 0x044, ra .sys 0 0x010] :=
    fun n => onlyRegs_setReg (onlyRegs_refl s _) (by simp) _
  have hreq := validReq_of_tenant ht
  cases hans : s.answers (a / 0x1000) with
  | false => exact ⟨s, _, writeAccess_unanswered hans, onlyRegs_refl s _⟩
  | true =>
    by_cases halign : width = 0 ∨ a % width ≠ 0
    · exact ⟨_, _, writeAccess_unaligned hans hreq halign, hstick 9⟩
    · by_cases hnarrow : width < 4
      · exact ⟨_, _, writeAccess_narrow hans hreq halign hnarrow, hstick 8⟩
      · refine ⟨_, _, writeAccess_words hans hreq halign hnarrow, ?_⟩
        by_cases h8 : width = 8
        · subst h8
          rw [if_pos rfl, write32_write32_unmapped hans ht hw (by omega)]
          exact hcount _ (hcount s (onlyRegs_refl s _))
        · rw [if_neg h8, write32_unmapped hans ht hw]
          exact hcount s (onlyRegs_refl s _)

end

/-- Settles O7: each word of the access is counted, and a narrow or unaligned one only sets its bit. -/
theorem unmappedTenantWriteChangesNothing : Obligations.UnmappedTenantWriteChangesNothing := by
  unfold Obligations.UnmappedTenantWriteChangesNothing
  intro s a t addr val width ht hw
  obtain ⟨u, x, hwrite, hsame, hreg⟩ := writeAccess_unmapped (val := val) (width := width.toNat) ht hw
  refine ⟨u.answerWith x, congrArg Host.Outcome.next hwrite, ?_, fun b hb hb' => hreg b (by simp [hb, hb'])⟩
  exact congrArg (fun w : State => w.answerWith x) hsame

/-! ### Writes that pass the gate -/

section
variable {s u : State} {req a : Nat} {val m : Word} {exempt : Bool}

theorem gate_unanswered (h : s.answers (a / 0x1000) = false) : s.gate req a val exempt = .drop s := by
  simp [State.gate, h]

theorem gate_nobody (h : s.validReq req = false) : s.gate req a val exempt = .drop s := by
  simp [State.gate, h]

/-- A tenant's write that passes: its window maps the page with WR and shows a bit that it may write. -/
theorem gate_act_tenant {t : Nat} (hans : s.answers (a / 0x1000) = true) (ht : s.tenantOf req = some t)
    (h : s.gate req a val exempt = .act u m) :
    s.inReset (a / 0x1000) = false ∧ (u = s ∨ ∃ t, u = s.countHidden t) := by
  cases hw : s.winWr t (a / 0x1000) with
  | none =>
    rw [gate_unmapped hans ht hw] at h
    cases h
  | some wr =>
    cases wr with
    | false =>
      rw [gate_readOnly hans ht hw] at h
      cases h
    | true =>
      by_cases hm : s.writeMask t req a = 0
      · rw [gate_unwritable hans ht hw hm] at h
        cases h
      · cases hg : s.lockGate req (a / 0x1000) (s.writeMask t req a) exempt with
        | drop v =>
          rw [gate_writable_of_drop hans ht hw hm hg] at h
          cases h
        | hold v n =>
          obtain ⟨w, hw'⟩ := gate_writable_of_hold (val := val) hans ht hw hm hg
          rw [hw'] at h
          cases h
        | act v n =>
          rw [gate_writable_of_act hans ht hw hm hg] at h
          cases h
          refine ⟨(lockGate_act hg).1, ?_⟩
          unfold State.noteHidden
          split
          case isTrue => exact .inl rfl
          case isFalse => exact .inr ⟨t, rfl⟩

/-- What passes the gate has found a page that answers and is out of reset; at most a hidden write is counted. -/
theorem gate_act (h : s.gate req a val exempt = .act u m) :
    s.answers (a / 0x1000) = true ∧ s.validReq req = true ∧ s.inReset (a / 0x1000) = false ∧
      (u = s ∨ ∃ t, u = s.countHidden t) := by
  cases hans : s.answers (a / 0x1000) with
  | false =>
    rw [gate_unanswered hans] at h
    cases h
  | true =>
    cases hreq : s.validReq req with
    | false =>
      rw [gate_nobody hreq] at h
      cases h
    | true =>
      refine ⟨rfl, rfl, ?_⟩
      cases ht : s.tenantOf req with
      | none =>
        rw [gate_noTenant hans hreq ht] at h
        obtain ⟨hr, hu, -⟩ := lockGate_act h
        exact ⟨hr, .inl hu⟩
      | some t =>
        exact gate_act_tenant hans ht h
end

/-- What passes the gate finds its page out of reset: a count of a hidden write changes no reset. -/
theorem inReset_of_passes {s u : State} {a : Acc} {addr : Nat} {val : Word} {exempt : Bool}
    (h : s.Passes a addr val exempt u) : u.inReset (addr / 0x1000) = false := by
  obtain ⟨-, -, hr, hu⟩ := gate_act h
  rcases hu with rfl | ⟨t, rfl⟩
  · exact hr
  · exact hr

/-! ### What a word that passes does -/

section
variable {u : State} {req a due inst : Nat} {k : PageKind} {val : Word} {direct : Bool}

/-- The word goes to a register: its page is out of reset, and a table of the page lists its offset. -/
structure State.Lands (u : State) (a : Nat) (k : PageKind) (inst : Nat) : Prop where
  page : pageOf (a / 0x1000) = some (k, inst)
  free : u.inReset (a / 0x1000) = false
  listed : (addrFields a).isEmpty = false

theorem actWrite_ctrl (h : u.Lands a k inst) (hoff : a % 0x1000 = 0x008) :
    u.actWrite req a val allOnes direct due = u.actCtrl (a / 0x1000) k val allOnes due := by
  simp [State.actWrite, h.page, h.free, h.listed, hoff, and_allOnes]

theorem actWrite_commit (h : u.Lands a k inst) (hoff : a % 0x1000 = 0x01C) :
    u.actWrite req a val allOnes direct due = u.actCommit req (a / 0x1000) val := by
  simp [State.actWrite, h.page, h.free, h.listed, hoff, and_allOnes]

/-- The word lies beside the registers of the page head that have actions of their own. -/
structure InBody (a : Nat) : Prop where
  ctrl : a % 0x1000 ≠ 0x008
  lock : a % 0x1000 ≠ 0x018
  commit : a % 0x1000 ≠ 0x01C

theorem actWrite_pairLow {p : Pair} (h : u.Lands a k inst) (hb : InBody a) (hp : pairAt a = some p)
    (hw : p.writable = true) (hlo : p.lo = a) :
    u.actWrite req a val allOnes direct due = u.holdLow req a val := by
  simp [State.actWrite, h.page, h.free, h.listed, hb.ctrl, hb.lock, hb.commit, hp, hw, hlo, and_allOnes]

theorem actWrite_pairHigh {p : Pair} (h : u.Lands a k inst) (hb : InBody a) (hp : pairAt a = some p)
    (hw : p.writable = true) (hlo : p.lo ≠ a) :
    u.actWrite req a val allOnes direct due = u.writePairHigh req p val due := by
  simp [State.actWrite, h.page, h.free, h.listed, hb.ctrl, hb.lock, hb.commit, hp, hw, hlo.symm, and_allOnes]

theorem actWrite_action {v : State} (h : u.Lands a k inst) (hb : InBody a) (hp : pairAt a = none)
    (hact : u.bodyAction req k inst (a % 0x1000) val allOnes due = some v) :
    u.actWrite req a val allOnes direct due = v := by
  simp [State.actWrite, h.page, h.free, h.listed, hb.ctrl, hb.lock, hb.commit, hp, hact, and_allOnes]

theorem actWrite_fields (h : u.Lands a k inst) (hb : InBody a) (hp : pairAt a = none)
    (hact : u.bodyAction req k inst (a % 0x1000) val allOnes due = none) :
    u.actWrite req a val allOnes direct due = u.writeFields req a val allOnes direct := by
  simp [State.actWrite, h.page, h.free, h.listed, hb.ctrl, hb.lock, hb.commit, hp, hact, and_allOnes]

end

/-! ### The access codes (R23, R24, R33) -/

section
variable {u : State} {req a : Nat} {val : Word} {f : Field}

theorem writeFields_single {mask : Word} {direct : Bool} (h : addrFields a = [f]) :
    u.writeFields req a val mask direct = u.writeField req a val mask direct f := by
  simp [State.writeFields, h, State.each]

/-- With every bit writable no field is left out. -/
theorem mask_and_not_allOnes (m : Word) : m &&& ~~~allOnes = 0#32 := by
  simp [allOnes]

theorem writeField_rw (h : f.code = .rw) : u.writeField req a val allOnes false f =
    if f.isBad (bits val f.lsb f.width) then u.stickPage (a / 0x1000) 3
    else u.setReg a (mergeMask (u.reg a) f.mask val) := by
  simp [State.writeField, mask_and_not_allOnes, h]

theorem writeField_st (h : f.code = .st) : u.writeField req a val allOnes false f =
    if f.isBad (bits val f.lsb f.width) then u.stickPage (a / 0x1000) 3
    else u.stageBits req a f.mask val := by
  simp [State.writeField, mask_and_not_allOnes, h]

theorem writeField_w1c (h : f.code = .w1c) : u.writeField req a val allOnes false f =
    u.setReg a (u.reg a &&& ~~~(val &&& f.mask)) := by
  simp [State.writeField, mask_and_not_allOnes, h, State.clearReg]

theorem writeField_unchanged (h : f.code ∈ [.ro, .wo, .rs, .lp]) :
    u.writeField req a val allOnes false f = u := by
  cases hc : f.code <;> simp [State.writeField, mask_and_not_allOnes, hc] at h ⊢

end

theorem exec_registerWrite_word {s u : State} {a : Acc} {addr : BitVec 24} {val : BitVec 64}
    (halign : addr.toNat % 4 = 0)
    (hpass : s.Passes a addr.toNat (val.truncate 32) (addr.toNat % 0x1000 = 0x018 || isW1c addr.toNat) u) :
    exec (.registerWrite a addr val 4) s = .next
      ((u.actWrite a.req.toNat addr.toNat (val.truncate 32) allOnes false u.tim.due).answerWith .done) := by
  obtain ⟨hans, hreq, -⟩ := gate_act hpass
  have hwrite : (s.accept a).write32 a.req.toNat addr.toNat (val.truncate 32) = _ := writeBy_passes hpass
  rw [← hwrite]
  refine congrArg Host.Outcome.next ((writeAccess_words hans hreq ?_ ?_).trans ?_)
  · simpa using halign
  · decide
  · exact congrArg (fun v : State => v.answerWith .done) (if_neg (by decide))

/-- Settles O9: a word that passes, at a register without an action, is a write of its one field. -/
theorem registerWriteFollowsTheAccessCode : Obligations.RegisterWriteFollowsTheAccessCode := by
  unfold Obligations.RegisterWriteFollowsTheAccessCode
  intro s u a addr val k inst f halign hpage hctrl hlock hcommit hpair hfield hpass hact v bad badEnc
  have hexempt : (decide (addr.toNat % 0x1000 = 0x018) || isW1c addr.toNat) = isW1c addr.toNat := by
    simp [hlock]
  have hlands : u.Lands addr.toNat k inst := ⟨hpage, inReset_of_passes hpass, by simp [hfield]⟩
  refine ⟨_, exec_registerWrite_word halign (hexempt ▸ hpass), ?_⟩
  rw [actWrite_fields hlands ⟨hctrl, hlock, hcommit⟩ hpair hact, writeFields_single hfield]
  exact ⟨writeField_rw, writeField_st, writeField_w1c, writeField_unchanged⟩

end Sys2Proof.Machine
end

section
/-! SUPPORT. Proofs of the statements of the page head and of SYS_RESET: COMMIT and DISCARD (R33 to R36), BLK_CTRL (R26,
R423), the warm reset (R28). -/

namespace Sys2Proof.Machine
open Sys2Proof

/-! ### The registers of the page head (R25) -/

section
variable {s u : State} {a : Acc} {p inst : Nat} {k : PageKind} {val : Word} {exempt : Bool}

theorem pageAddr_div (p : Nat) {off : Nat} (h : off < 0x1000) : (p * 0x1000 + off) / 0x1000 = p := by omega

theorem pageAddr_mod (p : Nat) {off : Nat} (h : off < 0x1000) : (p * 0x1000 + off) % 0x1000 = off := by omega

theorem addrFields_pageAddr (hp : pageOf p = some (k, inst)) {off : Nat} (h : off < 0x1000) :
    addrFields (p * 0x1000 + off) = pageFields k inst off := by
  simp only [addrFields, pageAddr_div p h, pageAddr_mod p h, hp]

/-- A word of a page that passes goes to its register, if the page lists its offset. -/
theorem lands_of_passes (hp : pageOf p = some (k, inst)) {off : Nat} (hoff : off < 0x1000)
    (hf : (pageFields k inst off).isEmpty = false) (h : s.Passes a (p * 0x1000 + off) val exempt u) :
    u.Lands (p * 0x1000 + off) k inst where
  page := by rw [pageAddr_div p hoff, hp]
  free := inReset_of_passes h
  listed := by rw [addrFields_pageAddr hp hoff, hf]

theorem writeBy_ctrl (hp : pageOf p = some (k, inst)) (h : s.Passes a (p * 0x1000 + 0x008) val false u) :
    s.writeBy a (p * 0x1000 + 0x008) val = u.actCtrl p k val allOnes u.tim.due := by
  have hoff : 0x008 < 0x1000 := by decide
  have hexempt : (decide ((p * 0x1000 + 0x008) % 0x1000 = 0x018) || isW1c (p * 0x1000 + 0x008)) = false := by
    rw [pageAddr_mod p hoff, isW1c, addrFields_pageAddr hp hoff]
    rfl
  rw [writeBy_passes (hexempt ▸ h), actWrite_ctrl (lands_of_passes hp hoff rfl h) (pageAddr_mod p hoff),
    pageAddr_div p hoff]

theorem writeBy_commit (hp : pageOf p = some (k, inst)) (h : s.Passes a (p * 0x1000 + 0x01C) val false u) :
    s.writeBy a (p * 0x1000 + 0x01C) val = u.actCommit a.req.toNat p val := by
  have hoff : 0x01C < 0x1000 := by decide
  have hexempt : (decide ((p * 0x1000 + 0x01C) % 0x1000 = 0x018) || isW1c (p * 0x1000 + 0x01C)) = false := by
    rw [pageAddr_mod p hoff, isW1c, addrFields_pageAddr hp hoff]
    rfl
  rw [writeBy_passes (hexempt ▸ h), actWrite_commit (lands_of_passes hp hoff rfl h) (pageAddr_mod p hoff),
    pageAddr_div p hoff]

end

/-! ### Snapshots (R33 to R36) -/

section
variable {u : State} {req p : Nat}

theorem addSnapshot_eq (u : State) (x : Snapshot) :
    u.addSnapshot x = { (if u.tim.verge then u.stickPage x.page 2 else u) with
      acc := { u.acc with snaps := u.acc.snaps ++ [x] } } := by
  unfold State.addSnapshot
  cases u.tim.verge <;> rfl

theorem actCommit_empty (h : u.stageOf req p = []) : u.actCommit req p 1 = u := by
  simp [State.actCommit, bit, h]

theorem actCommit_staged (h : u.stageOf req p ≠ []) :
    u.actCommit req p 1 =
      (u.addSnapshot ⟨p, req, u.tim.due, u.stageOf req p, []⟩).emptyStage req p := by
  simp [State.actCommit, bit, h]

theorem actCommit_discard : u.actCommit req p 2 = u.emptyStage req p := by
  simp [State.actCommit, bit]

end

/-! ### BLK_CTRL.EN and the end of a block reset (R26, R423) -/

section
variable {u : State} {p inst due : Nat} {k : PageKind} {en : Bool}

theorem actCtrl_enable (u : State) (p due : Nat) (k : PageKind) (en : Bool) :
    u.actCtrl p k (if en then 1 else 0) allOnes due = u.setEn p k en due := by
  cases en <;> simp [State.actCtrl, bit, allOnes]

theorem setEn_inert (h : enActs k = false) : u.setEn p k en due = if en then u else u.stickPage p 3 := by
  simp [State.setEn, h]

theorem setEn_same (h : enActs k = true) (hen : u.flag (p * 0x1000 + 0x008) 0 = en) : u.setEn p k en due = u := by
  simp [State.setEn, h, hen]

theorem setEn_change (h : enActs k = true) (hen : u.flag (p * 0x1000 + 0x008) 0 ≠ en) :
    u.setEn p k en due = { u.setFld (p * 0x1000 + 0x008) 0 1 (if en then 1 else 0) with
      acc := { u.acc with enables := u.acc.enables ++ [(p, en, due)] } } := by
  simp [State.setEn, h, hen]

end

/-- A page leaves its block reset; a block whose service was out comes back at the milestone due. -/
def State.leaveReset (s : State) (n : Nat) : State :=
  { s with acc := { s.acc with
      inReset := s.acc.inReset.filter (· ≠ n)
      enables := if s.inService n then s.acc.enables else s.acc.enables ++ [(n, true, s.tim.due)] } }

theorem exec_blockResetEnd {s : State} {page : BitVec 12} (h : s.inReset page.toNat = true) :
    exec (.blockResetEnd page) s = .next (s.leaveReset page.toNat) := by
  refine congrArg Host.Outcome.next ((if_neg (by simp [h])).trans ?_)
  unfold State.leaveReset
  cases hserv : s.inService page.toNat
  case true => exact if_pos hserv
  case false => exact if_neg (ne_true_of_eq_false hserv)

theorem inReset_leaveReset (s : State) (n : Nat) : (s.leaveReset n).inReset n = false := by
  simp [State.leaveReset, State.inReset]

/-! ### SYS_RESET (R28) -/

theorem writeBy_sysReset {s u : State} {a : Acc} {val : Word} (h : s.Passes a (ra .sys 0 0x040) val false u) :
    s.writeBy a (ra .sys 0 0x040) val = u.actSysReset a.req.toNat val u.tim.due := by
  have hlands : u.Lands (ra .sys 0 0x040) .sys 0 := ⟨rfl, inReset_of_passes h, rfl⟩
  rw [writeBy_passes h]
  exact actWrite_action hlands ⟨by decide, by decide, by decide⟩ rfl rfl

theorem bit_resetKey (key : BitVec 8) (warm : Bool) : bit (word (key.toNat + at1 warm 8)) 8 = warm := by
  cases warm with
  | false => simp [bit, word, at1]
  | true =>
    have hkey : key.toNat.testBit 8 = false := Nat.testBit_lt_two_pow key.isLt
    have htop : (key.toNat + 2 ^ 8).testBit 8 = true := by
      rw [Nat.add_comm, Nat.testBit_two_pow_add_eq, hkey]
      rfl
    simp only [bit, word, at1, if_true, BitVec.getLsbD_ofNat, htop]
    rfl

theorem bits_resetKey (key : BitVec 8) : bits (word (key.toNat + 256)) 0 8 = key.toNat := by
  have := key.isLt
  simp only [bits, word, BitVec.toNat_ofNat]
  omega

section
variable {u : State} {req due : Nat}

theorem actSysReset_cold (u : State) (req due : Nat) (key : BitVec 8) :
    u.actSysReset req (word key.toNat) due = u := by
  simp [State.actSysReset, show bit (word key.toNat) 8 = false from bit_resetKey key false]

theorem actSysReset_warm (hown : u.ownerReq req = true) (key : BitVec 8) :
    u.actSysReset req (word (key.toNat + 256)) due = if key = 0x57
      then { u with acc := { u.acc with warmDue := some (min due (u.acc.warmDue.getD due)) } }
      else u.stick .sys 0 3 := by
  have hkey : key.toNat = 0x57 ↔ key = 0x57 := by
    rw [← BitVec.toNat_inj]
    rfl
  simp [State.actSysReset, show bit (word (key.toNat + 256)) 8 = true from bit_resetKey key true, bits_resetKey,
    hown, hkey]

end

/-- Settles O10: each command is the write of its register, and the register's action on what the gate leaves. -/
theorem imagesEnablesAndWarmReset : Obligations.ImagesEnablesAndWarmReset := by
  unfold Obligations.ImagesEnablesAndWarmReset
  refine ⟨?_, ?_, fun s page hr => ⟨s.leaveReset page.toNat, exec_blockResetEnd hr, inReset_leaveReset s _, rfl, rfl⟩,
    fun s u a key => ⟨fun hpass hown => ?_, fun hpass => ?_⟩⟩
  · intro s u a page hsome p req mine rest
    obtain ⟨⟨k, inst⟩, hp⟩ := Option.isSome_iff_exists.mp hsome
    refine ⟨fun hpass => ⟨fun hempty => ?_, fun hstaged => ?_⟩, fun hpass => ?_⟩
    · exact congrArg Host.Outcome.next ((writeBy_commit hp hpass).trans (actCommit_empty hempty))
    · refine congrArg Host.Outcome.next (((writeBy_commit hp hpass).trans (actCommit_staged hstaged)).trans ?_)
      rw [addSnapshot_eq]
      rfl
    · exact congrArg Host.Outcome.next ((writeBy_commit hp hpass).trans actCommit_discard)
  · intro s u a page en k inst hp hpass r
    have hwrite := (writeBy_ctrl hp hpass).trans (actCtrl_enable u page.toNat u.tim.due k en)
    refine ⟨fun hk => ?_, fun ⟨hk, hen⟩ => ?_, fun ⟨hk, hen⟩ => ?_⟩
    · exact congrArg Host.Outcome.next (hwrite.trans (setEn_inert hk))
    · exact congrArg Host.Outcome.next (hwrite.trans (setEn_same hk hen))
    · exact congrArg Host.Outcome.next (hwrite.trans (setEn_change hk hen))
  · exact congrArg Host.Outcome.next ((writeBy_sysReset hpass).trans (actSysReset_warm hown key))
  · exact congrArg Host.Outcome.next ((writeBy_sysReset hpass).trans (actSysReset_cold u _ _ key))

end Sys2Proof.Machine
end

section
/-! SUPPORT. Refutation of the statement of locks and table swaps: an automatic swap beyond the end of the tenant table. -/

namespace Sys2Proof.Machine
open Sys2Proof

/-! ### An automatic swap beyond the table (R45, R46, R317)

The clause of the automatic swap bounds no index (only `Instr.wellFormed` does). Entry 768 of the tenant table would lie
where the slice table does, and the count that a tenant's swap advances would lie in the entry itself: the address
`ra .tenStat 768 0x05C` is `TableId.tenant.addr 768 23`. -/

/-- A running device with writes in the image of tenant entry 768, which gives the entry a TENANT number and clears the
bits that are reserved in a tenant's entry: an image that no check refuses. -/
def strayTenant : State :=
  { State.reset with
    pwr := { State.reset.pwr with live := true }
    acc := { State.reset.acc with
      images := [(0x500000, 0x100), (0x5000C0, 0), (0x500100, 0), (0x500140, 0), (0x500180, 0), (0x5001C0, 0)]
      dirty := [⟨.tenant, 768, 0⟩] } }

theorem strayTenant_mayAutoSwap : strayTenant.mayAutoSwap .tenant 768 = true := by decide

theorem strayTenant_accepted : strayTenant.entryReasons .tenant 768 = [] := by decide +kernel

theorem strayTenant_images_sorted : kSorted strayTenant.acc.images = true := by decide

/-- The image leaves word 23 at 0. -/
theorem strayTenant_image_word : kget strayTenant.acc.images (TableId.tenant.addr 768 23)
    (strayTenant.reg (TableId.tenant.addr 768 23)) = 0 := by decide

/-- After the swap word 23 holds the count. -/
theorem strayTenant_swapped_word :
    (strayTenant.autoSwap .tenant 768).reg (TableId.tenant.addr 768 23) = 1 := by decide +kernel

theorem exec_automaticSwap {s : State} {t : TableId} {idx : BitVec 14} (h : s.mayAutoSwap t idx.toNat = true) :
    exec (.automaticSwap t idx) s = .next (s.autoSwap t idx.toNat) :=
  congrArg Host.Outcome.next (if_pos h)

/-- Refutes O11: the automatic swap's clause holds for every index, and at tenant entry 768, beyond the table's 128, an
accepted entry does not have its image in force afterwards: the swap count has been written over word 23. -/
theorem not_locksAndTableSwaps : ¬ Obligations.LocksAndTableSwaps := by
  unfold Obligations.LocksAndTableSwaps
  intro h
  obtain ⟨-, -, -, hauto, -⟩ := h
  obtain ⟨hmay, -⟩ := hauto strayTenant .tenant 768
  obtain ⟨v, hv, ⟨-, -, -, hwords⟩, -⟩ := hmay ⟨rfl, rfl, by decide, by decide, by decide⟩
  have hswap : v = strayTenant.autoSwap .tenant 768 :=
    Host.Outcome.next.inj (hv.symm.trans (exec_automaticSwap strayTenant_mayAutoSwap))
  have hword := hwords strayTenant_accepted strayTenant_images_sorted (by decide) 23 (by decide)
  rw [hswap] at hword
  have habsurd : (1 : Word) = 0 :=
    strayTenant_swapped_word.symm.trans (hword.trans strayTenant_image_word)
  exact absurd habsurd (by decide)

end Sys2Proof.Machine
end

section
/-! SUPPORT. Proof of the statement of block resets (R423): what the page's registers read, and what else goes. -/

namespace Sys2Proof.Machine
open Sys2Proof

/-! ### The page map, read backwards (R49) -/

theorem forall_mem_some_ite {α : Type} {c : Prop} [Decidable c] {x : α} {y : Option α} {P : α → Prop}
    (hx : c → P x) (hy : ∀ v ∈ y, P v) : ∀ v ∈ (if c then some x else y), P v := by
  split
  case isTrue h => exact fun v hv => Option.some.inj hv ▸ hx h
  case isFalse => exact hy

theorem pageNum_of_mem_pageOf (p : Nat) : ∀ v ∈ pageOf p, pageNum v.1 v.2 = p := by
  unfold pageOf
  repeat refine forall_mem_some_ite (fun h => by simp only [pageNum]; omega) ?_
  exact fun v hv => nomatch hv

/-- The page map has one page for a page kind and its number. -/
theorem pageNum_of_pageOf {p inst : Nat} {k : PageKind} (h : pageOf p = some (k, inst)) : pageNum k inst = p :=
  pageNum_of_mem_pageOf p (k, inst) h

/-! ### The registers of a page in reset -/

section
variable {u : State} {p inst : Nat} {k : PageKind}

theorem reg_clearPage (u : State) (p : Nat) (k : PageKind) (b : Nat) :
    (u.clearPage p k).reg b = if b / 0x1000 ≠ p ∨ keptOnReset k (b % 0x1000) = true then u.reg b else regReset b := by
  have h := kget_filter_key (fun a => decide (a / 0x1000 ≠ p) || keptOnReset k (a % 0x1000)) u.regs b (regReset b)
  simp only [Bool.or_eq_true, decide_eq_true_eq] at h
  exact h

/-- The registers that a block reset leaves: a bank keeps its count of faulted channels. -/
def State.resetRegs (u : State) (p : Nat) (k : PageKind) (inst : Nat) : State :=
  if k = .bank then (u.clearPage p k).setFld (ra .bank inst 0x078) 16 9 (u.fld (ra .bank inst 0x078) 16 9)
  else u.clearPage p k

theorem reg_resetRegs {b : Nat} (hb : k = .bank → b ≠ ra .bank inst 0x078) :
    (u.resetRegs p k inst).reg b = (u.clearPage p k).reg b := by
  unfold State.resetRegs
  split
  case isTrue hk => exact (reg_setReg _ _ _ _).trans (if_neg (hb hk))
  case isFalse => rfl

theorem reg_resetRegs_cleared {b : Nat} (hp : b / 0x1000 = p) (hkept : keptOnReset k (b % 0x1000) = false)
    (hb : k = .bank → b ≠ ra .bank inst 0x078) : (u.resetRegs p k inst).reg b = regReset b := by
  rw [reg_resetRegs hb, reg_clearPage, if_neg]
  simp [hp, hkept]

theorem reg_resetRegs_elsewhere {b : Nat} (hpage : pageOf p = some (k, inst)) (hp : b / 0x1000 ≠ p) :
    (u.resetRegs p k inst).reg b = u.reg b := by
  have hb : k = .bank → b ≠ ra .bank inst 0x078 := by
    rintro rfl rfl
    have := pageNum_of_pageOf hpage
    simp only [ra] at hp
    omega
  rw [reg_resetRegs hb, reg_clearPage, if_pos (.inl hp)]

/-- What an access holds of a page goes with its block reset. -/
def Access.dropPage (c : Access) (p : Nat) : Access :=
  { c with
    stage := c.stage.filter fun w => w.page ≠ p
    snaps := c.snaps.filter fun x => x.page ≠ p
    locks := c.locks.filter fun l => l.page ≠ p
    latches := c.latches.filter fun l => l.addr / 0x1000 ≠ p
    lows := c.lows.filter fun l => l.addr / 0x1000 ≠ p
    enables := c.enables.filter fun e => e.1 ≠ p
    inReset := c.inReset ++ [p] }

/-- The words of the glaze in force on a page are noted to come back. -/
def State.noteReapply (v : State) (p : Nat) : State :=
  { v with glz := { v.glz with
      under := v.glz.under.map fun w => if w.1 / 0x1000 = p then (w.1, w.2.1, regReset w.1 &&& w.2.1) else w
      reapply := if v.glz.under.any fun w => decide (w.1 / 0x1000 = p) then v.glz.reapply ++ [p] else v.glz.reapply } }

/-- The page with its registers and all that accesses held of it cleared, before its datapath clears. -/
def State.resetPage (u : State) (p : Nat) (k : PageKind) (inst : Nat) : State :=
  { u.resetRegs p k inst with acc := (u.resetRegs p k inst).acc.dropPage p }

theorem startReset_eq (hp : pageOf p = some (k, inst)) :
    u.startReset p =
      (if (u.lockOf p).isSome then (((u.resetPage p k inst).resetDatapath k inst).checkSync u).stickPage p 0
       else ((u.resetPage p k inst).resetDatapath k inst).checkSync u).noteReapply p := by
  unfold State.startReset
  rw [hp]
  rfl

theorem actCtrl_reset (u : State) (p due : Nat) (k : PageKind) : u.actCtrl p k 2 allOnes due = u.startReset p := by
  simp [State.actCtrl, bit, allOnes]

theorem resetDatapath_inert (u : State) (inst : Nat)
    (h : k ∈ [.sys, .alloc, .stb, .flash, .lpddr, .gpio, .i2c, .fabDisc, .fabRouter, .ten, .tenStat]) :
    u.resetDatapath k inst = u := by
  cases k <;> simp at h <;> rfl

end

/-- Settles O12: the write of BLK_CTRL starts the reset, and its page reads as `resetPage` does. -/
theorem blockResetClearsThePage : Obligations.BlockResetClearsThePage := by
  unfold Obligations.BlockResetClearsThePage
  intro s u a page k inst hp hpass p faulted cleared0 cleared1 cleared done0 done here
  have hcleared : cleared = u.resetPage p k inst := by
    by_cases hk : k = .bank
    · subst hk
      rfl
    · simp only [cleared, cleared1, if_neg hk, State.resetPage, State.resetRegs]
      rfl
  have hdone : u.startReset p = done.noteReapply p := by
    rw [startReset_eq hp, ← hcleared]
  refine ⟨?_, fun b hb hkept hbank => ?_, fun b hb => ?_, fun hk => resetDatapath_inert _ _ hk⟩
  · refine congrArg Host.Outcome.next ((writeBy_ctrl hp hpass).trans ((actCtrl_reset u p _ k).trans ?_))
    rw [hdone]
    simp only [State.noteReapply, here, decide_eq_true_eq]
  · rw [hcleared]
    exact reg_resetRegs_cleared hb hkept hbank
  · rw [hcleared]
    exact reg_resetRegs_elsewhere hp hb

end Sys2Proof.Machine
end

section
/-! SUPPORT. Proof of the statement of reads with effects: latched pairs (R41 to R43), widths (R29 to R32), and the counts
that their read clears. -/

namespace Sys2Proof.Machine
open Sys2Proof

/-! ### Which words form a pair (R41) -/

/-- The offsets of a pair's words on its page. -/
def Pair.offsets (q : Pair) : List Nat := [q.lo, q.hi] ++ q.comp.toList

/-- A page's pairs lie in its body, at registers without W1C bits, and each has two words. -/
theorem pagePairs_listed (k : PageKind) (inst : Nat) :
    ((pagePairs k).all fun q => decide (q.lo ≠ q.hi) && q.offsets.all fun off =>
      decide (0x040 ≤ off) && !(pageFields k inst off).isEmpty &&
        !(pageFields k inst off).any fun f => decide (f.code = .w1c)) = true := by
  cases k <;> rfl

/-- A word of a pair, with what the tables of its page say of it. -/
structure PairWord (a : Nat) (p : Pair) (k : PageKind) (inst : Nat) : Prop where
  page : pageOf (a / 0x1000) = some (k, inst)
  body : 0x040 ≤ a % 0x1000
  listed : (addrFields a).isEmpty = false
  notW1c : isW1c a = false
  two : p.lo ≠ p.hi

theorem pairWord_of_pairAt {a : Nat} {p : Pair} (h : pairAt a = some p) : ∃ k inst, PairWord a p k inst := by
  unfold pairAt at h
  split at h
  case h_1 => cases h
  case h_2 k inst hpage =>
    refine ⟨k, inst, ?_⟩
    obtain ⟨q, hfind, rfl⟩ := Option.map_eq_some_iff.mp h
    have hmem := List.mem_of_find?_eq_some hfind
    have hoff : a % 0x1000 ∈ q.offsets := by
      have := List.find?_some hfind
      simp only [Bool.or_eq_true, decide_eq_true_eq] at this
      simp only [Pair.offsets, List.mem_append, List.mem_cons, Option.mem_toList]
      tauto
    have hq := List.all_eq_true.mp (pagePairs_listed k inst) q hmem
    simp only [Bool.and_eq_true, decide_eq_true_eq, List.all_eq_true, Bool.not_eq_true'] at hq
    obtain ⟨htwo, hwords⟩ := hq
    obtain ⟨⟨hbody, hlisted⟩, hw1c⟩ := hwords _ hoff
    have hfields : addrFields a = pageFields k inst (a % 0x1000) := by
      simp only [addrFields, hpage]
    exact ⟨hpage, hbody, by rw [hfields, hlisted], by rw [isW1c, hfields, hw1c], by simpa using htwo⟩

/-! ### Full-word reads -/

section
variable {s : State} {a : Acc} {addr req : Nat} {p : Pair}

/-- A read that reaches its register answers what the register does, in the bits that the requester sees. -/
theorem readFor_of_data (h : s.Reads a addr) {w : Word}
    (hw : ((s.accept a).readWord a.req.toNat addr).acc.answer = .data w) :
    s.readFor a addr = ((s.accept a).readWord a.req.toNat addr).answerWith
      (.data (w &&& (s.accept a).readMask a.req.toNat addr)) := by
  unfold State.readFor
  rw [guardedRead_reads h]
  cases ht : (s.accept a).tenantOf a.req.toNat with
  | none =>
    simp only [State.readMask, ht, and_allOnes]
    rw [← hw]
    rfl
  | some t =>
    simp only [State.readMask, ht, State.maskAnswer, hw]

theorem readWord_pair (hp : pairAt addr = some p) : s.readWord req addr = s.readPair req p addr := by
  obtain ⟨k, inst, hword⟩ := pairWord_of_pairAt hp
  simp only [State.readWord, hword.page, hp]

/-- What a register reads does not depend on latches. -/
theorem view_endLatch (s : State) (r lo req a : Nat) : (s.endLatch r lo).view req a = s.view req a := rfl

/-- The latches of a requester on other pairs, and those of others. -/
def State.otherLatches (s : State) (req lo : Nat) : List Latch :=
  s.acc.latches.filter fun l => !(decide (l.req = req) && decide (l.addr = lo))

theorem readPair_low (s : State) (req : Nat) (p : Pair) :
    s.readPair req p p.lo = { s with acc := { s.acc with
      latches := s.otherLatches req p.lo ++
        [⟨req, p.lo, ([p.hi] ++ p.comp.toList).map fun x => (x, s.view req x), false⟩]
      answer := .data (s.view req p.lo) } } := by
  simp only [State.readPair, if_true, view_endLatch]
  rfl

theorem readPair_live (h : addr ≠ p.lo) (hl : s.latchOf req p.lo = none) :
    s.readPair req p addr = s.answerWith (.data (s.view req addr)) := by
  simp only [State.readPair, if_neg h, hl]

theorem readPair_latched {l : Latch} (h : p.hi ≠ p.lo) (hl : s.latchOf req p.lo = some l) :
    s.readPair req p p.hi = { s with acc := { s.acc with
      latches := s.otherLatches req p.lo
      answer := .data (if p.newer && l.newer then kget l.vals p.hi 0 ||| word (2 ^ 31) else kget l.vals p.hi 0) } } := by
  simp only [State.readPair, if_neg h, hl, if_true]
  rfl

/-- A read of a pair's low word latches the others (R41). -/
theorem readFor_pairLow (h : s.Reads a addr) (hp : pairAt addr = some p) (hlo : p.lo = addr) :
    s.readFor a addr = { s.accept a with acc := { (s.accept a).acc with
      latches := (s.accept a).otherLatches a.req.toNat p.lo ++
        [⟨a.req.toNat, p.lo, ([p.hi] ++ p.comp.toList).map fun x => (x, (s.accept a).view a.req.toNat x), false⟩]
      answer := .data ((s.accept a).view a.req.toNat addr &&& (s.accept a).readMask a.req.toNat addr) } } := by
  subst hlo
  have hword := (readWord_pair hp).trans (readPair_low (s.accept a) a.req.toNat p)
  rw [readFor_of_data h (congrArg (fun v : State => v.acc.answer) hword), hword]
  rfl

theorem readFor_pairLive (h : s.Reads a addr) (hp : pairAt addr = some p) (hlo : addr ≠ p.lo)
    (hl : (s.accept a).latchOf a.req.toNat p.lo = none) :
    s.readFor a addr = (s.accept a).answerWith
      (.data ((s.accept a).view a.req.toNat addr &&& (s.accept a).readMask a.req.toNat addr)) := by
  have hword := (readWord_pair hp).trans (readPair_live hlo hl)
  rw [readFor_of_data h (congrArg (fun v : State => v.acc.answer) hword), hword]
  rfl

/-- A read of a pair's high word answers what its low word latched, and ends the latch (R41). -/
theorem readFor_pairLatched {l : Latch} (h : s.Reads a addr) (hp : pairAt addr = some p) (hhi : p.hi = addr)
    (hlo : p.lo ≠ addr) (hl : (s.accept a).latchOf a.req.toNat p.lo = some l) :
    s.readFor a addr = { s.accept a with acc := { (s.accept a).acc with
      latches := (s.accept a).otherLatches a.req.toNat p.lo
      answer := .data ((if p.newer && l.newer then kget l.vals addr 0 ||| word (2 ^ 31) else kget l.vals addr 0) &&&
        (s.accept a).readMask a.req.toNat addr) } } := by
  subst hhi
  have hword := (readWord_pair hp).trans (readPair_latched (Ne.symm hlo) hl)
  rw [readFor_of_data h (congrArg (fun v : State => v.acc.answer) hword), hword]
  rfl

end

/-! ### Reads of every width (R29 to R32) -/

section
variable {s : State} {a : Acc} {addr width : Nat}

theorem readAccess_word (h : addr % 4 = 0) : s.readAccess a addr 4 = s.readFor a addr := by
  simp [State.readAccess, h]

theorem readAccess_double (h : addr % 8 = 0) :
    s.readAccess a addr 8 =
      ((s.readFor a addr).readFor ⟨a.req, 0⟩ (addr + 4)).answerWith
        (.pair (s.readFor a addr).answered ((s.readFor a addr).readFor ⟨a.req, 0⟩ (addr + 4)).answered) := by
  simp [State.readAccess, h]

theorem readAccess_unaligned (hne : addr % width ≠ 0) (hans : (s.accept a).answers (addr / 0x1000) = true)
    (hreq : (s.accept a).validReq a.req.toNat = true) :
    s.readAccess a addr width =
      ((s.accept a).stick .sys 0 9).answerWith (if a.req.toNat = 1 then .nack else .unsupported) := by
  simp only [State.readAccess, if_pos (Or.inr hne : width = 0 ∨ addr % width ≠ 0), hans, hreq, Bool.and_self, if_true]

/-- A narrow read answers the addressed bytes of the live word, and has no effect (R29, R42). -/
theorem readAccess_narrow (hwidth : width = 1 ∨ width = 2) (halign : addr % width = 0)
    (h : s.Reads a (addr / 4 * 4)) :
    s.readAccess a addr width = (s.accept a).answerWith (.data (word
      (((s.accept a).view a.req.toNat (addr / 4 * 4) &&& (s.accept a).readMask a.req.toNat (addr / 4 * 4)).toNat
        / 2 ^ (8 * (addr % 4)) % 2 ^ (8 * width)))) := by
  have hnarrow : s.readAccess a addr width = s.readNarrow a addr width := by
    have hok : ¬(width = 0 ∨ addr % width ≠ 0) := by omega
    have hlt : width < 4 := by omega
    simp only [State.readAccess, if_neg hok, if_pos hlt]
  rw [hnarrow, State.readNarrow, guardedRead_reads h]
  rfl

end

section
variable {s : State} {a : Acc} {addr : BitVec 24} {width : BitVec 4} {p : Pair}

theorem exec_pairLowRead (hp : pairAt (addr.toNat / 4 * 4) = some p) (hlo : p.lo = addr.toNat / 4 * 4) :
    exec (.pairLowRead a ⟨addr, width⟩) s = .next (s.readAccess a addr.toNat width.toNat) := by
  change execPairLowRead a ⟨addr, width⟩ s = _
  simp only [execPairLowRead, hp, if_pos hlo]

theorem exec_pairHighRead (hp : pairAt (addr.toNat / 4 * 4) = some p) (hlo : p.lo ≠ addr.toNat / 4 * 4) :
    exec (.pairHighRead a ⟨addr, width⟩) s = .next (s.readAccess a addr.toNat width.toNat) := by
  change execPairHighRead a ⟨addr, width⟩ s = _
  simp only [execPairHighRead, hp, if_neg hlo]

/-- A full-word read that starts at a pair's low word. -/
theorem exec_pairLowRead_word (halign : addr.toNat % 4 = 0) (hp : pairAt addr.toNat = some p)
    (hlo : p.lo = addr.toNat) : exec (.pairLowRead a ⟨addr, 4⟩) s = .next (s.readFor a addr.toNat) := by
  have hbase : addr.toNat / 4 * 4 = addr.toNat := by omega
  rw [exec_pairLowRead (hbase.symm ▸ hp) (hbase.symm ▸ hlo)]
  exact congrArg Host.Outcome.next (readAccess_word halign)

theorem exec_pairHighRead_word (halign : addr.toNat % 4 = 0) (hp : pairAt addr.toNat = some p)
    (hlo : p.lo ≠ addr.toNat) : exec (.pairHighRead a ⟨addr, 4⟩) s = .next (s.readFor a addr.toNat) := by
  have hbase : addr.toNat / 4 * 4 = addr.toNat := by omega
  rw [exec_pairHighRead (hbase.symm ▸ hp) (hbase.symm ▸ hlo)]
  exact congrArg Host.Outcome.next (readAccess_word halign)

end

/-! ### Writes of a writable pair (R43) -/

section
variable {s u : State} {a : Acc} {addr req due : Nat} {val : Word} {p : Pair}

theorem writeBy_pair (hp : pairAt addr = some p) (hpass : s.Passes a addr val false u) :
    s.writeBy a addr val = u.actWrite a.req.toNat addr val allOnes false u.tim.due := by
  obtain ⟨k, inst, hword⟩ := pairWord_of_pairAt hp
  have hbody := hword.body
  have hexempt : (decide (addr % 0x1000 = 0x018) || isW1c addr) = false := by
    rw [hword.notW1c, Bool.or_false, decide_eq_false_iff_not]
    omega
  exact writeBy_passes (hexempt ▸ hpass)

theorem lands_pair (hp : pairAt addr = some p) (hr : u.inReset (addr / 0x1000) = false) :
    InBody addr ∧ ∃ k inst, u.Lands addr k inst := by
  obtain ⟨k, inst, hword⟩ := pairWord_of_pairAt hp
  have hbody := hword.body
  exact ⟨⟨by omega, by omega, by omega⟩, k, inst, hword.page, hr, hword.listed⟩

theorem writeBy_pairLow (hp : pairAt addr = some p) (hw : p.writable = true) (hlo : p.lo = addr)
    (hpass : s.Passes a addr val false u) : s.writeBy a addr val = u.holdLow a.req.toNat p.lo val := by
  obtain ⟨hbody, k, inst, hlands⟩ := lands_pair hp (inReset_of_passes hpass)
  rw [writeBy_pair hp hpass, actWrite_pairLow hlands hbody hp hw hlo, hlo]

theorem writeBy_pairHigh (hp : pairAt addr = some p) (hw : p.writable = true) (hlo : p.lo ≠ addr)
    (hpass : s.Passes a addr val false u) :
    s.writeBy a addr val = u.writePairHigh a.req.toNat p val u.tim.due := by
  obtain ⟨hbody, k, inst, hlands⟩ := lands_pair hp (inReset_of_passes hpass)
  rw [writeBy_pair hp hpass, actWrite_pairHigh hlands hbody hp hw hlo]

/-- The low word that a pair takes with its high word: the writer's held one, if there is one. -/
def State.takeLow (u : State) (req lo : Nat) : State :=
  match u.heldLow req lo with
  | some w => u.setReg lo w
  | none => u

/-- A pair of the TIM page other than TIM_INC takes both words whole. -/
theorem writePairHigh_tim (hpage : p.lo / 0x1000 = pageNum .tim 0) (hinc : p.lo ≠ ra .tim 0 0x060) :
    u.writePairHigh req p val due = ((u.takeLow req p.lo).setReg p.hi val).dropLow req p.lo := by
  have hpci : ¬p.lo / 0x1000 = pageNum .pci 0 := by
    rw [hpage]
    decide
  simp only [State.writePairHigh, if_neg hinc, if_neg hpci, and_allOnes]
  rfl

theorem exec_pairLowWrite {addr : BitVec 24} (hp : pairAt addr.toNat = some p) (hlo : p.lo = addr.toNat) :
    exec (.pairLowWrite a addr val) s = .next (s.writeBy a addr.toNat val) := by
  change execPairLowWrite a addr val s = _
  simp only [execPairLowWrite, hp, if_pos hlo]

theorem exec_pairHighWrite {addr : BitVec 24} (hp : pairAt addr.toNat = some p) (hhi : p.hi = addr.toNat) :
    exec (.pairHighWrite a addr val) s = .next (s.writeBy a addr.toNat val) := by
  change execPairHighWrite a addr val s = _
  simp only [execPairHighWrite, hp, if_pos hhi]

end

/-! ### Counts that their read clears (R23, R29) -/

section
variable {s : State} {a : Acc} {addr : Nat}

theorem next_readClear (h : s.Reads a addr) :
    (.next (s.guardedRead a addr fun t => t.readClear addr) : Out) = .next ((s.accept a).readOff addr) :=
  congrArg Host.Outcome.next (guardedRead_reads h _)

/-- A tenant sees nothing of the SYS page's counts. -/
theorem tenantOf_of_reads_sysRetry (h : s.Reads a (ra .sys 0 0x04C)) : (s.accept a).tenantOf a.req.toNat = none := by
  cases ht : (s.accept a).tenantOf a.req.toNat with
  | none => rfl
  | some t =>
    have hsee : (s.accept a).seeMask t a.req.toNat (ra .sys 0 0x04C) = 0 := rfl
    simp [State.Reads, State.sees, ht, hsee] at h

theorem readFor_sysRetry (h : s.Reads a (ra .sys 0 0x04C)) :
    s.readFor a (ra .sys 0 0x04C) = (s.accept a).readOff (ra .sys 0 0x04C) := by
  rw [State.readFor, guardedRead_reads h, tenantOf_of_reads_sysRetry h]
  rfl

end

/-- Settles O13: pairs word by word and width by width, then the counts, whose registers share one read. -/
theorem readsWithEffects : Obligations.ReadsWithEffects := by
  unfold Obligations.ReadsWithEffects
  refine ⟨⟨?_, ?_, ?_, ?_, ?_⟩, ?_, ?_, ?_, ?_⟩
  · intro s a addr p halign hreads hp u req m others
    refine ⟨fun hlo => ?_, fun hhi hlo => ⟨fun hl => ?_, fun l hl => ?_⟩⟩
    · rw [exec_pairLowRead_word halign hp hlo, readFor_pairLow hreads hp hlo]
      rfl
    · rw [exec_pairHighRead_word halign hp hlo, readFor_pairLive hreads hp (Ne.symm hlo) hl]
    · rw [exec_pairHighRead_word halign hp hlo, readFor_pairLatched hreads hp hhi hlo hl]
      rfl
  · intro s a addr width p hwidth halign base u w t hreads hp
    have hsize : width.toNat = 1 ∨ width.toNat = 2 := by
      rcases hwidth with rfl | rfl
      · exact .inl rfl
      · exact .inr rfl
    have hnarrow := readAccess_narrow hsize halign hreads
    exact ⟨fun hlo => (exec_pairLowRead hp hlo).trans (congrArg _ hnarrow),
      fun hlo => (exec_pairHighRead hp hlo).trans (congrArg _ hnarrow)⟩
  · intro s a addr p halign hp hlo hp' hlo'
    have hnext : (addr + 4).toNat = addr.toNat + 4 := by
      have := addr.isLt
      rw [BitVec.toNat_add]
      change (addr.toNat + 4) % 2 ^ 24 = _
      omega
    have hbase : addr.toNat / 4 * 4 = addr.toNat := by omega
    refine ⟨s.readFor a addr.toNat, (s.readFor a addr.toNat).readFor ⟨a.req, 0⟩ (addr + 4).toNat,
      exec_pairLowRead_word (by omega) hp hlo, exec_pairHighRead_word (by omega) hp' hlo', ?_⟩
    rw [exec_pairLowRead (hbase.symm ▸ hp) (hbase.symm ▸ hlo), hnext]
    exact congrArg Host.Outcome.next (readAccess_double halign)
  · intro s a addr width p hwidth hne hp u hans hreq t
    have hfails := readAccess_unaligned hne hans hreq
    exact ⟨fun hlo => (exec_pairLowRead hp hlo).trans (congrArg _ hfails),
      fun hlo => (exec_pairHighRead hp hlo).trans (congrArg _ hfails)⟩
  · intro s u a addr val p hp hw hpass req rest
    refine ⟨fun hlo => ?_, fun hhi hpage hinc => ?_⟩
    · rw [exec_pairLowWrite hp hlo, writeBy_pairLow hp hw hlo hpass]
      rfl
    · obtain ⟨k, inst, hword⟩ := pairWord_of_pairAt hp
      have hlo : p.lo ≠ addr.toNat := hhi ▸ hword.two
      rw [exec_pairHighWrite hp hhi, writeBy_pairHigh hp hw hlo hpass, writePairHigh_tim hpage hinc]
      simp only [State.takeLow]
      cases u.heldLow req p.lo <;> rfl
  · exact fun s a h => congrArg Host.Outcome.next (readFor_sysRetry h)
  · exact fun s a b => ⟨next_readClear, next_readClear, next_readClear, next_readClear⟩
  · exact fun s a p => ⟨next_readClear, next_readClear, next_readClear, next_readClear⟩
  · exact fun s a h => next_readClear h

end Sys2Proof.Machine
end

section
/-! SUPPORT. What sending records leaves alone: a frame that every function on the way from a completed record to the
lake, the sessions and the fabric keeps (R187 to R190, R262, R264, R277, R280). -/

namespace Sys2Proof.Machine
open Sys2Proof

/-! ### Nothing but what records change on their way out -/

/-- `t` differs from `s` at most in what records change on their way out: registers, the stream processor, the observations
of the alarm engine, the fabric and its frames, and the lake. -/
def State.OnlyEmits (s t : State) : Prop :=
  t = { s with regs := t.regs, spe := t.spe, alm := t.alm, fab := t.fab, frames := t.frames, lake := t.lake }

section
variable {s t u : State}

theorem onlyEmits_refl (s : State) : s.OnlyEmits s := rfl

theorem State.OnlyEmits.trans (h : s.OnlyEmits t) (h' : t.OnlyEmits u) : s.OnlyEmits u :=
  Eq.trans h' (congrArg (fun v : State => { v with regs := u.regs, spe := u.spe, alm := u.alm, fab := u.fab,
                                                   frames := u.frames, lake := u.lake }) h)

/-- Transitivity with the later step first, which names the state in between. -/
theorem State.OnlyEmits.after (h' : t.OnlyEmits u) (h : s.OnlyEmits t) : s.OnlyEmits u := h.trans h'

theorem State.OnlyEmits.port (h : s.OnlyEmits t) (c : Nat) : t.port c = s.port c := by
  rw [h]
  rfl

theorem onlyEmits_ite {p : Prop} [Decidable p] (ht : s.OnlyEmits t) (hu : s.OnlyEmits u) :
    s.OnlyEmits (if p then t else u) := by
  split
  · exact ht
  · exact hu

theorem onlyEmits_each {α : Type} (l : List α) {f : State → α → State} (hf : ∀ (t : State) x, t.OnlyEmits (f t x))
    (s : State) : s.OnlyEmits (s.each l f) := by
  induction l generalizing s with
  | nil => exact onlyEmits_refl s
  | cons x l ih => exact (hf s x).trans (ih (f s x))

end

section
variable (s : State)

theorem onlyEmits_stick (k : PageKind) (i n : Nat) : s.OnlyEmits (s.stick k i n) := rfl

theorem onlyEmits_setStream (i : Nat) (v : Stream) : s.OnlyEmits (s.setStream i v) := rfl

theorem onlyEmits_ringAdd (x : RingItem) : s.OnlyEmits (s.ringAdd x) := onlyEmits_ite rfl rfl

/-! ### Sending (R247, R250, R256, R258) -/

theorem onlyEmits_queueOn (q : Nat) (fs : List TxFrag) : s.OnlyEmits (s.queueOn q fs) := onlyEmits_ite rfl rfl

theorem onlyEmits_sendOn (egress cls kind dest session : Nat) (payload : List Int) (len : Nat) :
    s.OnlyEmits (s.sendOn egress cls kind dest session payload len) :=
  onlyEmits_ite rfl ((onlyEmits_queueOn _ _ _).after rfl)

theorem onlyEmits_sendTo (cls kind dest session : Nat) (payload : List Int) (len : Nat) :
    s.OnlyEmits (s.sendTo cls kind dest session payload len) := by
  unfold State.sendTo
  split
  case h_1 => exact onlyEmits_refl s
  case h_2 own _ =>
    refine onlyEmits_ite (onlyEmits_refl s) ?_
    split
    case h_1 => exact onlyEmits_sendOn s ..
    case h_2 => rfl

theorem onlyEmits_sendParts (cls kind dest session : Nat) (head : List Int) (data : List Byte) :
    s.OnlyEmits (s.sendParts cls kind dest session head data) :=
  onlyEmits_each _ (fun t _ => onlyEmits_sendTo t ..) s

theorem onlyEmits_sendRecord (x : Session) (cls : Nat) (r : Record) (recovered : Bool) :
    s.OnlyEmits (s.sendRecord x cls r recovered) :=
  onlyEmits_ite (onlyEmits_sendOn s ..) (onlyEmits_sendTo s ..)

/-! ### The lake takes a record (R277, R279, R280, R285) -/

theorem onlyEmits_sealSeg (g : Segment) : s.OnlyEmits (s.sealSeg g).1 := by
  unfold State.sealSeg State.pushSeg
  split
  case isTrue => exact onlyEmits_each _ (fun t _ => onlyEmits_sendParts t ..) s
  case isFalse => exact onlyEmits_refl s

theorem onlyEmits_setSeg (g : Segment) : s.OnlyEmits (s.setSeg g) := rfl

theorem onlyEmits_dropSeg (g : Segment) : s.OnlyEmits (s.dropSeg g) :=
  onlyEmits_ite ((onlyEmits_each _ (fun t _ => onlyEmits_sendTo t ..) _).after rfl) rfl

theorem onlyEmits_makeRoom (tenant : Nat) (repl : Bool) : s.OnlyEmits (s.makeRoom tenant repl).1 := by
  unfold State.makeRoom
  split
  case h_1 => exact onlyEmits_refl s
  case h_2 =>
    split
    case h_1 g _ =>
      exact (onlyEmits_dropSeg s g).trans (onlyEmits_ite (onlyEmits_refl _) (onlyEmits_stick _ ..))
    case h_2 => exact onlyEmits_refl s

/-- A record joins a new segment of its class, or is given up where the class has no slot (R266, R277, R280). -/
def State.appendFresh (s : State) (r : Record) (cls : Nat × Bool) (k : Kept) : State × GiveUps :=
  match s.makeRoom cls.1 cls.2 with
  | (s, some slot, gu) =>
    let g : Segment := { num := s.lake.nextSeg, slot := slot, tenant := cls.1, replicated := cls.2,
                         origin := s.fab.addr.getD 0, madeMs := s.tim.msNum }
    ({ s with lake := { s.lake with
        segs := s.lake.segs ++ [{ g with kept := g.kept ++ [k], bytes := g.bytes + r.bytes }]
        nextSeg := s.lake.nextSeg + 1 } }, gu)
  | (s, none, gu) =>
    (if k.claims.isEmpty then s else s.stick .lak 0 8, gu ++ k.claims.map fun n => (r.stream, n, r.seqNo))

theorem onlyEmits_appendFresh (r : Record) (cls : Nat × Bool) (k : Kept) :
    s.OnlyEmits (s.appendFresh r cls k).1 := by
  have hroom := onlyEmits_makeRoom s cls.1 cls.2
  unfold State.appendFresh
  split
  case h_1 hmake =>
    rw [hmake] at hroom
    exact hroom.trans rfl
  case h_2 hmake =>
    rw [hmake] at hroom
    exact hroom.trans (onlyEmits_ite (onlyEmits_refl _) (onlyEmits_stick _ ..))

/-- A record as the lake keeps it, with the sessions that claim it (R277). -/
def State.keptOf (s : State) (r : Record) : Kept :=
  { record := { r with flags := r.flags &&& 0xBF }, claims := (s.subscribers r.stream).map (·.num) }

theorem lakeAppend_eq (r : Record) (cls : Nat × Bool) :
    s.lakeAppend r cls =
      match s.lake.segs.find? fun g => g.tenant = cls.1 && g.replicated = cls.2 && !g.sealed with
      | some g =>
        if g.bytes + r.bytes ≤ 1048384 then
          (s.setSeg { g with kept := g.kept ++ [s.keptOf r], bytes := g.bytes + r.bytes }, [])
        else ((s.sealSeg g).1.setSeg (s.sealSeg g).2).appendFresh r cls (s.keptOf r)
      | none => s.appendFresh r cls (s.keptOf r) := rfl

theorem onlyEmits_lakeAppend (r : Record) (cls : Nat × Bool) : s.OnlyEmits (s.lakeAppend r cls).1 := by
  rw [lakeAppend_eq]
  split
  case h_1 g _ =>
    split
    case isTrue => rfl
    case isFalse => exact (onlyEmits_appendFresh _ r cls _).after ((onlyEmits_sealSeg s g).trans (onlyEmits_setSeg _ _))
  case h_2 => exact onlyEmits_appendFresh s r cls _

/-! ### A record goes out (R187, R189, R262, R264, R267) -/

theorem onlyEmits_offer (x : Session) (r : Record) (recovered : Bool) : s.OnlyEmits (s.offer x r recovered) := by
  unfold State.offer
  split
  case h_1 => exact onlyEmits_refl s
  case h_2 u _ =>
    have hsend : ∀ (y z : Session) (cls : Nat) (again : Bool),
        s.OnlyEmits (((s.markSent x.num r).setSession y).sendRecord z cls r again) := fun y z cls again =>
      (onlyEmits_sendRecord _ z cls r again).after rfl
    exact onlyEmits_ite (onlyEmits_ite (onlyEmits_ite (hsend ..) (onlyEmits_refl s)) (hsend ..)) (onlyEmits_refl s)

theorem onlyEmits_emitOne (r : Record) (refUndet : Bool) (cls : Nat × Bool) :
    s.OnlyEmits (s.emitOne r refUndet cls).1 := by
  unfold State.emitOne
  lift_lets
  intro st mark moved r' numbered spe emitted stored offered
  have hstored : s.OnlyEmits stored.1 := (onlyEmits_lakeAppend emitted r' cls).after rfl
  have hoffered : s.OnlyEmits offered := hstored.trans (onlyEmits_each _ (fun t x => onlyEmits_offer t x r' false) _)
  exact onlyEmits_ite hoffered (hoffered.trans rfl)

theorem onlyEmits_tellGiveUp (g : Nat × Nat × Nat × Nat) : s.OnlyEmits (s.tellGiveUp g) := by
  refine State.OnlyEmits.trans (onlyEmits_stick s .fabRouter 0 10) ?_
  unfold State.tellGiveUp
  dsimp only
  split
  case h_1 x _ => exact onlyEmits_ite (onlyEmits_sendRecord _ ..) (onlyEmits_refl _)
  case h_2 => exact onlyEmits_refl _

end

theorem onlyEmits_emitWith (fuel : Nat) (s : State) (r : Record) (refUndet : Bool) (cls : Nat × Bool) :
    s.OnlyEmits (s.emitWith fuel r refUndet cls) := by
  induction fuel generalizing s r refUndet cls with
  | zero => exact (onlyEmits_emitOne s ..).trans (onlyEmits_each _ (fun t g => onlyEmits_tellGiveUp t g) _)
  | succ fuel ih =>
    exact (onlyEmits_emitOne s ..).trans (onlyEmits_each _
      (fun t g => (onlyEmits_tellGiveUp t g).trans (onlyEmits_each _ (fun v i => ih v ..) _)) _)

section
variable (s : State)

theorem onlyEmits_sendOut (x : OutRec) : s.OnlyEmits (s.sendOut x) :=
  onlyEmits_ite (onlyEmits_ite rfl (onlyEmits_refl s)) (onlyEmits_emitWith ..)

theorem onlyEmits_emitRecord (i kind stamp : Nat) (g : Gather) (extra : Nat) (values : List Int) :
    s.OnlyEmits (s.emitRecord i kind stamp g extra values) :=
  onlyEmits_ite rfl ((onlyEmits_sendOut _ _).after rfl)

/-! ### Chains end and change their rate (R15, R185, R190, R194) -/

theorem onlyEmits_closeRecord (i : Nat) : s.OnlyEmits (s.closeRecord i) :=
  onlyEmits_ite ((onlyEmits_setStream s ..).trans (onlyEmits_emitRecord _ ..)) (onlyEmits_setStream s ..)

theorem onlyEmits_closeShort (i : Nat) : s.OnlyEmits (s.closeShort i) :=
  onlyEmits_ite (onlyEmits_closeRecord s i) (onlyEmits_refl s)

theorem onlyEmits_closeInterval (i : Nat) : s.OnlyEmits (s.closeInterval i) :=
  onlyEmits_ite ((onlyEmits_setStream s ..).trans (onlyEmits_emitRecord _ ..))
    ((onlyEmits_setStream s ..).trans (onlyEmits_emitRecord _ ..))

theorem onlyEmits_endLate (i : Nat) : s.OnlyEmits (s.endLate i) :=
  onlyEmits_ite (onlyEmits_closeInterval s i) (onlyEmits_closeShort s i)

theorem onlyEmits_rateChange (i ri : Nat) : s.OnlyEmits (s.rateChange i ri) := rfl

/-- The entries in effect may be others meanwhile, as long as they are put back, as `State.asLate` does (R15). -/
theorem State.OnlyEmits.restore {s t : State} {m : KMap Word}
    (h : ({ s with acc := { s.acc with effective := m } } : State).OnlyEmits t) :
    s.OnlyEmits { t with acc := { t.acc with effective := s.acc.effective } } := by
  have hback := congrArg (fun v : State => { v with
    acc := { v.acc with effective := s.acc.effective }, regs := t.regs, spe := t.spe, alm := t.alm, fab := t.fab
    frames := t.frames, lake := t.lake }) h
  exact hback

theorem onlyEmits_asLate (l : LateChain) {f : State → State} (hf : ∀ t : State, t.OnlyEmits (f t)) :
    s.OnlyEmits (s.asLate l f) :=
  (onlyEmits_setStream _ ..).after (State.OnlyEmits.restore ((hf _).after rfl))

theorem onlyEmits_endLates : s.OnlyEmits s.endLates := by
  unfold State.endLates
  refine (onlyEmits_each _ (fun t i => ?_) _).after ((onlyEmits_each _ (fun t l =>
    onlyEmits_asLate t l fun v => onlyEmits_endLate v l.stream) _).after rfl)
  split
  case h_1 at_ ri c _ _ => exact onlyEmits_ite (onlyEmits_refl t) (onlyEmits_rateChange t i ri)
  case h_2 => exact onlyEmits_refl t

end

end Sys2Proof.Machine
end

section
/-! SUPPORT. Proofs of the statements of the cell ports: the window that a hold instant closes (R54, R61, R62, R65), what
ends in a port, and the port faults (R52, R54, R71 to R74). -/

namespace Sys2Proof.Machine
open Sys2Proof

/-! ### The steps of a hold instant (R54, R60, R61, R65) -/

/-- What a window that closes now is converted from: for IN16 the mean of the calibration tone (R61, R171). -/
def State.windowOf (s : State) (c at_ : Nat) (win : WindowIn) : WindowIn :=
  if c = 496 then { win with value := s.toneOver (s.winFrom c) at_ } else win

/-- The heater engine of an MS port is fault-disabled (R88). -/
def State.engineFault (s : State) (c : Nat) : Bool := chanKind c = .ms && (s.engine (c - 256)).st = .fault

/-- The window that closes now, as the element holds it. -/
def State.heldOf (s : State) (c at_ : Nat) (win : WindowIn) : HeldWin :=
  let p := s.port c
  { start := s.winFrom c, stop := at_, value := win.value, marker := windowMarker p win.overload (s.engineFault c)
    index := s.rangeNow c, markByte := if chanKind c = .ms then p.markStart + p.markBits else 0, neg := p.pol
    excited := p.excited || s.excitedIn c (s.winFrom c) at_, corr := s.corrNow c, coef := (s.spe.coefF0, s.spe.coefW)
    m := s.groupIndex c at_ }

/-- The element that has integrated goes to hold. -/
def State.putHeld (s : State) (c : Nat) (h : HeldWin) : State :=
  s.setPort c { s.port c with held := some h, visits := 0, excited := false }

/-- A window that has saturated is an overload fault of its port (R74). -/
def State.noteOverload (s : State) (c : Nat) (win : WindowIn) : State :=
  if win.overload && chanKind c ≠ .internal then s.portFault c 0 else s

/-- With REV, an AX port reverses its excitation (R60). -/
def State.turnPol (s : State) (c : Nat) : State :=
  if chanKind c = .ax then s.setPort c { s.port c with pol := bit (s.pcfg c) 6 && !(s.port c).pol } else s

/-- The old window goes to hold and counts for its period, before the range change that is due (R54, R56, R61). -/
def State.closeWindow (s : State) (c at_ : Nat) (win : WindowIn) : State :=
  ((s.putHeld c (s.heldOf c at_ win)).noteWindow c win).noteOverload c win

theorem holdNow_eq (s : State) (c at_ : Nat) (win : WindowIn) :
    s.holdNow c at_ win =
      let t := ((s.closeWindow c at_ (s.windowOf c at_ win)).takeRange c at_).turnPol c
      t.startWindow c at_ ((t.port c).blankAt at_) := rfl

theorem windowOf_value (s : State) (c at_ : Nat) (win : WindowIn) :
    (s.windowOf c at_ win).value = if c = 496 then s.toneOver (s.winFrom c) at_ else win.value := by
  unfold State.windowOf
  split <;> rfl

theorem windowOf_overload (s : State) (c at_ : Nat) (win : WindowIn) : (s.windowOf c at_ win).overload = win.overload := by
  unfold State.windowOf
  split <;> rfl

theorem marker_heldOf (s : State) (c at_ : Nat) (win : WindowIn) :
    (s.heldOf c at_ win).marker =
      if (s.port c).compliance ∨ (s.port c).isOpen ∨ (s.port c).clamp ∨
          (chanKind c = .ms ∧ (s.engine (c - 256)).st = .fault) then 3
      else if win.overload then 2 else if (s.port c).winBlank then 1 else 0 := by
  simp [State.heldOf, windowMarker, State.engineFault, or_assoc]

/-! ### What each step leaves in the port -/

section
variable (s : State) (c : Nat)

theorem port_noteOverload (win : WindowIn) (d : Nat) : (s.noteOverload c win).port d = s.port d := by
  unfold State.noteOverload
  split <;> rfl

/-- Neither PFAULT nor the page's BLK_STICKY is AFE_PCFG. -/
theorem pcfg_portFault (n : Nat) : (s.portFault c n).pcfg c = s.pcfg c := by
  have hpage : portReg c 0 ≠ chanPage c * 0x1000 + 0x010 := by
    unfold portReg
    omega
  have hfault : portReg c 0 ≠ portReg c 12 := by
    unfold portReg
    omega
  simp only [State.pcfg, State.portFault, State.stickPage, State.orReg, reg_setReg, if_neg hpage, if_neg hfault]

theorem cfgRange_congr {s t : State} {c : Nat} (h : t.pcfg c = s.pcfg c) : t.cfgRange c = s.cfgRange c := by
  simp only [State.cfgRange, h]

theorem cfgRange_closeWindow (at_ : Nat) (win : WindowIn) : (s.closeWindow c at_ win).cfgRange c = s.cfgRange c := by
  unfold State.closeWindow State.noteOverload
  split
  case isTrue => exact cfgRange_congr (pcfg_portFault _ c 0)
  case isFalse => rfl

theorem port_putHeld (h : HeldWin) :
    (s.putHeld c h).port c = { s.port c with held := some h, visits := 0, excited := false } := port_setPort_same ..

theorem port_noteWindow (win : WindowIn) :
    (s.noteWindow c win).port c =
      { s.port c with
        sawWindow := true, sawOverload := (s.port c).sawOverload || win.overload, openSeen := true
        openBad := (s.port c).openBad || !openValue c (s.rangeNow c) win.value
        peak := max (s.port c).peak win.value.natAbs } := port_setPort_same ..

theorem port_turnPol :
    (s.turnPol c).port c =
      { s.port c with
        pol := if chanKind c = .ax then bit (s.pcfg c) 6 && !(s.port c).pol else (s.port c).pol } := by
  unfold State.turnPol
  split
  case isTrue => exact port_setPort_same ..
  case isFalse => rfl

theorem port_startWindow (t : Nat) (blank : Bool) :
    (s.startWindow c t blank).port c =
      { s.port c with
        winStart := t, winBlank := blank, elemB := !(s.port c).elemB
        markStart := if chanKind c = .ms then (s.engine (c - 256)).mark else 0
        markBits := if chanKind c = .ms then s.marks7 (c - 256) else 0 } := port_setPort_same ..

theorem held_takeRange (at_ : Nat) : ((s.takeRange c at_).port c).held = (s.port c).held := by
  cases h : (s.port c).change <;> simp [State.takeRange, h]

theorem elemB_takeRange (at_ : Nat) : ((s.takeRange c at_).port c).elemB = (s.port c).elemB := by
  cases h : (s.port c).change <;> simp [State.takeRange, h]

theorem change_takeRange (at_ : Nat) : ((s.takeRange c at_).port c).change = none := by
  cases h : (s.port c).change <;> simp [State.takeRange, h]

theorem range_takeRange {r : Nat} (at_ : Nat) (h : (s.port c).change = some r) :
    ((s.takeRange c at_).port c).range = if r = s.cfgRange c then none else some r := by
  simp [State.takeRange, h]

theorem held_closeWindow (at_ : Nat) (win : WindowIn) :
    ((s.closeWindow c at_ win).port c).held = some (s.heldOf c at_ win) := by
  simp only [State.closeWindow, port_noteOverload, port_noteWindow, port_putHeld]

theorem elemB_closeWindow (at_ : Nat) (win : WindowIn) :
    ((s.closeWindow c at_ win).port c).elemB = (s.port c).elemB := by
  simp only [State.closeWindow, port_noteOverload, port_noteWindow, port_putHeld]

theorem change_closeWindow (at_ : Nat) (win : WindowIn) :
    ((s.closeWindow c at_ win).port c).change = (s.port c).change := by
  simp only [State.closeWindow, port_noteOverload, port_noteWindow, port_putHeld]

/-! ### Other ports (R61) -/

theorem port_takeRange_other {d : Nat} (at_ : Nat) (h : d ≠ c) : (s.takeRange c at_).port d = s.port d := by
  unfold State.takeRange
  dsimp only
  split
  case h_1 => rfl
  case h_2 r _ => exact port_setPort_other s c _ d h

theorem port_turnPol_other {d : Nat} (h : d ≠ c) : (s.turnPol c).port d = s.port d := by
  unfold State.turnPol
  split
  case isTrue => exact port_setPort_other s c _ d h
  case isFalse => rfl

theorem port_closeWindow_other {d : Nat} (at_ : Nat) (win : WindowIn) (h : d ≠ c) :
    (s.closeWindow c at_ win).port d = s.port d :=
  calc (s.closeWindow c at_ win).port d
      = ((s.putHeld c (s.heldOf c at_ win)).noteWindow c win).port d := port_noteOverload _ c win d
    _ = (s.putHeld c (s.heldOf c at_ win)).port d := port_setPort_other _ c _ d h
    _ = s.port d := port_setPort_other s c _ d h

end

/-! ### The port after a hold instant -/

section
variable (s : State) (c at_ : Nat) (win : WindowIn)

theorem held_holdNow : ((s.holdNow c at_ win).port c).held = some (s.heldOf c at_ (s.windowOf c at_ win)) := by
  simp only [holdNow_eq, port_startWindow, port_turnPol, held_takeRange, held_closeWindow]

theorem winStart_holdNow : ((s.holdNow c at_ win).port c).winStart = at_ := by
  simp only [holdNow_eq, port_startWindow]

theorem elemB_holdNow : ((s.holdNow c at_ win).port c).elemB = !(s.port c).elemB := by
  simp only [holdNow_eq, port_startWindow, port_turnPol, elemB_takeRange, elemB_closeWindow]

theorem change_holdNow : ((s.holdNow c at_ win).port c).change = none := by
  simp only [holdNow_eq, port_startWindow, port_turnPol, change_takeRange]

theorem range_holdNow {r : Nat} (h : (s.port c).change = some r) :
    ((s.holdNow c at_ win).port c).range = if r = s.cfgRange c then none else some r := by
  have hdue : ((s.closeWindow c at_ (s.windowOf c at_ win)).port c).change = some r :=
    (change_closeWindow ..).trans h
  simp only [holdNow_eq, port_startWindow, port_turnPol, range_takeRange _ c at_ hdue, cfgRange_closeWindow]

theorem port_holdNow_other {d : Nat} (h : d ≠ c) : (s.holdNow c at_ win).port d = s.port d :=
  calc (s.holdNow c at_ win).port d
      = (((s.closeWindow c at_ (s.windowOf c at_ win)).takeRange c at_).turnPol c).port d := port_setPort_other _ c _ d h
    _ = ((s.closeWindow c at_ (s.windowOf c at_ win)).takeRange c at_).port d := port_turnPol_other _ c h
    _ = (s.closeWindow c at_ (s.windowOf c at_ win)).port d := port_takeRange_other _ c at_ h
    _ = s.port d := port_closeWindow_other s c at_ _ h

end

/-! ### The command -/

/-- A hold instant as the ring records it, and the chains that waited for the window it replaces (R189, R290). -/
def State.noteHold (s : State) (c : Nat) : State := (s.ringAdd (.hold c (s.port c).held s.tim.time)).endLates

theorem port_noteHold (s : State) (c d : Nat) : (s.noteHold c).port d = s.port d :=
  ((onlyEmits_ringAdd s _).trans (onlyEmits_endLates _)).port d

theorem exec_holdInstant_works {s : State} {ch : Fin 512} {dt : Nat} (win : WindowIn)
    (hrun : (s.elapse dt).running = true) (hhold : (s.elapse dt).holds ch.val = true) :
    exec (.holdInstant ch dt win) s = .next (match (s.elapse dt).holdAt ch.val with
      | some at_ => ((s.elapse dt).holdNow ch.val at_ win).noteHold ch.val
      | none => s.elapse dt) := by
  have hworks : ((s.elapse dt).running && (s.elapse dt).holds ch.val) = true := by simp [hrun, hhold]
  exact congrArg Host.Outcome.next (if_pos hworks)

/-- Settles O16: the steps of a hold instant leave the port as stated, and what follows it is only records. -/
theorem holdInstantClosesTheWindow : Obligations.HoldInstantClosesTheWindow := by
  unfold Obligations.HoldInstantClosesTheWindow
  intro s ch dt win u c
  refine ⟨fun hrun hhold hnone => ?_, fun at_ hrun hhold hsome => ⟨(u.holdNow c at_ win).noteHold c, ?_, ?_⟩⟩
  · rw [exec_holdInstant_works win hrun hhold, hnone]
  · rw [exec_holdInstant_works win hrun hhold, hsome]
  · simp only [port_noteHold]
    have hmarker := marker_heldOf u c at_ (u.windowOf c at_ win)
    rw [windowOf_overload] at hmarker
    exact ⟨⟨_, held_holdNow u c at_ win, windowOf_value u c at_ win, rfl, rfl, rfl, hmarker⟩,
      winStart_holdNow u c at_ win, elemB_holdNow u c at_ win, change_holdNow u c at_ win,
      fun _ hr => range_holdNow u c at_ win hr, fun _ hd => port_holdNow_other u c at_ win hd⟩

/-! ### What ends in a port, once it is due (R52, R54, R73) -/

section
variable {s : State}

theorem exec_deadTimeEnd_due {ch : Fin 480} (hrun : s.running = true) (hblank : (s.port ch.val).blanking = true)
    (hdue : (s.port ch.val).blankEnd ≤ s.tim.time) :
    exec (.deadTimeEnd ch) s = .next (s.setPort ch.val { s.port ch.val with blanking := false }) :=
  congrArg Host.Outcome.next (if_pos (by simp [hrun, hblank, hdue]))

theorem exec_biasRampEnd_over {ch : Fin 256} (hrun : s.running = true) (hramp : (s.port ch.val).ramping = true)
    (hover : s.biasAt ch.val s.tim.time = s.biasTarget ch.val * 65536) :
    exec (.biasRampEnd ch) s = .next (s.setPort ch.val
      { s.port ch.val with ramping := false, startRamp := false, bias := s.biasTarget ch.val * 65536 }) :=
  congrArg Host.Outcome.next (if_pos (by simp [hrun, hramp, State.rampOver, hover]))

/-- A bias ramp to the target is still ahead of a port. -/
def State.rampAhead (s : State) (c : Nat) : Bool := s.biasTarget c * 65536 ≠ (s.port c).bias

theorem exec_ecShortOpen_due {ch : Fin 256} (hrun : s.running = true) (heng : (s.port ch.val).engaging = true)
    (hdue : (s.port ch.val).shortOpen ≤ s.tim.time) :
    exec (.ecShortOpen ch) s = .next (s.setPort ch.val
      { s.port ch.val with
        engaging := false, shortClosed := false, ramping := s.rampAhead ch.val, startRamp := s.rampAhead ch.val
        rampAt := (s.port ch.val).shortOpen }) :=
  congrArg Host.Outcome.next (if_pos (by simp [hrun, heng, hdue]))

/-! ### Port faults on an enabled port (R71, R72, R74) -/

/-- A fault-disabled port: nothing of it is in progress, and its short is closed (R72, R74, R75). -/
def Port.faultDisabled (p : Port) : Port :=
  { p with
    fdis := true, fdisCleared := false, held := none, blanking := false, blankEnd := 0, shortClosed := true
    engaging := false, ramping := false, startRamp := false, bias := 0 }

theorem exec_portCompliance_enabled {ch : Fin 256} (on : Bool) (hrun : s.running = true) (hon : s.chanOn ch.val = true) :
    exec (.portCompliance ⟨ch, on⟩) s = .next
      (if on then (s.setPort ch.val { s.port ch.val with compliance := on }).portFault ch.val 1
        else s.setPort ch.val { s.port ch.val with compliance := on }) :=
  congrArg Host.Outcome.next (if_pos (by simp [hrun, hon]))

theorem exec_portOpen_met {ch : Fin 480} (hrun : s.running = true) (hon : s.chanOn ch.val = true) (hch : ch.val < 384)
    (hcount : 16 ≤ (s.port ch.val).openCount) (hopen : (s.port ch.val).isOpen = false) :
    exec (.portOpen ch) s = .next ((s.setPort ch.val { s.port ch.val with isOpen := true }).portFault ch.val 2) :=
  congrArg Host.Outcome.next (if_pos (by simp [hrun, hon, hch, hcount, hopen]))

theorem exec_portShort_enabled {ch : Fin 480} (hrun : s.running = true) (hon : s.chanOn ch.val = true)
    (hkind : chanKind ch.val ≠ .fp) :
    exec (.portShort ch) s = .next (((s.settleRange ch.val).setPort ch.val
      ((s.settleRange ch.val).port ch.val).faultDisabled).portFault ch.val 3) :=
  congrArg Host.Outcome.next (if_pos (by simp [hrun, hon, hkind]))

theorem exec_portClamp_enabled {p : Fin 64} (on : Bool) (hrun : s.running = true) (hon : s.chanOn (384 + p.val) = true) :
    exec (.portClamp ⟨p, on⟩) s = .next
      (if on then
          (s.setPort (384 + p.val) { s.port (384 + p.val) with clamp := true, pbCut := true }).portFault (384 + p.val) 4
        else s.setPort (384 + p.val) { s.port (384 + p.val) with clamp := false }) :=
  congrArg Host.Outcome.next (if_pos (by simp [hrun, hon]))

theorem exec_holderLimit_deepSleep {ch : Fin 256} (hdeep : s.pwr.st = .deepSleep) (hon : s.chanOn ch.val = true) :
    exec (.holderLimit ch) s = .next (s.setPort ch.val { s.port ch.val with holderLimited := true }) :=
  congrArg Host.Outcome.next (if_pos (by simp [hdeep, hon]))

end

/-- Settles O17: each command's arm where its condition holds; of the faults with an end, `on` says which half it is. -/
theorem portSequencesAndFaults : Obligations.PortSequencesAndFaults := by
  unfold Obligations.PortSequencesAndFaults
  refine ⟨⟨?_, ?_, ?_⟩, ?_, ?_, ?_, ?_, ?_⟩
  · exact fun s ch => exec_deadTimeEnd_due
  · exact fun s ch => exec_biasRampEnd_over
  · exact fun s ch => exec_ecShortOpen_due
  · exact fun s ch hrun hon => ⟨exec_portCompliance_enabled true hrun hon, exec_portCompliance_enabled false hrun hon⟩
  · exact fun s ch => exec_portOpen_met
  · exact fun s ch => exec_portShort_enabled
  · exact fun s p hrun hon => ⟨exec_portClamp_enabled true hrun hon, exec_portClamp_enabled false hrun hon⟩
  · exact fun s ch => exec_holderLimit_deepSleep

end Sys2Proof.Machine
end

section
/-! SUPPORT. What a command of the heater engines leaves alone: updates of ports, of one engine, and of every engine in
turn. -/

namespace Sys2Proof.Machine
open Sys2Proof

/-! ### Loops over the state -/

theorem each_induct {α : Type} {P : State → Prop} {f : State → α → State} (hf : ∀ t x, P t → P (f t x))
    {s : State} (hs : P s) (l : List α) : P (s.each l f) := by
  induction l generalizing s with
  | nil => exact hs
  | cons x l ih => exact ih (hf s x hs)

theorem each_of_fixed {α : Type} {f : State → α → State} {s : State} (hf : ∀ x, f s x = s) (l : List α) :
    s.each l f = s :=
  each_induct (P := (· = s)) (fun t x ht => by rw [ht, hf]) rfl l

/-! ### Keys of sparse data -/

section
variable {α : Type}

/-- A key that reads as something else than an unlisted one is listed. -/
theorem mem_keys_of_kget_ne {m : KMap α} {k : Nat} {d : α} (h : kget m k d ≠ d) : k ∈ m.map (·.1) := by
  induction m with
  | nil => exact absurd rfl h
  | cons p t ih =>
    by_cases hk : k = p.1
    · exact List.mem_cons.mpr (.inl hk)
    · exact List.mem_cons_of_mem _ (ih fun ht => h ((if_neg hk).trans ht))

theorem nodup_keys_of_kSorted {m : KMap α} (h : kSorted m = true) : (m.map (·.1)).Nodup := by
  induction m with
  | nil => exact List.nodup_nil
  | cons p t ih =>
    obtain ⟨habove, ht⟩ := (kSorted_cons p.1 p.2 t).mp h
    refine List.nodup_cons.mpr ⟨fun hmem => ?_, ih ht⟩
    obtain ⟨q, hq, hqp⟩ := List.mem_map.mp hmem
    exact absurd hqp (Nat.ne_of_gt (habove q hq))

theorem kSorted_kset [DecidableEq α] {m : KMap α} (h : kSorted m = true) (k : Nat) (v d : α) :
    kSorted (kset m k v d) = true := by
  unfold kset
  split
  case isTrue => exact kSorted_kdel k m h
  case isFalse => exact kSorted_kins k v m h

/-- What holds of every entry and of an unlisted key holds of every read. -/
theorem kget_of_forall {P : α → Prop} {m : KMap α} {d : α} (hm : ∀ p ∈ m, P p.2) (hd : P d) (k : Nat) :
    P (kget m k d) := by
  induction m with
  | nil => exact hd
  | cons p t ih =>
    by_cases hk : k = p.1
    · rw [kget, if_pos hk]
      exact hm p List.mem_cons_self
    · rw [kget, if_neg hk]
      exact ih fun q hq => hm q (List.mem_cons_of_mem _ hq)

end

/-! ### Ports alone -/

/-- `t` differs from `s` in ports alone. -/
def State.OnlyPorts (s t : State) : Prop := t = { s with ports := t.ports }

section
variable {s t u : State}

theorem onlyPorts_refl (s : State) : s.OnlyPorts s := rfl

theorem onlyPorts_noteMark (s : State) (e m : Nat) : s.OnlyPorts (s.noteMark e m) := rfl

theorem State.OnlyPorts.trans (h : s.OnlyPorts t) (h' : t.OnlyPorts u) : s.OnlyPorts u :=
  Eq.trans h' (congrArg (fun v : State => { v with ports := u.ports }) h)

theorem onlyPorts_ite {p : Prop} [Decidable p] (ht : s.OnlyPorts t) (hu : s.OnlyPorts u) :
    s.OnlyPorts (if p then t else u) := by
  split
  · exact ht
  · exact hu

theorem onlyPorts_upTo {f : State → Nat → State} (hf : ∀ (t : State) x, t.OnlyPorts (f t x)) (s : State)
    (n : Nat) : s.OnlyPorts (s.upTo n f) :=
  each_induct (P := s.OnlyPorts) (fun t x ht => ht.trans (hf t x)) (onlyPorts_refl s) (List.range n)

theorem State.OnlyPorts.regs (h : s.OnlyPorts t) : t.regs = s.regs := by rw [h]

theorem State.OnlyPorts.seq (h : s.OnlyPorts t) : t.seq = s.seq := by rw [h]

theorem State.OnlyPorts.engines (h : s.OnlyPorts t) : t.engines = s.engines := by rw [h]

end

theorem reg_congr {s t : State} (h : t.regs = s.regs) (a : Nat) : t.reg a = s.reg a := by
  rw [State.reg, h]
  rfl

theorem engine_congr {s t : State} (h : t.engines = s.engines) (e : Nat) : t.engine e = s.engine e := by
  rw [State.engine, h]
  rfl

/-! ### Engines alone -/

/-- `t` differs from `s` in heater engines alone. -/
def State.OnlyEngines (s t : State) : Prop := t = { s with engines := t.engines }

/-- What the supply limit leaves of a drive, with its condition as a proposition. -/
theorem limited_eq (s : State) (d : Nat) :
    s.limited d = if s.seq.limitedNow ∧ s.ilim < s.seq.total then d * s.ilim / s.seq.total else d := by
  simp [State.limited]

theorem limited_of_free {s : State} (h : s.seq.limitedNow = false) (d : Nat) : s.limited d = d := by
  simp [limited_eq, h]

section
variable {s t u : State} {e : Nat} {g : Engine}

theorem onlyEngines_refl (s : State) : s.OnlyEngines s := rfl

theorem State.OnlyEngines.trans (h : s.OnlyEngines t) (h' : t.OnlyEngines u) : s.OnlyEngines u :=
  Eq.trans h' (congrArg (fun v : State => { v with engines := u.engines }) h)

theorem State.OnlyEngines.regs (h : s.OnlyEngines t) : t.regs = s.regs := by rw [h]

theorem State.OnlyEngines.seq (h : s.OnlyEngines t) : t.seq = s.seq := by rw [h]

theorem State.OnlyEngines.vmax (h : s.OnlyEngines t) (e : Nat) : t.vmax e = s.vmax e := by rw [h]; rfl

theorem State.OnlyEngines.limited (h : s.OnlyEngines t) : t.limited = s.limited := by rw [h]; rfl

/-- Everything but the engines is as it was. -/
theorem State.WithEngine.frame (h : s.WithEngine t e g) : s.OnlyEngines t := h.1

theorem State.WithEngine.engine (h : s.WithEngine t e g) : t.engine e = g := h.2.1

theorem State.WithEngine.engine_other (h : s.WithEngine t e g) {d : Nat} (hd : d ≠ e) : t.engine d = s.engine d :=
  h.2.2 d hd

theorem State.WithEngine.port (h : s.WithEngine t e g) (c : Nat) : t.port c = s.port c := by
  rw [h.frame]
  rfl

theorem withEngine_refl (s : State) (e : Nat) : s.WithEngine s e (s.engine e) := ⟨rfl, rfl, fun _ _ => rfl⟩

theorem withEngine_setEngine (s : State) (e : Nat) (g : Engine) : s.WithEngine (s.setEngine e g) e g :=
  ⟨rfl, engine_setEngine_same s e g, engine_setEngine_other s e g⟩

/-- A further update of the same engine starts from what the first has left. -/
theorem State.WithEngine.update (h : s.WithEngine t e g) (f : Engine → Engine) :
    s.WithEngine (t.setEngine e (f (t.engine e))) e (f g) := by
  obtain ⟨hframe, rfl, hother⟩ := h
  exact ⟨State.OnlyEngines.trans hframe rfl, engine_setEngine_same ..,
    fun d hd => (engine_setEngine_other t e _ d hd).trans (hother d hd)⟩

theorem State.WithEngine.goOn (h : s.WithEngine t e g) (pc : Nat) :
    s.WithEngine (t.goOn e pc) e { g with st := .timed, pc := pc, segLen := 0, isSync := false } :=
  h.update fun g => { g with st := .timed, pc := pc, segLen := 0, isSync := false }

theorem State.WithEngine.untimed (h : s.WithEngine t e g) (pc : Nat) :
    s.WithEngine (t.untimed e pc) e { g with pc := pc, untimed := g.untimed + 1 } :=
  h.update fun g => { g with pc := pc, untimed := g.untimed + 1 }

/-- A drive is cut at VMAX and scaled while the supply limit acts, by the registers and the limitation of the state. -/
theorem State.WithEngine.applyDrive (h : s.WithEngine t e g) (raw : Nat) :
    s.WithEngine (t.applyDrive e raw) e
      { g with rawDrive := min raw (s.vmax e), drive := s.limited (min raw (s.vmax e)) } := by
  rw [← h.frame.vmax, ← h.frame.limited]
  exact h.update fun g => { g with rawDrive := min raw (t.vmax e), drive := t.limited (min raw (t.vmax e)) }

end

/-! ### Every engine in turn -/

section
variable {s : State} {f : State → Nat → State} {step : Nat → Engine → Engine}
  (hf : ∀ t, s.OnlyEngines t → ∀ e, t.WithEngine (f t e) e (step e (t.engine e)))
include hf

theorem onlyEngines_each (l : List Nat) : s.OnlyEngines (s.each l f) :=
  each_induct (P := s.OnlyEngines) (fun t e ht => ht.trans (hf t ht e).frame) (onlyEngines_refl s) l

/-- A loop whose steps move one engine each moves an engine as often as the loop names it. -/
theorem engine_each (l : List Nat) (e : Nat) : (s.each l f).engine e = (step e)^[l.count e] (s.engine e) := by
  suffices h : ∀ t, s.OnlyEngines t → (t.each l f).engine e = (step e)^[l.count e] (t.engine e) from
    h s (onlyEngines_refl s)
  induction l with
  | nil => exact fun t _ => rfl
  | cons x l ih =>
    intro t ht
    have hstep := hf t ht x
    refine (ih (f t x) (ht.trans hstep.frame)).trans ?_
    by_cases hx : x = e
    · subst hx
      rw [hstep.engine, List.count_cons_self, Function.iterate_succ_apply]
    · rw [hstep.engine_other (Ne.symm hx), List.count_cons_of_ne hx]

/-- In a loop over the engines listed every engine moves once, if the list names none twice and an engine that it does not
name would not move. -/
theorem engine_eachKey (hsorted : kSorted s.engines = true) {e : Nat} (hidle : step e {} = {}) :
    (s.each (s.engines.map (·.1)) f).engine e = step e (s.engine e) := by
  rw [engine_each hf]
  by_cases he : s.engine e = {}
  · rw [he, hidle, Function.iterate_fixed hidle]
  · rw [List.count_eq_one_of_mem (nodup_keys_of_kSorted hsorted) (mem_keys_of_kget_ne he), Function.iterate_one]

/-- Steps that act once take every engine to the same place however often the loop names it. -/
theorem engine_eachKey_of_idempotent {e : Nat} (hidle : step e {} = {}) (honce : ∀ g, step e (step e g) = step e g) :
    (s.each (s.engines.map (·.1)) f).engine e = step e (s.engine e) := by
  rw [engine_each hf]
  by_cases he : s.engine e = {}
  · rw [he, hidle, Function.iterate_fixed hidle]
  · obtain ⟨n, hn⟩ := Nat.exists_eq_succ_of_ne_zero
      (Nat.pos_iff_ne_zero.mp (List.count_pos_iff.mpr (mem_keys_of_kget_ne he)))
    rw [hn, Function.iterate_succ_apply, Function.iterate_fixed (honce _)]

end

end Sys2Proof.Machine
end

section
/-! SUPPORT. Proofs of the statements of the heater engines: the operations of a program (R80, R87), the ends of segments
and waits (R79, R80, R92), and the heater faults (R82, R88). -/

namespace Sys2Proof.Machine
open Sys2Proof

/-! ### The operations of a program (R80, R87) -/

/-- A ready engine executes the operation at which it stands. -/
theorem atOp_ready {s : State} {e op : Nat} (hready : s.ready e = true) (hop : opOf (s.progWord e) = op)
    (act : State → Word → State) : s.atOp e op act = act s (s.progWord e) :=
  if_pos (by simp [hready, hop])

/-- An engine at the start of a segment of the word `w`. -/
def Engine.inSegment (g : Engine) (w : Word) (tick : Nat) (start target : Int) (closed : Bool) : Engine :=
  { g with segOp := opOf w, segStart := start, segTarget := target, segTick := tick
           segLen := durOf w * 16 ^ unitOf w, closed := closed, firstCtl := true, untimed := 0 }

section
variable (s : State) (e : Nat)

theorem withEngine_untimed (pc : Nat) :
    s.WithEngine (s.untimed e pc) e { s.engine e with pc := pc, untimed := (s.engine e).untimed + 1 } :=
  withEngine_setEngine ..

theorem withEngine_segment (w : Word) (start target : Int) (closed : Bool) :
    s.WithEngine (s.segment e w start target closed) e
      ((s.engine e).inSegment w s.tickNow start target closed) := withEngine_setEngine ..

theorem withEngine_closedSegment (w : Word) (start : Int) :
    s.WithEngine (s.closedSegment e w start) e
      { (s.engine e).inSegment w s.tickNow start (argOf w) true with setpoint := start } :=
  (withEngine_segment s e w start (argOf w) true).update fun g => { g with setpoint := start }

/-- What a MARK leaves of the window in progress of the engine's MS port: a change of the value marks it (R87). -/
def State.markIf (s : State) (e : Nat) (same : Prop) [Decidable same] : State := if same then s else s.noteMark e 64

variable (same : Prop) [Decidable same]

theorem onlyPorts_markIf : s.OnlyPorts (s.markIf e same) :=
  onlyPorts_ite (onlyPorts_refl s) (onlyPorts_noteMark s e 64)

theorem engine_markIf (d : Nat) : (s.markIf e same).engine d = s.engine d :=
  engine_congr (onlyPorts_markIf ..).engines d

theorem frame_of_markIf {t : State} {g : Engine} (h : (s.markIf e same).WithEngine t e g) :
    t = { s with engines := t.engines, ports := t.ports } := by
  have hframe := h.frame
  rw [onlyPorts_markIf, State.OnlyEngines] at hframe
  rw [hframe]

theorem port_markIf :
    (s.markIf e same).port (256 + e) = if same then s.port (256 + e) else
      { s.port (256 + e) with markBits := Nat.lor (s.port (256 + e)).markBits 64 } := by
  unfold State.markIf
  split
  case isTrue => rfl
  case isFalse => exact port_setPort_same ..

theorem port_markIf_other {c : Nat} (h : c ≠ 256 + e) : (s.markIf e same).port c = s.port c := by
  unfold State.markIf
  split
  case isTrue => rfl
  case isFalse => exact port_setPort_other s _ _ c h

end

section
variable {s : State} {e : Fin 128} (hready : s.ready e.val = true)
include hready

theorem exec_stop_ready (hop : opOf (s.progWord e.val) = 0) :
    exec (.stop e) s = .next (if 16 ≤ (s.engine e.val).untimed then s.untimed e.val (s.engine e.val).pc
      else s.stopEngine e.val) :=
  congrArg Host.Outcome.next (atOp_ready hready hop _)

theorem exec_mark_ready (hop : opOf (s.progWord e.val) = 5) :
    let m := argOf (s.progWord e.val) % 64
    exec (.mark e) s = .next (((s.markIf e.val ((s.engine e.val).mark = m)).setEngine e.val
      { s.engine e.val with mark := m }).untimed e.val ((s.engine e.val).pc + 1)) :=
  congrArg Host.Outcome.next (atOp_ready hready hop _)

/-- A LOOP counts with one of the engine's two counters; the other one stays. -/
theorem exec_loop_ready (hop : opOf (s.progWord e.val) = 9) :
    let g := s.engine e.val
    let w := s.progWord e.val
    let second := decide (argOf w / 1024 % 2 = 1)
    let c := if second then g.loop1 else g.loop0
    let n := ((if c = 0 then durOf w else c) + 16383) % 16384
    exec (.loop e) s = .next ((s.setEngine e.val
        { g with loop0 := if second then g.loop0 else n, loop1 := if second then n else g.loop1 }).untimed e.val
      (if n ≠ 0 then argOf w % 1024 else g.pc + 1)) := by
  intro g w second c n
  refine congrArg Host.Outcome.next ((atOp_ready hready hop _).trans ?_)
  by_cases h : argOf (s.progWord e.val) / 1024 % 2 = 1 <;> simp [h, g, w, second, c, n]

end

/-- Settles O18: a ready engine's operation is an update of that engine, by its row of the operation table. -/
theorem heaterOperationsFollowTheTable : Obligations.HeaterOperationsFollowTheTable := by
  unfold Obligations.HeaterOperationsFollowTheTable
  intro s e hready g w arg next seg limited
  have hruns : ∀ {op : Nat} (act : State → Word → State), opOf w = op →
      Host.Outcome.next (s.atOp e.val op act) = (.next (act s w) : Out) :=
    fun act hop => congrArg Host.Outcome.next (atOp_ready hready hop act)
  refine ⟨fun hop => ⟨_, exec_stop_ready hready hop, ?stop⟩, fun hop => ⟨_, hruns _ hop, ?vset⟩,
    fun hop => ⟨_, hruns _ hop, ?vramp⟩, fun hop => ⟨_, hruns _ hop, ?tset⟩, fun hop => ⟨_, hruns _ hop, ?tramp⟩,
    fun hop => ⟨_, exec_mark_ready hready hop, ?mark⟩, fun hop => ⟨_, hruns _ hop, ?flag⟩,
    fun hop => ⟨_, hruns _ hop, ?wait⟩, fun hop => ⟨_, hruns _ hop, ?jump⟩,
    fun hop => ⟨_, exec_loop_ready hready hop, ?loop⟩, fun hop => ⟨_, hruns _ hop, ?sync⟩⟩
  case stop =>
    split
    case isTrue => exact withEngine_untimed ..
    case isFalse => exact withEngine_setEngine ..
  case vset =>
    have hdrive := (withEngine_segment s e.val w arg arg false).applyDrive arg
    rwa [limited_eq] at hdrive
  case vramp => exact withEngine_segment ..
  case tset => exact withEngine_closedSegment ..
  case tramp => exact withEngine_closedSegment ..
  case mark =>
    have hmark := (withEngine_setEngine (s.markIf e.val (g.mark = arg % 64)) e.val { g with mark := arg % 64 }).untimed
      (g.pc + 1)
    refine ⟨frame_of_markIf _ _ _ hmark, hmark.engine, fun d hd => ?_, fun c hc => ?_, ?_⟩
    · exact (hmark.engine_other hd).trans (engine_markIf ..)
    · exact (hmark.port c).trans (port_markIf_other _ _ _ hc)
    · exact (hmark.port _).trans (port_markIf ..)
  case flag => exact (withEngine_setEngine ..).untimed _
  case wait => exact withEngine_setEngine ..
  case jump => exact withEngine_untimed ..
  case loop => exact (withEngine_setEngine ..).untimed _
  case sync => exact withEngine_setEngine ..

/-! ### Ends of segments and waits (R79, R80, R92) -/

section
variable {s : State} {e : Nat}

theorem engineNow_of_live (hlive : s.engineLive e = true) (htick : s.onTick = true) : s.engineNow e = true := by
  simp [State.engineNow, hlive, htick]

theorem detects_of_live (hlive : s.engineLive e = true) (hst : (s.engine e).st ≠ .fault) : s.detects e = true := by
  simp [State.detects, hlive, hst]

/-- An open ramp that ends is at its target drive. -/
def State.endRamp (s : State) (e : Nat) : State :=
  if (s.engine e).segOp = 2 then s.applyDrive e (s.engine e).segTarget.toNat else s

theorem withEngine_endRamp (s : State) (e : Nat) :
    s.WithEngine (s.endRamp e) e
      { s.engine e with
        rawDrive := if (s.engine e).segOp = 2 then min (s.engine e).segTarget.toNat (s.vmax e)
          else (s.engine e).rawDrive
        drive := if (s.engine e).segOp = 2 then s.limited (min (s.engine e).segTarget.toNat (s.vmax e))
          else (s.engine e).drive } := by
  by_cases hramp : (s.engine e).segOp = 2
  · rw [State.endRamp, if_pos hramp, if_pos hramp, if_pos hramp]
    exact (withEngine_refl s e).applyDrive _
  · rw [State.endRamp, if_neg hramp, if_neg hramp, if_neg hramp]
    exact withEngine_refl s e

/-- A segment that ends goes on at the next word, a setpoint ramp from its target. -/
def State.endSegment (s : State) (e : Nat) : State :=
  let g := (s.endRamp e).engine e
  ((s.endRamp e).setEngine e { g with setpoint := if g.segOp = 4 then g.segTarget else g.setpoint }).goOn e (g.pc + 1)

theorem withEngine_endSegment (s : State) (e : Nat) :
    s.WithEngine (s.endSegment e) e
      { s.engine e with
        st := .timed, segLen := 0, isSync := false, pc := (s.engine e).pc + 1
        setpoint := if (s.engine e).segOp = 4 then (s.engine e).segTarget else (s.engine e).setpoint
        drive := if (s.engine e).segOp = 2 then s.limited (min (s.engine e).segTarget.toNat (s.vmax e))
          else (s.engine e).drive
        rawDrive := if (s.engine e).segOp = 2 then min (s.engine e).segTarget.toNat (s.vmax e)
          else (s.engine e).rawDrive } := by
  have hramp := withEngine_endRamp s e
  have hpc : ((s.endRamp e).engine e).pc = (s.engine e).pc := by rw [hramp.engine]
  have hend := (hramp.update fun g => { g with setpoint := if g.segOp = 4 then g.segTarget else g.setpoint }).goOn
    (((s.endRamp e).engine e).pc + 1)
  rw [hpc] at hend
  rw [State.endSegment, hpc]
  exact hend

end

section
variable {s : State} {e : Fin 128}

theorem exec_segmentEnd_over (hnow : s.engineNow e.val = true) (hst : (s.engine e.val).st = .timed)
    (hlen : (s.engine e.val).segLen ≠ 0)
    (hover : (s.engine e.val).segTick + (s.engine e.val).segLen ≤ s.tickNow) :
    exec (.segmentEnd e) s = .next (s.endSegment e.val) :=
  congrArg Host.Outcome.next (if_pos (by simp [hnow, hst, hlen, hover]))

theorem exec_syncReached_due (hnow : s.engineNow e.val = true) (hst : (s.engine e.val).st = .waiting)
    (hsync : (s.engine e.val).isSync = true)
    (hdue : s.tickNow % 2 ^ (20 - argOf (s.progWord e.val) % 32) = 0) :
    exec (.syncReached e) s = .next (s.goOn e.val ((s.engine e.val).pc + 1)) :=
  congrArg Host.Outcome.next (if_pos (by simp [hnow, hst, hsync, hdue]))

theorem exec_waitSatisfied_due (hnow : s.engineNow e.val = true) (hst : (s.engine e.val).st = .waiting)
    (hwait : (s.engine e.val).isSync = false)
    (hflag : s.seq.flags.getLsbD (s.engine e.val).waitFlag = (s.engine e.val).waitVal) :
    exec (.waitSatisfied e) s = .next
      ((s.setEngine e.val { s.engine e.val with timeout := false }).goOn e.val ((s.engine e.val).pc + 1)) :=
  congrArg Host.Outcome.next (if_pos (by simp [State.eventFlag, hnow, hst, hwait, hflag]))

theorem exec_waitTimeout_due (hnow : s.engineNow e.val = true) (hst : (s.engine e.val).st = .waiting)
    (hwait : (s.engine e.val).isSync = false) (hleft : (s.engine e.val).waitLeft = 0) :
    exec (.waitTimeout e) s = .next (s.waitOut e.val) :=
  congrArg Host.Outcome.next (if_pos (by simp [hnow, hst, hwait, hleft]))

end

theorem withEngine_waitOut (s : State) (e : Nat) :
    s.WithEngine (s.waitOut e) e
      { s.engine e with timeout := true, st := .timed, pc := (s.engine e).pc + 2, segLen := 0, isSync := false } :=
  (withEngine_setEngine ..).goOn _

/-! ### Heater faults (R82, R88) -/

/-- Settles O19: each end of a segment or wait goes on from what it leaves in the engine; each fault is the same
fault-disable once its condition is met. -/
theorem heaterSegmentsWaitsAndFaults : Obligations.HeaterSegmentsWaitsAndFaults := by
  unfold Obligations.HeaterSegmentsWaitsAndFaults
  refine ⟨fun s e hlive htick => ?_, fun s e hlive hst => ?_⟩
  · intro g limited on
    have hnow := engineNow_of_live hlive htick
    refine ⟨fun hst hlen hover => ⟨_, exec_segmentEnd_over hnow hst hlen hover, ?_⟩,
      fun hst hsync hdue => ⟨_, exec_syncReached_due hnow hst hsync hdue, (withEngine_refl ..).goOn _⟩,
      fun hst hwait => ⟨
        fun hflag => ⟨_, exec_waitSatisfied_due hnow hst hwait hflag, (withEngine_setEngine ..).goOn _⟩,
        fun hleft => ⟨_, exec_waitTimeout_due hnow hst hwait hleft, withEngine_waitOut ..⟩⟩⟩
    have hend := withEngine_endSegment s e.val
    rwa [limited_eq] at hend
  · intro g p off
    have hdetects := detects_of_live hlive hst
    refine ⟨fun hdrive => ?_, fun hdrive => ?_, fun hdrive => ?_, fun hhot hcold => ?_, fun hst hlen hprog => ?_⟩
    · exact congrArg Host.Outcome.next (if_pos (by simpa [hdetects] using hdrive))
    · exact congrArg Host.Outcome.next (if_pos (by simpa [hdetects] using hdrive))
    · exact congrArg Host.Outcome.next (if_pos (by simpa [hdetects] using hdrive))
    · exact congrArg Host.Outcome.next (if_pos (by simpa [hdetects] using ⟨hhot, hcold⟩))
    · exact congrArg Host.Outcome.next (if_pos (by simpa [hdetects, g] using ⟨⟨hst, hlen⟩, hprog⟩))

end Sys2Proof.Machine
end

section
/-! SUPPORT. Proof of the statement of event flags, the control tick and stalls: heater ticks (R79, R91), the closed loop
(R85), the supply limit (R90), and stalls (R94). -/

namespace Sys2Proof.Machine
open Sys2Proof

/-! ### Engines and sequencer alone -/

/-- `t` differs from `s` in the heater engines and in the flags, groups and limitation that they share. -/
def State.OnlyHeaters (s t : State) : Prop := t = { s with seq := t.seq, engines := t.engines }

section
variable {s t u : State}

theorem onlyHeaters_setSeq (s : State) (q : Seq) : s.OnlyHeaters { s with seq := q } := rfl

theorem State.OnlyHeaters.trans (h : s.OnlyHeaters t) (h' : t.OnlyHeaters u) : s.OnlyHeaters u :=
  Eq.trans h' (congrArg (fun v : State => { v with seq := u.seq, engines := u.engines }) h)

theorem State.OnlyEngines.heaters (h : s.OnlyEngines t) : s.OnlyHeaters t :=
  Eq.trans h (congrArg (fun q : Seq => { s with seq := q, engines := t.engines }) h.seq.symm)

theorem State.OnlyHeaters.regs (h : s.OnlyHeaters t) : t.regs = s.regs := by rw [h]

theorem State.OnlyHeaters.vmax (h : s.OnlyHeaters t) (e : Nat) : t.vmax e = s.vmax e := by rw [h]; rfl

theorem State.OnlyHeaters.engineLive (h : s.OnlyHeaters t) (e : Nat) : t.engineLive e = s.engineLive e := by rw [h]; rfl

theorem ilim_congr (h : t.regs = s.regs) : t.ilim = s.ilim := by
  rw [State.ilim, State.fld, reg_congr h]
  rfl

end

/-! ### The heater tick (R79, R91) -/

/-- The instant of a HEATER_TICK: the next tick, unless one that has come has not acted yet. -/
def State.toTick (s : State) : State :=
  if s.tickNow ≠ s.seq.tick || s.tim.perCycle = 0 then s
  else s.elapse (s.tim.cyclesIn ((s.tickNow + 1) * 2 ^ 44 - s.tim.time))

theorem toTick_eq (s : State) :
    s.toTick = if s.tickNow ≠ s.seq.tick ∨ s.tim.perCycle = 0 then s
      else s.elapse (s.tim.cyclesIn ((s.tickNow + 1) * 2 ^ 44 - s.tim.time)) := by
  simp [State.toTick]

/-- The flags and requests with which a tick starts; the engines' own requests have become flags. -/
def State.beginTick (s : State) : State :=
  { s with
    engines := (s.engines.map fun g => (g.1, { g.2 with flagReq := [] })).filter fun g => g.2 ≠ ({} : Engine)
    seq := { s.seq with
      flags := s.flagsNext, past := s.seq.noted s.flagsNext s.tickNow, dueRequests := s.seq.requests
      dueSweeps := s.seq.sweepFlags, requests := [], sweepFlags := [], tick := s.tickNow } }

/-- Every engine's drive and setpoint follow at a tick. -/
def State.drivesFollow (s : State) : State := s.each (s.engines.map (·.1)) fun s e => s.driveTick e

theorem exec_heaterTick_due {s : State} (hrun : s.toTick.running = true)
    (hdue : s.toTick.tickNow ≠ s.toTick.seq.tick) :
    exec .heaterTick s = .next s.toTick.beginTick.drivesFollow := by
  have hacts : ¬(!s.toTick.running || decide (s.toTick.tickNow = s.toTick.seq.tick)) = true := by simp [hrun, hdue]
  exact congrArg Host.Outcome.next (if_neg hacts)

theorem onlyHeaters_beginTick (s : State) : s.OnlyHeaters s.beginTick := rfl

theorem flagReq_beginTick (s : State) (e : Nat) : (s.beginTick.engine e).flagReq = [] := by
  refine kget_of_forall (P := fun g : Engine => g.flagReq = []) (fun p hp => ?_) rfl e
  obtain ⟨q, -, rfl⟩ := List.mem_map.mp (List.mem_filter.mp hp).1
  rfl

/-- What follows at a tick is the drive or the setpoint of the engine, not what it asks of the flags. -/
theorem withEngine_driveTick (s : State) (e : Nat) :
    ∃ g, s.WithEngine (s.driveTick e) e g ∧ g.flagReq = (s.engine e).flagReq := by
  unfold State.driveTick
  dsimp only
  split_ifs
  · exact ⟨_, withEngine_refl s e, rfl⟩
  · exact ⟨_, withEngine_setEngine s e _, rfl⟩
  · exact ⟨_, withEngine_refl s e, rfl⟩
  · exact ⟨_, (withEngine_refl s e).applyDrive _, rfl⟩
  · exact ⟨_, withEngine_setEngine s e _, rfl⟩
  · exact ⟨_, withEngine_refl s e, rfl⟩

theorem flagReq_driveTick (s : State) (e d : Nat) : ((s.driveTick e).engine d).flagReq = (s.engine d).flagReq := by
  obtain ⟨g, hmove, hreq⟩ := withEngine_driveTick s e
  by_cases hd : d = e
  · rw [hd, hmove.engine, hreq]
  · rw [hmove.engine_other hd]

theorem onlyEngines_drivesFollow (s : State) : s.OnlyEngines s.drivesFollow := by
  refine each_induct (P := s.OnlyEngines) (fun t e ht => ?_) (onlyEngines_refl s) _
  obtain ⟨g, hmove, -⟩ := withEngine_driveTick t e
  exact ht.trans hmove.frame

theorem flagReq_drivesFollow (s : State) (d : Nat) : (s.drivesFollow.engine d).flagReq = (s.engine d).flagReq :=
  each_induct (P := fun t => (t.engine d).flagReq = (s.engine d).flagReq)
    (fun t e ht => (flagReq_driveTick t e d).trans ht) rfl _

/-! ### The control step (R85) -/

/-- The drive that the control step of R85 asks of an engine. -/
def State.controlDrive (s : State) (e : Nat) (g : Engine) : Int :=
  let err := g.setpoint - g.temp
  let kp : Int := s.fld (engReg e 12) 0 16
  let ki : Int := s.fld (engReg e 12) 16 16
  min (max ((if g.firstCtl then (g.drive : Int) else g.uPrev) +
    (kp * (err - (if g.firstCtl then err else g.ePrev)) + ki * err + 128) / 256) 164) (s.vmax e)

/-- The engine takes the control step: it is live and in closed loop, neither stopped nor fault-disabled. -/
def State.takesControl (s : State) (e : Nat) (g : Engine) : Bool :=
  g.closed && g.st ≠ .stopped && g.st ≠ .fault && s.engineLive e

/-- An engine that has taken the control step. -/
def State.stepped (s : State) (e : Nat) (g : Engine) : Engine :=
  { g with
    uPrev := s.controlDrive e g, ePrev := g.setpoint - g.temp, firstCtl := false
    rawDrive := min (s.controlDrive e g).toNat (s.vmax e)
    drive := s.limited (min (s.controlDrive e g).toNat (s.vmax e)) }

/-- What a control tick outside the supply limit leaves of an engine. -/
def State.controlled (s : State) (e : Nat) (g : Engine) : Engine := if s.takesControl e g then s.stepped e g else g

section
variable {s : State} {e : Nat} {g : Engine}

theorem controlled_of_live (hclosed : g.closed = true) (hst : g.st ≠ .stopped) (hfault : g.st ≠ .fault)
    (hlive : s.engineLive e = true) : s.controlled e g = s.stepped e g :=
  if_pos (by simp [State.takesControl, hclosed, hst, hfault, hlive])

theorem controlled_of_not (h : g.closed = false ∨ g.st = .stopped ∨ g.st = .fault ∨ s.engineLive e = false) :
    s.controlled e g = g := by
  refine if_neg ?_
  rcases h with h | h | h | h <;> simp [State.takesControl, h]

theorem drive_stepped (h : s.seq.limitedNow = false) :
    (s.stepped e g).drive = min (s.controlDrive e g).toNat (s.vmax e) := limited_of_free h _

end

theorem State.OnlyHeaters.controlDrive {s t : State} (h : s.OnlyHeaters t) : t.controlDrive = s.controlDrive := by
  rw [h]
  rfl

theorem controlStep_limited {s : State} (h : s.seq.limitedNow = true) (e : Nat) : s.controlStep e = s :=
  if_pos (by simp [h])

theorem withEngine_controlStep {s : State} (h : s.seq.limitedNow = false) (e : Nat) :
    s.WithEngine (s.controlStep e) e (s.controlled e (s.engine e)) := by
  have hstays : (!(s.engine e).closed || decide ((s.engine e).st = .stopped) || decide ((s.engine e).st = .fault) ||
      s.seq.limitedNow || !s.engineLive e) = !s.takesControl e (s.engine e) := by
    simp [State.takesControl, h]
  cases htakes : s.takesControl e (s.engine e) with
  | true =>
    rw [State.controlled, if_pos htakes, State.controlStep, if_neg (by simp [hstays, htakes])]
    exact (withEngine_setEngine s e _).applyDrive _
  | false =>
    rw [State.controlled, if_neg (by simp [htakes]), State.controlStep, if_pos (by simp [hstays, htakes])]
    exact withEngine_refl s e

/-- The control step of every engine in turn. -/
def State.controlAll (s : State) : State := s.each (s.engines.map (·.1)) fun s e => s.controlStep e

theorem controlAll_limited {s : State} (h : s.seq.limitedNow = true) : s.controlAll = s :=
  each_of_fixed (controlStep_limited h) _

section
variable {s : State} (h : s.seq.limitedNow = false)
include h

theorem controlStep_moves (t : State) (ht : s.OnlyEngines t) (e : Nat) :
    t.WithEngine (t.controlStep e) e (s.controlled e (t.engine e)) := by
  have hmove := withEngine_controlStep (ht.seq ▸ h : t.seq.limitedNow = false) e
  have hsame : t.controlled = s.controlled := by rw [ht]; rfl
  rwa [hsame] at hmove

theorem onlyEngines_controlAll : s.OnlyEngines s.controlAll := onlyEngines_each (controlStep_moves h) _

theorem engine_controlAll (hsorted : kSorted s.engines = true) (e : Nat) :
    s.controlAll.engine e = s.controlled e (s.engine e) :=
  engine_eachKey (controlStep_moves h) hsorted rfl

end

/-! ### The supply limit (R90) -/

/-- What the supply limit leaves of an engine. -/
def State.scaled (s : State) (g : Engine) : Engine :=
  if g.st = .timed ∨ g.st = .waiting then { g with drive := s.limited g.rawDrive } else g

theorem scaled_of_running (s : State) {g : Engine} (h : g.st = .timed ∨ g.st = .waiting) :
    s.scaled g = { g with drive := s.limited g.rawDrive } := if_pos h

theorem scaled_of_free {s : State} (h : s.seq.limitedNow = false) (g : Engine) :
    s.scaled g = if g.st = .timed ∨ g.st = .waiting then { g with drive := g.rawDrive } else g := by
  rw [State.scaled, limited_of_free h]

theorem scaled_scaled (s : State) (g : Engine) : s.scaled (s.scaled g) = s.scaled g := by
  unfold State.scaled
  by_cases h : g.st = .timed ∨ g.st = .waiting
  · rw [if_pos h, if_pos h]
  · rw [if_neg h, if_neg h]

theorem scaleStep_moves (s t : State) (ht : s.OnlyEngines t) (e : Nat) :
    t.WithEngine
      (if (t.engine e).st = .timed || (t.engine e).st = .waiting then
        t.setEngine e { t.engine e with drive := t.limited (t.engine e).rawDrive } else t)
      e (s.scaled (t.engine e)) := by
  rw [← show t.scaled = s.scaled by rw [ht]; rfl]
  unfold State.scaled
  by_cases h : (t.engine e).st = .timed ∨ (t.engine e).st = .waiting
  · rw [if_pos h, if_pos (by simpa using h)]
    exact withEngine_setEngine ..
  · rw [if_neg h, if_neg (by simpa using h)]
    exact withEngine_refl ..

theorem onlyEngines_scaleDrives (s : State) : s.OnlyEngines s.scaleDrives :=
  onlyEngines_each (step := fun _ => s.scaled) (scaleStep_moves s) _

theorem engine_scaleDrives (s : State) (e : Nat) : s.scaleDrives.engine e = s.scaled (s.engine e) :=
  engine_eachKey_of_idempotent (step := fun _ => s.scaled) (scaleStep_moves s) rfl (scaled_scaled s)

/-! ### The control tick (R85, R86, R90) -/

/-- The state with the measurements of a control tick taken. -/
def State.measured (s : State) (meas : List HeaterMeas) : State := s.each meas fun s m => s.measure m

theorem onlyEngines_measured (s : State) (meas : List HeaterMeas) : s.OnlyEngines (s.measured meas) :=
  each_induct (P := s.OnlyEngines) (fun t m ht => ht.trans (withEngine_setEngine t m.engine.val _).frame)
    (onlyEngines_refl s) meas

theorem kSorted_measured {s : State} (h : kSorted s.engines = true) (meas : List HeaterMeas) :
    kSorted (s.measured meas).engines = true :=
  each_induct (P := fun t => kSorted t.engines = true) (fun _ _ ht => kSorted_kset ht ..) h meas

/-- A control tick counts the demand, and the limitation is in force from the tick at which it exceeds the limit. -/
def State.countDemand (s : State) (total : Nat) : State :=
  { s with seq := { s.seq with
      limitedNow := s.seq.limitedNow || decide (s.ilim < total)
      quietTicks := if 100 * total < 95 * s.ilim then s.seq.quietTicks + 1 else 0
      total := total, ctl := s.tickNow + 1 } }

/-- A demand above the limit is reported; at the first such tick the windows in progress are marked. -/
def State.reportLimit (s : State) (exceeds : Prop) [Decidable exceeds] (first : Bool) : State :=
  let s := if exceeds then s.stick .htr 0 13 else s
  if first then s.upTo 128 fun s e => if s.port (256 + e) = ({} : Port) then s else s.noteMark e 128 else s

/-- With the limitation in force the drives are scaled, else every engine has taken its control step. -/
def State.controlOrScale (s : State) : State :=
  if s.controlAll.seq.limitedNow then s.controlAll.scaleDrives else s.controlAll

/-- A control tick with its measurements taken and its demand counted. -/
def State.counted (s : State) (total : Nat) (meas : List HeaterMeas) : State := (s.measured meas).countDemand total

/-- A control tick before the drives are set: a demand above the limit has been reported. -/
def State.reported (s : State) (total : Nat) (meas : List HeaterMeas) : State :=
  (s.counted total meas).reportLimit ((s.measured meas).ilim < total)
    (decide ((s.measured meas).ilim < total) && !(s.measured meas).seq.limitedNow)

theorem exec_controlTick_due {s : State} (total : Nat) (meas : List HeaterMeas) (hrun : s.running = true)
    (hctl : s.onControl = true) :
    exec (.controlTick total meas) s = .next (s.reported total meas).controlOrScale :=
  congrArg Host.Outcome.next (if_neg (by simp [hrun, hctl]))

section
variable (s : State) {exceeds : Prop} [Decidable exceeds]

theorem reportLimit_within (h : ¬exceeds) : s.reportLimit exceeds false = s := if_neg h

theorem onlyPorts_reportLimit (h : exceeds) (first : Bool) :
    (s.stick .htr 0 13).OnlyPorts (s.reportLimit exceeds first) := by
  rw [State.reportLimit, if_pos h]
  exact onlyPorts_ite (onlyPorts_upTo (fun t e => onlyPorts_ite (onlyPorts_refl t) (onlyPorts_noteMark t e 128)) _ 128)
    (onlyPorts_refl _)

end

theorem ilim_stick (s : State) : (s.stick .htr 0 13).ilim = s.ilim := by
  have hother : ra .htr 0 0x240 ≠ ra .htr 0 0x010 := by decide
  simp only [State.ilim, State.fld, State.stick, State.orReg, reg_setReg, if_neg hother]

theorem controlOrScale_within {s : State} (h : s.seq.limitedNow = false) : s.controlOrScale = s.controlAll :=
  if_neg (by rw [(onlyEngines_controlAll h).seq, h]; exact Bool.false_ne_true)

theorem controlOrScale_limited {s : State} (h : s.seq.limitedNow = true) : s.controlOrScale = s.scaleDrives := by
  rw [State.controlOrScale, controlAll_limited h, if_pos h]

/-! ### A control tick within the limit, and above it -/

section
variable {s : State} {total : Nat} {meas : List HeaterMeas}

theorem ilim_measured (s : State) (meas : List HeaterMeas) : (s.measured meas).ilim = s.ilim :=
  ilim_congr (onlyEngines_measured s meas).regs

theorem onlyHeaters_counted (s : State) (meas : List HeaterMeas) (total : Nat) :
    s.OnlyHeaters (s.counted total meas) :=
  (onlyEngines_measured s meas).heaters.trans (onlyHeaters_setSeq ..)

theorem limitedNow_counted (s : State) (meas : List HeaterMeas) (total : Nat) :
    (s.counted total meas).seq.limitedNow = (s.seq.limitedNow || decide (s.ilim < total)) := by
  rw [← ilim_measured s meas, ← (onlyEngines_measured s meas).seq]
  rfl

section
variable (hle : total ≤ s.ilim) (hfree : s.seq.limitedNow = false)
include hle

theorem reported_within : s.reported total meas = s.counted total meas := by
  have hwithin : ¬(s.measured meas).ilim < total := by
    rw [ilim_measured]
    exact Nat.not_lt.mpr hle
  rw [State.reported, decide_eq_false hwithin, Bool.false_and, reportLimit_within _ hwithin]

include hfree

theorem limitedNow_counted_within : (s.counted total meas).seq.limitedNow = false := by
  rw [limitedNow_counted, hfree, decide_eq_false (Nat.not_lt.mpr hle), Bool.or_false]

theorem exec_controlTick_within (hrun : s.running = true) (hctl : s.onControl = true) :
    exec (.controlTick total meas) s = .next (s.counted total meas).controlAll := by
  rw [exec_controlTick_due total meas hrun hctl, reported_within hle,
    controlOrScale_within (limitedNow_counted_within hle hfree)]

end

section
variable (hover : s.ilim < total)
include hover

theorem onlyPorts_reported :
    ((s.counted total meas).stick .htr 0 13).OnlyPorts (s.reported total meas) :=
  onlyPorts_reportLimit _ (by rwa [ilim_measured]) _

theorem seq_reported : (s.reported total meas).seq = (s.counted total meas).seq :=
  (onlyPorts_reported hover).seq

theorem limitedNow_reported : (s.reported total meas).seq.limitedNow = true := by
  rw [seq_reported hover, limitedNow_counted, decide_eq_true hover, Bool.or_true]

theorem ilim_reported : (s.reported total meas).ilim = s.ilim :=
  calc (s.reported total meas).ilim
      = ((s.counted total meas).stick .htr 0 13).ilim := ilim_congr (onlyPorts_reported hover).regs
    _ = (s.counted total meas).ilim := ilim_stick _
    _ = s.ilim := ilim_congr (onlyHeaters_counted s meas total).regs

theorem engine_reported (e : Nat) : (s.reported total meas).engine e = (s.measured meas).engine e :=
  engine_congr (onlyPorts_reported hover).engines e

theorem flag_reported : (s.reported total meas).flag (ra .htr 0 0x010) 13 = true := by
  rw [State.flag, reg_congr (onlyPorts_reported hover).regs]
  exact flag_stick_same _ .htr 0 13 (by decide)

theorem limited_reported (d : Nat) : (s.reported total meas).limited d = d * s.ilim / total := by
  rw [limited_eq, limitedNow_reported hover, ilim_reported hover, seq_reported hover]
  exact if_pos ⟨rfl, hover⟩

theorem exec_controlTick_over (hrun : s.running = true) (hctl : s.onControl = true) :
    exec (.controlTick total meas) s = .next (s.reported total meas).scaleDrives := by
  rw [exec_controlTick_due total meas hrun hctl, controlOrScale_limited (limitedNow_reported hover)]

end

theorem exec_limitationEnd_due (hlim : s.seq.limitedNow = true) (hquiet : 16 ≤ s.seq.quietTicks)
    (htick : s.onTick = true) :
    exec .limitationEnd s = .next ({ s with seq := { s.seq with limitedNow := false } } : State).scaleDrives :=
  congrArg Host.Outcome.next (if_pos (by simp [hlim, hquiet, htick]))

end

/-! ### Stalls (R94) -/

/-- A release is reported: the group counts again, and SEQ_STALL names it and the member that goes on. -/
def State.reportStall (s : State) (g m : Nat) : State :=
  (({ s with seq := { s.seq with stall := kset s.seq.stall g 0 0 } } : State).stick .seq 0 8).setReg (ra .seq 0 0x060)
    (BitVec.ofNat 32 (m + g * 256 + 2 ^ 31))

/-- A scan sequencer goes on past its gate. -/
def State.openGate (s : State) (n : Nat) : State :=
  (s.setScan n { s.scan n with force := true, waited := 0, gated := false }).stick .scan n 11

theorem exec_stallRelease_due {s : State} {g : Fin 16} {m : Nat} {x : Bool × Option Nat}
    (hstall : 16 ≤ kget s.seq.stall g.val 0)
    (hfind : ((s.liveMembers g.val).find? fun y => y.2.2.isSome) = some (m, x)) :
    exec (.stallRelease g) s = .next
      (if m < 128 then (s.reportStall g.val m).waitOut m else (s.reportStall g.val m).openGate (m - 152)) := by
  refine congrArg Host.Outcome.next ((if_neg (Nat.not_lt.mpr hstall)).trans ?_)
  rw [hfind]
  rfl

section
variable (s : State) (g m : Nat)

theorem flag_reportStall : (s.reportStall g m).flag (ra .seq 0 0x010) 8 = true := by
  have hother : ra .seq 0 0x010 ≠ ra .seq 0 0x060 := by decide
  rw [State.reportStall, State.flag, reg_setReg, if_neg hother]
  exact flag_stick_same _ .seq 0 8 (by decide)

theorem reg_reportStall :
    (s.reportStall g m).reg (ra .seq 0 0x060) = BitVec.ofNat 32 (m + g * 256 + 2 ^ 31) := reg_setReg_same ..

theorem seq_reportStall : (s.reportStall g m).seq = { s.seq with stall := kset s.seq.stall g 0 0 } := setReg_seq ..

theorem engines_reportStall : (s.reportStall g m).engines = s.engines := setReg_engines ..

theorem scan_reportStall (n : Nat) : (s.reportStall g m).scan n = s.scan n := by
  rw [State.scan, State.reportStall, setReg_scans]
  rfl

/-- The head of a scan page lies beyond the sequencer page. -/
theorem scanSticky_ne_seq (n : Nat) {off : Nat} (h : off < 0x1000) : ra .seq 0 off ≠ ra .scan n 0x010 := by
  simp only [ra, pageNum]
  omega

theorem reg_openGate (n : Nat) {off : Nat} (h : off < 0x1000) :
    (s.openGate n).reg (ra .seq 0 off) = s.reg (ra .seq 0 off) :=
  (reg_setReg ..).trans (if_neg (scanSticky_ne_seq n h))

theorem seq_openGate (n : Nat) : (s.openGate n).seq = s.seq := rfl

theorem engines_openGate (n : Nat) : (s.openGate n).engines = s.engines := rfl

theorem scan_openGate (n : Nat) :
    (s.openGate n).scan n = { s.scan n with force := true, waited := 0, gated := false } := scan_setScan_same ..

end

/-! ### The statement -/

/-- Settles O20: a tick begins with the flags the last one has left; a control tick is within the limit or above it; a
stall is broken by the member found. -/
theorem flagsControlTicksAndStalls : Obligations.FlagsControlTicksAndStalls := by
  unfold Obligations.FlagsControlTicksAndStalls
  refine ⟨⟨fun s₀ => ?_, fun s u a hi val m => ?_⟩,
    ⟨fun s total meas hrun hctl hsorted => ?_, fun s hlim hquiet htick => ?_⟩, fun s g m x hstall hfind => ?_⟩
  · intro s hrun hdue
    have hs : s₀.toTick = s := toTick_eq s₀
    rw [← hs] at hrun hdue ⊢
    have hframe := onlyEngines_drivesFollow s₀.toTick.beginTick
    refine ⟨_, exec_heaterTick_due hrun hdue, hframe.seq, fun e => ?_, (onlyHeaters_beginTick _).trans hframe.heaters⟩
    exact (flagReq_drivesFollow _ e).trans (flagReq_beginTick _ e)
  · intro note
    exact ⟨fun hgate => congrArg Host.Outcome.next (guarded_act hgate _),
      fun hgate => congrArg Host.Outcome.next (guarded_act hgate _)⟩
  · intro v
    refine ⟨fun hle hfree => ?_, fun hover => ?_⟩
    · have hheaters := onlyHeaters_counted s meas total
      have hfree' := limitedNow_counted_within (meas := meas) hle hfree
      have hengines := onlyEngines_controlAll hfree'
      refine ⟨_, exec_controlTick_within hle hfree hrun hctl, hheaters.trans hengines.heaters,
        (congrArg Seq.limitedNow hengines.seq).trans hfree', fun e => ?_⟩
      intro g err kp ki u
      have hmoved : (s.counted total meas).controlAll.engine e = (s.counted total meas).controlled e g :=
        engine_controlAll hfree' (kSorted_measured hsorted meas) e
      have hdrive : (s.counted total meas).controlDrive e g = u :=
        congrFun (congrFun hheaters.controlDrive e) g
      refine ⟨fun hclosed hst hfault hlive => ?_, fun hno => ?_⟩
      · rw [hmoved, controlled_of_live hclosed hst hfault ((hheaters.engineLive e).trans hlive)]
        refine ⟨?_, hdrive, rfl, rfl⟩
        rw [drive_stepped hfree', hdrive, hheaters.vmax]
      · rw [hmoved]
        refine controlled_of_not ?_
        rwa [hheaters.engineLive]
    · refine ⟨_, exec_controlTick_over hover hrun hctl, ?_, ?_, fun e hruns => ?_⟩
      · rw [State.flag, reg_congr (onlyEngines_scaleDrives _).regs]
        exact flag_reported hover
      · rw [(onlyEngines_scaleDrives _).seq]
        exact limitedNow_reported hover
      · rw [engine_scaleDrives, engine_reported hover]
        exact (congrArg Engine.drive (scaled_of_running _ hruns)).trans (limited_reported hover _)
  · refine ⟨_, exec_limitationEnd_due hlim hquiet htick, onlyEngines_scaleDrives _, fun e => ?_⟩
    exact (engine_scaleDrives _ e).trans (scaled_of_free rfl _)
  · refine ⟨_, exec_stallRelease_due hstall hfind, ?_⟩
    by_cases hm : m < 128
    · have hmove := withEngine_waitOut (s.reportStall g.val m) m
      have hsame := engine_congr (engines_reportStall s g.val m)
      rw [hsame] at hmove
      rw [if_pos hm, State.flag, reg_congr hmove.frame.regs, reg_congr hmove.frame.regs]
      exact ⟨hmove.frame.seq.trans (seq_reportStall ..), flag_reportStall .., reg_reportStall ..,
        fun _ => ⟨hmove.engine, fun d hd => (hmove.engine_other hd).trans (hsame d)⟩, fun hscan => by omega⟩
    · rw [if_neg hm, State.flag, reg_openGate _ _ (by decide), reg_openGate _ _ (by decide)]
      refine ⟨(seq_openGate ..).trans (seq_reportStall ..), flag_reportStall .., reg_reportStall ..,
        fun hheater => absurd hheater hm, fun _ => ⟨?_, ?_⟩⟩
      · rw [scan_openGate, scan_reportStall]
      · exact (engines_openGate ..).trans (engines_reportStall ..)

end Sys2Proof.Machine
end

section
/-! SUPPORT. Proof of the statement of the impedance engines: DAC ticks (R95), the ends of visits (R97), periods (R98,
R99), health and baselines (R100, R102). -/

namespace Sys2Proof.Machine
open Sys2Proof

/-! ### DAC ticks (R95, R97) -/

/-- An engine visits a slot from the start of its visit on, past its end where a slot follows. -/
theorem impVisit_isSome (s : State) (n t : Nat) :
    (s.impVisit n t).isSome = true ↔
      (s.imp n).active = true ∧ (s.imp n).start ≤ t ∧ (t < s.impEnd n ∨ s.impNext n ≠ none) := by
  unfold State.impVisit
  cases hactive : (s.imp n).active with
  | false => simp [hactive]
  | true =>
    by_cases hstart : t < (s.imp n).start
    · simp [hactive, hstart]
    · by_cases hend : t < s.impEnd n <;> simp [hactive, hstart, hend, Option.isSome_iff_ne_none, Nat.le_of_not_lt]

/-- The DAC's value at a tick: the excitation while a slot is visited, else 0. -/
def State.dacNow (s : State) (n : Nat) : Int :=
  if (s.impVisit n s.tim.time).isSome then excitation (s.tones n) (s.tim.time / dacSpan) else 0

theorem exec_dacTick_eq (s : State) (n : Fin 24) :
    exec (.dacTick n) s = .next (s.setImp n.val { s.imp n.val with dac := s.dacNow n.val }) := rfl

theorem dacNow_visiting {s : State} {n : Nat} (h : (s.impVisit n s.tim.time).isSome = true) :
    s.dacNow n = excitation (s.tones n) (s.tim.time / 2 ^ 38) := if_pos h

theorem dacNow_idle {s : State} {n : Nat} (h : ¬(s.impVisit n s.tim.time).isSome = true) : s.dacNow n = 0 := if_neg h

/-! ### Periods (R98, R99) -/

/-- A period without a result is discarded, with bit 10 of the page's BLK_STICKY. -/
def State.noteDiscard (s : State) (i : Nat) (r : Option (List (Flt × Flt))) : State :=
  if r = none then s.stick .imp i 10 else s

/-- What the streams of a slot, and the capture ring, take of a period. -/
def State.periodOut (s : State) (i stamp : Nat) (e : ImpEngine) (l : LockSums) (r : Option (List (Flt × Flt))) :
    State :=
  (s.substNow.ringAdd (.sums i stamp e)).impRecords i stamp l r

/-- A period is counted, and kept with its result. -/
def State.countPeriod (s : State) (i per : Nat) (r : Option (List (Flt × Flt))) : State :=
  s.setImp i { s.imp i with per := per + 1, kept := (s.imp i).kept ++ r.toList, sums := kset (s.imp i).sums per {} {} }

section
variable {s : State} {n : Fin 24}

theorem period_over (hactive : (s.imp n.val).active = true) (hper : (s.imp n.val).per < s.impPeriods n.val)
    (hover : (s.imp n.val).start + ((s.imp n.val).per + 1) * s.impPeriod n.val ≤ s.tim.time) :
    ¬((!(s.imp n.val).active) = true ∨ s.impPeriods n.val ≤ (s.imp n.val).per ∨
      s.tim.time < (s.imp n.val).start + (s.imp n.val).per * s.impPeriod n.val + s.impPeriod n.val) := by
  rw [Nat.add_mul, Nat.one_mul, ← Nat.add_assoc] at hover
  simp [hactive, hper, hover]

theorem exec_impPeriodEnd_settle (hactive : (s.imp n.val).active = true) (hper : (s.imp n.val).per < s.impPeriods n.val)
    (hover : (s.imp n.val).start + ((s.imp n.val).per + 1) * s.impPeriod n.val ≤ s.tim.time)
    (hsettle : (s.imp n.val).per < s.fld (ra .imp n.val 0x040) 9 4) :
    exec (.impPeriodEnd n) s = .next (s.setImp n.val { s.imp n.val with per := (s.imp n.val).per + 1 }) :=
  congrArg Host.Outcome.next ((if_neg (period_over hactive hper hover)).trans (if_pos hsettle))

theorem exec_impPeriodEnd_kept (hactive : (s.imp n.val).active = true) (hper : (s.imp n.val).per < s.impPeriods n.val)
    (hover : (s.imp n.val).start + ((s.imp n.val).per + 1) * s.impPeriod n.val ≤ s.tim.time)
    (hkept : s.fld (ra .imp n.val 0x040) 9 4 ≤ (s.imp n.val).per) {r : Option (List (Flt × Flt))}
    (hr : s.lockResult n.val (kget (s.imp n.val).sums (s.imp n.val).per {}) = r) :
    exec (.impPeriodEnd n) s = .next
      (((s.noteDiscard n.val r).periodOut n.val
        (((s.imp n.val).start + (s.imp n.val).per * s.impPeriod n.val) / 2 ^ 32) (s.imp n.val)
        (kget (s.imp n.val).sums (s.imp n.val).per {}) r).countPeriod n.val (s.imp n.val).per r) := by
  refine congrArg Host.Outcome.next ((if_neg (period_over hactive hper hover)).trans
    ((if_neg (Nat.not_lt.mpr hkept)).trans ?_))
  cases r with
  | none =>
    simp only [hr]
    rfl
  | some z =>
    simp only [hr]
    rfl

end

section
variable (s : State) (i : Nat)

theorem noteDiscard_flag {r : Option (List (Flt × Flt))} (h : r = none) :
    (s.noteDiscard i r).flag (ra .imp i 0x010) 10 = true := by
  rw [State.noteDiscard, if_pos h]
  exact flag_stick_same s .imp i 10 (by decide)

/-- Without a stream of the slot there is no record. -/
theorem impRecords_of_no_stream (stamp : Nat) (l : LockSums) (r : Option (List (Flt × Flt)))
    (h : s.impStreams i (s.imp i).slot = []) : s.impRecords i stamp l r = s := by
  simp [State.impRecords, h, State.each]

end

/-! ### Ends of visits (R97, R100, R101) -/

section
variable {s t : State}

theorem State.OnlyPorts.imp (h : s.OnlyPorts t) (i : Nat) : t.imp i = s.imp i := by rw [h]; rfl

theorem State.OnlyPorts.nextSlot (h : s.OnlyPorts t) (i k : Nat) : t.nextSlot i k = s.nextSlot i k := by rw [h]; rfl

theorem State.OnlyPorts.slotChan (h : s.OnlyPorts t) (i k : Nat) : t.slotChan i k = s.slotChan i k := by rw [h]; rfl

theorem State.OnlyPorts.impAhead (h : s.OnlyPorts t) (i : Nat) : t.impAhead i = s.impAhead i := by rw [h]; rfl

end

/-- The window of an EC port that has started by an instant keeps its excitation flag. -/
def State.keepExcited (s : State) (c stop : Nat) : State :=
  if chanKind c = .ec && decide ((s.port c).winStart < stop) then s.setPort c { s.port c with excited := true } else s

theorem onlyPorts_keepExcited (s : State) (c stop : Nat) : s.OnlyPorts (s.keepExcited c stop) := by
  unfold State.keepExcited
  split <;> rfl

/-- Of the visit that follows at once, what has been excited up to an instant keeps its flag. -/
def State.keepExcitedNext (s : State) (i stop : Nat) : State :=
  match s.impNext i with
  | some (_, c) => if s.impEnd i < stop then s.keepExcited c stop else s
  | none => s

theorem onlyPorts_keepExcitedNext (s : State) (i stop : Nat) : s.OnlyPorts (s.keepExcitedNext i stop) := by
  unfold State.keepExcitedNext
  split
  case h_1 k c _ =>
    split
    case isTrue => exact onlyPorts_keepExcited s c stop
    case isFalse => exact onlyPorts_refl s
  case h_2 => exact onlyPorts_refl s

theorem impRemove_active {s : State} {i : Nat} (stop : Nat) (h : (s.imp i).active = true) :
    s.impRemove i stop = (s.keepExcited (s.imp i).ch (min stop (s.impEnd i))).keepExcitedNext i stop :=
  if_neg (by simp [h])

theorem impRemove_inactive {s : State} {i : Nat} (stop : Nat) (h : (s.imp i).active = false) :
    s.impRemove i stop = s := if_pos (by simp [h])

theorem onlyPorts_impRemove (s : State) (i stop : Nat) : s.OnlyPorts (s.impRemove i stop) := by
  cases hactive : (s.imp i).active with
  | false =>
    rw [impRemove_inactive stop hactive]
    exact onlyPorts_refl s
  | true =>
    rw [impRemove_active stop hactive]
    exact (onlyPorts_keepExcited ..).trans (onlyPorts_keepExcitedNext ..)

/-- What the end of a visit says of the slot's health, before the excitation leaves its port (R100, R101). -/
def State.judgeVisit (s : State) (i : Nat) : State :=
  let e := s.imp i
  if chanKind (s.impChan i) ≠ .ec ∨ s.fld (ra .imp i 0x040) 6 3 = 0 then s
  else if 2 * e.kept.length < s.fld (ra .imp i 0x040) 13 8 then
    (s.setImp i { e with fall := kset e.fall e.slot (3, 3) (3, 3) }).orReg (ra .imp i (0x140 + 4 * e.slot)) (bitW 22)
  else (s.healthUpdate i e.slot (s.visitResult i e.kept) (s.impEnd i / 2 ^ 32)).takeBase i e.slot
    (s.visitResult i e.kept)

/-- The next slot after `k` is visited from an instant on, or the engine stops. -/
def State.visitNext (s : State) (i k at_ : Nat) : State :=
  match s.nextSlot i k with
  | some j => s.impStart i j at_ (s.impAhead i)
  | none => s.impStop i

theorem exec_impVisitEnd_over {s : State} {n : Fin 24} (hactive : (s.imp n.val).active = true)
    (hover : s.impPeriods n.val ≤ (s.imp n.val).per) :
    exec (.impVisitEnd n) s = .next
      (((s.judgeVisit n.val).impRemove n.val (s.impEnd n.val)).visitNext n.val (s.imp n.val).slot (s.impEnd n.val)) :=
  congrArg Host.Outcome.next (if_neg (by simp [hactive, hover]))

section
variable {s : State} {i k at_ : Nat}

theorem visitNext_some {j : Nat} (h : s.nextSlot i k = some j) :
    s.visitNext i k at_ = s.impStart i j at_ (s.impAhead i) := by
  simp [State.visitNext, h]

theorem visitNext_none (h : s.nextSlot i k = none) : s.visitNext i k at_ = s.impStop i := by
  simp [State.visitNext, h]

theorem regs_visitNext (s : State) (i k at_ : Nat) : (s.visitNext i k at_).regs = s.regs := by
  cases hnext : s.nextSlot i k with
  | some j =>
    rw [visitNext_some hnext]
    rfl
  | none =>
    rw [visitNext_none hnext]
    exact (onlyPorts_impRemove s i s.tim.time).regs

theorem imp_visitNext_other (s : State) (i k at_ : Nat) {d : Nat} (hd : d ≠ i) :
    (s.visitNext i k at_).imp d = s.imp d := by
  cases hnext : s.nextSlot i k with
  | some j =>
    rw [visitNext_some hnext]
    exact imp_setImp_other s i _ d hd
  | none =>
    rw [visitNext_none hnext]
    exact (imp_setImp_other _ i _ d hd).trans ((onlyPorts_impRemove s i s.tim.time).imp d)

theorem imp_visitNext_some {j : Nat} (h : s.nextSlot i k = some j) :
    (s.visitNext i k at_).imp i =
      { s.imp i with active := true, slot := j, ch := s.slotChan i j, start := at_, per := 0, sums := s.impAhead i
                     kept := [] } := by
  rw [visitNext_some h]
  exact imp_setImp_same ..

theorem imp_visitNext_none (h : s.nextSlot i k = none) :
    (s.visitNext i k at_).imp i =
      { s.imp i with active := false, slot := 0, ch := 0, start := 0, per := 0, sums := [], kept := [], dac := 0 } := by
  rw [visitNext_none h, State.impStop, imp_setImp_same, (onlyPorts_impRemove s i s.tim.time).imp]

theorem judgeVisit_unjudged (h : chanKind (s.impChan i) ≠ .ec ∨ s.fld (ra .imp i 0x040) 6 3 = 0) :
    s.judgeVisit i = s := if_pos h

theorem judgeVisit_few (hec : chanKind (s.impChan i) = .ec) (htone : s.fld (ra .imp i 0x040) 6 3 ≠ 0)
    (hfew : 2 * (s.imp i).kept.length < s.fld (ra .imp i 0x040) 13 8) :
    s.judgeVisit i =
      (s.setImp i { s.imp i with fall := kset (s.imp i).fall (s.imp i).slot (3, 3) (3, 3) }).orReg
        (ra .imp i (0x140 + 4 * (s.imp i).slot)) (bitW 22) :=
  (if_neg (by simp [hec, htone])).trans (if_pos hfew)

theorem judgeVisit_enough (hec : chanKind (s.impChan i) = .ec) (htone : s.fld (ra .imp i 0x040) 6 3 ≠ 0)
    (henough : s.fld (ra .imp i 0x040) 13 8 ≤ 2 * (s.imp i).kept.length) :
    s.judgeVisit i =
      (s.healthUpdate i (s.imp i).slot (s.visitResult i (s.imp i).kept) (s.impEnd i / 2 ^ 32)).takeBase i
        (s.imp i).slot (s.visitResult i (s.imp i).kept) :=
  (if_neg (by simp [hec, htone])).trans (if_neg (Nat.not_lt.mpr henough))

end

/-- The end of a visit touches registers only by what is judged of it. -/
theorem regs_endVisit (s : State) (i stop k at_ : Nat) : ((s.impRemove i stop).visitNext i k at_).regs = s.regs :=
  (regs_visitNext ..).trans (onlyPorts_impRemove ..).regs

theorem flag_orReg_same (s : State) (a : Nat) {n : Nat} (h : n < 32) : (s.orReg a (bitW n)).flag a n = true := by
  have hbit : (bitW n).getLsbD n = true := by
    simp only [bitW, BitVec.getLsbD_ofNat, Nat.testBit_two_pow_self, h, decide_true, Bool.and_true]
  rw [State.flag, reg_orReg_same, bit, BitVec.getLsbD_or, hbit, Bool.or_true]

theorem reg_orReg_other (s : State) (a : Nat) (m : Word) {b : Nat} (h : b ≠ a) : (s.orReg a m).reg b = s.reg b :=
  (reg_setReg ..).trans (if_neg h)

/-! ### Baseline commands (R102) -/

/-- What IMP_CMD holds for the baseline of one slot. -/
theorem baseWord_bits : ∀ slot : BitVec 5,
    let v : Word := BitVec.ofNat 32 (slot.toNat + 256)
    bit v 8 = true ∧ bit v 9 = false ∧ bits v 0 5 = slot.toNat := by
  decide

theorem actImpCmd_slot (s : State) (n : Nat) (slot : BitVec 5) :
    s.actImpCmd n (BitVec.ofNat 32 (slot.toNat + 256)) = s.setImp n { s.imp n with
      baseReq := if (s.imp n).baseReq.contains slot.toNat then (s.imp n).baseReq
        else (s.imp n).baseReq ++ [slot.toNat] } := by
  obtain ⟨hone, hall, hslot⟩ := baseWord_bits slot
  by_cases hnoted : slot.toNat ∈ (s.imp n).baseReq <;>
    simp [State.actImpCmd, hone, hall, hslot, hnoted]

theorem actImpCmd_all (s : State) (n : Nat) :
    s.actImpCmd n 512 = s.setImp n { s.imp n with
      baseReq := (s.imp n).baseReq ++ ((s.slotsOn n).filter fun k => chanKind (s.slotChan n k) = .ec).filter
        fun k => !(s.imp n).baseReq.contains k } := rfl

/-- Settles O54: a DAC tick by whether a slot is visited, a period by whether it is one of SETTLE, the end of a visit by
what is judged of it and by the slot that follows. -/
theorem impedanceEnginesVisitTheirSlots : Obligations.ImpedanceEnginesVisitTheirSlots := by
  unfold Obligations.ImpedanceEnginesVisitTheirSlots
  refine ⟨fun s n => ?_, fun s u a n slot => ?_⟩
  · intro i e H driven
    refine ⟨fun hactive hstart hmore => ?_, fun hidle => ?_,
      fun hactive hper hover => ⟨fun hsettle => ?_, fun hkept => ?_⟩,
      fun hactive hover => ?_⟩
    · have hvisit := (impVisit_isSome s i s.tim.time).mpr ⟨hactive, hstart, hmore⟩
      rw [exec_dacTick_eq, dacNow_visiting hvisit]
    · have hvisit : ¬(s.impVisit i s.tim.time).isSome = true := by
        rw [impVisit_isSome]
        rintro ⟨hactive, hstart, hmore⟩
        rcases hidle with hno | hlater | ⟨hend, hnone⟩
        · exact Bool.false_ne_true (hno.symm.trans hactive)
        · exact Nat.not_lt.mpr hstart hlater
        · exact hmore.elim (Nat.not_lt.mpr hend) (absurd hnone)
      rw [exec_dacTick_eq, dacNow_idle hvisit]
    · exact exec_impPeriodEnd_settle hactive hper hover hsettle
    · intro l r stamp v w u next
      have hkeeps : exec (.impPeriodEnd n) s = .next (next u) := exec_impPeriodEnd_kept hactive hper hover hkept rfl
      refine ⟨hkeeps, noteDiscard_flag s i, fun hno => hkeeps.trans ?_⟩
      exact congrArg (fun x => Host.Outcome.next (next x)) (impRecords_of_no_stream w i stamp l r hno)
    · intro at_ goes
      have hends := exec_impVisitEnd_over hactive hover
      refine ⟨fun hunjudged => ⟨_, hends, ?_, ?_⟩, fun hec htone hfew _ => ⟨_, hends, ?_, fun b hb => ?_⟩,
        fun hec htone henough => hends.trans ?_⟩
      · have hremove := onlyPorts_impRemove s i at_
        rw [judgeVisit_unjudged hunjudged]
        refine ⟨fun j hj => ?_, fun hj => ?_, fun d hd => ?_⟩
        · rw [imp_visitNext_some ((hremove.nextSlot ..).trans hj), hremove.imp, hremove.slotChan, hremove.impAhead]
        · rw [imp_visitNext_none ((hremove.nextSlot ..).trans hj), hremove.imp]
        · exact (imp_visitNext_other _ _ _ _ hd).trans (hremove.imp d)
      · rw [judgeVisit_unjudged hunjudged]
        exact regs_endVisit ..
      · rw [judgeVisit_few hec htone hfew]
        rw [State.flag, reg_congr (regs_endVisit ..)]
        exact flag_orReg_same _ _ (by decide)
      · rw [judgeVisit_few hec htone hfew]
        exact (reg_congr (regs_endVisit ..) b).trans (reg_orReg_other _ _ _ hb)
      · rw [judgeVisit_enough hec htone henough]
        rfl
  · intro e ecs
    refine ⟨fun hpass => ?_, fun hpass => ?_⟩
    · exact congrArg Host.Outcome.next ((guarded_passes hpass _).trans (actImpCmd_slot ..))
    · exact congrArg Host.Outcome.next ((guarded_passes hpass _).trans (actImpCmd_all ..))

end Sys2Proof.Machine
end

section
/-! SUPPORT. Proof of the statement of slice faults and spares: hard faults and end stops (R120), AUTOSPARE and
CNV_SPARE (R121), the ends of shadowing (R122, R125). -/

namespace Sys2Proof.Machine
open Sys2Proof

/-! ### Registers of a bank's page -/

/-- Two offsets of a page are two registers. -/
theorem ra_ne_of_offset_ne (k : PageKind) (i : Nat) {a b : Nat} (h : a ≠ b) : ra k i a ≠ ra k i b :=
  fun heq => h (Nat.add_left_cancel heq)

/-- A bit that reads 1 does so whatever bits of whatever register are set. -/
theorem flag_orReg_of_flag {s : State} {a n : Nat} (h : s.flag a n = true) (b : Nat) (m : Word) :
    (s.orReg b m).flag a n = true := by
  by_cases hab : a = b
  · subst hab
    rw [State.flag, reg_orReg_same, bit, BitVec.getLsbD_or]
    exact Bool.or_eq_true_iff.mpr (.inl h)
  · rwa [State.flag, reg_orReg_other s b m hab]

/-! ### Nothing but banks and registers changes -/

/-- `t` differs from `s` in registers and in what the banks keep. -/
def State.OnlyBanks (s t : State) : Prop := t = { s with regs := t.regs, banks := t.banks }

section
variable {s t : State}

theorem onlyBanks_refl (s : State) : s.OnlyBanks s := rfl

theorem State.OnlyBanks.setBank (h : s.OnlyBanks t) (i : Nat) (x : Bank) : s.OnlyBanks (t.setBank i x) := by
  have hstep := congrArg (fun v : State => { v with banks := (t.setBank i x).banks }) h
  exact hstep

theorem State.OnlyBanks.setReg (h : s.OnlyBanks t) (a : Nat) (v : Word) : s.OnlyBanks (t.setReg a v) := by
  have hstep := congrArg (fun w : State => { w with regs := (t.setReg a v).regs }) h
  exact hstep

end

/-! ### Slice faults (R120, R124, R126) -/

/-- From `s` to `t` fault `n` of slice `k` has been noted on bank `i`, and the bank has become `x`: no other bank
changes, and no register but the slice's and BLK_STICKY of the bank's page. -/
structure State.Faulted (s t : State) (i k n : Nat) (x : Bank) : Prop where
  frame : s.OnlyBanks t
  reg : ∀ r, r ≠ ra .bank i 0x010 → r ≠ ra .bank i (0x080 + 4 * k) → t.reg r = s.reg r
  slice : t.flag (ra .bank i (0x080 + 4 * k)) n = true
  summary : t.flag (ra .bank i 0x010) 8 = true
  bank : t.bank i = x
  bank_other : ∀ d, d ≠ i → t.bank d = s.bank d

theorem faulted_sliceFault (s : State) (i k : Nat) {n : Nat} (hn : n < 32) :
    s.Faulted (s.sliceFault i k n) i k n (s.bank i) where
  frame := ((onlyBanks_refl s).setReg _ _).setReg _ _
  reg _ hpage hslice := (reg_orReg_other _ _ _ hpage).trans (reg_orReg_other _ _ _ hslice)
  slice := flag_orReg_of_flag (flag_orReg_same s _ hn) _ _
  summary := flag_stick_same _ .bank i 8 (by decide)
  bank := rfl
  bank_other _ _ := rfl

/-- What AUTOSPARE makes a fault of slice `k` of bank `i` ask for (R121). -/
def State.autoAsks (s : State) (i k due : Nat) : List (Nat × Nat) :=
  if k < 16 ∧ s.fld (ra .bank i 0x040) 2 1 = 1 then [(k, due)] else []

section
variable {s t : State} {i k n : Nat} {x : Bank} (h : s.Faulted t i k n x)
include h

theorem State.Faulted.setBank (y : Bank) : s.Faulted (t.setBank i y) i k n y where
  frame := h.frame.setBank i y
  reg := h.reg
  slice := h.slice
  summary := h.summary
  bank := bank_setBank_same ..
  bank_other d hd := (bank_setBank_other _ _ _ _ hd).trans (h.bank_other d hd)

theorem State.Faulted.stick (m : Nat) : s.Faulted (t.stick .bank i m) i k n x where
  frame := h.frame.setReg _ _
  reg r hpage hslice := (reg_orReg_other _ _ _ hpage).trans (h.reg r hpage hslice)
  slice := flag_orReg_of_flag h.slice _ _
  summary := flag_orReg_of_flag h.summary _ _
  bank := h.bank
  bank_other := h.bank_other

/-- A degraded bank asks for the same starts and has the same faults and the same SX. -/
theorem State.Faulted.noteDegraded : ∃ y, s.Faulted (t.noteDegraded i) i k n y ∧
    y.shadowReqs = x.shadowReqs ∧ y.hard = x.hard ∧ y.spare = x.spare := by
  obtain rfl := h.bank
  unfold State.noteDegraded
  dsimp only
  split
  case isTrue => exact ⟨_, (h.setBank _).stick 16, rfl, rfl, rfl⟩
  case isFalse => exact ⟨_, h, rfl, rfl, rfl⟩

theorem State.Faulted.autoSpare (due : Nat) :
    s.Faulted (t.autoSpare i k due) i k n { x with shadowReqs := x.shadowReqs ++ s.autoAsks i k due } := by
  have hcfg : t.bcfg i 2 1 = s.fld (ra .bank i 0x040) 2 1 := by
    rw [State.bcfg, State.fld, h.reg _ (ra_ne_of_offset_ne .bank i (by decide)) (ra_ne_of_offset_ne .bank i (by omega))]
    rfl
  unfold State.autoSpare State.autoAsks
  by_cases hask : k < 16 ∧ s.fld (ra .bank i 0x040) 2 1 = 1
  · rw [if_pos hask, if_pos (by simpa [hcfg] using hask), State.askShadow, h.bank]
    exact h.setBank _
  · rw [if_neg hask, if_neg (by simpa [hcfg] using hask), List.append_nil]
    exact h

/-- The end of shadowing leaves the slices' faults as they are. -/
theorem State.Faulted.endShadow : ∃ y, s.Faulted (t.endShadow i) i k n y ∧ y.hard = x.hard := by
  obtain rfl := h.bank
  unfold State.endShadow
  dsimp only
  split
  case isTrue => exact ⟨_, h.setBank _, rfl⟩
  case isFalse => exact ⟨_, h, rfl⟩

end

/-- A bank with slice `k` hard-faulted; `early` where SX shadows it and is to take its place (R124). -/
def Bank.hardFaulted (x : Bank) (k ms : Nat) (early : Bool) : Bank :=
  { x with
    hard := if x.hard.contains k then x.hard else x.hard ++ [k]
    swapDue := x.swapDue || early
    swapMs := if early && !x.swapDue then ms + 1 else x.swapMs }

theorem mem_hard_hardFaulted (x : Bank) (k ms : Nat) (early : Bool) : k ∈ (x.hardFaulted k ms early).hard := by
  by_cases hk : k ∈ x.hard <;> simp [Bank.hardFaulted, hk]

section
variable (s : State) (i due : Nat) {n : Nat} (hn : n < 32)
include hn

/-- SX fails where it is not in use. -/
theorem faulted_hardFault_spare (hfree : (s.bank i).spare ≠ .inUse) :
    ∃ y, s.Faulted (s.hardFault i 16 n due) i 16 n y ∧ y.spare = .failed ∧ y.hard = (s.bank i).hard := by
  obtain ⟨y, hend, hhard⟩ := (faulted_sliceFault s i 16 hn).endShadow
  have hfails : s.hardFault i 16 n due = ((s.sliceFault i 16 n).endShadow i).setBank i { y with spare := .failed } := by
    rw [← hend.bank]
    exact if_pos ⟨rfl, hfree⟩
  exact ⟨{ y with spare := .failed }, hfails ▸ hend.setBank _, rfl, hhard⟩

/-- A slice of a group, or SX in use, is hard-faulted, and AUTOSPARE asks for shadowing of the former. -/
theorem faulted_hardFault_slice {k : Nat} (hslice : ¬(k = 16 ∧ (s.bank i).spare ≠ .inUse)) :
    ∃ y, s.Faulted (s.hardFault i k n due) i k n y ∧ y.shadowReqs = (s.bank i).shadowReqs ++ s.autoAsks i k due ∧
      k ∈ y.hard ∧ y.spare = (s.bank i).spare := by
  obtain ⟨early, hfaults⟩ : ∃ early, s.hardFault i k n due =
      (((s.sliceFault i k n).setBank i ((s.bank i).hardFaulted k s.tim.msCount early)).noteDegraded i).autoSpare i k
        due :=
    ⟨_, if_neg hslice⟩
  obtain ⟨y, hnoted, hreqs, hhard, hspare⟩ := ((faulted_sliceFault s i k hn).setBank
    ((s.bank i).hardFaulted k s.tim.msCount early)).noteDegraded
  refine ⟨{ y with shadowReqs := y.shadowReqs ++ s.autoAsks i k due }, hfaults ▸ hnoted.autoSpare due, ?_, ?_, hspare⟩
  · exact congrArg (· ++ s.autoAsks i k due) hreqs
  · exact hhard ▸ mem_hard_hardFaulted ..

end

theorem exec_metastable_faults {s : State} {b : Fin 24} {slice : Fin 17} {n : Nat} (hn : 16 < n)
    (hpow : s.slicePowered b.val slice.val = true) :
    exec (.metastable b slice n) s = .next (s.hardFault b.val slice.val 0 s.tim.due) :=
  congrArg Host.Outcome.next (if_pos ⟨hn, hpow⟩)

theorem exec_metastable_resolved {s : State} {b : Fin 24} {slice : Fin 17} {n : Nat}
    (h : n ≤ 16 ∨ s.slicePowered b.val slice.val = false) : exec (.metastable b slice n) s = .next s := by
  refine congrArg Host.Outcome.next (if_neg ?_)
  rintro ⟨hn, hpow⟩
  rcases h with hle | hoff
  · exact Nat.not_lt.mpr hle hn
  · exact Bool.false_ne_true (hoff.symm.trans hpow)

theorem mem_trimKinds (j : TrimK) : j ∈ TrimK.all := by cases j <;> decide

/-- Some trim of slice `k` of bank `i` has stood at its end stop for 64 milestones. -/
def State.trimStuck (s : State) (i k : Nat) : Prop := ∃ j : TrimK, 64 ≤ kget (s.bank i).endStop (k * 3 + j.num) 0

theorem trimStuck_iff (s : State) (i k : Nat) :
    TrimK.all.any (fun j => decide (64 ≤ kget (s.bank i).endStop (k * 3 + j.num) 0)) = true ↔ s.trimStuck i k := by
  simp only [List.any_eq_true, decide_eq_true_eq]
  exact ⟨fun ⟨j, _, hj⟩ => ⟨j, hj⟩, fun ⟨j, hj⟩ => ⟨j, mem_trimKinds j, hj⟩⟩

theorem exec_trimEnd_stuck {s : State} {b : Fin 24} {slice : Fin 17} (h : s.trimStuck b.val slice.val)
    (hnew : s.flag (ra .bank b.val (0x080 + 4 * slice.val)) 2 = false) :
    exec (.trimEnd b slice) s = .next ((s.sliceFault b.val slice.val 2).autoSpare b.val slice.val s.tim.due) :=
  congrArg Host.Outcome.next (if_pos ⟨(trimStuck_iff ..).mpr h, by rw [hnew]; rfl⟩)

theorem exec_trimEnd_inert {s : State} {b : Fin 24} {slice : Fin 17}
    (h : ¬s.trimStuck b.val slice.val ∨ s.flag (ra .bank b.val (0x080 + 4 * slice.val)) 2 = true) :
    exec (.trimEnd b slice) s = .next s := by
  refine congrArg Host.Outcome.next (if_neg ?_)
  rintro ⟨hstuck, hnew⟩
  rcases h with hmoves | hknown
  · exact hmoves ((trimStuck_iff ..).mp hstuck)
  · simp [hknown] at hnew

/-! ### CNV_SPARE and the ends of shadowing (R121, R122, R125) -/

/-- What CNV_SPARE holds for a start on a slice. -/
theorem spareWord_bits : ∀ slice : BitVec 4,
    let v : Word := BitVec.ofNat 32 (slice.toNat + 16)
    bits v 4 2 = 1 ∧ bits v 0 4 = slice.toNat := by
  decide

theorem actSpare_start (s : State) (i : Nat) (slice : BitVec 4) :
    s.actSpare i (BitVec.ofNat 32 (slice.toNat + 16)) = s.askShadow i slice.toNat s.tim.due := by
  obtain ⟨hstart, hslice⟩ := spareWord_bits slice
  simp only [State.actSpare, hstart, hslice]

theorem actSpare_abort (s : State) (i : Nat) : s.actSpare i 0x20 = s.endShadow i := rfl

/-- A bank whose SX is free again. -/
def Bank.freed (x : Bank) : Bank :=
  { x with
    spare := .free, target := 0, shadowMs := 0, shadowOk := 0, converged := false, swapDue := false, swapMs := 0 }

theorem endShadow_eq (s : State) (i : Nat) :
    s.endShadow i = if (s.bank i).spare = .shadowing then s.setBank i (s.bank i).freed else s := rfl

theorem exec_spareConverged_passed {s : State} {b : Fin 24} (hshadow : (s.bank b.val).spare = .shadowing)
    (hok : 16 ≤ (s.bank b.val).shadowOk) :
    exec (.spareConverged b) s = .next (s.setBank b.val { s.bank b.val with converged := true, swapDue := true }) :=
  congrArg Host.Outcome.next (if_pos ⟨hshadow, hok⟩)

theorem exec_shadowTimeout_due {s : State} {b : Fin 24} (hshadow : (s.bank b.val).spare = .shadowing)
    (hms : 16384 ≤ (s.bank b.val).shadowMs) (hok : (s.bank b.val).shadowOk < 16) :
    exec (.shadowTimeout b) s = .next ((s.setBank b.val (s.bank b.val).freed).stick .bank b.val 10) := by
  refine congrArg Host.Outcome.next ((if_pos ⟨hshadow, hms, hok⟩).trans ?_)
  rw [endShadow_eq, if_pos hshadow]

/-- Settles O55: a hard fault by whether SX or another slice has it, an end stop as one more fault of a slice, and
CNV_SPARE by its operation. -/
theorem slicesFaultAndSparesShadow : Obligations.SlicesFaultAndSparesShadow := by
  unfold Obligations.SlicesFaultAndSparesShadow
  refine ⟨fun s b slice => ?_, fun s u a b => ?_⟩
  · intro i k asks only
    have honly : ∀ {t n x}, s.Faulted t i k n x → only t := fun h => ⟨h.frame, h.bank_other, h.reg⟩
    refine ⟨fun n hn hpow => ⟨_, exec_metastable_faults hn hpow, ?_⟩, fun n => exec_metastable_resolved,
      fun hstuck hnew => ⟨_, exec_trimEnd_stuck hstuck hnew, ?_⟩, fun h => exec_trimEnd_inert (h.imp_left ?_)⟩
    · by_cases hfails : k = 16 ∧ (s.bank i).spare ≠ .inUse
      · obtain ⟨hk, hfree⟩ := hfails
        obtain ⟨y, hfault, hspare, hhard⟩ := faulted_hardFault_spare s i s.tim.due (n := 0) (by decide) hfree
        rw [← hk] at hfault
        refine ⟨honly hfault, hfault.slice, hfault.summary, fun _ _ => ?_, fun hother => ?_⟩
        · rw [hfault.bank]
          exact ⟨hspare, hhard⟩
        · exact hother.elim (fun hlt => absurd hk (Nat.ne_of_lt hlt)) (absurd · hfree)
      · obtain ⟨y, hfault, hreqs, hhard, hspare⟩ := faulted_hardFault_slice s i s.tim.due (n := 0) (by decide) hfails
        refine ⟨honly hfault, hfault.slice, hfault.summary, fun hk hfree => absurd ⟨hk, hfree⟩ hfails, fun _ => ?_⟩
        have hbank : (s.hardFault b.val slice.val 0 s.tim.due).bank i = y := hfault.bank
        refine ⟨(congrArg Bank.shadowReqs hbank).trans hreqs, ?_, (congrArg Bank.spare hbank).trans hspare⟩
        rwa [hbank]
    · have hfault := (faulted_sliceFault s i k (n := 2) (by decide)).autoSpare s.tim.due
      exact ⟨honly hfault, congrArg Bank.shadowReqs hfault.bank, hfault.slice, hfault.summary⟩
    · rintro hmoves ⟨j, hj⟩
      exact Nat.not_lt.mpr hj (hmoves j)
  · intro x free
    refine ⟨fun slice hpass => ?_, fun hpass => ?_, exec_spareConverged_passed, exec_shadowTimeout_due⟩
    · exact congrArg Host.Outcome.next ((guarded_passes hpass _).trans (actSpare_start ..))
    · exact congrArg Host.Outcome.next ((guarded_passes hpass _).trans ((actSpare_abort ..).trans (endShadow_eq ..)))

end Sys2Proof.Machine
end

section
/-! SUPPORT. Proof of the statement of pair faults (R111) and check faults (R112, R114): which banks they name, and what
their counts read. -/

namespace Sys2Proof.Machine
open Sys2Proof

/-! ### Pair faults (R111) -/

theorem bank_setPairFault (s : State) (i : Nat) (v : Bool) :
    (s.setPairFault i v).bank i = { s.bank i with pairFault := v, pairPasses := 0 } :=
  (bank_setBank_other _ _ _ _ (Nat.ne_of_lt (Nat.lt_succ_self i))).trans (bank_setBank_same ..)

theorem bank_setPairFault_follower (s : State) (i : Nat) (v : Bool) :
    (s.setPairFault i v).bank (i + 1) = { s.bank (i + 1) with pairFault := v } :=
  (bank_setBank_same ..).trans
    (congrArg (fun x : Bank => { x with pairFault := v }) (bank_setBank_other _ _ _ _ (Nat.succ_ne_self i)))

theorem bank_setPairFault_other (s : State) (i : Nat) (v : Bool) {d : Nat} (hd : d ≠ i) (hd' : d ≠ i + 1) :
    (s.setPairFault i v).bank d = s.bank d :=
  (bank_setBank_other _ _ _ _ hd').trans (bank_setBank_other _ _ _ _ hd)

theorem onlyBanks_setPairFault (s : State) (i : Nat) (v : Bool) : s.OnlyBanks (s.setPairFault i v) :=
  ((onlyBanks_refl s).setBank _ _).setBank _ _

section
variable {s : State} {b : Fin 24}

theorem exec_pairFault_due (hrole : (s.bank b.val).role = 1) (hnone : (s.bank b.val).pairFault = false)
    (hpen : s.flag (ra .bank b.val 0x04C) 20 = true) (hfails : 0 < (s.bank b.val).pairFails)
    (hthr : s.fld (ra .bank b.val 0x04C) 16 4 ≤ (s.bank b.val).pairFails) :
    exec (.pairFault b) s = .next ((s.setPairFault b.val true).stick .bank b.val 11) :=
  congrArg Host.Outcome.next (if_pos ⟨hrole, by rw [hnone]; rfl, hpen, hthr, hfails⟩)

theorem exec_pairFault_inert (h : (s.bank b.val).pairFault = true ∨ s.flag (ra .bank b.val 0x04C) 20 = false ∨
    (s.bank b.val).pairFails = 0) : exec (.pairFault b) s = .next s := by
  refine congrArg Host.Outcome.next (if_neg ?_)
  rintro ⟨-, hnone, hpen, -, hfails⟩
  rcases h with hfault | hoff | hzero
  · simp [hfault] at hnone
  · exact Bool.false_ne_true (hoff.symm.trans hpen)
  · exact Nat.ne_of_gt hfails hzero

theorem exec_pairFaultEnd_due (hrole : (s.bank b.val).role = 1) (hfault : (s.bank b.val).pairFault = true)
    (hpasses : 16 ≤ (s.bank b.val).pairPasses) :
    exec (.pairFaultEnd b) s = .next (s.setPairFault b.val false) :=
  congrArg Host.Outcome.next (if_pos ⟨hrole, hfault, hpasses⟩)

theorem exec_pairFaultEnd_inert (h : (s.bank b.val).pairFault = false ∨ (s.bank b.val).pairPasses < 16) :
    exec (.pairFaultEnd b) s = .next s := by
  refine congrArg Host.Outcome.next (if_neg ?_)
  rintro ⟨-, hfault, hpasses⟩
  rcases h with hnone | hfew
  · exact Bool.false_ne_true (hnone.symm.trans hfault)
  · exact Nat.not_lt.mpr hpasses hfew

end

/-! ### The field that a register write leaves -/

theorem testBit_bits (w : Word) (lsb width i : Nat) :
    (bits w lsb width).testBit i = (decide (i < width) && w.getLsbD (lsb + i)) := by
  rw [bits, Nat.testBit_mod_two_pow, Nat.testBit_div_two_pow, BitVec.testBit_toNat, Nat.add_comm]

/-- A field of a word reads what was stored in it, as far as its bits reach. -/
theorem bits_setBits_same (w : Word) {lsb width : Nat} (v : Nat) (h : lsb + width ≤ 32) :
    bits (setBits w lsb width v) lsb width = v % 2 ^ width := by
  refine Nat.eq_of_testBit_eq fun i => ?_
  rw [testBit_bits, Nat.testBit_mod_two_pow]
  by_cases hi : i < width
  · have hlt : lsb + i < 32 := by omega
    simp only [setBits, fieldMask, BitVec.getLsbD_or, BitVec.getLsbD_and, BitVec.getLsbD_not, BitVec.getLsbD_ofNat,
      Nat.testBit_mul_two_pow]
    simp [hi, hlt]
  · simp [hi]

theorem fld_setFld_same (s : State) (a : Nat) {lsb width : Nat} (v : Nat) (h : lsb + width ≤ 32) :
    (s.setFld a lsb width v).fld a lsb width = v % 2 ^ width := by
  rw [State.fld, reg_setFld_same, bits_setBits_same _ v h]

theorem fld_setFld_other (s : State) {a b : Nat} (lsb width v l n : Nat) (h : b ≠ a) :
    (s.setFld a lsb width v).fld b l n = s.fld b l n := by
  rw [State.fld, State.setFld, reg_setReg, if_neg h, State.fld]

/-! ### The two banks of a checked channel (R112) -/

/-- The same register of two banks' pages. -/
theorem ra_bank_ne {b c : Nat} (h : b ≠ c) (off : Nat) : ra .bank b off ≠ ra .bank c off := by
  simp only [ra, pageNum]
  omega

theorem checkers_eq_two {s : State} {ch b c : Nat} (h : s.checkers ch = [b, c]) : b ≠ c := by
  unfold State.checkers at h
  split at h
  case h_1 p q rest hscans =>
    have hpair : [p, q] = [b, c] := by
      split at h
      case isTrue => exact h
      case isFalse => cases h
    cases hpair
    have hnodup : (s.scansOf ch).Nodup := List.nodup_range.filter _
    rw [hscans] at hnodup
    exact fun heq => (List.nodup_cons.mp hnodup).1 (heq ▸ List.mem_cons_self)
  case h_2 => cases h

/-! ### Nothing but checks and registers changes -/

/-- `t` differs from `s` in registers and in what is kept of checked channels. -/
def State.OnlyChecks (s t : State) : Prop := t = { s with regs := t.regs, checks := t.checks }

section
variable {s t : State}

theorem onlyChecks_refl (s : State) : s.OnlyChecks s := rfl

theorem State.OnlyChecks.setCheck (h : s.OnlyChecks t) (c : Nat) (x : Check) : s.OnlyChecks (t.setCheck c x) := by
  have hstep := congrArg (fun v : State => { v with checks := (t.setCheck c x).checks }) h
  exact hstep

theorem State.OnlyChecks.setReg (h : s.OnlyChecks t) (a : Nat) (v : Word) : s.OnlyChecks (t.setReg a v) := by
  have hstep := congrArg (fun w : State => { w with regs := (t.setReg a v).regs }) h
  exact hstep

end

/-! ### Check faults (R114) -/

/-- The number of channels in check fault that a bank's page shows. -/
def State.faultCount (s : State) (b : Nat) : Nat := s.fld (ra .bank b 0x078) 16 9

/-- Both banks of a check count a channel in, or out. -/
def State.countBoth (s : State) (b c : Nat) (up : Bool) : State := (s.countFaulted b up).countFaulted c up

section
variable (s : State) {b c : Nat} (up : Bool)

theorem faultCount_countFaulted (b : Nat) : (s.countFaulted b up).faultCount b =
    (if up then s.faultCount b + 1 else s.faultCount b - 1) % 512 :=
  fld_setFld_same s _ _ (by decide)

theorem faultCount_countFaulted_other (h : b ≠ c) : (s.countFaulted c up).faultCount b = s.faultCount b :=
  fld_setFld_other s _ _ _ _ _ (ra_bank_ne h _)

theorem State.OnlyChecks.countBoth {s t : State} (h : s.OnlyChecks t) (b c : Nat) (up : Bool) :
    s.OnlyChecks (t.countBoth b c up) :=
  (h.setReg _ _).setReg _ _

theorem onlyRegs_countBoth (b c : Nat) :
    s.OnlyRegs (s.countBoth b c up) [ra .bank b 0x078, ra .bank c 0x078] :=
  onlyRegs_setReg (onlyRegs_setReg (onlyRegs_refl s _) (by simp) _) (by simp) _

theorem faultCount_countBoth (h : b ≠ c) :
    (s.countBoth b c up).faultCount b = (if up then s.faultCount b + 1 else s.faultCount b - 1) % 512 ∧
      (s.countBoth b c up).faultCount c = (if up then s.faultCount c + 1 else s.faultCount c - 1) % 512 := by
  refine ⟨?_, ?_⟩
  · rw [State.countBoth, faultCount_countFaulted_other _ _ h, faultCount_countFaulted]
  · rw [State.countBoth, faultCount_countFaulted, faultCount_countFaulted_other _ _ h.symm]

end

theorem faultCount_congr {s t : State} (h : t.regs = s.regs) (b : Nat) : t.faultCount b = s.faultCount b := by
  rw [State.faultCount, State.fld, reg_congr h]
  rfl

/-- A nine-bit count that goes down by one stays in its field. -/
theorem faultCount_pred_mod (s : State) (b : Nat) : (s.faultCount b - 1) % 512 = s.faultCount b - 1 :=
  Nat.mod_eq_of_lt (Nat.lt_of_le_of_lt (Nat.sub_le ..) (Nat.mod_lt _ (by decide)))

section
variable {s : State} {ch : Fin 512} {b c : Nat} (hpair : s.checkers ch.val = [b, c])
include hpair

theorem exec_checkFault_eq : exec (.checkFault ch) s =
    .next (if (!(s.check ch.val).fault) = true ∧ s.fld (ra .bank (min b c) 0x040) 24 4 ≤ (s.check ch.val).bad then
      (s.setCheck ch.val { s.check ch.val with fault := true, good := 0 }).countBoth b c true else s) := by
  refine congrArg Host.Outcome.next ?_
  rw [hpair]
  rfl

theorem exec_checkFault_due (hnone : (s.check ch.val).fault = false)
    (hthr : s.fld (ra .bank (min b c) 0x040) 24 4 ≤ (s.check ch.val).bad) :
    exec (.checkFault ch) s =
      .next ((s.setCheck ch.val { s.check ch.val with fault := true, good := 0 }).countBoth b c true) :=
  (exec_checkFault_eq hpair).trans (congrArg Host.Outcome.next (if_pos ⟨by rw [hnone]; rfl, hthr⟩))

theorem exec_checkFault_inert (h : (s.check ch.val).fault = true ∨
    (s.check ch.val).bad < s.fld (ra .bank (min b c) 0x040) 24 4) : exec (.checkFault ch) s = .next s := by
  refine (exec_checkFault_eq hpair).trans (congrArg Host.Outcome.next (if_neg ?_))
  rintro ⟨hnone, hthr⟩
  rcases h with hfault | hfew
  · simp [hfault] at hnone
  · exact Nat.not_lt.mpr hthr hfew

theorem exec_checkFaultEnd_due (hfault : (s.check ch.val).fault = true) (hgood : 16 ≤ (s.check ch.val).good) :
    exec (.checkFaultEnd ch) s =
      .next ((s.countBoth b c false).setCheck ch.val { s.check ch.val with fault := false }) := by
  refine congrArg Host.Outcome.next ((if_pos ⟨hfault, hgood⟩).trans ?_)
  rw [hpair]
  rfl

end

theorem exec_checkFaultEnd_inert {s : State} {ch : Fin 512}
    (h : (s.check ch.val).fault = false ∨ (s.check ch.val).good < 16) : exec (.checkFaultEnd ch) s = .next s := by
  refine congrArg Host.Outcome.next (if_neg ?_)
  rintro ⟨hfault, hgood⟩
  rcases h with hnone | hfew
  · exact Bool.false_ne_true (hnone.symm.trans hfault)
  · exact Nat.not_lt.mpr hgood hfew

/-- Settles O56: a pair fault names a leader and the bank after it, a check fault two different banks, each of which
counts the channel on its own page. -/
theorem pairsAndChecksFaultAndRecover : Obligations.PairsAndChecksFaultAndRecover := by
  unfold Obligations.PairsAndChecksFaultAndRecover
  refine ⟨fun s b hrole => ?_, fun s ch b c hpair => ?_⟩
  · intro i x both
    refine ⟨fun hnone hpen hfails hthr => ⟨_, exec_pairFault_due hrole hnone hpen hfails hthr, ?_, ?_, fun r hr => ?_⟩,
      exec_pairFault_inert, fun hfault hpasses => ⟨_, exec_pairFaultEnd_due hrole hfault hpasses, ?_, rfl⟩,
      exec_pairFaultEnd_inert⟩
    · exact ⟨(onlyBanks_setPairFault s i true).setReg _ _, bank_setPairFault s i true,
        bank_setPairFault_follower s i true, fun d => bank_setPairFault_other s i true⟩
    · exact flag_stick_same _ .bank i 11 (by decide)
    · exact reg_orReg_other _ _ _ hr
    · exact ⟨onlyBanks_setPairFault s i false, bank_setPairFault s i false, bank_setPairFault_follower s i false,
        fun d => bank_setPairFault_other s i false⟩
  · intro k n only
    have hne := checkers_eq_two hpair
    refine ⟨fun hnone hthr => ⟨_, exec_checkFault_due hpair hnone hthr, ?_, check_setCheck_same .., ?_⟩,
      exec_checkFault_inert hpair,
      fun hfault hgood => ⟨_, exec_checkFaultEnd_due hpair hfault hgood, ?_, check_setCheck_same .., ?_⟩,
      exec_checkFaultEnd_inert⟩
    · obtain ⟨-, hreg⟩ := onlyRegs_countBoth (s.setCheck ch.val { k with fault := true, good := 0 }) true b c
      exact ⟨((onlyChecks_refl s).setCheck _ _).countBoth b c true, fun d => check_setCheck_other s _ _ d,
        fun r hb hc => hreg r (by simp [hb, hc])⟩
    · exact faultCount_countBoth (s.setCheck ch.val { k with fault := true, good := 0 }) true hne
    · obtain ⟨-, hreg⟩ := onlyRegs_countBoth s false b c
      exact ⟨((onlyChecks_refl s).countBoth b c false).setCheck _ _,
        fun d => check_setCheck_other (s.countBoth b c false) _ _ d,
        fun r hb hc => (reg_congr (setCheck_regs ..) r).trans (hreg r (by simp [hb, hc]))⟩
    · obtain ⟨hb, hc⟩ := faultCount_countBoth s false hne
      have hsame := faultCount_congr (setCheck_regs (s.countBoth b c false) ch.val { k with fault := false })
      exact ⟨((hsame b).trans hb).trans (faultCount_pred_mod s b), ((hsame c).trans hc).trans (faultCount_pred_mod s c)⟩

end Sys2Proof.Machine
end

section
/-! SUPPORT. Proof of the statement of spot conversions: CNV_SPOT_REQ (R115, R116, R119), starts in gaps (R117), results
(R118). -/

namespace Sys2Proof.Machine
open Sys2Proof

/-! ### The word of a request (R115) -/

theorem bit_ofNat (v : Nat) {n : Nat} (h : n < 32) : bit (BitVec.ofNat 32 v) n = decide (v / 2 ^ n % 2 = 1) := by
  rw [bit, BitVec.getLsbD_ofNat, decide_eq_true h, Bool.true_and, Nat.testBit_eq_decide_div_mod_eq]

theorem bits_ofNat (v lsb width : Nat) : bits (BitVec.ofNat 32 v) lsb width = v % 2 ^ 32 / 2 ^ lsb % 2 ^ width := rfl

/-- A word of CNV_SPOT_REQ with GO: what it asks for. -/
structure SpotWord (w : Word) (ch slice : Nat) (any urgent : Bool) : Prop where
  go : bit w 31 = true
  cancel : bit w 30 = false
  ch : bits w 0 9 = ch
  slice : bits w 9 4 = slice
  any : bit w 13 = any
  urgent : bit w 14 = urgent

theorem ite_eq_toNat_mul (x : Bool) (n : Nat) : (if x then n else 0) = x.toNat * n := by cases x <;> simp

theorem spotWord_ofNat {ch slice : Nat} (any urgent : Bool) (hch : ch < 512) (hslice : slice < 16) :
    SpotWord (BitVec.ofNat 32
      (ch + slice * 512 + (if any then 8192 else 0) + (if urgent then 16384 else 0) + 2 ^ 31)) ch slice any urgent := by
  have hany := any.toNat_le
  have hurgent := urgent.toNat_le
  rw [ite_eq_toNat_mul, ite_eq_toNat_mul]
  generalize hw : ch + slice * 512 + any.toNat * 8192 + urgent.toNat * 16384 + 2 ^ 31 = w
  have hbit : ∀ {x : Bool} {n : Nat}, n < 32 → w / 2 ^ n % 2 = x.toNat → bit (BitVec.ofNat 32 w) n = x :=
    fun hn hx => by rw [bit_ofNat w hn, hx]; simp
  exact
    { go := hbit (by decide) (by simp only [Bool.toNat_true]; omega)
      cancel := hbit (by decide) (by simp only [Bool.toNat_false]; omega)
      ch := by rw [bits_ofNat]; omega
      slice := by rw [bits_ofNat]; omega
      any := hbit (by decide) (by omega)
      urgent := hbit (by decide) (by omega) }

/-! ### The start of a visit (R116, R159) -/

/-- A spot whose visit begins on slice `k` at an instant and takes `len` CKS cycles. -/
def Spot.begun (x : Spot) (k at_ len : Nat) : Spot :=
  { x with pending := true, started := true, slice := k, startAt := at_, stop := at_ + len * cks }

theorem Spot.begun_of_pending {x : Spot} (h : x.pending = true) (k at_ len : Nat) :
    x.begun k at_ len = { x with started := true, slice := k, startAt := at_, stop := at_ + len * cks } := by
  rw [Spot.begun, ← h]

/-- The next CKS cycle. -/
def State.nextCks (s : State) : Nat := ceilDiv s.tim.time cks * cks

section
variable (s : State) (b k : Nat)

/-- The end of a gap visit is the calibration's alone. -/
theorem abortGap_frame : s.abortGap b k = { s with cal := (s.abortGap b k).cal } := by
  unfold State.abortGap
  split <;> rfl

theorem abortGap_of_no_gap (h : s.gapRuns b k = false) : s.abortGap b k = s := if_neg (by simp [h])

theorem beginSpot_eq :
    s.beginSpot b k = (s.abortGap b k).setSpot b ((s.bank b).spot.begun k s.nextCks (s.visitLen b)) := by
  have hbegin : s.beginSpot b k = (s.abortGap b k).setSpot b
      (((s.abortGap b k).bank b).spot.begun k (s.abortGap b k).nextCks ((s.abortGap b k).visitLen b)) := rfl
  rw [hbegin, abortGap_frame]
  rfl

end

/-! ### A write of CNV_SPOT_REQ (R115 to R117, R119) -/

/-- A request as it waits. -/
def waitingSpot (ch slice : Nat) (any : Bool) : Spot :=
  { ch := ch, slice := slice, any := any, pending := true, started := false, waited := 0 }

/-- A request is accepted. -/
def State.acceptSpot (s : State) (b : Nat) (q : Spot) : State := (s.setSpot b q).spotStatus b 1

/-- An urgent request finds no idle slice. -/
def State.dropSpot (s : State) (b : Nat) (q : Spot) : State :=
  (((s.setSpot b { q with pending := false }).spotStatus b 3).countSat (ra .bank b 0x070) 1).stick .bank b 14

/-- The slice on which an urgent request begins at once. -/
def State.urgentSlice (s : State) (b slice : Nat) (any : Bool) : Option Nat :=
  if any then s.anyIdle b else if s.sliceIdle b slice then some slice else none

theorem urgentSlice_some {s : State} {b slice k : Nat} {any : Bool}
    (h : if any then s.anyIdle b = some k else k = slice ∧ s.sliceIdle b k = true) :
    s.urgentSlice b slice any = some k := by
  cases any with
  | true => exact h
  | false =>
    obtain ⟨rfl, hidle⟩ : k = slice ∧ s.sliceIdle b k = true := h
    exact if_pos hidle

theorem urgentSlice_none {s : State} {b slice : Nat} {any : Bool}
    (h : if any then s.anyIdle b = none else s.sliceIdle b slice = false) : s.urgentSlice b slice any = none := by
  cases any with
  | true => exact h
  | false => exact if_neg (Bool.eq_false_iff.mp h)

/-- An urgent request begins on the slice found, or is dropped. -/
def State.serveUrgent (s : State) (b : Nat) (q : Spot) : Option Nat → State
  | some k => s.beginSpot b k
  | none => s.dropSpot b q

section
variable {s : State} {b ch slice : Nat} {any urgent : Bool} {w : Word} (hw : SpotWord w ch slice any urgent)
include hw

theorem actSpot_busy (hbusy : (s.bank b).spot.pending = true) : s.actSpot b w = s.stick .bank b 15 := by
  simp [State.actSpot, hw.go, hw.cancel, hbusy]

variable (hfree : (s.bank b).spot.pending = false)
include hfree

theorem actSpot_refused (href : s.spotRefused b ch = true) : s.actSpot b w = s.spotStatus b 4 := by
  simp [State.actSpot, hw.go, hw.cancel, hfree, hw.ch, href]

theorem actSpot_accepted (hserve : s.spotRefused b ch = false) :
    s.actSpot b w =
      if urgent then (s.acceptSpot b (waitingSpot ch slice any)).serveUrgent b (waitingSpot ch slice any)
        ((s.acceptSpot b (waitingSpot ch slice any)).urgentSlice b slice any)
      else s.acceptSpot b (waitingSpot ch slice any) := by
  obtain ⟨hgo, hcancel, rfl, rfl, rfl, rfl⟩ := hw
  have hnotBoth : ¬(bit w 31 && bit w 30) = true := by simp [hcancel]
  have hnoCancel : ¬bit w 30 = true := by simp [hcancel]
  have hgoes : ¬(!bit w 31) = true := by simp [hgo]
  have hidle : ¬(s.bank b).spot.pending = true := by simp [hfree]
  have hserved : ¬s.spotRefused b (bits w 0 9) = true := by simp [hserve]
  exact (if_neg hnotBoth).trans ((if_neg hnoCancel).trans ((if_neg hgoes).trans
    ((if_neg hidle).trans (if_neg hserved))))

end

/-- The page of a bank is not the page of its scan sequencer. -/
theorem visitLen_acceptSpot (s : State) (b : Nat) (q : Spot) : (s.acceptSpot b q).visitLen b = s.visitLen b := by
  have hother : ra .scan b 0x080 ≠ ra .bank b 0x064 := by
    simp only [ra, pageNum]
    omega
  have hreg : (s.acceptSpot b q).reg (ra .scan b 0x080) = s.reg (ra .scan b 0x080) :=
    (reg_setReg ..).trans (if_neg hother)
  simp only [State.visitLen, hreg]

/-- An accepted request that begins at once. -/
theorem beginSpot_acceptSpot (s : State) (b k : Nat) {q : Spot} (hq : q.pending = true) :
    (s.acceptSpot b q).beginSpot b k = ((s.acceptSpot b q).abortGap b k).setSpot b { q with
      started := true, slice := k, startAt := ceilDiv s.tim.time cks * cks
      stop := ceilDiv s.tim.time cks * cks + s.visitLen b * cks } := by
  have hspot : ((s.acceptSpot b q).bank b).spot = q := congrArg Bank.spot (bank_setBank_same ..)
  rw [beginSpot_eq, hspot, visitLen_acceptSpot, Spot.begun_of_pending hq]
  rfl

/-- A CANCEL takes back a request that has not begun. -/
theorem actSpot_cancel (s : State) (b : Nat) {w : Word} (hgo : bit w 31 = false) (hcancel : bit w 30 = true) :
    s.actSpot b w =
      if (s.bank b).spot.pending = true ∧ (s.bank b).spot.started = false then
        (s.setSpot b { (s.bank b).spot with pending := false }).spotStatus b 6 else s := by
  simp [State.actSpot, hgo, hcancel]

theorem exec_spotRequest_passes {s u : State} {a : Acc} {b : Fin 24} {ch : BitVec 9} {slice : BitVec 4}
    {any urgent : Bool} (hpass : s.Passes a (ra .bank b.val 0x060) (BitVec.ofNat 32
      (ch.toNat + slice.toNat * 512 + (if any then 8192 else 0) + (if urgent then 16384 else 0) + 2 ^ 31)) false u) :
    ∃ w, SpotWord w ch.toNat slice.toNat any urgent ∧
      exec (.spotRequest a b ch slice any urgent) s = .next (u.actSpot b.val w) :=
  ⟨_, spotWord_ofNat any urgent ch.isLt slice.isLt, congrArg Host.Outcome.next (guarded_passes hpass _)⟩

theorem exec_spotCancel_passes {s u : State} {a : Acc} {b : Fin 24}
    (hpass : s.Passes a (ra .bank b.val 0x060) (BitVec.ofNat 32 (2 ^ 30)) false u) :
    exec (.spotCancel a b) s =
      .next (if (u.bank b.val).spot.pending = true ∧ (u.bank b.val).spot.started = false then
        (u.setSpot b.val { (u.bank b.val).spot with pending := false }).spotStatus b.val 6 else u) :=
  congrArg Host.Outcome.next
    ((guarded_passes hpass _).trans (actSpot_cancel u b.val (by decide) (by decide)))

/-! ### Starts in gaps (R117) -/

section
variable {s : State} {b : Fin 24} (hpend : (s.bank b.val).spot.pending = true)
include hpend

theorem exec_spotStart_begins {slice : Fin 16} (hnew : (s.bank b.val).spot.started = false)
    (hright : if (s.bank b.val).spot.any then s.firstGap b.val = some slice.val else
      (s.bank b.val).spot.slice = slice.val ∧ s.sliceIdle b.val slice.val = true)
    (hgap : s.gapRuns b.val slice.val = false) :
    exec (.spotStart b slice) s = .next (s.setSpot b.val { (s.bank b.val).spot with
      started := true, slice := slice.val, startAt := s.nextCks, stop := s.nextCks + s.visitLen b.val * cks }) := by
  refine congrArg Host.Outcome.next ((if_pos ⟨hpend, by rw [hnew]; rfl, hright, by rw [hgap]; rfl⟩).trans ?_)
  rw [beginSpot_eq, abortGap_of_no_gap _ _ _ hgap, Spot.begun_of_pending hpend]

theorem exec_spotNoGap_due (hnew : (s.bank b.val).spot.started = false) (hwait : 16 ≤ (s.bank b.val).spot.waited) :
    exec (.spotNoGap b) s =
      .next ((s.setSpot b.val { (s.bank b.val).spot with pending := false }).spotStatus b.val 5) :=
  congrArg Host.Outcome.next (if_pos ⟨hpend, by rw [hnew]; rfl, hwait⟩)

end

/-! ### Results (R115, R118) -/

/-- The marker of a spot's result. -/
def State.spotMarker (s : State) (b : Nat) (x : Spot) : Nat :=
  if s.sliceBad b x.slice then 3 else if isForced x.ch = true ∧ s.chanOn x.ch = true then 0 else s.heldMarker x.ch false

/-- The sum of a spot's result: 0 of a channel that presents code 0 and of one without a held value. -/
def State.spotSum (s : State) (c : Nat) (codes : List (BitVec 14)) : Int :=
  if (isForced c = true ∧ s.chanOn c = true) ∨ s.holds c = false ∨ (s.port c).held = none then 0
  else (visitCodes codes).sum

/-- CNV_SPOT_RES of a visit that is over: sum, marker, slice, and status 2. -/
def State.spotResult (s : State) (b : Nat) (x : Spot) (codes : List (BitVec 14)) : Nat :=
  encInt 20 (s.spotSum x.ch codes) + s.spotMarker b x * 2 ^ 20 + x.slice * 2 ^ 22 + 2 * 2 ^ 26

/-- A result is shown with the instant of the start `t`, and the latched pair is renewed. -/
def State.showSpot (s : State) (b w t : Nat) : State :=
  (((s.setReg (ra .bank b 0x064) (BitVec.ofNat 32 w)).setReg (ra .bank b 0x068) (BitVec.ofNat 32 (stampFrac t))).setReg
    (ra .bank b 0x06C) (BitVec.ofNat 32 (stampSec t % 2 ^ 31))).renew (ra .bank b 0x068)

section
variable (s : State) (b w t : Nat)

theorem reg_showSpot (r : Nat) : (s.showSpot b w t).reg r =
    if r = ra .bank b 0x06C then BitVec.ofNat 32 (stampSec t % 2 ^ 31)
    else if r = ra .bank b 0x068 then BitVec.ofNat 32 (stampFrac t)
    else if r = ra .bank b 0x064 then BitVec.ofNat 32 w else s.reg r := by
  refine (reg_setReg ..).trans ?_
  rw [reg_setReg, reg_setReg]

theorem reg_showSpot_result : (s.showSpot b w t).reg (ra .bank b 0x064) = BitVec.ofNat 32 w := by
  rw [reg_showSpot, if_neg (ra_ne_of_offset_ne .bank b (by decide)), if_neg (ra_ne_of_offset_ne .bank b (by decide)),
    if_pos rfl]

theorem reg_showSpot_frac : (s.showSpot b w t).reg (ra .bank b 0x068) = BitVec.ofNat 32 (stampFrac t) := by
  rw [reg_showSpot, if_neg (ra_ne_of_offset_ne .bank b (by decide)), if_pos rfl]

theorem reg_showSpot_sec :
    (s.showSpot b w t).reg (ra .bank b 0x06C) = BitVec.ofNat 32 (stampSec t % 2 ^ 31) := by
  rw [reg_showSpot, if_pos rfl]

theorem reg_showSpot_other {r : Nat} (hres : r ≠ ra .bank b 0x064) (hfrac : r ≠ ra .bank b 0x068)
    (hsec : r ≠ ra .bank b 0x06C) : (s.showSpot b w t).reg r = s.reg r := by
  rw [reg_showSpot, if_neg hsec, if_neg hfrac, if_neg hres]

end

theorem onlyPorts_endHold (s : State) (c : Nat) : s.OnlyPorts (s.endHold c) := onlyPorts_ite rfl rfl

/-- The element of a channel counts a visit, and is free after the last bank's. -/
theorem port_endHold (s : State) (c d : Nat) : (s.endHold c).port d =
    if d ≠ c then s.port d else if (s.port d).visits + 1 < (s.scansOf d).length then
      { s.port d with visits := (s.port d).visits + 1 } else { s.port d with held := none, visits := 0 } := by
  unfold State.endHold
  by_cases hd : d = c
  · subst hd
    rw [if_neg (not_not_intro rfl)]
    dsimp only
    split
    case isTrue => exact port_setPort_same ..
    case isFalse => exact port_setPort_same ..
  · rw [if_pos hd]
    dsimp only
    split
    case isTrue => exact port_setPort_other _ _ _ _ hd
    case isFalse => exact port_setPort_other _ _ _ _ hd

theorem bank_congr {s t : State} (h : t.banks = s.banks) (d : Nat) : t.bank d = s.bank d := by
  rw [State.bank, h]
  rfl

theorem bank_showSpot (s : State) (b w t d : Nat) : (s.showSpot b w t).bank d = s.bank d := rfl

theorem port_showSpot (s : State) (b w t d : Nat) : (s.showSpot b w t).port d = s.port d := rfl

/-- What a result that is shown has changed since its visit was over. -/
theorem showSpot_frame (s : State) (b c w t : Nat) (q : Spot) :
    let u := ((s.setSpot b q).endHold c).showSpot b w t
    u = { s with
      regs := u.regs, banks := u.banks, ports := u.ports, acc := { s.acc with latches := u.acc.latches } } := by
  unfold State.endHold
  dsimp only
  split
  case isTrue => rfl
  case isFalse => rfl

section
variable {s : State} {b : Fin 24} (codes : List (BitVec 14))

theorem exec_spotDone_running (h : s.tim.time < (s.bank b.val).spot.stop) : exec (.spotDone b codes) s = .next s :=
  congrArg Host.Outcome.next (if_neg fun ⟨_, _, hover⟩ => Nat.not_lt.mpr hover h)

theorem exec_spotDone_over (hpend : (s.bank b.val).spot.pending = true) (hstart : (s.bank b.val).spot.started = true)
    (hover : (s.bank b.val).spot.stop ≤ s.tim.time) :
    exec (.spotDone b codes) s = .next
      (((s.setSpot b.val { (s.bank b.val).spot with pending := false, started := false }).endHold
        (s.bank b.val).spot.ch).showSpot b.val (s.spotResult b.val (s.bank b.val).spot codes)
        ((s.bank b.val).spot.startAt / 2 ^ 32)) := by
  refine congrArg Host.Outcome.next ((if_pos ⟨hpend, hstart, hover⟩).trans ?_)
  simp only [State.showSpot, State.spotResult, State.spotSum, State.spotMarker, Bool.and_eq_true, Bool.or_eq_true,
    Bool.not_eq_true', Option.isNone_iff_eq_none]

end

/-- Settles O57: a request by what the bank can do with it, a start by the gap that it takes, and the end of a visit as
one result that is shown. -/
theorem spotsWaitForGapsAndAnswer : Obligations.SpotsWaitForGapsAndAnswer := by
  unfold Obligations.SpotsWaitForGapsAndAnswer
  refine ⟨fun s u a b ch slice any urgent => ?_, fun s u a b => ?_, fun s b => ?_⟩
  · intro i x word q v c hpass
    obtain ⟨w, hw, hacts⟩ := exec_spotRequest_passes hpass
    rw [hacts]
    refine ⟨fun hbusy => ?_, fun hfree href => ?_, fun hfree hserve => ?_⟩
    · rw [actSpot_busy hw hbusy]
    · rw [actSpot_refused hw hfree href]
    · rw [actSpot_accepted hw hfree hserve]
      refine ⟨?_, ?_, ?_⟩
      · rintro rfl
        rfl
      · rintro rfl k hk
        have hslice : (u.acceptSpot i (waitingSpot ch.toNat slice.toNat any)).urgentSlice i slice.toNat any = some k :=
          urgentSlice_some hk
        rw [if_pos rfl, hslice]
        exact congrArg Host.Outcome.next (beginSpot_acceptSpot u i k rfl)
      · rintro rfl hnone
        have hslice : (u.acceptSpot i (waitingSpot ch.toNat slice.toNat any)).urgentSlice i slice.toNat any = none :=
          urgentSlice_none hnone
        rw [if_pos rfl, hslice]
        rfl
  · intro x hpass
    rw [exec_spotCancel_passes hpass]
    refine ⟨fun hpend hnew => congrArg Host.Outcome.next (if_pos ⟨hpend, hnew⟩),
      fun h => congrArg Host.Outcome.next (if_neg ?_)⟩
    rintro ⟨hpend, hnew⟩
    exact h.elim (fun hfree => Bool.false_ne_true (hfree.symm.trans hpend))
      fun hstart => Bool.false_ne_true (hnew.symm.trans hstart)
  · intro x at_ hpend
    refine ⟨fun slice hnew hone hslice hidle hgap => ?_, fun slice hnew hany hfirst hgap => ?_,
      exec_spotNoGap_due hpend, fun _ hrun codes => exec_spotDone_running codes hrun,
      fun hstart hover codes => ⟨_, exec_spotDone_over codes hpend hstart hover, ?_⟩⟩
    · have hright : if x.any then s.firstGap b.val = some slice.val else
          x.slice = slice.val ∧ s.sliceIdle b.val slice.val = true := by
        rw [hone]
        exact ⟨hslice, hidle⟩
      rw [exec_spotStart_begins hpend hnew hright hgap, ← hslice]
      rfl
    · refine exec_spotStart_begins hpend hnew ?_ hgap
      rw [if_pos hany]
      exact hfirst
    · have hports := onlyPorts_endHold (s.setSpot b.val { x with pending := false, started := false }) x.ch
      have hbanks := congrArg State.banks hports
      refine ⟨?_, fun d hd => ?_, fun d => (port_showSpot ..).trans (port_endHold ..), ?_,
        reg_showSpot_result .., reg_showSpot_frac .., reg_showSpot_sec .., fun r hres hfrac hsec => ?_⟩
      · exact (bank_showSpot ..).trans ((bank_congr hbanks b.val).trans (bank_setBank_same ..))
      · exact (bank_showSpot ..).trans ((bank_congr hbanks d).trans (bank_setBank_other _ _ _ _ hd))
      · exact showSpot_frame s b.val x.ch _ _ _
      · exact (reg_showSpot_other _ _ _ _ hres hfrac hsec).trans (reg_congr hports.regs r)

end Sys2Proof.Machine
end

section
/-! SUPPORT. Proof of the statement of the allocator's evaluations: the wishes of step 1 (R143), the sizes asked for
(R143, R145), the placement (R144). -/

namespace Sys2Proof.Machine
open Sys2Proof

theorem upTo_succ (s : State) (n : Nat) (f : State → Nat → State) : s.upTo (n + 1) f = f (s.upTo n f) n := by
  rw [State.upTo, List.range_succ, List.foldl_append]
  rfl

/-! ### Places alone -/

/-- `t` differs from `s` in places alone. -/
def State.OnlyPlaces (s t : State) : Prop := t = { s with places := t.places }

section
variable {s t : State}

theorem onlyPlaces_refl (s : State) : s.OnlyPlaces s := rfl

theorem State.OnlyPlaces.setPlace (h : s.OnlyPlaces t) (p : Nat) (x : Place) : s.OnlyPlaces (t.setPlace p x) := by
  rw [State.OnlyPlaces, State.setPlace, h]

theorem State.OnlyPlaces.portEntry (h : s.OnlyPlaces t) (p : Nat) : t.portEntry p = s.portEntry p := by rw [h]; rfl

theorem State.OnlyPlaces.flag (h : s.OnlyPlaces t) (a n : Nat) : t.flag a n = s.flag a n := by rw [h]; rfl

theorem State.OnlyPlaces.frozenBanks (h : s.OnlyPlaces t) : t.frozenBanks = s.frozenBanks := by rw [h]; rfl

theorem State.OnlyPlaces.enforced (h : s.OnlyPlaces t) : t.thm.enforced = s.thm.enforced := by rw [h]

/-- What a port requests follows its own place and its entry. -/
theorem State.OnlyPlaces.request (h : s.OnlyPlaces t) {p : Nat} (hp : t.place p = s.place p) :
    t.request p = s.request p := by
  have hentry := h.portEntry p
  have hword : t.reg (TableId.slice.addr p 3) = s.reg (TableId.slice.addr p 3) := by rw [h]; rfl
  simp only [State.request, State.holdSize, hp, hentry, hword]

end

/-! ### Step 1: the wishes (R143) -/

section
variable {s : State} {p : Nat}

/-- A pinned port keeps its size (R143). -/
theorem request_pinned (h : (s.portEntry p).pin = true) : s.request p = (s.holdSize p, 0) := if_pos h

/-- The request of a port that moves, doubled at ACT ≥ HIGH and halved after 4 evaluations with ACT ≤ LOW (R143). -/
theorem request_unpinned (h : ¬(s.portEntry p).pin = true) :
    s.request p =
      let w := s.reg (TableId.slice.addr p 3)
      let lows := if (s.place p).act ≤ bits w 8 5 then (s.place p).lows + 1 else 0
      let up := if bits w 0 5 ≤ (s.place p).act then min (s.holdSize p + 1) (s.portEntry p).hi else s.holdSize p
      (if 4 ≤ lows then max (up - 1) (s.portEntry p).lo else up, lows) := if_neg h

end

/-- The place of a port with its wish; one without slices and without a wish gets none. -/
def State.wished (s : State) (p : Nat) : Place :=
  if (s.place p).size = 0 ∧ (s.place p).lows = 0 ∧ (s.place p).want = 0 then s.place p
  else { s.place p with want := (s.request p).1, lows := (s.request p).2 }

/-- Step 1 for one port. -/
def State.wish (s : State) (p : Nat) : State :=
  if (s.place p).size = 0 && (s.place p).lows = 0 && (s.place p).want = 0 then s
  else s.setPlace p { s.place p with want := (s.request p).1, lows := (s.request p).2 }

section
variable {s t : State}

theorem place_wish (s : State) (p q : Nat) : (s.wish p).place q = if q = p then s.wished p else s.place q := by
  unfold State.wish State.wished
  by_cases hq : q = p
  · subst hq
    by_cases hunused : (s.place q).size = 0 ∧ (s.place q).lows = 0 ∧ (s.place q).want = 0
    · rw [if_pos rfl, if_pos hunused, if_pos (by simp [hunused])]
    · rw [if_pos rfl, if_neg hunused, if_neg (by simpa [and_assoc] using hunused), place_setPlace_same]
  · rw [if_neg hq]
    split
    · rfl
    · exact place_setPlace_other _ _ _ _ hq

theorem State.OnlyPlaces.wish (h : s.OnlyPlaces t) (p : Nat) : s.OnlyPlaces (t.wish p) := by
  unfold State.wish
  split
  · exact h
  · exact h.setPlace _ _

theorem State.OnlyPlaces.wished (h : s.OnlyPlaces t) {p : Nat} (hp : t.place p = s.place p) :
    t.wished p = s.wished p := by
  simp only [State.wished, hp, h.request hp]

theorem onlyPlaces_upTo_wish (s : State) (n : Nat) : s.OnlyPlaces (s.upTo n State.wish) := by
  induction n with
  | zero => exact onlyPlaces_refl s
  | succ n ih =>
    rw [upTo_succ]
    exact ih.wish n

/-- Each port's wish follows the place that it has before step 1. -/
theorem place_upTo_wish (s : State) (n p : Nat) :
    (s.upTo n State.wish).place p = if p < n then s.wished p else s.place p := by
  induction n with
  | zero => rfl
  | succ n ih =>
    rw [upTo_succ, place_wish]
    by_cases hp : p = n
    · subst hp
      have hsame : (s.upTo p State.wish).place p = s.place p := ih.trans (if_neg (Nat.lt_irrefl p))
      rw [if_pos rfl, if_pos (Nat.lt_succ_self p), (onlyPlaces_upTo_wish s p).wished hsame]
    · have hlt : p < n + 1 ↔ p < n := by omega
      simp only [if_neg hp, ih, hlt]

end

/-- CNV_ALLOC_CFG.FREEZE. -/
def State.freeze (s : State) : Bool := s.flag (ra .alloc 0 0x044) 3

/-- An evaluation after its step 1, which FREEZE skips. -/
def State.stepOne (s : State) : State :=
  if s.freeze then { s with evalDue := false } else State.upTo { s with evalDue := false } 64 State.wish

theorem onlyPlaces_stepOne (s : State) : State.OnlyPlaces { s with evalDue := false } s.stepOne := by
  unfold State.stepOne
  split
  · exact onlyPlaces_refl _
  · exact onlyPlaces_upTo_wish _ 64

theorem place_stepOne (s : State) (p : Nat) :
    s.stepOne.place p = if s.freeze = true ∨ 64 ≤ p then s.place p else s.wished p := by
  unfold State.stepOne
  by_cases hfreeze : s.freeze = true
  · rw [if_pos hfreeze, if_pos (.inl hfreeze)]
    rfl
  · rw [if_neg hfreeze, place_upTo_wish]
    by_cases hp : p < 64
    · rw [if_pos hp, if_neg (not_or.mpr ⟨hfreeze, Nat.not_le.mpr hp⟩)]
      rfl
    · rw [if_neg hp, if_pos (.inr (Nat.not_lt.mp hp))]
      rfl

/-! ### Steps 2 to 4: sizes and places (R143 to R145) -/

/-- The size that a port asks for: under FREEZE and without a wish what it holds, under enforcement no more. -/
def State.askedSize (s : State) (p : Nat) : Nat :=
  if s.freeze || (s.place p).want = 0 || (s.thm.enforced && (s.portEntry p).alarm) then s.holdSize p
  else if s.thm.enforced then min (s.holdSize p) (s.place p).want else (s.place p).want

theorem askedSize_stepOne (s : State) (p : Nat) : s.stepOne.askedSize p =
    if s.freeze = true ∨ (s.stepOne.place p).want = 0 ∨
        s.thm.enforced = true ∧ (s.stepOne.portEntry p).alarm = true then s.stepOne.holdSize p
    else if s.thm.enforced = true then min (s.stepOne.holdSize p) (s.stepOne.place p).want
    else (s.stepOne.place p).want := by
  have hframe := onlyPlaces_stepOne s
  have hfreeze : s.stepOne.freeze = s.freeze := hframe.flag _ _
  have henforced : s.stepOne.thm.enforced = s.thm.enforced := hframe.enforced
  simp only [State.askedSize, hfreeze, henforced, Bool.or_eq_true, Bool.and_eq_true, decide_eq_true_eq, or_assoc]

/-- A placement found is in force, and none is short. -/
def State.takePlaces (s : State) (xs : List Spot4) : State :=
  (((s.applyPlaces xs).markShort []).throttleFlags).streamsMoved

/-- What packing has found is in force; where it has found nothing the places stay. -/
def State.takeFound (s : State) (r : Option (List Spot4)) : State :=
  match r with
  | some xs => s.takePlaces xs
  | none => s

theorem exec_allocatorEvaluation_idle {s : State} (h : s.evalDue = false) : exec .allocatorEvaluation s = .next s :=
  congrArg Host.Outcome.next (if_pos (by simp [h]))

theorem exec_allocatorEvaluation_due {s : State} (hdue : s.evalDue = true) (hat : s.atMilestone = true)
    (hfree : s.enforceDue = false) :
    exec .allocatorEvaluation s = .next (if s.capBanks.isEmpty then s.stepOne
      else s.stepOne.takeFound (s.stepOne.grant s.capBanks s.frozenBanks s.stepOne.askedSize)) := by
  have hframe := onlyPlaces_stepOne s
  have hfreeze : s.stepOne.freeze = s.freeze := hframe.flag _ _
  have hfrozen : s.stepOne.frozenBanks = s.frozenBanks := hframe.frozenBanks
  refine congrArg Host.Outcome.next ((if_neg (by simp [hdue, hat, hfree])).trans ?_)
  unfold State.askedSize
  rw [hfreeze, ← hfrozen]
  rfl

/-- Settles O31: step 1 port by port, each from the place it had before, then what the packing of the sizes asked for
has found. -/
theorem evaluationsGrantAndPack : Obligations.EvaluationsGrantAndPack := by
  unfold Obligations.EvaluationsGrantAndPack
  refine fun s => ⟨exec_allocatorEvaluation_idle, fun hdue hat hfree => ?_⟩
  rw [exec_allocatorEvaluation_due hdue hat hfree]
  refine ⟨s.stepOne, onlyPlaces_stepOne s, fun p => ?_, fun hnone => ?_, fun hsome => ?_⟩
  · rw [place_stepOne]
    dsimp only
    by_cases hfix : s.freeze = true ∨ 64 ≤ p
    · rw [if_pos hfix]
      exact (if_pos (hfix.imp_right .inl)).symm
    · obtain ⟨hrun, hport⟩ := not_or.mp hfix
      rw [if_neg hfix]
      refine ite_congr (propext (.symm ((or_iff_right hrun).trans (or_iff_right hport)))) (fun _ => rfl) fun _ => ?_
      by_cases hpin : (s.portEntry p).pin = true
      · rw [if_pos hpin, request_pinned hpin]
        rfl
      · rw [if_neg hpin, request_unpinned hpin]
        rfl
  · rw [if_pos (List.isEmpty_iff.mpr hnone)]
  · intro want
    have hwant : s.stepOne.askedSize = want := funext fun p => askedSize_stepOne s p
    rw [if_neg (mt List.isEmpty_iff.mp hsome), hwant]
    refine ⟨fun hfail => ?_, fun xs hfound => ?_⟩
    · rw [hfail]
      rfl
    · rw [hfound]
      rfl

end Sys2Proof.Machine
end

section
/-! SUPPORT. Proof of the statement of sweeps and visits: starts and gates (R131, R134, R135), ends of sweeps (R134,
R135), visits (R61, R64, R128, R129, R138). -/

namespace Sys2Proof.Machine
open Sys2Proof

/-! ### Sweeps (R131 to R135) -/

/-- Time goes to the instant of a sweep that lies ahead in this milestone period. -/
def State.toSweep (s : State) (n : Fin 24) (q : Int) : State :=
  if (s.tim.time : Int) < s.sweepAt n.val q ∧ s.sweepAt n.val q < s.tim.next ∧ s.tim.perCycle ≠ 0 ∧
      s.sweeps n.val = true then
    s.elapse (s.tim.cyclesIn (s.sweepAt n.val q - s.tim.time).toNat) else s

/-- The sweep of index `q`, of the instant `at_`, starts now (R131, R134, R140). -/
def State.StartsSweep (u : State) (i : Nat) (q at_ : Int) : Prop :=
  u.sweeps i = true ∧ u.maskOf i ≠ [] ∧ at_ ≤ u.tim.time ∧ u.tim.time < at_ + (u.sweepPeriod i : Int) ∧
    ((u.scan i).running = false ∨ ((u.scan i).sweepEnd : Int) ≤ at_) ∧ ((u.scan i).from_ : Int) ≤ at_ ∧
    (u.pwr.st = .sleep → q % 256 = 0) ∧ (u.scan i).lastQ ≠ some q

/-- A sweep behind a closed gate counts as skipped. -/
def Scan.waiting (x : Scan) (q : Int) : Scan := { x with gated := true, skips := x.skips + 1, lastQ := some q }

/-- The sweep that starts, with the channels, visit length and gate of its start (R134). -/
def State.newSweep (u : State) (i : Nat) (q at_ : Int) : Scan :=
  { u.scan i with
    running := true, visited := [], sweepStart := at_.toNat, q := q, channels := u.maskOf i, visitLen := u.visitLen i,
    sweepEnd := at_.toNat + ceilDiv (u.maskOf i).length 16 * u.visitLen i * cks, gated := false, force := false,
    waited := 0, lastQ := some q, gate := u.sgate i }

theorem not_startsSweep_iff (u : State) (i : Nat) (q at_ : Int) :
    ((!u.sweeps i) = true ∨ (u.maskOf i).isEmpty = true ∨ (u.tim.time : Int) < at_ ∨
      at_ + u.sweepPeriod i ≤ u.tim.time ∨
      ((u.scan i).running = true ∧ at_ < (u.scan i).sweepEnd) ∨ at_ < (u.scan i).from_ ∨
      (u.pwr.st = .sleep ∧ q % 256 ≠ 0) ∨ (u.scan i).lastQ = some q) ↔ ¬u.StartsSweep i q at_ := by
  simp only [State.StartsSweep, not_and_or, not_or, not_le, not_lt, Classical.not_imp, ne_eq, not_not,
    Bool.not_eq_true', Bool.not_eq_true, Bool.not_eq_false, List.isEmpty_iff]

section
variable {s : State} {n : Fin 24} {q : Int}

theorem exec_sweepStart_left (h : ¬(s.toSweep n q).StartsSweep n.val q (s.sweepAt n.val q)) :
    exec (.sweepStart n q) s = .next (s.toSweep n q) :=
  congrArg Host.Outcome.next (if_pos ((not_startsSweep_iff ..).mpr h))

variable (h : (s.toSweep n q).StartsSweep n.val q (s.sweepAt n.val q))
include h

theorem exec_sweepStart_gated (hgate : (s.toSweep n q).gateOpen n.val (s.sweepAt n.val q).toNat = false) :
    exec (.sweepStart n q) s =
      .next ((s.toSweep n q).setScan n.val (((s.toSweep n q).scan n.val).waiting q)) := by
  refine congrArg Host.Outcome.next ((if_neg fun hleft => (not_startsSweep_iff ..).mp hleft h).trans (if_pos ?_))
  exact congrArg (!·) hgate

theorem exec_sweepStart_runs (hgate : (s.toSweep n q).gateOpen n.val (s.sweepAt n.val q).toNat = true) :
    exec (.sweepStart n q) s =
      .next ((s.toSweep n q).setScan n.val ((s.toSweep n q).newSweep n.val q (s.sweepAt n.val q))) := by
  refine congrArg Host.Outcome.next ((if_neg fun hleft => (not_startsSweep_iff ..).mp hleft h).trans (if_neg ?_))
  exact Bool.eq_false_iff.mp (congrArg (!·) hgate)

end

theorem exec_gateTimeout_due {s : State} {n : Fin 24} (hgated : (s.scan n.val).gated = true)
    (hwait : bits (s.sgate n.val) 20 12 * 256 ≤ (s.scan n.val).waited) :
    exec (.gateTimeout n) s =
      .next ((s.setScan n.val { s.scan n.val with force := true, waited := 0 }).stick .scan n.val 11) :=
  congrArg Host.Outcome.next (if_pos ⟨hgated, hwait⟩)

/-- The flag that a sweep's configuration asks for (R135). -/
def Scan.askedFlags (x : Scan) : List Nat := if bit x.gate 18 then [bits x.gate 12 6] else []

/-- The end of a sweep: its flag is set at the next tick. -/
def State.endSweep (s : State) (i : Nat) : State :=
  { s.setScan i { s.scan i with running := false } with
    seq := { s.seq with sweepFlags := s.seq.sweepFlags ++ (s.scan i).askedFlags } }

theorem exec_sweepEnd_due {s : State} {n : Fin 24} (hrun : (s.scan n.val).running = true)
    (hover : (s.scan n.val).sweepEnd ≤ s.tim.time) : exec (.sweepEnd n) s = .next (s.endSweep n.val) := by
  refine congrArg Host.Outcome.next ((if_pos ⟨hrun, hover⟩).trans ?_)
  unfold State.endSweep Scan.askedFlags
  by_cases hasks : bit (s.scan n.val).gate 18 = true
  · exact (if_pos hasks).trans (by rw [if_pos hasks]; rfl)
  · exact (if_neg hasks).trans (by rw [if_neg hasks, List.append_nil]; rfl)

/-! ### Visits (R128, R129) -/

/-- The sweep of a bank is in progress. -/
def State.InSweep (u : State) (i : Nat) : Prop :=
  u.sweeps i = true ∧ (u.scan i).running = true ∧ (u.scan i).sweepStart ≤ u.tim.time ∧
    u.tim.time < (u.scan i).sweepEnd

/-- The visit of a channel by place `k` has begun and has not been made. -/
def State.VisitDue (u : State) (i c k : Nat) : Prop :=
  (u.scan i).channels.idxOf? c = some k ∧ u.visitStart i k ≤ u.tim.time ∧ k ∉ (u.scan i).visited

/-- Place `k` of the sweep has been visited. -/
def State.seePlace (u : State) (i k : Nat) : State := u.setScan i { u.scan i with visited := k :: (u.scan i).visited }

theorem not_inSweep_iff (u : State) (i : Nat) :
    ((!u.sweeps i) = true ∨ (!(u.scan i).running) = true ∨ u.tim.time < (u.scan i).sweepStart ∨
      (u.scan i).sweepEnd ≤ u.tim.time) ↔ ¬u.InSweep i := by
  simp only [State.InSweep, not_and_or, not_le, not_lt, Bool.not_eq_true', Bool.not_eq_true]

section
variable {s : State} {n : Fin 24} {ch : Fin 512} {dt : Nat} (codes : List (BitVec 14))

theorem exec_visit_outside (h : ¬(s.elapse dt).InSweep n.val) :
    exec (.visit n ch dt codes) s = .next (s.elapse dt) :=
  congrArg Host.Outcome.next (if_pos ((not_inSweep_iff ..).mpr h))

theorem exec_visit_due {k : Nat} (hon : (s.elapse dt).InSweep n.val) (hdue : (s.elapse dt).VisitDue n.val ch.val k) :
    exec (.visit n ch dt codes) s = .next (((s.elapse dt).seePlace n.val k).visitAt n.val ch.val k
      ((s.elapse dt).scan n.val).visitLen codes) := by
  obtain ⟨hplace, hbegun, hnew⟩ := hdue
  refine congrArg Host.Outcome.next ((if_neg fun hout => (not_inSweep_iff ..).mp hout hon).trans ?_)
  rw [hplace]
  exact if_neg (by simp [hbegun, hnew])

theorem exec_visit_inert (h : ∀ k, ¬(s.elapse dt).VisitDue n.val ch.val k) :
    exec (.visit n ch dt codes) s = .next (s.elapse dt) := by
  by_cases hon : (s.elapse dt).InSweep n.val
  · refine congrArg Host.Outcome.next ((if_neg fun hout => (not_inSweep_iff ..).mp hout hon).trans ?_)
    cases hplace : ((s.elapse dt).scan n.val).channels.idxOf? ch.val with
    | none => rfl
    | some k =>
      refine if_pos ?_
      by_contra hact
      obtain ⟨hbegun, hnew⟩ := not_or.mp hact
      exact h k ⟨hplace, Nat.not_lt.mp hbegun, fun hmem => hnew (List.contains_iff_mem.mpr hmem)⟩
  · exact exec_visit_outside codes hon

end

/-! ### A held window on the link (R61, R64, R138) -/

section
variable {s : State} {c : Nat} {h : HeldWin} (hheld : (s.port c).held = some h) (hholds : s.holds c = true)
include hheld hholds

/-- The codes of a visit carry the hold instant of the window that it converts (R138). -/
theorem visitStop_held (t : Nat) : s.visitStop c t = h.stop := by
  rw [State.visitStop, hheld]
  exact if_pos hholds

theorem visitStale_held {t len : Nat} (hfresh : t + cks * len - h.stop ≤ us 100) : s.visitStale c t len = false := by
  rw [State.visitStale, visitStop_held hheld hholds]
  exact decide_eq_false (Nat.not_lt.mpr hfresh)

/-- A held window of a port without a fault keeps its marker when it is converted (R74). -/
theorem heldMarker_held (hcomp : (s.port c).compliance = false) (hopen : (s.port c).isOpen = false)
    (hclamp : (s.port c).clamp = false) : s.heldMarker c false = h.marker := by
  simp [State.heldMarker, hheld, hholds, hcomp, hopen, hclamp]

end

theorem staleFault_fresh (s : State) (c : Nat) : s.staleFault c false = s :=
  if_neg (by simp)

theorem visitCheck_alone {s : State} {b c : Nat} (hone : s.partnerOf b c = none) (stop : Nat) (v : Int) (good : Bool) :
    s.visitCheck b c stop v good = s := by
  rw [State.visitCheck, hone]

/-- A visit puts its codes on the link. -/
def State.toLink (s : State) (f : Flight) : State := { s with spe := { s.spe with flight := s.spe.flight ++ [f] } }

/-- A visit of a channel without a partner, with a held window that is fresh, changes the link and the element alone. -/
theorem visitAt_alone {s : State} {b c k len : Nat} {h : HeldWin} (codes : List (BitVec 14))
    (hone : s.partnerOf b c = none) (hheld : (s.port c).held = some h) (hholds : s.holds c = true)
    (hfresh : s.visitStart b k + cks * len - h.stop ≤ us 100) :
    s.visitAt b c k len codes = (s.toLink (s.visitFlight b c k h.stop false codes)).endHold c := by
  have hlink : (s.toLink (s.visitFlight b c k h.stop false codes)).partnerOf b c = none := hone
  unfold State.visitAt
  dsimp only
  rw [visitStale_held hheld hholds hfresh, staleFault_fresh, visitStop_held hheld hholds]
  exact congrArg (State.endHold · c) (visitCheck_alone hlink _ _ _)

section
variable {s : State} {b c k stop : Nat} {h : HeldWin} (codes : List (BitVec 14))

theorem visitFlight_marker_bad (hbad : s.sliceBad b (k % 16) = true) :
    (s.visitFlight b c k stop false codes).marker = 3 := by
  refine if_pos ?_
  rw [hbad]
  rfl

variable (hheld : (s.port c).held = some h)
include hheld

theorem visitFlight_index : (s.visitFlight b c k stop false codes).index = h.index := by
  simp [State.visitFlight, hheld]

variable (hholds : s.holds c = true)
include hholds

theorem visitFlight_start : (s.visitFlight b c k stop false codes).start = h.start := by
  simp [State.visitFlight, hheld, hholds]

theorem visitFlight_codes (hrun : (s.bank b).sc ≠ 2) (hreal : isForced c = false) :
    (s.visitFlight b c k stop false codes).codes = visitCodes codes := by
  simp [State.visitFlight, hheld, hholds, hrun, hreal]

theorem visitFlight_marker_good (hrun : (s.bank b).sc ≠ 2) (hreal : isForced c = false)
    (hgood : s.sliceBad b (k % 16) = false) (hcomp : (s.port c).compliance = false)
    (hopen : (s.port c).isOpen = false) (hclamp : (s.port c).clamp = false) :
    (s.visitFlight b c k stop false codes).marker = h.marker := by
  refine (if_neg ?_).trans ((if_neg ?_).trans (heldMarker_held hheld hholds hcomp hopen hclamp))
  · simp [hgood, hrun]
  · simp [hreal]

end

theorem visitStart_seePlace (u : State) (i k j : Nat) : (u.seePlace i k).visitStart i j = u.visitStart i j := by
  rw [State.visitStart, State.seePlace, scan_setScan_same]
  rfl

/-- That a place has been visited is the sequencer's alone: ports and registers are as before. -/
theorem visitAt_seePlace_alone {u : State} {b c k len : Nat} {h : HeldWin} (codes : List (BitVec 14))
    (hone : u.partnerOf b c = none) (hheld : (u.port c).held = some h) (hholds : u.holds c = true)
    (hfresh : u.visitStart b k + cks * len - h.stop ≤ us 100) :
    (u.seePlace b k).visitAt b c k len codes =
      ((u.seePlace b k).toLink ((u.seePlace b k).visitFlight b c k h.stop false codes)).endHold c := by
  rw [← visitStart_seePlace] at hfresh
  exact visitAt_alone (s := u.seePlace b k) codes hone hheld hholds hfresh

/-- Settles O58: a sweep by whether it starts and by its gate, a visit by whether it is due; a visit of a channel without
a partner puts one flight on the link. -/
theorem sweepsRunAndVisitTheirChannels : Obligations.SweepsRunAndVisitTheirChannels := by
  unfold Obligations.SweepsRunAndVisitTheirChannels
  refine ⟨fun s n q => ⟨exec_sweepStart_gated, exec_sweepStart_runs, exec_sweepStart_left⟩,
    fun s n => ⟨exec_gateTimeout_due, fun hrun hover => ⟨_, exec_sweepEnd_due hrun hover, rfl, rfl⟩⟩,
    fun s n ch dt codes => ⟨?_, fun k => exec_visit_due codes, ?_⟩⟩
  · rintro (hout | hnone)
    · exact exec_visit_outside codes hout
    · exact exec_visit_inert codes hnone
  · intro k h hon hdue hone hheld hholds hreal hrun hfresh
    refine ⟨((s.elapse dt).seePlace n.val k).visitFlight n.val ch.val k h.stop false codes,
      (exec_visit_due codes hon hdue).trans ?_, rfl, rfl, visitFlight_codes codes hheld hholds hrun hreal, rfl,
      visitFlight_start codes hheld hholds, visitFlight_index codes hheld, fun hbad => ?_,
      fun hgood hcomp hopen hclamp => ?_⟩
    · exact congrArg Host.Outcome.next (visitAt_seePlace_alone codes hone hheld hholds hfresh)
    · exact visitFlight_marker_bad codes hbad
    · exact visitFlight_marker_good codes hheld hholds hrun hreal hgood hcomp hopen hclamp

end Sys2Proof.Machine
end

section
/-! SUPPORT. Proof of the statement of calibration: CAL_CMD (R154 to R158), self-calibration (R156, R157), gap visits and
estimators (R159, R163), the drift monitor (R170). -/

namespace Sys2Proof.Machine
open Sys2Proof

/-! ### Loops that each change one unit -/

/-- A loop whose steps each change one unit, named once, changes each unit that it names by its own step. -/
theorem read_each_of_nodup {α : Type} {read : State → Nat → α} {P : State → Prop} {g : State → Nat → State}
    {step : Nat → α → α} (hkeep : ∀ t k, P t → P (g t k)) (hsame : ∀ t k, P t → read (g t k) k = step k (read t k))
    (hother : ∀ t k j, P t → j ≠ k → read (g t k) j = read t j) {l : List Nat} (hl : l.Nodup) {s : State} (hs : P s)
    (j : Nat) : read (s.each l g) j = if j ∈ l then step j (read s j) else read s j := by
  induction l generalizing s with
  | nil => exact (if_neg List.not_mem_nil).symm
  | cons k l ih =>
    obtain ⟨hk, hl⟩ := List.nodup_cons.mp hl
    refine (ih hl (hkeep s k hs)).trans ?_
    by_cases hj : j = k
    · subst hj
      rw [if_neg hk, if_pos List.mem_cons_self, hsame s j hs]
    · rw [hother s k j hs hj]
      simp only [List.mem_cons, hj, false_or]

/-! ### The trims of slices -/

@[simp] theorem trim_mapTrims (c : SliceCal) (f : TrimK → Trim → Trim) (j : TrimK) :
    (c.mapTrims f).trim j = f j (c.trim j) := by
  cases j <;> rfl

@[simp] theorem sliceCal_setSliceCal_same (s : State) (b k : Nat) (c : SliceCal) :
    (s.setSliceCal b k c).sliceCal b k = c := kget_kset_same ..

theorem sliceCal_setSliceCal_other (s : State) {b k d j : Nat} (c : SliceCal) (h : b * 17 + k ≠ d * 17 + j) :
    (s.setSliceCal b k c).sliceCal d j = s.sliceCal d j := kget_kset_other _ _ _ _ _ _ h.symm

theorem sliceCal_congr {s t : State} (h : t.cal = s.cal) (b k : Nat) : t.sliceCal b k = s.sliceCal b k := by
  rw [State.sliceCal, h]
  rfl

/-- `t` differs from `s` in trims and estimators alone. -/
def State.OnlySlices (s t : State) : Prop := t = { s with cal := { s.cal with slices := t.cal.slices } }

section
variable {s t u : State}

theorem onlySlices_refl (s : State) : s.OnlySlices s := rfl

theorem State.OnlySlices.trans (h : s.OnlySlices t) (h' : t.OnlySlices u) : s.OnlySlices u := by
  rw [State.OnlySlices, h', h]

theorem onlySlices_setSliceCal (s : State) (b k : Nat) (c : SliceCal) : s.OnlySlices (s.setSliceCal b k c) := rfl

theorem State.OnlySlices.setSliceCal (h : s.OnlySlices t) (b k : Nat) (c : SliceCal) :
    s.OnlySlices (t.setSliceCal b k c) := h.trans (onlySlices_setSliceCal ..)

theorem State.OnlySlices.bank (h : s.OnlySlices t) (d : Nat) : t.bank d = s.bank d := by rw [h]; rfl

theorem State.OnlySlices.bankTemp (h : s.OnlySlices t) (d : Nat) : t.bankTemp d = s.bankTemp d := by rw [h]; rfl

end

section
variable {s : State} {b : Nat} {g : State → Nat → State} {step : Nat → SliceCal → SliceCal}
  (hg : ∀ t k, s.OnlySlices t → g t k = t.setSliceCal b k (step k (t.sliceCal b k)))
include hg

theorem onlySlices_each (l : List Nat) : s.OnlySlices (s.each l g) :=
  each_induct (P := s.OnlySlices) (fun t k ht => by rw [hg t k ht]; exact ht.setSliceCal ..) (onlySlices_refl s) l

theorem sliceCal_each {l : List Nat} (hl : l.Nodup) (j : Nat) :
    (s.each l g).sliceCal b j = if j ∈ l then step j (s.sliceCal b j) else s.sliceCal b j := by
  refine read_each_of_nodup (read := fun t j => t.sliceCal b j) (P := s.OnlySlices)
    (fun t k ht => ?_) (fun t k ht => ?_) (fun t k j ht hj => ?_) hl (onlySlices_refl s) j
  · rw [hg t k ht]
    exact ht.setSliceCal ..
  · rw [hg t k ht]
    exact sliceCal_setSliceCal_same ..
  · rw [hg t k ht]
    exact sliceCal_setSliceCal_other _ _ (by omega)

end

section
variable (s : State) (b : Nat) (f : Nat → SliceCal → SliceCal)

theorem onlySlices_mapSlices : s.OnlySlices (s.mapSlices b f) :=
  onlySlices_each (b := b) (step := f) (fun _ _ _ => rfl) (List.range 17)

theorem sliceCal_mapSlices {k : Nat} (hk : k < 17) : (s.mapSlices b f).sliceCal b k = f k (s.sliceCal b k) :=
  (sliceCal_each (b := b) (step := f) (fun _ _ _ => rfl) List.nodup_range k).trans (if_pos (List.mem_range.mpr hk))

end

/-! ### The word of CAL_CMD (R155) -/

section
variable (banks : BitVec 24)

theorem calWord_op {op : Nat} (h : op < 16) : bits (calWord banks op) 24 4 = op := by
  have := banks.isLt
  rw [calWord, bits_ofNat]
  omega

theorem calWord_banks (op : Nat) : bits (calWord banks op) 0 24 = banks.toNat := by
  have := banks.isLt
  rw [calWord, bits_ofNat]
  omega

end

theorem nodup_maskBanks (v : Nat) : (maskBanks v).Nodup := List.nodup_range.filter _

/-! ### What CAL_CMD does (R155, R156, R165) -/

/-- One of the banks calibrates, or waits to. -/
def State.Calibrates (s : State) (bs : List Nat) : Prop := ∃ b ∈ bs, (s.bank b).sc ≠ 0

/-- The start of self-calibration on these banks is refused (R156). -/
def State.RefusesStart (s : State) (bs : List Nat) : Prop :=
  s.Calibrates bs ∨ (∃ b ∈ bs, (s.bank b).parkedTherm = true) ∨ ((∃ b ∈ bs, s.pool b = 1) ∧ s.packsWithout bs = false)

/-- Operation `op` on the trims of these banks is refused (R165). -/
def State.RefusesOp (s : State) (op : Nat) (bs : List Nat) : Prop :=
  s.Calibrates bs ∨ (op = 3 ∧ ∃ b ∈ bs, (s.bank b).saved = false)

/-- Self-calibration of these banks waits for the milestone due. -/
def State.askStart (s : State) (bs : List Nat) : State :=
  s.each bs fun t b => t.setBank b { t.bank b with sc := 1, scDue := s.tim.due }

section
variable {u : State} {banks : BitVec 24}

theorem actCal_of_no_banks {op : Nat} (hop : op < 6) (hnone : maskBanks banks.toNat = []) :
    u.actCal (calWord banks op) = u := by
  simp only [State.actCal, calWord_op banks (show op < 16 by omega), calWord_banks banks op, hnone]
  rw [if_neg (by omega), if_pos (by simp)]

theorem actCal_start_refused (hbanks : maskBanks banks.toNat ≠ []) (href : u.RefusesStart (maskBanks banks.toNat)) :
    u.actCal (calWord banks 1) = (u.stick .cal7 7 8).stick .cal7 7 10 := by
  simp only [State.actCal, calWord_op banks (show 1 < 16 by decide), calWord_banks banks 1]
  rw [if_neg (by decide), if_neg (by simpa using hbanks), if_pos trivial,
    if_pos (by simpa [State.RefusesStart, State.Calibrates, or_assoc] using href)]

theorem actCal_start (hbanks : maskBanks banks.toNat ≠ []) (hfree : ¬u.RefusesStart (maskBanks banks.toNat)) :
    u.actCal (calWord banks 1) = u.askStart (maskBanks banks.toNat) := by
  simp only [State.actCal, calWord_op banks (show 1 < 16 by decide), calWord_banks banks 1]
  rw [if_neg (by decide), if_neg (by simpa using hbanks), if_pos trivial,
    if_neg (by simpa [State.RefusesStart, State.Calibrates, or_assoc] using hfree)]
  rfl

theorem actCal_op_refused {op : Nat} (hlow : 2 ≤ op) (hop : op < 6) (hbanks : maskBanks banks.toNat ≠ [])
    (href : u.RefusesOp op (maskBanks banks.toNat)) : u.actCal (calWord banks op) = u.stick .cal7 7 10 := by
  simp only [State.actCal, calWord_op banks (show op < 16 by omega), calWord_banks banks op]
  rw [if_neg (by omega), if_neg (by simp [hbanks]; omega), if_neg (by omega),
    if_pos (by simpa [State.RefusesOp, State.Calibrates] using href)]

theorem actCal_op {op : Nat} (hlow : 2 ≤ op) (hop : op < 6) (hbanks : maskBanks banks.toNat ≠ [])
    (hfree : ¬u.RefusesOp op (maskBanks banks.toNat)) : u.actCal (calWord banks op) =
      { u with cal := { u.cal with ops := u.cal.ops ++ [⟨op, banks, u.tim.due⟩] } } := by
  simp only [State.actCal, calWord_op banks (show op < 16 by omega), calWord_banks banks op]
  rw [if_neg (by omega), if_neg (by simp [hbanks]; omega), if_neg (by omega),
    if_neg (by simpa [State.RefusesOp, State.Calibrates] using hfree), BitVec.ofNat_toNat, BitVec.setWidth_eq]

end

section
variable {s u : State} {a : Acc} {banks : BitVec 24}

theorem exec_selfCalibrate_passes (h : s.Passes a (ra .cal7 7 0x040) (calWord banks 1) false u) :
    exec (.selfCalibrate a banks) s = .next (u.actCal (calWord banks 1)) :=
  congrArg Host.Outcome.next (guarded_passes h _)

/-- The command that asks for an operation on trims or estimators. -/
def calOpInstr (a : Acc) (banks : BitVec 24) (op : Nat) : Instr :=
  if op = 2 then .calSave a banks else if op = 3 then .calRestore a banks
  else if op = 4 then .factoryReload a banks else .resetEstimators a banks

theorem exec_calOpInstr_passes {op : Nat} (hop : op ∈ [2, 3, 4, 5])
    (h : s.Passes a (ra .cal7 7 0x040) (calWord banks op) false u) :
    exec (calOpInstr a banks op) s = .next (u.actCal (calWord banks op)) := by
  simp only [List.mem_cons, List.not_mem_nil, or_false] at hop
  obtain rfl | rfl | rfl | rfl := hop <;> exact congrArg Host.Outcome.next (guarded_passes h _)

end

theorem askStart_frame (s : State) (bs : List Nat) : s.askStart bs = { s with banks := (s.askStart bs).banks } :=
  each_induct (P := fun t => t = { s with banks := t.banks })
    (fun t b ht => congrArg (fun v : State => { v with banks := (t.setBank b { t.bank b with
      sc := 1, scDue := s.tim.due }).banks }) ht) rfl bs

theorem bank_askStart (s : State) {bs : List Nat} (hbs : bs.Nodup) (b : Nat) :
    (s.askStart bs).bank b = if b ∈ bs then { s.bank b with sc := 1, scDue := s.tim.due } else s.bank b :=
  read_each_of_nodup (P := fun _ => True) (step := fun _ (x : Bank) => { x with sc := 1, scDue := s.tim.due })
    (fun _ _ _ => trivial) (fun _ _ _ => bank_setBank_same ..) (fun _ _ _ _ h => bank_setBank_other _ _ _ _ h) hbs trivial b

/-! ### Self-calibration (R156, R157) -/

theorem exec_selfCalibrationPhase_running {s : State} {b : Fin 24} (h : (s.bank b.val).sc = 2) :
    exec (.selfCalibrationPhase b) s =
      .next (s.setBank b.val { s.bank b.val with scPhase := scPhaseOf (s.bank b.val).scMs }) :=
  congrArg Host.Outcome.next (if_pos h)

/-- A bump of the epoch moves epochs of banks alone. -/
theorem onlyBanks_bumpEpoch (s : State) (b : Nat) : s.OnlyBanks (s.bumpEpoch b) := by
  refine each_induct (P := s.OnlyBanks) (fun t d ht => ?_) (onlyBanks_refl s) _
  dsimp only
  split
  case isTrue => exact ht
  case isFalse => exact ht.setBank _ _

theorem sc_bumpEpoch (s : State) (b d : Nat) : ((s.bumpEpoch b).bank d).sc = (s.bank d).sc := by
  refine each_induct (P := fun t => (t.bank d).sc = (s.bank d).sc) (fun t e ht => ?_) rfl _
  dsimp only
  split
  case isTrue => exact ht
  case isFalse =>
    by_cases hd : d = e
    · subst hd
      rwa [bank_setBank_same]
    · rwa [bank_setBank_other _ _ _ _ hd]

/-- A trim whose estimator starts anew, whatever its state. -/
def Trim.anew (t : Trim) : Trim := { t with est := .tracking, idle := false, good := 0, bad := 0 }

/-- The slices of a bank that are in use: all but the retired one. -/
def State.usedSlices (s : State) (i : Nat) : List Nat :=
  (List.range 17).filter fun k => (s.bank i).retired ≠ some k

theorem mem_usedSlices {s : State} {i k : Nat} (hk : k < 17) : k ∈ s.usedSlices i ↔ (s.bank i).retired ≠ some k := by
  simp [State.usedSlices, hk]

/-- The results of self-calibration reach the slices in use (R157). -/
def State.solveSlices (s : State) (i : Nat) (solved : List Solved) : State :=
  s.each (s.usedSlices i) fun t k => t.setSliceCal i k ((t.sliceCal i k).solve solved[k]? (t.bankTemp i))

section
variable (s : State) (i : Nat) (solved : List Solved)

theorem solveSlices_step (t : State) (k : Nat) (h : s.OnlySlices t) :
    t.setSliceCal i k ((t.sliceCal i k).solve solved[k]? (t.bankTemp i)) =
      t.setSliceCal i k ((t.sliceCal i k).solve solved[k]? (s.bankTemp i)) := by
  rw [h.bankTemp]

theorem onlySlices_solveSlices : s.OnlySlices (s.solveSlices i solved) :=
  onlySlices_each (step := fun k c => c.solve solved[k]? (s.bankTemp i)) (solveSlices_step s i solved) _

theorem sliceCal_solveSlices {k : Nat} (hk : k < 17) : (s.solveSlices i solved).sliceCal i k =
    if (s.bank i).retired = some k then s.sliceCal i k else (s.sliceCal i k).solve solved[k]? (s.bankTemp i) := by
  refine (sliceCal_each (step := fun k c => c.solve solved[k]? (s.bankTemp i)) (solveSlices_step s i solved)
    (l := s.usedSlices i) (List.nodup_range.filter _) k).trans ?_
  simp only [mem_usedSlices hk, ne_eq, ite_not]

theorem onlySlices_resetEsts : s.OnlySlices (s.resetEsts i) := onlySlices_mapSlices ..

theorem sliceCal_resetEsts {k : Nat} (hk : k < 17) :
    (s.resetEsts i).sliceCal i k = (s.sliceCal i k).mapTrims fun _ t => t.anew := sliceCal_mapSlices _ _ _ hk

/-- The results are applied and every estimator is in tracking again. -/
def State.applySolved : State := (s.solveSlices i solved).resetEsts i

theorem onlySlices_applySolved : s.OnlySlices (s.applySolved i solved) :=
  (onlySlices_solveSlices s i solved).trans (onlySlices_resetEsts _ i)

/-- The bank leaves self-calibration: a failed slice is noted on its trim page, an applied trim moves the epoch. -/
def State.leaveSelfCal (used : List Nat) : State :=
  let t := s.setBank i { s.bank i with sc := 0 }
  let u := if used.any fun k => (s.sliceCal i k).scFail then t.stick .calTrim (trimPage i) (12 + i % 4) else t
  if used.any fun k => !(s.sliceCal i k).scFail then u.bumpEpoch i else u

/-- Ways to leave self-calibration: what holds of the bank out of it, of a page noted and of an epoch moved, holds. -/
theorem leaveSelfCal_induct {P : State → Prop} (hout : P (s.setBank i { s.bank i with sc := 0 }))
    (hnote : ∀ t, P t → P (t.stick .calTrim (trimPage i) (12 + i % 4))) (hbump : ∀ t, P t → P (t.bumpEpoch i))
    (used : List Nat) : P (s.leaveSelfCal i used) := by
  have hnoted : P (if used.any fun k => (s.sliceCal i k).scFail then
      (s.setBank i { s.bank i with sc := 0 }).stick .calTrim (trimPage i) (12 + i % 4)
      else s.setBank i { s.bank i with sc := 0 }) := by
    split
    case isTrue => exact hnote _ hout
    case isFalse => exact hout
  unfold State.leaveSelfCal
  dsimp only
  split
  case isTrue => exact hbump _ hnoted
  case isFalse => exact hnoted

theorem State.OnlyBanks.cal {s t : State} (h : s.OnlyBanks t) : t.cal = s.cal := by rw [h]

/-- Trims first, then banks and registers: nothing else changes. -/
theorem State.OnlySlices.banks {s t u : State} (h : s.OnlySlices t) (h' : t.OnlyBanks u) :
    u = { s with regs := u.regs, banks := u.banks, cal := u.cal } := by
  obtain ⟨c, rfl⟩ : ∃ c, t = { s with cal := c } := ⟨_, h⟩
  obtain ⟨r, x, rfl⟩ : ∃ r x, u = { s with regs := r, banks := x, cal := c } := ⟨_, _, h'⟩
  rfl

theorem State.OnlyBanks.trans {s t u : State} (h : s.OnlyBanks t) (h' : t.OnlyBanks u) : s.OnlyBanks u := by
  rw [State.OnlyBanks, h', h]

theorem onlyBanks_leaveSelfCal (used : List Nat) : s.OnlyBanks (s.leaveSelfCal i used) :=
  leaveSelfCal_induct s i (P := s.OnlyBanks) ((onlyBanks_refl s).setBank _ _) (fun _ h => h.setReg _ _)
    (fun _ h => h.trans (onlyBanks_bumpEpoch _ i)) used

theorem sc_leaveSelfCal (used : List Nat) (d : Nat) :
    ((s.leaveSelfCal i used).bank d).sc = if d = i then 0 else (s.bank d).sc := by
  refine leaveSelfCal_induct s i (P := fun t => (t.bank d).sc = if d = i then 0 else (s.bank d).sc) ?_
    (fun _ h => h) (fun t h => (sc_bumpEpoch t i d).trans h) used
  by_cases hd : d = i
  · subst hd
    rw [bank_setBank_same, if_pos rfl]
  · rw [bank_setBank_other _ _ _ _ hd, if_neg hd]

/-- The whole end of a bank's self-calibration, but for bit 9 of CAL7 (R157). -/
def State.endSelfCal : State := (s.applySolved i solved).leaveSelfCal i (s.usedSlices i)

theorem endSelfCal_frame : s.endSelfCal i solved = { s with
    regs := (s.endSelfCal i solved).regs
    banks := (s.endSelfCal i solved).banks
    cal := (s.endSelfCal i solved).cal } :=
  (onlySlices_applySolved s i solved).banks (onlyBanks_leaveSelfCal ..)

theorem sc_endSelfCal (d : Nat) : ((s.endSelfCal i solved).bank d).sc = if d = i then 0 else (s.bank d).sc := by
  rw [State.endSelfCal, sc_leaveSelfCal, (onlySlices_applySolved s i solved).bank]

theorem sliceCal_endSelfCal {k : Nat} (hk : k < 17) : (s.endSelfCal i solved).sliceCal i k =
    (if (s.bank i).retired = some k then s.sliceCal i k
      else (s.sliceCal i k).solve solved[k]? (s.bankTemp i)).mapTrims fun _ t => t.anew := by
  have hcal : (s.endSelfCal i solved).cal = (s.applySolved i solved).cal :=
    (onlyBanks_leaveSelfCal ..).cal
  rw [sliceCal_congr hcal, State.applySolved, sliceCal_resetEsts _ i hk, sliceCal_solveSlices s i solved hk]

end

section
variable {s : State} {b : Fin 24} (solved : List Solved)

theorem exec_selfCalibrationEnd_early (h : s.selfCalOver b.val = false ∨ s.atMilestone = false) :
    exec (.selfCalibrationEnd b solved) s = .next s :=
  congrArg Host.Outcome.next (if_neg (by rcases h with h | h <;> simp [h]))

theorem exec_selfCalibrationEnd_over (hover : s.selfCalOver b.val = true) (hat : s.atMilestone = true) :
    exec (.selfCalibrationEnd b solved) s = .next ((s.endSelfCal b.val solved).stick .cal7 7 9).noteEpoch :=
  congrArg Host.Outcome.next (if_pos (by rw [hover, hat]; rfl))

end

/-! ### Gap visits (R159) -/

theorem endGap_over {s : State} {key : Nat} {w : GapVisit} (hrun : kget s.cal.gapOn key none = some w)
    (hover : w.stop ≤ s.tim.time) : s.endGap key = { s with cal := { s.cal with
      gapOn := kset s.cal.gapOn key none none, gaps := kset s.cal.gaps key ((kget s.cal.gaps key {}).take w) {} } } := by
  simp only [State.endGap, hrun, if_pos hover]

/-- A gap visit may start on slice `k` of bank `i`: the slice makes them, its gap holds one, and no ordinary spot waits
or uses it. -/
def State.GapFree (u : State) (i k : Nat) : Prop :=
  u.modeNow i = 0 ∧ u.converts i = true ∧ u.gapSlice i k = true ∧ u.sliceIdle i (u.positionOf i k) = true ∧
    ((u.bank i).spot.pending = true → (u.bank i).spot.started = true ∧ (u.bank i).spot.slice ≠ u.positionOf i k) ∧
    kget u.cal.gapOn (i * 17 + k) none = none

theorem gapMayStart_iff (u : State) (i k : Nat) : u.gapMayStart i k = true ↔ u.GapFree i k := by
  simp only [State.gapMayStart, State.GapFree, Bool.and_eq_true, decide_eq_true_eq, Bool.not_eq_true',
    Option.isNone_iff_eq_none]
  cases (u.bank i).spot.pending <;> cases (u.bank i).spot.started <;> simp [and_assoc]

section
variable {s : State} {b : Fin 24} {slice : Fin 17} (full : Bool) (codes : List (BitVec 14))

theorem exec_gapVisit_starts (h : (s.endGap (b.val * 17 + slice.val)).GapFree b.val slice.val) :
    let u := s.endGap (b.val * 17 + slice.val)
    let v : GapVisit :=
      { stop := u.tim.time + u.visitLen b.val * cks, full := full, sum := (visitCodes codes).sum
        ok := !(u.bank b.val).hard.contains slice.val && u.chanOn (if full then 498 else 497) }
    exec (.gapVisit b slice full codes) s =
      .next { u with cal := { u.cal with gapOn := kset u.cal.gapOn (b.val * 17 + slice.val) (some v) none } } :=
  congrArg Host.Outcome.next (if_pos ((gapMayStart_iff _ _ _).mpr h))

theorem exec_gapVisit_inert (h : ¬(s.endGap (b.val * 17 + slice.val)).GapFree b.val slice.val) :
    exec (.gapVisit b slice full codes) s = .next (s.endGap (b.val * 17 + slice.val)) :=
  congrArg Host.Outcome.next (if_neg (mt (gapMayStart_iff _ _ _).mp h))

end

/-! ### Estimators (R163) -/

/-- 16 implausible periods fail an estimator that has not failed. -/
def Trim.Fails (t : Trim) : Prop := t.est ≠ .failed ∧ 16 ≤ t.bad

/-- An estimator that fails now is in the failed state. -/
def Trim.failed (t : Trim) : Trim := if t.est ≠ .failed && decide (16 ≤ t.bad) then { t with est := .failed } else t

theorem failed_of_fails {t : Trim} (h : t.Fails) : t.failed = { t with est := .failed } :=
  if_pos (by simpa [Trim.Fails] using h)

theorem failed_of_not_fails {t : Trim} (h : ¬t.Fails) : t.failed = t := if_neg (by simpa [Trim.Fails] using h)

theorem exists_trimK {p : TrimK → Prop} : (∃ j, p j) ↔ (p .ofs ∨ p .gain) ∨ p .dly where
  mp := fun ⟨j, hj⟩ => match j with
    | .ofs => .inl (.inl hj)
    | .gain => .inl (.inr hj)
    | .dly => .inr hj
  mpr h := h.elim (fun h => h.elim (⟨_, ·⟩) (⟨_, ·⟩)) (⟨_, ·⟩)

section
variable {s : State} {b : Fin 24} {slice : Fin 17}

/-- The failed estimators of a slice, noted on the bank's trim page and on CAL7 (R163). -/
def State.failEsts (s : State) (i k : Nat) : State :=
  ((s.setSliceCal i k ((s.sliceCal i k).mapTrims fun _ t => t.failed)).stick .calTrim (trimPage i) (8 + i % 4)).stick
    .cal7 7 11

theorem exec_estimatorFail_none (h : ¬∃ j, ((s.sliceCal b.val slice.val).trim j).Fails) :
    exec (.estimatorFail b slice) s = .next s := by
  rw [exists_trimK] at h
  exact congrArg Host.Outcome.next (if_neg (by simpa [Trim.Fails, SliceCal.trim] using h))

theorem exec_estimatorFail_some (h : ∃ j, ((s.sliceCal b.val slice.val).trim j).Fails) :
    exec (.estimatorFail b slice) s = .next (s.failEsts b.val slice.val) := by
  rw [exists_trimK] at h
  exact congrArg Host.Outcome.next (if_pos (by simpa [Trim.Fails, SliceCal.trim] using h))

end

theorem sliceCal_failEsts (s : State) (i k : Nat) :
    (s.failEsts i k).sliceCal i k = (s.sliceCal i k).mapTrims fun _ t => t.failed := sliceCal_setSliceCal_same ..

theorem flag_trimPage_failEsts (s : State) (i k : Nat) :
    (s.failEsts i k).flag (ra .calTrim (trimPage i) 0x010) (8 + i % 4) = true :=
  flag_orReg_of_flag (flag_stick_same _ .calTrim (trimPage i) (8 + i % 4) (by omega)) _ _

theorem flag_cal7_failEsts (s : State) (i k : Nat) : (s.failEsts i k).flag (ra .cal7 7 0x010) 11 = true :=
  flag_stick_same _ .cal7 7 11 (by decide)

/-! ### The drift monitor (R170) -/

/-- The comparisons that count with one more: the last 16. -/
def State.slopesWith (s : State) (ppm : Int) : List Int :=
  (s.cal.slopes ++ [ppm]).drop ((s.cal.slopes ++ [ppm]).length - 16)

/-- The comparison is kept. -/
def State.keepSlope (s : State) (ppm : Int) : State :=
  { s with cal := { s.cal with slopes := s.slopesWith ppm, slopeMs := s.tim.msCount } }

/-- The field that reports a slope. -/
def slopeCode (v : Int) : Nat := if v.natAbs < 32768 then encInt 16 v else (Config.slopeField v).toNat

/-- The slope of the last 16 comparisons is reported. -/
def State.showSlope (s : State) (ppm : Int) : State :=
  (s.keepSlope ppm).setReg (ra .cal0 0 0x054) (BitVec.ofNat 32 (slopeCode (slopeOf (s.slopesWith ppm)) + 0x10000))

section
variable {s : State} {ppm : Int}

theorem showSlope_frame (s : State) (ppm : Int) : s.showSlope ppm = { s with
    regs := (s.showSlope ppm).regs
    cal := { s.cal with slopes := s.slopesWith ppm, slopeMs := s.tim.msCount } } :=
  (onlyRegs_setReg (onlyRegs_refl (s.keepSlope ppm) [ra .cal0 0 0x054]) (List.mem_singleton_self _) _).1

theorem exec_slopeComparison_early (h : s.tim.msCount < s.cal.slopeMs + 2 ^ 22) :
    exec (.slopeComparison ppm) s = .next s :=
  congrArg Host.Outcome.next (if_neg (Nat.not_le.mpr h))

theorem slopesWith_of_few (h : (s.cal.slopes ++ [ppm]).length < 16) : s.slopesWith ppm = s.cal.slopes ++ [ppm] := by
  rw [State.slopesWith, Nat.sub_eq_zero_of_le h.le, List.drop_zero]

theorem length_slopesWith (h : 16 ≤ (s.cal.slopes ++ [ppm]).length) : (s.slopesWith ppm).length = 16 := by
  rw [State.slopesWith, List.length_drop]
  omega

theorem exec_slopeComparison_few (hdue : s.cal.slopeMs + 2 ^ 22 ≤ s.tim.msCount)
    (hfew : (s.cal.slopes ++ [ppm]).length < 16) : exec (.slopeComparison ppm) s = .next (s.keepSlope ppm) :=
  congrArg Host.Outcome.next ((if_pos hdue).trans
    (if_pos (show (s.slopesWith ppm).length < 16 by rwa [slopesWith_of_few hfew])))

theorem exec_slopeComparison_shows (hdue : s.cal.slopeMs + 2 ^ 22 ≤ s.tim.msCount)
    (hmany : 16 ≤ (s.cal.slopes ++ [ppm]).length) : exec (.slopeComparison ppm) s =
      .next (if 500 ≤ (sext 16 (slopeCode (slopeOf (s.slopesWith ppm)))).natAbs then (s.showSlope ppm).stick .cal0 0 14
        else s.showSlope ppm) :=
  congrArg Host.Outcome.next ((if_pos hdue).trans
    (if_neg (show ¬(s.slopesWith ppm).length < 16 by rw [length_slopesWith hmany]; decide)))

end

/-- Settles O59: CAL_CMD by what it asks for and what stands against it, then each thing that calibration does by itself,
with the frame of the slices, banks and registers that it touches. -/
theorem calibrationCommandsAndEstimators : Obligations.CalibrationCommandsAndEstimators := by
  unfold Obligations.CalibrationCommandsAndEstimators
  refine ⟨fun s u a banks => ⟨fun hpass => ?_, fun op hop hpass => ?_⟩,
    fun s b => ⟨exec_selfCalibrationPhase_running, exec_selfCalibrationEnd_early, fun solved hover hat => ?_⟩,
    fun s b slice full codes => ⟨fun w => endGap_over, exec_gapVisit_starts full codes, exec_gapVisit_inert full codes⟩,
    fun s b slice => ⟨?_, fun hnone => exec_estimatorFail_none (not_exists.mpr hnone), fun hsome => ?_⟩,
    fun s ppm => ⟨exec_slopeComparison_early, fun hdue => ⟨fun hfew => ?_, fun hmany => ?_⟩⟩⟩
  · rw [exec_selfCalibrate_passes hpass]
    refine ⟨fun hnone => ?_, fun hbanks href => ?_, fun hbanks hfree => ?_⟩
    · rw [actCal_of_no_banks (by decide) hnone]
    · rw [actCal_start_refused hbanks href]
    · rw [actCal_start hbanks hfree]
      exact ⟨_, rfl, askStart_frame u _, bank_askStart u (nodup_maskBanks _)⟩
  · have hexec : exec (calOpInstr a banks op) s = _ := exec_calOpInstr_passes hop hpass
    obtain ⟨hlow, htop⟩ : 2 ≤ op ∧ op < 6 := by
      simp only [List.mem_cons, List.not_mem_nil, or_false] at hop
      omega
    refine ⟨fun hnone => hexec.trans ?_, fun hbanks href => hexec.trans ?_, fun hbanks hfree => hexec.trans ?_⟩
    · rw [actCal_of_no_banks htop hnone]
    · rw [actCal_op_refused hlow htop hbanks href]
    · rw [actCal_op hlow htop hbanks hfree]
  · refine ⟨s.endSelfCal b.val solved, exec_selfCalibrationEnd_over solved hover hat, endSelfCal_frame s b.val solved,
      (sc_endSelfCal ..).trans (if_pos rfl), fun d hd => (sc_endSelfCal ..).trans (if_neg hd),
      fun k hk => sliceCal_endSelfCal s b.val solved hk⟩
  · refine ⟨_, rfl, ⟨rfl, fun d j _ => sliceCal_setSliceCal_other s _⟩, rfl, fun j => ?_⟩
    rw [sliceCal_setSliceCal_same, trim_mapTrims]
  · refine ⟨_, exec_estimatorFail_some hsome, ⟨rfl, fun d j _ => sliceCal_setSliceCal_other s _⟩,
      flag_trimPage_failEsts .., flag_cal7_failEsts ..,
      fun j => ⟨fun hfails => ?_, fun hholds => ?_⟩⟩
    · rw [sliceCal_failEsts, trim_mapTrims, failed_of_fails hfails]
    · rw [sliceCal_failEsts, trim_mapTrims, failed_of_not_fails hholds]
  · rw [exec_slopeComparison_few hdue hfew, State.keepSlope, slopesWith_of_few hfew]
  · exact ⟨s.showSlope ppm, showSlope_frame s ppm, reg_setReg_same .., fun b hb => (reg_setReg ..).trans (if_neg hb),
      exec_slopeComparison_shows hdue hmany⟩

end Sys2Proof.Machine
end

section
/-! SUPPORT. Proof of the statement of the stream processor: codes that arrive (R173 to R175), intervals that close (R185),
mains tracking that is lost (R184). -/

namespace Sys2Proof.Machine
open Sys2Proof

/-! ### Held codes (R173, R174) -/

theorem arriveHeld_idle {s : State} (h : s.spe.flight = []) : s.arriveHeld = s := by
  rw [State.arriveHeld, h]

theorem arriveHeld_first {s : State} {f : Flight} {rest : List Flight} (h : s.spe.flight = f :: rest) :
    s.arriveHeld =
      let u := State.ringCodes { s with spe := { s.spe with flight := rest } } f false
      let x := satS 16 (shr (f.value + 16) 5)
      let e := u.epochAt f.inst
      let g := e.input f.bank (Nat.lor (u.inputFlags e f.ch f.bank f.chk) (if f.marker ≠ 0 then 4 else 0)) f.inst
      let v := u.lockIn f.ch f.bank f.start f.inst x f.marker f.index g
      (v.trackSample f.ch f.bank f.heldSample).feedAll f.ch f.bank f.heldSample := by
  rw [State.arriveHeld, h]

/-! ### Codes of the fast path (R74, R174, R175) -/

/-- A run of codes of fast port `p` is gone: no place, no source of the fast path, or no time that runs. -/
def State.FastGone (s : State) (p : Nat) : Prop :=
  (s.place p).size = 0 ∨ s.fastSource (384 + p) = false ∨ s.running = false

/-- Marker OVERLOAD of a run is a fault of its port, where that is enabled (R74). -/
def State.overloaded (s : State) (f : FastCodes) : State :=
  if f.marker = 2 ∧ s.chanOn (384 + f.port.val) = true then s.portFault (384 + f.port.val) 0 else s

/-- One code of the fast path on its way through the pipeline of bank `b`: the capture ring, the lock-in, the streams. -/
def State.takeFast (z : State) (b : Nat) (y : Flight) : State :=
  let r := z.ringCodes y true
  let e := r.epochAt y.inst
  let g := e.input b (Nat.lor (r.inputFlags e y.ch b false) (if y.marker ≠ 0 then 4 else 0)) y.inst
  (r.lockIn y.ch b y.inst y.inst y.value y.marker y.index g).feedAll y.ch b y.fastSample

/-- The code of place `k` in a run: only one that lies in the period in progress arrives (log entry 108). -/
def State.fastCode (z : State) (f : FastCodes) (b k : Nat) (code : BitVec 14) : State :=
  let y := z.fastFlight f.port.val (f.m + k) (sext 14 code.toNat) f.marker.toNat
  if z.inPeriod y.inst then z.takeFast b y else z

section
variable {s : State} {f : FastCodes}

theorem fastGone_iff (s : State) (p : Nat) :
    ((s.place p).size = 0 || !s.fastSource (384 + p) || !s.running) = true ↔ s.FastGone p := by
  simp only [State.FastGone, Bool.or_eq_true, decide_eq_true_eq, Bool.not_eq_true', or_assoc]

theorem arriveFast_gone (h : s.FastGone f.port.val) : s.arriveFast f = s :=
  if_pos ((fastGone_iff ..).mpr h)

theorem arriveFast_run (h : ¬s.FastGone f.port.val) :
    s.arriveFast f = (s.overloaded f).each ((List.range f.codes.length).zip f.codes) fun z x =>
      z.fastCode f (s.place f.port.val).bank x.1 x.2 := by
  refine (if_neg (mt (fastGone_iff ..).mp h)).trans ?_
  simp only [State.overloaded, State.fastCode, State.takeFast, Bool.and_eq_true, decide_eq_true_eq, Bool.not_eq_true',
    ← Bool.not_eq_true, ite_not]

theorem arriveFast_single {code : BitVec 14} (h : ¬s.FastGone f.port.val) (hcodes : f.codes = [code]) :
    s.arriveFast f = (s.overloaded f).fastCode f (s.place f.port.val).bank 0 code := by
  rw [arriveFast_run h, hcodes, List.length_singleton, List.range_one, List.zip_cons_cons, List.zip_nil_left,
    State.each, List.foldl_cons, List.foldl_nil]

end

/-! ### Ends of intervals (R185) -/

/-- An input of stream `i` is on the link. -/
def State.OnWay (s : State) (i : Nat) : Prop := ∃ f ∈ s.spe.flight, some f.ch = s.sChan i

section
variable {s : State} {stream : BitVec 12}

theorem intervalEnds_iff (s : State) (i : Nat) :
    (s.intervalDue i && !s.spe.flight.any fun f => decide (some f.ch = s.sChan i)) = true ↔
      s.intervalDue i = true ∧ ¬s.OnWay i := by
  simp only [State.OnWay, Bool.and_eq_true, Bool.not_eq_true', ← Bool.not_eq_true, List.any_eq_true, decide_eq_true_eq]

theorem exec_intervalEnd_closes (hdue : s.substNow.intervalDue stream.toNat = true)
    (hway : ¬s.substNow.OnWay stream.toNat) : exec (.intervalEnd stream) s =
      .next ((s.substNow.ringAdd (.interval stream.toNat)).closeInterval stream.toNat) :=
  congrArg Host.Outcome.next (if_pos ((intervalEnds_iff ..).mpr ⟨hdue, hway⟩))

theorem exec_intervalEnd_waits
    (h : s.substNow.intervalDue stream.toNat = false ∨ s.substNow.OnWay stream.toNat) :
    exec (.intervalEnd stream) s = .next s.substNow := by
  refine congrArg Host.Outcome.next (if_neg fun hends => ?_)
  obtain ⟨hdue, hway⟩ := (intervalEnds_iff ..).mp hends
  exact h.elim (fun hnot => Bool.false_ne_true (hnot.symm.trans hdue)) hway

end

/-! ### Mains tracking is lost (R184) -/

section
variable {s : State}

theorem trackingEnds_iff (s : State) :
    (decide (1024 ≤ s.spe.badEst) && !s.spe.lost) = true ↔ 1024 ≤ s.spe.badEst ∧ s.spe.lost = false := by
  simp only [Bool.and_eq_true, decide_eq_true_eq, Bool.not_eq_true']

theorem exec_trackLost_falls (hbad : 1024 ≤ s.spe.badEst) (hlost : s.spe.lost = false) : exec .trackLost s =
    .next (State.stick { s with spe := { s.spe with f0 := s.nominalF0, lost := true, tracking := false } } .stb 0 9) :=
  congrArg Host.Outcome.next (if_pos ((trackingEnds_iff s).mpr ⟨hbad, hlost⟩))

theorem exec_trackLost_stays (h : s.spe.badEst < 1024 ∨ s.spe.lost = true) : exec .trackLost s = .next s := by
  refine congrArg Host.Outcome.next (if_neg fun hends => ?_)
  obtain ⟨hbad, hlost⟩ := (trackingEnds_iff s).mp hends
  exact h.elim (fun hfew => hfew.not_ge hbad) fun his => Bool.false_ne_true (hlost.symm.trans his)

end

/-- Settles O60: a held code group or a run of the fast path arrives after what is substituted up to now, an interval that
is over closes once its inputs have come, and mains tracking falls back once. -/
theorem codesArriveAndIntervalsClose : Obligations.CodesArriveAndIntervalsClose := by
  unfold Obligations.CodesArriveAndIntervalsClose
  refine ⟨fun s0 => ⟨fun hidle => ?_, fun f rest hfirst => ?_, fun f => ⟨fun hgone => ?_, fun code hgone hcodes => ?_, rfl⟩⟩,
    fun s0 stream => ⟨exec_intervalEnd_closes, exec_intervalEnd_waits⟩,
    fun s => ⟨exec_trackLost_falls, exec_trackLost_stays⟩⟩
  · exact congrArg Host.Outcome.next (arriveHeld_idle hidle)
  · exact congrArg Host.Outcome.next (arriveHeld_first hfirst)
  · exact congrArg Host.Outcome.next (arriveFast_gone hgone)
  · exact congrArg Host.Outcome.next (arriveFast_single hgone hcodes)

end Sys2Proof.Machine
end

section
/-! SUPPORT. Proof of the statement of the alarm engine's switches: what one observation makes of a switch (R202 to R204),
and which of its changes are voted and noted (R205, R211). -/

namespace Sys2Proof.Machine
open Sys2Proof

/-! ### The switch alone (R203) -/

section
variable {x : Switch} {w0 w2 w3 : Word} {v : Int} {stamp : Nat}

theorem take_off_stays (hst : x.st = .off) (hset : setCond w0 w2 v = false) :
    x.take w0 w2 w3 v stamp = [(x, stamp)] := by
  simp [Switch.take, Switch.settled, hst, hset]

theorem take_off_pends (hst : x.st = .off) (hset : setCond w0 w2 v = true) (hdwell : dwell w0 true ≠ 0) :
    x.take w0 w2 w3 v stamp = [({ x with st := .pendOn, t0 := stamp }, stamp)] := by
  simp [Switch.take, Switch.settled, hst, hset, hdwell]

theorem take_off_turnsOn (hst : x.st = .off) (hset : setCond w0 w2 v = true) (hdwell : dwell w0 true = 0) :
    x.take w0 w2 w3 v stamp = [({ x with st := .on }, stamp)] := by
  simp [Switch.take, Switch.settled, hst, hset, hdwell]

theorem take_on_stays (hst : x.st = .on) (hclr : clrCond w0 w3 v = false) :
    x.take w0 w2 w3 v stamp = [(x, stamp)] := by
  simp [Switch.take, Switch.settled, hst, hclr]

theorem take_on_pends (hst : x.st = .on) (hclr : clrCond w0 w3 v = true) (hdwell : dwell w0 false ≠ 0) :
    x.take w0 w2 w3 v stamp = [({ x with st := .pendOff, t0 := stamp }, stamp)] := by
  simp [Switch.take, Switch.settled, hst, hclr, hdwell]

theorem take_on_turnsOff (hst : x.st = .on) (hclr : clrCond w0 w3 v = true) (hdwell : dwell w0 false = 0) :
    x.take w0 w2 w3 v stamp = [({ x with st := .off }, stamp)] := by
  simp [Switch.take, Switch.settled, hst, hclr, hdwell]

theorem take_pendOn_inside (hst : x.st = .pendOn) (hin : stamp < x.t0 + dwell w0 true) :
    x.take w0 w2 w3 v stamp = [(if setCond w0 w2 v then x else { x with st := .off }, stamp)] := by
  simp [Switch.take, hst, hin]

theorem take_pendOn_over (hst : x.st = .pendOn) (hover : x.t0 + dwell w0 true ≤ stamp)
    (hclr : clrCond w0 w3 v = false) :
    x.take w0 w2 w3 v stamp = [({ x with st := .on }, x.t0 + dwell w0 true), ({ x with st := .on }, stamp)] := by
  simp [Switch.take, Switch.settled, hst, Nat.not_lt.mpr hover, hclr]

theorem take_pendOff_inside (hst : x.st = .pendOff) (hin : stamp < x.t0 + dwell w0 false) :
    x.take w0 w2 w3 v stamp = [(if clrCond w0 w3 v then x else { x with st := .on }, stamp)] := by
  simp [Switch.take, hst, hin]

theorem take_pendOff_over (hst : x.st = .pendOff) (hover : x.t0 + dwell w0 false ≤ stamp)
    (hset : setCond w0 w2 v = false) :
    x.take w0 w2 w3 v stamp = [({ x with st := .off }, x.t0 + dwell w0 false), ({ x with st := .off }, stamp)] := by
  simp [Switch.take, Switch.settled, hst, Nat.not_lt.mpr hover, hset]

end

/-! ### The switch in its state (R205, R211) -/

theorem isOn_of_st {x : Switch} {st : SwSt} (h : x.st = st) :
    x.isOn = (decide (st = .on) || decide (st = .pendOff)) := by
  rw [Switch.isOn, h]

/-- `now` counts in a vote as `was` does. -/
def Switch.VotesAs (was now : Switch) : Prop := now.isOn = was.isOn ∧ now.fault = was.fault

/-- Switch `i` goes from `was` to `now`, with decision stamp `t`: a rise is noted as a wake source, and a change to or from
ON or of the fault is voted. -/
def State.moveSwitch (s : State) (i : Nat) (v : Int) (flags stamp : Nat) (was now : Switch) (t : Nat) : State :=
  let u := (s.setSwitch i now).noteWake i was.isOn now.isOn
  if now.isOn ≠ was.isOn ∨ now.fault ≠ was.fault then u.memberChange i v flags t stamp else u

/-- Switch `i`, which was `was`, goes through the states of `steps`, each with its decision stamp. -/
def State.moveAlong (s : State) (i : Nat) (v : Int) (flags stamp : Nat) (was : Switch) (steps : List (Switch × Nat)) :
    State :=
  (steps.foldl (fun p q => (p.1.moveSwitch i v flags stamp p.2 q.1 q.2, q.1)) (s, was)).1

/-- A switch with what an observation leaves in it, whatever its state (R201). -/
def Switch.seen (x : Switch) (v : Int) (flags : Nat) : Switch :=
  { x with val := v, quiet := 0, obs := true, flags := flags }

/-- A switch without fault. -/
def Switch.sound (x : Switch) : Switch := { x with silent := false, fault := false }

section
variable {s : State} {i : Nat} {v : Int} {flags stamp t t' : Nat} {was now z z' : Switch}

theorem noteWake_of_was_on (s : State) (i : Nat) (now : Bool) : s.noteWake i true now = s :=
  if_neg (by simp)

theorem noteWake_of_off (s : State) (i : Nat) (was : Bool) : s.noteWake i was false = s :=
  if_neg (by simp)

theorem votesAs_ite {p : Prop} [Decidable p] (hz : was.VotesAs z) (hz' : was.VotesAs z') :
    was.VotesAs (if p then z else z') := by
  split
  · exact hz
  · exact hz'

theorem moveSwitch_of_votesAs (h : was.VotesAs now) : s.moveSwitch i v flags stamp was now t = s.setSwitch i now := by
  obtain ⟨hon, hfault⟩ := h
  have hwake : (s.setSwitch i now).noteWake i was.isOn now.isOn = s.setSwitch i now := by
    rw [hon]
    cases was.isOn
    · exact noteWake_of_off ..
    · exact noteWake_of_was_on ..
  exact (if_neg (by simp [hon, hfault])).trans hwake

theorem moveSwitch_rise (hwas : was.isOn = false) (hnow : now.isOn = true) :
    s.moveSwitch i v flags stamp was now t =
      ((s.setSwitch i now).noteWake i false true).memberChange i v flags t stamp := by
  rw [← hwas, ← hnow]
  exact if_pos (.inl (by simp [hwas, hnow]))

theorem moveSwitch_fall (hwas : was.isOn = true) (hnow : now.isOn = false) :
    s.moveSwitch i v flags stamp was now t = (s.setSwitch i now).memberChange i v flags t stamp := by
  refine (if_pos (.inl (by simp [hwas, hnow]))).trans ?_
  rw [hnow, noteWake_of_off]

theorem observeSwitch_unfaulted (s : State) (i : Nat) (v : Int) (stamp flags : Nat) :
    s.observeSwitch i v stamp false flags = s.moveAlong i v flags stamp ((s.switch i).seen v flags)
      (((s.switch i).seen v flags).sound.take (s.swAt i stamp 0) (s.swAt i stamp 2) (s.swAt i stamp 3) v stamp) := rfl

theorem observeSwitch_of_take_one
    (h : ((s.switch i).seen v flags).sound.take (s.swAt i stamp 0) (s.swAt i stamp 2) (s.swAt i stamp 3) v stamp =
      [(z, t)]) :
    s.observeSwitch i v stamp false flags = s.moveSwitch i v flags stamp ((s.switch i).seen v flags) z t := by
  rw [observeSwitch_unfaulted, h]
  rfl

theorem observeSwitch_of_take_two
    (h : ((s.switch i).seen v flags).sound.take (s.swAt i stamp 0) (s.swAt i stamp 2) (s.swAt i stamp 3) v stamp =
      [(z, t), (z', t')]) :
    s.observeSwitch i v stamp false flags =
      (s.moveSwitch i v flags stamp ((s.switch i).seen v flags) z t).moveSwitch i v flags stamp z z' t' := by
  rw [observeSwitch_unfaulted, h]
  rfl

/-- A faulted observation of an unfaulted switch is voted (R204). -/
theorem observeSwitch_faulted (h : (s.switch i).fault = false) :
    s.observeSwitch i v stamp true flags =
      (s.setSwitch i ((s.switch i).seen v flags).toFault).memberChange i v flags stamp stamp :=
  if_neg fun hboth => Bool.false_ne_true (h.symm.trans hboth.2)

end

/-- Settles O29: for each state of the switch what the observation makes of it, and whether that change is one to ON, one
from ON or neither. -/
theorem switchesFollowTheirWindows : Obligations.SwitchesFollowTheirWindows := by
  unfold Obligations.SwitchesFollowTheirWindows
  intro s i v stamp flags hsound w0 x y set clr nowOn nowOff after
  have hquiet : ∀ {z : Switch} {t : Nat}, y.take w0 (s.swAt i stamp 2) (s.swAt i stamp 3) v stamp = [(z, t)] →
      x.VotesAs z → after z := fun htake hvotes =>
    (observeSwitch_of_take_one htake).trans (moveSwitch_of_votesAs hvotes)
  have hsame : ∀ {z : Switch}, z.isOn = x.isOn → z.fault = false → x.VotesAs z := fun hon hfault =>
    ⟨hon, hfault.trans hsound.symm⟩
  refine ⟨fun hst hset hdwell => ?_, fun hst hset => ?_, fun hst hset hdwell => ?_, fun hst hin => ?_,
    fun hst hover hclr => ?_, fun hst hclr hdwell => ?_, fun hst hclr hdwell => ?_, fun hst hclr => ?_,
    fun hst hin => ?_, fun hst hover hset => ?_, observeSwitch_faulted hsound⟩
  · exact hquiet (take_off_pends hst hset hdwell) (hsame (isOn_of_st hst).symm rfl)
  · exact hquiet (take_off_stays hst hset) (hsame rfl rfl)
  · exact (observeSwitch_of_take_one (take_off_turnsOn hst hset hdwell)).trans (moveSwitch_rise (isOn_of_st hst) rfl)
  · exact hquiet (take_pendOn_inside hst hin) (votesAs_ite (hsame rfl rfl) (hsame (isOn_of_st hst).symm rfl))
  · rw [observeSwitch_of_take_two (take_pendOn_over hst hover hclr), moveSwitch_of_votesAs ⟨rfl, rfl⟩]
    exact congrArg (State.setSwitch · i _) (moveSwitch_rise (isOn_of_st hst) rfl)
  · exact hquiet (take_on_pends hst hclr hdwell) (hsame (isOn_of_st hst).symm rfl)
  · exact (observeSwitch_of_take_one (take_on_turnsOff hst hclr hdwell)).trans (moveSwitch_fall (isOn_of_st hst) rfl)
  · exact hquiet (take_on_stays hst hclr) (hsame rfl rfl)
  · exact hquiet (take_pendOff_inside hst hin) (votesAs_ite (hsame rfl rfl) (hsame (isOn_of_st hst).symm rfl))
  · rw [observeSwitch_of_take_two (take_pendOff_over hst hover hset), moveSwitch_of_votesAs ⟨rfl, rfl⟩]
    exact congrArg (State.setSwitch · i _) (moveSwitch_fall (isOn_of_st hst) rfl)

end Sys2Proof.Machine
end

section
/-! SUPPORT. Proof of the statement of observations and alarm outputs: the observation that is taken (R201, R207), silence
(R204), received frames (R215), acknowledgements (R206), the drivers (R209, R210) and the frames sent (R214). -/

namespace Sys2Proof.Machine
open Sys2Proof

/-! ### The capture ring -/

theorem ringAdd_frame (s : State) (x : RingItem) : s.ringAdd x = { s with lake := (s.ringAdd x).lake } := by
  unfold State.ringAdd
  split <;> rfl

theorem switch_ringAdd (s : State) (x : RingItem) (i : Nat) : (s.ringAdd x).switch i = s.switch i := by
  rw [ringAdd_frame]
  rfl

theorem tim_ringAdd (s : State) (x : RingItem) : (s.ringAdd x).tim = s.tim := by
  rw [ringAdd_frame]

/-! ### The observation that is taken (R201, R207) -/

/-- The observation `o` has left the queue, of which `rest` stays, and the ring holds it. -/
def State.popObs (s : State) (o : Obs) (rest : List Obs) : State :=
  State.ringAdd { s with alm := { s.alm with obs := rest } } (.event o)

/-- Switch `i` takes observation `o`, if that is one of its source. -/
def State.deliverObs (s : State) (o : Obs) (i : Nat) : State :=
  match s.obsFor o i with
  | some (v, f) => s.observeSwitch i v o.stamp f o.flags
  | none => s

section
variable (s : State) (o : Obs) (rest : List Obs)

theorem popObs_frame : s.popObs o rest =
    { s with alm := { s.alm with obs := rest }, lake := (s.popObs o rest).lake } := ringAdd_frame ..

theorem almOn_popObs : (s.popObs o rest).almOn = s.almOn := by
  rw [popObs_frame]
  rfl

theorem switchesAt_popObs (stamp : Nat) : (s.popObs o rest).switchesAt stamp = s.switchesAt stamp := by
  rw [popObs_frame]
  rfl

theorem obsFor_popObs (o' : Obs) (i : Nat) : (s.popObs o rest).obsFor o' i = s.obsFor o' i := by
  rw [popObs_frame]
  rfl

end

section
variable {s : State} {o : Obs} {rest : List Obs} {i : Nat}

theorem deliverObs_none (h : s.obsFor o i = none) : s.deliverObs o i = s := by
  rw [State.deliverObs, h]

theorem deliverObs_some {v : Int} {f : Bool} (h : s.obsFor o i = some (v, f)) :
    s.deliverObs o i = s.observeSwitch i v o.stamp f o.flags := by
  rw [State.deliverObs, h]

theorem takeObs_cons (hobs : s.alm.obs = o :: rest) (hdeep : s.pwr.st ≠ .deepSleep) (hoff : s.pwr.st ≠ .off) :
    s.takeObs = if !s.almOn then s.popObs o rest
      else (s.popObs o rest).each (s.switchesAt o.stamp) fun t i => t.deliverObs o i := by
  rw [← almOn_popObs s o rest, ← switchesAt_popObs s o rest, State.takeObs, hobs]
  exact if_neg (by simp [hdeep, hoff])

theorem takeObs_unseen (hobs : s.alm.obs = o :: rest) (hdeep : s.pwr.st ≠ .deepSleep) (hoff : s.pwr.st ≠ .off)
    (h : s.switchesAt o.stamp = [] ∨ s.almOn = false) : s.takeObs = s.popObs o rest := by
  rw [takeObs_cons hobs hdeep hoff]
  obtain hnone | hstill := h
  · rw [hnone]
    exact ite_self _
  · rw [hstill]
    rfl

theorem takeObs_single (hobs : s.alm.obs = o :: rest) (hdeep : s.pwr.st ≠ .deepSleep) (hoff : s.pwr.st ≠ .off)
    (hon : s.almOn = true) (honly : s.switchesAt o.stamp = [i]) : s.takeObs = (s.popObs o rest).deliverObs o i := by
  rw [takeObs_cons hobs hdeep hoff, hon, honly]
  rfl

end

/-! ### Silence (R204) -/

theorem goSilent_ringAdd (s : State) (y : RingItem) (n : Nat) : (s.ringAdd y).goSilent n =
    let x := s.switch n
    let u := ((s.ringAdd y).setSwitch n { x.toFault with silent := true }).stick .alm 0 25
    if x.fault then u else u.memberChange n x.val 0 s.tim.msStamp s.tim.msStamp := by
  rw [← switch_ringAdd s y, ← tim_ringAdd s y]
  rfl

theorem exec_switchSilent_due {s : State} {i : BitVec 11} (hon : s.almOn = true)
    (hst : s.pwr.st = .run ∨ s.pwr.st = .idle) (hen : bit (s.sww i.toNat 0) 0 = true)
    (hsil : bits (s.sww i.toNat 0) 24 5 ≠ 31) (hnew : (s.switch i.toNat).silent = false)
    (hdue : 2 ^ bits (s.sww i.toNat 0) 24 5 ≤ (s.switch i.toNat).quiet) :
    exec (.switchSilent i) s = .next ((s.ringAdd (.silent i.toNat)).goSilent i.toNat) :=
  congrArg Host.Outcome.next (if_pos (by simp [hon, hst, hen, hsil, hnew, hdue]))

/-! ### Received frames (R215) -/

/-- Switch `i` meets a frame of the rule that it names, whose decision stamp is `at_`. -/
def State.meetFrame (s : State) (f : AlarmFrame) (at_ i : Nat) : State :=
  let x := s.switch i
  let newer := match x.remoteSeq with
    | none => true
    | some q => serialNewer 16 f.seq.toNat q
  if newer then
    (s.setSwitch i { x with remoteSeq := some f.seq.toNat }).observe
      ⟨.remote i, [if f.state then 1 else 0], at_, f.fault, false, 0⟩
  else if f.repeated && x.remoteSeq = some f.seq.toNat then s.setSwitch i { x with quiet := 0, obs := true }
  else s

/-- `f` is newer than the frame that the switch has accepted last, if it has accepted one. -/
def Switch.Awaits (x : Switch) (f : AlarmFrame) : Prop :=
  ∀ q, x.remoteSeq = some q → serialNewer 16 f.seq.toNat q = true

section
variable {s : State} {f : AlarmFrame} {at_ i : Nat}

theorem meetFrame_newer (h : (s.switch i).Awaits f) : s.meetFrame f at_ i =
    (s.setSwitch i { s.switch i with remoteSeq := some f.seq.toNat }).observe
      ⟨.remote i, [if f.state then 1 else 0], at_, f.fault, false, 0⟩ := by
  refine if_pos ?_
  split
  case h_1 => rfl
  case h_2 q hlast => exact h q hlast

theorem meetFrame_not_newer (h : ¬(s.switch i).Awaits f) : s.meetFrame f at_ i =
    if f.repeated && (s.switch i).remoteSeq = some f.seq.toNat then
      s.setSwitch i { s.switch i with quiet := 0, obs := true }
    else s := by
  refine if_neg fun hnewer => h fun q hlast => ?_
  rwa [hlast] at hnewer

theorem meetFrame_repeat (h : ¬(s.switch i).Awaits f) (hrep : f.repeated = true)
    (hlast : (s.switch i).remoteSeq = some f.seq.toNat) :
    s.meetFrame f at_ i = s.setSwitch i { s.switch i with quiet := 0, obs := true } :=
  (meetFrame_not_newer h).trans (if_pos (by simp [hrep, hlast]))

theorem meetFrame_stale (h : ¬(s.switch i).Awaits f) (hrep : f.repeated = false) : s.meetFrame f at_ i = s :=
  (meetFrame_not_newer h).trans (if_neg (by simp [hrep]))

theorem exec_alarmFrameReceive_single (hon : s.almOn = true) (honly : s.switchesAt (s.frameStamp f) = [i])
    (hkind : bits (s.swAt i (s.frameStamp f) 0) 1 2 = 2)
    (horigin : bits (s.swAt i (s.frameStamp f) 1) 0 14 = f.origin.toNat)
    (hrule : bits (s.swAt i (s.frameStamp f) 1) 16 8 = f.rule.toNat) :
    exec (.alarmFrameReceive f) s = .next (s.meetFrame f (s.frameStamp f) i) := by
  refine congrArg Host.Outcome.next ((if_neg (by simp [hon])).trans ?_)
  rw [honly, List.filter_cons_of_pos (by simp [hkind, horigin, hrule])]
  rfl

end

/-! ### Acknowledgements (R206) -/

theorem ackWord_bits (rule : BitVec 8) :
    bit (BitVec.ofNat 32 rule.toNat) 31 = false ∧ bits (BitVec.ofNat 32 rule.toNat) 0 8 = rule.toNat := by
  have := rule.isLt
  rw [bit_ofNat _ (by decide), bits_ofNat]
  exact ⟨decide_eq_false (by omega), by omega⟩

theorem actAck_rule (s : State) (rule : BitVec 8) : s.actAck (BitVec.ofNat 32 rule.toNat) =
    (s.takeAllObs.ringAdd (.ack (BitVec.ofNat 32 rule.toNat) s.tim.time)).ackRule rule.toNat := by
  obtain ⟨hall, hrule⟩ := ackWord_bits rule
  rw [State.actAck, hall, hrule]
  rfl

section
variable {s u : State} {a : Acc}

theorem exec_almAck_passes {rule : BitVec 8}
    (h : s.Passes a (ra .alm 0 0x058) (BitVec.ofNat 32 rule.toNat) false u) : exec (.almAck a rule) s =
      .next ((u.takeAllObs.ringAdd (.ack (BitVec.ofNat 32 rule.toNat) u.tim.time)).ackRule rule.toNat) :=
  congrArg Host.Outcome.next ((guarded_passes h _).trans (actAck_rule u rule))

theorem exec_almAckAll_passes (h : s.Passes a (ra .alm 0 0x058) (bitW 31) false u) : exec (.almAckAll a) s =
    let w := u.takeAllObs.ringAdd (.ack (bitW 31) u.tim.time)
    .next (w.each w.rulesOn fun t r => t.ackRule r) :=
  congrArg Host.Outcome.next (guarded_passes h _)

theorem ackRule_ignored {r : Nat} (h : (s.rule r).state = false) : s.ackRule r = s :=
  if_neg (by simp [h])

theorem ackRule_taken {r : Nat} (h : (s.rule r).state = true) (hon : s.almOn = true) : s.ackRule r =
    (s.setRule r { s.rule r with acked := true }).voteRule r ⟨-1, 0, 0, s.tim.stamp, s.tim.stamp⟩ :=
  if_pos (by simp [h, hon])

end

/-! ### Drivers (R209, R210) -/

section
variable {s : State} {n : Fin 16}

theorem exec_foldBack_driven (hdriven : (s.almOut n.val).driven = true) (hfold : (s.almOut n.val).fold = false) :
    exec (.foldBack n) s =
      .next ((s.setAlmOut n.val { s.almOut n.val with fold := true }).stick .alm 0 (8 + n.val)) :=
  congrArg Host.Outcome.next (if_pos (by simp [hdriven, hfold]))

theorem exec_drvFail_high (hdriven : (s.almOut n.val).driven = true) (hfold : (s.almOut n.val).fold = false)
    (hlevel : (s.almOut n.val).level = true) :
    exec (.drvFail n) s = .next ((s.setAlmOut n.val { s.almOut n.val with drvFail := true }).stick .alm 0 24) :=
  congrArg Host.Outcome.next (if_pos (by simp [hdriven, hfold, hlevel]))

theorem exec_foldRetry_folded (hdriven : (s.almOut n.val).driven = true) (hfold : (s.almOut n.val).fold = true) :
    exec (.foldRetry n) s = .next (s.setAlmOut n.val { s.almOut n.val with testing := true }) :=
  congrArg Host.Outcome.next (if_pos (by simp [hdriven, hfold]))

theorem exec_foldTestEnd_testing (hdriven : (s.almOut n.val).driven = true) (hfold : (s.almOut n.val).fold = true)
    (htesting : (s.almOut n.val).testing = true) (limited : Bool) :
    exec (.foldTestEnd n limited) s =
      .next (s.setAlmOut n.val { s.almOut n.val with testing := false, fold := limited }) :=
  congrArg Host.Outcome.next (if_pos (by simp [hdriven, hfold, htesting]))

theorem exec_extLow_released (hdriven : (s.almOut n.val).driven = false) (hlevel : (s.almOut n.val).level = false) :
    exec (.extLow n) s = .next (s.setAlmOut n.val { s.almOut n.val with extLow := true }) :=
  congrArg Host.Outcome.next (if_neg (by simp [hdriven, hlevel]))

end

/-- A pin that reads high is not held low from outside; one that reads low under drive does not fail. -/
theorem exec_almPinLevelChange (s : State) (n : Fin 16) (high : Bool) :
    exec (.almPinLevelChange n high) s = .next (s.setAlmOut n.val
      { s.almOut n.val with
        level := high
        extLow := (s.almOut n.val).extLow && !high
        drvFail := (s.almOut n.val).drvFail && !((s.almOut n.val).driven && !high) }) := by
  refine congrArg (fun v : AlmOut => Host.Outcome.next (s.setAlmOut n.val v)) ?_
  cases high <;> cases hdriven : (s.almOut n.val).driven <;> simp [hdriven]

/-! ### Frames sent (R214) -/

section
variable {s : State}

theorem exec_alarmFrameRepeat_due (hon : s.almOn = true) (hdue : s.alm.repeatDue = true) :
    exec .alarmFrameRepeat s = .next (State.sendAlarms { s with alm := { s.alm with repeatDue := false } } true) :=
  congrArg Host.Outcome.next (if_pos (by simp [hon, hdue]))

theorem exec_alarmFrameOnAddress_due (hon : s.almOn = true) (hdue : s.alm.onAddr = true)
    (haddr : s.fab.addr.isSome = true) (hms : s.atMilestone = true) :
    exec .alarmFrameOnAddress s = .next (State.sendAlarms { s with alm := { s.alm with onAddr := false } } false) :=
  congrArg Host.Outcome.next (if_pos (by simp [hon, hdue, haddr, hms]))

end

/-- Settles O30: an observation by how many switches it reaches, a frame by whether it is newer than the one accepted
last, an acknowledgement by the STATE that it meets, and every other command where its condition holds. -/
theorem observationsAndAlarmOutputs : Obligations.ObservationsAndAlarmOutputs := by
  unfold Obligations.ObservationsAndAlarmOutputs
  refine ⟨⟨fun s o rest hobs hdeep hoff => ?_, fun s i hon hst => ?_, fun s f i hon => ?_⟩,
    ⟨fun s u a rule hpass => ?_, fun s u a => exec_almAckAll_passes, fun s n => ?_, fun s hon => ?_⟩⟩
  · refine ⟨fun h => congrArg Host.Outcome.next (takeObs_unseen hobs hdeep hoff h), fun i hon honly => ?_⟩
    have htake : exec .observation s = .next ((s.popObs o rest).deliverObs o i) :=
      congrArg Host.Outcome.next (takeObs_single hobs hdeep hoff hon honly)
    exact ⟨fun hnone => htake.trans (congrArg Host.Outcome.next (deliverObs_none ((obsFor_popObs ..).trans hnone))),
      fun v f hsome => htake.trans (congrArg Host.Outcome.next (deliverObs_some ((obsFor_popObs ..).trans hsome)))⟩
  · intro w x hen hsil hnew hdue
    exact (exec_switchSilent_due hon hst hen hsil hnew hdue).trans (congrArg Host.Outcome.next (goSilent_ringAdd ..))
  · intro at_ honly hkind horigin hrule x newer
    have hmeet : exec (.alarmFrameReceive f) s = .next (s.meetFrame f at_ i) :=
      exec_alarmFrameReceive_single hon honly hkind horigin hrule
    exact ⟨fun hnewer => hmeet.trans (congrArg Host.Outcome.next (meetFrame_newer hnewer)),
      fun hold hrep hlast => hmeet.trans (congrArg Host.Outcome.next (meetFrame_repeat hold hrep hlast)),
      fun hold hrep => hmeet.trans (congrArg Host.Outcome.next (meetFrame_stale hold hrep))⟩
  · exact ⟨fun hoff => (exec_almAck_passes hpass).trans (congrArg Host.Outcome.next (ackRule_ignored hoff)),
      fun hstate hon => (exec_almAck_passes hpass).trans (congrArg Host.Outcome.next (ackRule_taken hstate hon))⟩
  · exact ⟨exec_foldBack_driven, exec_drvFail_high,
      fun hdriven hfold => ⟨exec_foldRetry_folded hdriven hfold, exec_foldTestEnd_testing hdriven hfold⟩,
      exec_extLow_released, exec_almPinLevelChange s n⟩
  · exact ⟨exec_alarmFrameRepeat_due hon, exec_alarmFrameOnAddress_due hon⟩

end Sys2Proof.Machine
end

section
/-! SUPPORT. Proofs of the statements of the state after reset and of the time that passes without a command (R14, R219 to
R221). -/

namespace Sys2Proof.Machine
open Sys2Proof

/-! ### The state after reset -/

theorem keeps_reset : State.reset.Keeps [] := ⟨rfl, rfl⟩

theorem reg_reset (a : Nat) : State.reset.reg a = regReset a := rfl

/-- Settles O3: the register space after reset lists no word, so every register reads its reset value. -/
theorem resetHoldsTheForm : Obligations.ResetHoldsTheForm :=
  ⟨keeps_reset, reg_reset, rfl, rfl, rfl, rfl⟩

/-! ### CKR cycles (R14, R221) -/

/-- `t` differs from `s` at most in what time alone moves: fabric time with its cycles, a slew, a servo correction, and the
fabric's ports. -/
def State.OnlyPasses (s t : State) : Prop :=
  t = { s with tim := { s.tim with time := t.tim.time, slew := t.tim.slew, fix := t.tim.fix, ckr := t.tim.ckr }
               fab := { s.fab with ports := t.fab.ports } }

theorem time_lt_next (t : Tim) : t.time < t.next := by
  rw [Tim.next, Nat.mul_comm]
  exact Nat.lt_mul_div_succ t.time (by decide)

theorem time_advance_lt_next (t : Tim) (n : Nat) : (t.advance n).time < t.next :=
  Nat.lt_of_le_of_lt (Nat.min_le_right ..) (Nat.sub_one_lt_of_lt (time_lt_next t))

theorem elapse_uncounted {s : State} (n : Nat) (h : s.tim.locked = false ∨ s.pwr.counts = false) : s.elapse n = s :=
  if_neg (by simpa using fun hlock => h.resolve_left (ne_false_of_eq_true hlock))

theorem onlyPasses_elapse (s : State) (n : Nat) : s.OnlyPasses (s.elapse n) := by
  unfold State.elapse
  split <;> rfl

theorem time_elapse_lt_next (s : State) (n : Nat) : (s.elapse n).tim.time < s.tim.next := by
  unfold State.elapse
  split
  case isTrue => exact time_advance_lt_next s.tim n
  case isFalse => exact time_lt_next s.tim

theorem onlyPasses_idle (s : State) : s.OnlyPasses s.idle := by
  unfold State.idle
  split
  case isTrue => rfl
  case isFalse => exact onlyPasses_elapse s 1

theorem step_of_no_command {s : State} (h : s.pending = []) : step s = .next s.idle := by
  rw [step, h]

/-- Settles O2: an idle step is a cycle of the clock, and cycles move what time alone moves, up to the next milestone. -/
theorem idleStepPassesCyclesBelowTheMilestone : Obligations.IdleStepPassesCyclesBelowTheMilestone := by
  unfold Obligations.IdleStepPassesCyclesBelowTheMilestone
  refine ⟨fun s h => ⟨s.idle, step_of_no_command h, onlyPasses_idle s⟩, fun s n => ?_⟩
  have hpass := onlyPasses_elapse s n
  refine ⟨time_elapse_lt_next s n, ?_, ?_, ?_, elapse_uncounted n⟩ <;> rw [hpass]

end Sys2Proof.Machine
end

section
/-! SUPPORT. Proof of the statement of reading time (R222, R223): the time shadow of a requester. -/

namespace Sys2Proof.Machine
open Sys2Proof

/-! ### The shadow of a requester -/

/-- The requester's shadow no longer holds a snap that its next read returns (R223). -/
def State.useSnap (s : State) (req : Nat) : State :=
  { s with acc := { s.acc with shadows := s.acc.shadows.map fun (y : TimeShadow) =>
    if y.req = req then { y with fresh := false } else y } }

section
variable {s : State} {req r : Nat} {x : TimeShadow}

theorem req_of_shadow (h : s.shadow r = some x) : x.req = r := by
  simpa using List.find?_some h

theorem shadow_answerWith (s : State) (y : Answer) (r : Nat) : (s.answerWith y).shadow r = s.shadow r := rfl

theorem shadow_loadShadow_same (s : State) (req : Nat) (fresh : Bool) : (s.loadShadow req fresh).shadow req =
    some ⟨req, s.tim.time, BitVec.ofNat 32 s.tim.msNum, fresh⟩ := by
  simp [State.shadow, State.loadShadow, List.find?_eq_none.mpr]

theorem shadow_loadShadow_other (s : State) (fresh : Bool) (h : r ≠ req) :
    (s.loadShadow req fresh).shadow r = s.shadow r := by
  have hkept : ∀ y : TimeShadow, (!decide (y.req = req) && decide (y.req = r)) = decide (y.req = r) := by
    intro y
    by_cases hy : y.req = r <;> simp [hy, h]
  simp [State.shadow, State.loadShadow, hkept, h.symm]

theorem shadow_useSnap (s : State) (req r : Nat) : (s.useSnap req).shadow r =
    (s.shadow r).map fun y => if y.req = req then { y with fresh := false } else y := by
  have hreq : ∀ y : TimeShadow, (if y.req = req then { y with fresh := false } else y).req = y.req := by
    intro y
    split <;> rfl
  simp only [State.shadow, State.useSnap, List.find?_map, Function.comp_def, hreq]

theorem shadow_useSnap_same (h : s.shadow req = some x) :
    (s.useSnap req).shadow req = some { x with fresh := false } := by
  rw [shadow_useSnap, h, Option.map_some, if_pos (req_of_shadow h)]

theorem shadow_useSnap_other (s : State) (h : r ≠ req) : (s.useSnap req).shadow r = s.shadow r := by
  rw [shadow_useSnap]
  cases hx : s.shadow r with
  | none => rfl
  | some y => rw [Option.map_some, if_neg (req_of_shadow hx ▸ h)]

/-! ### TIM_FRAC_LO (R222) -/

theorem readFracLo_fresh (h : s.shadow req = some x) (hfresh : x.fresh = true) :
    s.readFracLo req = (s.useSnap req).answerWith (.data (BitVec.ofNat 32 x.time)) := by
  simp only [State.readFracLo, h, hfresh, if_true]
  rfl

theorem readFracLo_latches (h : ∀ x, s.shadow req = some x → x.fresh = false) :
    s.readFracLo req = (s.loadShadow req false).answerWith (.data (BitVec.ofNat 32 s.tim.time)) := by
  unfold State.readFracLo
  split
  case h_1 x hx => exact if_neg (by simp [h x hx])
  case h_2 => rfl

end

/-! ### TIM_SNAP (R223) -/

theorem actSnap_one (s : State) (req : Nat) : s.actSnap req 1 = s.loadShadow req true :=
  if_pos (by decide)

theorem exec_timSnap_passes {s u : State} {a : Acc} (h : s.Passes a (ra .tim 0 0x050) 1 false u) :
    exec (.timSnap a) s = .next (u.loadShadow a.req.toNat true) :=
  congrArg Host.Outcome.next ((guarded_passes h fun t v => t.actSnap a.req.toNat v).trans (actSnap_one ..))

theorem exec_timFracLoRead_reads {s : State} {a : Acc} (h : s.Reads a (ra .tim 0 0x040)) :
    exec (.timFracLoRead a) s = .next ((s.accept a).readFracLo a.req.toNat) :=
  congrArg Host.Outcome.next (guardedRead_reads h _)

/-- Settles O25: TIM_SNAP loads the shadow; a read either finds a snap that no read has returned yet, or latches. -/
theorem snapLoadsTheShadowAtOnce : Obligations.SnapLoadsTheShadowAtOnce := by
  unfold Obligations.SnapLoadsTheShadowAtOnce
  refine ⟨fun s u a h => ⟨_, exec_timSnap_passes h, rfl, shadow_loadShadow_same u _ true,
    fun r => shadow_loadShadow_other u true⟩, fun s a h => ?_⟩
  intro u req
  refine ⟨u.readFracLo req, exec_timFracLoRead_reads h, ?_⟩
  by_cases hsnap : ∃ x, u.shadow req = some x ∧ x.fresh = true
  · obtain ⟨x, hx, hfresh⟩ := hsnap
    rw [readFracLo_fresh hx hfresh]
    simp only [shadow_answerWith]
    refine ⟨rfl, fun r => shadow_useSnap_other u, fun y hy _ => ?_, fun hnone => ?_⟩
    · obtain rfl : x = y := Option.some.inj (hx.symm.trans hy)
      exact ⟨rfl, shadow_useSnap_same hx⟩
    · exact absurd (hnone x hx) (ne_false_of_eq_true hfresh)
  · have hold : ∀ x, u.shadow req = some x → x.fresh = false := fun x hx =>
      Bool.eq_false_iff.mpr fun hfresh => hsnap ⟨x, hx, hfresh⟩
    rw [readFracLo_latches hold]
    simp only [shadow_answerWith]
    exact ⟨rfl, fun r => shadow_loadShadow_other u false, fun x hx hfresh => absurd ⟨x, hx, hfresh⟩ hsnap,
      fun _ => ⟨rfl, shadow_loadShadow_same u req false⟩⟩

end Sys2Proof.Machine
end

section
/-! SUPPORT. Proof of the statement of TIM_INC and of the adjustments of fabric time (R224 to R230). -/

namespace Sys2Proof.Machine
open Sys2Proof

/-! ### TIM_INC (R43, R224) -/

theorem member_eq_false_iff (t : Tim) : t.member = false ↔ t.st ≠ .locked ∧ t.st ≠ .holdover := by
  simp [Tim.member]

/-- A value of TIM_INC that this device takes: one within 244 ppm of nominal, on no member of an island. -/
def Tim.TakesInc (t : Tim) (v : Nat) : Prop :=
  2 ^ 33 - 2 ^ 21 ≤ v ∧ v ≤ 2 ^ 33 + 2 ^ 21 ∧ t.st ≠ .locked ∧ t.st ≠ .holdover

section
variable {s u : State} {a : Acc} {v due : Nat}

theorem setInc_taken (h : u.tim.TakesInc v) :
    u.setInc v due = { u with tim := { u.tim with incNext := u.tim.incNext ++ [(v, due)] } } := by
  obtain ⟨hlow, hhigh, hfree⟩ := h
  exact if_pos ⟨hlow, hhigh, by simp [(member_eq_false_iff u.tim).mpr hfree]⟩

theorem setInc_refused (h : ¬u.tim.TakesInc v) : u.setInc v due = u.stick .tim 0 13 :=
  if_neg fun ⟨hlow, hhigh, hfree⟩ => h ⟨hlow, hhigh, (member_eq_false_iff u.tim).mp (by simpa using hfree)⟩

theorem actIncHigh_eq (u : State) (req : Nat) (hi : Word) (due : Nat) : u.actIncHigh req hi due =
    (u.dropLow req (ra .tim 0 0x060)).setInc
      (hi.toNat * 2 ^ 32 + ((u.heldLow req (ra .tim 0 0x060)).map (·.toNat)).getD (u.tim.inc % 2 ^ 32)) due := by
  unfold State.actIncHigh
  cases u.heldLow req (ra .tim 0 0x060) <;> rfl

theorem exec_timIncWrite_passes {hi : Word} (h : s.Passes a (ra .tim 0 0x064) hi false u) :
    exec (.timIncWrite a hi) s = .next (u.actIncHigh a.req.toNat hi u.tim.due) := by
  refine congrArg Host.Outcome.next ?_
  rw [h]

end

/-! ### What TIM_ADJ_CTL holds for a request (R225) -/

/-- TIM_ADJ_CTL of a request: GO, with a mode, for the next milestone or for TIM_ADJ_TGT, at a rate. -/
def adjWord (mode : Nat) (next : Bool) (rate : Nat) : Word :=
  BitVec.ofNat 32 (8 + mode + (if next then 4 else 0) + rate * 65536)

section
variable {mode rate : Nat} {next : Bool}

theorem adjWord_mode (hmode : mode < 3) : bits (adjWord mode next rate) 0 2 = mode := by
  rw [adjWord, bits_ofNat, ite_eq_toNat_mul]
  omega

theorem adjWord_rate (hmode : mode < 3) (hrate : rate < 65536) : bits (adjWord mode next rate) 16 16 = rate := by
  have hnext := next.toNat_le
  rw [adjWord, bits_ofNat, ite_eq_toNat_mul]
  omega

theorem adjWord_next (hmode : mode < 3) : bit (adjWord mode next rate) 2 = next := by
  rw [adjWord, bit_ofNat _ (by decide)]
  cases next <;> simp <;> omega

theorem adjWord_go (hmode : mode < 3) : bit (adjWord mode next rate) 3 = true := by
  have hnext := next.toNat_le
  rw [adjWord, bit_ofNat _ (by decide), ite_eq_toNat_mul, decide_eq_true_eq]
  omega

theorem adjWord_cancel (hmode : mode < 3) : bit (adjWord mode next rate) 4 = false := by
  have hnext := next.toNat_le
  rw [adjWord, bit_ofNat _ (by decide), ite_eq_toNat_mul, decide_eq_false_iff_not]
  omega

end

/-! ### Requests that are taken and refused (R225, R227, R228) -/

/-- The milestone that TIM_ADJ_TGT names. -/
def State.adjTarget (s : State) : Nat := (s.reg (ra .tim 0 0x070)).toNat

/-- A request comes in time: it is for the next milestone, or for a target that is ahead and, in the verge, is not the
coming milestone. -/
def State.AdjTimely (s : State) (next : Bool) : Prop :=
  next = true ∨ (s.tim.ahead s.adjTarget = true ∧ (s.tim.verge = true → s.adjTarget ≠ (s.tim.msNum + 1) % 2 ^ 32))

/-- What a request of a mode must hold: a slew a rate and an offset below 1 s, a set no low bits. -/
def State.AdjFits (s : State) (mode rate : Nat) : Prop :=
  (mode = 1 → rate ≠ 0 ∧ s.adjOfs.natAbs < 2 ^ 32) ∧ (mode = 2 → s.fld (ra .tim 0 0x068) 0 22 = 0)

/-- The device takes a request. -/
def State.TakesAdj (s : State) (mode : Nat) (next : Bool) (rate : Nat) : Prop :=
  (s.tim.adj = none ∧ s.tim.member = false) ∧ s.AdjTimely next ∧ s.AdjFits mode rate

/-- The adjustment that a request asks for. -/
def State.askedAdj (s : State) (mode : Nat) (next : Bool) (rate : Nat) : Adj :=
  { mode := mode, offset := s.adjOfs, setTime := s.adjSetTime, rate := rate,
    target := if next then none else some s.adjTarget, due := s.tim.due, late := false, heal := false }

/-- The request waits for its milestone. -/
def State.takeAdj (s : State) (mode : Nat) (next : Bool) (rate : Nat) : State :=
  { s with tim := { s.tim with adj := some (s.askedAdj mode next rate) } }

section
variable {u : State} {mode rate : Nat} {next : Bool}

/-- What stands against a request, in the order of the checks. -/
theorem actAdjCtl_request (hmode : mode < 3) (hrate : rate < 65536) : u.actAdjCtl (adjWord mode next rate) u.tim.due =
    if mode = 3 ∨ (mode = 2 ∧ u.fld (ra .tim 0 0x068) 0 22 ≠ 0) then u.stick .tim 0 9
    else if mode = 1 ∧ (u.adjOfs.natAbs ≥ 2 ^ 32 ∨ rate = 0) then u.stick .tim 0 9
    else if u.tim.adj.isSome ∨ u.tim.member then u.stick .tim 0 9
    else if !next ∧ (!u.tim.ahead u.adjTarget ∨ (u.tim.verge ∧ u.adjTarget = (u.tim.msNum + 1) % 2 ^ 32)) then
      u.stick .tim 0 9
    else u.takeAdj mode next rate := by
  unfold State.actAdjCtl
  simp only [adjWord_mode hmode, adjWord_rate hmode hrate, adjWord_next hmode, adjWord_go hmode, adjWord_cancel hmode,
    Bool.and_false, Bool.not_true, Bool.false_eq_true, if_false]
  rfl

theorem actAdjCtl_taken (hmode : mode < 3) (hrate : rate < 65536) (h : u.TakesAdj mode next rate) :
    u.actAdjCtl (adjWord mode next rate) u.tim.due = u.takeAdj mode next rate := by
  obtain ⟨⟨hnone, hfree⟩, htimely, hslew, hset⟩ := h
  rw [actAdjCtl_request hmode hrate, if_neg, if_neg, if_neg, if_neg]
  · rintro ⟨hnext, hlate⟩
    obtain hnow | ⟨hahead, hverge⟩ := htimely
    · simp [hnow] at hnext
    · obtain hpast | ⟨hv, hcoming⟩ := hlate
      · simp [hahead] at hpast
      · exact hverge hv hcoming
  · simp [hnone, hfree]
  · rintro ⟨hone, hbad⟩
    obtain ⟨hrun, hsmall⟩ := hslew hone
    exact hbad.elim (Nat.not_le.mpr hsmall) hrun
  · rintro (hthree | ⟨htwo, hlow⟩)
    · omega
    · exact hlow (hset htwo)

theorem actAdjCtl_refused (hmode : mode < 3) (hrate : rate < 65536) (h : ¬u.TakesAdj mode next rate) :
    u.actAdjCtl (adjWord mode next rate) u.tim.due = u.stick .tim 0 9 := by
  rw [actAdjCtl_request hmode hrate]
  split_ifs with hset hslew hfree htimely
  iterate 4 rfl
  refine absurd ⟨⟨?_, ?_⟩, ?_, fun hone => ?_, fun htwo => ?_⟩ h
  · simpa using fun hsome => hfree (.inl hsome)
  · simpa using fun hmember => hfree (.inr hmember)
  · simpa [State.AdjTimely, or_iff_not_imp_left] using htimely
  · simpa [hone, and_comm] using hslew
  · simpa [htwo] using hset

end

/-! ### The commands (R225) -/

section
variable {u : State} {rate : Nat}

theorem adjFits_step : u.AdjFits 0 rate ↔ True := by simp [State.AdjFits]

theorem adjFits_slew {rate : BitVec 16} : u.AdjFits 1 rate.toNat ↔ rate ≠ 0 ∧ u.adjOfs.natAbs < 2 ^ 32 := by
  simp [State.AdjFits, BitVec.toNat_eq]

theorem adjFits_set : u.AdjFits 2 rate ↔ u.fld (ra .tim 0 0x068) 0 22 = 0 := by simp [State.AdjFits]

/-- A request is taken where it `fits`, and refused elsewhere. -/
theorem next_taken_or_refused {mode : Nat} {next : Bool} {fits : Prop} {o : Out} (hmode : mode < 3) (hrate : rate < 65536)
    (ho : o = .next (u.actAdjCtl (adjWord mode next rate) u.tim.due)) (hfits : u.TakesAdj mode next rate ↔ fits) :
    (fits → o = .next (u.takeAdj mode next rate)) ∧ (¬fits → o = .next (u.stick .tim 0 9)) := by
  subst ho
  rw [← hfits]
  exact ⟨fun h => congrArg Host.Outcome.next (actAdjCtl_taken hmode hrate h),
    fun h => congrArg Host.Outcome.next (actAdjCtl_refused hmode hrate h)⟩

end

section
variable {s u : State} {a : Acc} {next : Bool}

theorem exec_adjStep_passes (h : s.Passes a (ra .tim 0 0x074) (adjWord 0 next 0) false u) :
    exec (.adjStep a next) s = .next (u.actAdjCtl (adjWord 0 next 0) u.tim.due) := by
  have hword : (if next then 12 else 8) = adjWord 0 next 0 := by cases next <;> rfl
  exact congrArg Host.Outcome.next (hword ▸ guarded_passes h _)

theorem exec_adjSlew_passes {rate : BitVec 16} (h : s.Passes a (ra .tim 0 0x074) (adjWord 1 next rate.toNat) false u) :
    exec (.adjSlew a next rate) s = .next (u.actAdjCtl (adjWord 1 next rate.toNat) u.tim.due) := by
  have hword : BitVec.ofNat 32 ((if next then 13 else 9) + rate.toNat * 65536) = adjWord 1 next rate.toNat := by
    cases next <;> rfl
  exact congrArg Host.Outcome.next (hword ▸ guarded_passes h _)

theorem exec_adjSet_passes (h : s.Passes a (ra .tim 0 0x074) (adjWord 2 next 0) false u) :
    exec (.adjSet a next) s = .next (u.actAdjCtl (adjWord 2 next 0) u.tim.due) := by
  have hword : (if next then 14 else 10) = adjWord 2 next 0 := by cases next <;> rfl
  exact congrArg Host.Outcome.next (hword ▸ guarded_passes h _)

theorem actAdjCtl_cancel (u : State) (due : Nat) :
    u.actAdjCtl 16 due = { u with tim := { u.tim with adj := none } } := rfl

theorem exec_adjCancel_passes (h : s.Passes a (ra .tim 0 0x074) 16 false u) :
    exec (.adjCancel a) s = .next { u with tim := { u.tim with adj := none } } :=
  congrArg Host.Outcome.next ((guarded_passes h fun t v => t.actAdjCtl v t.tim.due).trans (actAdjCtl_cancel ..))

end

/-- Settles O26: a value of TIM_INC by whether the device takes it, and each request of TIM_ADJ_CTL by whether it fits. -/
theorem frequencyAndAdjustmentRequests : Obligations.FrequencyAndAdjustmentRequests := by
  unfold Obligations.FrequencyAndAdjustmentRequests
  refine ⟨fun s u a hi h => ?_, fun s u a next rate => ?_⟩
  · intro lo v d good
    rw [exec_timIncWrite_passes h, actIncHigh_eq]
    exact ⟨fun hgood => congrArg Host.Outcome.next (setInc_taken hgood),
      fun hbad => congrArg Host.Outcome.next (setInc_refused hbad)⟩
  · intro ctl target free timely taken n
    have hfits : ∀ {mode r : Nat} {p : Prop}, (u.AdjFits mode r ↔ p) → (u.TakesAdj mode next r ↔ free ∧ timely ∧ p) :=
      fun hp => and_congr Iff.rfl (and_congr Iff.rfl hp)
    refine ⟨fun h => ?_, fun h => ?_, fun h => ?_, exec_adjCancel_passes⟩
    · exact next_taken_or_refused (by decide) (by decide) (exec_adjStep_passes h)
        ((hfits adjFits_step).trans (by rw [and_true]))
    · exact next_taken_or_refused (by decide) rate.isLt (exec_adjSlew_passes h) (hfits adjFits_slew)
    · exact next_taken_or_refused (by decide) (by decide) (exec_adjSet_passes h) (hfits adjFits_set)

end Sys2Proof.Machine
end

section
/-! SUPPORT. Proof of the statement of TIN, the end of a slew, the lock of the PLL, the milestone latch, software waymarks
and TOUT (R221, R228, R231, R238 to R241, R421). -/

namespace Sys2Proof.Machine
open Sys2Proof

/-! ### TIN (R231) -/

/-- The edge of TIN that comes now is within 0.5 s of the last accepted one. -/
def Tim.Early (t : Tim) : Prop := t.tinAny = true ∧ (t.time : Int) - t.tinAt < 2 ^ 63

/-- The edge of TIN that comes now is captured and counted, and the latched pair has a newer value. -/
def State.captureTin (s : State) : State :=
  State.renew { s with tim := { s.tim with tinAny := true, tinAt := s.tim.time, tinLost := false, tinTime := s.tim.time,
                                           edges := (s.tim.edges + 1) % 65536 } } (ra .tim 0 0x080)

/-- TIN is lost: its sticky bit is set and GNSS is cleared. -/
def State.loseTin (s : State) : State :=
  (State.stick { s with tim := { s.tim with tinLost := true } } .tim 0 8).setFld (ra .tim 0 0x05C) 0 1 0

section
variable {s : State} {dt : Nat}

theorem exec_tinEdge_early (hlock : (s.elapse dt).tim.locked = true) (hclk : (s.elapse dt).pwr.clocked = true)
    (h : (s.elapse dt).tim.Early) : exec (.tinEdge dt) s =
      .next { s.elapse dt with
        tim := { (s.elapse dt).tim with glitches := ((s.elapse dt).tim.glitches + 1) % 65536 } } := by
  obtain ⟨hany, hnear⟩ := h
  exact congrArg Host.Outcome.next ((if_neg (by simp [hlock, hclk])).trans (if_pos (by simpa [hany] using hnear)))

theorem exec_tinEdge_accepted (hlock : (s.elapse dt).tim.locked = true) (hclk : (s.elapse dt).pwr.clocked = true)
    (h : ¬(s.elapse dt).tim.Early) : exec (.tinEdge dt) s =
      .next (if (s.elapse dt).tim.tinLost then (s.elapse dt).captureTin.waymark 0x07 [1]
        else (s.elapse dt).captureTin) :=
  congrArg Host.Outcome.next ((if_neg (by simp [hlock, hclk])).trans (if_neg (by simpa [Tim.Early] using h)))

theorem exec_tinLost_due (hlock : s.tim.locked = true) (hclk : s.pwr.clocked = true) (hnew : s.tim.tinLost = false)
    (hdue : 3 * 2 ^ 63 ≤ (s.tim.time : Int) - s.tim.tinAt) : exec .tinLost s = .next (s.loseTin.waymark 0x07 [0]) :=
  congrArg Host.Outcome.next (if_pos (by simpa [hlock, hclk, hnew] using hdue))

theorem flag_setFld_zero (s : State) (a n : Nat) (h : n < 32) : (s.setFld a n 1 0).flag a n = false := by
  have hbit := testBit_bits ((s.setFld a n 1 0).reg a) n 1 0
  rw [reg_setFld_same, bits_setBits_same _ _ (by omega)] at hbit
  rw [State.flag, reg_setFld_same, bit]
  simpa using hbit.symm

theorem flag_loseTin_sticky (s : State) : s.loseTin.flag (ra .tim 0 0x010) 8 = true := by
  rw [State.loseTin, State.setFld, State.flag, reg_setReg, if_neg (ra_ne_of_offset_ne .tim 0 (by decide))]
  exact flag_stick_same _ .tim 0 8 (by decide)

theorem flag_loseTin_gnss (s : State) : s.loseTin.flag (ra .tim 0 0x05C) 0 = false :=
  flag_setFld_zero _ _ 0 (by decide)

end

/-! ### The end of a slew (R228, R229) -/

theorem divOpen_zero (d : Int) : divOpen 0 d = 0 := by simp [divOpen]

theorem discardSlew_spent {s : State} (hon : s.tim.slewOn = true) (hspent : s.tim.slew = 0) :
    s.discardSlew = State.waymark { s with tim := { s.tim with slew := 0, slewOn := false } } 0x03 [0] := by
  have hrem : sat32 (divOpen s.tim.slew (2 ^ 32)) = 0 := by
    rw [hspent, divOpen_zero]
    decide
  rw [State.discardSlew, if_pos hon, hrem]

theorem exec_slewEnd_spent {s : State} (hon : s.tim.slewOn = true) (hspent : s.tim.slew = 0) : exec .slewEnd s =
    .next (State.waymark { s with tim := { s.tim with slew := 0, slewOn := false } } 0x03 [0]) :=
  congrArg Host.Outcome.next ((if_pos (by simp [hon, hspent])).trans (discardSlew_spent hon hspent))

/-! ### The PLL, the milestone latch, software waymarks (R221, R238, R241) -/

section
variable {s : State}

theorem exec_pllLock_cold (hnew : s.tim.locked = false) (hdeep : s.pwr.st ≠ .deepSleep) (hoff : s.pwr.st ≠ .off) :
    exec .pllLock s = .next { s with tim := { s.tim with locked := true, time := 0, ckr := 0, msNum := 0 } } :=
  congrArg Host.Outcome.next
    ((if_neg (ne_true_of_eq_false hnew)).trans ((if_neg hdeep).trans (if_neg hoff)))

theorem exec_pllLock_wake (hnew : s.tim.locked = false) (hdeep : s.pwr.st = .deepSleep) (hwake : s.pwr.waking = true) :
    exec .pllLock s = .next { s with tim := { s.tim with locked := true, ckr := 0 } } :=
  congrArg Host.Outcome.next
    ((if_neg (ne_true_of_eq_false hnew)).trans ((if_pos hdeep).trans (if_pos hwake)))

theorem exec_msiLatch_active {dt : Nat}
    (h : (((s.elapse dt).source 16).st = .active ∨ ((s.elapse dt).source 16).st = .activePending) ∧
      ((s.elapse dt).source 16).target < 8) : exec (.msiLatch dt) s =
      .next (State.renew { s.elapse dt with tim := { (s.elapse dt).tim with
        msiInst := (s.elapse dt).tim.time, msiMs := BitVec.ofNat 32 (s.elapse dt).tim.msNum } } (ra .tim 0 0x098)) :=
  congrArg Host.Outcome.next (if_pos h)

theorem exec_timWmark_passes {u : State} {a : Acc} {code : Word} (h : s.Passes a (ra .tim 0 0x0A0) code false u) :
    exec (.timWmark a code) s = .next (u.waymark 0x09 [code.toNat]) :=
  congrArg Host.Outcome.next (guarded_passes h _)

end

/-! ### TOUT (R239, R421) -/

/-- How far the time lies behind the last of the edges at `ofs` plus whole periods. -/
def sinceEdge (time ofs period : Nat) : Nat := (time + period - ofs % period) % period

theorem sinceEdge_lt {period : Nat} (time ofs : Nat) (hp : 0 < period) : sinceEdge time ofs period < period :=
  Nat.mod_lt _ hp

theorem sinceEdge_eq_emod {period : Nat} (time ofs : Nat) (hp : 0 < period) :
    (sinceEdge time ofs period : Int) = ((time : Int) - ofs) % period := by
  have hle : ofs % period ≤ time + period := (Nat.mod_lt ofs hp).le.trans (Nat.le_add_left ..)
  have hofs : (time : Int) + period - ofs % period = time - ofs + period * (1 + ofs / period) := by
    linear_combination -Int.emod_add_mul_ediv (ofs : Int) period
  rw [sinceEdge, Int.natCast_emod, Nat.cast_sub hle, Nat.cast_add, Int.natCast_emod, hofs, Int.add_mul_emod_self_left]

/-- The edge before `time` that is less than a period away is the last one. -/
theorem sinceEdge_of_edge {time ofs period : Nat} {q : Int} (hle : q * period + ofs ≤ time)
    (hlt : (time : Int) < q * period + ofs + period) : (sinceEdge time ofs period : Int) = time - (q * period + ofs) := by
  have hp : 0 < period := by omega
  have hsplit : (time : Int) - ofs = time - (q * period + ofs) + q * period := by ring
  rw [sinceEdge_eq_emod time ofs hp, hsplit, Int.add_mul_emod_self_right]
  exact Int.emod_eq_of_lt (by omega) (by omega)

theorem exists_lastEdge {period : Nat} (time ofs : Nat) (hp : 0 < period) :
    ∃ q : Int, q * period + ofs = (time : Int) - sinceEdge time ofs period := by
  refine ⟨((time : Int) - ofs) / period, ?_⟩
  rw [sinceEdge_eq_emod time ofs hp]
  linear_combination Int.emod_add_mul_ediv ((time : Int) - ofs) period

/-- The time lies in the interval of an edge that counts exactly where it does so behind the last edge. -/
theorem exists_edge_iff {time ofs period width since : Nat} {high : Prop} (hp : 0 < period) :
    (∃ q : Int, q * period + ofs ≤ time ∧ (time : Int) < q * period + ofs + min (width : Int) period ∧
      (high ∨ (since : Int) ≤ q * period + ofs)) ↔
    sinceEdge time ofs period < width ∧ (high ∨ since + sinceEdge time ofs period ≤ time) := by
  constructor
  · rintro ⟨q, hle, hlt, hedge⟩
    have hlast : (sinceEdge time ofs period : Int) = time - (q * period + ofs) := sinceEdge_of_edge hle (by omega)
    exact ⟨by omega, hedge.imp_right fun h => by omega⟩
  · rintro ⟨hin, hedge⟩
    obtain ⟨q, hq⟩ := exists_lastEdge time ofs hp
    have hnear := sinceEdge_lt time ofs hp
    exact ⟨q, by omega, by omega, hedge.imp_right fun h => by omega⟩

theorem toutLevel_iff (s : State) : s.toutLevel = true ↔
    s.flag (ra .tim 0 0x088) 0 = true ∧ s.tim.locked = true ∧ s.pwr.clocked = true ∧
      sinceEdge s.tim.time (s.fld (ra .tim 0 0x08C) 0 28 * 2 ^ 36) (2 ^ (64 - s.fld (ra .tim 0 0x088) 1 5)) <
        s.fld (ra .tim 0 0x088) 8 20 * 2 ^ 40 ∧
      (s.tim.touts = true ∨ s.tim.toutFrom + sinceEdge s.tim.time (s.fld (ra .tim 0 0x08C) 0 28 * 2 ^ 36)
        (2 ^ (64 - s.fld (ra .tim 0 0x088) 1 5)) ≤ s.tim.time) := by
  rw [sinceEdge, State.toutLevel]
  simp only [Bool.and_eq_true, Bool.or_eq_true, decide_eq_true_eq, and_assoc]

/-- Settles O27: each command where its condition holds, an edge of TIN by how near the last one is, and the level of TOUT
by how far the time lies behind its last edge. -/
theorem pulseInputClockAndOutput : Obligations.PulseInputClockAndOutput := by
  unfold Obligations.PulseInputClockAndOutput
  refine ⟨⟨fun s dt => ?_, fun s hlock hclk hnew hdue => ?_, fun s => exec_slewEnd_spent⟩,
    fun s hnew => ⟨exec_pllLock_cold hnew, exec_pllLock_wake hnew⟩, fun s dt => exec_msiLatch_active,
    fun s u a code => exec_timWmark_passes, fun s dt => ?_⟩
  · intro u hlock hclk early on
    exact ⟨exec_tinEdge_early hlock hclk, exec_tinEdge_accepted hlock hclk⟩
  · exact ⟨s.loseTin, exec_tinLost_due hlock hclk hnew hdue, flag_loseTin_sticky s, flag_loseTin_gnss s, rfl⟩
  · intro u period ofs width
    refine ⟨{ u with tim := { u.tim with touts := u.toutLevel } }, rfl, rfl, (toutLevel_iff u).trans ?_⟩
    rw [← exists_edge_iff (Nat.two_pow_pos _)]
    push_cast
    rfl

end Sys2Proof.Machine
end

section
/-! SUPPORT. Proof of the statement of time frames, holdover and healing (R230, R233, R234, R236, R237). -/

namespace Sys2Proof.Machine
open Sys2Proof

/-! ### What waymarks, the noted epochs and frames sent leave alone -/

section
variable (s : State)

theorem onlyEmits_waymark (cls : Nat) (vals : List Int) : s.OnlyEmits (s.waymark cls vals) :=
  onlyEmits_each _ (fun t _ => onlyEmits_emitWith _ t ..) s

theorem State.OnlyEmits.tim {s t : State} (h : s.OnlyEmits t) : t.tim = s.tim := by rw [h]

theorem tim_waymark (cls : Nat) (vals : List Int) : (s.waymark cls vals).tim = s.tim := (onlyEmits_waymark s cls vals).tim

theorem tim_noteEpoch : s.noteEpoch.tim = s.tim := by
  have hring : ∀ h : List Epoch, (State.ringAdd { s with hist := h } (.epochs h)).tim = s.tim := fun h => tim_ringAdd ..
  unfold State.noteEpoch
  dsimp only
  split
  case h_1 => exact hring _
  case h_2 =>
    split
    case isTrue => rfl
    case isFalse =>
      split
      case isTrue => exact hring _
      case isFalse => exact hring _

theorem onlyEmits_sendLink (p cls kind : Nat) (payload : List Int) (len : Nat) :
    s.OnlyEmits (s.sendLink p cls kind payload len) :=
  onlyEmits_ite (onlyEmits_sendOn s ..) (onlyEmits_refl s)

/-! ### A frame of the root that the device follows (R230, R233, R234) -/

theorem tim_timState (st : TimSt) (root rank : Nat) (islandRoot : Bool) :
    (s.timState st root rank islandRoot).tim = { s.tim with st := st, rootAddr := root, rootRank := rank } := by
  unfold State.timState
  split
  case isTrue hsame =>
    obtain ⟨rfl, rfl⟩ := hsame
    exact tim_noteEpoch _
  case isFalse => exact (tim_waymark ..).trans (tim_noteEpoch _)

end

/-- Of the time unit, `t` differs from `s` at most in the adjustment and the correction that wait for the next milestones. -/
def State.OnlyAdjusts (s t : State) : Prop :=
  t.tim = { s.tim with adj := t.tim.adj, adjDone := t.tim.adjDone, fix := t.tim.fix, fixRate := t.tim.fixRate
                       stepDue := t.tim.stepDue }

theorem State.OnlyAdjusts.trans {s t u : State} (h : s.OnlyAdjusts t) (h' : t.OnlyAdjusts u) : s.OnlyAdjusts u :=
  Eq.trans h' (congrArg (fun v : Tim => { v with adj := u.tim.adj, adjDone := u.tim.adjDone, fix := u.tim.fix,
                                                 fixRate := u.tim.fixRate, stepDue := u.tim.stepDue }) h)

theorem onlyAdjusts_ite {s t u : State} {p : Prop} [Decidable p] (ht : s.OnlyAdjusts t) (hu : s.OnlyAdjusts u) :
    s.OnlyAdjusts (if p then t else u) := by
  split
  · exact ht
  · exact hu

theorem onlyAdjusts_frameAdj (s : State) (f : TimeFrame) : s.OnlyAdjusts (s.frameAdj f) :=
  onlyAdjusts_ite rfl (onlyAdjusts_ite rfl (onlyAdjusts_ite rfl rfl))

theorem onlyAdjusts_correct (s : State) (o : Int) : s.OnlyAdjusts (s.correct o) := onlyAdjusts_ite rfl rfl

/-- The offset that a frame shows, received on port `p` at `ingress`. -/
def State.frameOffset (s : State) (p ingress : Nat) (f : TimeFrame) : Int :=
  (ingress : Int) - (f.origin + nsTo64 (f.correction + s.ldelay p))

/-- What an accepted frame says of its root: the frequency, and that it came now. -/
def State.noteFrame (s : State) (f : TimeFrame) : State :=
  { s with tim := { s.tim with lastFrame := s.tim.msNum, sinceFrame := 0, rootIsland := f.islandRoot, inc := f.inc.toNat }
           fab := { s.fab with parted := false } }

/-- The rank of the root that a frame names. -/
def frameRank (f : TimeFrame) : Nat := rankKey f.rankGnss f.rankHq.toNat f.root.toNat

/-- The device follows the root of a frame that shows the offset `o`. -/
def State.follow (s : State) (f : TimeFrame) (o : Int) : State :=
  (((s.noteFrame f).timState .locked f.root.toNat (frameRank f) f.islandRoot).frameAdj f).correct o

/-- The device sends a frame on to its children, but for port `p`, whose link delay is `d`. -/
def State.passOn (s : State) (p ingress : Nat) (f : TimeFrame) (d : Int) : State :=
  s.each s.childPorts fun t q =>
    if q ≠ p then
      t.sendLink q 0 0x02 (timeFrameNumbers f
        (f.correction + shrNearestUp (((s.tim.time : Int) - ingress) * 10 ^ 9) 48 + d)) 52
    else t

/-- What a followed root makes of the time unit: all but adjustments and corrections, which the next milestones apply. -/
structure Tim.Follows (t t' : Tim) (f : TimeFrame) : Prop where
  st : t'.st = .locked
  rootAddr : t'.rootAddr = f.root.toNat
  rootRank : t'.rootRank = frameRank f
  inc : t'.inc = f.inc.toNat
  sinceFrame : t'.sinceFrame = 0
  lastFrame : t'.lastFrame = t.msNum
  time : t'.time = t.time

theorem follows_follow (s : State) (f : TimeFrame) (o : Int) : s.tim.Follows (s.follow f o).tim f := by
  have hadj : State.OnlyAdjusts _ (s.follow f o) := (onlyAdjusts_frameAdj _ f).trans (onlyAdjusts_correct _ o)
  rw [State.OnlyAdjusts, tim_timState] at hadj
  rw [hadj]
  exact ⟨rfl, rfl, rfl, rfl, rfl, rfl, rfl⟩

theorem onlyEmits_passOn (s : State) (p ingress : Nat) (f : TimeFrame) (d : Int) :
    s.OnlyEmits (s.passOn p ingress f d) :=
  onlyEmits_each _ (fun t _ => onlyEmits_ite (onlyEmits_sendLink t ..) (onlyEmits_refl t)) s

section
variable {s : State} {port : Fin 8} {f : TimeFrame} (hlock : s.tim.locked = true) (hclk : s.pwr.clocked = true)
  (hport : (s.fport port.val).carries = true) (hroot : f.root.toNat = s.tim.rootAddr) (hst : s.tim.st ≠ .root)
include hlock hclk hport hroot hst

theorem exec_timeFrameReceive_followed (ingress : Nat) : exec (.timeFrameReceive port ingress f) s =
    .next (if s.fab.parent = some port.val ∧ f.root.toNat = s.tim.rootAddr ∧ f.correction ≤ 10 ^ 6 * 65536 ∧
        s.tim.st ≠ .root then
        (s.follow f (s.frameOffset port.val ingress f)).passOn port.val ingress f (s.ldelay port.val)
      else s.stick .tim 0 12) :=
  congrArg Host.Outcome.next
    ((if_neg (by simp [hlock, hclk, hport])).trans
      ((if_neg fun h => hst h.1).trans (if_neg fun h => h.2.1 hroot)))

theorem exec_timeFrameReceive_accepted (ingress : Nat) (hparent : s.fab.parent = some port.val)
    (hsmall : f.correction ≤ 10 ^ 6 * 65536) : exec (.timeFrameReceive port ingress f) s =
    .next ((s.follow f (s.frameOffset port.val ingress f)).passOn port.val ingress f (s.ldelay port.val)) :=
  (exec_timeFrameReceive_followed hlock hclk hport hroot hst ingress).trans
    (congrArg Host.Outcome.next (if_pos ⟨hparent, hroot, hsmall, hst⟩))

theorem exec_timeFrameReceive_bad (ingress : Nat)
    (hbad : s.fab.parent ≠ some port.val ∨ 10 ^ 6 * 65536 < f.correction) :
    exec (.timeFrameReceive port ingress f) s = .next (s.stick .tim 0 12) :=
  (exec_timeFrameReceive_followed hlock hclk hport hroot hst ingress).trans
    (congrArg Host.Outcome.next (if_neg fun ⟨hparent, _, hsmall, _⟩ => hbad.elim (· hparent) (by omega)))

end

/-! ### Holdover and healing (R236, R237) -/

/-- A locked member enters HOLDOVER, with what a change of STATE brings. -/
def State.holdOver (s : State) : State :=
  (State.stick { s with tim := { s.tim with st := .holdover } } .tim 0 11).noteEpoch.waymark 0x05
    [3, s.tim.rootAddr, rankByteOf s.tim.rootRank s.tim.rootIsland]

theorem tim_holdOver (s : State) : s.holdOver.tim = { s.tim with st := .holdover } :=
  (tim_waymark ..).trans (tim_noteEpoch _)

theorem timState_holdover {s : State} (h : s.tim.st = .locked) :
    (s.stick .tim 0 11).timState .holdover s.tim.rootAddr s.tim.rootRank s.tim.rootIsland = s.holdOver :=
  if_neg fun hsame => absurd (h.symm.trans hsame.1) (by decide)

theorem exec_holdover_due {s : State} (h : s.tim.st = .locked) (hdue : 2 ≤ s.tim.sinceFrame) :
    exec .holdover s = .next (s.holdOver.waymark 0x04 [s.tim.lastFrame]) := by
  have hlast : s.holdOver.tim.lastFrame = s.tim.lastFrame := by rw [tim_holdOver]
  refine congrArg Host.Outcome.next ((if_pos ⟨h, hdue⟩).trans ?_)
  simp only [stick_tim]
  rw [timState_holdover h, hlast]

theorem exec_healingDelta_announced {s : State} {delta : Int} {winner : BitVec 14} (hst : s.tim.st = .root)
    (hnew : s.tim.healApplied = false) (hfree : s.tim.healing = false ∨ s.tim.adj = none) :
    exec (.healingDelta delta winner) s = .next (s.announceHeal delta winner.toNat) := by
  refine congrArg Host.Outcome.next (if_pos ?_)
  rcases hfree with hfree | hfree <;> simp [hst, hnew, hfree]

/-- Settles O28: a frame of the followed root is accepted or bad; a locked member without frames holds over; a root of a
losing part announces Δ. -/
theorem timeFramesAndHoldover : Obligations.TimeFramesAndHoldover := by
  unfold Obligations.TimeFramesAndHoldover
  refine ⟨fun s port ingress f hlock hclk hport hroot hst => ⟨fun hparent hsmall => ?_,
      exec_timeFrameReceive_bad hlock hclk hport hroot hst ingress⟩,
    fun s hst hdue => ⟨s.holdOver, exec_holdover_due hst hdue, tim_holdOver s, rfl⟩,
    fun s delta winner => exec_healingDelta_announced⟩
  refine ⟨_, exec_timeFrameReceive_accepted hlock hclk hport hroot hst ingress hparent hsmall, ?_⟩
  rw [(onlyEmits_passOn ..).tim]
  obtain ⟨hst, haddr, hrank, hinc, hsince, hlast, htime⟩ := follows_follow s f (s.frameOffset port.val ingress f)
  exact ⟨hst, haddr, hrank, hinc, hsince, hlast, htime⟩

end Sys2Proof.Machine
end

section
/-! SUPPORT. Proof of the statement of lanes and fragments (R244, R245, R247, R248, R251, R252). -/

namespace Sys2Proof.Machine
open Sys2Proof

/-! ### Lanes (R244, R245) -/

/-- The width that a port has with these lanes good: one lane at most in Sleep. -/
def State.laneWidth (s : State) (p : Nat) (lanes : BitVec 4) : Nat :=
  let w := widthOf lanes.toNat (s.fld (ra .fabPort p 0x040) 1 2)
  if (s.fport p).st = .upSleep then min w 1 else w

/-- The lanes of a port without one of them. -/
def FabPort.without (v : FabPort) (lane : Fin 4) : BitVec 4 := v.lanes &&& ~~~ (BitVec.ofNat 4 (2 ^ lane.val))

/-- The lanes of a port with one more. -/
def FabPort.withLane (v : FabPort) (lane : Fin 4) : BitVec 4 := v.lanes ||| BitVec.ofNat 4 (2 ^ lane.val)

/-- Port `p` goes on with these lanes at the width `w`; where that is the width it had, `movePort` makes no waymark 0x13,
so it is made here (log 93). -/
def State.narrow (s : State) (p : Nat) (v : FabPort) (lanes : BitVec 4) (w : Nat) : State :=
  let u := s.movePort p { v with lanes := lanes, width := w }
  if w = v.width then u.waymark 0x13 [p, portCode v.st, widthCode w] else u

section
variable {s : State} {port : Fin 8} {lane : Fin 4} (hcar : (s.fport port.val).carries = true)
include hcar

theorem exec_laneLoss_last (hlane : (s.fport port.val).lanes.getLsbD lane.val = true)
    (hno : s.laneWidth port.val ((s.fport port.val).without lane) = 0) : exec (.laneLoss port lane) s =
    .next (((s.stick .fabPort port.val 12).portDown port.val .training).stick .fabPort port.val 8) := by
  have hacts : ((s.fport port.val).carries && (s.fport port.val).lanes.getLsbD lane.val) = true := by simp [hcar, hlane]
  exact congrArg Host.Outcome.next ((if_pos hacts).trans (if_pos hno))

theorem exec_laneLoss_narrower (hlane : (s.fport port.val).lanes.getLsbD lane.val = true)
    (hw : s.laneWidth port.val ((s.fport port.val).without lane) ≠ 0) : exec (.laneLoss port lane) s =
    let w := s.laneWidth port.val ((s.fport port.val).without lane)
    .next (((s.stick .fabPort port.val 12).narrow port.val (s.fport port.val) ((s.fport port.val).without lane) w).preempt
      port.val (tc2Limit w) s.fab.admits.length) := by
  have hacts : ((s.fport port.val).carries && (s.fport port.val).lanes.getLsbD lane.val) = true := by simp [hcar, hlane]
  exact congrArg Host.Outcome.next ((if_pos hacts).trans (if_neg hw))

theorem exec_laneRejoin_milestone (hlane : (s.fport port.val).lanes.getLsbD lane.val = false)
    (hms : s.atMilestone = true) : exec (.laneRejoin port lane) s =
    .next (s.movePort port.val { s.fport port.val with
      lanes := (s.fport port.val).withLane lane
      width := s.laneWidth port.val ((s.fport port.val).withLane lane) }).askAgain :=
  congrArg Host.Outcome.next (if_pos (by simp only [hcar, hlane, hms, Bool.not_false, Bool.and_self]))

end

theorem exec_laneRejoin_between {s : State} {port : Fin 8} {lane : Fin 4} (hms : s.atMilestone = false) :
    exec (.laneRejoin port lane) s = .next s :=
  congrArg Host.Outcome.next (if_neg (by simp [hms]))

/-- A change of the width alone makes new routes and a new advertisement due, may set TC1_OVER, and is a waymark 0x13. -/
theorem movePort_of_width_ne {t : State} {p : Nat} {w : FabPort}
    (hw : (t.fport p).width ≠ w.width) :
    let u := t.setFport p w
    let u : State := { u with fab := { u.fab with routesDue := true, floodDue := true } }
    let u := if w.carries && decide (tc1Limit w.width < w.queued 1) then u.stick .fabPort p 13 else u
    t.movePort p w = u.waymark 0x13 [p, portCode w.st, widthCode w.width] :=
  if_neg fun hsame => hw hsame.2

/-! ### Fragments (R247, R248, R251) -/

theorem reg_stick_other (s : State) (k : PageKind) (i n : Nat) {b : Nat} (h : b ≠ ra k i 0x010) :
    (s.stick k i n).reg b = s.reg b := reg_orReg_other s _ _ h

theorem reg_countSat_same (s : State) (a n : Nat) :
    ((s.countSat a n).reg a).toNat = min ((s.reg a).toNat + n) (2 ^ 32 - 1) := by
  rw [State.countSat, reg_setReg_same, satU_eq_min, BitVec.toNat_ofNat]
  omega

theorem reg_countSat_other (s : State) {a b : Nat} (n : Nat) (h : b ≠ a) : (s.countSat a n).reg b = s.reg b :=
  (reg_setReg ..).trans (if_neg h)

/-- A fragment with a bad tag on port `p`: counted in FAB_PTAGF, TAG_FAIL, and a negative acknowledgement open. -/
def State.tagFail (s : State) (p : Nat) : State :=
  ((s.countSat (ra .fabPort p 0x04C) 1).stick .fabPort p 11).setFport p (s.fport p).nak

section
variable {s : State} {port : Fin 8} {f : Fragment} (hcar : (s.fport port.val).carries = true)
include hcar

theorem exec_fragmentReceive_badTag (htag : f.tagOk = false) :
    exec (.fragmentReceive port f) s = .next (s.tagFail port.val) :=
  congrArg Host.Outcome.next ((if_neg (by simp [hcar])).trans
    (if_pos (by simp [htag])))

theorem exec_fragmentReceive_goodTag (htag : f.tagOk = true) : exec (.fragmentReceive port f) s =
    .next (if f.seq.toNat ≠ (s.fport port.val).rxSeq then s.setFport port.val (s.fport port.val).nak
      else (s.setFport port.val { (s.fport port.val).notePhase f.phase s.tim.time with
        nakOpen := false, lastAck := some ((s.fport port.val).notePhase f.phase s.tim.time).rxSeq
        rxSeq := (((s.fport port.val).notePhase f.phase s.tim.time).rxSeq + 1) % 65536 }).routeFragment port.val f) :=
  congrArg Host.Outcome.next ((if_neg (by simp [hcar])).trans
    (if_neg (by simp [htag])))

end

theorem rxSeq_notePhase (v : FabPort) (phase : Bool) (now : Nat) : (v.notePhase phase now).rxSeq = v.rxSeq := by
  unfold FabPort.notePhase
  lift_lets
  intro late
  split <;> rfl

section
variable (s : State) (p : Nat)

theorem flag_tagFail : (s.tagFail p).flag (ra .fabPort p 0x010) 11 = true := flag_stick_same _ .fabPort p 11 (by decide)

theorem reg_tagFail_count : ((s.tagFail p).reg (ra .fabPort p 0x04C)).toNat =
    min ((s.reg (ra .fabPort p 0x04C)).toNat + 1) (2 ^ 32 - 1) := by
  have hkept := reg_stick_other (s.countSat (ra .fabPort p 0x04C) 1) .fabPort p 11
    (ra_ne_of_offset_ne .fabPort p (show 0x04C ≠ 0x010 by decide))
  exact (congrArg BitVec.toNat hkept).trans (reg_countSat_same s _ 1)

theorem reg_tagFail_other {b : Nat} (hsticky : b ≠ ra .fabPort p 0x010) (hcount : b ≠ ra .fabPort p 0x04C) :
    (s.tagFail p).reg b = s.reg b :=
  (reg_stick_other _ .fabPort p 11 hsticky).trans (reg_countSat_other s 1 hcount)

theorem fport_tagFail_same : (s.tagFail p).fport p = (s.fport p).nak := fport_setFport_same ..

theorem fport_tagFail_other {d : Nat} (h : d ≠ p) : (s.tagFail p).fport d = s.fport d := fport_setFport_other _ _ _ _ h

end

/-! ### The replay buffer (R251, R252) -/

/-- The fragment `n` and those after it. -/
def SentFrag.from (n : Nat) : SentFrag → Bool := fun x => decide (x.seq = n) || serialNewer 16 x.seq n

/-- Port `v` after it has sent its replay buffer again from fragment `n` on, at `now`. -/
def FabPort.again (v : FabPort) (n now : Nat) : FabPort :=
  { v with sent := v.sent + (v.replay.filter (SentFrag.from n)).length
           busy := v.busy + 11 * ((v.replay.filter (SentFrag.from n)).map fun x => fragBytes x.len).sum
           replay := v.replay.map fun (x : SentFrag) =>
             if SentFrag.from n x then { x with sends := x.sends + 1, at_ := now, phase := v.keyPhase } else x }

theorem resend_eq (s : State) (p n : Nat) : s.resend p n =
    (s.setFport p ((s.fport p).again n s.tim.time)).countSat (ra .fabPort p 0x048)
      ((s.fport p).replay.filter (SentFrag.from n)).length := by
  have hhit : (fun x : SentFrag => decide (x.seq = n ∨ serialNewer 16 x.seq n = true)) = SentFrag.from n :=
    funext fun x => by rw [SentFrag.from, Bool.decide_or, Bool.decide_eq_true]
  simp only [State.resend, hhit, FabPort.again, SentFrag.from, Bool.or_eq_true, decide_eq_true_eq]

/-- What a resending from fragment `n` on makes of a state: its port, its count, and nothing else. -/
theorem resend_spec (s : State) (p n : Nat) :
    let t := s.resend p n
    t = { s with regs := t.regs, fab := { s.fab with ports := t.fab.ports } } ∧
      (∀ d, d ≠ p → t.fport d = s.fport d) ∧ (∀ b, b ≠ ra .fabPort p 0x048 → t.reg b = s.reg b) ∧
      t.fport p = (s.fport p).again n s.tim.time := by
  rw [resend_eq]
  exact ⟨rfl, fun _ hd => fport_setFport_other _ _ _ _ hd, fun b hb => reg_countSat_other _ _ hb,
    fport_setFport_same ..⟩

section
variable {s : State} {port : Fin 8} (hcar : (s.fport port.val).carries = true)
include hcar

theorem exec_negativeAcknowledge_carries (seq : BitVec 16) :
    exec (.negativeAcknowledge port seq) s = .next (s.resend port.val seq.toNat) :=
  congrArg Host.Outcome.next (if_pos hcar)

theorem exec_ackTimeout_waiting {x : SentFrag} {rest : List SentFrag} (hbuf : (s.fport port.val).replay = x :: rest) :
    exec (.ackTimeout port) s =
      .next (if x.at_ + (nsTo64 (2 * s.ldelay port.val)).toNat + ackMargin ≤ s.tim.time then s.resend port.val x.seq
        else s) := by
  refine congrArg Host.Outcome.next ((if_pos hcar).trans ?_)
  rw [hbuf]

end

theorem withFport_setFport (s : State) (p : Nat) (v : FabPort) : s.WithFport (s.setFport p v) p v :=
  ⟨rfl, fport_setFport_same .., fun _ hd => fport_setFport_other _ _ _ _ hd⟩

/-- Settles O32: a lane that is lost by whether a width is left, one that rejoins by whether it is a milestone; a fragment
by its tag and its number; the replay buffer by what is named, or by whether its oldest fragment is late. -/
theorem lanesAndFragments : Obligations.LanesAndFragments := by
  unfold Obligations.LanesAndFragments
  refine ⟨fun s port lane hcar => ?_, fun s port f hcar => ?_, fun s port seq => ?_⟩
  · exact ⟨fun hlane => ⟨exec_laneLoss_last hcar hlane, exec_laneLoss_narrower hcar hlane⟩,
      fun hlane => ⟨exec_laneRejoin_milestone hcar hlane, exec_laneRejoin_between⟩,
      fun t w _ hw => movePort_of_width_ne hw⟩
  · refine ⟨fun htag => ?_, fun htag hseq => ?_, fun htag hseq => ?_⟩
    · exact ⟨s.tagFail port.val, exec_fragmentReceive_badTag hcar htag, fport_tagFail_same s _, flag_tagFail s _,
        reg_tagFail_count s _, rfl, fun _ => fport_tagFail_other s _, fun _ => reg_tagFail_other s _⟩
    · rw [exec_fragmentReceive_goodTag hcar htag, if_pos hseq]
    · rw [exec_fragmentReceive_goodTag hcar htag, if_neg (not_not_intro hseq)]
      simp only [rxSeq_notePhase]
  · refine ⟨fun hcar => ?_, fun hcar x rest hbuf => ⟨fun hlate => ?_, fun hearly => ?_⟩, ?_⟩
    · exact ⟨_, exec_negativeAcknowledge_carries hcar seq, resend_spec s port.val seq.toNat⟩
    · exact ⟨_, (exec_ackTimeout_waiting hcar hbuf).trans (congrArg _ (if_pos hlate)), resend_spec s port.val x.seq⟩
    · exact (exec_ackTimeout_waiting hcar hbuf).trans (congrArg _ (if_neg hearly))
    · exact ⟨_, rfl, withFport_setFport s port.val _⟩

end Sys2Proof.Machine
end

section
/-! SUPPORT. What a frame sent changes (R247, R249, R250, R258): registers of the fabric's pages, the queue of its port,
and the list of frames. -/

namespace Sys2Proof.Machine
open Sys2Proof

/-- An address at which no frame sent leaves a trace: below the fabric's pages, or none of their sticky bits, queue peaks
and counts of discarded frames. -/
abbrev clearOfSends (b : Nat) : Prop := b < 0x100000 ∨ b % 0x1000 ∉ [0x010, 0x050, 0x058]

/-- `t` differs from `s` at most in what frames leave behind on their way out of the fabric's ports. -/
structure State.OnlySends (s t : State) : Prop where
  frame : t = { s with regs := t.regs, frames := t.frames, fab := { s.fab with ports := t.fab.ports } }
  fport : ∀ p, t.fport p = { s.fport p with queue := (t.fport p).queue }
  reg : ∀ b, clearOfSends b → t.reg b = s.reg b
  sticky : ∀ b n, b % 0x1000 = 0x010 → s.flag b n = true → t.flag b n = true

section
variable {s t u : State}

theorem onlySends_refl (s : State) : s.OnlySends s := ⟨rfl, fun _ => rfl, fun _ _ => rfl, fun _ _ _ h => h⟩

theorem State.OnlySends.trans (h : s.OnlySends t) (h' : t.OnlySends u) : s.OnlySends u where
  frame := Eq.trans h'.frame (congrArg (fun v : State => { v with
    regs := u.regs, frames := u.frames, fab := { v.fab with ports := u.fab.ports } }) h.frame)
  fport p := (h'.fport p).trans (by rw [h.fport p])
  reg b hb := (h'.reg b hb).trans (h.reg b hb)
  sticky b n hb hn := h'.sticky b n hb (h.sticky b n hb hn)

theorem onlySends_ite {p : Prop} [Decidable p] (ht : s.OnlySends t) (hu : s.OnlySends u) :
    s.OnlySends (if p then t else u) := by
  split
  · exact ht
  · exact hu

end

/-! ### Registers and queues -/

section
variable (s : State)

theorem onlySends_setReg {a : Nat} (v : Word) (hpage : 0x100000 ≤ a)
    (hoff : a % 0x1000 = 0x050 ∨ a % 0x1000 = 0x058) : s.OnlySends (s.setReg a v) := by
  refine ⟨rfl, fun _ => rfl, fun b hb => (reg_setReg ..).trans (if_neg ?_), fun b n hb hn => ?_⟩
  · rintro rfl
    simp only [clearOfSends, List.mem_cons, List.not_mem_nil, not_or, or_false] at hb
    omega
  · have hne : b ≠ a := by
      rintro rfl
      omega
    rwa [State.flag, reg_setReg, if_neg hne]

theorem onlySends_orReg {a : Nat} (m : Word) (hpage : 0x100000 ≤ a) (hoff : a % 0x1000 = 0x010) :
    s.OnlySends (s.orReg a m) := by
  refine ⟨rfl, fun _ => rfl, fun b hb => reg_orReg_other s a m ?_, fun b n _ hn => flag_orReg_of_flag hn a m⟩
  rintro rfl
  simp only [clearOfSends, List.mem_cons, List.not_mem_nil, not_or, or_false] at hb
  omega

/-- A register of a port's page lies on the fabric's pages, at its offset. -/
theorem fabPort_addr (q : Nat) {off : Nat} (h : off < 0x1000) :
    0x100000 ≤ ra .fabPort q off ∧ ra .fabPort q off % 0x1000 = off := by
  simp only [ra, pageNum]
  omega

theorem onlySends_setPeak (q l w v : Nat) : s.OnlySends (s.setFld (ra .fabPort q 0x050) l w v) :=
  have haddr := fabPort_addr q (show 0x050 < 0x1000 by decide)
  onlySends_setReg s _ haddr.1 (.inl haddr.2)

theorem onlySends_countDrop (q : Nat) : s.OnlySends (s.countDrop q) :=
  have haddr := fabPort_addr q (show 0x058 < 0x1000 by decide)
  onlySends_setReg s _ haddr.1 (.inr haddr.2)

theorem onlySends_stickPort (q n : Nat) : s.OnlySends (s.stick .fabPort q n) :=
  have haddr := fabPort_addr q (show 0x010 < 0x1000 by decide)
  onlySends_orReg s _ haddr.1 haddr.2

theorem onlySends_stickRouter (n : Nat) : s.OnlySends (s.stick .fabRouter 0 n) :=
  onlySends_orReg s _ (by decide) (by decide)

theorem onlySends_setQueue (q : Nat) (fs : List TxFrag) : s.OnlySends (s.setFport q { s.fport q with queue := fs }) := by
  refine ⟨rfl, fun p => ?_, fun _ _ => rfl, fun _ _ _ h => h⟩
  by_cases hp : p = q
  · rw [hp, fport_setFport_same]
  · rw [fport_setFport_other _ _ _ _ hp]

/-! ### Sending -/

theorem onlySends_queueOn (q : Nat) (fs : List TxFrag) : s.OnlySends (s.queueOn q fs) := by
  have hpeaks : ∀ tc1 tc2 : Nat, s.OnlySends (((s.setFport q { s.fport q with queue := (s.fport q).queue ++ fs }).setFld
      (ra .fabPort q 0x050) 0 8 tc1).setFld (ra .fabPort q 0x050) 8 16 tc2) := fun tc1 tc2 =>
    ((onlySends_setQueue s q _).trans (onlySends_setPeak _ q 0 8 tc1)).trans (onlySends_setPeak _ q 8 16 tc2)
  exact onlySends_ite ((hpeaks ..).trans (onlySends_stickPort ..)) (hpeaks ..)

theorem onlySends_sendOn (egress cls kind dest session : Nat) (payload : List Int) (len : Nat) :
    s.OnlySends (s.sendOn egress cls kind dest session payload len) := by
  have hlisted : ∀ fs : List Frame, s.OnlySends { s with frames := fs } := fun _ =>
    ⟨rfl, fun _ => rfl, fun _ _ => rfl, fun _ _ _ h => h⟩
  exact onlySends_ite (hlisted _) ((hlisted _).trans (onlySends_queueOn ..))

theorem onlySends_sendTo (cls kind dest session : Nat) (payload : List Int) (len : Nat) :
    s.OnlySends (s.sendTo cls kind dest session payload len) := by
  unfold State.sendTo
  split
  case h_1 => exact onlySends_refl s
  case h_2 own _ =>
    refine onlySends_ite (onlySends_refl s) ?_
    split
    case h_1 => exact onlySends_sendOn s ..
    case h_2 => exact (onlySends_countDrop s _).trans (onlySends_stickRouter _ 9)

theorem onlySends_sendLink (p cls kind : Nat) (payload : List Int) (len : Nat) :
    s.OnlySends (s.sendLink p cls kind payload len) :=
  onlySends_ite (onlySends_sendOn s ..) (onlySends_refl s)

theorem onlySends_sendSession (x : Session) (cls kind : Nat) (payload : List Int) (len : Nat) :
    s.OnlySends (s.sendSession x cls kind payload len) :=
  onlySends_ite (onlySends_sendOn s ..) (onlySends_sendTo s ..)

end

/-! ### What frames sent leave alone -/

section
variable {s t : State} (h : s.OnlySends t)
include h

theorem State.OnlySends.carries (p : Nat) : (t.fport p).carries = (s.fport p).carries := by
  rw [h.fport p]
  rfl

theorem State.OnlySends.width (p : Nat) : (t.fport p).width = (s.fport p).width := by rw [h.fport p]

theorem State.OnlySends.keyPhase (p : Nat) : (t.fport p).keyPhase = (s.fport p).keyPhase := by rw [h.fport p]

theorem State.OnlySends.peerOf (p : Nat) : t.peerOf p = s.peerOf p := by
  have hpeer : (t.fport p).peer = (s.fport p).peer := by rw [h.fport p]
  rw [State.peerOf, h.carries, hpeer, State.peerOf]

theorem State.OnlySends.flag {b : Nat} (hb : clearOfSends b) (n : Nat) : t.flag b n = s.flag b n := by
  rw [State.flag, h.reg b hb, State.flag]

theorem State.OnlySends.fld {b : Nat} (hb : clearOfSends b) (l w : Nat) : t.fld b l w = s.fld b l w := by
  rw [State.fld, h.reg b hb, State.fld]

end

end Sys2Proof.Machine
end

section
/-! SUPPORT. Proof of the statement of how Quevex ports train, authenticate and re-key (R252, R253, R254, R299, R301). -/

namespace Sys2Proof.Machine
open Sys2Proof

/-! ### Bring-up (R254, R299, R301) -/

/-- The chain and the signature check against the device's anchors, and the peer has sent its owner root's digest. -/
def State.Authentic (s : State) (p : Nat) (chain : List (List Byte)) (sig : Bool) (root : BitVec 384) : Prop :=
  chainVerifies s.anchors chain = true ∧ sig = true ∧ (s.fport p).hello = beBytes root.toNat 48

/-- A port that an exchange of that serial number has authenticated: it comes up at the milestone, with fresh keys. -/
def FabPort.authenticated (v : FabPort) (uid : BitVec 64) (peer : Option (BitVec 14)) (serial : Nat) : FabPort :=
  { v with linkUpDue := true, hadKeys := true, peerUid := uid.toNat, peer := peer.map (·.toNat), keyPhase := false
           rxPhase := false, rxOld := none, keys := some (linkKeys serial), keyAge := 0, sent := 0
           txSeq := 0, rxSeq := 0 }

section
variable {s : State} {port : Fin 8}

theorem exec_laneTrainingDone_trained {lanes : BitVec 4} (hst : (s.fport port.val).st = .training)
    (hw : widthOf lanes.toNat (s.fld (ra .fabPort port.val 0x040) 1 2) ≠ 0) (hon : s.portOn port.val = true) :
    let v := s.fport port.val
    let w := widthOf lanes.toNat (s.fld (ra .fabPort port.val 0x040) 1 2)
    exec (.laneTrainingDone port lanes) s = .next (s.movePort port.val
      (if v.hadKeys then { v with lanes := lanes, width := w, linkUpDue := true }
       else { v with st := .authenticating, lanes := lanes, width := w, waited := 0, hello := s.ownerRoot })) :=
  congrArg Host.Outcome.next ((if_pos ⟨hst, hw, hon⟩).trans (apply_ite (s.movePort port.val) _ _ _).symm)

section
variable {chain : List (List Byte)} {sig : Bool} {root : BitVec 384} (uid : BitVec 64) (peer : Option (BitVec 14))
  (hst : (s.fport port.val).st = .authenticating) (hdue : (s.fport port.val).linkUpDue = false)
include hst hdue

theorem exec_authenticationDone_authentic (hgood : s.Authentic port.val chain sig root) :
    exec (.authenticationDone port chain sig root uid peer) s =
      .next (s.setFport port.val ((s.fport port.val).authenticated uid peer s.frames.length)) := by
  obtain ⟨hchain, hsig, howner⟩ := hgood
  refine congrArg Host.Outcome.next ((if_neg ?_).trans (if_pos ?_))
  · simp [hst, hdue]
  · simp [hchain, hsig, howner]

theorem exec_authenticationDone_rejected (hbad : ¬s.Authentic port.val chain sig root) :
    exec (.authenticationDone port chain sig root uid peer) s =
      .next (if (s.fport port.val).hello = beBytes root.toNat 48 then s.quarantine port.val
        else (s.quarantine port.val).stick .sec 0 11) := by
  refine congrArg Host.Outcome.next ((if_neg ?_).trans ((if_neg fun hgood => hbad ?_).trans ?_))
  · simp [hst, hdue]
  · simpa [State.Authentic, and_assoc] using hgood
  · simp only [decide_eq_true_eq]

end

theorem exec_handshakeTimeout_late (hst : (s.fport port.val).st = .authenticating)
    (hdue : (s.fport port.val).linkUpDue = false) (hlate : 64 ≤ (s.fport port.val).waited) :
    exec (.handshakeTimeout port) s = .next (s.quarantine port.val) :=
  congrArg Host.Outcome.next (if_pos ⟨hst, by simp [hdue], hlate⟩)

theorem exec_quarantineRetry_late (hst : (s.fport port.val).st = .quarantined)
    (hlate : 1024 ≤ (s.fport port.val).waited) : exec (.quarantineRetry port) s =
      .next (s.movePort port.val { s.fport port.val with st := .training, waited := 0 }) :=
  congrArg Host.Outcome.next (if_pos ⟨hst, hlate⟩)

/-! ### Retries and keys (R252, R253) -/

theorem exec_retryLimit_reached (hcar : (s.fport port.val).carries = true)
    (hmany : ∃ x ∈ (s.fport port.val).replay, 8 ≤ x.sends) : exec (.retryLimit port) s =
      .next (((s.portDown port.val .training).stick .fabPort port.val 8).stick .fabPort port.val 10) :=
  congrArg Host.Outcome.next (if_pos (by simpa [hcar] using hmany))

/-- The device's part of a re-keying exchange on port `p`: the public key of the next ephemeral key. -/
def State.sendKey (s : State) (p : Nat) : State :=
  let key : List Byte := 4 :: beBytes (Config.ephemeralKey s.frames.length).toNat 96
  s.sendLink p 4 0x0A (5 :: key.map fun b => (b.toNat : Int)) 98

theorem exec_rekey_due (hcar : (s.fport port.val).carries = true)
    (hold : 2 ^ 22 ≤ (s.fport port.val).keyAge ∨ 2 ^ 31 ≤ (s.fport port.val).sent) : exec (.rekey port) s =
      .next ((s.sendKey port.val).setFport port.val { (s.sendKey port.val).fport port.val with
        keyPhase := !(s.fport port.val).keyPhase, keyAge := 0, sent := 0, keys := some (linkKeys s.frames.length) }) := by
  have hphase : ((s.sendKey port.val).fport port.val).keyPhase = (s.fport port.val).keyPhase :=
    (onlySends_sendLink s ..).keyPhase port.val
  rw [← hphase]
  refine congrArg Host.Outcome.next (if_pos ?_)
  rw [hcar, Bool.true_and, Bool.or_eq_true, decide_eq_true_eq, decide_eq_true_eq]
  exact hold

end

/-- Settles O33: each command where its condition holds; an authentication by whether chain, signature and owner root
agree, and a failed one by whether the owner roots differ. -/
theorem portsTrainAuthenticateAndRekey : Obligations.PortsTrainAuthenticateAndRekey := by
  unfold Obligations.PortsTrainAuthenticateAndRekey
  intro s port p v out
  refine ⟨fun lanes hst hw hon => exec_laneTrainingDone_trained hst hw hon,
    fun chain sig root uid peer hst hdue => ?_, exec_handshakeTimeout_late, exec_quarantineRetry_late,
    exec_retryLimit_reached, exec_rekey_due⟩
  intro owner good
  by_cases hgood : good
  · exact ⟨_, exec_authenticationDone_authentic uid peer hst hdue hgood, fun _ => withFport_setFport s p _,
      fun hbad => absurd hgood hbad⟩
  · exact ⟨_, exec_authenticationDone_rejected uid peer hst hdue hgood, fun h => absurd h hgood, fun _ => rfl⟩

end Sys2Proof.Machine
end

section
/-! SUPPORT. For the statement of discovery, routes and reservations: advertisements, addresses and the loss of the root
(R255 to R257, R268). -/

namespace Sys2Proof.Machine
open Sys2Proof

/-! ### Supervisor work ends Idle (R348) -/

section
variable (s : State)

theorem leaveIdle_frame : s.leaveIdle = { s with pwr := s.leaveIdle.pwr } := by
  unfold State.leaveIdle
  split <;> rfl

theorem fab_leaveIdle : s.leaveIdle.fab = s.fab := by rw [leaveIdle_frame]

theorem tim_leaveIdle : s.leaveIdle.tim = s.tim := by rw [leaveIdle_frame]

theorem alm_leaveIdle : s.leaveIdle.alm = s.alm := by rw [leaveIdle_frame]

end

/-! ### The device's own advertisement (R255) -/

section
variable {s t : State} (h : s.OnlySends t)
include h

theorem State.OnlySends.tim : t.tim = s.tim := by rw [h.frame]

theorem State.OnlySends.uid : t.uid = s.uid := by
  simp only [State.uid, h.fld (show clearOfSends (ra .cal0 0 0x058) by decide)]

theorem State.OnlySends.ownRank : t.ownRank = s.ownRank := by
  have haddr : t.fab.addr = s.fab.addr := by rw [h.frame]
  have hclear : clearOfSends (ra .tim 0 0x05C) := by decide
  rw [State.ownRank, haddr, h.flag hclear, h.fld hclear, State.ownRank]

theorem State.OnlySends.rootNow : t.rootNow = s.rootNow := by rw [h.frame]; rfl

theorem State.OnlySends.prefAddr : t.prefAddr = s.prefAddr := by
  have hclear : clearOfSends (ra .fabDisc 0 0x040) := by decide
  rw [State.prefAddr, h.flag hclear, h.fld hclear, State.prefAddr]

theorem State.OnlySends.upPorts : t.upPorts = s.upPorts := by simp only [State.upPorts, h.carries]

theorem State.OnlySends.portCost (p : Nat) : t.portCost p = s.portCost p := by
  have hclear : clearOfSends (ra .fabPort p 0x040) := .inr (by
    rw [(fabPort_addr p (show 0x040 < 0x1000 by decide)).2]
    decide)
  simp only [State.portCost, h.fld hclear, h.width]

theorem State.OnlySends.admitted (p : Nat) : t.admitted p = s.admitted p := by rw [h.frame]; rfl

theorem State.OnlySends.lsaBody : t.lsaBody = s.lsaBody := by
  have haddr : t.fab.addr = s.fab.addr := by rw [h.frame]
  have hclaim : t.fab.claimMs = s.fab.claimMs := by rw [h.frame]
  simp only [State.lsaBody, h.uid, haddr, hclaim, h.ownRank, h.rootNow, h.prefAddr, h.upPorts, h.peerOf, h.width,
    h.portCost, h.admitted]

theorem State.OnlySends.ownLsa : t.ownLsa = s.ownLsa := by
  have hseq : t.fab.lsaSeq = s.fab.lsaSeq := by rw [h.frame]
  simp only [State.ownLsa, hseq, h.lsaBody]

end

/-- The device's advertisement leaves on the ports of a list. -/
def State.sendLsa (s : State) (ps : List Nat) (lsa : List Int) : State :=
  s.each ps fun t p => t.sendOn p 4 0x03 0x4000 0xFFFF lsa 256

/-- What is advertised does not change while it is sent. -/
theorem each_sendLsa {u s : State} (h : u.OnlySends s) (ps : List Nat) :
    s.each ps (fun t p => t.sendOn p 4 0x03 0x4000 0xFFFF t.ownLsa 256) = s.sendLsa ps u.ownLsa := by
  induction ps generalizing s with
  | nil => rfl
  | cons p ps ih =>
    have hsent := ih (h.trans (onlySends_sendOn s p 4 0x03 0x4000 0xFFFF s.ownLsa 256))
    simp only [State.sendLsa, State.each, List.foldl_cons] at hsent ⊢
    rw [hsent, h.ownLsa]

/-- The device takes the next sequence number for an advertisement of what there is to report now. -/
def State.nextLsa (s : State) : State :=
  { s with fab := { s.fab with lsaSeq := s.fab.lsaSeq + 1, sinceFlood := 0, floodDue := false, told := s.lsaBody } }

theorem flood_works {s : State} (h : s.supWorks = true) :
    s.flood = s.nextLsa.sendLsa s.nextLsa.upPorts s.nextLsa.ownLsa :=
  (if_neg (by simp [h])).trans (each_sendLsa (onlySends_refl s.nextLsa) _)

theorem exec_lsaFlood_works {s : State} (hsup : s.supWorks = true) (hlive : s.pwr.live = true)
    (hclk : s.pwr.clocked = true) :
    exec .lsaFlood s = .next (s.nextLsa.sendLsa s.nextLsa.upPorts s.nextLsa.ownLsa) :=
  congrArg Host.Outcome.next ((if_pos (by simp [hsup, hlive, hclk])).trans (flood_works hsup))

/-! ### Advertisements of other devices (R255) -/

/-- An advertisement of another device, signed, and newer than what the map holds of it. -/
def State.IsNews (s : State) (l : Lsa) : Prop :=
  l.sigOk = true ∧ l.uid.toNat ≠ s.uid ∧ ∀ e, s.held l.uid.toNat = some e → e.lsa.seq < l.seq

/-- The map holds nothing of the advertisement's originator, or something older. -/
def State.outdated (s : State) (l : Lsa) : Bool :=
  match s.held l.uid.toNat with
  | some e => decide (e.lsa.seq < l.seq)
  | none => true

theorem isNews_iff (s : State) (l : Lsa) :
    s.IsNews l ↔ (s.outdated l && decide (l.uid.toNat ≠ s.uid) && l.sigOk) = true := by
  have hold : s.outdated l = true ↔ ∀ e, s.held l.uid.toNat = some e → e.lsa.seq < l.seq := by
    unfold State.outdated
    cases s.held l.uid.toNat <;> simp
  simp only [State.IsNews, Bool.and_eq_true, hold, decide_eq_true_eq]
  exact ⟨fun ⟨hsig, hother, hnew⟩ => ⟨⟨hnew, hother⟩, hsig⟩, fun ⟨⟨hnew, hother⟩, hsig⟩ => ⟨hsig, hother, hnew⟩⟩

/-- An advertisement goes on to every neighbour but the one it came from. -/
def State.passLsa (s : State) (p : Nat) (l : Lsa) : State :=
  s.leaveIdle.sendLsa (s.upPorts.filter (· ≠ p)) (lsaNumbers l)

theorem upPorts_leaveIdle (s : State) : s.leaveIdle.upPorts = s.upPorts := by rw [leaveIdle_frame]; rfl

section
variable {s : State}

theorem exec_lsaReceive_stale {port : Fin 8} {l : Lsa} (hcar : (s.fport port.val).carries = true) (h : ¬s.IsNews l) :
    exec (.lsaReceive port l) s = .next (s.stick .fabDisc 0 12) := by
  have hstale := Bool.eq_false_iff.mpr (mt (isNews_iff s l).mpr h)
  exact congrArg Host.Outcome.next ((if_neg (by simp [hcar])).trans (if_pos (congrArg Bool.not hstale)))

theorem exec_lsaReceive_news {port : Fin 8} {l : Lsa} (hcar : (s.fport port.val).carries = true) (h : s.IsNews l) :
    exec (.lsaReceive port l) s = .next
      (if (s.passLsa port.val l).supWorks then (s.passLsa port.val l).takeLsa l else s.passLsa port.val l) := by
  have hnew : ¬(!(s.outdated l && decide (l.uid.toNat ≠ s.uid) && l.sigOk)) = true := by
    rw [(isNews_iff s l).mp h]
    decide
  rw [State.passLsa, ← upPorts_leaveIdle]
  exact congrArg Host.Outcome.next ((if_neg (by simp [hcar])).trans (if_neg hnew))

theorem exec_lsaWithdraw_old {uid : BitVec 64} {e : MapEntry} (hheld : s.held uid.toNat = some e) (hage : 4096 ≤ e.age)
    (hsup : s.supWorks = true) : exec (.lsaWithdraw uid) s = .next { s with fab := { s.fab with
      map := s.fab.map.filter fun x => x.lsa.uid ≠ uid, routesDue := true } } := by
  have hacts : (decide (4096 ≤ e.age) && s.supWorks) = true := by simp [hage, hsup]
  refine congrArg Host.Outcome.next ?_
  rw [hheld]
  exact if_pos hacts

/-! ### Addresses (R256, R257) -/

/-- The root notes the address that a requester has lost. -/
def State.forbid (s : State) (uid : BitVec 64) (lost : Option (BitVec 14)) : State :=
  { s.leaveIdle with fab := { s.fab with
    forbiddenAddrs := s.fab.forbiddenAddrs ++ (lost.map fun a => (uid.toNat, a.toNat)).toList } }

/-- The lowest address that the root may give to a requester. -/
def State.freeAddr (s : State) (uid : Nat) : Option Nat := (List.range 16384).find? fun a => !s.taken uid a

theorem freeAddr_eq_some {uid a : Nat} (ha : a < 16384) (hfree : s.taken uid a = false)
    (hleast : ∀ b, b < a → s.taken uid b = true) : s.freeAddr uid = some a := by
  refine List.find?_range_eq_some.mpr ⟨by rw [hfree, Bool.not_false], List.mem_range.mpr ha, fun b hb => ?_⟩
  rw [hleast b hb, Bool.not_true, Bool.not_false]

theorem exec_addressRequest_free {port : Fin 8} {uid : BitVec 64} {lost : Option (BitVec 14)} {a : Nat}
    (hroot : s.tim.st = .root) (hsup : s.supWorks = true) (hfree : (s.forbid uid lost).freeAddr uid.toNat = some a) :
    exec (.addressRequest port uid lost) s =
      .next ((s.forbid uid lost).sendLink port.val 4 0x0A [2, uid.toNat, a] 16) := by
  refine congrArg Host.Outcome.next ((if_pos ⟨hroot, hsup⟩).trans ?_)
  cases lost with
  | none =>
    have hforbid : s.forbid uid none = s.leaveIdle := by
      rw [State.forbid, leaveIdle_frame]
      simp
    rw [hforbid] at hfree ⊢
    simp only [State.freeAddr] at hfree
    simp only [hfree]
  | some b =>
    simp only [State.freeAddr, State.forbid, Option.map_some, Option.toList_some] at hfree
    simp only [fab_leaveIdle, hfree]
    rfl

theorem exec_addressAssign_asking {addr : BitVec 14} (hnone : s.fab.addr = none) (hask : s.fab.asking = true)
    (hsup : s.supWorks = true) :
    let u : State := { s.leaveIdle with
      fab := { s.fab with addr := some addr.toNat, claimMs := s.tim.msNum, asking := false, routesDue := true,
                          oldAddr := none }
      alm := { s.alm with onAddr := true } }
    exec (.addressAssign addr) s = .next (u.flood.waymark 0x10 [orMinus1 s.fab.oldAddr, addr.toNat]) := by
  refine congrArg Host.Outcome.next ((if_pos ⟨by simp [hnone], hask, hsup⟩).trans ?_)
  simp only [State.takeAddr, fab_leaveIdle, tim_leaveIdle, alm_leaveIdle, hnone, Option.none_or]

/-! ### The root is lost (R268) -/

/-- The device is parted from its root, which bit 9 of the discovery page says. -/
def State.loseRoot (s : State) : State :=
  State.stick { s with fab := { s.fab with parted := true, electDue := true, hadRoot := true, parent := none,
                                           asking := false } } .fabDisc 0 9

theorem exec_rootLost_silent (hst : s.tim.st = .locked ∨ s.tim.st = .holdover) (hlong : 8 ≤ s.tim.sinceFrame)
    (hnew : s.fab.electDue = false) : exec .rootLost s = .next (s.loseRoot.waymark 0x11 [s.tim.rootAddr]).flood := by
  have hmember : s.tim.member = true := by
    rcases hst with hst | hst <;> simp [Tim.member, hst]
  exact congrArg Host.Outcome.next (if_pos ⟨hmember, hlong, by simp [hnew]⟩)

end

end Sys2Proof.Machine
end

section
/-! SUPPORT. For the statement of discovery, routes and reservations: what a computation of the routes leaves (R258, R260,
R261). -/

namespace Sys2Proof.Machine
open Sys2Proof

/-! ### Listed words -/

section
variable {α : Type}

theorem key_mem_kins_same (m : KMap α) (k : Nat) (v : α) : k ∈ (kins m k v).map (·.1) := by
  induction m with
  | nil => simp [kins]
  | cons p t ih =>
    unfold kins
    split
    · simp
    · split
      · simp
      · exact List.mem_cons_of_mem _ ih

theorem key_mem_kins_of_mem {m : KMap α} {j : Nat} (k : Nat) (v : α) (h : j ∈ m.map (·.1)) :
    j ∈ (kins m k v).map (·.1) := by
  induction m with
  | nil => simp at h
  | cons p t ih =>
    unfold kins
    split
    · exact List.mem_cons_of_mem _ h
    · split
      case isTrue hk => simpa [hk] using h
      case isFalse =>
        rcases List.mem_cons.mp h with h | h
        · exact h ▸ List.mem_cons_self
        · exact List.mem_cons_of_mem _ (ih h)

theorem kget_of_not_mem {m : KMap α} {k : Nat} (d : α) (h : k ∉ m.map (·.1)) : kget m k d = d := by
  induction m with
  | nil => rfl
  | cons p t ih =>
    rw [List.map_cons, List.mem_cons, not_or] at h
    exact (if_neg h.1).trans (ih h.2)

end

/-! ### Entries of the routing table (R258, R259) -/

/-- Word 0 of the routing entry of a destination. -/
abbrev routeAddr (d : Nat) : Nat := TableId.routing.addr d 0

theorem routeAddr_eq (d : Nat) : routeAddr d = 0x480000 + d * 32 := by
  simp only [routeAddr, TableId.addr, TableId.base, TableId.words]
  omega

theorem clearOfSends_routeAddr (d : Nat) : clearOfSends (routeAddr d) := .inr (by
  rw [routeAddr_eq]
  simp only [List.mem_cons, List.not_mem_nil, not_or, or_false]
  omega)

/-- The routing table lies on no block page. -/
theorem pageOf_routing : ∀ n < 128, pageOf (0x480 + n) = none := by decide

/-- An entry of the routing table lies in no other table. -/
theorem spans_routeAddr {d : Nat} (h : d < 16384) (t : TableId) :
    (t.base ≤ routeAddr d ∧ routeAddr d < t.base + t.count * t.words * 4) ↔ t = .routing := by
  rw [routeAddr_eq]
  cases t <;> simp only [TableId.base, TableId.count, TableId.words, reduceCtorEq, iff_false, iff_true] <;> omega

theorem regReset_routeAddr {d : Nat} (h : d < 16384) : regReset (routeAddr d) = 0 := by
  have hpage : routeAddr d / 0x1000 = 0x480 + d / 128 := by
    rw [routeAddr_eq]
    omega
  have htable : ∃ i w, tableAt (routeAddr d) = some (.routing, i, w) := by
    simp only [tableAt, spans_routeAddr h]
    exact ⟨_, _, rfl⟩
  obtain ⟨i, w, htable⟩ := htable
  simp only [regReset, hpage, pageOf_routing (d / 128) (by omega), htable]
  rfl

/-- The entry of a table, if any, that a stored word counts for in `State.rows`. -/
def noteRow (t : TableId) (w : Nat) (m : KMap Unit) (p : Nat × Word) : KMap Unit :=
  if t.base ≤ p.1 ∧ p.1 < t.base + t.count * (t.words * 4) ∧ (p.1 - t.base) % (t.words * 4) = w * 4 then
    kins m ((p.1 - t.base) / (t.words * 4)) ()
  else m

theorem rows_eq (s : State) (t : TableId) (w : Nat) :
    s.rows t w = (s.acc.effective.foldl (noteRow t w) (s.regs.foldl (noteRow t w) [])).map (·.1) := rfl

theorem key_mem_foldl_noteRow_of_mem {t : TableId} {w j : Nat} (l : KMap Word) {m : KMap Unit} (h : j ∈ m.map (·.1)) :
    j ∈ (l.foldl (noteRow t w) m).map (·.1) := by
  induction l generalizing m with
  | nil => exact h
  | cons p l ih =>
    refine ih ?_
    unfold noteRow
    split
    · exact key_mem_kins_of_mem _ _ h
    · exact h

theorem noteRow_routeAddr {d : Nat} (hd : d < 16384) (m : KMap Unit) (v : Word) :
    noteRow .routing 0 m (routeAddr d, v) = kins m d () := by
  have hbase : routeAddr d = TableId.routing.base + d * (TableId.routing.words * 4) := by
    simp only [routeAddr, TableId.addr, TableId.base, TableId.words]
    omega
  have hlt : d * (TableId.routing.words * 4) < TableId.routing.count * (TableId.routing.words * 4) := by
    simp only [TableId.words, TableId.count]
    omega
  rw [noteRow, hbase, Nat.add_sub_cancel_left, Nat.mul_mod_left, Nat.mul_div_left d (by decide)]
  exact if_pos ⟨Nat.le_add_right .., Nat.add_lt_add_left hlt _, rfl⟩

/-- An entry whose word 0 is stored is one that the computation finds. -/
theorem mem_rows_of_key {s : State} {d : Nat} (hd : d < 16384) (h : routeAddr d ∈ s.regs.map (·.1)) :
    d ∈ s.rows .routing 0 := by
  obtain ⟨⟨a, v⟩, hmem, ha⟩ := List.mem_map.mp h
  obtain rfl : a = routeAddr d := ha
  obtain ⟨before, after, hregs⟩ := List.append_of_mem hmem
  rw [rows_eq, hregs, List.foldl_append, List.foldl_cons, noteRow_routeAddr hd]
  exact key_mem_foldl_noteRow_of_mem _ (key_mem_foldl_noteRow_of_mem _ (key_mem_kins_same ..))

theorem reg_routeAddr_of_not_mem_rows {s : State} {d : Nat} (hd : d < 16384) (h : d ∉ s.rows .routing 0) :
    s.reg (routeAddr d) = 0 :=
  (kget_of_not_mem _ (mt (mem_rows_of_key hd) h)).trans (regReset_routeAddr hd)

section
variable (s : State)

theorem setRoute_frame (d : Nat) (w : Word × Word) : s.setRoute d w = { s with regs := (s.setRoute d w).regs } := by
  unfold State.setRoute
  lift_lets
  intro a
  split <;> rfl

theorem reg_setRoute (d e : Nat) (w : Word × Word) : (s.setRoute e w).reg (routeAddr d) =
    if d = e ∧ s.flag (routeAddr e) 1 = false then w.1 else s.reg (routeAddr d) := by
  have hword : routeAddr d = routeAddr e ↔ d = e := by
    rw [routeAddr_eq, routeAddr_eq]
    omega
  have hcost : routeAddr d ≠ routeAddr e + 4 := by
    rw [routeAddr_eq, routeAddr_eq]
    omega
  cases hpin : s.flag (routeAddr e) 1 with
  | true =>
    rw [State.setRoute, if_pos hpin, if_neg (by simp)]
  | false =>
    rw [State.setRoute, if_neg (by simp [hpin]), reg_setReg, if_neg hcost, reg_setReg]
    simp only [hword, and_true]

/-- A computed entry is not pinned, and a pinned one stays. -/
theorem flag_setRoute {w : Word × Word} (hw : bit w.1 1 = false) (d e : Nat) :
    (s.setRoute e w).flag (routeAddr d) 1 = s.flag (routeAddr d) 1 := by
  rw [State.flag, reg_setRoute]
  split
  case isTrue h =>
    obtain ⟨rfl, hpin⟩ := h
    rw [hw, hpin]
  case isFalse => rfl

/-- Entries written one by one: those of a list that are not pinned hold their words, the others what they held. -/
def State.setRoutes (s : State) (l : List Nat) (w : Nat → Word × Word) : State :=
  s.each l fun t d => t.setRoute d (w d)

theorem setRoutes_frame (l : List Nat) (w : Nat → Word × Word) :
    s.setRoutes l w = { s with regs := (s.setRoutes l w).regs } := by
  unfold State.setRoutes State.each
  induction l generalizing s with
  | nil => rfl
  | cons d l ih =>
    rw [List.foldl_cons, ih]
    rw [setRoute_frame]

theorem flag_setRoutes {w : Nat → Word × Word} (hw : ∀ d, bit (w d).1 1 = false) (l : List Nat) (d : Nat) :
    (s.setRoutes l w).flag (routeAddr d) 1 = s.flag (routeAddr d) 1 := by
  unfold State.setRoutes State.each
  induction l generalizing s with
  | nil => rfl
  | cons e l ih => exact (ih (s.setRoute e (w e))).trans (flag_setRoute s (hw e) d e)

theorem reg_setRoutes {w : Nat → Word × Word} (hw : ∀ d, bit (w d).1 1 = false) (l : List Nat) (d : Nat) :
    (s.setRoutes l w).reg (routeAddr d) =
      if d ∈ l ∧ s.flag (routeAddr d) 1 = false then (w d).1 else s.reg (routeAddr d) := by
  induction l generalizing s with
  | nil => simp [State.setRoutes, State.each]
  | cons e l ih =>
    have hstep : s.setRoutes (e :: l) w = (s.setRoute e (w e)).setRoutes l w := rfl
    rw [hstep, ih, flag_setRoute s (hw e), reg_setRoute]
    by_cases hde : d = e
    · subst hde
      by_cases hpin : s.flag (routeAddr d) 1 = false <;> simp [hpin]
    · simp [hde]

end

/-! ### The table follows the map (R258) -/

section
variable (s : State)

/-- The addresses that the map knows. -/
def State.mapAddrs : List Nat := s.fab.map.filterMap fun e => e.lsa.addr.map (·.toNat)

/-- The device's own address is local. -/
def State.ownRoute : State :=
  match s.fab.addr with
  | some a => s.setRoute a (0x21, 0)
  | none => s

theorem ownRoute_eq : s.ownRoute = s.setRoutes s.fab.addr.toList fun _ => (0x21, 0) := by
  unfold State.ownRoute
  cases s.fab.addr <;> rfl

/-- Entries that the map does not give are cleared, those that it gives hold its words, the device's own is local. -/
def State.newRoutes : State :=
  ((s.setRoutes ((s.rows .routing 0).filter fun d => !s.mapAddrs.contains d) fun _ => (0, 0)).setRoutes s.mapAddrs
    s.routeWords).ownRoute

theorem newRoutes_frame : s.newRoutes = { s with regs := s.newRoutes.regs } := by
  rw [State.newRoutes, ownRoute_eq, setRoutes_frame, setRoutes_frame, setRoutes_frame]

/-- No computed entry is pinned. -/
theorem bit_routeWords (d : Nat) : bit (s.routeWords d).1 1 = false := by
  have hword : ∀ w : Nat, w % 4 = 1 → bit (BitVec.ofNat 32 w) 1 = false := fun w hw => by
    rw [bit, BitVec.getLsbD_ofNat, Nat.testBit_eq_decide_div_mod_eq]
    simp
    omega
  unfold State.routeWords
  dsimp only
  split
  case h_1 => rfl
  case h_2 b _ =>
    refine hword _ ?_
    split <;> omega

theorem reg_newRoutes {d : Nat} (hd : d < 16384) : s.newRoutes.reg (routeAddr d) =
    if s.flag (routeAddr d) 1 = true then s.reg (routeAddr d)
    else if s.fab.addr = some d then 0x21
    else if ∃ e ∈ s.fab.map, e.lsa.addr.map (·.toNat) = some d then (s.routeWords d).1 else 0 := by
  have hmap : d ∈ s.mapAddrs ↔ ∃ e ∈ s.fab.map, e.lsa.addr.map (·.toNat) = some d := List.mem_filterMap
  have haddr : ∀ (l k : List Nat) (w x : Nat → Word × Word),
      ((s.setRoutes l w).setRoutes k x).fab.addr = s.fab.addr := fun l k w x => by
    rw [setRoutes_frame, setRoutes_frame]
  rw [State.newRoutes, ownRoute_eq, haddr, reg_setRoutes _ (fun _ => rfl), flag_setRoutes _ (bit_routeWords s),
    flag_setRoutes _ (fun _ => rfl), reg_setRoutes _ (bit_routeWords s), flag_setRoutes _ (fun _ => rfl),
    reg_setRoutes _ (fun _ => rfl)]
  simp only [← hmap, Option.mem_toList, List.mem_filter, List.contains_eq_mem, Bool.not_eq_true',
    decide_eq_false_iff_not]
  cases hpin : s.flag (routeAddr d) 1 with
  | true => simp
  | false =>
    by_cases hown : s.fab.addr = some d
    · simp [hown]
    · by_cases hdest : d ∈ s.mapAddrs
      · simp [hown, hdest]
      · by_cases hrow : d ∈ s.rows .routing 0
        · simp [hown, hdest, hrow]
        · simp [hown, hdest, hrow, reg_routeAddr_of_not_mem_rows hd hrow]

end

/-! ### Reservations in transit whose route has gone (R261) -/

/-- `t` differs from `s` at most in slots that are freed and in the frames that tell so: every route is what it was. -/
structure State.OnlyFrees (s t : State) : Prop where
  frame : t = { s with regs := t.regs, frames := t.frames, fab := { s.fab with
    admits := t.fab.admits, floodDue := t.fab.floodDue, ports := t.fab.ports } }
  route : ∀ d, t.routeTo d = s.routeTo d
  entry : ∀ d, t.reg (routeAddr d) = s.reg (routeAddr d)

theorem onlyFrees_refl (s : State) : s.OnlyFrees s := ⟨rfl, fun _ => rfl, fun _ => rfl⟩

theorem State.OnlyFrees.trans {s t u : State} (h : s.OnlyFrees t) (h' : t.OnlyFrees u) : s.OnlyFrees u where
  frame := Eq.trans h'.frame (congrArg (fun v : State => { v with regs := u.regs, frames := u.frames, fab := { v.fab with
    admits := u.fab.admits, floodDue := u.fab.floodDue, ports := u.fab.ports } }) h.frame)
  route d := (h'.route d).trans (h.route d)
  entry d := (h'.entry d).trans (h.entry d)

theorem State.OnlySends.routeTo {s t : State} (h : s.OnlySends t) (d : Nat) : t.routeTo d = s.routeTo d := by
  simp only [State.routeTo, h.reg _ (clearOfSends_routeAddr d), h.carries]

theorem State.OnlySends.onlyFrees {s t : State} (h : s.OnlySends t) : s.OnlyFrees t where
  frame := h.frame.trans (by rw [h.frame])
  route := h.routeTo
  entry d := h.reg _ (clearOfSends_routeAddr d)

section
variable (s : State)

theorem onlySends_freeOnward (x : Admit) : s.OnlySends (s.freeOnward x) :=
  onlySends_ite (onlySends_sendOn s ..) (onlySends_refl s)

theorem onlyFrees_unadmit (gone : Admit → Bool) : s.OnlyFrees (s.unadmit gone) := by
  unfold State.unadmit
  split
  · exact ⟨rfl, fun _ => rfl, fun _ => rfl⟩
  · exact onlyFrees_refl s

theorem admits_unadmit (gone : Admit → Bool) : (s.unadmit gone).fab.admits = s.fab.admits.filter fun x => !gone x := by
  unfold State.unadmit
  split
  case isTrue => rfl
  case isFalse hnone =>
    refine (List.filter_eq_self.mpr fun x hx => ?_).symm
    cases hgone : gone x with
    | true => exact absurd (List.any_eq_true.mpr ⟨x, hx, hgone⟩) hnone
    | false => rfl

/-- A reservation of another device is freed, here and along the way that it took. -/
def State.freeTransit (x : Admit) : State := (s.unadmit (· = x)).freeOnward x

theorem onlyFrees_freeTransit (x : Admit) : s.OnlyFrees (s.freeTransit x) :=
  (onlyFrees_unadmit s _).trans (onlySends_freeOnward _ x).onlyFrees

theorem admits_freeTransit (x : Admit) : (s.freeTransit x).fab.admits = s.fab.admits.filter (· ≠ x) := by
  have hsent : (s.freeTransit x).fab.admits = (s.unadmit (· = x)).fab.admits := by
    rw [State.freeTransit, (onlySends_freeOnward _ x).frame]
  rw [hsent, admits_unadmit]
  simp

theorem onlyFrees_each (l : List Admit) : s.OnlyFrees (s.each l State.freeTransit) := by
  induction l generalizing s with
  | nil => exact onlyFrees_refl s
  | cons x l ih => exact (onlyFrees_freeTransit s x).trans (ih _)

theorem admits_each (l : List Admit) : (s.each l State.freeTransit).fab.admits = s.fab.admits.filter (· ∉ l) := by
  induction l generalizing s with
  | nil => simp [State.each]
  | cons x l ih =>
    have hstep : s.each (x :: l) State.freeTransit = (s.freeTransit x).each l State.freeTransit := rfl
    rw [hstep, ih, admits_freeTransit, List.filter_filter]
    simp [Bool.and_comm]

/-- A reservation of another device no longer lies on the route to its destination. -/
def State.offRoute (x : Admit) : Bool := x.origin.isSome && s.routeTo x.dest ≠ some x.port

/-- All reservations in transit that are off their route are freed. -/
def State.freeOffRoute : State := s.each (s.fab.admits.filter s.offRoute) State.freeTransit

theorem onlyFrees_freeOffRoute : s.OnlyFrees s.freeOffRoute := onlyFrees_each s _

theorem admits_freeOffRoute : s.freeOffRoute.fab.admits = s.fab.admits.filter fun x => !s.offRoute x := by
  refine (admits_each s _).trans (List.filter_congr fun x hx => ?_)
  simp [hx]

/-- The routes are those of the map, and no computation is due. -/
def State.routesDone : State := { s.newRoutes with fab := { s.newRoutes.fab with routesDue := false } }

theorem routesDone_frame : s.routesDone = { s with
    regs := s.routesDone.regs, fab := { s.fab with routesDue := false } } := by
  unfold State.routesDone
  rw [newRoutes_frame]

/-- The sessions whose route is another than in `old`, and that hold slots or have asked for some, ask again. -/
def State.askMoved (old : State) : State :=
  old.fab.sessions.foldl (fun t x => match t.session x.num with
    | some y => if (y.granted ≠ 0 ∨ y.asked) ∧ t.routeTo y.peer ≠ old.routeTo x.peer then t.askRsv y else t
    | none => t) s

end

theorem exec_routeComputation_due {s : State} (hdue : s.fab.routesDue = true) (hsup : s.supWorks = true)
    (hst : s.pwr.st = .run ∨ s.pwr.st = .idle) (hlive : s.pwr.live = true) :
    exec .routeComputation s = .next (s.routesDone.freeOffRoute.askMoved s).askAgain.deliverPending :=
  congrArg Host.Outcome.next ((if_pos ⟨hdue, hsup, hst, hlive⟩).trans
    (congrArg (fun t : State => t.askAgain.deliverPending) List.foldl_map))

/-- What a computation of the routes leaves, before sessions ask again. -/
theorem routesDone_spec (s : State) :
    let v := s.routesDone.freeOffRoute
    v = { s with regs := v.regs, frames := v.frames,
                 fab := { s.fab with routesDue := false, admits := v.fab.admits, floodDue := v.fab.floodDue,
                                     ports := v.fab.ports } } ∧
      v.fab.admits = s.fab.admits.filter (fun x => !(x.origin.isSome && v.routeTo x.dest ≠ some x.port)) ∧
      ∀ d, d < 16384 → v.reg (routeAddr d) =
        if s.flag (routeAddr d) 1 = true then s.reg (routeAddr d)
        else if s.fab.addr = some d then 0x21
        else if ∃ e ∈ s.fab.map, e.lsa.addr.map (·.toNat) = some d then (s.routeWords d).1 else 0 := by
  have hfrees := onlyFrees_freeOffRoute s.routesDone
  have hadmits : s.routesDone.fab.admits = s.fab.admits := by rw [routesDone_frame]
  refine ⟨hfrees.frame.trans (by rw [routesDone_frame s]), ?_, fun d hd => ?_⟩
  · rw [admits_freeOffRoute, hadmits]
    simp only [State.offRoute, hfrees.route]
  · rw [hfrees.entry]
    exact reg_newRoutes s hd

end Sys2Proof.Machine
end

section
/-! SUPPORT. Proof of the statement of discovery, routes and reservations: time parents, and reservations at a hop and at
the session that asks (R260, R261, R262). -/

namespace Sys2Proof.Machine
open Sys2Proof

/-! ### Time parents (R260) -/

section
variable {s : State} (hst : s.tim.st ≠ .root) (hsup : s.supWorks = true)
include hst hsup

theorem exec_timeParentChoice_none (h : s.parentChoice s.tim.rootAddr = none) :
    exec .timeParentChoice s = .next { s with fab := { s.fab with parent := none } } := by
  refine congrArg Host.Outcome.next ((if_neg (by simp [hst, hsup])).trans ?_)
  rw [h]

theorem exec_timeParentChoice_some {c p h : Nat} (hbest : s.parentChoice s.tim.rootAddr = some (c, p, h)) :
    exec .timeParentChoice s = .next { s with fab := { s.fab with parent := some p, hops := h } } := by
  refine congrArg Host.Outcome.next ((if_neg (by simp [hst, hsup])).trans ?_)
  rw [hbest]

end

/-! ### A request at a hop (R261, R310) -/

/-- Port `q` is up at a width whose limit leaves room for these slots. -/
def State.HasRoom (s : State) (q slots : Nat) : Prop :=
  s.admitted q + slots ≤ 8192 * (s.fport q).width ∧ (s.fport q).st = .up

/-- The tenant's budget on port `q` leaves room for these slots. -/
def State.WithinBudget (s : State) (q tenant slots : Nat) : Prop :=
  ∀ m, s.tc2max tenant = some m → s.tenantSlots q tenant + slots ≤ m

section
variable {s : State} {q tenant slots : Nat}

theorem hasRoom_iff : s.HasRoom q slots ↔
    (decide ((s.fport q).st = .up) && decide (s.admitted q + slots ≤ tc2Limit (s.fport q).width)) = true := by
  rw [Bool.and_eq_true, decide_eq_true_eq, decide_eq_true_eq, and_comm]
  rfl

theorem rsvBar_of_no_room (h : ¬s.HasRoom q slots) : s.rsvBar q tenant slots = some 1 :=
  if_pos (congrArg Bool.not (Bool.eq_false_iff.mpr (mt hasRoom_iff.mpr h)))

section
variable (hroom : s.HasRoom q slots)
include hroom

theorem rsvBar_of_over_budget (h : ¬s.WithinBudget q tenant slots) : s.rsvBar q tenant slots = some 2 := by
  obtain ⟨m, hm, hover⟩ : ∃ m, s.tc2max tenant = some m ∧ ¬s.tenantSlots q tenant + slots ≤ m := by
    simpa [State.WithinBudget] using h
  rw [State.rsvBar, hasRoom_iff.mp hroom, hm]
  simp [hover]

theorem rsvBar_of_fits (h : s.WithinBudget q tenant slots) : s.rsvBar q tenant slots = none := by
  rw [State.rsvBar, hasRoom_iff.mp hroom]
  cases hm : s.tc2max tenant with
  | none => rfl
  | some m => simp [h m hm]

end

end

/-- The slots that a hop holds for a session of another device. -/
abbrev hopHolds (h : RsvHop) (n : Nat) : Admit → Bool := fun x =>
  decide (x.session = n) && decide (x.origin = some h.origin.toNat)

section
variable {s : State} {h : RsvHop} {n slots t : Nat}

theorem hopRequest_free (hslots : slots = 0) : s.hopRequest n h slots t =
    match s.fab.admits.find? (hopHolds h n) with
    | some a => (s.unadmit (hopHolds h n)).freeOnward a
    | none => s.unadmit (hopHolds h n) := by
  exact if_pos hslots

theorem hopRequest_sink (hslots : slots ≠ 0) (hown : (s.unadmit (hopHolds h n)).fab.addr = some h.dest.toNat) :
    s.hopRequest n h slots t = (s.unadmit (hopHolds h n)).sendTo 4 0x0A h.origin.toNat n [3, n, slots] 16 :=
  (if_neg hslots).trans (if_pos hown)

variable (hslots : slots ≠ 0) (hother : (s.unadmit (hopHolds h n)).fab.addr ≠ some h.dest.toNat)
include hslots hother

theorem hopRequest_no_route (hroute : (s.unadmit (hopHolds h n)).transit h.ingress.val h.dest.toNat = none) :
    s.hopRequest n h slots t = (s.unadmit (hopHolds h n)).sendTo 4 0x0A h.origin.toNat n [4, n, 3] 16 := by
  refine (if_neg hslots).trans ((if_neg hother).trans ?_)
  rw [hroute]
  rfl

theorem hopRequest_barred {q why : Nat} (hroute : (s.unadmit (hopHolds h n)).transit h.ingress.val h.dest.toNat = some q)
    (hbar : (s.unadmit (hopHolds h n)).rsvBar q t slots = some why) :
    s.hopRequest n h slots t = (s.unadmit (hopHolds h n)).sendTo 4 0x0A h.origin.toNat n [4, n, why] 16 := by
  refine (if_neg hslots).trans ((if_neg hother).trans ?_)
  rw [hroute]
  dsimp only
  rw [hbar]

theorem hopRequest_admitted {q : Nat} (hroute : (s.unadmit (hopHolds h n)).transit h.ingress.val h.dest.toNat = some q)
    (hbar : (s.unadmit (hopHolds h n)).rsvBar q t slots = none) :
    s.hopRequest n h slots t =
      ((s.unadmit (hopHolds h n)).addAdmit ⟨q, n, t, slots, some h.origin.toNat, h.dest.toNat⟩).sendTo 4 0x0A
        h.dest.toNat n [1, n, slots, t, h.origin.toNat] 16 := by
  refine (if_neg hslots).trans ((if_neg hother).trans ?_)
  rw [hroute]
  dsimp only
  rw [hbar]

end

section
variable {s : State} {n : BitVec 11} {hop : RsvHop} {slots : Nat} {tenant : BitVec 8}

theorem exec_reservationRequest_waits (h : s.leaveIdle.supWorks = false) :
    exec (.reservationRequest n hop slots tenant) s = .next { s.leaveIdle with fab := { s.leaveIdle.fab with
      rsvWait := s.leaveIdle.fab.rsvWait ++ [(n.toNat, hop, slots, tenant.toNat)] } } :=
  congrArg Host.Outcome.next (if_pos (by simp [h]))

theorem exec_reservationRequest_works (h : s.leaveIdle.supWorks = true) :
    exec (.reservationRequest n hop slots tenant) s =
      .next (s.leaveIdle.hopRequest n.toNat hop slots tenant.toNat) :=
  congrArg Host.Outcome.next (if_neg (by simp [h]))

/-! ### The session that asks (R261, R262) -/

variable {x : Session} (hx : s.session n.toNat = some x)
include hx

theorem exec_reservationGrant_asked (hasked : x.asked = true) (hawake : s.awake = true) (slots : Nat) :
    exec (.reservationGrant n slots) s = .next (s.leaveIdle.setSession { x with asked := false, granted := slots }) := by
  refine congrArg Host.Outcome.next ?_
  rw [hx]
  exact if_pos ⟨hasked, hawake⟩

theorem exec_reservationRefuse_held (hheld : x.asked = true ∨ x.granted ≠ 0) (hawake : s.awake = true)
    (reason : BitVec 2) : exec (.reservationRefuse n reason) s =
      .next (((s.leaveIdle.freeRsv n.toNat).unreserve n.toNat).refuseRsv n.toNat reason.toNat) := by
  refine congrArg Host.Outcome.next ?_
  rw [hx]
  exact if_pos ⟨hheld, hawake⟩

end

theorem unreserve_of_session {s : State} {n : Nat} {y : Session} (h : s.session n = some y) : s.unreserve n =
    (s.setSession { y with granted := 0, asked := false, wants := true, bucket := 0 }).catchUp n false := by
  rw [State.unreserve, h]

theorem stick_setReg_frame (s : State) (a : Nat) (v : Word) (k : PageKind) (i n : Nat) :
    (s.setReg a v).stick k i n = { s with regs := ((s.setReg a v).stick k i n).regs } := rfl

theorem refuseRsv_frame (s : State) (n reason : Nat) :
    s.refuseRsv n reason = { s with regs := (s.refuseRsv n reason).regs } := by
  rw [State.refuseRsv]
  exact stick_setReg_frame ..

theorem flag_refuseRsv (s : State) (n reason : Nat) : (s.refuseRsv n reason).flag (ra .fabRouter 0 0x010) 8 = true :=
  flag_stick_same _ .fabRouter 0 8 (by decide)

theorem reg_refuseRsv (s : State) (n reason : Nat) : (s.refuseRsv n reason).reg (ra .fabRouter 0 0x04C) =
    BitVec.ofNat 32 (n + reason * 2 ^ 11 + 2 ^ 31) :=
  (reg_stick_other _ .fabRouter 0 8 (by decide)).trans (reg_setReg_same ..)

/-- Settles O34: what is heard or asked by the condition under which it counts; a computation of the routes as a new table
and what is freed under it; a request by what the hop can do with it; the answers as the session that asked takes them. -/
theorem discoveryRoutesAndReservations : Obligations.DiscoveryRoutesAndReservations := by
  unfold Obligations.DiscoveryRoutesAndReservations
  refine ⟨⟨fun s hsup hlive hclk => exec_lsaFlood_works hsup hlive hclk, fun s port l hcar => ?_,
      fun s uid e hheld hage hsup => exec_lsaWithdraw_old hheld hage hsup,
      fun s port uid lost hroot hsup a ha hfree hleast =>
        exec_addressRequest_free hroot hsup (freeAddr_eq_some ha hfree hleast),
      fun s addr hnone hask hsup => exec_addressAssign_asking hnone hask hsup, fun s hst hlong hnew => ?_⟩,
    fun s hdue hsup hst hlive => ?_,
    fun s hst hsup => ⟨exec_timeParentChoice_none hst hsup, fun c p h => exec_timeParentChoice_some hst hsup⟩,
    fun s n hop slots tenant => ?_, fun s n x hx => ⟨?_, ?_⟩⟩
  · exact ⟨exec_lsaReceive_stale hcar, exec_lsaReceive_news hcar⟩
  · exact ⟨s.loseRoot, exec_rootLost_silent hst hlong hnew, flag_stick_same _ .fabDisc 0 9 (by decide), rfl,
      fun b hb => reg_stick_other _ .fabDisc 0 9 hb⟩
  · obtain ⟨hframe, hadmits, hroutes⟩ := routesDone_spec s
    exact ⟨s.routesDone.freeOffRoute, hframe, hadmits, hroutes, exec_routeComputation_due hdue hsup hst hlive⟩
  · intro run w mine u no on
    refine ⟨exec_reservationRequest_waits, fun hsup hslots => ?_, fun hsup hslots hown => ?_,
      fun hsup hslots hother hroute => ?_, fun q hsup hslots hother hroute => ?_⟩
    · exact (exec_reservationRequest_works hsup).trans (congrArg Host.Outcome.next (hopRequest_free hslots))
    · exact (exec_reservationRequest_works hsup).trans (congrArg Host.Outcome.next (hopRequest_sink hslots hown))
    · exact (exec_reservationRequest_works hsup).trans
        (congrArg Host.Outcome.next (hopRequest_no_route hslots hother hroute))
    · intro room fits
      have hrun := exec_reservationRequest_works (n := n) (hop := hop) (slots := slots) (tenant := tenant) hsup
      refine ⟨fun hno => ?_, fun ⟨hroom, hover⟩ => ?_, fun ⟨hroom, hfits⟩ => ?_⟩
      · exact hrun.trans (congrArg Host.Outcome.next (hopRequest_barred hslots hother hroute (rsvBar_of_no_room hno)))
      · exact hrun.trans (congrArg Host.Outcome.next
          (hopRequest_barred hslots hother hroute (rsvBar_of_over_budget hroom hover)))
      · exact hrun.trans (congrArg Host.Outcome.next
          (hopRequest_admitted hslots hother hroute (rsvBar_of_fits hroom hfits)))
  · exact fun hasked hawake => exec_reservationGrant_asked hx hasked hawake
  · intro reason y hheld hawake hy v
    have hrun := exec_reservationRefuse_held hx hheld hawake reason
    rw [unreserve_of_session hy] at hrun
    exact ⟨v.refuseRsv n.toNat reason.toNat, hrun, flag_refuseRsv v .., reg_refuseRsv v ..,
      refuseRsv_frame v ..⟩

end Sys2Proof.Machine
end

section
/-! SUPPORT. Proof of the statement of how sessions open and resume (R263, R302, R304). -/

namespace Sys2Proof.Machine
open Sys2Proof

/-! ### Opening (R263, R302) -/

/-- The peer is locked out. -/
def State.LockedOut (s : State) (peer : Nat) (host : Bool) : Prop :=
  (kget s.fab.refusals (peerKey peer host) (0, 0)).2 ≠ 0

/-- The refusal of an open, which has no session yet. -/
def State.refuseTo (s : State) (peer : Nat) (host : Bool) : State :=
  if host then s.sendOn 8 4 0x04 peer 0xFFFF [1, 0xFFFF] 16 else s.sendTo 4 0x04 peer 0xFFFF [1, 0xFFFF] 16

section
variable {s : State}

theorem freeSession_eq_none (h : ∀ n, n < 2048 → ∃ x ∈ s.fab.sessions, x.num = n) : s.freeSession = none := by
  refine List.find?_eq_none.mpr fun n hn => ?_
  have hused : (s.fab.sessions.any fun x => x.num = n) = true := by simpa using h n (List.mem_range.mp hn)
  rw [hused]
  decide

theorem freeSession_eq_some {n : Nat} (hn : n < 2048) (hfree : ∀ x ∈ s.fab.sessions, x.num ≠ n)
    (hleast : ∀ k, k < n → ∃ x ∈ s.fab.sessions, x.num = k) : s.freeSession = some n := by
  refine List.find?_range_eq_some.mpr ⟨?_, List.mem_range.mpr hn, fun k hk => ?_⟩
  · simpa using hfree
  · simpa using hleast k hk

variable {peer : BitVec 14} {host : Bool} {role : Role} (hlive : s.pwr.live = true) (hsup : s.supWorks = true)
include hlive hsup

theorem exec_sessionOpen_locked (h : s.leaveIdle.LockedOut peer.toNat host) :
    exec (.sessionOpen peer host role) s = .next (s.leaveIdle.refuseTo peer.toNat host) :=
  congrArg Host.Outcome.next ((if_neg (by simp [hlive, hsup])).trans (if_pos h))

theorem exec_sessionOpen_full (h : s.leaveIdle.freeSession = none) :
    exec (.sessionOpen peer host role) s = .next (s.leaveIdle.refuseTo peer.toNat host) := by
  by_cases hlocked : s.leaveIdle.LockedOut peer.toNat host
  · exact exec_sessionOpen_locked hlive hsup hlocked
  · refine congrArg Host.Outcome.next ((if_neg (by simp [hlive, hsup])).trans ((if_neg hlocked).trans ?_))
    rw [h]
    rfl

theorem exec_sessionOpen_free {n : Nat} (hopen : ¬s.leaveIdle.LockedOut peer.toNat host)
    (hn : s.leaveIdle.freeSession = some n) :
    let x : Session := { num := n, peer := peer.toNat, host := host, role := role }
    exec (.sessionOpen peer host role) s = .next (State.shake { s.leaveIdle with
      fab := { s.leaveIdle.fab with sessions := s.leaveIdle.fab.sessions ++ [x] } } x) := by
  refine congrArg Host.Outcome.next ((if_neg (by simp [hlive, hsup])).trans ((if_neg hopen).trans ?_))
  rw [hn]

end

/-! ### The end of a handshake (R302, R304) -/

/-- The session opens: the peer has shown its leaf, and its refusals are forgotten. -/
def State.openWith (s : State) (x : Session) (leaf : BitVec 384) : State :=
  let o := s.setSession { x with st := .open_, waited := 0, silence := 0, leaf := leaf }
  { o with fab := { o.fab with refusals := kdel o.fab.refusals (peerKey x.peer x.host) } }

section
variable {s : State} {n : BitVec 11} {x : Session} {sig : Bool} {chain : List (List Byte)} {leaf : BitVec 384}
  (hx : s.session n.toNat = some x) (hst : x.st = .handshake) (hsup : s.supWorks = true)
include hx hst hsup

theorem exec_sessionHandshakeDone_good (hsig : sig = true) (hrole : s.leaveIdle.roleOk x.role chain leaf = true) :
    exec (.sessionHandshakeDone n sig chain leaf) s = .next ((s.leaveIdle.openWith x leaf).giveToken n.toNat) := by
  refine congrArg Host.Outcome.next ?_
  rw [hx]
  exact (if_neg (by simp [hst, hsup])).trans (if_pos (by simp [hsig, hrole]))

theorem exec_sessionHandshakeDone_bad (hbad : ¬(sig = true ∧ s.leaveIdle.roleOk x.role chain leaf = true)) :
    exec (.sessionHandshakeDone n sig chain leaf) s = .next ((s.leaveIdle.refuseOpen x).dropNumber n.toNat) := by
  refine congrArg Host.Outcome.next ?_
  rw [hx]
  exact (if_neg (by simp [hst, hsup])).trans (if_neg (by simpa using hbad))

end

/-! ### Refusals, and what the end of a session leaves of them (R302) -/

/-- The own slots of a session, whose reservation starts here. -/
abbrev ownAdmit (n : Nat) : Admit → Bool := fun x => x.session = n && x.origin.isNone

section
variable (s : State) (x : Session) (n : Nat)

theorem onlyFrees_freeRsv : s.OnlyFrees (s.freeRsv n) := by
  unfold State.freeRsv
  dsimp only
  split
  case h_1 => exact onlyFrees_refl s
  case h_2 a _ => exact (onlyFrees_unadmit s _).trans (onlySends_freeOnward _ a).onlyFrees

theorem regs_unadmit (gone : Admit → Bool) : (s.unadmit gone).regs = s.regs := by
  unfold State.unadmit
  split <;> rfl

/-- A sticky bit stays set while slots are freed. -/
theorem flag_freeRsv {b m : Nat} (hb : b % 0x1000 = 0x010) (h : s.flag b m = true) :
    (s.freeRsv n).flag b m = true := by
  unfold State.freeRsv
  dsimp only
  split
  case h_1 => exact h
  case h_2 a _ =>
    refine (onlySends_freeOnward _ a).sticky b m hb ?_
    rwa [State.flag, reg_congr (regs_unadmit s _)]

theorem flag_dropNumber {b m : Nat} (hb : b % 0x1000 = 0x010) (h : s.flag b m = true) :
    (s.dropNumber n).flag b m = true := flag_freeRsv s n hb h

theorem session_dropNumber : (s.dropNumber n).session n = none := by
  refine List.find?_eq_none.mpr fun y hy => ?_
  simpa using (List.mem_filter.mp hy).2

theorem refusals_dropNumber : (s.dropNumber n).fab.refusals = s.fab.refusals := by
  have hfreed : (s.dropNumber n).fab.refusals = (s.freeRsv n).fab.refusals := rfl
  rw [hfreed, (onlyFrees_freeRsv s n).frame]

theorem refusals_refuseOpen : (s.refuseOpen x).fab.refusals =
    let k := peerKey x.peer x.host
    let c := (kget s.fab.refusals k (0, 0)).1 + 1
    kset s.fab.refusals k (c, if 4 ≤ c then 1025 else 0) (0, 0) := by
  have hsent : (s.sendSession x 4 0x04 [1, x.num] 16).fab.refusals = s.fab.refusals := by
    rw [(onlySends_sendSession s ..).frame]
  have hcounted : (s.refuseOpen x).fab.refusals =
    ((s.sendSession x 4 0x04 [1, x.num] 16).countRefusal x.peer x.host).fab.refusals := rfl
  rw [hcounted, State.countRefusal, hsent]

theorem kget_refuseOpen : kget (s.refuseOpen x).fab.refusals (peerKey x.peer x.host) (0, 0) =
    let c := (kget s.fab.refusals (peerKey x.peer x.host) (0, 0)).1 + 1
    (c, if 4 ≤ c then 1025 else 0) := by
  rw [refusals_refuseOpen]
  exact kget_kset_same ..

theorem flag_refuseOpen : (s.refuseOpen x).flag (ra .sec 0 0x010) 10 = true :=
  flag_stick_same _ .sec 0 10 (by decide)

end

/-! ### Resumption (R265, R302, R304) -/

/-- The peer presents the token it was given last, and shows the same leaf, for which the session's role still holds. -/
def State.Resumes (s : State) (x : Session) (token : BitVec 128) (auth : Option PeerAuth) : Prop :=
  token = x.token ∧ ∃ a, auth = some a ∧ a.leaf = x.leaf ∧ s.roleOk x.role a.chain a.leaf = true

/-- A dropped session is open again: each subscription goes on from the last acknowledgement. -/
def Session.resumed (x : Session) : Session :=
  { x with st := .open_, silence := 0, hold := 0, subs := x.subs.map fun (u : Sub) => { u with next := u.acked } }

/-- The session resumes: the peer's refusals are forgotten, and the device shows itself and gives a new token. -/
def State.resumeWith (s : State) (x : Session) : State :=
  let o : State := { s with fab := { s.fab with refusals := kdel s.fab.refusals (peerKey x.peer x.host) } }
  (o.setSession x.resumed).shake x.resumed

/-- A session, where it is there, asks for its slots. -/
def State.askFor (s : State) (n : Nat) : State :=
  match s.session n with
  | some z => s.askRsv z
  | none => s

theorem askFor_of_session {s : State} {n : Nat} {z : Session} (h : s.session n = some z) : s.askFor n = s.askRsv z := by
  rw [State.askFor, h]

section
variable {s : State} {n : BitVec 11} {x : Session} {token : BitVec 128} {auth : Option PeerAuth}
  (hx : s.session n.toNat = some x) (hst : x.st = .dropped) (hsup : s.supWorks = true)
include hx hst hsup

theorem exec_sessionResume_locked (h : s.leaveIdle.LockedOut x.peer x.host) :
    exec (.sessionResume n token auth) s = .next (s.leaveIdle.sendSession x 4 0x04 [1, n.toNat] 16) := by
  refine congrArg Host.Outcome.next ?_
  rw [hx]
  exact (if_neg (by simp [hst, hsup])).trans (if_pos h)

theorem exec_sessionResume_good (hopen : ¬s.leaveIdle.LockedOut x.peer x.host) (hgood : s.leaveIdle.Resumes x token auth)
    {z : Session} (hz : ((s.leaveIdle.resumeWith x).giveToken n.toNat).session n.toNat = some z) :
    exec (.sessionResume n token auth) s =
      .next ((((s.leaveIdle.resumeWith x).giveToken n.toNat).askRsv z).catchUp n.toNat true) := by
  obtain ⟨htoken, a, rfl, hleaf, hrole⟩ := hgood
  have hshown : (some a).any (fun a => a.leaf = x.leaf && s.leaveIdle.roleOk x.role a.chain a.leaf) = true := by
    rw [Option.any_some, hrole, Bool.and_true]
    exact decide_eq_true hleaf
  refine congrArg Host.Outcome.next ?_
  rw [hx]
  exact (if_neg (by simp [hst, hsup])).trans ((if_neg hopen).trans ((if_pos ⟨htoken, hshown⟩).trans
    (congrArg (fun t : State => t.catchUp n.toNat true) (askFor_of_session hz))))

theorem exec_sessionResume_bad (hopen : ¬s.leaveIdle.LockedOut x.peer x.host)
    (hbad : ¬s.leaveIdle.Resumes x token auth) :
    exec (.sessionResume n token auth) s = .next (s.leaveIdle.refuseOpen x) := by
  refine congrArg Host.Outcome.next ?_
  rw [hx]
  refine (if_neg (by simp [hst, hsup])).trans ((if_neg hopen).trans
    (if_neg fun ⟨htoken, hshown⟩ => hbad ⟨htoken, ?_⟩))
  simpa [Option.any_eq_true] using hshown

end

/-! ### The end of a lockout (R302) -/

/-- The lockout counted under a key ends where it is over. -/
def State.endLockout (s : State) (k : Nat) : State :=
  match kget s.fab.refusals k (0, 0) with
  | (n, 1) => { s with fab := { s.fab with refusals := kset s.fab.refusals k (n, 0) (0, 0) } }
  | _ => s

section
variable (s : State) (k : Nat)

theorem exec_openLockoutEnd (peer : BitVec 14) : exec (.openLockoutEnd peer) s =
    .next ((s.endLockout (peerKey peer.toNat false)).endLockout (peerKey peer.toNat true)) := rfl

theorem endLockout_frame :
    s.endLockout k = { s with fab := { s.fab with refusals := (s.endLockout k).fab.refusals } } := by
  unfold State.endLockout
  split <;> rfl

theorem refusals_endLockout : (s.endLockout k).fab.refusals =
    if (kget s.fab.refusals k (0, 0)).2 = 1 then kset s.fab.refusals k ((kget s.fab.refusals k (0, 0)).1, 0) (0, 0)
    else s.fab.refusals := by
  unfold State.endLockout
  split
  case h_1 c hk => rw [hk, if_pos rfl]
  case h_2 hk => exact (if_neg fun hone => hk _ (Prod.ext rfl hone)).symm

theorem kget_endLockout (j : Nat) : kget (s.endLockout k).fab.refusals j (0, 0) =
    if j = k ∧ (kget s.fab.refusals j (0, 0)).2 = 1 then ((kget s.fab.refusals j (0, 0)).1, 0)
    else kget s.fab.refusals j (0, 0) := by
  rw [refusals_endLockout]
  by_cases hjk : j = k
  · subst hjk
    by_cases hone : (kget s.fab.refusals j (0, 0)).2 = 1 <;> simp [hone]
  · by_cases hone : (kget s.fab.refusals k (0, 0)).2 = 1 <;> simp [hone, hjk, kget_kset]

end

/-- Settles O35: an open by whether the peer is locked out and a number is free, the end of a handshake and a resumption
by what the peer has shown, and the end of a lockout key by key. -/
theorem sessionsOpenAndResume : Obligations.SessionsOpenAndResume := by
  unfold Obligations.SessionsOpenAndResume
  refine ⟨fun s peer host role hlive hsup => ⟨?_, ?_⟩, fun s n x sig chain leaf hx hst hsup => ⟨?_, ?_⟩,
    fun s n x token auth hx hst hsup => ?_, fun s peer => ?_⟩
  · rintro (hlocked | hfull)
    · exact exec_sessionOpen_locked hlive hsup hlocked
    · exact exec_sessionOpen_full hlive hsup (freeSession_eq_none hfull)
  · exact fun n hopen hn hfree hleast =>
      exec_sessionOpen_free hlive hsup hopen (freeSession_eq_some hn hfree hleast)
  · exact fun ⟨hsig, hrole⟩ => exec_sessionHandshakeDone_good hx hst hsup hsig hrole
  · intro hbad
    refine ⟨_, exec_sessionHandshakeDone_bad hx hst hsup hbad, session_dropNumber .., ?_, ?_⟩
    · exact flag_dropNumber _ _ (by decide) (flag_refuseOpen ..)
    · rw [refusals_dropNumber, kget_refuseOpen, fab_leaveIdle]
      refine ⟨rfl, ?_⟩
      dsimp only
      split <;> omega
  · rw [← fab_leaveIdle]
    exact ⟨exec_sessionResume_locked hx hst hsup, fun hopen =>
      ⟨fun hgood z hz => exec_sessionResume_good hx hst hsup (not_not_intro hopen) hgood hz,
        exec_sessionResume_bad hx hst hsup (not_not_intro hopen)⟩⟩
  · refine ⟨_, exec_openLockoutEnd s peer, ?_, fun k => ?_⟩
    · rw [endLockout_frame, endLockout_frame s]
    · rw [kget_endLockout, kget_endLockout]
      simp only [peerKey, if_true, Bool.false_eq_true, if_false]
      by_cases hfabric : k = peer.toNat
      · simp [hfabric]
      · simp [hfabric]

end Sys2Proof.Machine
end

section
/-! SUPPORT. Proof of the statement of what open sessions ask for and how they end (R263 to R266, R303). -/

namespace Sys2Proof.Machine
open Sys2Proof

/-! ### Sessions by number -/

section
variable {s : State} {n : Nat} {x y : Session} (hx : s.session n = some x)
include hx

theorem num_of_session : x.num = n := by simpa using List.find?_some hx

theorem session_setSession (hy : y.num = n) : (s.setSession y).session n = some y := by
  have hnum : ∀ z : Session, (if z.num = y.num then y else z).num = z.num := fun z => by
    split
    case isTrue h => exact h.symm
    case isFalse => rfl
  simp only [State.session, State.setSession, List.find?_map, Function.comp_def, hnum]
  rw [State.session] at hx
  rw [hx, Option.map_some, if_pos ((num_of_session hx).trans hy.symm)]

/-- An open session is the one behind requester 0x8000 + n. -/
theorem reqSession_of_open (hn : n < 2048) (hst : x.st = .open_) : s.reqSession (0x8000 + n) = some x := by
  rw [State.reqSession, if_pos ⟨by omega, by omega⟩, Nat.add_sub_cancel_left, hx]
  exact if_pos hst

end

theorem toNat_sessionReq (n : BitVec 11) : (BitVec.ofNat 16 (0x8000 + n.toNat)).toNat = 0x8000 + n.toNat := by
  rw [BitVec.toNat_ofNat]
  omega

/-! ### Subscriptions (R263, R303) -/

/-- The session's role permits the stream, and there is room for one more subscription where it is a new one. -/
def State.Permits (s : State) (x : Session) (i : Nat) : Prop :=
  s.maySubscribe x i = true ∧ (s.subsHeld < 32768 ∨ (x.sub i).isSome = true)

/-- The session with its subscription to stream `i` starting at a record. -/
def Session.subscribed (x : Session) (i start : Nat) : Session :=
  let new : Sub := ⟨i, start, start⟩
  { (if (x.sub i).isSome then x.setSub new else { x with subs := x.subs ++ [new] }) with silence := 0 }

/-- The session subscribes, and asks for slots where the stream is one of TC2. -/
def State.subscribe (s : State) (x : Session) (i start : Nat) : State :=
  if s.isTc2 i then (s.setSession (x.subscribed i start)).askRsv (x.subscribed i start)
  else s.setSession (x.subscribed i start)

/-- The record that a subscription starts at: the one named, or the next. -/
def State.firstRecord (s : State) (i : Nat) (q : Option (BitVec 32)) : Nat :=
  match q with
  | some k => k.toNat
  | none => (s.stream i).seqNo

theorem permits_iff (s : State) (x : Session) (i : Nat) : s.Permits x i ↔
    (!s.maySubscribe x i || (decide (32768 ≤ s.subsHeld) && (x.sub i).isNone)) = false := by
  simp only [State.Permits, Bool.or_eq_false_iff, Bool.not_eq_false', Bool.and_eq_false_iff, decide_eq_false_iff_not,
    Nat.not_le, ← Option.not_isSome, Bool.not_eq_false']

section
variable {s : State} {n : BitVec 11} {x : Session} (hx : s.session n.toNat = some x) (hst : x.st = .open_)
include hx hst

section
variable {stream : BitVec 12} (hawake : s.awake = true)
include hawake

theorem exec_sessionSubscribe_refused (q : Option (BitVec 32)) (h : ¬s.leaveIdle.Permits x stream.toNat) :
    exec (.sessionSubscribe n stream q) s =
      .next (s.leaveIdle.sendSession x 4 0x04 [3, n.toNat, stream.toNat] 16) := by
  have hbarred := Bool.eq_true_of_not_eq_false (mt (permits_iff ..).mpr h)
  refine congrArg Host.Outcome.next ?_
  rw [hx]
  exact (if_neg (by simp [hst, hawake])).trans (if_pos hbarred)

theorem exec_sessionSubscribe_taken (q : Option (BitVec 32)) (h : s.leaveIdle.Permits x stream.toNat) :
    let start := s.leaveIdle.firstRecord stream.toNat q
    let t := s.leaveIdle.subscribe x stream.toNat start
    exec (.sessionSubscribe n stream q) s =
      .next (if q.isSome then t.offerKept n.toNat true (t.keptFrom stream.toNat start) else t) := by
  refine congrArg Host.Outcome.next ?_
  rw [hx]
  exact (if_neg (by simp [hst, hawake])).trans (if_neg (ne_true_of_eq_false ((permits_iff ..).mp h)))

/-! ### Acknowledgements and resends (R264, R279) -/

/-- The session's claim on a kept record ends where it is one of the stream's up to a sequence number. -/
def Kept.acknowledge (n i seq : Nat) (k : Kept) : Kept :=
  if k.record.stream = i ∧ serialNewer 32 k.record.seqNo seq = false then
    { k with claims := k.claims.filter (· ≠ n) } else k

theorem exec_sessionAcknowledge_subscribed (seq : BitVec 32) {u : Sub} (hu : x.sub stream.toNat = some u) :
    let next := (seq.toNat + 1) % 2 ^ 32
    let u' : Sub := { u with acked := if serialNewer 32 next u.acked then next else u.acked }
    let v := s.leaveIdle.setSession { x.setSub u' with silence := 0 }
    exec (.sessionAcknowledge n stream seq) s = .next { v with lake := { v.lake with
      segs := v.lake.segs.map fun (g : Segment) =>
        { g with kept := g.kept.map (Kept.acknowledge n.toNat stream.toNat seq.toNat) } } } := by
  have hmoved : ∀ (c : Prop) [Decidable c] (next : Nat),
      (if c then { u with acked := next } else u) = { u with acked := if c then next else u.acked } := fun c _ next => by
    split <;> rfl
  have hfreed : (fun k : Kept =>
      if (decide (k.record.stream = stream.toNat) && !serialNewer 32 k.record.seqNo seq.toNat) = true then
        { k with claims := k.claims.filter (· ≠ n.toNat) } else k) =
      Kept.acknowledge n.toNat stream.toNat seq.toNat := funext fun k => by
    simp only [Kept.acknowledge, Bool.and_eq_true, decide_eq_true_eq, Bool.not_eq_true']
  refine congrArg Host.Outcome.next ?_
  rw [hx]
  dsimp only
  rw [hu]
  refine (if_neg (by simp [hst, hawake])).trans ?_
  simp only [hmoved, hfreed]

end

theorem exec_ackTmoResend_open (stream : BitVec 12) (hsleep : s.pwr.st ≠ .sleep) :
    let late := fun (k : Kept) => decide (k.record.stream = stream.toNat) &&
      ((x.sub stream.toNat).any fun u => decide (seqAhead k.record.seqNo u.acked < 2 ^ 31)) &&
      decide (kget k.sent n.toNat 0 ≠ 0) &&
      decide (kget k.sent n.toNat 0 - 1 + s.fld (ra .fabRouter 0 0x044) 0 8 ≤ s.tim.msCount)
    let due := ((s.lake.segs.filter fun g => !g.conflicting).flatMap fun g => g.kept.filter late).map (·.record)
    exec (.ackTmoResend n stream) s =
      .next (due.foldl (fun t r => (t.markSent n.toNat r).sendRecord x 3 r true) s) := by
  refine congrArg Host.Outcome.next ?_
  rw [hx]
  exact if_neg (by simp [hst, hsleep])

/-! ### Accesses (R303) -/

/-- What an access of an open session does: it restarts the session's silence, and is one of its requester. -/
theorem exec_sessionRegisterAccess_open (write : Bool) (addr : BitVec 24) (val : Word) :
    let a : Acc := ⟨BitVec.ofNat 16 (0x8000 + n.toNat), 0⟩
    let u := s.setSession { x with silence := 0 }
    exec (.sessionRegisterAccess n write addr val) s =
      .next (if write then (u.accept a).writeAccess a.req.toNat addr.toNat (val.zeroExtend 64) 4
        else if addr.toNat % 4 ≠ 0 then ((u.accept a).stick .sys 0 9).answerWith .unsupported
        else u.readFor a addr.toNat) := by
  intro a u
  have hreq : s.reqSession a.req.toNat = some x :=
    (congrArg s.reqSession (toNat_sessionReq n)).trans (reqSession_of_open hx n.isLt hst)
  have hnum : x.num = n.toNat := num_of_session hx
  have hkept : u.reqSession a.req.toNat = some { x with silence := 0 } :=
    (congrArg u.reqSession (toNat_sessionReq n)).trans
      (reqSession_of_open (session_setSession hx hnum) n.isLt hst)
  refine congrArg Host.Outcome.next ?_
  rw [hreq]
  exact if_neg (by rw [hkept]; exact Bool.false_ne_true)

theorem exec_sessionRegisterAccess_write (addr : BitVec 24) (val : Word) :
    exec (.sessionRegisterAccess n true addr val) s =
      exec (.registerWrite ⟨BitVec.ofNat 16 (0x8000 + n.toNat), 0⟩ addr (val.zeroExtend 64) 4)
        (s.setSession { x with silence := 0 }) :=
  exec_sessionRegisterAccess_open hx hst true addr val

theorem exec_sessionRegisterAccess_read {addr : BitVec 24} (val : Word) (halign : addr.toNat % 4 = 0) :
    exec (.sessionRegisterAccess n false addr val) s =
      .next ((s.setSession { x with silence := 0 }).readFor ⟨BitVec.ofNat 16 (0x8000 + n.toNat), 0⟩ addr.toNat) :=
  (exec_sessionRegisterAccess_open hx hst false addr val).trans
    (congrArg Host.Outcome.next (if_neg (not_not_intro halign)))

/-! ### Keep-alives and drops (R265) -/

theorem exec_sessionKeepAlive_open :
    exec (.sessionKeepAlive n) s = .next (s.setSession { x with silence := 0 }) := by
  refine congrArg Host.Outcome.next ?_
  rw [hx]
  exact if_pos hst

theorem exec_sessionClose_open (hawake : s.awake = true) :
    exec (.sessionClose n) s = .next (s.leaveIdle.dropSession x) := by
  refine congrArg Host.Outcome.next ?_
  rw [hx, hawake]
  dsimp only
  rw [hst]

theorem exec_sessionDrop_silent
    (hlong : 8 ≤ x.silence + if s.pwr.st = .deepSleep then s.tim.time / msSpan - s.pwr.entry / msSpan else 0) :
    exec (.sessionDrop n) s = .next (s.dropSession x) := by
  refine congrArg Host.Outcome.next ?_
  rw [hx]
  exact if_pos ⟨hst, hlong⟩

end

section
variable {s : State} {n : BitVec 11} {x : Session} (hx : s.session n.toNat = some x)
include hx

theorem exec_sessionClose_handshake (hst : x.st = .handshake) (hawake : s.awake = true) :
    exec (.sessionClose n) s = .next (s.leaveIdle.dropNumber n.toNat) := by
  refine congrArg Host.Outcome.next ?_
  rw [hx, hawake]
  dsimp only
  rw [hst, num_of_session hx]

theorem exec_sessionHoldEnd_over (hst : x.st = .dropped) (hhold : s.fld (ra .fabRouter 0 0x044) 8 12 ≠ 0)
    (hover : s.fld (ra .fabRouter 0 0x044) 8 12 * 2 ^ 16 ≤ x.hold) :
    exec (.sessionHoldEnd n) s = .next (s.closeSession x.num) := by
  refine congrArg Host.Outcome.next ?_
  rw [hx]
  exact if_pos ⟨hst, hhold, hover⟩

theorem exec_sessionHoldEnd_kept (hhold : s.fld (ra .fabRouter 0 0x044) 8 12 = 0) :
    exec (.sessionHoldEnd n) s = .next s := by
  refine congrArg Host.Outcome.next ?_
  rw [hx]
  exact if_neg fun h => h.2.1 hhold

end

/-- A session without slots of its own has none to free. -/
theorem freeRsv_of_none {s : State} {n : Nat} (h : ∀ y ∈ s.fab.admits, y.session ≠ n ∨ y.origin.isSome = true) :
    s.freeRsv n = s := by
  have hnone : s.fab.admits.find? (ownAdmit n) = none := List.find?_eq_none.mpr fun y hy => by
    rcases h y hy with hother | htransit
    · simp [hother]
    · simp [Option.isSome_iff_ne_none.mp htransit]
  simp only [State.freeRsv, hnone]

/-- Settles O36: each command where its condition holds: a subscription by whether it is permitted, an access by whether
it writes, and the end of a session by the state that it is in. -/
theorem openSessionsAskAcknowledgeAndEnd : Obligations.OpenSessionsAskAcknowledgeAndEnd := by
  unfold Obligations.OpenSessionsAskAcknowledgeAndEnd
  refine ⟨fun s n x hx hst => ⟨fun stream q hawake => ?_, fun stream seq u hu hawake => ?_, fun stream hsleep => ?_,
      fun addr val => ?_⟩, fun s n x hx => ?_⟩
  · exact ⟨exec_sessionSubscribe_refused hx hst hawake q, exec_sessionSubscribe_taken hx hst hawake q⟩
  · exact exec_sessionAcknowledge_subscribed hx hst hawake seq hu
  · exact exec_ackTmoResend_open hx hst stream hsleep
  · exact ⟨exec_sessionRegisterAccess_write hx hst addr val, exec_sessionRegisterAccess_read hx hst val⟩
  · intro w slept gone hold
    refine ⟨fun hst => exec_sessionKeepAlive_open hx hst, fun hst => exec_sessionClose_open hx hst,
      fun hst => exec_sessionDrop_silent hx hst, fun hst hawake => ?_, exec_sessionHoldEnd_over hx,
      fun _ => exec_sessionHoldEnd_kept hx⟩
    refine ⟨_, exec_sessionClose_handshake hx hst hawake, session_dropNumber .., rfl, fun hnone => ?_⟩
    exact freeRsv_of_none (by rwa [fab_leaveIdle])

end Sys2Proof.Machine
end

section
/-! SUPPORT. Proofs of the statements of the step (R14, R29): it is the command at the front of the queue, and it completes
and keeps the canonical form of the register space. -/

namespace Sys2Proof.Machine
open Sys2Proof

/-- Every command answers a next state that keeps the commands that wait and the canonical form: the lemma of its meaning. -/
theorem exec_keeps {q : List Instr} {s : State} (h : s.Keeps q) (c : Instr) : OutKeeps (exec c s) q :=
  match c with
  | .milestone m => execMilestone_keeps h m
  | .d2dRetry => execD2dRetry_keeps h
  | .d2dFail banks => execD2dFail_keeps h banks
  | .d2dRecovery => execD2dRecovery_keeps h
  | .supervisorWatchdog => execSupervisorWatchdog_keeps h
  | .supervisorResume => execSupervisorResume_keeps h
  | .aonPowerOnReset => execAonPowerOnReset_keeps h
  | .coldReset c => execColdReset_keeps h c
  | .sysReset a key warm => execSysReset_keeps h a key warm
  | .blockReset a page => execBlockReset_keeps h a page
  | .blockResetEnd page => execBlockResetEnd_keeps h page
  | .hostLinkReset c => execHostLinkReset_keeps h c
  | .sysD2dRetryRead a => execSysD2dRetryRead_keeps h a
  | .blockEnable a page en => execBlockEnable_keeps h a page en
  | .registerWrite a addr val width => execRegisterWrite_keeps h a addr val width
  | .commit a page => execCommit_keeps h a page
  | .discard a page => execDiscard_keeps h a page
  | .lockAcquire a page lease => execLockAcquire_keeps h a page lease
  | .lockUnlockCommit a page => execLockUnlockCommit_keeps h a page
  | .lockUnlockDiscard a page => execLockUnlockDiscard_keeps h a page
  | .lockLeaseExpiry page => execLockLeaseExpiry_keeps h page
  | .pairLowRead a r => execPairLowRead_keeps h a r
  | .pairHighRead a r => execPairHighRead_keeps h a r
  | .pairLowWrite a addr val => execPairLowWrite_keeps h a addr val
  | .pairHighWrite a addr val => execPairHighWrite_keeps h a addr val
  | .tableEntryWrite a addr val => execTableEntryWrite_keeps h a addr val
  | .invalidate a t idx => execInvalidate_keeps h a t idx
  | .invalidateAll a t => execInvalidateAll_keeps h a t
  | .automaticSwap t idx => execAutomaticSwap_keeps h t idx
  | .holdInstant ch dt win => execHoldInstant_keeps h ch dt win
  | .deadTimeEnd ch => execDeadTimeEnd_keeps h ch
  | .biasRampEnd ch => execBiasRampEnd_keeps h ch
  | .ecShortOpen ch => execEcShortOpen_keeps h ch
  | .visit scan ch dt codes => execVisit_keeps h scan ch dt codes
  | .portCompliance x => execPortCompliance_keeps h x
  | .portOpen ch => execPortOpen_keeps h ch
  | .portShort ch => execPortShort_keeps h ch
  | .portClamp x => execPortClamp_keeps h x
  | .holderLimit ch => execHolderLimit_keeps h ch
  | .ecShortClose => execEcShortClose_keeps h
  | .heaterTick => execHeaterTick_keeps h
  | .segmentEnd e => execSegmentEnd_keeps h e
  | .stop e => execStop_keeps h e
  | .vset e => execVset_keeps h e
  | .vramp e => execVramp_keeps h e
  | .tset e => execTset_keeps h e
  | .tramp e => execTramp_keeps h e
  | .mark e => execMark_keeps h e
  | .flag e => execFlag_keeps h e
  | .wait e => execWait_keeps h e
  | .jump e => execJump_keeps h e
  | .loop e => execLoop_keeps h e
  | .sync e => execSync_keeps h e
  | .waitSatisfied e => execWaitSatisfied_keeps h e
  | .waitTimeout e => execWaitTimeout_keeps h e
  | .syncReached e => execSyncReached_keeps h e
  | .controlTick total meas => execControlTick_keeps h total meas
  | .heaterProgFault e => execHeaterProgFault_keeps h e
  | .heaterShortGnd e => execHeaterShortGnd_keeps h e
  | .heaterShortVhtr e => execHeaterShortVhtr_keeps h e
  | .heaterOpen e => execHeaterOpen_keeps h e
  | .heaterOvertemp e => execHeaterOvertemp_keeps h e
  | .limitationEnd => execLimitationEnd_keeps h
  | .seqFset a hi val => execSeqFset_keeps h a hi val
  | .seqFclr a hi val => execSeqFclr_keeps h a hi val
  | .stallRelease g => execStallRelease_keeps h g
  | .impPeriodEnd n => execImpPeriodEnd_keeps h n
  | .impVisitEnd n => execImpVisitEnd_keeps h n
  | .impBase a n slot => execImpBase_keeps h a n slot
  | .impBaseAll a n => execImpBaseAll_keeps h a n
  | .pairFault b => execPairFault_keeps h b
  | .pairFaultEnd b => execPairFaultEnd_keeps h b
  | .checkFault ch => execCheckFault_keeps h ch
  | .checkFaultEnd ch => execCheckFaultEnd_keeps h ch
  | .spotRequest a b ch slice any urgent => execSpotRequest_keeps h a b ch slice any urgent
  | .spotStart b slice => execSpotStart_keeps h b slice
  | .spotNoGap b => execSpotNoGap_keeps h b
  | .spotCancel a b => execSpotCancel_keeps h a b
  | .spotDone b codes => execSpotDone_keeps h b codes
  | .spotDropRead a b => execSpotDropRead_keeps h a b
  | .chkCntRead a b => execChkCntRead_keeps h a b
  | .metastable b slice unresolved => execMetastable_keeps h b slice unresolved
  | .trimEnd b slice => execTrimEnd_keeps h b slice
  | .spareStart a b slice => execSpareStart_keeps h a b slice
  | .spareAbort a b => execSpareAbort_keeps h a b
  | .spareConverged b => execSpareConverged_keeps h b
  | .shadowTimeout b => execShadowTimeout_keeps h b
  | .sweepStart n q => execSweepStart_keeps h n q
  | .gateTimeout n => execGateTimeout_keeps h n
  | .sweepEnd n => execSweepEnd_keeps h n
  | .allocatorEvaluation => execAllocatorEvaluation_keeps h
  | .selfCalibrate a banks => execSelfCalibrate_keeps h a banks
  | .calSave a banks => execCalSave_keeps h a banks
  | .calRestore a banks => execCalRestore_keeps h a banks
  | .factoryReload a banks => execFactoryReload_keeps h a banks
  | .resetEstimators a banks => execResetEstimators_keeps h a banks
  | .selfCalibrationPhase b => execSelfCalibrationPhase_keeps h b
  | .selfCalibrationEnd b solved => execSelfCalibrationEnd_keeps h b solved
  | .gapVisit b slice full codes => execGapVisit_keeps h b slice full codes
  | .estimatorConverged b slice => execEstimatorConverged_keeps h b slice
  | .estimatorFail b slice => execEstimatorFail_keeps h b slice
  | .slopeComparison ppm => execSlopeComparison_keeps h ppm
  | .codeArrival fast => execCodeArrival_keeps h fast
  | .intervalEnd stream => execIntervalEnd_keeps h stream
  | .trackLost => execTrackLost_keeps h
  | .speSubstRead a p => execSpeSubstRead_keeps h a p
  | .speSatRead a p => execSpeSatRead_keeps h a p
  | .observation => execObservation_keeps h
  | .switchSilent k => execSwitchSilent_keeps h k
  | .almAck a rule => execAlmAck_keeps h a rule
  | .almAckAll a => execAlmAckAll_keeps h a
  | .foldBack n => execFoldBack_keeps h n
  | .foldRetry n => execFoldRetry_keeps h n
  | .foldTestEnd n limited => execFoldTestEnd_keeps h n limited
  | .extLow n => execExtLow_keeps h n
  | .drvFail n => execDrvFail_keeps h n
  | .alarmFrameRepeat => execAlarmFrameRepeat_keeps h
  | .alarmFrameOnAddress => execAlarmFrameOnAddress_keeps h
  | .alarmFrameReceive f => execAlarmFrameReceive_keeps h f
  | .timFracLoRead a => execTimFracLoRead_keeps h a
  | .timSnap a => execTimSnap_keeps h a
  | .timIncWrite a hi => execTimIncWrite_keeps h a hi
  | .adjStep a next => execAdjStep_keeps h a next
  | .adjSlew a next rate => execAdjSlew_keeps h a next rate
  | .adjSet a next => execAdjSet_keeps h a next
  | .adjCancel a => execAdjCancel_keeps h a
  | .slewEnd => execSlewEnd_keeps h
  | .tinEdge dt => execTinEdge_keeps h dt
  | .tinLost => execTinLost_keeps h
  | .timeFrameReceive port ingress f => execTimeFrameReceive_keeps h port ingress f
  | .holdover => execHoldover_keeps h
  | .healingDelta delta winner => execHealingDelta_keeps h delta winner
  | .msiLatch dt => execMsiLatch_keeps h dt
  | .timWmark a code => execTimWmark_keeps h a code
  | .pllLock => execPllLock_keeps h
  | .laneLoss port lane => execLaneLoss_keeps h port lane
  | .laneRejoin port lane => execLaneRejoin_keeps h port lane
  | .fragmentReceive port f => execFragmentReceive_keeps h port f
  | .negativeAcknowledge port seq => execNegativeAcknowledge_keeps h port seq
  | .linkAcknowledge port seq => execLinkAcknowledge_keeps h port seq
  | .ackTimeout port => execAckTimeout_keeps h port
  | .retryLimit port => execRetryLimit_keeps h port
  | .rekey port => execRekey_keeps h port
  | .laneTrainingDone port lanes => execLaneTrainingDone_keeps h port lanes
  | .authenticationDone port chain sigOk ownerRoot uid peer => execAuthenticationDone_keeps h port chain sigOk ownerRoot uid peer
  | .handshakeTimeout port => execHandshakeTimeout_keeps h port
  | .quarantineRetry port => execQuarantineRetry_keeps h port
  | .lsaFlood => execLsaFlood_keeps h
  | .lsaReceive port l => execLsaReceive_keeps h port l
  | .lsaWithdraw uid => execLsaWithdraw_keeps h uid
  | .addressRequest port uid lost => execAddressRequest_keeps h port uid lost
  | .addressAssign addr => execAddressAssign_keeps h addr
  | .routeComputation => execRouteComputation_keeps h
  | .timeParentChoice => execTimeParentChoice_keeps h
  | .reservationRequest session hop slots tenant => execReservationRequest_keeps h session hop slots tenant
  | .reservationGrant session slots => execReservationGrant_keeps h session slots
  | .reservationRefuse session reason => execReservationRefuse_keeps h session reason
  | .sessionOpen peer host role => execSessionOpen_keeps h peer host role
  | .sessionSubscribe session stream fromSeq => execSessionSubscribe_keeps h session stream fromSeq
  | .sessionAcknowledge session stream seq => execSessionAcknowledge_keeps h session stream seq
  | .ackTmoResend session stream => execAckTmoResend_keeps h session stream
  | .sessionClose session => execSessionClose_keeps h session
  | .sessionKeepAlive session => execSessionKeepAlive_keeps h session
  | .sessionDrop session => execSessionDrop_keeps h session
  | .sessionHoldEnd session => execSessionHoldEnd_keeps h session
  | .sessionResume session token leaf => execSessionResume_keeps h session token leaf
  | .sessionRegisterAccess session write addr val => execSessionRegisterAccess_keeps h session write addr val
  | .rootLost => execRootLost_keeps h
  | .maxageGiveUp seg => execMaxageGiveUp_keeps h seg
  | .replicaChoice cands => execReplicaChoice_keeps h cands
  | .replicaOffer peer uid => execReplicaOffer_keeps h peer uid
  | .pushReceive peer c => execPushReceive_keeps h peer c
  | .segmentRequest peer seg => execSegmentRequest_keeps h peer seg
  | .holderLost k => execHolderLost_keeps h k
  | .segmentReleaseReceive peer uid num => execSegmentReleaseReceive_keeps h peer uid num
  | .copyReceive peer c originatorReachable => execCopyReceive_keeps h peer c originatorReachable
  | .lakeResolve a slot => execLakeResolve_keeps h a slot
  | .lakeDiscard a slot => execLakeDiscard_keeps h a slot
  | .captureTrigger a => execCaptureTrigger_keeps h a
  | .capturePostTriggerEnd => execCapturePostTriggerEnd_keeps h
  | .captureCopyDone => execCaptureCopyDone_keeps h
  | .captureRelease a idx => execCaptureRelease_keeps h a idx
  | .captureReceive first last parts intact => execCaptureReceive_keeps h first last parts intact
  | .replayGo a => execReplayGo_keeps h a
  | .replayAbort a => execReplayAbort_keeps h a
  | .replayDone => execReplayDone_keeps h
  | .secRead a item => execSecRead_keeps h a item
  | .secSign a => execSecSign_keeps h a
  | .secInstall a => execSecInstall_keeps h a
  | .secClear a => execSecClear_keeps h a
  | .secCommandDone c => execSecCommandDone_keeps h c
  | .openLockoutEnd peer => execOpenLockoutEnd_keeps h peer
  | .glazeLoad a dir => execGlazeLoad_keeps h a dir
  | .glazeUnload a dir => execGlazeUnload_keeps h a dir
  | .glazeStore a dir => execGlazeStore_keeps h a dir
  | .glazeStoreDone ok => execGlazeStoreDone_keeps h ok
  | .modeChangeGo a id isLocal => execModeChangeGo_keeps h a id isLocal
  | .modeChangeRecall a isLocal => execModeChangeRecall_keeps h a isLocal
  | .modeChangeReceive port f => execModeChangeReceive_keeps h port f
  | .queryReceive port => execQueryReceive_keeps h port
  | .baseConfiguration boot => execBaseConfiguration_keeps h boot
  | .sourceEvent src level => execSourceEvent_keeps h src level
  | .moderationTimeout t => execModerationTimeout_keeps h t
  | .intEoi a t src => execIntEoi_keeps h a t src
  | .intFeoi a t src => execIntFeoi_keeps h a t src
  | .intClaim a t => execIntClaim_keeps h a t
  | .intFclaim a t => execIntFclaim_keeps h a t
  | .interruptFrameReceive port vector privileged onTc1 => execInterruptFrameReceive_keeps h port vector privileged onTc1
  | .tamper selfTest => execTamper_keeps h selfTest
  | .reqRun a => execReqRun_keeps h a
  | .reqIdle a => execReqIdle_keeps h a
  | .reqSleep a => execReqSleep_keeps h a
  | .reqDeepSleep a => execReqDeepSleep_keeps h a
  | .reqOff a => execReqOff_keeps h a
  | .wakeEvent sources => execWakeEvent_keeps h sources
  | .wakeComplete => execWakeComplete_keeps h
  | .retentionLoss => execRetentionLoss_keeps h
  | .railWarning rail => execRailWarning_keeps h rail
  | .powerFail returned => execPowerFail_keeps h returned
  | .offExit => execOffExit_keeps h
  | .coldStart boot => execColdStart_keeps h boot
  | .sensorBroken sensor => execSensorBroken_keeps h sensor
  | .thmSexclWrite a excl => execThmSexclWrite_keeps h a excl
  | .enforcement => execEnforcement_keeps h
  | .enforceNow a => execEnforceNow_keeps h a
  | .enforcementStep => execEnforcementStep_keeps h
  | .enforcementEnd => execEnforcementEnd_keeps h
  | .thermalShutdown sensor region temp => execThermalShutdown_keeps h sensor region temp
  | .brokenSensorShutdown sensor => execBrokenSensorShutdown_keeps h sensor
  | .thermalRestart => execThermalRestart_keeps h
  | .updBegin a => execUpdBegin_keeps h a
  | .updWrite a => execUpdWrite_keeps h a
  | .updVerify a => execUpdVerify_keeps h a
  | .updActivate a cold => execUpdActivate_keeps h a cold
  | .updConfirm a => execUpdConfirm_keeps h a
  | .updRollback a => execUpdRollback_keeps h a
  | .updAbort a => execUpdAbort_keeps h a
  | .updResolve a copy => execUpdResolve_keeps h a copy
  | .updCommandDone c => execUpdCommandDone_keeps h c
  | .activationReverify c => execActivationReverify_keeps h c
  | .trialExpiry => execTrialExpiry_keeps h
  | .txqTailWrite a tail slots => execTxqTailWrite_keeps h a tail slots
  | .rxqHeadWrite a head => execRxqHeadWrite_keeps h a head
  | .rxRingWrite len isRecord => execRxRingWrite_keeps h len isRecord
  | .i2cWriteWord dt val => execI2cWriteWord_keeps h dt val
  | .i2cReadWord dt => execI2cReadWord_keeps h dt
  | .i2cBusTimeout => execI2cBusTimeout_keeps h
  | .tagSearch a bus => execTagSearch_keeps h a bus
  | .tagReadMemory a bus entry addr len => execTagReadMemory_keeps h a bus entry addr len
  | .tagAnnounce bus => execTagAnnounce_keeps h bus
  | .tagPeriodicSearch => execTagPeriodicSearch_keeps h
  | .tagBusShort bus => execTagBusShort_keeps h bus
  | .tagSearchDone bus rounds => execTagSearchDone_keeps h bus rounds
  | .tagReadDone ack bytes crc => execTagReadDone_keeps h ack bytes crc
  | .fabPretryRead a port => execFabPretryRead_keeps h a port
  | .fabPtagfRead a port => execFabPtagfRead_keeps h a port
  | .fabPqpeakRead a port => execFabPqpeakRead_keeps h a port
  | .fabPdropRead a port => execFabPdropRead_keeps h a port
  | .hstPciQdropRead a => execHstPciQdropRead_keeps h a
  | .toutEdge dt => execToutEdge_keeps h dt
  | .dacTick n => execDacTick_keeps h n
  | .wakeFromOff => execWakeFromOff_keeps h
  | .railWithinWindow rail => execRailWithinWindow_keeps h rail
  | .almPinLevelChange n high => execAlmPinLevelChange_keeps h n high
  | .configurationRequest msixEnable funcMask d3hot vecMask => execConfigurationRequest_keeps h msixEnable funcMask d3hot vecMask
  | .hostLinkUp speed width => execHostLinkUp_keeps h speed width
  | .i2cOffset dt offset write => execI2cOffset_keeps h dt offset write
  | .i2cTransactionEnd left => execI2cTransactionEnd_keeps h left
  | .recoveryRequest peer uid num => execRecoveryRequest_keeps h peer uid num
  | .sessionHandshakeDone session sigOk chain leaf => execSessionHandshakeDone_keeps h session sigOk chain leaf

theorem step_of_front {s : State} {c : Instr} {rest : List Instr} (h : s.pending = c :: rest) :
    step s = exec c { s with pending := rest } := by
  simp only [step, State.pop, h, List.tail_cons]

/-- Settles O1: a step takes the front command off the queue and runs it. -/
theorem stepRunsFrontCommand : Obligations.StepRunsFrontCommand := by
  unfold Obligations.StepRunsFrontCommand
  exact fun c rest s h => step_of_front h

/-- Settles O4: taking the front command off the queue leaves the register space alone, and its meaning keeps the rest. -/
theorem everyStepCompletesAndKeepsTheForm : Obligations.EveryStepCompletesAndKeepsTheForm := by
  unfold Obligations.EveryStepCompletesAndKeepsTheForm
  intro s c rest h
  have hpop : ({ s with pending := rest } : State).Keeps rest := ⟨rfl, h.wf⟩
  rw [step_of_front h.queue]
  exact exec_keeps hpop c

end Sys2Proof.Machine
end

section
/-! SUPPORT. What records and waymarks on their way out leave alone beside `State.OnlyEmits`: the registers clear of frames
sent, the ports of the fabric but for their queues, and the holders of own segments (R187 to R190, R240, R262, R264, R277,
R280). -/

namespace Sys2Proof.Machine
open Sys2Proof

/-- Registers clear of frames sent, the fabric's ports but for their queues, the holders and when they are chosen next
stand in `t` as in `s`, and no sticky bit is cleared. -/
structure State.SparesLake (s t : State) : Prop where
  holders : t.lake.holders = s.lake.holders
  choiceIn : t.lake.choiceIn = s.lake.choiceIn
  fport : ∀ p, t.fport p = { s.fport p with queue := (t.fport p).queue }
  reg : ∀ b, clearOfSends b → t.reg b = s.reg b
  sticky : ∀ b n, b % 0x1000 = 0x010 → s.flag b n = true → t.flag b n = true

section
variable {s t u : State}

theorem sparesLake_of_same (hholders : t.lake.holders = s.lake.holders) (hchoice : t.lake.choiceIn = s.lake.choiceIn)
    (hports : t.fab.ports = s.fab.ports) (hregs : t.regs = s.regs) : s.SparesLake t where
  holders := hholders
  choiceIn := hchoice
  fport p := by simp only [State.fport, hports]
  reg b _ := by simp only [State.reg, hregs]
  sticky b n _ h := by simpa only [State.flag, State.reg, hregs] using h

theorem sparesLake_refl (s : State) : s.SparesLake s := sparesLake_of_same rfl rfl rfl rfl

theorem State.SparesLake.trans (h : s.SparesLake t) (h' : t.SparesLake u) : s.SparesLake u where
  holders := h'.holders.trans h.holders
  choiceIn := h'.choiceIn.trans h.choiceIn
  fport p := (h'.fport p).trans (by rw [h.fport p])
  reg b hb := (h'.reg b hb).trans (h.reg b hb)
  sticky b n hb hn := h'.sticky b n hb (h.sticky b n hb hn)

theorem State.OnlySends.sparesLake (h : s.OnlySends t) : s.SparesLake t where
  holders := by rw [h.frame]
  choiceIn := by rw [h.frame]
  fport := h.fport
  reg := h.reg
  sticky := h.sticky

theorem sparesLake_ite {p : Prop} [Decidable p] (ht : s.SparesLake t) (hu : s.SparesLake u) :
    s.SparesLake (if p then t else u) := by
  split
  · exact ht
  · exact hu

theorem sparesLake_each {α : Type} (l : List α) {f : State → α → State} (hf : ∀ (t : State) x, t.SparesLake (f t x))
    (s : State) : s.SparesLake (s.each l f) := by
  induction l generalizing s with
  | nil => exact sparesLake_refl s
  | cons x l ih => exact (hf s x).trans (ih (f s x))

end

section
variable (s : State)

theorem sparesLake_stick {k : PageKind} {i : Nat} (n : Nat) (hpage : 0x100000 ≤ ra k i 0x010)
    (hoff : ra k i 0x010 % 0x1000 = 0x010) : s.SparesLake (s.stick k i n) :=
  (onlySends_orReg s _ hpage hoff).sparesLake

theorem sparesLake_stickLake (n : Nat) : s.SparesLake (s.stick .lak 0 n) :=
  sparesLake_stick s n (by decide) (by decide)

theorem sparesLake_sendTo (cls kind dest session : Nat) (payload : List Int) (len : Nat) :
    s.SparesLake (s.sendTo cls kind dest session payload len) := (onlySends_sendTo s ..).sparesLake

theorem sparesLake_sendParts (cls kind dest session : Nat) (head : List Int) (data : List Byte) :
    s.SparesLake (s.sendParts cls kind dest session head data) :=
  sparesLake_each _ (fun t _ => sparesLake_sendTo t ..) s

theorem sparesLake_sendRecord (x : Session) (cls : Nat) (r : Record) (recovered : Bool) :
    s.SparesLake (s.sendRecord x cls r recovered) := (onlySends_sendSession s ..).sparesLake

/-! ### The lake takes a record (R277, R279, R280, R285) -/

theorem sparesLake_setSeg (g : Segment) : s.SparesLake (s.setSeg g) := sparesLake_of_same rfl rfl rfl rfl

theorem sparesLake_sealSeg (g : Segment) : s.SparesLake (s.sealSeg g).1 := by
  unfold State.sealSeg State.pushSeg
  split
  case isTrue => exact sparesLake_each _ (fun t _ => sparesLake_sendParts t ..) s
  case isFalse => exact sparesLake_refl s

theorem sparesLake_dropSeg (g : Segment) : s.SparesLake (s.dropSeg g) := by
  have hgone : ∀ (segs : List Segment) (owed : List (Nat × Nat)),
      s.SparesLake { s with lake := { s.lake with segs := segs, owed := owed } } := fun _ _ =>
    sparesLake_of_same rfl rfl rfl rfl
  exact sparesLake_ite ((hgone ..).trans (sparesLake_each _ (fun t _ => sparesLake_sendTo t ..) _)) (hgone ..)

theorem sparesLake_makeRoom (tenant : Nat) (repl : Bool) : s.SparesLake (s.makeRoom tenant repl).1 := by
  unfold State.makeRoom
  split
  case h_1 => exact sparesLake_refl s
  case h_2 =>
    split
    case h_1 g _ =>
      exact (sparesLake_dropSeg s g).trans (sparesLake_ite (sparesLake_refl _) (sparesLake_stickLake _ 8))
    case h_2 => exact sparesLake_refl s

theorem sparesLake_appendFresh (r : Record) (cls : Nat × Bool) (k : Kept) :
    s.SparesLake (s.appendFresh r cls k).1 := by
  have hroom := sparesLake_makeRoom s cls.1 cls.2
  unfold State.appendFresh
  split
  case h_1 hmake =>
    rw [hmake] at hroom
    exact hroom.trans (sparesLake_of_same rfl rfl rfl rfl)
  case h_2 hmake =>
    rw [hmake] at hroom
    exact hroom.trans (sparesLake_ite (sparesLake_refl _) (sparesLake_stickLake _ 8))

theorem sparesLake_lakeAppend (r : Record) (cls : Nat × Bool) : s.SparesLake (s.lakeAppend r cls).1 := by
  rw [lakeAppend_eq]
  split
  case h_1 g _ =>
    split
    case isTrue => exact sparesLake_setSeg s _
    case isFalse =>
      exact ((sparesLake_sealSeg s g).trans (sparesLake_setSeg _ _)).trans (sparesLake_appendFresh _ r cls _)
  case h_2 => exact sparesLake_appendFresh s r cls _

/-! ### A record goes out (R187, R189, R262, R264, R267) -/

theorem sparesLake_offer (x : Session) (r : Record) (recovered : Bool) : s.SparesLake (s.offer x r recovered) := by
  unfold State.offer
  split
  case h_1 => exact sparesLake_refl s
  case h_2 u _ =>
    have hnoted : ∀ y : Session, s.SparesLake ((s.markSent x.num r).setSession y) := fun _ =>
      sparesLake_of_same rfl rfl rfl rfl
    have hsend : ∀ (y z : Session) (cls : Nat) (again : Bool),
        s.SparesLake (((s.markSent x.num r).setSession y).sendRecord z cls r again) := fun y z cls again =>
      (hnoted y).trans (sparesLake_sendRecord _ z cls r again)
    exact sparesLake_ite (sparesLake_ite (sparesLake_ite (hsend ..) (sparesLake_refl s)) (hsend ..)) (sparesLake_refl s)

theorem sparesLake_emitOne (r : Record) (refUndet : Bool) (cls : Nat × Bool) :
    s.SparesLake (s.emitOne r refUndet cls).1 := by
  unfold State.emitOne
  lift_lets
  intro st mark moved r' numbered spe emitted stored offered
  have hemitted : s.SparesLake emitted := sparesLake_of_same rfl rfl rfl rfl
  have hstored : s.SparesLake stored.1 := hemitted.trans (sparesLake_lakeAppend emitted r' cls)
  have hoffered : s.SparesLake offered := hstored.trans (sparesLake_each _ (fun t x => sparesLake_offer t x r' false) _)
  exact sparesLake_ite hoffered (hoffered.trans (sparesLake_of_same rfl rfl rfl rfl))

theorem sparesLake_tellGiveUp (g : Nat × Nat × Nat × Nat) : s.SparesLake (s.tellGiveUp g) := by
  refine State.SparesLake.trans (onlySends_stickRouter s 10).sparesLake ?_
  unfold State.tellGiveUp
  dsimp only
  split
  case h_1 x _ => exact sparesLake_ite (sparesLake_sendRecord _ ..) (sparesLake_refl _)
  case h_2 => exact sparesLake_refl _

end

theorem sparesLake_emitWith (fuel : Nat) (s : State) (r : Record) (refUndet : Bool) (cls : Nat × Bool) :
    s.SparesLake (s.emitWith fuel r refUndet cls) := by
  induction fuel generalizing s r refUndet cls with
  | zero => exact (sparesLake_emitOne s ..).trans (sparesLake_each _ (fun t g => sparesLake_tellGiveUp t g) _)
  | succ fuel ih =>
    exact (sparesLake_emitOne s ..).trans (sparesLake_each _
      (fun t g => (sparesLake_tellGiveUp t g).trans (sparesLake_each _ (fun v i => ih v ..) _)) _)

theorem sparesLake_waymark (s : State) (cls : Nat) (vals : List Int) : s.SparesLake (s.waymark cls vals) :=
  sparesLake_each _ (fun t _ => sparesLake_emitWith _ t ..) s

section
variable {s t : State} (h : s.SparesLake t)
include h

theorem State.SparesLake.peerOf (p : Nat) : t.peerOf p = s.peerOf p := by
  have hcarries : (t.fport p).carries = (s.fport p).carries := by
    rw [h.fport p]
    rfl
  have hpeer : (t.fport p).peer = (s.fport p).peer := by rw [h.fport p]
  rw [State.peerOf, hcarries, hpeer, State.peerOf]

theorem State.SparesLake.flag {b : Nat} (hb : clearOfSends b) (n : Nat) : t.flag b n = s.flag b n := by
  rw [State.flag, h.reg b hb, State.flag]

theorem State.SparesLake.lakForbids (a : Nat) : t.lakForbids a = s.lakForbids a := by
  have hclear : ∀ i < 8, clearOfSends (ra .lak 0 (0x060 + 4 * i)) := by decide
  simp only [State.lakForbids]
  refine Bool.eq_iff_iff.mpr ?_
  simp only [List.any_eq_true, List.mem_range]
  exact exists_congr fun i => and_congr_right fun hi => by rw [h.reg _ (hclear i hi)]

end

end Sys2Proof.Machine
end

section
/-! SUPPORT. Proof of the statement of own segments and their holders (R281, R284 to R287). -/

namespace Sys2Proof.Machine
open Sys2Proof

/-- The device is up in Run or Idle. -/
theorem up_of_awake {s : State} (hlive : s.pwr.live = true) (hst : s.pwr.st = .run ∨ s.pwr.st = .idle) :
    (s.pwr.live && (s.pwr.st = .run || s.pwr.st = .idle)) = true := by
  simpa [hlive] using hst

/-! ### Claims too old, and holders that are gone (R281, R286) -/

theorem exec_maxageGiveUp_old {s : State} {seg : Nat} {g : Segment}
    (hg : s.lake.segs.find? (fun x => x.num = seg) = some g) (hage : s.fld (ra .lak 0 0x040) 16 16 ≠ 0)
    (hsealed : g.sealed = true) (hconf : g.conflicting = false) (hclaims : g.claims ≠ [])
    (hold : g.sealMs + s.fld (ra .lak 0 0x040) 16 16 * 2 ^ 16 ≤ s.tim.msCount) :
    exec (.maxageGiveUp seg) s = .next (((s.giveUpSeg seg).stick .lak 0 9).releaseNow seg) := by
  refine congrArg Host.Outcome.next ?_
  rw [hg]
  exact if_pos ⟨hage, hsealed, by simp [hconf], by simpa using hclaims, hold⟩

theorem exec_holderLost_late {s : State} {i : Fin 2} {h : Nat × Nat × Nat}
    (hplace : s.lake.holders.find? (fun x => x.1 = i.val) = some h) (hlate : 64 ≤ kget s.lake.holderAge i.val 0) :
    exec (.holderLost i) s = .next (State.waymark { s with lake := { s.lake with
      holders := s.lake.holders.filter fun x => x.1 ≠ i.val
      holderAge := kset s.lake.holderAge i.val 0 0, lost := s.lake.lost ++ [h.2.1], choiceIn := 0 } } 0x19 [i.val, -1]) := by
  refine congrArg Host.Outcome.next ?_
  rw [hplace]
  exact if_pos hlate

/-! ### Frames of replication answered (R284, R285, R287) -/

theorem exec_replicaOffer_works {s : State} (peer : BitVec 14) (uid : BitVec 64) (hlive : s.pwr.live = true)
    (hsup : s.supWorks = true) : exec (.replicaOffer peer uid) s =
      .next (s.sendTo 3 0x05 peer.toNat 0xFFFF [if s.rfree = 0 then 2 else 1, uid.toNat, s.rfree] 16) :=
  congrArg Host.Outcome.next (if_neg (by simp [hlive, hsup]))

theorem exec_segmentRequest_held {s : State} {seg : Nat} {g : Segment} (peer : BitVec 14) (hlive : s.pwr.live = true)
    (hst : s.pwr.st = .run ∨ s.pwr.st = .idle)
    (hg : s.lake.segs.find? (fun x => decide (x.num = seg) && x.replicated && !x.conflicting) = some g) :
    exec (.segmentRequest peer seg) s =
      .next (s.sendParts 3 0x05 peer.toNat 0xFFFF [5, g.num, g.issue] (s.segBytes g)) := by
  refine congrArg Host.Outcome.next ((if_neg (by simp [up_of_awake hlive hst])).trans ?_)
  rw [hg]
  rfl

section
variable {s : State} (peer : BitVec 14) (uid : BitVec 64) (num : Nat) (hlive : s.pwr.live = true)
  (hawake : s.awake = true)
include hlive hawake

theorem exec_recoveryRequest_none (h : s.copiesOf uid.toNat num = []) :
    exec (.recoveryRequest peer uid num) s = .next (s.sendTo 3 0x05 peer.toNat 0xFFFF [8, uid.toNat, num] 16) := by
  refine congrArg Host.Outcome.next ((if_neg (by simp [hlive, hawake])).trans ?_)
  rw [h]

theorem exec_recoveryRequest_held (h : s.copiesOf uid.toNat num ≠ []) :
    exec (.recoveryRequest peer uid num) s = .next ((s.copiesOf uid.toNat num).foldl
      (fun t r => t.sendParts 3 0x05 peer.toNat 0xFFFF [5, r.num, r.issue] r.bytes) s) := by
  refine congrArg Host.Outcome.next ((if_neg (by simp [hlive, hawake])).trans ?_)
  split
  case h_1 hnone => exact absurd hnone h
  case h_2 => rfl

end

/-! ### A choice of holders (R284, R285) -/

/-- The candidates of a choice as the model takes them. -/
def candidates (cands : List (BitVec 14 × Fin 8 × Nat)) : List Candidate :=
  cands.map fun c => ⟨c.1.toNat, c.2.1.val, c.2.2⟩

/-- A choice is due, or follows a holder's refusal. -/
def State.ChoiceDue (s : State) (cs : List Candidate) : Prop :=
  s.lake.choiceIn = 0 ∨ s.lake.holders.any (refuses cs) = true

/-- The holders that keep their place in a choice. -/
def State.stayers (s : State) (cs : List Candidate) : List (Nat × Nat × Nat) :=
  s.lake.holders.filter fun h => !(refuses cs h || s.lakForbids h.2.1)

/-- A choice begins: those that refuse or are forbidden lose their place, and the next one is in 1,024 milestones. -/
def State.beginChoice (s : State) (cs : List Candidate) : State :=
  { s.refusedBy cs with lake := { (s.refusedBy cs).lake with choiceIn := 1024 } }

/-- Offers go out while a place is free. -/
def State.sendOffers (s : State) (cs : List Candidate) : State :=
  if s.lake.holders.length < 2 then
    s.each (cs.filter fun c => !s.lakForbids c.addr && s.peerOf c.port = some c.addr) fun t c =>
      t.sendTo 3 0x05 c.addr 0xFFFF [0, t.uid] 16
  else s

/-- A waymark for each place that was taken before and is free. -/
def State.markGone (s : State) (before : List Nat) : State :=
  s.each (before.filter fun i => !(s.lake.holders.any fun h => h.1 = i)) fun t i => t.waymark 0x19 [(i : Int), -1]

/-- NO_HOLDER is set where fewer than two holders are left. -/
def State.noteFew (s : State) : State := if s.lake.holders.length < 2 then s.lakStick 11 else s

/-- A choice up to what it reports: the places that are free are filled. -/
def State.chooseHolders (s : State) (cs : List Candidate) : State :=
  (((s.beginChoice cs).sendOffers cs).fillHolders cs).markGone (s.lake.holders.map (·.1))

section
variable {s : State} {cands : List (BitVec 14 × Fin 8 × Nat)}

theorem exec_replicaChoice_due (hlive : s.pwr.live = true) (hst : s.pwr.st = .run ∨ s.pwr.st = .idle)
    (hrun : s.sup.running = true) (hdue : s.ChoiceDue (candidates cands)) :
    exec (.replicaChoice cands) s = .next (s.chooseHolders (candidates cands)).noteFew := by
  have hup := up_of_awake hlive hst
  have hacts : ¬(!(s.pwr.live && (s.pwr.st = .run || s.pwr.st = .idle)) || !s.sup.running ||
      (s.lake.choiceIn ≠ 0 && !s.lake.holders.any (refuses (candidates cands)))) = true := by
    rw [hup, hrun]
    rcases hdue with hdue | hdue
    · simp [hdue]
    · simp [hdue]
  unfold State.noteFew State.chooseHolders State.beginChoice State.sendOffers State.markGone
  exact congrArg Host.Outcome.next (if_neg hacts)

theorem exec_replicaChoice_waits (h : ¬s.ChoiceDue (candidates cands)) : exec (.replicaChoice cands) s = .next s := by
  simp only [State.ChoiceDue, not_or, candidates, Bool.not_eq_true] at h
  obtain ⟨hlater, hnone⟩ := h
  exact congrArg Host.Outcome.next (if_pos (by simp [hlater, hnone]))

end

/-- A candidate takes place `i`; the waymark and the segments that it gets follow. -/
def State.addHolder (s : State) (i : Nat) (c : Candidate) : State :=
  { s with lake := { s.lake with holders := s.lake.holders ++ [(i, c.addr, c.port)]
                                 holderAge := kset s.lake.holderAge i 0 0
                                 lost := s.lake.lost.filter (· ≠ c.addr) } }

/-- Place `i` is filled from the candidates, where it is free and one is eligible. -/
def State.fillPlace (s : State) (cs : List Candidate) (i : Nat) : State :=
  if s.lake.holders.any fun h => h.1 = i then s
  else match bestHolder (s.lake.holders.map (·.2.2)) (cs.filter s.eligibleHolder) with
    | some c => s.takeHolder i c
    | none => s

theorem fillHolders_eq (s : State) (cs : List Candidate) :
    s.fillHolders cs = (s.fillPlace cs 0).fillPlace cs 1 := rfl

theorem sparesLake_takeHolder (s : State) (i : Nat) (c : Candidate) : (s.addHolder i c).SparesLake (s.takeHolder i c) :=
  (sparesLake_waymark ..).trans (sparesLake_each _ (fun t _ => sparesLake_sendParts t ..) _)

theorem sparesLake_sendOffers (s : State) (cs : List Candidate) : s.SparesLake (s.sendOffers cs) :=
  sparesLake_ite (sparesLake_each _ (fun t _ => sparesLake_sendTo t ..) s) (sparesLake_refl s)

theorem sparesLake_markGone (s : State) (before : List Nat) : s.SparesLake (s.markGone before) :=
  sparesLake_each _ (fun t _ => sparesLake_waymark t ..) s

theorem sparesLake_noteFew (s : State) : s.SparesLake s.noteFew :=
  sparesLake_ite (sparesLake_stickLake s 11) (sparesLake_refl s)

theorem mem_of_bestHolder {used : List Nat} {cs : List Candidate} {c : Candidate} (h : bestHolder used cs = some c) :
    c ∈ cs := by
  have hfold : ∀ (l : List Candidate) (m : Option Candidate),
      l.foldl (fun m x => match m with
        | none => some x
        | some y => if x.before used y then some x else m) m = some c → m = some c ∨ c ∈ l := by
    intro l
    induction l with
    | nil => exact fun m hm => .inl hm
    | cons x l ih =>
      intro m hm
      rcases ih _ hm with hm | hm
      · cases m with
        | none => exact .inr (by simp_all)
        | some y =>
          by_cases hb : x.before used y = true
          · exact .inr (by simp_all)
          · exact .inl (by simp_all)
      · exact .inr (List.mem_cons_of_mem x hm)
  exact (hfold cs none h).resolve_left (by simp)

/-- A holder that a choice may add to those that stay: at a place none of them has, a candidate with room on the port at
which it is the peer, not forbidden. -/
def State.Choosable (s : State) (cs : List Candidate) (stay : List (Nat × Nat × Nat)) (h : Nat × Nat × Nat) : Prop :=
  (h.1 = 0 ∨ h.1 = 1) ∧ stay.any (fun x => x.1 = h.1) = false ∧
    ∃ c ∈ cs, c.addr = h.2.1 ∧ c.port = h.2.2 ∧ c.free ≠ 0 ∧ s.peerOf h.2.2 = some h.2.1 ∧ s.lakForbids h.2.1 = false

/-- `t` is on the way of a choice of `s`: it has added to those that stay only holders that the choice may add. -/
structure State.Choosing (s : State) (cs : List Candidate) (t : State) : Prop where
  holders : ∃ new, t.lake.holders = s.stayers cs ++ new ∧ ∀ h ∈ new, s.Choosable cs (s.stayers cs) h
  choiceIn : t.lake.choiceIn = 1024
  peerOf : ∀ p, t.peerOf p = s.peerOf p
  lakForbids : ∀ a, t.lakForbids a = s.lakForbids a

section
variable {s t u : State} {cs : List Candidate}

theorem choosing_beginChoice (s : State) (cs : List Candidate) : s.Choosing cs (s.beginChoice cs) :=
  ⟨⟨[], (List.append_nil _).symm, by simp⟩, rfl, fun _ => rfl, fun _ => rfl⟩

theorem State.Choosing.spares (h : s.Choosing cs t) (hu : t.SparesLake u) : s.Choosing cs u where
  holders := by rw [hu.holders]; exact h.holders
  choiceIn := hu.choiceIn.trans h.choiceIn
  peerOf p := (hu.peerOf p).trans (h.peerOf p)
  lakForbids a := (hu.lakForbids a).trans (h.lakForbids a)

theorem State.Choosing.addHolder {i : Nat} {c : Candidate} (h : s.Choosing cs t) (hi : i = 0 ∨ i = 1)
    (hfree : t.lake.holders.any (fun x => x.1 = i) = false) (hc : c ∈ cs.filter t.eligibleHolder) :
    s.Choosing cs (t.addHolder i c) := by
  obtain ⟨new, hnew, hmay⟩ := h.holders
  obtain ⟨hmem, helig⟩ := List.mem_filter.mp hc
  simp only [State.eligibleHolder, Bool.and_eq_true, decide_eq_true_eq, Bool.not_eq_true'] at helig
  obtain ⟨⟨⟨hpeer, hallowed⟩, hroom⟩, -⟩ := helig
  rw [h.peerOf] at hpeer
  rw [h.lakForbids] at hallowed
  rw [hnew, List.any_append, Bool.or_eq_false_iff] at hfree
  refine ⟨⟨new ++ [(i, c.addr, c.port)], ?_, fun x hx => ?_⟩, h.choiceIn, h.peerOf, h.lakForbids⟩
  · rw [← List.append_assoc, ← hnew]
    rfl
  · rcases List.mem_append.mp hx with hx | hx
    · exact hmay x hx
    · obtain rfl := List.mem_singleton.mp hx
      exact ⟨hi, hfree.1, c, hmem, rfl, rfl, hroom, hpeer, hallowed⟩

theorem State.Choosing.fillPlace {i : Nat} (h : s.Choosing cs t) (hi : i = 0 ∨ i = 1) :
    s.Choosing cs (t.fillPlace cs i) := by
  unfold State.fillPlace
  split
  case isTrue => exact h
  case isFalse hfree =>
    split
    case h_1 c hbest =>
      exact (h.addHolder hi (Bool.eq_false_iff.mpr hfree) (mem_of_bestHolder hbest)).spares (sparesLake_takeHolder t i c)
    case h_2 => exact h

theorem choosing_chooseHolders (s : State) (cs : List Candidate) : s.Choosing cs (s.chooseHolders cs) := by
  have hoffered := (choosing_beginChoice s cs).spares (sparesLake_sendOffers _ cs)
  have hfilled := (hoffered.fillPlace (.inl rfl)).fillPlace (i := 1) (.inr rfl)
  exact hfilled.spares (sparesLake_markGone _ _)

theorem flag_noteFew (s : State) (h : s.lake.holders.length < 2) : s.noteFew.flag (ra .lak 0 0x010) 11 = true := by
  rw [State.noteFew, if_pos h]
  exact flag_stick_same s .lak 0 11 (by decide)

/-! ### Choices of no and of one candidate -/

theorem fillPlace_nil (s : State) (i : Nat) : s.fillPlace [] i = s := by
  unfold State.fillPlace
  split <;> rfl

theorem markGone_of_all {before : List Nat} (h : ∀ i ∈ before, s.lake.holders.any (fun h => h.1 = i) = true) :
    s.markGone before = s := by
  have hnone : (before.filter fun i => !(s.lake.holders.any fun h => h.1 = i)) = [] :=
    List.filter_eq_nil_iff.mpr fun i hi => by simp only [h i hi, Bool.not_true, Bool.false_eq_true, not_false_eq_true]
  rw [State.markGone, hnone]
  rfl

theorem sendOffers_nil (s : State) : s.sendOffers [] = s := by
  unfold State.sendOffers
  split <;> rfl

theorem beginChoice_nil (h : s.lake.holders.any (fun h => s.lakForbids h.2.1) = false) :
    s.beginChoice [] = { s with lake := { s.lake with choiceIn := 1024 } } := by
  rw [List.any_eq_false] at h
  have hstay : (s.lake.holders.filter fun h => !(refuses [] h || s.lakForbids h.2.1)) = s.lake.holders :=
    List.filter_eq_self.mpr fun x hx => by simp [refuses, h x hx]
  have hgone : (s.lake.holders.filter fun h => refuses [] h || s.lakForbids h.2.1) = [] :=
    List.filter_eq_nil_iff.mpr fun x hx => by simp [refuses, h x hx]
  simp only [State.beginChoice, State.refusedBy, hstay, hgone, List.map_nil, List.append_nil]

theorem chooseHolders_nil (h : s.lake.holders.any (fun h => s.lakForbids h.2.1) = false) :
    s.chooseHolders [] = { s with lake := { s.lake with choiceIn := 1024 } } := by
  rw [State.chooseHolders, beginChoice_nil h, sendOffers_nil, fillHolders_eq, fillPlace_nil, fillPlace_nil]
  refine markGone_of_all fun i hi => ?_
  obtain ⟨x, hx, rfl⟩ := List.mem_map.mp hi
  exact List.any_eq_true.mpr ⟨x, hx, by simp⟩

theorem holders_fillPlace_eligible {c : Candidate} (hnone : s.lake.holders = []) (helig : s.eligibleHolder c = true) :
    ((s.fillPlace [c] 0).fillPlace [c] 1).lake.holders = [(0, c.addr, c.port)] := by
  have hfirst : s.fillPlace [c] 0 = s.takeHolder 0 c := by
    simp [State.fillPlace, hnone, helig, bestHolder]
  have hholders : (s.takeHolder 0 c).lake.holders = [(0, c.addr, c.port)] := by
    rw [(sparesLake_takeHolder s 0 c).holders, State.addHolder, hnone]
    rfl
  have htaken : (s.takeHolder 0 c).eligibleHolder c = false := by
    simp [State.eligibleHolder, hholders]
  have hsecond : (s.takeHolder 0 c).fillPlace [c] 1 = s.takeHolder 0 c := by
    simp [State.fillPlace, hholders, htaken, bestHolder]
  rw [hfirst, hsecond, hholders]

theorem holders_chooseHolders_one {c : Candidate} (hnone : s.lake.holders = []) (hpeer : s.peerOf c.port = some c.addr)
    (hallowed : s.lakForbids c.addr = false) (hroom : c.free ≠ 0) :
    (s.chooseHolders [c]).lake.holders = [(0, c.addr, c.port)] := by
  have hbegin : ((s.beginChoice [c]).sendOffers [c]).lake.holders = [] := by
    rw [(sparesLake_sendOffers _ _).holders, State.beginChoice, State.refusedBy, hnone]
    rfl
  have hoffered := (choosing_beginChoice s [c]).spares (sparesLake_sendOffers _ [c])
  rw [State.chooseHolders, (sparesLake_markGone _ _).holders, fillHolders_eq]
  refine holders_fillPlace_eligible hbegin ?_
  simp [State.eligibleHolder, hbegin, hoffered.peerOf, hoffered.lakForbids, hpeer, hallowed, hroom]

end

/-- Settles O37: each frame answered where its condition holds; a choice by whether it is due, its places filled one after
the other, with waymarks and frames sent between that spare the holders. -/
theorem holdersAreChosenAskedAndLost : Obligations.HoldersAreChosenAskedAndLost := by
  unfold Obligations.HoldersAreChosenAskedAndLost
  refine ⟨fun s seg g hg hage hsealed hconf hclaims hold => exec_maxageGiveUp_old hg hage hsealed hconf hclaims hold,
    fun s cands hlive hst hrun => ?_, fun s hlive hst hrun hnone hin => ⟨?_, fun c port free hpeer hallowed hroom => ?_⟩,
    fun s hlive hst hrun htwo hfirst hsecond hallowed hin => ?_,
    fun s peer uid hlive hsup => exec_replicaOffer_works peer uid hlive hsup,
    fun s peer seg g hlive hst hg => exec_segmentRequest_held peer hlive hst hg,
    fun s i h hplace hlate => exec_holderLost_late hplace hlate,
    fun s peer uid num hlive hawake => ⟨exec_recoveryRequest_none peer uid num hlive hawake,
      exec_recoveryRequest_held peer uid num hlive hawake⟩⟩
  · intro refuses' stay due
    have hrefuses : refuses' = refuses (candidates cands) := funext fun h => by
      simp only [refuses', refuses, candidates, List.any_map, Function.comp_def]
    have hstay : stay = s.stayers (candidates cands) := by simp only [stay, hrefuses, State.stayers]
    have hdue : due ↔ s.ChoiceDue (candidates cands) := by simp only [due, hrefuses, State.ChoiceDue]
    rw [hdue, hstay]
    refine ⟨fun h => ?_, exec_replicaChoice_waits⟩
    have hchosen := (choosing_chooseHolders s (candidates cands)).spares (sparesLake_noteFew _)
    obtain ⟨new, hnew, hmay⟩ := hchosen.holders
    refine ⟨_, new, exec_replicaChoice_due hlive hst hrun h, hnew, hchosen.choiceIn, fun hfew => ?_, fun h hh => ?_⟩
    · exact flag_noteFew _ (by rwa [(sparesLake_noteFew _).holders] at hfew)
    · obtain ⟨hplace, hfree, c, hc, haddr, hport, hroom, hpeer, hallowed⟩ := hmay h hh
      obtain ⟨x, hx, rfl⟩ := List.mem_map.mp hc
      exact ⟨hplace, hfree, x, hx, haddr, hport, hroom, hpeer, hallowed⟩
  · rw [exec_replicaChoice_due hlive hst hrun (.inl hin)]
    refine congrArg Host.Outcome.next ?_
    rw [show candidates [] = [] from rfl, chooseHolders_nil (by rw [hnone]; rfl), State.noteFew]
    exact if_pos (by simp [hnone])
  · have hchosen : (s.chooseHolders (candidates [(c, port, free)])).lake.holders = [(0, c.toNat, port.val)] :=
      holders_chooseHolders_one (c := ⟨c.toNat, port.val, free⟩) hnone hpeer hallowed hroom
    refine ⟨_, exec_replicaChoice_due hlive hst hrun (.inl hin), ?_, flag_noteFew _ (by simp [hchosen])⟩
    rw [(sparesLake_noteFew _).holders, hchosen]
  · rw [exec_replicaChoice_due hlive hst hrun (.inl hin)]
    refine congrArg Host.Outcome.next ?_
    rw [show candidates [] = [] from rfl, chooseHolders_nil hallowed, State.noteFew]
    exact if_neg (Nat.not_lt.mpr htwo)

end Sys2Proof.Machine
end

section
/-! SUPPORT. Proof of the statement of copies held for other devices and copies that differ (R285 to R289). -/

namespace Sys2Proof.Machine
open Sys2Proof

/-! ### A push (R285) -/

/-- The whole segment is asked for. -/
def State.askWhole (s : State) (peer : Nat) (c : SegCopy) : State :=
  s.sendTo 3 0x05 peer 0xFFFF [4, c.uid.toNat, c.num] 16

/-- A copy takes a replica slot. -/
def State.holdCopy (s : State) (k : Nat) (c : SegCopy) (conflicting : Bool) : State :=
  { s with lake := { s.lake with
    replicas := s.lake.replicas ++ [⟨k, c.uid.toNat, c.num, c.issue, c.digest, conflicting, c⟩] } }

/-- The copy in the slot of `r` with a push added: its records joined, the rest of the push in place. -/
def Replica.pushed (r : Replica) (c : SegCopy) (x : Replica) : Replica :=
  if x.slot = r.slot then
    { x with issue := c.issue, digest := c.digest, copy := { c with records := x.copy.records ++ c.records } }
  else x

/-- The copies of its segment that a frame meets. -/
abbrev State.copiesHeld (s : State) (c : SegCopy) : List Replica := s.copiesOf c.uid.toNat c.num

/-- What a push of an intact copy does, by the copies held. -/
def State.takePush (s : State) (peer : Nat) (c : SegCopy) : State :=
  match s.copiesHeld c with
  | [] => if c.issue = 1 then s.addReplica peer c false
    else if s.rfree = 0 then s.addReplica peer c false else s.askWhole peer c
  | [r] =>
    if r.issue + 1 = c.issue then { s with lake := { s.lake with replicas := s.lake.replicas.map (r.pushed c) } }
    else s.askWhole peer c
  | _ => s.askWhole peer c

theorem addReplica_some {s : State} (peer : Nat) (c : SegCopy) (conflicting : Bool) {k : Nat}
    (h : s.freeReplica = some k) : s.addReplica peer c conflicting = s.holdCopy k c conflicting := by
  simp only [State.addReplica, h, State.holdCopy]

theorem addReplica_none {s : State} (peer : Nat) (c : SegCopy) (conflicting : Bool) (h : s.freeReplica = none) :
    s.addReplica peer c conflicting = s.sendTo 3 0x05 peer 0xFFFF [2, c.uid.toNat, c.num] 16 := by
  simp only [State.addReplica, h]

section
variable {s : State} {peer : BitVec 14} {c : SegCopy} (hlive : s.pwr.live = true) (hawake : s.awake = true)
include hlive hawake

theorem exec_pushReceive_spoilt (hbad : c.intact = false) :
    exec (.pushReceive peer c) s = .next ((s.stick .lak 0 13).askWhole peer.toNat c) :=
  congrArg Host.Outcome.next ((if_neg (by simp [hlive, hawake])).trans (if_pos (by simp [hbad])))

theorem exec_pushReceive_intact (hgood : c.intact = true) :
    exec (.pushReceive peer c) s = .next (s.takePush peer.toNat c) :=
  congrArg Host.Outcome.next ((if_neg (by simp [hlive, hawake])).trans (if_neg (by simp [hgood])))

section
variable (hgood : c.intact = true)
include hgood

theorem exec_pushReceive_first (hnone : s.copiesHeld c = []) (hfirst : c.issue = 1) :
    exec (.pushReceive peer c) s = .next (s.addReplica peer.toNat c false) := by
  rw [exec_pushReceive_intact hlive hawake hgood, State.takePush, hnone]
  exact congrArg Host.Outcome.next (if_pos hfirst)

theorem exec_pushReceive_unknown (hnone : s.copiesHeld c = []) (hlater : c.issue ≠ 1) (hroom : s.rfree ≠ 0) :
    exec (.pushReceive peer c) s = .next (s.askWhole peer.toNat c) := by
  rw [exec_pushReceive_intact hlive hawake hgood, State.takePush, hnone]
  exact congrArg Host.Outcome.next ((if_neg hlater).trans (if_neg hroom))

theorem exec_pushReceive_next {r : Replica} (hheld : s.copiesHeld c = [r]) (hnext : r.issue + 1 = c.issue) :
    exec (.pushReceive peer c) s =
      .next { s with lake := { s.lake with replicas := s.lake.replicas.map (r.pushed c) } } := by
  rw [exec_pushReceive_intact hlive hawake hgood, State.takePush, hheld]
  exact congrArg Host.Outcome.next (if_pos hnext)

theorem exec_pushReceive_gap {r : Replica} (hheld : s.copiesHeld c = [r]) (hgap : r.issue + 1 ≠ c.issue) :
    exec (.pushReceive peer c) s = .next (s.askWhole peer.toNat c) := by
  rw [exec_pushReceive_intact hlive hawake hgood, State.takePush, hheld]
  exact congrArg Host.Outcome.next (if_neg hgap)

theorem exec_pushReceive_several (h : 2 ≤ (s.copiesHeld c).length) :
    exec (.pushReceive peer c) s = .next (s.askWhole peer.toNat c) := by
  rw [exec_pushReceive_intact hlive hawake hgood, State.takePush]
  split
  case h_1 hnone => simp [hnone] at h
  case h_2 r hone => simp [hone] at h
  case h_3 => rfl

end

/-! ### A copy (R287, R288) -/

theorem exec_copyReceive_none (b : Bool) (hzero : c.issue = 0) :
    exec (.copyReceive peer c b) s =
      .next (if c.uid.toNat = s.uid then (s.topAnswer peer.toNat).holderAnswer peer.toNat c.num
        else if s.fromOriginator peer c then s.noOriginal c.uid.toNat c.num else s) :=
  congrArg Host.Outcome.next ((if_neg (by simp [hlive, hawake])).trans (if_pos hzero))

theorem exec_copyReceive_spoilt (b : Bool) (hissue : c.issue ≠ 0) (hbad : c.intact = false) :
    exec (.copyReceive peer c b) s = .next (s.stick .lak 0 13) :=
  congrArg Host.Outcome.next ((if_neg (by simp [hlive, hawake])).trans ((if_neg hissue).trans (if_pos (by simp [hbad]))))

theorem exec_copyReceive_intact (b : Bool) (hissue : c.issue ≠ 0) (hgood : c.intact = true) :
    exec (.copyReceive peer c b) s = .next (if c.uid.toNat = s.uid then
      (((s.liftNumbers c.num).topAnswer peer.toNat).ownCopy c).holderAnswer peer.toNat c.num
      else s.foreignCopy peer c b) :=
  congrArg Host.Outcome.next
    ((if_neg (by simp [hlive, hawake])).trans ((if_neg hissue).trans (if_neg (by simp [hgood]))))

end

theorem foreignCopy_new {s : State} {peer : BitVec 14} {c : SegCopy} (b : Bool) (hnone : s.copiesHeld c = []) :
    s.foreignCopy peer c b = s.addReplica peer.toNat c false := by
  unfold State.foreignCopy
  simp only [hnone]

theorem nextSeg_liftNumbers (s : State) (top : Nat) : top < (s.liftNumbers top).lake.nextSeg :=
  Nat.lt_of_lt_of_le (Nat.lt_succ_self top) (Nat.le_max_right _ _)

/-- With the index there the segments keep their numbers. -/
theorem segs_liftNumbers {s : State} (top : Nat) (h : s.lake.indexLost = false) :
    (s.liftNumbers top).lake.segs = s.lake.segs := by
  simp only [State.liftNumbers, h, Bool.false_eq_true, if_false, Nat.add_zero, ite_self, List.map_id']

/-! ### Releases by the originator (R286) -/

theorem exec_segmentReleaseReceive_originator {s : State} {peer : BitVec 14} {uid : BitVec 64} (num : Nat)
    {e : MapEntry} (he : e ∈ s.fab.map) (huid : e.lsa.uid = uid) (haddr : e.lsa.addr = some peer)
    (hawake : s.awake = true) :
    exec (.segmentReleaseReceive peer uid num) s = .next { s with lake := { s.lake with
      replicas := s.lake.replicas.filter fun r => !(r.uid = uid.toNat && r.num = num && !r.conflicting) } } := by
  have hfrom : (s.fab.map.any fun e => e.lsa.uid = uid && e.lsa.addr = some peer) = true :=
    List.any_eq_true.mpr ⟨e, he, by simp [huid, haddr]⟩
  exact congrArg Host.Outcome.next (if_pos ⟨hfrom, hawake⟩)

/-! ### LAK_CMD (R289) -/

section
variable {s u : State} {a : Acc} {slot : BitVec 16}

theorem exec_lakeResolve_passes
    (h : s.Passes a (ra .lak 0 0x0B8) (BitVec.ofNat 32 (slot.toNat + 0x10000)) false u) :
    exec (.lakeResolve a slot) s = .next (u.lakResolve slot.toNat) := by
  have hop : bits (BitVec.ofNat 32 (slot.toNat + 0x10000)) 16 2 = 1 := by rw [bits_ofNat]; omega
  have hslot : bits (BitVec.ofNat 32 (slot.toNat + 0x10000)) 0 16 = slot.toNat := by rw [bits_ofNat]; omega
  refine congrArg Host.Outcome.next ((guarded_passes h _).trans ?_)
  simp only [State.actLakCmd, hop, hslot]

theorem exec_lakeDiscard_passes
    (h : s.Passes a (ra .lak 0 0x0B8) (BitVec.ofNat 32 (slot.toNat + 0x20000)) false u) :
    exec (.lakeDiscard a slot) s = .next (u.lakDiscard slot.toNat) := by
  have hop : bits (BitVec.ofNat 32 (slot.toNat + 0x20000)) 16 2 = 2 := by rw [bits_ofNat]; omega
  have hslot : bits (BitVec.ofNat 32 (slot.toNat + 0x20000)) 0 16 = slot.toNat := by rw [bits_ofNat]; omega
  refine congrArg Host.Outcome.next ((guarded_passes h _).trans ?_)
  simp only [State.actLakCmd, hop, hslot]

end

section
variable {s : State} {slot : Nat}

theorem lakResolve_own {g : Segment}
    (hg : s.lake.segs.find? (fun x => decide (x.slot = slot) && x.conflicting) = some g) :
    s.lakResolve slot = State.deliverSeg { s with lake := { s.lake with
      segs := (s.lake.segs.filter fun x => x.num ≠ g.num) ++ [{ g with conflicting := false }] } }
      { g with conflicting := false } := by
  unfold State.lakResolve
  rw [hg]

theorem segs_lakDiscard_own {g : Segment}
    (hg : s.lake.segs.find? (fun x => decide (x.slot = slot) && x.conflicting) = some g) :
    ∀ x ∈ (s.lakDiscard slot).lake.segs, x.num ≠ g.num := by
  unfold State.lakDiscard
  rw [hg]
  intro x hx
  simpa using (List.mem_filter.mp hx).2

section
variable {r : Replica} (hnone : s.lake.segs.find? (fun g => decide (g.slot = slot) && g.conflicting) = none)
  (hr : s.lake.replicas.find? (fun x => decide (x.slot = slot) && x.conflicting) = some r)
include hnone hr

theorem lakResolve_replica : s.lakResolve slot = { s with lake := { s.lake with
    replicas := (s.lake.replicas.filter fun x => !(x.uid = r.uid && x.num = r.num)) ++
      [{ r with conflicting := false }] } } := by
  unfold State.lakResolve
  rw [hnone]
  dsimp only
  rw [hr]

theorem lakDiscard_replica : s.lakDiscard slot = { s with lake := { s.lake with
    replicas := s.lake.replicas.filter fun x => !(x.uid = r.uid && x.num = r.num) } } := by
  unfold State.lakDiscard
  rw [hnone]
  dsimp only
  rw [hr]

end

end

/-- Settles O38: a push by the copies held of its segment, a copy by its issue, its state and whose it is, and LAK_CMD by
whether the slot named holds an own segment or another device's. -/
theorem copiesAreKeptResolvedAndReleased : Obligations.CopiesAreKeptResolvedAndReleased := by
  unfold Obligations.CopiesAreKeptResolvedAndReleased
  refine ⟨fun s peer c hlive hawake => ?_,
    fun s peer uid num e he huid haddr hawake => exec_segmentReleaseReceive_originator num he huid haddr hawake,
    fun s u a slot r hnone hr => ?_, fun s u a slot g hg => ?_⟩
  · intro ask
    refine ⟨fun hbad => ⟨exec_pushReceive_spoilt hlive hawake hbad, fun hissue b =>
        exec_copyReceive_spoilt hlive hawake b hissue hbad⟩,
      fun hgood hnone k hk => ⟨fun hfirst => ?_, fun hissue hother b => ?_⟩,
      fun r hgood hheld => ⟨exec_pushReceive_next hlive hawake hgood hheld,
        exec_pushReceive_gap hlive hawake hgood hheld⟩,
      fun hgood hnone hfirst hfull => ?_,
      fun hgood h => exec_pushReceive_several hlive hawake hgood h,
      fun hgood hnone hlater hroom => exec_pushReceive_unknown hlive hawake hgood hnone hlater hroom,
      fun hzero b => exec_copyReceive_none hlive hawake b hzero,
      fun hgood hissue b => exec_copyReceive_intact hlive hawake b hissue hgood,
      nextSeg_liftNumbers s c.num, segs_liftNumbers c.num⟩
    · rw [exec_pushReceive_first hlive hawake hgood hnone hfirst, addReplica_some _ _ _ hk]
      rfl
    · rw [exec_copyReceive_intact hlive hawake b hissue hgood, if_neg hother, foreignCopy_new b hnone,
        addReplica_some _ _ _ hk]
      rfl
    · rw [exec_pushReceive_first hlive hawake hgood hnone hfirst, addReplica_none _ _ _ hfull]
  · intro rest
    exact ⟨fun h => (exec_lakeResolve_passes h).trans (congrArg Host.Outcome.next (lakResolve_replica hnone hr)),
      fun h => (exec_lakeDiscard_passes h).trans (congrArg Host.Outcome.next (lakDiscard_replica hnone hr))⟩
  · intro rest
    exact ⟨fun h => (exec_lakeResolve_passes h).trans (congrArg Host.Outcome.next (lakResolve_own hg)),
      fun h => ⟨_, exec_lakeDiscard_passes h, segs_lakDiscard_own hg⟩⟩

end Sys2Proof.Machine
end

section
/-! SUPPORT. Proof of the statement of captures (R290, R291). -/

namespace Sys2Proof.Machine
open Sys2Proof

/-! ### LAK_CAP_CMD -/

section
variable {s u : State} {a : Acc}

theorem exec_captureTrigger_passes (h : s.Passes a (ra .lak 0 0x094) 1 false u) :
    exec (.captureTrigger a) s = .next (u.fireTrigger 0 u.tim.stamp) := by
  have htrigger : bit (1 : Word) 0 = true := by decide
  have hkeep : bit (1 : Word) 1 = false := by decide
  refine congrArg Host.Outcome.next ((guarded_passes h _).trans ?_)
  simp only [State.actCapCmd, htrigger, hkeep, if_true, Bool.false_eq_true, if_false]

theorem exec_captureRelease_passes {idx : BitVec 3}
    (h : s.Passes a (ra .lak 0 0x094) (BitVec.ofNat 32 (2 + idx.toNat * 4)) false u) :
    exec (.captureRelease a idx) s = .next { u with lake := { u.lake with
      captures := u.lake.captures.filter fun c => c.idx ≠ idx.toNat } } := by
  have hidx := idx.isLt
  have hrelease : bit (BitVec.ofNat 32 (2 + idx.toNat * 4)) 1 = true := by
    rw [bit_ofNat _ (by decide), decide_eq_true_eq]
    omega
  have hcalm : bit (BitVec.ofNat 32 (2 + idx.toNat * 4)) 0 = false := by
    rw [bit_ofNat _ (by decide), decide_eq_false_iff_not]
    omega
  have hfield : bits (BitVec.ofNat 32 (2 + idx.toNat * 4)) 2 3 = idx.toNat := by
    rw [bits_ofNat]
    omega
  refine congrArg Host.Outcome.next ((guarded_passes h _).trans ?_)
  simp only [State.actCapCmd, hrelease, hcalm, hfield, if_true, Bool.false_eq_true, if_false]

end

section
variable {s : State} (cause stamp : Nat)

theorem fireTrigger_armed (h : s.lake.capSt = .armed) : s.fireTrigger cause stamp = { s with lake := { s.lake with
    capSt := .post, capCause := cause, capInst := stamp, trigAt := s.lake.ring.length } } := by
  simp only [State.fireTrigger, h]

theorem fireTrigger_busy (h : s.lake.capSt = .post ∨ s.lake.capSt = .copying) : s.fireTrigger cause stamp =
    { s with lake := { s.lake with missed := (s.lake.missed + 1) % 65536 } } := by
  rcases h with h | h
  · simp only [State.fireTrigger, h]
  · simp only [State.fireTrigger, h]

theorem fireTrigger_idle (h : s.lake.capSt = .idle) : s.fireTrigger cause stamp = s := by
  simp only [State.fireTrigger, h]

end

/-! ### The end of the post-trigger share -/

section
variable {s : State}

theorem placeCapture_full {c : Capture}
    (h : s.freeCapture = none ∨ (s.freeOwnerSlots c.parts.length).length ≠ c.parts.length) : s.placeCapture c = none := by
  unfold State.placeCapture
  split
  case h_1 i hidx => exact if_neg (h.resolve_left (by simp [hidx]))
  case h_2 => rfl

theorem placeCapture_free {c : Capture} {i : Nat} (hidx : s.freeCapture = some i)
    (hslots : (s.freeOwnerSlots c.parts.length).length = c.parts.length) :
    s.placeCapture c = some { c with idx := i, slots := s.freeOwnerSlots c.parts.length } := by
  unfold State.placeCapture
  rw [hidx]
  exact if_pos hslots

theorem exec_capturePostTriggerEnd_early (h : s.postDone = false) : exec .capturePostTriggerEnd s = .next s :=
  congrArg Host.Outcome.next (if_pos (by simp [h]))

/-- The copying of a capture begins: it holds its slots, and the numbers of its segments are taken. -/
def State.copyCapture (s : State) (c : Capture) : State :=
  { s with lake := { s.lake with capSt := .copying, nextSeg := s.lake.nextSeg + c.slots.length, building := some c } }

/-- The capture is given up, with CAP_FAIL, and the ring armed again. -/
def State.abandonCapture (s : State) : State := (s.stick .lak 0 15).rearm

/-- The capture that the ring gives is copied, or abandoned where none is there or none can be placed. -/
def State.endShare (s : State) : State :=
  match s.newCapture.bind s.placeCapture with
  | some c => s.copyCapture c
  | none => s.abandonCapture

theorem exec_capturePostTriggerEnd_over (hpost : s.lake.capSt = .post) (hclk : s.pwr.clocked = true)
    (hdone : s.postDone = true) : exec .capturePostTriggerEnd s = .next s.endShare :=
  congrArg Host.Outcome.next (if_neg (by simp [hpost, hclk, hdone]))

theorem endShare_of_no_milestone (h : s.newCapture = none) : s.endShare = s.abandonCapture := by
  simp only [State.endShare, h, Option.bind_none]

theorem endShare_of_capture {c : Capture} (h : s.newCapture = some c) : s.endShare =
    match s.placeCapture c with
    | none => s.abandonCapture
    | some d => s.copyCapture d := by
  simp only [State.endShare, h, Option.bind_some]
  cases s.placeCapture c <;> rfl

/-! ### A capture copied, and one received -/

theorem exec_captureCopyDone_built {c : Capture} (hst : s.lake.capSt = .copying) (hc : s.lake.building = some c) :
    exec .captureCopyDone s = .next (State.waymark { s with lake := { s.lake with
      captures := s.lake.captures ++ [c]
      building := none
      ringFirst := s.tim.msNum
      ring := []
      trigAt := 0
      capSt := if s.lake.ringNow = 0 then .idle else .armed } } 0x1A [c.idx, c.cause]) := by
  refine congrArg Host.Outcome.next ((if_neg (by simp [hst])).trans ?_)
  rw [hc]
  rfl

/-- A capture received is listed where it has been placed, and else it is abandoned. -/
def State.listCapture (s : State) (c : Option Capture) : State :=
  match c with
  | some d => { s with lake := { s.lake with
      nextSeg := s.lake.nextSeg + d.slots.length, captures := s.lake.captures ++ [d] } }
  | none => s.stick .lak 0 15

/-- The capture that a session brings, before it is placed. -/
def State.receivedCapture (s : State) (first last : BitVec 32) (parts : List (List Byte)) (intact : Bool) : Capture :=
  { idx := 0, first := first.toNat, last := last.toNat, cause := 0, slots := [], verified := intact
    items := Config.captureItems parts, firstSeg := s.lake.nextSeg, parts := parts
    origin := s.fab.addr.getD 0, madeMs := s.tim.msNum }

theorem exec_captureReceive_up (first last : BitVec 32) (parts : List (List Byte)) (intact : Bool)
    (hlive : s.pwr.live = true) (hawake : s.awake = true) : exec (.captureReceive first last parts intact) s =
      .next (s.listCapture (s.placeCapture (s.receivedCapture first last parts intact))) :=
  congrArg Host.Outcome.next (if_neg (by simp [hlive, hawake]))

end

/-- Settles O39: a trigger by what the ring does, the end of the share by whether the ring gives a capture and whether it can
be placed, a capture received by the latter alone. -/
theorem capturesTriggerCopyAndRelease : Obligations.CapturesTriggerCopyAndRelease := by
  unfold Obligations.CapturesTriggerCopyAndRelease
  refine ⟨fun s u a h => ?_, fun s u a idx h => exec_captureRelease_passes h, fun s hpost hclk => ?_,
    fun s c => ⟨placeCapture_full, fun i => placeCapture_free⟩, fun s c => exec_captureCopyDone_built,
    fun s first last parts intact hlive hawake => ?_⟩
  · rw [exec_captureTrigger_passes h]
    exact ⟨fun harmed => congrArg Host.Outcome.next (fireTrigger_armed _ _ harmed),
      fun hbusy => congrArg Host.Outcome.next (fireTrigger_busy _ _ hbusy),
      fun hidle => congrArg Host.Outcome.next (fireTrigger_idle _ _ hidle)⟩
  · intro abandoned
    refine ⟨exec_capturePostTriggerEnd_early, fun hdone => ?_⟩
    rw [exec_capturePostTriggerEnd_over hpost hclk hdone]
    refine congrArg Host.Outcome.next ?_
    split
    case h_1 hnone => exact endShare_of_no_milestone (by simp only [State.newCapture, hnone, Option.map_none])
    case h_2 x hx => exact endShare_of_capture (by simp only [State.newCapture, hx, Option.map_some])
  · intro c
    have hrun := exec_captureReceive_up first last parts intact hlive hawake
    exact ⟨fun hfull => hrun.trans (congrArg (fun p => Host.Outcome.next (s.listCapture p)) hfull),
      fun d hd => hrun.trans (congrArg (fun p => Host.Outcome.next (s.listCapture p)) hd)⟩

end Sys2Proof.Machine
end

section
/-! SUPPORT. Proof of the statement of replays (R292, R293). -/

namespace Sys2Proof.Machine
open Sys2Proof

section
variable {s u : State} {a : Acc}

theorem exec_replayGo_passes (h : s.Passes a (ra .lak 0 0x0AC) 1 false u) :
    exec (.replayGo a) s = .next u.startReplay := by
  have hgo : bit (1 : Word) 0 = true := by decide
  have hon : bit (1 : Word) 1 = false := by decide
  refine congrArg Host.Outcome.next ((guarded_passes h _).trans ?_)
  simp only [State.actReplay, hgo, hon, if_true, Bool.false_eq_true, if_false]

theorem exec_replayAbort_passes (h : s.Passes a (ra .lak 0 0x0AC) 2 false u) :
    exec (.replayAbort a) s = .next (u.endReplay 5) := by
  have hcalm : bit (2 : Word) 0 = false := by decide
  have habort : bit (2 : Word) 1 = true := by decide
  refine congrArg Host.Outcome.next ((guarded_passes h _).trans ?_)
  simp only [State.actReplay, hcalm, habort, if_true, Bool.false_eq_true, if_false]

theorem endReplay_none (status : Nat) (h : u.lake.replay = none) : u.endReplay status = u := by
  simp [State.endReplay, h]

theorem endReplay_running (status : Nat) (h : u.lake.replay ≠ none) :
    u.endReplay status = { u with lake := { u.lake with replay := none, replayStatus := status } } :=
  if_pos (Option.isSome_iff_ne_none.mpr h)

end

/-- What a replay needs to start by LAK_RPLY_CFG, START and END: no replay running, an idle pipeline `b`, a verified
capture `c` that spans the milestones, an open session `x`. -/
structure State.ReplayReady (s : State) (b : Nat) (c : Capture) (x : Session) : Prop where
  free : s.lake.replay = none
  pipe : s.replayPipe (bits (s.reg (ra .lak 0 0x0A0)) 3 5) = some b
  capture : s.lake.captures.find? (fun c => c.idx = bits (s.reg (ra .lak 0 0x0A0)) 0 3) = some c
  session : s.session (bits (s.reg (ra .lak 0 0x0A0)) 8 11) = some x
  verified : c.verified = true
  spans : c.spans (s.reg (ra .lak 0 0x0A4)).toNat (s.reg (ra .lak 0 0x0A8)).toNat = true
  opened : x.st = .open_

/-- A replay refused. -/
def State.refuseReplay (s : State) : State :=
  ({ s with lake := { s.lake with replayStatus := 3 } } : State).stick .lak 0 16

section
variable {s : State}

theorem startReplay_ready {b : Nat} {c : Capture} {x : Session} (h : s.ReplayReady b c x) :
    s.startReplay = { s with lake := { s.lake with
      replay := some ⟨b, c.idx, x.num, (s.reg (ra .lak 0 0x0A4)).toNat, (s.reg (ra .lak 0 0x0A8)).toNat,
        c.offset (s.reg (ra .lak 0 0x0A4)).toNat⟩
      replayStatus := 1, replayPipe := b } } := by
  unfold State.startReplay
  dsimp only
  refine (if_neg (by simp [h.free])).trans ?_
  rw [h.pipe, h.capture, h.session]
  exact if_pos (by simp [h.verified, h.spans, h.opened])

theorem startReplay_not_ready (h : ∀ b c x, ¬s.ReplayReady b c x) : s.startReplay = s.refuseReplay := by
  unfold State.startReplay
  dsimp only
  split
  case isTrue => rfl
  case isFalse hfree =>
    split
    case h_1 b c x hpipe hcapture hsession =>
      refine if_neg fun hall => h b c x ?_
      simp only [Bool.and_eq_true, decide_eq_true_eq] at hall
      obtain ⟨⟨hverified, hspans⟩, hopen⟩ := hall
      exact ⟨by simpa using hfree, hpipe, hcapture, hsession, hverified, hspans, hopen⟩
    case h_2 => rfl

/-- A replay that has reached its end stops with status 2 and bit 17. -/
def State.replayStops (s : State) : State :=
  State.stick { s with lake := { s.lake with replay := none, replayStatus := 2 } } .lak 0 17

theorem endReplay_replayTo {r : Replay} (h : s.lake.replay = some r) (hi : Nat) :
    ((s.replayTo hi).endReplay 2).stick .lak 0 17 = (match s.session r.session with
      | some x => s.each (s.replayed r r.upto hi) fun t y => t.sendRecord x 3 y false
      | none => s).replayStops := by
  unfold State.replayTo
  rw [h]
  rfl

theorem exec_replayDone_running {r : Replay} (h : s.lake.replay = some r) : exec .replayDone s =
    .next (((s.replayTo (s.replayPlace r.stop)).endReplay 2).stick .lak 0 17) := by
  refine congrArg Host.Outcome.next ?_
  rw [h]

end

/-- Settles O40: a write of LAK_RPLY_CMD by the bit that it sets, a start by whether all that it needs is there, an end by
whether the session is still there. -/
theorem replaysStartEndAndAbort : Obligations.ReplaysStartEndAndAbort := by
  unfold Obligations.ReplaysStartEndAndAbort
  refine ⟨fun s u a h => ?_, fun s u a h => ?_, fun s r hr => ?_⟩
  · intro cfg start stop ready
    rw [exec_replayGo_passes h]
    refine ⟨fun b c x hready => ?_, fun hnone => congrArg Host.Outcome.next (startReplay_not_ready fun b c x hready => ?_)⟩
    · obtain ⟨hfree, hpipe, hcapture, hsession, hverified, hspans, hopen⟩ := hready
      exact congrArg Host.Outcome.next
        (startReplay_ready ⟨hfree, hpipe, hcapture, hsession, hverified, hspans, hopen⟩)
    · exact hnone b c x ⟨hready.free, hready.pipe, hready.capture, hready.session, hready.verified, hready.spans,
        hready.opened⟩
  · rw [exec_replayAbort_passes h]
    exact ⟨fun hnone => congrArg Host.Outcome.next (endReplay_none 5 hnone),
      fun hrun => congrArg Host.Outcome.next (endReplay_running 5 hrun)⟩
  · intro done
    have hend := (exec_replayDone_running hr).trans (congrArg Host.Outcome.next (endReplay_replayTo hr _))
    refine ⟨fun x hx => ?_, fun hnone => ?_⟩
    · rw [hend, hx]
      rfl
    · rw [hend, hnone]
      rfl

end Sys2Proof.Machine
end

section
/-! SUPPORT. Proof of the statement of the security block and of tamper events (R297, R298, R300, R315). -/

namespace Sys2Proof.Machine
open Sys2Proof

/-! ### Commands written (R315) -/

/-- A read of the item finds nothing: a reserved item, or an owner certificate beyond the chain. -/
def State.ItemAbsent (s : State) (item : Nat) : Prop :=
  7 ≤ item ∨ (3 ≤ item ∧ item ≤ 5 ∧ s.flash.nOwners ≤ item - 3)

/-- A command of the security block runs. -/
def State.secRuns (s : State) (n : Nat) : State := { s with sec := { s.sec with busy := n, result := 0 } }

section
variable {s u : State} {a : Acc}

theorem exec_secRead_passes {item : BitVec 4}
    (h : s.Passes a (ra .sec 0 0x048) (BitVec.ofNat 32 (1 + item.toNat * 16)) false u) :
    exec (.secRead a item) s = .next (u.actSec (BitVec.ofNat 32 (1 + item.toNat * 16))) :=
  congrArg Host.Outcome.next (guarded_passes h _)

theorem exec_secSign_passes (h : s.Passes a (ra .sec 0 0x048) (BitVec.ofNat 32 2) false u) :
    exec (.secSign a) s = .next (u.actSec (BitVec.ofNat 32 (2 + 0 * 16))) :=
  congrArg Host.Outcome.next (guarded_passes h _)

theorem exec_secInstall_passes (h : s.Passes a (ra .sec 0 0x048) (BitVec.ofNat 32 3) false u) :
    exec (.secInstall a) s = .next (u.actSec (BitVec.ofNat 32 (3 + 0 * 16))) :=
  congrArg Host.Outcome.next (guarded_passes h _)

theorem exec_secClear_passes (h : s.Passes a (ra .sec 0 0x048) (BitVec.ofNat 32 4) false u) :
    exec (.secClear a) s = .next (u.actSec (BitVec.ofNat 32 (4 + 0 * 16))) :=
  congrArg Host.Outcome.next (guarded_passes h _)

theorem actSec_busy (v : Word) (h : s.sec.busy ≠ 0) : s.actSec v = s.stick .sec 0 8 := if_pos h

section
variable (hidle : s.sec.busy = 0) {op item : Nat} (hop : 1 ≤ op ∧ op ≤ 4) (hitem : item < 16)
include hidle hop hitem

/-- A command of SEC_CMD written while none runs: a read of an absent item is refused, all else runs. -/
theorem actSec_idle [Decidable (op = 1 ∧ s.ItemAbsent item)] :
    s.actSec (BitVec.ofNat 32 (op + item * 16)) =
      if op = 1 ∧ s.ItemAbsent item then s.secFail 2 else s.secRuns (op + item * 16) := by
  have hopBits : bits (BitVec.ofNat 32 (op + item * 16)) 0 4 = op := by rw [bits_ofNat]; omega
  have hitemBits : bits (BitVec.ofNat 32 (op + item * 16)) 4 4 = item := by rw [bits_ofNat]; omega
  unfold State.actSec
  dsimp only
  rw [hopBits, hitemBits, if_neg (not_not_intro hidle), if_neg (by omega), if_neg (by omega)]
  exact if_congr Iff.rfl rfl rfl

theorem actSec_runs (h : ¬(op = 1 ∧ s.ItemAbsent item)) :
    s.actSec (BitVec.ofNat 32 (op + item * 16)) = s.secRuns (op + item * 16) := by
  classical
  rw [actSec_idle hidle hop hitem, if_neg h]

end

theorem actSec_absent (hidle : s.sec.busy = 0) {item : Nat} (hitem : item < 16) (h : s.ItemAbsent item) :
    s.actSec (BitVec.ofNat 32 (1 + item * 16)) = s.secFail 2 := by
  classical
  rw [actSec_idle hidle (by decide) hitem, if_pos ⟨rfl, h⟩]

end

/-! ### Commands that end (R297, R298, R300) -/

/-- The security block with no command running. -/
def State.secIdle (s : State) : State := { s with sec := { s.sec with busy := 0 } }

section
variable {s : State} (c : ChainCheck) (hst : s.pwr.st = .run ∨ s.pwr.st = .idle)
include hst

theorem secCommandDone_runs {n : Nat} (h : s.sec.busy % 16 = n) (hn : n ≠ 0) :
    ¬(s.sec.busy = 0 ∨ (!decide (s.pwr.st = .run ∨ s.pwr.st = .idle)) = true) := by
  have hbusy : s.sec.busy ≠ 0 := fun hzero => hn (by rw [← h, hzero])
  simp [hbusy, hst]

theorem exec_secCommandDone_read (h : s.sec.busy % 16 = 1) : exec (.secCommandDone c) s =
    .next { s.secIdle.setBufBytes (ra .sec 0 0x800) 0 (s.secItem (s.sec.busy / 16)) with
      sec := { s.secIdle.sec with result := 1, len := (s.secItem (s.sec.busy / 16)).length } } := by
  refine congrArg Host.Outcome.next ((if_neg (secCommandDone_runs hst h (by decide))).trans ?_)
  rw [h]
  rfl

theorem exec_secCommandDone_sign (h : s.sec.busy % 16 = 2) : exec (.secCommandDone c) s =
    .next { s.secIdle.attest with sec := { s.secIdle.sec with result := 1 } } := by
  refine congrArg Host.Outcome.next ((if_neg (secCommandDone_runs hst h (by decide))).trans ?_)
  rw [h]
  rfl

theorem exec_secCommandDone_chain {clear : Bool} (h : s.sec.busy % 16 = if clear then 4 else 3) :
    exec (.secCommandDone c) s = .next (s.secIdle.chainDone c clear) := by
  refine congrArg Host.Outcome.next ((if_neg (secCommandDone_runs hst h (by cases clear <;> decide))).trans ?_)
  rw [h]
  cases clear <;> rfl

end

section
variable {s : State} {c : ChainCheck} {clear : Bool}

theorem chainDone_failed (h : s.chainResult c clear ≠ 1) :
    s.secIdle.chainDone c clear = (s.secIdle.noteFlash (s.chainResult c clear)).secFail (s.chainResult c clear) :=
  if_pos h

/-- The flash with the chain of the record in SEC_BUF, or with none. -/
def State.newChain (s : State) (clear : Bool) : Flash :=
  if clear then { s.flash with owners := [], nOwners := 0 }
  else { s.flash with
    owners := s.bufBytes secBuf 4 ((s.bufByte secBuf 0).toNat + (s.bufByte secBuf 1).toNat * 256)
    nOwners := (s.bufByte secBuf 2).toNat }

theorem chainDone_good (h : s.chainResult c clear = 1) : s.secIdle.chainDone c clear =
    (({ s.secIdle with flash := s.newChain clear, sec := { s.secIdle.sec with result := 1 } } : State).secStick
      9).closeOwners :=
  if_neg (not_not_intro h)

theorem nOwners_newChain : (s.newChain clear).nOwners = if clear then 0 else (s.bufByte secBuf 2).toNat := by
  cases clear <;> rfl

theorem newChain_frame : s.newChain clear =
    { s.flash with owners := (s.newChain clear).owners, nOwners := (s.newChain clear).nOwners } := by
  cases clear <;> rfl

theorem closeDue_closeOwners {x : Session} (h : x ∈ s.closeOwners.fab.sessions) (hrole : x.role = .owner)
    (hst : x.st = .open_) : x.closeDue = true := by
  obtain ⟨y, -, rfl⟩ := List.mem_map.mp h
  by_cases hy : y.role = .owner ∧ y.st = SessSt.open_
  · simp only [if_pos hy]
  · rw [if_neg hy] at hrole hst
    exact absurd ⟨hrole, hst⟩ hy

end

/-! ### Tamper events -/

theorem exec_tamper_heard {s : State} {selfTest : Bool} (h : selfTest = true ∨ s.flash.nOwners ≠ 0) :
    exec (.tamper selfTest) s = .next (s.stick .sys 0 13) :=
  congrArg Host.Outcome.next (if_pos (by simpa using h))

theorem exec_tamper_unheard {s : State} {selfTest : Bool} (h : selfTest = false ∧ s.flash.nOwners = 0) :
    exec (.tamper selfTest) s = .next s :=
  congrArg Host.Outcome.next (if_neg (by simp [h.1, h.2]))

/-- Settles O43: a command written by whether one runs, its end by its operation and, of an install or a clear, by the
result of the chain's checks. -/
theorem securityCommandsRunAndEnd : Obligations.SecurityCommandsRunAndEnd := by
  unfold Obligations.SecurityCommandsRunAndEnd
  refine ⟨fun s u a item => ?_, fun s c hst => ?_, fun s selfTest => ⟨exec_tamper_heard, exec_tamper_unheard⟩⟩
  · intro absent cmd runs
    have hitem := item.isLt
    refine ⟨fun hidle => ⟨fun h => ⟨fun hthere => ?_, fun habsent => ?_⟩, fun h => ?_, fun h => ?_, fun h => ?_⟩,
      fun hbusy => ⟨fun h => ?_, fun h => ?_, fun h => ?_, fun h => ?_⟩⟩
    · exact (exec_secRead_passes h).trans (congrArg Host.Outcome.next
        (actSec_runs hidle (by decide) hitem fun hno => hthere hno.2))
    · exact (exec_secRead_passes h).trans (congrArg Host.Outcome.next (actSec_absent hidle hitem habsent))
    · exact (exec_secSign_passes h).trans (congrArg Host.Outcome.next
        (actSec_runs hidle (by decide) (by decide) fun hno => absurd hno.1 (by decide)))
    · exact (exec_secInstall_passes h).trans (congrArg Host.Outcome.next
        (actSec_runs hidle (by decide) (by decide) fun hno => absurd hno.1 (by decide)))
    · exact (exec_secClear_passes h).trans (congrArg Host.Outcome.next
        (actSec_runs hidle (by decide) (by decide) fun hno => absurd hno.1 (by decide)))
    · exact (exec_secRead_passes h).trans (congrArg Host.Outcome.next (actSec_busy _ hbusy))
    · exact (exec_secSign_passes h).trans (congrArg Host.Outcome.next (actSec_busy _ hbusy))
    · exact (exec_secInstall_passes h).trans (congrArg Host.Outcome.next (actSec_busy _ hbusy))
    · exact (exec_secClear_passes h).trans (congrArg Host.Outcome.next (actSec_busy _ hbusy))
  · intro idle
    refine ⟨exec_secCommandDone_read c hst, exec_secCommandDone_sign c hst, fun clear hop => ?_⟩
    refine ⟨_, exec_secCommandDone_chain c hst hop, chainDone_failed, fun hgood => ?_⟩
    rw [chainDone_good hgood]
    refine ⟨flag_stick_same _ .sec 0 9 (by decide), rfl, nOwners_newChain, fun x => closeDue_closeOwners, ?_⟩
    exact congrArg (fun f : Flash => (({ s.secIdle with flash := f, sec := { s.secIdle.sec with result := 1 } } :
      State).secStick 9).closeOwners) newChain_frame

end Sys2Proof.Machine
end

section
/-! SUPPORT. Proof of the statement of glaze commands (R320, R328, R330). -/

namespace Sys2Proof.Machine
open Sys2Proof

/-! ### GLZ_CMD written -/

/-- The word of GLZ_CMD that asks for an operation on a directory entry. -/
def glzWord (d op : Nat) : Word := BitVec.ofNat 32 (d + op * 256)

theorem bits_glzWord_op {d op : Nat} (hd : d < 64) (hop : op < 4) : bits (glzWord d op) 8 2 = op := by
  rw [glzWord, bits_ofNat]
  omega

theorem bits_glzWord_entry {d : Nat} (op : Nat) (hd : d < 64) : bits (glzWord d op) 0 6 = d := by
  rw [glzWord, bits_ofNat]
  omega

/-- The command of an operation. -/
def glzInstr (a : Acc) (dir : BitVec 6) (op : Nat) : Instr :=
  if op = 1 then .glazeLoad a dir else if op = 2 then .glazeUnload a dir else .glazeStore a dir

theorem exec_glzInstr_passes {s u : State} {a : Acc} {dir : BitVec 6} {op : Nat} (hop : op ∈ [1, 2, 3])
    (h : s.Passes a (ra .glz 0 0x040) (glzWord dir.toNat op) false u) :
    exec (glzInstr a dir op) s = .next (u.actGlzCmd (glzWord dir.toNat op)) := by
  simp only [List.mem_cons, List.not_mem_nil, or_false] at hop
  rcases hop with rfl | rfl | rfl
  · exact congrArg Host.Outcome.next (guarded_passes h _)
  · exact congrArg Host.Outcome.next (guarded_passes h _)
  · exact congrArg Host.Outcome.next (guarded_passes h _)

section
variable {s : State} {d op : Nat} (hd : d < 64) (hop : op < 4)

theorem actGlzCmd_busy (v : Word) (h : s.glz.busy = true) : s.actGlzCmd v = s := if_pos (.inl h)

section
variable (hidle : s.glz.busy = false) (hone : op ≠ 0)
include hd hop hidle hone

theorem glzCmd_taken : ¬(s.glz.busy = true ∨ bits (glzWord d op) 8 2 = 0) := by
  rw [bits_glzWord_op hd hop, hidle]
  exact not_or.mpr ⟨Bool.false_ne_true, hone⟩

theorem actGlzCmd_waits (hsup : s.sup.running = false) : s.actGlzCmd (glzWord d op) =
    { s with glz := { s.glz with busy := true, waitCmd := some (glzWord d op) } } :=
  (if_neg (glzCmd_taken hd hop hidle hone)).trans (if_neg (ne_true_of_eq_false hsup))

theorem actGlzCmd_runs (hsup : s.sup.running = true) : s.actGlzCmd (glzWord d op) = s.runGlzCmd (glzWord d op) :=
  (if_neg (glzCmd_taken hd hop hidle hone)).trans (if_pos hsup)

end

section
include hd

theorem runGlzCmd_load : s.runGlzCmd (glzWord d 1) = s.glzLoad d := by
  simp only [State.runGlzCmd, bits_glzWord_op hd (show 1 < 4 by decide), bits_glzWord_entry 1 hd]

theorem runGlzCmd_unload : s.runGlzCmd (glzWord d 2) = s.glzUnload d := by
  simp only [State.runGlzCmd, bits_glzWord_op hd (show 2 < 4 by decide), bits_glzWord_entry 2 hd]

theorem runGlzCmd_store :
    s.runGlzCmd (glzWord d 3) = { s with glz := { s.glz with busy := true, storeDir := d } } := by
  simp only [State.runGlzCmd, bits_glzWord_op hd (show 3 < 4 by decide), bits_glzWord_entry 3 hd]

end

/-! ### Loads and unloads (R320) -/

/-- A load refused for the item and the reason. -/
def State.refuseLoad (s : State) (d item reason : Nat) : State :=
  State.stick { s with glz := { s.glz with refused := some (d, reason, item) } } .glz 0 8

theorem glzLoad_loaded (h : s.isLoaded d = true) : s.glzLoad d = s := if_pos h

theorem glzUnload_free (hnow : s.glz.nowId ≠ s.dirId d) (hpend : ∀ p, s.glz.pend = some p → p.id ≠ s.dirId d) :
    s.glzUnload d = { s with glz := { s.glz with loaded := s.glz.loaded &&& ~~~ (BitVec.ofNat 64 (2 ^ d)) } } := by
  refine if_neg (not_or.mpr ⟨hnow, ?_⟩)
  split
  case h_1 p hp => simp [hpend p hp]
  case h_2 => exact Bool.false_ne_true

theorem glzUnload_in_force (h : s.glz.nowId = s.dirId d) : s.glzUnload d = s := if_pos (.inl h)

section
variable (hnew : s.isLoaded d = false)
include hnew

theorem glzLoad_bad_entry (hbad : s.dirBad d = true) : s.glzLoad d = s.refuseLoad d 0 1 :=
  (if_neg (ne_true_of_eq_false hnew)).trans (if_pos hbad)

section
variable (hgood : s.dirBad d = false)
include hgood

theorem glzLoad_bad_item {i r : Nat} (hitem : s.badItem d = some (i, r)) : s.glzLoad d = s.refuseLoad d i r := by
  refine (if_neg (ne_true_of_eq_false hnew)).trans ((if_neg (ne_true_of_eq_false hgood)).trans ?_)
  rw [hitem]
  rfl

section
variable (hitems : s.badItem d = none)
include hitems

theorem glzLoad_checked : s.glzLoad d = if s.dirTwice d then s.refuseLoad d 0 5
    else { s with glz := { s.glz with loaded := s.glz.loaded ||| BitVec.ofNat 64 (2 ^ d) } } := by
  refine (if_neg (ne_true_of_eq_false hnew)).trans ((if_neg (ne_true_of_eq_false hgood)).trans ?_)
  rw [hitems]
  rfl

theorem glzLoad_twice (h : ∃ e < 64, e ≠ d ∧ s.isLoaded e = true ∧ s.dirId e = s.dirId d) :
    s.glzLoad d = s.refuseLoad d 0 5 := by
  obtain ⟨e, he, hne, hloaded, hid⟩ := h
  rw [glzLoad_checked hnew hgood hitems]
  exact if_pos (List.any_eq_true.mpr ⟨e, List.mem_range.mpr he, by simp [hne, hloaded, hid]⟩)

theorem glzLoad_taken (h : ∀ e < 64, e ≠ d → s.isLoaded e = true → s.dirId e ≠ s.dirId d) :
    s.glzLoad d = { s with glz := { s.glz with loaded := s.glz.loaded ||| BitVec.ofNat 64 (2 ^ d) } } := by
  have honce : s.dirTwice d = false := by
    refine List.any_eq_false.mpr fun e he htwice => ?_
    simp only [Bool.and_eq_true, decide_eq_true_eq] at htwice
    obtain ⟨⟨hne, hloaded⟩, hid⟩ := htwice
    exact h e (List.mem_range.mp he) hne hloaded hid
  rw [glzLoad_checked hnew hgood hitems, honce]
  exact if_neg Bool.false_ne_true

end

end

end

end

/-! ### The end of a store (R330, R397) -/

/-- The image of a store: the items of its entry, the loaded glazes and the boot glaze. -/
def State.storeImage (s : State) : BaseImage :=
  { issue := s.flash.nextIssue, items := s.dirItems s.glz.storeDir, bootGlaze := s.glz.nowId,
    glazes := s.packGlazes 0 0 ((List.range 64).filter s.isLoaded) }

/-- A store is over, with this in the copy that was not chosen at boot. -/
def State.storeEnds (s : State) (x : Option BaseImage) : State :=
  { s with
    flash := if s.upd.baseCopy then { s.flash with base0 := x } else { s.flash with base1 := x }
    glz := { s.glz with busy := false } }

section
variable {s : State} (hbusy : s.glz.busy = true) (hrun : s.glz.waitCmd = none)
  (hst : s.pwr.st = .run ∨ s.pwr.st = .idle)
include hbusy hrun hst

theorem exec_glazeStoreDone_runs (written : Bool) : exec (.glazeStoreDone written) s =
    .next (let ok := written && s.storeImage.fits
      let t := s.storeEnds (if ok then some s.storeImage else none)
      let v := if written then t else t.stick .flash 0 9
      if ok then v else v.stick .glz 0 17) :=
  congrArg Host.Outcome.next (if_neg (by simp [hbusy, hrun, hst]))

theorem exec_glazeStoreDone_written : exec (.glazeStoreDone true) s =
    .next (if s.storeImage.size ≤ 0x400000 then s.storeEnds (some s.storeImage)
      else (s.storeEnds none).stick .glz 0 17) := by
  refine (exec_glazeStoreDone_runs hbusy hrun hst true).trans (congrArg Host.Outcome.next ?_)
  have hfits : s.storeImage.fits = decide (s.storeImage.size ≤ 0x400000) := rfl
  by_cases hsize : s.storeImage.size ≤ 0x400000
  · simp only [hfits, hsize, decide_true, Bool.and_self, if_true]
  · simp only [hfits, hsize, decide_false, Bool.and_false, Bool.false_eq_true, if_false, if_true]

theorem exec_glazeStoreDone_failed : exec (.glazeStoreDone false) s =
    .next (((s.storeEnds none).stick .flash 0 9).stick .glz 0 17) :=
  exec_glazeStoreDone_runs hbusy hrun hst false

end

/-- Settles O41: a command written by whether one runs and whether the supervisor does; a load by the first check that
fails, an unload by whether the glaze is in force, the end of a store by whether the flash took it. -/
theorem glazeCommandsLoadUnloadAndStore : Obligations.GlazeCommandsLoadUnloadAndStore := by
  unfold Obligations.GlazeCommandsLoadUnloadAndStore
  refine ⟨fun s u a dir => ?_, fun s hbusy hrun hst => ?_⟩
  · intro d cmd by_ c
    have hd : d < 64 := dir.isLt
    have hrun : ∀ op ∈ [1, 2, 3], by_ op → exec (c op) s = .next (u.actGlzCmd (cmd op)) := fun op hop =>
      exec_glzInstr_passes hop
    refine ⟨fun op hop h => ?_, fun hidle hsup => ?_⟩
    · have hrange : op < 4 ∧ op ≠ 0 := by
        simp only [List.mem_cons, List.not_mem_nil, or_false] at hop
        omega
      rw [hrun op hop h]
      exact ⟨fun hbusy => congrArg Host.Outcome.next (actGlzCmd_busy _ hbusy), fun hidle hsup =>
        congrArg Host.Outcome.next (actGlzCmd_waits hd hrange.1 hidle hrange.2 hsup)⟩
    · intro refused
      have hload : by_ 1 → exec (.glazeLoad a dir) s = .next (u.glzLoad d) := fun h => (hrun 1 (by decide) h).trans
        (congrArg Host.Outcome.next ((actGlzCmd_runs hd (by decide) hidle (by decide) hsup).trans (runGlzCmd_load hd)))
      have hunload : by_ 2 → exec (.glazeUnload a dir) s = .next (u.glzUnload d) := fun h => (hrun 2 (by decide) h).trans
        (congrArg Host.Outcome.next ((actGlzCmd_runs hd (by decide) hidle (by decide) hsup).trans (runGlzCmd_unload hd)))
      refine ⟨fun h hnew => ?_, fun h hloaded => ?_, fun h hnow hpend => ?_, fun h hnow => ?_, fun h => ?_⟩
      · rw [hload h]
        exact ⟨fun hbad => congrArg Host.Outcome.next (glzLoad_bad_entry hnew hbad),
          fun hgood i r hitem => congrArg Host.Outcome.next (glzLoad_bad_item hnew hgood hitem),
          fun hgood hitems htwice => congrArg Host.Outcome.next (glzLoad_twice hnew hgood hitems htwice),
          fun hgood hitems honce => congrArg Host.Outcome.next (glzLoad_taken hnew hgood hitems honce)⟩
      · exact (hload h).trans (congrArg Host.Outcome.next (glzLoad_loaded hloaded))
      · exact (hunload h).trans (congrArg Host.Outcome.next (glzUnload_free hnow hpend))
      · exact (hunload h).trans (congrArg Host.Outcome.next (glzUnload_in_force hnow))
      · exact (hrun 3 (by decide) h).trans (congrArg Host.Outcome.next
          ((actGlzCmd_runs hd (by decide) hidle (by decide) hsup).trans (runGlzCmd_store hd)))
  · exact ⟨exec_glazeStoreDone_written hbusy hrun hst, exec_glazeStoreDone_failed hbusy hrun hst⟩

end Sys2Proof.Machine
end

section
/-! SUPPORT. Proof of the statement of mode changes, recalls and queries (R323, R324, R326, R327). -/

namespace Sys2Proof.Machine
open Sys2Proof

/-! ### GLZ_MC (R323) -/

/-- A word of GLZ_MC with GO: the glaze, whether it asks for a recall, and whether it is for this device alone. -/
structure McWord (w : Word) (id : Nat) (undo isLocal : Bool) : Prop where
  go : bit w 31 = true
  undo : bit w 16 = undo
  isLocal : bit w 17 = isLocal
  id : bits w 0 16 = id

theorem mcWord_ofNat {id : Nat} (undo isLocal : Bool) (hid : id < 65536) :
    McWord (BitVec.ofNat 32 (id + undo.toNat * 0x10000 + (if isLocal then 0x20000 else 0) + 2 ^ 31)) id undo isLocal := by
  have hundo := undo.toNat_le
  have hlocal := isLocal.toNat_le
  rw [ite_eq_toNat_mul]
  generalize hw : id + undo.toNat * 0x10000 + isLocal.toNat * 0x20000 + 2 ^ 31 = w
  have hbit : ∀ {x : Bool} {n : Nat}, n < 32 → w / 2 ^ n % 2 = x.toNat → bit (BitVec.ofNat 32 w) n = x :=
    fun hn hx => by rw [bit_ofNat w hn, hx]; simp
  exact
    { go := hbit (by decide) (by simp only [Bool.toNat_true]; omega)
      undo := hbit (by decide) (by omega)
      isLocal := hbit (by decide) (by omega)
      id := by rw [bits_ofNat]; omega }

/-- The milestone number in GLZ_MC_TGT. -/
def State.mcTarget (s : State) : Nat := (s.reg (ra .glz 0 0x074)).toNat

/-- The number of a change in GLZ_MC_NUM. -/
def State.mcNum (s : State) : Nat := (s.reg (ra .glz 0 0x078)).toNat

/-- The glaze is there, and the target in GLZ_MC_TGT far enough ahead. -/
def State.McGood (s : State) (id : Nat) (isLocal : Bool) : Prop :=
  s.hasGlaze id = true ∧ s.tim.ahead s.mcTarget = true ∧ (if isLocal then 1 else 16) ≤ s.tim.toGo s.mcTarget ∧
    ¬(s.tim.verge = true ∧ s.tim.toGo s.mcTarget = 1)

section
variable {s u : State} {a : Acc} {w : Word} {id : Nat} {isLocal : Bool}

theorem exec_modeChangeGo_passes {id : BitVec 16} (h : s.Passes a (ra .glz 0 0x070)
    (BitVec.ofNat 32 (id.toNat + (if isLocal then 0x20000 else 0) + 2 ^ 31)) false u) :
    ∃ w, McWord w id.toNat false isLocal ∧ exec (.modeChangeGo a id isLocal) s = .next (u.actMc w) :=
  ⟨_, mcWord_ofNat false isLocal id.isLt, congrArg Host.Outcome.next (guarded_passes h _)⟩

theorem exec_modeChangeRecall_passes (h : s.Passes a (ra .glz 0 0x070)
    (BitVec.ofNat 32 (0x10000 + (if isLocal then 0x20000 else 0) + 2 ^ 31)) false u) :
    ∃ w, McWord w 0 true isLocal ∧ exec (.modeChangeRecall a isLocal) s = .next (u.actMc w) :=
  ⟨_, mcWord_ofNat (id := 0) true isLocal (by decide), congrArg Host.Outcome.next (guarded_passes h _)⟩

theorem actMc_go [Decidable (s.McGood id isLocal)] (hw : McWord w id false isLocal) : s.actMc w =
    if s.McGood id isLocal then s.takeChange none (!isLocal) id s.mcNum s.mcTarget (s.fab.addr.getD 0)
    else s.stick .glz 0 9 := by
  unfold State.actMc
  dsimp only
  rw [hw.go, hw.undo, hw.isLocal, hw.id, if_neg (by decide), if_neg Bool.false_ne_true]
  by_cases hgood : s.McGood id isLocal
  · obtain ⟨hglaze, hahead, hfar, hclear⟩ := hgood
    refine Eq.trans (if_neg ?_) (if_pos ⟨hglaze, hahead, hfar, hclear⟩).symm
    simp only [State.mcTarget] at hahead hfar hclear
    rw [hglaze, hahead]
    simp only [Bool.not_true, Bool.false_eq_true, false_or, not_or, Nat.not_lt]
    exact ⟨hfar, hclear⟩
  · refine Eq.trans (if_pos (Classical.byContradiction fun hno => hgood ?_)) (if_neg hgood).symm
    simp only [not_or, Nat.not_lt, Bool.not_eq_true', Bool.not_eq_false] at hno
    obtain ⟨hglaze, hahead, hfar, hclear⟩ := hno
    exact ⟨hglaze, hahead, hfar, hclear⟩

theorem actMc_recall (hw : McWord w id true isLocal) : s.actMc w =
    match s.glz.pend with
    | some c => if c.num = s.mcNum then s.takeRecall none (!isLocal) s.mcNum (s.fab.addr.getD 0) else s.stick .glz 0 9
    | none => s.stick .glz 0 9 := by
  unfold State.actMc
  dsimp only
  rw [hw.go, hw.undo, hw.isLocal, if_neg (by decide), if_pos rfl]
  rfl

theorem actMc_recall_pending (hw : McWord w id true isLocal) (h : ∃ c, s.glz.pend = some c ∧ c.num = s.mcNum) :
    s.actMc w = s.takeRecall none (!isLocal) s.mcNum (s.fab.addr.getD 0) := by
  obtain ⟨c, hc, hnum⟩ := h
  rw [actMc_recall hw, hc]
  exact if_pos hnum

theorem actMc_recall_other (hw : McWord w id true isLocal) (h : ∀ c, s.glz.pend = some c → c.num ≠ s.mcNum) :
    s.actMc w = s.stick .glz 0 9 := by
  rw [actMc_recall hw]
  split
  case h_1 c hc => exact if_neg (h c hc)
  case h_2 => rfl

end

/-! ### A change received (R324) -/

/-- A change as it is noted: late where its target is not ahead, or is the milestone whose verge has begun. -/
def State.noteChange (s : State) (id num target origin : Nat) : Change :=
  { id := id, num := num, target := target, due := s.tim.due, origin := origin
    late := !(s.tim.ahead target && !(s.tim.verge && s.tim.toGo target = 1)) }

/-- An accepted change is pending, or its glaze is not there. -/
def State.holdChange (s : State) (c : Change) : State :=
  if s.hasGlaze c.id then { s with glz := { s.glz with pend := some c } }
  else (State.stick { s with glz := { s.glz with pend := none } } .glz 0 11).waymark 0x21 [c.id, -1]

section
variable {s : State} (not : Option Nat) (id num target origin : Nat)

theorem takeChange_old (flood : Bool) (h : s.newerChange num = false) :
    s.takeChange not flood id num target origin = s := if_pos (by simp [h])

theorem takeChange_recalled (flood : Bool) (h : s.glz.recalls.contains num = true) :
    s.takeChange not flood id num target origin = s := if_pos (by rw [h, Bool.or_true])

theorem takeChange_new (hnew : s.newerChange num = true) (hfresh : s.glz.recalls.contains num = false) :
    s.takeChange not true id num target origin =
      (State.floodMode { s with glz := { s.glz with last := some (s.noteChange id num target origin) } } not id 0 num
        target origin).holdChange (s.noteChange id num target origin) :=
  if_neg (by rw [hnew, hfresh]; decide)

end

/-! ### A recall received (R326) -/

theorem onlyEmits_floodMode (s : State) (not : Option Nat) (id flags num target origin : Nat) :
    s.OnlyEmits (s.floodMode not id flags num target origin) :=
  onlyEmits_each _ (fun t _ => onlyEmits_sendLink t ..) s

/-- The recalls kept once one more has come: the last 16. -/
def Glz.recalled (g : Glz) (num : Nat) : List Nat := (g.recalls ++ [num]).drop (g.recalls.length - 15)

/-- A recall is kept and goes on to the other ports. -/
def State.noteRecall (s : State) (not : Option Nat) (num origin : Nat) : State :=
  State.floodMode { s with glz := { s.glz with recalls := s.glz.recalled num } } not 0 1 num 0 origin

theorem mem_recalled (g : Glz) (num : Nat) : num ∈ g.recalled num := by
  rw [Glz.recalled, List.drop_append_of_le_length (Nat.sub_le _ _)]
  exact List.mem_append.mpr (.inr (List.mem_singleton.mpr rfl))

theorem length_recalled (g : Glz) (num : Nat) : (g.recalled num).length ≤ 16 := by
  rw [Glz.recalled, List.length_drop, List.length_append, List.length_singleton]
  omega

section
variable {s : State} (not : Option Nat) (num origin : Nat)

theorem glz_noteRecall : (s.noteRecall not num origin).glz = { s.glz with recalls := s.glz.recalled num } := by
  rw [State.noteRecall, onlyEmits_floodMode _ not 0 1 num 0 origin]

theorem takeRecall_known (flood : Bool) (h : s.glz.recalls.contains num = true) :
    s.takeRecall not flood num origin = s := if_pos h

section
variable (hfresh : s.glz.recalls.contains num = false)
include hfresh

theorem takeRecall_pending (h : ∃ p, s.glz.pend = some p ∧ p.num = num) : s.takeRecall not true num origin =
    State.waymark { s.noteRecall not num origin with
      glz := { (s.noteRecall not num origin).glz with pend := none } } 0x22 [num, 0] := by
  obtain ⟨p, hp, hnum⟩ := h
  have hpend : (s.noteRecall not num origin).glz.pend = some p := by rw [glz_noteRecall, hp]
  refine (if_neg (ne_true_of_eq_false hfresh)).trans (if_pos ?_)
  refine (congrArg (fun x : Option Change => (match x with
    | some c => decide (c.num = num)
    | none => false : Bool) = true) hpend).mpr ?_
  exact decide_eq_true hnum

theorem takeRecall_other (h : ∀ p, s.glz.pend = some p → p.num ≠ num) : s.takeRecall not true num origin =
    if s.glz.applied.contains num then ((s.noteRecall not num origin).stick .glz 0 13).waymark 0x22 [num, 1]
    else s.noteRecall not num origin := by
  have hpend : (s.noteRecall not num origin).glz.pend = s.glz.pend := by rw [glz_noteRecall]
  have happlied : (s.noteRecall not num origin).glz.applied = s.glz.applied := by rw [glz_noteRecall]
  rw [← happlied]
  refine (if_neg (ne_true_of_eq_false hfresh)).trans (if_neg ?_)
  refine mt (congrArg (fun x : Option Change => (match x with
    | some c => decide (c.num = num)
    | none => false : Bool) = true) hpend).mp ?_
  cases hp : s.glz.pend with
  | none => exact Bool.false_ne_true
  | some p => simpa using h p hp

end

end

/-! ### The commands -/

section
variable {s : State} {port : Fin 8} (hlive : s.pwr.live = true) (hst : s.pwr.st = .run ∨ s.pwr.st = .idle)
  (hcar : (s.fport port.val).carries = true)
include hlive hst hcar

theorem exec_modeChangeReceive_change {f : ModeFrame} (hquery : f.isQuery = false) (h : f.isRecall = false) :
    exec (.modeChangeReceive port f) s = .next (s.leaveIdle.takeChange (some port.val) true f.id.toNat f.num.toNat
      f.target.toNat f.origin.toNat) := by
  refine congrArg Host.Outcome.next ((if_neg ?_).trans (if_neg (ne_true_of_eq_false h)))
  rw [up_of_awake hlive hst, hcar, hquery]
  decide

theorem exec_modeChangeReceive_recall {f : ModeFrame} (hquery : f.isQuery = false) (h : f.isRecall = true) :
    exec (.modeChangeReceive port f) s =
      .next (s.leaveIdle.takeRecall (some port.val) true f.num.toNat f.origin.toNat) := by
  refine congrArg Host.Outcome.next ((if_neg ?_).trans (if_pos h))
  rw [up_of_awake hlive hst, hcar, hquery]
  decide

theorem exec_queryReceive_none (h : s.glz.last = none) : exec (.queryReceive port) s = .next s.leaveIdle := by
  refine congrArg Host.Outcome.next ((if_neg ?_).trans ?_)
  · rw [up_of_awake hlive hst, hcar]
    decide
  · rw [h]

theorem exec_queryReceive_some {c : Change} (h : s.glz.last = some c) : exec (.queryReceive port) s =
    .next (s.leaveIdle.sendLink port.val 4 0x08 [c.id, 0, c.num, c.target, c.origin] 16) := by
  refine congrArg Host.Outcome.next ((if_neg ?_).trans ?_)
  · rw [up_of_awake hlive hst, hcar]
    decide
  · rw [h]

end

/-- Settles O42: GO and a recall by whether they are taken, a change received by whether it is new, a recall received by
whether its change is pending, a query by whether a change has been accepted. -/
theorem modeChangesAreTakenRecalledAndAnswered : Obligations.ModeChangesAreTakenRecalledAndAnswered := by
  unfold Obligations.ModeChangesAreTakenRecalledAndAnswered
  refine ⟨fun s u a id isLocal => ?_, fun z port f hlive hst hcar hquery => ?_, fun s port hlive hst hcar =>
    ⟨exec_queryReceive_none hlive hst hcar, fun c => exec_queryReceive_some hlive hst hcar⟩⟩
  · classical
    intro num target own loc good
    refine ⟨fun h => ?_, fun h => ?_⟩
    · obtain ⟨w, hw, hrun⟩ := exec_modeChangeGo_passes h
      rw [hrun, actMc_go hw]
      exact ⟨fun hgood => congrArg Host.Outcome.next (if_pos hgood),
        fun hbad => congrArg Host.Outcome.next (if_neg hbad)⟩
    · obtain ⟨w, hw, hrun⟩ := exec_modeChangeRecall_passes h
      rw [hrun]
      exact ⟨fun hpend => congrArg Host.Outcome.next (actMc_recall_pending hw hpend),
        fun hother => congrArg Host.Outcome.next (actMc_recall_other hw hother)⟩
  · intro s onTime c u
    have hchange : f.isRecall = false → exec (.modeChangeReceive port f) z = .next (s.takeChange (some port.val) true
      f.id.toNat f.num.toNat f.target.toNat f.origin.toNat) := exec_modeChangeReceive_change hlive hst hcar hquery
    have hrecall : f.isRecall = true → exec (.modeChangeReceive port f) z =
      .next (s.takeRecall (some port.val) true f.num.toNat f.origin.toNat) :=
      exec_modeChangeReceive_recall hlive hst hcar hquery
    have hnoted : s.noteChange f.id.toNat f.num.toNat f.target.toNat f.origin.toNat = c := by
      have hlate : (s.tim.ahead f.target.toNat && !(s.tim.verge && s.tim.toGo f.target.toNat = 1)) = decide onTime := by
        simp [onTime]
      simp only [State.noteChange, hlate, c]
    refine ⟨fun h hold => ?_, fun h hnew => ⟨fun hgone => ?_, fun hfresh => ?_⟩, fun h hknown => ?_, fun h hfresh => ?_⟩
    · exact (hchange h).trans (congrArg Host.Outcome.next (takeChange_old _ _ _ _ _ _ hold))
    · exact (hchange h).trans (congrArg Host.Outcome.next (takeChange_recalled _ _ _ _ _ _ hgone))
    · rw [hchange h, takeChange_new _ _ _ _ _ hnew hfresh, hnoted]
      rfl
    · exact (hrecall h).trans (congrArg Host.Outcome.next (takeRecall_known _ _ _ _ hknown))
    · refine ⟨s.noteRecall (some port.val) f.num.toNat f.origin.toNat, ?_, ?_, ?_, fun hpend => ?_, fun hother => ?_⟩
      · rw [glz_noteRecall]
      · rw [glz_noteRecall]
        exact mem_recalled ..
      · rw [glz_noteRecall]
        exact length_recalled ..
      · exact (hrecall h).trans (congrArg Host.Outcome.next (takeRecall_pending _ _ _ hfresh hpend))
      · exact (hrecall h).trans (congrArg Host.Outcome.next (takeRecall_other _ _ _ hfresh hother))

end Sys2Proof.Machine
end

section
/-! SUPPORT. Proof of the statement of the base configuration (R328, R329). -/

namespace Sys2Proof.Machine
open Sys2Proof

/-- A base image that is there and whose signature holds. -/
def usableBase (sig : Bool) (x : Option BaseImage) : Option BaseImage := if sig then x else none

/-- The base configuration begins: BASE_COPY says that the first copy is not usable, `no` that there is no base at all. -/
def State.beginBase (s : State) (boot : BootIn) (no : Bool) : State :=
  { (if (usableBase boot.baseSig0 s.flash.base0).isSome then s else s.stick .glz 0 15) with
    pwr := { s.pwr with basePending := true, noBase := no } }

/-- The base configuration begins with a copy, which a store is to leave alone. -/
def State.keepBase (s : State) (boot : BootIn) (c : Bool) : State :=
  { s.beginBase boot false with upd := { s.upd with baseCopy := c } }

/-- The table entries that the items of an image name. -/
def baseEntries (items : List Item) : List (TableId × Nat) :=
  (items.filterMap fun (x : Item) => (tableAt x.offset).map fun e => (e.1, e.2.1)).eraseDups

/-- The items of an image are written, the table entries that they name validated and the pages committed. -/
def State.writeBase (s : State) (items : List Item) : State :=
  State.commitAll ((baseEntries items).foldl (fun (w : State) e => w.runInvalidate e.1 (some e.2))
    (items.foldl (fun (w : State) x => w.baseItem x) s))

section
variable {s : State} {boot : BootIn}

theorem exec_baseConfiguration_due (hlock : s.tim.locked = true) (hbooted : s.pwr.booted = true)
    (hst : s.pwr.st = .run) (hlive : s.pwr.live = false) (hpend : s.pwr.basePending = false)
    (hrec : s.pwr.recovery = false) : exec (.baseConfiguration boot) s = .next (s.applyBase boot) :=
  congrArg Host.Outcome.next (if_pos (by simp [hlock, hbooted, hst, hlive, hpend, hrec]))

/-! ### The choice between the copies (R328) -/

theorem chooseBase_none (h0 : usableBase boot.baseSig0 s.flash.base0 = none)
    (h1 : usableBase boot.baseSig1 s.flash.base1 = none) : s.chooseBase boot = none := by
  simp only [usableBase] at h0 h1
  simp only [State.chooseBase, h0, h1]

theorem chooseBase_first {x : BaseImage} (h0 : usableBase boot.baseSig0 s.flash.base0 = some x)
    (h1 : ∀ y, usableBase boot.baseSig1 s.flash.base1 = some y → y.issue ≤ x.issue) :
    s.chooseBase boot = some (false, x) := by
  simp only [usableBase] at h0 h1
  simp only [State.chooseBase, h0]
  cases hy : if boot.baseSig1 then s.flash.base1 else none with
  | none => rfl
  | some y => exact if_neg (Nat.not_lt.mpr (h1 y hy))

theorem chooseBase_second {y : BaseImage} (h1 : usableBase boot.baseSig1 s.flash.base1 = some y)
    (h0 : ∀ x, usableBase boot.baseSig0 s.flash.base0 = some x → x.issue < y.issue) :
    s.chooseBase boot = some (true, y) := by
  simp only [usableBase] at h0 h1
  simp only [State.chooseBase, h1]
  cases hx : if boot.baseSig0 then s.flash.base0 else none with
  | none => rfl
  | some x => exact if_pos (h0 x hx)

/-! ### What the choice leads to (R329) -/

theorem beginBase_eq (no : Bool) : s.beginBase boot no =
    { (if boot.baseSig0 && s.flash.base0.isSome then s else s.glzStick 15) with
      pwr := { s.pwr with basePending := true, noBase := no } } := by
  have husable : (usableBase boot.baseSig0 s.flash.base0).isSome = (boot.baseSig0 && s.flash.base0.isSome) := by
    cases hsig : boot.baseSig0 <;> simp [usableBase]
  rw [State.beginBase, husable]
  rfl

theorem beginBase_frame (no : Bool) : s.beginBase boot no =
    { s with regs := (s.beginBase boot no).regs, pwr := { s.pwr with basePending := true, noBase := no } } := by
  unfold State.beginBase
  split <;> rfl

theorem reg_beginBase (no : Bool) {b : Nat} (hb : b ≠ ra .glz 0 0x010) : (s.beginBase boot no).reg b = s.reg b := by
  unfold State.beginBase
  split
  case isTrue => rfl
  case isFalse => exact reg_stick_other s .glz 0 15 hb

theorem applyBase_none (h : s.chooseBase boot = none) :
    s.applyBase boot = (s.beginBase boot true).stick .glz 0 16 := by
  simp only [State.chooseBase] at h
  rw [beginBase_eq]
  unfold State.applyBase State.chooseBase
  split
  case isTrue =>
    dsimp only
    rw [h]
    rfl
  case isFalse =>
    dsimp only [State.glzStick, stick_flash]
    rw [h]
    rfl

theorem applyBase_some {c : Bool} {img : BaseImage} (h : s.chooseBase boot = some (c, img)) : s.applyBase boot =
    (s.keepBase boot c).writeBase img.items := by
  simp only [State.chooseBase] at h
  rw [State.keepBase, beginBase_eq]
  unfold State.applyBase State.chooseBase
  split
  case isTrue =>
    dsimp only
    rw [h]
    rfl
  case isFalse =>
    dsimp only [State.glzStick, stick_flash]
    rw [h]
    rfl

theorem writeBase_nil (h : s.acc.stage = []) : s.writeBase [] = s := by
  simp [State.writeBase, baseEntries, State.commitAll, State.each, h]

end

/-- Settles O45: the copies by which of them is usable and newer, the choice by whether there is one. -/
theorem theBaseConfigurationIsWrittenValidatedAndCommitted :
    Obligations.TheBaseConfigurationIsWrittenValidatedAndCommitted := by
  unfold Obligations.TheBaseConfigurationIsWrittenValidatedAndCommitted
  intro s boot hlock hbooted hst hlive hpend hrec usable c0 c1 base entries applied
  have hrun := exec_baseConfiguration_due (boot := boot) hlock hbooted hst hlive hpend hrec
  refine ⟨fun h0 h1 => ?_, fun x h0 h1 => ?_, fun y h1 h0 => ?_, fun c img hchoice hnone hstage => ?_⟩
  · exact hrun.trans (congrArg Host.Outcome.next (applyBase_none (chooseBase_none h0 h1)))
  · exact hrun.trans (congrArg Host.Outcome.next (applyBase_some (chooseBase_first h0 h1)))
  · exact hrun.trans (congrArg Host.Outcome.next (applyBase_some (chooseBase_second h1 h0)))
  · have hframe : s.keepBase boot c = { s with
        regs := (s.keepBase boot c).regs, pwr := { s.pwr with basePending := true, noBase := false }
        upd := { s.upd with baseCopy := c } } :=
      congrArg (fun w : State => { w with upd := { s.upd with baseCopy := c } }) (beginBase_frame false)
    have hwritten := applyBase_some hchoice
    rw [hnone, writeBase_nil (by rw [hframe, hstage])] at hwritten
    exact ⟨_, hrun.trans (congrArg Host.Outcome.next hwritten), hframe, fun b hb => reg_beginBase false hb⟩

end Sys2Proof.Machine
end

section
/-! SUPPORT. Proof of the statement of cold starts (R360, R373, R374, R380). -/

namespace Sys2Proof.Machine
open Sys2Proof

/-! ### The choice between the boot records (R373, R374) -/

/-- The copy chosen is there, and the other is older, the same, or unsigned under the same number. -/
theorem choice_spec {f : Flash} {c : Bool} (h : f.choice = some c) : ∃ x, f.brec c = some x ∧ ∀ y,
    f.brec (!c) = some y → y.seqNo < x.seqNo ∨ x = y ∨ (y.seqNo = x.seqNo ∧ x.signed = true ∧ y.signed = false) := by
  unfold Flash.choice at h
  split at h
  case h_1 => cases h
  case h_2 x h0 h1 =>
    obtain rfl := Option.some.inj h
    exact ⟨x, h0, fun y hy => absurd (h1.symm.trans hy) (by simp)⟩
  case h_3 y h0 h1 =>
    obtain rfl := Option.some.inj h
    exact ⟨y, h1, fun x hx => absurd (h0.symm.trans hx) (by simp)⟩
  case h_4 x y h0 h1 =>
    split at h
    case isTrue hne =>
      obtain rfl := Option.some.inj h
      by_cases hlt : x.seqNo < y.seqNo
      · refine ⟨y, by simpa [Flash.brec, hlt] using h1, fun z hz => ?_⟩
        obtain rfl : x = z := by simpa [Flash.brec, hlt, h0] using hz
        exact .inl hlt
      · refine ⟨x, by simpa [Flash.brec, hlt] using h0, fun z hz => ?_⟩
        obtain rfl : y = z := by simpa [Flash.brec, hlt, h1] using hz
        exact .inl (by omega)
    case isFalse heq =>
      split at h
      case isTrue hsame =>
        obtain rfl := Option.some.inj h
        refine ⟨x, h0, fun z hz => .inr (.inl ?_)⟩
        exact hsame.trans (Option.some.inj (h1.symm.trans hz))
      case isFalse =>
        split at h
        case isTrue => cases h
        case isFalse hsigned =>
          obtain rfl := Option.some.inj h
          have hseq : x.seqNo = y.seqNo := not_not.mp heq
          cases hy : y.signed with
          | true =>
            refine ⟨y, h1, fun z hz => .inr (.inr ?_)⟩
            obtain rfl : x = z := Option.some.inj (h0.symm.trans hz)
            exact ⟨hseq, hy, by simpa [hy] using hsigned⟩
          | false =>
            refine ⟨x, h0, fun z hz => .inr (.inr ?_)⟩
            obtain rfl : y = z := Option.some.inj (h1.symm.trans hz)
            exact ⟨hseq.symm, by simpa [hy] using hsigned, hy⟩

theorem onlyOne_of_choice {f : Flash} {c : Bool} (h : f.choice = some c) :
    f.onlyOne = decide (f.brec (!c) = none) := by
  obtain ⟨x, hx, -⟩ := choice_spec h
  cases c with
  | false =>
    simp only [Flash.brec, Bool.false_eq_true, if_false, Bool.not_false, if_true] at hx ⊢
    cases h1 : f.brec1 <;> simp [Flash.onlyOne, hx, h1]
  | true =>
    simp only [Flash.brec, Bool.not_true, Bool.false_eq_true, if_false, if_true] at hx ⊢
    cases h0 : f.brec0 <;> simp [Flash.onlyOne, hx, h0]

/-- A start notes the copy that has won, and that it alone is intact. -/
theorem chooseRec_of_choice {s : State} {c : Bool} (h : s.flash.choice = some c) : s.chooseRec =
    let won : State := { s with upd := { s.upd with win := c } }
    if decide (s.flash.brec (!c) = none) then won.stick .upd 0 14 else won := by
  unfold State.chooseRec
  rw [h, ← onlyOne_of_choice h]
  rfl

/-! ### The recovery loader (R374) -/

theorem flag_enterRecovery (s : State) : s.enterRecovery.flag (ra .upd 0 0x010) 15 = true :=
  flag_stick_same _ .upd 0 15 (by decide)

/-- The recovery loader looks for what a download left behind, and touches the update unit alone. -/
theorem slotAtStart_frame (s : State) :
    s.slotAtStart = { s with upd := s.slotAtStart.upd, regs := s.slotAtStart.regs } := by
  unfold State.slotAtStart
  dsimp only
  split
  case isTrue => rfl
  case isFalse =>
    split
    case isTrue => rfl
    case isFalse => rfl

theorem flag_slotAtStart {s : State} {a n : Nat} (h : s.flag a n = true) : s.slotAtStart.flag a n = true := by
  unfold State.slotAtStart
  dsimp only
  split
  case isTrue => exact h
  case isFalse =>
    split
    case isTrue => exact h
    case isFalse => exact flag_orReg_of_flag h _ _

/-- What the recovery loader leaves of a state, before it looks at the inactive slot and after. -/
structure State.Recovers (s t : State) : Prop where
  sticky : t.flag (ra .upd 0 0x010) 15 = true
  recovery : t.pwr.recovery = true
  booted : t.pwr.booted = true
  halted : t.sup.running = false
  frame : t = { s with upd := t.upd, sup := { s.sup with running := false }
                       pwr := { s.pwr with booted := true, recovery := true }, regs := t.regs }

theorem recovers_enterRecovery (s : State) : s.Recovers s.enterRecovery :=
  ⟨flag_enterRecovery s, rfl, rfl, rfl, rfl⟩

theorem State.Recovers.slotAtStart {s t : State} (h : s.Recovers t) : s.Recovers t.slotAtStart where
  sticky := flag_slotAtStart h.sticky
  recovery := by rw [slotAtStart_frame]; exact h.recovery
  booted := by rw [slotAtStart_frame]; exact h.booted
  halted := by rw [slotAtStart_frame]; exact h.halted
  frame := (slotAtStart_frame t).trans
    (congrArg (fun v : State => { v with upd := t.slotAtStart.upd, regs := t.slotAtStart.regs }) h.frame)

/-! ### The start (R360) -/

/-- The enables rise, the PLL locks, and the straps are sampled. -/
def State.powerUp (s : State) (boot : BootIn) : State :=
  { s with
    tim := if s.tim.locked then s.tim else { s.tim with locked := true, time := 0, ckr := 0, msNum := 0 }
    pwr := { s.pwr with penHigh := true }, hst := { s.hst with i2cAddr := 0x28 + boot.straps.toNat } }

/-- The self-test is noted, then the causes of the start, then what the flash says of itself. -/
def State.noteStart (s : State) (boot : BootIn) : State :=
  ((if boot.secSelfTest then s else s.stick .sys 0 13).startCause).flashStat boot

/-- The flash as its boot records read. -/
def State.readFlash (s : State) (boot : BootIn) : State :=
  { s with flash := s.flash.readRecs boot.brecSig0 boot.brecSig1 }

section
variable {s : State} (boot : BootIn)

theorem exec_coldStart_first (hst : s.pwr.st = .run) (hfirst : s.pwr.booted = false) :
    exec (.coldStart boot) s = .next
      ((if boot.secSelfTest then s.powerUp boot else (s.powerUp boot).stick .sys 0 13).startCause.boot boot) := by
  refine congrArg Host.Outcome.next ((if_pos (by simp [hst, hfirst])).trans ?_)
  unfold State.powerUp
  by_cases hlock : s.tim.locked = true
  · simp only [if_pos hlock]
  · simp only [if_neg hlock]

/-- A start by what it finds: an unusable flash, no boot record chosen, or one. -/
def State.bootFound (s : State) (boot : BootIn) : State :=
  if !flashOk boot then s.enterRecovery
  else if (s.readFlash boot).flash.choice.isSome then (s.readFlash boot).bootFrom boot
  else (s.readFlash boot).enterRecovery.slotAtStart

theorem exec_coldStart_found (hst : s.pwr.st = .run) (hfirst : s.pwr.booted = false) :
    exec (.coldStart boot) s = .next (((s.powerUp boot).noteStart boot).bootFound boot) :=
  exec_coldStart_first boot hst hfirst

theorem bootFound_unusable (h : flashOk boot = false) : s.bootFound boot = s.enterRecovery :=
  if_pos (by rw [h]; rfl)

/-- The start under the record chosen. -/
def State.startRec (s : State) (c : Bool) : State :=
  let won : State := { s with upd := { s.upd with win := c } }
  State.slotAtStart (if decide (s.flash.brec (!c) = none) then won.stick .upd 0 14 else won)

theorem bootFrom_of_choice {c : Bool} (h : s.flash.choice = some c) : s.bootFrom boot =
    let b := (s.startRec c).bootImage boot
    if b.pwr.recovery then b else
      State.applyBase (((State.trainMemory { b with pwr := { b.pwr with booted := true } } boot).factoryCheck).lakeRecover
        boot.badSlots) boot := by
  unfold State.bootFrom State.startRec
  rw [chooseRec_of_choice h]

section
variable (hgood : flashOk boot = true)
include hgood

theorem bootFound_unchosen (h : (s.readFlash boot).flash.choice = none) :
    s.bootFound boot = (s.readFlash boot).enterRecovery.slotAtStart := by
  rw [State.bootFound, h]
  exact (if_neg (by rw [hgood]; decide)).trans (if_neg Bool.false_ne_true)

theorem bootFound_chosen {c : Bool} (h : (s.readFlash boot).flash.choice = some c) :
    s.bootFound boot = (s.readFlash boot).bootFrom boot := by
  rw [State.bootFound, h]
  exact (if_neg (by rw [hgood]; decide)).trans (if_pos rfl)

end

end

/-- Settles O44: a start by whether the flash can be used and whether a boot record is chosen. -/
theorem aColdStartBootsTheChosenRecordOrRecovers : Obligations.AColdStartBootsTheChosenRecordOrRecovers := by
  unfold Obligations.AColdStartBootsTheChosenRecordOrRecovers
  intro s boot hst hfirst t0 u v kept f w recovers rec_
  have hrun : exec (.coldStart boot) s = .next (v.bootFound boot) := exec_coldStart_found boot hst hfirst
  refine ⟨fun hbad => ?_, fun hgood hnone => ?_, fun c hc => ?_⟩
  · obtain ⟨hsticky, hrec, hbooted, hhalted, hframe⟩ := recovers_enterRecovery v
    exact ⟨_, hrun.trans (congrArg Host.Outcome.next (bootFound_unusable boot hbad)),
      ⟨hsticky, hrec, hbooted, hhalted, hframe⟩, rfl⟩
  · obtain ⟨hsticky, hrec, hbooted, hhalted, hframe⟩ := (recovers_enterRecovery w).slotAtStart
    exact ⟨_, hrun.trans (congrArg Host.Outcome.next (bootFound_unchosen boot hgood hnone)),
      hsticky, hrec, hbooted, hhalted, hframe⟩
  · obtain ⟨x, hx, hother⟩ := choice_spec hc
    refine ⟨Option.isSome_iff_exists.mpr ⟨x, hx⟩, fun y z hy hz => ?_, fun hgood => ?_⟩
    · obtain rfl : x = y := Option.some.inj (hx.symm.trans hy)
      exact hother z hz
    · intro only won b
      exact hrun.trans (congrArg Host.Outcome.next
        ((bootFound_chosen boot hgood hc).trans (bootFrom_of_choice (s := w) boot hc)))

end Sys2Proof.Machine
end

section
/-! SUPPORT. Proof of the statement of interrupt sources, claims, ends of interrupt and interrupt frames (R332 to R345). -/

namespace Sys2Proof.Machine
open Sys2Proof

/-! ### A sample of a source (R333, R334) -/

/-- A source with its condition noted. -/
def Source.noted (x : Source) (n : Nat) (now : Bool) : Source := { x with cond := now && !isPulse n, pulse := false }

/-- The condition makes an event of the source, as its sensing says. -/
def Source.AsksEvent (x : Source) (n : Nat) (now : Bool) : Prop :=
  if isPulse n then now = true
  else if x.sense = 0 then now = true ∧ (x.cond = false ∨ x.st = .inactive ∨ x.st = .pending)
  else if x.sense = 1 then now = true ∧ x.cond = false
  else if x.sense = 2 then now = false ∧ x.cond = true
  else (now = true ∧ x.cond = false) ∨ (now = false ∧ x.cond = true)

/-- `t` differs from `s` in source `n` alone, which is at `y`. -/
def State.WithSource (s t : State) (n : Nat) (y : Source) : Prop :=
  t = { s with int := { s.int with sources := t.int.sources } } ∧ t.source n = y ∧ ∀ d, d ≠ n → t.source d = s.source d

theorem withSource_setSource (s : State) (n : Nat) (y : Source) : s.WithSource (s.setSource n y) n y :=
  ⟨rfl, source_setSource_same s n y, fun d => source_setSource_other s n y d⟩

theorem State.WithSource.setSource {s t : State} {n : Nat} {y : Source} (h : s.WithSource t n y) (z : Source) :
    s.WithSource (t.setSource n z) n z := by
  obtain ⟨hframe, -, hother⟩ := h
  refine ⟨?_, source_setSource_same .., fun d hd => (source_setSource_other _ _ _ _ hd).trans (hother d hd)⟩
  exact congrArg (fun v : State => { v with int := { v.int with sources := (t.setSource n z).int.sources } }) hframe

section
variable {s : State} {n : Nat}

theorem event_disabled (h : (s.source n).en = false) : s.event n = s := if_pos (by rw [h]; rfl)

section
variable (hen : (s.source n).en = true)
include hen

theorem event_enabled : s.event n = match (s.source n).st with
    | .inactive => (s.setSource n { s.source n with st := .pending }).deliver n
    | .pending => if (s.source n).held then s else s.deliver n
    | .active => s.setSource n { s.source n with st := .activePending }
    | .activePending => s := if_neg (by rw [hen]; decide)

theorem event_inactive (h : (s.source n).st = .inactive) :
    s.event n = (s.setSource n { s.source n with st := .pending }).deliver n := by
  rw [event_enabled hen]
  split <;> simp_all

theorem event_pending (h : (s.source n).st = .pending) :
    s.event n = if (s.source n).held then s else s.deliver n := by
  rw [event_enabled hen]
  split <;> simp_all

theorem event_active (h : (s.source n).st = .active) :
    s.event n = s.setSource n { s.source n with st := .activePending } := by
  rw [event_enabled hen]
  split <;> simp_all

theorem event_activePending (h : (s.source n).st = .activePending) : s.event n = s := by
  rw [event_enabled hen]
  split <;> simp_all

end

end

section
variable {s : State} {n : Nat} {now : Bool}

/-- The source with its condition noted, and no event yet. -/
def State.noteCond (s : State) (n : Nat) (now : Bool) : State := s.setSource n ((s.source n).noted n now)

theorem sampleSource_pulse (h : isPulse n = true) : s.sampleSource n now =
    if !now then s.noteCond n now
    else if (s.source n).sense = 3 then ((s.noteCond n now).event n).event n else (s.noteCond n now).event n := by
  have hnoted : ({ s.source n with cond := if isPulse n then false else now, pulse := false } : Source) =
      (s.source n).noted n now := by simp [Source.noted, h]
  unfold State.sampleSource State.noteCond
  dsimp only
  rw [hnoted, if_pos h]

theorem sampleSource_level (h : isPulse n = false) [Decidable ((s.source n).AsksEvent n now)] :
    s.sampleSource n now =
      if (s.source n).AsksEvent n now then (s.noteCond n now).event n else s.noteCond n now := by
  have hnoted : ({ s.source n with cond := if isPulse n then false else now, pulse := false } : Source) =
      (s.source n).noted n now := by simp [Source.noted, h]
  unfold State.sampleSource
  dsimp only
  rw [hnoted, if_neg (ne_true_of_eq_false h)]
  split
  case h_1 hsense =>
    refine if_congr ?_ rfl rfl
    simp only [Source.AsksEvent, h, hsense, Bool.false_eq_true, if_false, if_true]
    cases now <;> simp [or_assoc]
  case h_2 hsense =>
    refine if_congr ?_ rfl rfl
    simp only [Source.AsksEvent, h, hsense, Bool.false_eq_true, if_false, if_true]
    simp
  case h_3 hsense =>
    refine if_congr ?_ rfl rfl
    simp only [Source.AsksEvent, h, hsense, Bool.false_eq_true, if_false, if_true]
    simp
  case h_4 hnot0 hnot1 hnot2 =>
    refine if_congr ?_ rfl rfl
    simp only [Source.AsksEvent, h, if_neg (show ¬(s.source n).sense = 0 from hnot0),
      if_neg (show ¬(s.source n).sense = 1 from hnot1), if_neg (show ¬(s.source n).sense = 2 from hnot2)]
    simp

theorem sampleSource_unasked (h : ¬(s.source n).AsksEvent n now) : s.sampleSource n now = s.noteCond n now := by
  classical
  cases hpulse : isPulse n with
  | true =>
    have hoff : now = false := by simpa [Source.AsksEvent, hpulse] using h
    rw [sampleSource_pulse hpulse, hoff]
    rfl
  | false => rw [sampleSource_level hpulse, if_neg h]

section
variable (h : (s.source n).AsksEvent n now)
include h

theorem sampleSource_once (honce : isPulse n = false ∨ (s.source n).sense ≠ 3) :
    s.sampleSource n now = (s.noteCond n now).event n := by
  classical
  cases hpulse : isPulse n with
  | true =>
    have hon : now = true := by simpa [Source.AsksEvent, hpulse] using h
    rw [sampleSource_pulse hpulse, hon, if_neg (honce.resolve_left (by simp [hpulse]))]
    rfl
  | false => rw [sampleSource_level hpulse, if_pos h]

theorem sampleSource_twice (htwice : ¬(isPulse n = false ∨ (s.source n).sense ≠ 3)) :
    s.sampleSource n now = ((s.noteCond n now).event n).event n := by
  simp only [not_or, Bool.not_eq_false, not_not] at htwice
  obtain ⟨hpulse, hsense⟩ := htwice
  have hon : now = true := by simpa [Source.AsksEvent, hpulse] using h
  rw [sampleSource_pulse hpulse, hon, if_pos hsense]
  rfl

end

theorem sampleSource_disabled (hoff : (s.source n).en = false) (hasks : (s.source n).AsksEvent n now) :
    s.sampleSource n now = s.noteCond n now := by
  have hquiet : (s.noteCond n now).event n = s.noteCond n now :=
    event_disabled ((congrArg Source.en (source_setSource_same ..)).trans hoff)
  by_cases honce : isPulse n = false ∨ (s.source n).sense ≠ 3
  · rw [sampleSource_once hasks honce, hquiet]
  · rw [sampleSource_twice hasks honce, hquiet, hquiet]

/-- Without an event that an enabled source sees, a sample leaves the noted condition alone behind. -/
theorem sampleSource_silent (hnone : ¬((s.source n).en = true ∧ (s.source n).AsksEvent n now)) :
    s.sampleSource n now = s.noteCond n now := by
  by_cases hasks : (s.source n).AsksEvent n now
  · exact sampleSource_disabled (Bool.eq_false_iff.mpr fun hen => hnone ⟨hen, hasks⟩) hasks
  · exact sampleSource_unasked hasks

theorem exec_sourceEvent_sampled {src : BitVec 10} (level : Bool) (hexists : sourceExists src.toNat = true)
    (hlive : s.pwr.live = true) (hclk : s.pwr.clocked = true) (hreset : s.inReset 0x004 = false) :
    exec (.sourceEvent src level) s = .next (s.sampleSource src.toNat (s.condOf src.toNat level)) :=
  congrArg Host.Outcome.next (if_pos (by rw [hexists, hlive, hclk, hreset]; rfl))

theorem withSource_noteCond (s : State) (n : Nat) (now : Bool) :
    s.WithSource (s.noteCond n now) n ((s.source n).noted n now) := withSource_setSource s n _

theorem source_noteCond (s : State) (n : Nat) (now : Bool) :
    (s.noteCond n now).source n = (s.source n).noted n now := source_setSource_same ..

end

/-! ### Claims (R338) -/

section
variable {s : State} {a : Acc} {t : Fin 16} {fast : Bool}

/-- The claim register of a class. -/
def claimReg (fast : Bool) (t : Nat) : Nat := if fast then ra .intF 0 (0x040 + 4 * t) else ra .intN 0 (0x180 + 4 * t)

/-- A read of a claim register of a class. -/
def claimInstr (a : Acc) (t : Fin 16) (fast : Bool) : Instr := if fast then .intFclaim a t else .intClaim a t

theorem exec_claimInstr_reads (h : s.Reads a (claimReg fast t.val)) :
    exec (claimInstr a t fast) s = .next ((s.accept a).claim t.val fast) := by
  cases fast with
  | true => exact congrArg Host.Outcome.next (guardedRead_reads h _)
  | false => exact congrArg Host.Outcome.next (guardedRead_reads h _)

theorem claim_some {n : Nat} (h : s.claimable t.val fast = some n) : s.claim t.val fast =
    (s.setSource n { s.source n with claimed := true }).answerWith (.data (BitVec.ofNat 32 (n + 2 ^ 31))) := by
  simp only [State.claim, State.claimWord, h]
  rfl

theorem claim_none (h : s.claimable t.val fast = none) : s.claim t.val fast = s.answerWith (.data 0) := by
  simp only [State.claim, State.claimWord, h]

end

/-! ### Ends of interrupt (R334, R345) -/

/-- The end-of-interrupt register of a class. -/
def eoiReg (fast : Bool) (t : Nat) : Nat := if fast then ra .intF 0 (0x080 + 4 * t) else ra .intN 0 (0x1C0 + 4 * t)

/-- An end of interrupt written to the page of a class. -/
def eoiInstr (a : Acc) (t : Fin 16) (src : BitVec 10) (fast : Bool) : Instr :=
  if fast then .intFeoi a t src else .intEoi a t src

/-- The source is active on the target. -/
def Source.ActiveOn (x : Source) (t : Nat) : Prop := (x.st = .active ∨ x.st = .activePending) ∧ x.target = t

/-- The active state of a source on its target has ended: it is delivered again where it is pending, or its level stands. -/
def State.afterActive (s : State) (t n : Nat) : State :=
  let x := s.source n
  let off := s.setSource n { x with st := .inactive, claimed := false }
  if x.en = true ∧ x.st = .activePending then off.message t [n]
  else if x.en = true ∧ x.sense = 0 ∧ isPulse n = false ∧ s.condOf n x.cond = true then
    (s.setSource n { x with st := .pending, claimed := false }).deliver n
  else off

section
variable {s u : State} {a : Acc} {t : Fin 16} {fast : Bool}

theorem exec_eoiInstr_passes {src : BitVec 10}
    (h : s.Passes a (eoiReg fast t.val) (BitVec.ofNat 32 src.toNat) false u) :
    exec (eoiInstr a t src fast) s = .next (u.eoi a.req.toNat t.val src.toNat fast) := by
  have hsrc : bits (BitVec.ofNat 32 src.toNat) 0 10 = src.toNat := by
    rw [bits_ofNat]
    omega
  cases fast with
  | true =>
    refine congrArg Host.Outcome.next ((guarded_passes h _).trans ?_)
    rw [State.actFeoi, hsrc]
  | false =>
    refine congrArg Host.Outcome.next ((guarded_passes h _).trans ?_)
    rw [State.actEoi, hsrc]

section
variable {req n k : Nat}

theorem eoi_bad (h : ¬(s.source n).ActiveOn k ∨ s.isFast n ≠ fast) :
    s.eoi req k n fast = s.stick (if fast then .intF else .intN) 0 8 := by
  refine if_pos ?_
  rcases h with h | h
  · simp only [Source.ActiveOn] at h
    have hoff : (((s.source n).st = .active || (s.source n).st = .activePending) &&
        decide ((s.source n).target = k)) = false := by simpa [Bool.eq_false_iff] using h
    rw [hoff]
    rfl
  · simp [h]

section
variable (hactive : (s.source n).ActiveOn k) (hclass : s.isFast n = fast)
include hactive hclass

theorem eoi_serves : ¬(!(((s.source n).st = .active || (s.source n).st = .activePending) &&
    decide ((s.source n).target = k)) || s.isFast n != fast) = true := by
  simp only [Source.ActiveOn] at hactive
  have hon : (((s.source n).st = .active || (s.source n).st = .activePending) &&
      decide ((s.source n).target = k)) = true := by simpa using hactive
  rw [hon, hclass]
  simp

theorem eoi_other_tenant {j : Nat} (ht : s.tenantOf req = some j) (hne : (s.source n).tenant ≠ j) :
    s.eoi req k n fast = s := by
  refine (if_neg (eoi_serves hactive hclass)).trans (if_pos ?_)
  rw [ht]
  simpa using hne

theorem eoi_allowed (h : ∀ j, s.tenantOf req = some j → (s.source n).tenant = j) : s.eoi req k n fast =
    if (s.afterActive k n).activeOn k = [] ∧ (s.afterActive k n).heldOn k ≠ [] then
      (s.afterActive k n).releaseHeld k else s.afterActive k n := by
  have hended : s.endActive (fun s m => State.handOver 4 s m) State.deliver k n =
      if ((s.afterActive k n).activeOn k).isEmpty && !((s.afterActive k n).heldOn k).isEmpty then
        (s.afterActive k n).releaseHeld k else s.afterActive k n := by
    have hafter : (if ((s.source n).en && (s.source n).st = .activePending) = true then
          (s.setSource n { s.source n with st := .inactive, claimed := false }).message k [n]
        else if ((s.source n).en && (s.source n).sense = 0 && !isPulse n && s.condOf n (s.source n).cond) = true then
          (s.setSource n { s.source n with st := .pending, claimed := false }).deliver n
        else s.setSource n { s.source n with st := .inactive, claimed := false }) = s.afterActive k n :=
      if_congr (by simp) rfl (if_congr (by simp [and_assoc]) rfl rfl)
    rw [← hafter]
    rfl
  refine (if_neg (eoi_serves hactive hclass)).trans ((if_neg ?_).trans (hended.trans (if_congr (by simp) rfl rfl)))
  split
  case h_1 j hj => simp [h j hj]
  case h_2 => decide

end

end

/-! ### Moderation and interrupt frames (R337, R342) -/

theorem exec_moderationTimeout_ended (h : ∃ x ∈ s.int.timers, x.1 = t.val ∧ x.2 ≤ s.tim.time) :
    exec (.moderationTimeout t) s = .next (State.message { s with int := { s.int with
      timers := s.int.timers.filter fun (x : Nat × Nat) => x.1 ≠ t.val } } t.val (s.heldOn t.val)) :=
  congrArg Host.Outcome.next (if_pos (List.any_eq_true.mpr (by simpa using h)))

theorem exec_moderationTimeout_runs (h : ¬∃ x ∈ s.int.timers, x.1 = t.val ∧ x.2 ≤ s.tim.time) :
    exec (.moderationTimeout t) s = .next s :=
  congrArg Host.Outcome.next (if_neg (mt List.any_eq_true.mp (by simpa using h)))

section
variable {port : Fin 8} {priv tc1 : Bool} (vector : BitVec 8) (hlive : s.pwr.live = true)
  (hclk : s.pwr.clocked = true) (hcar : (s.fport port.val).carries = true)
include hlive hclk hcar

theorem exec_interruptFrameReceive_dropped (h : priv = true ∧ tc1 = false) :
    exec (.interruptFrameReceive port vector priv tc1) s = .next (s.countSat (ra .fabPort port.val 0x058) 1) :=
  congrArg Host.Outcome.next ((if_neg (by simp [hlive, hclk, hcar])).trans (if_pos (by simp [h.1, h.2])))

theorem exec_interruptFrameReceive_taken (h : ¬(priv = true ∧ tc1 = false)) :
    exec (.interruptFrameReceive port vector priv tc1) s =
      .next (s.setSource (768 + vector.toNat) { s.source (768 + vector.toNat) with pulse := true }) :=
  congrArg Host.Outcome.next ((if_neg (by simp [hlive, hclk, hcar])).trans (if_neg (by simpa using h)))

end

end

/-- Settles O46: a sample by the events that it makes and the state in which they find the source, a claim by whether a source
is claimable, an end of interrupt by whether the source is active there and whose it is. -/
theorem sourcesClaimsAndInterruptFrames : Obligations.SourcesClaimsAndInterruptFrames := by
  unfold Obligations.SourcesClaimsAndInterruptFrames
  refine ⟨fun s src level hexists hlive hclk hreset => ?_, fun s a t fast => ?_, fun s u a t src fast => ?_,
    fun s t => ⟨exec_moderationTimeout_ended, exec_moderationTimeout_runs⟩, fun s port vector priv tc1 hlive hclk hcar =>
      ⟨exec_interruptFrameReceive_dropped vector hlive hclk hcar,
        exec_interruptFrameReceive_taken vector hlive hclk hcar⟩⟩
  · intro n x now rise fall sees noted once only
    have hrun : exec (.sourceEvent src level) s = .next (s.sampleSource n now) :=
      exec_sourceEvent_sampled level hexists hlive hclk hreset
    have hsource : (s.noteCond n now).source n = noted := source_noteCond s n now
    have hwith : s.WithSource (s.noteCond n now) n noted := withSource_noteCond s n now
    have honly : sees → once → s.sampleSource n now = (s.noteCond n now).event n := fun h hone =>
      sampleSource_once h.2 hone
    have hen : sees → ((s.noteCond n now).source n).en = true := fun h => by rw [hsource]; exact h.1
    have hst : ∀ y, x.st = y → ((s.noteCond n now).source n).st = y := fun y h => by rw [hsource]; exact h
    refine ⟨fun hnone => ⟨_, hrun, ?_⟩, fun h htwice => ?_, fun h hone hin => ?_, fun h hone hpend => ?_,
      fun h hone hact => ?_, fun h hone hact => ?_⟩
    · rw [sampleSource_silent hnone]
      exact hwith
    · exact hrun.trans (congrArg Host.Outcome.next (sampleSource_twice h.2 htwice))
    · refine ⟨_, hrun.trans (congrArg Host.Outcome.next ((honly h hone).trans
        (event_inactive (hen h) (hst _ hin)))), ?_⟩
      rw [hsource]
      exact hwith.setSource _
    · refine ⟨_, hwith, hrun.trans (congrArg Host.Outcome.next ((honly h hone).trans
        ((event_pending (hen h) (hst _ hpend)).trans ?_)))⟩
      rw [hsource]
    · refine ⟨_, hrun.trans (congrArg Host.Outcome.next ((honly h hone).trans
        (event_active (hen h) (hst _ hact)))), ?_⟩
      rw [hsource]
      exact hwith.setSource _
    · exact ⟨_, hrun.trans (congrArg Host.Outcome.next ((honly h hone).trans
        (event_activePending (hen h) (hst _ hact)))), hwith⟩
  · intro c u mine h
    have hrun : exec c s = .next (u.claim t.val fast) := exec_claimInstr_reads h
    exact ⟨fun n hn => hrun.trans (congrArg Host.Outcome.next (claim_some hn)),
      fun hnone => hrun.trans (congrArg Host.Outcome.next (claim_none hnone))⟩
  · intro c n x active h
    have hrun : exec c s = .next (u.eoi a.req.toNat t.val n fast) := exec_eoiInstr_passes h
    refine ⟨fun hbad => hrun.trans (congrArg Host.Outcome.next (eoi_bad hbad)), fun hactive hclass k hk hne =>
      hrun.trans (congrArg Host.Outcome.next (eoi_other_tenant hactive hclass hk hne)), fun hmay hactive hclass => ?_⟩
    exact hrun.trans (congrArg Host.Outcome.next (eoi_allowed hactive hclass hmay))

end Sys2Proof.Machine
end

section
/-! SUPPORT. The I²C port: offsets, words, ends and timeouts of transactions (R30, R391 to R393). -/

namespace Sys2Proof.Machine
open Sys2Proof

variable {s : State}

/-! ### The offset of a transaction (R391, R392) -/

section
variable {dt : Nat} {off : BitVec 24} (write : Bool)

theorem exec_i2cOffset_aligned (hawake : (s.elapse dt).i2cAwake = true) (halign : off.toNat % 4 = 0) :
    exec (.i2cOffset dt off write) s = .next
      { s.elapse dt with
        hst := { (s.elapse dt).hst with i2cBusy := true, i2cOff := some off.toNat, i2cWrite := write }
        acc := { (s.elapse dt).acc with answer := .done } } :=
  congrArg Host.Outcome.next ((if_neg (by simp [hawake])).trans (if_neg (not_not.mpr halign)))

theorem exec_i2cOffset_unaligned (hawake : (s.elapse dt).i2cAwake = true) (halign : off.toNat % 4 ≠ 0) :
    exec (.i2cOffset dt off write) s = .next ((State.stick
      { s.elapse dt with
        hst := { (s.elapse dt).hst with i2cBusy := true, i2cOff := none, i2cWrite := write } } .sys 0 9).answerWith .nack) :=
  congrArg Host.Outcome.next ((if_neg (by simp [hawake])).trans (if_pos halign))

theorem exec_i2cOffset_asleep (hawake : (s.elapse dt).i2cAwake = false) : exec (.i2cOffset dt off write) s = .next
    (((s.elapse dt).hostWake 1).answerWith (if (s.elapse dt).pwr.st = .sleep then .retry else .nack)) :=
  congrArg Host.Outcome.next (if_pos (by simp [hawake]))

end

/-! ### The words of a transaction (R391) -/

section
variable (dt : Nat) {off : BitVec 24} (hoff : s.hst.i2cOff = some off.toNat) (hbusy : s.hst.i2cBusy = true)
  (hawake : s.i2cAwake = true)
include hoff hbusy hawake

/-- A word written is requester 0x0001's register write at the offset. -/
theorem exec_i2cWriteWord_busy (val : Word) (hwrite : s.hst.i2cWrite = true) :
    ∃ t, exec (.registerWrite ⟨1, dt⟩ off (val.zeroExtend 64) 4) s = .next t ∧
      exec (.i2cWriteWord dt val) s = .next (t.i2cNext off.toNat) := by
  refine ⟨(s.accept ⟨1, dt⟩).writeAccess 1 off.toNat (val.zeroExtend 64) 4, rfl, congrArg Host.Outcome.next ?_⟩
  rw [hoff]
  exact if_pos ⟨hbusy, hwrite, hawake⟩

theorem exec_i2cReadWord_busy (hread : s.hst.i2cWrite = false) :
    exec (.i2cReadWord dt) s = .next ((s.readFor ⟨1, dt⟩ off.toNat).i2cNext off.toNat) := by
  refine congrArg Host.Outcome.next ?_
  rw [hoff]
  exact if_pos ⟨hbusy, by simp [hread], hawake⟩

end

/-! ### The end of a transaction (R30, R391, R393) -/

theorem exec_i2cTransactionEnd_busy (left : BitVec 2) (hbusy : s.hst.i2cBusy = true) :
    exec (.i2cTransactionEnd left) s =
      .next (if s.hst.i2cWrite = true ∧ left ≠ 0 then s.stick .sys 0 8 else s).i2cEnd :=
  congrArg Host.Outcome.next (if_neg (by simp [hbusy]))

theorem exec_i2cBusTimeout_clocked (hclk : s.pwr.clocked = true) :
    exec .i2cBusTimeout s = .next (s.i2cEnd.stick .i2c 0 8) :=
  congrArg Host.Outcome.next (if_pos hclk)

/-- Settles O21. -/
theorem busTimeoutAbandonsTheTransaction : Obligations.BusTimeoutAbandonsTheTransaction := by
  unfold Obligations.BusTimeoutAbandonsTheTransaction
  intro s hclk
  exact ⟨_, exec_i2cBusTimeout_clocked hclk, rfl, flag_stick_same _ _ _ _ (by decide), rfl,
    fun b hb => reg_stick_other s.i2cEnd _ _ _ hb⟩

/-- Settles O22: an offset by whether the port is awake and the offset aligned, an end by whether bytes of a write word
are left. -/
theorem twoWireWordsAreAccesses : Obligations.TwoWireWordsAreAccesses := by
  unfold Obligations.TwoWireWordsAreAccesses
  refine ⟨fun s dt off write => ⟨exec_i2cOffset_aligned write, fun hawake halign => ?_, exec_i2cOffset_asleep write⟩,
    fun s dt off val hoff hbusy hawake => ⟨exec_i2cWriteWord_busy dt hoff hbusy hawake val, fun hread =>
      ⟨_, rfl, exec_i2cReadWord_busy dt hoff hbusy hawake hread⟩⟩, fun s left hbusy => ?_⟩
  · refine ⟨_, exec_i2cOffset_unaligned write hawake halign, rfl, ?_, rfl⟩
    exact flag_stick_same { s.elapse dt with
      hst := { (s.elapse dt).hst with i2cBusy := true, i2cOff := none, i2cWrite := write } } _ _ _ (by decide)
  · refine ⟨_, exec_i2cTransactionEnd_busy left hbusy, ?_⟩
    by_cases hleft : s.hst.i2cWrite = true ∧ left ≠ 0
    · rw [if_pos hleft]
      refine ⟨rfl, fun _ _ => flag_stick_same s _ _ _ (by decide), fun hnone => ?_, rfl, fun b hb =>
        reg_stick_other s _ _ _ hb⟩
      obtain ⟨hwrite, hne⟩ := hleft
      exact absurd hnone (not_or.mpr ⟨by simp [hwrite], hne⟩)
    · rw [if_neg hleft]
      exact ⟨rfl, fun hwrite hne => absurd ⟨hwrite, hne⟩ hleft, fun _ => rfl, rfl, fun _ _ => rfl⟩

end Sys2Proof.Machine
end

section
/-! SUPPORT. The commands of UPD_CMD: a command that runs refuses all, and each command is carried out under its own
condition or refused (R374, R376, R377, R384). -/

namespace Sys2Proof.Machine
open Sys2Proof

/-- What a write of UPD_CMD does while no command runs. -/
def State.updRun (s : State) (req : Nat) (v : Word) : State :=
  match bits v 0 4 with
  | 1 => s.updBegin req
  | 2 => s.updWrite req
  | 3 => s.updVerify req
  | 4 => s.updActivate req (bit v 4)
  | 5 => s.updConfirm
  | 6 => s.updRollback
  | 7 => s.updAbort req
  | _ => s.updResolve req (bit v 5)

section
variable {s u : State} {a : Acc} {c : Instr} {req n : Nat} {v : Word}

section
variable (hop : 1 ≤ bits v 0 4 ∧ bits v 0 4 ≤ 8)
include hop

theorem actUpd_idle (hidle : s.upd.busy = 0) : s.actUpd req v = s.updRun req v :=
  (if_neg (by omega)).trans ((if_neg (by omega)).trans (if_neg (not_not_intro hidle)))

theorem actUpd_busy (hbusy : s.upd.busy ≠ 0) : s.actUpd req v = s.updRefuse :=
  (if_neg (by omega)).trans ((if_neg (by omega)).trans (if_pos hbusy))

end

/-- A command whose access passes: what it does while none runs. -/
theorem exec_updCommand_idle (hexec : exec c s = .next (s.guarded a updCmd v fun s v => s.actUpd req v))
    (hpass : s.Passes a updCmd v false u) (hop : 1 ≤ bits v 0 4 ∧ bits v 0 4 ≤ 8) (hidle : u.upd.busy = 0) :
    exec c s = .next (u.updRun req v) := by
  rw [hexec, guarded_passes hpass, actUpd_idle hop hidle]

/-- A command whose access passes is carried out where none runs and its condition holds, else refused. -/
theorem exec_updCommand_cases {P : Prop} {t : State}
    (hexec : exec c s = .next (s.guarded a updCmd v fun s v => s.actUpd req v))
    (hpass : s.Passes a updCmd v false u) (hop : 1 ≤ bits v 0 4 ∧ bits v 0 4 ≤ 8)
    (hruns : P → u.updRun req v = t) (hrefused : ¬P → u.updRun req v = u.updRefuse) :
    (u.upd.busy = 0 ∧ P → exec c s = .next t) ∧ (¬(u.upd.busy = 0 ∧ P) → exec c s = .next u.updRefuse) := by
  refine ⟨fun ⟨hidle, h⟩ => ?_, fun h => ?_⟩
  · rw [exec_updCommand_idle hexec hpass hop hidle, hruns h]
  · by_cases hidle : u.upd.busy = 0
    · rw [exec_updCommand_idle hexec hpass hop hidle, hrefused fun hp => h ⟨hidle, hp⟩]
    · rw [hexec, guarded_passes hpass, actUpd_busy hop hidle]

end

theorem heldByOther_iff {o : Option Nat} {r : Nat} :
    (o.isSome = true ∧ o ≠ some r) ↔ ¬∀ h, o = some h → h = r := by
  cases o <;> simp

/-! ### The condition of each command (R376, R377) -/

section
variable (s : State) (req : Nat)

/-- The requester may begin a download. -/
def State.MayBegin : Prop :=
  s.upd.st ≠ .trial ∧ s.upd.st ≠ .activating ∧ s.upd.st ≠ .verifying ∧ ∀ h, s.upd.holder = some h → h = req

/-- The inactive slot has been erased for the download of the requester, and UPD_OFS and UPD_LEN name a block of it that
was not written before. -/
def State.MayWrite : Prop :=
  s.upd.st = .downloading ∧ s.upd.holder = some req ∧ s.fld (ra .upd 0 0x044) 0 25 % 2048 = 0 ∧
    s.fld (ra .upd 0 0x048) 0 12 ≠ 0 ∧ s.fld (ra .upd 0 0x048) 0 12 ≤ 2048 ∧
    s.fld (ra .upd 0 0x044) 0 25 + s.fld (ra .upd 0 0x048) 0 12 ≤ 0x1800000 ∧
    ∀ p ∈ (s.flash.slot (!s.activeSlot)).blocks, p.1 ≠ s.fld (ra .upd 0 0x044) 0 25 / 2048

/-- The requester may activate the slot that it has verified. -/
def State.MayActivate : Prop :=
  s.upd.st = .verified ∧ (∀ h, s.upd.holder = some h → h = req) ∧ s.pwr.recovery = false

end

section
variable {s : State} {req : Nat}

theorem updBegin_of_mayBegin (h : s.MayBegin req) : s.updBegin req =
    { s.setSlot (!s.activeSlot) { marker := .incomplete } with
      upd := { (s.setSlot (!s.activeSlot) { marker := .incomplete }).upd with
        st := .downloading, busy := 1, result := 0, holder := some req } } := by
  obtain ⟨htrial, hact, hver, hfree⟩ := h
  exact if_neg (by rw [heldByOther_iff]; simpa [htrial, hact, hver] using hfree)

theorem updBegin_refused (h : ¬s.MayBegin req) : s.updBegin req = s.updRefuse :=
  if_pos (by
    rw [heldByOther_iff]
    unfold State.MayBegin at h
    tauto)

theorem updWrite_blocked_iff : (s.upd.st ≠ .downloading ∨ s.upd.holder ≠ some req ∨
      s.fld (ra .upd 0 0x044) 0 25 % 2048 ≠ 0 ∨ s.fld (ra .upd 0 0x048) 0 12 = 0 ∨ 2048 < s.fld (ra .upd 0 0x048) 0 12 ∨
      0x1800000 < s.fld (ra .upd 0 0x044) 0 25 + s.fld (ra .upd 0 0x048) 0 12 ∨
      ((s.flash.slot (!s.activeSlot)).blocks.any fun p => p.1 = s.fld (ra .upd 0 0x044) 0 25 / 2048) = true) ↔
    ¬s.MayWrite req := by
  have hblocks : ((s.flash.slot (!s.activeSlot)).blocks.any fun p => p.1 = s.fld (ra .upd 0 0x044) 0 25 / 2048) = true ↔
      ¬∀ p ∈ (s.flash.slot (!s.activeSlot)).blocks, p.1 ≠ s.fld (ra .upd 0 0x044) 0 25 / 2048 := by simp
  rw [hblocks, State.MayWrite, ← not_le, ← not_le (b := 0x1800000)]
  tauto

theorem updWrite_of_mayWrite (h : s.MayWrite req) : s.updWrite req =
    { s.setSlot (!s.activeSlot) { s.flash.slot (!s.activeSlot) with
        blocks := (s.flash.slot (!s.activeSlot)).blocks ++
          [(s.fld (ra .upd 0 0x044) 0 25 / 2048, s.bufBytes updBuf 0 (s.fld (ra .upd 0 0x048) 0 12))] } with
      upd := { s.upd with busy := 2, result := 0 } } :=
  if_neg (mt updWrite_blocked_iff.mp (not_not_intro h))

theorem updWrite_refused (h : ¬s.MayWrite req) : s.updWrite req = s.updRefuse := if_pos (updWrite_blocked_iff.mpr h)

theorem updVerify_of_holder (h : s.upd.st = .downloading ∧ s.upd.holder = some req) : s.updVerify req =
    { s.setSlot (!s.activeSlot) { s.flash.slot (!s.activeSlot) with verifying := true } with
      upd := { s.upd with st := .verifying, busy := 3, result := 0 } } :=
  if_neg (by simp [h])

theorem updVerify_refused (h : ¬(s.upd.st = .downloading ∧ s.upd.holder = some req)) :
    s.updVerify req = s.updRefuse := if_pos (Decidable.not_and_iff_or_not.mp h)

theorem updActivate_of_mayActivate (cold : Bool) (h : s.MayActivate req) : s.updActivate req cold =
    { s with upd := { s.upd with st := .activating, busy := 4, result := 0, cold := cold, rollback := false } } := by
  obtain ⟨hst, hfree, hrec⟩ := h
  exact if_neg (by rw [heldByOther_iff]; simpa [hst, hrec] using hfree)

theorem updActivate_refused (cold : Bool) (h : ¬s.MayActivate req) : s.updActivate req cold = s.updRefuse :=
  if_pos (by
    rw [heldByOther_iff]
    unfold State.MayActivate at h
    rw [← Bool.not_eq_true] at h
    tauto)

theorem updAbort_of_holder (h : (s.upd.st = .downloading ∨ s.upd.st = .verifying) ∧ s.upd.holder = some req) :
    s.updAbort req =
      { s.setSlot (!s.activeSlot) { s.flash.slot (!s.activeSlot) with marker := .incomplete, verifying := false } with
        upd := { s.upd with st := if s.pwr.recovery then .recovery else .idle, busy := 0, holder := none, result := 1 } } :=
  if_pos h

theorem updAbort_refused (h : ¬((s.upd.st = .downloading ∨ s.upd.st = .verifying) ∧ s.upd.holder = some req)) :
    s.updAbort req = s.updRefuse := if_neg h

end

/-- Settles O51. -/
theorem downloadsFollowTheirHolder : Obligations.DownloadsFollowTheirHolder := by
  unfold Obligations.DownloadsFollowTheirHolder
  intro s u a
  refine ⟨fun h => exec_updCommand_cases rfl h (by decide) updBegin_of_mayBegin updBegin_refused,
    fun h => exec_updCommand_cases rfl h (by decide) updWrite_of_mayWrite updWrite_refused,
    fun h => exec_updCommand_cases rfl h (by decide) updVerify_of_holder updVerify_refused, fun cold h => ?_,
    fun h => exec_updCommand_cases rfl h (by decide) updAbort_of_holder updAbort_refused⟩
  cases cold with
  | false =>
    exact exec_updCommand_cases rfl h (by decide) (updActivate_of_mayActivate false) (updActivate_refused false)
  | true => exact exec_updCommand_cases rfl h (by decide) (updActivate_of_mayActivate true) (updActivate_refused true)

end Sys2Proof.Machine
end

section
/-! SUPPORT. Trials, confirmation, rollback and the repair of the boot record (R373, R374, R377 to R379), and how update
commands and activations end. -/

namespace Sys2Proof.Machine
open Sys2Proof

/-! ### Boot records written (R373) -/

/-- The record that stands in flash once `r` has been written over the loser of `w`. -/
def State.recAfter (s : State) (w r : BootRec) : BootRec :=
  { r with seqNo := (w.seqNo + 1) % 2 ^ 32, signed := true, digest := (s.flash.slot r.slot).digest }

section
variable {s : State} {w : BootRec} (r : BootRec)

/-- The written record stands in the copy that had lost. -/
theorem brec_writeRec_other (h : s.bootRec = some w) :
    (s.writeRec r).flash.brec (!s.upd.win) = some (s.recAfter w r) := by
  unfold State.writeRec
  rw [h]
  cases s.upd.win <;> rfl

/-- The written record is the winner. -/
theorem bootRec_writeRec (h : s.bootRec = some w) : (s.writeRec r).bootRec = some (s.recAfter w r) :=
  brec_writeRec_other r h

/-- The copy that had won keeps its record. -/
theorem brec_writeRec_same (h : s.bootRec = some w) : (s.writeRec r).flash.brec s.upd.win = some w := by
  refine Eq.trans ?_ h
  unfold State.writeRec State.bootRec
  cases s.upd.win <;> rfl

theorem slotVersion_writeRec (b : Bool) : (s.writeRec r).slotVersion b = s.slotVersion b := by
  unfold State.writeRec State.slotVersion
  cases s.upd.win <;> rfl

end

/-! ### Rollback (R379) -/

/-- The record of a rollback: the previous slot is confirmed. -/
def BootRec.back (r : BootRec) : BootRec := { r with slot := r.prev, trial := false, starts := 0, prev := r.slot }

/-- The update unit while the supervisor restarts after a rollback. -/
def State.updBack (s : State) (r : BootRec) : Upd :=
  { (s.writeRec r.back).upd with st := .activating, rollback := true, busy := 0, versionLeft := s.slotVersion r.slot,
                                 msLeft := 0, holder := none, firstDue := false, markDue := none }

section
variable {s : State} {r : BootRec}

/-- A rollback with the device running: the record is written, bit 12 set, and the supervisor halts at the next milestone. -/
theorem rollBack_running (h : s.bootRec = some r) : s.rollBack false =
    { (s.writeRec r.back).stick .upd 0 12 with
      upd := s.updBack r, sup := { s.sup with haltDue := some (s.tim.msCount + 1) } } := by
  unfold State.rollBack
  rw [h]
  rfl

theorem upd_rollBack (h : s.bootRec = some r) : (s.rollBack false).upd = s.updBack r :=
  congrArg State.upd (rollBack_running h)

theorem sup_rollBack (h : s.bootRec = some r) :
    (s.rollBack false).sup = { s.sup with haltDue := some (s.tim.msCount + 1) } :=
  congrArg State.sup (rollBack_running h)

theorem bootRec_rollBack (h : s.bootRec = some r) :
    (s.rollBack false).bootRec = some (s.recAfter r r.back) := by
  rw [rollBack_running h]
  exact bootRec_writeRec r.back h

theorem flag_rollBack (h : s.bootRec = some r) : (s.rollBack false).flag (ra .upd 0 0x010) 12 = true := by
  rw [rollBack_running h]
  exact flag_stick_same (s.writeRec r.back) .upd 0 12 (by decide)

end

/-! ### The waymark of the update unit (R385) -/

theorem onlyEmits_updMark (s : State) (event : Nat) : s.OnlyEmits (s.updMark event) := onlyEmits_waymark s _ _

section
variable (s : State) (event : Nat)

theorem flash_updMark : (s.updMark event).flash = s.flash := by rw [onlyEmits_updMark s event]

end

/-! ### Confirmation and rollback by command (R378, R379) -/

/-- The device after a confirmation, before its waymark. -/
def State.confirmed (s : State) (r : BootRec) : State :=
  let t := s.writeRec { r with trial := false, starts := 0 }
  State.updStick { t with upd := { t.upd with st := .idle, result := 1, msLeft := 0, versionLeft := s.slotVersion r.prev } } 11

section
variable {s u : State} {r : BootRec} {a : Acc}

theorem updConfirm_outside (h : s.upd.st ≠ .trial) : s.updConfirm = s.updRefuse := by
  unfold State.updConfirm
  split
  · exact if_neg h
  · rfl

theorem updConfirm_trial (hrec : s.bootRec = some r) (h : s.upd.st = .trial) :
    s.updConfirm = (s.confirmed r).updMark 1 := by
  unfold State.updConfirm
  rw [hrec]
  refine (if_pos h).trans ?_
  dsimp only
  rw [slotVersion_writeRec]
  rfl

theorem updRollback_outside (h : s.upd.st ≠ .trial) : s.updRollback = s.updRefuse := if_neg h

theorem updRollback_trial (h : s.upd.st = .trial) :
    s.updRollback = { s.rollBack false with upd := { (s.rollBack false).upd with result := 1 } } := if_pos h

theorem flag_confirmed (s : State) (r : BootRec) : (s.confirmed r).flag (ra .upd 0 0x010) 11 = true :=
  flag_stick_same _ .upd 0 11 (by decide)

/-! ### The repair of the boot record (R374) -/

theorem exec_updResolve_idle (copy : Bool)
    (h : s.Passes a updCmd (BitVec.ofNat 32 (if copy then 40 else 8)) false u) (hidle : u.upd.busy = 0) :
    exec (.updResolve a copy) s = .next (u.updResolve a.req.toNat copy) := by
  cases copy with
  | false => exact exec_updCommand_idle rfl h (by decide) hidle
  | true => exact exec_updCommand_idle rfl h (by decide) hidle

theorem updResolve_refused {req : Nat} (copy : Bool)
    (h : s.pwr.recovery = false ∨ ∃ k, s.upd.holder = some k ∧ k ≠ req) : s.updResolve req copy = s.updRefuse := by
  have hother : (s.upd.holder.isSome = true ∧ s.upd.holder ≠ some req) ↔ ∃ k, s.upd.holder = some k ∧ k ≠ req := by
    rw [heldByOther_iff]
    simp
  refine if_pos ?_
  rw [Bool.or_eq_true, Bool.and_eq_true, decide_eq_true_iff, hother]
  simpa using h

section
variable {req : Nat} (hrec : s.pwr.recovery = true) (hfree : ∀ k, s.upd.holder = some k → k = req)
include hrec hfree

theorem updResolve_mayRun : ¬(!s.pwr.recovery || (s.upd.holder.isSome && decide (s.upd.holder ≠ some req))) = true := by
  have hother : ¬(s.upd.holder.isSome = true ∧ s.upd.holder ≠ some req) :=
    mt heldByOther_iff.mp (not_not_intro hfree)
  rw [Bool.or_eq_true, Bool.and_eq_true, decide_eq_true_iff]
  simp only [hrec, Bool.not_true, Bool.false_eq_true, false_or]
  exact hother

theorem updResolve_kept {copy : Bool} (h : s.flash.brec copy = some r) : s.updResolve req copy =
    (State.updMark { s with flash := { s.flash with brec0 := some r, brec1 := some r } } 3).coldReset
      (Config.updateCause r.seqNo % 8) := by
  refine (if_neg (updResolve_mayRun hrec hfree)).trans ?_
  split
  case h_1 h0 h1 => cases copy <;> simp_all [Flash.brec]
  case h_2 => rw [h]

theorem updResolve_absent {copy : Bool} (h : s.flash.brec copy = none)
    (hno : s.flash.brec (!copy) ≠ none ∨ copy = true ∨ s.flash.slotA.marker ≠ .verified) :
    s.updResolve req copy = s.updRefuse := by
  refine (if_neg (updResolve_mayRun hrec hfree)).trans ?_
  split
  case h_1 h0 h1 =>
    refine if_neg ?_
    rintro ⟨hver, rfl⟩
    obtain hother | hcopy | hmark := hno
    · exact hother h1
    · cases hcopy
    · exact hmark hver
  case h_2 => rw [h]

theorem updResolve_first (h0 : s.flash.brec false = none) (h1 : s.flash.brec true = none)
    (hver : s.flash.slotA.marker = .verified) : s.updResolve req false =
    (State.updMark { s with flash := { s.flash with
      brec0 := some ⟨1, false, false, 0, false, true, s.flash.slotA.digest⟩ } } 3).coldReset
      (Config.updateCause 1 % 8) := by
  refine (if_neg (updResolve_mayRun hrec hfree)).trans ?_
  split
  case h_1 => exact if_pos ⟨hver, rfl⟩
  case h_2 hne => exact absurd h1 (hne h0)

end

theorem exec_trialExpiry_out (hst : s.upd.st = .trial) (hleft : s.upd.msLeft = 0) (hawake : s.awake = true) :
    exec .trialExpiry s = .next (s.rollBack false) := congrArg Host.Outcome.next (if_pos ⟨hst, hleft, hawake⟩)

end

/-! ### The end of update commands (R375 to R378) -/

section
variable {s : State} (c : ImageCheck)

theorem imageResult_good_iff : imageResult c = 1 ↔ c.flashOk = true ∧ c.sigOk = true ∧ c.digestOk = true := by
  cases hflash : c.flashOk <;> cases hsig : c.sigOk <;> cases hdig : c.digestOk <;>
    simp [imageResult, hflash, hsig, hdig]

/-- The format, the length and the digest that a verify accepts. -/
def Slot.WellFormed (v : Slot) : Prop :=
  v.header.format = 2 ∧ v.header.bodyLen ≤ 0x17FE000 ∧ v.header.digest = Config.sha384 v.body

theorem malformed_iff (v : Slot) :
    (v.header.format ≠ 2 ∨ 0x17FE000 < v.header.bodyLen ∨ v.header.digest ≠ Config.sha384 v.body) ↔ ¬v.WellFormed := by
  rw [Slot.WellFormed, ← not_le]
  tauto

/-- What a verify accepts: every check of the image that reads back holds. -/
theorem verifyResult_good_iff (v : Slot) : s.verifyResult c v = 1 ↔
    imageResult c = 1 ∧ v.WellFormed ∧ v.header.revision ≤ 0xB0 ∧ s.confirmedSvn ≤ v.header.svn := by
  have hcodes : imageResult c = 1 ∨ imageResult c = 3 ∨ imageResult c = 4 ∨ imageResult c = 5 := by
    unfold imageResult
    split_ifs <;> simp
  unfold State.verifyResult
  dsimp only
  obtain hcode | hcode | hcode | hcode := hcodes
  · rw [if_neg (by simp [hcode])]
    by_cases hform : v.WellFormed
    · have hpasses := mt (malformed_iff v).mp (not_not_intro hform)
      rw [if_neg (not_or.mpr ⟨by simp [hcode], hpasses⟩)]
      split
      case isTrue hrun =>
        simp [hcode, hform]
        omega
      case isFalse hrun =>
        simp [hcode, hform]
        omega
    · rw [if_pos (Or.inr ((malformed_iff v).mpr hform))]
      simp [hform]
  · simp [hcode]
  · simp [hcode]
  · simp [hcode]

end

/-- A program or erase that failed, as the flash page notes it. -/
theorem updDone_failed (s : State) : s.updDone 5 =
    { s.stick .flash 0 9 with upd := { (s.stick .flash 0 9).upd with busy := 0, result := 5 } } := rfl

theorem updDone_other (s : State) {r : Nat} (h : r ≠ 5) :
    s.updDone r = { s with upd := { s.upd with busy := 0, result := r } } := by
  unfold State.updDone State.noteFlash
  rw [if_neg h]

section
variable {s : State} (c : ImageCheck) (hawake : s.awake = true)
include hawake

omit c in
theorem notAwake_off : ¬(!(decide (s.pwr.st = .run) || decide (s.pwr.st = .idle))) = true := by
  rw [State.awake] at hawake
  rw [hawake]
  decide

theorem exec_updCommandDone_program (h : s.upd.busy = 1 ∨ s.upd.busy = 2) : exec (.updCommandDone c) s =
    .next (s.updDone (if c.flashOk then 1 else 5)) := by
  refine congrArg Host.Outcome.next ((if_neg (notAwake_off hawake)).trans ?_)
  obtain h | h := h <;> rw [h] <;> rfl

theorem exec_updCommandDone_verify (h : s.upd.busy = 3) : exec (.updCommandDone c) s = .next (s.verifyDone c) := by
  refine congrArg Host.Outcome.next ((if_neg (notAwake_off hawake)).trans ?_)
  rw [h]
  rfl

theorem exec_updCommandDone_activate (h : s.upd.busy = 4) : exec (.updCommandDone c) s = .next (s.activateDone c) := by
  refine congrArg Host.Outcome.next ((if_neg (notAwake_off hawake)).trans ?_)
  rw [h]
  rfl

end

section
variable {s : State} {c : ImageCheck}

/-- The state at the end of a verify, its slot as it was but for the mark that it is being verified. -/
theorem verifyDone_refused (h : s.verifyResult c (s.flash.slot (!s.activeSlot)) ≠ 1) : s.verifyDone c =
    let r := s.verifyResult c (s.flash.slot (!s.activeSlot))
    let w := if r = 5 then s.stick .flash 0 9 else s
    let e := w.setSlot (!s.activeSlot) { s.flash.slot (!s.activeSlot) with verifying := false }
    State.stick { e with upd := { w.upd with
      st := if s.pwr.recovery then .recovery else .idle, busy := 0, result := r, holder := none } } .upd 0 9 := by
  refine (if_neg h).trans ?_
  generalize s.verifyResult c (s.flash.slot (!s.activeSlot)) = r
  by_cases hbad : r = 5
  · rw [hbad, updDone_failed]
    rfl
  · rw [updDone_other s hbad]
    simp only [if_neg hbad]
    rfl

theorem verifyDone_good (h : s.verifyResult c (s.flash.slot (!s.activeSlot)) = 1) : s.verifyDone c =
    { s.setSlot (!s.activeSlot) { s.flash.slot (!s.activeSlot) with verifying := false, marker := .verified } with
      upd := { s.upd with st := .verified, busy := 0, result := 1 } } := by
  unfold State.verifyDone
  dsimp only
  rw [h, updDone_other s (by decide)]
  refine (if_pos rfl).trans ?_
  cases s.activeSlot <;> rfl

end

/-! ### The end of an activation (R378) -/

/-- The record of an activation: the other slot, on trial, with its first start. -/
def BootRec.onTrial (w : BootRec) : BootRec := { w with slot := !w.slot, trial := true, starts := 1, prev := w.slot }

/-- The device once the record of an activation stands, before its start. -/
def State.activated (s : State) (w : BootRec) : State :=
  let t := (s.updDone 1).writeRec w.onTrial
  { t with upd := { t.upd with versionLeft := s.slotVersion w.slot, holder := none } }

section
variable {s : State} {c : ImageCheck} {w : BootRec}

theorem activateDone_failed (h : c.flashOk = false ∨ s.bootRec = none) :
    s.activateDone c = { s.updDone 5 with upd := { (s.updDone 5).upd with st := .verified } } := by
  have hnone : (if c.flashOk then s.bootRec else none) = none := by
    obtain hflash | hrec := h
    · rw [hflash]
      rfl
    · rw [hrec, ite_self]
  unfold State.activateDone
  rw [hnone]

theorem brec_activated (h : s.bootRec = some w) :
    (s.activated w).flash.brec (!s.upd.win) = some (s.recAfter w w.onTrial) :=
  brec_writeRec_other (s := s.updDone 1) w.onTrial h

section
variable (hflash : c.flashOk = true) (hrec : s.bootRec = some w)
include hflash hrec

theorem activateDone_warm (hwarm : s.upd.cold = false) : s.activateDone c =
    { s.activated w with sup := { s.sup with haltDue := some (s.tim.msCount + 1) } } := by
  unfold State.activateDone
  rw [hflash, if_pos rfl, hrec]
  exact if_neg (ne_true_of_eq_false hwarm)

theorem activateDone_cold (hcold : s.upd.cold = true) : ∃ cause, s.activateDone c =
    State.coldReset { s.activated w with upd := { (s.activated w).upd with firstDue := true, markDue := some 0 } }
      cause := by
  unfold State.activateDone
  rw [hflash, if_pos rfl, hrec]
  exact ⟨_, if_pos hcold⟩

end

/-! ### The start after an activation or a rollback (R378, R379) -/

/-- The supervisor is to start at the next milestone, under the record chosen afresh. -/
def State.restarted (s : State) : State :=
  State.chooseRec { s with sup := { s.sup with startDue := true, atMs := true, missed := 0 } }

theorem rollback_restarted (s : State) : s.restarted.upd.rollback = s.upd.rollback := by
  have hstick : ∀ t : State, (if t.flash.onlyOne then t.updStick 14 else t).upd = t.upd := fun t => by split <;> rfl
  unfold State.restarted State.chooseRec
  refine (congrArg Upd.rollback (hstick _)).trans ?_
  split <;> rfl

section
variable (c) (hst : s.upd.st = .activating) (hrun : s.sup.running = false) (hdue : s.sup.startDue = false)
  (hawake : s.awake = true)
include hst hrun hdue hawake

theorem reverify_runs : ¬(s.upd.st ≠ .activating ∨ s.sup.running = true ∨ s.sup.startDue = true ∨
    (!s.awake) = true) := by
  simp [hst, hrun, hdue, hawake]

theorem exec_activationReverify_trial (hgood : imageResult c = 1) (hroll : s.upd.rollback = false) :
    exec (.activationReverify c) s = .next (State.updMark (State.stick { s.restarted with
      upd := { s.restarted.upd with st := .trial, msLeft := 614400 } } .upd 0 10) 0) := by
  have hkept : s.restarted.upd.rollback = false := (rollback_restarted s).trans hroll
  exact congrArg Host.Outcome.next ((if_neg (reverify_runs hst hrun hdue hawake)).trans ((if_pos hgood).trans
    (if_neg (ne_true_of_eq_false hkept))))

theorem exec_activationReverify_back (hgood : imageResult c = 1) (hroll : s.upd.rollback = true) :
    exec (.activationReverify c) s = .next (State.updMark { s.restarted with
      upd := { s.restarted.upd with st := .idle, rollback := false } } 2) := by
  have hkept : s.restarted.upd.rollback = true := (rollback_restarted s).trans hroll
  exact congrArg Host.Outcome.next ((if_neg (reverify_runs hst hrun hdue hawake)).trans ((if_pos hgood).trans
    (if_pos hkept)))

theorem exec_activationReverify_again (hbad : imageResult c ≠ 1) (hroll : s.upd.rollback = true) :
    exec (.activationReverify c) s = .next s :=
  congrArg Host.Outcome.next ((if_neg (reverify_runs hst hrun hdue hawake)).trans ((if_neg hbad).trans (if_pos hroll)))

theorem exec_activationReverify_failed (hbad : imageResult c ≠ 1) (hroll : s.upd.rollback = false) :
    exec (.activationReverify c) s = .next { s.rollBack false with
      sup := { (s.rollBack false).sup with haltDue := none, running := false } } :=
  congrArg Host.Outcome.next ((if_neg (reverify_runs hst hrun hdue hawake)).trans ((if_neg hbad).trans
    (if_neg (ne_true_of_eq_false hroll))))

end

end

/-- Settles O52: commands by whether a trial runs, resp. whether the recovery loader does; ends of commands by what runs
and whether the flash and the image hold. -/
theorem trialsEndsAndRollbacks : Obligations.TrialsEndsAndRollbacks := by
  unfold Obligations.TrialsEndsAndRollbacks
  refine ⟨⟨fun s u a hidle => ⟨fun hst => ⟨fun h => ?_, fun h => ?_⟩, fun r hrec hst => ⟨fun h => ?_, fun h => ?_⟩,
    fun hother copy h => ?_, fun hloader hfree copy h => ?_⟩, fun s r hst hleft hawake hrec => ?_⟩,
    fun s c hawake => ⟨?_, fun h => ?_, fun h => ?_, fun h hfail => ?_, fun h hflash w hrec => ?_⟩,
    fun s c hst hrun hdue hawake => ⟨fun hgood hroll => ?_, fun hgood hroll => ?_, fun hbad hroll => ?_,
      fun hbad hroll r hrec => ?_⟩⟩
  · exact (exec_updCommand_idle rfl h (by decide) hidle).trans (congrArg Host.Outcome.next (updConfirm_outside hst))
  · exact (exec_updCommand_idle rfl h (by decide) hidle).trans (congrArg Host.Outcome.next (updRollback_outside hst))
  · refine ⟨u.confirmed r, (exec_updCommand_idle rfl h (by decide) hidle).trans
      (congrArg Host.Outcome.next (updConfirm_trial hrec hst)), flag_confirmed u r, rfl, rfl, rfl, ?_⟩
    exact ⟨_, bootRec_writeRec _ hrec, rfl, rfl, rfl, rfl, rfl, brec_writeRec_same _ hrec⟩
  · refine ⟨_, (exec_updCommand_idle rfl h (by decide) hidle).trans
      (congrArg Host.Outcome.next (updRollback_trial hst)), ?_⟩
    exact ⟨congrArg Upd.st (upd_rollBack hrec), congrArg Upd.rollback (upd_rollBack hrec), rfl,
      congrArg Sup.haltDue (sup_rollBack hrec), flag_rollBack hrec, _, bootRec_rollBack hrec, rfl, rfl, rfl⟩
  · exact (exec_updResolve_idle copy h hidle).trans (congrArg Host.Outcome.next (updResolve_refused copy hother))
  · have hrun := exec_updResolve_idle copy h hidle
    refine ⟨fun r hr => ?_, fun hnone hno => ?_, fun h0 h1 hcopy hver => ?_⟩
    · refine ⟨_, hrun.trans (congrArg Host.Outcome.next (updResolve_kept hloader hfree hr)), ?_, rfl, rfl⟩
      exact flash_updMark _ 3
    · exact hrun.trans (congrArg Host.Outcome.next (updResolve_absent hloader hfree hnone hno))
    · subst hcopy
      refine ⟨_, hrun.trans (congrArg Host.Outcome.next (updResolve_first hloader hfree h0 h1 hver)), rfl, rfl, ?_⟩
      exact flash_updMark _ 3
  · exact ⟨_, exec_trialExpiry_out hst hleft hawake, congrArg Upd.st (upd_rollBack hrec),
      congrArg Upd.rollback (upd_rollBack hrec), congrArg Sup.haltDue (sup_rollBack hrec), _, bootRec_rollBack hrec,
      rfl, rfl⟩
  · refine (verifyResult_good_iff c _).trans ?_
    rw [imageResult_good_iff, Slot.WellFormed]
    simp only [and_assoc]
  · refine (exec_updCommandDone_program c hawake h).trans ?_
    cases c.flashOk <;> rfl
  · refine (exec_updCommandDone_verify c hawake h).trans (congrArg Host.Outcome.next ?_)
    by_cases hgood : s.verifyResult c (s.flash.slot (!s.activeSlot)) = 1
    · exact (verifyDone_good hgood).trans (if_pos hgood).symm
    · exact (verifyDone_refused hgood).trans (if_neg hgood).symm
  · exact (exec_updCommandDone_activate c hawake h).trans (congrArg Host.Outcome.next (activateDone_failed hfail))
  · have hrun := exec_updCommandDone_activate c hawake h
    have hrecord := brec_activated hrec
    cases hcold : s.upd.cold with
    | false =>
      refine ⟨_, hrun.trans (congrArg Host.Outcome.next (activateDone_warm hflash hrec hcold)),
        ⟨_, hrecord, rfl, rfl, rfl, rfl, rfl⟩, fun _ => ⟨rfl, rfl, rfl, rfl, rfl, rfl⟩, fun h => by cases h⟩
    | true =>
      obtain ⟨cause, hdone⟩ := activateDone_cold hflash hrec hcold
      exact ⟨_, hrun.trans (congrArg Host.Outcome.next hdone), ⟨_, hrecord, rfl, rfl, rfl, rfl, rfl⟩,
        fun h => (by cases h), fun _ => ⟨rfl, rfl, rfl, rfl⟩⟩
  · exact exec_activationReverify_trial c hst hrun hdue hawake ((imageResult_good_iff c).mpr hgood) hroll
  · exact exec_activationReverify_back c hst hrun hdue hawake ((imageResult_good_iff c).mpr hgood) hroll
  · exact exec_activationReverify_again c hst hrun hdue hawake (mt (imageResult_good_iff c).mp hbad) hroll
  · exact ⟨_, exec_activationReverify_failed c hst hrun hdue hawake (mt (imageResult_good_iff c).mp hbad) hroll, rfl,
      congrArg Upd.rollback (upd_rollBack hrec), flag_rollBack hrec, _, bootRec_rollBack hrec, rfl, rfl⟩

end Sys2Proof.Machine
end

section
/-! SUPPORT. The power-fail sequence to Off (R72, R357): what it shuts, what it latches and what it records. -/

namespace Sys2Proof.Machine
open Sys2Proof

theorem upTo_induct {f : State → Nat → State} {P : Nat → State → Prop} {s : State} (h0 : P 0 s)
    (hstep : ∀ n t, P n t → P (n + 1) (f t n)) (n : Nat) : P n (s.upTo n f) := by
  induction n with
  | zero => exact h0
  | succ n ih =>
    rw [upTo_succ]
    exact hstep n _ ih

/-! ### What is shut: outputs, shorts, links (R19, R72, R357) -/

/-- A state that differs from another in its ports, its alarm outputs, the fabric and the lake alone. -/
def State.OnlyShuts (s t : State) : Prop := t = { s with ports := t.ports, alm := t.alm, fab := t.fab, lake := t.lake }

section
variable {s t u : State}

theorem State.OnlyShuts.trans (h : s.OnlyShuts t) (h' : t.OnlyShuts u) : s.OnlyShuts u :=
  Eq.trans h' (congrArg (fun v : State => { v with ports := u.ports, alm := u.alm, fab := u.fab, lake := u.lake }) h)

theorem onlyShuts_of_outs {x : List (Nat × AlmOut)} (h : t = { s with alm := { s.alm with outs := x } }) :
    s.OnlyShuts t := by
  subst h
  rfl

theorem onlyShuts_of_ports {x : List (Nat × Port)} (h : t = { s with ports := x }) : s.OnlyShuts t := by
  subst h
  rfl

theorem onlyShuts_of_links {x : List (Nat × FabPort)} (h : t = { s with fab := { s.fab with ports := x } }) :
    s.OnlyShuts t := by
  subst h
  rfl

theorem almOut_congr (h : t.alm = s.alm) (n : Nat) : t.almOut n = s.almOut n := by
  rw [State.almOut, h]
  rfl

theorem port_congr (h : t.ports = s.ports) (c : Nat) : t.port c = s.port c := by
  rw [State.port, h]
  rfl

theorem State.OnlyShuts.regs (h : s.OnlyShuts t) : t.regs = s.regs := by rw [h]

theorem State.OnlyShuts.pwr (h : s.OnlyShuts t) : t.pwr = s.pwr := by rw [h]

end

/-- An alarm output that nothing drives. -/
def AlmOut.released (o : AlmOut) : AlmOut := { o with driven := false, fold := false, testing := false }

/-- The WE to RE short of a port in use is closed, and nothing is driven. -/
def Port.shorted (p : Port) : Port := { p with shortClosed := true, engaging := false, ramping := false, bias := 0 }

section
variable (s : State)

/-- What the first `n` outputs are released to. -/
structure State.Releases (s : State) (n : Nat) (t : State) : Prop where
  frame : t = { s with alm := { s.alm with outs := t.alm.outs } }
  done : ∀ k, k < n → t.almOut k = (s.almOut k).released
  rest : ∀ k, n ≤ k → t.almOut k = s.almOut k

theorem State.Releases.ports {t : State} {n : Nat} (h : s.Releases n t) : t.ports = s.ports := by rw [h.frame]

theorem releases_releaseOutputs : s.Releases 16 s.releaseOutputs := by
  refine upTo_induct (P := s.Releases) ⟨rfl, fun k h => absurd h (Nat.not_lt_zero k), fun _ _ => rfl⟩ (fun n t h => ?_) 16
  refine ⟨congrArg (fun v : State => v.setAlmOut n (t.almOut n).released) h.frame, fun k hk => ?_, fun k hk => ?_⟩
  · obtain rfl | hne := eq_or_ne k n
    · rw [← h.rest k le_rfl]
      exact almOut_setAlmOut_same ..
    · exact (almOut_setAlmOut_other _ _ _ _ hne).trans (h.done k (by omega))
  · exact (almOut_setAlmOut_other _ _ _ _ (by omega)).trans (h.rest k (by omega))

/-- What the shorts of the first `n` ports are closed to. -/
structure State.Shorts (s : State) (n : Nat) (t : State) : Prop where
  frame : t = { s with ports := t.ports }
  port : ∀ c, t.port c = if c < n ∧ s.port c ≠ {} then (s.port c).shorted else s.port c

theorem State.Shorts.alm {t : State} {n : Nat} (h : s.Shorts n t) : t.alm = s.alm := by rw [h.frame]

theorem shorts_closeShorts : s.Shorts 256 s.closeShorts := by
  refine upTo_induct (P := s.Shorts) ⟨rfl, fun c => (if_neg (by simp)).symm⟩ (fun n t h => ?_) 256
  have hport : t.port n = s.port n := (h.port n).trans (if_neg (by simp))
  by_cases hempty : s.port n = {}
  · rw [if_pos (hport.trans hempty)]
    refine ⟨h.frame, fun c => (h.port c).trans (if_congr ?_ rfl rfl)⟩
    have hne : s.port c ≠ {} → c ≠ n := fun hc heq => hc (heq ▸ hempty)
    grind
  · rw [if_neg (fun h => hempty (hport.symm.trans h))]
    refine ⟨congrArg (fun v : State => v.setPort n (t.port n).shorted) h.frame, fun c => ?_⟩
    obtain rfl | hne := eq_or_ne c n
    · rw [if_pos ⟨Nat.lt_succ_self c, hempty⟩, ← hport]
      exact port_setPort_same ..
    · refine (port_setPort_other _ _ _ _ hne).trans ((h.port c).trans (if_congr ?_ rfl rfl))
      grind

/-- The first `n` links are down. -/
structure State.Unlinks (s : State) (n : Nat) (t : State) : Prop where
  frame : t = { s with fab := { s.fab with ports := t.fab.ports } }
  done : ∀ p, p < n → t.fport p = {}

theorem State.Unlinks.alm {t : State} {n : Nat} (h : s.Unlinks n t) : t.alm = s.alm := by rw [h.frame]

theorem State.Unlinks.ports {t : State} {n : Nat} (h : s.Unlinks n t) : t.ports = s.ports := by rw [h.frame]

theorem unlinks_upTo : s.Unlinks 8 (s.upTo 8 fun t p => t.setFport p {}) := by
  refine upTo_induct (P := s.Unlinks) ⟨rfl, fun p h => absurd h (Nat.not_lt_zero p)⟩ (fun n t h => ?_) 8
  refine ⟨congrArg (fun v : State => v.setFport n {}) h.frame, fun p hp => ?_⟩
  obtain rfl | hne := eq_or_ne p n
  · exact fport_setFport_same ..
  · exact (fport_setFport_other _ _ _ _ hne).trans (h.done p (by omega))

end

/-! ### The sequence to Off (R357) -/

/-- The way to Off is noted: its waymark, and the instant in PWR_PF_T. -/
def State.offNoted (s : State) : State :=
  ((s.pwrMark s.pwr.st .off 0).setReg (ra .pwr 0 0x060) (BitVec.ofNat 32 (stampFrac s.tim.stamp))).setReg
    (ra .pwr 0 0x064) (BitVec.ofNat 32 (stampSec s.tim.stamp))

/-- The index is saved unless the entry to Deep Sleep has saved it, and outputs, shorts and links are shut. -/
def State.shutAll (s : State) : State :=
  ((if s.pwr.st = .deepSleep then s else s.saveIndex).releaseOutputs.closeShorts).upTo 8 fun t p => t.setFport p {}

section
variable (s : State)

theorem onlyShuts_saveIndex : s.OnlyShuts (if s.pwr.st = .deepSleep then s else s.saveIndex) := by
  split <;> rfl

theorem onlyShuts_shutAll : s.OnlyShuts s.shutAll :=
  (((onlyShuts_saveIndex s).trans (onlyShuts_of_outs (releases_releaseOutputs _).frame)).trans
    (onlyShuts_of_ports (shorts_closeShorts _).frame)).trans (onlyShuts_of_links (unlinks_upTo _).frame)

theorem fport_shutAll {p : Nat} (hp : p < 8) : s.shutAll.fport p = {} := (unlinks_upTo _).done p hp

theorem almOut_shutAll {n : Nat} (hn : n < 16) : s.shutAll.almOut n = (s.almOut n).released := by
  have hkept : (if s.pwr.st = .deepSleep then s else s.saveIndex).alm = s.alm := by split <;> rfl
  calc s.shutAll.almOut n
      = (State.closeShorts (State.releaseOutputs (if s.pwr.st = .deepSleep then s else s.saveIndex))).almOut n :=
        almOut_congr (unlinks_upTo _).alm n
    _ = (State.releaseOutputs (if s.pwr.st = .deepSleep then s else s.saveIndex)).almOut n :=
        almOut_congr (shorts_closeShorts _).alm n
    _ = ((if s.pwr.st = .deepSleep then s else s.saveIndex).almOut n).released := (releases_releaseOutputs _).done n hn
    _ = (s.almOut n).released := congrArg AlmOut.released (almOut_congr hkept n)

theorem port_shutAll {c : Nat} (hc : c < 256) (hused : s.port c ≠ {}) : s.shutAll.port c = (s.port c).shorted := by
  have hkept : (State.releaseOutputs (if s.pwr.st = .deepSleep then s else s.saveIndex)).port c = s.port c := by
    refine (port_congr (releases_releaseOutputs _).ports c).trans (port_congr ?_ c)
    split <;> rfl
  refine (port_congr (unlinks_upTo _).ports c).trans (((shorts_closeShorts _).port c).trans ?_)
  rw [hkept, if_pos ⟨hc, hused⟩]

/-! ### The state in Off -/

/-- What stands in Off after the power-fail sequence: the way in, the cause recorded, the instant latched, and all shut. -/
structure State.WentOff (s : State) (by_ cause : Nat) (returned : Bool) (t : State) : Prop where
  st : t.pwr.st = .off
  offBy : t.pwr.offBy = by_
  live : t.pwr.live = false
  penHigh : t.pwr.penHigh = false
  recCause : t.pwr.recCause = max cause s.pwr.recCause
  recPf : t.pwr.recPf = (s.pwr.recPf || returned)
  locked : t.tim.locked = false
  linkUp : t.hst.linkUp = false
  reg : ∀ b, clearOfSends b → b ≠ ra .pwr 0 0x060 → b ≠ ra .pwr 0 0x064 → t.reg b = s.reg b
  frac : t.reg (ra .pwr 0 0x060) = BitVec.ofNat 32 (stampFrac s.tim.stamp)
  sec : t.reg (ra .pwr 0 0x064) = BitVec.ofNat 32 (stampSec s.tim.stamp)
  fport : ∀ p, p < 8 → t.fport p = {}
  almOut : ∀ n, n < 16 → (t.almOut n).driven = false ∧ (t.almOut n).fold = false
  port : ∀ c, c < 256 → s.port c ≠ {} → (t.port c).shortClosed = true ∧ (t.port c).bias = 0

/-- The record that Off begins with. -/
def Pwr.inOff (p : Pwr) (by_ cause : Nat) (returned : Bool) : Pwr :=
  { p with st := .off, booted := false, live := false, basePending := false, waking := false, woke := none,
           offBy := by_, penHigh := false, lowPower := false, recCause := max cause p.recCause,
           recPf := p.recPf || returned }

/-- Off begins: fabric time stops, the host link is down and the record is written. -/
def State.inOff (s : State) (by_ cause : Nat) (returned : Bool) : State :=
  { s with tim := { s.tim with locked := false, touts := false }, hst := { s.hst with linkUp := false }
           upd := { s.upd with firstDue := false, markDue := none, versionLeft := 0 }
           pwr := s.pwr.inOff by_ cause returned }

theorem powerOff_eq (by_ cause : Nat) (returned : Bool) :
    s.powerOff by_ cause returned = s.offNoted.shutAll.inOff by_ cause returned := by
  unfold State.powerOff
  extract_lets stamp marked latched saved closed shut
  change _ = shut.inOff by_ cause returned
  clear_value shut
  rfl

theorem reg_offNoted {b : Nat} (hb : clearOfSends b) (hfrac : b ≠ ra .pwr 0 0x060) (hsec : b ≠ ra .pwr 0 0x064) :
    s.offNoted.reg b = s.reg b := by
  rw [State.offNoted, reg_setReg, if_neg hsec, reg_setReg, if_neg hfrac]
  exact (sparesLake_waymark s _ _).reg b hb

theorem pwr_offNoted : s.offNoted.pwr = s.pwr := by
  have hmark := onlyEmits_waymark s 0x28 [pwrCode s.pwr.st, pwrCode .off, 0]
  exact (congrArg State.pwr hmark : _)

theorem port_offNoted (c : Nat) : s.offNoted.port c = s.port c :=
  (onlyEmits_waymark s 0x28 [pwrCode s.pwr.st, pwrCode .off, 0]).port c

/-- What Off begins with, once all is shut. -/
theorem inOff_wentOff {u v : State} (by_ cause : Nat) (returned : Bool) (hpwr : v.pwr = s.pwr)
    (hregs : v.regs = u.regs)
    (hclear : ∀ b, clearOfSends b → b ≠ ra .pwr 0 0x060 → b ≠ ra .pwr 0 0x064 → u.reg b = s.reg b)
    (hfrac : u.reg (ra .pwr 0 0x060) = BitVec.ofNat 32 (stampFrac s.tim.stamp))
    (hsec : u.reg (ra .pwr 0 0x064) = BitVec.ofNat 32 (stampSec s.tim.stamp)) (hfport : ∀ p, p < 8 → v.fport p = {})
    (halm : ∀ n, n < 16 → v.almOut n = (u.almOut n).released)
    (hport : ∀ c, c < 256 → s.port c ≠ {} → v.port c = (s.port c).shorted) :
    s.WentOff by_ cause returned (v.inOff by_ cause returned) where
  st := rfl
  offBy := rfl
  live := rfl
  penHigh := rfl
  recCause := by rw [← hpwr]; rfl
  recPf := by rw [← hpwr]; rfl
  locked := rfl
  linkUp := rfl
  reg b hb hf hs := (reg_congr (s := u) hregs b).trans (hclear b hb hf hs)
  frac := (reg_congr (s := u) hregs _).trans hfrac
  sec := (reg_congr (s := u) hregs _).trans hsec
  fport := hfport
  almOut n hn := by
    have hout : (v.inOff by_ cause returned).almOut n = (u.almOut n).released := halm n hn
    rw [hout]
    exact ⟨rfl, rfl⟩
  port c hc hused := by
    have hclosed : (v.inOff by_ cause returned).port c = (s.port c).shorted := hport c hc hused
    rw [hclosed]
    exact ⟨rfl, rfl⟩

theorem powerOff_wentOff (by_ cause : Nat) (returned : Bool) :
    s.WentOff by_ cause returned (s.powerOff by_ cause returned) := by
  rw [powerOff_eq]
  have hshut := onlyShuts_shutAll s.offNoted
  refine inOff_wentOff s by_ cause returned (hshut.pwr.trans (pwr_offNoted s)) hshut.regs
    (fun b hb hfrac hsec => reg_offNoted s hb hfrac hsec) ?_ (reg_setReg_same ..) (fun p hp => fport_shutAll _ hp)
    (fun n hn => almOut_shutAll _ hn) (fun c hc hused => ?_)
  · exact (reg_setReg ..).trans ((if_neg (by decide)).trans (reg_setReg_same ..))
  · have hport := port_offNoted s c
    rw [← hport]
    exact port_shutAll _ hc (by rwa [hport])

end

end Sys2Proof.Machine
end

section
/-! SUPPORT. Power requests, losses of power and rail events (R72, R347, R348, R352, R356 to R359). -/

namespace Sys2Proof.Machine
open Sys2Proof

/-! ### The state in which a request acts (R348) -/

theorem st_leaveIdle_ne_idle (s : State) : s.leaveIdle.pwr.st ≠ .idle := by
  unfold State.leaveIdle
  split
  case isTrue => exact fun h => nomatch h
  case isFalse h => exact h

theorem st_hostWake (s : State) (req : Nat) : (s.hostWake req).pwr.st = s.pwr.st := by
  unfold State.hostWake
  split <;> rfl

theorem st_accept_ne_idle (s : State) (a : Acc) : (s.accept a).pwr.st ≠ .idle :=
  fun h => st_leaveIdle_ne_idle _ ((st_hostWake _ _).symm.trans h)

/-- A page that answers is that of a device in Run or Idle. -/
theorem st_of_answers {s : State} {page : Nat} (h : s.answers page = true) : s.pwr.st = .run ∨ s.pwr.st = .idle := by
  simp only [State.answers, Bool.and_eq_true, decide_eq_true_eq] at h
  obtain ⟨⟨⟨hclk, -⟩, hsleep⟩, -⟩ := h
  unfold Pwr.clocked at hclk
  cases hst : s.pwr.st <;> simp_all

/-- What passes the gate acts in Run: the access has ended Idle. -/
theorem run_of_passes {s u : State} {a : Acc} {addr : Nat} {val : Word} {exempt : Bool}
    (h : s.Passes a addr val exempt u) : u.pwr.st = .run := by
  obtain ⟨hans, -, -, hu⟩ := gate_act h
  have hrun : (s.accept a).pwr.st = .run := (st_of_answers hans).resolve_right (st_accept_ne_idle s a)
  obtain rfl | ⟨t, rfl⟩ := hu
  · exact hrun
  · exact hrun

/-! ### Requests (R347, R348, R359) -/

/-- The request is stored, and may act from the milestone `due`. -/
def State.storeReq (s : State) (n due : Nat) : State :=
  { s.setFld (ra .pwr 0 0x040) 0 3 n with pwr := { s.pwr with reqDue := due } }

section
variable {s u : State} {a : Acc}

theorem actPwrCtrl_word {n : Nat} (due : Nat) (h : n ≤ 4) : s.actPwrCtrl (BitVec.ofNat 32 n) due =
    if n = 4 then (s.storeReq n due).powerOff 1 0 false else if n = 0 then (s.storeReq n due).leaveIdle
      else s.storeReq n due := by
  have hword : bits (BitVec.ofNat 32 n) 0 3 = n := by
    rw [bits_ofNat]
    omega
  unfold State.actPwrCtrl
  dsimp only
  rw [hword, if_neg (by omega)]
  rfl

theorem leaveIdle_of_run (h : s.pwr.st = .run) : s.leaveIdle = s := if_neg (by rw [h]; decide)

theorem exec_reqRun_passes (h : s.Passes a (ra .pwr 0 0x040) (BitVec.ofNat 32 0) false u) :
    exec (.reqRun a) s = .next (u.storeReq 0 u.tim.due) :=
  congrArg Host.Outcome.next ((guarded_passes h _).trans ((actPwrCtrl_word u.tim.due (by decide)).trans
    (leaveIdle_of_run (show u.pwr.st = .run from run_of_passes h))))

theorem exec_reqIdle_passes (h : s.Passes a (ra .pwr 0 0x040) (BitVec.ofNat 32 1) false u) :
    exec (.reqIdle a) s = .next (u.storeReq 1 u.tim.due) :=
  congrArg Host.Outcome.next ((guarded_passes h _).trans (actPwrCtrl_word u.tim.due (by decide)))

theorem exec_reqSleep_passes (h : s.Passes a (ra .pwr 0 0x040) (BitVec.ofNat 32 2) false u) :
    exec (.reqSleep a) s = .next (u.storeReq 2 u.tim.due) :=
  congrArg Host.Outcome.next ((guarded_passes h _).trans (actPwrCtrl_word u.tim.due (by decide)))

theorem exec_reqDeepSleep_passes (h : s.Passes a (ra .pwr 0 0x040) (BitVec.ofNat 32 3) false u) :
    exec (.reqDeepSleep a) s = .next (u.storeReq 3 u.tim.due) :=
  congrArg Host.Outcome.next ((guarded_passes h _).trans (actPwrCtrl_word u.tim.due (by decide)))

theorem exec_reqOff_passes (h : s.Passes a (ra .pwr 0 0x040) (BitVec.ofNat 32 4) false u) :
    exec (.reqOff a) s = .next ((u.storeReq 4 u.tim.due).powerOff 1 0 false) :=
  congrArg Host.Outcome.next ((guarded_passes h _).trans (actPwrCtrl_word u.tim.due (by decide)))

end

/-- Settles O47: each request is stored, and one of Off runs the sequence to Off from there. -/
theorem powerRequestsAreStoredOrGoToOff : Obligations.PowerRequestsAreStoredOrGoToOff := by
  unfold Obligations.PowerRequestsAreStoredOrGoToOff
  intro s u a
  refine ⟨fun h => ⟨run_of_passes h, exec_reqRun_passes h⟩, exec_reqIdle_passes, exec_reqSleep_passes,
    exec_reqDeepSleep_passes, fun h => ⟨_, exec_reqOff_passes h, ?_⟩⟩
  have hoff := powerOff_wentOff (u.storeReq 4 u.tim.due) 1 0 false
  refine ⟨hoff.st, hoff.offBy, hoff.live, hoff.penHigh, hoff.recCause.trans (Nat.zero_max _),
    hoff.recPf.trans (Bool.or_false _), hoff.locked, hoff.linkUp, ?_, hoff.frac, hoff.sec, hoff.fport, hoff.almOut,
    hoff.port⟩
  have hreq := hoff.reg (ra .pwr 0 0x040) (by decide) (by decide) (by decide)
  rw [State.fld, hreq]
  exact fld_setFld_same u _ 4 (by decide)

/-! ### Losses of power and rails (R72, R352, R356 to R358) -/

section
variable {s : State}

theorem exec_powerFail_on (returned : Bool) (h : s.pwr.st ≠ .off) :
    exec (.powerFail returned) s = .next (s.powerOff 0 3 returned) := congrArg Host.Outcome.next (if_neg h)

theorem exec_ecShortClose_off (h : s.pwr.st = .off) : exec .ecShortClose s = .next s.closeShorts :=
  congrArg Host.Outcome.next (if_pos h)

/-- A retention loss is noted for the next start. -/
def State.lossNoted (s : State) : State :=
  { s with pwr := { s.pwr with recRet := true, recCause := max 7 s.pwr.recCause } }

theorem lossNoted_frame {t : State} (h : t = { s with ports := t.ports }) : t.lossNoted =
    { s with ports := t.lossNoted.ports, pwr := { s.pwr with recRet := true, recCause := max 7 s.pwr.recCause } } := by
  have hpwr : t.pwr = s.pwr := by rw [h]
  rw [State.lossNoted, hpwr]
  exact congrArg (fun v : State => { v with
    pwr := { s.pwr with recRet := true, recCause := max 7 s.pwr.recCause } }) h

theorem exec_retentionLoss_deep (h : s.pwr.st = .deepSleep) :
    exec .retentionLoss s = .next s.closeShorts.lossNoted := congrArg Host.Outcome.next (if_pos h)

end

/-- Settles O48: each event by whether the state is one in which it can arrive. -/
theorem powerFailsAndRailsWarn : Obligations.PowerFailsAndRailsWarn := by
  unfold Obligations.PowerFailsAndRailsWarn
  refine ⟨fun s returned hon => ⟨_, exec_powerFail_on returned hon, ?_⟩, fun s hoff => ?_, fun s hdeep => ?_,
    fun s rail hon => ⟨congrArg Host.Outcome.next (if_neg hon), congrArg Host.Outcome.next (if_neg hon)⟩,
    fun s returned rail hoff => ⟨congrArg Host.Outcome.next (if_pos hoff), congrArg Host.Outcome.next (if_pos hoff),
      congrArg Host.Outcome.next (if_pos hoff)⟩, fun s hon => congrArg Host.Outcome.next (if_neg hon),
    fun s hdeep => congrArg Host.Outcome.next (if_neg hdeep)⟩
  · have hoff := powerOff_wentOff s 0 3 returned
    exact ⟨hoff.st, hoff.offBy, hoff.recCause, hoff.recPf, hoff.penHigh, hoff.live, hoff.locked, hoff.linkUp, hoff.frac,
      hoff.sec, hoff.fport, hoff.almOut, hoff.port⟩
  · exact ⟨_, exec_ecShortClose_off hoff, (shorts_closeShorts s).frame, (shorts_closeShorts s).port⟩
  · exact ⟨_, exec_retentionLoss_deep hdeep, lossNoted_frame (shorts_closeShorts s).frame⟩

end Sys2Proof.Machine
end

section
/-! SUPPORT. The thermal unit: sensors and their exclusion, enforcement, shutdown (R362 to R371). -/

namespace Sys2Proof.Machine
open Sys2Proof

/-! ### Exclusion of sensors (R365) -/

/-- The other sensor of a region. -/
def otherSensor (k : Nat) : Nat := k / 2 * 2 + 1 - k % 2

theorem otherSensor_eq (k : Nat) : (if k % 2 = 0 then k + 1 else k - 1) = otherSensor k := by
  unfold otherSensor
  split <;> omega

theorem otherSensor_lt {k : Nat} (h : k < 24) : otherSensor k < 24 := by
  unfold otherSensor
  omega

/-- The excluded sensors would leave a region without a good included one. -/
def State.LeavesNone (s : State) (excl : BitVec 24) : Prop :=
  ∃ k, k < 24 ∧ excl.getLsbD k = true ∧ s.sensorOut k = false ∧
    (excl.getLsbD (otherSensor k) = true ∨ s.sensorBad (otherSensor k) = true)

theorem bit_exclWord (excl : BitVec 24) {k : Nat} (h : k < 24) :
    bit (BitVec.ofNat 32 excl.toNat) k = excl.getLsbD k := by
  rw [bit, BitVec.getLsbD_ofNat, decide_eq_true (show k < 32 by omega), Bool.true_and, BitVec.testBit_toNat]

theorem bits_exclWord (excl : BitVec 24) : bits (BitVec.ofNat 32 excl.toNat) 0 24 = excl.toNat := by
  have hlt := excl.isLt
  rw [bits_ofNat]
  omega

section
variable {s u : State} {a : Acc} {excl : BitVec 24}

theorem leavesNone_iff : ((List.range 24).any fun k =>
    bit (BitVec.ofNat 32 excl.toNat) k && !s.sensorOut k &&
      (bit (BitVec.ofNat 32 excl.toNat) (if k % 2 = 0 then k + 1 else k - 1) ||
        s.sensorBad (if k % 2 = 0 then k + 1 else k - 1))) = true ↔ s.LeavesNone excl := by
  simp only [List.any_eq_true, List.mem_range, otherSensor_eq, Bool.and_eq_true, Bool.or_eq_true, Bool.not_eq_true',
    State.LeavesNone, and_assoc]
  refine exists_congr fun k => and_congr_right fun hk => ?_
  rw [bit_exclWord excl hk, bit_exclWord excl (otherSensor_lt hk)]

theorem actSexcl_refused (h : s.LeavesNone excl) : s.actSexcl (BitVec.ofNat 32 excl.toNat) = s.stick .thm 0 12 :=
  if_pos (leavesNone_iff.mpr h)

theorem actSexcl_taken (h : ¬s.LeavesNone excl) :
    s.actSexcl (BitVec.ofNat 32 excl.toNat) = s.setFld (ra .thm 0 0x04C) 0 24 excl.toNat := by
  refine (if_neg (mt leavesNone_iff.mp h)).trans ?_
  rw [bits_exclWord]

theorem exec_thmSexclWrite_passes (h : s.Passes a (ra .thm 0 0x04C) (BitVec.ofNat 32 excl.toNat) false u) :
    exec (.thmSexclWrite a excl) s = .next (u.actSexcl (BitVec.ofNat 32 excl.toNat)) :=
  congrArg Host.Outcome.next (guarded_passes h _)

theorem exec_enforceNow_passes (h : s.Passes a (ra .thm 0 0x048) 4 false u) :
    exec (.enforceNow a) s = .next { u with thm := { u.thm with now := true } } :=
  congrArg Host.Outcome.next ((guarded_passes h _).trans (if_pos (by decide)))

theorem exec_sensorBroken_good {k : Fin 24} (hgood : s.sensorBad k.val = false) (hclk : s.pwr.clocked = true) :
    exec (.sensorBroken k) s = .next ((State.stick { s with thm := { s.thm with
      brokenMs := kset s.thm.brokenMs k.val (s.tim.msCount + 1) 0
      brokenRow := kset s.thm.brokenRow k.val (s.tim.time % 2 ^ 54 / 2 ^ 48) 0
      sread := kset s.thm.sread k.val 1600 0 } } .thm 0 11).waymark 0x30 [4, k.val, 1600]) :=
  congrArg Host.Outcome.next (if_neg (by simp [hgood, hclk]))

end

/-! ### Shutdown (R369, R370) -/

theorem mayTrip_iff (s : State) :
    s.mayTrip = true ↔ s.pwr.st ≠ .deepSleep ∧ (s.pwr.st = .off → s.pwr.offBy ≠ 2) := by
  unfold State.mayTrip Pwr.clocked
  cases s.pwr.st <;> simp

/-- The record of a shutdown (R370). -/
def State.tripNoted (s : State) (w : Nat) : State :=
  ((s.setReg (ra .thm 0 0x054) (BitVec.ofNat 32 w)).setReg (ra .thm 0 0x058)
    (BitVec.ofNat 32 (stampFrac s.tim.stamp))).setReg (ra .thm 0 0x05C) (BitVec.ofNat 32 (stampSec s.tim.stamp))

section
variable (s : State) (w : Nat)

theorem cause_tripNoted : (s.tripNoted w).reg (ra .thm 0 0x054) = BitVec.ofNat 32 w := by
  rw [State.tripNoted, reg_setReg, if_neg (by decide), reg_setReg, if_neg (by decide), reg_setReg_same]

theorem frac_tripNoted : (s.tripNoted w).reg (ra .thm 0 0x058) = BitVec.ofNat 32 (stampFrac s.tim.stamp) := by
  rw [State.tripNoted, reg_setReg, if_neg (by decide), reg_setReg_same]

theorem sec_tripNoted : (s.tripNoted w).reg (ra .thm 0 0x05C) = BitVec.ofNat 32 (stampSec s.tim.stamp) :=
  reg_setReg_same ..

end

/-- What a shutdown leaves: Off, in the way that had led there or its own, and the record. -/
structure State.Tripped (s : State) (w : Nat) (t : State) : Prop where
  st : t.pwr.st = .off
  offBy : t.pwr.offBy = if s.pwr.st = .off then s.pwr.offBy else 2
  recCause : t.pwr.recCause = max 2 s.pwr.recCause
  cause : t.reg (ra .thm 0 0x054) = BitVec.ofNat 32 w
  frac : t.reg (ra .thm 0 0x058) = BitVec.ofNat 32 (stampFrac s.tim.stamp)
  sec : t.reg (ra .thm 0 0x05C) = BitVec.ofNat 32 (stampSec s.tim.stamp)

section
variable (s : State) (cause n r : Nat) (temp : Int)

theorem shutdown_eq : s.shutdown cause n r temp =
    let v := s.tripNoted (cause + n * 4 + r * 128 + encInt 12 temp * 2048)
    if s.pwr.st = .off then { v with pwr := { s.pwr with recCause := max 2 s.pwr.recCause } } else v.powerOff 2 2 false :=
  rfl

theorem shutdown_tripped :
    s.Tripped (cause + n * 4 + r * 128 + encInt 12 temp * 2048) (s.shutdown cause n r temp) := by
  rw [shutdown_eq]
  generalize cause + n * 4 + r * 128 + encInt 12 temp * 2048 = w
  by_cases hoff : s.pwr.st = .off
  · rw [if_pos hoff]
    exact ⟨hoff, (if_pos hoff).symm, rfl, cause_tripNoted s w, frac_tripNoted s w, sec_tripNoted s w⟩
  · rw [if_neg hoff]
    have hwent := powerOff_wentOff (s.tripNoted w) 2 2 false
    have hreg : ∀ b, clearOfSends b → b ≠ ra .pwr 0 0x060 → b ≠ ra .pwr 0 0x064 → ∀ x,
        (s.tripNoted w).reg b = x → ((s.tripNoted w).powerOff 2 2 false).reg b = x := fun b hb hfrac hsec _ h =>
      (hwent.reg b hb hfrac hsec).trans h
    exact ⟨hwent.st, hwent.offBy.trans (if_neg hoff).symm, hwent.recCause,
      hreg _ (by decide) (by decide) (by decide) _ (cause_tripNoted s w),
      hreg _ (by decide) (by decide) (by decide) _ (frac_tripNoted s w),
      hreg _ (by decide) (by decide) (by decide) _ (sec_tripNoted s w)⟩

end

section
variable {s : State}

/-- The reading that trips counts: its sensor is included, or the region's source is its model. -/
def State.TripCounts (s : State) (sensor : Option (Fin 24)) (region : Fin 12) : Prop :=
  (∀ k, sensor = some k → s.sensorOut k.val = false) ∧
    (sensor = none → s.fld (ra .thm 0 (0x080 + 4 * region.val)) 0 2 ≠ 0)

theorem exec_thermalShutdown_trips {sensor : Option (Fin 24)} {region : Fin 12} {temp : Int} (hmay : s.mayTrip = true)
    (hhot : 1280 ≤ temp) (hcounts : s.TripCounts sensor region) : exec (.thermalShutdown sensor region temp) s =
    .next (s.shutdown 1 ((sensor.map (·.val)).getD 31) ((sensor.map (·.val / 2)).getD region.val) temp) := by
  obtain ⟨hincluded, hmodel⟩ := hcounts
  cases sensor with
  | none => exact congrArg Host.Outcome.next (if_pos (by simp [hmay, hhot, hmodel rfl]))
  | some k => exact congrArg Host.Outcome.next (if_pos (by simp [hmay, hhot, hincluded k rfl]))

theorem exec_thermalShutdown_not {sensor : Option (Fin 24)} {region : Fin 12} {temp : Int}
    (h : temp < 1280 ∨ ¬s.TripCounts sensor region) : exec (.thermalShutdown sensor region temp) s = .next s := by
  cases sensor with
  | none =>
    refine congrArg Host.Outcome.next (if_neg ?_)
    simp only [Bool.and_eq_true, decide_eq_true_eq]
    rintro ⟨⟨-, hmodel⟩, hhot⟩
    refine h.elim (fun hcold => absurd hhot (by omega)) fun hnot => hnot ⟨fun k hk => (nomatch hk), fun _ => hmodel⟩
  | some k =>
    refine congrArg Host.Outcome.next (if_neg ?_)
    simp only [Bool.and_eq_true, decide_eq_true_eq, Bool.not_eq_true']
    rintro ⟨⟨-, hin⟩, hhot⟩
    refine h.elim (fun hcold => absurd hhot (by omega)) fun hnot => hnot ⟨fun j hj => ?_, fun hnone => nomatch hnone⟩
    rwa [← Option.some.inj hj]

theorem exec_brokenSensorShutdown_trips {k : Fin 24} (hmay : s.mayTrip = true) (hbad : s.sensorBad k.val = true)
    (hin : s.sensorOut k.val = false) (hlong : kget s.thm.brokenMs k.val 0 + 1024 ≤ s.tim.msCount + 1) :
    exec (.brokenSensorShutdown k) s = .next (s.shutdown 2 k.val (k.val / 2) 1600) :=
  congrArg Host.Outcome.next (if_pos (by simp [hmay, hbad, hin, hlong]))

/-! ### Enforcement (R367, R368) -/

/-- Enforcement is in force from this milestone on. -/
def State.begun (s : State) : State :=
  { s.noteSizes with thm := { s.noteSizes.thm with enforced := true, begin_ := false, enfMs := 0 } }

theorem thmMark_begins (s : State) : (s.thmStick 10).thmMark 2 s.hottest =
    (s.stick .thm 0 10).waymark 0x30 [2, s.hottest, s.regionNow s.hottest] := rfl

theorem exec_enforcement_begins (hbegin : s.thm.begin_ = true) (hnot : s.thm.enforced = false)
    (hms : s.atMilestone = true) : exec .enforcement s = .next (State.enforceHalve
      ((s.begun.stick .thm 0 10).waymark 0x30 [2, s.begun.hottest, s.begun.regionNow s.begun.hottest])) := by
  have hrun : exec .enforcement s = .next ((s.begun.thmStick 10).thmMark 2 s.begun.hottest).enforceHalve :=
    congrArg Host.Outcome.next (if_pos ⟨hbegin, by simp [hnot], hms⟩)
  rw [hrun, thmMark_begins]

end

/-- Settles O50: each command by its condition; a shutdown through what its record and the sequence to Off leave. -/
theorem thermalUnitActs : Obligations.ThermalUnitActs := by
  unfold Obligations.ThermalUnitActs
  refine ⟨fun s k => exec_sensorBroken_good, fun s u a excl h => ?_, fun s u a => exec_enforceNow_passes,
    fun s => ⟨fun hno => ⟨?_, ?_, ?_⟩, exec_enforcement_begins, fun henf hdue hms => ?_, fun hany hdue hms => ?_⟩,
    fun s sensor region temp hmay => ⟨fun hhot hcounts => ?_, exec_thermalShutdown_not⟩,
    fun s k hmay hbad hin hlong => ?_, mayTrip_iff⟩
  · have hrun := exec_thmSexclWrite_passes h
    exact ⟨fun hbad => hrun.trans (congrArg Host.Outcome.next (actSexcl_refused hbad)),
      fun hgood => hrun.trans (congrArg Host.Outcome.next (actSexcl_taken hgood))⟩
  · exact congrArg Host.Outcome.next (if_neg (by simp [hno]))
  · exact congrArg Host.Outcome.next (if_neg (by simp [hno]))
  · exact congrArg Host.Outcome.next (if_neg (by simp [hno]))
  · exact congrArg Host.Outcome.next (if_pos ⟨henf, hdue, hms⟩)
  · exact congrArg Host.Outcome.next (if_pos ⟨hany, hdue, hms⟩)
  · have htrip := shutdown_tripped s 1 ((sensor.map (·.val)).getD 31) ((sensor.map (·.val / 2)).getD region.val) temp
    exact ⟨_, exec_thermalShutdown_trips hmay hhot hcounts, htrip.st, htrip.offBy, htrip.recCause, htrip.cause, htrip.frac,
      htrip.sec⟩
  · have htrip := shutdown_tripped s 2 k.val (k.val / 2) 1600
    exact ⟨_, exec_brokenSensorShutdown_trips hmay hbad hin hlong, htrip.st, htrip.offBy, htrip.recCause, htrip.cause⟩

end Sys2Proof.Machine
end

section
/-! SUPPORT. Wakes and the ways out of Off (R352 to R355, R358 to R360): what a wake does to links, interrupts and sessions
leaves the power state and fabric time alone. -/

namespace Sys2Proof.Machine
open Sys2Proof

/-- The power state and fabric time stand as they stood. -/
structure State.KeepsClock (s t : State) : Prop where
  pwr : t.pwr = s.pwr
  time : t.tim.time = s.tim.time

section
variable {s t u : State}

theorem keepsClock_refl (s : State) : s.KeepsClock s := ⟨rfl, rfl⟩

theorem State.KeepsClock.trans (h : s.KeepsClock t) (h' : t.KeepsClock u) : s.KeepsClock u :=
  ⟨h'.pwr.trans h.pwr, h'.time.trans h.time⟩

/-- Transitivity with the later step first, which names the state in between. -/
theorem State.KeepsClock.after (h' : t.KeepsClock u) (h : s.KeepsClock t) : s.KeepsClock u := h.trans h'

theorem State.OnlyEmits.keepsClock (h : s.OnlyEmits t) : s.KeepsClock t := ⟨by rw [h], by rw [h]⟩

theorem State.OnlySends.keepsClock (h : s.OnlySends t) : s.KeepsClock t := ⟨by rw [h.frame], by rw [h.frame]⟩

theorem keepsClock_ite {p : Prop} [Decidable p] (ht : s.KeepsClock t) (hu : s.KeepsClock u) :
    s.KeepsClock (if p then t else u) := by
  split
  · exact ht
  · exact hu

theorem keepsClock_each {α : Type} (l : List α) {f : State → α → State} (hf : ∀ (t : State) x, t.KeepsClock (f t x))
    (s : State) : s.KeepsClock (s.each l f) :=
  each_induct (P := s.KeepsClock) (fun t x ht => ht.trans (hf t x)) (keepsClock_refl s) l

theorem keepsClock_upTo (n : Nat) {f : State → Nat → State} (hf : ∀ (t : State) x, t.KeepsClock (f t x)) (s : State) :
    s.KeepsClock (s.upTo n f) := keepsClock_each (List.range n) hf s

end

/-! ### Links and holders (R71, R246) -/

section
variable (s : State)

theorem keepsClock_waymark (cls : Nat) (vals : List Int) : s.KeepsClock (s.waymark cls vals) :=
  (onlyEmits_waymark s cls vals).keepsClock

theorem keepsClock_movePort (p : Nat) (v : FabPort) : s.KeepsClock (s.movePort p v) := by
  unfold State.movePort
  extract_lets old set fab flooded stuck
  have hset : s.KeepsClock set := ⟨rfl, rfl⟩
  have hflooded : s.KeepsClock flooded := hset.trans ⟨rfl, rfl⟩
  have hstuck : s.KeepsClock stuck := hflooded.trans (keepsClock_ite ⟨rfl, rfl⟩ (keepsClock_refl _))
  exact keepsClock_ite hset (hstuck.trans (keepsClock_waymark stuck 0x13 _))

theorem keepsClock_wakePort (p : Nat) : s.KeepsClock (s.wakePort p) := by
  unfold State.wakePort
  exact keepsClock_ite (keepsClock_movePort s p _) (keepsClock_ite (keepsClock_movePort s p _) (keepsClock_refl s))

theorem keepsClock_portFault (c n : Nat) : s.KeepsClock (s.portFault c n) := by
  unfold State.portFault
  exact ⟨rfl, rfl⟩

theorem keepsClock_reportHolders : s.KeepsClock s.reportHolders := by
  unfold State.reportHolders
  refine keepsClock_upTo 256 (fun t c => ?_) s
  dsimp only
  exact keepsClock_ite ((keepsClock_portFault _ c 6).after ⟨rfl, rfl⟩) (keepsClock_refl t)

end

/-! ### Interrupts (R334 to R341) -/

theorem keepsClock_setSource (s : State) (n : Nat) (x : Source) : s.KeepsClock (s.setSource n x) := ⟨rfl, rfl⟩

section
variable {send : State → Msg → State} (hsend : ∀ (t : State) m, t.KeepsClock (send t m)) (s : State)
include hsend

theorem keepsClock_messageBy (t : Nat) (ns : List Nat) : s.KeepsClock (s.messageBy send t ns) := by
  unfold State.messageBy
  split
  case h_1 => exact keepsClock_refl s
  case h_2 low l =>
    have hmarked : s.KeepsClock (s.each (low :: l) fun s n =>
        s.setSource n { s.source n with st := .active, held := false, claimed := false, target := t, last := t }) :=
      keepsClock_each _ (fun v n => keepsClock_setSource v n _) s
    dsimp only
    split
    case h_1 => exact hmarked.trans (hsend _ _)
    case h_2 r _ =>
      refine hmarked.trans (keepsClock_ite ?_ ⟨rfl, rfl⟩)
      exact (hsend _ _).after ⟨rfl, rfl⟩

theorem keepsClock_releaseBy (t : Nat) : s.KeepsClock (s.releaseBy send t) :=
  (keepsClock_messageBy hsend _ t _).after ⟨rfl, rfl⟩

theorem keepsClock_endActive {again : State → Nat → State} (hagain : ∀ (t : State) n, t.KeepsClock (again t n))
    (t n : Nat) : s.KeepsClock (s.endActive send again t n) := by
  have hset : ∀ x, s.KeepsClock (s.setSource n x) := fun _ => ⟨rfl, rfl⟩
  have hended := keepsClock_ite
    (p := ((s.source n).en && (s.source n).st = .activePending) = true)
    ((hset { s.source n with st := .inactive, claimed := false }).trans (keepsClock_messageBy hsend _ t [n]))
    (keepsClock_ite
      (p := ((s.source n).en && (s.source n).sense = 0 && !isPulse n && s.condOf n (s.source n).cond) = true)
      ((hset { s.source n with st := .pending, claimed := false }).trans (hagain _ n))
      (hset { s.source n with st := .inactive, claimed := false }))
  exact hended.trans (keepsClock_ite (keepsClock_releaseBy hsend _ t) (keepsClock_refl _))

end

theorem keepsClock_handOver (k : Nat) (s : State) (m : Msg) : s.KeepsClock (State.handOver k s m) := by
  induction k generalizing s m with
  | zero =>
    unfold State.handOver
    exact keepsClock_ite (keepsClock_ite ⟨rfl, rfl⟩ ⟨rfl, rfl⟩) (onlySends_sendTo ..).keepsClock
  | succ k ih =>
    unfold State.handOver
    refine keepsClock_ite (keepsClock_ite ⟨rfl, rfl⟩ ⟨rfl, rfl⟩) ?_
    refine (onlySends_sendTo ..).keepsClock.trans (keepsClock_ite ?_ (keepsClock_refl _))
    exact keepsClock_each _ (fun t n => keepsClock_endActive ih t (fun v _ => keepsClock_refl v) _ n) _

section
variable (s : State)

theorem keepsClock_releaseHeld (t : Nat) : s.KeepsClock (s.releaseHeld t) :=
  keepsClock_releaseBy (fun v m => keepsClock_handOver 4 v m) s t

theorem keepsClock_message (t : Nat) (ns : List Nat) : s.KeepsClock (s.message t ns) :=
  keepsClock_messageBy (fun v m => keepsClock_handOver 4 v m) s t ns

theorem keepsClock_deliver (n : Nat) : s.KeepsClock (s.deliver n) := by
  unfold State.deliver
  split
  case h_1 => exact ⟨rfl, rfl⟩
  case h_2 t _ =>
    refine keepsClock_ite (keepsClock_refl s) (keepsClock_ite (keepsClock_message s t [n]) ?_)
    extract_lets freed x marked timed
    have hfreed : s.KeepsClock freed := keepsClock_ite (keepsClock_releaseHeld s t) (keepsClock_refl s)
    have hmarked : s.KeepsClock marked := hfreed.trans (keepsClock_setSource freed n _)
    have htimed : s.KeepsClock timed := hmarked.trans (keepsClock_ite (keepsClock_refl _) ⟨rfl, rfl⟩)
    exact htimed.trans (keepsClock_ite (keepsClock_releaseHeld timed t) (keepsClock_refl timed))

theorem keepsClock_event (n : Nat) : s.KeepsClock (s.event n) := by
  unfold State.event
  refine keepsClock_ite (keepsClock_refl s) ?_
  split
  · exact (keepsClock_deliver _ n).after ⟨rfl, rfl⟩
  · exact keepsClock_ite (keepsClock_refl s) (keepsClock_deliver s n)
  · exact ⟨rfl, rfl⟩
  · exact keepsClock_refl s

theorem keepsClock_sampleSource (n : Nat) (now : Bool) : s.KeepsClock (s.sampleSource n now) := by
  have hnoted : s.KeepsClock (s.noteCond n now) := ⟨rfl, rfl⟩
  by_cases hasks : (s.source n).AsksEvent n now
  · by_cases honce : isPulse n = false ∨ (s.source n).sense ≠ 3
    · rw [sampleSource_once hasks honce]
      exact hnoted.trans (keepsClock_event _ n)
    · rw [sampleSource_twice hasks honce]
      exact (hnoted.trans (keepsClock_event _ n)).trans (keepsClock_event _ n)
  · rw [sampleSource_unasked hasks]
    exact hnoted

theorem keepsClock_intRestore : s.KeepsClock s.intRestore := by
  unfold State.intRestore
  exact (keepsClock_each _ (fun t n => keepsClock_ite (keepsClock_sampleSource t n _) (keepsClock_refl t)) _).after
    (keepsClock_upTo 16 (fun t i => keepsClock_ite (keepsClock_refl t) (keepsClock_releaseHeld t i)) s)

/-! ### Sessions (R245, R246, R261, R262, R265) -/

theorem keepsClock_offerKept (n : Nat) (recovered : Bool) (l : List Record) :
    s.KeepsClock (s.offerKept n recovered l) := by
  induction l generalizing s with
  | nil => exact keepsClock_refl s
  | cons r l ih =>
    unfold State.offerKept
    split
    case h_1 => exact keepsClock_refl s
    case h_2 x _ =>
      split
      case h_1 => exact keepsClock_refl s
      case h_2 v _ =>
        have hoffered : s.KeepsClock (match (s.setSession (x.setSub { v with next := r.seqNo })).session n with
            | some y => (s.setSession (x.setSub { v with next := r.seqNo })).offer y r recovered
            | none => s.setSession (x.setSub { v with next := r.seqNo })) := by
          split
          · exact (onlyEmits_offer _ _ r recovered).keepsClock.after ⟨rfl, rfl⟩
          · exact ⟨rfl, rfl⟩
        dsimp only
        split
        · exact keepsClock_ite hoffered (hoffered.trans (ih _))
        · exact hoffered

theorem keepsClock_catchUp (n : Nat) (recovered : Bool) : s.KeepsClock (s.catchUp n recovered) := by
  unfold State.catchUp
  split
  · exact keepsClock_refl s
  · exact keepsClock_each _ (fun t u => keepsClock_offerKept t n recovered _) s

theorem keepsClock_catchUpAll (recovered : Bool) : s.KeepsClock (s.catchUpAll recovered) := by
  unfold State.catchUpAll
  exact keepsClock_each _ (fun t (x : Session) => keepsClock_catchUp t x.num recovered) s

theorem keepsClock_unadmit (gone : Admit → Bool) : s.KeepsClock (s.unadmit gone) := by
  unfold State.unadmit
  exact keepsClock_ite ⟨rfl, rfl⟩ (keepsClock_refl s)

theorem keepsClock_freeRsv (n : Nat) : s.KeepsClock (s.freeRsv n) := by
  unfold State.freeRsv
  dsimp only
  split
  · exact keepsClock_refl s
  · exact (onlySends_freeOnward _ _).keepsClock.after (keepsClock_unadmit s _)

theorem keepsClock_unreserve (n : Nat) : s.KeepsClock (s.unreserve n) := by
  unfold State.unreserve
  split
  · exact (keepsClock_catchUp _ n false).after ⟨rfl, rfl⟩
  · exact keepsClock_refl s

theorem keepsClock_setReg (a : Nat) (v : Word) : s.KeepsClock (s.setReg a v) := ⟨rfl, rfl⟩

theorem keepsClock_stick (k : PageKind) (i n : Nat) : s.KeepsClock (s.stick k i n) := ⟨rfl, rfl⟩

theorem keepsClock_refuseRsv (session reason : Nat) : s.KeepsClock (s.refuseRsv session reason) := by
  unfold State.refuseRsv
  exact (keepsClock_stick _ .fabRouter 0 8).after (keepsClock_setReg s _ _)

theorem keepsClock_askRsv (x : Session) : s.KeepsClock (s.askRsv x) := by
  refine keepsClock_ite (keepsClock_refl s) ?_
  have hasked : ∀ y : Session, s.KeepsClock (((s.setSession y).freeRsv x.num).catchUp x.num false) := fun y =>
    (keepsClock_catchUp _ x.num false).after ((keepsClock_freeRsv _ x.num).after ⟨rfl, rfl⟩)
  refine (hasked { x with asked := true, granted := 0, wants := false, askDue := !s.supWorks }).trans ?_
  refine keepsClock_ite (keepsClock_refl _) ?_
  split
  case h_1 => exact (keepsClock_unreserve _ x.num).trans (keepsClock_refuseRsv _ x.num 3)
  case h_2 p _ =>
    dsimp only
    split
    case h_1 why _ => exact (keepsClock_unreserve _ x.num).trans (keepsClock_refuseRsv _ x.num why)
    case h_2 => exact (onlySends_sendTo ..).keepsClock.after ⟨rfl, rfl⟩

end

/-! ### Wakes (R352 to R355) -/

section
variable {s : State} {sources : BitVec 7}

/-- A wake within the time of an entry to Deep Sleep is noted. -/
def State.noteEarly (s : State) : State :=
  if s.pwr.st = .deepSleep ∧ s.tim.time < s.pwr.entry + entrySpan then s.stick .pwr 0 12 else s

theorem exec_wakeEvent_none (h : Nat.land sources.toNat s.wakeEnabled = 0) : exec (.wakeEvent sources) s = .next s :=
  congrArg Host.Outcome.next (if_pos (.inr (.inr h)))

section
variable (hst : s.pwr.st = .sleep ∨ s.pwr.st = .deepSleep) (hwaking : s.pwr.waking = false)
  (hm : Nat.land sources.toNat s.wakeEnabled ≠ 0)
include hst hwaking hm

theorem wakeEvent_runs : ¬((!decide (s.pwr.st = .sleep ∨ s.pwr.st = .deepSleep)) = true ∨ s.pwr.waking = true ∨
    Nat.land sources.toNat s.wakeEnabled = 0) := by
  rintro (hnot | hwake | hzero)
  · simp [hst] at hnot
  · rw [hwaking] at hwake
    cases hwake
  · exact hm hzero

theorem exec_wakeEvent_lost (hdeep : s.pwr.st = .deepSleep) (hret : s.pwr.recRet = true) :
    exec (.wakeEvent sources) s = .next ((s.wakeRecord (Nat.land sources.toNat s.wakeEnabled)).coldReset 7) :=
  congrArg Host.Outcome.next ((if_neg (wakeEvent_runs hst hwaking hm)).trans (if_pos ⟨hdeep, hret⟩))

theorem exec_wakeEvent_begins (hkept : s.pwr.st = .sleep ∨ s.pwr.recRet = false) :
    exec (.wakeEvent sources) s = .next (s.noteEarly.beginWake (Nat.land sources.toNat s.wakeEnabled)) := by
  refine congrArg Host.Outcome.next ((if_neg (wakeEvent_runs hst hwaking hm)).trans (if_neg ?_))
  rintro ⟨hdeep, hret⟩
  obtain hsleep | hnone := hkept
  · rw [hdeep] at hsleep
    cases hsleep
  · rw [hnone] at hret
    cases hret

end

section
variable (s) (m : Nat)

theorem noteEarly_frame : s.noteEarly = { s with regs := s.noteEarly.regs } := by
  unfold State.noteEarly
  split <;> rfl

theorem beginWake_frame : s.beginWake m =
    { s with pwr := { s.pwr with waking := true, wakeMask := m, lowPower := false, penHigh := true }
             alm := { s.alm with wakeSeen := false }, thm := { s.thm with wakeSeen := false }
             regs := (s.beginWake m).regs } := rfl

theorem reg_beginWake (b : Nat) : (s.beginWake m).reg b = ((s.wakeRecord m).setFld (ra .pwr 0 0x040) 0 3 0).reg b := rfl

/-- A wake that begins changes PWR_STICKY, PWR_CTRL and PWR_WAKE_SRC alone. -/
theorem reg_wake_other {b : Nat} (hsticky : b ≠ ra .pwr 0 0x010) (hctrl : b ≠ ra .pwr 0 0x040)
    (hsrc : b ≠ ra .pwr 0 0x04C) : (s.noteEarly.beginWake m).reg b = s.reg b := by
  have hearly : s.noteEarly.reg b = s.reg b := by
    unfold State.noteEarly
    split
    case isTrue => exact reg_stick_other s _ _ _ hsticky
    case isFalse => rfl
  rw [reg_beginWake, State.setFld, reg_setReg, if_neg hctrl, State.wakeRecord, reg_setReg, if_neg hsrc, hearly]

theorem sticky_wake [Decidable (s.pwr.st = .deepSleep ∧ s.tim.time < s.pwr.entry + entrySpan)] :
    (s.noteEarly.beginWake m).flag (ra .pwr 0 0x010) 12 =
      (decide (s.pwr.st = .deepSleep ∧ s.tim.time < s.pwr.entry + entrySpan) || s.flag (ra .pwr 0 0x010) 12) := by
  have hkept : (s.noteEarly.beginWake m).reg (ra .pwr 0 0x010) = s.noteEarly.reg (ra .pwr 0 0x010) := by
    rw [reg_beginWake, State.setFld, reg_setReg, if_neg (by decide), State.wakeRecord, reg_setReg, if_neg (by decide)]
  rw [State.flag, hkept]
  unfold State.noteEarly
  split
  case isTrue hearly =>
    rw [decide_eq_true hearly]
    exact flag_stick_same s _ _ _ (by decide)
  case isFalse hlate =>
    rw [decide_eq_false hlate]
    rfl

theorem request_wake : (s.noteEarly.beginWake m).fld (ra .pwr 0 0x040) 0 3 = 0 := by
  rw [State.fld, reg_beginWake]
  exact fld_setFld_same (s.noteEarly.wakeRecord m) (ra .pwr 0 0x040) 0 (by decide)

theorem source_wake : (s.noteEarly.beginWake m).reg (ra .pwr 0 0x04C) = (s.wakeRecord m).reg (ra .pwr 0 0x04C) := by
  have hpwr : s.noteEarly.pwr = s.pwr := by rw [noteEarly_frame]
  rw [reg_beginWake, State.setFld, reg_setReg, if_neg (by decide), State.wakeRecord, reg_setReg_same, hpwr,
    State.wakeRecord, reg_setReg_same]

theorem wake_frame : s.noteEarly.beginWake m =
    { s with pwr := { s.pwr with waking := true, wakeMask := m, lowPower := false, penHigh := true }
             alm := { s.alm with wakeSeen := false }, thm := { s.thm with wakeSeen := false }
             regs := (s.noteEarly.beginWake m).regs } := by
  unfold State.noteEarly
  split
  · rfl
  · rfl

end

end

/-! ### The sources of a wake (R353) -/

theorem testBit_mask (p : Bool) (x m b : Nat) :
    (if p then x else Nat.land x m).testBit b = (x.testBit b && (p || m.testBit b)) := by
  cases p with
  | true => simp
  | false => exact (Nat.testBit_land x m b).trans (by simp)

/-- The masks leave out the timer, the alarm and the thermal source. -/
theorem testBit_masks : ∀ b < 6, Nat.testBit 0x37 b = decide (b ≠ 3) ∧ Nat.testBit 0x2F b = decide (b ≠ 4) ∧
    Nat.testBit 0x1F b = decide (b ≠ 5) := by decide

section
variable (s : State)

theorem testBit_enabled (b : Nat) :
    (s.fld (ra .pwr 0 0x048) 0 6).testBit b = (decide (b < 6) && s.flag (ra .pwr 0 0x048) b) := by
  rw [State.fld, testBit_bits, Nat.zero_add]
  rfl

/-- The enabled sources whose event has come, before the state counts. -/
def State.wakeCome (s : State) : Nat :=
  let en := s.fld (ra .pwr 0 0x048) 0 6
  let en := if s.timerReached then en else Nat.land en 0x37
  if s.alm.wakeSeen then en else Nat.land en 0x2F

theorem testBit_wakeCome (b : Nat) : s.wakeCome.testBit b = (decide (b < 6) && s.flag (ra .pwr 0 0x048) b &&
    (s.timerReached || Nat.testBit 0x37 b) && (s.alm.wakeSeen || Nat.testBit 0x2F b)) := by
  unfold State.wakeCome
  dsimp only
  rw [testBit_mask, testBit_mask, testBit_enabled]

theorem wakeCome_lt : s.wakeCome < 2 ^ 6 := by
  refine Nat.lt_pow_two_of_testBit _ fun b hb => ?_
  rw [testBit_wakeCome, decide_eq_false (by omega)]
  rfl

theorem wakeEnabled_sleep (h : s.pwr.st = .sleep) :
    s.wakeEnabled = (if s.thm.wakeSeen then s.wakeCome else Nat.land s.wakeCome 0x1F) + 2 ^ 6 := if_pos h

theorem wakeEnabled_deep (h : s.pwr.st = .deepSleep) : s.wakeEnabled = Nat.land s.wakeCome 0x2F :=
  if_neg (by rw [h]; decide)

/-- What an alarm and the thermal warning leave enabled in Sleep. -/
theorem testBit_sleep (h : s.pwr.st = .sleep) (b : Nat) (hb : b < 6) :
    s.wakeEnabled.testBit b = (s.wakeCome.testBit b && (s.thm.wakeSeen || Nat.testBit 0x1F b)) := by
  rw [wakeEnabled_sleep s h, Nat.add_comm, Nat.testBit_two_pow_add_gt hb, testBit_mask]

/-- Host access always wakes from Sleep. -/
theorem testBit_sleep_host (h : s.pwr.st = .sleep) : s.wakeEnabled.testBit 6 = true := by
  rw [wakeEnabled_sleep s h, Nat.add_comm, Nat.testBit_two_pow_add_eq, testBit_mask, testBit_wakeCome]
  rfl

theorem testBit_deep (h : s.pwr.st = .deepSleep) (b : Nat) :
    s.wakeEnabled.testBit b = (s.wakeCome.testBit b && Nat.testBit 0x2F b) := by
  rw [wakeEnabled_deep s h]
  exact Nat.testBit_land ..

theorem testBit_wakeEnabled (hst : s.pwr.st = .sleep ∨ s.pwr.st = .deepSleep) (b : Fin 7) :
    s.wakeEnabled.testBit b.val =
      if b.val = 3 then s.flag (ra .pwr 0 0x048) 3 && s.timerReached
      else if b.val = 4 then s.flag (ra .pwr 0 0x048) 4 && s.alm.wakeSeen && decide (s.pwr.st = .sleep)
      else if b.val = 5 then s.flag (ra .pwr 0 0x048) 5 && (s.thm.wakeSeen || decide (s.pwr.st = .deepSleep))
      else if b.val = 6 then decide (s.pwr.st = .sleep) else s.flag (ra .pwr 0 0x048) b.val := by
  obtain ⟨b, hb⟩ := b
  obtain rfl | hlt : b = 6 ∨ b < 6 := by omega
  · obtain h | h := hst
    · rw [testBit_sleep_host s h, h]
      rfl
    · rw [testBit_deep s h, testBit_wakeCome, h]
      rfl
  · obtain ⟨htimer, halarm, hwarm⟩ := testBit_masks b hlt
    obtain h | h := hst
    · rw [testBit_sleep s h b hlt, testBit_wakeCome, htimer, halarm, hwarm, h]
      interval_cases b <;> simp
    · rw [testBit_deep s h, testBit_wakeCome, htimer, halarm, h]
      interval_cases b <;> simp

end

/-! ### The end of a wake (R354, R355) -/

section
variable (s : State)

/-- Run, with the power state left as the record of the wake that has ended. -/
def State.woken (s : State) : State :=
  { s with pwr := { s.pwr with st := .run, waking := false, woke := some (pwrCode s.pwr.st) } }

/-- Links resume, limited holders are reported and, from Deep Sleep, sessions and interrupts catch up. -/
def State.resumed (s : State) : State :=
  let t := (s.woken.upTo 8 fun t p => t.wakePort p).reportHolders
  if s.pwr.st = .deepSleep then t.afterDeep.intRestore else t

/-- Open sessions with reserved streams ask for their reservations again. -/
def State.askEach (s : State) : State :=
  s.each (s.fab.sessions.filter fun x => x.st = SessSt.open_) fun s (x : Session) =>
    if (s.tc2Streams x).isEmpty then s else s.askRsv x

theorem keepsClock_afterDeep : s.KeepsClock s.afterDeep := by
  unfold State.afterDeep
  exact ⟨rfl, rfl⟩

theorem keepsClock_resumed : s.woken.KeepsClock s.resumed := by
  have hlinks := keepsClock_upTo 8 (fun t p => keepsClock_wakePort t p) s.woken
  have hreported := hlinks.trans (keepsClock_reportHolders _)
  exact keepsClock_ite (((keepsClock_intRestore _).after (keepsClock_afterDeep _)).after hreported) hreported

theorem keepsClock_askEach : s.KeepsClock s.askEach :=
  keepsClock_each _ (fun t x => keepsClock_ite (keepsClock_refl t) (keepsClock_askRsv t x)) s

theorem exec_wakeComplete_locked (hwaking : s.pwr.waking = true) (hlocked : s.tim.locked = true) :
    exec .wakeComplete s = .next (s.resumed.askEach.catchUpAll true) :=
  congrArg Host.Outcome.next (if_neg (by simp [hwaking, hlocked]))

end

/-- Settles O49: a wake by its sources and what retention has kept, the ways out of Off by the way in. -/
theorem wakesAndWaysOutOfOff : Obligations.WakesAndWaysOutOfOff := by
  unfold Obligations.WakesAndWaysOutOfOff
  refine ⟨fun s sources hst hwaking => ⟨exec_wakeEvent_none, exec_wakeEvent_lost hst hwaking, fun hm hkept => ?_⟩,
    fun s hst b => ?_, fun s hwaking hlocked hst => ?_, fun s hoff => ?_⟩
  · exact ⟨_, exec_wakeEvent_begins hst hwaking hm hkept, sticky_wake s _, request_wake s _, source_wake s _, wake_frame s _,
      fun b => reg_wake_other s _⟩
  · exact testBit_wakeEnabled s hst b
  · have hclock := ((keepsClock_resumed s).trans (keepsClock_askEach _)).trans (keepsClock_catchUpAll _ true)
    exact ⟨_, exec_wakeComplete_locked s hwaking hlocked, congrArg Pwr.st hclock.pwr, congrArg Pwr.waking hclock.pwr,
      congrArg Pwr.woke hclock.pwr, hclock.time⟩
  · intro out
    refine ⟨fun h => congrArg Host.Outcome.next (if_pos ⟨hoff, h⟩), fun h => ?_,
      fun h => congrArg Host.Outcome.next (if_pos ⟨hoff, h⟩), fun h => congrArg Host.Outcome.next (if_neg fun hin => h hin.2),
      fun h => congrArg Host.Outcome.next (if_neg fun hin => h hin.2),
      fun h => congrArg Host.Outcome.next (if_neg fun hin => h hin.2), fun c => exec_coldReset_off c hoff⟩
    have hrecord : s.wakeRecord 2 = out := by
      unfold State.wakeRecord
      rw [hoff]
      rfl
    exact hrecord ▸ congrArg Host.Outcome.next (if_pos ⟨hoff, h⟩)

end Sys2Proof.Machine
end
